-- ==== Sys2Proof/Word.lean ====
section
/-! DEFINITION. The words of the device: a byte, a 32-bit instruction or lane word, a 64-bit scalar word
(spec/00_scope.md R8, Table 0-2). -/

namespace Sys2Proof

abbrev Byte := BitVec 8
abbrev Word32 := BitVec 32
abbrev Word64 := BitVec 64

end Sys2Proof
end

