-- ==== Sys2Proof/Machine/Maps.lean ====
section
/-! DEFINITION. Sparse maps from a natural key to a word, in one canonical form: keys strictly rising and no
entry equal to zero, which is what an unlisted key reads as. Memory, scratchpads, registers and accumulators
are held in this form, so that equal contents are equal data. -/

namespace Sys2Proof.Machine

/-- A sparse map: (key, value) pairs. -/
abbrev SMap (w : Nat) := List (Nat × BitVec w)

/-- The value at a key; zero where none is listed. -/
def SMap.get {w : Nat} (m : SMap w) (k : Nat) : BitVec w :=
  match m with
  | [] => 0
  | (a, v) :: rest => if a = k then v else SMap.get rest k

/-- The value at a key becomes `v`, in its place in the order. -/
def SMap.put {w : Nat} (m : SMap w) (k : Nat) (v : BitVec w) : SMap w :=
  match m with
  | [] => [(k, v)]
  | (a, x) :: rest =>
    if k < a then (k, v) :: (a, x) :: rest
    else if k = a then (k, v) :: rest
    else (a, x) :: SMap.put rest k v

/-- The value at a key becomes `v`; zero removes the entry. -/
def SMap.set {w : Nat} (m : SMap w) (k : Nat) (v : BitVec w) : SMap w :=
  if v = 0 then m.filter fun p => p.1 != k else m.put k v

/-- Every key is above `b`, keys rise strictly and no value is zero. -/
def SMap.above {w : Nat} (b : Nat) (m : SMap w) : Bool :=
  match m with
  | [] => true
  | (a, v) :: rest => decide (b ≤ a) && decide (v ≠ 0) && SMap.above (a + 1) rest

/-- The canonical form of a sparse map. -/
def SMap.wf {w : Nat} (m : SMap w) : Bool := m.above 0

/-- The `n` values from key `k` on. -/
def SMap.range {w : Nat} (m : SMap w) (k n : Nat) : List (BitVec w) := (List.range n).map fun i => m.get (k + i)

/-- The values of `vs` at keys `k`, `k + 1` and so on. -/
def SMap.setRange {w : Nat} (m : SMap w) (k : Nat) (vs : List (BitVec w)) : SMap w :=
  match vs with
  | [] => m
  | v :: rest => (m.set k v).setRange (k + 1) rest

/-- Every key in [lo, hi) reads as zero afterwards. -/
def SMap.clear {w : Nat} (m : SMap w) (lo hi : Nat) : SMap w := m.filter fun p => !(decide (lo ≤ p.1) && decide (p.1 < hi))

/-- The entries whose key meets `f`; the others read as zero. -/
def SMap.keep {w : Nat} (m : SMap w) (f : Nat → Bool) : SMap w := m.filter fun p => f p.1

/-- Little-endian bytes of a value, lowest first (R8). -/
def bytesOf (n v : Nat) : List Byte := (List.range n).map fun i => BitVec.ofNat 8 (v / 2 ^ (8 * i))

/-- The value of little-endian bytes (R8). -/
def natOf : List Byte → Nat
  | [] => 0
  | b :: rest => b.toNat + 256 * natOf rest

/-- Bits [lo + w - 1 : lo] of a number. -/
def bitsOf (v lo w : Nat) : Nat := v / 2 ^ lo % 2 ^ w

/-- Bit i of a number. -/
def bitOf (v i : Nat) : Bool := v / 2 ^ i % 2 == 1

/-- A value cut to w bits and placed at bit `lo`. -/
def place (v lo w : Nat) : Nat := v % 2 ^ w * 2 ^ lo

/-- The lanes of a mask, lowest first. -/
def lanesOf (m : Word32) : List Nat := (List.range 32).filter fun l => m.getLsbD l

/-- The mask that holds the lanes of a list. -/
def maskOf (ls : List Nat) : Word32 := ls.foldl (fun m l => m ||| (1#32 <<< l)) 0

/-- The lowest lane of a mask; 0 when it is empty. -/
def lowLane (m : Word32) : Nat := (lanesOf m).headD 0

/-- Insert into a list sorted by `le`, after its equals. -/
def insertBy {α : Type} (le : α → α → Bool) (x : α) : List α → List α
  | [] => [x]
  | y :: ys => if le y x then y :: insertBy le x ys else x :: y :: ys

/-- A stable sort. -/
def sortBy {α : Type} (le : α → α → Bool) (xs : List α) : List α := xs.foldl (fun r x => insertBy le x r) []

/-- A two's-complement reading of the low w bits of a number. -/
def signedOf (w v : Nat) : Int := (BitVec.ofNat w v).toInt

end Sys2Proof.Machine
end

