-- ==== Sys2Proof/Machine/Float.lean ====
section
/-! DEFINITION. Number formats and exact arithmetic (spec/07 R172 to R198): exact values, the one rounding
function, conversions, minimum and maximum, dot products and the function library. -/

namespace Sys2Proof.Machine

/-! ## Exact values -/

/-- An exact value: a NaN or an infinity with its sign, or ±m × 2^e; a zero keeps its sign (R176). -/
inductive Val where
  | nan (neg : Bool)
  | inf (neg : Bool)
  | fin (neg : Bool) (m : Nat) (e : Int)
  deriving DecidableEq, Repr

/-- The flags an operation sets (R200): an invalid operation, an overflow, a NaN produced. -/
structure FpFlags where
  invalid : Bool := false
  ovf : Bool := false
  nan : Bool := false
  deriving DecidableEq, Repr

def FpFlags.or (a b : FpFlags) : FpFlags := ⟨a.invalid || b.invalid, a.ovf || b.ovf, a.nan || b.nan⟩

/-- A value with the flags of the steps that made it. -/
structure Fp (α : Type) where
  val : α
  fl : FpFlags := {}

def zeroVal (neg : Bool) : Val := .fin neg 0 0

def Val.neg? (v : Val) : Bool :=
  match v with
  | .nan n => n
  | .inf n => n
  | .fin n _ _ => n

def Val.isNan (v : Val) : Bool := match v with | .nan _ => true | _ => false
def Val.isInf (v : Val) : Bool := match v with | .inf _ => true | _ => false
def Val.isZero (v : Val) : Bool := match v with | .fin _ m _ => m == 0 | _ => false

/-- Negation changes the sign alone (R176). -/
def Val.negate (v : Val) : Val :=
  match v with
  | .nan n => .nan (!n)
  | .inf n => .inf (!n)
  | .fin n m e => .fin (!n) m e

def Val.abs (v : Val) : Val :=
  match v with
  | .nan _ => .nan false
  | .inf _ => .inf false
  | .fin _ m e => .fin false m e

/-- floor(log2 m) of a positive number. -/
def log2 (m : Nat) : Nat := Nat.log2 m

/-- A power of two times a natural number: `m × 2^k` for k ≥ 0, truncated for k < 0. -/
def scaleNat (m : Nat) (k : Int) : Nat :=
  match k with
  | .ofNat n => m * 2 ^ n
  | .negSucc n => m / 2 ^ (n + 1)

/-- The signed integer m × 2^(e − base) of a finite value, for base ≤ e. -/
def Val.scaled (v : Val) (base : Int) : Int :=
  match v with
  | .fin neg m e => let x : Int := scaleNat m (e - base); if neg then -x else x
  | _ => 0

def Val.exp (v : Val) : Int := match v with | .fin _ m e => if m = 0 then 0 else e | _ => 0

/-- Order of exact values, NaN apart: −1, 0 or 1, with −0 equal to +0. -/
def Val.cmp (a b : Val) : Int :=
  match a, b with
  | .inf x, .inf y => if x = y then 0 else if x then -1 else 1
  | .inf x, _ => if x then -1 else 1
  | _, .inf y => if y then 1 else -1
  | a, b =>
    let base := min a.exp b.exp
    let d := a.scaled base - b.scaled base
    if d < 0 then -1 else if d = 0 then 0 else 1

/-- The sign of a zero sum: kept where every term has it, else plus, minus under RDN (R180). -/
def zeroSum (rdn : Bool) (signs : List Bool) : Val :=
  if signs.all id && !signs.isEmpty then zeroVal true
  else if signs.all (!·) then zeroVal false
  else zeroVal rdn

/-- The exact sum of values (R180, R189): NaN for a NaN term or infinities of both signs. -/
def sumVals (rdn : Bool) (vs : List Val) : Fp Val :=
  if vs.any Val.isNan then { val := .nan false }
  else
    let infs := vs.filter Val.isInf
    match infs with
    | i :: rest => if rest.all (· == i) then { val := i } else { val := .nan false, fl := { invalid := true } }
    | [] =>
      let base := vs.foldl (fun b v => min b v.exp) (vs.headD (zeroVal false)).exp
      let t := vs.foldl (fun a v => a + v.scaled base) (0 : Int)
      if t = 0 then { val := zeroSum rdn (vs.map Val.neg?) }
      else { val := .fin (decide (t < 0)) t.natAbs base }

/-- The exact product (R176, R177): 0 × ∞ is invalid. R177 speaks of operands that are no NaN: beside a NaN in another term, 0 × ∞ still sets
INVALID here, while ∞ − ∞ in a sum that holds a NaN sets none (DESIGN CHOICE, log entry 79). -/
def mulVal (a b : Val) : Fp Val :=
  if a.isNan || b.isNan then { val := .nan false }
  else
    let neg := xor a.neg? b.neg?
    match a, b with
    | .inf _, v => if v.isZero then { val := .nan false, fl := { invalid := true } } else { val := .inf neg }
    | v, .inf _ => if v.isZero then { val := .nan false, fl := { invalid := true } } else { val := .inf neg }
    | .fin _ m e, .fin _ n f => { val := .fin neg (m * n) (e + f) }
    | _, _ => { val := .nan false }

/-! ## Formats (R175 Table 7-2) -/

/-- A floating-point format: field widths, bias, and the largest finite value as `maxM` × 2^`maxE`. -/
structure Fmt where
  ebits : Nat
  mbits : Nat
  bias : Nat
  maxM : Nat
  maxE : Int
  hasInf : Bool
  hasNan : Bool
  deriving DecidableEq, Repr

def fp32 : Fmt := ⟨8, 23, 127, 2 ^ 24 - 1, 104, true, true⟩
def bf16 : Fmt := ⟨8, 7, 127, 255, 120, true, true⟩
def fp16 : Fmt := ⟨5, 10, 15, 2047, 5, true, true⟩
def e5m2 : Fmt := ⟨5, 2, 15, 7, 13, true, true⟩
def e4m3 : Fmt := ⟨4, 3, 7, 14, 5, false, true⟩
def e3m2 : Fmt := ⟨3, 2, 3, 7, 2, false, false⟩
def e2m3 : Fmt := ⟨2, 3, 1, 15, -1, false, false⟩
def e2m1 : Fmt := ⟨2, 1, 1, 3, 1, false, false⟩

def Fmt.bits (f : Fmt) : Nat := 1 + f.ebits + f.mbits

/-- The exponent of a format's smallest normal (Table 7-2). -/
def Fmt.emin (f : Fmt) : Int := 1 - (f.bias : Int)

/-- A format's canonical NaN with a sign (R177): exponent all ones and the top mantissa bit, all ones in E4M3. -/
def Fmt.nanBits (f : Fmt) (neg : Bool) : Nat :=
  neg.toNat * 2 ^ (f.ebits + f.mbits) + (2 ^ f.ebits - 1) * 2 ^ f.mbits
    + (if f.hasInf then 2 ^ (f.mbits - 1) else 2 ^ f.mbits - 1)

def Fmt.infBits (f : Fmt) (neg : Bool) : Nat :=
  neg.toNat * 2 ^ (f.ebits + f.mbits) + (2 ^ f.ebits - 1) * 2 ^ f.mbits

/-- R175: the value of a bit pattern. -/
def Fmt.value (f : Fmt) (x : Nat) : Val :=
  let m := bitsOf x 0 f.mbits
  let e := bitsOf x f.mbits f.ebits
  let neg := bitOf x (f.ebits + f.mbits)
  if f.hasInf && e == 2 ^ f.ebits - 1 then (if m = 0 then .inf neg else .nan neg)
  else if f.hasNan && !f.hasInf && e == 2 ^ f.ebits - 1 && m == 2 ^ f.mbits - 1 then .nan neg
  else if e = 0 then .fin neg m (f.emin - f.mbits)
  else .fin neg (2 ^ f.mbits + m) ((e : Int) - f.bias - f.mbits)

/-- The bit pattern of ±mant × 2^q, on the grid of a format and not above its largest finite value. -/
def Fmt.encode (f : Fmt) (neg : Bool) (mant : Nat) (q : Int) : Nat :=
  let sign := neg.toNat * 2 ^ (f.ebits + f.mbits)
  if mant < 2 ^ f.mbits then sign + mant
  else
    let (mant, q) := if mant = 2 ^ (f.mbits + 1) then (2 ^ f.mbits, q + 1) else (mant, q)
    sign + ((q + f.mbits + f.bias).toNat) * 2 ^ f.mbits + (mant - 2 ^ f.mbits)

/-! ## Rounding (R178, R179, R182) -/

/-- A rounding mode of Table 7-3 and the 24 bits that RSR draws. -/
structure Rounder where
  mode : Nat
  rnd : Nat := 0
  deriving DecidableEq, Repr

def rne : Rounder := { mode := 0 }

/-- Whether the neighbour farther from zero is chosen (Table 7-3): `z` is the nearer neighbour's mantissa, `rem`
of 2^d the part beyond it. -/
def Rounder.away (r : Rounder) (neg : Bool) (z rem d : Nat) : Bool :=
  if rem = 0 then false
  else
    let half := 2 ^ d
    match r.mode with
    | 0 => decide (half < 2 * rem) || (2 * rem == half && z % 2 == 1)
    | 1 => false
    | 2 => neg
    | 3 => !neg
    | 4 => decide (half ≤ 2 * rem)
    | _ => decide (r.rnd < rem * 2 ^ 24 / half)

/-- R178: the mantissa and exponent that ±m × 2^e rounds to on a format's grid, its exponent unbounded above. -/
def Fmt.grid (f : Fmt) (r : Rounder) (neg : Bool) (m : Nat) (e : Int) : Nat × Int :=
  let top := e + log2 m
  let q := max top f.emin - f.mbits
  if q ≤ e then (scaleNat m (e - q), q)
  else
    let d := (q - e).toNat
    let z := m / 2 ^ d
    let rem := m % 2 ^ d
    (if r.away neg z rem d then z + 1 else z, q)

/-- R179: a magnitude above the largest finite value of the format. -/
def Fmt.over (f : Fmt) (mant : Nat) (q : Int) : Bool :=
  if f.maxE ≤ q then decide (f.maxM < scaleNat mant (q - f.maxE)) else decide (scaleNat f.maxM (f.maxE - q) < mant)

/-- R179 Table 7-4: what an overflowing finite value gives. -/
def Fmt.overflow (f : Fmt) (r : Rounder) (sat neg : Bool) : Fp Nat :=
  let big := f.encode neg f.maxM f.maxE
  if !f.hasNan then { val := big, fl := { ovf := true } }
  else if !f.hasInf then
    if sat then { val := big, fl := { ovf := true } }
    else { val := f.nanBits neg, fl := { ovf := true, invalid := true, nan := true } }
  else if sat then { val := big, fl := { ovf := true } }
  else
    let toInf := match r.mode with
      | 1 => false
      | 2 => neg
      | 3 => !neg
      | _ => true
    { val := if toInf then f.infBits neg else big, fl := { ovf := true } }

/-- R178, R179, R183: the bit pattern a value rounds to. A NaN gives the canonical NaN with its sign; in a format
without NaN it gives zero and the caller applies R187. -/
def Fmt.round (f : Fmt) (r : Rounder) (sat : Bool) (v : Val) : Fp Nat :=
  match v with
  | .nan neg => { val := if f.hasNan then f.nanBits neg else 0, fl := { nan := true } }
  | .inf neg =>
    if f.hasInf then { val := f.infBits neg }
    else if !f.hasNan || sat then { val := f.encode neg f.maxM f.maxE }
    else { val := f.nanBits neg, fl := { invalid := true, nan := true } }
  | .fin neg m e =>
    if m = 0 then { val := neg.toNat * 2 ^ (f.ebits + f.mbits) }
    else
      let (mant, q) := f.grid r neg m e
      if f.over mant q then f.overflow r sat neg else { val := f.encode neg mant q }

/-- An arithmetic result is the canonical NaN, whatever sign its operands held (R177). -/
def Fmt.arith (f : Fmt) (r : Rounder) (sat : Bool) (v : Fp Val) : Fp Nat :=
  let x := f.round r sat (if v.val.isNan then .nan false else v.val)
  { val := x.val, fl := v.fl.or x.fl }

/-- The mix function and the 24 bits of R182. -/
def rsrMix (z : Nat) : Nat :=
  let z := (z ^^^ (z / 2 ^ 30)) * 0xBF58476D1CE4E5B9 % 2 ^ 64
  let z := (z ^^^ (z / 2 ^ 27)) * 0x94D049BB133111EB % 2 ^ 64
  z ^^^ (z / 2 ^ 31)

def rsrBits (seed clock : Word64) (g src elem : Nat) : Nat :=
  let k1 := (clock.toNat + 1) % 2 ^ 64
  let k2 := g % 2 ^ 16 * 2 ^ 32 ||| src * 2 ^ 24 ||| elem % 2 ^ 24
  let h := rsrMix ((seed.toNat + k1 * 0x9E3779B97F4A7C15) % 2 ^ 64)
  let h := rsrMix ((h + k2 * 0x9E3779B97F4A7C15) % 2 ^ 64)
  bitsOf h 40 24

/-! ## Minimum, maximum and integers (R188, R174, R184) -/

/-- R188: −0 lies below +0; a NaN operand gives NaN. -/
def minVal (a b : Val) (wantMax : Bool) : Val :=
  if a.isNan || b.isNan then .nan false
  else
    let c := a.cmp b
    let aLess := decide (c < 0) || (c == 0 && a.neg? && !b.neg?)
    if aLess != wantMax then a else b

/-- R174: an exact integer result at a width and signedness. -/
def intResult (w : Nat) (sgn sat : Bool) (x : Int) : Fp Nat :=
  let lo : Int := if sgn then -(2 ^ (w - 1) : Int) else 0
  let hi : Int := if sgn then 2 ^ (w - 1) - 1 else 2 ^ w - 1
  if sat && decide (x < lo) then { val := (lo % 2 ^ w).toNat, fl := { ovf := true } }
  else if sat && decide (hi < x) then { val := (hi % 2 ^ w).toNat, fl := { ovf := true } }
  else { val := (x % 2 ^ w).toNat }

/-- An integer's value at a width and signedness. -/
def intVal (w : Nat) (sgn : Bool) (x : Nat) : Int := if sgn then signedOf w x else ((x % 2 ^ w : Nat) : Int)

/-- The exact value of an integer. -/
def valOfInt (x : Int) : Val := .fin (decide (x < 0)) x.natAbs 0

/-- R178 with the integers as the grid: a finite value rounded to an integer. -/
def roundInt (r : Rounder) (neg : Bool) (m : Nat) (e : Int) : Nat :=
  if 0 ≤ e then scaleNat m e
  else
    let d := (-e).toNat
    let z := m / 2 ^ d
    if r.away neg z (m % 2 ^ d) d then z + 1 else z

/-- R184: conversion of a value to an integer type. -/
def toInteger (r : Rounder) (w : Nat) (sgn : Bool) (v : Val) : Fp Nat :=
  match v with
  | .nan _ => { val := 0, fl := { invalid := true } }
  | .inf neg =>
    let x : Int := if neg then -(2 ^ 200 : Int) else 2 ^ 200
    { val := (intResult w sgn true x).val, fl := { invalid := true } }
  | .fin neg m e =>
    let n : Int := roundInt r neg m e
    intResult w sgn true (if neg then -n else n)

/-! ## FP32 steps of the function library (R194 to R198)

Every step rounds with RNE and SAT = 0; steps set no flag, the function as a whole does. -/

def f32 (x : Nat) : Val := fp32.value x
def bitsF (v : Val) : Val := fp32.value (fp32.round rne false (if v.isNan then .nan false else v)).val

def fmulL (a b : Val) : Val := bitsF (mulVal a b).val
def faddL (a b : Val) : Val := bitsF (sumVals false [a, b]).val
/-- fma(a, b, c) = a × b + c, rounded once. -/
def ffmaL (a b c : Val) : Val :=
  let p := (mulVal a b).val
  bitsF (sumVals false [p, c]).val
def fscalb (v : Val) (n : Int) : Val :=
  match v with
  | .fin neg m e => bitsF (.fin neg m (e + n))
  | v => v

/-- expo(x): floor(log2 |x|) of a finite non-zero value. -/
def expoOf (v : Val) : Int := match v with | .fin _ m e => e + log2 m | _ => 0

def frndi (v : Val) : Val :=
  match v with
  | .fin neg m e => .fin neg (roundInt rne neg m e) 0
  | v => v

/-- The integer value of an integral FP value. -/
def intOf (v : Val) : Int := match v with | .fin neg m e => (let x : Int := scaleNat m e; if neg then -x else x) | _ => 0

def oneV : Val := .fin false 1 0
def halfV : Val := .fin false 1 (-1)
def twoV : Val := .fin false 2 0

/-- A polynomial by fused steps, highest coefficient first. -/
def horner (x : Val) (cs : List Nat) : Val :=
  match cs with
  | [] => zeroVal false
  | c :: rest => rest.foldl (fun p k => ffmaL p x (f32 k)) (f32 c)

/-- A library result: its value and the flags of R194 (INVALID in the listed cases; OVF where a finite input gives
an infinite result by overflow). -/
structure Lib where
  val : Val
  invalid : Bool := false
  ovf : Bool := false

/-- A result of the steps: OVF where the inputs were finite and it is infinite. -/
def libOf (inputs : List Val) (v : Val) : Lib :=
  { val := if v.isNan then .nan false else v, ovf := v.isInf && inputs.all fun x => !x.isInf && !x.isNan }

def gt (a b : Val) : Bool := decide (0 < a.cmp b)
def lt (a b : Val) : Bool := decide (a.cmp b < 0)

/-- R195. -/
def libExp (x : Val) : Lib :=
  if x.isNan then { val := .nan false }
  else if gt x (.fin false 89 0) then { val := .inf false, ovf := !x.isInf }
  else if lt x (.fin true 104 0) then { val := zeroVal false }
  else
    let n := frndi (fmulL x (f32 0x3FB8AA3B))
    let r := ffmaL n.negate (f32 0x3F317200) x
    let r := ffmaL n.negate (f32 0x35BFBE8E) r
    let p := horner r [0x39500D01, 0x3AB60B61, 0x3C088889, 0x3D2AAAAB, 0x3E2AAAAB, 0x3F000000, 0x3F800000, 0x3F800000]
    libOf [x] (fscalb p (intOf n))

def libExp2 (x : Val) : Lib :=
  if x.isNan then { val := .nan false }
  else if gt x (.fin false 128 0) then { val := .inf false, ovf := !x.isInf }
  else if lt x (.fin true 151 0) then { val := zeroVal false }
  else
    let n := frndi x
    let f := faddL x n.negate
    let p := horner f [0x39218489, 0x3AAEC3FF, 0x3C1D955B, 0x3D635847, 0x3E75FDF0, 0x3F317218, 0x3F800000]
    libOf [x] (fscalb p (intOf n))

/-- R196. -/
def libRcp (y : Val) : Lib :=
  match y with
  | .nan _ => { val := .nan false }
  | .inf neg => { val := zeroVal neg }
  | .fin neg m _ =>
    if m = 0 then { val := .inf neg }
    else
      let e := expoOf y
      let mm := fscalb y.abs (-e)
      let z := ffmaL (f32 0x3EF0F0F1).negate mm (f32 0x3FB4B4B5)
      let z := (List.range 3).foldl (fun z _ => ffmaL z (ffmaL mm.negate z oneV) z) z
      let v := fscalb z (-e)
      libOf [y] (if neg then v.negate else v)

def libDiv (a b : Val) : Lib :=
  if a.isNan || b.isNan then { val := .nan false }
  else if (a.isZero && b.isZero) || (a.isInf && b.isInf) then { val := .nan false, invalid := true }
  else
    let neg := xor a.neg? b.neg?
    if b.isZero then { val := .inf neg }
    else if a.isInf then { val := .inf neg }
    else if b.isInf then { val := zeroVal neg }
    else
      let w := (libRcp b).val
      let q := fmulL a w
      let h := ffmaL b.negate q a
      libOf [a, b] (ffmaL h w q)

def libRsqrt (y : Val) : Lib :=
  if y.isNan then { val := .nan false }
  else if y.isZero then { val := .inf y.neg? }
  else if y.neg? then { val := .nan false, invalid := true }
  else if y.isInf then { val := zeroVal false }
  else
    let e := expoOf y
    let e := if e % 2 = 0 then e else e - 1
    let m := fscalb y (-e)
    let z := ffmaL (f32 0x3E2AAAAB).negate m (f32 0x3F955555)
    let hm := fmulL m halfV
    let z := (List.range 4).foldl (fun z _ =>
      let u := fmulL z z
      let w := ffmaL hm.negate u halfV
      ffmaL z w z) z
    libOf [y] (fscalb z (-(e / 2)))

def libSqrt (y : Val) : Lib :=
  if y.isNan then { val := .nan false }
  else if y.isZero then { val := y }
  else if y.neg? then { val := .nan false, invalid := true }
  else if y.isInf then { val := y }
  else
    let z := (libRsqrt y).val
    let s := fmulL y z
    let h := ffmaL s.negate s y
    libOf [y] (ffmaL h (fmulL z halfV) s)

/-- The common part of R197: the exponent and the logarithm of the fraction. -/
def logParts (x : Val) : Val × Val :=
  let e := expoOf x
  let m := fscalb x (-e)
  let big := gt m (f32 0x3FB504F3)
  let e := if big then e + 1 else e
  let m := if big then fmulL m halfV else m
  let s := (libDiv (faddL m oneV.negate) (faddL m oneV)).val
  let z := fmulL s s
  let t := horner z [0x3DE38E39, 0x3E124925, 0x3E4CCCCD, 0x3EAAAAAB]
  let w := fmulL s twoV
  (valOfInt e, ffmaL w (fmulL z t) w)

/-- R197: log and log2. -/
def libLog (base2 : Bool) (x : Val) : Lib :=
  if x.isNan then { val := .nan false }
  else if x.isZero then { val := .inf true }
  else if x.neg? then { val := .nan false, invalid := true }
  else if x.isInf then { val := x }
  else
    let (e, l) := logParts x
    if base2 then libOf [x] (ffmaL l (f32 0x3FB8AA3B) e)
    else libOf [x] (ffmaL e (f32 0x3F317200) (ffmaL e (f32 0x35BFBE8E) l))

/-- R198. -/
def libTanh (x : Val) : Lib :=
  if x.isNan then { val := .nan false }
  else if lt x.abs (.fin false 1 (-12)) then { val := x }
  else if !(lt x.abs (.fin false 9 0)) then { val := if x.neg? then oneV.negate else oneV }
  else
    let t := (libExp (fmulL x.abs twoV)).val
    let y := ffmaL twoV.negate (libRcp (faddL t oneV)).val oneV
    libOf [x] (if x.neg? then y.negate else y)

def libSigmoid (x : Val) : Lib :=
  if x.isNan then { val := .nan false }
  else libOf [x] (libRcp (faddL oneV (libExp x.negate).val)).val

def libSilu (x : Val) : Lib :=
  match x with
  | .nan _ => { val := .nan false }
  | .inf neg => { val := if neg then zeroVal true else .inf false }
  | x => libOf [x] (fmulL x (libSigmoid x).val)

def libGelu (x : Val) : Lib :=
  match x with
  | .nan _ => { val := .nan false }
  | .inf neg => { val := if neg then zeroVal true else .inf false }
  | x =>
    let u := fmulL x x
    let w := fmulL u (f32 0x3D372713)
    let k := ffmaL w x x
    let t := (libTanh (fmulL k (f32 0x3F4C422A))).val
    let h := fmulL x halfV
    libOf [x] (ffmaL h t h)

/-! ## Lane types (R172 Table 7-1) -/

/-- How an element of a lane type is read. -/
inductive ElemKind where
  | int (w : Nat) (sgn : Bool)
  | fp (f : Fmt)
  deriving DecidableEq, Repr

def kindOf (t : Nat) : ElemKind :=
  match t with
  | 0 => .int 32 true
  | 1 => .int 32 false
  | 2 => .fp fp32
  | 3 => .fp bf16
  | 4 => .fp fp16
  | 5 => .int 16 true
  | 6 => .int 16 false
  | 7 => .fp e4m3
  | 8 => .fp e5m2
  | 9 => .int 8 true
  | 10 => .int 8 false
  | 11 => .int 64 true
  | _ => .int 64 false

def ElemKind.width (k : ElemKind) : Nat :=
  match k with
  | .int w _ => w
  | .fp f => f.bits

/-- Elements per lane of a type (Table 7-1). -/
def elemCount (t : Nat) : Nat := if t = 11 ∨ t = 12 then 1 else 32 / (kindOf t).width

/-- R183, R184: conversion of an element between two types. -/
def convert (src dst : ElemKind) (r : Rounder) (sat : Bool) (x : Nat) : Fp Nat :=
  match src, dst with
  | .fp f, .fp g => g.round r sat (f.value x)
  | .fp f, .int w sgn => toInteger r w sgn (f.value x)
  | .int w sgn, .fp g => g.round r sat (valOfInt (intVal w sgn x))
  | .int w sgn, .int w' sgn' => intResult w' sgn' sat (intVal w sgn x)

end Sys2Proof.Machine
end

