-- ==== Sys2Proof/Syntax.lean ====
section
/-! DEFINITION. The instructions of the device: one constructor for each row of spec/opcode_table.json.
Scalar words and lane instructions carry every bit of their words, reserved bits included, so that
WellFormed holds every legality check; the rows of the table that are device events carry the operands
that say which agent moves (DESIGN CHOICE, log entry 1). -/

namespace Sys2Proof

/-- The R form of a scalar word (spec/11 Table 11-4): bits [23:17] SD, [16:10] SA, [9:3] SB,
[2:1] reserved, [0] W. -/
structure RForm where
  d : BitVec 7
  a : BitVec 7
  b : BitVec 7
  rsv : BitVec 2
  w : BitVec 1
  deriving DecidableEq, Repr

/-- The I form (Table 11-4): SD, SA, IMM10. -/
structure IForm where
  d : BitVec 7
  a : BitVec 7
  imm : BitVec 10
  deriving DecidableEq, Repr

/-- The B form (R286): SA in [23:17], OFF17 in [16:0]. -/
structure BForm where
  a : BitVec 7
  off : BitVec 17
  deriving DecidableEq, Repr

/-- The J form (Table 11-4): OFF24. -/
structure JForm where
  off : BitVec 24
  deriving DecidableEq, Repr

/-- The M form (Table 11-4): SD or SS, BUF, SX, W, SCOPE. -/
structure MForm where
  d : BitVec 7
  buf : BitVec 5
  sx : BitVec 7
  w : BitVec 2
  scope : BitVec 3
  deriving DecidableEq, Repr

/-- The Y form (Table 11-4): SD, SA, SUB. -/
structure YForm where
  d : BitVec 7
  a : BitVec 7
  sub : BitVec 10
  deriving DecidableEq, Repr

/-- STLB (R129 Table 5-5): the Y form with SUB [9:6] reserved, [5:3] SCOPE; [2:0] KIND is the row. -/
structure StlbForm where
  d : BitVec 7
  a : BitVec 7
  rsv : BitVec 4
  scope : BitVec 3
  deriving DecidableEq, Repr

/-- The fields of the three words of a lane instruction but for its opcode (R288 Table 11-6). -/
structure Lane where
  vd : BitVec 11
  va : BitVec 11
  vb : BitVec 11
  vc : BitVec 11
  ss : BitVec 7
  bsb : BitVec 1
  bsc : BitVec 1
  rsv : BitVec 1
  mask : BitVec 4
  minv : BitVec 1
  type : BitVec 4
  rm : BitVec 3
  sat : BitVec 1
  fs : BitVec 1
  scope : BitVec 3
  ord : BitVec 2
  imm : BitVec 13
  deriving DecidableEq, Repr

/-- A group by its logical indices: node index, workgroup index w and local group index j (R207). -/
structure GroupId where
  node : Nat
  w : Nat
  j : Nat
  deriving DecidableEq, Repr

/-- A workgroup by node index and logical workgroup index (R207). -/
structure WgId where
  node : Nat
  w : Nat
  deriving DecidableEq, Repr

/-- The engine contexts of R323. -/
inductive Ctx where
  | copy0
  | copy1
  | xform
  | mpair
  | attn
  | sel
  | dem
  | xred
  | spore (chan : BitVec 6)
  /-- The commands of R267 that run to completion without a timeline: MFILL, MACCRD and HREC. -/
  | tileOp
  deriving DecidableEq, Repr

/-- A command in flight: its workgroup, its context and its number (R109). -/
structure CmdId where
  wg : WgId
  ctx : Ctx
  num : Nat
  deriving DecidableEq, Repr

/-- Who asks the KV walker for a transaction: a path of a group or a command (R387, R388). -/
inductive Requester where
  | path (g : GroupId) (slot : Bool)
  | cmd (c : CmdId)
  deriving DecidableEq, Repr

/-- A host or PF1 access to memory at a package physical address (R446, R453). -/
inductive HostReq where
  | read (pa n : Nat)
  | write (pa : Nat) (bytes : List Byte)
  | fetchAdd (pa n : Nat) (v : Word64)
  | swap (pa n : Nat) (v : Word64)
  | cas (pa n : Nat) (cmp v : Word64)
  /-- a read of BAR0 by the host (R447) -/
  | bar (off size : Nat)
  deriving DecidableEq, Repr

/-- Whose XPUT sector arrives at its target (R421): a command's of this package, or another package's, as bytes for a die's
scratchpad with their barrier record and the generation carried. -/
inductive PutSource where
  | own (c : CmdId)
  | foreign (asid : BitVec 12) (die : BitVec 2) (toff : Nat) (bytes : List Byte) (poisoned : Bool) (bar : Option (Nat × BitVec 16))
  deriving DecidableEq, Repr

/-- What a target's acknowledgement of an XPUT sector says (R421, R275): a byte or the barrier record lay outside every grant, the
record's fields are refused, its generation has passed, and then whether it asks for a trap. -/
structure PutAnswer where
  refused : Bool := false
  bad : Bool := false
  stale : Bool := false
  strap : Bool := false
  deriving DecidableEq, Repr

/-- The acknowledgement of an XPUT sector: its number and the target's answer (R421). -/
structure PutAck where
  number : Nat
  answer : PutAnswer := {}
  deriving DecidableEq, Repr

/-- Who contributes to a line of a switch reduction (R425): a command of this package, or another package: its issuer and number,
the lines of the members as addresses of this package (spec/02 R56) in the order of its peer set, NCONT, operation, type and the
words it covers with their places, and the places that carry poison. -/
inductive RedSource where
  | own (c : CmdId)
  | foreign (pkg num : Nat) (members : List Nat) (ncont op type : Nat) (words : List (Nat × Word32)) (poison : List Nat)
  deriving DecidableEq, Repr

/-- The node that a twin's message is for (R234): the package that sends it, the node's ASID and its index. -/
structure TwinNode where
  pkg : BitVec 12
  asid : BitVec 12
  index : Nat
  deriving DecidableEq, Repr

/-- A route of the routing table (R452): a package, its hop count and the Freip port that leads to it; none for the package
itself. -/
structure Route where
  pkg : Nat
  hops : Nat
  port : Option Nat
  deriving DecidableEq, Repr

/-- What an uncorrectable soft error marks (R206, R458). -/
inductive PoisonTarget where
  /-- the 32-byte sector of memory that holds the address -/
  | sector (pa : Nat)
  /-- the host completes the next request for the 32-byte sector of the host window with an error (R448) -/
  | hostError (pa : Nat)
  /-- the 32-byte sector of a workgroup's core scratchpad -/
  | scratch (w : WgId) (off : Nat)
  /-- the 32-byte sector of a node's die-scratchpad grant on a die -/
  | dieScratch (node : Nat) (die : BitVec 2) (off : Nat)
  /-- the 32-byte sector of a node's quad-memory grant on a quad of a die -/
  | quadMem (node : Nat) (die : BitVec 2) (quad : Nat) (off : Nat)
  | vreg (g : GroupId) (reg lane : Nat)
  | sreg (g : GroupId) (reg : Nat)
  | mreg (g : GroupId) (reg : Nat)
  | breg (g : GroupId) (reg : Nat)
  | acc (w : WgId) (acc row col : Nat)
  | operand (w : WgId) (follower : Bool) (slot row col : Nat)
  /-- the 32-byte sector of a spore's payload in a slot of a channel -/
  | spore (chan : BitVec 6) (slot off : Nat)
  deriving DecidableEq, Repr

/-- Why a word decodes to no instruction (R295, Table 10-4 row ILLOP). -/
inductive DecodeError where
  /-- ILLOP/OPCODE: an unassigned opcode -/
  | opcode
  /-- ILLOP/FIELD: a reserved field or value -/
  | field
  /-- ILLOP/ANNOT: an illegal ORD and SCOPE (R96) -/
  | annot
  /-- ILLCL/STRADDLE: its words do not all lie in the clause body (R280) -/
  | straddle
  /-- ILLCL/HEADER: a body word whose bits [31:30] are 0b11 (R280) -/
  | header
  deriving DecidableEq, Repr

/-- The instructions and device events of spec/opcode_table.json, in its order but for the events that only the world
outside the cores and engines makes, which come last. -/
inductive Instr where
  /-- SNOP (R287): Scalar no-operation; the all-zero word. -/
  | snop (f : YForm)
  /-- SADD (R308): S[SD] := S[SA] + S[SB], modulo 2^64, or at 32 bits with .w. -/
  | sadd (f : RForm)
  /-- SSUB (R308): S[SD] := S[SA] - S[SB]. -/
  | ssub (f : RForm)
  /-- SMUL (R308): S[SD] := low 64 bits of the product of S[SA] and S[SB]. -/
  | smul (f : RForm)
  /-- SMULH (R308): S[SD] := high half of the signed 128-bit product. -/
  | smulh (f : RForm)
  /-- SMULHU (R308): S[SD] := high half of the unsigned 128-bit product. -/
  | smulhu (f : RForm)
  /-- SDIV (R310): Signed division truncating towards zero, never trapping. -/
  | sdiv (f : RForm)
  /-- SDIVU (R310): Unsigned division; a zero divisor gives all ones. -/
  | sdivu (f : RForm)
  /-- SREM (R310): Signed remainder with the sign of the dividend. -/
  | srem (f : RForm)
  /-- SREMU (R310): Unsigned remainder; a zero divisor gives the dividend. -/
  | sremu (f : RForm)
  /-- SAND (R308): Bitwise AND of two scalar registers. -/
  | sand (f : RForm)
  /-- SOR (R308): Bitwise OR of two scalar registers. -/
  | sor (f : RForm)
  /-- SXOR (R308): Bitwise XOR of two scalar registers. -/
  | sxor (f : RForm)
  /-- SSHL (R308): Shift left by S[SB] mod 64. -/
  | sshl (f : RForm)
  /-- SSHR (R308): Logical shift right by S[SB] mod 64. -/
  | sshr (f : RForm)
  /-- SSRA (R308): Arithmetic shift right by S[SB] mod 64. -/
  | ssra (f : RForm)
  /-- SMIN (R308): Signed minimum. -/
  | smin (f : RForm)
  /-- SMAX (R308): Signed maximum. -/
  | smax (f : RForm)
  /-- SMINU (R308): Unsigned minimum. -/
  | sminu (f : RForm)
  /-- SMAXU (R308): Unsigned maximum. -/
  | smaxu (f : RForm)
  /-- SSEQ (R308): S[SD] := 1 if the operands are equal, else 0. -/
  | sseq (f : RForm)
  /-- SSLT (R308): S[SD] := 1 if S[SA] < S[SB] signed. -/
  | sslt (f : RForm)
  /-- SSLTU (R308): S[SD] := 1 if S[SA] < S[SB] unsigned. -/
  | ssltu (f : RForm)
  /-- SSEL (R308): Selects S[SA] or S[SB] by the old value of S[SD]. -/
  | ssel (f : RForm)
  /-- SPOPC (R308): Population count of S[SA]. -/
  | spopc (f : RForm)
  /-- SCLZ (R308): Leading zeros of S[SA]. -/
  | sclz (f : RForm)
  /-- SCTZ (R308): Trailing zeros of S[SA]. -/
  | sctz (f : RForm)
  /-- SBFX (R308): Extracts a bit field of S[SA] with position and width from S[SB]. -/
  | sbfx (f : RForm)
  /-- SBFI (R308): Inserts the low bits of S[SA] into a field of S[SD]. -/
  | sbfi (f : RForm)
  /-- SADDI (R311): S[SD] := S[SA] + sign-extended IMM10. -/
  | saddi (f : IForm)
  /-- SANDI (R311): S[SD] := S[SA] AND immediate. -/
  | sandi (f : IForm)
  /-- SORI (R311): S[SD] := S[SA] OR immediate. -/
  | sori (f : IForm)
  /-- SXORI (R311): S[SD] := S[SA] XOR immediate. -/
  | sxori (f : IForm)
  /-- SSHLI (R311): Shift left by an immediate amount 0-63. -/
  | sshli (f : IForm)
  /-- SSHRI (R311): Logical shift right by an immediate amount. -/
  | sshri (f : IForm)
  /-- SSRAI (R311): Arithmetic shift right by an immediate amount. -/
  | ssrai (f : IForm)
  /-- SSLTI (R311): Signed compare less-than with an immediate. -/
  | sslti (f : IForm)
  /-- SSLTIU (R311): Unsigned compare less-than with an immediate. -/
  | ssltiu (f : IForm)
  /-- SSEQI (R311): Compare equal with an immediate. -/
  | sseqi (f : IForm)
  /-- SLIT (R312): Loads a sign-extended 32-bit literal word into S[SD]. -/
  | slit (f : IForm) (l0 : Word32)
  /-- SLITD (R312): Loads a 64-bit constant from two literal words into S[SD]. -/
  | slitd (f : IForm) (l0 l1 : Word32)
  /-- SLD (R313): Scalar load of W bits of an element through a buffer record, optionally acquire. -/
  | sld (f : MForm)
  /-- SST (R313): Scalar store of W bits of S[SS] into an element, optionally release. -/
  | sst (f : MForm)
  /-- SLDSP (R313): Scalar load through the core scratchpad window. -/
  | sldsp (f : MForm)
  /-- SSTSP (R313): Scalar store through the core scratchpad window. -/
  | sstsp (f : MForm)
  /-- JMP (R315): Moves the whole path to the target clause. -/
  | jmp (f : JForm)
  /-- CALL (R315): Sets s126 to the following clause header and jumps to the target. -/
  | call (f : JForm)
  /-- RET (R315): Continues the path at the clause header held in S[SA]. -/
  | ret (f : YForm)
  /-- BZ (R316): Branches the whole path when S[SA] is zero. -/
  | bz (f : BForm)
  /-- BNZ (R316): Branches the whole path when S[SA] is non-zero. -/
  | bnz (f : BForm)
  /-- BLZ (R316): Branches when S[SA] is negative. -/
  | blz (f : BForm)
  /-- BGEZ (R316): Branches when S[SA] is non-negative. -/
  | bgez (f : BForm)
  /-- LBR (R211): Splits the path by a condition mask into taken and fall-through paths. -/
  | lbr (f : BForm)
  /-- LJOIN (R212): Parks the path at its own address, merging or releasing parked entries. -/
  | ljoin (f : YForm)
  /-- LEXIT (R213): Exits the lanes of the path selected by a mask. -/
  | lexit (f : YForm)
  /-- LANY (R317): Moves the whole path to the target if any lane meets the condition. -/
  | lany (f : BForm)
  /-- LALL (R317): Moves the whole path to the target if every lane meets the condition. -/
  | lall (f : BForm)
  /-- FENCE (R103): Orders earlier and later accesses at a scope and optionally drains UO stores. -/
  | fence (f : YForm)
  /-- BARI (R274): Initialises a barrier record, waking waiters with RESET. -/
  | bari (f : YForm)
  /-- BARA (R274): Arrives at a barrier with a byte count and returns its generation. -/
  | bara (f : YForm)
  /-- BARW (R274): Waits on a barrier generation and returns its status. -/
  | barw (f : YForm)
  /-- BARX (R274): Resets a barrier generation, waking waiters with RESET. -/
  | barx (f : YForm)
  /-- TLRD (R323): Reads the workgroup's timeline value of an engine context. -/
  | tlrd (f : YForm)
  /-- TLWT (R109): Waits until a context timeline reaches a number, then acquires and drains UO stores. -/
  | tlwt (f : YForm)
  /-- YIELD (R324): Ends the group's grant with yield priority loss. -/
  | yield (f : YForm)
  /-- PHINT (R265): Declares live storage and offers a pre-emption stop point. -/
  | phint (f : YForm) (l0 l1 l2 : Word32)
  /-- TRAP (R326): Retires and raises cause TRAP with a software code. -/
  | trap (f : YForm)
  /-- ERET (R261): Returns from a trap, re-executing or restarting as the frame says. -/
  | eret (f : YForm)
  /-- SRD (R330): Reads a system register into S[SD]. -/
  | srd (f : YForm)
  /-- SWR (R330): Writes S[SA] to a system register under its access codes. -/
  | swr (f : YForm)
  /-- EXIT (R319): Exits every lane of the group. -/
  | exit (f : YForm)
  /-- DCLK (R325): Reads the group's logical clock. -/
  | dclk (f : YForm)
  /-- SMON (R113): Arms the group's watch on a 128-byte line and records its value. -/
  | smon (f : YForm)
  /-- SMWAIT (R114): Parks until the watched line is written or a deadline passes. -/
  | smwait (f : YForm)
  /-- SCLEAN (R329): Writes back, and optionally invalidates, cached lines of a range, then fences at system scope. -/
  | sclean (f : YForm)
  /-- STLB_VA (R138): Invalidates non-global leaves of an ASID covering a VA within a scope. -/
  | stlbVa (f : StlbForm)
  /-- STLB_VAALL (R138): Invalidates leaves of every ASID covering a VA. -/
  | stlbVaall (f : StlbForm)
  /-- STLB_ASID (R138): Invalidates every non-global entry of an ASID. -/
  | stlbAsid (f : StlbForm)
  /-- STLB_ALL (R138): Invalidates every translation entry in the scope. -/
  | stlbAll (f : StlbForm)
  /-- STLB_PEER (R138): Invalidates the cached peer-set entries of an ASID. -/
  | stlbPeer (f : StlbForm)
  /-- MAPPG (R129): Queues a first-touch mapping of a placeholder page from the pool. -/
  | mappg (f : YForm)
  /-- FRPOST (R133): Posts the current trap frame as a record to the fault ring. -/
  | frpost (f : YForm)
  /-- VADD (R337): Lane add. -/
  | vadd (l : Lane)
  /-- VSUB (R337): Lane subtract. -/
  | vsub (l : Lane)
  /-- VMUL (R337): Lane multiply. -/
  | vmul (l : Lane)
  /-- VMULH (R337): Upper half of the lane integer product. -/
  | vmulh (l : Lane)
  /-- VFMA (R338): Fused multiply-add a×b+c, one rounding. -/
  | vfma (l : Lane)
  /-- VFMS (R338): Fused multiply-subtract a×b−c. -/
  | vfms (l : Lane)
  /-- VFNMA (R338): Fused c − a×b. -/
  | vfnma (l : Lane)
  /-- VMIN (R337): Lane minimum under R188. -/
  | vmin (l : Lane)
  /-- VMAX (R337): Lane maximum under R188. -/
  | vmax (l : Lane)
  /-- VABS (R338): Lane absolute value. -/
  | vabs (l : Lane)
  /-- VNEG (R338): Lane negation. -/
  | vneg (l : Lane)
  /-- VAND (R337): Lane bitwise AND. -/
  | vand (l : Lane)
  /-- VOR (R337): Lane bitwise OR. -/
  | vor (l : Lane)
  /-- VXOR (R337): Lane bitwise XOR. -/
  | vxor (l : Lane)
  /-- VNOT (R337): Lane bitwise complement. -/
  | vnot (l : Lane)
  /-- VSHL (R337): Lane shift left. -/
  | vshl (l : Lane)
  /-- VSHR (R337): Lane logical shift right. -/
  | vshr (l : Lane)
  /-- VSRA (R337): Lane arithmetic shift right. -/
  | vsra (l : Lane)
  /-- VCMP (R340): Lane compare under a condition, writing all ones or zero. -/
  | vcmp (l : Lane)
  /-- VSEL (R337): Element-wise select by a condition vector. -/
  | vsel (l : Lane)
  /-- VMOV (R337): Lane move. -/
  | vmov (l : Lane)
  /-- VCVT (R341): Converts lane elements between types, narrowing or widening a part. -/
  | vcvt (l : Lane)
  /-- VPOPC (R337): Lane population count. -/
  | vpopc (l : Lane)
  /-- VCLZ (R337): Lane leading-zero count. -/
  | vclz (l : Lane)
  /-- VDOT4 (R193): Four-element dot product plus accumulator, one rounding. -/
  | vdot4 (l : Lane)
  /-- VDOT2 (R193): Two-element dot product plus accumulator, one rounding. -/
  | vdot2 (l : Lane)
  /-- VEXPO (R342): Lane binary exponent of an FP32 value. -/
  | vexpo (l : Lane)
  /-- VSCALB (R342): Scales an FP32 value by a power of two. -/
  | vscalb (l : Lane)
  /-- VRNDI (R342): Rounds a floating value to an integral value. -/
  | vrndi (l : Lane)
  /-- VCLASS (R342): Writes the class code of a floating value. -/
  | vclass (l : Lane)
  /-- VPACK (R343): Selects four bytes from two registers. -/
  | vpack (l : Lane)
  /-- VUNPK (R343): Extends one packed element to 32 bits. -/
  | vunpk (l : Lane)
  /-- VBFX (R343): Extracts a lane bit field. -/
  | vbfx (l : Lane)
  /-- VBFI (R343): Inserts a lane bit field. -/
  | vbfi (l : Lane)
  /-- VIDX (R337): Writes b plus the lane index. -/
  | vidx (l : Lane)
  /-- VSHFL (R345): Reads a register from another lane by index or mode. -/
  | vshfl (l : Lane)
  /-- VBALLOT (R346): Writes a mask of active lanes holding true. -/
  | vballot (l : Lane)
  /-- VVOTE (R346): Writes an any, all or uniform vote to a scalar. -/
  | vvote (l : Lane)
  /-- VRED (R191): Reduces active lanes by a fixed tree into a scalar. -/
  | vred (l : Lane)
  /-- VSCAN (R192): Inclusive prefix combination across lanes. -/
  | vscan (l : Lane)
  /-- VELECT (R346): Writes the lowest active lane index. -/
  | velect (l : Lane)
  /-- VBCAST (R345): Broadcasts one lane's register to every active lane. -/
  | vbcast (l : Lane)
  /-- VMSK (R347): Converts or combines masks and vectors. -/
  | vmsk (l : Lane)
  /-- VHAAR (R351): One forward Haar lifting step into a register pair. -/
  | vhaar (l : Lane)
  /-- VIHAAR (R351): One inverse Haar lifting step into a register pair. -/
  | vihaar (l : Lane)
  /-- VTHR (R352): Zeroes lane values below a threshold register. -/
  | vthr (l : Lane)
  /-- VTHR_SET (R352): Writes a threshold register from a scalar. -/
  | vthrSet (l : Lane)
  /-- VOKEY (R353): Forms order-preserving unsigned keys. -/
  | vokey (l : Lane)
  /-- VDIGIT (R354): Extracts a key digit, optionally filtered by prefix. -/
  | vdigit (l : Lane)
  /-- VLD (R356): Lane load through a buffer record in virtual memory. -/
  | vld (l : Lane)
  /-- VST (R356): Lane store through a buffer record in virtual memory. -/
  | vst (l : Lane)
  /-- VLDSP (R356): Lane load from core scratchpad. -/
  | vldsp (l : Lane)
  /-- VSTSP (R356): Lane store to core scratchpad. -/
  | vstsp (l : Lane)
  /-- VLDQM (R356): Lane load from quad memory. -/
  | vldqm (l : Lane)
  /-- VSTQM (R356): Lane store to quad memory. -/
  | vstqm (l : Lane)
  /-- VLDDS (R356): Lane load from die scratchpad. -/
  | vldds (l : Lane)
  /-- VSTDS (R356): Lane store to die scratchpad. -/
  | vstds (l : Lane)
  /-- VATOM (R358): Lane atomics in virtual memory, combined per word. -/
  | vatom (l : Lane)
  /-- VATOMSP (R358): Lane atomics in core scratchpad. -/
  | vatomsp (l : Lane)
  /-- VHIST (R360): Adds per-lane increments to 32-bit counters. -/
  | vhist (l : Lane)
  /-- VPREF (R361): Prefetches lines into L2 or L1. -/
  | vpref (l : Lane)
  /-- TDEF (R364): Installs a tile descriptor and bumps its generation. -/
  | tdef (l : Lane)
  /-- TFREE (R365): Moves a ready tile to empty. -/
  | tfree (l : Lane)
  /-- TSTATE (R365): Reads 64 bits of a tile-table entry. -/
  | tstate (l : Lane)
  /-- TRD (R368): Reads tile rows into lanes, reconstructing Haar tiles. -/
  | trd (l : Lane)
  /-- TWR (R369): Writes lane values into tile rows after conversion. -/
  | twr (l : Lane)
  /-- HTWR (R372): Transforms, thresholds and writes a 32-row Haar block. -/
  | htwr (l : Lane)
  /-- HREC (R373): Reconstructs a Haar tile in place to the spatial domain. -/
  | hrec (l : Lane)
  /-- MCLAIM (R376): Claims a run of operand slots, waiting until free. -/
  | mclaim (l : Lane)
  /-- MREL (R376): Releases a run of operand slots. -/
  | mrel (l : Lane)
  /-- MFILL (R377): Copies a tile into an operand image. -/
  | mfill (l : Lane)
  /-- MMA (R380): Matrix multiply-accumulate into an accumulator on the matrix pair context. -/
  | mma (l : Lane)
  /-- MMASP (R381): Structured-sparse matrix multiply-accumulate. -/
  | mmasp (l : Lane)
  /-- MACCZ (R382): Zeroes an accumulator and its header. -/
  | maccz (l : Lane)
  /-- MACCRD (R383): Writes an accumulator into a tile with rounding. -/
  | maccrd (l : Lane)
  /-- MACCWR (R382): Writes lane values into accumulator elements. -/
  | maccwr (l : Lane)
  /-- KVAPP (R390): Appends tokens from key and value tiles to a sequence. -/
  | kvapp (l : Lane)
  /-- KVFORK (R391): Forks or opens a sequence in one transaction. -/
  | kvfork (l : Lane)
  /-- KVREL (R392): Releases a page, a prefix, or ends a sequence. -/
  | kvrel (l : Lane)
  /-- KVLOOK (R393): Looks up the KVPTE of a page, optionally taking a reference. -/
  | kvlook (l : Lane)
  /-- ATTN (R398): Starts attention over a page list on the attention unit. -/
  | attn (l : Lane)
  /-- ASEL (R402): Starts summary-based page selection on the selector. -/
  | asel (l : Lane)
  /-- ASUMU (R403): Starts recomputation of a page summary on the selector. -/
  | asumu (l : Lane)
  /-- AMASS (R404): Adds, sets or shifts the MASS of a KVPTE. -/
  | amass (l : Lane)
  /-- KVSWEEP (R405): Starts a demotion sweep over a KVPTE range. -/
  | kvsweep (l : Lane)
  /-- KVDEM (R406): Starts a one-step demotion of a page. -/
  | kvdem (l : Lane)
  /-- KVPIN (R407): Pins a KVPTE and returns its first 128 bits. -/
  | kvpin (l : Lane)
  /-- KVUNPIN (R408): Drops one pin of a KVPTE. -/
  | kvunpin (l : Lane)
  /-- XCOPY (R420): Starts a row copy between endpoints on a copy context. -/
  | xcopy (l : Lane)
  /-- XGATH (R420): Starts a gather or scatter of rows by lane indices. -/
  | xgath (l : Lane)
  /-- XWIN (R420): Starts a strided window copy. -/
  | xwin (l : Lane)
  /-- XFORM (R424): Starts an element-wise transform on the transform engine. -/
  | xform (l : Lane)
  /-- XPUT (R421): Starts a remote write into another die's scratchpad. -/
  | xput (l : Lane)
  /-- XRED (R425): Starts a switch reduction contribution into a peer set. -/
  | xred (l : Lane)
  /-- XSTAT (R426): Reads engine, error, landing or spore state. -/
  | xstat (l : Lane)
  /-- QINIT (R427): Initialises a queue control word. -/
  | qinit (l : Lane)
  /-- QPUSH (R428): Pushes one element per active lane, waiting for room. -/
  | qpush (l : Lane)
  /-- QPOP (R429): Pops one element per active lane, waiting for elements. -/
  | qpop (l : Lane)
  /-- NPOST (R431): Posts a node to the scheduler. -/
  | npost (l : Lane)
  /-- NDEC (R432): Decrements a node's dependence counter. -/
  | ndec (l : Lane)
  /-- NDONE (R433): Waits for a node to reach DONE and reads its status. -/
  | ndone (l : Lane)
  /-- SPSEND (R435): Sends a tile as a spore on a channel, taking a permit. -/
  | spsend (l : Lane)
  /-- SPRECV (R436): Claims the next spore of a channel into a tile. -/
  | sprecv (l : Lane)
  /-- SPGRANT (R434): Binds or releases a spore channel's slots. -/
  | spgrant (l : Lane)
  /-- XRED_CONTRIBUTION (R425): A contribution arrives at the switch, opening or counting a line's reduction instance;
  the line is named as a place in its issuer's destination. -/
  | xredContribution (c : RedSource) (line : Nat)
  /-- ENGINE_FAULT (R124): An engine command meets a fault, stops with a progress record and queues delivery. -/
  | engineFault (c : CmdId)
  /-- DELIVERED_TRAP (R124): A pending engine fault or NaN trap is taken at the receiving group's instruction boundary. -/
  | deliveredTrap (g : GroupId)
  /-- OVERFLOW_RECORD_POST (R135): Ring space appears and a waiting overflow record is posted. -/
  | overflowRecordPost (die : BitVec 2)
  /-- FIRST_TOUCH_SERVICE (R129): The first-touch unit performs a queued MAPPG, popping and zeroing a frame. -/
  | firstTouchService
  /-- SCHEDULER_SCAN (R246): On a resource change the scheduler scans the ready pool and places what fits. -/
  | schedulerScan
  /-- PREEMPT_REQUEST_ARRIVAL (R263): The pre-emption request reaches a group. -/
  | preemptRequestArrival (g : GroupId)
  /-- PREEMPT_NOTIFY (R263): With NOTIFY set, a group takes a PREEMPT trap at its next boundary. -/
  | preemptNotify (g : GroupId)
  /-- PREEMPT_LIMIT (R264): PREEMPTLIM cycles pass and the group stops at its next boundary. -/
  | preemptLimit (g : GroupId)
  /-- COMMAND_SETTLE (R267): An in-flight command reaches its settle point for a stop. -/
  | commandSettle (c : CmdId)
  /-- WORKGROUP_SAVE (R264): All groups stopped and commands settled; the context block is written. -/
  | workgroupSave (w : WgId)
  /-- SAVE_COMMIT (R270): The context block is committed and core resources are released. -/
  | saveCommit (w : WgId)
  /-- CLAUSE_GRANT (R251): An issue quarter grants an eligible clause of one group. -/
  | clauseGrant (g : GroupId) (slot : Bool)
  /-- CLAUSE_FETCH (R282): A whole clause is fetched and translated before issue. -/
  | clauseFetch (g : GroupId) (slot : Bool)
  /-- HANG_TRAP (R220): With HANGCTL.TRAP set, the next instruction to issue raises HANG. -/
  | hangTrap (g : GroupId)
  /-- DET_EVENT_RELEASE (R229): An order-visible event of a deterministic node is performed once its key is lowest. -/
  | detEventRelease (g : GroupId) (slot : Bool)
  /-- WORKGROUP_COMPLETE (R65): All groups have exited and all their commands completed; grants release. -/
  | workgroupComplete (w : WgId)
  /-- NODE_COMPLETE (R239): The node reaches DONE, writes status and decrements successors. -/
  | nodeComplete (node : Nat)
  /-- COPY_SECTOR_COMPLETE (R417): A copy sector is written and its byte count applied to the barrier. -/
  | copySectorComplete (c : CmdId) (sector : Nat)
  /-- COPY_COMPLETE (R417): Every sector of a copy command is complete; the timeline advances. -/
  | copyComplete (c : CmdId)
  /-- XPUT_SECTOR_ARRIVAL (R421): An XPUT sector arrives at the target die and is checked, written and counted; the
  sector's number is its issuer's. -/
  | xputSectorArrival (c : PutSource) (sector : Nat)
  /-- XPUT_SECTOR_ACK (R421): The target acknowledges an XPUT sector. -/
  | xputSectorAck (c : CmdId) (sector : PutAck)
  /-- MMA_RETIRE (R380): An MMA finishes its chunks and advances the matrix pair timeline. -/
  | mmaRetire (c : CmdId)
  /-- XFORM_COMPLETE (R424): A transform command writes its last row and completes. -/
  | xformComplete (c : CmdId)
  /-- XRED_COMPLETE (R425): Every line of an XRED command is written or abandoned; the command completes. -/
  | xredComplete (c : CmdId)
  /-- KV_APPEND_TRANSACTION (R156): The walker appends one token to a sequence. -/
  | kvAppendTransaction (g : GroupId) (slot : Bool)
  /-- KV_FORK_TRANSACTION (R155): The walker performs a fork with its admission test. -/
  | kvForkTransaction (g : GroupId) (slot : Bool)
  /-- KV_RELEASE_TRANSACTION (R158): The walker performs a page, prefix or end release. -/
  | kvReleaseTransaction (g : GroupId) (slot : Bool)
  /-- KV_LOOKUP_TRANSACTION (R154): The walker looks up a page through the rhizoid chain. -/
  | kvLookupTransaction (g : GroupId) (slot : Bool)
  /-- KV_SNAPSHOT (R167): A transaction pins a page and reads its KVPTE for a fetch. -/
  | kvSnapshot (q : Requester)
  /-- KV_MASS_TRANSACTION (R162): ATTN adds a page's mass and drops its pin. -/
  | kvMassTransaction (c : CmdId)
  /-- KV_UNPIN_TRANSACTION (R408): A pin is dropped, pushing pending slots or freeing a retiring page. -/
  | kvUnpinTransaction (q : Requester)
  /-- KV_AMASS_TRANSACTION (R404): The walker changes MASS for AMASS. -/
  | kvAmassTransaction (g : GroupId) (slot : Bool)
  /-- KV_WINDOW_RELEASE (R171): At ATTN completion a sliding-window prefix release is performed. -/
  | kvWindowRelease (c : CmdId)
  /-- ATTN_COMPLETE (R397): ATTN writes its output and state rows and its result word. -/
  | attnComplete (c : CmdId)
  /-- KV_SWEEP_DECISION (R163): The demotion engine decides one KVPTE, halving mass and maybe demoting. -/
  | kvSweepDecision (c : CmdId)
  /-- KV_DEMOTION_SWAP (R167): After conversion, a swap transaction installs the new slot or ends with RACE. -/
  | kvDemotionSwap (c : CmdId)
  /-- ASEL_COMPLETE (R402): ASEL writes its ranked list and drops its pins. -/
  | aselComplete (c : CmdId)
  /-- ASUMU_COMPLETE (R403): ASUMU writes the recomputed summary or reports RACE. -/
  | asumuComplete (c : CmdId)
  /-- SPORE_SEND_COMPLETE (R255): A spore lands in its slot and the send's timeline advances. -/
  | sporeSendComplete (c : CmdId)
  /-- SPORE_RECEIVE_COMPLETE (R256): An SPRECV fill completes, emptying the slot. -/
  | sporeReceiveComplete (c : CmdId)
  /-- PERMIT_RETURN (R256): A returned permit reaches the sender's count. -/
  | permitReturn (chan : BitVec 6)
  /-- SPORE_GRANT_RELEASE (R254): A parked release finds all slots empty and unbinds the channel. -/
  | sporeGrantRelease (g : GroupId) (slot : Bool)
  /-- MONITOR_WAKE (R114): A write to the watched line wakes a parked SMWAIT with WRITTEN. -/
  | monitorWake (g : GroupId) (slot : Bool)
  /-- TLWT_RESUME (R109): The awaited timeline reaches n and the parked TLWT retires. -/
  | tlwtResume (g : GroupId) (slot : Bool)
  /-- QPUSH_RESUME (R428): Room appears and a parked QPUSH takes its tickets. -/
  | qpushResume (g : GroupId) (slot : Bool)
  /-- QPOP_RESUME (R429): Elements appear and a parked QPOP takes its tickets. -/
  | qpopResume (g : GroupId) (slot : Bool)
  /-- MCLAIM_GRANT (R376): A slot run frees and the waiting MCLAIM of lowest group takes it. -/
  | mclaimGrant (g : GroupId) (slot : Bool)
  /-- NDONE_RESUME (R433): The awaited node reaches DONE and the parked NDONE retires. -/
  | ndoneResume (g : GroupId) (slot : Bool)
  /-- SPSEND_RESUME (R435): A permit arrives and a parked SPSEND sends. -/
  | spsendResume (g : GroupId) (slot : Bool)
  /-- SPRECV_RESUME (R436): The next spore arrives and a parked SPRECV claims it. -/
  | sprecvResume (g : GroupId) (slot : Bool)
  /-- UNASSIGNED_OPCODE (R287): An instruction word whose opcode, or whose required-zero or reserved field values, match no defined
  instruction raises ILLOP before any effect. -/
  | unassignedOpcode (e : DecodeError) (w : Word32)
  /-- MATRIX_OPERATION_RETIRE (R76): An MFILL, MACCRD or HREC retires some time after issue and returns its tile from draining or filling to
  ready. -/
  | matrixOperationRetire (c : CmdId)
  /-- COUNTING_ACCESS (R42): A line request reaches unlocked A-die memory and updates its lichen entry. -/
  | countingAccess (die : BitVec 2) (group : Nat) (member : BitVec 2) (pin : Bool) (tier : BitVec 2)
  /-- LICHEN_CACHE_MISS (R40): A request misses the lichen cache and fills the block, evicting the LRU block. -/
  | lichenCacheMiss (die : BitVec 2) (block : Nat)
  /-- SWAP_START (R45): A queued swap reaches the head, is retested and starts copying, holding both members. -/
  | swapStart (die : BitVec 2)
  /-- SWAP_COMPLETE (R44): The frame copy ends, the lichen entry is rewritten and held requests resume. -/
  | swapComplete (die : BitVec 2) (group : Nat)
  /-- LINE_WRITE_BACK (R52): A dirty L2 line is written back, compressed in the smallest applicable code; a die's
  lines of 128 bytes are numbered from 0. -/
  | lineWriteBack (die : BitVec 2) (line : Nat)
  /-- SIZE_MISPREDICTION (R54): Metadata shows more sectors than predicted; a second read follows and the predictor updates. -/
  | sizeMisprediction (pa : Nat)
  /-- PEER_REQUEST_ARRIVAL (R57): A peer access arrives at a target package, which checks the member frame. -/
  | peerRequestArrival (r : HostReq)
  /-- PEER_STORE_ACK (R59): A replica acknowledges a peer store; the store is performed when all have. -/
  | peerStoreAck (pkg : Nat)
  /-- XRED_TIMEOUT (R61): RINGTIMEOUT passes without every contribution; the line ends unwritten with PEERLOST. -/
  | xredTimeout (line : Nat)
  /-- PAGE_WALK (R119): A translation miss is walked through the page tables and fills an entry or faults. -/
  | pageWalk (die : BitVec 2) (core : Nat) (asid : BitVec 12) (va : BitVec 56)
  /-- FRCTL_WRITE (R134): A write of FRCTL; setting EN from 0 to 1 reloads the next ticket from TAIL. -/
  | frctlWrite (v : Word64)
  /-- TLBI_VA (R138): Host TLBICTL GO with KIND 0 invalidates at package scope. -/
  | tlbiVa (asid : BitVec 12)
  /-- TLBI_VAALL (R138): Host TLBICTL GO with KIND 1. -/
  | tlbiVaall (asid : BitVec 12)
  /-- TLBI_ASID (R138): Host TLBICTL GO with KIND 2. -/
  | tlbiAsid (asid : BitVec 12)
  /-- TLBI_ALL (R138): Host TLBICTL GO with KIND 3. -/
  | tlbiAll (asid : BitVec 12)
  /-- TLBI_PEER (R138): Host TLBICTL GO with KIND 4. -/
  | tlbiPeer (asid : BitVec 12)
  /-- SUBMIT (R240): A host write to SUBMIT posts a node index. -/
  | submit (index : BitVec 20)
  /-- AGE_LIMIT (R246): The first node of the top priority exceeds SCHEDCTL.AGE and blocks lower placements. -/
  | ageLimit
  /-- RESTORE_CHECK (R270): The block's CRC is checked; on failure a machine check is raised and the node ends FAULT. -/
  | restoreCheck (w : WgId) (ok : Bool)
  /-- GRANT_EXPIRY (R251): A grant ends after 64 issue cycles. -/
  | grantExpiry
  /-- HANG_LIMIT (R220): The hang counter reaches HANGLIM and sets GSTAT.HANG. -/
  | hangLimit (g : GroupId)
  /-- TWIN_MESSAGE (R236): The twin's checksum arrives and the exchange ends as match or mismatch. -/
  | twinMessage (node : TwinNode) (runs : Word32) (crc : Word64) (len : Nat)
  /-- TWIN_TIMEOUT (R236): No twin message within TOUT; treated as a mismatch with TMO. -/
  | twinTimeout (node : Nat)
  /-- XPUT_ACK_TIMEOUT (R277): An XPUT acknowledgement misses RINGCTL.TMO; the command completes PEERLOST. -/
  | xputAckTimeout (c : CmdId)
  /-- BARRIER_RING_TIMEOUT (R277): A RING barrier wait times out and BARW returns or raises PEERLOST. -/
  | barrierRingTimeout (g : GroupId) (slot : Bool)
  /-- SMWAIT_TIMEOUT (R328): The SMWAIT deadline passes and the path wakes with TIMEOUT. -/
  | smwaitTimeout (g : GroupId) (slot : Bool)
  /-- HOST_MEMORY_REQUEST (R450): A host CXL.mem or PCI Express access to device memory. -/
  | hostMemoryRequest (r : HostReq)
  /-- REGISTER_WRITE (R447): A host BAR0 write to a register with no row of its own. -/
  | registerWrite (off : Nat) (size : Nat) (v : Word64)
  /-- CONFIG_REQUEST (R457): A configuration request to a register, retried during the first 80 ms. -/
  | configRequest (reg : Nat)
  /-- MSIX_UNMASK (R451): Unmasking a vector sends one message for its pending bit. -/
  | msixUnmask (vector : BitVec 2)
  /-- ATTEST_REQUEST (R464): A write of ATTCTL.GO starts an attestation report. -/
  | attestRequest (v : Word64)
  /-- ATTEST_DONE (R464): The signed report is written and BUSY clears. -/
  | attestDone (hostOk : Bool)
  /-- PERST_DEASSERT (R454): PERST# deasserts and bring-up starts in stage ROM. -/
  | perstDeassert
  /-- VERIFY (R463): The boot ROM checks the firmware HSS signature and version. -/
  | verify (ok : Bool)
  /-- CALIB (R452): Calibration ends, numbering the package and writing the routing table. -/
  | calib (ok : Bool) (pkg : BitVec 12) (up : BitVec 18) (routes : List Route)
  /-- MEMINIT (R455): Memory is zeroed and lichen table, LICHCTL and predictors initialised. -/
  | meminit (ok : Bool)
  /-- CORE_RELEASE_STEP (R456): Every 2 µs another 32 cores leave reset. -/
  | coreReleaseStep
  /-- READY (R456): Bring-up ends, READY is set and TIMER starts. -/
  | ready
  /-- POISON_DETECT (R458): An uncorrectable soft error marks a 32-byte sector as poison. -/
  | poisonDetect (t : PoisonTarget)
  /-- THERMAL_THROTTLE (R462): A junction above 95 °C starts throttling. -/
  | thermalThrottle (clk : BitVec 16)
  /-- THERMAL_RECOVER (R462): The junction falls back to 90 °C and throttling ends. -/
  | thermalRecover (clk : BitVec 16)
  /-- THERMAL_WARNING (R462): A junction reaches 100 °C; machine check code 3. -/
  | thermalWarning
  /-- THERMAL_TRIP (R462): A junction reaches 110 °C; issue stops and ERR = 4. -/
  | thermalTrip
  /-- POWER_THROTTLE (R461): Power over the 1 ms window exceeds CAP; the core clock is lowered. -/
  | powerThrottle (clk pwr : BitVec 16)
  /-- POWER_UNTHROTTLE (R461): Power falls below CAP and the core clock is raised. -/
  | powerUnthrottle (clk pwr : BitVec 16)
  /-- FREIP_PORT_DOWN (R452): A Freip port goes down and its UP bit clears. -/
  | freipPortDown (port : Nat)
  /-- ROUTE_RECOMPUTE (R452): Firmware finishes recomputing the routing table. -/
  | routeRecompute (routes : List Route)
  /-- HOST_STORE_LOSS (R448): The host rejects a device store to the host window with an error or poison; the store is dropped and MCSTAT
  records machine check code 4. -/
  | hostStoreLoss
  /-- SMWAIT_SPURIOUS_WAKE (R114): The device wakes a parked SMWAIT with WRITTEN although no write to the watched line occurred. -/
  | smwaitSpuriousWake (g : GroupId) (slot : Bool)
  /-- PF1_DMA (R453): A DMA of the RoCE function PF1 reads or writes the ordinary memory of a die window, ordered towards device issuers
  only at system scope. -/
  | pf1Dma (r : HostReq)
  deriving DecidableEq, Repr

end Sys2Proof
end

