-- ==== Sys2Proof/WellFormed.lean ====
section
/-! DEFINITION. Which instructions are well formed: every reserved field, operand kind, W2 field and
annotation of spec/11 R286 to R292 and of the instruction descriptions that refine them. A word that is
not well formed decodes to no instruction (Decode.lean); the cause it raises is ILLOP/FIELD or
ILLOP/ANNOT in the order of R295. -/

namespace Sys2Proof

/-- The operand kinds of an 11-bit field (R289 Table 11-7); `unused` must be zero. -/
inductive Kind where
  | unused | vec | tile | scalar | record | mask | slot | hreg | acc
  deriving DecidableEq, Repr

/-- The bits a kind uses (Table 11-7). -/
def Kind.bits : Kind → Nat
  | .unused => 0
  | .vec => 11
  | .tile => 8
  | .scalar => 7
  | .record => 5
  | .mask => 4
  | .slot => 4
  | .hreg => 3
  | .acc => 2

/-- R289: the field's bits above those its kind uses are zero. -/
def Kind.ok (k : Kind) (f : BitVec 11) : Bool := f.toNat < 2 ^ k.bits

/-- What an instruction's description says of its fields (Tables 11-8, 13-1 to 13-5, 14-1, 15-1, 16-1). -/
structure LaneRule where
  vd : Kind := .unused
  va : Kind := .unused
  vb : Kind := .unused
  vc : Kind := .unused
  /-- VB, VC may be a scalar broadcast (R290) -/
  bcB : Bool := false
  bcC : Bool := false
  /-- the TYPE values the row allows; [0] where TYPE must be zero -/
  types : List Nat := [0]
  /-- RM is read or ignored (0 to 6); otherwise it must be zero -/
  rm : Bool := false
  sat : Bool := false
  /-- the ORD values of Table 4-1; none for a family whose SCOPE and ORD must be zero (Table 11-8) -/
  ords : Option (List Nat) := none
  /-- IMM13 and the checks of the row that no other field holds -/
  extra : Bool := true
  /-- fields that hold a 64-bit operand or a pair and must be even (R173) -/
  evenD : Bool := false
  evenA : Bool := false
  evenB : Bool := false
  evenC : Bool := false
  deriving DecidableEq, Repr

def typesFP : List Nat := [2, 3, 4, 7, 8]
def typesInt : List Nat := [0, 1, 5, 6, 9, 10]
def typesInt64 : List Nat := [11, 12]
def typesArith : List Nat := typesFP ++ typesInt ++ typesInt64
def typesIntAll : List Nat := typesInt ++ typesInt64
def typesAny : List Nat := [0, 1, 2, 3, 4, 5, 6, 7, 8, 9, 10, 11, 12]

/-- TYPE 11 and 12 are the 64-bit types (Table 7-1). -/
def isWide (t : Nat) : Bool := t == 11 || t == 12

/-- Elements per lane of a lane type (Table 7-1); a 64-bit type counts as one on its pair (R341). -/
def typeElems (t : Nat) : Nat :=
  if t == 3 || t == 4 || t == 5 || t == 6 then 2
  else if t == 7 || t == 8 || t == 9 || t == 10 then 4
  else 1

/-- An arithmetic row of Table 13-1: one, two or three sources of the row's TYPE. -/
def ruleArith (n : Nat) (types : List Nat) (sat : Bool) (l : Lane) : LaneRule :=
  let w := isWide l.type.toNat
  { vd := .vec, va := .vec, vb := if 2 ≤ n then .vec else .unused, vc := if 3 ≤ n then .vec else .unused
    bcB := decide (2 ≤ n), bcC := decide (3 ≤ n), types := types, rm := true, sat := sat
    extra := l.imm == 0, evenD := w, evenA := w, evenB := w && decide (2 ≤ n), evenC := w && decide (3 ≤ n) }

/-- A memory row of Table 13-5. -/
def ruleMem (types : List Nat) (ords : List Nat) (vd vc : Kind) (window : Bool) (extra : Bool) (l : Lane) :
    LaneRule :=
  { vd := vd, va := .record, vb := .vec, vc := vc, bcB := true, bcC := vc == .vec, types := types
    ords := some ords, extra := extra && !(window && l.va == 31) }

/-- The endpoint of a copy command: a tile or a record, a window code only for a record other than b31
(R412, R413). -/
def endpointKind (isTile : Bool) : Kind := if isTile then .tile else .record

def endpointOk (isTile : Bool) (win : Nat) (f : BitVec 11) : Bool :=
  if isTile then win == 0 else !(win != 0 && f == 31)

/-- A copy command (Tables 16-1, 16-2): `n` is the size of its parameter block. -/
def ruleCopy (n : Nat) (scat put : Bool) (vc : Kind) (l : Lane) : LaneRule :=
  let dt := l.imm.getLsbD 1
  let st := l.imm.getLsbD 2
  let dw := (l.imm >>> 3).toNat % 4
  let sw := (l.imm >>> 5).toNat % 4
  { vd := if put then .unused else endpointKind dt, va := endpointKind st, vb := .scalar, vc := vc
    extra := decide (l.imm.toNat < 1024) && (scat || !l.imm.getLsbD 9) && (!put || (!l.imm.getLsbD 8 && !dt && dw == 0))
      && endpointOk st sw l.va && (put || endpointOk dt dw l.vd) && decide (l.vb.toNat + n ≤ 128) }

/-- VATOM and VATOMSP (R358). -/
def ruleAtom (window : Bool) (l : Lane) : LaneRule :=
  let op := l.imm.toNat % 16
  let nr := l.imm.getLsbD 4
  let w := isWide l.type.toNat
  let types := if op == 1 then [2, 3] else if op == 2 || op == 3 || op == 7 then [0, 1, 2, 11, 12]
    else if op == 8 then [0] else [0, 1, 11, 12]
  let cas := op == 8
  { ruleMem types [0, 1, 2, 3] (if nr && !cas then .unused else .vec) .vec window
      (decide (op ≤ 8) && decide (l.imm.toNat < 32) && (!cas || (l.vd.toNat % 4 == 0 && l.vc.toNat % 4 == 0))) l with
    evenD := w, evenC := w }

/-- XFORM (R422): LD and LA make VD and VA scalars; VB names tile B for the binary codes 2, 3 and 4. -/
def ruleXform (l : Lane) : LaneRule :=
  let code := l.imm.toNat % 32
  let lvl := l.imm.toNat / 1024
  let h := l.imm.toNat / 128 % 8
  { vd := if l.imm.getLsbD 6 then .scalar else .tile, va := if l.imm.getLsbD 5 then .scalar else .tile
    vb := if code == 2 || code == 3 || code == 4 then .tile else .unused, vc := .scalar, rm := true, sat := true
    extra := decide (code ≤ 13) && (if code == 12 then decide (1 ≤ lvl) && decide (lvl ≤ 5) else lvl == 0 && h == 0) }

/-- What the description of lane opcode `op` says of its fields. `none`: the opcode is not assigned
(R293 Table 11-9). -/
def laneRule (op : Nat) (l : Lane) : Option LaneRule :=
  let t := l.type.toNat
  let imm := l.imm.toNat
  match op with
  | 0x00 | 0x01 | 0x02 => some (ruleArith 2 typesArith true l)
  | 0x03 => some (ruleArith 2 typesIntAll false l)
  | 0x04 | 0x05 | 0x06 => some (ruleArith 3 typesArith true l)
  | 0x07 | 0x08 => some (ruleArith 2 typesArith false l)
  | 0x09 | 0x0A => some (ruleArith 1 typesArith true l)
  | 0x0B | 0x0C | 0x0D => some (ruleArith 2 typesAny false l)
  | 0x0E => some (ruleArith 1 typesAny false l)
  | 0x0F | 0x10 | 0x11 => some (ruleArith 2 typesIntAll false l)
  | 0x12 => some { ruleArith 2 typesArith false l with
      extra := decide (imm < 8) && (decide (imm < 6) || typesFP.contains t) }
  | 0x13 => some { ruleArith 3 typesAny false l with bcC := false }
  | 0x14 => some { ruleArith 2 typesAny false l with va := .unused, evenA := false }
  | 0x15 =>
      let s := imm % 16
      let part := imm / 16 % 4
      some { ruleArith 1 typesAny true l with
        evenA := isWide s
        extra := decide (imm < 64) && decide (s < 13) &&
          (if typeElems t ≤ typeElems s then decide (part < typeElems s / typeElems t)
           else decide (part < typeElems t / typeElems s)) }
  | 0x16 | 0x17 => some (ruleArith 1 typesIntAll false l)
  | 0x18 => some (ruleArith 3 [7, 8, 9, 10] true l)
  | 0x19 => some (ruleArith 3 [3, 4] true l)
  | 0x1A => some (ruleArith 1 [2] false l)
  | 0x1B => some (ruleArith 2 [2] true l)
  | 0x1C => some (ruleArith 1 [2, 3, 4] false l)
  | 0x1D => some (ruleArith 1 typesFP false l)
  | 0x1E => some { ruleArith 2 [0] false l with extra := decide (imm < 4096) }
  | 0x1F => some { ruleArith 1 [5, 6, 9, 10] false l with extra := decide (imm < typeElems t) }
  | 0x20 => some { ruleArith 1 [0, 1] false l with extra := decide (imm < 1024) }
  | 0x21 => some { ruleArith 1 [0] false l with extra := decide (imm < 1024) }
  | 0x22 => some { ruleArith 2 [0, 1] false l with va := .unused }
  | 0x40 =>
      let idx := imm % 8 == 0
      some { vd := .vec, va := .vec, vb := if idx then .vec else .unused, bcB := idx, types := [0, 11]
             extra := decide (imm % 8 ≤ 3) && decide (imm < 256) && (!idx || imm == 0), evenD := isWide t, evenA := isWide t }
  | 0x41 => some { vd := .mask, va := .vec, extra := imm == 0 }
  | 0x42 => some { vd := .scalar, va := .vec, extra := decide (imm < 3) }
  | 0x43 => some { vd := .scalar, va := .vec, types := typesAny, rm := true, sat := true, evenA := isWide t
                   extra := decide (imm < 6) && (decide (imm < 3) || typesIntAll.contains t) }
  | 0x44 => some { vd := .vec, va := .vec, types := typesAny, rm := true, sat := true, evenD := isWide t, evenA := isWide t
                   extra := decide (imm < 6) && (decide (imm < 3) || typesIntAll.contains t) }
  | 0x45 => some { vd := .scalar, extra := imm == 0 }
  | 0x46 => some { vd := .vec, va := .vec, types := [0, 11], extra := decide (imm < 32), evenD := isWide t, evenA := isWide t }
  | 0x47 =>
      if imm == 0 then some { vd := .mask, va := .vec }
      else if imm == 1 then some { vd := .vec, va := .mask }
      else some { vd := .mask, va := .mask, vb := .mask, extra := decide (imm < 6) }
  | 0x60 | 0x61 => some { vd := .vec, va := .vec, vb := .vec, bcB := true, types := [2], extra := imm == 0, evenD := true }
  | 0x62 =>
      if l.imm.getLsbD 0 then some { vd := .hreg, bcB := true, types := [2], extra := imm == 1 && l.bsb == 1 }
      else some { vd := .vec, va := .vec, vb := .hreg, types := [2], extra := imm == 0 }
  | 0x63 => some { vd := .vec, va := .vec, types := typesAny, extra := decide (imm < 2), evenD := isWide t, evenA := isWide t }
  | 0x64 =>
      let pfx := l.imm.getLsbD 9
      some { vd := .vec, va := .vec, vb := if pfx then .vec else .unused, bcB := pfx, types := [0, 1], extra := decide (imm < 1024) }
  | 0x70 => some (ruleMem [0, 1] [0, 1] .vec .unused false (imm == 0) l)
  | 0x72 | 0x74 | 0x76 => some (ruleMem [0, 1] [0, 1] .vec .unused true (imm == 0) l)
  | 0x71 => some (ruleMem [0] [0, 2] .unused .vec false (imm == 0) l)
  | 0x73 | 0x75 | 0x77 => some (ruleMem [0] [0, 2] .unused .vec true (imm == 0) l)
  | 0x78 => some (ruleAtom false l)
  | 0x79 => some (ruleAtom true l)
  | 0x7A => some (ruleMem [0, 1] [0, 2] .unused .vec (imm != 0) (decide (imm < 4)) l)
  | 0x7B => some { ruleMem [0] [0] .unused .unused false (decide (imm < 2)) l with bcC := false }
  | 0x90 => some { vd := .tile, va := .scalar, vb := .scalar, extra := imm == 0 }
  | 0x91 => some { vd := .tile, extra := imm == 0 }
  | 0x92 => some { vd := .scalar, va := .tile, extra := decide (imm < 4) }
  | 0x93 => some { vd := .vec, va := .tile, vb := .scalar, extra := decide (imm < 128) }
  | 0x94 => some { vd := .tile, va := .vec, vb := .scalar, rm := true, sat := true, extra := decide (imm < 64) }
  | 0x95 => some { vd := .tile, va := .vec, vb := .scalar, vc := .hreg, rm := true, sat := true, extra := decide (imm < 64) }
  | 0x96 => some { vd := .tile, rm := true, sat := true, extra := imm == 0 }
  | 0x97 | 0x98 => some { vd := .slot, extra := decide (imm < 16) }
  | 0x99 => some { vd := .slot, va := .tile, vb := .scalar, extra := decide (imm < 6) }
  | 0x9A => some { vd := .acc, va := .slot, vb := .slot, vc := .scalar, extra := imm == 0 }
  | 0x9B => some { vd := .acc, va := .slot, vb := .slot, vc := .scalar, extra := decide (imm < 64) }
  | 0x9C => some { vd := .acc, extra := imm == 0 }
  | 0x9D => some { vd := .tile, va := .acc, vb := .scalar, rm := true, sat := true, extra := imm == 0 }
  | 0x9E => some { vd := .acc, va := .vec, vb := .scalar, extra := decide (imm < 64) }
  | 0xB0 => some { vd := .scalar, va := .scalar, vb := .tile, vc := .tile, extra := imm == 0 }
  | 0xB1 | 0xB3 => some { vd := .scalar, va := .scalar, vb := .scalar, extra := decide (imm < 2) }
  | 0xB2 | 0xB7 => some { vd := .scalar, va := .scalar, vb := .scalar, extra := decide (imm < 3) }
  | 0xB4 => some { vd := .tile, va := .tile, vb := .tile, vc := .scalar, extra := decide (imm < 4) && decide (l.vc.toNat ≤ 121) }
  | 0xB5 => some { vd := .scalar, va := .tile, vb := .scalar, extra := imm == 0 && decide (l.vb.toNat ≤ 123) }
  | 0xB6 | 0xB8 | 0xB9 | 0xBB => some { vd := .scalar, va := .scalar, vb := .scalar, extra := imm == 0 }
  | 0xBA => some { vd := .scalar, va := .scalar, vb := .scalar, extra := imm == 0 && decide (l.vd.toNat ≤ 126) }
  | 0xC0 => some (ruleCopy 3 false false .unused l)
  | 0xC1 => some (ruleCopy 3 true false .vec l)
  | 0xC2 => some (ruleCopy 4 false false .unused l)
  | 0xC3 => some (ruleXform l)
  | 0xC4 => some (ruleCopy 4 false true .unused l)
  | 0xC5 =>
      let st := l.imm.getLsbD 2
      some { vd := .record, va := endpointKind st, vb := .scalar, types := [0, 2, 3]
             extra := decide (imm < 32) && decide (imm % 4 < 3) && endpointOk st (imm / 8) l.va && decide (l.vb.toNat ≤ 125) }
  | 0xC6 => some { vd := .scalar, vb := .scalar, extra := decide (imm < 5) }
  | 0xD0 => some { va := .scalar, vb := .scalar, extra := imm == 0 }
  | 0xD1 => some { vd := .scalar, va := .scalar, vb := .vec, extra := decide (imm < 2) }
  | 0xD2 => some { vd := .vec, va := .scalar, vb := .scalar, extra := decide (imm < 2) }
  | 0xD3 | 0xD4 => some { vd := .scalar, va := .scalar, extra := imm == 0 }
  | 0xD5 => some { vd := .scalar, va := .scalar, extra := decide (imm < 2) }
  | 0xD6 | 0xD7 => some { vd := .scalar, va := .tile, vb := .scalar, extra := decide (imm < 2) }
  | 0xD8 => some { vd := .scalar, va := .scalar, extra := imm == 0 }
  | _ => none

/-- R289, R290, R292: every field but the annotation is as the rule says. -/
def LaneRule.fieldsOk (r : LaneRule) (l : Lane) : Bool :=
  l.rsv == 0 && r.vd.ok l.vd && r.va.ok l.va
  && (if l.bsb == 1 then r.bcB && l.vb == 0 else r.vb.ok l.vb)
  && (if l.bsc == 1 then r.bcC && l.vc == 0 else r.vc.ok l.vc)
  && (l.bsb == 1 || l.bsc == 1 || l.ss == 0)
  && r.types.contains l.type.toNat
  && (if r.rm then decide (l.rm.toNat ≤ 6) else l.rm == 0)
  && (r.sat || l.sat == 0)
  && (r.ords.isSome || (l.scope == 0 && l.ord == 0))
  && !(r.evenD && l.vd.getLsbD 0) && !(r.evenA && l.va.getLsbD 0)
  && !(r.evenB && l.vb.getLsbD 0) && !(r.evenC && l.vc.getLsbD 0)
  && r.extra

/-- R96: ORD is one of Table 4-1's and SCOPE is 0 exactly when ORD is 00. -/
def LaneRule.annotOk (r : LaneRule) (l : Lane) : Bool :=
  match r.ords with
  | none => true
  | some os => os.contains l.ord.toNat && ((l.scope == 0) == (l.ord == 0))

/-- What is wrong with a lane word's fields, in the order of R295. -/
def checkLane (op : Nat) (l : Lane) : Option DecodeError :=
  match laneRule op l with
  | none => some .opcode
  | some r => if !r.fieldsOk l then some .field else if !r.annotOk l then some .annot else none

def fieldIf (ok : Bool) : Option DecodeError := if ok then none else some .field

/-- SA of LBR, LANY, LALL and LEXIT: [3:0] the mask, [4] inverts it, [6:5] zero (R317). -/
def condOk (a : BitVec 7) : Bool := a.toNat < 32

/-- SUB of BARI to BARX: SUB[1:0] names a window (R320). -/
def windowCodeOk (sub : BitVec 10) : Bool := sub.toNat % 4 != 0

/-- SUB of TLRD and TLWT (R323): a context code, SUB[9:4] zero but for the spore channels. -/
def ctxCodeOk (sub : BitVec 10) : Bool :=
  let c := sub.toNat % 16
  (decide (1 ≤ c) && decide (c ≤ 8) && decide (sub.toNat < 16)) || c == 9

/-- The register numbers of Table 12-3. -/
def sysRegKnown (n : Nat) : Bool :=
  decide (n ≤ 0x005) || n == 0x040 || n == 0x041 || (decide (0x080 ≤ n) && decide (n ≤ 0x082))
  || (decide (0x100 ≤ n) && decide (n ≤ 0x114)) || (decide (0x200 ≤ n) && decide (n ≤ 0x24F))

/-- What is wrong with an instruction's fields (R287 and the descriptions of R103 to R330 for scalar words,
`checkLane` for lane instructions); a device event has no encoding and is always well formed. -/
def Instr.check (i : Instr) : Option DecodeError :=
  match i with
  | .snop f => fieldIf (f.d == 0 && f.a == 0 && f.sub == 0)
  | .sadd f => fieldIf (f.rsv == 0)
  | .ssub f => fieldIf (f.rsv == 0)
  | .smul f => fieldIf (f.rsv == 0)
  | .smulh f => fieldIf (f.rsv == 0)
  | .smulhu f => fieldIf (f.rsv == 0)
  | .sdiv f => fieldIf (f.rsv == 0)
  | .sdivu f => fieldIf (f.rsv == 0)
  | .srem f => fieldIf (f.rsv == 0)
  | .sremu f => fieldIf (f.rsv == 0)
  | .sand f => fieldIf (f.rsv == 0)
  | .sor f => fieldIf (f.rsv == 0)
  | .sxor f => fieldIf (f.rsv == 0)
  | .sshl f => fieldIf (f.rsv == 0)
  | .sshr f => fieldIf (f.rsv == 0)
  | .ssra f => fieldIf (f.rsv == 0)
  | .smin f => fieldIf (f.rsv == 0)
  | .smax f => fieldIf (f.rsv == 0)
  | .sminu f => fieldIf (f.rsv == 0)
  | .smaxu f => fieldIf (f.rsv == 0)
  | .sseq f => fieldIf (f.rsv == 0)
  | .sslt f => fieldIf (f.rsv == 0)
  | .ssltu f => fieldIf (f.rsv == 0)
  | .ssel f => fieldIf (f.rsv == 0)
  | .spopc f => fieldIf (f.rsv == 0 && f.b == 0)
  | .sclz f => fieldIf (f.rsv == 0 && f.b == 0)
  | .sctz f => fieldIf (f.rsv == 0 && f.b == 0)
  | .sbfx f => fieldIf (f.rsv == 0)
  | .sbfi f => fieldIf (f.rsv == 0)
  | .saddi _ => none
  | .sandi _ => none
  | .sori _ => none
  | .sxori _ => none
  | .sshli f => fieldIf (decide (f.imm.toNat < 64))
  | .sshri f => fieldIf (decide (f.imm.toNat < 64))
  | .ssrai f => fieldIf (decide (f.imm.toNat < 64))
  | .sslti _ => none
  | .ssltiu _ => none
  | .sseqi _ => none
  | .slit f _ => fieldIf (f.a == 0 && f.imm == 0)
  | .slitd f _ _ => fieldIf (f.a == 0 && f.imm == 0)
  | .sld _ => none
  | .sst _ => none
  | .sldsp f => fieldIf (f.buf != 31)
  | .sstsp f => fieldIf (f.buf != 31)
  | .jmp _ => none
  | .call _ => none
  | .ret f => fieldIf (f.d == 0 && f.sub == 0)
  | .bz _ => none
  | .bnz _ => none
  | .blz _ => none
  | .bgez _ => none
  | .lbr f => fieldIf (condOk f.a)
  | .ljoin f => fieldIf (f.d == 0 && f.a == 0 && f.sub == 0)
  | .lexit f => fieldIf (f.d == 0 && f.sub == 0 && condOk f.a)
  | .lany f => fieldIf (condOk f.a)
  | .lall f => fieldIf (condOk f.a)
  | .fence f => fieldIf (f.d == 0 && f.a == 0 && decide (f.sub.toNat < 64) && f.sub.toNat / 8 % 4 != 0 && f.sub.toNat % 8 != 0 && !(f.sub.toNat / 8 % 4 == 1 && f.sub.getLsbD 5))
  | .bari f => fieldIf (f.d == 0 && decide (f.sub.toNat < 16) && windowCodeOk f.sub)
  | .bara f => fieldIf (decide (f.sub.toNat < 4) && windowCodeOk f.sub)
  | .barw f => fieldIf (decide (f.sub.toNat < 4) && windowCodeOk f.sub)
  | .barx f => fieldIf (f.d == 0 && decide (f.sub.toNat < 4) && windowCodeOk f.sub)
  | .tlrd f => fieldIf (f.a == 0 && ctxCodeOk f.sub)
  | .tlwt f => fieldIf (f.d == 0 && ctxCodeOk f.sub)
  | .yield f => fieldIf (f.d == 0 && f.a == 0 && f.sub == 0)
  | .phint f _ l1 _ => fieldIf (f.d == 0 && f.a == 0 && decide (f.sub.toNat < 64) && decide (l1.toNat < 65536))
  | .trap f => fieldIf (f.d == 0 && decide (f.sub.toNat < 512) && (f.sub.getLsbD 8 || f.a == 0))
  | .eret f => fieldIf (f.d == 0 && f.a == 0 && f.sub == 0)
  | .srd f => fieldIf (f.a == 0 && sysRegKnown f.sub.toNat)
  | .swr f => fieldIf (f.d == 0 && sysRegKnown f.sub.toNat)
  | .exit f => fieldIf (f.d == 0 && f.a == 0 && f.sub == 0)
  | .dclk f => fieldIf (f.a == 0 && f.sub == 0)
  | .smon f => fieldIf (f.d == 0 && decide (f.sub.toNat < 128) && !(f.sub.toNat / 32 != 0 && f.sub.toNat % 32 == 31))
  | .smwait f => fieldIf (f.sub == 0)
  | .sclean f => fieldIf (decide (f.sub.toNat < 64))
  | .stlbVa f => fieldIf (f.rsv == 0 && (f.scope == 2 || f.scope == 4 || f.scope == 5))
  | .stlbVaall f => fieldIf (f.rsv == 0 && (f.scope == 2 || f.scope == 4 || f.scope == 5))
  | .stlbAsid f => fieldIf (f.rsv == 0 && (f.scope == 2 || f.scope == 4 || f.scope == 5))
  | .stlbAll f => fieldIf (f.rsv == 0 && (f.scope == 2 || f.scope == 4 || f.scope == 5))
  | .stlbPeer f => fieldIf (f.rsv == 0 && (f.scope == 2 || f.scope == 4 || f.scope == 5))
  | .mappg f => fieldIf (f.sub == 0)
  | .frpost f => fieldIf (f.sub == 0)
  | .vadd l => checkLane 0x00 l
  | .vsub l => checkLane 0x01 l
  | .vmul l => checkLane 0x02 l
  | .vmulh l => checkLane 0x03 l
  | .vfma l => checkLane 0x04 l
  | .vfms l => checkLane 0x05 l
  | .vfnma l => checkLane 0x06 l
  | .vmin l => checkLane 0x07 l
  | .vmax l => checkLane 0x08 l
  | .vabs l => checkLane 0x09 l
  | .vneg l => checkLane 0x0A l
  | .vand l => checkLane 0x0B l
  | .vor l => checkLane 0x0C l
  | .vxor l => checkLane 0x0D l
  | .vnot l => checkLane 0x0E l
  | .vshl l => checkLane 0x0F l
  | .vshr l => checkLane 0x10 l
  | .vsra l => checkLane 0x11 l
  | .vcmp l => checkLane 0x12 l
  | .vsel l => checkLane 0x13 l
  | .vmov l => checkLane 0x14 l
  | .vcvt l => checkLane 0x15 l
  | .vpopc l => checkLane 0x16 l
  | .vclz l => checkLane 0x17 l
  | .vdot4 l => checkLane 0x18 l
  | .vdot2 l => checkLane 0x19 l
  | .vexpo l => checkLane 0x1A l
  | .vscalb l => checkLane 0x1B l
  | .vrndi l => checkLane 0x1C l
  | .vclass l => checkLane 0x1D l
  | .vpack l => checkLane 0x1E l
  | .vunpk l => checkLane 0x1F l
  | .vbfx l => checkLane 0x20 l
  | .vbfi l => checkLane 0x21 l
  | .vidx l => checkLane 0x22 l
  | .vshfl l => checkLane 0x40 l
  | .vballot l => checkLane 0x41 l
  | .vvote l => checkLane 0x42 l
  | .vred l => checkLane 0x43 l
  | .vscan l => checkLane 0x44 l
  | .velect l => checkLane 0x45 l
  | .vbcast l => checkLane 0x46 l
  | .vmsk l => checkLane 0x47 l
  | .vhaar l => checkLane 0x60 l
  | .vihaar l => checkLane 0x61 l
  | .vthr l => if l.imm.getLsbD 0 then some .field else checkLane 0x62 l
  | .vthrSet l => if l.imm.getLsbD 0 then checkLane 0x62 l else some .field
  | .vokey l => checkLane 0x63 l
  | .vdigit l => checkLane 0x64 l
  | .vld l => checkLane 0x70 l
  | .vst l => checkLane 0x71 l
  | .vldsp l => checkLane 0x72 l
  | .vstsp l => checkLane 0x73 l
  | .vldqm l => checkLane 0x74 l
  | .vstqm l => checkLane 0x75 l
  | .vldds l => checkLane 0x76 l
  | .vstds l => checkLane 0x77 l
  | .vatom l => checkLane 0x78 l
  | .vatomsp l => checkLane 0x79 l
  | .vhist l => checkLane 0x7A l
  | .vpref l => checkLane 0x7B l
  | .tdef l => checkLane 0x90 l
  | .tfree l => checkLane 0x91 l
  | .tstate l => checkLane 0x92 l
  | .trd l => checkLane 0x93 l
  | .twr l => checkLane 0x94 l
  | .htwr l => checkLane 0x95 l
  | .hrec l => checkLane 0x96 l
  | .mclaim l => checkLane 0x97 l
  | .mrel l => checkLane 0x98 l
  | .mfill l => checkLane 0x99 l
  | .mma l => checkLane 0x9A l
  | .mmasp l => checkLane 0x9B l
  | .maccz l => checkLane 0x9C l
  | .maccrd l => checkLane 0x9D l
  | .maccwr l => checkLane 0x9E l
  | .kvapp l => checkLane 0xB0 l
  | .kvfork l => checkLane 0xB1 l
  | .kvrel l => checkLane 0xB2 l
  | .kvlook l => checkLane 0xB3 l
  | .attn l => checkLane 0xB4 l
  | .asel l => checkLane 0xB5 l
  | .asumu l => checkLane 0xB6 l
  | .amass l => checkLane 0xB7 l
  | .kvsweep l => checkLane 0xB8 l
  | .kvdem l => checkLane 0xB9 l
  | .kvpin l => checkLane 0xBA l
  | .kvunpin l => checkLane 0xBB l
  | .xcopy l => checkLane 0xC0 l
  | .xgath l => checkLane 0xC1 l
  | .xwin l => checkLane 0xC2 l
  | .xform l => checkLane 0xC3 l
  | .xput l => checkLane 0xC4 l
  | .xred l => checkLane 0xC5 l
  | .xstat l => checkLane 0xC6 l
  | .qinit l => checkLane 0xD0 l
  | .qpush l => checkLane 0xD1 l
  | .qpop l => checkLane 0xD2 l
  | .npost l => checkLane 0xD3 l
  | .ndec l => checkLane 0xD4 l
  | .ndone l => checkLane 0xD5 l
  | .spsend l => checkLane 0xD6 l
  | .sprecv l => checkLane 0xD7 l
  | .spgrant l => checkLane 0xD8 l
  | .countingAccess _ _ _ _ _ => none
  | .lichenCacheMiss _ _ => none
  | .swapStart _ => none
  | .swapComplete _ _ => none
  | .lineWriteBack _ _ => none
  | .sizeMisprediction _ => none
  | .peerRequestArrival _ => none
  | .peerStoreAck _ => none
  | .xredContribution _ _ => none
  | .xredTimeout _ => none
  | .pageWalk _ _ _ _ => none
  | .engineFault _ => none
  | .deliveredTrap _ => none
  | .overflowRecordPost _ => none
  | .firstTouchService => none
  | .frctlWrite _ => none
  | .tlbiVa _ => none
  | .tlbiVaall _ => none
  | .tlbiAsid _ => none
  | .tlbiAll _ => none
  | .tlbiPeer _ => none
  | .submit _ => none
  | .schedulerScan => none
  | .ageLimit => none
  | .preemptRequestArrival _ => none
  | .preemptNotify _ => none
  | .preemptLimit _ => none
  | .commandSettle _ => none
  | .workgroupSave _ => none
  | .saveCommit _ => none
  | .restoreCheck _ _ => none
  | .clauseGrant _ _ => none
  | .grantExpiry => none
  | .clauseFetch _ _ => none
  | .hangLimit _ => none
  | .hangTrap _ => none
  | .detEventRelease _ _ => none
  | .workgroupComplete _ => none
  | .nodeComplete _ => none
  | .twinMessage _ _ _ _ => none
  | .twinTimeout _ => none
  | .copySectorComplete _ _ => none
  | .copyComplete _ => none
  | .xputSectorArrival _ _ => none
  | .xputSectorAck _ _ => none
  | .xputAckTimeout _ => none
  | .barrierRingTimeout _ _ => none
  | .mmaRetire _ => none
  | .xformComplete _ => none
  | .xredComplete _ => none
  | .kvAppendTransaction _ _ => none
  | .kvForkTransaction _ _ => none
  | .kvReleaseTransaction _ _ => none
  | .kvLookupTransaction _ _ => none
  | .kvSnapshot _ => none
  | .kvMassTransaction _ => none
  | .kvUnpinTransaction _ => none
  | .kvAmassTransaction _ _ => none
  | .kvWindowRelease _ => none
  | .attnComplete _ => none
  | .kvSweepDecision _ => none
  | .kvDemotionSwap _ => none
  | .aselComplete _ => none
  | .asumuComplete _ => none
  | .sporeSendComplete _ => none
  | .sporeReceiveComplete _ => none
  | .permitReturn _ => none
  | .sporeGrantRelease _ _ => none
  | .monitorWake _ _ => none
  | .smwaitTimeout _ _ => none
  | .tlwtResume _ _ => none
  | .qpushResume _ _ => none
  | .qpopResume _ _ => none
  | .mclaimGrant _ _ => none
  | .ndoneResume _ _ => none
  | .spsendResume _ _ => none
  | .sprecvResume _ _ => none
  | .hostMemoryRequest _ => none
  | .registerWrite _ _ _ => none
  | .configRequest _ => none
  | .msixUnmask _ => none
  | .attestRequest _ => none
  | .attestDone _ => none
  | .perstDeassert => none
  | .verify _ => none
  | .calib _ _ _ _ => none
  | .meminit _ => none
  | .coreReleaseStep => none
  | .ready => none
  | .poisonDetect _ => none
  | .thermalThrottle _ => none
  | .thermalRecover _ => none
  | .thermalWarning => none
  | .thermalTrip => none
  | .powerThrottle _ _ => none
  | .powerUnthrottle _ _ => none
  | .freipPortDown _ => none
  | .routeRecompute _ => none
  | .unassignedOpcode _ _ => none
  | .matrixOperationRetire _ => none
  | .hostStoreLoss => none
  | .smwaitSpuriousWake _ _ => none
  | .pf1Dma _ => none

/-- An instruction is well formed when no check refuses it. -/
def Instr.WellFormed (i : Instr) : Prop := i.check = none

end Sys2Proof
end

