-- ==== Sys2Proof/Decode.lean ====
section
/-! DEFINITION. Decoding and encoding of instruction words (spec/11 R278 to R293, R295). Decoding is total:
words that stand for no instruction are rejected with the cause and sub-cause they raise. The encoder
after it writes the words of an instruction from the same tables. -/

namespace Sys2Proof

/-- An opcode with the fields of its form, before the opcode is given its instruction. -/
inductive Enc where
  | r (op : BitVec 7) (f : RForm)
  | i (op : BitVec 7) (f : IForm) (lits : List Word32)
  | b (op : BitVec 7) (f : BForm)
  | j (op : BitVec 7) (f : JForm)
  | m (op : BitVec 7) (f : MForm)
  | y (op : BitVec 7) (f : YForm) (lits : List Word32)
  | lane (op : BitVec 8) (l : Lane)
  deriving DecidableEq, Repr

/-- Bits [hi:lo] of a word, as `w` bits from bit `lo`. -/
abbrev fld (x : Word32) (lo w : Nat) : BitVec w := x.extractLsb' lo w

def wordR (x : Word32) : RForm :=
  { d := fld x 17 7, a := fld x 10 7, b := fld x 3 7, rsv := fld x 1 2, w := fld x 0 1 }
def wordI (x : Word32) : IForm := { d := fld x 17 7, a := fld x 10 7, imm := fld x 0 10 }
def wordB (x : Word32) : BForm := { a := fld x 17 7, off := fld x 0 17 }
def wordJ (x : Word32) : JForm := { off := fld x 0 24 }
def wordM (x : Word32) : MForm :=
  { d := fld x 17 7, buf := fld x 12 5, sx := fld x 5 7, w := fld x 3 2, scope := fld x 0 3 }
def wordY (x : Word32) : YForm := { d := fld x 17 7, a := fld x 10 7, sub := fld x 0 10 }

/-- The three words of a lane instruction (R288 Table 11-6), but for its opcode. -/
def wordLane (w0 w1 w2 : Word32) : Lane :=
  { vd := fld w0 11 11, va := fld w0 0 11
    vb := fld w1 21 11, vc := fld w1 10 11, ss := fld w1 3 7, bsb := fld w1 2 1, bsc := fld w1 1 1, rsv := fld w1 0 1
    mask := fld w2 28 4, minv := fld w2 27 1, type := fld w2 23 4, rm := fld w2 20 3, sat := fld w2 19 1
    fs := fld w2 18 1, scope := fld w2 15 3, ord := fld w2 13 2, imm := fld w2 0 13 }

/-- The forms of the scalar opcodes (R287 Table 11-5). -/
inductive FormKind where
  | r | i (lits : Nat) | b | j | m | y (lits : Nat) | none
  deriving DecidableEq, Repr

/-- R287 Table 11-5: the form of a scalar opcode; `none` is an unassigned opcode. -/
def formOf (op : Nat) : FormKind :=
  if op == 0x00 then .y 0
  else if op ≤ 0x1C then .r
  else if op < 0x20 then .none
  else if op ≤ 0x29 then .i 0
  else if op == 0x2E then .i 1
  else if op == 0x2F then .i 2
  else if op < 0x30 then .none
  else if op ≤ 0x33 then .m
  else if op == 0x40 || op == 0x41 then .j
  else if op == 0x42 then .y 0
  else if op < 0x40 then .none
  else if op ≤ 0x47 then .b
  else if op == 0x48 || op == 0x49 then .y 0
  else if op == 0x4A || op == 0x4B then .b
  else if op < 0x50 then .none
  else if op == 0x58 then .y 3
  else if op ≤ 0x64 then .y 0
  else .none

/-- The words an instruction takes from its first word: three for a lane instruction, one and its literal
words for a scalar word (R278, R286, R288). -/
def wordCount (x : Word32) : Nat :=
  if x.getLsbD 31 then 3
  else match formOf (fld x 24 7).toNat with
    | .i n => n + 1
    | .y n => n + 1
    | _ => 1

/-- R278, R280: the fields of the instruction that starts at the first word of `ws`, the words from there to
the end of the clause body; a word with bits [31:30] = 0b11 is a header fault, and words that do not all lie
in the body are a straddle. -/
def parse (ws : List Word32) : Except DecodeError (Enc × Nat) :=
  match ws with
  | [] => .error .straddle
  | x :: rest =>
    if x.getLsbD 31 then
      if x.getLsbD 30 then .error .header
      else match rest with
        | w1 :: w2 :: _ => .ok (.lane (fld x 22 8) (wordLane x w1 w2), 3)
        | _ => .error .straddle
    else
      let op := fld x 24 7
      match formOf op.toNat with
      | .r => .ok (.r op (wordR x), 1)
      | .b => .ok (.b op (wordB x), 1)
      | .j => .ok (.j op (wordJ x), 1)
      | .m => .ok (.m op (wordM x), 1)
      | .i n => if rest.length < n then .error .straddle else .ok (.i op (wordI x) (rest.take n), n + 1)
      | .y n => if rest.length < n then .error .straddle else .ok (.y op (wordY x) (rest.take n), n + 1)
      | .none => .error .opcode

/-- R137: the row of STLB that KIND, SUB [2:0], names. -/
def stlbOf (f : YForm) : Except DecodeError Instr :=
  let g : StlbForm := { d := f.d, a := f.a, rsv := f.sub.extractLsb' 6 4, scope := f.sub.extractLsb' 3 3 }
  match (f.sub.extractLsb' 0 3).toNat with
  | 0 => .ok (.stlbVa g)
  | 1 => .ok (.stlbVaall g)
  | 2 => .ok (.stlbAsid g)
  | 3 => .ok (.stlbAll g)
  | 4 => .ok (.stlbPeer g)
  | _ => .error .field

/-- The R-form rows of Table 11-5. -/
def rowR (op : Nat) (f : RForm) : Except DecodeError Instr :=
  match op with
  | 0x01 => .ok (.sadd f)
  | 0x02 => .ok (.ssub f)
  | 0x03 => .ok (.smul f)
  | 0x04 => .ok (.smulh f)
  | 0x05 => .ok (.smulhu f)
  | 0x06 => .ok (.sdiv f)
  | 0x07 => .ok (.sdivu f)
  | 0x08 => .ok (.srem f)
  | 0x09 => .ok (.sremu f)
  | 0x0A => .ok (.sand f)
  | 0x0B => .ok (.sor f)
  | 0x0C => .ok (.sxor f)
  | 0x0D => .ok (.sshl f)
  | 0x0E => .ok (.sshr f)
  | 0x0F => .ok (.ssra f)
  | 0x10 => .ok (.smin f)
  | 0x11 => .ok (.smax f)
  | 0x12 => .ok (.sminu f)
  | 0x13 => .ok (.smaxu f)
  | 0x14 => .ok (.sseq f)
  | 0x15 => .ok (.sslt f)
  | 0x16 => .ok (.ssltu f)
  | 0x17 => .ok (.ssel f)
  | 0x18 => .ok (.spopc f)
  | 0x19 => .ok (.sclz f)
  | 0x1A => .ok (.sctz f)
  | 0x1B => .ok (.sbfx f)
  | 0x1C => .ok (.sbfi f)
  | _ => .error .opcode

/-- The I-form rows of Table 11-5 without literal words. -/
def rowI (op : Nat) (f : IForm) : Except DecodeError Instr :=
  match op with
  | 0x20 => .ok (.saddi f)
  | 0x21 => .ok (.sandi f)
  | 0x22 => .ok (.sori f)
  | 0x23 => .ok (.sxori f)
  | 0x24 => .ok (.sshli f)
  | 0x25 => .ok (.sshri f)
  | 0x26 => .ok (.ssrai f)
  | 0x27 => .ok (.sslti f)
  | 0x28 => .ok (.ssltiu f)
  | 0x29 => .ok (.sseqi f)
  | _ => .error .opcode

/-- The B-form rows of Table 11-5. -/
def rowB (op : Nat) (f : BForm) : Except DecodeError Instr :=
  match op with
  | 0x43 => .ok (.bz f)
  | 0x44 => .ok (.bnz f)
  | 0x45 => .ok (.blz f)
  | 0x46 => .ok (.bgez f)
  | 0x47 => .ok (.lbr f)
  | 0x4A => .ok (.lany f)
  | 0x4B => .ok (.lall f)
  | _ => .error .opcode

/-- The J-form rows of Table 11-5. -/
def rowJ (op : Nat) (f : JForm) : Except DecodeError Instr :=
  match op with
  | 0x40 => .ok (.jmp f)
  | 0x41 => .ok (.call f)
  | _ => .error .opcode

/-- The M-form rows of Table 11-5. -/
def rowM (op : Nat) (f : MForm) : Except DecodeError Instr :=
  match op with
  | 0x30 => .ok (.sld f)
  | 0x31 => .ok (.sst f)
  | 0x32 => .ok (.sldsp f)
  | 0x33 => .ok (.sstsp f)
  | _ => .error .opcode

/-- The Y-form rows of Table 11-5, but for STLB and PHINT. -/
def rowY (op : Nat) (f : YForm) : Except DecodeError Instr :=
  match op with
  | 0x00 => .ok (.snop f)
  | 0x42 => .ok (.ret f)
  | 0x48 => .ok (.ljoin f)
  | 0x49 => .ok (.lexit f)
  | 0x50 => .ok (.fence f)
  | 0x51 => .ok (.bari f)
  | 0x52 => .ok (.bara f)
  | 0x53 => .ok (.barw f)
  | 0x54 => .ok (.barx f)
  | 0x55 => .ok (.tlrd f)
  | 0x56 => .ok (.tlwt f)
  | 0x57 => .ok (.yield f)
  | 0x59 => .ok (.trap f)
  | 0x5A => .ok (.eret f)
  | 0x5B => .ok (.srd f)
  | 0x5C => .ok (.swr f)
  | 0x5D => .ok (.exit f)
  | 0x5E => .ok (.dclk f)
  | 0x5F => .ok (.smon f)
  | 0x60 => .ok (.smwait f)
  | 0x61 => .ok (.sclean f)
  | 0x63 => .ok (.mappg f)
  | 0x64 => .ok (.frpost f)
  | _ => .error .opcode

/-- The lane opcode map (R293 Table 11-9); VTHR and VTHR_SET share OP 0x62 and IMM13 [0] tells them apart
(R349). -/
def rowLane (op : Nat) (l : Lane) : Except DecodeError Instr :=
  match op with
  | 0x00 => .ok (.vadd l)
  | 0x01 => .ok (.vsub l)
  | 0x02 => .ok (.vmul l)
  | 0x03 => .ok (.vmulh l)
  | 0x04 => .ok (.vfma l)
  | 0x05 => .ok (.vfms l)
  | 0x06 => .ok (.vfnma l)
  | 0x07 => .ok (.vmin l)
  | 0x08 => .ok (.vmax l)
  | 0x09 => .ok (.vabs l)
  | 0x0A => .ok (.vneg l)
  | 0x0B => .ok (.vand l)
  | 0x0C => .ok (.vor l)
  | 0x0D => .ok (.vxor l)
  | 0x0E => .ok (.vnot l)
  | 0x0F => .ok (.vshl l)
  | 0x10 => .ok (.vshr l)
  | 0x11 => .ok (.vsra l)
  | 0x12 => .ok (.vcmp l)
  | 0x13 => .ok (.vsel l)
  | 0x14 => .ok (.vmov l)
  | 0x15 => .ok (.vcvt l)
  | 0x16 => .ok (.vpopc l)
  | 0x17 => .ok (.vclz l)
  | 0x18 => .ok (.vdot4 l)
  | 0x19 => .ok (.vdot2 l)
  | 0x1A => .ok (.vexpo l)
  | 0x1B => .ok (.vscalb l)
  | 0x1C => .ok (.vrndi l)
  | 0x1D => .ok (.vclass l)
  | 0x1E => .ok (.vpack l)
  | 0x1F => .ok (.vunpk l)
  | 0x20 => .ok (.vbfx l)
  | 0x21 => .ok (.vbfi l)
  | 0x22 => .ok (.vidx l)
  | 0x40 => .ok (.vshfl l)
  | 0x41 => .ok (.vballot l)
  | 0x42 => .ok (.vvote l)
  | 0x43 => .ok (.vred l)
  | 0x44 => .ok (.vscan l)
  | 0x45 => .ok (.velect l)
  | 0x46 => .ok (.vbcast l)
  | 0x47 => .ok (.vmsk l)
  | 0x60 => .ok (.vhaar l)
  | 0x61 => .ok (.vihaar l)
  | 0x63 => .ok (.vokey l)
  | 0x64 => .ok (.vdigit l)
  | 0x70 => .ok (.vld l)
  | 0x71 => .ok (.vst l)
  | 0x72 => .ok (.vldsp l)
  | 0x73 => .ok (.vstsp l)
  | 0x74 => .ok (.vldqm l)
  | 0x75 => .ok (.vstqm l)
  | 0x76 => .ok (.vldds l)
  | 0x77 => .ok (.vstds l)
  | 0x78 => .ok (.vatom l)
  | 0x79 => .ok (.vatomsp l)
  | 0x7A => .ok (.vhist l)
  | 0x7B => .ok (.vpref l)
  | 0x90 => .ok (.tdef l)
  | 0x91 => .ok (.tfree l)
  | 0x92 => .ok (.tstate l)
  | 0x93 => .ok (.trd l)
  | 0x94 => .ok (.twr l)
  | 0x95 => .ok (.htwr l)
  | 0x96 => .ok (.hrec l)
  | 0x97 => .ok (.mclaim l)
  | 0x98 => .ok (.mrel l)
  | 0x99 => .ok (.mfill l)
  | 0x9A => .ok (.mma l)
  | 0x9B => .ok (.mmasp l)
  | 0x9C => .ok (.maccz l)
  | 0x9D => .ok (.maccrd l)
  | 0x9E => .ok (.maccwr l)
  | 0xB0 => .ok (.kvapp l)
  | 0xB1 => .ok (.kvfork l)
  | 0xB2 => .ok (.kvrel l)
  | 0xB3 => .ok (.kvlook l)
  | 0xB4 => .ok (.attn l)
  | 0xB5 => .ok (.asel l)
  | 0xB6 => .ok (.asumu l)
  | 0xB7 => .ok (.amass l)
  | 0xB8 => .ok (.kvsweep l)
  | 0xB9 => .ok (.kvdem l)
  | 0xBA => .ok (.kvpin l)
  | 0xBB => .ok (.kvunpin l)
  | 0xC0 => .ok (.xcopy l)
  | 0xC1 => .ok (.xgath l)
  | 0xC2 => .ok (.xwin l)
  | 0xC3 => .ok (.xform l)
  | 0xC4 => .ok (.xput l)
  | 0xC5 => .ok (.xred l)
  | 0xC6 => .ok (.xstat l)
  | 0xD0 => .ok (.qinit l)
  | 0xD1 => .ok (.qpush l)
  | 0xD2 => .ok (.qpop l)
  | 0xD3 => .ok (.npost l)
  | 0xD4 => .ok (.ndec l)
  | 0xD5 => .ok (.ndone l)
  | 0xD6 => .ok (.spsend l)
  | 0xD7 => .ok (.sprecv l)
  | 0xD8 => .ok (.spgrant l)
  | 0x62 => .ok (if l.imm.getLsbD 0 then .vthrSet l else .vthr l)
  | _ => .error .opcode

/-- The instruction an opcode and its fields name. -/
def Enc.instr (e : Enc) : Except DecodeError Instr :=
  match e with
  | .r op f => rowR op.toNat f
  | .i op f [] => rowI op.toNat f
  | .i op f [l0] => if op = 0x2E then .ok (.slit f l0) else .error .opcode
  | .i op f [l0, l1] => if op = 0x2F then .ok (.slitd f l0 l1) else .error .opcode
  | .i _ _ _ => .error .opcode
  | .b op f => rowB op.toNat f
  | .j op f => rowJ op.toNat f
  | .m op f => rowM op.toNat f
  | .y op f [] => if op = 0x62 then stlbOf f else rowY op.toNat f
  | .y op f [l0, l1, l2] => if op = 0x58 then .ok (.phint f l0 l1 l2) else .error .opcode
  | .y _ _ _ => .error .opcode
  | .lane op l => rowLane op.toNat l

/-- R295: the instruction at the start of `ws`, with the words it takes, or the reason there is none. -/
def decode (ws : List Word32) : Except DecodeError (Instr × Nat) :=
  match parse ws with
  | .error e => .error e
  | .ok (e, n) =>
    match e.instr with
    | .error err => .error err
    | .ok i =>
      match i.check with
      | some err => .error err
      | none => .ok (i, n)

/-- The little-endian 32-bit words of a byte string (R8, R278); bytes that fill no word are left out. -/
def wordsOfBytes : List Byte → List Word32
  | b0 :: b1 :: b2 :: b3 :: rest => (b3 ++ b2 ++ b1 ++ b0) :: wordsOfBytes rest
  | _ => []

/-- The bytes of a word, lowest address first (R8). -/
def bytesOfWord (x : Word32) : List Byte :=
  [x.extractLsb' 0 8, x.extractLsb' 8 8, x.extractLsb' 16 8, x.extractLsb' 24 8]

/-- The instruction at the start of a byte string. -/
def decodeBytes (bs : List Byte) : Except DecodeError (Instr × Nat) := decode (wordsOfBytes bs)

/-- The four words of an instruction whose lowest `nbits` bits are `w` and whose other bits are zero: four is
the longest instruction, PHINT with its three literal words (R265). -/
def tableWords (nbits w : Nat) : List Word32 :=
  let v := BitVec.ofNat 128 (w % 2 ^ nbits)
  [v.extractLsb' 0 32, v.extractLsb' 32 32, v.extractLsb' 64 32, v.extractLsb' 96 32]

/-- The instruction the decoder reads from the bits `w` of a row of the opcode table. -/
def decodeTableWord (nbits w : Nat) : Option Instr :=
  match decodeBytes ((tableWords nbits w).flatMap bytesOfWord) with
  | .ok (i, _) => some i
  | .error _ => none

/-! The encoder (R286 Table 11-4, R288 Table 11-6). -/

def encR (op : BitVec 7) (f : RForm) : Word32 := 0#1 ++ op ++ f.d ++ f.a ++ f.b ++ f.rsv ++ f.w
def encI (op : BitVec 7) (f : IForm) : Word32 := 0#1 ++ op ++ f.d ++ f.a ++ f.imm
def encB (op : BitVec 7) (f : BForm) : Word32 := 0#1 ++ op ++ f.a ++ f.off
def encJ (op : BitVec 7) (f : JForm) : Word32 := 0#1 ++ op ++ f.off
def encM (op : BitVec 7) (f : MForm) : Word32 := 0#1 ++ op ++ f.d ++ f.buf ++ f.sx ++ f.w ++ f.scope
def encY (op : BitVec 7) (f : YForm) : Word32 := 0#1 ++ op ++ f.d ++ f.a ++ f.sub
def encLane0 (op : BitVec 8) (l : Lane) : Word32 := 2#2 ++ op ++ l.vd ++ l.va
def encLane1 (l : Lane) : Word32 := l.vb ++ l.vc ++ l.ss ++ l.bsb ++ l.bsc ++ l.rsv
def encLane2 (l : Lane) : Word32 :=
  l.mask ++ l.minv ++ l.type ++ l.rm ++ l.sat ++ l.fs ++ l.scope ++ l.ord ++ l.imm

/-- The words of an opcode with its fields. -/
def Enc.words (e : Enc) : List Word32 :=
  match e with
  | .r op f => [encR op f]
  | .i op f lits => encI op f :: lits
  | .b op f => [encB op f]
  | .j op f => [encJ op f]
  | .m op f => [encM op f]
  | .y op f lits => encY op f :: lits
  | .lane op l => [encLane0 op l, encLane1 l, encLane2 l]

/-- The Y form of an STLB row (R137). -/
def stlbY (f : StlbForm) (kind : BitVec 3) : YForm := { d := f.d, a := f.a, sub := f.rsv ++ f.scope ++ kind }

/-- The opcode and fields of an instruction; a device event has none. -/
def Instr.enc (i : Instr) : Option Enc :=
  match i with
  | .snop f => some (.y 0x00 f [])
  | .sadd f => some (.r 0x01 f)
  | .ssub f => some (.r 0x02 f)
  | .smul f => some (.r 0x03 f)
  | .smulh f => some (.r 0x04 f)
  | .smulhu f => some (.r 0x05 f)
  | .sdiv f => some (.r 0x06 f)
  | .sdivu f => some (.r 0x07 f)
  | .srem f => some (.r 0x08 f)
  | .sremu f => some (.r 0x09 f)
  | .sand f => some (.r 0x0A f)
  | .sor f => some (.r 0x0B f)
  | .sxor f => some (.r 0x0C f)
  | .sshl f => some (.r 0x0D f)
  | .sshr f => some (.r 0x0E f)
  | .ssra f => some (.r 0x0F f)
  | .smin f => some (.r 0x10 f)
  | .smax f => some (.r 0x11 f)
  | .sminu f => some (.r 0x12 f)
  | .smaxu f => some (.r 0x13 f)
  | .sseq f => some (.r 0x14 f)
  | .sslt f => some (.r 0x15 f)
  | .ssltu f => some (.r 0x16 f)
  | .ssel f => some (.r 0x17 f)
  | .spopc f => some (.r 0x18 f)
  | .sclz f => some (.r 0x19 f)
  | .sctz f => some (.r 0x1A f)
  | .sbfx f => some (.r 0x1B f)
  | .sbfi f => some (.r 0x1C f)
  | .saddi f => some (.i 0x20 f [])
  | .sandi f => some (.i 0x21 f [])
  | .sori f => some (.i 0x22 f [])
  | .sxori f => some (.i 0x23 f [])
  | .sshli f => some (.i 0x24 f [])
  | .sshri f => some (.i 0x25 f [])
  | .ssrai f => some (.i 0x26 f [])
  | .sslti f => some (.i 0x27 f [])
  | .ssltiu f => some (.i 0x28 f [])
  | .sseqi f => some (.i 0x29 f [])
  | .slit f l0 => some (.i 0x2E f [l0])
  | .slitd f l0 l1 => some (.i 0x2F f [l0, l1])
  | .sld f => some (.m 0x30 f)
  | .sst f => some (.m 0x31 f)
  | .sldsp f => some (.m 0x32 f)
  | .sstsp f => some (.m 0x33 f)
  | .jmp f => some (.j 0x40 f)
  | .call f => some (.j 0x41 f)
  | .ret f => some (.y 0x42 f [])
  | .bz f => some (.b 0x43 f)
  | .bnz f => some (.b 0x44 f)
  | .blz f => some (.b 0x45 f)
  | .bgez f => some (.b 0x46 f)
  | .lbr f => some (.b 0x47 f)
  | .ljoin f => some (.y 0x48 f [])
  | .lexit f => some (.y 0x49 f [])
  | .lany f => some (.b 0x4A f)
  | .lall f => some (.b 0x4B f)
  | .fence f => some (.y 0x50 f [])
  | .bari f => some (.y 0x51 f [])
  | .bara f => some (.y 0x52 f [])
  | .barw f => some (.y 0x53 f [])
  | .barx f => some (.y 0x54 f [])
  | .tlrd f => some (.y 0x55 f [])
  | .tlwt f => some (.y 0x56 f [])
  | .yield f => some (.y 0x57 f [])
  | .phint f l0 l1 l2 => some (.y 0x58 f [l0, l1, l2])
  | .trap f => some (.y 0x59 f [])
  | .eret f => some (.y 0x5A f [])
  | .srd f => some (.y 0x5B f [])
  | .swr f => some (.y 0x5C f [])
  | .exit f => some (.y 0x5D f [])
  | .dclk f => some (.y 0x5E f [])
  | .smon f => some (.y 0x5F f [])
  | .smwait f => some (.y 0x60 f [])
  | .sclean f => some (.y 0x61 f [])
  | .stlbVa f => some (.y 0x62 (stlbY f 0) [])
  | .stlbVaall f => some (.y 0x62 (stlbY f 1) [])
  | .stlbAsid f => some (.y 0x62 (stlbY f 2) [])
  | .stlbAll f => some (.y 0x62 (stlbY f 3) [])
  | .stlbPeer f => some (.y 0x62 (stlbY f 4) [])
  | .mappg f => some (.y 0x63 f [])
  | .frpost f => some (.y 0x64 f [])
  | .vadd l => some (.lane 0x00 l)
  | .vsub l => some (.lane 0x01 l)
  | .vmul l => some (.lane 0x02 l)
  | .vmulh l => some (.lane 0x03 l)
  | .vfma l => some (.lane 0x04 l)
  | .vfms l => some (.lane 0x05 l)
  | .vfnma l => some (.lane 0x06 l)
  | .vmin l => some (.lane 0x07 l)
  | .vmax l => some (.lane 0x08 l)
  | .vabs l => some (.lane 0x09 l)
  | .vneg l => some (.lane 0x0A l)
  | .vand l => some (.lane 0x0B l)
  | .vor l => some (.lane 0x0C l)
  | .vxor l => some (.lane 0x0D l)
  | .vnot l => some (.lane 0x0E l)
  | .vshl l => some (.lane 0x0F l)
  | .vshr l => some (.lane 0x10 l)
  | .vsra l => some (.lane 0x11 l)
  | .vcmp l => some (.lane 0x12 l)
  | .vsel l => some (.lane 0x13 l)
  | .vmov l => some (.lane 0x14 l)
  | .vcvt l => some (.lane 0x15 l)
  | .vpopc l => some (.lane 0x16 l)
  | .vclz l => some (.lane 0x17 l)
  | .vdot4 l => some (.lane 0x18 l)
  | .vdot2 l => some (.lane 0x19 l)
  | .vexpo l => some (.lane 0x1A l)
  | .vscalb l => some (.lane 0x1B l)
  | .vrndi l => some (.lane 0x1C l)
  | .vclass l => some (.lane 0x1D l)
  | .vpack l => some (.lane 0x1E l)
  | .vunpk l => some (.lane 0x1F l)
  | .vbfx l => some (.lane 0x20 l)
  | .vbfi l => some (.lane 0x21 l)
  | .vidx l => some (.lane 0x22 l)
  | .vshfl l => some (.lane 0x40 l)
  | .vballot l => some (.lane 0x41 l)
  | .vvote l => some (.lane 0x42 l)
  | .vred l => some (.lane 0x43 l)
  | .vscan l => some (.lane 0x44 l)
  | .velect l => some (.lane 0x45 l)
  | .vbcast l => some (.lane 0x46 l)
  | .vmsk l => some (.lane 0x47 l)
  | .vhaar l => some (.lane 0x60 l)
  | .vihaar l => some (.lane 0x61 l)
  | .vthr l => some (.lane 0x62 l)
  | .vthrSet l => some (.lane 0x62 l)
  | .vokey l => some (.lane 0x63 l)
  | .vdigit l => some (.lane 0x64 l)
  | .vld l => some (.lane 0x70 l)
  | .vst l => some (.lane 0x71 l)
  | .vldsp l => some (.lane 0x72 l)
  | .vstsp l => some (.lane 0x73 l)
  | .vldqm l => some (.lane 0x74 l)
  | .vstqm l => some (.lane 0x75 l)
  | .vldds l => some (.lane 0x76 l)
  | .vstds l => some (.lane 0x77 l)
  | .vatom l => some (.lane 0x78 l)
  | .vatomsp l => some (.lane 0x79 l)
  | .vhist l => some (.lane 0x7A l)
  | .vpref l => some (.lane 0x7B l)
  | .tdef l => some (.lane 0x90 l)
  | .tfree l => some (.lane 0x91 l)
  | .tstate l => some (.lane 0x92 l)
  | .trd l => some (.lane 0x93 l)
  | .twr l => some (.lane 0x94 l)
  | .htwr l => some (.lane 0x95 l)
  | .hrec l => some (.lane 0x96 l)
  | .mclaim l => some (.lane 0x97 l)
  | .mrel l => some (.lane 0x98 l)
  | .mfill l => some (.lane 0x99 l)
  | .mma l => some (.lane 0x9A l)
  | .mmasp l => some (.lane 0x9B l)
  | .maccz l => some (.lane 0x9C l)
  | .maccrd l => some (.lane 0x9D l)
  | .maccwr l => some (.lane 0x9E l)
  | .kvapp l => some (.lane 0xB0 l)
  | .kvfork l => some (.lane 0xB1 l)
  | .kvrel l => some (.lane 0xB2 l)
  | .kvlook l => some (.lane 0xB3 l)
  | .attn l => some (.lane 0xB4 l)
  | .asel l => some (.lane 0xB5 l)
  | .asumu l => some (.lane 0xB6 l)
  | .amass l => some (.lane 0xB7 l)
  | .kvsweep l => some (.lane 0xB8 l)
  | .kvdem l => some (.lane 0xB9 l)
  | .kvpin l => some (.lane 0xBA l)
  | .kvunpin l => some (.lane 0xBB l)
  | .xcopy l => some (.lane 0xC0 l)
  | .xgath l => some (.lane 0xC1 l)
  | .xwin l => some (.lane 0xC2 l)
  | .xform l => some (.lane 0xC3 l)
  | .xput l => some (.lane 0xC4 l)
  | .xred l => some (.lane 0xC5 l)
  | .xstat l => some (.lane 0xC6 l)
  | .qinit l => some (.lane 0xD0 l)
  | .qpush l => some (.lane 0xD1 l)
  | .qpop l => some (.lane 0xD2 l)
  | .npost l => some (.lane 0xD3 l)
  | .ndec l => some (.lane 0xD4 l)
  | .ndone l => some (.lane 0xD5 l)
  | .spsend l => some (.lane 0xD6 l)
  | .sprecv l => some (.lane 0xD7 l)
  | .spgrant l => some (.lane 0xD8 l)
  | _ => none

/-- The words of an instruction; none for a device event. -/
def encode (i : Instr) : List Word32 :=
  match i.enc with
  | some e => e.words
  | none => []

end Sys2Proof
end

