-- ==== Sys2Proof/Machine/Pte.lean ====
section
/-! DEFINITION. The fields of a page-table entry (spec/01 R27 Table 1-8). -/

namespace Sys2Proof.Machine

def pteV (e : Word64) : Bool := e.getLsbD 0
def pteL (e : Word64) : Bool := e.getLsbD 1
def pteOrd (e : Word64) : Nat := bitsOf e.toNat 2 2
def pteW (e : Word64) : Bool := e.getLsbD 4
def pteX (e : Word64) : Bool := e.getLsbD 5
def ptePeer (e : Word64) : Bool := e.getLsbD 6
def pteCmp (e : Word64) : Bool := e.getLsbD 7
def pteFt (e : Word64) : Bool := e.getLsbD 8
def pteA (e : Word64) : Bool := e.getLsbD 9
def pteD (e : Word64) : Bool := e.getLsbD 10
def pteKva (e : Word64) : Bool := e.getLsbD 11
def pteTier (e : Word64) : Nat := bitsOf e.toNat 12 2
def ptePin (e : Word64) : Bool := e.getLsbD 14
def pteCp (e : Word64) : Nat := bitsOf e.toNat 52 4
def pteG (e : Word64) : Bool := e.getLsbD 63
/-- FRAME as a physical address: bits [51:15] in place. -/
def pteFrame (e : Word64) : Nat := bitsOf e.toNat 15 37 * 2 ^ 15
/-- The peer-set index of a PEER leaf (R28). -/
def ptePeerIx (e : Word64) : Nat := bitsOf e.toNat 15 16

end Sys2Proof.Machine
end

