-- ==== Sys2Proof/Config.lean ====
section
/-! DEFINITION. What the spec leaves open: free values, which no proof can evaluate. Each is applied to a plain
counter of State or to the operands it depends on, and each has a row in the assumption log. -/

namespace Sys2Proof

/-- The periods of the 1.25 GHz reference clock that pass in step `n` (R332; DESIGN CHOICE, log entry 2). -/
opaque Config.elapsed : Nat → BitVec 64

/-- The core cycles that pass in step `n` (R219; DESIGN CHOICE, log entry 2). -/
opaque Config.cycles : Nat → BitVec 48

/-- Whether a node's fetch, in a step, sees its own store to a word of code (R282; DESIGN CHOICE, log entry 26). -/
opaque Config.codeSeen : Nat → Nat → Bool

/-- The package power in watts, averaged over the last 1 ms, in step `n` (R461; DESIGN CHOICE, log entry 2). -/
opaque Config.power : Nat → BitVec 16

/-- The firmware image in on-package flash (R463; DESIGN CHOICE, log entry 24). -/
opaque Config.flash : List (BitVec 8)

/-- Whether an image carries a valid HSS signature of its own top-level public key (R463; DESIGN CHOICE, log entry 24). -/
opaque Config.signatureGood : List (BitVec 8) → Bool

/-- The SHA-256 hash of the top-level public key that an image carries (R463; DESIGN CHOICE, log entry 24). -/
opaque Config.keyHash : List (BitVec 8) → BitVec 256

/-- The root hash in the fuses (R463; DESIGN CHOICE, log entry 24). -/
opaque Config.rootHash : BitVec 256

/-- The version that an image carries (R463; DESIGN CHOICE, log entry 24). -/
opaque Config.imageVersion : List (BitVec 8) → Nat

/-- The rollback counter in the fuses (R463; DESIGN CHOICE, log entry 24). -/
opaque Config.rollback : Nat

/-- SHA-256 of an image (R464; DESIGN CHOICE, log entry 24). -/
opaque Config.imageHash : List (BitVec 8) → BitVec 256

/-- The fuse configuration that a report states (R464; DESIGN CHOICE, log entry 24). -/
opaque Config.fuses : List (BitVec 8)

/-- The attestation private key, which the machine holds and shows to nobody (R464; DESIGN CHOICE, log entry 24). -/
opaque Config.attestKey : List (BitVec 8)

/-- The signature of a report by a leaf of a private key: key, leaf and report (R464; DESIGN CHOICE, log entry 24). -/
opaque Config.attestSign : List (BitVec 8) → Nat → List (BitVec 8) → List (BitVec 8)

/-- An element of an operand image that another image has partly overwritten, by the elements that the slots have been filled
with and the element's key (R375; DESIGN CHOICE, log entry 20). -/
opaque Config.tornOperand : List (Nat × BitVec 16) → Nat → BitVec 16

/-- A value that the spec does not state, by what it stands for and by the operands it is computed from (R5; DESIGN CHOICE, log
entry 38). -/
opaque Config.unstated : Nat → List Nat → BitVec 64

/-- Which of the device's stores to the host window the host rejects in step `n` (R448; DESIGN CHOICE, log entry 78). -/
opaque Config.lostStore : Nat → Nat

end Sys2Proof
end

