-- ==== Sys2Proof/Machine/State.lean ====
section
/-! DEFINITION. The state of the machine as plain data: everything the spec gives it, one home each
(INVENTORY.md '## State' names the rule of every field), and the machine right after reset. -/

namespace Sys2Proof.Machine

/-- The reasons a step stops the machine with a fault: none. Every exception of the spec is a trap that the
machine takes (spec/10), which is a next state. -/
inductive Fault where
  deriving DecidableEq, Repr

/-- The reasons a step has no meaning. -/
inductive Refusal where
  /-- Raised by a dispatch arm whose instruction has no meaning yet. Safe: the machine stops where the device
  goes on. -/
  | notModelled (mnemonic : String)
  deriving DecidableEq, Repr

/-! ## Groups (spec/08) -/

/-- A replay entry (R260 Table 10-3), or the trapped instruction that ERET executes again. -/
structure Replay where
  words : List Word32
  pc : BitVec 56
  off : Nat
  clock : Word64
  lmask : Word32
  /-- OPA and OPB of a replay entry; none for the trapped instruction, which reads its registers afresh. -/
  ops : Option (Word64 × Word64)
  deriving DecidableEq, Repr

/-- What a parked path waits on (R230 Table 8-6 and the instructions that wait). -/
inductive WaitOn where
  | timeline (ctx : Ctx) (num : Word64)
  /-- a barrier record: its window code, the die and quad or workgroup that hold it, its offset, the
  generation waited on and the destination register -/
  | barrier (win : Nat) (home : Nat) (off : Nat) (gen : BitVec 16) (dest : BitVec 7)
  | monitor (deadline : Option Word64)
  | queue (off : Nat)
  | claim (first count : Nat)
  | nodeDone (node : Nat)
  | channel (chan : BitVec 6)
  | walker
  | firstTouch
  /-- an order-visible event of a deterministic node that is not yet the lowest (R229) -/
  | order
  deriving DecidableEq, Repr

/-- A parked path's wait: the instruction, the words it takes and how far it has got. -/
structure Wait where
  instr : Instr
  words : Nat
  on : WaitOn
  /-- The progress of an instruction that waits between its transactions (KVAPP, KVREL). -/
  vals : List Word64
  /-- the completion flag that the instruction marked as it issued (R283) -/
  mark : Option Nat := none
  deriving DecidableEq, Repr

/-- A path (R210): the clause header it stands in, the word position of its next instruction in that clause
(0: the header itself), its lanes, its logical clock (R226), the clause as fetched (R282), its wait and the
replay entries that ERET left (R261). -/
structure Path where
  pc : BitVec 56
  off : Nat
  mask : Word32
  clock : Word64
  clause : Option (List Word32)
  /-- the next header would lie at 2^56 or above, where `pc` is what is left below 2^56 (R12) -/
  top : Bool := false
  wait : Option Wait
  replay : List Replay
  /-- the next instruction has met a wait of Table 8-6 at issue: for an operand or an accumulator of its group's own operations, or for
  a tile that a command holds (R219) -/
  stalled : Bool := false
  /-- the floor it held when its group was saved (R230) -/
  floor : Option Nat := none
  deriving DecidableEq, Repr

/-- A trap before it is taken: cause and sub-cause (Table 10-4), the lanes and the VA of its frame, and what a
fault-ring record says of it (R132): the kind of access and the level at which a walk ended. -/
structure Trap where
  cause : BitVec 8
  sub : BitVec 8
  lmask : Word32
  va : BitVec 56
  kind : BitVec 4
  level : BitVec 4
  deriving DecidableEq, Repr

/-- A trap of an engine command waiting to be delivered (R124, R203, R275). `restart`: ERET restarts the
command, which is stopped; otherwise the command runs on (R275). -/
structure Delivered where
  cmd : CmdId
  eng : BitVec 4
  trap : Trap
  elem : Word64
  restart : Bool
  /-- the lanes that were active at the issuing instruction, and its place (R124, R132) -/
  active : Word32
  pc : BitVec 56
  clock : Word64
  deriving DecidableEq, Repr

/-- A watch (R113): the memory it lies in, the line's offset or physical address, the value read, and whether
a write came since. -/
structure Watch where
  win : Nat
  home : Nat
  line : Nat
  value : List Byte
  written : Bool
  deriving DecidableEq, Repr

/-- What the device knows of an entry of the divergence stack without reading it back (R210, R214): whether it is parked, its
path's clock and lanes, its PC, and whether the header at which a release continues lies at 2^56 or above, which NEXT cannot say
(R12; DESIGN CHOICE, log entry 50). -/
structure StackKey where
  parked : Bool
  clock : Word64
  mask : Word32
  pc : BitVec 56
  top : Bool := false
  deriving DecidableEq, Repr

/-- The scalar operands captured in a replay entry, and the lanes that were active at its issue (R260). -/
structure Captured where
  a : Word64
  b : Word64
  lanes : Word32
  deriving DecidableEq, Repr

/-- A byte of a plain store to a UO page that has not been drained (R104): the leaf it was translated through, and the number of
its store among those undrained. -/
structure UoByte where
  pa : Nat
  val : Byte
  leaf : Word64
  num : Nat
  deriving DecidableEq, Repr

/-- A hint of PHINT (R265). -/
structure Hint where
  hold : Bool
  vlive : Word32
  slive : BitVec 16
  splive : Word32
  acc : BitVec 4
  slots : Bool
  deriving DecidableEq, Repr

/-- How far a pre-emption request has got with a group (R263, R264). -/
inductive StopState where
  | running
  | notice     -- a PREEMPT trap is to be taken at the next boundary
  | requested
  | stopped
  deriving DecidableEq, Repr

/-- A group (R207 to R220). Vector register n, lane l is key 32 n + l of `vregs`. -/
structure Group where
  id : GroupId
  /-- the logical group index g = w × G + j -/
  gidx : Nat
  asid : BitVec 12
  die : BitVec 2
  core : Nat
  quarter : Nat
  sregs : SMap 64
  vregs : SMap 32
  /-- how far PRIVBASE + g × PRIVSIZE lies above 2^56, in units of 2^56 (R12, R33) -/
  privOver : Nat
  /-- vector registers allocated -/
  vcount : Nat
  mregs : SMap 32
  bregs : SMap 128
  hregs : SMap 32
  qflags : SMap 6
  gstat : Word64
  fpctl : Word64
  rseed : Word64
  fpstat : Word64
  nanctl : Word64
  hangctl : Word64
  hang : BitVec 48
  hangPending : Bool
  slot0 : Option Path
  slot1 : Option Path
  /-- the entries of the divergence stack, which lie in memory (R214), lowest first -/
  stack : List StackKey
  /-- lanes exited or never launched (R208, R213) -/
  exited : Word32
  /-- the live slot held by a trap (R123) -/
  held : Option Bool
  /-- the lanes of the path that took the trap being handled (R261) -/
  trapLanes : Word32
  /-- what a record of the trap being handled says beside its frame (R132, R133) -/
  trapKind : BitVec 4
  trapLevel : BitVec 4
  /-- what is left below 2^56 of the address at which the path of that trap stood, where that was 2^56 or above (R12; DESIGN CHOICE,
  log entry 50) -/
  trapTop : Option (BitVec 56)
  watch : Option Watch
  uo : List UoByte
  /-- the completion flags marked by the stores of `uo`, with the numbers of the stores (Table 11-3) -/
  uoMarks : List (Nat × Nat)
  pending : List Delivered
  /-- the delivered trap that the group's handler serves, if it serves one (R124, R125) -/
  serving : Option Delivered
  hint : Option Hint
  stop : StopState
  /-- what the replay entry being executed has captured (R260) -/
  ovr : Option Captured
  /-- the group's last grant ended with YIELD or YLD (R251) -/
  yielded : Bool
  /-- the slot last granted (R217), and the cycles waited since the last grant (R251) -/
  lastSlot : Bool
  waited : Nat
  deriving DecidableEq, Repr

/-! ## Workgroups, engine commands and nodes (spec/03, 09, 16) -/

/-- The claim state of an operand slot (R81 Table 3-7). -/
inductive Claim where
  | free
  | held (j : Nat)
  | deferred
  deriving DecidableEq, Repr

/-- The header of an operand image (R375). -/
structure Image where
  fmt : Nat
  scl : Bool
  dom : Nat
  rows : Nat
  cols : Nat
  surv : BitVec 128
  /-- a slot after its first has been covered by another image (DESIGN CHOICE, log entry 20); the columns filled since then, by
  first and count, are whole again (R377) -/
  torn : Bool
  whole : List (Nat × Nat) := []
  deriving DecidableEq, Repr

/-- One core's copy of the operand slots: image headers by first slot, element bit patterns by
(slot × 128 + row) × 4096 + column, and block scales by (slot × 128 + row) × 128 + block, each plus one. -/
structure SlotCopy where
  heads : List (Nat × Image)
  elems : SMap 16
  scales : SMap 9
  deriving DecidableEq, Repr

/-- The header of an accumulator (R382). -/
structure AccHead where
  dom : Nat
  surv : BitVec 128
  deriving DecidableEq, Repr

/-- A key-value page pinned for a command (R167, R397): its KVPTE, the sequence and page it was named by, and
the KVPTE as the snapshot read it. -/
structure Pin where
  kvpte : Nat
  seq : Nat
  page : Nat
  entry : BitVec 128
  pos : Nat
  deriving DecidableEq, Repr

/-- An engine command in flight: what it captured at issue (R109, R182, R201, R275) and how far it has got
(R268, R267). -/
structure Command where
  id : CmdId
  instr : Instr
  group : GroupId
  gidx : Nat
  clock : Word64
  lmask : Word32
  active : Word32
  pc : BitVec 56
  off : Nat
  seed : Word64
  nanTrap : Bool
  /-- scalar operands, in the order the instruction's description reads them -/
  ops : List Word64
  /-- lane operands: lane and value -/
  lanes : List (Nat × Word32)
  recs : List (BitVec 128)
  gens : List (Nat × BitVec 16)
  mark : Option Nat
  barGen : BitVec 16
  staleSent : Bool
  /-- the first sector not complete and the map of those complete after it (R268) -/
  first : Nat
  done : Word64
  acked : List Nat
  /-- source bytes read (R416): bit 8 is set, bit 9 where the byte carries poison (R458) -/
  read : SMap 10
  /-- the phase of a command that runs in several (R397, R402, R403, R167), and its next chunk, row, page or transaction -/
  phase : Nat
  pos : Nat
  /-- running values of an interruptible command (R267) -/
  vals : SMap 32
  pins : List Pin
  status : BitVec 8
  /-- stopped by a fault until the ERET of its delivered trap (R124, R269) -/
  stopped : Bool
  settled : Bool
  /-- complete; it leaves the list when its timeline passes it (R109) -/
  finished : Bool
  deriving DecidableEq, Repr

/-- Pre-emption states of a workgroup (R271 Table 10-8). -/
inductive WgState where
  | resident
  | stopping
  | saving
  | saved (block : Nat)
  | restoring (block : Nat)
  deriving DecidableEq, Repr

/-- A workgroup (R65, R207, R223). The follower's operand slots are used by core pairs alone. Accumulator a,
row r, column c is key (128 a + r) × 256 + c. -/
structure Workgroup where
  id : WgId
  asid : BitVec 12
  groups : Nat
  producer : Nat
  die : BitVec 2
  core : Nat
  pair : Bool
  saveEntry : Nat
  state : WgState
  scrSize : Nat
  scr : SMap 8
  ntiles : Nat
  tiles : SMap 256
  nslots : Nat
  claims : List Claim
  /-- pending operations on each slot (R81) -/
  slotOps : List Nat
  slots : SlotCopy
  slotsF : SlotCopy
  accHeads : List AccHead
  accs : SMap 32
  /-- by context: commands completed up to this number (R109), the highest number issued, the error word (R418) -/
  timelines : List (Ctx × Word64)
  issued : List (Ctx × Word64)
  errors : List (Ctx × Word64)
  /-- the issuing clock of each command of a deterministic node's workgroup (R230) -/
  issueClocks : List (Ctx × Nat × Word64)
  cmds : List Command
  deriving DecidableEq, Repr

/-- A record of a TWIN node's outgoing stream with its key (R228, R235). -/
structure StreamRec where
  clock : Word64
  gidx : Nat
  lane : Nat
  sub : Nat
  addr : Word64
  bytes : List Byte
  deriving DecidableEq, Repr

/-- The scheduler's copy of a posted node (R240). -/
structure Node where
  index : Nat
  desc : BitVec 1024
  ticket : Word64
  ready : Bool
  /-- workgroups placed so far, the next to place; and those complete -/
  placed : Nat
  complete : Nat
  /-- a group ended with a fault, or a command completed FAULT (R125, R124) -/
  faulted : Bool
  /-- a placement found the tile array invalid (R243) -/
  badTiles : Bool
  /-- waited longer than SCHEDCTL.AGE (R246) -/
  aged : Bool
  /-- every workgroup complete; the exchange of R236 runs -/
  exchanging : Bool
  stream : List StreamRec
  /-- memory as it stood at the launch, from which the node's code is fetched, and the words that the node has stored since
  (R282) -/
  code : List Host.Cell
  own : List Nat
  deriving DecidableEq, Repr

/-- A quad-memory or die-scratchpad grant of a node (R65); `quad` is none for die scratchpad. -/
structure Grant where
  node : Nat
  asid : BitVec 12
  die : BitVec 2
  quad : Option Nat
  size : Nat
  /-- the granule of the die's pool at which it lies (XSTAT .land, R426) -/
  base : Nat
  mem : SMap 8
  deriving DecidableEq, Repr

/-- A spore in a slot of a channel (R255). -/
structure Spore where
  slot : Nat
  header : BitVec 512
  payload : List Byte
  /-- positions of the payload in poisoned sectors (R458) -/
  poison : List Nat
  /-- the sending node and the clock of its SPSEND (R230) -/
  node : Nat
  clock : Word64
  /-- the send has completed (R257) -/
  landed : Bool
  deriving DecidableEq, Repr

/-- A spore channel (R253 to R256). -/
structure Channel where
  num : BitVec 6
  asid : BitVec 12
  slots : Nat
  size : Nat
  base : Nat
  permits : Nat
  sendSeq : Word32
  recvSeq : Word32
  spores : List Spore
  /-- permits on their way back to the sender: the node and the clock of the SPRECV that returned each -/
  returning : List (Nat × Word64)
  deriving DecidableEq, Repr

/-- A contribution to a switch reduction: the command and the line of its destination, the words it covers by their place
in the line, and those that carry poison (R425, R458). -/
structure Contribution where
  /-- the command of this package; none from another package -/
  cmd : Option CmdId
  line : Nat
  op : Nat
  type : Nat
  words : List (Nat × Word32)
  poison : List Nat
  deriving DecidableEq, Repr

/-- A reduction instance: its line, by the number of the line of the member that a load would read, the lines of every
member, and the number of contributions that its first one named (R425, R61). -/
structure Reduction where
  line : Nat
  members : List Nat
  count : Nat
  contributions : List Contribution
  deriving DecidableEq, Repr

/-! ## Dies, cores and the package (spec/02, 05, 09, 20) -/

/-- An entry of a translation cache (R118); `pa` is where a leaf was read. -/
inductive TlbEntry where
  | leaf (asid : BitVec 12) (global : Bool) (level : Nat) (va : Nat) (entry : Word64) (pa : Nat)
  | asidEntry (asid : BitVec 12) (entry : BitVec 128)
  | peerSet (asid : BitVec 12) (index : Nat) (members : List Word64)
  deriving DecidableEq, Repr

/-- A non-leaf entry of a walk cache (R118): the table level it was read at and its index path. -/
structure WalkEntry where
  asid : BitVec 12
  level : Nat
  va : Nat
  entry : Word64
  deriving DecidableEq, Repr

structure Core where
  die : BitVec 2
  num : Nat
  eccLog : Word64
  tlb : List TlbEntry
  deriving DecidableEq, Repr

/-- A slot that a demotion step has replaced and that is still to be pushed to its class stack (R167): the physical
address of its arena's descriptor, its KVPTE index, class and slot number. -/
structure OldSlot where
  arena : Nat
  k : Nat
  cls : Nat
  num : Nat
  deriving DecidableEq, Repr

/-- What a transaction that the KV walker has queued waits for: LOCK to clear (R145), or a pin of a KVPTE (R150). -/
inductive WalkerWait where
  | lock
  | pin (k : Nat)
  deriving DecidableEq, Repr

/-- A transaction in the KV walker's queue (R146): who asks for it, the physical address of its arena's descriptor, and what it
waits for. -/
structure Waiter where
  who : Requester
  arena : Nat
  on : WalkerWait
  deriving DecidableEq, Repr

/-- A superblock of four neighbouring lines under one L2 tag (R50): its number (address / 512) and its resident lines with
the sectors that each occupies. -/
structure L2Tag where
  tag : Nat
  lines : List (Nat × Nat)
  deriving DecidableEq, Repr

structure Die where
  lichCtl : Word64
  lichStat : Word64
  cmpStat : Word64
  /-- lichen-cache misses since the last rise of LMISS (R47) -/
  missCount : Nat
  /-- blocks in the lichen cache, the most recently used first (R40) -/
  lichCache : List Nat
  /-- queued swap triggers and swaps in progress: group and member (R45) -/
  swapQueue : List (Nat × Nat)
  swaps : List (Nat × Nat)
  /-- counting accesses that a swap in progress holds, oldest first: group, member, PIN and TIER (R41, R44) -/
  heldCounts : List (Nat × Nat × Bool × Nat)
  /-- three minus each entry of the size predictor (R54), so that an unlisted entry is at its reset value -/
  predictor : SMap 2
  /-- the superblocks in L2, the most recently used first (R50; DESIGN CHOICE, log entry 12) -/
  l2 : List L2Tag
  walkCache : List WalkEntry
  tlb : List TlbEntry
  /-- waiting device-written fault records with their place in the order of entry (R135) -/
  overflow : List (Nat × BitVec 512)
  /-- pending old slots of the demotion engine, at most 64 (R167) -/
  oldSlots : List OldSlot
  /-- the transactions waiting in the KV walker, in arrival order, at most 128 (R146) -/
  walker : List Waiter
  deriving DecidableEq, Repr

/-- The system registers of the package (Table 12-3, Table 20-1). -/
structure PkgRegs where
  asidbase : Word64
  hvec : Word64
  ftpbase : Word64
  frbase : Word64
  frctl : Word64
  nodetab : Word64
  schedctl : Word64
  schedstat : Word64
  savectl : Word64
  ctxpool : Word64
  prectl : Word64
  ringctl : Word64
  twinctl : Word64
  twinstat : Word64
  tlbiva : Word64
  tlbictl : Word64
  timer : Word64
  mcstat : Word64
  pwrstat : Word64
  pwrctl : Word64
  freipstat : Word64
  bootstat : Word64
  attctl : Word64
  deriving DecidableEq, Repr

/-- A MAPPG waiting for the first-touch unit (R130). -/
structure MapReq where
  group : GroupId
  slot : Bool
  va : Word64
  deriving DecidableEq, Repr

/-- A message of the exchange between twins (R234, R236): the package at its other end, the node's ASID, index and RUNS, and the
checksum and length of its stream. -/
structure TwinMsg where
  pkg : BitVec 12
  asid : BitVec 12
  node : Nat
  runs : Word32
  crc : Word64
  len : Nat
  deriving DecidableEq, Repr

/-- Whose store awaits an acknowledgement (R59): a group's or an engine command's. -/
inductive Issuer where
  | group (g : GroupId)
  | cmd (c : CmdId)
  deriving DecidableEq, Repr

/-- A store that awaits the acknowledgement of a package (R59): its issuer, its number among the stores that wait, the
completion flags whose marks its last acknowledgement removes (Table 11-3), and its bytes in this package's own members. -/
structure Unacked where
  issuer : Issuer
  pkg : Nat
  store : Nat
  marks : List Nat
  own : List Nat
  deriving DecidableEq, Repr

/-- How the device answers a request of the host (R457): it completes it, aborts it, asks for it again, or holds it for now (R44,
R450). -/
inductive CompStatus where
  | success
  | completerAbort
  | requestRetry
  | held
  deriving DecidableEq, Repr

/-- What a request by the host returns (R446, R447, R457, R459): its status; the bytes, or the old value of an atomic; and whether
it completes as a poisoned TLP. -/
structure HostReply where
  status : CompStatus
  bytes : List Byte
  poisoned : Bool
  deriving DecidableEq, Repr

/-- A request from outside the device that waits (R44, R450): of the host or PF1 to memory, of another package, or a host write to
SUBMIT or TLBICTL.GO. -/
inductive HeldReq where
  | host (r : HostReq)
  | pf1 (r : HostReq)
  | peer (r : HostReq)
  | submit (index : BitVec 20)
  | invalidate (kind : Nat) (asid : BitVec 12)
  deriving DecidableEq, Repr

/-- The largest clocks of the arrivals at a barrier of a deterministic node: of its current generation and of the
one before (R230 Table 8-6). -/
structure Arrival where
  win : Nat
  home : Nat
  off : Nat
  now : Word64
  prev : Word64
  /-- the generation still expects arrivals -/
  more : Bool
  deriving DecidableEq, Repr

/-- The machine. -/
structure State where
  /-- the agents' moves still to happen, oldest first (DESIGN CHOICE, log entry 1) -/
  schedule : List Instr
  /-- steps taken, to which the free values of elapsed time are applied (DESIGN CHOICE, log entry 2) -/
  steps : Nat
  /-- a clause of `g`'s slot `slot` is granted (R251) -/
  granted : Bool
  slot : Bool
  /-- grants of other issue quarters: the group, the slot and the clause (R251) -/
  quarters : List (GroupId × Bool × BitVec 56)
  /-- `g` is a resident or saved group; false before the first -/
  live : Bool
  g : Group
  w : Workgroup
  others : List Group
  otherWgs : List Workgroup
  nodes : List Node
  grants : List Grant
  channels : List Channel
  reductions : List Reduction
  arrivals : List Arrival
  /-- bytes of memory by physical address (spec/01 Table 1-3), in canonical form (Memory.wf) -/
  mem : List Host.Cell
  /-- what uncorrectable soft errors have marked (R206, R458) -/
  soft : List PoisonTarget
  /-- lines of this package written since they were last written back (R49, R329) -/
  dirty : List Nat
  /-- those of them last written through a leaf with CMP = 1 (R49, R52) -/
  cmpLines : List Nat
  /-- window sectors into which an engine copy or a spore carried poison (R458) -/
  carried : List PoisonTarget
  cores : List Core
  die0 : Die
  die1 : Die
  die2 : Die
  die3 : Die
  regs : PkgRegs
  /-- the next fault-ring ticket (R134) -/
  frTicket : Word64
  /-- records that have entered the overflow buffers (R135) -/
  ovfCount : Nat
  /-- the next ready ticket (R245) -/
  readyTicket : Word64
  mapQueue : List MapReq
  /-- save entries and context blocks in use (R258, R270) -/
  saveUsed : List Nat
  ctxUsed : List Nat
  /-- granules of each die's scratchpad pool: die, first granule, count (R65, R254) -/
  poolUsed : List (Nat × Nat × Nat)
  /-- messages of twins that have arrived and pair with no node yet, and those this package has sent, oldest first (R236) -/
  twinInbox : List TwinMsg
  twinSent : List TwinMsg
  /-- nodes that have reached DONE since TWINCTL.EN was last set; none before its first setting (R239) -/
  ranSince : Option (List Nat)
  /-- stores to members of peer sets on other packages that await an acknowledgement (R59, R116) -/
  unacked : List Unacked
  /-- the routing table: the reachable packages (R58, R452) -/
  routes : List Route
  /-- MSI-X: table bytes, pending bits and messages sent by vector (R451) -/
  msixTable : SMap 8
  msixPending : BitVec 4
  msixSent : List Nat
  recovery : SMap 8
  /-- attestation leaves used (R464) -/
  leaves : Nat
  /-- bring-up: PERST# deasserted, cores released in steps of 32 (R454, R456) -/
  perst : Bool
  released : Nat
  /-- issue stopped by a thermal trip (R462) -/
  tripped : Bool
  /-- periods of the reference clock since PERST# was last deasserted (R457) -/
  sincePerst : Nat
  /-- the firmware image that VERIFY has accepted (R463) -/
  firmware : List Byte
  /-- what each device store to the host window replaced, for those that the host may still reject, the latest first (R448) -/
  hostStores : List (List (Nat × Byte))
  /-- requests of the host, of PF1 and of other packages that wait: for a swap that holds their lines (R44), or for a store that is
  not yet performed (R59, R450), oldest first -/
  held : List HeldReq
  /-- what the host's latest request returned to it, or the latest that had waited and went on, oldest first (R446, R447, R450,
  R457) -/
  hostReplies : List HostReply
  deriving DecidableEq, Repr

/-! ## Reset -/

/-- A group before launch: every register at the value R208 gives, in no node. -/
def Group.empty : Group :=
  { id := ⟨0, 0, 0⟩, gidx := 0, asid := 0, die := 0, core := 0, quarter := 0, sregs := [], vregs := [], privOver := 0, vcount := 64
    mregs := [], bregs := [], hregs := [], qflags := [], gstat := 0, fpctl := 0, rseed := 0, fpstat := 0
    nanctl := 0, hangctl := 26, hang := 0, hangPending := false, slot0 := none, slot1 := none, stack := []
    exited := 0, held := none, trapLanes := 0, trapKind := 0, trapLevel := 0xF, trapTop := none, watch := none, uo := [], uoMarks := []
    pending := [], serving := none, hint := none, stop := .running, ovr := none, yielded := false, lastSlot := true, waited := 0 }

/-- A copy of the operand slots as R67 zeroes it. -/
def SlotCopy.empty : SlotCopy := { heads := [], elems := [], scales := [] }

/-- A workgroup with no grant. -/
def Workgroup.empty : Workgroup :=
  { id := ⟨0, 0⟩, asid := 0, groups := 1, producer := 0, die := 0, core := 0, pair := false, saveEntry := 0
    state := .resident, scrSize := 0, scr := [], ntiles := 0, tiles := [], nslots := 0, claims := [], slotOps := []
    slots := SlotCopy.empty, slotsF := SlotCopy.empty, accHeads := List.replicate 4 ⟨0, 0⟩, accs := []
    timelines := [], issued := [], errors := [], issueClocks := [], cmds := [] }

/-- A die at reset (Tables 2-4, 2-5, 2-8, R54; log entries 5 and 12). -/
def Die.reset : Die :=
  { lichCtl := 0x40, lichStat := 0, cmpStat := 0, missCount := 0, lichCache := [], swapQueue := [], swaps := [], heldCounts := []
    predictor := [], l2 := [], walkCache := [], tlb := [], overflow := [], oldSlots := [], walker := [] }

/-- An F-die at reset: LICHCTL reads as zero (R46). -/
def Die.resetF : Die := { Die.reset with lichCtl := 0 }

/-- The package registers at the values of their Reset columns. -/
def PkgRegs.reset : PkgRegs :=
  { asidbase := 0, hvec := 0, ftpbase := 0, frbase := 0, frctl := 4, nodetab := 0
    schedctl := 1000 <<< 16, schedstat := 0, savectl := 0, ctxpool := 0, prectl := 2048, ringctl := 200
    twinctl := 200 <<< 32, twinstat := 0, tlbiva := 0, tlbictl := 0, timer := 0, mcstat := 0
    pwrstat := 1250, pwrctl := 3000, freipstat := 0, bootstat := 1, attctl := 0 }

/-- The machine at reset: PERST# just deasserted is still to come, memory lists nothing, no node is posted and
no group is resident. Programs come to run through the host's moves (DESIGN CHOICE, log entry 6). -/
def State.reset : State :=
  { schedule := [], steps := 0, granted := false, slot := false, quarters := [], live := false
    g := Group.empty, w := Workgroup.empty, others := [], otherWgs := [], nodes := [], grants := []
    channels := [], reductions := [], arrivals := [], mem := [], soft := [], dirty := [], cmpLines := [], carried := [], cores := []
    die0 := Die.reset, die1 := Die.reset, die2 := Die.resetF, die3 := Die.resetF, regs := PkgRegs.reset
    frTicket := 0, ovfCount := 0, readyTicket := 0, mapQueue := [], saveUsed := [], ctxUsed := [], poolUsed := []
    twinInbox := [], twinSent := [], ranSince := none, unacked := [], routes := [⟨0, 0, none⟩], msixTable := [(12, 1), (28, 1), (44, 1), (60, 1)], msixPending := 0, msixSent := [0, 0, 0, 0]
    recovery := [], leaves := 0, perst := false, released := 0, tripped := false, sincePerst := 0, firmware := [], hostStores := [], held := [], hostReplies := [] }

end Sys2Proof.Machine
end

