-- ==== Sys2Proof/Machine/Memory.lean ====
section
/-! DEFINITION. The physical address map (R16 Table 1-3, Table 2-1), bytes of memory, poison (R458, R459),
watches (R113, R114), undrained stores (R104) and the windows of R32. An address of another package is its
physical address plus 2^52 times that package's number plus one. -/

namespace Sys2Proof.Machine

/-! ## The physical address map -/

/-- Physical addresses are 52 bits (R12). -/
def paSize : Nat := 2 ^ 52

/-- The die whose 2 TiB window holds a physical address of this package. -/
def dieOf (pa : Nat) : Nat := pa / 2 ^ 41

/-- The offset in its die window. -/
def winOff (pa : Nat) : Nat := pa % 2 ^ 41

/-- Populated bytes of a die window (Table 1-3): 1536 GiB on an A-die, 128 GiB on an F-die. -/
def winSize (die : Nat) : Nat := if die < 2 then 0x18000000000 else if die < 4 then 0x2000000000 else 0

/-- Package-local memory: the populated part of a die window (Table 1-3). -/
def isLocal (pa : Nat) : Bool := decide (winOff pa < winSize (dieOf pa))

/-- The host window, and its offsets below 2^48 (Table 1-3, R448). -/
def isHost (pa : Nat) : Bool := decide (2 ^ 48 ≤ pa) && decide (pa < 2 ^ 49)

/-- A hole (R16): neither package-local memory nor host window. -/
def isHole (pa : Nat) : Bool := !(isLocal pa || isHost pa)

/-- Where the carve-outs of a die window begin (Table 2-1): they run to its end. -/
def carveBase (die : Nat) : Nat := if die < 2 then 0x17E7E800000 else 0x1FE0000000

/-- Where the lichen table of an A-die window begins (R38). -/
def lichenBase : Nat := 0x17FFE800000

/-- The physical address within its package, and whether it is this package's. -/
def basePa (x : Nat) : Nat := x % paSize
def isOwn (x : Nat) : Bool := decide (x < paSize)

/-- An address in a carve-out (R37, Table 2-1). -/
def inCarve (x : Nat) : Bool :=
  let pa := basePa x
  isLocal pa && decide (carveBase (dieOf pa) ≤ winOff pa)

/-- Ordinary memory of die `d`: its window, but for the carve-outs (R37, R129). -/
def isOrdinary (d pa : Nat) : Bool := decide (dieOf pa = d) && isLocal pa && !inCarve pa

/-- The first locked congruence group (R37). -/
def firstLocked : Nat := 0xBCFD00

/-- What a byte that nothing has written reads as: MEMINIT leaves zero everywhere (R455) and 0x0003 in the
lichen entry of every locked group (R39). -/
def resetByte (x : Nat) : Byte :=
  if isOwn x && decide (dieOf x < 2) && decide (lichenBase + 2 * firstLocked ≤ winOff x) && decide (winOff x < winSize 0) && winOff x % 2 == 0 then 3
  else 0

/-! ## Dies -/

def State.die (s : State) (d : BitVec 2) : Die :=
  if d = 0 then s.die0 else if d = 1 then s.die1 else if d = 2 then s.die2 else s.die3

def State.setDie (s : State) (d : BitVec 2) (x : Die) : State :=
  if d = 0 then { s with die0 := x } else if d = 1 then { s with die1 := x }
  else if d = 2 then { s with die2 := x } else { s with die3 := x }

/-! ## Bytes of memory -/

/-- The byte that memory lists at an address. -/
def Memory.find? (m : List Host.Cell) (x : Nat) : Option Byte :=
  match m with
  | [] => none
  | (a, v) :: rest => if a = x then some v else Memory.find? rest x

/-- A byte is written: a byte that an unlisted address reads as removes the entry. -/
def Memory.set (m : List Host.Cell) (x : Nat) (v : Byte) : List Host.Cell :=
  if v = resetByte x then m.filter fun p => p.1 != x else SMap.put m x v

/-- Addresses rise strictly from `b` on, and no entry equals what an unlisted address reads as. -/
def Memory.from (b : Nat) (m : List Host.Cell) : Bool :=
  match m with
  | [] => true
  | (a, v) :: rest => decide (b ≤ a) && decide (v ≠ resetByte a) && Memory.from (a + 1) rest

/-- The canonical form of memory: addresses strictly rising, and no entry that equals what an unlisted address reads as. -/
def Memory.wf (m : List Host.Cell) : Bool := Memory.from 0 m

/-- One byte of memory. -/
def State.byte (s : State) (x : Nat) : Byte := (Memory.find? s.mem x).getD (resetByte x)

/-- `n` bytes of memory from `x` on. -/
def State.bytes (s : State) (x n : Nat) : List Byte := (List.range n).map fun i => s.byte (x + i)

/-- The little-endian number in `n` bytes of memory (R8). -/
def State.num (s : State) (x n : Nat) : Nat := natOf (s.bytes x n)

/-- One byte of memory is written, with no other effect. -/
def State.setByte (s : State) (x : Nat) (v : Byte) : State := { s with mem := Memory.set s.mem x v }

/-- Bytes of memory are written one after another, with no other effect. -/
def State.setBytes (s : State) (ws : List (Nat × Byte)) : State :=
  ws.foldl (fun s p => s.setByte p.1 p.2) s

/-- Each byte of `bs` with its address. -/
def cellsAt (x : Nat) (bs : List Byte) : List (Nat × Byte) := (List.range bs.length).zip bs |>.map fun p => (x + p.1, p.2)

/-- Mark a watch that lies on a written line (R114); that of a group that is switched out is tested at its restore (R115). -/
def Group.touch (g : Group) (win home : Nat) (offs : List Nat) : Group :=
  match g.watch with
  | none => g
  | some w =>
    if w.win = win && w.home = home && g.stop != .stopped && offs.any (fun o => o / 128 * 128 == w.line) then
      { g with watch := some { w with written := true } }
    else g

def State.touch (s : State) (win home : Nat) (offs : List Nat) : State :=
  { s with g := s.g.touch win home offs, others := s.others.map fun g => g.touch win home offs }

/-- The 32-byte sector of a byte (R458). -/
def sectorOf (x : Nat) : Nat := x / 32 * 32

/-- R458: a store that writes every byte of a poisoned sector clears it; one that writes fewer leaves it. -/
def State.clearPoison (s : State) (addrs : List Nat) : State :=
  { s with soft := s.soft.filter fun t =>
      match t with
      | .sector x => !((List.range 32).all fun i => addrs.contains (sectorOf x + i))
      | _ => true }

/-- The lines of this package's memory that a store leaves to be written back (R49). -/
def State.markDirty (s : State) (addrs : List Nat) : State :=
  let lines := ((addrs.filter fun x => isOwn x && isLocal x).map fun x => x / 128 * 128).dedup
  { s with dirty := s.dirty ++ lines.filter fun l => !s.dirty.contains l }

/-- Bytes are stored by any issuer: carve-outs keep their contents (R37), a hole holds nothing (DESIGN CHOICE, log entry 13),
watches on the lines are marked and fully written sectors lose their poison. -/
def State.put (s : State) (ws : List (Nat × Byte)) : State :=
  let ws := ws.filter fun p => !inCarve p.1 && !isHole (basePa p.1)
  let addrs := ws.map Prod.fst
  (((s.setBytes ws).touch 0 0 addrs).clearPoison addrs).markDirty addrs

/-- R448: bytes that a store which the host cannot reject has written are no longer what an earlier store replaced. -/
def State.keepHost (s : State) (addrs : List Nat) : State :=
  if s.hostStores.isEmpty then s
  else { s with hostStores := s.hostStores.map fun l => l.filter fun p => !addrs.contains p.1 }

/-- A store that the host cannot reject: by the host itself, by PF1, an atomic, or to memory. -/
def State.store (s : State) (ws : List (Nat × Byte)) : State := (s.put ws).keepHost (ws.map Prod.fst)

/-- What a list of stored bytes replaces in the host window, one 128-byte line of it at a time. -/
def State.replaced (s : State) (ws : List (Nat × Byte)) : List (List (Nat × Byte)) :=
  let xs := ((ws.map Prod.fst).filter fun x => isOwn x && isHost x).dedup
  ((xs.map (· / 128)).dedup).map fun l => (xs.filter fun x => x / 128 == l).map fun x => (x, s.byte x)

/-- A store by a device issuer: the host-window bytes it replaces are kept by line, for the line that the host may still reject
(R448); of the latest 64 (DESIGN CHOICE, log entry 78). -/
def State.devStore (s : State) (ws : List (Nat × Byte)) : State :=
  let old := s.replaced ws
  let s := s.put ws
  if old.isEmpty then s else { s with hostStores := (old.reverse ++ s.hostStores).take 64 }

/-- R448: a line of the host window has been read: the posted stores to it before that were accepted. -/
def State.settleHost (s : State) (x : Nat) : State :=
  if s.hostStores.isEmpty then s
  else { s with hostStores := s.hostStores.filter fun l => !(l.any fun p => p.1 / 128 == x / 128) }

/-- R448: the host rejects a posted store: each of its bytes is what it replaced, unless a later store wrote it, which then
replaced that. `later` are the stores after it, the latest first. -/
def undoStore (old : List (Nat × Byte)) (later : List (List (Nat × Byte))) : List (List (Nat × Byte)) × List (Nat × Byte) :=
  match later with
  | [] => ([], old)
  | l :: rest =>
    let (rest', left) := undoStore old rest
    let mine (x : Nat) : Bool := l.any fun p => p.1 == x
    (l.map (fun p => (p.1, ((left.find? fun q => q.1 == p.1).map Prod.snd).getD p.2)) :: rest', left.filter fun p => !mine p.1)

/-- R448: the store at place `j` of those that the host may reject, the latest first, is lost. -/
def State.loseHostStore (s : State) (j : Nat) : State :=
  let (later, left) := undoStore (s.hostStores.getD j []) (s.hostStores.take j)
  { s.setBytes left with hostStores := later ++ s.hostStores.drop (j + 1) }

/-- The sector of a byte is itself poisoned, or the host completes its request with an error (R458, R448). -/
def State.sectorBad (s : State) (x : Nat) : Bool :=
  s.soft.any fun t => match t with
    | .sector p => sectorOf p == sectorOf x
    | .hostError p => sectorOf p == sectorOf x
    | _ => false

/-- The metadata line of an address's location (R53). -/
def metaLine (pa : Nat) : Nat := dieOf pa * 2 ^ 41 + carveBase (dieOf pa) + winOff pa / 2 ^ 15 * 128

/-- R53: the metadata line of an address holds a code in 0x7 to 0xF, or reads with an uncorrectable soft error: its 256
lines read as poisoned. -/
def State.metaBad (s : State) (x : Nat) : Bool :=
  isOwn x && isLocal x && !inCarve x &&
    let m := metaLine x
    ((s.mem.any fun c => decide (m ≤ c.1) && decide (c.1 < m + 128) && (decide (7 ≤ c.2.toNat % 16) || decide (7 ≤ c.2.toNat / 16)))
      || s.soft.any fun t => match t with | .sector p => decide (m ≤ p) && decide (p < m + 128) | _ => false)

/-- A byte reads as poison (R458, R53). -/
def State.isPoisoned (s : State) (x : Nat) : Bool := s.sectorBad x || s.metaBad x

/-- Some byte of [x, x + n) reads as poison; the range lies in at most two locations. -/
def State.rangePoisoned (s : State) (x n : Nat) : Bool :=
  (s.soft.any fun t => match t with
    | .sector p => decide (x < sectorOf p + 32) && decide (sectorOf p < x + n)
    | .hostError p => decide (x < sectorOf p + 32) && decide (sectorOf p < x + n)
    | _ => false) || s.metaBad x || s.metaBad (x + n - 1)

/-- R448: an access has met the error with which the host completed its request. -/
def State.metError (s : State) (xs : List Nat) : State :=
  { s with soft := s.soft.filter fun t => match t with
      | .hostError p => !(xs.any fun x => sectorOf x == sectorOf p)
      | _ => true }

/-- Mark the sectors of a list of bytes as poison (R458). -/
def State.poison (s : State) (xs : List Nat) : State :=
  { s with soft := s.soft ++ ((xs.map sectorOf).dedup.filter fun x => !s.sectorBad x).map .sector }

/-- The other packages that hold some of a list of addresses. -/
def pkgsOf (addrs : List Nat) : List Nat := ((addrs.filter fun x => !isOwn x).map fun x => x / paSize - 1).dedup

/-- R59, R116: a store of an issuer to members on other packages awaits an acknowledgement of each package; `marks` are the
completion flags whose marks the last of them removes. -/
def State.awaitAcksOf (s : State) (i : Issuer) (addrs : List Nat) (marks : List Nat := []) : State :=
  let num := s.unacked.foldl (fun n u => max n (u.store + 1)) 0
  { s with unacked := s.unacked ++ (pkgsOf addrs).map fun p => ⟨i, p, num, marks, addrs.filter isOwn⟩ }

/-- R59, R116: as the stores of the current group do. -/
def State.awaitAcks (s : State) (addrs : List Nat) (marks : List Nat := []) : State := s.awaitAcksOf (.group s.g.id) addrs marks

/-- Every store of an issuer is performed (R59). -/
def State.allAcked (s : State) (i : Issuer) : Bool := !(s.unacked.any fun a => a.issuer == i)

/-- R283: a mark is set, or removed. -/
def Group.mark (g : Group) (k : Option Nat) : Group :=
  match k with
  | none => g
  | some k => { g with qflags := g.qflags.set k (g.qflags.get k + 1) }

def Group.unmark (g : Group) (k : Option Nat) : Group :=
  match k with
  | none => g
  | some k => { g with qflags := g.qflags.set k (g.qflags.get k - 1) }

def Group.unmarkAll (g : Group) (ks : List Nat) : Group := ks.foldl (fun g k => g.unmark (some k)) g

/-! ## Undrained UO stores (R104) -/

/-- The value the group's own undrained stores give a byte, the last one winning (R94). -/
def uoByte? (uo : List UoByte) (x : Nat) : Option Byte :=
  uo.foldl (fun r u => if u.pa = x then some u.val else r) none

/-- A byte as the current group reads it: its own undrained store first (R104, R94). -/
def State.gbyte (s : State) (x : Nat) : Byte := (uoByte? s.g.uo x).getD (s.byte x)

/-- R282: the words of memory that a node has stored. -/
def State.noteOwnOf (s : State) (node : Nat) (addrs : List Nat) : State :=
  { s with nodes := s.nodes.map fun n =>
      if n.index == node then { n with own := n.own ++ ((addrs.map (· / 4)).dedup.filter fun w => !n.own.contains w) } else n }

/-- R282: the words of memory that the current group's node has stored, itself or by its commands. -/
def State.noteOwn (s : State) (addrs : List Nat) : State := s.noteOwnOf s.g.id.node addrs

/-! ## Windows (R32 Table 1-11) -/

/-- The windows: 1 core scratchpad, 2 quad memory, 3 die scratchpad (R320). A window's bytes are held by the
workgroup or by a grant. -/
def State.grantIx (s : State) (node : Nat) (die : BitVec 2) (quad : Option Nat) : Option Grant :=
  s.grants.find? fun g => g.node == node && g.die == die && g.quad == quad

/-- The quad of a core (R4). -/
def quadOf (core : Nat) : Nat := core / 4

/-- The grant that window `win` reaches from a core: quad memory of its quad, or die scratchpad of its die. -/
def State.winGrant (s : State) (win node : Nat) (die : BitVec 2) (core : Nat) : Option Grant :=
  if win = 2 then s.grantIx node die (some (quadOf core)) else s.grantIx node die none

/-- The limit of a window for the current group (Table 1-11); no grant has limit zero (R65). -/
def State.winLimit (s : State) (win : Nat) : Nat :=
  if win = 1 then s.w.scrSize
  else match s.winGrant win s.g.id.node s.g.die s.g.core with
    | some g => g.size
    | none => 0

/-- What a watch or a barrier names beside an offset, so that two names are equal exactly when they are one
home: the workgroup for core scratchpad, the node with its quad or die for the others. -/
def homeOf (win : Nat) (g : GroupId) (die : BitVec 2) (core : Nat) : Nat :=
  if win = 1 then g.node * 2 ^ 32 + g.w
  else if win = 2 then g.node * 2 ^ 32 + die.toNat * 64 + quadOf core
  else if win = 3 then g.node * 2 ^ 32 + die.toNat
  else 0

/-- The home of a window of the current group. -/
def State.home (s : State) (win : Nat) : Nat := homeOf win s.g.id s.g.die s.g.core

/-- The bytes of a window of the current group. -/
def State.winMem (s : State) (win : Nat) : SMap 8 :=
  if win = 1 then s.w.scr
  else match s.winGrant win s.g.id.node s.g.die s.g.core with
    | some g => g.mem
    | none => []

def State.winByte (s : State) (win off : Nat) : Byte := (s.winMem win).get off

def State.winNum (s : State) (win off n : Nat) : Nat := natOf ((s.winMem win).range off n)

/-- The window's bytes become `m`. -/
def State.setWinMem (s : State) (win : Nat) (m : SMap 8) : State :=
  if win = 1 then { s with w := { s.w with scr := m } }
  else
    let quad := if win = 2 then some (quadOf s.g.core) else none
    { s with grants := s.grants.map fun g =>
        if g.node == s.g.id.node && g.die == s.g.die && g.quad == quad then { g with mem := m } else g }

/-- The poison mark of a 32-byte sector of a window (R458). -/
def winTarget (win : Nat) (g : GroupId) (die : BitVec 2) (core off : Nat) : PoisonTarget :=
  if win = 1 then .scratch ⟨g.node, g.w⟩ off
  else if win = 2 then .quadMem g.node die (quadOf core) off
  else .dieScratch g.node die off

/-- The same window and the same sector. -/
def sameTarget (a b : PoisonTarget) : Bool :=
  match a, b with
  | .scratch w o, .scratch w' o' => w == w' && sectorOf o == sectorOf o'
  | .dieScratch n d o, .dieScratch n' d' o' => n == n' && d == d' && sectorOf o == sectorOf o'
  | .quadMem n d q o, .quadMem n' d' q' o' => n == n' && d == d' && q == q' && sectorOf o == sectorOf o'
  | a, b => a == b

/-- A byte of a window of the current group carries an uncorrectable soft error (R69) or poison that a copy
carried there (R458). -/
def State.winSoft (s : State) (win off : Nat) : Bool :=
  (s.soft.any fun t => sameTarget t (winTarget win s.g.id s.g.die s.g.core off))
    || s.carried.any fun t => sameTarget t (winTarget win s.g.id s.g.die s.g.core off)

/-- The sub-cause of the ECC trap that reading such a byte raises: 0x04 for a soft error of the window, 0x05 for
carried poison (R206). -/
def State.winSoftSub (s : State) (win off : Nat) : BitVec 8 :=
  if s.carried.any fun t => sameTarget t (winTarget win s.g.id s.g.die s.g.core off) then 5 else 4

/-- A register or accumulator element carries an uncorrectable soft error (R206). -/
def State.isSoft (s : State) (t : PoisonTarget) : Bool := s.soft.contains t

/-- A write of a register or element replaces it, soft error included. -/
def State.unsoft (s : State) (ts : List PoisonTarget) : State :=
  if s.soft.isEmpty then s else { s with soft := s.soft.filter fun t => !ts.contains t }

/-- Bytes are written through a window of the current group: watches on the lines are marked and fully
written sectors lose their soft errors. R69 speaks of a byte: the model's soft error of a window covers the 32-byte sector, and a
store of the whole sector clears it (DESIGN CHOICE, log entry 75). -/
def State.winStore (s : State) (win : Nat) (ws : List (Nat × Byte)) : State :=
  let offs := ws.map Prod.fst
  let s := s.setWinMem win (ws.foldl (fun m p => m.set p.1 p.2) (s.winMem win))
  let s := s.touch win (s.home win) offs
  if s.soft.isEmpty && s.carried.isEmpty then s
  else
    let full := (offs.map sectorOf).dedup.filter fun o => (List.range 32).all fun i => offs.contains (o + i)
    let keep (t : PoisonTarget) : Bool := !(full.any fun o => sameTarget t (winTarget win s.g.id s.g.die s.g.core o))
    { s with soft := s.soft.filter keep, carried := s.carried.filter keep }

/-- Poison is carried into sectors of a window of the current group (R458). -/
def State.winPoison (s : State) (win : Nat) (offs : List Nat) : State :=
  let fresh := (offs.map sectorOf).dedup.filter fun o => !s.winSoft win o
  { s with carried := s.carried ++ fresh.map fun o => winTarget win s.g.id s.g.die s.g.core o }

end Sys2Proof.Machine
end

