-- ==== Sys2Proof/Machine/Tiers.lean ====
section
/-! DEFINITION. Memory tiers (spec/02): congruence groups, the lichen table and its cache, counting accesses,
swap triggers and swaps, line codes and their stored forms, L2 and the size predictor; and the stores that reach memory
through them: the device's own by physical address, and undrained stores as they drain (R104). -/

namespace Sys2Proof.Machine

/-! ## Congruence groups and lichen entries (R35 to R39) -/

/-- 384 GiB: the size of the HBM4E of an A-die, and of one member of every group (R35). -/
def memberSpan : Nat := 0x6000000000

/-- The congruence group and the member of an address of an A-die window (R35). -/
def groupOf (pa : Nat) : Nat := winOff pa % memberSpan / 2 ^ 15
def memberOf (pa : Nat) : Nat := winOff pa / memberSpan

/-- A group whose FAST stays 3 (R37). -/
def isLocked (group : Nat) : Bool := decide (firstLocked ≤ group)

/-- The groups of an A-die (R35). -/
def groupCount : Nat := 0xC00000

/-- The physical address of a group's lichen entry (R38). -/
def lichenPa (die group : Nat) : Nat := die * 2 ^ 41 + lichenBase + 2 * group

/-- A lichen-table entry (Table 2-2). -/
structure Lichen where
  fpin : Bool
  cnt : List Nat
  fast : Nat
  deriving DecidableEq, Repr

def Lichen.ofNat (v : Nat) : Lichen :=
  { fpin := bitOf v 14, cnt := [bitsOf v 2 4, bitsOf v 6 4, bitsOf v 10 4], fast := v % 4 }

def Lichen.toNat (e : Lichen) : Nat :=
  e.fast + e.cnt.getD 0 0 * 4 + e.cnt.getD 1 0 * 64 + e.cnt.getD 2 0 * 1024 + e.fpin.toNat * 2 ^ 14

def State.lichen (s : State) (die group : Nat) : Lichen := Lichen.ofNat (s.num (lichenPa die group) 2)

/-- The device writes an entry (R39); carve-outs refuse every other writer (R37). -/
def State.setLichen (s : State) (die group : Nat) (e : Lichen) : State :=
  s.setBytes (cellsAt (lichenPa die group) (bytesOf 2 e.toNat))

/-- The counter that serves a capacity member: the three counters serve the capacity members in ascending member
number (R38). -/
def counterOf (fast member : Nat) : Nat := if member < fast then member else member - 1

/-! ## Counting and swaps (R41 to R47) -/

def swapDelta (d : Die) : Nat := bitsOf d.lichCtl.toNat 4 4
def lichEn (d : Die) : Bool := d.lichCtl.getLsbD 0

/-- R42 Table 2-3: the entry after a counting access to a member through a leaf with PIN and TIER. -/
def Lichen.count (e : Lichen) (delta member : Nat) (pin : Bool) (tier : Nat) : Lichen :=
  if member = e.fast then
    if pin then { e with fpin := true }
    else if tier < 2 then { e with fpin := false, cnt := e.cnt.map (· - 1) }
    else { e with fpin := false }
  else if pin then e
  else
    let j := counterOf e.fast member
    if tier = 0 then { e with cnt := e.cnt.modify j fun c => min (c + 1) 15 }
    else if tier = 1 then { e with cnt := e.cnt.modify j fun c => min (max (c + 1) delta) 15 }
    else e

/-- R43: the conditions of a swap trigger on the entry's contents. -/
def Lichen.qualifies (e : Lichen) (d : Die) (member : Nat) : Bool :=
  member != e.fast && decide (swapDelta d ≤ e.cnt.getD (counterOf e.fast member) 0) && lichEn d && !e.fpin

/-- A counter field of LICHSTAT rises by one at its own width (R47). -/
def bumpField (v : Word64) (lo w : Nat) : Word64 :=
  let n := v.toNat
  BitVec.ofNat 64 (n - bitsOf n lo w * 2 ^ lo + place (bitsOf n lo w + 1) lo w)

/-- R44: a swap of a group in progress holds a member: it is one of the two that change places. -/
def State.swapHolds (s : State) (die : BitVec 2) (group m : Nat) : Bool :=
  (s.die die).swaps.any fun q => q.1 == group && (q.2 == m || (s.lichen die.toNat group).fast == m)

/-- R41 to R43, R45: a counting access to member `m` of an unlocked group, and the trigger it may raise. One that a swap in
progress holds counts when the swap has written the entry (R44). -/
def State.countingAccess (s : State) (die : BitVec 2) (group m : Nat) (pin : Bool) (tier : Nat) : State :=
  if 2 ≤ die.toNat || isLocked group || decide (groupCount ≤ group) then s
  else if s.swapHolds die group m then
    s.setDie die { s.die die with heldCounts := (s.die die).heldCounts ++ [(group, m, pin, tier)] }
  else
    let d := s.die die
    let e := (s.lichen die.toNat group).count (swapDelta d) m pin tier
    let s := s.setLichen die.toNat group e
    let pending := d.swapQueue.any (fun q => q.1 == group) || d.swaps.any fun q => q.1 == group
    if !pin && decide (tier < 2) && e.qualifies d m && !pending then
      if d.swapQueue.length < 64 then s.setDie die { d with swapQueue := d.swapQueue ++ [(group, m)] }
      else s.setDie die { d with lichStat := bumpField d.lichStat 16 16 }
    else s

/-- R40, R47: a request looks up the lichen cache: a block of 32 groups becomes the most recently used; on a miss the least
recently used of 16384 blocks (1 MiB) is evicted, and every 1024th miss raises LMISS. -/
def State.lichenLookup (s : State) (die : BitVec 2) (block : Nat) : State :=
  if 2 ≤ die.toNat then s
  else
    let d := s.die die
    if d.lichCache.contains block then s.setDie die { d with lichCache := block :: d.lichCache.filter fun b => b != block }
    else
      let d := { d with lichCache := (block :: d.lichCache).take 16384 }
      if d.missCount + 1 = 1024 then s.setDie die { d with missCount := 0, lichStat := bumpField d.lichStat 0 16 }
      else s.setDie die { d with missCount := d.missCount + 1 }

/-- R44: requests to an address are held: a swap of its group is in progress, and it lies in one of the two members that
change places. -/
def State.isHeld (s : State) (x : Nat) : Bool :=
  isOwn x && isLocal x && decide (dieOf x < 2) && s.swapHolds (BitVec.ofNat 2 (dieOf x)) (groupOf x) (memberOf x)

/-- R45: the queued swap at the head is tested again, and starts if it still qualifies; up to 16 run at once. -/
def State.startSwap (s : State) (die : BitVec 2) : State :=
  let d := s.die die
  match d.swapQueue with
  | [] => s
  | (group, m) :: rest =>
    if 16 ≤ d.swaps.length then s
    else if (s.lichen die.toNat group).qualifies d m then
      s.setDie die { d with swapQueue := rest, swaps := d.swaps ++ [(group, m)] }
    else s.setDie die { d with swapQueue := rest }

/-- R44: the swap of a group ends: FAST is the member, counters and FPIN are clear, SWAPS rises. Every byte keeps
its physical address (R36). The accesses that it held then count, in their order. -/
def State.endSwap (s : State) (die : BitVec 2) (group : Nat) : State :=
  let d := s.die die
  match d.swaps.find? fun q => q.1 == group with
  | none => s
  | some (_, m) =>
    let s := (s.setLichen die.toNat group { fpin := false, cnt := [0, 0, 0], fast := m }).setDie die
      { d with
        swaps := d.swaps.filter fun q => q.1 != group
        heldCounts := d.heldCounts.filter fun c => c.1 != group
        lichStat := bumpField d.lichStat 32 32 }
    (d.heldCounts.filter fun c => c.1 == group).foldl (fun s c => s.countingAccess die c.1 c.2.1 c.2.2.1 c.2.2.2) s

/-! ## Compression (R49 to R55) -/

/-- Words, BF16 values and FP32 values of a line (R51). -/
def lineWords (bs : List Byte) : List Nat := (chunks32 32 bs).map natOf
where
  chunks32 : Nat → List Byte → List (List Byte)
    | 0, _ => []
    | k + 1, xs => xs.take 4 :: chunks32 k (xs.drop 4)

/-- Every delta of a word to the first, read as signed, fits in `w` bits (R51). -/
def deltasFit (w : Nat) (ws : List Nat) : Bool :=
  let w0 := ws.headD 0
  ws.all fun x =>
    let d := signedOf 32 (x + 2 ^ 32 - w0)
    decide (-(2 ^ (w - 1) : Int) ≤ d) && decide (d < (2 ^ (w - 1) : Int))

/-- Every exponent field is the largest, one or two below it, or zero (R51). -/
def expsFit (es : List Nat) : Bool :=
  let m := es.foldl max 0
  es.all fun e => e == m || e + 1 == m || e + 2 == m || e == 0

/-- R51 Table 2-7: the codes that apply to a line, with their sectors. -/
def lineCodes (bs : List Byte) : List (Nat × Nat) :=
  let ws := lineWords bs
  let halves := ws.flatMap fun x => [x % 65536, x / 65536]
  [(0, 4)] ++ (if ws.all (· == 0) then [(1, 0)] else []) ++ (if deltasFit 4 ws then [(2, 1)] else [])
    ++ (if deltasFit 8 ws then [(3, 2)] else []) ++ (if deltasFit 16 ws then [(4, 3)] else [])
    ++ (if expsFit (halves.map fun x => bitsOf x 7 8) then [(5, 3)] else [])
    ++ (if ws.all (fun x => x % 256 == 0) && expsFit (ws.map fun x => bitsOf x 23 8) then [(6, 3)] else [])

/-- R52: the applicable code with the fewest sectors, and among those the lowest. -/
def bestCode (bs : List Byte) : Nat :=
  ((lineCodes bs).foldl (fun b c => if c.2 < b.2 then c else b) (0, 4)).1

/-- The sectors of a code (Table 2-7). -/
def codeSectors (code : Nat) : Nat :=
  match code with
  | 1 => 0
  | 2 => 1
  | 3 => 2
  | 4 => 3
  | 5 => 3
  | 6 => 3
  | _ => 4

/-- The address of the metadata byte of a line, and whether its code is the upper half (R53). -/
def metaPa (pa : Nat) : Nat × Bool :=
  let k := pa / 128 % 256
  (metaLine pa + k / 2, k % 2 == 1)

def State.metaCode (s : State) (pa : Nat) : Nat :=
  let (x, hi) := metaPa pa
  if hi then (s.byte x).toNat / 16 else (s.byte x).toNat % 16

def State.setMetaCode (s : State) (pa code : Nat) : State :=
  let (x, hi) := metaPa pa
  let v := (s.byte x).toNat
  s.setByte x (BitVec.ofNat 8 (if hi then v % 16 + code * 16 else v / 16 * 16 + code))

/-! ### The stored form of a line (R51) -/

/-- Fields of `w` bits packed from bit `lo` of a number upwards. -/
def packFields (w lo : Nat) (xs : List Nat) : Nat :=
  match xs with
  | [] => 0
  | x :: rest => place x lo w + packFields w (lo + w) rest

/-- The two-bit code of an exponent field under the largest one (R51). -/
def expCode (m e : Nat) : Nat := if e = 0 then 3 else m - e

/-- The exponent field that a two-bit code names. -/
def expOf (m c : Nat) : Nat := if c = 3 then 0 else m - c

/-- The BF16 values of a line, the low half of each word first. -/
def lineHalves (ws : List Nat) : List Nat := ws.flatMap fun x => [x % 65536, x / 65536]

/-- The sectors that hold a line in a code, as one number (Table 2-7). -/
def encodeLine (code : Nat) (bs : List Byte) : Nat :=
  let ws := lineWords bs
  let w0 := ws.headD 0
  let deltas (w : Nat) : Nat := place w0 0 32 + packFields w 32 ((ws.drop 1).map fun x => (x + 2 ^ 32 - w0) % 2 ^ w)
  match code with
  | 1 => 0
  | 2 => deltas 4
  | 3 => deltas 8
  | 4 => deltas 16
  | 5 =>
    let hs := lineHalves ws
    let m := (hs.map fun x => bitsOf x 7 8).foldl max 0
    m + packFields 10 8 (hs.map fun x => place (bitsOf x 15 1) 9 1 + place (expCode m (bitsOf x 7 8)) 7 2 + bitsOf x 0 7)
  | 6 =>
    let m := (ws.map fun x => bitsOf x 23 8).foldl max 0
    m + packFields 18 8 (ws.map fun x => place (bitsOf x 31 1) 17 1 + place (expCode m (bitsOf x 23 8)) 15 2 + bitsOf x 8 15)
  | _ => natOf bs

/-- The stored bytes: as many sectors as the code takes, zero after the last field. -/
def storedForm (code : Nat) (bs : List Byte) : List Byte := bytesOf (32 * codeSectors code) (encodeLine code bs)

/-- The 128 bytes that a stored form expands to (R50, R51). -/
def expandLine (code : Nat) (stored : List Byte) : List Byte :=
  let v := natOf stored
  let w0 := bitsOf v 0 32
  let m := bitsOf v 0 8
  let deltas (w : Nat) : List Nat :=
    w0 :: (List.range 31).map fun i => ((w0 : Int) + signedOf w (bitsOf v (32 + w * i) w)) % 2 ^ 32 |>.toNat
  match code with
  | 1 => List.replicate 128 0
  | 2 => (deltas 4).flatMap (bytesOf 4)
  | 3 => (deltas 8).flatMap (bytesOf 4)
  | 4 => (deltas 16).flatMap (bytesOf 4)
  | 5 => (List.range 64).flatMap fun i =>
      let f := bitsOf v (8 + 10 * i) 10
      bytesOf 2 (bitsOf f 9 1 * 2 ^ 15 + expOf m (bitsOf f 7 2) * 2 ^ 7 + bitsOf f 0 7)
  | 6 => (List.range 32).flatMap fun i =>
      let f := bitsOf v (8 + 18 * i) 18
      bytesOf 4 (bitsOf f 17 1 * 2 ^ 31 + expOf m (bitsOf f 15 2) * 2 ^ 23 + bitsOf f 0 15 * 2 ^ 8)
  | _ => stored

/-! ### Write-back, L2 and the size predictor (R49, R50, R52, R54, R55) -/

/-- R40: a request to a line of this package's memory looks up its group. -/
def State.lookupLine (s : State) (pa : Nat) : State :=
  if isOwn pa && isLocal pa && decide (dieOf pa < 2) then s.lichenLookup (BitVec.ofNat 2 (dieOf pa)) (groupOf pa / 32) else s

/-- A line is resident in L2. -/
def Die.holdsLine (d : Die) (line : Nat) : Bool := d.l2.any fun t => t.tag == line / 512 && t.lines.any fun l => l.1 == line

/-- The L2 of a line's die holds it. -/
def State.holdsLine (s : State) (line : Nat) : Bool := (s.die (BitVec.ofNat 2 (dieOf line))).holdsLine line

/-- R40, R49, R52, R53, R458: a dirty line is written back; its metadata code is the best if it was last written through a leaf
with CMP = 1, RAW otherwise or where the line is poisoned. The line's request, and the metadata's where L2 does not hold that
line, look up the lichen cache. -/
def State.writeBack (s : State) (pa : Nat) : State :=
  let line := pa / 128 * 128
  if !isOwn line || !isLocal line || inCarve line then s
  else
    let s := s.lookupLine line
    let s := if s.holdsLine (metaLine line) then s else s.lookupLine (metaLine line)
    ({ s with dirty := s.dirty.filter (fun x => x != line), cmpLines := s.cmpLines.filter fun x => x != line } : State).setMetaCode line
    (if s.cmpLines.contains line && !s.rangePoisoned line 128 then bestCode (s.bytes line 128) else 0)

/-- The capacity of a die's L2 in 32-byte sectors: 96 MiB on an A-die, 64 MiB on an F-die (spec/00 Table 0-1). -/
def l2Sectors (die : Nat) : Nat := if die < 2 then 0x300000 else 0x200000

/-- The sectors that the lines of a superblock occupy. -/
def L2Tag.size (t : L2Tag) : Nat := (t.lines.map Prod.snd).sum

/-- The superblocks that fit, the most recently used kept, and those that leave. -/
def l2Fit (room : Nat) (ts : List L2Tag) : List L2Tag × List L2Tag :=
  match ts with
  | [] => ([], [])
  | t :: rest => if t.size ≤ room then ((t :: (l2Fit (room - t.size) rest).1), (l2Fit (room - t.size) rest).2) else ([], t :: rest)

/-- A line takes its place under the tag of its superblock, occupying `n` sectors; `low` puts the tag at the lowest retention
(Table 1-10). -/
def placeLine (ts : List L2Tag) (line n : Nat) (low : Bool) : List L2Tag :=
  let old := ((ts.find? fun t => t.tag == line / 512).map L2Tag.lines).getD []
  let t : L2Tag := ⟨line / 512, (line, n) :: old.filter fun l => l.1 != line⟩
  let rest := ts.filter fun t => t.tag != line / 512
  if low then rest ++ [t] else t :: rest

/-- R50: a line fills L2; the superblocks that no longer fit leave it, their dirty lines written back (DESIGN CHOICE, log
entry 12). -/
def State.fillLine (s : State) (die : BitVec 2) (line n : Nat) (low : Bool) : State :=
  let (kept, out) := l2Fit (l2Sectors die.toNat) (placeLine (s.die die).l2 line n low)
  let s := s.setDie die { s.die die with l2 := kept }
  (out.flatMap fun t => t.lines.map Prod.fst).foldl (fun s l => if s.dirty.contains l then s.writeBack l else s) s

/-- R329: the copies of a line in L2 are discarded. -/
def State.dropLine (s : State) (pa : Nat) : State :=
  if !isOwn pa || !isLocal pa then s
  else
    let die := BitVec.ofNat 2 (dieOf pa)
    s.setDie die { s.die die with l2 := (s.die die).l2.map fun t => { t with lines := t.lines.filter fun l => l.1 != pa / 128 * 128 } }

/-- R50: the sectors that a line with a metadata code occupies in L2. -/
def residentSectors (code : Nat) : Nat := max 1 (codeSectors code)

/-- R49, R53 to R55: a read of a line from memory consults its metadata line. Where that line is not in L2 either, METAMISS
rises, the predictor learns the line's sectors, PREDMISS rises if it had predicted fewer, and L2 takes the metadata line. -/
def State.consultMeta (s : State) (pa : Nat) : State :=
  if !isOwn pa || !isLocal pa || inCarve pa then s
  else
    let die := BitVec.ofNat 2 (dieOf pa)
    let d := s.die die
    if d.holdsLine (metaLine pa) then s.fillLine die (metaLine pa) 4 false
    else
      let ix := winOff pa / 2 ^ 15 % 65536
      let actual := residentSectors (s.metaCode pa)
      let predicted := 3 - (d.predictor.get ix).toNat + 1
      let stat := bumpField d.cmpStat 0 32
      ((s.setDie die { d with
        predictor := d.predictor.set ix (BitVec.ofNat 2 (4 - actual))
        cmpStat := if predicted < actual then bumpField stat 32 32 else stat }).lookupLine (metaLine pa)).fillLine die (metaLine pa) 4 false

/-- How a line request of a device issuer reaches L2: through a leaf, as a write or a read, and whether a write that misses
allocates the line (an engine's does not, R41; DESIGN CHOICE, log entry 12). -/
structure LineReq where
  leaf : Word64
  write : Bool
  alloc : Bool := true
  deriving DecidableEq, Repr

/-- R40, R41, R49, R50, R54: a line request of a device issuer. Every request to A-die memory looks up the lichen cache where
it reaches memory: it misses L2 or bypasses it (CP = 0x3, or an engine write that allocates no line). One that does is a
counting access (R41), and a read consults the line's metadata. -/
def State.lineRequest (s : State) (r : LineReq) (pa : Nat) : State :=
  if !isOwn pa || !isLocal pa then s
  else
    let line := pa / 128 * 128
    let die := BitVec.ofNat 2 (dieOf pa)
    let s := if r.write then
        { s with cmpLines := (if pteCmp r.leaf then [line] else []) ++ s.cmpLines.filter fun l => l != line }
      else s
    let sectors (s : State) : Nat := if r.write || s.dirty.contains line then 4 else residentSectors (s.metaCode line)
    if pteCp r.leaf != 3 && (s.die die).holdsLine line then s.fillLine die line (sectors s) (pteCp r.leaf == 1)
    else
      let fills := pteCp r.leaf != 3 && (!r.write || r.alloc)
      let s := if dieOf pa < 2 then (s.lichenLookup die (groupOf pa / 32)).countingAccess die (groupOf pa) (memberOf pa) (ptePin r.leaf) (pteTier r.leaf) else s
      let s := if !r.write || fills then s.consultMeta line else s
      if fills then s.fillLine die line (sectors s) (pteCp r.leaf == 1) else s

/-- R37, R40, R41: a request that carries no attributes of a leaf (a walk, the device's own by physical address, the host, another
package) looks up the lichen cache and consults the metadata, and is no counting access. -/
def State.plainRequest (s : State) (pa : Nat) : State :=
  if !isOwn pa || !isLocal pa then s
  else
    let line := pa / 128 * 128
    let die := BitVec.ofNat 2 (dieOf pa)
    if (s.die die).holdsLine line then s
    else
      let s := if dieOf pa < 2 then s.lichenLookup die (groupOf pa / 32) else s
      (s.consultMeta line).fillLine die line (residentSectors (s.metaCode line)) false

/-- The lines of a list of addresses are requested without a leaf. -/
def State.plainLines (s : State) (addrs : List Nat) : State := ((addrs.map fun x => x / 128 * 128).dedup).foldl State.plainRequest s

/-- R39, R41, R49: bytes that the device stores by physical address, through no leaf: their lines are requested, and none of them
is a line of a CMP = 1 page (DESIGN CHOICE, log entry 12). -/
def State.plainStore (s : State) (ws : List (Nat × Byte)) : State :=
  let lines := ws.map fun p => p.1 / 128 * 128
  let s := s.plainLines (ws.map Prod.fst)
  ({ s with cmpLines := s.cmpLines.filter fun l => !lines.contains l } : State).devStore ws

/-- The number `v` in `n` little-endian bytes is stored at `x`, by the device. -/
def State.storeNum (s : State) (x n v : Nat) : State := s.plainStore (cellsAt x (bytesOf n v))

/-- The number in `n` bytes at `x`, which the device reads by physical address (R40, R49), and whether it meets poison (R459). -/
def State.readNum (s : State) (x n : Nat) : State × Nat × Bool :=
  let s := s.plainLines [x, x + n - 1]
  (s, s.num x n, s.rangePoisoned x n)

/-! ## Draining (R104) -/

/-- An undrained store is performed: its lines are requested through their leaves and its bytes stored. Its marks go as it is performed
(Table 11-3). -/
def State.drainStore (s : State) (us : List UoByte) (marks : List Nat) : State :=
  let pas := us.map (·.pa)
  let s := ((us.map fun u => (u.pa / 128 * 128, u.leaf)).dedup).foldl (fun s l => s.lineRequest { leaf := l.2, write := true } l.1) s
  let s := ((s.devStore (us.map fun u => (u.pa, u.val))).noteOwn pas).awaitAcks pas marks
  if (pkgsOf pas).isEmpty then { s with g := s.g.unmarkAll marks } else s

/-- Drain the current group's undrained stores, oldest first (R104). -/
def State.drain (s : State) : State :=
  let g := s.g
  ((g.uo.map (·.num)).dedup).foldl
    (fun s n => s.drainStore (g.uo.filter fun u => u.num == n) ((g.uoMarks.filter fun m => m.1 == n).map Prod.snd))
    ({ s with g := { g with uo := [], uoMarks := [] } } : State)

/-- Drain if an undrained store overlaps one of the bytes: coherence of one issuer (R94). -/
def State.drainFor (s : State) (xs : List Nat) : State :=
  if s.g.uo.any (fun u => xs.contains u.pa) then s.drain else s

end Sys2Proof.Machine
end

