-- ==== Sys2Proof/Machine/Translate.lean ====
section
/-! DEFINITION. Translation (spec/01 R12 to R17, R26 to R31; spec/05 R118 to R121; peer sets, spec/02 R56 to
R58): walks of the page tables, the translation and walk caches, accessed and dirty bits. -/

namespace Sys2Proof.Machine

/-! Cause codes (R262 Table 10-4). -/

def cILLOP : BitVec 8 := 0x01
def cILLCL : BitVec 8 := 0x02
def cPRIV : BitVec 8 := 0x03
def cTFAULT : BitVec 8 := 0x04
def cPROT : BitVec 8 := 0x05
def cCOW : BitVec 8 := 0x06
def cOOB : BitVec 8 := 0x07
def cALIGN : BitVec 8 := 0x08
def cNANTRAP : BitVec 8 := 0x09
def cPREEMPT : BitVec 8 := 0x0A
def cCOPYRIGHTS : BitVec 8 := 0x0B
def cBARSTALE : BitVec 8 := 0x0C
def cHANG : BitVec 8 := 0x0D
def cECC : BitVec 8 := 0x0E
def cTRAP : BitVec 8 := 0x0F
def cFORKDEPTH : BitVec 8 := 0x10
def cPEERLOST : BitVec 8 := 0x11

/-- A fault of one access before its lanes and address are known. -/
structure Flt where
  cause : BitVec 8
  sub : BitVec 8
  level : BitVec 4 := 0xF
  deriving DecidableEq, Repr

/-- The sub-causes of TFAULT and PROT (R34 Table 1-9). -/
def tfault (sub : BitVec 8) (level : Nat) : Flt := { cause := cTFAULT, sub := sub, level := BitVec.ofNat 4 level }
def protWrite : Flt := { cause := cPROT, sub := 1 }
def protExec : Flt := { cause := cPROT, sub := 2 }
def protBrec : Flt := { cause := cPROT, sub := 3 }
def protWindow : Flt := { cause := cPROT, sub := 4 }
def protKvarea : Flt := { cause := cPROT, sub := 5 }
/-- R44: the request is held by a tier swap in progress. It is no fault: no cause code is 0, and what meets it waits and
issues again. -/
def heldFlt : Flt := { cause := 0, sub := 0 }
def Flt.isHold (f : Flt) : Bool := f.cause == 0

/-- ECC 0x05: poison (R206, R459). -/
def eccPoison : Flt := { cause := cECC, sub := 5 }

/-- Virtual addresses lie in [0, 2^56) (R12). -/
def vaSize : Nat := 2 ^ 56

/-! ## Page tables (R26) -/

/-- The lowest VA bit a level indexes (R26 Table 1-7), which is also its leaf's page shift. -/
def levelShift (level : Nat) : Nat := 15 + 12 * level

/-- The index a level takes from a VA (Table 1-7). -/
def levelIndex (level va : Nat) : Nat := va / 2 ^ levelShift level % (if level = 3 then 32 else 4096)

/-! ## The caches (R118) -/

def State.core? (s : State) (die : BitVec 2) (num : Nat) : Option Core := s.cores.find? fun c => c.die == die && c.num == num

/-- A core's registers and caches; a core that nothing has touched is at reset. -/
def State.core (s : State) (die : BitVec 2) (num : Nat) : Core :=
  (s.core? die num).getD { die := die, num := num, eccLog := 0, tlb := [] }

def State.setCore (s : State) (c : Core) : State :=
  { s with cores := c :: s.cores.filter fun x => !(x.die == c.die && x.num == c.num) }

/-- Which translation cache an access uses: a core's, or for the selector and the demotion engine its die's
(R118). -/
structure Where where
  die : BitVec 2
  core : Option Nat
  deriving DecidableEq, Repr

def State.tlb (s : State) (a : Where) : List TlbEntry :=
  match a.core with
  | some c => (s.core a.die c).tlb
  | none => (s.die a.die).tlb

/-- The cache holds 512 entries on a core and 64 on a die; the oldest is dropped (DESIGN CHOICE, log entry 5). -/
def State.setTlb (s : State) (a : Where) (t : List TlbEntry) : State :=
  match a.core with
  | some c => s.setCore { s.core a.die c with tlb := t.take 512 }
  | none => s.setDie a.die { s.die a.die with tlb := t.take 64 }

def State.fillTlb (s : State) (a : Where) (e : TlbEntry) : State := s.setTlb a (e :: s.tlb a)

/-- A cached leaf covers a VA for an ASID (R118, R27). -/
def leafMatch (asid : BitVec 12) (va : Nat) (e : TlbEntry) : Bool :=
  match e with
  | .leaf a g level base _ _ => (g || a == asid) && va / 2 ^ levelShift level * 2 ^ levelShift level == base
  | _ => false

/-- A leaf in use: the entry, its level and where it was read. -/
structure Leaf where
  entry : Word64
  level : Nat
  pa : Nat
  deriving DecidableEq, Repr

def State.cachedLeaf (s : State) (a : Where) (asid : BitVec 12) (va : Nat) : Option Leaf :=
  (s.tlb a).findSome? fun e =>
    match e with
    | .leaf x g level base entry pa => if leafMatch asid va (.leaf x g level base entry pa) then some ⟨entry, level, pa⟩ else none
    | _ => none

/-- Discard the cached leaves that cover a VA for an ASID (R121). -/
def State.dropLeaf (s : State) (a : Where) (asid : BitVec 12) (va : Nat) : State :=
  s.setTlb a ((s.tlb a).filter fun e => !leafMatch asid va e)

/-! ## Walks -/

/-- R14, R15, R17: the ASID-table entry of an ASID, from the cache or from memory. With `hold`, here and below, a read that a tier
swap holds (R44) makes the walk wait. -/
def State.asidEntry (s : State) (a : Where) (asid : BitVec 12) (hold : Bool := false) : State × Except Flt (BitVec 128) :=
  let cached := (s.tlb a).findSome? fun e =>
    match e with | .asidEntry x v => if x = asid then some v else none | _ => none
  match cached with
  | some v => (s, .ok v)
  | none =>
    let base := bitsOf s.regs.asidbase.toNat 16 36 * 2 ^ 16
    if !isLocal base then (s, .error (tfault 6 3))
    else
      let pa := base + 16 * asid.toNat
      let wait := hold && s.isHeld pa
      let s := if wait then s else s.plainRequest pa
      if wait then (s, .error heldFlt)
      else if s.rangePoisoned pa 16 then (s, .error { eccPoison with level := 3 })
      else
        let v := s.num pa 16
        let root := bitsOf v 8 44 * 2 ^ 8
        let peer := bitsOf v 76 40 * 2 ^ 12
        if !bitOf v 0 || bitsOf v 1 7 != 0 || bitsOf v 52 24 != 0 || bitsOf v 116 12 != 0 || !isLocal root || !isLocal peer then
          (s, .error (tfault 7 3))
        else
          let e := BitVec.ofNat 128 v
          (s.fillTlb a (.asidEntry asid e), .ok e)

/-- R30: what is wrong with an entry of a level, if anything; the first row that applies. -/
def entryFault (level va : Nat) (e : Word64) : Option Flt :=
  let n := e.toNat
  if !pteV e then some (tfault (if pteFt e && level == 0 then 2 else 1) level)
  else if (pteL e && level == 3) || (!pteL e && level == 0) then some (tfault 3 level)
  else if !pteL e then
    if bitsOf n 52 12 != 0 || bitsOf n 2 13 != 0 then some (tfault 3 level)
    else if !isLocal (pteFrame e) then some (tfault 6 level)
    else none
  else if bitsOf n 56 7 != 0 || pteOrd e == 3 || decide (4 ≤ pteCp e) then some (tfault 3 level)
  else if level == 1 && bitsOf n 15 12 != 0 then some (tfault 3 level)
  else if level == 2 && bitsOf n 15 24 != 0 then some (tfault 3 level)
  else if ptePeer e && (level != 0 || pteCmp e) then some (tfault 3 level)
  else if ptePeer e && bitsOf n 31 21 != 0 then some (tfault 3 level)
  else if pteCmp e && isHost (pteFrame e) then some (tfault 3 level)
  else if !ptePeer e && isHole (pteFrame e + va % 2 ^ levelShift level) then some (tfault 5 level)
  else none

/-- The walk cache's entry for a table level of an ASID on the way to a VA (R118). -/
def State.walkCached (s : State) (die : BitVec 2) (asid : BitVec 12) (level va : Nat) : Option Word64 :=
  (s.die die).walkCache.findSome? fun e =>
    if e.asid = asid && e.level = level && e.va = va / 2 ^ levelShift level then some e.entry else none

/-- The walk cache holds 256 entries; the oldest is dropped (DESIGN CHOICE, log entry 5). -/
def State.fillWalk (s : State) (die : BitVec 2) (e : WalkEntry) : State :=
  let d := s.die die
  s.setDie die { d with walkCache := (e :: d.walkCache).take 256 }

/-- R26: walk the levels of a list, highest first, from a table's address to the leaf that maps `va`. -/
def State.walkLevels (s : State) (die : BitVec 2) (asid : BitVec 12) (va : Nat) (levels : List Nat) (table : Nat)
    (hold : Bool := false) : State × Except Flt Leaf :=
  match levels with
  | [] => (s, .error (tfault 3 0))
  | level :: rest =>
    let pa := table + 8 * levelIndex level va
    match s.walkCached die asid level va with
    | some e => s.walkLevels die asid va rest (pteFrame e) hold
    | none =>
      let wait := hold && s.isHeld pa
      let s := if wait then s else s.plainRequest pa
      if wait then (s, .error heldFlt)
      else if s.rangePoisoned pa 8 then (s, .error { eccPoison with level := BitVec.ofNat 4 level })
      else
        let e := BitVec.ofNat 64 (s.num pa 8)
        match entryFault level va e with
        | some f => (s, .error f)
        | none =>
          if pteL e then (s, .ok ⟨e, level, pa⟩)
          else (s.fillWalk die ⟨asid, level, va / 2 ^ levelShift level, e⟩).walkLevels die asid va rest (pteFrame e) hold

/-- R31: an atomic OR of `bit` on a leaf in memory; dropped, with `false`, if the entry no longer has V = 1
with the same FRAME and L. -/
def State.orLeaf (s : State) (l : Leaf) (bit : Nat) : State × Bool :=
  let s := s.plainLines [l.pa]
  let cur := BitVec.ofNat 64 (s.num l.pa 8)
  if pteV cur && pteL cur == pteL l.entry && pteFrame cur == pteFrame l.entry then
    (s.plainStore (cellsAt l.pa (bytesOf 8 (cur.toNat ||| 2 ^ bit))), true)
  else (s, false)

/-! ## Peer sets (R56 to R58) -/

/-- A member of a peer set: its package and frame (Table 2-9). -/
structure Member where
  pkg : Nat
  frame : Nat
  deriving DecidableEq, Repr

/-- The present members of the eight words of an entry. -/
def membersOf (ws : List Word64) : List Member :=
  (ws.filter fun w => w.getLsbD 63).map fun w => ⟨bitsOf w.toNat 37 12, bitsOf w.toNat 0 37 * 2 ^ 15⟩

/-- R57: the entry has no member, a reserved field or two equal members. -/
def peerBad (ws : List Word64) : Bool :=
  let ms := membersOf ws
  ms.isEmpty || ws.any (fun w => w.getLsbD 63 && bitsOf w.toNat 49 14 != 0) || ms.dedup.length != ms.length

/-- The peer-set entry a PEER leaf names; `fresh` reads it from memory whatever the cache holds (R121). -/
def State.peerSet (s : State) (a : Where) (asid : BitVec 12) (ix : Nat) (fresh : Bool)
    (hold : Bool := false) : State × Except Flt (List Member) :=
  let cached := if fresh then none else (s.tlb a).findSome? fun e =>
    match e with | .peerSet x i ws => if x = asid && i = ix then some ws else none | _ => none
  match cached with
  | some ws => (s, .ok (membersOf ws))
  | none =>
    match s.asidEntry a asid hold with
    | (s, .error f) => (s, .error f)
    | (s, .ok ae) =>
      let pa := bitsOf ae.toNat 76 40 * 2 ^ 12 + 64 * ix
      let wait := hold && s.isHeld pa
      let s := if wait then s else s.plainRequest pa
      if wait then (s, .error heldFlt)
      else if s.rangePoisoned pa 64 then (s, .error { eccPoison with level := 0 })
      else
        let ws := (List.range 8).map fun k => BitVec.ofNat 64 (s.num (pa + 8 * k) 8)
        if peerBad ws then (s, .error (tfault 3 0))
        else
          let t := (s.tlb a).filter fun e => match e with | .peerSet x i _ => !(x == asid && i == ix) | _ => true
          (s.setTlb a (.peerSet asid ix ws :: t), .ok (membersOf ws))

/-- A fresh walk (R119): the leaf, cached and with A set (R31). The walk that fills an entry for a PEER leaf reads its peer-set
entry (R56), which may be bad (R57). -/
def State.walk (s : State) (a : Where) (asid : BitVec 12) (va : Nat) (hold : Bool := false) : State × Except Flt Leaf :=
  match s.asidEntry a asid hold with
  | (s, .error f) => (s, .error f)
  | (s, .ok ae) =>
    match s.walkLevels a.die asid va [3, 2, 1, 0] (bitsOf ae.toNat 8 44 * 2 ^ 8) hold with
    | (s, .error f) => (s, .error f)
    | (s, .ok l) =>
      let s := if pteA l.entry then s else (s.orLeaf l 9).1
      let e := l.entry ||| (1 <<< 9)
      let page := va / 2 ^ levelShift l.level * 2 ^ levelShift l.level
      let s := s.fillTlb a (.leaf asid (pteG e) l.level page e l.pa)
      if ptePeer e then
        match s.peerSet a asid (ptePeerIx e) true hold with
        | (s, .error f) => (s, .error f)
        | (s, .ok _) => (s, .ok { l with entry := e })
      else (s, .ok { l with entry := e })

/-- This package's number (FREIPSTAT.PKG, R452). -/
def State.pkg (s : State) : Nat := bitsOf s.regs.freipstat.toNat 32 12

/-- A Freip port is up (FREIPSTAT.UP, R452). -/
def State.portUp (s : State) (port : Nat) : Bool := s.regs.freipstat.getLsbD port

/-- The hop count to a package: this package is at hop count 0 (R56), others as the routing table gives; a route through a
port that is down fails (R452). -/
def State.hops (s : State) (pkg : Nat) : Option Nat :=
  if pkg = s.pkg then some 0
  else (s.routes.find? fun r => r.pkg == pkg && match r.port with | some p => s.portUp p | none => true).map Route.hops

/-- The address of an offset in a member's frame. -/
def State.memberPa (s : State) (m : Member) (off : Nat) : Nat :=
  if m.pkg = s.pkg then m.frame + off else paSize * (m.pkg + 1) + m.frame + off

/-- R57: a frame in a hole, a carve-out or the host window is refused on arrival. -/
def Member.refused (m : Member) : Bool := !isLocal m.frame || inCarve m.frame

/-- R58: the reachable members, the fewest hops first and the lower PKG among equals; of two with one PKG, which the spec does
not order, the one that stands first in the entry (DESIGN CHOICE, log entry 75). -/
def State.reachable (s : State) (ms : List Member) : List Member :=
  sortBy (fun x y => decide (x.1 < y.1) || (x.1 == y.1 && decide (x.2.pkg ≤ y.2.pkg)))
    (ms.filterMap fun m => (s.hops m.pkg).map fun h => (h, m)) |>.map Prod.snd

/-! ## Translation of one line request -/

/-- What an access wants of a page (R29). -/
structure Need where
  write : Bool := false
  fetch : Bool := false
  kv : Bool := false
  /-- an atomic that a PCI Express AtomicOp cannot carry (R449) -/
  noOp : Bool := false
  /-- an access of the device itself to a save slot, a stack, a tile array or a successor list, or a prefetch: the step in which it is
  made ends after the hold of a tier swap, so that it is performed, and counts once the swap has written the entry (DESIGN CHOICE,
  log entry 12) -/
  now : Bool := false
  /-- only the copies of this package are meant (R329) -/
  here : Bool := false
  deriving DecidableEq, Repr

/-- R29, R140, R449: what the leaf forbids; KVAREA before WRITE. A key-value access reaches neither a PEER page nor the host
window. -/
def Need.fault (n : Need) (e : Word64) : Option Flt :=
  if n.kv && (!pteKva e || ptePeer e || isHost (pteFrame e)) then some protKvarea
  else if n.write && !pteW e then some protWrite
  else if n.fetch && !pteX e then some protExec
  else if n.noOp && pteCp e == 3 && !ptePeer e && isHost (pteFrame e) then some protWrite
  else none

/-- A translated line request: the leaf and the addresses its byte has, the one a load reads first; `lost` is
the fault of a store that some member does not take (R57, R59). -/
structure Xlat where
  leaf : Leaf
  pas : List Nat
  lost : Option Flt
  deriving DecidableEq, Repr

/-- PEERLOST and its sub-causes (R62 Table 2-10). -/
def peerUnreach : Flt := { cause := cPEERLOST, sub := 1 }
def peerRefused : Flt := { cause := cPEERLOST, sub := 2 }

/-- The addresses of a byte of a PEER page for an access: one member for a load (R58), every member that takes it for a store (R59), this
package's members for a clean (R329). Where one member is unreachable and another refuses, which R62 does not order, the loss is UNREACH
(DESIGN CHOICE, log entry 75). -/
def State.peerAddrs (s : State) (need : Need) (ms : List Member) (off : Nat) : Except Flt (List Nat × Option Flt) :=
  let rs := s.reachable ms
  if need.here then .ok ((ms.filter fun m => m.pkg == s.pkg && !m.refused).map fun m => s.memberPa m off, none)
  else if need.write then
    let ok := rs.filter fun m => !m.refused
    .ok (ok.map fun m => s.memberPa m off,
      if rs.length != ms.length then some peerUnreach else if ok.length != rs.length then some peerRefused else none)
  else match rs with
    | [] => .error peerUnreach
    | m :: _ => if m.refused then .error peerRefused else .ok ([s.memberPa m off], none)

/-- R26, R28, R29: what an access through a leaf reaches, or what the leaf forbids: its peer-set entry first (R57 ranks with
the walk, R25), then its permissions, then its addresses. -/
def State.useLeaf (s : State) (a : Where) (asid : BitVec 12) (need : Need) (l : Leaf) (va : Nat) : State × Except Flt Xlat :=
  let held (s : State) (pas : List Nat) (lost : Option Flt) : State × Except Flt Xlat :=
    if !need.now && pas.any s.isHeld then (s, .error heldFlt) else (s, .ok ⟨l, pas, lost⟩)
  if ptePeer l.entry then
    match s.peerSet a asid (ptePeerIx l.entry) false (!need.now) with
    | (s, .error f) => (s, .error f)
    | (s, .ok ms) =>
      match need.fault l.entry with
      | some f => (s, .error f)
      | none =>
        match s.peerAddrs need ms (va % 2 ^ 15) with
        | .error f => (s, .error f)
        | .ok (pas, lost) => held s pas lost
  else
    let pa := pteFrame l.entry + va % 2 ^ levelShift l.level
    if isHole pa then (s, .error (tfault 5 l.level))
    else match need.fault l.entry with
      | some f => (s, .error f)
      | none => held s [pa] none

/-- Translation of one line request by an ASID (R118 to R121): every fault is raised only from a fresh walk. -/
def State.translate (s : State) (a : Where) (asid : BitVec 12) (need : Need) (va : Nat) : State × Except Flt Xlat :=
  if !s.regs.asidbase.getLsbD 0 then (s, .error (tfault 7 3))
  else if vaSize ≤ va then (s, .error (tfault 4 15))
  else
    let fresh (s : State) : State × Except Flt Xlat :=
      match s.walk a asid va (!need.now) with
      | (s, .error f) => (s, .error f)
      | (s, .ok l) => s.useLeaf a asid need l va
    match s.cachedLeaf a asid va with
    | none => fresh s
    | some l =>
      match s.useLeaf a asid need l va with
      | (s, .ok ⟨l, pas, none⟩) => (s, .ok ⟨l, pas, none⟩)
      | (s, .error f) => if f.isHold then (s, .error f) else fresh (s.dropLeaf a asid va)
      | (s, .ok _) => fresh (s.dropLeaf a asid va)

/-- A leaf takes the place of the cached one that covers an address. -/
def State.refillLeaf (s : State) (a : Where) (asid : BitVec 12) (va : Nat) (l : Leaf) : State :=
  (s.dropLeaf a asid va).fillTlb a
    (.leaf asid (pteG l.entry) l.level (va / 2 ^ levelShift l.level * 2 ^ levelShift l.level) l.entry l.pa)

/-- R31: D is set by the first store or atomic through a cached translation; where the entry in memory has changed, the
cached one is discarded and the address translated again, and the store goes where that leads: the new translation. -/
def State.setDirty (s : State) (a : Where) (asid : BitVec 12) (need : Need) (va : Nat) : State × Except Flt (Option Xlat) :=
  match s.cachedLeaf a asid va with
  | none => (s, .ok none)
  | some l =>
    if pteD l.entry then (s, .ok none)
    else
      let dirty (l : Leaf) : Leaf := { l with entry := l.entry ||| (1 <<< 10) }
      match s.orLeaf l 10 with
      | (s, true) => (s.refillLeaf a asid va (dirty l), .ok none)
      | (s, false) =>
        match (s.dropLeaf a asid va).translate a asid need va with
        | (s, .error f) => (s, .error f)
        | (s, .ok x) =>
          let (s, ok) := s.orLeaf x.leaf 10
          (if ok then s.refillLeaf a asid va (dirty x.leaf) else s, .ok (some x))

/-- Translation for a store that is performed at once: as `translate`, with D set (R31). -/
def State.translateStore (s : State) (a : Where) (asid : BitVec 12) (need : Need) (va : Nat) : State × Except Flt Xlat :=
  match s.translate a asid need va with
  | (s, .error f) => (s, .error f)
  | (s, .ok x) =>
    match s.setDirty a asid need va with
    | (s, .error f) => (s, .error f)
    | (s, .ok y) => (s, .ok (y.getD x))

/-- The line requests of an access reach L2 or memory (R40, R41, R50); a read of the host window is answered (R448). -/
def State.requestLine (s : State) (x : Xlat) (write alloc : Bool) : State :=
  x.pas.foldl (fun s p =>
    let s := if write then s else s.settleHost p
    s.lineRequest { leaf := x.leaf.entry, write := write, alloc := alloc } p) s

end Sys2Proof.Machine
end

