-- ==== Sys2Proof/Machine/Ring.lean ====
section
/-! DEFINITION. Interrupt vectors and machine checks (spec/20 R451, R460) and the fault ring (spec/05 R131 to
R135): records, tickets, publication and the overflow buffers. -/

namespace Sys2Proof.Machine

/-- R451: an event of vector `v`: a message if the vector is not masked, else its pending bit. The mask bit is
bit 0 of the fourth word of the vector's table entry (PRESUMED, log entry 23). -/
def State.raiseVector (s : State) (v : Nat) : State :=
  if s.msixTable.get (16 * v + 12) &&& 1 = 1 then { s with msixPending := s.msixPending ||| (1#4 <<< v) }
  else { s with msixSent := s.msixSent.modify v (· + 1) }

/-- R460: a machine check of a code: V set, CODE the last code, COUNT rising modulo 2^32, vector 2. -/
def State.machineCheck (s : State) (code : Nat) : State :=
  let r := s.regs.mcstat.toNat
  let r' := place (bitsOf r 32 32 + 1) 32 32 + place code 8 8 + 1
  ({ s with regs := { s.regs with mcstat := BitVec.ofNat 64 r' } } : State).raiseVector 2

/-- What a fault-ring record holds beside its ticket (R132 Table 5-8). -/
structure Record where
  reply : Word64 := 0
  pos : Word64
  pc : BitVec 56
  lmask : Word32
  gidx : Nat
  node : Nat
  core : Nat
  die : BitVec 2
  eng : BitVec 4
  kind : BitVec 4
  asid : BitVec 12
  sub : BitVec 8
  cause : BitVec 8
  level : BitVec 4
  va : BitVec 56
  deriving DecidableEq, Repr

/-- The 64 bytes of a record, with SEQ zero (Table 5-8). -/
def Record.bits (r : Record) : BitVec 512 :=
  BitVec.ofNat 512 (r.reply.toNat * 2 ^ 448 + r.pos.toNat * 2 ^ 384 + r.pc.toNat * 2 ^ 320 + r.lmask.toNat * 2 ^ 288
    + place r.gidx 256 32 + place r.node 224 32 + place r.core 184 8 + r.die.toNat * 2 ^ 182
    + lowLane r.lmask * 2 ^ 177 + r.eng.toNat * 2 ^ 173 + r.kind.toNat * 2 ^ 169 + r.asid.toNat * 2 ^ 148
    + r.sub.toNat * 2 ^ 136 + r.cause.toNat * 2 ^ 128 + r.level.toNat * 2 ^ 64 + r.va.toNat)

/-- FRCTL.EN and LOGN (Table 5-7), and the ring header (R131). -/
def State.frEn (s : State) : Bool := s.regs.frctl.getLsbD 8
def State.frLogn (s : State) : Nat := bitsOf s.regs.frctl.toNat 0 5
def State.frBase (s : State) : Nat := bitsOf s.regs.frbase.toNat 6 46 * 64
def State.frHead (s : State) : Nat := s.num s.frBase 8
def State.frTail (s : State) : Nat := s.num (s.frBase + 8) 8

/-- R133: the ring accepts records and has room for one more. -/
def State.frRoom (s : State) : Bool :=
  s.frEn && decide ((s.frTicket - BitVec.ofNat 64 s.frHead).toNat < 2 ^ s.frLogn)

/-- R133, R134: write a record at the next ticket and publish it; vector 0 where TAIL equalled HEAD (R451). -/
def State.frPublish (s : State) (r : BitVec 512) : State :=
  let t := s.frTicket
  let r := r ||| BitVec.ofNat 512 (place t.toNat 192 32)
  let at' := s.frBase + 64 + t.toNat % 2 ^ s.frLogn * 64
  let empty := s.frTail == s.frHead
  let s := (s.storeNum at' 64 r.toNat).storeNum (s.frBase + 8) 8 (t + 1).toNat
  let s := { s with frTicket := t + 1 }
  if empty then s.raiseVector 0 else s

/-- The oldest waiting record and the die that holds it (R135). -/
def State.oldestWaiting (s : State) : Option (BitVec 2 × Nat × BitVec 512) :=
  let all := [0#2, 1#2, 2#2, 3#2].flatMap fun d => ((s.die d).overflow.take 1).map fun r => (d, r.1, r.2)
  all.foldl (fun best r => match best with
    | none => some r
    | some b => if r.2.1 < b.2.1 then some r else some b) none

/-- R135: post the oldest waiting record if the ring has room. -/
def State.postWaiting1 (s : State) : State :=
  match s.oldestWaiting with
  | none => s
  | some (d, _, r) =>
    if s.frRoom then (s.setDie d { s.die d with overflow := (s.die d).overflow.drop 1 }).frPublish r else s

/-- R135: post the waiting records while there is room; the four buffers hold at most 64. -/
def State.postWaiting (s : State) : State := (List.range 64).foldl (fun s _ => s.postWaiting1) s

/-- R135: a record written by the device itself: posted, or kept in its die's overflow buffer, or lost. -/
def State.devicePost (s : State) (r : Record) : State :=
  let s := (if s.frEn then s.plainLines [s.frBase] else s).postWaiting
  if s.oldestWaiting.isNone && s.frRoom then s.frPublish r.bits
  else
    let d := s.die r.die
    if d.overflow.length < 16 then
      { s.setDie r.die { d with overflow := d.overflow ++ [(s.ovfCount, r.bits)] } with ovfCount := s.ovfCount + 1 }
    else
      let v := s.regs.frctl.toNat
      let v' := place (bitsOf v 48 16 + 1) 48 16 + (v % 2 ^ 48 ||| 2 ^ 9)
      { s with regs := { s.regs with frctl := BitVec.ofNat 64 v' } }

/-- R133, R135: FRPOST's post: the ticket it took, or none where the ring is disabled or full once the waiting
records are posted. -/
def State.frPost (s : State) (r : Record) : State × Option Word64 :=
  if !s.frEn then (s, none)
  else
    let s := (s.plainLines [s.frBase]).postWaiting
    if s.oldestWaiting.isNone && s.frRoom then (s.frPublish r.bits, some s.frTicket) else (s, none)

end Sys2Proof.Machine
end

