-- ==== Sys2Proof/Machine/Ops.lean ====
section
/-! DEFINITION. The operations every meaning shares: which group is at issue, reading and writing registers,
retiring, parking and stalling, ending a group, taking a trap (spec/05 R123 to R125, spec/10 R259) and
returning from one (R261). -/

namespace Sys2Proof.Machine

/-! ## Groups and workgroups by their indices -/

/-- The workgroup of a group. -/
def wgOf (i : GroupId) : WgId := ⟨i.node, i.w⟩

def State.group? (s : State) (i : GroupId) : Option Group :=
  if s.live && s.g.id == i then some s.g else s.others.find? fun g => g.id == i

def State.modGroup (s : State) (i : GroupId) (f : Group → Group) : State :=
  if s.live && s.g.id == i then { s with g := f s.g }
  else { s with others := s.others.map fun g => if g.id == i then f g else g }

def State.wg? (s : State) (i : WgId) : Option Workgroup :=
  if s.live && s.w.id == i then some s.w else s.otherWgs.find? fun w => w.id == i

def State.modWg (s : State) (i : WgId) (f : Workgroup → Workgroup) : State :=
  if s.live && s.w.id == i then { s with w := f s.w }
  else { s with otherWgs := s.otherWgs.map fun w => if w.id == i then f w else w }

/-- Every group of the machine, the current one first. -/
def State.groups (s : State) : List Group := if s.live then s.g :: s.others else s.others

def State.wgs (s : State) : List Workgroup := if s.live then s.w :: s.otherWgs else s.otherWgs

def State.mapGroups (s : State) (f : Group → Group) : State :=
  { s with g := if s.live then f s.g else s.g, others := s.others.map f }

def State.node? (s : State) (n : Nat) : Option Node := s.nodes.find? fun x => x.index == n

def State.modNode (s : State) (n : Nat) (f : Node → Node) : State :=
  { s with nodes := s.nodes.map fun x => if x.index == n then f x else x }

/-- Bring workgroup `i` to `w`, the one there taking its place; the state as it is if there is none. -/
def State.focusWg (s : State) (i : WgId) : State :=
  if s.live && s.w.id == i then s
  else match s.otherWgs.find? fun w => w.id == i with
    | none => s
    | some w =>
      { s with
        w := w
        otherWgs := if s.live then s.otherWgs.map fun x => if x.id == i then s.w else x
          else s.otherWgs.filter fun x => !(x.id == i) }

/-- As `focus`, with the group at issue taking the place of group `i`, so that a second exchange restores the order in
which groups were granted (R251). -/
def State.exchange (s : State) (i : GroupId) (slot : Bool) : Option State :=
  if s.live && s.g.id == i then some { s with slot := slot, granted := false }
  else match s.others.find? fun g => g.id == i with
    | none => none
    | some g =>
      let s' := s.focusWg (wgOf i)
      some { s' with
        g := g
        others := if s.live then s.others.map fun x => if x.id == i then s.g else x else s.others.filter fun x => !(x.id == i)
        live := true, slot := slot, granted := false }

/-- Bring group `i` and its workgroup to `g` and `w`, at slot `slot`, with no clause granted; none if there is
no such group. The group that was there comes first of the others. -/
def State.focus (s : State) (i : GroupId) (slot : Bool) : Option State :=
  if s.live && s.g.id == i then some { s with slot := slot, granted := false }
  else match s.others.find? fun g => g.id == i with
    | none => none
    | some g =>
      let rest := s.others.filter fun x => !(x.id == i)
      let s' := s.focusWg (wgOf i)
      some { s' with g := g, others := if s.live then s.g :: rest else rest, live := true, slot := slot, granted := false }

/-! ## The current path -/

def Group.path? (g : Group) (slot : Bool) : Option Path := if slot then g.slot1 else g.slot0

def Group.setPath (g : Group) (slot : Bool) (p : Option Path) : Group :=
  if slot then { g with slot1 := p } else { g with slot0 := p }

/-- Apply `f` with group `i` at issue, and put back the group and the grant that were there; a grant whose path `f` moves ends (R251).
A state without that group is unchanged. -/
def State.withGroup (s : State) (i : GroupId) (slot : Bool) (f : State → State) : State :=
  let old := s.g.id
  let oldSlot := s.slot
  let oldGrant := s.granted
  let same := s.live && s.g.id == i
  match s.exchange i slot with
  | none => s
  | some s1 =>
    let s2 := f s1
    if same then
      let kept := s2.g.path? oldSlot == s.g.path? oldSlot
      let yld := oldGrant && !kept && ((s.g.path? oldSlot).map fun p => ((p.clause.getD []).headD 0).getLsbD 4).getD false
      { s2 with slot := oldSlot, granted := oldGrant && kept, g := { s2.g with yielded := s2.g.yielded || yld } }
    else match s2.exchange old oldSlot with
      | none => s2
      | some s3 => { s3 with granted := oldGrant }

/-- A path that holds no lane; what is read of a slot that is free. -/
def Path.empty : Path := { pc := 0, off := 0, mask := 0, clock := 0, clause := none, wait := none, replay := [] }

/-- The path at issue. -/
def State.path (s : State) : Path := (s.g.path? s.slot).getD Path.empty

def State.setPath (s : State) (p : Path) : State := { s with g := s.g.setPath s.slot (some p) }

/-- GSTAT.SUPV (R209). -/
def Group.supv (g : Group) : Bool := g.gstat.getLsbD 10
def Group.det (g : Group) : Bool := g.gstat.getLsbD 8
def Group.twin (g : Group) : Bool := g.gstat.getLsbD 9

def setBit (v : Word64) (i : Nat) (b : Bool) : Word64 :=
  if b then v ||| (1#64 <<< i) else v &&& ~~~(1#64 <<< i)

def Group.setSupv (g : Group) (b : Bool) : Group := { g with gstat := setBit g.gstat 10 b }

/-- A sticky flag of GSTAT is set (R209). -/
def State.stick (s : State) (i : Nat) : State := { s with g := { s.g with gstat := setBit s.g.gstat i true } }

/-- The words of a clause that follow its header. -/
def bodyLen (header : Word32) : Nat := bitsOf header.toNat 5 5 + 1

/-- A word that may stand as a clause header (R280). -/
def headerOk (w : Word32) : Bool :=
  let n := w.toNat
  let sel (x : Nat) : Bool := !(x == 12 || x == 13 || x == 14)
  bitsOf n 30 2 == 3 && bitsOf n 0 4 == 0 && sel (bitsOf n 14 4) && sel (bitsOf n 10 4)

/-- The header of the path's clause, as fetched. -/
def Path.header (p : Path) : Word32 := ((p.clause.getD []).head?).getD 0

/-- Where the header that follows the path's clause lies (R281): no wrap-around (R12). -/
def Path.nextAt (p : Path) : Nat := p.pc.toNat + 4 * (bodyLen p.header + 1)

/-- The address of the header that follows the path's clause, below 2^56. -/
def Path.nextHeader (p : Path) : BitVec 56 := BitVec.ofNat 56 p.nextAt

/-- The words from the path's next instruction to the end of its clause body, or those of the replay entry it
executes next (R261). -/
def Path.words (p : Path) : List Word32 :=
  match p.replay with
  | r :: _ => r.words
  | [] => ((p.clause.getD []).take (bodyLen p.header + 1)).drop p.off

/-- The address of the path's next instruction. -/
def Path.addr (p : Path) : BitVec 56 := p.pc + BitVec.ofNat 56 (4 * p.off)

/-- R226: the logical clock after an instruction retires; frozen in supervisor mode. -/
def State.tickTo (s : State) (p : Path) (clock : Word64) : Path := if s.g.supv then p else { p with clock := clock }

/-- The path continues at a clause header. -/
def Path.goto (p : Path) (pc : BitVec 56) : Path :=
  { p with pc := pc, off := 0, clause := none, top := false, wait := none, replay := [], stalled := false }

/-- The path continues at the header after its clause; one at 2^56 or above is met by its fetch (R12, R282). -/
def Path.next (p : Path) : Path := { p.goto p.nextHeader with top := decide (2 ^ 56 ≤ p.nextAt) }

/-- The path after an instruction of `n` words: the next replay entry, the next word of the clause, or the next
header (R261, R281). -/
def Path.advance (p : Path) (n : Nat) : Path :=
  match p.replay with
  | _ :: r :: rest =>
    { p with pc := r.pc, off := r.off, clause := if r.pc = p.pc then p.clause else none, replay := r :: rest, wait := none }
  | _ =>
    if p.off + n ≤ bodyLen p.header then { p with off := p.off + n, replay := [], wait := none }
    else p.next

/-- R260, R261: a replay entry executes at the logical clock captured in it. -/
def Path.replayClock (p : Path) : Path :=
  match p.replay with
  | r :: _ => if r.ops.isSome then { p with clock := r.clock } else p
  | [] => p

/-- R251, R279: the grant of the path's clause ends; YLD makes that a YIELD. -/
def State.endGrant (s : State) : State :=
  { s with granted := false, g := { s.g with yielded := s.g.yielded || s.path.header.getLsbD 4 } }

/-- R219, R251: the instruction at issue waits for what Table 8-6 names: an issue stall. -/
def State.stallPath (s : State) : State :=
  ({ s with g := s.g.setPath s.slot ((s.g.path? s.slot).map fun p => { p with stalled := true }) } : State).endGrant

/-- A clause that ends gives up its grant; YLD makes that a YIELD (R251, R279). -/
def State.afterAdvance (s : State) (p p' : Path) : State :=
  let s := { s with g := { s.g with ovr := none } }.setPath { p' with stalled := false }
  if p'.off = 0 || p'.clause.isNone then
    { s with granted := false, g := { s.g with yielded := s.g.yielded || p.header.getLsbD 4 } }
  else s

/-- R226, R281: an instruction of `n` words retires with the path's clock at `clock`. -/
def State.retireAt (s : State) (n : Nat) (clock : Word64) : State :=
  let p := s.path
  s.afterAdvance p (s.tickTo (p.advance n) clock).replayClock

/-- R226: an instruction of `n` words retires; the clock rises by 1. -/
def State.retire (s : State) (n : Nat) : State := s.retireAt n (s.path.clock + 1)

/-- R281: the path moves to a target header; its clause ends. -/
def State.transfer (s : State) (target : BitVec 56) : State :=
  let p := s.path
  s.afterAdvance p (s.tickTo (p.goto target) (p.clock + 1))

/-- R219: the hang counter is reset. -/
def State.unhang (s : State) : State := { s with g := { s.g with hang := 0 } }

/-! ## Exits -/

/-- R81 Table 3-7: a slot is released by a group: free, or release-deferred while operations are pending. -/
def releaseClaim (j : Nat) (c : Claim × Nat) : Claim :=
  match c with
  | (.held k, ops) => if k = j then (if ops = 0 then .free else .deferred) else .held k
  | (c, _) => c

def Workgroup.claim (w : Workgroup) (n : Nat) : Claim := (w.claims[n]?).getD .free

/-- Every slot of a run is free or held by a group (R376). -/
def Workgroup.runFree (w : Workgroup) (j first count : Nat) : Bool :=
  (List.range count).all fun i => w.claim (first + i) == .free || w.claim (first + i) == .held j

/-- Every slot of a run has been released, or is held by the group. -/
def Workgroup.runLoose (w : Workgroup) (j first count : Nat) : Bool :=
  (List.range count).all fun i => match w.claim (first + i) with
    | .held k => k == j
    | _ => true

/-- R230 Table 8-6: an MCLAIM of the workgroup that waits keeps, in deterministic mode, the clock of the instruction that
released the last slot of its run. -/
def State.noteClaims (s : State) : State :=
  let clock := s.path.clock
  let note (j : Nat) (p : Path) : Path :=
    match p.wait with
    | some w =>
      match w.on with
      | .claim f n =>
        { p with wait := some { w with vals := if s.w.runLoose j f n then (if w.vals.isEmpty then [clock] else w.vals) else [] } }
      | _ => p
    | none => p
  if !s.g.det then s
  else s.mapGroups fun g =>
    if wgOf g.id == s.w.id then { g with slot0 := g.slot0.map (note g.id.j), slot1 := g.slot1.map (note g.id.j) } else g

/-- A group that ends asks the KV walker for nothing more. -/
def Die.dropWaiters (d : Die) (g : GroupId) : Die :=
  { d with walker := d.walker.filter fun w => match w.who with | .path x _ => !(x == g) | .cmd _ => true }

/-- R213: at group exit the stack, the watch and the slot claims go; a delivered trap still pending waits for another
group of the workgroup (R124); its own plain UO stores drain at the latest
when the node completes (R104), and the model drains them here (DESIGN CHOICE, log entry 4). -/
def State.groupGone (s : State) : State :=
  let s := s.drain
  let s := ({ s with w := { s.w with claims := (s.w.claims.zip s.w.slotOps).map (releaseClaim s.g.id.j) } } : State).noteClaims
  { s with
    die0 := s.die0.dropWaiters s.g.id
    die1 := s.die1.dropWaiters s.g.id
    g := { s.g with slot0 := none, slot1 := none, stack := [], watch := none, exited := 0xFFFFFFFF, held := none }.setSupv false
    granted := false }

/-- R125: the group ends with a fault and its node completes with a fault status. -/
def State.endFaulted (s : State) : State :=
  (s.modNode s.g.id.node fun n => { n with faulted := true }).groupGone

/-! ## Taking a trap -/

/-- The save slot of a group (R258). -/
def State.saveSlot (s : State) : Nat :=
  bitsOf s.regs.savectl.toNat 16 40 * 65536 + s.w.saveEntry * 65536 + s.g.id.j * 2048

/-- Where the current group's accesses translate. -/
def State.here (s : State) : Where := ⟨s.g.die, some s.g.core⟩

/-- A number in `n` bytes is written through translation in the group's ASID, one 128-byte line at a time, by
the device; a fault leaves the lines before it written. -/
def State.vstoreLines (s : State) (va : Nat) (lines : List (List Byte)) : State × Except Flt Unit :=
  match lines with
  | [] => (s, .ok ())
  | bs :: rest =>
    match s.translateStore s.here s.g.asid { write := true, now := true } va with
    | (s, .error f) => (s, .error f)
    | (s, .ok x) =>
      let cells := x.pas.flatMap fun pa => cellsAt pa bs
      let s := ((s.requestLine x true true).drainFor (cells.map Prod.fst)).devStore cells
      let s := (s.noteOwn (cells.map Prod.fst)).awaitAcks (cells.map Prod.fst)
      match x.lost with
      | some f => (s, .error f)
      | none => s.vstoreLines (va + bs.length) rest

/-- R282: a byte of code as the current group's node fetches it: as it stood at the launch; of a word that the node has stored
since, either that or the byte in memory. -/
def State.codeByte (s : State) (pa : Nat) : Byte :=
  match s.nodes.find? fun n => n.index == s.g.id.node with
  | none => s.byte pa
  | some n => if n.own.contains (pa / 4) && Config.codeSeen s.steps (pa / 4) then s.byte pa else (Memory.find? n.code pa).getD (resetByte pa)

/-- A list cut into pieces of at most `n`, `k` pieces at most. -/
def chunks {α : Type} (n : Nat) (k : Nat) (xs : List α) : List (List α) :=
  match k with
  | 0 => []
  | k + 1 => if xs.isEmpty then [] else xs.take n :: chunks n k (xs.drop n)

/-- Bytes cut at the 128-byte lines of the addresses they lie at. -/
def lineChunks (va : Nat) (bs : List Byte) : List (List Byte) :=
  let head := 128 - va % 128
  (if bs.isEmpty then [] else [bs.take head]) ++ chunks 128 (bs.length / 128 + 1) (bs.drop head)

def State.vstore (s : State) (va : Nat) (bs : List Byte) : State × Except Flt Unit := s.vstoreLines va (lineChunks va bs)

/-- Bytes read through translation in the group's ASID, by the device; poison is a fault (R459). -/
def State.vloadLines (s : State) (va : Nat) (lens : List Nat) : State × Except Flt (List Byte) :=
  match lens with
  | [] => (s, .ok [])
  | n :: rest =>
    match s.translate s.here s.g.asid { now := true } va with
    | (s, .error f) => (s, .error f)
    | (s, .ok x) =>
      let s := s.requestLine x false true
      let pa := x.pas.headD 0
      if s.rangePoisoned pa n then (s, .error eccPoison)
      else
        let bs := (List.range n).map fun i => s.gbyte (pa + i)
        match s.vloadLines (va + n) rest with
        | (s, .ok more) => (s, .ok (bs ++ more))
        | (s, .error f) => (s, .error f)

def State.vload (s : State) (va n : Nat) : State × Except Flt (List Byte) :=
  s.vloadLines va ((lineChunks va (List.replicate n 0)).map List.length)

/-- What a trap frame holds beside what the path gives (R259 Table 10-2). -/
structure FrameArgs where
  trap : Trap
  iw : List Word32
  skip : Bool := false
  async : Bool := false
  eng : BitVec 4 := 0
  tlnum : Word64 := 0
  elem : Word64 := 0
  deriving DecidableEq, Repr

/-- A word of a list of instruction words; zero where there is none. -/
def iwAt (ws : List Word32) (i : Nat) : Nat := ((ws[i]?).getD 0).toNat

/-- R259 Table 10-2: the 256 bytes of the frame of path `p` in slot `slot`. -/
def frameBits (a : FrameArgs) (p : Path) (slot : Bool) : Nat :=
  a.trap.cause.toNat + a.trap.sub.toNat * 2 ^ 8 + place (p.replay.length - 1) 16 5
    + a.async.toNat * 2 ^ 21 + slot.toNat * 2 ^ 22 + a.skip.toNat * 2 ^ 23 + a.eng.toNat * 2 ^ 24
    + a.trap.lmask.toNat * 2 ^ 32 + a.trap.va.toNat * 2 ^ 64
    + iwAt a.iw 0 * 2 ^ 128 + iwAt a.iw 1 * 2 ^ 160 + iwAt a.iw 2 * 2 ^ 192
    + p.pc.toNat * 2 ^ 256 + place p.off 312 6 + p.clock.toNat * 2 ^ 320
    + a.tlnum.toNat * 2 ^ 384 + a.elem.toNat * 2 ^ 448 + p.mask.toNat * 2 ^ 512 + iwAt a.iw 3 * 2 ^ 544

/-- R260 Table 10-3: the 64 bytes of a replay entry. The literal words of a scalar word stand in LIT and LIT2 as well as in
IW1 and IW2. -/
def replayBits (r : Replay) : Nat :=
  let lane := (r.words.headD 0).getLsbD 31
  let lit (i : Nat) : Nat := if lane then 0 else iwAt r.words (i + 1)
  iwAt r.words 0 + iwAt r.words 1 * 2 ^ 32 + iwAt r.words 2 * 2 ^ 64 + lit 2 * 2 ^ 96
    + r.pc.toNat * 2 ^ 160 + place r.off 216 6 + r.lmask.toNat * 2 ^ 224 + r.clock.toNat * 2 ^ 256
    + lit 0 * 2 ^ 320 + lit 1 * 2 ^ 352
    + (r.ops.getD (0, 0)).1.toNat * 2 ^ 384 + (r.ops.getD (0, 0)).2.toNat * 2 ^ 448

/-- R125: a fault met in supervisor mode, or while the frame is written (R258), ends the group and posts a
record with KIND = HANDLER. No frame gives its POS and LMASK: the model takes the path's clock and mask (DESIGN CHOICE, log
entry 75). A delivered trap that the handler was serving, or that was being taken, waits for delivery again (R124; DESIGN CHOICE, log
entry 75). -/
def State.nestedFault (s : State) (t : Trap) : State :=
  let p := s.path
  let s := { s with g := { s.g with pending := (s.g.serving.toList.filter Delivered.restart) ++ s.g.pending, serving := none } }
  let s := s.devicePost
    { pos := p.clock, pc := p.addr, lmask := p.mask, gidx := s.g.gidx, node := s.g.id.node, core := s.g.core
      die := s.g.die, eng := 0, kind := 6, asid := s.g.asid, sub := t.sub, cause := t.cause, level := t.level, va := t.va }
  s.endFaulted

/-- Taking a trap (R123, R259): the frame and the replay queue are written in the save slot, s127 takes its
address, the other live slot is held, and the path enters the handler at HVEC in supervisor mode on the
frame's lanes. A grant that the path held ends (R251, R279). -/
def State.enterHandler (s : State) (a : FrameArgs) : State :=
  if s.g.supv then s.nestedFault a.trap
  else
    let p := s.path
    let va := s.saveSlot
    let bytes := bytesOf 256 (frameBits a p s.slot) ++ (p.replay.drop 1).flatMap fun r => bytesOf 64 (replayBits r)
    match s.vstore va bytes with
    | (s, .error f) => s.nestedFault { a.trap with cause := f.cause, sub := f.sub, level := f.level, va := BitVec.ofNat 56 va }
    | (s, .ok _) =>
      let other := s.g.path? (!s.slot)
      let p' := { p.goto (s.regs.hvec.extractLsb' 0 56 &&& ~~~3#56) with mask := a.trap.lmask }
      { s with
        granted := false
        g := ({ s.g with
            sregs := s.g.sregs.set 127 (BitVec.ofNat 64 va)
            held := other.map fun _ => !s.slot
            trapLanes := p.mask
            trapKind := a.trap.kind
            trapLevel := a.trap.level
            trapTop := if p.top then some p.pc else none
            yielded := s.g.yielded || (s.granted && p.header.getLsbD 4)
            ovr := none }.setSupv true).setPath s.slot (some p') }

/-- The wait of the current path ends, and with it the mark that its instruction set (R283, R284). -/
def State.endWait (s : State) : State :=
  match s.path.wait with
  | none => s
  | some w => ({ s with g := s.g.unmark w.mark } : State).setPath { s.path with wait := none }

/-- The instruction words that a frame of the path's next instruction holds (Table 10-2). -/
def Path.frameWords (p : Path) : List Word32 :=
  match p.words with
  | [] => []
  | w :: rest => w :: rest.take (wordCount w - 1)

/-- R123: a precise fault of the path's next instruction. What a tier swap holds (R44) is no fault: the grant ends, and the
instruction issues again. -/
def State.takeTrap (s : State) (t : Trap) : State :=
  if t.cause = 0 then s.endGrant else s.enterHandler { trap := t, iw := s.path.frameWords }

/-! ## Stops (R264) -/

/-- A path parked in a wait. One whose transaction or first touch is under way is not at an instruction boundary. -/
def Path.parked (p : Path) : Bool :=
  match p.wait with
  | none => false
  | some w => w.on != .order && w.on != .walker && w.on != .firstTouch

/-- A path in the middle of an instruction that it must finish first (R264). -/
def Path.busy (p : Path) : Bool :=
  match p.wait with
  | none => false
  | some w => w.on == .walker || w.on == .firstTouch

def Group.allPaths (g : Group) (f : Path → Bool) : Bool := (g.slot0.map f).getD true && (g.slot1.map f).getD true

/-- R264: the group has exited, or every live path is parked. -/
def Group.idle (g : Group) : Bool := g.exited == 0xFFFFFFFF || g.allPaths Path.parked

/-- R264: a group that has been asked to stop and finds every live path parked stops at once. -/
def Group.settleStop (g : Group) : Group := if g.stop == .requested && g.idle then { g with stop := .stopped } else g

/-! ## Actions

A meaning is an action: it changes the state and ends normally, or with a reason why the instruction has not
retired. A trap is thrown before any effect of the instruction (R25). -/

inductive Stop where
  /-- a precise fault (R123) -/
  | trap (t : Trap)
  /-- issue stall (R251): the grant ends, the instruction issues again later; it waits for an operand or an accumulator of the
  group's own operations, or a tile that a command holds (Table 8-6) -/
  | stall
  /-- issue stall for anything else -/
  | hold
  /-- the path parks in a wait (R230) -/
  | park (w : Wait)
  deriving DecidableEq, Repr

abbrev Act (α : Type) := ExceptT Stop (StateM State) α

/-- The path parks in a wait: its instruction has issued, so its mark stands until it retires (R283). Its grant ends (R251), and a
group that was asked to stop may now stop (R264). -/
def State.park (s : State) (w : Wait) : State :=
  let s := ({ s with g := s.g.mark w.mark } : State).setPath { s.path with wait := some w }
  ({ s with g := s.g.settleStop } : State).endGrant

/-- The state a meaning leaves. -/
def Act.state (a : Act Unit) (s : State) : State :=
  match a.run.run s with
  | (.ok _, s') => s'
  | (.error (.trap t), s') => s'.takeTrap t
  | (.error .stall, s') => s'.stallPath
  | (.error .hold, s') => s'.endGrant
  | (.error (.park w), s') => s'.park w

/-- A meaning as an outcome of a step. -/
def Act.outcome (a : Act Unit) (s : State) : Host.Outcome State Fault Refusal := .next (Act.state a s)

/-- A trap with the path's mask (R295). Its record's KIND, for which Table 5-8 has no code where it is no access, is 0 (DESIGN
CHOICE, log entry 57). -/
def trapAll {α : Type} (cause sub : BitVec 8) (va : Nat) : Act α := do
  let s ← get
  throw (.trap { cause := cause, sub := sub, lmask := s.path.mask, va := BitVec.ofNat 56 va, kind := 0, level := 0xF })

/-- A fault of one access with given lanes and address. -/
def trapAt {α : Type} (f : Flt) (kind : Nat) (lmask : Word32) (va : Nat) : Act α :=
  throw (.trap { cause := f.cause, sub := f.sub, lmask := lmask, va := BitVec.ofNat 56 va, kind := BitVec.ofNat 4 kind, level := f.level })

/-- R294: a privileged instruction outside supervisor mode. -/
def needSupv : Act Unit := do
  let s ← get
  if s.g.supv then pure () else trapAll cPRIV 1 0

def stall {α : Type} : Act α := throw .stall

def hold {α : Type} : Act α := throw .hold

/-! ## Registers -/

/-- The scalar register that an engine command in flight will write (R285, R388, R394): its reads wait. -/
def destOf (i : Instr) : Option (BitVec 7) :=
  match i with
  | .attn l => some (l.vc.extractLsb' 0 7 + 6)
  | .asel l => some (l.vd.extractLsb' 0 7)
  | .asumu l => some (l.vd.extractLsb' 0 7)
  | .kvsweep l => some (l.vd.extractLsb' 0 7)
  | .kvdem l => some (l.vd.extractLsb' 0 7)
  | _ => none

/-- The registers that a transaction instruction writes (R387). -/
def walkerDests (i : Instr) : List (BitVec 7) :=
  match i with
  | .kvapp l => [l.vd.extractLsb' 0 7]
  | .kvfork l => [l.vd.extractLsb' 0 7]
  | .kvrel l => [l.vd.extractLsb' 0 7]
  | .kvlook l => [l.vd.extractLsb' 0 7]
  | .amass l => [l.vd.extractLsb' 0 7]
  | .kvpin l => [l.vd.extractLsb' 0 7, l.vd.extractLsb' 0 7 + 1]
  | .kvunpin l => [l.vd.extractLsb' 0 7]
  | _ => []

/-- The scalar registers that a parked instruction will write (R285). -/
def parkedDests (i : Instr) : List (BitVec 7) :=
  match i with
  | .barw f => [f.d]
  | .smwait f => [f.d]
  | .mappg f => [f.d]
  | .qpush l => [l.vd.extractLsb' 0 7]
  | .qpop l => [l.vb.extractLsb' 0 7]
  | .ndone l => [l.vd.extractLsb' 0 7]
  | .spgrant l => [l.vd.extractLsb' 0 7]
  | .spsend l => [l.vd.extractLsb' 0 7]
  | .sprecv l => [l.vd.extractLsb' 0 7]
  | i => walkerDests i

/-- The registers that the instruction a path waits in will write; one that waits to issue (R229) has read nothing yet. -/
def Path.awaited (p : Path) : List (BitVec 7) :=
  match p.wait with
  | some w => if w.on == .order then [] else parkedDests w.instr
  | none => []

/-- A register that a command of the current group or its other path has still to write (R285). -/
def State.busyReg (s : State) (n : BitVec 7) : Bool :=
  (s.w.cmds.any fun c => c.group == s.g.id && !c.finished && destOf c.instr == some n)
    || ((s.g.path? (!s.slot)).map fun p => p.awaited.contains n).getD false

/-- S[n] with the interlock of R285 and the soft errors of R206. -/
def readS (n : BitVec 7) : Act Word64 := do
  let s ← get
  if s.busyReg n then stall
  else if s.isSoft (.sreg s.g.id n.toNat) then trapAll cECC 2 0
  else pure (s.g.sregs.get n.toNat)

/-- S[SA]: the value captured in a replay entry, where one is executed (R260, R261). -/
def readSA (n : BitVec 7) : Act Word64 := do
  let s ← get
  match s.g.ovr with
  | some c => pure c.a
  | none => readS n

/-- S[SB] of a scalar word, or S[SS] of a lane word (R260). -/
def readSB (n : BitVec 7) : Act Word64 := do
  let s ← get
  match s.g.ovr with
  | some c => pure c.b
  | none => readS n

def State.setS (s : State) (n : BitVec 7) (v : Word64) : State :=
  ({ s with g := { s.g with sregs := s.g.sregs.set n.toNat v } } : State).unsoft [.sreg s.g.id n.toNat]

def writeS (n : BitVec 7) (v : Word64) : Act Unit := do
  let s ← get
  if s.busyReg n then stall else set (s.setS n v)

/-- m0 reads as all ones (Table 0-2). -/
def Group.mreg (g : Group) (n : Nat) : Word32 := if n = 0 then 0xFFFFFFFF else g.mregs.get n

def readM (n : Nat) : Act Word32 := do
  let s ← get
  if s.isSoft (.mreg s.g.id n) then trapAll cECC 2 0 else pure (s.g.mreg n)

/-- A write of m0 is ignored (Table 0-2). -/
def State.setM (s : State) (n : Nat) (v : Word32) : State :=
  if n = 0 then s else ({ s with g := { s.g with mregs := s.g.mregs.set n v } } : State).unsoft [.mreg s.g.id n]

def readB (n : Nat) : Act (BitVec 128) := do
  let s ← get
  if s.isSoft (.breg s.g.id n) then trapAll cECC 2 0 else pure (s.g.bregs.get n)

/-- A write of the private record gives it a base below 2^56 (R33). -/
def State.setB (s : State) (n : Nat) (v : BitVec 128) : State :=
  ({ s with g := { s.g with bregs := s.g.bregs.set n v, privOver := if n = 31 then 0 else s.g.privOver } } : State).unsoft [.breg s.g.id n]

/-- V[n][ℓ]. -/
def Group.vreg (g : Group) (n l : Nat) : Word32 := g.vregs.get (32 * n + l)

def State.setV (s : State) (n l : Nat) (v : Word32) : State :=
  ({ s with g := { s.g with vregs := s.g.vregs.set (32 * n + l) v } } : State).unsoft [.vreg s.g.id n l]

/-! ## Retiring, with what the instruction writes -/

def retire (n : Nat) : Act Unit := modify fun s => s.retire n

/-- An instruction that resets the hang counter retires (R219). -/
def retireWork (n : Nat) : Act Unit := modify fun s => s.unhang.retire n

/-- A plain scalar word with a result (R308 to R312). -/
def writeRetire (d : BitVec 7) (v : Word64) (n : Nat) : Act Unit := do
  writeS d v
  retire n

/-! ## Completion flags (R283) -/

/-- The flag that a header's field selects: 0xF marks nothing. -/
def flagOf (field : Nat) : Option Nat := if field < 12 then some field else none

def Path.setA (p : Path) : Option Nat := flagOf (bitsOf p.header.toNat 14 4)
def Path.setB (p : Path) : Option Nat := flagOf (bitsOf p.header.toNat 10 4)

/-- The flag an instruction with flag select `fs` marks. -/
def State.flagFor (s : State) (fs : Bool) : Option Nat := if fs then s.path.setB else s.path.setA

/-- R283: an instruction whose mark would raise a count above 63 stalls. -/
def checkMark (fs : Bool) : Act (Option Nat) := do
  let s ← get
  match s.flagFor fs with
  | none => pure none
  | some k => if s.g.qflags.get k = 63 then stall else pure (some k)

/-! ## Returning from a trap (R261) -/

/-- Bits [lo + w - 1 : lo] of the frame's bytes. -/
def frameField (bs : List Byte) (lo w : Nat) : Nat := bitsOf (natOf bs) lo w

/-- A replay entry read back (Table 10-3). -/
def readReplay (bs : List Byte) : Replay :=
  let v := natOf bs
  let w0 := BitVec.ofNat 32 (bitsOf v 0 32)
  let words := if w0.getLsbD 31 then [w0, BitVec.ofNat 32 (bitsOf v 32 32), BitVec.ofNat 32 (bitsOf v 64 32)]
    else [w0, BitVec.ofNat 32 (bitsOf v 320 32), BitVec.ofNat 32 (bitsOf v 352 32), BitVec.ofNat 32 (bitsOf v 96 32)]
  { words := words, pc := BitVec.ofNat 56 (bitsOf v 160 56), off := bitsOf v 216 6, clock := BitVec.ofNat 64 (bitsOf v 256 64)
    lmask := BitVec.ofNat 32 (bitsOf v 224 32), ops := some (BitVec.ofNat 64 (bitsOf v 384 64), BitVec.ofNat 64 (bitsOf v 448 64)) }

/-- The engine context an ENG code and a timeline number of a frame name (Table 5-8). -/
def ctxOfEng (eng : Nat) : Option Ctx :=
  match eng with
  | 1 => some .copy0
  | 2 => some .copy1
  | 3 => some .xform
  | 4 => some .mpair
  | 5 => some .attn
  | 6 => some .sel
  | 7 => some .dem
  | 8 => some .xred
  | _ => none

/-- R124, R201: the command restarts from its progress record and tests NANCTL.TRAP afresh. -/
def State.restartCommand (s : State) (eng tlnum : Nat) : State :=
  match ctxOfEng eng with
  | none => s
  | some c =>
    let trap := s.g.nanctl.getLsbD 0
    { s with w := { s.w with cmds := s.w.cmds.map fun x =>
        if x.id.ctx == c && x.id.num == tlnum && x.stopped then { x with stopped := false, nanTrap := trap } else x } }

/-- The scalar registers that an instruction's fields name as SA and as SB, or as SS of a lane word (R260, R286, R288). -/
def operandRegs (ws : List Word32) : Option (BitVec 7) × Option (BitVec 7) :=
  let x := ws.headD 0
  if x.getLsbD 31 then (none, some (((ws[1]?).getD 0).extractLsb' 3 7))
  else match formOf (x.extractLsb' 24 7).toNat with
    | .r => (some (x.extractLsb' 10 7), some (x.extractLsb' 3 7))
    | .i _ => (some (x.extractLsb' 10 7), none)
    | .b => (some (x.extractLsb' 17 7), none)
    | .m => (some (x.extractLsb' 5 7), some (x.extractLsb' 17 7))
    | .y _ => (some (x.extractLsb' 10 7), some (x.extractLsb' 17 7))
    | _ => (none, none)

def captureRegs (ws : List Word32) : List (BitVec 7) := (operandRegs ws).1.toList ++ (operandRegs ws).2.toList

/-- R260: the scalar operands of an instruction captured from the group's registers: S[SA] and S[SB], or S[SS] of a lane word. -/
def Group.capture (g : Group) (ws : List Word32) : Word64 × Word64 :=
  let reg (n : Option (BitVec 7)) : Word64 := (n.map fun n => g.sregs.get n.toNat).getD 0
  (reg (operandRegs ws).1, reg (operandRegs ws).2)

/-- An entry that reads its registers afresh captures them (R260). -/
def Group.captured (g : Group) (r : Replay) : Replay := if r.ops.isSome then r else { r with ops := some (g.capture r.words) }

/-- The group is left with no lane (R213, R261): no path, and no lane of a trapped path outside its handler. -/
def State.allGone (s : State) : Bool :=
  s.g.slot0.isNone && s.g.slot1.isNone && s.g.stack.isEmpty && !(s.g.supv && s.g.trapLanes &&& ~~~s.g.exited != 0)

/-- R261: the effect of ERET on the frame `bs` and the replay entries `rs` read from the save slot, and whether the path ends,
its slot then free. Lanes of the path that PMASK leaves out belong to no path any more: they have exited (R210, R213). With OFFSET 0
the clause header is what is executed again before the replay entries. ERET ends its clause (R279, R281). -/
def State.returnFrom (s : State) (bs : List Byte) (rs : List Replay) : State × Bool :=
  let pmask := BitVec.ofNat 32 (frameField bs 512 32)
  let async := frameField bs 21 1 == 1
  let skip := frameField bs 23 1 == 1
  let pc := BitVec.ofNat 56 (frameField bs 256 56)
  let off := frameField bs 312 6
  let m := pmask &&& s.g.trapLanes &&& ~~~s.g.exited
  let p := s.path
  let exited := s.g.exited ||| (s.g.trapLanes &&& ~~~m)
  let yld := s.g.yielded || p.header.getLsbD 4
  let g : Group := { s.g with held := none, ovr := none, serving := none, exited := exited, yielded := yld }
  let s := { s with granted := false, g := g.setSupv false }
  let s := if async then s.restartCommand (frameField bs 24 4) (frameField bs 384 64) else s
  if m = 0 then ({ s with g := s.g.setPath s.slot none }, true)
  else
    let p := { p with mask := m, clause := none, top := off == 0 && s.g.trapTop == some pc, wait := none, pc := pc, off := off, replay := [], stalled := false }
    if async then (s.setPath p, false)
    else if off = 0 && !(skip && !rs.isEmpty) then (s.setPath { p with replay := rs }, false)
    else
      let w0 := BitVec.ofNat 32 (frameField bs 128 32)
      let words := [w0] ++ [160, 192, 544].map fun lo => BitVec.ofNat 32 (frameField bs lo 32)
      let first : Replay := { words := words.take (wordCount w0), pc := pc, off := off, clock := p.clock, lmask := m, ops := none }
      if skip then
        match rs with
        | [] => (s.setPath { p with off := off + wordCount w0 }, false)
        | r :: _ => (s.setPath ({ p with pc := r.pc, off := r.off, replay := rs, top := false } : Path).replayClock, false)
      else (s.setPath { p with replay := first :: rs }, false)

end Sys2Proof.Machine
end

