-- ==== Sys2Proof/Machine/Operands.lean ====
section
/-! DEFINITION. Operand forms: buffer records and element addressing (spec/01 R18 to R25, R32, R33), the access
of a scalar or lane instruction to its elements with every check in the order of R25, lane operands and their
broadcasts (R289 to R291), and annotations (R96, R97, R104). -/

namespace Sys2Proof.Machine

/-! ## Buffer records (R18 Table 1-4) -/

structure Rec where
  base : Nat
  esz : Nat
  oobt : Bool
  swz : Nat
  extent : Nat
  stride : Nat
  deriving DecidableEq, Repr

def recOf (b : BitVec 128) : Rec :=
  let n := b.toNat
  { base := bitsOf n 0 56, esz := bitsOf n 56 3, oobt := bitOf n 59, swz := bitsOf n 60 4, extent := bitsOf n 64 32
    stride := (BitVec.ofNat 32 (bitsOf n 96 32)).signExtend 64 |>.toNat }

/-- R12, R33: the record of register `n` as accesses use it: the private record's base does not wrap at 2^56. -/
def Group.recIn (g : Group) (n : Nat) (b : BitVec 128) : Rec :=
  if n = 31 then { recOf b with base := (recOf b).base + g.privOver * 2 ^ 56 } else recOf b

/-- R19: SWZ reserved, or a swizzle with a BASE that is no multiple of 2048. -/
def Rec.bad (r : Rec) : Bool := decide (4 ≤ r.swz) || (r.swz != 0 && r.base % 2048 != 0)

/-- R21 Table 1-5: the swizzle of an offset. -/
def swizzle (mode b : Nat) : Nat :=
  if mode = 1 then b ^^^ place (bitsOf b 7 3) 4 3
  else if mode = 2 then b ^^^ place (bitsOf b 7 2) 4 2
  else if mode = 3 then b ^^^ place (bitsOf b 8 3) 5 3
  else b

/-- R20, R33: the address of byte `k` of element `i` for lane `l`, in 64-bit two's complement; `priv` is the
interleaved addressing of b31. -/
def Rec.addr (r : Rec) (priv : Bool) (l i k : Nat) : Nat :=
  let e := if priv then i * 32 + l else i
  (r.base + swizzle r.swz ((e * r.stride + k) % 2 ^ 64)) % 2 ^ 64

/-- A request for one element: its lane and index. -/
structure Want where
  lane : Nat
  ix : Nat
  deriving DecidableEq, Repr

/-- One byte of an element in its memory: the virtual address or window offset, the addresses that hold it, and
whether a plain store of it waits undrained (R104). -/
structure ByteAt where
  va : Nat
  pas : List Nat
  uo : Bool
  /-- the leaf it was translated through -/
  leaf : Word64
  deriving DecidableEq, Repr

/-- An in-bounds element, translated; `lost` is the fault of a store that some member of a peer set does not take (R59). -/
structure Elem where
  lane : Nat
  bytes : List ByteAt
  lost : Option Flt := none
  deriving DecidableEq, Repr

/-- How an access reaches memory: window (0: virtual), the bytes moved, load 0, store 1 or atomic 2 (KIND of
Table 5-8), annotated (R24), b31 (R33), and whether a PCI Express AtomicOp can carry an atomic (R449). -/
structure Access where
  win : Nat
  n : Nat
  kind : Nat
  annot : Bool := false
  priv : Bool := false
  opOk : Bool := true
  deriving DecidableEq, Repr

/-- A lane's fault with its rank in R25. -/
structure LaneFault where
  rank : Nat
  lane : Nat
  flt : Flt
  deriving DecidableEq, Repr

/-- R25: raise the highest cause any lane meets: the mask holds every lane that meets it. VA is that of the lowest such lane; where faults
of one rank differ in sub-cause, so is the sub-cause, with the mask over every lane of the rank (DESIGN CHOICE, log entry 79). -/
def raiseLanes (fs : List LaneFault) (kind : Nat) (first : Nat → Nat) : Act Unit :=
  match fs with
  | [] => pure ()
  | f :: rest => do
    let best := rest.foldl (fun m x => min m x.rank) f.rank
    let at' := fs.filter fun x => x.rank == best
    let mask := maskOf (at'.map (·.lane))
    let low := lowLane mask
    let flt := ((at'.find? fun x => x.lane == low).getD f).flt
    trapAt flt kind mask (first low)

/-- An action on the state with a result. -/
def stateful {α : Type} (f : State → State × α) : Act α := do
  let s ← get
  let (s', a) := f s
  set s'
  pure a

/-- Translate each distinct line once, in ascending order (R23). -/
def xlateLines (lines : List Nat) (need : Need) : Act (List (Nat × Except Flt Xlat)) :=
  match lines with
  | [] => pure []
  | l :: rest => do
    let r ← stateful fun s => s.translate s.here s.g.asid need (l * 128)
    let rs ← xlateLines rest need
    pure ((l, r) :: rs)

def lineResult (rs : List (Nat × Except Flt Xlat)) (line : Nat) : Except Flt Xlat :=
  ((rs.find? fun r => r.1 == line).map Prod.snd).getD (.error (tfault 1 0))

/-- The rank of a translation fault in R25: a walk's before a permission's; a lost member after both. R25 does not rank ECC: the
model gives a walk's the rank of a walk's TFAULT, and an element's own poison comes last (DESIGN CHOICE, log entry 75). What a
swap holds comes first: its line is not known yet. -/
def rankOf (f : Flt) : Nat :=
  if f.isHold then 0 else if f.cause = cPROT then 6 else if f.cause = cPEERLOST then 7 else 5

/-- The bytes of an element with the addresses their lines translate to, or the fault of the worst line: of faults of one rank, that of the
first byte's line (DESIGN CHOICE, log entry 79). -/
def placeBytes (rs : List (Nat × Except Flt Xlat)) (plain : Bool) (addrs : List Nat) : Except Flt (List ByteAt) :=
  let faults := addrs.filterMap fun a => match lineResult rs (a / 128) with | .error f => some f | .ok _ => none
  match faults with
  | f :: fs => .error (fs.foldl (fun b x => if rankOf x < rankOf b then x else b) f)
  | [] => .ok (addrs.map fun a =>
      match lineResult rs (a / 128) with
      | .ok x => ⟨a, x.pas.map (· + a % 128), plain && pteOrd x.leaf.entry == 2, x.leaf.entry⟩
      | .error _ => ⟨a, [], false, 0⟩)

/-- The lines of a list of addresses, each once, ascending. -/
def linesOf (addrs : List Nat) : List Nat := sortBy (fun a b => decide (a ≤ b)) (addrs.map (· / 128)).dedup

/-- R31: set D on every line of a store before it is performed; a line whose leaf had changed answers its new translation. -/
def dirtyLines (lines : List Nat) (need : Need) : Act (List (Nat × Except Flt Xlat)) :=
  match lines with
  | [] => pure []
  | l :: rest => do
    let r ← stateful fun s => s.setDirty s.here s.g.asid need (l * 128)
    let rs ← dirtyLines rest need
    match r with
    | .error f => pure ((l, .error f) :: rs)
    | .ok (some x) => pure ((l, .ok x) :: rs)
    | .ok none => pure rs

/-- R59, R116: an event that follows every earlier store of its path waits until each is performed. -/
def awaitPerformed : Act Unit := do
  let s ← get
  if s.allAcked (.group s.g.id) then pure () else hold

/-- R107: an access with an element on an SO page follows a full fence, and is a release itself where it stores; undrained
stores take no part (R104). -/
def fenceSo (rs : List (Nat × Except Flt Xlat)) : Act Unit :=
  if rs.any (fun r => match r.2 with | .ok x => pteOrd x.leaf.entry == 0 | .error _ => false) then awaitPerformed else pure ()

/-- The translated elements of an access, with the fault of a store that some member does not take. -/
def placedElems (rs : List (Nat × Except Flt Xlat)) (plain : Bool) (els : List (Nat × List Nat)) : List Elem :=
  els.filterMap fun e => match placeBytes rs plain e.2 with
    | .ok bs => some ⟨e.1, bs, e.2.findSome? fun x => match lineResult rs (x / 128) with | .ok y => y.lost | .error _ => none⟩
    | .error _ => none

/-- R24: the element straddles a 32 KiB page, for an element of 16 bytes or more. -/
def straddles (esz : Nat) (addrs : List Nat) : Bool :=
  decide (16 ≤ 2 ^ esz) && match addrs with
    | [] => false
    | x :: rest => rest.any fun y => y / 2 ^ 15 != x / 2 ^ 15

/-- The request of a line that has been translated reaches L2 or memory (R41). -/
def State.requestResult (s : State) (rs : List (Nat × Except Flt Xlat)) (line : Nat) (write : Bool) : State :=
  match lineResult rs line with
  | .ok x => s.requestLine x write true
  | .error _ => s

/-- R19 to R25, R29, R31, R32, R206, R459: every check of an access to elements of a record, before any effect.
The result holds the in-bounds elements in ascending lanes. GSTAT.OOB may have been set. Where one element meets both sub-causes
of ALIGN, ATOMALIGN is reported; NONCANON and WINDOW are tested on the bytes that the access moves (DESIGN CHOICE, log entry
75). -/
def resolve (a : Access) (r : Rec) (wants : List Want) : Act (List Elem) := do
  let mask := maskOf (wants.map (·.lane))
  if wants.isEmpty then return []
  if r.bad then
    let w := wants.headD ⟨0, 0⟩
    trapAt protBrec a.kind mask (if w.ix < r.extent then r.addr a.priv w.lane w.ix 0 else 0)
  let out := wants.filter fun w => !decide (w.ix < r.extent)
  let ins := wants.filter fun w => decide (w.ix < r.extent)
  if !out.isEmpty then
    if r.oobt then trapAt { cause := cOOB, sub := 0 } a.kind (maskOf (out.map (·.lane))) 0
    else modify fun s => s.stick 0
  let els := ins.map fun w => (w.lane, (List.range a.n).map fun k => r.addr a.priv w.lane w.ix k)
  let first (l : Nat) : Nat := ((els.find? fun e => e.1 == l).map fun e => e.2.headD 0).getD 0
  -- R24: the element is its 2^ESZ bytes, whatever part of them is moved (DEDUCED, log entry 17)
  let across := (ins.filter fun w => straddles r.esz ((List.range (2 ^ r.esz)).map fun k => r.addr a.priv w.lane w.ix k)).map (·.lane)
  let s ← get
  let limit := s.winLimit a.win
  let align := min (2 ^ r.esz) 16
  let early := els.filterMap fun e =>
    if a.win = 0 && e.2.any (fun x => decide (vaSize ≤ x)) then some (LaneFault.mk 3 e.1 (tfault 4 15))
    else if (a.annot || a.kind == 2) && e.2.headD 0 % align != 0 then some ⟨4, e.1, { cause := cALIGN, sub := 1 }⟩
    else if a.win = 0 && across.contains e.1 then some ⟨4, e.1, { cause := cALIGN, sub := 2 }⟩
    else if a.win != 0 && e.2.any (fun x => decide (limit ≤ x)) then some ⟨6, e.1, protWindow⟩
    else none
  if a.win != 0 || early.any (fun f => decide (f.rank ≤ 4)) then raiseLanes early a.kind first
  if a.win != 0 then
    let soft := els.filterMap fun e =>
      if a.kind != 1 && e.2.any (fun x => s.winSoft a.win x) then
        some (LaneFault.mk 8 e.1 { cause := cECC, sub := s.winSoftSub a.win ((e.2.find? fun x => s.winSoft a.win x).getD 0) })
      else none
    raiseLanes soft a.kind first
    return els.map fun e => ⟨e.1, e.2.map fun x => ⟨x, [x], false, 0⟩, none⟩
  let need : Need := { write := a.kind != 0, noOp := a.kind == 2 && !a.opOk }
  let lines := linesOf (els.flatMap Prod.snd)
  let rs ← xlateLines lines need
  let plain := a.kind == 1 && !a.annot
  let faults := els.filterMap fun e => match placeBytes rs plain e.2 with
    | .error f => some (LaneFault.mk (rankOf f) e.1 f)
    | .ok _ => none
  raiseLanes faults a.kind first
  let s ← get
  let elems := placedElems rs plain els
  if a.kind != 1 then
    let met (e : Elem) : List Nat := (e.bytes.flatMap (·.pas)).filter fun p => (uoByte? s.g.uo p).isNone && s.isPoisoned p
    if elems.any fun e => !(met e).isEmpty then modify fun s => lines.foldl (fun s l => s.requestResult rs l false) s
    modify fun s => s.metError (elems.flatMap met)
    raiseLanes ((elems.filter fun e => !(met e).isEmpty).map fun e => LaneFault.mk 8 e.lane eccPoison) a.kind first
  fenceSo rs
  -- an atomic that some member would not take is performed at none (DESIGN CHOICE, log entry 75); a store is performed where
  -- it is taken (R59)
  if a.kind == 2 then raiseLanes (elems.filterMap fun e => e.lost.map fun f => LaneFault.mk 7 e.lane f) a.kind first
  let ds ← if a.kind = 0 then pure [] else dirtyLines lines need
  raiseLanes (els.filterMap fun e =>
    (e.2.findSome? fun x => match (ds.find? fun d => d.1 == x / 128).map Prod.snd with | some (.error f) => some f | _ => none).map
      fun f => LaneFault.mk (rankOf f) e.1 f) a.kind first
  let rs := ds ++ rs
  -- a plain store to a UO page reaches memory when it drains (R104)
  modify fun s => lines.foldl (fun s l => match lineResult rs l with
    | .ok x => if plain && pteOrd x.leaf.entry == 2 then s else s.requestLine x (a.kind != 0) true
    | .error _ => s) s
  return placedElems rs plain els

/-! ## Reading and writing elements -/

/-- A byte of an element as the current group reads it; a load reads one member (R58, R95). -/
def State.elemByte (s : State) (win : Nat) (b : ByteAt) : Byte :=
  if win = 0 then s.gbyte (b.pas.headD 0) else s.winByte win b.va

def State.elemNum (s : State) (win : Nat) (e : Elem) : Nat := natOf (e.bytes.map fun b => s.elemByte win b)

/-- Runs of neighbouring addresses of an element's bytes (R235). -/
def runsOf (bs : List (Nat × Byte)) : List (Nat × List Byte) :=
  bs.foldr (fun p runs => match runs with
    | (a, xs) :: rest => if a = p.1 + 1 then (p.1, p.2 :: xs) :: rest else (p.1, [p.2]) :: runs
    | [] => [(p.1, [p.2])]) []

/-- R235: the writes of a TWIN node to virtual memory join its outgoing stream. -/
def State.emit (s : State) (lane sub : Nat) (bs : List (Nat × Byte)) : State :=
  if s.g.twin then
    let rs := (runsOf bs).map fun r => StreamRec.mk s.path.clock s.g.gidx (lowLane s.path.mask) (lane * 2 ^ 32 + sub) (BitVec.ofNat 64 r.1) r.2
    s.modNode s.g.id.node fun n => { n with stream := n.stream ++ rs }
  else s

/-- The number of the group's next undrained store. -/
def Group.nextUo (g : Group) : Nat := g.uo.foldl (fun n u => max n (u.num + 1)) 0

/-- Bytes are stored at once, with the instruction's mark on `mark` standing while other packages have not acknowledged them (R59,
R283). -/
def State.storeNow (s : State) (cells : List (Nat × Byte)) (mark : Option Nat) : State :=
  let pas := cells.map Prod.fst
  let s := (((s.drainFor pas).devStore cells).noteOwn pas).awaitAcks pas mark.toList
  if (pkgsOf pas).isEmpty then s else { s with g := s.g.mark mark }

/-- Bytes of plain stores to UO pages wait undrained (R104), with the instruction's mark; the group's own watch sees them (R113,
R114). -/
def State.storeLater (s : State) (us : List UoByte) (mark : Option Nat) : State :=
  let g := { (s.g.mark mark).touch 0 0 (us.map (·.pa)) with uo := s.g.uo ++ us, uoMarks := s.g.uoMarks ++ mark.toList.map fun k => (s.g.nextUo, k) }
  { s with g := g }

/-- R89, R104: store the bytes of the elements, the highest lane last; plain stores to UO pages wait undrained. The
instruction's mark on the flag `mark` stands while some of them are not performed (R283 Table 11-3). Where one store writes pages of
both kinds, and some byte through both or at another package, all of it is performed at once (DESIGN CHOICE, log entry 4). -/
def State.storeElems (s : State) (win : Nat) (es : List (Elem × List Byte)) (mark : Option Nat := none) : State :=
  let cells := es.flatMap fun (e, bs) => e.bytes.zip bs
  if win ≠ 0 then s.winStore win (cells.map fun c => (c.1.va, c.2))
  else
    let s := es.foldl (fun s x => s.emit x.1.lane 0 ((x.1.bytes.map (·.va)).zip x.2)) s
    let uo := (cells.filter fun c => c.1.uo).flatMap fun c => c.1.pas.map fun p => UoByte.mk p c.2 c.1.leaf s.g.nextUo
    let direct := (cells.filter fun c => !c.1.uo).flatMap fun c => c.1.pas.map fun p => (p, c.2)
    if uo.isEmpty then s.storeNow direct mark
    else if direct.isEmpty then s.storeLater uo mark
    else if !(pkgsOf (direct.map Prod.fst)).isEmpty || uo.any fun u => direct.any fun d => d.1 == u.pa then
      let s := ((uo.map fun u => (u.pa / 128 * 128, u.leaf)).dedup).foldl (fun s l => s.lineRequest { leaf := l.2, write := true } l.1) s
      s.storeNow (cells.flatMap fun c => c.1.pas.map fun p => (p, c.2)) mark
    else (s.storeNow direct none).storeLater uo mark

/-- R59: a store some member did not take is performed where it was taken, and then raises PEERLOST. -/
def storeLost (es : List Elem) : Act Unit :=
  raiseLanes (es.filterMap fun e => e.lost.map fun f => LaneFault.mk 7 e.lane f) 1 fun l =>
    ((es.find? fun e => e.lane == l).bind fun e => (e.bytes.head?).map (·.va)).getD 0

/-! ## Annotations (R96, R97) -/

/-- The reach of a memory (R97): core, quad and die for the windows, system for virtual addresses. -/
def reach (win : Nat) : Nat := if win = 0 then 7 else win + 1

/-- R97: an annotation wider than the memory's reach sets GSTAT.SCOPECLAMP, where some element is accessed. -/
def clamp (win scope : Nat) (some' : Bool) : Act Unit :=
  if some' && decide (reach win < scope) then modify fun s => s.stick 1 else pure ()

/-! ## Lane operands (R289 to R291) -/

/-- R291: the active lanes: in the path's mask and selected by the mask register; those of a replay entry are the lanes that
were active at its issue (R260). -/
def activeOf (l : Lane) : Act Word32 := do
  let m ← readM l.mask.toNat
  let s ← get
  match s.g.ovr with
  | some c => return s.path.mask &&& c.lanes
  | none => return s.path.mask &&& (if l.minv = 1 then ~~~m else m)

/-- R289, R335: a vector register range at or above the allocation raises PROT/WINDOW with its first register
outside in the VA field. -/
def checkV (active : Word32) (first n : Nat) : Act Unit := do
  let s ← get
  if first + n ≤ s.g.vcount then pure ()
  else trapAt protWindow 0 (if active = 0 then s.path.mask else active) (max first s.g.vcount)

/-- R206: reading a register with an uncorrectable soft error; the mask holds the active lanes whose own element is marked (DESIGN
CHOICE, log entry 79). -/
def checkVSoft (active : Word32) (first n : Nat) : Act Unit := do
  let s ← get
  if s.soft.isEmpty then pure ()
  else
    let bad := (lanesOf active).filter fun l => (List.range n).any fun i => s.isSoft (.vreg s.g.id (first + i) l)
    if bad.isEmpty then pure () else trapAt { cause := cECC, sub := 1 } 0 (maskOf bad) 0

/-- A vector source of `n` registers: its checks. -/
def useV (active : Word32) (r : BitVec 11) (n : Nat) : Act Unit := do
  checkV active r.toNat n
  checkVSoft active r.toNat n

/-- V[r][ℓ] as a number, a register pair for a 64-bit operand (R173). -/
def Group.lane (g : Group) (r l : Nat) (wide : Bool) : Nat :=
  (g.vreg r l).toNat + if wide then (g.vreg (r + 1) l).toNat * 2 ^ 32 else 0

/-- A lane's value of a source that may be a broadcast (R290, R173). -/
def laneVal (g : Group) (bc : Option Word64) (r : BitVec 11) (wide : Bool) (l : Nat) : Nat :=
  match bc with
  | some v => if wide then v.toNat else v.toNat % 2 ^ 32
  | none => g.lane r.toNat l wide

/-- Write V[r][ℓ], a register pair for a 64-bit destination (R173). -/
def State.setLane (s : State) (r l : Nat) (wide : Bool) (v : Nat) : State :=
  let s := s.setV r l (BitVec.ofNat 32 v)
  if wide then s.setV (r + 1) l (BitVec.ofNat 32 (v / 2 ^ 32)) else s

/-- Write a result for each listed lane. -/
def State.setLanes (s : State) (r : Nat) (wide : Bool) (vs : List (Nat × Nat)) : State :=
  vs.foldl (fun s p => s.setLane r p.1 wide p.2) s

end Sys2Proof.Machine
end

