-- ==== Sys2Proof/Machine/Flags.lean ====
section
/-! DEFINITION. The sticky arithmetic flags and NaN traps of lane instructions (spec/07 R200 to R202), the
rounding mode an instruction uses (R178) and the hash of stochastic rounding (R182). -/

namespace Sys2Proof.Machine

/-- R200 Table 7-9: set the sticky flags of a group. -/
def Group.setFlags (g : Group) (f : FpFlags) : Group :=
  let v := g.fpstat
  let v := if f.invalid then setBit v 0 true else v
  let v := if f.ovf then setBit v 1 true else v
  { g with fpstat := if f.nan then setBit v 2 true else v }

/-- R201, R202: with NANCTL.TRAP = 1 a produced NaN raises NANTRAP before any effect; otherwise the flags set.
`lanes` holds the flags of each lane. -/
def raiseFlags (lanes : List (Nat × FpFlags)) : Act Unit := do
  let s ← get
  let nan := (lanes.filter fun p => p.2.nan).map Prod.fst
  if s.g.nanctl.getLsbD 0 && !nan.isEmpty then
    trapAt { cause := cNANTRAP, sub := 1 } 0 (maskOf nan) (nan.foldl min 31)
  else set ({ s with g := s.g.setFlags (lanes.foldl (fun a p => a.or p.2) {}) } : State)

/-! ## Rounding modes (R178, R182) -/

/-- R178: RM = 6 is the mode of FPCTL.RNDMODE. -/
def Group.rounding (g : Group) (rm : Nat) : Nat := if rm = 6 then bitsOf g.fpctl.toNat 0 3 else rm

/-- The rounder of an element of the instruction at issue: mode, and the 24 bits that RSR draws for `src` and
`elem` (R182). -/
def State.rounder (s : State) (rm src elem : Nat) : Rounder :=
  let m := s.g.rounding rm
  { mode := m, rnd := if m = 5 then rsrBits s.g.rseed s.path.clock s.g.gidx src elem else 0 }

end Sys2Proof.Machine
end

