-- ==== Sys2Proof/Machine/Scalar.lean ====
section
/-! DEFINITION. Register arithmetic of scalar words (spec/12 R307 to R312). -/

namespace Sys2Proof.Machine

/-! ## The operations at a width (R308 Table 12-1, R309, R310) -/

/-- One or zero. -/
def flag (w : Nat) (b : Bool) : BitVec w := if b then 1 else 0

/-- R310: signed division truncating towards zero; −1 for a zero divisor; the dividend for most-negative ÷ −1. -/
def divS {w : Nat} (x y : BitVec w) : BitVec w := if y = 0 then BitVec.allOnes w else BitVec.ofInt w (x.toInt.tdiv y.toInt)

/-- R310: unsigned division; all ones for a zero divisor. -/
def divU {w : Nat} (x y : BitVec w) : BitVec w := if y = 0 then BitVec.allOnes w else BitVec.ofNat w (x.toNat / y.toNat)

/-- R310: the remainder with the sign of the dividend; the dividend for a zero divisor. -/
def remS {w : Nat} (x y : BitVec w) : BitVec w := if y = 0 then x else BitVec.ofInt w (x.toInt.tmod y.toInt)

/-- R310: the unsigned remainder; the dividend for a zero divisor. -/
def remU {w : Nat} (x y : BitVec w) : BitVec w := if y = 0 then x else BitVec.ofNat w (x.toNat % y.toNat)

/-- Ones among the low w bits. -/
def popCount (w x : Nat) : Nat := (List.range w).foldl (fun n i => n + (if x.testBit i then 1 else 0)) 0

/-- Leading zeros of a w-bit value; w for zero. -/
def leadingZeros (w x : Nat) : Nat := if x = 0 then w else w - 1 - Nat.log2 x

/-- Trailing zeros of a w-bit value; w for zero. -/
def trailingZeros (w x : Nat) : Nat := ((List.range w).find? fun i => x.testBit i).getD w

/-- SBFX: pos = y mod w and wid = (y >> 8) mod w + 1 (R308, R309). -/
def extractField {w : Nat} (x y : BitVec w) : BitVec w :=
  BitVec.ofNat w (x.toNat / 2 ^ (y.toNat % w) % 2 ^ (y.toNat / 256 % w + 1))

/-- SBFI: bits pos to min(pos + wid − 1, w − 1) of `old` are replaced by the low bits of x. -/
def insertField {w : Nat} (x y old : BitVec w) : BitVec w :=
  let pos := y.toNat % w
  let mask : BitVec w := BitVec.ofNat w (2 ^ (y.toNat / 256 % w + 1) - 1) <<< pos
  (old &&& ~~~mask) ||| (x <<< pos &&& mask)

/-- An operation of three operands at any width. -/
abbrev WidthOp := (w : Nat) → BitVec w → BitVec w → BitVec w → BitVec w

/-- R309: the operation at 64 bits, or with `.w` on the low 32 bits of every operand, its result
sign-extended. -/
def atWidth (op : WidthOp) (w : BitVec 1) (x y old : Word64) : Word64 :=
  if w = 1 then (op 32 (x.setWidth 32) (y.setWidth 32) (old.setWidth 32)).signExtend 64 else op 64 x y old

/-- A row of Table 12-1 that reads S[SA] and S[SB]. -/
def rOp (op : WidthOp) (f : RForm) : Act Unit := do
  let x ← readSA f.a
  let y ← readSB f.b
  writeRetire f.d (atWidth op f.w x y 0) 1

/-- A row that reads S[SA] alone. -/
def rOp1 (op : WidthOp) (f : RForm) : Act Unit := do
  let x ← readSA f.a
  writeRetire f.d (atWidth op f.w x 0 0) 1

/-- A row that reads the old S[SD] too. -/
def rOp3 (op : WidthOp) (f : RForm) : Act Unit := do
  let x ← readSA f.a
  let y ← readSB f.b
  let old ← readS f.d
  writeRetire f.d (atWidth op f.w x y old) 1

/-- R311: S[SA] and the sign extension of IMM10. -/
def iOp (op : Word64 → Word64 → Word64) (f : IForm) : Act Unit := do
  let x ← readSA f.a
  writeRetire f.d (op x (f.imm.signExtend 64)) 1

/-- The operation of SADD (R308): x + y. -/
def saddOp : WidthOp := fun _ x y _ => x + y

/-- SADD (R308): x + y. -/
def execSadd (f : RForm) (s : State) : Host.Outcome State Fault Refusal := Act.outcome (rOp saddOp f) s

/-- The operation of SSUB (R308): x − y. -/
def ssubOp : WidthOp := fun _ x y _ => x - y

/-- SSUB (R308): x − y. -/
def execSsub (f : RForm) (s : State) : Host.Outcome State Fault Refusal := Act.outcome (rOp ssubOp f) s

/-- The operation of SMUL (R308): the low half of the product. -/
def smulOp : WidthOp := fun _ x y _ => x * y

/-- SMUL (R308): the low half of the product. -/
def execSmul (f : RForm) (s : State) : Host.Outcome State Fault Refusal := Act.outcome (rOp smulOp f) s

/-- The operation of SMULH (R308, R309): the high half of the signed product. -/
def smulhOp : WidthOp := fun w x y _ => BitVec.ofInt w (x.toInt * y.toInt / 2 ^ w)

/-- SMULH (R308, R309): the high half of the signed product. -/
def execSmulh (f : RForm) (s : State) : Host.Outcome State Fault Refusal := Act.outcome (rOp smulhOp f) s

/-- The operation of SMULHU (R308, R309): the high half of the unsigned product. -/
def smulhuOp : WidthOp := fun w x y _ => BitVec.ofNat w (x.toNat * y.toNat / 2 ^ w)

/-- SMULHU (R308, R309): the high half of the unsigned product. -/
def execSmulhu (f : RForm) (s : State) : Host.Outcome State Fault Refusal := Act.outcome (rOp smulhuOp f) s

/-- The operation of SDIV (R310). -/
def sdivOp : WidthOp := fun _ x y _ => divS x y

/-- SDIV (R310). -/
def execSdiv (f : RForm) (s : State) : Host.Outcome State Fault Refusal := Act.outcome (rOp sdivOp f) s

/-- The operation of SDIVU (R310). -/
def sdivuOp : WidthOp := fun _ x y _ => divU x y

/-- SDIVU (R310). -/
def execSdivu (f : RForm) (s : State) : Host.Outcome State Fault Refusal := Act.outcome (rOp sdivuOp f) s

/-- The operation of SREM (R310). -/
def sremOp : WidthOp := fun _ x y _ => remS x y

/-- SREM (R310). -/
def execSrem (f : RForm) (s : State) : Host.Outcome State Fault Refusal := Act.outcome (rOp sremOp f) s

/-- The operation of SREMU (R310). -/
def sremuOp : WidthOp := fun _ x y _ => remU x y

/-- SREMU (R310). -/
def execSremu (f : RForm) (s : State) : Host.Outcome State Fault Refusal := Act.outcome (rOp sremuOp f) s

/-- The operation of SAND (R308). -/
def sandOp : WidthOp := fun _ x y _ => x &&& y

/-- SAND (R308). -/
def execSand (f : RForm) (s : State) : Host.Outcome State Fault Refusal := Act.outcome (rOp sandOp f) s

/-- The operation of SOR (R308). -/
def sorOp : WidthOp := fun _ x y _ => x ||| y

/-- SOR (R308). -/
def execSor (f : RForm) (s : State) : Host.Outcome State Fault Refusal := Act.outcome (rOp sorOp f) s

/-- The operation of SXOR (R308). -/
def sxorOp : WidthOp := fun _ x y _ => x ^^^ y

/-- SXOR (R308). -/
def execSxor (f : RForm) (s : State) : Host.Outcome State Fault Refusal := Act.outcome (rOp sxorOp f) s

/-- The operation of SSHL (R308, R309): amount y mod w. -/
def sshlOp : WidthOp := fun w x y _ => x <<< (y.toNat % w)

/-- SSHL (R308, R309): amount y mod w. -/
def execSshl (f : RForm) (s : State) : Host.Outcome State Fault Refusal := Act.outcome (rOp sshlOp f) s

/-- The operation of SSHR (R308, R309): zeros shifted in. -/
def sshrOp : WidthOp := fun w x y _ => x >>> (y.toNat % w)

/-- SSHR (R308, R309): zeros shifted in. -/
def execSshr (f : RForm) (s : State) : Host.Outcome State Fault Refusal := Act.outcome (rOp sshrOp f) s

/-- The operation of SSRA (R308, R309): copies of the sign shifted in. -/
def ssraOp : WidthOp := fun w x y _ => x.sshiftRight (y.toNat % w)

/-- SSRA (R308, R309): copies of the sign shifted in. -/
def execSsra (f : RForm) (s : State) : Host.Outcome State Fault Refusal := Act.outcome (rOp ssraOp f) s

/-- The operation of SMIN (R308): signed. -/
def sminOp : WidthOp := fun _ x y _ => if x.slt y then x else y

/-- SMIN (R308): signed. -/
def execSmin (f : RForm) (s : State) : Host.Outcome State Fault Refusal := Act.outcome (rOp sminOp f) s

/-- The operation of SMAX (R308): signed. -/
def smaxOp : WidthOp := fun _ x y _ => if x.slt y then y else x

/-- SMAX (R308): signed. -/
def execSmax (f : RForm) (s : State) : Host.Outcome State Fault Refusal := Act.outcome (rOp smaxOp f) s

/-- The operation of SMINU (R308): unsigned. -/
def sminuOp : WidthOp := fun _ x y _ => if x.ult y then x else y

/-- SMINU (R308): unsigned. -/
def execSminu (f : RForm) (s : State) : Host.Outcome State Fault Refusal := Act.outcome (rOp sminuOp f) s

/-- The operation of SMAXU (R308): unsigned. -/
def smaxuOp : WidthOp := fun _ x y _ => if x.ult y then y else x

/-- SMAXU (R308): unsigned. -/
def execSmaxu (f : RForm) (s : State) : Host.Outcome State Fault Refusal := Act.outcome (rOp smaxuOp f) s

/-- The operation of SSEQ (R308). -/
def sseqOp : WidthOp := fun w x y _ => flag w (x == y)

/-- SSEQ (R308). -/
def execSseq (f : RForm) (s : State) : Host.Outcome State Fault Refusal := Act.outcome (rOp sseqOp f) s

/-- The operation of SSLT (R308): signed. -/
def ssltOp : WidthOp := fun w x y _ => flag w (x.slt y)

/-- SSLT (R308): signed. -/
def execSslt (f : RForm) (s : State) : Host.Outcome State Fault Refusal := Act.outcome (rOp ssltOp f) s

/-- The operation of SSLTU (R308): unsigned. -/
def ssltuOp : WidthOp := fun w x y _ => flag w (x.ult y)

/-- SSLTU (R308): unsigned. -/
def execSsltu (f : RForm) (s : State) : Host.Outcome State Fault Refusal := Act.outcome (rOp ssltuOp f) s

/-- The operation of SBFX (R308, R309). -/
def sbfxOp : WidthOp := fun _ x y _ => extractField x y

/-- SBFX (R308, R309). -/
def execSbfx (f : RForm) (s : State) : Host.Outcome State Fault Refusal := Act.outcome (rOp sbfxOp f) s

/-- The operation of SSEL (R308): the old S[SD] is the condition. -/
def sselOp : WidthOp := fun _ x y old => if old = 0 then y else x

/-- SSEL (R308): the old S[SD] is the condition. -/
def execSsel (f : RForm) (s : State) : Host.Outcome State Fault Refusal := Act.outcome (rOp3 sselOp f) s

/-- The operation of SBFI (R308, R309). -/
def sbfiOp : WidthOp := fun _ x y old => insertField x y old

/-- SBFI (R308, R309). -/
def execSbfi (f : RForm) (s : State) : Host.Outcome State Fault Refusal := Act.outcome (rOp3 sbfiOp f) s

/-- The operation of SPOPC (R308): ones in x. -/
def spopcOp : WidthOp := fun w x _ _ => BitVec.ofNat w (popCount w x.toNat)

/-- SPOPC (R308): ones in x. -/
def execSpopc (f : RForm) (s : State) : Host.Outcome State Fault Refusal := Act.outcome (rOp1 spopcOp f) s

/-- The operation of SCLZ (R308, R309): w for zero. -/
def sclzOp : WidthOp := fun w x _ _ => BitVec.ofNat w (leadingZeros w x.toNat)

/-- SCLZ (R308, R309): w for zero. -/
def execSclz (f : RForm) (s : State) : Host.Outcome State Fault Refusal := Act.outcome (rOp1 sclzOp f) s

/-- The operation of SCTZ (R308, R309): w for zero. -/
def sctzOp : WidthOp := fun w x _ _ => BitVec.ofNat w (trailingZeros w x.toNat)

/-- SCTZ (R308, R309): w for zero. -/
def execSctz (f : RForm) (s : State) : Host.Outcome State Fault Refusal := Act.outcome (rOp1 sctzOp f) s

/-- SADDI (R311): x + i. -/
def execSaddi (f : IForm) (s : State) : Host.Outcome State Fault Refusal := Act.outcome (iOp (fun x i => x + i) f) s

/-- SANDI (R311). -/
def execSandi (f : IForm) (s : State) : Host.Outcome State Fault Refusal := Act.outcome (iOp (fun x i => x &&& i) f) s

/-- SORI (R311). -/
def execSori (f : IForm) (s : State) : Host.Outcome State Fault Refusal := Act.outcome (iOp (fun x i => x ||| i) f) s

/-- SXORI (R311). -/
def execSxori (f : IForm) (s : State) : Host.Outcome State Fault Refusal := Act.outcome (iOp (fun x i => x ^^^ i) f) s

/-- SSHLI (R311): amount IMM10[5:0]. -/
def execSshli (f : IForm) (s : State) : Host.Outcome State Fault Refusal := Act.outcome (iOp (fun x i => x <<< (i.toNat % 64)) f) s

/-- SSHRI (R311). -/
def execSshri (f : IForm) (s : State) : Host.Outcome State Fault Refusal := Act.outcome (iOp (fun x i => x >>> (i.toNat % 64)) f) s

/-- SSRAI (R311). -/
def execSsrai (f : IForm) (s : State) : Host.Outcome State Fault Refusal := Act.outcome (iOp (fun x i => x.sshiftRight (i.toNat % 64)) f) s

/-- SSLTI (R311): signed. -/
def execSslti (f : IForm) (s : State) : Host.Outcome State Fault Refusal := Act.outcome (iOp (fun x i => flag 64 (x.slt i)) f) s

/-- SSLTIU (R311): both read as unsigned. -/
def execSsltiu (f : IForm) (s : State) : Host.Outcome State Fault Refusal := Act.outcome (iOp (fun x i => flag 64 (x.ult i)) f) s

/-- SSEQI (R311). -/
def execSseqi (f : IForm) (s : State) : Host.Outcome State Fault Refusal := Act.outcome (iOp (fun x i => flag 64 (x == i)) f) s

/-- SLIT (R312): the literal word, sign-extended. -/
def execSlit (f : IForm) (l0 : Word32) (s : State) : Host.Outcome State Fault Refusal :=
  Act.outcome (writeRetire f.d (l0.signExtend 64) 2) s

/-- SLITD (R312): L1 × 2^32 + L0. -/
def execSlitd (f : IForm) (l0 l1 : Word32) (s : State) : Host.Outcome State Fault Refusal :=
  Act.outcome (writeRetire f.d (l1 ++ l0) 3) s

/-- SNOP (R287): no operation. -/
def execSnop (_ : YForm) (s : State) : Host.Outcome State Fault Refusal := Act.outcome (retire 1) s

end Sys2Proof.Machine
end

