-- ==== Sys2Proof/Machine/LaneArith.lean ====
section
/-! DEFINITION. Arithmetic, conversion and bitfield lane instructions (spec/13 R334 to R343, opcodes 0x00 to
0x22). -/

namespace Sys2Proof.Machine

/-! ## Lane instructions that compute a vector from vectors (R334) -/

/-- Whether a TYPE is a 64-bit type, which occupies a register pair (R173). -/
def wideType (l : Lane) : Bool := isWide l.type.toNat

/-- The registers a vector operand of the instruction's TYPE spans (R173, R335). -/
def spanOf (wide : Bool) : Nat := if wide then 2 else 1

/-- The broadcast value S[SS], read where BSB or BSC is set (R290). -/
def broadcast (l : Lane) : Act (Option Word64) := do
  if l.bsb = 1 ∨ l.bsc = 1 then
    let v ← readSB l.ss
    return some v
  else return none

/-- A vector source, unless the broadcast replaces it. -/
def useSrc (active : Word32) (used bc : Bool) (r : BitVec 11) (n : Nat) : Act Unit :=
  if used && !bc then useV active r n else pure ()

/-- The operands of an active lane as numbers, and the lane. -/
structure LaneIn where
  lane : Nat
  a : Nat
  b : Nat
  c : Nat
  old : Nat
  deriving DecidableEq, Repr

/-- How an instruction uses its vector fields: which sources it has, and which of them and of the destination are
register pairs; whether it reads the old destination. -/
structure Shape where
  a : Bool := false
  b : Bool := false
  c : Bool := false
  wideA : Bool := false
  wideB : Bool := false
  wideC : Bool := false
  wideD : Bool := false
  old : Bool := false

/-- R334, R295: every check of the operands, and the operands of every active lane, lowest lane first. -/
def laneGather (sh : Shape) (l : Lane) : Act (List LaneIn) := do
  let active ← activeOf l
  let _ ← checkMark (l.fs = 1)
  let bc ← broadcast l
  checkV active l.vd.toNat (spanOf sh.wideD)
  useSrc active sh.a false l.va (spanOf sh.wideA)
  useSrc active sh.b (l.bsb = 1) l.vb (spanOf sh.wideB)
  useSrc active sh.c (l.bsc = 1) l.vc (spanOf sh.wideC)
  if sh.old then checkVSoft active l.vd.toNat (spanOf sh.wideD) else pure ()
  let s ← get
  pure ((lanesOf active).map fun i =>
    { lane := i, a := s.g.lane l.va.toNat i sh.wideA
      b := laneVal s.g (if l.bsb = 1 then bc else none) l.vb sh.wideB i
      c := laneVal s.g (if l.bsc = 1 then bc else none) l.vc sh.wideC i
      old := s.g.lane l.vd.toNat i sh.wideD })

/-- R334, R200 to R202: the results of the lanes raise or set their flags, are written to the destination, and the
instruction retires. -/
def laneFinish (vd : Nat) (wide : Bool) (res : List (Nat × Fp Nat)) : Act Unit := do
  raiseFlags (res.map fun r => (r.1, r.2.fl))
  modify fun s => s.setLanes vd wide (res.map fun r => (r.1, r.2.val))
  retire 3

/-- R334: read every operand of every active lane, compute, and finish. -/
def laneMap (sh : Shape) (l : Lane) (f : State → LaneIn → Fp Nat) : Act Unit := do
  let ins ← laneGather sh l
  let s ← get
  laneFinish l.vd.toNat sh.wideD (ins.map fun i => (i.lane, f s i))

/-- Element e of a lane value (R172). -/
def elemAt (w e x : Nat) : Nat := bitsOf x (w * e) w

/-- A lane value from its elements, lowest first (R172). -/
def packElems (w : Nat) : List Nat → Nat
  | [] => 0
  | x :: rest => x % 2 ^ w + 2 ^ w * packElems w rest

/-- An operation on elements of a kind: rounder, SAT and the elements a, b and c. -/
abbrev ElemOp := ElemKind → Rounder → Bool → Nat → Nat → Nat → Fp Nat

/-- Combine the elements of a lane: values side by side, flags together (R173). -/
def combine (w : Nat) (rs : List (Fp Nat)) : Fp Nat :=
  { val := packElems w (rs.map (·.val)), fl := rs.foldl (fun a r => a.or r.fl) {} }

/-- R337: an operation on every element of a lane, with the rounder of each (R182). -/
def elemLane (op : ElemOp) (l : Lane) (s : State) (i : LaneIn) : Fp Nat :=
  let k := kindOf l.type.toNat
  combine k.width ((List.range (elemCount l.type.toNat)).map fun e =>
    op k (s.rounder l.rm.toNat 0 (4 * i.lane + e)) (l.sat = 1) (elemAt k.width e i.a) (elemAt k.width e i.b) (elemAt k.width e i.c))

/-- The fields of an element-wise row with `n` sources (R337). -/
def elemShape (n : Nat) (l : Lane) : Shape :=
  let wide := wideType l
  { a := true, b := decide (2 ≤ n), c := decide (3 ≤ n), wideA := wide, wideB := wide, wideC := wide, wideD := wide }

/-- R337: an element-wise row of Table 13-1 with `n` sources. -/
def elementwise (n : Nat) (op : ElemOp) (l : Lane) : Act Unit := laneMap (elemShape n l) l (elemLane op l)

/-! ## Element operations (R337 to R343) -/

/-- a + b. -/
def addOp : ElemOp := fun k r sat a b _ =>
  match k with
  | .int w sg => intResult w sg sat (intVal w sg a + intVal w sg b)
  | .fp f => f.arith r sat (sumVals (r.mode == 2) [f.value a, f.value b])

/-- a − b. -/
def subOp : ElemOp := fun k r sat a b _ =>
  match k with
  | .int w sg => intResult w sg sat (intVal w sg a - intVal w sg b)
  | .fp f => f.arith r sat (sumVals (r.mode == 2) [f.value a, (f.value b).negate])

/-- a × b. -/
def mulOp : ElemOp := fun k r sat a b _ =>
  match k with
  | .int w sg => intResult w sg sat (intVal w sg a * intVal w sg b)
  | .fp f => f.arith r sat (mulVal (f.value a) (f.value b))

/-- The upper half of the product (R339). -/
def mulhOp : ElemOp := fun k _ _ a b _ =>
  match k with
  | .int w sg => { val := (intVal w sg a * intVal w sg b / 2 ^ w % 2 ^ w).toNat }
  | .fp _ => { val := 0 }

/-- ±(a × b) ± c, rounded once (R338). -/
def fmaOp (negP negC : Bool) : ElemOp := fun k r sat a b c =>
  match k with
  | .int w sg =>
    let p := intVal w sg a * intVal w sg b
    let x := intVal w sg c
    intResult w sg sat ((if negP then -p else p) + (if negC then -x else x))
  | .fp f =>
    let p := mulVal (f.value a) (f.value b)
    let pv := if negP then p.val.negate else p.val
    let cv := if negC then (f.value c).negate else f.value c
    let t := sumVals (r.mode == 2) [pv, cv]
    f.arith r sat { val := t.val, fl := p.fl.or t.fl }

/-- Minimum and maximum (R188). -/
def minOp (mx : Bool) : ElemOp := fun k _ _ a b _ =>
  match k with
  | .int w sg => { val := if (decide (intVal w sg a < intVal w sg b)) != mx then a else b }
  | .fp f => f.arith rne false { val := minVal (f.value a) (f.value b) mx }

/-- |a| (R338, R339). -/
def absOp : ElemOp := fun k _ sat a _ _ =>
  match k with
  | .int w sg => intResult w sg sat (if sg then (intVal w sg a).natAbs else intVal w sg a)
  | .fp f => { val := a % 2 ^ (f.bits - 1) }

/-- −a (R338, R339). -/
def negOp : ElemOp := fun k _ sat a _ _ =>
  match k with
  | .int w sg => intResult w sg sat (-(intVal w sg a))
  | .fp f => { val := a ^^^ 2 ^ (f.bits - 1) }

/-- Shifts by b mod w (R337). -/
def shlOp : ElemOp := fun k _ _ a b _ => { val := a * 2 ^ (b % k.width) % 2 ^ k.width }
def shrOp : ElemOp := fun k _ _ a b _ => { val := a / 2 ^ (b % k.width) }
def sraOp : ElemOp := fun k _ _ a b _ =>
  { val := (intVal k.width true a / 2 ^ (b % k.width) % 2 ^ k.width).toNat }

/-- R340 Table 13-2: whether a condition holds. -/
def condHolds (cond : Nat) (k : ElemKind) (a b : Nat) : Bool :=
  let (c, unord) := match k with
    | .int w sg => (let d := intVal w sg a - intVal w sg b; (if d < 0 then (-1 : Int) else if d = 0 then 0 else 1), false)
    | .fp f => ((f.value a).cmp (f.value b), (f.value a).isNan || (f.value b).isNan)
  match cond with
  | 0 => !unord && c == 0
  | 1 => unord || c != 0
  | 2 => !unord && decide (c < 0)
  | 3 => !unord && decide (c ≤ 0)
  | 4 => !unord && decide (0 < c)
  | 5 => !unord && decide (0 ≤ c)
  | 6 => unord
  | _ => !unord

def cmpOp (cond : Nat) : ElemOp := fun k _ _ a b _ => { val := if condHolds cond k a b then 2 ^ k.width - 1 else 0 }

/-- a where c is not zero, else b (R337). -/
def selOp : ElemOp := fun _ _ _ a b c => { val := if c = 0 then b else a }

def popcOp : ElemOp := fun k _ _ a _ _ => { val := popCount k.width a }
def clzOp : ElemOp := fun k _ _ a _ _ => { val := leadingZeros k.width a }

/-- VRNDI (R342): rounded to an integral value in its own format. -/
def rndiOp : ElemOp := fun k r _ a _ _ =>
  match k with
  | .fp f =>
    match f.value a with
    | .fin neg m e => f.round rne false (.fin neg (roundInt r neg m e) 0)
    | v => f.arith rne false { val := v }
  | .int _ _ => { val := a }

/-- VCLASS (R342): the class code of an element. -/
def classOp : ElemOp := fun k _ _ a _ _ =>
  match k with
  | .fp f =>
    { val := match f.value a with
        | .nan _ => 8
        | .inf neg => if neg then 0 else 7
        | .fin neg m _ =>
          if m = 0 then (if neg then 3 else 4)
          else if m < 2 ^ f.mbits then (if neg then 2 else 5)
          else if neg then 1 else 6 }
  | .int _ _ => { val := 0 }

/-- R193: c + Σ a_e × b_e, exact and rounded once. -/
def dotVal (t : Nat) (r : Rounder) (sat : Bool) (a b c : Nat) : Fp Nat :=
  let k := kindOf t
  let w := k.width
  let es := List.range (elemCount t)
  match k with
  | .int _ sg =>
    let sum := es.foldl (fun x e => x + intVal w sg (elemAt w e a) * intVal w sg (elemAt w e b)) (intVal 32 sg c)
    intResult 32 sg sat sum
  | .fp f =>
    let ps := es.map fun e => mulVal (f.value (elemAt w e a)) (f.value (elemAt w e b))
    let t := sumVals (r.mode == 2) (fp32.value c :: ps.map (·.val))
    fp32.arith r sat { val := t.val, fl := ps.foldl (fun x p => x.or p.fl) t.fl }

/-- VDOT4 and VDOT2: a 32-bit result for each lane. -/
def dotLanes (l : Lane) : Act Unit :=
  laneMap { a := true, b := true, c := true } l fun s i =>
    dotVal l.type.toNat (s.rounder l.rm.toNat 0 (4 * i.lane)) (l.sat = 1) i.a i.b i.c

/-- A bitwise row: on the 32 register bits, or on the pair for a 64-bit TYPE (R337). -/
def bitwise (n : Nat) (f : Nat → Nat → Nat → Nat) (l : Lane) : Act Unit :=
  laneMap (elemShape n l) l fun _ i => { val := f (if wideType l then 2 ^ 64 else 2 ^ 32) i.a i.b }

/-- VCVT (R341): the elements of part `part` of the source or destination are converted; a widening conversion keeps
the other destination elements. -/
def cvtLanes (l : Lane) : Act Unit :=
  let t := l.type.toNat
  let src := l.imm.toNat % 16
  let part := l.imm.toNat / 16 % 4
  let ks := kindOf src
  let kd := kindOf t
  let ns := elemCount src
  let nd := elemCount t
  let narrow := decide (nd ≤ ns)
  laneMap { a := true, wideA := isWide src, wideD := isWide t, old := !narrow } l fun s i =>
    let conv (from' to' : Nat) : Fp Nat :=
      convert ks kd (s.rounder l.rm.toNat 0 (4 * i.lane + to')) (l.sat = 1) (elemAt ks.width from' i.a)
    if narrow then combine kd.width ((List.range nd).map fun e => conv (part * nd + e) e)
    else combine kd.width ((List.range nd).map fun e =>
      if part * ns ≤ e ∧ e < part * ns + ns then conv (e - part * ns) e else { val := elemAt kd.width e i.old })

/-- VEXPO (R342): the binary exponent as an i32. -/
def expoBits (a : Nat) : Nat :=
  match fp32.value a with
  | .fin neg m e => if m = 0 then 0x80000000 else (expoOf (.fin neg m e) % 2 ^ 32).toNat
  | _ => 0x7FFFFFFF

/-- The exponent of a scaling, cut to ±1024: beyond it every finite FP32 value over- or underflows alike. -/
def scalbStep (n : Int) : Int := max (-1024) (min 1024 n)

/-- VSCALB (R342): a × 2^n, rounded once. -/
def scalbBits (r : Rounder) (sat : Bool) (a n : Nat) : Fp Nat :=
  match fp32.value a with
  | .fin neg m e => fp32.round r sat (.fin neg m (e + scalbStep (signedOf 32 n)))
  | v => fp32.arith r false { val := v }

/-- VPACK (R343): byte k of the result is byte IMM13[3k + 2 : 3k] of the eight source bytes. -/
def packBytes (sel a b : Nat) : Nat :=
  let x := a + b * 2 ^ 32
  packElems 8 ((List.range 4).map fun k => bitsOf x (8 * bitsOf sel (3 * k) 3) 8)

/-- VBFX, VBFI (R343): pos and wid of a bit field, cut at bit 31. -/
def fieldPos (l : Lane) : Nat := l.imm.toNat % 32
def fieldLen (l : Lane) : Nat := min (l.imm.toNat / 32 % 32 + 1) (32 - fieldPos l)

/-- VADD (R337): a + b. -/
def execVadd (l : Lane) (s : State) : Host.Outcome State Fault Refusal := Act.outcome (elementwise 2 addOp l) s

/-- VSUB (R337): a − b. -/
def execVsub (l : Lane) (s : State) : Host.Outcome State Fault Refusal := Act.outcome (elementwise 2 subOp l) s

/-- VMUL (R337): a × b. -/
def execVmul (l : Lane) (s : State) : Host.Outcome State Fault Refusal := Act.outcome (elementwise 2 mulOp l) s

/-- VMULH (R337): the upper half of the product. -/
def execVmulh (l : Lane) (s : State) : Host.Outcome State Fault Refusal := Act.outcome (elementwise 2 mulhOp l) s

/-- VFMA (R337): a × b + c. -/
def execVfma (l : Lane) (s : State) : Host.Outcome State Fault Refusal := Act.outcome (elementwise 3 (fmaOp false false) l) s

/-- VFMS (R337): a × b − c. -/
def execVfms (l : Lane) (s : State) : Host.Outcome State Fault Refusal := Act.outcome (elementwise 3 (fmaOp false true) l) s

/-- VFNMA (R337): c − a × b. -/
def execVfnma (l : Lane) (s : State) : Host.Outcome State Fault Refusal := Act.outcome (elementwise 3 (fmaOp true false) l) s

/-- VMIN (R337, R188). -/
def execVmin (l : Lane) (s : State) : Host.Outcome State Fault Refusal := Act.outcome (elementwise 2 (minOp false) l) s

/-- VMAX (R337, R188). -/
def execVmax (l : Lane) (s : State) : Host.Outcome State Fault Refusal := Act.outcome (elementwise 2 (minOp true) l) s

/-- VABS (R337 to R339). -/
def execVabs (l : Lane) (s : State) : Host.Outcome State Fault Refusal := Act.outcome (elementwise 1 absOp l) s

/-- VNEG (R337 to R339). -/
def execVneg (l : Lane) (s : State) : Host.Outcome State Fault Refusal := Act.outcome (elementwise 1 negOp l) s

/-- VAND (R337). -/
def execVand (l : Lane) (s : State) : Host.Outcome State Fault Refusal := Act.outcome (bitwise 2 (fun _ a b => a &&& b) l) s

/-- VOR (R337). -/
def execVor (l : Lane) (s : State) : Host.Outcome State Fault Refusal := Act.outcome (bitwise 2 (fun _ a b => a ||| b) l) s

/-- VXOR (R337). -/
def execVxor (l : Lane) (s : State) : Host.Outcome State Fault Refusal := Act.outcome (bitwise 2 (fun _ a b => a ^^^ b) l) s

/-- VNOT (R337): the complement. -/
def execVnot (l : Lane) (s : State) : Host.Outcome State Fault Refusal := Act.outcome (bitwise 1 (fun m a _ => m - 1 - a) l) s

/-- VSHL (R337). -/
def execVshl (l : Lane) (s : State) : Host.Outcome State Fault Refusal := Act.outcome (elementwise 2 shlOp l) s

/-- VSHR (R337). -/
def execVshr (l : Lane) (s : State) : Host.Outcome State Fault Refusal := Act.outcome (elementwise 2 shrOp l) s

/-- VSRA (R337). -/
def execVsra (l : Lane) (s : State) : Host.Outcome State Fault Refusal := Act.outcome (elementwise 2 sraOp l) s

/-- VCMP (R340). -/
def execVcmp (l : Lane) (s : State) : Host.Outcome State Fault Refusal := Act.outcome (elementwise 2 (cmpOp (l.imm.toNat % 16)) l) s

/-- VSEL (R337): a where c ≠ 0, else b. -/
def execVsel (l : Lane) (s : State) : Host.Outcome State Fault Refusal := Act.outcome (elementwise 3 selOp l) s

/-- VMOV (R337): b. -/
def execVmov (l : Lane) (s : State) : Host.Outcome State Fault Refusal := Act.outcome (laneMap { b := true, wideB := wideType l, wideD := wideType l } l fun _ i => { val := i.b }) s

/-- VCVT (R341). -/
def execVcvt (l : Lane) (s : State) : Host.Outcome State Fault Refusal := Act.outcome (cvtLanes l) s

/-- VPOPC (R337). -/
def execVpopc (l : Lane) (s : State) : Host.Outcome State Fault Refusal := Act.outcome (elementwise 1 popcOp l) s

/-- VCLZ (R337): w for zero. -/
def execVclz (l : Lane) (s : State) : Host.Outcome State Fault Refusal := Act.outcome (elementwise 1 clzOp l) s

/-- VDOT4 (R193). -/
def execVdot4 (l : Lane) (s : State) : Host.Outcome State Fault Refusal := Act.outcome (dotLanes l) s

/-- VDOT2 (R193). -/
def execVdot2 (l : Lane) (s : State) : Host.Outcome State Fault Refusal := Act.outcome (dotLanes l) s

/-- VEXPO (R342). -/
def execVexpo (l : Lane) (s : State) : Host.Outcome State Fault Refusal := Act.outcome (laneMap { a := true } l fun _ i => { val := expoBits i.a }) s

/-- VSCALB (R342). -/
def execVscalb (l : Lane) (s : State) : Host.Outcome State Fault Refusal := Act.outcome (laneMap { a := true, b := true } l fun s i => scalbBits (s.rounder l.rm.toNat 0 (4 * i.lane)) (l.sat = 1) i.a i.b) s

/-- VRNDI (R342). -/
def execVrndi (l : Lane) (s : State) : Host.Outcome State Fault Refusal := Act.outcome (elementwise 1 rndiOp l) s

/-- VCLASS (R342). -/
def execVclass (l : Lane) (s : State) : Host.Outcome State Fault Refusal := Act.outcome (elementwise 1 classOp l) s

/-- VPACK (R343). -/
def execVpack (l : Lane) (s : State) : Host.Outcome State Fault Refusal := Act.outcome (laneMap { a := true, b := true } l fun _ i => { val := packBytes l.imm.toNat i.a i.b }) s

/-- VUNPK (R343): one element extended to 32 bits. -/
def execVunpk (l : Lane) (s : State) : Host.Outcome State Fault Refusal := Act.outcome (laneMap { a := true } l fun _ i => (match kindOf l.type.toNat with | .int w sg => intResult 32 sg false (intVal w sg (elemAt w (l.imm.toNat % 4) i.a)) | .fp _ => { val := 0 })) s

/-- VBFX (R343): a field, extended by TYPE. -/
def execVbfx (l : Lane) (s : State) : Host.Outcome State Fault Refusal := Act.outcome (laneMap { a := true } l fun _ i => intResult 32 true false (intVal (fieldLen l) (l.type == 0) (i.a / 2 ^ fieldPos l))) s

/-- VBFI (R343): the old destination with a field replaced. -/
def execVbfi (l : Lane) (s : State) : Host.Outcome State Fault Refusal := Act.outcome (laneMap { a := true, old := true } l fun _ i => { val := i.old - bitsOf i.old (fieldPos l) (fieldLen l) * 2 ^ fieldPos l + place i.a (fieldPos l) (fieldLen l) }) s

/-- VIDX (R337): b + ℓ modulo 2^32. -/
def execVidx (l : Lane) (s : State) : Host.Outcome State Fault Refusal := Act.outcome (laneMap { b := true } l fun _ i => { val := (i.b + i.lane) % 2 ^ 32 }) s

end Sys2Proof.Machine
end

