-- ==== Sys2Proof/Machine/CrossLane.lean ====
section
/-! DEFINITION. Cross-lane, vote, reduction, Haar, ordered-key and digit lane instructions (spec/13 R344 to
R354; spec/07 R191, R192; spec/10 R276). -/

namespace Sys2Proof.Machine

/-! ## Exchanges (R345, R276) -/

/-- R276: what a source lane supplies: its register while it is live, zero once it has exited or if it was never
launched. -/
def Group.srcLane (g : Group) (r l : Nat) (wide : Bool) : Nat := if g.exited.getLsbD l then 0 else g.lane r l wide

/-- R345: the source lane of VSHFL; `b` is the lane's index operand. -/
def shuffleSrc (mode n b l : Nat) : Nat :=
  match mode with
  | 0 => b % 32
  | 1 => if n ≤ l then l - n else l
  | 2 => if l + n ≤ 31 then l + n else l
  | _ => l ^^^ n % 32

/-- R206: a soft error in a register of a live source lane. -/
def checkSrcLanes (active : Word32) (srcs : List Nat) (r n : Nat) : Act Unit := do
  let s ← get
  if s.soft.isEmpty then pure ()
  else
    let bad := srcs.filter fun l => !s.g.exited.getLsbD l && (List.range n).any fun i => s.isSoft (.vreg s.g.id (r + i) l)
    if bad.isEmpty then pure () else trapAt { cause := cECC, sub := 1 } 0 active 0

/-- VSHFL and VBCAST: each active lane takes its source lane's register. -/
def exchange (l : Lane) (idx : Bool) (src : Nat → Nat → Nat) : Act Unit := do
  let active ← activeOf l
  let _ ← checkMark (l.fs = 1)
  let bc ← broadcast l
  let wide := wideType l
  checkV active l.vd.toNat (spanOf wide)
  checkV active l.va.toNat (spanOf wide)
  useSrc active idx (l.bsb = 1) l.vb 1
  let s ← get
  let pairs := (lanesOf active).map fun i => (i, src (laneVal s.g (if l.bsb = 1 then bc else none) l.vb false i) i)
  checkSrcLanes active (pairs.map Prod.snd) l.va.toNat (spanOf wide)
  modify fun s' => s'.setLanes l.vd.toNat wide (pairs.map fun p => (p.1, s.g.srcLane l.va.toNat p.2 wide))
  retire 3

/-- VSHFL (R345). -/
def execVshfl (l : Lane) (s : State) : Host.Outcome State Fault Refusal :=
  Act.outcome (exchange l (l.imm.toNat % 8 == 0) fun b i => shuffleSrc (l.imm.toNat % 8) (l.imm.toNat / 8 % 32) b i) s

/-- VBCAST (R345). -/
def execVbcast (l : Lane) (s : State) : Host.Outcome State Fault Refusal :=
  Act.outcome (exchange l false fun _ _ => l.imm.toNat % 32) s

/-! ## Votes and masks (R346, R347) -/

/-- The active lanes and the 32-bit values they hold in V[VA]. -/
def voters (l : Lane) : Act (Word32 × List (Nat × Word32)) := do
  let active ← activeOf l
  let _ ← checkMark (l.fs = 1)
  useV active l.va 1
  let s ← get
  return (active, (lanesOf active).map fun i => (i, s.g.vreg l.va.toNat i))

/-- The lanes of a list whose value is not zero. -/
def trueLanes (vs : List (Nat × Word32)) : Word32 := maskOf ((vs.filter fun p => p.2 != 0).map Prod.fst)

def ballot (l : Lane) : Act Unit := do
  let (_, vs) ← voters l
  modify fun s => s.setM l.vd.toNat (trueLanes vs)
  retire 3

/-- VBALLOT (R346). -/
def execVballot (l : Lane) (s : State) : Host.Outcome State Fault Refusal := Act.outcome (ballot l) s

/-- R346: the vote of a mode. -/
def voteOf (mode : Nat) (vs : List Word32) : Bool :=
  match mode with
  | 0 => vs.any (· != 0)
  | 1 => vs.all (· != 0)
  | _ => vs.all (· == vs.headD 0)

def vote (l : Lane) : Act Unit := do
  let (_, vs) ← voters l
  writeRetire (l.vd.extractLsb' 0 7) (flag 64 (voteOf (l.imm.toNat % 4) (vs.map Prod.snd))) 3

/-- VVOTE (R346). -/
def execVvote (l : Lane) (s : State) : Host.Outcome State Fault Refusal := Act.outcome (vote l) s

def elect (l : Lane) : Act Unit := do
  let active ← activeOf l
  let _ ← checkMark (l.fs = 1)
  writeRetire (l.vd.extractLsb' 0 7) (BitVec.ofNat 64 ((lanesOf active).headD 32)) 3

/-- VELECT (R346): the lowest active lane, or 32. -/
def execVelect (l : Lane) (s : State) : Host.Outcome State Fault Refusal := Act.outcome (elect l) s

def maskOps (l : Lane) : Act Unit := do
  let mode := l.imm.toNat % 8
  if mode = 0 then
    let (active, vs) ← voters l
    let old ← readM l.vd.toNat
    modify fun s => s.setM l.vd.toNat ((old &&& ~~~active) ||| trueLanes vs)
  else if mode = 1 then
    let active ← activeOf l
    let _ ← checkMark (l.fs = 1)
    checkV active l.vd.toNat 1
    let m ← readM l.va.toNat
    modify fun s => s.setLanes l.vd.toNat false ((lanesOf active).map fun i => (i, (m.getLsbD i).toNat))
  else
    let _ ← checkMark (l.fs = 1)
    let a ← readM l.va.toNat
    let b ← readM l.vb.toNat
    modify fun s => s.setM l.vd.toNat (match mode with | 2 => a &&& b | 3 => a ||| b | 4 => a ^^^ b | _ => a &&& ~~~b)
  retire 3

/-- VMSK (R347). -/
def execVmsk (l : Lane) (s : State) : Host.Outcome State Fault Refusal := Act.outcome (maskOps l) s

/-! ## Reductions and scans (R348, R191, R192) -/

/-- The operation of VRED and VSCAN that IMM13 [2:0] names. -/
def reduceOp (op : Nat) : ElemOp :=
  match op with
  | 0 => addOp
  | 1 => minOp false
  | 2 => minOp true
  | 3 => fun _ _ _ a b _ => { val := a &&& b }
  | 4 => fun _ _ _ a b _ => { val := a ||| b }
  | _ => fun _ _ _ a b _ => { val := a ^^^ b }

/-- The identity of an operation (R191). -/
def identityOf (op : Nat) (k : ElemKind) : Nat :=
  match k with
  | .fp f =>
    let big (neg : Bool) : Nat := if f.hasInf then f.infBits neg else f.encode neg f.maxM f.maxE
    match op with
    | 1 => big false
    | 2 => big true
    | _ => 0
  | .int w sg =>
    match op with
    | 1 => if sg then 2 ^ (w - 1) - 1 else 2 ^ w - 1
    | 2 => if sg then 2 ^ (w - 1) else 0
    | 3 => 2 ^ w - 1
    | _ => 0

/-- Two optional values combined: an absent one leaves the other unchanged (R191, R192). -/
def combineOpt (f : Nat → Nat → Fp Nat) (a b : Option (Fp Nat)) : Option (Fp Nat) :=
  match a, b with
  | some x, some y => (let r := f x.val y.val; some { val := r.val, fl := (x.fl.or y.fl).or r.fl })
  | some x, none => some x
  | none, y => y

/-- One level of the tree of R191: nodes 2i and 2i + 1 give node i. -/
def treeLevel (f : Nat → Nat → Nat → Fp Nat) (i : Nat) : List (Option (Fp Nat)) → List (Option (Fp Nat))
  | a :: b :: rest => combineOpt (f i) a b :: treeLevel f (i + 1) rest
  | xs => xs

/-- A value with the NaN mark of its own bits (R201, R348). -/
def markNan (k : ElemKind) (x : Fp Nat) : Fp Nat :=
  match k with
  | .fp f => { x with fl := { x.fl with nan := (f.value x.val).isNan } }
  | .int _ _ => x

/-- R191: the reduction of an element position over 32 optional lane values; level L of the tree draws with src L
and the lowest lane of the node's subtree (R182). -/
def reduceTree (s : State) (l : Lane) (k : ElemKind) (e : Nat) (xs : List (Option (Fp Nat))) : Fp Nat :=
  let op := reduceOp (l.imm.toNat % 8)
  let root := ((List.range 5).foldl (fun ys n =>
    treeLevel (fun i a b => op k (s.rounder l.rm.toNat (n + 1) (4 * (i * 2 ^ (n + 1)) + e)) (l.sat = 1) a b 0) 0 ys) xs).headD none
  markNan k (root.getD { val := identityOf (l.imm.toNat % 8) k })

/-- R348: how VRED's result becomes 64 bits. -/
def reduceResult (t x : Nat) : Word64 :=
  if t = 0 then (BitVec.ofNat 32 x).signExtend 64 else if isWide t then BitVec.ofNat 64 x else BitVec.ofNat 64 (x % 2 ^ 32)

/-- The element values of the active lanes at one element position; absent for the others. -/
def laneElems (s : State) (active : Word32) (l : Lane) (k : ElemKind) (e : Nat) : List (Option (Fp Nat)) :=
  (List.range 32).map fun i =>
    if active.getLsbD i then some { val := elemAt k.width e (s.g.lane l.va.toNat i (wideType l)) } else none

def reduce (l : Lane) : Act Unit := do
  let active ← activeOf l
  let _ ← checkMark (l.fs = 1)
  useV active l.va (spanOf (wideType l))
  let s ← get
  let t := l.type.toNat
  let k := kindOf t
  let r := combine k.width ((List.range (elemCount t)).map fun e => reduceTree s l k e (laneElems s active l k e))
  raiseFlags (if active = 0 then [(0, r.fl)] else (lanesOf active).map fun i => (i, r.fl))
  writeRetire (l.vd.extractLsb' 0 7) (reduceResult t r.val) 3

/-- VRED (R191, R348). -/
def execVred (l : Lane) (s : State) : Host.Outcome State Fault Refusal := Act.outcome (reduce l) s

/-- R192: the inclusive prefixes of an element position. A step whose result reaches only lanes that receive no result sets no flag (DESIGN
CHOICE, log entry 79). -/
def scanSteps (s : State) (l : Lane) (k : ElemKind) (e : Nat) (xs : List (Option (Fp Nat))) : List (Option (Fp Nat)) :=
  let op := reduceOp (l.imm.toNat % 8)
  (List.range 5).foldl (fun ys n =>
    let d := 2 ^ n
    (List.range 32).map fun i =>
      if i < d then ys.getD i none
      else combineOpt (fun a b => op k (s.rounder l.rm.toNat (n + 1) (4 * i + e)) (l.sat = 1) a b 0) (ys.getD (i - d) none) (ys.getD i none)) xs

def scan (l : Lane) : Act Unit := do
  let active ← activeOf l
  let _ ← checkMark (l.fs = 1)
  let wide := wideType l
  checkV active l.vd.toNat (spanOf wide)
  useV active l.va (spanOf wide)
  let s ← get
  let t := l.type.toNat
  let k := kindOf t
  let cols := (List.range (elemCount t)).map fun e => scanSteps s l k e (laneElems s active l k e)
  let res := (lanesOf active).map fun i =>
    (i, combine k.width (cols.map fun c => markNan k ((c.getD i none).getD { val := 0 })))
  laneFinish l.vd.toNat wide res

/-- VSCAN (R192, R348). -/
def execVscan (l : Lane) (s : State) : Host.Outcome State Fault Refusal := Act.outcome (scan l) s

/-! ## Haar, ordered-key and digit instructions (R349 to R354) -/

/-- Half of an exact value. -/
def halve (v : Val) : Val := match v with | .fin neg m e => .fin neg m (e - 1) | v => v

/-- R351: one forward lifting step: the rounded approximation and detail. -/
def haarStep (x0 x1 : Nat) : Fp Nat × Fp Nat :=
  let dd := fp32.arith rne false (sumVals false [fp32.value x1, (fp32.value x0).negate])
  let ap := fp32.arith rne false (sumVals false [fp32.value x0, halve (fp32.value dd.val)])
  (ap, dd)

/-- R351: the inverse step. -/
def ihaarStep (a dd : Nat) : Fp Nat × Fp Nat :=
  let x0 := fp32.arith rne false (sumVals false [fp32.value a, (halve (fp32.value dd)).negate])
  let x1 := fp32.arith rne false (sumVals false [fp32.value x0.val, fp32.value dd])
  (x0, x1)

/-- VHAAR and VIHAAR: two results of an active lane into VD and VD + 1. -/
def haarLanes (f : Nat → Nat → Fp Nat × Fp Nat) (l : Lane) : Act Unit :=
  laneMap { a := true, b := true, wideD := true } l fun _ i =>
    let (x, y) := f i.a i.b
    { val := x.val + y.val * 2 ^ 32, fl := x.fl.or y.fl }

/-- VHAAR (R351). -/
def execVhaar (l : Lane) (s : State) : Host.Outcome State Fault Refusal := Act.outcome (haarLanes haarStep l) s

/-- VIHAAR (R351). -/
def execVihaar (l : Lane) (s : State) : Host.Outcome State Fault Refusal := Act.outcome (haarLanes ihaarStep l) s

/-- R352: +0 where |a| < h, else a; a NaN is kept. -/
def threshold (h a : Nat) : Nat :=
  let v := fp32.value a
  let t := fp32.value h
  if !v.isNan && !t.isNan && decide (v.abs.cmp t < 0) then 0 else a

/-- VTHR (R352), the apply form. -/
def execVthr (l : Lane) (s : State) : Host.Outcome State Fault Refusal :=
  Act.outcome (laneMap { a := true } l fun s i => { val := threshold (s.g.hregs.get (l.vb.toNat % 8)).toNat i.a }) s

def setThreshold (l : Lane) : Act Unit := do
  let _ ← checkMark (l.fs = 1)
  let v ← readSB l.ss
  modify fun s => { s with g := { s.g with hregs := s.g.hregs.set (l.vd.toNat % 8) (v.setWidth 32) } }
  retire 3

/-- VTHR, the set form (R352). -/
def execVthrSet (l : Lane) (s : State) : Host.Outcome State Fault Refusal := Act.outcome (setThreshold l) s

/-- R353: the ordered key of an element. -/
def orderKey (k : ElemKind) (desc : Bool) (x : Nat) : Nat :=
  let w := k.width
  let top := 2 ^ (w - 1)
  let key := match k with
    | .fp _ => if top ≤ x then 2 ^ w - 1 - x else x + top
    | .int _ sg => if sg then x ^^^ top else x
  if desc then 2 ^ w - 1 - key else key

/-- VOKEY (R353). -/
def execVokey (l : Lane) (s : State) : Host.Outcome State Fault Refusal :=
  Act.outcome (elementwise 1 (fun k _ _ a _ _ => { val := orderKey k (l.imm.getLsbD 0) a }) l) s

/-- R354: the digit of a key, or all ones where the prefix differs. -/
def digitOf (pos wid : Nat) (pfx : Bool) (a b : Nat) : Nat :=
  let p := if pos + wid < 32 then a / 2 ^ (pos + wid) else 0
  if pfx && p != b then 0xFFFFFFFF else a / 2 ^ pos % 2 ^ wid

/-- VDIGIT (R354). -/
def execVdigit (l : Lane) (s : State) : Host.Outcome State Fault Refusal :=
  Act.outcome (laneMap { a := true, b := l.imm.getLsbD 9 } l fun _ i =>
    { val := digitOf (l.imm.toNat % 32) (l.imm.toNat / 32 % 16 + 1) (l.imm.getLsbD 9) i.a i.b }) s

end Sys2Proof.Machine
end

