-- ==== Sys2Proof/Machine/Order.lean ====
section
/-! DEFINITION. Deterministic mode (spec/08 R227 to R231): keys of order-visible events, effective keys of the
node's paths and commands, and the clocks with which waits retire. -/

namespace Sys2Proof.Machine

/-- The key of an order-visible event (R228). -/
structure Key where
  clock : Nat
  g : Nat
  lane : Nat
  sub : Nat
  deriving DecidableEq, Repr

/-- Keys compare field by field (R228). -/
def Key.lt (a b : Key) : Bool :=
  decide (a.clock < b.clock) || (a.clock == b.clock && (decide (a.g < b.g) || (a.g == b.g &&
    (decide (a.lane < b.lane) || (a.lane == b.lane && decide (a.sub < b.sub))))))

/-- The paths of a node in live slots: group, slot and path. -/
def State.nodePaths (s : State) (node : Nat) : List (Group × Bool × Path) :=
  (s.groups.filter fun g => g.id.node == node).flatMap fun g =>
    ((g.slot0.map fun p => (g, false, p)).toList ++ (g.slot1.map fun p => (g, true, p)).toList)

/-- The clocks, groups and lowest lanes of a node's paths on the divergence stack (R210): they count with the clocks of their
entries (DEDUCED, log entry 14). -/
def State.stackedKeys (s : State) (node : Nat) : List Key :=
  (s.groups.filter fun g => g.id.node == node).flatMap fun g =>
    (g.stack.filter fun e => e.mask != 0).map fun e => ⟨e.clock.toNat, g.gidx, lowLane e.mask, 0⟩

/-- The arrival clocks of a barrier (R230). -/
def State.arrival (s : State) (win home off : Nat) : Arrival :=
  (s.arrivals.find? fun a => a.win == win && a.home == home && a.off == off).getD ⟨win, home, off, 0, 0, true⟩

def State.setArrival (s : State) (a : Arrival) : State :=
  { s with arrivals := a :: s.arrivals.filter fun x => !(x.win == a.win && x.home == a.home && x.off == a.off) }

/-- The larger of two clocks. -/
def maxClock (a b : Word64) : Word64 := if a.toNat < b.toNat then b else a

/-- The largest issuing clock of the commands numbered `num` or below of a context (R230). -/
def Workgroup.issueClock (w : Workgroup) (ctx : Ctx) (num : Word64) : Word64 :=
  (w.issueClocks.filter fun c => c.1 == ctx && decide (c.2.1 ≤ num.toNat)).foldl (fun m c => maxClock m c.2.2) 0

/-! ## Tiles that a clause names (R77, R250) -/

/-- The tile endpoints of a copy command or of XRED: DT and ST (Table 16-2, R425). -/
def endTiles (dst : Bool) (l : Lane) : List (BitVec 11) :=
  (if dst && l.imm.getLsbD 1 then [l.vd] else []) ++ if l.imm.getLsbD 2 then [l.va] else []

/-- The tiles that an instruction names (R77). -/
def tilesOf (i : Instr) : List (BitVec 11) :=
  match i with
  | .tdef l => [l.vd]
  | .tfree l => [l.vd]
  | .tstate l => [l.va]
  | .trd l => [l.va]
  | .twr l => [l.vd]
  | .htwr l => [l.vd]
  | .hrec l => [l.vd]
  | .mfill l => [l.va]
  | .maccrd l => [l.vd]
  | .kvapp l => [l.vb, l.vc]
  | .attn l => [l.vd, l.va, l.vb]
  | .asel l => [l.va]
  | .xcopy l => endTiles true l
  | .xgath l => endTiles true l
  | .xwin l => endTiles true l
  | .xform l =>
    (if l.imm.getLsbD 6 then [] else [l.vd]) ++ (if l.imm.getLsbD 5 then [] else [l.va])
      ++ if l.imm.toNat % 32 = 2 ∨ l.imm.toNat % 32 = 3 ∨ l.imm.toNat % 32 = 4 then [l.vb] else []
  | .xput l => endTiles false l
  | .xred l => endTiles false l
  | .spsend l => [l.va]
  | .sprecv l => [l.va]
  | _ => []

/-- The tiles that the instructions of a list of body words name; a word that is no instruction ends the list. -/
def tilesNamed (ws : List Word32) (fuel : Nat) : List (BitVec 11) :=
  match fuel with
  | 0 => []
  | fuel + 1 =>
    match ws with
    | [] => []
    | _ =>
      match decode ws with
      | .ok (i, n) => tilesOf i ++ tilesNamed (ws.drop n) fuel
      | .error _ => []

/-- The tiles named by what is left of a path's clause. -/
def Path.tiles (p : Path) : List (BitVec 11) :=
  tilesNamed (((p.clause.getD []).take (bodyLen p.header + 1)).drop (max 1 p.off)) 32

/-- R230 Table 8-6: the largest issuing clock of the commands that hold a tile of the path's clause. -/
def Workgroup.tileClock (w : Workgroup) (p : Path) : Word64 :=
  let held := w.cmds.filter fun c => !c.finished && !c.gens.isEmpty
  if held.isEmpty then 0
  else
    let ts := p.tiles
    (held.filter fun c => c.gens.any fun g => ts.any fun t => t.toNat == g.1).foldl (fun m c => maxClock m c.clock) 0

/-- The value of a list keyed by context; zero where none is listed. -/
def ctxGet (xs : List (Ctx × Word64)) (c : Ctx) : Word64 := ((xs.find? fun x => x.1 == c).map Prod.snd).getD 0

def ctxSet (xs : List (Ctx × Word64)) (c : Ctx) (v : Word64) : List (Ctx × Word64) := (c, v) :: xs.filter fun x => x.1 != c

/-- R230 Table 8-6: the part of a path's floor that needs no other path, whether m joins it, and what is added. A channel's wait
ends from outside the node: its two ends are an A-die and an F-die (R253), and the CLASS of a node puts all its groups on one kind. A
switched-out group keeps the floors it was saved with. -/
def State.floorParts (s : State) (g : Group) (p : Path) : Nat × Bool × Nat :=
  match p.floor, p.wait with
  | some n, _ => (n, false, 0)
  | none, none =>
    let going := s.granted && s.g.id == g.id && p == s.path
    ((if going then p.clock else maxClock p.clock (((s.wg? (wgOf g.id)).map fun w => w.tileClock p).getD 0)).toNat, false, 0)
  | none, some w =>
    match w.on with
    | .timeline ctx num =>
      match s.wg? (wgOf g.id) with
      | none => (p.clock.toNat, false, 0)
      | some wg => ((maxClock p.clock (wg.issueClock ctx num)).toNat, decide ((ctxGet wg.issued ctx).toNat < num.toNat), 0)
    | .barrier win home off _ _ =>
      let a := s.arrival win home off
      ((maxClock p.clock a.now).toNat, a.more, 1)
    | .monitor _ => (p.clock.toNat, false, 1)
    | .queue _ => (p.clock.toNat, true, 1)
    | .claim _ _ => (p.clock.toNat, true, 1)
    | .channel _ => (p.clock.toNat, false, 1)
    | .nodeDone _ => (p.clock.toNat, false, 0)
    | .walker => (p.clock.toNat, false, 0)
    | .firstTouch => (p.clock.toNat, false, 0)
    | .order => (p.clock.toNat, false, 0)

/-- The least of a list of clocks; none for no clock. -/
def leastOf (xs : List Nat) : Option Nat := xs.foldl (fun m x => some (match m with | none => x | some y => min x y)) none

/-- R229, R230: each path of a node in a live slot with its effective clock. A floor that follows m follows the least
clock of the paths whose floors do not, those on the stack among them; with no such path it is above every key. -/
def State.effective (s : State) (node : Nat) : List (Group × Bool × Path × Option Nat) :=
  let ps := (s.nodePaths node).map fun (g, slot, p) => (g, slot, p, s.floorParts g p)
  let m := leastOf (((ps.filter fun x => !x.2.2.2.2.1).map fun x => x.2.2.2.1 + x.2.2.2.2.2) ++ (s.stackedKeys node).map Key.clock)
  ps.map fun (g, slot, p, c, needM, plus) =>
    (g, slot, p, if needM then m.map fun m => max c m + plus else some (c + plus))

/-- m of Table 8-6: the least effective clock among the node's other paths. -/
def State.leastOther (s : State) : Option Nat :=
  leastOf (((s.effective s.g.id.node).filterMap fun (g, slot, _, c) => if g.id == s.g.id && slot == s.slot then none else c)
    ++ (s.stackedKeys s.g.id.node).map Key.clock)

/-- Every group of a workgroup has exited. -/
def State.allExited (s : State) (w : WgId) : Bool := (s.groups.filter fun g => wgOf g.id == w).all fun g => g.exited == 0xFFFFFFFF

/-- R124: the device would itself record a fault of a command in flight, none of whose groups is left. -/
def State.owesRecord (s : State) (c : Command) : Bool := s.allExited c.id.wg

/-- R124, R229: a command in flight may still come to a fault record of its own: it runs, or no group is left to take its trap. One that
is stopped for a group's handler does not hold back what that handler posts (DEDUCED, log entry 14). -/
def State.mayRecord (s : State) (c : Command) : Bool := !c.stopped || s.allExited c.id.wg

/-- Whether a command in flight has order-visible events still to perform (Table 8-5): those of its context, or a fault record
that the device is to write for it. -/
def State.hasEvents (s : State) (c : Command) : Bool :=
  s.owesRecord c || match c.id.ctx with
  | .attn => true
  | .sel => true
  | .dem => true
  | _ => false

/-- The key of a command's events but for the position within it (R228). -/
def Command.key (c : Command) (sub : Nat) : Key := ⟨c.clock.toNat, c.gidx, lowLane c.lmask, sub⟩

/-- R229: every other path and every other command of the node is above a key; `me` is the path that makes the
event, `cmd` the command. -/
def State.isLowest (s : State) (node : Nat) (k : Key) (me : Option (GroupId × Bool)) (cmd : Option CmdId) : Bool :=
  ((s.effective node).all fun (g, slot, p, c) =>
      me == some (g.id, slot) || match c with
        | none => true
        | some c => k.lt ⟨c, g.gidx, lowLane p.mask, 0⟩)
    && (s.stackedKeys node).all (fun e => k.lt e)
    && (s.wgs.filter fun w => w.id.node == node).all fun w => w.cmds.all fun c =>
      !s.hasEvents c || c.finished || cmd == some c.id || k.lt (c.key (if s.owesRecord c then 2 ^ 32 else 0))

/-- R229, R135: as `isLowest`, for a post to the fault ring: every other command of the node that may yet come to a record is above
the key. -/
def State.isLowestPost (s : State) (node : Nat) (k : Key) (me : Option (GroupId × Bool)) (cmd : Option CmdId) : Bool :=
  s.isLowest node k me cmd && (s.wgs.filter fun w => w.id.node == node).all fun w => w.cmds.all fun c =>
    c.finished || cmd == some c.id || !s.mayRecord c || k.lt (c.key (2 ^ 32))

/-- The event of an instruction may be performed: FRPOST posts to the fault ring. -/
def State.lowestFor (s : State) (i : Instr) (node : Nat) (k : Key) (me : Option (GroupId × Bool)) : Bool :=
  match i with
  | .frpost _ => s.isLowestPost node k me none
  | _ => s.isLowest node k me none

/-- The key of the current path's instruction (R228). -/
def State.key (s : State) : Key := ⟨s.path.clock.toNat, s.g.gidx, lowLane s.path.mask, 0⟩

/-- R229: an order-visible instruction of a deterministic node waits until its key is the lowest. -/
def orderGate (i : Instr) (words : Nat) : Act Unit := do
  let s ← get
  if s.g.det && !s.lowestFor i s.g.id.node s.key (some (s.g.id, s.slot)) then
    throw (.park { instr := i, words := words, on := .order, vals := [] })
  else pure ()

/-- R229: a command's event may be performed now. -/
def State.eventFree (s : State) (c : Command) (sub : Nat) : Bool :=
  match s.group? c.group with
  | none => true
  | some g => !g.det || s.isLowest c.group.node (c.key sub) none (some c.id)

/-- R229: a command's fault record may be written now. -/
def State.recordFree (s : State) (c : Command) : Bool :=
  match s.group? c.group with
  | none => true
  | some g => !g.det || s.isLowestPost c.group.node (c.key (2 ^ 32)) none (some c.id)

/-- R230: the clock with which a wait retires: above the clocks given in deterministic mode, c + 1 outside it. -/
def State.waitClock (s : State) (above : Word64) : Word64 :=
  let p := s.path
  if s.g.det then maxClock p.clock above + 1 else p.clock + 1

/-- Retire a wait of the blocking kind (Table 8-6, rows 4 and 5); its mark goes (R283). -/
def retireWait (n : Nat) : Act Unit := do
  let s ← get
  let ender := match s.path.wait with | some w => w.vals.headD 0 | none => 0
  modify fun s => s.endWait.retireAt n (s.waitClock ender)

end Sys2Proof.Machine
end

