-- ==== Sys2Proof/Machine/LaneMemory.lean ====
section
/-! DEFINITION. Lane loads, stores, atomics, histograms and prefetches (spec/13 R355 to R361; spec/03 R87 to
R89). -/

namespace Sys2Proof.Machine

/-- The element index each active lane supplies (R20): its register, or the 64-bit S[SS]. -/
def wantsOf (s : State) (l : Lane) (active : Word32) (bc : Option Word64) : List Want :=
  (lanesOf active).map fun i => ⟨i, match (if l.bsb = 1 then bc else none) with
    | some v => v.toNat
    | none => (s.g.vreg l.vb.toNat i).toNat⟩

/-- The record VA names and whether it is the private record (R33). -/
def recordOf (l : Lane) : Act Rec := do
  let b ← readB (l.va.toNat % 32)
  let s ← get
  return s.g.recIn (l.va.toNat % 32) b

/-- R96, R99: a release part: an annotated access follows every earlier store of its path, performed (R59), whether or not a
lane of it is active and in bounds. -/
def releasePart (ord : BitVec 2) : Act Unit := if ord.getLsbD 1 then awaitPerformed else pure ()

/-- Registers that an element of 2^esz bytes occupies (R356). -/
def regsOf (esz : Nat) : Nat := max 1 (2 ^ esz / 4)

/-- The bytes of an element from its registers, or from the 64-bit broadcast (R356). -/
def storeBytes (s : State) (l : Lane) (bc : Option Word64) (esz lane : Nat) : List Byte :=
  match (if l.bsc = 1 then bc else none) with
  | some v => bytesOf (2 ^ esz) v.toNat
  | none => ((List.range (regsOf esz)).flatMap fun i => bytesOf 4 (s.g.vreg (l.vc.toNat + i) lane).toNat).take (2 ^ esz)

/-- R356: the registers of a lane take a loaded element. -/
def State.loadRegs (s : State) (vd lane esz : Nat) (signed : Bool) (x : Nat) : State :=
  if esz < 2 then
    s.setV vd lane (if signed then (BitVec.ofInt 32 (signedOf (8 * 2 ^ esz) x)) else BitVec.ofNat 32 x)
  else (List.range (regsOf esz)).foldl (fun s i => s.setV (vd + i) lane (BitVec.ofNat 32 (x / 2 ^ (32 * i)))) s

/-- R59, R284: the mark of a store that some member does not take is withdrawn with its fault. -/
def markOf (es : List Elem) (mark : Option Nat) : Option Nat := if es.any fun e => e.lost.isSome then none else mark

/-- VLD and its window forms (R356): an out-of-bounds element loads zero. -/
def laneLoad (win : Nat) (l : Lane) : Act Unit := do
  let active ← activeOf l
  let _ ← checkMark (l.fs = 1)
  let bc ← broadcast l
  let r ← recordOf l
  checkV active l.vd.toNat (regsOf r.esz)
  useSrc active true (l.bsb = 1) l.vb 1
  let s ← get
  let es ← resolve { win := win, n := 2 ^ r.esz, kind := 0, annot := l.ord != 0, priv := win == 0 && l.va == 31 } r (wantsOf s l active bc)
  clamp win l.scope.toNat !es.isEmpty
  let s ← get
  let loads := (lanesOf active).map fun i => (i, match es.find? fun e => e.lane == i with
    | some e => s.elemNum win e
    | none => 0)
  modify fun s => loads.foldl (fun s p => s.loadRegs l.vd.toNat p.1 r.esz (l.type == 0) p.2) s
  retire 3

/-- VST and its window forms (R356, R89): an out-of-bounds element stores nothing. -/
def laneStore (win : Nat) (l : Lane) : Act Unit := do
  let active ← activeOf l
  let mark ← checkMark (l.fs = 1)
  let bc ← broadcast l
  let r ← recordOf l
  useSrc active true (l.bsb = 1) l.vb 1
  useSrc active true (l.bsc = 1) l.vc (regsOf r.esz)
  releasePart l.ord
  let s ← get
  let es ← resolve { win := win, n := 2 ^ r.esz, kind := 1, annot := l.ord != 0, priv := win == 0 && l.va == 31 } r (wantsOf s l active bc)
  clamp win l.scope.toNat !es.isEmpty
  modify fun s => s.storeElems win (es.map fun e => (e, storeBytes s l bc r.esz e.lane)) (markOf es mark)
  if win = 0 then storeLost es
  retireWork 3

/-- VLD (R356). -/
def execVld (l : Lane) (s : State) : Host.Outcome State Fault Refusal := Act.outcome (laneLoad 0 l) s
/-- VST (R356). -/
def execVst (l : Lane) (s : State) : Host.Outcome State Fault Refusal := Act.outcome (laneStore 0 l) s
/-- VLDSP (R356). -/
def execVldsp (l : Lane) (s : State) : Host.Outcome State Fault Refusal := Act.outcome (laneLoad 1 l) s
/-- VSTSP (R356). -/
def execVstsp (l : Lane) (s : State) : Host.Outcome State Fault Refusal := Act.outcome (laneStore 1 l) s
/-- VLDQM (R356). -/
def execVldqm (l : Lane) (s : State) : Host.Outcome State Fault Refusal := Act.outcome (laneLoad 2 l) s
/-- VSTQM (R356). -/
def execVstqm (l : Lane) (s : State) : Host.Outcome State Fault Refusal := Act.outcome (laneStore 2 l) s
/-- VLDDS (R356). -/
def execVldds (l : Lane) (s : State) : Host.Outcome State Fault Refusal := Act.outcome (laneLoad 3 l) s
/-- VSTDS (R356). -/
def execVstds (l : Lane) (s : State) : Host.Outcome State Fault Refusal := Act.outcome (laneStore 3 l) s

/-! ## Atomics (R87, R88, R358, R359) -/

/-- R88 Table 3-9: one step on a word `w` of `width` bits with operand x and compare value c. -/
def atomicStep (op type width w x c : Nat) : Fp Nat :=
  let k : ElemKind := if type = 2 ∨ type = 3 then kindOf type else .int width (type == 0 || type == 11)
  let lanes := if type = 3 then [0, 1] else [0]
  let each (f : Nat → Nat → Fp Nat) : Fp Nat :=
    combine k.width (lanes.map fun e => f (elemAt k.width e w) (elemAt k.width e x))
  match op with
  | 0 => { val := (w + x) % 2 ^ width }
  | 1 => each fun a b => addOp k rne false a b 0
  | 2 => each fun a b => { val := (minOp false k rne false a b 0).val, fl := (markNan k (minOp false k rne false a b 0)).fl }
  | 3 => each fun a b => { val := (minOp true k rne false a b 0).val, fl := (markNan k (minOp true k rne false a b 0)).fl }
  | 4 => { val := w &&& x }
  | 5 => { val := w ||| x }
  | 6 => { val := w ^^^ x }
  | 7 => { val := x }
  | _ => { val := if w = c then x else w }

/-- One lane's atomic: element, operand and compare value. -/
structure AtomicLane where
  elem : Elem
  x : Nat
  c : Nat
  deriving DecidableEq, Repr

/-- R88, R60: the lane's step at the home of its word, at every member of a peer set; the old value is that of the
member a load reads. A carve-out returns zero and keeps its contents (R37). A host that fails an atomic makes it raise ECC
(R448), so its write is none that the host may reject later. The old value, the value written there, and the flags. -/
def State.atomicLane (s : State) (win op type width : Nat) (a : AtomicLane) : State × Nat × Nat × FpFlags :=
  if win ≠ 0 then
    let old := s.elemNum win a.elem
    let r := atomicStep op type width old a.x a.c
    (s.winStore win ((a.elem.bytes.map (·.va)).zip (bytesOf (width / 8) r.val)), old, r.val, r.fl)
  else
    let members := (a.elem.bytes.headD ⟨0, [], false, 0⟩).pas.length
    let addr (j : Nat) : List Nat := a.elem.bytes.map fun b => b.pas.getD j 0
    let s := s.drainFor (a.elem.bytes.flatMap (·.pas))
    let old (j : Nat) : Nat := if (addr j).any inCarve then 0 else natOf ((addr j).map s.byte)
    let res := (List.range members).map fun j => (addr j, atomicStep op type width (old j) a.x a.c)
    let s' := (s.store (res.flatMap fun p => p.1.zip (bytesOf (width / 8) p.2.val))).noteOwn (res.flatMap Prod.fst)
    (s', old 0, ((res.head?).map fun r => r.2.val).getD 0, res.foldl (fun f p => f.or p.2.fl) {})

/-- R88, R228, R235: what a TWIN node's stream takes of one atomic instruction: the last value of each word, one record for its combined
request. That of a value-returning atomic has its word's rank in ascending address as s; another's the lowest lane that names the word
(DESIGN CHOICE, log entry 82). `ws` are lane, byte addresses and value, in ascending lanes. -/
def State.emitAtomic (s : State) (returning : Bool) (n : Nat) (ws : List (Nat × List Nat × Nat)) : State :=
  let words := (ws.map fun w => w.2.1).foldl (fun r x => if r.contains x then r else r ++ [x]) []
  let rank (x : List Nat) : Nat := (words.filter fun y => decide (y.headD 0 < x.headD 0)).length
  let lane (x : List Nat) : Nat := ((ws.find? fun w => w.2.1 == x).map Prod.fst).getD 0
  let last (x : List Nat) : Nat := ((ws.reverse.find? fun w => w.2.1 == x).map fun w => w.2.2).getD 0
  words.foldl (fun s x => s.emit (if returning then 0 else lane x) (if returning then rank x else 0) (x.zip (bytesOf n (last x)))) s

/-- The lanes of one atomic instruction in ascending order (R88): each lane's old value, and the flags. The instruction marks its flag
once, where some member lies on another package (R59, R283). -/
def State.atomicLanes (s : State) (win op type width : Nat) (as : List AtomicLane) (returning : Bool := false) (mark : Option Nat := none) :
    State × List (Nat × Nat) × FpFlags :=
  let (s, rs, fl) := as.foldl (fun (s, rs, fl) a =>
    let (s, old, new, f) := s.atomicLane win op type width a
    (s, rs ++ [(a, old, new)], fl.or f)) (s, ([] : List (AtomicLane × Nat × Nat)), ({} : FpFlags))
  let olds := rs.map fun r => (r.1.elem.lane, r.2.1)
  if win ≠ 0 then (s, olds, fl)
  else
    let pas := as.flatMap fun a => a.elem.bytes.flatMap (·.pas)
    let s := (s.emitAtomic returning (width / 8) (rs.map fun r => (r.1.elem.lane, r.1.elem.bytes.map (·.va), r.2.2))).awaitAcks pas mark.toList
    (if (pkgsOf pas).isEmpty then s else { s with g := s.g.mark mark }, olds, fl)

/-- The element width in bytes that an atomic's operation and TYPE name (R358). -/
def atomicBytes (l : Lane) (esz : Nat) : Nat :=
  if l.imm.toNat % 16 = 8 then (if 2 ≤ esz ∧ esz ≤ 4 then 2 ^ esz else 4) else if isWide l.type.toNat then 8 else 4

/-- The value of `n` registers of a lane as one number. -/
def Group.regs (g : Group) (r lane n : Nat) : Nat := natOf ((List.range n).flatMap fun i => bytesOf 4 (g.vreg (r + i) lane).toNat)

/-- VATOM and VATOMSP (R358). -/
def laneAtomic (win : Nat) (i : Instr) (l : Lane) : Act Unit := do
  let nr := l.imm.getLsbD 4
  if nr then pure () else orderGate i 3
  let op := l.imm.toNat % 16
  let active ← activeOf l
  let mark ← checkMark (l.fs = 1)
  let bc ← broadcast l
  let r ← recordOf l
  let n := atomicBytes l r.esz
  let cas := op == 8
  if cas || !nr then checkV active l.vd.toNat (n / 4) else pure ()
  if cas then checkVSoft active l.vd.toNat (n / 4) else pure ()
  useSrc active true (l.bsb = 1) l.vb 1
  useSrc active true (l.bsc = 1) l.vc (n / 4)
  let s ← get
  let wants := wantsOf s l active bc
  if active ≠ 0 ∧ 2 ^ r.esz ≠ n then
    let w := wants.headD ⟨0, 0⟩
    trapAt protBrec 2 active (if w.ix < r.extent then r.addr (win == 0 && l.va == 31) w.lane w.ix 0 else 0)
  releasePart l.ord
  let es ← resolve { win := win, n := n, kind := 2, annot := l.ord != 0, priv := win == 0 && l.va == 31
                     opOk := (op == 0 || op == 7 || op == 8) && n != 16 } r wants
  clamp win l.scope.toNat !es.isEmpty
  let lanes := es.map fun e => AtomicLane.mk e
    (match (if l.bsc = 1 then bc else none) with | some v => v.toNat % 2 ^ (8 * n) | none => s.g.regs l.vc.toNat e.lane (n / 4))
    (s.g.regs l.vd.toNat e.lane (n / 4))
  let (olds, fl) ← stateful fun s => s.atomicLanes win op l.type.toNat (8 * n) lanes (!nr) (if nr then mark else none)
  modify fun s => { s with g := s.g.setFlags fl }
  if nr then pure ()
  else modify fun s => (lanesOf active).foldl (fun s k =>
    let old := ((olds.find? fun o => o.1 == k).map Prod.snd).getD 0
    (List.range (n / 4)).foldl (fun s j => s.setV (l.vd.toNat + j) k (BitVec.ofNat 32 (old / 2 ^ (32 * j)))) s) s
  retireWork 3

/-- VATOM (R358). -/
def execVatom (l : Lane) (s : State) : Host.Outcome State Fault Refusal := Act.outcome (laneAtomic 0 (.vatom l) l) s
/-- VATOMSP (R358). -/
def execVatomsp (l : Lane) (s : State) : Host.Outcome State Fault Refusal := Act.outcome (laneAtomic 1 (.vatomsp l) l) s

/-! ## Histograms and prefetches (R360, R361) -/

/-- An index that is all ones at its own width (R360). -/
def allOnesIx (l : Lane) (w : Want) : Bool := w.ix == (if l.bsb = 1 then 2 ^ 64 - 1 else 2 ^ 32 - 1)

/-- VHIST (R360). -/
def laneHist (l : Lane) : Act Unit := do
  let win := l.imm.toNat % 4
  let active ← activeOf l
  let mark ← checkMark (l.fs = 1)
  let bc ← broadcast l
  let r ← recordOf l
  useSrc active true (l.bsb = 1) l.vb 1
  useSrc active true (l.bsc = 1) l.vc 1
  let s ← get
  let wants := wantsOf s l active bc
  if active ≠ 0 ∧ (r.bad ∨ r.esz ≠ 2) then
    let w := wants.headD ⟨0, 0⟩
    trapAt protBrec 2 active (if w.ix < r.extent then r.addr (win == 0 && l.va == 31) w.lane w.ix 0 else 0)
  releasePart l.ord
  let es ← resolve { win := win, n := 4, kind := 2, annot := l.ord != 0, priv := win == 0 && l.va == 31 } r
    (wants.filter fun w => !allOnesIx l w)
  clamp win l.scope.toNat !es.isEmpty
  let lanes := es.map fun e => AtomicLane.mk e (laneVal s.g (if l.bsc = 1 then bc else none) l.vc false e.lane) 0
  let _ ← stateful fun s => s.atomicLanes win 0 1 32 lanes false mark
  retireWork 3

/-- VHIST (R360). -/
def execVhist (l : Lane) (s : State) : Host.Outcome State Fault Refusal := Act.outcome (laneHist l) s

/-- R361, R41, R107: a prefetched line sets A in its leaf and is requested into L2; a line that faults, or lies on an SO page, is
dropped. One that a tier swap holds counts when the swap has ended (R44). -/
def State.prefetch (s : State) (line : Nat) : State :=
  match s.translate s.here s.g.asid { now := true } (line * 128) with
  | (s, .error _) => s
  | (s, .ok x) => if pteOrd x.leaf.entry == 0 then s else s.requestLine x false true

/-- VPREF (R361). -/
def lanePrefetch (l : Lane) : Act Unit := do
  let active ← activeOf l
  let _ ← checkMark (l.fs = 1)
  let bc ← broadcast l
  let r ← recordOf l
  useSrc active true (l.bsb = 1) l.vb 1
  let s ← get
  let wants := wantsOf s l active bc
  if active ≠ 0 ∧ r.bad then
    let w := wants.headD ⟨0, 0⟩
    trapAt protBrec 0 active (if w.ix < r.extent then r.addr (l.va == 31) w.lane w.ix 0 else 0)
  let addrs := (wants.filter fun w => decide (w.ix < r.extent)).flatMap fun w =>
    (List.range (2 ^ r.esz)).map fun k => r.addr (l.va == 31) w.lane w.ix k
  modify fun s => (linesOf (addrs.filter fun x => decide (x < vaSize))).foldl State.prefetch s
  retire 3

/-- VPREF (R361). -/
def execVpref (l : Lane) (s : State) : Host.Outcome State Fault Refusal := Act.outcome (lanePrefetch l) s

end Sys2Proof.Machine
end

