-- ==== Sys2Proof/Machine/ScalarMemory.lean ====
section
/-! DEFINITION. Scalar loads and stores (spec/12 R313, R314). -/

namespace Sys2Proof.Machine

/-- R314: the lane mask of a scalar instruction's fault is the path's mask. -/
def pathMask {α : Type} (a : Act α) : Act α :=
  tryCatch a fun e => do
    let s ← get
    match e with
    | .trap t => throw (.trap { t with lmask := s.path.mask })
    | e => throw e

/-- The want of a scalar access of element S[SX] (R20, R33). -/
def scalarWant (ix : Word64) : List Want := [⟨0, ix.toNat⟩]

/-- The bytes that the width code of the M form moves (R313). -/
def widthBytes (w : BitVec 2) : Nat := 2 ^ w.toNat

/-- SLD and SLDSP (R313): the first bytes of the element, zero-extended; zero out of bounds. -/
def scalarLoad (win : Nat) (f : MForm) : Act Unit := do
  let _ ← checkMark false
  let ix ← readSA f.sx
  let b ← readB f.buf.toNat
  let s ← get
  let a : Access := { win := win, n := widthBytes f.w, kind := 0, annot := f.scope != 0, priv := win == 0 && f.buf == 31 }
  let es ← pathMask (resolve a (s.g.recIn f.buf.toNat b) (scalarWant ix))
  clamp win f.scope.toNat !es.isEmpty
  let s ← get
  writeRetire f.d (BitVec.ofNat 64 (match es with | e :: _ => s.elemNum win e | [] => 0)) 1

/-- SST and SSTSP (R313): the low bytes of S[SS]; nothing out of bounds. Annotated, it is a release (R96). -/
def scalarStore (win : Nat) (f : MForm) : Act Unit := do
  let mark ← checkMark false
  let ix ← readSA f.sx
  let v ← readSB f.d
  let b ← readB f.buf.toNat
  if f.scope ≠ 0 then awaitPerformed
  let s ← get
  let a : Access := { win := win, n := widthBytes f.w, kind := 1, annot := f.scope != 0, priv := win == 0 && f.buf == 31 }
  let es ← pathMask (resolve a (s.g.recIn f.buf.toNat b) (scalarWant ix))
  clamp win f.scope.toNat !es.isEmpty
  modify fun s => s.storeElems win (es.map fun e => (e, bytesOf a.n v.toNat)) (markOf es mark)
  if win = 0 then pathMask (storeLost es)
  retireWork 1

/-- SLD (R313). -/
def execSld (f : MForm) (s : State) : Host.Outcome State Fault Refusal := Act.outcome (scalarLoad 0 f) s
/-- SST (R313). -/
def execSst (f : MForm) (s : State) : Host.Outcome State Fault Refusal := Act.outcome (scalarStore 0 f) s
/-- SLDSP (R313). -/
def execSldsp (f : MForm) (s : State) : Host.Outcome State Fault Refusal := Act.outcome (scalarLoad 1 f) s
/-- SSTSP (R313). -/
def execSstsp (f : MForm) (s : State) : Host.Outcome State Fault Refusal := Act.outcome (scalarStore 1 f) s

end Sys2Proof.Machine
end

