-- ==== Sys2Proof/Machine/Stack.lean ====
section
/-! DEFINITION. The divergence stack (spec/08 R210 to R215): its entries in memory, pushing, parking, popping and
releasing paths. -/

namespace Sys2Proof.Machine

/-- A stack entry (Table 8-2). -/
structure Entry where
  clock : Word64
  next : BitVec 56
  kind : Nat
  mask : Word32
  pc : BitVec 56
  deriving DecidableEq, Repr

def Entry.bits (e : Entry) : Nat :=
  e.clock.toNat * 2 ^ 192 + e.next.toNat * 2 ^ 128 + place e.kind 96 2 + e.mask.toNat * 2 ^ 64 + e.pc.toNat

def Entry.ofNat (n : Nat) : Entry :=
  { clock := BitVec.ofNat 64 (bitsOf n 192 64), next := BitVec.ofNat 56 (bitsOf n 128 56), kind := bitsOf n 96 2
    mask := BitVec.ofNat 32 (bitsOf n 64 32), pc := BitVec.ofNat 56 (bitsOf n 0 56) }

/-- What the device knows of an entry without reading it back. -/
def Entry.key (e : Entry) (top : Bool := false) : StackKey := { parked := e.kind == 1, clock := e.clock, mask := e.mask, pc := e.pc, top := top }

/-- R214, R12: where entry `i` lies: after the last element of the private extent. -/
def State.entryVa (s : State) (i : Nat) : Nat :=
  let r := s.g.recIn 31 (s.g.bregs.get 31)
  (r.base + r.extent * 128 + 32 * i) % 2 ^ 64

/-- An entry of the stack while an instruction changes it: what the device knows of it, where it lies in memory, and its
contents once they have been read back or rewritten. -/
structure StackItem where
  key : StackKey
  home : Nat
  val : Option Entry
  deriving DecidableEq, Repr

/-- The stack as an instruction changes it: the entries that stand after it, and the places it has rewritten. Nothing is
written before every access has been checked (R215). -/
structure Stack where
  items : List StackItem
  dirty : List Nat
  deriving DecidableEq, Repr

/-- The stack of the group at issue. -/
def State.stackNow (s : State) : Stack :=
  { items := ((List.range s.g.stack.length).zip s.g.stack).map fun p => ⟨p.2, p.1, none⟩, dirty := [] }

/-- A stack access that faults is a fault of the instruction with the path's mask (R215). -/
def stackFault {α : Type} (f : Flt) (kind va : Nat) : Act α := do
  let s ← get
  trapAt f kind s.path.mask va

/-- The lines of a store of the stack, translated before any is written; a store that some member would not take is a fault,
and the stack is unchanged by the attempt (R215). -/
def checkStore (vas : List Nat) : Act Unit :=
  match vas with
  | [] => pure ()
  | va :: rest => do
    let r ← stateful fun s => s.translate s.here s.g.asid { write := true, now := true } va
    match r with
    | .error f => stackFault f 1 va
    | .ok x =>
      match x.lost with
      | some f => stackFault f 1 va
      | none => checkStore rest

/-- Write the entries at places `is` of the stack, in that order (R214). -/
def writeEntries (st : Stack) (is : List Nat) : Act Unit :=
  match is with
  | [] => pure ()
  | i :: rest => do
    let bs := bytesOf 32 (((st.items[i]?).bind StackItem.val).getD ⟨0, 0, 0, 0, 0⟩).bits
    let s ← get
    let va := s.entryVa i
    let r ← stateful fun s => s.vstore va bs
    match r with
    | .error f => stackFault f 1 va
    | .ok _ => do
      modify fun s => s.emit 0 (32 * i) (cellsAt va bs)
      writeEntries st rest

/-- Write back the rewritten entries in ascending order; the stack now holds the entries that stand (R214). -/
def storeStack (st : Stack) : Act Unit := do
  let s ← get
  let live := (sortBy (fun a b => decide (a ≤ b)) st.dirty.dedup).filter fun i => decide (i < st.items.length)
  checkStore (live.flatMap fun i => [s.entryVa i, s.entryVa i + 31])
  writeEntries st live
  modify fun s => { s with g := { s.g with stack := st.items.map StackItem.key } }

/-- A new topmost entry; `top` where the header that its release continues at lies at 2^56 or above (R12). -/
def Stack.push (st : Stack) (e : Entry) (top : Bool := false) : Stack :=
  { items := st.items ++ [⟨e.key top, st.items.length, some e⟩], dirty := st.items.length :: st.dirty }

/-- Entry `i` is rewritten. -/
def Stack.setEntry (st : Stack) (i : Nat) (e : Entry) : Stack :=
  { items := st.items.modify i fun x => { x with key := e.key x.key.top, val := some e }, dirty := i :: st.dirty }

/-- Entry `i` goes; every entry above it moves down and is rewritten (R214). -/
def Stack.remove (st : Stack) (i : Nat) : Stack :=
  { items := st.items.eraseIdx i
    dirty := (st.dirty.filterMap fun d => if d < i then some d else if d = i then none else some (d - 1))
      ++ (List.range (st.items.length - 1)).filter fun d => decide (i ≤ d) }

/-- ILLCL with a sub-cause and the path's mask. -/
def illcl {α : Type} (sub : BitVec 8) : Act α := trapAll cILLCL sub 0

/-- A word at a virtual address whose bits [31:30] are 0b11 is a clause header (R278, R280); an address that
cannot be read is left to the fetch (DEDUCED, log entry 18). The word is code as the node fetches it: as it stood at the launch (R282). -/
def isHeaderAt (va : Nat) : Act Bool := do
  if va % 4 ≠ 0 ∨ vaSize ≤ va then return false
  let r ← stateful fun s => s.translate s.here s.g.asid { fetch := true } va
  let s ← get
  match r with
  | .error _ => return true
  | .ok x => return bitsOf (natOf ((List.range 4).map fun i => s.codeByte (x.pas.headD 0 + i))) 30 2 == 3

/-- R281: a transfer to an address that is no clause header raises ILLCL/TARGET; an aligned one outside the address
space is NONCANON (R12). -/
def checkTarget (target : Word64) : Act Unit := do
  let s ← get
  if target.toNat % 4 = 0 ∧ vaSize ≤ target.toNat then trapAt (tfault 4 15) 3 s.path.mask target.toNat
  else if ← isHeaderAt target.toNat then pure () else illcl 3

/-- R214: an entry is read back, when it is popped, merged, released or moved: its KIND, and in an unparked entry its PC, may be
bad. -/
def readEntry (st : Stack) (i : Nat) : Act (Stack × Entry) := do
  match st.items[i]? with
  | none => pure (st, ⟨0, 0, 0, 0, 0⟩)
  | some x =>
    match x.val with
    | some e => pure (st, e)
    | none => do
      let s ← get
      let va := s.entryVa x.home
      let r ← stateful fun s => s.vload va 32
      match r with
      | .error f => stackFault f 0 va
      | .ok bs => do
        let e := Entry.ofNat (natOf bs)
        if 2 ≤ e.kind then illcl 4
        if !x.key.parked then
          if ← isHeaderAt e.pc.toNat then pure () else illcl 4
        pure ({ st with items := st.items.set i { x with val := some e } }, e)

/-- The entries from place `i` on are read back: they are to move (R214). -/
def readFrom (n : Nat) (st : Stack) (i : Nat) : Act Stack :=
  match n with
  | 0 => pure st
  | n + 1 => do
    let (st, _) ← readEntry st i
    readFrom n st (i + 1)

/-- Entry `i` leaves the stack: it and every entry above it are read back. -/
def takeEntry (st : Stack) (i : Nat) : Act (Stack × Entry) := do
  let (st, e) ← readEntry st i
  let st ← readFrom (st.items.length - (i + 1)) st (i + 1)
  pure (st.remove i, e)

/-- The place of the topmost unparked entry. -/
def Stack.topUnparked (st : Stack) : Option Nat :=
  ((List.range st.items.length).filter fun i => ((st.items[i]?).map fun x => !x.key.parked).getD false).getLast?

/-- The place of the parked entry for an address. -/
def Stack.parkedAt (st : Stack) (j : BitVec 56) : Option Nat := st.items.findIdx? fun x => x.key.parked && x.key.pc == j

/-- The place of the parked entry with the lowest address. -/
def Stack.lowestParked (st : Stack) : Option Nat :=
  (List.range st.items.length).foldl (fun best i =>
    match st.items[i]? with
    | none => best
    | some x =>
      if !x.key.parked then best
      else match best with
        | none => some i
        | some b => if x.key.pc.toNat < (((st.items[b]?).map (·.key.pc.toNat)).getD 0) then some i else best) none

/-- A path that starts at a clause header. -/
def newPath (pc : BitVec 56) (mask : Word32) (clock : Word64) : Path := { Path.empty with pc := pc, mask := mask, clock := clock }

/-- R212 steps 3 and 4: the free live slots take the topmost unparked entries; with no live path and no unparked
entry left, the lowest parked entry is released to slot 0, its LJOIN retiring. `a` and `b` are the paths of the two slots after
the instruction, `gone` the lanes that have exited. -/
def refill (gone : Word32) (a b : Option Path) (tick : Bool) (st : Stack) (fuel : Nat) : Act (Option Path × Option Path × Stack) :=
  match fuel with
  | 0 => pure (a, b, st)
  | fuel + 1 => do
    if a.isSome && b.isSome then return (a, b, st)
    match st.topUnparked with
    | some i =>
      let (st, e) ← takeEntry st i
      let p := newPath e.pc (e.mask &&& ~~~gone) e.clock
      if p.mask = 0 then refill gone a b tick st fuel
      else if a.isNone then refill gone (some p) b tick st fuel
      else refill gone a (some p) tick st fuel
    | none =>
      if a.isSome || b.isSome then return (a, b, st)
      match st.lowestParked with
      | none => return (a, b, st)
      | some i =>
        let top := ((st.items[i]?).map fun x => x.key.top).getD false
        let (st, e) ← takeEntry st i
        if top then pure () else if ← isHeaderAt e.next.toNat then pure () else illcl 4
        let p := { newPath e.next (e.mask &&& ~~~gone) (if tick then e.clock + 1 else e.clock) with top := top }
        if p.mask = 0 then refill gone a b tick st fuel else return (some p, b, st)

/-- The instruction's slot has freed and the lanes of `x` exit: refill the slots and write back the stack; a group left with no lane exits
(R212, R213). The grant of the instruction's clause ends. -/
def leaveSlot (x : Word32) (st : Stack) : Act Unit := do
  let s ← get
  let a := if s.slot then s.g.slot0 else none
  let b := if s.slot then none else s.g.slot1
  let (a, b, st) ← refill (s.g.exited ||| x) a b (!s.g.supv) st (2 * st.items.length + 2)
  storeStack st
  modify fun s =>
    let s := { s with granted := false, g := ({ s.g with slot0 := a, slot1 := b, exited := s.g.exited ||| x, ovr := none, yielded := s.g.yielded || s.path.header.getLsbD 4 } : Group).settleStop }
    if s.allGone then s.groupGone else s

end Sys2Proof.Machine
end

