-- ==== Sys2Proof/Machine/Control.lean ====
section
/-! DEFINITION. Transfers of control, splits, joins and exits (spec/12 R315 to R319; spec/08 R211 to R213;
spec/11 R281). -/

namespace Sys2Proof.Machine

/-- The target of a branch word: its address plus four times the signed offset (R286). -/
def State.target {n : Nat} (s : State) (off : BitVec n) : Word64 := s.path.addr.setWidth 64 + (off.signExtend 64 <<< 2)

/-- The whole path goes to a target header, which is checked first (R281). -/
def goTo (target : Word64) : Act Unit := do
  checkTarget target
  modify fun s => s.transfer (target.setWidth 56)

/-- JMP (R315). -/
def execJmp (f : JForm) (s : State) : Host.Outcome State Fault Refusal := Act.outcome (goTo (s.target f.off)) s

def call (f : JForm) : Act Unit := do
  let s ← get
  checkTarget (s.target f.off)
  writeS 126 (BitVec.ofNat 64 s.path.nextAt)
  modify fun s => s.transfer ((s.target f.off).setWidth 56)

/-- CALL (R315): s126 takes the address of the header that follows its clause, which does not wrap at 2^56 (R12). -/
def execCall (f : JForm) (s : State) : Host.Outcome State Fault Refusal := Act.outcome (call f) s

def ret (f : YForm) : Act Unit := do
  let x ← readSA f.a
  goTo x

/-- RET (R315). -/
def execRet (f : YForm) (s : State) : Host.Outcome State Fault Refusal := Act.outcome (ret f) s

/-- A branch: taken to the target, or on in the clause (R281, R316). -/
def branch (taken : Bool) (target : Word64) : Act Unit := if taken then goTo target else retire 1

def branchIf (c : Word64 → Bool) (f : BForm) : Act Unit := do
  let x ← readSA f.a
  let s ← get
  branch (c x) (s.target f.off)

/-- BZ (R316). -/
def execBz (f : BForm) (s : State) : Host.Outcome State Fault Refusal := Act.outcome (branchIf (· == 0) f) s
/-- BNZ (R316). -/
def execBnz (f : BForm) (s : State) : Host.Outcome State Fault Refusal := Act.outcome (branchIf (· != 0) f) s
/-- BLZ (R316). -/
def execBlz (f : BForm) (s : State) : Host.Outcome State Fault Refusal := Act.outcome (branchIf (fun x => x.msb) f) s
/-- BGEZ (R316). -/
def execBgez (f : BForm) (s : State) : Host.Outcome State Fault Refusal := Act.outcome (branchIf (fun x => !x.msb) f) s

/-- R317: the condition mask of an SA field. -/
def condMask (a : BitVec 7) : Act Word32 := do
  let m ← readM (a.toNat % 16)
  return if a.getLsbD 4 then ~~~m else m

def lany (f : BForm) : Act Unit := do
  let c ← condMask f.a
  let s ← get
  branch (s.path.mask &&& c != 0) (s.target f.off)

/-- LANY (R317). -/
def execLany (f : BForm) (s : State) : Host.Outcome State Fault Refusal := Act.outcome (lany f) s

def lall (f : BForm) : Act Unit := do
  let c ← condMask f.a
  let s ← get
  branch (s.path.mask &&& c == s.path.mask) (s.target f.off)

/-- LALL (R317). -/
def execLall (f : BForm) (s : State) : Host.Outcome State Fault Refusal := Act.outcome (lall f) s

/-- R211: the path splits: its slot keeps the lanes not taken, a free live slot or the stack takes the others. -/
def lbr (f : BForm) : Act Unit := do
  let c ← condMask f.a
  let s ← get
  let p := s.path
  let t := p.mask &&& c
  let n := p.mask &&& ~~~c
  let target := s.target f.off
  if t = 0 then retire 1
  else if n = 0 then goTo target
  else
    checkTarget target
    let clock := if s.g.supv then p.clock else p.clock + 1
    let fresh := newPath (target.setWidth 56) t clock
    if (s.g.path? (!s.slot)).isNone then
      modify fun s => { s with g := s.g.setPath (!s.slot) (some fresh) }
    else
      storeStack (s.stackNow.push { clock := clock, next := 0, kind := 0, mask := t, pc := target.setWidth 56 })
    modify fun s => (s.setPath { s.path with mask := n }).retire 1

/-- LBR (R211, R317). -/
def execLbr (f : BForm) (s : State) : Host.Outcome State Fault Refusal := Act.outcome (lbr f) s

/-- R212, R226: the path parks at its own address, merging with the entry parked there, and its slot frees. The LJOIN retires,
and its clock rises, when the entry is released. -/
def ljoin : Act Unit := do
  let s ← get
  let p := s.path
  match s.stackNow.parkedAt p.addr with
  | some i => do
    let (st, e) ← readEntry s.stackNow i
    leaveSlot 0 (st.setEntry i { e with mask := e.mask ||| p.mask, clock := maxClock e.clock p.clock })
  | none => leaveSlot 0 (s.stackNow.push { clock := p.clock, next := p.nextHeader, kind := 1, mask := p.mask, pc := p.addr } (decide (2 ^ 56 ≤ p.nextAt)))

/-- LJOIN (R212, R318). -/
def execLjoin (_f : YForm) (s : State) : Host.Outcome State Fault Refusal := Act.outcome ljoin s

/-- R213, R319: the selected lanes exit; the path goes on with the others, or its slot frees. -/
def lexit (f : YForm) : Act Unit := do
  let c ← condMask f.a
  let s ← get
  let x := s.path.mask &&& c
  let rest := s.path.mask &&& ~~~c
  if rest = 0 then
    leaveSlot x s.stackNow
    modify State.unhang
  else
    modify fun s => (({ s with g := { s.g with exited := s.g.exited ||| x } } : State).setPath { s.path with mask := rest }).unhang.retire 1

/-- LEXIT (R213, R319). -/
def execLexit (f : YForm) (s : State) : Host.Outcome State Fault Refusal := Act.outcome (lexit f) s

/-- EXIT (R213, R319): every lane of the group exits. -/
def execExit (_f : YForm) (s : State) : Host.Outcome State Fault Refusal := .next s.groupGone

end Sys2Proof.Machine
end

