-- ==== Sys2Proof/Machine/TileMem.lean ====
section
/-! DEFINITION. Tiles in core scratchpad (spec/03 R71 to R79): table entries, their checks, the place of every
element and block scale, MX blocks (spec/07 R185 to R187), survivor bits, and rows written (spec/14 R367). -/

namespace Sys2Proof.Machine

/-! ## Entries (R72 Table 3-4) -/

structure Tile where
  surv : BitVec 128
  gen : Nat
  /-- 0 empty, 1 filling, 2 ready, 3 draining -/
  state : Nat
  scl : Bool
  dom : Nat
  fmt : Nat
  cols : Nat
  rows : Nat
  swz : Nat
  pitch : Nat
  addr : Nat
  deriving DecidableEq, Repr

def Tile.ofBits (b : BitVec 256) : Tile :=
  let n := b.toNat
  { surv := BitVec.ofNat 128 (bitsOf n 128 128), gen := bitsOf n 112 16, state := bitsOf n 110 2, scl := bitOf n 109
    dom := bitsOf n 106 3, fmt := bitsOf n 102 4, cols := bitsOf n 93 9 + 1, rows := bitsOf n 86 7 + 1
    swz := bitsOf n 84 2, pitch := bitsOf n 72 12 * 32, addr := bitsOf n 0 14 * 32 }

/-- The entry with its SURV, GEN, STATE and DOM replaced; its shape and place stay. -/
def Tile.bits (old : BitVec 256) (t : Tile) : BitVec 256 :=
  let low := bitsOf old.toNat 0 106
  BitVec.ofNat 256 (low + place t.dom 106 3 + bitsOf old.toNat 109 1 * 2 ^ 109 + place t.state 110 2 + place t.gen 112 16 + t.surv.toNat * 2 ^ 128)

/-- Bits of an element (Table 3-5). -/
def tileWidth (fmt : Nat) : Nat :=
  match fmt with
  | 0 => 16
  | 1 => 16
  | 2 => 32
  | 3 => 8
  | 4 => 8
  | 5 => 6
  | 6 => 6
  | 7 => 4
  | 8 => 8
  | 9 => 4
  | _ => 32

/-- The MX formats, which carry block scales. -/
def isScaled (fmt : Nat) : Bool := fmt == 5 || fmt == 6 || fmt == 7
/-- INT8 and INT4. -/
def isIntFmt (fmt : Nat) : Bool := fmt == 8 || fmt == 9

/-- The floating-point format of a tile format. -/
def tileFmt (fmt : Nat) : Fmt :=
  match fmt with
  | 0 => bf16
  | 1 => fp16
  | 2 => fp32
  | 3 => e4m3
  | 4 => e5m2
  | 5 => e3m2
  | 6 => e2m3
  | _ => e2m1

/-- e_max of an MX format (R166). -/
def mxEmax (fmt : Nat) : Int := if fmt = 5 then 4 else 2

def Tile.width (t : Tile) : Nat := tileWidth t.fmt
def Tile.rowBytes (t : Tile) : Nat := (t.cols * t.width + 7) / 8
def Tile.blocks (t : Tile) : Nat := (t.cols + 31) / 32
/-- R73: the bytes that a tile occupies. -/
def Tile.footprint (t : Tile) : Nat := t.rows * t.pitch + if isScaled t.fmt then t.rows * t.blocks else 0

/-- R74: what TDEF refuses with PROT/BREC. -/
def Tile.bad (t : Tile) : Bool :=
  decide (10 ≤ t.fmt) || decide (6 ≤ t.dom) || t.pitch == 0 || decide (t.pitch < t.rowBytes) || (t.scl && !isScaled t.fmt)
    || (t.swz != 0 && t.addr % 2048 != 0) || ((t.swz == 1 || t.swz == 2) && t.pitch % 128 != 0) || (t.swz == 3 && t.pitch % 256 != 0)
    || (t.dom != 0 && t.rows % 32 != 0)

/-- Survivor bits of rows 0 to rows − 1 (R75). -/
def rowsMask (rows : Nat) : BitVec 128 := BitVec.ofNat 128 (2 ^ rows - 1)

/-- R364, R243: a descriptor as TDEF installs it over an entry's GEN: ready, every row alive. -/
def installTile (lo hi gen : Nat) : BitVec 256 :=
  let t := Tile.ofBits (BitVec.ofNat 256 (lo + hi * 2 ^ 64))
  BitVec.ofNat 256 (lo % 2 ^ 64 + bitsOf hi 0 46 * 2 ^ 64 + 2 * 2 ^ 110 + place (gen + 1) 112 16 + (rowsMask t.rows).toNat * 2 ^ 128)

def State.tile (s : State) (n : Nat) : Tile := Tile.ofBits (s.w.tiles.get n)
def State.setTile (s : State) (n : Nat) (t : Tile) : State :=
  { s with w := { s.w with tiles := s.w.tiles.set n (t.bits (s.w.tiles.get n)) } }
def State.setTileState (s : State) (n state : Nat) : State := s.setTile n { s.tile n with state := state }

/-- R71, R77: a tile operand: one not granted or empty raises PROT/WINDOW with its number, one that is filling or
draining stalls. -/
def useTile (active : Word32) (n : BitVec 11) : Act Tile := do
  let s ← get
  let mask := if active = 0 then s.path.mask else active
  if s.w.ntiles ≤ n.toNat then trapAt protWindow 0 mask n.toNat
  let t := s.tile n.toNat
  if t.state = 0 then trapAt protWindow 0 mask n.toNat
  if t.state ≠ 2 then stall
  return t

/-! ## The place of an element (R73) -/

/-- The scratchpad offset of byte j of row k. -/
def Tile.byteAt (t : Tile) (k j : Nat) : Nat := t.addr + swizzle t.swz (k * t.pitch + j)
/-- The scratchpad offset of the scale of block j of row k. -/
def Tile.scaleAt (t : Tile) (k j : Nat) : Nat := t.addr + t.rows * t.pitch + k * t.blocks + j

def Tile.alive (t : Tile) (k : Nat) : Bool := t.surv.getLsbD k

/-- The bits of row k as one number, whatever its survivor bit. -/
def State.rowBits (s : State) (t : Tile) (k : Nat) : Nat :=
  natOf ((List.range t.rowBytes).map fun j => s.winByte 1 (t.byteAt k j))

/-- The element codes of a row, column 0 first; zeros for a dead row (R75). -/
def State.rowCodes (s : State) (t : Tile) (k : Nat) : List Nat :=
  let n := if t.alive k then s.rowBits t k else 0
  (List.range t.cols).map fun c => bitsOf n (c * t.width) t.width

/-- The zero-block code of a scale encoding (R75, R187). -/
def zeroScale (scl : Bool) : Nat := if scl then 0 else 0x80

def State.rowScales (s : State) (t : Tile) (k : Nat) : List Nat :=
  if isScaled t.fmt then
    (List.range t.blocks).map fun j => if t.alive k then (s.winByte 1 (t.scaleAt k j)).toNat else zeroScale t.scl
  else []

/-! ## MX blocks (R185 to R187) -/

/-- The exact value of an element code under a scale byte; a NaN block is NaN (R186). -/
def mxValue (fmt : Nat) (scl : Bool) (scale code : Nat) : Val :=
  let times (n : Int) : Val :=
    match (tileFmt fmt).value code with
    | .fin neg m e => .fin neg m (e + n)
    | v => v
  if scl then (if scale = 0xFF then .nan false else times ((scale : Int) - 127))
  else if scale = 0x7F then .nan false
  else if scale = 0x80 then zeroVal false
  else times (signedOf 8 scale)

/-- The exact value of an element of a floating-point format. -/
def codeValue (fmt : Nat) (scl : Bool) (scale code : Nat) : Val :=
  if isScaled fmt then mxValue fmt scl scale code else (tileFmt fmt).value code

/-- The largest finite value of FP32, for which an infinite value counts (R187). -/
def fp32Max : Val := .fin false fp32.maxM fp32.maxE

/-- An encoded block: the scale byte, and the element codes unless none is written (R187). -/
structure Block where
  scale : Nat
  codes : Option (List Nat)
  deriving DecidableEq, Repr

/-- R187: a block of up to 32 values encoded. -/
def encodeBlock (fmt : Nat) (scl : Bool) (vs : List Val) : Fp Block :=
  if vs.any Val.isNan then
    { val := ⟨if scl then 0xFF else 0x7F, some (vs.map fun _ => 0)⟩, fl := { invalid := true, nan := true } }
  else
    let mags := (vs.filter fun v => !v.isZero).map fun v => if v.isInf then expoOf fp32Max else expoOf v
    match mags with
    | [] =>
      let f := tileFmt fmt
      { val := ⟨zeroScale scl, if scl then some (vs.map fun v => v.neg?.toNat * 2 ^ (f.bits - 1)) else none⟩ }
    | x :: xs =>
      let top := xs.foldl max x - mxEmax fmt
      let e := max (-127) (min top (if scl then 127 else 126))
      let rs := vs.map fun v => match v with
        | .fin neg m q => (tileFmt fmt).round rne true (.fin neg m (q - e))
        | v => (tileFmt fmt).round rne true v
      { val := ⟨if scl then (e + 127).toNat else (e % 256).toNat, some (rs.map (·.val))⟩
        fl := rs.foldl (fun a r => a.or r.fl) {} }

/-! ## Writing rows (R367) -/

/-- Element codes go into a row: the bytes they touch are written. -/
def State.writeCodes (s : State) (t : Tile) (k : Nat) (cells : List (Nat × Nat)) : State :=
  if cells.isEmpty then s
  else
    let w := t.width
    let old := s.rowBits t k
    let new := cells.foldl (fun n c => n - bitsOf n (c.1 * w) w * 2 ^ (c.1 * w) + place c.2 (c.1 * w) w) old
    let js := (List.range t.rowBytes).filter fun j => cells.any fun c => decide (c.1 * w < 8 * j + 8) && decide (8 * j < c.1 * w + w)
    s.winStore 1 (js.map fun j => (t.byteAt k j, BitVec.ofNat 8 (new / 2 ^ (8 * j))))

def State.writeScale (s : State) (t : Tile) (k j v : Nat) : State := s.winStore 1 [(t.scaleAt k j, BitVec.ofNat 8 v)]

/-- What a writer stores in a row: element codes of the columns it writes and, in an MX format, blocks. -/
structure RowWrite where
  row : Nat
  codes : List (Nat × Nat)
  blocks : List (Nat × Block)
  deriving DecidableEq, Repr

/-- R367 step 1: a dead row is first zeroed, but for what the writer writes itself. -/
def State.revive (s : State) (t : Tile) (r : RowWrite) : State :=
  if t.alive r.row then s
  else if isScaled t.fmt then
    ((List.range t.blocks).filter fun j => !(r.blocks.any fun b => b.1 == j)).foldl (fun s j =>
      let s := s.writeScale t r.row j (zeroScale t.scl)
      if t.scl then s.writeCodes t r.row (((List.range 32).map (32 * j + ·)).filter (· < t.cols) |>.map fun c => (c, 0)) else s) s
  else s.writeCodes t r.row (((List.range t.cols).filter fun c => !(r.codes.any fun x => x.1 == c)).map fun c => (c, 0))

/-- An element that the survivor test counts: not ±0 (R367). -/
def countsAlive (fmt : Nat) (scl : Bool) (scale code : Nat) : Bool :=
  if isIntFmt fmt then code != 0 else !(codeValue fmt scl scale code).isZero

/-- R367: one row is written: revived, written and tested; the tile's survivor bit follows. -/
def State.writeRow (s : State) (n : Nat) (r : RowWrite) : State :=
  let t := s.tile n
  if t.rows ≤ r.row then s
  else
    let s := s.revive t r
    let s := r.blocks.foldl (fun s b =>
      let s := s.writeScale t r.row b.1 b.2.scale
      match b.2.codes with
      | none => s
      | some cs => s.writeCodes t r.row (((List.range cs.length).zip cs).map fun c => (32 * b.1 + c.1, c.2))) s
    let s := s.writeCodes t r.row r.codes
    let t' := { t with surv := t.surv ||| (1#128 <<< r.row) }
    let scales := s.rowScales t' r.row
    let alive := ((List.range t.cols).zip (s.rowCodes t' r.row)).any fun c => countsAlive t.fmt t.scl (scales.getD (c.1 / 32) 0) c.2
    let t := s.tile n
    s.setTile n { t with surv := if alive then t.surv ||| (1#128 <<< r.row) else t.surv &&& ~~~(1#128 <<< r.row) }

/-- The write of one row from exact values of columns col0 on (R369, R367): an MX row goes in whole blocks. `rnd` gives
the rounder of a column; `ints` says that the values are integers (R184). -/
def rowWrite (t : Tile) (row col0 : Nat) (rnd : Nat → Rounder) (sat ints : Bool) (vs : List Val) : Fp RowWrite :=
  let vs := vs.take (t.cols - col0)
  if isScaled t.fmt then
    let bs := (chunks 32 16 vs).map fun b => encodeBlock t.fmt t.scl b
    { val := ⟨row, [], ((List.range bs.length).zip bs).map fun b => (col0 / 32 + b.1, b.2.val)⟩
      fl := bs.foldl (fun a b => a.or b.fl) {} }
  else
    let rs := ((List.range vs.length).zip vs).map fun p => (col0 + p.1,
      if isIntFmt t.fmt then
        if ints then intResult t.width true sat (intOf p.2) else toInteger (rnd (col0 + p.1)) t.width true p.2
      else (tileFmt t.fmt).round (rnd (col0 + p.1)) sat p.2)
    { val := ⟨row, rs.map fun r => (r.1, r.2.val), []⟩, fl := rs.foldl (fun a r => a.or r.2.fl) {} }

/-- R73, R186: an element of a row that reads as an exact value. -/
def State.rowValues (s : State) (t : Tile) (k : Nat) : List Val :=
  let scales := s.rowScales t k
  ((List.range t.cols).zip (s.rowCodes t k)).map fun c =>
    if isIntFmt t.fmt then valOfInt (signedOf t.width c.2) else codeValue t.fmt t.scl (scales.getD (c.1 / 32) 0) c.2

/-- The offsets of the bytes of an element in its row. -/
def Tile.elemOffs (t : Tile) (k c : Nat) : List Nat :=
  (List.range ((c * t.width + t.width - 1) / 8 - c * t.width / 8 + 1)).map fun i => t.byteAt k (c * t.width / 8 + i)

/-- The bytes that a reader of some columns of a row reads: none of a dead row (R75); in an MX format the scales of their
blocks, and of an SX8 block of zeros no element bytes (R185 Table 7-7). -/
def State.readOffs (s : State) (t : Tile) (k : Nat) (cols : List Nat) : List Nat :=
  if !t.alive k then []
  else if !isScaled t.fmt then cols.flatMap (t.elemOffs k)
  else ((cols.map (· / 32)).dedup).flatMap fun j =>
    t.scaleAt k j :: (if !t.scl && s.winByte 1 (t.scaleAt k j) == 0x80 then [] else (cols.filter fun c => c / 32 == j).flatMap (t.elemOffs k))

/-- A byte that a reader of some columns of a row meets with an uncorrectable soft error (R69). -/
def State.rowSoft (s : State) (t : Tile) (k : Nat) (cols : List Nat) : Option Nat :=
  if s.soft.isEmpty && s.carried.isEmpty then none else (s.readOffs t k cols).find? fun o => s.winSoft 1 o

/-- A lane instruction that reads columns of tile rows meets their soft errors (R69, R206). -/
def checkRows (active : Word32) (t : Tile) (rows cols : List Nat) : Act Unit := do
  let s ← get
  match rows.findSome? fun k => s.rowSoft t k cols with
  | none => pure ()
  | some o => trapAt { cause := cECC, sub := s.winSoftSub 1 o } 0 active o

end Sys2Proof.Machine
end

