-- ==== Sys2Proof/Machine/Commands.lean ====
section
/-! DEFINITION. Engine commands (spec/04 R109; spec/05 R124; spec/16 R410, R411, R418): issue, completion,
timelines, faults and their delivery. -/

namespace Sys2Proof.Machine

/-- The ENG code of a context (Table 5-8). -/
def engOf (c : Ctx) : Nat :=
  match c with
  | .copy0 => 1
  | .copy1 => 2
  | .xform => 3
  | .mpair => 4
  | .attn => 5
  | .sel => 6
  | .dem => 7
  | .xred => 8
  | .spore _ => 0
  | .tileOp => 0

def State.cmd? (s : State) (c : CmdId) : Option Command := (s.wg? c.wg).bind fun w => w.cmds.find? fun x => x.id == c

def State.modCmd (s : State) (c : CmdId) (f : Command → Command) : State :=
  s.modWg c.wg fun w => { w with cmds := w.cmds.map fun x => if x.id == c then f x else x }

/-- A command that may act: in flight, not finished, not stopped and not settled for a save (R124, R267). -/
def State.runnable (s : State) (c : CmdId) : Option Command :=
  match s.cmd? c with
  | some x => if x.finished || x.stopped || x.settled then none else some x
  | none => none

/-- What an instruction gives its command beside what every command holds. -/
structure CmdArgs where
  ops : List Word64 := []
  lanes : List (Nat × Word32) := []
  recs : List (BitVec 128) := []
  /-- the tiles the command moves, and the state it moves each to (R76): true filling, false draining -/
  tiles : List (Nat × Bool) := []
  barGen : BitVec 16 := 0
  vals : SMap 32 := []
  deriving DecidableEq, Repr

/-- Commands of a context that have not completed. -/
def Workgroup.inFlight (w : Workgroup) (c : Ctx) : Nat := (w.cmds.filter fun x => x.id.ctx == c && !x.finished).length

/-- R109, R182, R201: a command issues: it takes the next number of its context, captures its operands and moves its
tiles. The number is returned; the instruction has not retired yet. Its accesses follow every earlier store of its path, performed (R59). -/
def issueCommand (ctx : Ctx) (i : Instr) (active : Word32) (mark : Option Nat) (a : CmdArgs) : Act Nat := do
  if ctx == .tileOp then pure () else awaitPerformed
  let s ← get
  let p := s.path
  let num := (ctxGet s.w.issued ctx).toNat + 1
  let cmd : Command :=
    { id := ⟨s.w.id, ctx, num⟩, instr := i, group := s.g.id, gidx := s.g.gidx, clock := p.clock, lmask := p.mask, active := active
      pc := p.pc, off := p.off, seed := s.g.rseed, nanTrap := s.g.nanctl.getLsbD 0, ops := a.ops, lanes := a.lanes, recs := a.recs
      gens := a.tiles.map fun t => (t.1, BitVec.ofNat 16 (s.tile t.1).gen)
      mark := mark, barGen := a.barGen, staleSent := false, first := 0, done := 0, acked := [], read := [], phase := 0, pos := 0, vals := a.vals
      pins := [], status := 0, stopped := false, settled := false, finished := false }
  let log := if s.g.det then (ctx, num, p.clock) :: s.w.issueClocks else s.w.issueClocks
  set ({ s with
    g := s.g.mark mark
    w := { s.w with cmds := s.w.cmds ++ [cmd], issued := ctxSet s.w.issued ctx (BitVec.ofNat 64 num), issueClocks := log } } : State)
  modify fun s => a.tiles.foldl (fun s t => s.setTileState t.1 (if t.2 then 1 else 3)) s
  pure num

/-- R411: a context that holds its limit of commands makes the next one wait at issue. -/
def checkRoom (ctx : Ctx) (limit : Nat) : Act Unit := do
  let s ← get
  if limit ≤ s.w.inFlight ctx then hold else pure ()

/-- R109: the timeline passes every finished command that no unfinished one precedes; their marks are removed
(Table 11-3). -/
def State.advanceTimeline (s : State) (w : WgId) (ctx : Ctx) : State :=
  match s.wg? w with
  | none => s
  | some wg =>
    let mine := wg.cmds.filter fun c => c.id.ctx == ctx
    let wait := mine.filter fun c => !c.finished
    let bound := (wait.foldl (fun m c => min m c.id.num) ((ctxGet wg.issued ctx).toNat + 1))
    let gone (c : Command) : Bool := c.id.ctx == ctx && decide (c.id.num < bound)
    let s := (mine.filter gone).foldl (fun s c => s.modGroup c.group fun g => g.unmark c.mark) s
    s.modWg w fun wg => { wg with
      cmds := wg.cmds.filter fun c => !gone c
      timelines := ctxSet wg.timelines ctx (BitVec.ofNat 64 (bound - 1)) }

/-- A command without a timeline leaves at once, and its mark goes (Table 11-3). -/
def State.dropCommand (s : State) (c : Command) : State :=
  (s.modGroup c.group fun g => g.unmark c.mark).modWg c.id.wg fun w => { w with cmds := w.cmds.filter fun x => x.id != c.id }

/-- Apply `f` in the workgroup of a command, with its issuing group at issue. -/
def State.inCommand (s : State) (c : Command) (f : State → State) : State := s.withGroup c.group false f

/-- R230 Table 8-6: paths of a deterministic node that wait for a tile which a command holds go on with its issuing
clock at least. -/
def State.endTileWait (s : State) (c : Command) : State :=
  match s.group? c.group with
  | none => s
  | some g =>
    if !g.det || c.gens.isEmpty then s
    else
      let going (x : Group) (slot : Bool) : Bool := s.granted && s.g.id == x.id && s.slot == slot
      let one (x : Group) (slot : Bool) (p : Path) : Path :=
        if p.wait.isSome || going x slot || !(p.tiles.any fun t => c.gens.any fun y => y.1 == t.toNat) then p
        else { p with clock := maxClock p.clock c.clock }
      s.mapGroups fun x => if wgOf x.id == c.id.wg then { x with slot0 := x.slot0.map (one x false), slot1 := x.slot1.map (one x true) } else x

/-- R76, R418: a command completes with a status: its tiles are ready again, its workgroup's error word keeps a
non-zero status, a FAULT marks the node, and the timeline moves on. -/
def State.finish (s : State) (c : Command) (status : Nat) : State :=
  let s := (s.endTileWait c).inCommand c fun s => c.gens.foldl (fun s t =>
    if (s.tile t.1).state = 1 || (s.tile t.1).state = 3 then s.setTileState t.1 2 else s) s
  let s := if status = 0 then s
    else s.modWg c.id.wg fun w => { w with errors := ctxSet w.errors c.id.ctx (BitVec.ofNat 64 (c.id.num % 2 ^ 32 * 2 ^ 32 + status % 256)) }
  let s := if status = 1 then s.modNode c.id.wg.node fun n => { n with faulted := true } else s
  let s := s.modCmd c.id fun x => { x with finished := true, status := BitVec.ofNat 8 status }
  if c.id.ctx == .tileOp then s.dropCommand c else s.advanceTimeline c.id.wg c.id.ctx

/-! ## Faults of commands (R124) -/

/-- A trap of a command, waiting for delivery to its issuer (R124). -/
def Command.deliver (c : Command) (t : Trap) (elem : Nat) (restart : Bool) : Delivered :=
  { cmd := c.id, eng := BitVec.ofNat 4 (engOf c.id.ctx), trap := t, elem := BitVec.ofNat 64 elem, restart := restart
    active := c.active, pc := c.pc + BitVec.ofNat 56 (4 * c.off), clock := c.clock }

/-- R124: a command meets a fault: it stops with its progress record, and the fault waits for delivery. What a tier swap holds
(R44) is no fault: the command goes on at a later event. -/
def State.engineStop (s : State) (c : Command) (t : Trap) (elem : Nat) : State :=
  if t.cause = 0 then s
  else (s.modCmd c.id fun x => { x with stopped := true }).modGroup c.group fun g =>
    { g with pending := g.pending ++ [c.deliver t elem true] }

/-- A trap of a command: cause, sub-cause and level of a fault, its kind (4 read, 5 write) and its VA. -/
def cmdTrap (f : Flt) (kind va : Nat) : Trap :=
  { cause := f.cause, sub := f.sub, lmask := 0, va := BitVec.ofNat 56 va, kind := BitVec.ofNat 4 kind, level := f.level }

/-- R203: a command's NANTRAP carries where the NaN is. -/
def nanVa (eng k row col : Nat) : Nat := place eng 52 4 + place k 16 36 + place row 9 7 + col % 512

def nanTrapOf (c : Command) (k row col : Nat) : Trap :=
  cmdTrap { cause := cNANTRAP, sub := 2 } 4 (nanVa (engOf c.id.ctx) k row col)

/-- R200: a command sets the sticky flags of the group that issued it. -/
def State.cmdFlags (s : State) (c : Command) (f : FpFlags) : State := s.modGroup c.group fun g => g.setFlags f

/-- The rounder of a command's element (R182): the mode, and the bits drawn for its ENG code. -/
def Command.rounder (c : Command) (mode elem : Nat) : Rounder :=
  { mode := mode, rnd := if mode = 5 then rsrBits c.seed c.clock c.gidx (engOf c.id.ctx) elem else 0 }

/-- R124 rule 1: the group that receives a delivered trap: the issuer, or the lowest group of its workgroup that has
not exited. -/
def State.receiver (s : State) (issuer : GroupId) : Option GroupId :=
  let alive := (s.groups.filter fun g => wgOf g.id == wgOf issuer && g.exited != 0xFFFFFFFF).map (·.id)
  if alive.contains issuer then some issuer
  else alive.foldl (fun b g => match b with
    | none => some g
    | some x => if g.j < x.j then some g else some x) none

/-- The pending traps of a workgroup, the lowest ENG code first (R204). R204 orders those that arrive in one cycle; the model keeps its
order for those that arrived in different ones (DESIGN CHOICE, log entry 79). -/
def State.pendingOf (s : State) (w : WgId) : List (GroupId × Delivered) :=
  sortBy (fun a b => decide (a.2.eng.toNat ≤ b.2.eng.toNat))
    ((s.groups.filter fun g => wgOf g.id == w).flatMap fun g => g.pending.map fun d => (g.id, d))

/-- R124 rule 1: the pending traps that a group receives, the lowest ENG code first (R204). -/
def State.pendingFor (s : State) (g : GroupId) : List (GroupId × Delivered) :=
  (s.pendingOf (wgOf g)).filter fun x => s.receiver x.1 == some g

/-- A pending trap is taken off its issuer's list. -/
def State.dropPending (s : State) (g : GroupId) (d : Delivered) : State := s.modGroup g fun x => { x with pending := x.pending.erase d }

/-- R124 rules 2 and 3: the handler lane and the slot of its path. -/
def handlerLane (g : Group) (issued : Option Word32) : Option (Nat × Bool) :=
  let inSlots : List (Nat × Bool) := ((g.slot0.map fun p => (lanesOf p.mask).map fun l => (l, false)).getD [])
    ++ ((g.slot1.map fun p => (lanesOf p.mask).map fun l => (l, true)).getD [])
  let cand : List (Nat × Bool) := match issued with
    | some m => inSlots.filter fun (x : Nat × Bool) => m.getLsbD x.1
    | none => []
  match cand with
  | x :: rest => some (rest.foldl (fun (b y : Nat × Bool) => if y.1 < b.1 then y else b) x)
  | [] =>
    match g.slot0, g.slot1 with
    | some p, _ => some (lowLane p.mask, false)
    | none, some p => some (lowLane p.mask, true)
    | none, none => none

/-- A wait that a delivered trap ends (R124). -/
def endsWait (p : Path) : Bool :=
  match p.wait with
  | none => true
  | some w =>
    match w.on with
    | .walker => false
    | .firstTouch => false
    | _ => true

/-- R124: the trap of a command is taken at the boundary of the path that holds the handler lane. Where its frame cannot be written
(R258), it waits for delivery again (`nestedFault`). -/
def State.takeDelivered (s : State) (issuer : GroupId) (d : Delivered) : State :=
  match handlerLane s.g (if s.g.id == issuer then some d.active else none) with
  | none => s
  | some (lane, slot) =>
    let p := (s.g.path? slot).getD Path.empty
    if !endsWait p then s
    else
      let s := s.dropPending issuer d
      let s := ({ s with slot := slot, g := { s.g with ovr := none, serving := some d } } : State).endWait
      s.enterHandler { trap := { d.trap with lmask := 1#32 <<< lane }, iw := p.frameWords, async := true, eng := d.eng
                       tlnum := BitVec.ofNat 64 d.cmd.num, elem := d.elem }

/-- R124: a command's fault after every group of its workgroup has exited is recorded by the device, and the command
completes with status FAULT. In a deterministic node the record waits for its place in key order (R228, R229). A trap whose command
runs on (BARSTALE, R275) leaves no record: R124 speaks of commands that a fault stops (DESIGN CHOICE, log entry 79). -/
def State.recordFault (s : State) (issuer : GroupId) (d : Delivered) : State :=
  let free := match s.cmd? d.cmd with
    | some c => !d.restart || s.recordFree c
    | none => true
  if !free then s
  else
  let s := s.dropPending issuer d
  match s.cmd? d.cmd, s.group? issuer with
  | some c, some g =>
    if d.restart then
      (s.devicePost { pos := BitVec.ofNat 64 c.id.num, pc := c.pc + BitVec.ofNat 56 (4 * c.off), lmask := 0, gidx := c.gidx, node := c.id.wg.node
                      core := g.core, die := g.die, eng := d.eng, kind := d.trap.kind, asid := g.asid, sub := d.trap.sub, cause := d.trap.cause
                      level := d.trap.level, va := d.trap.va }).finish c 1
    else s
  | _, _ => s

/-- R124, R204: the delivery of the first pending trap that a group receives, if it can be taken now; with no group left, the
device records the first pending trap of the workgroup. -/
def State.deliver (s : State) (g : GroupId) : State :=
  if s.allExited (wgOf g) then
    match s.pendingOf (wgOf g) with
    | [] => s
    | (issuer, d) :: _ => s.recordFault issuer d
  else
    match s.pendingFor g with
    | [] => s
    | (issuer, d) :: _ => s.withGroup g false fun s => if s.g.supv || s.g.stop == .stopped then s else s.takeDelivered issuer d

end Sys2Proof.Machine
end

