-- ==== Sys2Proof/Machine/Issue.lean ====
section
/-! DEFINITION. Fetching, granting and issuing clauses (spec/11 R278 to R282; spec/09 R250, R251), words that are no
instruction (R287, R295), and the hang detector (spec/08 R218 to R220). -/

namespace Sys2Proof.Machine

/-! ## Fetch (R282) -/

/-- `n` bytes of code read line by line; the first line that faults ends the read. -/
def State.fetchLines (s : State) (va : Nat) (lens : List Nat) : State × Except Flt (List Byte) :=
  match lens with
  | [] => (s, .ok [])
  | n :: rest =>
    match s.translate s.here s.g.asid { fetch := true } va with
    | (s, .error f) => (s, .error f)
    | (s, .ok x) =>
      let s := s.requestLine x false true
      let pa := x.pas.headD 0
      if s.rangePoisoned pa n then (s, .error eccPoison)
      else match s.fetchLines (va + n) rest with
        | (s, .ok more) => (s, .ok ((List.range n).map (fun i => s.codeByte (pa + i)) ++ more))
        | (s, .error f) => (s, .error f)

/-- `n` words of code from a virtual address. -/
def State.fetchCode (s : State) (va n : Nat) : State × Except Flt (List Word32) :=
  match s.fetchLines va ((lineChunks va (List.replicate (4 * n) 0)).map List.length) with
  | (s, .ok bs) => (s, .ok (wordsOfBytes bs))
  | (s, .error f) => (s, .error f)

/-- A fault of the path's clause header: OFFSET 0, the path's mask and VA 0 (R295), and IW0 is the header where it was read
(R280, R282). A fetch that a tier swap holds waits (R44). What ERET left to replay stays in the queue, behind the header (R260, R261),
of which the slot holds 16 entries. -/
def State.headerTrap (s : State) (f : Flt) (kind : Nat) (w : Word32) : State :=
  let p := s.path
  if f.isHold then s
  else
    let rs := (p.replay.take 16).map s.g.captured
    (s.setPath { p with off := 0, replay := (rs.take 1) ++ rs }).enterHandler
    { trap := { cause := f.cause, sub := f.sub, lmask := p.mask, va := 0, kind := BitVec.ofNat 4 kind, level := f.level }
      iw := [w] }

/-- Where the path's clause header lies (R12: not below 2^56 where a fall-through passed it). -/
def Path.headerAt (p : Path) : Nat := p.pc.toNat + if p.top then 2 ^ 56 else 0

/-- R278, R280, R282, R295: the whole clause at the path's pc is fetched, and then its header is checked; a path that stands
after its last word moves to the next header. A word that is no header at all has no body to fetch. -/
def State.fetchClause (s : State) : State :=
  let p := s.path
  let pc := p.headerAt
  match s.fetchCode pc 1 with
  | (s, .error f) => s.headerTrap f 3 0
  | (s, .ok ws) =>
    let w := ws.headD 0
    let bad : Flt := { cause := cILLCL, sub := 1 }
    if bitsOf w.toNat 30 2 != 3 then s.headerTrap bad 0 w
    else match s.fetchCode (pc + 4) (bodyLen w) with
      | (s, .error f) => s.headerTrap f 3 w
      | (s, .ok body) =>
        if !headerOk w || pc % 4 != 0 then s.headerTrap bad 0 w
        else if bodyLen w < p.off then s.setPath { p with clause := some (w :: body) }.next
        else s.setPath { p with clause := some (w :: body) }

/-- A path that is not parked, or parked only until its order-visible event is the lowest (R229). -/
def Path.unparked (p : Path) : Bool :=
  match p.wait with
  | none => true
  | some w => w.on == .order

/-- A path that may fetch and issue: in a live slot that no trap holds, of a resident group that has not stopped, and
not parked (R250). -/
def Group.canIssue (g : Group) (slot : Bool) : Bool :=
  match g.path? slot with
  | none => false
  | some p => p.unparked && g.held != some slot && g.stop != .stopped

/-- R229: the path's event is the lowest of its node. -/
def State.orderFree (s : State) (g : Group) (slot : Bool) (p : Path) : Bool :=
  match p.wait with
  | none => true
  | some w => s.lowestFor w.instr g.id.node ⟨p.clock.toNat, g.gidx, lowLane p.mask, 0⟩ (some (g.id, slot))

def Workgroup.running (w : Workgroup) : Bool := w.state == .resident || w.state == .stopping

/-- CLAUSE_FETCH (R282). -/
def execClauseFetch (g : GroupId) (slot : Bool) (s : State) : Host.Outcome State Fault Refusal :=
  .next (match s.group? g, s.wg? (wgOf g) with
    | some x, some w =>
      if x.canIssue slot && w.running && ((x.path? slot).map fun p => p.clause.isNone).getD false then
        s.withGroup g slot State.fetchClause
      else s
    | _, _ => s)

/-! ## Grants (R250, R251) -/

/-- R250: a clause is eligible: the flags of WAIT are clear and no tile that it names is filling or draining. -/
def eligible (g : Group) (w : Workgroup) (p : Path) : Bool :=
  let flags := (List.range 12).all fun k => !(bitOf p.header.toNat (18 + k)) || g.qflags.get k == 0
  flags && p.tiles.all fun t =>
    let st := (Tile.ofBits (w.tiles.get t.toNat)).state
    !(decide (t.toNat < w.ntiles) && (st == 1 || st == 3))

/-- A group's clause may be granted now. -/
def State.grantable (s : State) (g : GroupId) (slot : Bool) : Bool :=
  match s.group? g, s.wg? (wgOf g) with
  | some x, some w =>
    x.canIssue slot && w.running && match x.path? slot with
      | some p => p.clause.isSome && eligible x w p && s.orderFree x slot p
      | none => false
  | _, _ => false

/-! ### The choice of an issue quarter (R251) -/

/-- Two groups share an issue quarter. -/
def sameQuarter (a b : Group) : Bool := a.die == b.die && a.core == b.core && a.quarter == b.quarter

/-- The slot that a group offers: of two eligible clauses, the one of the slot it was not last granted (R217). -/
def State.offered (s : State) (g : Group) : Option Bool :=
  let first := !g.lastSlot
  if s.grantable g.id first then some first else if s.grantable g.id (!first) then some (!first) else none

/-- The order of two groups where waiting decides nothing: their places in the quarter, for which the model takes node,
workgroup and local index (DESIGN CHOICE, log entry 76). -/
def idLe (a b : GroupId) : Bool :=
  decide (a.node < b.node) || (a.node == b.node && (decide (a.w < b.w) || (a.w == b.w && decide (a.j ≤ b.j))))

/-- Where deterministic and other candidates share a quarter, which R251 does not order: a deterministic one comes first, and
one that has yielded last (DESIGN CHOICE, log entry 76). -/
def Group.grantClass (g : Group) : Nat := if g.det then (if g.yielded then 2 else 0) else 1

/-- R251: candidate `a` is granted before candidate `b`: one that has waited 448 cycles first, the oldest of them; of two
deterministic ones the least (clock, g); of two others the one that has waited longest. A group that has yielded loses every tie
and every deterministic comparison. -/
def ahead (a b : Group × Path) : Bool :=
  let tie := if a.1.yielded != b.1.yielded then b.1.yielded else idLe a.1.id b.1.id
  if 448 ≤ a.1.waited ∨ 448 ≤ b.1.waited then decide (b.1.waited < a.1.waited) || (a.1.waited == b.1.waited && tie)
  else if a.1.grantClass != b.1.grantClass then decide (a.1.grantClass < b.1.grantClass)
  else if a.1.det then
    decide (a.2.clock.toNat < b.2.clock.toNat) || (a.2.clock == b.2.clock && (decide (a.1.gidx < b.1.gidx)
      || (a.1.gidx == b.1.gidx && idLe a.1.id b.1.id)))
  else decide (b.1.waited < a.1.waited) || (a.1.waited == b.1.waited && tie)

/-- R251: the candidate of a group's quarter that is granted is the group's slot. -/
def State.chosen (s : State) (g : Group) (slot : Bool) : Bool :=
  s.offered g == some slot && match g.path? slot with
    | none => false
    | some p => s.groups.all fun x => x.id == g.id || !sameQuarter x g ||
        match s.offered x with
        | none => true
        | some b => match x.path? b with
          | some q => ahead (g, p) (x, q)
          | none => true

/-- A grant that another quarter holds still stands: its path is where the grant left it, able to issue. -/
def State.stillGranted (s : State) (g : GroupId) (slot : Bool) : Bool :=
  s.quarters.any fun q => q.1 == g && q.2.1 == slot && match s.group? g, s.wg? (wgOf g) with
    | some x, some w => x.canIssue slot && w.running && match x.path? slot with
        | some p => p.pc == q.2.2 && p.clause.isSome && p.wait.isNone && decide (1 ≤ p.off)
        | none => false
    | _, _ => false

/-- A quarter in which no group holds a grant. -/
def State.quarterFree (s : State) (g : Group) : Bool :=
  !(s.granted && sameQuarter s.g g) && s.quarters.all fun q => match s.group? q.1 with
    | some x => !sameQuarter x g || !s.stillGranted q.1 q.2.1
    | none => true

/-- The grants that still stand are kept: one whose path has trapped, stopped or moved has ended (R251). -/
def State.pruneQuarters (s : State) : State := { s with quarters := s.quarters.filter fun q => s.stillGranted q.1 q.2.1 }

/-- The grant of the quarter at issue is kept while another quarter issues. -/
def State.setAside (s : State) : State :=
  if s.granted then { s with quarters := (s.g.id, s.slot, s.path.pc) :: s.quarters } else s

/-- The group at issue stands at its clause's next instruction, with a grant; where ERET executed the header again, that is the first
entry of what it left to replay (R261), for which the grant ends if it lies in another clause. -/
def State.grant (s : State) : State :=
  let s := s.endWait
  let p := s.path
  let s : State := { s with granted := true, g := { s.g with yielded := false, lastSlot := s.slot, waited := 0 } }
  match p.off, p.replay with
  | 0, r :: rest =>
    s.afterAdvance p ({ p with pc := r.pc, off := r.off, clause := if r.pc = p.pc then p.clause else none, replay := r :: rest } : Path).replayClock
  | _, _ => s.setPath { p with off := max 1 p.off }

/-- CLAUSE_GRANT (R251): a quarter without a grant grants the candidate of its choice; the grant of another quarter goes on. -/
def execClauseGrant (g : GroupId) (slot : Bool) (s : State) : Host.Outcome State Fault Refusal :=
  .next (if s.tripped then s
    else if s.stillGranted g slot then
      let s := s.setAside
      match ({ s with quarters := s.quarters.filter fun q => !(q.1 == g && q.2.1 == slot) } : State).focus g slot with
      | some t => { t with granted := true }
      | none => s
    else match s.group? g with
      | none => s
      | some x =>
        if s.grantable g slot && s.quarterFree x && s.chosen x slot then
          match s.setAside.focus g slot with
          | some t => t.grant
          | none => s
        else s)

/-- GRANT_EXPIRY (R251): the clause resumes at a later grant. -/
def execGrantExpiry (s : State) : Host.Outcome State Fault Refusal := .next (if s.granted then s.endGrant else s)

/-! ## Words that are no instruction (R280, R287, R295) -/

/-- The cause and sub-cause of a decoding error (Table 10-4). -/
def errorCause (e : DecodeError) : BitVec 8 × BitVec 8 :=
  match e with
  | .opcode => (cILLOP, 1)
  | .field => (cILLOP, 2)
  | .annot => (cILLOP, 3)
  | .header => (cILLCL, 1)
  | .straddle => (cILLCL, 2)

/-- The first word of an instruction that an F-core does not have (R386). -/
def onlyA (w : Word32) : Bool := w.getLsbD 31 && [0xB4, 0xB5, 0xB6, 0xB8, 0xB9].contains (bitsOf w.toNat 22 9)

/-- What a word that is no instruction raises on a die: OPCODE comes before a field's fault (R295). -/
def errorOn (die : BitVec 2) (e : DecodeError) (w : Word32) : DecodeError :=
  match e with
  | .field | .annot => if 2 ≤ die.toNat && onlyA w then .opcode else e
  | _ => e

/-- R281, R295: where a transfer whose fields are wrong would go: RET, and the branches on a condition mask that are taken. -/
def State.badTransfer (s : State) (w : Word32) : Option Word64 :=
  let n := w.toNat
  let op := bitsOf n 24 7
  let m := s.g.mreg (bitsOf n 17 4)
  let c := s.path.mask &&& if bitOf n 21 then ~~~m else m
  if bitOf n 31 then none
  else if op = 0x42 then some (s.g.sregs.get (bitsOf n 10 7))
  else if (op = 0x47 ∧ c ≠ 0) ∨ (op = 0x4A ∧ c ≠ 0) ∨ (op = 0x4B ∧ c = s.path.mask) then some (s.target (BitVec.ofNat 17 n))
  else none

/-- What the target of such a transfer is refused for, which comes before ILLOP (R295). -/
def illegalWord (e : DecodeError) (w : Word32) : Act Unit := do
  let s ← get
  match e, s.badTransfer w with
  | .field, some target => checkTarget target
  | _, _ => pure ()
  let (cause, sub) := errorCause (errorOn s.g.die e w)
  trapAll cause sub 0

/-- UNASSIGNED_OPCODE (R287): the word at issue is no instruction: ILLOP or ILLCL before any effect. IW0 is the
offending word. -/
def execUnassignedOpcode (e : DecodeError) (w : Word32) (s : State) : Host.Outcome State Fault Refusal :=
  .next (if s.live && (s.g.path? s.slot).isSome then
      match (illegalWord e w).run.run s with
      | (.error (.trap t), s) => s.enterHandler { trap := t, iw := if e == .header then [w] else s.path.frameWords }
      | (_, s) => s
    else s)

/-! ## The hang detector -/

/-- A wait of Table 8-6: those of R219 to R230 in which an instruction parks. SPGRANT's is none of them. -/
def Wait.listed (w : Wait) : Bool :=
  match w.on with
  | .timeline _ _ | .barrier _ _ _ _ _ | .claim _ _ | .queue _ | .monitor _ => true
  | .channel _ => match w.instr with
    | .spsend _ | .sprecv _ => true
    | _ => false
  | .walker | .nodeDone _ | .firstTouch | .order => false

/-- A path that is not parked in a wait of Table 8-6: neither in an instruction's wait, nor stalled for an operand, an accumulator or a
tile, nor, without a grant, before a clause whose completion flags or tiles it waits for (DEDUCED, log entry 81). -/
def Path.counts (p : Path) (g : Group) (w : Workgroup) (granted : Bool) : Bool :=
  match p.wait with
  | some x => !x.listed
  | none => !p.stalled && (granted || p.clause.isNone || eligible g w p)

/-- The hang counter counts: resident, outside supervisor mode, and not every live path parked in a wait of Table 8-6 (R219); `granted` is
the slot that holds a grant, if one does. -/
def Group.counts (g : Group) (w : Workgroup) (granted : Option Bool) : Bool :=
  let runs (slot : Bool) : Bool := ((g.path? slot).map fun p => p.counts g w (granted == some slot)).getD false
  !g.supv && g.stop != .stopped && (runs false || runs true)

/-- R218: HANGLIM, in cycles. -/
def Group.hangLim (g : Group) : Nat := 2 ^ (g.hangctl.toNat % 64)

/-- The counter has reached HANGLIM (R220). -/
def Group.hangDue (g : Group) : Bool := decide (g.hangLim ≤ g.hang.toNat)

/-- R220: the counter has reached HANGLIM. -/
def Group.hangs (g : Group) : Group :=
  { g with gstat := setBit g.gstat 2 true, hang := 0, hangPending := g.hangPending || g.hangctl.getLsbD 8 }

/-- HANG_LIMIT (R220): a group whose counter has reached HANGLIM. -/
def execHangLimit (g : GroupId) (s : State) : Host.Outcome State Fault Refusal :=
  .next (s.modGroup g fun x => if x.hangDue then x.hangs else x)

/-- R219, R220, R251: core cycles pass for a group of workgroup `w`; `granted` is the slot that holds a grant, if one does. A counter that
reaches HANGLIM acts before the group's next instruction (DESIGN CHOICE, log entry 2). -/
def Group.pass (g : Group) (w : Workgroup) (granted : Option Bool) (cycles : BitVec 48) : Group :=
  let g := if g.counts w granted then { g with hang := g.hang + cycles } else g
  let g := if g.hangDue then g.hangs else g
  if granted.isSome then g else { g with waited := g.waited + cycles.toNat }

/-- R220: the instruction at issue raises HANG before any effect. -/
def State.takeHang (s : State) : State :=
  ({ s with g := { s.g with hangPending := false } } : State).takeTrap
    { cause := cHANG, sub := 1, lmask := s.path.mask, va := 0, kind := 0, level := 0xF }

/-- HANG_TRAP (R220): taken at the group's next instruction to reach issue outside supervisor mode (DEDUCED, log entry 27). -/
def execHangTrap (g : GroupId) (s : State) : Host.Outcome State Fault Refusal :=
  .next (if s.live && s.g.id == g && s.granted && s.g.hangPending && !s.g.supv then s.takeHang else s)

end Sys2Proof.Machine
end

