-- ==== Sys2Proof/Machine/Nodes.lean ====
section
/-! DEFINITION. The node table and the scheduler (spec/09 R237 to R248): descriptors, posting, decrements, occupancy
(spec/03 R86), placement and launch (spec/08 R208), and completion with its exchange (spec/08 R233 to R236). -/

namespace Sys2Proof.Machine

/-! ## Accesses of the device in an address space -/

/-- Bytes read line by line in an ASID by the scheduler; undrained stores are not seen (R109), poison is a fault. -/
def State.readLines (s : State) (a : Where) (asid : BitVec 12) (va : Nat) (lens : List Nat) : State × Except Flt (List Byte) :=
  match lens with
  | [] => (s, .ok [])
  | n :: rest =>
    match s.translate a asid { now := true } va with
    | (s, .error f) => (s, .error f)
    | (s, .ok x) =>
      let s := s.requestLine x false true
      let pa := x.pas.headD 0
      if s.rangePoisoned pa n then (s, .error eccPoison)
      else match s.readLines a asid (va + n) rest with
        | (s, .ok more) => (s, .ok (s.bytes pa n ++ more))
        | (s, .error f) => (s, .error f)

def State.readVa (s : State) (a : Where) (asid : BitVec 12) (va n : Nat) : State × Except Flt (List Byte) :=
  s.readLines a asid va ((lineChunks va (List.replicate n 0)).map List.length)

/-- The scheduler's accesses in an address space use the cache of A0. -/
def schedWhere : Where := ⟨0, none⟩

/-! ## Descriptors (R237, R238 Table 9-2) -/

/-- A field of a descriptor. -/
def dfield (d : BitVec 1024) (lo w : Nat) : Nat := bitsOf d.toNat lo w

def Node.f (n : Node) (lo w : Nat) : Nat := dfield n.desc lo w
def Node.w (n : Node) : Nat := n.f 64 16
def Node.gcount (n : Node) : Nat := n.f 80 5 + 1
def Node.pair (n : Node) : Bool := n.f 95 1 == 1
def Node.cls (n : Node) : Nat := n.f 96 1
def Node.prio (n : Node) : Nat := n.f 97 3
def Node.twin (n : Node) : Bool := n.f 101 1 == 1
def Node.det (n : Node) : Bool := n.f 100 1 == 1 || n.twin
def Node.pclass (n : Node) : Nat := n.f 102 2
def Node.asid (n : Node) : BitVec 12 := BitVec.ofNat 12 (n.f 116 12)
def Node.regs (n : Node) : Nat := 64 * (n.f 90 5 + 1)
def Node.tiles (n : Node) : Nat := n.f 214 9
def Node.slots (n : Node) : Nat := n.f 224 5
/-- Segments of core scratchpad, quad-memory and die-scratchpad granules (R65). -/
def Node.segs (n : Node) : Nat := (n.f 192 20 + 16383) / 16384
def Node.quadGran (n : Node) : Nat := (n.f 256 21 + 65535) / 65536
def Node.dieGran (n : Node) : Nat := (n.f 288 27 + 1048575) / 1048576
def Node.tdesc (n : Node) : Nat := n.f 384 56

/-- Entries of the node table, and the address of a descriptor (R237). -/
def State.nodeCount (s : State) : Nat := 2 ^ bitsOf s.regs.nodetab.toNat 0 5
def State.nodePa (s : State) (ix : Nat) : Nat := bitsOf s.regs.nodetab.toNat 12 40 * 4096 + 128 * ix

def State.descAt (s : State) (ix : Nat) : BitVec 1024 := BitVec.ofNat 1024 (s.num (s.nodePa ix) 128)

/-- The device reads a descriptor of the table by its physical address (R40, R49). -/
def State.readDesc (s : State) (ix : Nat) : State := if ix < s.nodeCount then s.plainRequest (s.nodePa ix) else s

/-- The device writes STATE, STATUS, RUNS or READYTK of a descriptor (R238). -/
def State.setDesc (s : State) (ix byte n v : Nat) : State := s.storeNum (s.nodePa ix + byte) n v
/-- STATE is bits [2:0] of its byte; the device leaves the reserved bits beside it as they are. -/
def State.setNodeState (s : State) (ix v : Nat) : State := s.setDesc ix 88 1 (s.num (s.nodePa ix + 88) 1 / 8 * 8 + v)

/-- The reserved fields of a descriptor: low bit and width (Table 9-2). -/
def reservedFields : List (Nat × Nat) :=
  [(56, 8), (105, 11), (212, 2), (223, 1), (229, 11), (277, 11), (315, 5), (376, 8), (440, 8), (504, 8), (528, 48), (696, 8)
  , (707, 5), (752, 16), (896, 128)]

/-- Cores of a die (R4), and the die scratchpad of a class in granules (Table 3-1). -/
def coresOf (die : Nat) : Nat := if die < 2 then 128 else 160
def dieGranules (cls : Nat) : Nat := if cls = 0 then 64 else 48

/-- Groups on the leader and on the follower (R247). -/
def Node.split (n : Node) : Nat × Nat := if n.pair then ((n.gcount + 1) / 2, n.gcount / 2) else (n.gcount, 0)

/-- Workgroups of a node that one empty core or pair holds (R86). -/
def Node.perCore (n : Node) : Nat :=
  let lim (used total : Nat) : Nat := if used = 0 then 65536 else total / used
  let g := n.split.1
  [lim g 32, lim (g * n.regs) 4096, lim n.segs 32, lim n.tiles 256, lim n.slots 16, if n.slots = 0 then 65536 else 1].foldl min 65536

/-- R227, R241: all workgroups of the node could stand together on the empty package (DEDUCED, log entry 29). -/
def Node.couldGang (n : Node) : Bool :=
  let cores := 2 * coresOf (2 * n.cls)
  decide (n.w ≤ n.perCore * (if n.pair then cores / 2 else cores))

/-- R243, R74: the node's tile array: the entries, or none where one cannot be read or fails a check. -/
def State.tileArray (s : State) (n : Node) : State × Option (List (Nat × Nat)) :=
  if n.tdesc = 0 then (s, some [])
  else match s.readVa schedWhere n.asid n.tdesc (32 * n.tiles) with
    | (s, .error _) => (s, none)
    | (s, .ok bs) =>
      let es := (chunks 32 n.tiles bs).map fun e => (natOf (e.take 8), natOf ((e.drop 8).take 8))
      let good (e : Nat × Nat) : Bool :=
        let t := Tile.ofBits (BitVec.ofNat 256 (e.1 + e.2 * 2 ^ 64))
        !t.bad && decide (t.addr + t.footprint ≤ n.segs * 16384)
      (s, if es.all good then some es else none)

/-- R241: what refuses a posted descriptor. -/
def State.badNode (s : State) (n : Node) : State × Bool :=
  let s := s.plainRequest (bitsOf s.regs.asidbase.toNat 16 36 * 65536 + 16 * n.asid.toNat)
  let plain := reservedFields.any (fun r => n.f r.1 r.2 != 0) || n.pclass == 3 || n.w == 0 || n.f 128 32 == 0
    || decide (n.gcount ≤ n.f 85 5) || decide (524288 < n.f 192 20) || decide (256 < n.tiles) || decide (16 < n.slots)
    || decide (1048576 < n.f 256 21) || decide (dieGranules n.cls * 1048576 < n.f 288 27) || decide (4096 < n.split.1 * n.regs)
    || !bitOf (s.num (bitsOf s.regs.asidbase.toNat 16 36 * 65536 + 16 * n.asid.toNat) 1) 0
  if plain then (s, true)
  else match s.tileArray n with
    | (s, none) => (s, true)
    | (s, some _) => (s, n.det && !n.couldGang)

/-! ## Readiness and decrements (R244, R245) -/

/-- The low or high half of SCHEDSTAT rises by one (Table 9-6). -/
def State.bumpSched (s : State) (lo : Nat) : State := { s with regs := { s.regs with schedstat := bumpField s.regs.schedstat lo 32 } }

/-- R245: a node becomes READY and takes a ticket. -/
def State.makeReady (s : State) (ix : Nat) : State :=
  let t := s.readyTicket
  let s := { s.modNode ix fun n => { n with ready := true, ticket := t } with readyTicket := t + 1 }
  (s.setNodeState ix 2).setDesc ix 96 8 t.toNat

/-- R244: one decrement of a node's dependence counter: the counter after it, and whether it was already zero. -/
def State.decrement (s : State) (ix : Nat) : State × Nat × Bool :=
  let pa := s.nodePa ix + 20
  let s := s.readDesc ix
  let c := s.num pa 4
  if c = 0 then (s.bumpSched 0, 0, true)
  else
    let s := s.storeNum pa 4 (c - 1)
    match s.node? ix with
    | some n => (if c = 1 && !n.ready then s.makeReady ix else s, c - 1, false)
    | none => (s, c - 1, false)

/-- A successor's decrement; an index outside the table names no node. -/
def State.release (s : State) (ix : Nat) : State := if ix < s.nodeCount then (s.decrement ix).1 else s

/-! ## DONE (R239) -/

/-- The successors of a node; none where the array cannot be read. -/
def State.successors (s : State) (n : Node) : State × Option (List Nat) :=
  let k := n.f 512 16
  if k ≤ 6 then (s, some ((List.range k).map fun i => n.f (576 + 20 * i) 20))
  else match s.readVa schedWhere n.asid (n.f 576 56) (4 * k) with
    | (s, .error _) => (s, none)
    | (s, .ok bs) => (s, some ((chunks 4 k bs).map natOf))

/-- R239, R65: a node reaches DONE with a status: RUNS and STATUS are written, its grants go, its successors are
decremented where it is OK, and the host is interrupted if IRQ = 1. -/
def State.doneNode (s : State) (n : Node) (status : Nat) : State :=
  let ix := n.index
  let (s, succ) := if status = 0 then s.successors n else (s, some [])
  let status := if succ.isNone then 1 else status
  let s := s.readDesc ix
  let old := s.num (s.nodePa ix + 90) 4
  let runs := match s.ranSince with
    | none => old + 1
    | some l => if l.contains ix then old + 1 else 1
  let gone := s.grants.filter fun g => g.node == ix && g.quad.isNone
  let s := { s with
    ranSince := s.ranSince.map fun (l : List Nat) => if l.contains ix then l else ix :: l
    nodes := s.nodes.filter fun x => x.index != ix
    arrivals := s.arrivals.filter fun a => a.home / 2 ^ 32 != ix
    poolUsed := s.poolUsed.filter fun p => !(gone.any fun g => g.die.toNat == p.1 && g.base == p.2.1)
    grants := s.grants.filter fun g => g.node != ix }
  let s := ((s.setDesc ix 89 1 status).setDesc ix 90 4 (runs % 2 ^ 32)).setNodeState ix 4
  let s := if status = 0 then (succ.getD []).foldl State.release s else s
  if n.f 104 1 = 1 then s.raiseVector 1 else s

/-! ## Posting (R240, R241) -/

/-- A node as the scheduler holds it after a post. -/
def newNode (ix : Nat) (d : BitVec 1024) : Node :=
  { index := ix, desc := d, ticket := 0, ready := false, placed := 0, complete := 0, faulted := false, badTiles := false
    aged := false, exchanging := false, stream := [], code := [], own := [] }

/-- R240, R241: post a node, for a group's ASID or for the host: 0 accepted, 1 refused, 2 refused with BADNODE. A node
that the scheduler holds is not IDLE, whatever its STATE reads (DEDUCED, log entry 30). -/
def State.postNode (s : State) (ix : Nat) (asid : Option (BitVec 12)) : State × Nat :=
  let s := s.readDesc ix
  let d := s.descAt ix
  let n := newNode ix d
  let other := match asid with | some a => n.asid != a | none => false
  if decide (s.nodeCount ≤ ix) || dfield d 704 3 != 0 || (s.node? ix).isSome || other then (s.bumpSched 32, 1)
  else match s.badNode n with
    | (s, true) => ((s.bumpSched 32).doneNode n 3, 2)
    | (s, false) =>
      let s := { s with nodes := s.nodes ++ [n] }
      (if dfield d 160 32 = 0 then s.makeReady ix else s.setNodeState ix 1, 0)

/-! ## Occupancy (R86) -/

/-- What the resident workgroups of a core hold. -/
structure CoreUse where
  quarters : List Nat
  regs : Nat
  segs : Nat
  tiles : Nat
  slots : Nat
  holder : Bool
  deriving DecidableEq, Repr

/-- A workgroup that occupies its cores; `gone` are treated as released (R248). -/
def Workgroup.occupies (gone : List WgId) (w : Workgroup) : Bool :=
  !gone.contains w.id && match w.state with | .saved _ => false | _ => true

/-- The operand slots of a workgroup lie on its core, or on both cores of its pair (R80). -/
def Workgroup.onCore (w : Workgroup) (die : BitVec 2) (core : Nat) : Bool :=
  w.die == die && (w.core == core || (w.pair && w.core + 1 == core))

def State.coreUse (s : State) (gone : List WgId) (die : BitVec 2) (core : Nat) : CoreUse :=
  let ws := s.wgs.filter fun w => w.occupies gone && w.onCore die core
  let gs := s.groups.filter fun g => g.die == die && g.core == core && ws.any fun w => w.id == wgOf g.id
  let lead := ws.filter fun w => w.core == core
  { quarters := (List.range 4).map fun q => (gs.filter fun g => g.quarter == q).length
    regs := (gs.map (·.vcount)).foldl (· + ·) 0
    segs := (lead.map fun w => w.scrSize / 16384).foldl (· + ·) 0
    tiles := (lead.map (·.ntiles)).foldl (· + ·) 0
    slots := (ws.map (·.nslots)).foldl (· + ·) 0
    holder := ws.any fun w => w.nslots != 0 }

/-- R247: `g` more groups go each to the quarter with the fewest, the lower among equals. -/
def assignQuarters (q : List Nat) (g : Nat) : Option (List Nat) :=
  match g with
  | 0 => some []
  | g + 1 =>
    let best := (List.range 4).foldl (fun b i => if q.getD i 0 < q.getD b 0 then i else b) 0
    if 8 ≤ q.getD best 0 then none else (assignQuarters (q.set best (q.getD best 0 + 1)) g).map fun r => best :: r

/-- R86 for one core: the quarters of the groups that would go there. -/
def Node.fitCore (n : Node) (u : CoreUse) (leader : Bool) : Option (List Nat) :=
  let g := if leader then n.split.1 else n.split.2
  if decide (4096 < u.regs + g * n.regs) || (leader && (decide (32 < u.segs + n.segs) || decide (256 < u.tiles + n.tiles)))
      || decide (16 < u.slots + n.slots) || (n.slots != 0 && u.holder) then none
  else assignQuarters u.quarters g

/-- The first granule of a run of free granules of a die's pool (DESIGN CHOICE, log entry 25). -/
def State.freeRun (s : State) (die : BitVec 2) (count : Nat) : Option Nat :=
  let used := s.poolUsed.filter fun p => p.1 == die.toNat
  let total := dieGranules (die.toNat / 2)
  ((0 :: used.map fun p => p.2.1 + p.2.2).filter fun b =>
    decide (b + count ≤ total) && used.all fun p => decide (b + count ≤ p.2.1) || decide (p.2.1 + p.2.2 ≤ b)).foldl
      (fun m b => some (match m with | none => b | some x => min x b)) none

/-- R247: a first placement of the node on a quad or die finds its granules. -/
def State.granulesFree (s : State) (n : Node) (die : BitVec 2) (core : Nat) : Bool :=
  let quad := quadOf core
  let usedQuad := (s.grants.filter fun g => g.die == die && g.quad == some quad).foldl (fun a g => a + g.size / 65536) 0
  (n.quadGran == 0 || (s.grantIx n.index die (some quad)).isSome || decide (usedQuad + n.quadGran ≤ 16))
    && (n.dieGran == 0 || (s.grantIx n.index die none).isSome || (s.freeRun die n.dieGran).isSome)

/-- A place for a workgroup: die, leader core, and the quarters of its groups on the leader and on the follower. -/
structure Spot where
  die : BitVec 2
  core : Nat
  lead : List Nat
  follow : List Nat
  load : Nat
  deriving DecidableEq, Repr

/-- R247: the place for a workgroup of the node at a core, if it fits there. -/
def State.spotAt (s : State) (gone : List WgId) (n : Node) (home : Option (BitVec 2 × Nat)) (die : BitVec 2) (core : Nat) : Option Spot :=
  let away := match home with
    | none => false
    | some (d, c) => (n.quadGran != 0 && !(d == die && quadOf c == quadOf core)) || (n.dieGran != 0 && d != die)
  if away || (n.pair && core % 2 == 1) || !s.granulesFree n die core then none
  else
    let u := s.coreUse gone die core
    let count (u : CoreUse) : Nat := u.quarters.foldl (· + ·) 0
    match n.fitCore u true with
    | none => none
    | some lead =>
      if !n.pair then some ⟨die, core, lead, [], count u⟩
      else
        let v := s.coreUse gone die (core + 1)
        (n.fitCore v false).map fun follow => ⟨die, core, lead, follow, count u + count v⟩

/-- R247: the core with the fewest resident groups, then the lowest die, then the lowest core. -/
def State.spot (s : State) (gone : List WgId) (n : Node) (home : Option (BitVec 2 × Nat)) : Option Spot :=
  [2 * n.cls, 2 * n.cls + 1].foldl (fun best d =>
    (List.range (coresOf d)).foldl (fun best core =>
      match s.spotAt gone n home (BitVec.ofNat 2 d) core with
      | none => best
      | some x => match best with
        | none => some x
        | some b => if x.load < b.load then some x else best) best) none

/-! ## Launch (R208, R242, R243) -/

/-- The address of the private area of group `g` (R242); it does not wrap at 2^56 (R12). -/
def Node.privAt (n : Node) (g : Nat) : Nat := n.f 320 56 + g * (n.f 240 16 * 128 + 1024)

/-- The private record of group `g` (R33, R242). -/
def Node.privRec (n : Node) (g : Nat) : BitVec 128 :=
  BitVec.ofNat 128 (n.privAt g % 2 ^ 56 + 2 * 2 ^ 56 + 2 ^ 59 + n.f 240 16 * 2 ^ 64 + 4 * 2 ^ 96)

/-- R208: a group at launch. -/
def Node.launch (n : Node) (w j : Nat) (die : BitVec 2) (core quarter : Nat) : Group :=
  let g := w * n.gcount + j
  let lmask := BitVec.ofNat 32 (n.f 128 32)
  { Group.empty with
    id := ⟨n.index, w, j⟩, gidx := g, asid := n.asid, die := die, core := core, quarter := quarter
    sregs := SMap.setRange [] 0 [BitVec.ofNat 64 w, BitVec.ofNat 64 j, BitVec.ofNat 64 g, BitVec.ofNat 64 (n.f 448 56)]
    vcount := n.regs
    privOver := n.privAt g / 2 ^ 56
    bregs := SMap.set [] 31 (n.privRec g)
    gstat := setBit (setBit 0 8 n.det) 9 n.twin
    slot0 := some { Path.empty with pc := BitVec.ofNat 56 (n.f 0 56), mask := lmask }
    exited := ~~~lmask }

/-- The cores and quarters of a workgroup's groups: those of the leader first (DESIGN CHOICE, log entry 28). -/
def Spot.places (p : Spot) : List (Nat × Nat) := p.lead.map (fun q => (p.core, q)) ++ p.follow.map fun q => (p.core + 1, q)

/-- R67, R69: storage that is zeroed at its allocation holds no soft error and no poison. -/
def State.cleanse (s : State) (mine : PoisonTarget → Bool) : State :=
  { s with soft := s.soft.filter fun t => !mine t, carried := s.carried.filter fun t => !mine t }

/-- The storage of a workgroup (Table 3-2) and the registers of its groups (R208). -/
def ofWorkgroup (w : WgId) (t : PoisonTarget) : Bool :=
  match t with
  | .scratch x _ => x == w
  | .acc x _ _ _ => x == w
  | .operand x _ _ _ _ => x == w
  | .vreg g _ _ => wgOf g == w
  | .sreg g _ => wgOf g == w
  | .mreg g _ => wgOf g == w
  | .breg g _ => wgOf g == w
  | _ => false

/-- A node's quad-memory grant on a quad, or its die-scratchpad grant on a die. -/
def ofGrant (node : Nat) (die : BitVec 2) (quad : Option Nat) (t : PoisonTarget) : Bool :=
  match t, quad with
  | .quadMem n d q _, some k => n == node && d == die && q == k
  | .dieScratch n d _, none => n == node && d == die
  | _, _ => false

/-- R65, R67: a node's grants on a quad and a die are made, zeroed, where it holds none there. -/
def State.makeGrants (s : State) (n : Node) (die : BitVec 2) (core : Nat) : State :=
  let quad := quadOf core
  let s := if n.quadGran != 0 && (s.grantIx n.index die (some quad)).isNone then
      { s.cleanse (ofGrant n.index die (some quad)) with grants := s.grants ++ [⟨n.index, n.asid, die, some quad, n.quadGran * 65536, 0, []⟩] }
    else s
  if n.dieGran != 0 && (s.grantIx n.index die none).isNone then
    let base := (s.freeRun die n.dieGran).getD 0
    { s.cleanse (ofGrant n.index die none) with
      grants := s.grants ++ [⟨n.index, n.asid, die, none, n.dieGran * 1048576, base, []⟩]
      poolUsed := s.poolUsed ++ [(die.toNat, base, n.dieGran)] }
  else s

/-- The lowest free save entry (R258). -/
def State.freeEntry (s : State) : Option Nat := (List.range (2 ^ bitsOf s.regs.savectl.toNat 0 5)).find? fun e => !s.saveUsed.contains e

/-- The outcome of one attempt to place a workgroup of a node. -/
inductive Placed where
  | yes
  | no
  | bad
  deriving DecidableEq, Repr

/-- R208, R243, R246, R247: the next unplaced workgroup of a node is placed; the first launches the node, whose code is fetched
from memory as it then stands (R282). -/
def State.placeNext (s : State) (n : Node) : State × Placed :=
  match s.spot [] n none, s.freeEntry with
  | some p, some entry =>
    match s.tileArray n with
    | (s, none) => (s.modNode n.index fun x => { x with badTiles := true }, .bad)
    | (s, some es) =>
      let s := (s.makeGrants n p.die p.core).cleanse (ofWorkgroup ⟨n.index, n.placed⟩)
      let w : Workgroup :=
        { Workgroup.empty with
          id := ⟨n.index, n.placed⟩, asid := n.asid, groups := n.gcount, producer := n.f 85 5, die := p.die, core := p.core
          pair := n.pair, saveEntry := entry, scrSize := n.segs * 16384, ntiles := n.tiles
          tiles := ((List.range es.length).zip es).foldl (fun m e => m.set e.1 (installTile e.2.1 e.2.2 0)) []
          nslots := n.slots, claims := List.replicate n.slots .free, slotOps := List.replicate n.slots 0 }
      let gs := ((List.range n.gcount).zip p.places).map fun e => n.launch n.placed e.1 p.die e.2.1 e.2.2
      let first := n.placed = 0
      let s := { s.modNode n.index fun x => 
          { x with placed := x.placed + 1, aged := false, code := if first then s.mem else x.code } with
        others := s.others ++ gs, otherWgs := s.otherWgs ++ [w], saveUsed := entry :: s.saveUsed }
      (if first then s.setNodeState n.index 3 else s, .yes)
  | _, _ => (s, .no)

/-! ## Restore placement and pre-emption requests (R271, R248, R263) -/

/-- Saved workgroups of a node, in ascending w (R246). -/
def State.savedOf (s : State) (ix : Nat) : List Workgroup :=
  sortBy (fun a b => decide (a.id.w ≤ b.id.w)) (s.wgs.filter fun w => w.id.node == ix && match w.state with | .saved _ => true | _ => false)

/-- R271: a saved workgroup is placed; it stays restoring until its block is checked. -/
def State.placeSaved (s : State) (n : Node) (w : Workgroup) : State × Bool :=
  match w.state, s.spot [] n (some (w.die, w.core)) with
  | .saved block, some p =>
    let s := (s.makeGrants n p.die p.core).modWg w.id fun x => { x with state := .restoring block, die := p.die, core := p.core }
    (p.places.zip (List.range w.groups) |>.foldl (fun s e => s.modGroup ⟨n.index, w.id.w, e.2⟩ fun g =>
      { g with die := p.die, core := e.1.1, quarter := e.1.2 }) s, true)
  | _, _ => (s, false)

/-- Context blocks not in use (R270). -/
def State.freeBlocks (s : State) : List Nat := (List.range (bitsOf s.regs.ctxpool.toNat 0 16)).filter fun b => !s.ctxUsed.contains b

/-- R248: the order in which victims are chosen for an urgent node. -/
def State.victims (s : State) (n : Node) : List WgId :=
  let cands := s.wgs.filterMap fun w => match s.node? w.id.node with
    | some m => if w.state == .resident && m.pclass == 0 && decide (m.prio < n.prio) then some (w, m) else none
    | none => none
  let le (a b : Workgroup × Node) : Bool :=
    decide (a.2.prio < b.2.prio) || (a.2.prio == b.2.prio && (decide (b.2.ticket.toNat < a.2.ticket.toNat)
      || (a.2.ticket == b.2.ticket && decide (b.1.core ≤ a.1.core))))
  (sortBy le cands).map fun x => x.1.id

/-- R263: the request is made of a workgroup. -/
def State.request (s : State) (w : WgId) : State := s.modWg w fun x => { x with state := .stopping }

/-- R248: the shortest prefix of the victims whose pre-emption lets a workgroup of the node fit is asked. No second
request is made while one is under way, and none beyond the free context blocks (R263; DESIGN CHOICE, log entry 31). -/
def State.requestFor (s : State) (n : Node) : State :=
  let busy := s.wgs.any fun w => w.state == .stopping || w.state == .saving
  if busy || (s.spot [] n none).isSome then s
  else
    let vs := (s.victims n).take s.freeBlocks.length
    match (List.range vs.length).find? fun k => (s.spot (vs.take (k + 1)) n none).isSome with
    | none => s
    | some k => (vs.take (k + 1)).foldl State.request s

/-! ## The scan (R246) -/

/-- A node in the ready pool (R245). -/
def State.inPool (s : State) (n : Node) : Bool :=
  n.ready && ((decide (n.placed < n.w) && !n.badTiles) || !(s.savedOf n.index).isEmpty)

/-- The pool in its order: priority, then ticket (R246). -/
def State.pool (s : State) : List Node :=
  sortBy (fun a b => decide (b.prio < a.prio) || (a.prio == b.prio && decide (a.ticket.toNat ≤ b.ticket.toNat))) (s.nodes.filter s.inPool)

/-- Place unplaced workgroups of a node while they fit; `false` where one did not. -/
def State.placeMany (s : State) (ix fuel : Nat) : State × Bool :=
  match fuel with
  | 0 => (s, true)
  | fuel + 1 =>
    match s.node? ix with
    | none => (s, true)
    | some n =>
      if n.w ≤ n.placed || n.badTiles then (s, true)
      else match s.placeNext n with
        | (s, .yes) => s.placeMany ix fuel
        | (s, .no) => (s, false)
        | (s, .bad) => (s, true)

/-- R246, R227: everything of a node that fits is placed, saved workgroups first; a deterministic node all at once. -/
def State.fillNode (s : State) (ix : Nat) : State × Bool :=
  match s.node? ix with
  | none => (s, true)
  | some n =>
    let (s, ok) := (s.savedOf ix).foldl (fun (s, ok) w => ((s.placeSaved n w).1, ok && (s.placeSaved n w).2)) (s, true)
    let r := s.placeMany ix (n.w - n.placed)
    let r := if n.det && n.placed == 0 then
        match r.1.node? ix with
        | some m =>
          if m.badTiles then (s.modNode ix fun x => { x with badTiles := true }, true)
          else if m.placed = m.w then r else (s, false)
        | none => r
      else r
    (r.1, ok && r.2)

/-- The scan of the pool in its order. -/
def State.scanFrom (s : State) (first : Bool) (ns : List Node) : State :=
  match ns with
  | [] => s
  | n :: rest =>
    let (s, all) := s.fillNode n.index
    let s := if first && !all && n.pclass == 1 then s.requestFor n else s
    let held := first && n.aged && ((s.node? n.index).map fun m => m.placed == 0).getD false
    if held then s else s.scanFrom false rest

/-- SCHEDULER_SCAN (R246). -/
def execSchedulerScan (s : State) : Host.Outcome State Fault Refusal :=
  .next (if s.regs.schedctl.getLsbD 0 then s.scanFrom true s.pool else s)

/-- AGE_LIMIT (R246): the first node of the highest non-empty priority has waited longer than SCHEDCTL.AGE, and has placed no
workgroup yet. -/
def execAgeLimit (s : State) : Host.Outcome State Fault Refusal :=
  .next (match s.pool with
    | [] => s
    | n :: _ => if n.placed = 0 then s.modNode n.index fun x => { x with aged := true } else s)

/-- A write to device memory by the host, or an atomic. -/
def HeldReq.hostWrites (h : HeldReq) : Bool :=
  match h with
  | .host (.read _ _) => false
  | .host _ => true
  | _ => false

/-- R450: a host write to SUBMIT or TLBICTL.GO acts after the host's writes before it: where a swap holds one of those (R44), it waits
behind them. -/
def State.afterHost (s : State) (h : HeldReq) (f : State → State) : State :=
  if s.held.any HeldReq.hostWrites then { s with held := s.held ++ [h] } else f s

/-- R240, R450: the host posts a node index. Before READY a write has no effect (R457). -/
def State.hostSubmit (s : State) (index : BitVec 20) : State :=
  s.afterHost (.submit index) fun s => if s.regs.bootstat.getLsbD 8 then (s.postNode index.toNat none).1 else s

/-- SUBMIT (R240). -/
def execSubmit (index : BitVec 20) (s : State) : Host.Outcome State Fault Refusal := .next (s.hostSubmit index)

/-! ## Completion (R65, R239, R236) -/

/-- WORKGROUP_COMPLETE (R65, R271): every group has exited and every command has completed. -/
def State.wgDone (s : State) (w : Workgroup) : State :=
  let mine (g : Group) : Bool := wgOf g.id == w.id
  let s := { s with
    others := s.others.filter fun g => !mine g
    otherWgs := s.otherWgs.filter fun x => x.id != w.id
    saveUsed := s.saveUsed.filter fun e => e != w.saveEntry }
  let s := if s.live && s.w.id == w.id then { s with live := false, granted := false, g := Group.empty, w := Workgroup.empty } else s
  s.modNode w.id.node fun n => { n with complete := n.complete + 1 }

/-- A workgroup that may complete. -/
def State.wgReady (s : State) (w : Workgroup) : Bool :=
  w.state == .resident && s.allExited w.id && w.cmds.all (·.finished) && (s.pendingOf w.id).isEmpty

def execWorkgroupComplete (w : WgId) (s : State) : Host.Outcome State Fault Refusal :=
  .next (match s.wg? w with
    | some x => if s.wgReady x then s.wgDone x else s
    | none => s)

/-- The bytes of a node's outgoing stream (R235). -/
def streamBytes (rs : List StreamRec) : List Byte :=
  let key (r : StreamRec) : Key := ⟨r.clock.toNat, r.gidx, r.lane, r.sub⟩
  (sortBy (fun a b => !(key b).lt (key a)) rs).flatMap fun r => bytesOf 8 r.addr.toNat ++ bytesOf 4 r.bytes.length ++ r.bytes

/-- One bit of the reflected CRC-64 of ECMA-182. -/
def crcBit (c : Nat) : Nat := if c % 2 = 1 then (c / 2) ^^^ 0xC96C5795D7870F42 else c / 2

/-- R235: the checksum of a stream; zero for an empty one. -/
def crc64 (bs : List Byte) : Nat :=
  if bs.isEmpty then 0
  else bs.foldl (fun c b => (List.range 8).foldl (fun c _ => crcBit c) (c ^^^ b.toNat)) (2 ^ 64 - 1) ^^^ (2 ^ 64 - 1)

/-- The status with which a node completes, but for the exchange (Table 9-4). -/
def Node.status (n : Node) : Nat := if n.badTiles then 3 else if n.faulted then 1 else 0

/-- A node all of whose workgroups have completed. -/
def Node.ended (n : Node) : Bool := n.ready && n.placed == n.complete && (n.placed == n.w || n.badTiles)

/-- The number of earlier DONE transitions by which twins pair their nodes (R234). -/
def State.runsOf (s : State) (ix : Nat) : Nat :=
  match s.ranSince with
  | some l => if l.contains ix then s.num (s.nodePa ix + 90) 4 else 0
  | none => s.num (s.nodePa ix + 90) 4

/-- R236: the exchange ends: a match completes the node; a mismatch or a timeout is recorded and quarantines it, with status
MISMATCH whatever went before. -/
def State.endExchange (s : State) (n : Node) (ok tmo : Bool) : State :=
  let st := bumpField s.regs.twinstat 32 32
  if ok then ({ s with regs := { s.regs with twinstat := st } } : State).doneNode n n.status
  else
    let st := setBit (setBit (bumpField st 16 16) 0 true) 1 (tmo || st.getLsbD 1)
    (({ s with regs := { s.regs with twinstat := st } } : State).machineCheck 1).doneNode n 2

/-- The package number of the twin (TWINCTL.PARTNER, Table 8-7). -/
def State.partner (s : State) : BitVec 12 := s.regs.twinctl.extractLsb' 16 12

/-- R236: what the package sends its twin when a node completes. -/
def State.twinMsg (s : State) (n : Node) : TwinMsg :=
  let bs := streamBytes n.stream
  ⟨s.partner, n.asid, n.index, BitVec.ofNat 32 (s.runsOf n.index), BitVec.ofNat 64 (crc64 bs), bs.length⟩

/-- R234: a message of the twin is for a node: the same ASID, index and RUNS. -/
def State.pairs (s : State) (n : Node) (m : TwinMsg) : Bool :=
  m.pkg == s.partner && m.asid == n.asid && m.node == n.index && m.runs.toNat == s.runsOf n.index

/-- R236: a message of the twin for a node that waits for it. -/
def State.tryExchange (s : State) (n : Node) : State :=
  let s := s.readDesc n.index
  match s.twinInbox.find? (s.pairs n) with
  | none => s
  | some m =>
    let mine := s.twinMsg n
    ({ s with twinInbox := s.twinInbox.erase m } : State).endExchange n (m.crc == mine.crc && m.len == mine.len) false

/-- R59, R111: every store of a node's groups and commands is performed. -/
def State.nodeAcked (s : State) (ix : Nat) : Bool :=
  s.unacked.all fun a => match a.issuer with
    | .group g => g.node != ix
    | .cmd c => c.wg.node != ix

/-- NODE_COMPLETE (R239): the node's decrements release every access of the node, so that a node that is to release others
waits until its stores are performed (R111). For a TWIN node its exchange starts first (R236). -/
def execNodeComplete (node : Nat) (s : State) : Host.Outcome State Fault Refusal :=
  .next (match s.node? node with
    | none => s
    | some n =>
      if !n.ended || n.exchanging || (n.status == 0 && !s.nodeAcked node) then s
      else if !n.twin then s.doneNode n n.status
      else if !s.regs.twinctl.getLsbD 0 || (s.hops s.partner.toNat).isNone then s.endExchange n false true
      else
        let s := s.readDesc node
        ({ s.modNode node fun x => { x with exchanging := true } with twinSent := s.twinSent ++ [s.twinMsg n] } : State).tryExchange n)

/-- TWIN_MESSAGE (R236): before READY a request from another package is refused (R452). -/
def execTwinMessage (node : TwinNode) (runs : Word32) (crc : Word64) (len : Nat) (s : State) : Host.Outcome State Fault Refusal :=
  .next (if !s.regs.bootstat.getLsbD 8 then s
  else
    let s := { s with twinInbox := s.twinInbox ++ [TwinMsg.mk node.pkg node.asid node.index runs crc len] }
    match s.node? node.index with
    | some n => if n.exchanging then s.tryExchange n else s
    | none => s)

/-- TWIN_TIMEOUT (R236). -/
def execTwinTimeout (node : Nat) (s : State) : Host.Outcome State Fault Refusal :=
  .next (match s.node? node with
    | some n => if n.exchanging then s.endExchange n false true else s
    | none => s)

end Sys2Proof.Machine
end

