-- ==== Sys2Proof/Machine/Invalidate.lean ====
section
/-! DEFINITION. Invalidation of cached translations (spec/05 R137, R138): STLB and the host's TLBICTL. -/

namespace Sys2Proof.Machine

/-- A VA lies under an entry read at a level, whose lowest VA is `base`. -/
def underLevel (level base va : Nat) : Bool := va / 2 ^ levelShift level * 2 ^ levelShift level == base

/-- Table 5-9: a translation-cache entry that a KIND discards. -/
def tlbDropped (kind : Nat) (asid : BitVec 12) (va : Nat) (e : TlbEntry) : Bool :=
  match kind, e with
  | 0, .leaf a g level base _ _ => a == asid && !g && underLevel level base va
  | 1, .leaf _ _ level base _ _ => underLevel level base va
  | 2, .leaf a g _ _ _ _ => a == asid && !g
  | 2, .asidEntry a _ => a == asid
  | 2, .peerSet a _ _ => a == asid
  | 3, _ => true
  | 4, .peerSet a _ _ => a == asid
  | _, _ => false

/-- Table 5-9: a walk-cache entry that a KIND discards. -/
def walkDropped (kind : Nat) (asid : BitVec 12) (va : Nat) (e : WalkEntry) : Bool :=
  match kind with
  | 0 => e.asid == asid && e.va == va / 2 ^ levelShift e.level
  | 1 => e.va == va / 2 ^ levelShift e.level
  | 2 => e.asid == asid
  | 3 => true
  | _ => false

/-- R138 step 2 on the cores of a list of dies, on those dies and on their walk caches. -/
def State.dropDies (s : State) (dies : List (BitVec 2)) (kind : Nat) (asid : BitVec 12) (va : Nat) : State :=
  let s := { s with cores := s.cores.map fun c =>
    if dies.contains c.die then { c with tlb := c.tlb.filter fun e => !tlbDropped kind asid va e } else c }
  dies.foldl (fun s d =>
    let x := s.die d
    s.setDie d { x with
      tlb := x.tlb.filter fun e => !tlbDropped kind asid va e
      walkCache := x.walkCache.filter fun e => !walkDropped kind asid va e }) s

def State.dropAll (s : State) (kind : Nat) (asid : BitVec 12) (va : Nat) : State := s.dropDies [0, 1, 2, 3] kind asid va

/-- R138 step 2 within the scope instance of the issuer: its core's translation cache and the walk cache of its die, from which
the core's later walks would start; its die's caches; or every cache of the package. -/
def State.invalidate (s : State) (scope kind : Nat) (asid : BitVec 12) (va : Nat) : State :=
  if scope = 2 then
    let c := s.core s.g.die s.g.core
    let d := s.die s.g.die
    (s.setCore { c with tlb := c.tlb.filter fun e => !tlbDropped kind asid va e }).setDie s.g.die
      { d with walkCache := d.walkCache.filter fun e => !walkDropped kind asid va e }
  else if scope = 4 then s.dropDies [s.g.die] kind asid va
  else s.dropAll kind asid va

/-- Every group's undrained UO stores drain, as they may at any time (R104). -/
def State.drainAll (s : State) : State :=
  ((s.groups.filter fun g => !g.uo.isEmpty).map (·.id)).foldl (fun s g => s.withGroup g false State.drain) s

/-- A reduction with a contribution of this package is under way: its members were translated and it has still to write them (R425). -/
def State.reducing (s : State) : Bool := s.reductions.any fun r => r.contributions.any fun c => c.cmd.isSome

/-- Nothing that was translated before is still to be performed (R138): no store awaits an acknowledgement, and no reduction is under
way. The model waits for all of them, whichever entry translated it (DESIGN CHOICE, log entry 5). -/
def State.settled (s : State) : Bool := s.unacked.isEmpty && !s.reducing

/-- R138 steps 1 and 3: no access that was translated before is still to be performed. -/
def allPerformed : Act Unit := do
  modify State.drainAll
  let s ← get
  if s.settled then pure () else hold

/-- STLB (R137, R138). -/
def stlb (kind : Nat) (f : StlbForm) : Act Unit := do
  needSupv
  let a ← readSA f.a
  let d ← readSB f.d
  allPerformed
  modify fun s => s.invalidate f.scope.toNat kind (d.setWidth 12) a.toNat
  retire 1

/-- STLB_VA (R138). -/
def execStlbVa (f : StlbForm) (s : State) : Host.Outcome State Fault Refusal := Act.outcome (stlb 0 f) s
/-- STLB_VAALL (R138). -/
def execStlbVaall (f : StlbForm) (s : State) : Host.Outcome State Fault Refusal := Act.outcome (stlb 1 f) s
/-- STLB_ASID (R138). -/
def execStlbAsid (f : StlbForm) (s : State) : Host.Outcome State Fault Refusal := Act.outcome (stlb 2 f) s
/-- STLB_ALL (R138). -/
def execStlbAll (f : StlbForm) (s : State) : Host.Outcome State Fault Refusal := Act.outcome (stlb 3 f) s
/-- STLB_PEER (R138). -/
def execStlbPeer (f : StlbForm) (s : State) : Host.Outcome State Fault Refusal := Act.outcome (stlb 4 f) s

/-- TLBICTL.BUSY (Table 5-11). -/
def State.tlbiBusy (s : State) : Bool := s.regs.tlbictl.getLsbD 8

/-- TLBICTL is written with GO (R137, R138, Table 5-11): the operation runs at package scope, and BUSY reads 1 until what was
translated before is performed. GO is ignored while BUSY = 1 and for KIND 5 to 7. -/
def State.hostInvalidate (s : State) (kind : Nat) (asid : BitVec 12) : State :=
  let go := !s.tlbiBusy && decide (kind < 5)
  let s := if go then s.drainAll.dropAll kind asid (bitsOf s.regs.tlbiva.toNat 0 56) else s
  let busy := s.tlbiBusy || (go && !s.settled)
  { s with regs := { s.regs with tlbictl := BitVec.ofNat 64 (place asid.toNat 32 12 + place busy.toNat 8 1 + place kind 0 3) } }

/-- R138: the operation of TLBICTL ends once what it awaits is performed. -/
def State.endInvalidate (s : State) : State :=
  if s.tlbiBusy && s.settled then { s with regs := { s.regs with tlbictl := setBit s.regs.tlbictl 8 false } } else s

/-- A host write to a register that answers from READY on (R457). -/
def State.whenReady (s : State) (f : State → State) : State := if s.regs.bootstat.getLsbD 8 then f s else s

/-- A host write of TLBICTL with GO (R138, R450). -/
def State.hostTlbi (s : State) (kind : Nat) (asid : BitVec 12) : State :=
  s.afterHost (.invalidate kind asid) fun s => s.whenReady fun s => s.hostInvalidate kind asid

/-- TLBI_VA (R138). -/
def execTlbiVa (asid : BitVec 12) (s : State) : Host.Outcome State Fault Refusal := .next (s.hostTlbi 0 asid)
/-- TLBI_VAALL (R138). -/
def execTlbiVaall (asid : BitVec 12) (s : State) : Host.Outcome State Fault Refusal := .next (s.hostTlbi 1 asid)
/-- TLBI_ASID (R138). -/
def execTlbiAsid (asid : BitVec 12) (s : State) : Host.Outcome State Fault Refusal := .next (s.hostTlbi 2 asid)
/-- TLBI_ALL (R138). -/
def execTlbiAll (asid : BitVec 12) (s : State) : Host.Outcome State Fault Refusal := .next (s.hostTlbi 3 asid)
/-- TLBI_PEER (R138). -/
def execTlbiPeer (asid : BitVec 12) (s : State) : Host.Outcome State Fault Refusal := .next (s.hostTlbi 4 asid)

end Sys2Proof.Machine
end

