-- ==== Sys2Proof/Machine/Registers.lean ====
section
/-! DEFINITION. The register file (spec/12 R330 to R332 Table 12-3; field access codes, spec/00 R11) as SRD, SWR and
the host's BAR0 (spec/20 R447, R457) reach it. -/

namespace Sys2Proof.Machine

/-! ## Access codes (R11) -/

/-- The writable fields of a register: RW fields with the values each takes, and W1C bits. -/
structure RegSpec where
  rw : List (Nat × Nat × (Nat → Bool))
  w1c : List Nat := []

def anyVal : Nat → Bool := fun _ => true
def nonzeroVal : Nat → Bool := fun v => v != 0

/-- Bits [lo + w - 1 : lo] of a register become `x`. -/
def setField (v : Word64) (lo w x : Nat) : Word64 :=
  let n := v.toNat
  BitVec.ofNat 64 (n - bitsOf n lo w * 2 ^ lo + place x lo w)

/-- R11: write the bits of `v` that `mask` selects: an RW field keeps its value where the new one is not taken, a
written one clears a W1C bit. -/
def RegSpec.write (sp : RegSpec) (old v mask : Word64) : Word64 :=
  let merged := ((old &&& ~~~mask) ||| (v &&& mask)).toNat
  let a := sp.rw.foldl (fun r f =>
    let x := bitsOf merged f.1 f.2.1
    if f.2.2 x then setField r f.1 f.2.1 x else r) old
  sp.w1c.foldl (fun r i => if mask.getLsbD i && v.getLsbD i then setBit r i false else r) a

/-- The registers of a group (Tables 8-1, 7-5, 7-9, 7-6, 7-10, 8-4). -/
def groupSpec (n : Nat) : RegSpec :=
  match n with
  | 0 => ⟨[], [0, 1, 2, 3]⟩
  | 1 => ⟨[(0, 3, fun v => decide (v ≤ 5))], []⟩
  | 2 => ⟨[], [0, 1, 2, 3]⟩
  | 3 => ⟨[(0, 64, anyVal)], []⟩
  | 4 => ⟨[(0, 1, anyVal)], []⟩
  | _ => ⟨[(8, 1, anyVal), (0, 6, fun v => decide (16 ≤ v) && decide (v ≤ 40))], []⟩

/-- ECCLOG (Table 7-11). -/
def eccSpec : RegSpec := ⟨[(32, 16, anyVal)], [63]⟩

/-- LICHCTL, LICHSTAT and CMPSTAT (Tables 2-4, 2-5, 2-8). -/
def dieSpec (n : Nat) : RegSpec :=
  match n with
  | 0x80 => ⟨[(4, 4, nonzeroVal), (0, 1, anyVal)], []⟩
  | 0x81 => ⟨[(32, 32, anyVal), (16, 16, anyVal), (0, 16, anyVal)], []⟩
  | _ => ⟨[(32, 32, anyVal), (0, 32, anyVal)], []⟩

/-- The package registers, each from its own table. -/
def pkgSpec (n : Nat) : RegSpec :=
  match n with
  | 0x100 => ⟨[(16, 36, anyVal), (0, 1, anyVal)], []⟩
  | 0x101 => ⟨[(2, 54, anyVal)], []⟩
  | 0x102 => ⟨[(16, 36, anyVal)], []⟩
  | 0x103 => ⟨[(6, 46, anyVal)], []⟩
  | 0x104 => ⟨[(48, 16, anyVal), (8, 1, anyVal), (0, 5, fun v => decide (4 ≤ v) && decide (v ≤ 16))], [9]⟩
  | 0x105 => ⟨[(12, 40, anyVal), (0, 5, fun v => decide (v ≤ 20))], []⟩
  | 0x107 => ⟨[(16, 16, nonzeroVal), (0, 1, anyVal)], []⟩
  | 0x108 => ⟨[(32, 32, anyVal), (0, 32, anyVal)], []⟩
  | 0x109 => ⟨[(16, 40, anyVal), (0, 5, fun v => decide (v ≤ 16))], []⟩
  | 0x10A => ⟨[(21, 31, anyVal), (0, 16, anyVal)], []⟩
  | 0x10B => ⟨[(16, 1, anyVal), (0, 16, fun v => decide (256 ≤ v))], []⟩
  | 0x10C => ⟨[(0, 16, nonzeroVal)], []⟩
  | 0x10D => ⟨[(32, 16, nonzeroVal), (16, 12, anyVal), (0, 1, anyVal)], []⟩
  | 0x10E => ⟨[(32, 32, anyVal), (16, 16, anyVal)], [0, 1]⟩
  | 0x10F => ⟨[(0, 56, anyVal)], []⟩
  | 0x110 => ⟨[(32, 12, anyVal), (0, 3, anyVal)], []⟩
  | 0x112 => ⟨[(32, 32, anyVal)], [0]⟩
  | _ => ⟨[], []⟩

/-! ## Package registers -/

/-- The value of a package register; SUBMIT reads as zero. -/
def PkgRegs.get (r : PkgRegs) (n : Nat) : Word64 :=
  match n with
  | 0x100 => r.asidbase
  | 0x101 => r.hvec
  | 0x102 => r.ftpbase
  | 0x103 => r.frbase
  | 0x104 => r.frctl
  | 0x105 => r.nodetab
  | 0x107 => r.schedctl
  | 0x108 => r.schedstat
  | 0x109 => r.savectl
  | 0x10A => r.ctxpool
  | 0x10B => r.prectl
  | 0x10C => r.ringctl
  | 0x10D => r.twinctl
  | 0x10E => r.twinstat
  | 0x10F => r.tlbiva
  | 0x110 => r.tlbictl
  | 0x111 => r.timer
  | 0x112 => r.mcstat
  | 0x113 => r.pwrstat
  | 0x114 => r.freipstat
  | _ => 0

def PkgRegs.put (r : PkgRegs) (n : Nat) (v : Word64) : PkgRegs :=
  match n with
  | 0x100 => { r with asidbase := v }
  | 0x101 => { r with hvec := v }
  | 0x102 => { r with ftpbase := v }
  | 0x103 => { r with frbase := v }
  | 0x104 => { r with frctl := v }
  | 0x105 => { r with nodetab := v }
  | 0x107 => { r with schedctl := v }
  | 0x108 => { r with schedstat := v }
  | 0x109 => { r with savectl := v }
  | 0x10A => { r with ctxpool := v }
  | 0x10B => { r with prectl := v }
  | 0x10C => { r with ringctl := v }
  | 0x10D => { r with twinctl := v }
  | 0x10E => { r with twinstat := v }
  | 0x10F => { r with tlbiva := v }
  | 0x110 => { r with tlbictl := v }
  | 0x112 => { r with mcstat := v }
  | _ => r

/-- A write to a package register, with the operation it starts: a post, where the access carries INDEX (R240), an invalidation (R137), a
reload of the ring's next ticket (R134), or a fresh count of RUNS (R239). -/
def State.writePkg (s : State) (n : Nat) (v mask : Word64) : State :=
  let old := s.regs.get n
  let new := (pkgSpec n).write old v mask
  let s' := { s with regs := s.regs.put n new }
  if n = 0x106 then (if mask.getLsbD 0 then (s.postNode (bitsOf (v &&& mask).toNat 0 20) none).1 else s)
  else if n = 0x110 then
    if (v &&& mask).getLsbD 7 then s'.hostInvalidate (bitsOf new.toNat 0 3) (BitVec.ofNat 12 (bitsOf new.toNat 32 12)) else s'
  else if n = 0x104 then
    if !old.getLsbD 8 && new.getLsbD 8 then { s' with frTicket := BitVec.ofNat 64 s'.frTail } else s'
  else if n = 0x10D then
    if !old.getLsbD 0 && new.getLsbD 0 then { s' with ranSince := some [] } else s'
  else s'

/-! ## Die and core registers (R46, R47, R55, R205) -/

def State.readDie (s : State) (d : BitVec 2) (n : Nat) : Word64 :=
  let x := s.die d
  match n with
  | 0x80 => if d.toNat < 2 then x.lichCtl else 0
  | 0x81 => if d.toNat < 2 then x.lichStat else 0
  | 0x82 => x.cmpStat
  | _ => 0

def State.writeDie (s : State) (d : BitVec 2) (n : Nat) (v mask : Word64) : State :=
  let x := s.die d
  match n with
  | 0x80 => if d.toNat < 2 then s.setDie d { x with lichCtl := (dieSpec n).write x.lichCtl v mask } else s
  | 0x81 => if d.toNat < 2 then s.setDie d { x with lichStat := (dieSpec n).write x.lichStat v mask } else s
  | 0x82 => s.setDie d { x with cmpStat := (dieSpec n).write x.cmpStat v mask }
  | _ => s

def State.writeEcc (s : State) (d : BitVec 2) (c : Nat) (v mask : Word64) : State :=
  let x := s.core d c
  s.setCore { x with eccLog := eccSpec.write x.eccLog v mask }

/-- LOCID (Table 12-5). -/
def State.locid (s : State) : Word64 := BitVec.ofNat 64 (s.g.die.toNat * 65536 + place s.g.quarter 8 2 + place s.g.core 0 8)

/-! ## SRD and SWR (R330) -/

/-- A read that Table 12-3 marks supervisor. -/
def readPriv (n : Nat) : Bool := n == 0x40 || n == 0x41 || (decide (0x100 ≤ n) && decide (n ≤ 0x114) && n != 0x111)

/-- A write that Table 12-3 marks supervisor. A register without a write entry ignores the write. -/
def writePriv (n : Nat) : Bool :=
  n == 0x40 || (decide (0x80 ≤ n) && decide (n ≤ 0x82)) || (decide (0x100 ≤ n) && decide (n ≤ 0x110)) || n == 0x112
    || n == 0x23E || n == 0x23F

def Group.readReg (g : Group) (n : Nat) : Word64 :=
  match n with
  | 0 => g.gstat
  | 1 => g.fpctl
  | 2 => g.fpstat
  | 3 => g.rseed
  | 4 => g.nanctl
  | _ => g.hangctl

def Group.writeReg (g : Group) (n : Nat) (v : Word64) : Group :=
  let w (old : Word64) : Word64 := (groupSpec n).write old v (BitVec.allOnes 64)
  match n with
  | 0 => { g with gstat := w g.gstat }
  | 1 => { g with fpctl := w g.fpctl }
  | 2 => { g with fpstat := w g.fpstat }
  | 3 => { g with rseed := w g.rseed }
  | 4 => { g with nanctl := w g.nanctl }
  | _ => { g with hangctl := w g.hangctl }

/-- The value of a system register (Table 12-3). -/
def readSys (n : Nat) : Act Word64 := do
  let s ← get
  if n < 6 then pure (s.g.readReg n)
  else if n = 0x40 then pure (s.core s.g.die s.g.core).eccLog
  else if n = 0x41 then pure s.locid
  else if n < 0x100 then pure (s.readDie s.g.die n)
  else if n < 0x200 then pure (s.regs.get n)
  else if n < 0x240 then do
    let b ← readB ((n - 0x200) / 2)
    pure (b.extractLsb' (64 * (n % 2)) 64)
  else do
    let m ← readM (n - 0x240)
    pure (m.setWidth 64)

/-- A write of one half of a buffer record. -/
def State.writeBHalf (s : State) (n : Nat) (v : Word64) : State :=
  let b := s.g.bregs.get ((n - 0x200) / 2)
  s.setB ((n - 0x200) / 2) (if n % 2 = 0 then b.extractLsb' 64 64 ++ v else v ++ b.extractLsb' 0 64)

/-- The effect of SWR on a system register (R330, R331). -/
def State.writeSys (s : State) (n : Nat) (v : Word64) : State :=
  let full := BitVec.allOnes 64
  if n < 6 then { s with g := s.g.writeReg n v }
  else if n = 0x40 then s.writeEcc s.g.die s.g.core v full
  else if n = 0x41 then s
  else if n < 0x100 then s.writeDie s.g.die n v full
  else if n < 0x200 then s.writePkg n v full
  else if n < 0x240 then s.writeBHalf n v
  else s.setM (n - 0x240) (v.setWidth 32)

def srd (f : YForm) : Act Unit := do
  if readPriv f.sub.toNat then needSupv
  let v ← readSys f.sub.toNat
  writeRetire f.d v 1

/-- SRD (R330). -/
def execSrd (f : YForm) (s : State) : Host.Outcome State Fault Refusal := Act.outcome (srd f) s

/-- A register of a group: the numbers below 6, and the buffer records and mask registers (Table 12-3). -/
def isGroupReg (n : Nat) : Bool := decide (n < 6) || decide (0x200 ≤ n)

/-- SWR to a register outside the group first acts as a release and acquire fence (R331). -/
def swr (f : YForm) : Act Unit := do
  if writePriv f.sub.toNat then needSupv
  let v ← readSA f.a
  if isGroupReg f.sub.toNat then pure () else awaitPerformed
  modify fun s => s.writeSys f.sub.toNat v
  retire 1

/-- SWR (R330, R331). -/
def execSwr (f : YForm) (s : State) : Host.Outcome State Fault Refusal := Act.outcome (swr f) s

/-- R451: a vector that is pending and not masked sends its message. -/
def State.flushVector (s : State) (v : Nat) : State :=
  if s.msixPending.getLsbD v && s.msixTable.get (16 * v + 12) &&& 1 == 0 then
    { s with msixPending := s.msixPending &&& ~~~(1#4 <<< v), msixSent := s.msixSent.modify v (· + 1) }
  else s

/-! ## BAR0 (R447 Table 20-1, R457) -/

/-- A write of ATTCTL (R464 Table 20-8): ADDR and RECOVER, and GO, which starts a request unless one runs. -/
def State.attWrite (s : State) (v mask : Word64) : State :=
  let a := RegSpec.write ⟨[(12, 46, anyVal), (3, 1, anyVal)], []⟩ s.regs.attctl v mask
  { s with regs := { s.regs with attctl := if (v &&& mask).getLsbD 0 then setBit a 1 true else a } }

/-- A host write to a package register. One that posts a node or starts an invalidation acts after the host's writes before it
(R450). -/
def State.hostPkg (s : State) (n : Nat) (v mask : Word64) : State :=
  if n = 0x106 ∧ mask.getLsbD 0 then s.hostSubmit (BitVec.ofNat 20 (v &&& mask).toNat)
  else if n = 0x110 ∧ (v &&& mask).getLsbD 7 then
    let new := (pkgSpec n).write s.regs.tlbictl v mask
    ({ s with regs := s.regs.put n new } : State).hostTlbi (bitsOf new.toNat 0 3) (BitVec.ofNat 12 (bitsOf new.toNat 32 12))
  else s.writePkg n v mask

/-- A write to a register by offset; `mask` selects the bits the access carries. -/
def State.barWrite (s : State) (off : Nat) (v mask : Word64) : State :=
  let d := off / 0x400000
  let r := off % 0x400000
  let ready := s.regs.bootstat.getLsbD 8
  let stage := bitsOf s.regs.bootstat.toNat 0 8
  if off < 0x1000000 then
    if !ready then s
    else if 0x400 ≤ r ∧ r < 0x1000 then
      let n := r / 8
      if n < 0x100 then s.writeDie (BitVec.ofNat 2 d) n v mask
      else if d = 0 then s.hostPkg n v mask
      else s
    else if 0x100000 ≤ r ∧ r < 0x100000 + 8 * coresOf d then s.writeEcc (BitVec.ofNat 2 d) ((r - 0x100000) / 8) v mask
    else s
  else if off / 8 = 0x200001 then (if ready then s.writePkg 0x112 v mask else s)
  else if off / 8 = 0x200002 then
    if ready then
      let sp : RegSpec := ⟨[(0, 12, fun x => decide (1500 ≤ x) && decide (x ≤ 3000))], []⟩
      { s with regs := { s.regs with pwrctl := sp.write s.regs.pwrctl v mask } }
    else s
  else if off / 8 = 0x200005 then
    if ready then s.attWrite v mask else s
  else if 0x1100000 ≤ off ∧ off < 0x1100040 then
    -- the bytes of the MSI-X table that the access carries
    (List.range 4).foldl State.flushVector { s with msixTable := (List.range 8).foldl (fun m i =>
        if mask.getLsbD (8 * i) then m.set (off / 8 * 8 - 0x1100000 + i) (v.extractLsb' (8 * i) 8) else m) s.msixTable }
  else if 0x1200000 ≤ off ∧ off < 0x1600000 then
    if stage = 2 ∨ ready then
      { s with recovery := (List.range 8).foldl (fun m i =>
          if mask.getLsbD (8 * i) then m.set (off / 8 * 8 - 0x1200000 + i) (v.extractLsb' (8 * i) 8) else m) s.recovery }
    else s
  else s

/-- REGISTER_WRITE (R447): naturally aligned accesses of 4 or 8 bytes; any other is dropped. -/
def execRegisterWrite (off size : Nat) (v : Word64) (s : State) : Host.Outcome State Fault Refusal :=
  .next (if 0x2000000 ≤ off then s
    else if size = 8 ∧ off % 8 = 0 then s.barWrite off v (BitVec.allOnes 64)
    else if size = 4 ∧ off % 4 = 0 then
      if off % 8 = 0 then s.barWrite off (v &&& 0xFFFFFFFF) 0xFFFFFFFF else s.barWrite (off - 4) (v <<< 32) 0xFFFFFFFF00000000
    else s)

/-- Eight bytes of a byte map, as a register reads them. -/
def SMap.word (m : SMap 8) (x : Nat) : Word64 := BitVec.ofNat 64 (natOf (m.range x 8))

/-- The register at a word offset of BAR0 (Table 20-1); before READY only those that R457 names answer. -/
def State.barGet (s : State) (off : Nat) : Word64 :=
  let d := off / 0x400000
  let r := off % 0x400000
  let ready (v : Word64) : Word64 := if s.regs.bootstat.getLsbD 8 then v else 0
  if off < 0x1000000 then
    ready (if 0x400 ≤ r ∧ r < 0x1000 then
        (if r / 8 < 0x100 then s.readDie (BitVec.ofNat 2 d) (r / 8) else if d = 0 then s.regs.get (r / 8) else 0)
      else if 0x100000 ≤ r ∧ r < 0x100000 + 8 * coresOf d then (s.core (BitVec.ofNat 2 d) ((r - 0x100000) / 8)).eccLog
      else 0)
  else if off = 0x1000000 then s.regs.bootstat
  else if off = 0x1000008 then ready s.regs.mcstat
  else if off = 0x1000010 then ready s.regs.pwrctl
  else if off = 0x1000018 then s.regs.pwrstat
  else if off = 0x1000020 then s.regs.freipstat
  else if off = 0x1000028 then ready s.regs.attctl
  else if 0x1100000 ≤ off ∧ off < 0x1100040 then s.msixTable.word (off - 0x1100000)
  else if off = 0x1100800 then s.msixPending.setWidth 64
  else if 0x1200000 ≤ off ∧ off < 0x1600000 then ready (s.recovery.word (off - 0x1200000))
  else 0

/-- R447, R237: what a host read of BAR0 returns: naturally aligned accesses of 4 or 8 bytes read the register; any other returns
all ones. -/
def State.barRead (s : State) (off size : Nat) : List Byte :=
  if (size = 4 ∨ size = 8) ∧ off % size = 0 ∧ off + size ≤ 0x2000000 then
    ((bytesOf 8 (s.barGet (off / 8 * 8)).toNat).drop (off % 8)).take size
  else List.replicate size 0xFF

/-- MSIX_UNMASK (R451): the vector's mask bit clears. -/
def execMsixUnmask (vector : BitVec 2) (s : State) : Host.Outcome State Fault Refusal :=
  let k := 16 * vector.toNat + 12
  .next (({ s with msixTable := s.msixTable.set k (s.msixTable.get k &&& 0xFE) } : State).flushVector vector.toNat)

/-- FRCTL_WRITE (R134). -/
def execFrctlWrite (v : Word64) (s : State) : Host.Outcome State Fault Refusal :=
  .next (s.whenReady fun s => s.writePkg 0x104 v (BitVec.allOnes 64))

end Sys2Proof.Machine
end

