-- ==== Sys2Proof/Machine/Barrier.lean ====
section
/-! DEFINITION. Barriers (spec/10 R273 to R275, R277; spec/12 R320 to R322). -/

namespace Sys2Proof.Machine

/-! ## Records (R273 Table 10-10) -/

structure BarRec where
  lrst : Bool
  ring : Bool
  strap : Bool
  gen : Nat
  npart : Nat
  arr : Nat
  /-- bytes still expected, as 32 bits -/
  bytes : Nat
  deriving DecidableEq, Repr

def BarRec.ofNat (v : Nat) : BarRec :=
  { lrst := bitOf v 86, ring := bitOf v 85, strap := bitOf v 84, gen := bitsOf v 64 16, npart := bitsOf v 48 16
    arr := bitsOf v 32 16, bytes := bitsOf v 0 32 }

def BarRec.bits (b : BarRec) : Nat :=
  place b.bytes 0 32 + place b.arr 32 16 + place b.npart 48 16 + place b.gen 64 16 + b.strap.toNat * 2 ^ 84
    + b.ring.toNat * 2 ^ 85 + b.lrst.toNat * 2 ^ 86

/-- A reserved field of the record is non-zero (R274). -/
def barReserved (v : Nat) : Bool := bitsOf v 80 4 != 0 || bitsOf v 87 41 != 0

/-- The next generation after a completion or a reset. -/
def BarRec.turn (b : BarRec) (reset : Bool) : BarRec := { b with gen := (b.gen + 1) % 65536, arr := b.npart, lrst := reset }

/-- Table 10-11, completion test: the record after it, and whether the generation completed. -/
def BarRec.test (b : BarRec) : BarRec × Bool := if b.arr = 0 ∧ b.bytes = 0 then (b.turn false, true) else (b, false)

/-- Table 10-11: BARI, BARA, a counted sector and BARX. -/
def BarRec.init (b : BarRec) (n : Nat) (ring strap : Bool) : BarRec :=
  { lrst := true, ring := ring, strap := strap, gen := (b.gen + 1) % 65536, npart := n, arr := n, bytes := 0 }
def BarRec.arrive (b : BarRec) (x : Nat) : BarRec × Bool := BarRec.test { b with arr := b.arr - 1, bytes := (b.bytes + x) % 2 ^ 32 }
def BarRec.count (b : BarRec) (n : Nat) : BarRec × Bool := BarRec.test { b with bytes := (b.bytes + 2 ^ 32 - n % 2 ^ 32) % 2 ^ 32 }
def BarRec.reset (b : BarRec) : BarRec := { b.turn true with bytes := 0 }

/-! ## Waking waiters -/

/-- The waiters of a generation of a record. -/
def waitsOn (win home off gen : Nat) (p : Path) : Option (BitVec 7) :=
  match p.wait with
  | some w =>
    match w.on with
    | .barrier a b c g d => if a = win ∧ b = home ∧ c = off ∧ g.toNat = gen then some d else none
    | _ => none
  | none => none

/-- A path's BARW retires with a status (R230 Table 8-6, R274). -/
def Group.barDone (g : Group) (slot : Bool) (arrivals : Word64) (dest : BitVec 7) (status : Nat) : Group :=
  match g.path? slot with
  | none => g
  | some p =>
    let clock := if g.supv then p.clock else if g.det then maxClock p.clock arrivals + 1 else p.clock + 1
    let p' := ({ p.advance 1 with clock := clock } : Path).replayClock
    { g.setPath slot (some p') with
      sregs := g.sregs.set dest.toNat (BitVec.ofNat 64 status), hang := 0
      yielded := g.yielded || (p'.clause.isNone && p.header.getLsbD 4) }

/-- Every path that waits on the record's generation wakes with a status; one of a stopped group executes its BARW again once it
is restored (R264, R321). -/
def State.wakeBarrier (s : State) (win home off gen status : Nat) : State :=
  let arrivals := (s.arrival win home off).now
  let one (slot : Bool) (g : Group) : Group :=
    match (g.path? slot).bind (waitsOn win home off gen) with
    | some d => if g.stop == .stopped then g else g.barDone slot arrivals d status
    | none => g
  s.mapGroups fun g => one true (one false g)

/-- The arrival clocks after an action on a record by a path of a deterministic node (R230): an arrival has the clock with
which its BARA retires (Example 8-2; DEDUCED, log entry 47). -/
def State.noteArrival (s : State) (win home off : Nat) (arrived turned : Bool) (b : BarRec) : State :=
  if !s.g.det then s
  else
    let a := s.arrival win home off
    let now := if arrived then maxClock a.now (if s.g.supv then s.path.clock else s.path.clock + 1) else a.now
    s.setArrival (if turned then { a with prev := now, now := 0, more := true } else { a with now := now, more := b.arr != 0 })

/-- Waiters of the generation that an action ends wake, with COMPLETE or RESET. -/
def State.endGeneration (s : State) (win home off gen : Nat) (ended : Bool) (status : Nat) : State :=
  if ended then s.wakeBarrier win home off gen status else s

/-! ## The instructions (R320, R321) -/

/-- The record that a barrier instruction names, once its offset, grant and fields are checked (R321). -/
def barRecord (f : YForm) (bad : Word64 → BarRec → Bool) : Act (Nat × Nat × Word64 × BarRec) := do
  let a ← readSA f.a
  let s ← get
  let win := f.sub.toNat % 4
  let off := a.toNat % 2 ^ 32
  let mask := s.path.mask
  if off % 16 ≠ 0 then trapAt { cause := cALIGN, sub := 1 } 2 mask off
  if s.winLimit win < off + 16 then trapAt protWindow 2 mask off
  let v := s.winNum win off 16
  let b := BarRec.ofNat v
  if barReserved v || bad a b then trapAt protBrec 2 mask off
  match (List.range 16).find? fun i => s.winSoft win (off + i) with
  | some i => trapAt { cause := cECC, sub := s.winSoftSub win (off + i) } 2 mask off
  | none => pure ()
  pure (win, off, a, b)

/-- The record's new contents (R273). -/
def State.putBar (s : State) (win off : Nat) (b : BarRec) : State := s.winStore win (cellsAt off (bytesOf 16 b.bits))

def bari (f : YForm) : Act Unit := do
  let (win, off, a, b) ← barRecord f fun a _ => bitsOf a.toNat 32 16 == 0
  modify fun s =>
    let s := s.wakeBarrier win (s.home win) off b.gen 2
    let b' := b.init (bitsOf a.toNat 32 16) (f.sub.getLsbD 3) (f.sub.getLsbD 2)
    (s.noteArrival win (s.home win) off false true b').putBar win off b'
  retireWork 1

/-- BARI (R274). -/
def execBari (f : YForm) (s : State) : Host.Outcome State Fault Refusal := Act.outcome (bari f) s

/-- BARA is a release: the path's earlier stores are performed first (R322, R59). -/
def bara (f : YForm) : Act Unit := do
  let (win, off, a, b) ← barRecord f fun _ b => b.arr == 0
  awaitPerformed
  writeS f.d (BitVec.ofNat 64 b.gen)
  modify fun s =>
    let home := s.home win
    let (b', done) := b.arrive (bitsOf a.toNat 32 32)
    let s := s.noteArrival win home off true false { b with arr := b.arr - 1 }
    let s := s.endGeneration win home off b.gen done 0
    (s.noteArrival win home off false done b').putBar win off b'
  retireWork 1

/-- BARA (R274). -/
def execBara (f : YForm) (s : State) : Host.Outcome State Fault Refusal := Act.outcome (bara f) s

/-- R274: the status that a BARW returns at once; none where it waits. -/
def barStatus (b : BarRec) (g : Nat) : Option Nat :=
  if g = b.gen then none
  else if (g + 1) % 65536 = b.gen then some (if b.lrst then 2 else 0)
  else some 3

def barw (f : YForm) : Act Unit := do
  let (win, off, _, b) ← barRecord f fun _ _ => false
  let gen ← readSB f.d
  let s ← get
  let home := s.home win
  match barStatus b (gen.toNat % 65536) with
  | none =>
    throw (.park { instr := .barw f, words := 1, on := .barrier win home off (BitVec.ofNat 16 b.gen) f.d, vals := [] })
  | some st =>
    writeS f.d (BitVec.ofNat 64 st)
    let p := s.path
    let clock := if s.g.det && (st == 0 || st == 2) then maxClock p.clock (s.arrival win home off).prev + 1 else p.clock + 1
    modify fun s => s.unhang.retireAt 1 clock

/-- BARW (R274). -/
def execBarw (f : YForm) (s : State) : Host.Outcome State Fault Refusal := Act.outcome (barw f) s

def barx (f : YForm) : Act Unit := do
  let (win, off, _, b) ← barRecord f fun _ _ => false
  modify fun s =>
    let s := s.wakeBarrier win (s.home win) off b.gen 2
    (s.noteArrival win (s.home win) off false true b.reset).putBar win off b.reset
  retireWork 1

/-- BARX (R274). -/
def execBarx (f : YForm) (s : State) : Host.Outcome State Fault Refusal := Act.outcome (barx f) s

/-! ## Counted sectors (R274, R275) -/

/-- What a sector's count does to a record: counted, or stale with the record's RING and STRAP. -/
inductive Counted where
  | counted
  | stale (ring strap : Bool)
  deriving DecidableEq, Repr

/-- R275: a stale count sets GSTAT.BARSTALE of the issuing group, and delivers BARSTALE once per command where STRAP = 1
and a group of the workgroup is left to take it. -/
def State.staleCount (s : State) (c : Command) (strap : Bool) : State :=
  let s := s.modGroup c.group fun g => { g with gstat := setBit g.gstat 3 true }
  let sent := ((s.cmd? c.id).map (·.staleSent)).getD true
  if strap && !sent && !s.allExited c.id.wg then
    (s.modCmd c.id fun x => { x with staleSent := true }).modGroup c.group fun g =>
      { g with pending := g.pending ++ [c.deliver (cmdTrap ⟨cBARSTALE, 1, 0xF⟩ 5 0) 0 false] }
  else s

/-- R274: a sector of `n` bytes is counted into a record of a window that the current group reaches. -/
def State.countSector (s : State) (c : Command) (win off n : Nat) : State × Counted :=
  let b := BarRec.ofNat (s.winNum win off 16)
  if b.gen ≠ c.barGen.toNat then (s.staleCount c b.strap, .stale b.ring b.strap)
  else
    let home := s.home win
    let (b', done) := b.count n
    let s := s.endGeneration win home off b.gen done 0
    ((s.noteArrival win home off false done b').putBar win off b', .counted)

/-- BARRIER_RING_TIMEOUT (R277): a BARW on a RING record times out; with STRAP it raises PEERLOST. -/
def execBarrierRingTimeout (g : GroupId) (slot : Bool) (s : State) : Host.Outcome State Fault Refusal :=
  .next (s.withGroup g slot fun s =>
    match s.path.wait with
    | some w =>
      match w.on with
      | .barrier win home off gen d =>
        let b := BarRec.ofNat (s.winNum win off 16)
        if !b.ring || home != s.home win || s.g.stop == .stopped then s
        else if b.strap then
          s.endWait.takeTrap
            { cause := cPEERLOST, sub := 3, lmask := s.path.mask, va := BitVec.ofNat 56 off, kind := 2, level := 0xF }
        else
          let a := s.arrival win home off
          { s with g := s.g.barDone slot (if gen.toNat = b.gen then a.now else a.prev) d 1 }
      | _ => s
    | none => s)

end Sys2Proof.Machine
end

