-- ==== Sys2Proof/Machine/System.lean ====
section
/-! DEFINITION. System instructions (spec/12 R323 to R329; FENCE, spec/04 R103, R104; TRAP and ERET, spec/10 R261;
PHINT, R265; MAPPG and FRPOST, spec/05 R129 to R135), and the events that end their waits. -/

namespace Sys2Proof.Machine

/-! ## FENCE, YIELD, DCLK (R103, R324, R325) -/

/-- R103: every access of the model is performed as it is made (DESIGN CHOICE, log entry 3), but for undrained UO stores, which a
fence with UO drains, and for stores to other packages, whose acknowledgements a fence with a release part awaits
(R59, R116). -/
def fence (f : YForm) : Act Unit := do
  if f.sub.getLsbD 5 then modify State.drain
  if f.sub.getLsbD 4 then awaitPerformed
  retire 1

/-- FENCE (R103). -/
def execFence (f : YForm) (s : State) : Host.Outcome State Fault Refusal := Act.outcome (fence f) s

/-- YIELD (R324): the grant ends. -/
def execYield (_f : YForm) (s : State) : Host.Outcome State Fault Refusal :=
  Act.outcome (do
    retire 1
    modify fun s => { s with granted := false, g := { s.g with yielded := true } }) s

def dclk (f : YForm) : Act Unit := do
  let s ← get
  writeRetire f.d s.path.clock 1

/-- DCLK (R325). -/
def execDclk (f : YForm) (s : State) : Host.Outcome State Fault Refusal := Act.outcome (dclk f) s

/-! ## Timelines (R323, R109, R110) -/

/-- The context that a code and a channel number name (R323). -/
def ctxOf (code chan : Nat) : Option Ctx := if code = 9 then some (.spore (BitVec.ofNat 6 chan)) else ctxOfEng code

/-- R323: the context of a TLRD or TLWT; codes 5 to 7 raise ILLOP/FIELD on an F-core. -/
def namedCtx (n : Nat) : Act Ctx := do
  let s ← get
  let code := n % 16
  if s.g.die.toNat ≥ 2 ∧ 5 ≤ code ∧ code ≤ 7 then trapAll cILLOP 2 0
  match ctxOf code (n / 16 % 64) with
  | some c => pure c
  | none => trapAll cILLOP 2 0

def tlrd (f : YForm) : Act Unit := do
  let c ← namedCtx f.sub.toNat
  let s ← get
  writeRetire f.d (ctxGet s.w.timelines c) 1

/-- TLRD (R323). -/
def execTlrd (f : YForm) (s : State) : Host.Outcome State Fault Refusal := Act.outcome (tlrd f) s

/-- A timeline has reached a number (R109). -/
def Workgroup.reached (w : Workgroup) (c : Ctx) (n : Word64) : Bool := decide (n.toNat ≤ (ctxGet w.timelines c).toNat)

/-- R109, R104, R230: a TLWT whose number is reached drains and retires. -/
def State.passTimeline (s : State) (c : Ctx) (n : Word64) : State :=
  let p := s.path
  let clock := if s.g.det then maxClock p.clock (s.w.issueClock c n.toNat) + 1 else p.clock + 1
  s.drain.retireAt 1 clock

def tlwt (f : YForm) : Act Unit := do
  let c ← namedCtx f.sub.toNat
  let n ← readSA f.a
  let s ← get
  if s.w.reached c n then modify fun s => s.passTimeline c n
  else throw (.park { instr := .tlwt f, words := 1, on := .timeline c n, vals := [] })

/-- TLWT (R109). -/
def execTlwt (f : YForm) (s : State) : Host.Outcome State Fault Refusal := Act.outcome (tlwt f) s

/-- TLWT_RESUME (R109). -/
def execTlwtResume (g : GroupId) (slot : Bool) (s : State) : Host.Outcome State Fault Refusal :=
  .next (s.withGroup g slot fun s =>
    match s.path.wait with
    | some w =>
      match w.on with
      | .timeline c n => if s.g.stop != .stopped && s.w.reached c n then s.passTimeline c n else s
      | _ => s
    | none => s)

/-! ## Hints (R265) -/

def phint (f : YForm) (l0 l1 l2 : Word32) : Act Unit := do
  let s ← get
  if (s.g.stop = .requested ∨ s.g.stop = .notice) ∧ ¬ ((s.g.path? (!s.slot)).map fun p => !p.busy).getD true then hold
  let h : Hint := { hold := f.sub.getLsbD 5, vlive := l0, slive := l1.setWidth 16, splive := l2, acc := f.sub.setWidth 4, slots := f.sub.getLsbD 4 }
  modify fun s => s.retire 4
  modify fun s =>
    if s.g.stop = .requested ∨ s.g.stop = .notice then { s with granted := false, g := { s.g with hint := some h, stop := .stopped } }
    else { s with g := { s.g with hint := if h.hold then some h else none } }

/-- PHINT (R265, R264). With a request pending it stops the group, whose issued instructions retire first: it waits to issue while the
other live path is in the middle of an instruction. -/
def execPhint (f : YForm) (l0 l1 l2 : Word32) (s : State) : Host.Outcome State Fault Refusal := Act.outcome (phint f l0 l1 l2) s

/-! ## TRAP and ERET (R326, R261) -/

/-- R326: TRAP retires, and its trap is taken with SKIP = 1. -/
def State.softTrap (s : State) (sub : BitVec 8) (va : BitVec 56) : State :=
  let s := s.unhang
  let p := s.path
  let t := s.enterHandler
    { trap := { cause := cTRAP, sub := sub, lmask := p.mask, va := va, kind := 0, level := 0xF }, iw := p.frameWords, skip := true }
  if !s.g.supv && t.g.supv then t.setPath { t.path with clock := p.clock + 1 } else t

def trap (f : YForm) : Act Unit := do
  let va ← if f.sub.getLsbD 8 then readSA f.a else pure 0
  modify fun s => s.softTrap (f.sub.setWidth 8) (va.setWidth 56)

/-- TRAP (R326). -/
def execTrap (f : YForm) (s : State) : Host.Outcome State Fault Refusal := Act.outcome (trap f) s

/-- Bytes read from the save area by the handler's group. -/
def readSave (va n : Nat) : Act (List Byte) := do
  let s ← get
  let r ← stateful fun s => s.vload va n
  match r with
  | .ok bs => pure bs
  | .error f => trapAt f 0 s.path.mask va

def eret : Act Unit := do
  needSupv
  let va ← readS 127
  let bs ← readSave va.toNat 256
  let n := frameField bs 16 5
  let rs ← readSave (va.toNat + 256) (64 * n)
  let s ← get
  let (t, ended) := s.returnFrom bs ((chunks 64 n rs).map readReplay)
  set t
  -- a path that ends frees its slot, which is filled again (R212, R213); a fault of that is met in supervisor mode (R125)
  if ended then tryCatch (leaveSlot 0 t.stackNow) fun e => do
    set s
    throw e

/-- ERET (R261). -/
def execEret (_f : YForm) (s : State) : Host.Outcome State Fault Refusal := Act.outcome eret s

/-! ## Monitor and wait (R113, R114, R327, R328) -/

/-- The watched line's value as a read of the group returns it, its own undrained stores first (R104, R113). -/
def smon (f : YForm) : Act Unit := do
  let _ ← checkMark false
  let ix ← readSA f.a
  let buf := f.sub.toNat % 32
  let win := f.sub.toNat / 32 % 4
  let b ← readB buf
  let s ← get
  let r := s.g.recIn buf b
  let es ← pathMask (resolve { win := win, n := 2 ^ r.esz, kind := 0, priv := win == 0 && buf == 31 } r (scalarWant ix))
  modify fun s =>
    let watch := match es with
      | [] => none
      | e :: _ =>
        let b := e.bytes.headD ⟨0, [], false, 0⟩
        let line := (if win = 0 then b.pas.headD 0 else b.va) / 128 * 128
        some { win := win, home := s.home win, line := line, written := false
               value := (List.range 128).map fun i => if win = 0 then s.gbyte (line + i) else s.winByte win (line + i) }
    { s with g := { s.g with watch := watch } }
  retire 1

/-- SMON (R113, R327). -/
def execSmon (f : YForm) (s : State) : Host.Outcome State Fault Refusal := Act.outcome (smon f) s

/-- R114, R230: SMWAIT writes its status, disarms the watch and retires; `parked` says that it waited. -/
def State.endWatch (s : State) (d : BitVec 7) (status : Nat) (parked : Bool) : State :=
  let p := s.path
  let m := if s.g.det && parked then BitVec.ofNat 64 ((s.leastOther).getD 0) else 0
  let s := ({ s with g := { s.g with watch := none } } : State).setS d (BitVec.ofNat 64 status)
  s.endWait.unhang.retireAt 1 (maxClock p.clock m + 1)

def smwait (f : YForm) : Act Unit := do
  let mark ← checkMark false
  let a ← readSA f.a
  let s ← get
  if s.busyReg f.d then stall
  match s.g.watch with
  | none => modify fun s => s.endWatch f.d 2 false
  | some w =>
    if w.written then modify fun s => s.endWatch f.d 0 false
    else
      let sum := s.regs.timer.toNat + a.toNat
      let deadline := if a = BitVec.allOnes 64 ∨ 2 ^ 64 ≤ sum then none else some (BitVec.ofNat 64 sum)
      throw (.park { instr := .smwait f, words := 1, on := .monitor deadline, vals := [], mark := mark })

/-- SMWAIT (R114, R328). -/
def execSmwait (f : YForm) (s : State) : Host.Outcome State Fault Refusal := Act.outcome (smwait f) s

/-- A path parked in SMWAIT: its destination and its deadline. -/
def Path.monitor (p : Path) : Option (BitVec 7 × Option Word64) :=
  match p.wait with
  | some w =>
    match w.on, w.instr with
    | .monitor d, .smwait f => some (f.d, d)
    | _, _ => none
  | none => none

/-- The current path, parked in SMWAIT, of a group that is not switched out. -/
def State.monitor (s : State) : Option (BitVec 7 × Option Word64) := if s.g.stop == .stopped then none else s.path.monitor

def State.watchWritten (s : State) : Bool := (s.g.watch.map (·.written)).getD true

/-- MONITOR_WAKE (R114): a path whose watch another path's SMWAIT has disarmed wakes too, since nothing would wake it later; R114 lets
WRITTEN be returned where no write occurred (DESIGN CHOICE, log entry 80). -/
def execMonitorWake (g : GroupId) (slot : Bool) (s : State) : Host.Outcome State Fault Refusal :=
  .next (s.withGroup g slot fun s =>
    match s.monitor with
    | some (d, _) => if s.watchWritten then s.endWatch d 0 true else s
    | none => s)

/-- SMWAIT_SPURIOUS_WAKE (R114). -/
def execSmwaitSpuriousWake (g : GroupId) (slot : Bool) (s : State) : Host.Outcome State Fault Refusal :=
  .next (s.withGroup g slot fun s =>
    match s.monitor with
    | some (d, _) => s.endWatch d 0 true
    | none => s)

/-- SMWAIT_TIMEOUT (R328): TIMER has reached the deadline; a write that came first still gives WRITTEN (R114). -/
def execSmwaitTimeout (g : GroupId) (slot : Bool) (s : State) : Host.Outcome State Fault Refusal :=
  .next (match ((s.group? g).bind fun x => if x.stop == .stopped then none else x.path? slot).bind Path.monitor with
    | some (d, some t) =>
      ({ s with regs := { s.regs with timer := maxClock s.regs.timer t } } : State).withGroup g slot fun s =>
        s.endWatch d (if s.watchWritten then 0 else 1) true
    | _ => s)

/-! ## Cache clean (R329) -/

/-- The lines of a range are translated, all before any is cleaned: the copies of this package (R329). -/
def cleanXlates (n line : Nat) : Act (List Nat) :=
  match n with
  | 0 => pure []
  | n + 1 => do
    let s ← get
    let r ← stateful fun s => s.translate s.here s.g.asid { here := true } (line * 128)
    match r with
    | .error f => trapAt f 0 s.path.mask (line * 128)
    | .ok x => do
      let rest ← cleanXlates n (line + 1)
      pure (x.pas ++ rest)

/-- Modified copies go to their homes; with INV every copy is then discarded. -/
def State.cleanLines (s : State) (inv : Bool) (pas : List Nat) : State :=
  pas.foldl (fun s p =>
    let s := if s.dirty.contains p then s.writeBack p else s
    if inv then s.dropLine p else s) s

def sclean (f : YForm) : Act Unit := do
  let ix ← readSA f.a
  let n ← readSB f.d
  let buf := f.sub.toNat % 32
  let b ← readB buf
  let s ← get
  let r := s.g.recIn buf b
  let mask := s.path.mask
  if 2 ^ 32 ≤ n.toNat then trapAt protBrec 0 mask 0
  if n = 0 then
    awaitPerformed
    retire 1
  else if r.bad then trapAt protBrec 0 mask (if ix.toNat < r.extent then r.addr (buf == 31) 0 ix.toNat 0 else 0)
  else if r.extent ≤ ix.toNat then
    if r.oobt then trapAt { cause := cOOB, sub := 0 } 0 mask 0
    modify fun s => s.stick 0
    retire 1
  else
    let a := r.addr (buf == 31) 0 ix.toNat 0
    if vaSize < a + n.toNat then trapAt (tfault 4 15) 0 mask a
    if straddles r.esz ((List.range (2 ^ r.esz)).map fun k => r.addr (buf == 31) 0 ix.toNat k) then
      trapAt { cause := cALIGN, sub := 2 } 0 mask a
    let pas ← cleanXlates ((a + n.toNat - 1) / 128 - a / 128 + 1) (a / 128)
    modify fun s => s.cleanLines (f.sub.getLsbD 5) pas
    awaitPerformed
    retire 1

/-- SCLEAN (R329). -/
def execSclean (f : YForm) (s : State) : Host.Outcome State Fault Refusal := Act.outcome (sclean f) s

/-! ## First touch (R127 to R130) -/

def mappg (f : YForm) : Act Unit := do
  needSupv
  let mark ← checkMark false
  let va ← readSA f.a
  let s ← get
  if s.busyReg f.d || decide (64 ≤ s.mapQueue.length) then (if s.busyReg f.d then stall else hold)
  set { s with mapQueue := s.mapQueue ++ [MapReq.mk s.g.id s.slot (va &&& ~~~0x7FFF#64)] }
  throw (.park { instr := .mappg f, words := 1, on := .firstTouch, vals := [va], mark := mark })

/-- MAPPG (R129): the request joins the first-touch unit's queue; FIRST_TOUCH_SERVICE performs it. -/
def execMappg (f : YForm) (s : State) : Host.Outcome State Fault Refusal := Act.outcome (mappg f) s

/-- Where a walk that raises no fault ends (R129). -/
inductive WalkEnd where
  | placeholder (pa : Nat) (entry : Word64)
  | leaf
  | other
  deriving DecidableEq, Repr

/-- The walk of MAPPG through tables in memory (R26 to R30), each read a request (R40, R49). -/
def State.plainWalk (s : State) (va : Nat) (levels : List Nat) (table : Nat) : State × WalkEnd :=
  match levels with
  | [] => (s, .other)
  | level :: rest =>
    let pa := table + 8 * levelIndex level va
    let s := s.plainRequest pa
    if s.rangePoisoned pa 8 then (s, .other)
    else
      let e := BitVec.ofNat 64 (s.num pa 8)
      if level == 0 && !pteV e && pteFt e then (s, .placeholder pa e)
      else match entryFault level va e with
        | some _ => (s, .other)
        | none => if pteL e then (s, .leaf) else s.plainWalk va rest (pteFrame e)

def State.mapWalk (s : State) (asid : BitVec 12) (va : Nat) : State × WalkEnd :=
  let base := bitsOf s.regs.asidbase.toNat 16 36 * 2 ^ 16
  let s := s.plainRequest (base + 16 * asid.toNat)
  let e := s.num (base + 16 * asid.toNat) 16
  let root := bitsOf e 8 44 * 2 ^ 8
  let peer := bitsOf e 76 40 * 2 ^ 12
  if vaSize ≤ va || !s.regs.asidbase.getLsbD 0 || !isLocal base || !bitOf e 0 || bitsOf e 1 7 != 0 || bitsOf e 52 24 != 0 || bitsOf e 116 12 != 0
      || !isLocal root || !isLocal peer then (s, .other)
  else s.plainWalk va [3, 2, 1, 0] root

/-- A frame of 32 KiB is written as zeros: its bytes, its poison and the watches on it. -/
def State.zeroFrame (s : State) (frame : Nat) : State :=
  let lines := (List.range 256).map fun i => frame + 128 * i
  let s := s.plainLines lines
  let s := { s with
    cmpLines := s.cmpLines.filter fun l => !(decide (frame ≤ l) && decide (l < frame + 32768))
    mem := s.mem.filter fun p => !(decide (frame ≤ p.1) && decide (p.1 < frame + 32768))
    soft := s.soft.filter fun t => match t with | .sector x => !(decide (frame ≤ x) && decide (x < frame + 32768)) | _ => true }
  (s.touch 0 0 lines).markDirty lines

/-- R129: the effect of one MAPPG on die `d`: its status, or none while LOCK = 1. -/
def State.mapPage (s : State) (asid : BitVec 12) (d va : Nat) : State × Option Nat :=
  match s.mapWalk asid va with
  | (s, .leaf) => (s, some 1)
  | (s, .other) => (s, some 3)
  | (s, .placeholder pa e) =>
    let p := bitsOf s.regs.ftpbase.toNat 16 36 * 65536 + (4 * asid.toNat + d) * 16
    let s := s.plainRequest p
    let v := s.num p 16
    if !bitOf v 0 || bitsOf v 2 10 != 0 || bitsOf v 52 12 != 0 then (s, some 6)
    else if bitOf v 1 then (s, none)
    else
      let count := bitsOf v 96 32
      if count = 0 then (s, some 2)
      else
        let s := (s.storeNum (p + 12) 4 (count - 1)).plainRequest (bitsOf v 12 40 * 4096 + 8 * (count - 1))
        let w := s.num (bitsOf v 12 40 * 4096 + 8 * (count - 1)) 8
        let frame := bitsOf w 0 37 * 32768
        if bitsOf w 37 27 != 0 || !isOrdinary d frame then (s, some 5)
        else
          let s := s.zeroFrame frame
          let keep := e.toNat - bitsOf e.toNat 15 37 * 2 ^ 15 - bitsOf e.toNat 8 3 * 2 ^ 8 - bitsOf e.toNat 0 2
          let s := s.storeNum pa 8 (keep + bitsOf w 0 37 * 2 ^ 15 + 3)
          (s, some (if count - 1 ≤ bitsOf v 64 32 then 4 else 0))

/-- FIRST_TOUCH_SERVICE (R130): the MAPPG at the head of the queue is performed; one whose pool is locked waits. -/
def execFirstTouchService (s : State) : Host.Outcome State Fault Refusal :=
  .next (match s.mapQueue with
    | [] => s
    | q :: rest =>
      match s.group? q.group with
      | none => { s with mapQueue := rest }
      | some g =>
        match s.mapPage g.asid g.die.toNat q.va.toNat with
        | (s, none) => s
        | (s, some st) =>
          ({ s with mapQueue := rest } : State).withGroup q.group q.slot fun s =>
            match s.path.wait with
            | some { instr := .mappg f, .. } => (s.endWait.setS f.d (BitVec.ofNat 64 st)).retire 1
            | _ => s)

/-! ## The fault ring (R132, R133) -/

/-- The record of a frame (R132, R133): for a delivered fault the PC is that of the instruction that issued the command. -/
def State.frameRecord (s : State) (bs : List Byte) (reply : Word64) : Record :=
  let eng := frameField bs 24 4
  let tl := frameField bs 384 64
  let at' := frameField bs 256 56 + 4 * frameField bs 312 6
  let issuer := if frameField bs 21 1 = 1 then s.g.serving.map fun d => d.pc.toNat else none
  let k := s.g.trapKind
  { reply := reply, pos := BitVec.ofNat 64 (if k.toNat ≤ 3 then frameField bs 320 64 else tl)
    pc := BitVec.ofNat 56 (issuer.getD at'), lmask := BitVec.ofNat 32 (frameField bs 32 32), gidx := s.g.gidx, node := s.g.id.node
    core := s.g.core, die := s.g.die, eng := BitVec.ofNat 4 eng, kind := k, asid := s.g.asid, sub := BitVec.ofNat 8 (frameField bs 8 8)
    cause := BitVec.ofNat 8 (frameField bs 0 8), level := s.g.trapLevel, va := BitVec.ofNat 56 (frameField bs 64 56) }

def frpost (f : YForm) : Act Unit := do
  needSupv
  let _ ← checkMark false
  orderGate (.frpost f) 1
  let reply ← readSA f.a
  let va ← readS 127
  let s ← get
  if s.busyReg f.d then stall
  let bs ← readSave va.toNat 256
  let t ← stateful fun s => s.frPost (s.frameRecord bs reply)
  writeRetire f.d (match t with | some t => BitVec.ofNat 64 (t.toNat % 2 ^ 32) | none => BitVec.allOnes 64) 1

/-- FRPOST (R133). -/
def execFrpost (f : YForm) (s : State) : Host.Outcome State Fault Refusal := Act.outcome (frpost f) s

/-- OVERFLOW_RECORD_POST (R135): a waiting record is posted when the ring has room; the oldest goes first. -/
def execOverflowRecordPost (die : BitVec 2) (s : State) : Host.Outcome State Fault Refusal :=
  .next (match s.oldestWaiting with
    | some (d, _, _) => if d = die then s.postWaiting1 else s
    | none => s)

/-- DET_EVENT_RELEASE (R229): a path that waited for its key issues its event again once the key is the lowest. -/
def execDetEventRelease (g : GroupId) (slot : Bool) (s : State) : Host.Outcome State Fault Refusal :=
  .next (s.withGroup g slot fun s =>
    match s.path.wait with
    | some w => if w.on = .order && s.lowestFor w.instr s.g.id.node s.key (some (s.g.id, s.slot)) then s.setPath { s.path with wait := none } else s
    | none => s)

/-- DELIVERED_TRAP (R124). -/
def execDeliveredTrap (g : GroupId) (s : State) : Host.Outcome State Fault Refusal := .next (s.deliver g)

/-- HOST_STORE_LOSS (R448): the host rejects one of the device's stores to its window: the store is dropped and a machine check
recorded. Which of them is free (DESIGN CHOICE, log entry 78). -/
def execHostStoreLoss (s : State) : Host.Outcome State Fault Refusal :=
  .next (if s.hostStores.isEmpty then s else (s.loseHostStore (Config.lostStore s.steps % s.hostStores.length)).machineCheck 4)

end Sys2Proof.Machine
end

