-- ==== Sys2Proof/Machine/TierEvents.lean ====
section
/-! DEFINITION. What the memory of the package does by itself: tiers, compression (spec/02 R40 to R55), walks (spec/05
R119), and what other packages do to it (R57, R59). -/

namespace Sys2Proof.Machine

/-! ## Tiers -/

/-- The address of a member of a group of an A-die (R35). -/
def memberAddr (die : BitVec 2) (group member : Nat) : Nat := die.toNat * 2 ^ 41 + member * memberSpan + group * 2 ^ 15

/-- A cached leaf with PIN and TIER covers an address: what an access of the device carries to it (R41). -/
def TlbEntry.covers (pin : Bool) (tier pa : Nat) (e : TlbEntry) : Bool :=
  match e with
  | .leaf _ _ level _ e _ =>
    !ptePeer e && ptePin e == pin && pteTier e == tier && decide (pteFrame e ≤ pa) && decide (pa < pteFrame e + 2 ^ levelShift level)
  | _ => false

/-- Some translation cache of the package holds such a leaf. -/
def State.leafOver (s : State) (pin : Bool) (tier pa : Nat) : Bool :=
  s.cores.any (fun c => c.tlb.any (TlbEntry.covers pin tier pa)) || [s.die0, s.die1, s.die2, s.die3].any fun d => d.tlb.any (TlbEntry.covers pin tier pa)

/-- COUNTING_ACCESS (R41 to R43, R45): a line request that reaches a member of an unlocked group of an A-die through a leaf that a
translation cache holds; a request that a swap holds is counted after it (R44). -/
def execCountingAccess (die : BitVec 2) (group : Nat) (member : BitVec 2) (pin : Bool) (tier : BitVec 2) (s : State) :
    Host.Outcome State Fault Refusal :=
  let pa := memberAddr die group member.toNat
  .next (if s.leafOver pin tier.toNat pa then s.countingAccess die group member.toNat pin tier.toNat else s)

/-- LICHEN_CACHE_MISS (R40, R47): a request to a block of 32 groups of an A-die that its lichen cache does not hold. -/
def execLichenCacheMiss (die : BitVec 2) (block : Nat) (s : State) : Host.Outcome State Fault Refusal :=
  .next (if groupCount / 32 ≤ block || (s.die die).lichCache.contains block then s else s.lichenLookup die block)

/-- SWAP_START (R45). -/
def execSwapStart (die : BitVec 2) (s : State) : Host.Outcome State Fault Refusal := .next (s.startSwap die)

/-- LINE_WRITE_BACK (R49, R52): a line of a die's memory, where it is dirty. -/
def execLineWriteBack (die : BitVec 2) (line : Nat) (s : State) : Host.Outcome State Fault Refusal :=
  let pa := die.toNat * 2 ^ 41 + 128 * line
  .next (if s.dirty.contains pa then s.writeBack pa else s)

/-- R54: the predictor's sectors for the location of an address are fewer than its metadata says, which L2 does not hold. -/
def State.underPredicted (s : State) (pa : Nat) : Bool :=
  let d := s.die (BitVec.ofNat 2 (dieOf pa))
  isOwn pa && isLocal pa && !inCarve pa && !d.holdsLine (metaLine pa)
    && decide (3 - (d.predictor.get (winOff pa / 2 ^ 15 % 65536)).toNat + 1 < residentSectors (s.metaCode pa))

/-- SIZE_MISPREDICTION (R54, R55): a read of a line from memory finds more sectors than predicted. -/
def execSizeMisprediction (pa : Nat) (s : State) : Host.Outcome State Fault Refusal :=
  .next (if s.underPredicted pa then s.consultMeta pa else s)

/-! ## Walks -/

/-- PAGE_WALK (R119, R31): an address that a core's cache does not hold is walked and its leaf cached; a fault, or the hold of a tier
swap (R44), is met by the access that needs the walk, not here. -/
def execPageWalk (die : BitVec 2) (core : Nat) (asid : BitVec 12) (va : BitVec 56) (s : State) :
    Host.Outcome State Fault Refusal :=
  let a : Where := ⟨die, some core⟩
  .next (if coresOf die.toNat ≤ core || !s.regs.asidbase.getLsbD 0 || (s.cachedLeaf a asid va.toNat).isSome then s
    else (s.walk a asid va.toNat true).1)

/-! ## Requests from outside the device -/

/-- A naturally aligned word of an atomic of 4 or 8 bytes (R446). -/
def atomicWord (pa n : Nat) : Bool := (n == 4 || n == 8) && pa % n == 0

/-- Every byte of [pa, pa + n) meets `f`. -/
def allBytes (f : Nat → Bool) (pa n : Nat) : Bool := (List.range n).all fun i => f (pa + i)

/-- The bytes that a request names, and whether it is an atomic. -/
def reqRange (r : HostReq) : Nat × Nat × Bool :=
  match r with
  | .read pa n => (pa, n, false)
  | .write pa bs => (pa, bs.length, false)
  | .fetchAdd pa n _ => (pa, n, true)
  | .swap pa n _ => (pa, n, true)
  | .cas pa n _ _ => (pa, n, true)
  | .bar _ _ => (0, 0, false)

/-- What a request stores. -/
def State.reqStore (s : State) (r : HostReq) : List (Nat × Byte) :=
  match r with
  | .read _ _ => []
  | .write pa bs => cellsAt pa bs
  | .fetchAdd pa n v => cellsAt pa (bytesOf n (s.num pa n + v.toNat))
  | .swap pa n v => cellsAt pa (bytesOf n v.toNat)
  | .cas pa n cmp v => if s.num pa n == cmp.toNat % 2 ^ (8 * n) then cellsAt pa (bytesOf n v.toNat) else []
  | .bar _ _ => []

/-- A request can be served: it names bytes, each meets `ok`, and an atomic names an aligned word. -/
def canServe (ok : Nat → Bool) (r : HostReq) : Bool :=
  let (pa, n, atomic) := reqRange r
  n != 0 && allBytes ok pa n && (!atomic || atomicWord pa n)

/-- A request that returns bytes. -/
def reqReads (r : HostReq) : Bool :=
  match r with
  | .write _ _ => false
  | _ => true

/-- R44: a swap holds a line of a request. -/
def State.swapWaits (s : State) (r : HostReq) : Bool :=
  let (pa, n, _) := reqRange r
  (List.range n).any fun i => s.isHeld (pa + i)

/-- R450, R59: a request reads bytes that a store of a device issuer has written here and that some other member of its peer set has
still to acknowledge. -/
def State.storeWaits (s : State) (r : HostReq) : Bool :=
  let (pa, n, _) := reqRange r
  reqReads r && s.unacked.any fun u => u.own.any fun x => decide (pa ≤ x) && decide (x < pa + n)

/-- The lines of a request. -/
def reqLines (r : HostReq) : List Nat :=
  let (pa, n, _) := reqRange r
  ((List.range (n / 128 + 2)).map fun i => pa / 128 * 128 + 128 * i).filter fun l => decide (l < pa + n)

/-- What a request returns: the bytes as they were, poisoned where they read as poison (R459); an atomic to a carve-out, zero (R37). -/
def State.reqReply (s : State) (r : HostReq) : HostReply :=
  let (pa, n, atomic) := reqRange r
  if !reqReads r then ⟨.success, [], false⟩
  else if atomic && inCarve pa then ⟨.success, List.replicate n 0, false⟩
  else ⟨.success, s.bytes pa n, s.rangePoisoned pa n⟩

/-- A request on memory by an agent outside the device, with what it returns. A write stores, and an atomic replaces its word in one
step. No leaf lets the lines be compressed (R52), and a read of host memory follows the device's posted stores to it (R448). One that
names an address that is not the agent's, or an atomic of another size, is aborted without effect (DESIGN CHOICE, log entry 84). -/
def State.serve (s : State) (ok : Nat → Bool) (r : HostReq) : State × HostReply :=
  if !canServe ok r then (s, ⟨.completerAbort, [], false⟩)
  else
    let reply := s.reqReply r
    let ws := s.reqStore r
    let s := (reqLines r).foldl (fun s l => (if reqReads r then s.settleHost l else s).plainRequest l) s
    let s := s.store ws
    (if ws.isEmpty then s else { s with cmpLines := s.cmpLines.filter fun l => !(reqLines r).contains l }, reply)

/-- A request is served, or waits to be made again: while a swap holds a line of it (R44), or while `wait`. -/
def State.serveOrHold (s : State) (h : HeldReq) (ok : Nat → Bool) (wait : Bool) (r : HostReq) : State × HostReply :=
  if canServe ok r && (wait || s.swapWaits r) then ({ s with held := s.held ++ [h] }, ⟨.held, [], false⟩) else s.serve ok r

/-- A request from outside the device. The host reaches the ordinary memory of the die windows (R446), other packages reach member
frames, of which one in a hole, in a carve-out or in the host window is refused (R57), and PF1 reaches either (R453). The host and PF1
read what is performed at system scope (R450, R453). -/
def State.outside (s : State) (h : HeldReq) : State :=
  match h with
  | .host r =>
    let (s, reply) := s.serveOrHold h isLocal (s.storeWaits r) r
    { s with hostReplies := s.hostReplies ++ [reply] }
  | .pf1 r => (s.serveOrHold h (fun x => isOwn x && ((isLocal x && !inCarve x) || isHost x)) (s.storeWaits r) r).1
  | .peer r => (s.serveOrHold h (fun x => isOwn x && isLocal x && !inCarve x) false r).1
  | .submit index => s.hostSubmit index
  | .invalidate kind asid => s.hostTlbi kind asid

/-- R44, R450: the requests that have waited are made again, in their order. -/
def State.retryHeld (s : State) : State :=
  if s.held.isEmpty then s else s.held.foldl State.outside { s with held := [], hostReplies := [] }

/-- SWAP_COMPLETE (R44): the requests that it held go on. -/
def execSwapComplete (die : BitVec 2) (group : Nat) (s : State) : Host.Outcome State Fault Refusal :=
  .next (s.endSwap die group).retryHeld

/-- PEER_REQUEST_ARRIVAL (R57, R452): another package's request for a member frame of this one; before READY every request is
refused. It is no counting access (R41); its answer goes to the other package. -/
def execPeerRequestArrival (r : HostReq) (s : State) : Host.Outcome State Fault Refusal :=
  .next (s.whenReady fun s => s.outside (.peer r))

/-- PEER_STORE_ACK (R59, R116): package `pkg` acknowledges the oldest store that awaits it. With the last acknowledgement of a store
the marks of its instruction go (Table 11-3), an invalidation that awaited it ends (R138), and the requests that waited are made
again (R450). -/
def execPeerStoreAck (pkg : Nat) (s : State) : Host.Outcome State Fault Refusal :=
  .next (match s.unacked.find? fun a => a.pkg == pkg with
    | none => s
    | some a =>
      let s := { s with unacked := s.unacked.erase a }
      let s := match a.issuer with
        | .group g => if s.unacked.any (fun b => b.store == a.store) then s else s.modGroup g fun x => x.unmarkAll a.marks
        | .cmd _ => s
      s.endInvalidate.retryHeld)

/-- HOST_MEMORY_REQUEST (R446, R447, R450, R457): the host reaches the ordinary memory of the die windows, its addresses' bit
51 without meaning, and reads BAR0; it gets the bytes read or the old value of an atomic, those of device writes performed at system
scope alone. Before READY a request to memory is aborted without effect. -/
def execHostMemoryRequest (r : HostReq) (s : State) : Host.Outcome State Fault Refusal :=
  let low (x : Nat) : Nat := x % 2 ^ 51
  let r : HostReq := match r with
    | .read pa n => .read (low pa) n
    | .write pa bs => .write (low pa) bs
    | .fetchAdd pa n v => .fetchAdd (low pa) n v
    | .swap pa n v => .swap (low pa) n v
    | .cas pa n c v => .cas (low pa) n c v
    | .bar off n => .bar off n
  .next (match r with
    | .bar off n => { s with hostReplies := [⟨.success, s.barRead off n, false⟩] }
    | r =>
      if !s.regs.bootstat.getLsbD 8 then { s with hostReplies := [⟨.completerAbort, [], false⟩] }
      else ({ s with hostReplies := [] } : State).outside (.host r))

/-- PF1_DMA (R453): host memory or the ordinary memory of the die windows, ordered at system scope. -/
def execPf1Dma (r : HostReq) (s : State) : Host.Outcome State Fault Refusal := .next (s.whenReady fun s => s.outside (.pf1 r))

end Sys2Proof.Machine
end

