-- ==== Sys2Proof/Machine/Bringup.lean ====
section
/-! DEFINITION. Bring-up (spec/20 R452 to R457), soft errors (R458), power and cooling (R461, R462), firmware and
attestation (R463, R464). -/

namespace Sys2Proof.Machine

/-! ## Stages (R454 Table 20-3) -/

def State.stage (s : State) : Nat := bitsOf s.regs.bootstat.toNat 0 8
def State.bootErr (s : State) : Nat := bitsOf s.regs.bootstat.toNat 32 16
def State.isReady (s : State) : Bool := s.regs.bootstat.getLsbD 8

def State.setBootstat (s : State) (v : Nat) : State := { s with regs := { s.regs with bootstat := BitVec.ofNat 64 v } }

/-- A stage of bring-up is under way. -/
def State.inStage (s : State) (n : Nat) : Bool := s.perst && s.bootErr == 0 && s.stage == n && !s.isReady

/-- R454: ERR becomes non-zero: STAGE stops, READY is 0, vector 3. -/
def State.bootFails (s : State) (err : Nat) : State := (s.setBootstat (err * 2 ^ 32 + s.stage)).raiseVector 3

/-- PERST_DEASSERT (R454): every register and structure of the device is as at reset and the ROM runs. Memory, and with it
its poison, stays until MEMINIT, and so do RECOVER with the recovery window (R463) and the leaf index (R464). What is
not the device's (the host's and other packages' memory, messages sent, moves to come) stays (DEDUCED, log entry 46). -/
def execPerstDeassert (s : State) : Host.Outcome State Fault Refusal :=
  .next { State.reset with
    perst := true, mem := s.mem, recovery := s.recovery, leaves := s.leaves, msixSent := s.msixSent, steps := s.steps
    schedule := s.schedule, twinSent := s.twinSent, hostReplies := s.hostReplies
    soft := s.soft.filter fun t => match t with | .sector _ => true | _ => false
    regs := { PkgRegs.reset with attctl := s.regs.attctl &&& 8#64 } }

/-- The image that the ROM checks (R463): the recovery window's, where the host has written one and set ATTCTL.RECOVER, else the
flash's. -/
def State.image (s : State) : List Byte :=
  match s.regs.attctl.getLsbD 3, s.recovery.getLast? with
  | true, some (last, _) => s.recovery.range 0 (last + 1)
  | _, _ => Config.flash

/-- R463: what the ROM accepts. -/
def imageGood (bs : List Byte) : Bool :=
  Config.signatureGood bs && Config.keyHash bs == Config.rootHash && decide (Config.rollback ≤ Config.imageVersion bs)

/-- VERIFY (R463): the ROM goes on to stage 2; in stage 2 the check ends: the image is accepted, and is the firmware that runs, or
refused. `ok` says that the ROM could read it; any failure sets ERR = 1. -/
def execVerify (ok : Bool) (s : State) : Host.Outcome State Fault Refusal :=
  .next (if s.inStage 1 then s.setBootstat 2
    else if s.inStage 2 then (if ok && imageGood s.image then ({ s with firmware := s.image } : State).setBootstat 3 else s.bootFails 1)
    else s)

/-- CALIB (R452): the package number, the ports that are up and the routing table. -/
def execCalib (ok : Bool) (pkg : BitVec 12) (up : BitVec 18) (routes : List Route) (s : State) :
    Host.Outcome State Fault Refusal :=
  .next (if s.inStage 3 then
      if ok then
        ({ s with routes := routes, regs := { s.regs with freipstat := BitVec.ofNat 64 (pkg.toNat * 2 ^ 32 + up.toNat) } } : State).setBootstat 4
      else s.bootFails 2
    else s)

/-- A die after MEMINIT (R455). -/
def Die.initialised (d : Die) (a : Bool) : Die := { d with lichCtl := if a then 0x41 else d.lichCtl, predictor := [], l2 := [] }

/-- MEMINIT (R455): every byte of the die windows is zero and free of poison, but for the lichen table, which is as R39
gives it; LICHCTL and the size predictors are set. -/
def execMeminit (ok : Bool) (s : State) : Host.Outcome State Fault Refusal :=
  .next (if s.inStage 4 then
      if ok then
        let mine (x : Nat) : Bool := isOwn x && isLocal x
        ({ s with
            mem := s.mem.filter fun p => !mine p.1
            soft := s.soft.filter fun t => match t with | .sector x => !mine x | _ => true
            dirty := [], cmpLines := []
            die0 := s.die0.initialised true, die1 := s.die1.initialised true
            die2 := s.die2.initialised false, die3 := s.die3.initialised false } : State).setBootstat 5
      else s.bootFails 3
    else s)

/-- CORE_RELEASE_STEP (R456): another 32 of the 576 cores. -/
def execCoreReleaseStep (s : State) : Host.Outcome State Fault Refusal :=
  .next (if s.inStage 5 && decide (s.released < 18) then { s with released := s.released + 1 } else s)

/-- READY (R456): after the last core; TIMER starts at 0, and every register that bring-up does not write is at reset, RECOVER among
them, which VERIFY has used; vector 3. -/
def execReady (s : State) : Host.Outcome State Fault Refusal :=
  .next (if s.inStage 5 && s.released == 18 then
      (({ s with regs := { s.regs with timer := 0, attctl := 0 } } : State).setBootstat 0x106).raiseVector 3
    else s)

/-- 80 ms in periods of the 1.25 GHz reference clock. -/
def retryTime : Nat := 100000000

/-- CONFIG_REQUEST (R457): before READY, answered with Request Retry Status in the first 80 ms after PERST#, and normally after that. The
spec does not give what configuration space holds (log entry 84). -/
def execConfigRequest (_reg : Nat) (s : State) : Host.Outcome State Fault Refusal :=
  .next { s with hostReplies := [⟨if !s.isReady && decide (s.sincePerst < retryTime) then .requestRetry else .success, [], false⟩] }

/-! ## Ports (R452) -/

/-- FREIP_PORT_DOWN (R452): its UP bit clears; requests on routes through it fail until the routing table is recomputed
(State.hops). -/
def execFreipPortDown (port : Nat) (s : State) : Host.Outcome State Fault Refusal :=
  .next (if port < 18 then { s with regs := { s.regs with freipstat := setBit s.regs.freipstat port false } } else s)

/-- ROUTE_RECOMPUTE (R452). -/
def execRouteRecompute (routes : List Route) (s : State) : Host.Outcome State Fault Refusal :=
  .next (s.whenReady fun s => { s with routes := routes })

/-! ## Soft errors (R458, R206) -/

/-- POISON_DETECT (R458, R206): an uncorrectable soft error in memory, in an on-chip window, in a register, an accumulator
or operand memory, or in a spore's payload; or the host completes the next request to a sector of the host window with an error
(R448). -/
def execPoisonDetect (t : PoisonTarget) (s : State) : Host.Outcome State Fault Refusal :=
  .next (match t with
    | .sector pa => if isHole (basePa pa) then s else s.poison [pa]
    | .hostError pa => if isOwn pa && isHost pa then { s with soft := s.soft ++ [.hostError pa] } else s
    | .spore chan slot off =>
      let hit (x : Spore) : Bool := x.slot == slot && decide (off < x.payload.length) && !x.poison.contains (off / 32)
      let mark (x : Spore) : Spore := if hit x then { x with poison := x.poison ++ [off / 32] } else x
      { s with channels := s.channels.map fun c => if c.num = chan then { c with spores := c.spores.map mark } else c }
    | t => if s.soft.any (fun u => sameTarget u t) then s else { s with soft := s.soft ++ [t] })

/-! ## Power and cooling (R461, R462) -/

/-- A core clock in MHz that the steps of 62.5 MHz from 1250 down to 625 reach, rounded either way (R461). -/
def clockOk (clk : Nat) : Bool := (List.range 11).any fun k => decide (2 * clk ≤ 2501 - 125 * k) && decide (2500 - 125 * k ≤ 2 * clk + 1)

/-- PWRSTAT with a clock and, where given, a power (Table 20-7). -/
def State.setPower (s : State) (clk : Nat) (pwr : Option Nat) : State :=
  let old := s.regs.pwrstat.toNat
  let p := pwr.getD (bitsOf old 16 16)
  { s with regs := { s.regs with pwrstat := BitVec.ofNat 64 ((if clk < 1250 then 2 ^ 32 else 0) + place p 16 16 + place clk 0 16) } }

/-- The present clock, and the cap. -/
def State.clk (s : State) : Nat := bitsOf s.regs.pwrstat.toNat 0 16
def State.cap (s : State) : Nat := bitsOf s.regs.pwrctl.toNat 0 12

/-- THERMAL_THROTTLE (R462, R461): above 95 °C the clock goes down. -/
def execThermalThrottle (clk : BitVec 16) (s : State) : Host.Outcome State Fault Refusal :=
  .next (if clockOk clk.toNat && decide (clk.toNat < s.clk) then s.setPower clk.toNat none else s)

/-- THERMAL_RECOVER (R462): back at 90 °C the clock may rise. -/
def execThermalRecover (clk : BitVec 16) (s : State) : Host.Outcome State Fault Refusal :=
  .next (if clockOk clk.toNat && decide (s.clk < clk.toNat) then s.setPower clk.toNat none else s)

/-- THERMAL_WARNING (R462, R460). Until READY, MCSTAT stays at its reset value (R456). -/
def execThermalWarning (s : State) : Host.Outcome State Fault Refusal := .next (s.whenReady fun s => s.machineCheck 3)

/-- THERMAL_TRIP (R462, R454): issue stops on every core, ERR = 4, READY clears. -/
def execThermalTrip (s : State) : Host.Outcome State Fault Refusal :=
  .next (({ s with tripped := true } : State).bootFails 4)

/-- POWER_THROTTLE (R461): the draw exceeds CAP and the clock goes down. -/
def execPowerThrottle (clk pwr : BitVec 16) (s : State) : Host.Outcome State Fault Refusal :=
  .next (if clockOk clk.toNat && decide (clk.toNat < s.clk) && decide (s.cap < pwr.toNat) then s.setPower clk.toNat (some pwr.toNat) else s)

/-- POWER_UNTHROTTLE (R461): the draw is within CAP and the clock rises. -/
def execPowerUnthrottle (clk pwr : BitVec 16) (s : State) : Host.Outcome State Fault Refusal :=
  .next (if clockOk clk.toNat && decide (s.clk < clk.toNat) && decide (pwr.toNat ≤ s.cap) then s.setPower clk.toNat (some pwr.toNat) else s)

/-! ## Attestation (R464 Table 20-8) -/

/-- ATTEST_REQUEST (R464): a write of ATTCTL; GO starts a request unless one runs. -/
def execAttestRequest (v : Word64) (s : State) : Host.Outcome State Fault Refusal :=
  .next (s.whenReady fun s => s.attWrite v (BitVec.allOnes 64))

/-- R464: what the device signs: the nonce, the hash of the running firmware, the fuse configuration and PKG, in this order (DESIGN
CHOICE, log entry 24). -/
def State.report (s : State) (nonce : List Byte) : List Byte :=
  nonce ++ bytesOf 32 (Config.imageHash s.firmware).toNat ++ Config.fuses ++ bytesOf 2 s.pkg

/-- ATTEST_DONE (R464): the report and its signature are written 64 bytes above the nonce, or no leaf is left, or the
access to host memory failed; BUSY clears. -/
def execAttestDone (hostOk : Bool) (s : State) : Host.Outcome State Fault Refusal :=
  .next (if s.regs.attctl.getLsbD 1 then
      let done (s : State) (sts : Nat) : State :=
        { s with regs := { s.regs with attctl := setField (setBit s.regs.attctl 1 false) 4 2 sts } }
      if 2 ^ 20 ≤ s.leaves then done s 2
      else
        let at' := 2 ^ 48 + bitsOf s.regs.attctl.toNat 12 46 * 64
        let s := s.settleHost at'
        if !hostOk || s.rangePoisoned at' 64 then done s 3
        else
          let report := s.report (s.bytes at' 64)
          let bs := report ++ Config.attestSign Config.attestKey s.leaves report
          done { s.devStore (cellsAt (at' + 64) bs) with leaves := s.leaves + 1 } 1
    else s)

end Sys2Proof.Machine
end

