-- ==== Sys2Proof/Machine/KvStore.lean ====
section
/-! DEFINITION. The key-value page store (spec/06 R140 to R168): descriptors, KVPTEs, sequence records, stacks, slots,
summaries, and the arena transactions of the KV walker. -/

namespace Sys2Proof.Machine

/-! ## Transactions (R146)

A transaction is an action on the state that ends with a fault, or must wait, or takes effect as a whole. -/

/-- Why a transaction does not take effect: a fault with its VA and whether a write met it, a wait in the walker's queue, or a
wait outside it: for a place in the queue (R146), for a tier swap to end (R44), or for room among the pending slots (R167). -/
inductive KvStop where
  | fault (f : Flt) (va : Nat) (write : Bool)
  | queued (on : WalkerWait)
  | outside
  deriving DecidableEq, Repr

/-- Where a transaction translates, for which ASID, and who asks for it. -/
structure KvCtx where
  place : Where
  asid : BitVec 12
  who : Requester
  deriving DecidableEq, Repr

/-- Whose store a transaction's is (R59). -/
def KvCtx.issuer (c : KvCtx) : Issuer :=
  match c.who with
  | .path g _ => .group g
  | .cmd i => .cmd i

/-- What a transaction has done: the state, the lines it translated, the writes it made, the first write that some member of a
peer set did not take (R59), and its arena: home die and the physical address of its descriptor. -/
structure KvRun where
  s : State
  seen : List (Nat × Need) := []
  writes : List (Nat × List Byte) := []
  lost : Option (Flt × Nat) := none
  arena : Option (BitVec 2 × Nat) := none

abbrev Kv (α : Type) := ReaderT KvCtx (ExceptT KvStop (StateM KvRun)) α

/-- A transaction takes its place in its die's queue, or keeps the one it has (R146). -/
def State.enterWalker (s : State) (die : BitVec 2) (w : Waiter) : State :=
  let d := s.die die
  let mine (x : Waiter) : Bool := x.who == w.who
  let q := if d.walker.any mine then d.walker.map fun x => if mine x then w else x else d.walker ++ [w]
  s.setDie die { d with walker := q }

/-- A transaction leaves its die's queue. -/
def State.leaveWalker (s : State) (die : BitVec 2) (who : Requester) : State :=
  let d := s.die die
  if d.walker.isEmpty then s else s.setDie die { d with walker := d.walker.filter fun x => x.who != who }

/-- R31, R146: run a transaction. One that does not take effect leaves the translations that it made alone, and its place in the
walker's queue where it waits there; a store that some member of a peer set did not take has been performed where it was taken
(R59). -/
def State.runKv {α : Type} (s : State) (c : KvCtx) (k : Kv α) : State × Except KvStop (α × List (Nat × List Byte)) :=
  match ((k.run c).run).run { s := s } with
  | (.ok a, r) =>
    let s := match r.arena with | some (die, _) => r.s.leaveWalker die c.who | none => r.s
    match r.lost with
    | some (f, va) => (s, .error (.fault f va true))
    | none => (s, .ok (a, r.writes))
  | (.error e, r) =>
    let s := r.seen.foldl (fun s x => (s.translate c.place c.asid x.2 x.1).1) s
    match e, r.arena with
    | .queued on, some (die, pa) => (s.enterWalker die ⟨c.who, pa, on⟩, .error e)
    | .fault _ _ _, some (die, _) => (s.leaveWalker die c.who, .error e)
    | _, _ => (s, .error e)

def kvFault {α : Type} (f : Flt) (va : Nat) (write : Bool := false) : Kv α := throw (.fault f va write)
def kvBrec {α : Type} (va : Nat) : Kv α := kvFault protBrec va

/-- A fault of an access; one that a tier swap holds waits (R44). -/
def kvFlt {α : Type} (f : Flt) (va : Nat) (write : Bool) : Kv α := if f.isHold then throw .outside else kvFault f va write

/-- What a key-value access reaches of the line of an address (R29, R140). -/
def kvXlat (need : Need) (va : Nat) : Kv Xlat := do
  let c ← read
  let line := va / 128 * 128
  let r ← get
  let (s, x) := r.s.translate c.place c.asid need line
  set { r with s := s, seen := r.seen ++ [(line, need)] }
  match x with
  | .error f => kvFlt f va need.write
  | .ok x => pure x

/-- The physical address of a byte that a key-value access reads. -/
def kvPa (need : Need) (va : Nat) : Kv Nat := do
  let x ← kvXlat need va
  modify fun r => { r with s := r.s.requestLine x false true }
  pure (x.pas.headD 0 + va % 128)

/-- Bytes of memory by pieces of lines. -/
def kvReadLines (need : Need) (va : Nat) (lens : List Nat) : Kv (List Byte) :=
  match lens with
  | [] => pure []
  | n :: rest => do
    let pa ← kvPa need va
    let r ← get
    if r.s.rangePoisoned pa n then kvFault eccPoison va
    let more ← kvReadLines need (va + n) rest
    pure (r.s.bytes pa n ++ more)

def readBytesAs (need : Need) (va n : Nat) : Kv (List Byte) :=
  kvReadLines need va ((lineChunks va (List.replicate n 0)).map List.length)

def kvBytes (va n : Nat) : Kv (List Byte) := readBytesAs { kv := true } va n
def kvNum (va n : Nat) : Kv Nat := do return natOf (← kvBytes va n)

/-- Bytes written by pieces of lines, D bits set first (R31), to every member of a peer set that takes them (R59). -/
def kvWriteLines (need : Need) (va : Nat) (parts : List (List Byte)) : Kv Unit :=
  match parts with
  | [] => pure ()
  | bs :: rest => do
    let c ← read
    let x ← kvXlat need va
    let r ← get
    let (s, y) := r.s.setDirty c.place c.asid need (va / 128 * 128)
    match y with
    | .error f => kvFlt f va true
    | .ok y =>
      let x := y.getD x
      let cells := x.pas.flatMap fun pa => cellsAt (pa + va % 128) bs
      let s := (((s.requestLine x true false).devStore cells).noteOwn (cells.map Prod.fst)).awaitAcksOf c.issuer (cells.map Prod.fst)
      set { r with s := s, writes := r.writes ++ [(va, bs)], lost := r.lost.orElse fun _ => x.lost.map fun f => (f, va) }
    kvWriteLines need (va + bs.length) rest

def writeBytesAs (need : Need) (va : Nat) (bs : List Byte) : Kv Unit := kvWriteLines need va (lineChunks va bs)

def kvWrite (va : Nat) (bs : List Byte) : Kv Unit := writeBytesAs { write := true, kv := true } va bs
def kvWriteNum (va n v : Nat) : Kv Unit := kvWrite va (bytesOf n v)

/-! ## The arena descriptor (R141, R142) -/

structure Arena where
  va : Nat
  pa : Nat
  ktab : Nat
  stab : Nat
  sumb : Nat
  kvmax : Nat
  seqmax : Nat
  /-- tokens per page, and elements per row -/
  t : Nat
  d : Nat
  m6 : Nat
  lock : Bool
  cbase : List Nat
  kstk : Nat
  fstk : List Nat
  reserve : Nat
  demthr : List Nat
  deriving DecidableEq, Repr

/-- A reserved field of a descriptor is non-zero (Table 6-1). -/
def arenaReserved (v : Nat) : Bool :=
  bitsOf v 230 26 != 0 || bitsOf v 1120 928 != 0
    || [56, 120, 184, 312, 376, 440, 504, 568, 632, 696, 760, 824].any fun lo => bitsOf v lo 8 != 0

def Arena.of (va pa v : Nat) : Arena :=
  { va := va, pa := pa, ktab := bitsOf v 0 56, stab := bitsOf v 64 56, sumb := bitsOf v 128 56, kvmax := bitsOf v 192 16
    seqmax := bitsOf v 208 16, t := 16 * 2 ^ bitsOf v 224 2, d := 64 * 2 ^ bitsOf v 226 2, m6 := bitsOf v 228 1
    lock := bitOf v 229, cbase := (List.range 4).map fun c => bitsOf v (256 + 64 * c) 56, kstk := bitsOf v 512 56
    fstk := (List.range 4).map fun c => bitsOf v (576 + 64 * c) 56, reserve := bitsOf v 992 32
    demthr := (List.range 3).map fun c => bitsOf v (1024 + 32 * c) 32 }

/-- An address field is misaligned (R142). -/
def Arena.misaligned (a : Arena) : Bool :=
  a.va % 256 != 0 || a.ktab % 32 != 0 || a.stab % 64 != 0 || a.sumb % 128 != 0 || a.kstk % 4 != 0
    || a.cbase.any (fun x => x % 128 != 0) || a.fstk.any fun x => x % 4 != 0

/-- R140, R142: the arena that a VA names; bits [63:56] of the operand are ignored (R386). -/
def openArena (w : Nat) : Kv Arena := do
  let va := w % 2 ^ 56
  let pa ← kvPa { kv := true } va
  if 2 ≤ dieOf pa then kvBrec va
  let v ← kvNum va 256
  let a := Arena.of va pa v
  if arenaReserved v || bitsOf v 226 2 == 3 || a.kvmax == 0xFFFF || a.misaligned then kvBrec va
  pure a

/-- The home die of an arena (R140). -/
def Arena.home (a : Arena) : BitVec 2 := BitVec.ofNat 2 (dieOf a.pa)

/-- The transactions of an arena that stand in the walker's queue before one that is asked for. -/
def kvAhead (a : Arena) : Kv (List WalkerWait) := do
  let c ← read
  let r ← get
  let before := (r.s.die a.home).walker.takeWhile fun x => x.who != c.who
  pure ((before.filter fun x => x.arena == a.pa).map Waiter.on)

/-- R145, R146: a transaction waits while LOCK is set, behind those of its arena that do, and where the queue is full. -/
def beginOn (w : Nat) : Kv Arena := do
  let a ← openArena w
  modify fun r => { r with arena := some (a.home, a.pa) }
  let c ← read
  let q := ((← get).s.die a.home).walker
  if decide (128 ≤ q.length) && !(q.any fun x => x.who == c.who) then throw .outside
  if a.lock || (← kvAhead a).contains .lock then throw (.queued .lock)
  pure a

/-! ## Slot classes (R143, R144) -/

/-- The class of a KVPTE format. -/
def classOf (fmt : Nat) : Nat := if fmt < 2 then fmt else if fmt < 4 then 2 else 3

/-- The tile format whose elements a KVPTE format holds. -/
def elemFmt (fmt : Nat) : Nat :=
  match fmt with
  | 0 => 0
  | 1 => 3
  | 2 => 5
  | 3 => 6
  | _ => 7

/-- RB of R143: the bytes of one row. -/
def Arena.rowBytes (a : Arena) (fmt : Nat) : Nat := a.d * tileWidth (elemFmt fmt) / 8

/-- A format of a class, for sizes. -/
def fmtOfClass (cls : Nat) : Nat := if cls < 3 then cls else 4

def Arena.slotSize (a : Arena) (cls : Nat) : Nat :=
  2 * a.t * a.rowBytes (fmtOfClass cls) + if 2 ≤ cls then 2 * a.t * a.d / 32 else 0
def Arena.stride (a : Arena) (cls : Nat) : Nat := (a.slotSize cls + 127) / 128 * 128
def Arena.slotVa (a : Arena) (cls n : Nat) : Nat := a.cbase.getD cls 0 + n * a.stride cls
/-- The number of the slot at a VA. -/
def Arena.slotNum (a : Arena) (cls va : Nat) : Nat := (va - a.cbase.getD cls 0) / a.stride cls

/-- The VA of row `t` of the K data (part 0) or the V data (part 1), and of its scales (R144). -/
def Arena.rowVa (a : Arena) (slot fmt part t : Nat) : Nat := slot + (part * a.t + t) * a.rowBytes fmt
def Arena.scaleVa (a : Arena) (slot fmt part t : Nat) : Nat :=
  slot + 2 * a.t * a.rowBytes fmt + (part * a.t + t) * (a.d / 32)

/-! ## KVPTEs (R147 to R151) -/

structure Kvpte where
  k : Nat
  slot : Nat
  fmt : Nat
  scl : Bool
  ref : Nat
  ntok : Nat
  pins : Nat
  mass : Nat
  gen : Nat
  sumidx : Nat
  /-- bits [63:60] and [255:160], which are reserved -/
  resv : Nat × Nat
  deriving DecidableEq, Repr

def Kvpte.of (k v : Nat) : Kvpte :=
  { k := k, slot := bitsOf v 0 56, fmt := bitsOf v 56 3, scl := bitOf v 59, ref := bitsOf v 64 16, ntok := bitsOf v 80 8
    pins := bitsOf v 88 8, mass := bitsOf v 96 32, gen := bitsOf v 128 16, sumidx := bitsOf v 144 16
    resv := (bitsOf v 60 4, bitsOf v 160 96) }

def Kvpte.bits (e : Kvpte) : Nat :=
  place e.slot 0 56 + place e.fmt 56 3 + e.scl.toNat * 2 ^ 59 + place e.resv.1 60 4 + place e.ref 64 16 + place e.ntok 80 8
    + place e.pins 88 8 + place e.mass 96 32 + place e.gen 128 16 + place e.sumidx 144 16 + place e.resv.2 160 96

/-- Neither referenced nor pinned (Table 6-4). -/
def Kvpte.free (e : Kvpte) : Bool := e.ref == 0 && e.pins == 0

def Arena.pteVa (a : Arena) (k : Nat) : Nat := a.ktab + 32 * k

/-- R148: what a transaction refuses in a live or retiring KVPTE. -/
def Kvpte.bad (a : Arena) (e : Kvpte) : Bool :=
  let base := a.cbase.getD (classOf e.fmt) 0
  e.resv != (0, 0) || decide (5 ≤ e.fmt) || (e.scl && decide (e.fmt < 2)) || decide (a.t < e.ntok) || decide (e.slot < base)
    || (e.slot - base) % a.stride (classOf e.fmt) != 0

def readPte (a : Arena) (k : Nat) : Kv Kvpte := do
  let e := Kvpte.of k (← kvNum (a.pteVa k) 32)
  if !e.free && e.bad a then kvBrec (a.pteVa k)
  pure e

def writePte (a : Arena) (e : Kvpte) : Kv Unit := kvWriteNum (a.pteVa e.k) 32 e.bits

/-- A KVPTE that an instruction names and that must not be free (R386, R404, R407, R408). -/
def namedPte (a : Arena) (k : Nat) : Kv Kvpte := do
  if a.kvmax < k then kvBrec a.va
  let e ← readPte a k
  if e.free then kvBrec (a.pteVa k)
  pure e

/-! ## Stacks (R145) -/

/-- The stack of KVPTE indices beside stacks 0 to 3 of slot numbers. -/
def kStack : Nat := 4

def Arena.countVa (a : Arena) (stack : Nat) : Nat := a.va + if stack = kStack then 104 else 108 + 4 * stack
def Arena.stackVa (a : Arena) (stack : Nat) : Nat := if stack = kStack then a.kstk else a.fstk.getD stack 0

def stackCount (a : Arena) (stack : Nat) : Kv Nat := kvNum (a.countVa stack) 4

/-- Pop; none from an empty stack. -/
def popStack (a : Arena) (stack : Nat) : Kv (Option Nat) := do
  let n ← stackCount a stack
  if n = 0 then pure none
  else
    let v ← kvNum (a.stackVa stack + 4 * (n - 1)) 4
    kvWriteNum (a.countVa stack) 4 (n - 1)
    pure (some v)

def pushStack (a : Arena) (stack v : Nat) : Kv Unit := do
  let n ← stackCount a stack
  kvWriteNum (a.stackVa stack + 4 * n) 4 v
  kvWriteNum (a.countVa stack) 4 (n + 1)

/-! ## TIER writes (R168) -/

/-- TIER of a leaf in memory is written, if it is at level 0; none where the entry there is no longer the one that was walked
(R31's guard). -/
def State.orTier (s : State) (l : Leaf) (tier : Nat) : Option State :=
  let cur := BitVec.ofNat 64 (s.num l.pa 8)
  if !(pteV cur && pteL cur == pteL l.entry && pteFrame cur == pteFrame l.entry) then none
  else if l.level ≠ 0 then some s
  else some (s.plainStore (cellsAt l.pa (bytesOf 8 (cur.toNat - bitsOf cur.toNat 12 2 * 2 ^ 12 + place tier 12 2))))

/-- The leaf that maps an address, from the cache or from a walk, which may fault or meet the hold of a tier swap (R44). -/
def State.leafOf (s : State) (c : KvCtx) (va : Nat) : State × Except Flt Leaf :=
  if !s.regs.asidbase.getLsbD 0 then (s, .error (tfault 7 3))
  else if vaSize ≤ va then (s, .error (tfault 4 15))
  else match s.cachedLeaf c.place c.asid va with
    | some l => (s, .ok l)
    | none => s.walk c.place c.asid va true

/-- TIER of the level-0 leaf of a page, by an update guarded as R31's are: where the entry has changed, the cached translation is
discarded and the address walked again, which may fault (R31). -/
def State.setTier (s : State) (c : KvCtx) (va tier : Nat) : State × Option Flt :=
  match s.leafOf c va with
  | (s, .error f) => (s, some f)
  | (s, .ok l) =>
    let s := s.plainLines [l.pa]
    match s.orTier l tier with
    | some s => (s, none)
    | none =>
      match (s.dropLeaf c.place c.asid va).leafOf c va with
      | (s, .error f) => (s, some f)
      | (s, .ok l) => ((s.orTier l tier).getD s, none)

/-- R168: every 32 KiB page wholly inside a slot. -/
def slotPages (slot size : Nat) : List Nat :=
  let first := (slot + 2 ^ 15 - 1) / 2 ^ 15
  (List.range ((slot + size) / 2 ^ 15 - first)).map fun i => (first + i) * 2 ^ 15

/-- The pages of a list get their TIER; a walk that faults faults as the walker's accesses do (R146). -/
def setTiers (tier : Nat) (vas : List Nat) : Kv Unit :=
  match vas with
  | [] => pure ()
  | va :: rest => do
    let c ← read
    let r ← get
    let (s, f) := r.s.setTier c va tier
    set { r with s := s, seen := r.seen ++ [(va, ({ } : Need))] }
    match f with
    | some f => kvFlt f va false
    | none => setTiers tier rest

def tierWrites (a : Arena) (cls slot tier : Nat) : Kv Unit := setTiers tier (slotPages slot (a.slotSize cls))

/-! ## Pins, references and the way to a free page (R149, R150, R158, R167) -/

def State.oldSlotsOf (s : State) (a : Arena) (k : Nat) : List OldSlot :=
  (s.die a.home).oldSlots.filter fun o => o.arena == a.pa && o.k == k

/-- Old slots go to their class stacks, with TIER 11. -/
def pushOlds (a : Arena) (os : List OldSlot) : Kv Unit :=
  match os with
  | [] => pure ()
  | o :: rest => do
    pushStack a o.cls o.num
    tierWrites a o.cls (a.slotVa o.cls o.num) 3
    pushOlds a rest

/-- R167 step 5: the pending old slots of a page whose pins are gone. -/
def pushPending (a : Arena) (k : Nat) : Kv Unit := do
  let r ← get
  let os := r.s.oldSlotsOf a k
  let d := r.s.die a.home
  set { r with s := r.s.setDie a.home { d with oldSlots := d.oldSlots.filter fun o => !(o.arena == a.pa && o.k == k) } }
  pushOlds a os

/-- Table 6-4: a page without references: free when it has no pin, its slots and its index pushed. -/
def settlePage (a : Arena) (e : Kvpte) : Kv Unit := do
  writePte a e
  if e.pins = 0 then
    pushPending a e.k
    if e.ref = 0 then
      pushStack a (classOf e.fmt) (a.slotNum (classOf e.fmt) e.slot)
      pushStack a kStack e.k

/-- R150, R146: a pin is taken; at 255 it waits, and behind the transactions that wait for a pin of the page. Every other
transaction of the arena passes one that so waits, which the spec does not settle (DESIGN CHOICE, log entry 79). -/
def pinPage (a : Arena) (e : Kvpte) : Kv Unit := do
  if e.pins = 255 || (← kvAhead a).contains (.pin e.k) then throw (.queued (.pin e.k))
  writePte a { e with pins := e.pins + 1 }

/-- A pin is dropped. -/
def unpinPage (a : Arena) (e : Kvpte) : Kv Unit := settlePage a { e with pins := e.pins - 1 }

/-- R158: a page release; a page that is not live raises PROT/BREC (R392). -/
def releasePage (a : Arena) (k : Nat) : Kv Unit := do
  let e ← readPte a k
  if e.ref = 0 then kvBrec (a.pteVa k)
  let e := { e with ref := e.ref - 1 }
  if e.ref = 0 && e.pins = 0 then settlePage a e else writePte a e

def releasePages (a : Arena) (ks : List Nat) : Kv Unit :=
  match ks with
  | [] => pure ()
  | k :: rest => do
    releasePage a k
    releasePages a rest

/-! ## Sequence records (R152, R153) -/

structure Seq where
  num : Nat
  parent : Nat
  child : Nat
  depth : Nat
  /-- 0 free, 1 live, 2 ended -/
  state : Nat
  len : Nat
  forklen : Nat
  map : Nat
  mapcap : Nat
  lowpg : Nat
  win : Nat
  deriving DecidableEq, Repr

def Seq.of (num v : Nat) : Seq :=
  { num := num, parent := bitsOf v 0 16, child := bitsOf v 16 16, depth := bitsOf v 32 2, state := bitsOf v 34 2
    len := bitsOf v 64 32, forklen := bitsOf v 96 32, map := bitsOf v 128 56, mapcap := bitsOf v 192 32
    lowpg := bitsOf v 224 32, win := bitsOf v 256 32 }

def Seq.bits (r : Seq) : Nat :=
  place r.parent 0 16 + place r.child 16 16 + place r.depth 32 2 + place r.state 34 2 + place r.len 64 32
    + place r.forklen 96 32 + place r.map 128 56 + place r.mapcap 192 32 + place r.lowpg 224 32 + place r.win 256 32

def Arena.seqVa (a : Arena) (n : Nat) : Nat := a.stab + 64 * n

def readSeq (a : Arena) (n : Nat) : Kv Seq := do
  let v ← kvNum (a.seqVa n) 64
  if bitsOf v 36 28 ≠ 0 ∨ bitsOf v 184 8 ≠ 0 ∨ bitsOf v 288 224 ≠ 0 ∨ bitsOf v 34 2 = 3 then kvBrec (a.seqVa n)
  pure (Seq.of n v)

def writeSeq (a : Arena) (r : Seq) : Kv Unit := kvWriteNum (a.seqVa r.num) 64 r.bits

/-- The record of a live sequence; none where the index is above SEQMAX or the sequence is not live. -/
def liveSeq (a : Arena) (n : Nat) : Kv (Option Seq) := do
  if a.seqmax < n then pure none
  else
    let r ← readSeq a n
    pure (if r.state = 1 then some r else none)

/-- R153: the parent of a record with DEPTH above 0. -/
def readParent (a : Arena) (r : Seq) : Kv Seq := do
  if a.seqmax < r.parent then kvBrec (a.seqVa r.num)
  let p ← readSeq a r.parent
  if p.state = 0 ∨ p.depth + 1 ≠ r.depth then kvBrec (a.seqVa r.parent)
  pure p

/-! ## Status codes (R159 Table 6-6) -/

def stNoslot : Nat := 1
def stNoreserve : Nat := 2
def stForkdepth : Nat := 3
def stMapfull : Nat := 4
def stBadseq : Nat := 5
def stNopage : Nat := 6
def stReleased : Nat := 7
def stPartial : Nat := 8
def stNodem : Nat := 9
def stRace : Nat := 10
def stRefmax : Nat := 11

/-! ## Lookup (R154) -/

/-- The index that a chain of at most `hops` records gives for a page. -/
def lookupChain (a : Arena) (p : Nat) (hops : Nat) (r : Seq) : Kv (Except Nat Nat) :=
  match hops with
  | 0 => pure (.error stNopage)
  | hops + 1 => do
    let k ← if p < r.mapcap then kvNum (r.map + 2 * p) 2 else pure 0xFFFF
    if k ≠ 0xFFFF then
      if a.kvmax < k then kvBrec (r.map + 2 * p)
      let e ← readPte a k
      if e.free then kvBrec (a.pteVa k)
      pure (.ok k)
    else if r.depth = 0 ∨ r.forklen / a.t ≤ p then pure (.error stNopage)
    else
      let q ← readParent a r
      lookupChain a p hops q

def lookup (a : Arena) (n p : Nat) : Kv (Except Nat Nat) := do
  match ← liveSeq a n with
  | none => pure (.error stBadseq)
  | some r =>
    if r.len ≤ p * a.t then pure (.error stNopage)
    else if p < r.lowpg then pure (.error stReleased)
    else lookupChain a p 4 r

/-- The pages of a live sequence in a list; a lookup that ends with a status means that the records disagree (R155,
R158). -/
def lookupAll (a : Arena) (n : Nat) (ps : List Nat) : Kv (List Nat) :=
  match ps with
  | [] => pure []
  | p :: rest => do
    match ← lookup a n p with
    | .error _ => kvBrec (a.seqVa n)
    | .ok k =>
      let ks ← lookupAll a n rest
      pure (k :: ks)

/-- Pages lo to hi − 1. -/
def pagesOf (lo hi : Nat) : List Nat := (List.range (hi - lo)).map (lo + ·)

/-- Pages that LEN tokens take. -/
def Arena.pageCount (a : Arena) (len : Nat) : Nat := (len + a.t - 1) / a.t

/-! ## Fork (R155) -/

/-- No reference would rise above 0xFFFF. -/
def refsFit (a : Arena) (all : List Nat) (ks : List Nat) : Kv Bool :=
  match ks with
  | [] => pure true
  | k :: rest => do
    let e ← readPte a k
    if 0xFFFF < e.ref + all.count k then pure false else refsFit a all rest

def addRefs (a : Arena) (ks : List Nat) : Kv Unit :=
  match ks with
  | [] => pure ()
  | k :: rest => do
    let e ← readPte a k
    writePte a { e with ref := e.ref + 1 }
    addRefs a rest

/-- The map entries of a list of pages become `v`. -/
def writeMap (r : Seq) (ps : List Nat) (v : Nat) : Kv Unit :=
  match ps with
  | [] => pure ()
  | p :: rest => do
    kvWriteNum (r.map + 2 * p) 2 v
    writeMap r rest v

/-- R155 for a child `c` of a live sequence. -/
def forkFrom (a : Arena) (c r : Seq) : Kv Nat := do
  let n := a.pageCount r.len
  if c.mapcap < n then pure stMapfull
  else
    let ks ← lookupAll a r.num (pagesOf r.lowpg n)
    if !(← refsFit a ks ks) then pure stRefmax
    else
      addRefs a ks
      writeSeq a { r with child := r.child + 1 }
      writeSeq a { c with state := 1, depth := r.depth + 1, parent := r.num, len := r.len, forklen := r.len, lowpg := r.lowpg, child := 0 }
      writeMap c (List.range n) 0xFFFF
      match r.len % a.t, ks.getLast? with
      | _ + 1, some k => writeMap c [n - 1] k
      | _, _ => pure ()
      pure 0

/-- R155: the checks in their order; `s = 0xFFFF` makes a fresh sequence. `trap` is the .trap form (R391). -/
def fork (a : Arena) (c s : Nat) (trap : Bool) : Kv Nat := do
  if a.seqmax < c then pure stBadseq
  else
    let rc ← readSeq a c
    let parent ← if s = 0xFFFF then pure none else liveSeq a s
    if rc.state ≠ 0 ∨ (s ≠ 0xFFFF ∧ parent.isNone) then pure stBadseq
    else if (parent.map (·.depth)) = some 3 then
      if trap then kvFault { cause := cFORKDEPTH, sub := 0 } (a.seqVa s) else pure stForkdepth
    else if (← stackCount a 0) < a.reserve then pure stNoreserve
    else match parent with
      | none =>
        writeSeq a { rc with state := 1, depth := 0, len := 0, forklen := 0, lowpg := 0, child := 0 }
        pure 0
      | some r => forkFrom a rc r

/-! ## Summaries (R160) -/

def Arena.sumVa (a : Arena) (i : Nat) : Nat := a.sumb + 4 * a.d * i

/-- 16-bit little-endian values of a list of bytes. -/
def halves (bs : List Byte) : List Nat := (chunks 2 bs.length bs).map natOf

/-- The maximum or the minimum of two BF16 values: −0 below +0, and 0x7FC0 where either is NaN. -/
def extremeBits (wantMax : Bool) (x y : Nat) : Nat :=
  let r := minVal (bf16.value x) (bf16.value y) wantMax
  if r.isNan then 0x7FC0 else if r = bf16.value x then x else y

/-- A summary (kmax, kmin) with one more key; none before the first. -/
def sumKey (old : Option (List Nat × List Nat)) (key : List Nat) : List Nat × List Nat :=
  match old with
  | none => (key, key)
  | some (hi, lo) => (hi.zipWith (extremeBits true) key, lo.zipWith (extremeBits false) key)

def readSum (a : Arena) (i : Nat) : Kv (List Nat × List Nat) := do
  let hs := halves (← kvBytes (a.sumVa i) (4 * a.d))
  pure (hs.take a.d, hs.drop a.d)

def writeSum (a : Arena) (i : Nat) (v : List Nat × List Nat) : Kv Unit :=
  kvWrite (a.sumVa i) ((v.1 ++ v.2).flatMap (bytesOf 2))

/-! ## Append (R156) -/

/-- The row of a BF16 slot, written as bit patterns. -/
def writeRow16 (a : Arena) (slot part t : Nat) (row : List Nat) : Kv Unit :=
  kvWrite (a.rowVa slot 0 part t) (row.flatMap (bytesOf 2))

/-- R156, write: the rows, the summary, NTOK and LEN. -/
def appendRow (a : Arena) (r : Seq) (e : Kvpte) (key val : List Nat) : Kv Unit := do
  writeRow16 a e.slot 0 e.ntok key
  writeRow16 a e.slot 1 e.ntok val
  let old ← if e.ntok = 0 then pure none else some <$> readSum a e.sumidx
  writeSum a e.sumidx (sumKey old key)
  writePte a { e with ntok := e.ntok + 1 }
  writeSeq a { r with len := r.len + 1 }

/-- R156: one token, its key and value as BF16 bit patterns, appended to sequence `n`. -/
def append (a : Arena) (n : Nat) (key val : List Nat) : Kv Nat := do
  match ← liveSeq a n with
  | none => pure stBadseq
  | some r =>
    let p := r.len / a.t
    if r.len % a.t = 0 then
      if r.mapcap ≤ p then pure stMapfull
      else if (← stackCount a kStack) = 0 ∨ (← stackCount a 0) = 0 then pure stNoslot
      else
        match ← popStack a kStack with
        | none => pure stNoslot
        | some k =>
          if a.kvmax < k then pure stNoslot
          else
            let slot := a.slotVa 0 ((← popStack a 0).getD 0)
            tierWrites a 0 slot 0
            let old ← readPte a k
            let e := { old with slot := slot, fmt := 0, scl := false, ref := 1, ntok := 0, mass := 0, gen := (old.gen + 1) % 65536, sumidx := k }
            kvWriteNum (r.map + 2 * p) 2 k
            appendRow a r e key val
            pure 0
    else
      match ← lookup a n p with
      | .error st => pure st
      | .ok k =>
        let e ← readPte a k
        if 1 < e.ref then kvFault { cause := cCOW, sub := 0 } (a.pteVa k)
        if e.fmt ≠ 0 ∨ e.ntok ≠ r.len % a.t then kvBrec (a.pteVa k)
        appendRow a r e key val
        pure 0

/-- LEN of a sequence's record. -/
def seqLen (a : Arena) (n : Nat) : Kv Nat := if a.seqmax < n then pure 0 else kvNum (a.seqVa n + 8) 4

/-! ## Release (R158) -/

/-- CHILD of a parent falls by 1; where it is 0 already, the spec states no result (DESIGN CHOICE, log entry 38). -/
def childLess (r : Seq) : Nat :=
  if r.child = 0 then bitsOf (Config.unstated 1 [r.num, r.bits]).toNat 0 16 else r.child - 1

/-- A record becomes free, its parent's CHILD falls, and an ended parent without children follows (R158). -/
def freeSeq (a : Arena) (fuel : Nat) (r : Seq) : Kv Unit :=
  match fuel with
  | 0 => pure ()
  | fuel + 1 => do
    let parent ← if r.depth = 0 then pure none else some <$> readParent a r
    writeSeq a { r with state := 0 }
    match parent with
    | none => pure ()
    | some q =>
      let q := { q with child := childLess q }
      if q.state = 2 ∧ q.child = 0 then freeSeq a fuel q else writeSeq a q

/-- R158: a prefix release of live sequence `n` to page `q`: the status and the references released. -/
def releasePrefix (a : Arena) (n q : Nat) : Kv (Nat × Nat) := do
  match ← liveSeq a n with
  | none => pure (stBadseq, 0)
  | some r =>
    let q' := min q (r.len / a.t)
    let ks ← lookupAll a n (pagesOf r.lowpg q')
    releasePages a ks
    writeSeq a { r with lowpg := max r.lowpg q' }
    pure (0, ks.length)

/-- R158: the end of live sequence `n`. -/
def releaseEnd (a : Arena) (n : Nat) : Kv (Nat × Nat) := do
  match ← liveSeq a n with
  | none => pure (stBadseq, 0)
  | some r =>
    let ks ← lookupAll a n (pagesOf r.lowpg (a.pageCount r.len))
    releasePages a ks
    if r.child = 0 then freeSeq a 4 r else writeSeq a { r with state := 2 }
    pure (0, ks.length)

/-! ## Snapshots and mass (R167, R162) -/

/-- A snapshot: the page pinned and its KVPTE with the pin; none for a free KVPTE or an index above KVMAX. -/
def snapshot (a : Arena) (k : Nat) : Kv (Option Kvpte) := do
  if a.kvmax < k then pure none
  else
    let e ← readPte a k
    if e.free then pure none
    else
      pinPage a e
      pure (some { e with pins := e.pins + 1 })

/-- A pin that a command holds is dropped. -/
def dropPin (a : Arena) (k : Nat) : Kv Unit := do
  let e ← readPte a k
  if e.pins = 0 then kvBrec (a.pteVa k)
  unpinPage a e

/-- R162: MASS rises by `inc`, saturating, and the pin is dropped, in one transaction. -/
def massAndUnpin (a : Arena) (k inc : Nat) : Kv Unit := do
  let e ← readPte a k
  if e.pins = 0 then kvBrec (a.pteVa k)
  unpinPage a { e with mass := min (e.mass + inc) 0xFFFFFFFF }

/-! ## Rows of a slot (R144, R186) -/

/-- The exact values of an MX row's blocks, whose scales are given; the elements of an SX8 block of zeros are not read (R185
Table 7-7). -/
def slotBlocks (va fmt : Nat) (scl : Bool) (scales : List Byte) : Kv (List Val) :=
  match scales with
  | [] => pure []
  | x :: rest => do
    let w := tileWidth (elemFmt fmt)
    let n ← if !scl && x == 0x80 then pure 0 else kvNum va (4 * w)
    let vs ← slotBlocks (va + 4 * w) fmt scl rest
    pure ((List.range 32).map (fun c => codeValue (elemFmt fmt) scl x.toNat (bitsOf n (c * w) w)) ++ vs)

/-- The exact values of row `t` of the K or V part of a slot, as a snapshot names it. -/
def slotRow (a : Arena) (slot fmt : Nat) (scl : Bool) (part t : Nat) : Kv (List Val) := do
  if 2 ≤ fmt then
    slotBlocks (a.rowVa slot fmt part t) fmt scl (← kvBytes (a.scaleVa slot fmt part t) (a.d / 32))
  else
    let w := tileWidth (elemFmt fmt)
    let n ← kvNum (a.rowVa slot fmt part t) (a.rowBytes fmt)
    pure ((List.range a.d).map fun c => codeValue (elemFmt fmt) scl 0 (bitsOf n (c * w) w))

/-- Rows 0 to n − 1 of a part. -/
def slotRows (a : Arena) (slot fmt : Nat) (scl : Bool) (part : Nat) (ts : List Nat) : Kv (List (List Val)) :=
  match ts with
  | [] => pure []
  | t :: rest => do
    let r ← slotRow a slot fmt scl part t
    let rs ← slotRows a slot fmt scl part rest
    pure (r :: rs)

/-! ## Demotion (R163 to R167) -/

/-- The format that a step from `fmt` writes (R166). -/
def demoted (a : Arena) (fmt : Nat) : Nat :=
  match fmt with
  | 0 => 1
  | 1 => if a.m6 = 1 then 3 else 2
  | _ => 4

/-- R163: the decision on one KVPTE: halved if full and live; whether it is to be demoted. -/
def sweepDecision (a : Arena) (k : Nat) : Kv Bool := do
  let e ← readPte a k
  if e.ref = 0 ∨ e.ntok < a.t then pure false
  else
    writePte a { e with mass := e.mass / 2 }
    pure (decide (e.fmt ≠ 4) && decide (e.mass < a.demthr.getD (classOf e.fmt) 0))

/-- R164, R167 step 1: the page pinned, or the status that ends the step. -/
def beginDemotion (a : Arena) (k : Nat) : Kv (Except Nat Kvpte) := do
  if a.kvmax < k then pure (.error stNodem)
  else
    let e ← readPte a k
    if e.ref = 0 ∨ e.fmt = 4 then pure (.error stNodem)
    else if e.ntok < a.t then pure (.error stPartial)
    else
      pinPage a e
      pure (.ok { e with pins := e.pins + 1 })

/-- R167 step 2: a slot popped for a page that its step found in format `fmt`; from an empty stack the page is unpinned. -/
def popDemoted (a : Arena) (k fmt : Nat) : Kv (Option Nat) := do
  match ← popStack a (classOf (demoted a fmt)) with
  | some n => pure (some n)
  | none =>
    unpinPage a (← readPte a k)
    pure none

/-- The elements of a row's blocks, `w` bits each; a block of zeros writes none (R166). -/
def writeBlocks (va w : Nat) (bs : List (Option (List Nat))) : Kv Unit :=
  match bs with
  | [] => pure ()
  | b :: rest => do
    match b with
    | some cs => kvWrite va (bytesOf (4 * w) (packFields w 0 cs))
    | none => pure ()
    writeBlocks (va + 4 * w) w rest

/-- R165, R166: a row of values written to a slot in a demotion format; the flags its conversion sets. -/
def writeDemoted (a : Arena) (slot fmt part t : Nat) (vs : List Val) : Kv FpFlags := do
  let w := tileWidth (elemFmt fmt)
  if fmt = 1 then
    let rs := vs.map fun v => e4m3.round rne true v
    kvWrite (a.rowVa slot fmt part t) (rs.map fun r => BitVec.ofNat 8 r.val)
    pure (rs.foldl (fun f r => f.or r.fl) {})
  else
    let bs := (chunks 32 vs.length vs).map fun b => encodeBlock (elemFmt fmt) false b
    writeBlocks (a.rowVa slot fmt part t) w (bs.map fun b => b.val.codes)
    kvWrite (a.scaleVa slot fmt part t) (bs.map fun b => BitVec.ofNat 8 b.val.scale)
    pure { bs.foldl (fun (f : FpFlags) b => f.or b.fl) {} with nan := false }

/-- The rows of a list of (part, token) converted from one slot to another. -/
def convertRows (a : Arena) (src fmt : Nat) (scl : Bool) (dst fmt' : Nat) (rows : List (Nat × Nat)) : Kv FpFlags :=
  match rows with
  | [] => pure {}
  | (part, t) :: rest => do
    let vs ← slotRow a src fmt scl part t
    let f ← writeDemoted a dst fmt' part t vs
    let f' ← convertRows a src fmt scl dst fmt' rest
    pure (f.or f')

/-- Every row of a page: K and V of each token, tokens ascending. -/
def Arena.allRows (a : Arena) : List (Nat × Nat) := (List.range a.t).flatMap fun t => [(0, t), (1, t)]

/-- R167 steps 4 and 5: the swap of a page that its step found with GEN `gen`, to slot `n` of format `fmt'`. A step that finds
none of the engine's 64 pending slots free waits before step 4, whatever that would find. -/
def demotionSwap (a : Arena) (k gen fmt' n : Nat) : Kv Nat := do
  let r ← get
  let d := r.s.die a.home
  if 64 ≤ d.oldSlots.length then throw .outside
  let e ← readPte a k
  if e.ref = 0 ∨ e.gen ≠ gen then
    pushStack a (classOf fmt') n
    unpinPage a e
    pure stRace
  else
    let r ← get
    let d := r.s.die a.home
    let old : OldSlot := ⟨a.pa, k, classOf e.fmt, a.slotNum (classOf e.fmt) e.slot⟩
    set { r with s := r.s.setDie a.home { d with oldSlots := d.oldSlots ++ [old] } }
    unpinPage a { e with slot := a.slotVa (classOf fmt') n, fmt := fmt', scl := false, gen := (gen + 1) % 65536 }
    pure 0

end Sys2Proof.Machine
end

