-- ==== Sys2Proof/Machine/Tile.lean ====
section
/-! DEFINITION. Tile definition and state, rows in lanes and the Haar domain (spec/14 R363 to R374). -/

namespace Sys2Proof.Machine

/-! ## Operands (R363) -/

/-- The scalar register an 11-bit field names. -/
def sregOf (f : BitVec 11) : BitVec 7 := f.extractLsb' 0 7

/-- The active lanes of an instruction that acts once, and the flag it marks. -/
def laneStart (l : Lane) : Act (Word32 × Option Nat) := do
  let active ← activeOf l
  let mark ← checkMark (l.fs = 1)
  pure (active, mark)

/-- The lanes of a frame for a fault of an operand number (R295). -/
def State.faultLanes (s : State) (active : Word32) : Word32 := if active = 0 then s.path.mask else active

/-- R71: a tile number that is not granted raises PROT/WINDOW. -/
def checkTile (active : Word32) (n : BitVec 11) : Act Unit := do
  let s ← get
  if s.w.ntiles ≤ n.toNat then trapAt protWindow 0 (s.faultLanes active) n.toNat else pure ()

/-- PROT/BREC of an instruction's description. -/
def badRecord {α : Type} (active : Word32) : Act α := trapAt protBrec 0 active 0

/-- A position word: ROW0 and COL0 (R363). -/
structure Pos where
  row : Nat
  col : Nat
  deriving DecidableEq, Repr

def posOf (w : Word64) : Pos := { row := bitsOf w.toNat 0 7, col := bitsOf w.toNat 16 9 }

/-- The columns that n registers from a column on hold inside a width (R366). -/
def colsIn (col n width : Nat) : List Nat := (List.range n).filter fun j => decide (col + j < width)

/-! ## TDEF, TFREE, TSTATE (R364, R365) -/

/-- PROT/WINDOW for a footprint beyond the grant has no access and so no address: the frame's VA is 0 (DESIGN CHOICE, log entry
75). -/
def tdef (l : Lane) : Act Unit := do
  let (active, _) ← laneStart l
  checkTile active l.vd
  if active = 0 then retire 3
  else
    let s ← get
    let old := s.tile l.vd.toNat
    if old.state = 1 ∨ old.state = 3 then stall
    let lo ← readS (sregOf l.va)
    let hi ← readS (sregOf l.vb)
    let t := Tile.ofBits (BitVec.ofNat 256 (lo.toNat + hi.toNat * 2 ^ 64))
    if bitsOf lo.toNat 14 50 ≠ 0 ∨ bitsOf hi.toNat 0 8 ≠ 0 ∨ bitsOf hi.toNat 46 18 ≠ 0 ∨ t.bad then badRecord active
    if s.w.scrSize < t.addr + t.footprint then trapAt protWindow 0 active 0
    modify fun s => { s with w := { s.w with tiles := s.w.tiles.set l.vd.toNat (installTile lo.toNat hi.toNat old.gen) } }
    retire 3

/-- TDEF (R364). -/
def execTdef (l : Lane) (s : State) : Host.Outcome State Fault Refusal := Act.outcome (tdef l) s

def tfree (l : Lane) : Act Unit := do
  let (active, _) ← laneStart l
  checkTile active l.vd
  if active = 0 then retire 3
  else
    let t ← useTile active l.vd
    modify fun s => s.setTile l.vd.toNat { t with state := 0, surv := 0 }
    retire 3

/-- TFREE (R365). -/
def execTfree (l : Lane) (s : State) : Host.Outcome State Fault Refusal := Act.outcome (tfree l) s

def tstate (l : Lane) : Act Unit := do
  let (active, _) ← laneStart l
  checkTile active l.va
  if active = 0 then retire 3
  else
    let _ ← useTile active l.va
    let s ← get
    writeRetire (sregOf l.vd) (BitVec.ofNat 64 (bitsOf (s.w.tiles.get l.va.toNat).toNat (64 * (l.imm.toNat % 4)) 64)) 3

/-- TSTATE (R365). -/
def execTstate (l : Lane) (s : State) : Host.Outcome State Fault Refusal := Act.outcome (tstate l) s

/-! ## The Haar transform of a column (R370) -/

/-- A step of R351 as an exact value with its flags. -/
def stepValue (v : Fp Val) : Fp Val :=
  let r := fp32.arith rne false v
  { val := fp32.value r.val, fl := r.fl }

def flagsOf {α : Type} (xs : List (Fp α)) : FpFlags := xs.foldl (fun a x => a.or x.fl) {}

/-- Neighbouring values in pairs. -/
def pairUp {α : Type} : List α → List (α × α)
  | a :: b :: rest => (a, b) :: pairUp rest
  | _ => []

/-- The detail and the approximation of a pair. -/
def forwardPair (x : Val × Val) : Fp Val × Fp Val :=
  let d := stepValue (sumVals false [x.2, x.1.negate])
  (d, stepValue (sumVals false [x.1, halve d.val]))

/-- The two values that an approximation and a detail give back. -/
def inversePair (x : Val × Val) : Fp Val × Fp Val :=
  let x0 := stepValue (sumVals false [x.1, (halve x.2).negate])
  (x0, stepValue (sumVals false [x0.val, x.2]))

/-- R370: the forward transform to a number of levels, in coefficient-tree order. -/
def haarForward (levels : Nat) (y : List Val) : List Val × FpFlags :=
  match levels with
  | 0 => (y, {})
  | k + 1 =>
    let rs := (pairUp y).map forwardPair
    let (low, fl) := haarForward k (rs.map fun r => r.2.val)
    (low ++ rs.map (fun r => r.1.val), fl.or ((flagsOf (rs.map Prod.fst)).or (flagsOf (rs.map Prod.snd))))

/-- The inverse levels from the approximations `y` and the details that are left. -/
def inverseLevels (levels : Nat) (y rest : List Val) : List Val × FpFlags :=
  match levels with
  | 0 => (y, {})
  | k + 1 =>
    let rs := (y.zip rest).map inversePair
    let (z, fl) := inverseLevels k (rs.flatMap fun r => [r.1.val, r.2.val]) (rest.drop y.length)
    (z, fl.or ((flagsOf (rs.map Prod.fst)).or (flagsOf (rs.map Prod.snd))))

/-- R370: the inverse transform of a column of 32 coefficients. -/
def haarInverse (levels : Nat) (out : List Val) : List Val × FpFlags :=
  let n := 32 / 2 ^ levels
  inverseLevels levels (out.take n) (out.drop n)

/-- The values of 32 rows of a tile from `row` on. -/
def State.blockValues (s : State) (t : Tile) (row : Nat) : List (List Val) :=
  (List.range 32).map fun i => s.rowValues t (row + i)

/-- Column `c` of a list of rows. -/
def columnOf (rows : List (List Val)) (c : Nat) : List Val := rows.map fun r => r.getD c (zeroVal false)

/-- R186: a coefficient as the transform, which needs FP32, takes it; only an MX element can need rounding. -/
def coeffValue (t : Tile) (v : Val) : Fp Val := if isScaled t.fmt then stepValue { val := v } else { val := v }

/-- The inverse transform of column `c` of 32 rows of a tile (R370). -/
def Tile.reconColumn (t : Tile) (rows : List (List Val)) (c : Nat) : List Val × FpFlags :=
  let xs := (columnOf rows c).map (coeffValue t)
  let (out, fl) := haarInverse t.dom (xs.map (·.val))
  (out, fl.or (flagsOf xs))

/-! ## TRD (R368) -/

/-- What TRD gives one element of row k: its bits moved, an integer extended, or its value rounded to FP32. -/
def readElem (t : Tile) (code : Nat) (v : Val) : Fp Nat :=
  if t.fmt = 2 then { val := code }
  else if isIntFmt t.fmt then { val := (signedOf t.width code % 2 ^ 32).toNat }
  else fp32.round rne false v

/-- The registers of each active lane, column by column, and the flags of the inverse transform. -/
def State.readRows (s : State) (t : Tile) (p : Pos) (n : Nat) (recon : Bool) (lanes : List Nat) :
    List (Nat × List (Fp Nat)) × FpFlags :=
  let outside : Fp Nat := { val := 0 }
  if recon then
    let rows := if p.row < t.rows then s.blockValues t p.row else []
    let cols := (List.range n).map fun j =>
      if p.col + j < t.cols ∧ p.row < t.rows then t.reconColumn rows (p.col + j) else ([], {})
    (lanes.map fun i => (i, cols.map fun c => match c.1[i]? with
        | some v => fp32.round rne false v
        | none => outside),
      cols.foldl (fun a c => a.or c.2) {})
  else
    (lanes.map fun i =>
      let k := p.row + i
      if k < t.rows then
        let codes := s.rowCodes t k
        let vals := s.rowValues t k
        (i, (List.range n).map fun j =>
          match codes[p.col + j]?, vals[p.col + j]? with
          | some c, some v => readElem t c v
          | _, _ => outside)
      else (i, List.replicate n outside), {})

def trd (l : Lane) : Act Unit := do
  let (active, _) ← laneStart l
  let n := l.imm.toNat % 64 + 1
  checkV active l.vd.toNat n
  checkTile active l.va
  if active = 0 then retire 3
  else
    let t ← useTile active l.va
    let w ← readS (sregOf l.vb)
    let p := posOf w
    let recon := t.dom != 0 && !l.imm.getLsbD 6
    if recon && p.row % 32 != 0 then badRecord active
    checkRows active t ((if recon then (List.range 32).map (p.row + ·) else (lanesOf active).map (p.row + ·)).filter (· < t.rows))
      ((colsIn p.col n t.cols).map (p.col + ·))
    let s ← get
    let (res, fl) := s.readRows t p n recon (lanesOf active)
    raiseFlags ((lowLane active, { fl with nan := false }) :: res.map fun r => (r.1, flagsOf r.2))
    modify fun s => res.foldl (fun s r => ((List.range n).zip r.2).foldl (fun s x => s.setV (l.vd.toNat + x.1) r.1 (BitVec.ofNat 32 x.2.val)) s) s
    retire 3

/-- TRD (R366, R368). -/
def execTrd (l : Lane) (s : State) : Host.Outcome State Fault Refusal := Act.outcome (trd l) s

/-! ## TWR and HTWR (R367, R369, R372) -/

/-- R367: in an MX tile a writer's columns are whole blocks. -/
def wholeBlocks (t : Tile) (col n : Nat) : Bool := !isScaled t.fmt || (col % 32 == 0 && (n % 32 == 0 || decide (t.cols ≤ col + n)))

/-- The rounder of a tile writer's element (R182). -/
def State.tileRounder (s : State) (rm row col : Nat) : Rounder := s.rounder rm 0 (512 * row + col)

/-- The rows that a writer stores, each with the lane that answers for its NaN (R202), and other flags it sets. -/
def writeRows (n : Nat) (others : List (Nat × FpFlags)) (rows : List (Nat × Fp RowWrite)) : Act Unit := do
  raiseFlags (others ++ rows.map fun r => (r.1, r.2.fl))
  modify fun s => rows.foldl (fun s r => s.writeRow n r.2.val) s

/-- R69, R367: the survivor test of a row that was alive reads the columns that the writer leaves, and a byte that holds elements of
both is read to be written: their soft errors are met before any effect. -/
def checkKept (active : Word32) (t : Tile) (rows cols : List Nat) : Act Unit :=
  checkRows active t rows ((List.range t.cols).filter fun c => !cols.contains c)

def twr (l : Lane) : Act Unit := do
  let (active, _) ← laneStart l
  let n := l.imm.toNat % 64 + 1
  useV active l.va n
  checkTile active l.vd
  if active = 0 then retire 3
  else
    let t ← useTile active l.vd
    let w ← readS (sregOf l.vb)
    let p := posOf w
    if !wholeBlocks t p.col n then badRecord active
    let s ← get
    let value (j i : Nat) : Val :=
      let x := s.g.vreg (l.va.toNat + j) i
      if isIntFmt t.fmt then valOfInt x.toInt else fp32.value x.toNat
    let cols := colsIn p.col n t.cols
    let rows := (lanesOf active).filter fun i => decide (p.row + i < t.rows) && !cols.isEmpty
    checkKept active t (rows.map (p.row + ·)) (cols.map (p.col + ·))
    writeRows l.vd.toNat [] (rows.map fun i =>
      (i, rowWrite t (p.row + i) p.col (s.tileRounder l.rm.toNat (p.row + i)) (l.sat = 1) true (cols.map fun j => value j i)))
    retire 3

/-- TWR (R369). -/
def execTwr (l : Lane) (s : State) : Host.Outcome State Fault Refusal := Act.outcome (twr l) s

/-- R372 step 3: a coefficient below the threshold becomes +0. -/
def thresholdVal (h : Val) (v : Val) : Val :=
  if !v.isNan && !h.isNan && decide (v.abs.cmp h < 0) then zeroVal false else v

def htwr (l : Lane) : Act Unit := do
  let (active, _) ← laneStart l
  let n := l.imm.toNat % 64 + 1
  useV active l.va n
  checkTile active l.vd
  if active = 0 then retire 3
  else
    let t ← useTile active l.vd
    let w ← readS (sregOf l.vb)
    let p := posOf w
    if t.dom = 0 ∨ 7 < t.fmt ∨ p.row % 32 ≠ 0 ∨ !wholeBlocks t p.col n then badRecord active
    let s ← get
    let h := fp32.value (s.g.hregs.get (l.vc.toNat % 8)).toNat
    let cols := if p.row < t.rows then colsIn p.col n t.cols else []
    let outs := cols.map fun j =>
      haarForward t.dom ((List.range 32).map fun i => if active.getLsbD i then fp32.value (s.g.vreg (l.va.toNat + j) i).toNat else zeroVal false)
    let fl := outs.foldl (fun (a : FpFlags) o => a.or o.2) {}
    let rows := if cols.isEmpty then [] else List.range 32
    checkKept active t (rows.map (p.row + ·)) (cols.map (p.col + ·))
    writeRows l.vd.toNat [(lowLane active, { fl with nan := false })] (rows.map fun i =>
      (i, rowWrite t (p.row + i) p.col (s.tileRounder l.rm.toNat (p.row + i)) (l.sat = 1) false
        (outs.map fun o => thresholdVal h (o.1.getD i (zeroVal false)))))
    retire 3

/-- HTWR (R372). -/
def execHtwr (l : Lane) (s : State) : Host.Outcome State Fault Refusal := Act.outcome (htwr l) s

/-! ## HREC (R373) -/

/-- The rows of a Haar tile reconstructed and rounded to its format. -/
def State.reconRows (s : State) (t : Tile) (rm : Nat) (sat : Bool) : List (Fp RowWrite) × FpFlags :=
  (List.range (t.rows / 32)).foldl (fun (acc : List (Fp RowWrite) × FpFlags) b =>
    let rows := s.blockValues t (32 * b)
    let cols := (List.range t.cols).map (t.reconColumn rows)
    (acc.1 ++ (List.range 32).map fun i =>
        rowWrite t (32 * b + i) 0 (s.tileRounder rm (32 * b + i)) sat false (cols.map fun c => c.1.getD i (zeroVal false)),
      cols.foldl (fun (a : FpFlags) c => a.or c.2) acc.2)) ([], {})

def hrec (l : Lane) : Act Unit := do
  let (active, mark) ← laneStart l
  checkTile active l.vd
  if active = 0 then retireWork 3
  else
    let t ← useTile active l.vd
    if t.dom = 0 then retireWork 3
    else
      checkRows active t (List.range t.rows) (List.range t.cols)
      let s ← get
      let (rows, fl) := s.reconRows t l.rm.toNat (l.sat = 1)
      let all := fl.or (flagsOf rows)
      raiseFlags ((lanesOf active).map fun i => (i, { all with nan := (flagsOf rows).nan }))
      modify fun s => rows.foldl (fun s r => s.writeRow l.vd.toNat r.val) s
      modify fun s => s.setTile l.vd.toNat { s.tile l.vd.toNat with dom := 0 }
      let _ ← issueCommand .tileOp (.hrec l) active mark { tiles := [(l.vd.toNat, true)] }
      retireWork 3

/-- HREC (R373): its values are written as it issues; the tile is filling until MATRIX_OPERATION_RETIRE. -/
def execHrec (l : Lane) (s : State) : Host.Outcome State Fault Refusal := Act.outcome (hrec l) s

end Sys2Proof.Machine
end

