-- ==== Sys2Proof/Machine/Kv.lean ====
section
/-! DEFINITION. The transaction instructions of the key-value page store (spec/15 R386, R387, R390 to R393, R404, R407,
R408): each asks the KV walker for transactions, at once or, where it must wait, from a parked path. -/

namespace Sys2Proof.Machine

/-! ## Asking the walker (R387) -/

/-- Where a path's transactions translate: its core's cache, its ASID (DEDUCED, log entry 37). -/
def State.kvHere (s : State) : KvCtx := ⟨s.here, s.g.asid, .path s.g.id s.slot⟩

/-- R235: what a transaction wrote joins the outgoing stream of a TWIN node, at the event's place. -/
def State.emitAll (s : State) (sub : Nat) (ws : List (Nat × List Byte)) : State :=
  ws.foldl (fun s w => s.emit 0 sub (cellsAt w.1 w.2)) s

/-- A transaction of the current path: its result, or why it took no effect. -/
def pathKv {α : Type} (sub : Nat) (k : Kv α) : Act (Except KvStop α) := do
  let r ← stateful fun s => s.runKv s.kvHere k
  match r with
  | .error e => pure (.error e)
  | .ok (a, ws) =>
    modify fun s => s.emitAll sub ws
    pure (.ok a)

/-- What a transaction instruction captured at issue (R387), as its wait holds it: its active lanes, S[sA], its second operand,
and what KVAPP adds. `fresh`: it is at issue; otherwise it is served from its parked path, whose wait has ended. -/
structure Ask where
  fresh : Bool
  mark : Option Nat
  active : Word32
  a : Word64
  b : Word64
  rest : List Word64
  deriving DecidableEq, Repr

def Ask.vals (q : Ask) : List Word64 := [q.active.setWidth 64, q.a, q.b] ++ q.rest

def Ask.of (w : Wait) : Ask :=
  { fresh := false, mark := w.mark, active := (w.vals.getD 0 0).setWidth 32, a := w.vals.getD 1 0, b := w.vals.getD 2 0, rest := w.vals.drop 3 }

/-- The instruction waits in its path, its mark held (Table 11-3). -/
def parkAsk (i : Instr) (q : Ask) : Act Unit := throw (.park { instr := i, words := 3, on := .walker, vals := q.vals, mark := q.mark })

/-- A transaction that waits outside the queue: the instruction has not issued yet, or waits in its path. -/
def waitOutside (i : Instr) (q : Ask) : Act Unit := if q.fresh then hold else parkAsk i q

/-- A fault of the instruction is precise (R387). -/
def askFault (q : Ask) (f : Flt) (va : Nat) : Act Unit := trapAt f 2 q.active va

/-- The walker writes the results and the instruction retires (R387). -/
def askDone (regs : List (BitVec 7 × Word64)) : Act Unit := do
  modify fun s => regs.foldl (fun s r => s.setS r.1 r.2) s
  retireWork 3

/-- One transaction that gives the instruction's results. -/
abbrev Txn := Arena → Ask → Kv (List (BitVec 7 × Word64))

/-- The instruction's one transaction, from issue or from its parked path. -/
def runAsk (i : Instr) (q : Ask) (k : Txn) : Act Unit := do
  let r ← pathKv 0 (do k (← beginOn q.a.toNat) q)
  match r with
  | .ok regs => askDone regs
  | .error (.fault f va _) => askFault q f va
  | .error (.queued _) => parkAsk i q
  | .error .outside => waitOutside i q

/-- The arena an instruction names, opened at issue: its faults are the instruction's. -/
def issueArena (active : Word32) (a : Word64) : Act Arena := do
  let r ← pathKv 0 (openArena a.toNat)
  match r with
  | .ok x => pure x
  | .error (.fault f va _) => trapAt f 2 active va
  | .error _ => hold

/-- R285: a destination that a command has still to write holds the instruction back. -/
def freeDest (i : Instr) : Act Unit := do
  let s ← get
  if (walkerDests i).any s.busyReg then stall else pure ()

/-- R386, R387: a transaction instruction with one transaction at issue. A transaction ends as a release, after every earlier
store of its path (R146, R99). -/
def transact (i : Instr) (l : Lane) (k : Txn) : Act Unit := do
  let (active, mark) ← laneStart l
  if active = 0 then retireWork 3
  else
    freeDest i
    let a ← readS (sregOf l.va)
    let b ← readS (sregOf l.vb)
    awaitPerformed
    orderGate i 3
    runAsk i { fresh := true, mark := mark, active := active, a := a, b := b, rest := [] } k

/-- A parked transaction instruction of a path may be served now, in key order (R229). -/
def State.askNow (s : State) : Option Wait :=
  match s.path.wait with
  | some w =>
    if w.on == .walker && s.g.stop != .stopped && (!s.g.det || s.isLowest s.g.id.node s.key (some (s.g.id, s.slot)) none) then some w
    else none
  | none => none

/-- The walker serves a parked path whose instruction `pick` accepts. -/
def resumeAsk (g : GroupId) (slot : Bool) (pick : Instr → Ask → Option (Act Unit)) (s : State) : Host.Outcome State Fault Refusal :=
  .next (s.withGroup g slot fun s =>
    match s.askNow with
    | none => s
    | some w =>
      match pick w.instr (Ask.of w) with
      | none => s
      | some a => Act.state a s.endWait)

/-! ## KVFORK (R391), KVREL (R392), KVLOOK (R393) -/

def kvforkTxn (l : Lane) : Txn := fun a q => do
  let st ← fork a (bitsOf q.b.toNat 0 16) (bitsOf q.b.toNat 16 16) (l.imm.getLsbD 0)
  pure [(sregOf l.vd, BitVec.ofNat 64 st)]

/-- KVFORK (R391). -/
def execKvfork (l : Lane) (s : State) : Host.Outcome State Fault Refusal := Act.outcome (transact (.kvfork l) l (kvforkTxn l)) s

/-- KV_FORK_TRANSACTION (R155). -/
def execKvForkTransaction (g : GroupId) (slot : Bool) (s : State) : Host.Outcome State Fault Refusal :=
  resumeAsk g slot (fun i q => match i with | .kvfork l => some (runAsk i q (kvforkTxn l)) | _ => none) s

/-- R392: the release of a mode. -/
def release (a : Arena) (mode n q : Nat) : Kv (Nat × Nat) := do
  match mode with
  | 0 =>
    if a.kvmax < n then kvBrec a.va
    releasePage a n
    pure (0, 1)
  | 1 => releasePrefix a n q
  | _ => releaseEnd a n

def kvrelTxn (l : Lane) : Txn := fun a q => do
  let (st, n) ← release a (l.imm.toNat % 4) (bitsOf q.b.toNat 0 16) (bitsOf q.b.toNat 32 32)
  pure [(sregOf l.vd, BitVec.ofNat 64 (st + place n 8 16))]

/-- KVREL (R392). -/
def execKvrel (l : Lane) (s : State) : Host.Outcome State Fault Refusal := Act.outcome (transact (.kvrel l) l (kvrelTxn l)) s

/-- KV_RELEASE_TRANSACTION (R158). -/
def execKvReleaseTransaction (g : GroupId) (slot : Bool) (s : State) : Host.Outcome State Fault Refusal :=
  resumeAsk g slot (fun i q => match i with | .kvrel l => some (runAsk i q (kvrelTxn l)) | _ => none) s

/-- R393: a lookup, with a reference taken where `ref` asks for it. -/
def lookupRef (a : Arena) (n p : Nat) (ref : Bool) : Kv (Except Nat Nat) := do
  match ← lookup a n p with
  | .error st => pure (.error st)
  | .ok k =>
    if !ref then pure (.ok k)
    else
      let e ← readPte a k
      if e.ref = 0xFFFF then pure (.error stRefmax)
      else
        writePte a { e with ref := e.ref + 1 }
        pure (.ok k)

def kvlookTxn (l : Lane) : Txn := fun a q => do
  let p := bitsOf q.b.toNat 32 32
  let r ← lookupRef a (bitsOf q.b.toNat 0 16) p (l.imm.getLsbD 0)
  let low := match r with
    | .ok k => k
    | .error st => place st 16 16 + 0xFFFF
  pure [(sregOf l.vd, BitVec.ofNat 64 (place p 32 32 + low))]

/-- KVLOOK (R393). -/
def execKvlook (l : Lane) (s : State) : Host.Outcome State Fault Refusal := Act.outcome (transact (.kvlook l) l (kvlookTxn l)) s

/-- KV_LOOKUP_TRANSACTION (R154). -/
def execKvLookupTransaction (g : GroupId) (slot : Bool) (s : State) : Host.Outcome State Fault Refusal :=
  resumeAsk g slot (fun i q => match i with | .kvlook l => some (runAsk i q (kvlookTxn l)) | _ => none) s

/-! ## AMASS (R404) -/

/-- R404: MASS after an operation. -/
def massOp (op mass x : Nat) : Nat :=
  match op with
  | 0 => min (mass + x) 0xFFFFFFFF
  | 1 => x
  | _ => mass / 2 ^ (x % 32)

def amassTxn (l : Lane) : Txn := fun a q => do
  let e ← namedPte a (bitsOf q.b.toNat 0 16)
  writePte a { e with mass := massOp (l.imm.toNat % 4) e.mass (bitsOf q.b.toNat 32 32) }
  pure [(sregOf l.vd, BitVec.ofNat 64 e.mass)]

/-- AMASS (R404). -/
def execAmass (l : Lane) (s : State) : Host.Outcome State Fault Refusal := Act.outcome (transact (.amass l) l (amassTxn l)) s

/-- KV_AMASS_TRANSACTION (R404). -/
def execKvAmassTransaction (g : GroupId) (slot : Bool) (s : State) : Host.Outcome State Fault Refusal :=
  resumeAsk g slot (fun i q => match i with | .amass l => some (runAsk i q (amassTxn l)) | _ => none) s

/-! ## KVPIN and KVUNPIN (R407, R408) -/

def kvpinTxn (l : Lane) : Txn := fun a q => do
  let e ← namedPte a (bitsOf q.b.toNat 0 16)
  pinPage a e
  let v := ({ e with pins := e.pins + 1 } : Kvpte).bits
  pure [(sregOf l.vd, BitVec.ofNat 64 v), (sregOf l.vd + 1, BitVec.ofNat 64 (v / 2 ^ 64))]

/-- KVPIN (R407). -/
def execKvpin (l : Lane) (s : State) : Host.Outcome State Fault Refusal := Act.outcome (transact (.kvpin l) l (kvpinTxn l)) s

def kvunpinTxn (l : Lane) : Txn := fun a q => do
  let e ← namedPte a (bitsOf q.b.toNat 0 16)
  if e.pins = 0 then kvBrec (a.pteVa e.k)
  unpinPage a e
  pure [(sregOf l.vd, BitVec.ofNat 64 (e.pins - 1))]

/-- KVUNPIN (R408). -/
def execKvunpin (l : Lane) (s : State) : Host.Outcome State Fault Refusal := Act.outcome (transact (.kvunpin l) l (kvunpinTxn l)) s

/-- The parked KVPIN or KVUNPIN of a path is served. -/
def resumePin (g : GroupId) (slot : Bool) (s : State) : Host.Outcome State Fault Refusal :=
  resumeAsk g slot (fun i q => match i with | .kvpin l => some (runAsk i q (kvpinTxn l)) | _ => none) s

def resumeUnpin (g : GroupId) (slot : Bool) (s : State) : Host.Outcome State Fault Refusal :=
  resumeAsk g slot (fun i q => match i with | .kvunpin l => some (runAsk i q (kvunpinTxn l)) | _ => none) s

/-! ## KVAPP (R390) -/

/-- A token to append: the flags of its roundings, and its key and value rows as BF16 bit patterns. -/
structure Token where
  flags : Nat
  key : List Nat
  val : List Nat
  deriving DecidableEq, Repr

/-- Four bit patterns in each 64-bit word of a wait. -/
def packHalves (hs : List Nat) : List Word64 := (chunks 4 hs.length hs).map fun c => BitVec.ofNat 64 (natOf (c.flatMap (bytesOf 2)))
def unpackHalves (ws : List Word64) : List Nat := ws.flatMap fun w => (List.range 4).map fun i => bitsOf w.toNat (16 * i) 16

def Token.pack (t : Token) : List Word64 := BitVec.ofNat 64 t.flags :: (packHalves t.key ++ packHalves t.val)
def Token.unpack (d : Nat) (ws : List Word64) : Token :=
  { flags := (ws.headD 0).toNat, key := unpackHalves ((ws.drop 1).take (d / 4)), val := unpackHalves ((ws.drop (1 + d / 4)).take (d / 4)) }

def flagCode (f : FpFlags) : Nat := f.invalid.toNat + 2 * f.ovf.toNat + 4 * f.nan.toNat
def flagsOfCode (n : Nat) : FpFlags := ⟨bitOf n 0, bitOf n 1, bitOf n 2⟩

/-- R390: row `k` of a tile rounded to BF16. -/
def State.bfRow (s : State) (t : Tile) (k : Nat) : List (Fp Nat) := (s.rowValues t k).map fun v => bf16.round rne false v

/-- The token that row `k` of the two tiles gives. -/
def State.tokenOf (s : State) (tk tv : Tile) (k : Nat) : Token :=
  let key := s.bfRow tk k
  let val := s.bfRow tv k
  { flags := flagCode ((flagsOf key).or (flagsOf val)), key := key.map (·.val), val := val.map (·.val) }

/-- KVAPP's result word (R390). -/
def appendWord (st done len : Nat) : Word64 := BitVec.ofNat 64 (st + place done 8 8 + place len 32 32)

/-- Table 15-3: the input word for the tokens that are left after `done`. -/
def restWord (w : Word64) (done : Nat) : Word64 :=
  BitVec.ofNat 64 (place (bitsOf w.toNat 24 7 - done) 24 7 + place (bitsOf w.toNat 16 7 + done) 16 7 + bitsOf w.toNat 0 16)

/-- R156: the tokens of a list appended one after another, each by its transaction; `one` stops after the first. `done`
tokens are appended already. -/
def appendTokens (l : Lane) (one : Bool) (q : Ask) (d done : Nat) (ts : List Token) : Act Unit :=
  match ts with
  | [] => pure ()
  | t :: rest => do
    let n := bitsOf q.b.toNat 0 16
    let left (xs : List Token) (k : Nat) : Ask := { q with rest := BitVec.ofNat 64 k :: BitVec.ofNat 64 d :: xs.flatMap Token.pack }
    let r ← pathKv done (do
      let a ← beginOn q.a.toNat
      let st ← append a n t.key t.val
      pure (st, ← seqLen a n))
    match r with
    | .error (.queued _) => parkAsk (.kvapp l) (left ts done)
    | .error .outside => if done = 0 then waitOutside (.kvapp l) (left ts done) else parkAsk (.kvapp l) (left ts done)
    | .error (.fault f va _) =>
      if done ≠ 0 then modify fun s => s.setS (sregOf l.vd) (restWord q.b done)
      askFault q f va
    | .ok (st, len) =>
      if st ≠ 0 then askDone [(sregOf l.vd, appendWord st done len)]
      else
        modify fun s => { s with g := s.g.setFlags (flagsOfCode t.flags) }
        if rest.isEmpty then askDone [(sregOf l.vd, appendWord 0 (done + 1) len)]
        else if one then parkAsk (.kvapp l) (left rest (done + 1))
        else appendTokens l one q d (done + 1) rest

/-- R390: what KVAPP refuses in a tile. -/
def badRows (t : Tile) (d row0 n : Nat) : Bool := decide (7 < t.fmt) || t.dom != 0 || t.cols != d || decide (t.rows < row0 + n)

def kvapp (l : Lane) : Act Unit := do
  let (active, mark) ← laneStart l
  checkTile active l.vb
  checkTile active l.vc
  if active = 0 then retireWork 3
  else
    freeDest (.kvapp l)
    let a ← readS (sregOf l.va)
    let w ← readS (sregOf l.vd)
    let tk ← useTile active l.vb
    let tv ← useTile active l.vc
    let n := bitsOf w.toNat 24 7 + 1
    let row0 := bitsOf w.toNat 16 7
    awaitPerformed
    orderGate (.kvapp l) 3
    let x ← issueArena active a
    if badRows tk x.d row0 n || badRows tv x.d row0 n then badRecord active
    let ks := (List.range n).map (row0 + ·)
    checkRows active tk ks (List.range tk.cols)
    checkRows active tv ks (List.range tv.cols)
    let s ← get
    let ts := ks.map (s.tokenOf tk tv)
    if s.g.nanctl.getLsbD 0 && ts.any (fun t => bitOf t.flags 2) then
      trapAt { cause := cNANTRAP, sub := 1 } 0 active (lowLane active)
    appendTokens l false { fresh := true, mark := mark, active := active, a := a, b := w, rest := [] } x.d 0 ts

/-- KVAPP (R390). -/
def execKvapp (l : Lane) (s : State) : Host.Outcome State Fault Refusal := Act.outcome (kvapp l) s

/-- The next token of a parked KVAPP, whose wait holds the tokens appended, the elements of a row, and the tokens left. -/
def resumeAppend (l : Lane) (q : Ask) : Act Unit :=
  let n (i : Nat) : Nat := (q.rest.getD i 0).toNat
  let ts := (chunks (1 + n 1 / 2) q.rest.length (q.rest.drop 2)).map (Token.unpack (n 1))
  appendTokens l true { q with rest := [] } (n 1) (n 0) ts

/-- KV_APPEND_TRANSACTION (R156): one token. -/
def execKvAppendTransaction (g : GroupId) (slot : Bool) (s : State) : Host.Outcome State Fault Refusal :=
  resumeAsk g slot (fun i q => match i with | .kvapp l => some (resumeAppend l q) | _ => none) s

end Sys2Proof.Machine
end

