-- ==== Sys2Proof/Machine/KvEngine.lean ====
section
/-! DEFINITION. What the key-value engine commands share (spec/15 R388, R389): issue, the transactions that a command
performs, its result word; the selector's and the demotion engine's commands (R401 to R406). -/

namespace Sys2Proof.Machine

/-! ## Issue and transactions (R388) -/

/-- R386: engine commands of this family exist on A-cores. -/
def needACore : Act Unit := do
  let s ← get
  if 2 ≤ s.g.die.toNat then trapAll cILLOP 1 0 else pure ()

/-- S[first] to S[first + n − 1] (R394, R401). -/
def readBlock (first : BitVec 7) (n : Nat) : Act (List Word64) :=
  match n with
  | 0 => pure []
  | n + 1 => do
    let v ← readS first
    let vs ← readBlock (first + 1) n
    pure (v :: vs)

/-- R285: the register of a command's result word must not be awaited already. -/
def freeResult (i : Instr) : Act Unit := do
  let s ← get
  match destOf i with
  | some d => if s.busyReg d then stall else pure ()
  | none => pure ()

/-- Key of `vals` that holds the home die plus one of a demotion command, once its arena is known. -/
def homeKey : Nat := 900

/-- R118: the selector translates on its die, the demotion engine on the arena's home die, the attention unit on its
core (DEDUCED, log entry 37). -/
def State.kvOf (s : State) (c : Command) : KvCtx :=
  let at' : Where :=
    match c.id.ctx with
    | .sel => ⟨s.w.die, none⟩
    | .dem => ⟨if c.vals.get homeKey = 0 then s.w.die else BitVec.ofNat 2 ((c.vals.get homeKey).toNat - 1), none⟩
    | _ => s.here
  ⟨at', s.g.asid, .cmd c.id⟩

/-- R235: what a command wrote joins the outgoing stream of a TWIN node, at position `sub` of the command. -/
def State.emitCmd (s : State) (c : Command) (sub : Nat) (ws : List (Nat × List Byte)) : State :=
  let rs := ws.map fun w => StreamRec.mk c.clock c.gidx (lowLane c.lmask) sub (BitVec.ofNat 64 w.1) w.2
  if s.g.twin then s.modNode c.id.wg.node fun n => { n with stream := n.stream ++ rs } else s

/-- A transaction or access of a command, with its issuing group at issue: `f` takes its result; a fault stops the
command before it (R124); one that must wait is asked for again. It follows the command's own stores, performed at every member
(R59, R146). -/
def State.cmdRun {α : Type} (s : State) (c : Command) (sub : Nat) (k : Kv α) (f : State → α → State) : State :=
  if !s.eventFree c sub || !s.allAcked (.cmd c.id) then s
  else match s.runKv (s.kvOf c) k with
    | (s, .ok (a, ws)) => f (s.emitCmd c sub ws) a
    | (s, .error (.queued _)) => s
    | (s, .error .outside) => s
    | (s, .error (.fault flt va wr)) => s.engineStop c (cmdTrap flt (if wr then 5 else 4) va) sub

/-- An event of a command that may act, with its issuing group at issue. -/
def cmdEvent (id : CmdId) (f : Command → State → State) (s : State) : Host.Outcome State Fault Refusal :=
  .next (match s.runnable id with
    | some c => s.inCommand c (f c)
    | none => s)

/-- R388: the command writes its result word and completes; its timeline advances whatever the arena status (R110). -/
def State.giveResult (s : State) (c : Command) (v : Nat) : State :=
  match destOf c.instr with
  | some d => (s.setS d (BitVec.ofNat 64 v)).finish c 0
  | none => s.finish c 0

/-! ## The page list (R389) -/

/-- An entry of a page list: PAGE and KIDX. -/
structure PageEntry where
  page : Nat
  k : Nat
  deriving DecidableEq, Repr

def PageEntry.bits (e : PageEntry) : Nat := place e.page 32 32 + place e.k 0 16

/-- One entry of the list at a VA, as a plain read. -/
def readListEntry (list i : Nat) : Kv PageEntry := do
  let va := list % 2 ^ 56 + 8 * i
  let v := natOf (← readBytesAs {} va 8)
  if bitsOf v 16 16 ≠ 0 then kvBrec va
  pure ⟨bitsOf v 32 32, bitsOf v 0 16⟩

/-- Where a command keeps an entry of its page list once it has read it: PAGE, and KIDX plus one. -/
def entryKey (i : Nat) : Nat := 2 ^ 23 + 2 * i

/-- The entry of the page list that the command has read. -/
def Command.entry? (c : Command) (i : Nat) : Option PageEntry :=
  let k := (c.vals.get (entryKey i + 1)).toNat
  if k = 0 then none else some ⟨(c.vals.get (entryKey i)).toNat, k - 1⟩

/-- R389: the command reaches an entry of its list, which it reads once. -/
def State.reachEntry (s : State) (c : Command) (list i : Nat) : State :=
  if (c.entry? i).isSome then s
  else s.cmdRun c i (readListEntry list i) fun s e =>
    s.modCmd c.id fun x => { x with vals := x.vals.setRange (entryKey i) [BitVec.ofNat 32 e.page, BitVec.ofNat 32 (e.k + 1)] }

/-- R389: what a command does with the entry that it has reached. -/
def State.atEntry (s : State) (c : Command) (list i : Nat) (f : State → Command → PageEntry → State) : State :=
  let s := s.reachEntry c list i
  match s.runnable c.id with
  | none => s
  | some c => match c.entry? i with
    | none => s
    | some e => f s c e

/-- A pin as a command holds it. -/
def pinOf (e : Kvpte) (seq page pos : Nat) : Pin :=
  { kvpte := e.k, seq := seq, page := page, entry := BitVec.ofNat 128 e.bits, pos := pos }

/-- The KVPTE of a snapshot. -/
def Pin.snap (p : Pin) : Kvpte := Kvpte.of p.kvpte p.entry.toNat

/-! ## Query rows (R397 step 3, R401) -/

/-- The rows of a query tile as exact values, as the attention unit takes them (R186); a Haar tile is reconstructed, the tile
unchanged. -/
def State.queryRows (s : State) (t : Tile) : List (List Val) :=
  if t.dom = 0 then (List.range t.rows).map fun k => s.rowValues t k
  else (List.range (t.rows / 32)).flatMap fun b =>
    let rows := s.blockValues t (32 * b)
    let cols := (List.range t.cols).map fun c => (t.reconColumn rows c).1
    (List.range 32).map fun i => cols.map fun c => c.getD i (zeroVal false)

/-- R161, R186: the rows of a query tile as the selector's FP32 steps take them. -/
def State.queryWords (s : State) (t : Tile) : List (List (Fp Val)) := (s.queryRows t).map fun r => r.map (coeffValue t)

/-- The 32-row blocks that hold some of a list of rows. -/
def blocksOf (rows : List Nat) : List Nat := (rows.map (· / 32)).dedup

/-- The flags of reconstructing the blocks of a query tile that hold the rows used. -/
def State.queryFlags (s : State) (t : Tile) (rows : List Nat) : FpFlags :=
  if t.dom = 0 then {}
  else (blocksOf rows).foldl (fun (a : FpFlags) b =>
    let vs := s.blockValues t (32 * b)
    (List.range t.cols).foldl (fun (a : FpFlags) c => a.or (t.reconColumn vs c).2) a) {}

/-- R459, R206: a command that reads columns of tile rows meets a soft error or poison: its trap. -/
def State.tilePoison (s : State) (t : Tile) (rows cols : List Nat) : Option Trap :=
  (rows.findSome? fun k => s.rowSoft t k cols).map fun o => cmdTrap { cause := cECC, sub := s.winSoftSub 1 o } 4 o

/-- As `tilePoison`, for the query rows that a command uses: the reconstruction of a row reads its whole block. -/
def State.queryPoison (s : State) (t : Tile) (rows : List Nat) : Option Trap :=
  s.tilePoison t (if t.dom = 0 then rows else (blocksOf rows).flatMap fun b => (List.range 32).map (32 * b + ·)) (List.range t.cols)

/-! ## ASEL (R401, R402) -/

def asel (l : Lane) : Act Unit := do
  needACore
  let (active, mark) ← laneStart l
  checkTile active l.va
  if active = 0 then retireWork 3
  else
    freeResult (.asel l)
    let ops ← readBlock (sregOf l.vb) 5
    let t ← useTile active l.va
    let w := (ops.getD 2 0).toNat
    if 7 < t.fmt ∨ t.rows < bitsOf w 32 7 + (bitsOf w 40 7 + 1) then badRecord active
    let _ ← issueCommand .sel (.asel l) active mark { ops := ops, tiles := [(l.va.toNat, false)] }
    retireWork 3

/-- ASEL (R401). -/
def execAsel (l : Lane) (s : State) : Host.Outcome State Fault Refusal := Act.outcome (asel l) s

def Command.op (c : Command) (i : Nat) : Nat := (c.ops.getD i 0).toNat

/-- Where an ASEL command keeps element j of the summary of its n-th snapshot. -/
def sumKeyOf (n j : Nat) : Nat := 1024 * (n + 1) + j

/-- ASEL phase 1: the next entry is read, snapshotted and its summary read. -/
def State.selSnapshot (s : State) (c : Command) (t : Tile) : State :=
  s.atEntry c (c.op 1) c.pos fun s c e =>
    s.cmdRun c c.pos (do
        let a ← beginOn (c.op 0)
        if t.cols ≠ a.d then kvBrec a.va
        match ← snapshot a e.k with
        | none => pure none
        | some x =>
          let sum ← readSum a x.sumidx
          pure (some (x, sum.1 ++ sum.2)))
      fun s r =>
        s.modCmd c.id fun x =>
          let x := { x with pos := x.pos + 1, phase := if x.pos + 1 = bitsOf (c.op 2) 0 12 + 1 then 1 else 0 }
          match r with
          | none => { x with vals := x.vals.set 0 (x.vals.get 0 + 1) }
          | some (m, sum) => { x with
              pins := x.pins ++ [pinOf m 0 e.page c.pos]
              vals := x.vals.setRange (sumKeyOf x.pins.length 0) (sum.map (BitVec.ofNat 32)) }

/-- R161: the score of a page for a query row. -/
def pageScore (q hi lo : List Val) : Fp Nat :=
  let step (v : Fp Val) : Fp Val := stepValue v
  let cs := ((q.zip hi).zip lo).map fun x =>
    let a := step (mulVal x.1.1 x.1.2)
    let b := step (mulVal x.1.1 x.2)
    let m := minVal a.val b.val true
    ({ val := m, fl := (a.fl.or b.fl).or { nan := m.isNan } } : Fp Val)
  let add (x y : Fp Val) : Fp Val :=
    let r := step (sumVals false [x.val, y.val])
    { val := r.val, fl := (x.fl.or y.fl).or r.fl }
  let level (xs : List (Fp Val)) : List (Fp Val) := (pairUp xs).map fun p => add p.1 p.2
  let blocks := (chunks 32 cs.length cs).map fun b => (level (level (level (level (level b))))).headD { val := zeroVal false }
  match blocks with
  | [] => { val := 0 }
  | b :: rest =>
    let r := rest.foldl add b
    { val := (fp32.round rne false (if r.val.isNan then .nan false else r.val)).val, fl := r.fl }

/-- A scored entry: its pin, its score, and the lowest query row with a NaN score. -/
structure Scored where
  pin : Pin
  score : Val
  nanRow : Option Nat
  flags : FpFlags

/-- The query rows that an ASEL command uses (R401). -/
def Command.selRows (c : Command) : List Nat := (List.range (bitsOf (c.op 2) 40 7 + 1)).map (bitsOf (c.op 2) 32 7 + ·)

/-- R402 step 2: the scores of the snapshots of an ASEL command. -/
def State.scores (s : State) (c : Command) (t : Tile) : List Scored :=
  let w := c.op 2
  let row0 := bitsOf w 32 7
  let rows := ((s.queryWords t).drop row0).take (bitsOf w 40 7 + 1)
  (c.pins.zipIdx).map fun (p, n) =>
    let at' (j : Nat) : Val := bf16.value (c.vals.get (sumKeyOf n j)).toNat
    let hi := (List.range t.cols).map at'
    let lo := (List.range t.cols).map fun j => at' (t.cols + j)
    let ss := rows.map fun q =>
      let r := pageScore (q.map (·.val)) hi lo
      { r with fl := r.fl.or (flagsOf q) }
    let vs := ss.map fun x => fp32.value x.val
    { pin := p, score := vs.tail.foldl (fun b v => minVal b v true) (vs.headD (zeroVal false))
      nanRow := (vs.zipIdx.find? fun v => v.1.isNan).map fun v => row0 + v.2
      flags := ss.foldl (fun (f : FpFlags) x => f.or x.fl) {} }

/-- R402: the order of ranking. -/
def Scored.le (x y : Scored) : Bool :=
  if x.score.isNan || y.score.isNan then
    (!x.score.isNan && y.score.isNan) || (x.score.isNan && y.score.isNan && tie)
  else
    let o := x.score.cmp y.score
    decide (0 < o) || (o == 0 && tie)
where
  tie : Bool := decide (x.pin.page < y.pin.page) || (x.pin.page == y.pin.page && decide (x.pin.pos ≤ y.pin.pos))

/-- R402 step 3: OUT and SCORES. -/
def writeRanked (out scores : Nat) (i : Nat) (rs : List Scored) : Kv Unit :=
  match rs with
  | [] => pure ()
  | r :: rest => do
    writeBytesAs { write := true } (out % 2 ^ 56 + 8 * i) (bytesOf 8 (PageEntry.bits ⟨r.pin.page, r.pin.kvpte⟩))
    if scores % 2 ^ 56 ≠ 0 then
      writeBytesAs { write := true } (scores % 2 ^ 56 + 4 * i) (bytesOf 4 (fp32.round rne false (if r.score.isNan then .nan false else r.score)).val)
    writeRanked out scores (i + 1) rest

/-- R402 steps 2 and 3 up to the unpinning. -/
def State.selRank (s : State) (c : Command) (t : Tile) : State :=
  match s.queryPoison t c.selRows with
  | some x => s.engineStop c x c.pos
  | none =>
    let all := s.scores c t
    match (all.find? fun x => x.nanRow.isSome), c.nanTrap with
    | some x, true => s.engineStop c (nanTrapOf c x.pin.pos (x.nanRow.getD 0) 0) x.pin.pos
    | _, _ =>
      let out := (sortBy Scored.le all).take (bitsOf (c.op 2) 16 12 + 1)
      s.cmdRun c c.pos (writeRanked (c.op 3) (c.op 4) 0 out) fun s _ =>
        (s.cmdFlags c (all.foldl (fun (f : FpFlags) x => f.or x.flags) { s.queryFlags t c.selRows with nan := false })).modCmd c.id
          fun x => { x with phase := 2, vals := x.vals.set 1 (BitVec.ofNat 32 out.length) }

/-- A pin of a command is dropped in one transaction; none left moves it to its last phase. -/
def State.cmdUnpin (s : State) (c : Command) (last : Nat) : State :=
  match c.pins with
  | [] => s.modCmd c.id fun x => { x with phase := last }
  | p :: rest =>
    s.cmdRun c p.pos (do
        let a ← beginOn (c.op 0)
        dropPin a p.kvpte)
      fun s _ => s.modCmd c.id fun x => { x with pins := rest, phase := if rest.isEmpty then last else x.phase }

/-- ASEL_COMPLETE (R402): ranks and writes the output; with every pin dropped, it completes. -/
def execAselComplete (id : CmdId) (s : State) : Host.Outcome State Fault Refusal :=
  cmdEvent id (fun c s =>
    match c.instr with
    | .asel l =>
      if c.phase = 1 then s.selRank c (s.tile l.va.toNat)
      else if !s.allAcked (.cmd id) then s
      else if c.phase = 3 || (c.phase = 2 && c.pins.isEmpty) then
        s.giveResult c (place (c.vals.get 1).toNat 0 16 + place (c.vals.get 0).toNat 16 16)
      else s
    | _ => s) s

/-! ## ASUMU (R403) -/

/-- A command on an arena with no tile: ASUMU, KVSWEEP and KVDEM. -/
def arenaCommand (ctx : Ctx) (i : Instr) (l : Lane) : Act Unit := do
  needACore
  let (active, mark) ← laneStart l
  if active = 0 then retireWork 3
  else
    freeResult i
    let a ← readS (sregOf l.va)
    let b ← readS (sregOf l.vb)
    let _ ← issueCommand ctx i active mark { ops := [a, b] }
    retireWork 3

/-- ASUMU (R403). -/
def execAsumu (l : Lane) (s : State) : Host.Outcome State Fault Refusal := Act.outcome (arenaCommand .sel (.asumu l) l) s

/-- ASUMU's snapshot; with no page to pin the status is NOPAGE. -/
def State.sumSnapshot (s : State) (c : Command) : State :=
  s.cmdRun c 0 (do
      let a ← beginOn (c.op 0)
      pure (a, ← snapshot a (bitsOf (c.op 1) 0 16)))
    fun s r => s.modCmd c.id fun x =>
      match r.2 with
      | none => { x with phase := 2 }
      | some e => { x with phase := 1, pins := [pinOf e 0 0 0], vals := x.vals.set 0 (BitVec.ofNat 32 e.sumidx) }

/-- The summary of K rows 0 to n − 1 of a BF16 slot (R160). -/
def sumRows (a : Arena) (slot : Nat) (old : Option (List Nat × List Nat)) (ts : List Nat) : Kv (Option (List Nat × List Nat)) :=
  match ts with
  | [] => pure old
  | t :: rest => do
    let key := halves (← kvBytes (a.rowVa slot 0 0 t) (2 * a.d))
    sumRows a slot (some (sumKey old key)) rest

/-- R403 step 2. -/
def sumFinish (a : Arena) (e : Kvpte) (sumidx : Nat) : Kv Nat := do
  if e.fmt ≠ 0 then
    dropPin a e.k
    pure 0
  else
    let sum ← sumRows a e.slot none (List.range e.ntok)
    let cur ← readPte a e.k
    if cur.ntok ≠ e.ntok then
      dropPin a e.k
      pure stRace
    else
      match sum with
      | none => pure ()
      | some v => writeSum a sumidx v
      dropPin a e.k
      pure 0

/-- ASUMU_COMPLETE (R403). -/
def execAsumuComplete (id : CmdId) (s : State) : Host.Outcome State Fault Refusal :=
  cmdEvent id (fun c s =>
    match c.instr, c.pins with
    | .asumu _, p :: _ =>
      s.cmdRun c 1 (do
          let a ← beginOn (c.op 0)
          sumFinish a p.snap (c.vals.get 0).toNat)
        fun s st => s.giveResult c st
    | .asumu _, [] => if c.phase = 2 then s.giveResult c stNopage else s
    | _, _ => s) s

/-! ## KVSWEEP and KVDEM (R405, R406) -/

/-- KVSWEEP (R405). -/
def execKvsweep (l : Lane) (s : State) : Host.Outcome State Fault Refusal := Act.outcome (arenaCommand .dem (.kvsweep l) l) s

/-- KVDEM (R406). -/
def execKvdem (l : Lane) (s : State) : Host.Outcome State Fault Refusal := Act.outcome (arenaCommand .dem (.kvdem l) l) s

/-- KVSWEEP's result word: pages demoted, and steps that ended with NOSLOT or RACE. -/
def Command.sweepWord (c : Command) : Nat := place (c.vals.get 2).toNat 0 16 + place (c.vals.get 3).toNat 16 16

/-- A step of a demotion command ends with a status: KVDEM completes, KVSWEEP counts it and goes on. -/
def State.stepEnds (s : State) (c : Command) (st : Nat) : State :=
  match c.instr with
  | .kvsweep _ => s.modCmd c.id fun x => { x with
      phase := 0, pos := x.pos + 1, pins := []
      vals := if st = 0 then x.vals.set 2 (x.vals.get 2 + 1) else x.vals.set 3 (x.vals.get 3 + 1) }
  | _ => s.giveResult c st

/-- The KVPTE index that a demotion command has reached. -/
def Command.demIndex (c : Command) : Nat :=
  match c.instr with
  | .kvsweep _ => bitsOf (c.op 1) 0 16 + c.pos
  | _ => bitsOf (c.op 1) 0 16

/-! The phases of a demotion command: KVSWEEP decides in phase 0 and begins its step in phase 2, KVDEM begins its step in phase 0; in phase 3
the page is pinned, and in phase 1 it has its new slot as well. -/

/-- KV_SWEEP_DECISION (R163): one index decided; past the range the command completes. -/
def execKvSweepDecision (id : CmdId) (s : State) : Host.Outcome State Fault Refusal :=
  cmdEvent id (fun c s =>
    match c.instr with
    | .kvsweep _ =>
      if c.phase ≠ 0 then s
      else
        s.cmdRun c c.pos (do
            let a ← beginOn (c.op 0)
            if min (bitsOf (c.op 1) 16 16) a.kvmax < c.demIndex then pure none
            else some <$> sweepDecision a c.demIndex)
          fun s r =>
            match r with
            | none => s.giveResult c c.sweepWord
            | some true => s.modCmd c.id fun x => { x with phase := 2 }
            | some false => s.modCmd c.id fun x => { x with pos := x.pos + 1 }
    | _ => s) s

/-- The first transaction of a step (R164, R167). A page that KVSWEEP decided to demote and that is full, live and of a format
above MXFP4 no longer ends its step with RACE (DESIGN CHOICE, log entry 77). -/
def State.demSnapshot (s : State) (c : Command) : State :=
  s.cmdRun c c.pos (do
      let a ← beginOn (c.op 0)
      pure (a, ← beginDemotion a c.demIndex))
    fun s r => match r.2 with
      | .error st => s.stepEnds c (match c.instr with | .kvsweep _ => stRace | _ => st)
      | .ok e => s.modCmd c.id fun x => { x with
          phase := 3, pins := [pinOf e 0 0 0]
          vals := (x.vals.set 0 (BitVec.ofNat 32 e.gen)).set homeKey (BitVec.ofNat 32 (r.1.home.toNat + 1)) }

/-- R167 step 2: a slot for the pinned page. -/
def State.demPop (s : State) (c : Command) (e : Kvpte) : State :=
  s.cmdRun c c.pos (do
      let a ← beginOn (c.op 0)
      popDemoted a e.k e.fmt)
    fun s r => match r with
      | none => s.stepEnds c stNoslot
      | some n => s.modCmd c.id fun x => { x with phase := 1, vals := x.vals.set 1 (BitVec.ofNat 32 n) }

/-- R203: the lowest (token, element) of a BF16 page that is NaN, the keys and the values of a token taken together: its NANTRAP
reports the token as the row and the element as the column (DESIGN CHOICE, log entry 79). -/
def nanOfPage (a : Arena) (slot : Nat) (ts : List Nat) : Kv (Option (Nat × Nat)) :=
  match ts with
  | [] => pure none
  | t :: rest => do
    let k ← slotRow a slot 0 false 0 t
    let v ← slotRow a slot 0 false 1 t
    match (k.zip v).findIdx? fun x => x.1.isNan || x.2.isNan with
    | some j => pure (some (t, j))
    | none => nanOfPage a slot rest

/-- R167 steps 3 and 4: the page converted and swapped; a NaN that must trap stops it first. -/
def convertAndSwap (a : Arena) (e : Kvpte) (n gen : Nat) (trap : Bool) : Kv (Except (Nat × Nat) (Nat × FpFlags)) := do
  let nan ← if trap ∧ e.fmt = 0 then nanOfPage a e.slot (List.range a.t) else pure none
  match nan with
  | some x => pure (.error x)
  | none =>
    let fmt' := demoted a e.fmt
    let fl ← convertRows a e.slot e.fmt e.scl (a.slotVa (classOf fmt') n) fmt' a.allRows
    let st ← demotionSwap a e.k gen fmt' n
    pure (.ok (st, fl))

/-- KV_DEMOTION_SWAP (R167): the slot of a pinned page is popped; then the page is converted and swapped. -/
def execKvDemotionSwap (id : CmdId) (s : State) : Host.Outcome State Fault Refusal :=
  cmdEvent id (fun c s =>
    match c.phase, c.pins with
    | 3, p :: _ => if c.id.ctx != .dem then s else s.demPop c p.snap
    | 1, p :: _ =>
      if c.id.ctx != .dem then s
      else s.cmdRun c c.pos (do
          let a ← beginOn (c.op 0)
          convertAndSwap a p.snap (c.vals.get 1).toNat (c.vals.get 0).toNat c.nanTrap)
        fun s r => match r with
          | .error (t, j) => s.engineStop c (nanTrapOf c 0 t j) c.pos
          | .ok (st, fl) => (s.cmdFlags c fl).stepEnds c st
    | _, _ => s) s

end Sys2Proof.Machine
end

