-- ==== Sys2Proof/Machine/Attn.lean ====
section
/-! DEFINITION. ATTN (spec/15 R394 to R400; spec/07 R199; spec/06 R162, R169 to R171): its issue, its transactions, the
attention computation, and its completion; and the events that ATTN shares with the other key-value commands.

Phases: 0 sequence transaction, 1 snapshots, 2 pages, 3 pins dropped after NOPAGE, 4 output, 5 window release, 6 done, 7 mass
transactions of every page, 8 mass transactions of the pages before one whose NaN stops the command (R399). The command holds
the mass of each finished page until its transaction (R167; DEDUCED, log entry 48). -/

namespace Sys2Proof.Machine

/-! ## Issue (R394, R395) -/

/-- R395: what ATTN refuses at issue. -/
def attnBad (l : Lane) (tO tQ tS : Tile) : Bool :=
  let init := l.imm.getLsbD 0
  let fin := l.imm.getLsbD 1
  decide (7 < tQ.fmt) || tS.fmt != 2 || tS.dom != 0 || decide (tS.rows < tQ.rows) || decide (tS.cols < 2) || tO.dom != 0
    || tO.rows != tQ.rows || (tO.fmt != 2 && !(fin && init)) || (fin && isScaled tO.fmt && tO.cols % 32 != 0)
    || l.vd == l.va || l.vd == l.vb || l.va == l.vb

def attn (l : Lane) : Act Unit := do
  needACore
  let (active, mark) ← laneStart l
  checkTile active l.vd
  checkTile active l.va
  checkTile active l.vb
  if active = 0 then retireWork 3
  else
    freeResult (.attn l)
    let ops ← readBlock (sregOf l.vc) 6
    let tO ← useTile active l.vd
    let tQ ← useTile active l.va
    let tS ← useTile active l.vb
    if attnBad l tO tQ tS then badRecord active
    let _ ← issueCommand .attn (.attn l) active mark
      { ops := ops, tiles := [(l.vd.toNat, true), (l.vb.toNat, true), (l.va.toNat, false)] }
    retireWork 3

/-- ATTN (R394). -/
def execAttn (l : Lane) (s : State) : Host.Outcome State Fault Refusal := Act.outcome (attn l) s

/-! ## The command's fields -/

/-- Table 15-4. -/
structure AttnArgs where
  tO : Nat
  tQ : Nat
  tS : Nat
  init : Bool
  fin : Bool
  arena : Nat
  list : Nat
  seq : Nat
  tbl : Bool
  causal : Bool
  nl : Nat
  cumt : Nat
  kt : Nat
  ent : Nat
  sigma : Val

def attnArgs (c : Command) (l : Lane) : AttnArgs :=
  let w := c.op 2
  { tO := l.vd.toNat, tQ := l.va.toNat, tS := l.vb.toNat, init := l.imm.getLsbD 0, fin := l.imm.getLsbD 1
    arena := c.op 0, list := c.op 1, seq := bitsOf w 16 16, tbl := bitOf w 13, causal := bitOf w 12, nl := bitsOf w 0 12 + 1
    cumt := c.op 3 % 2 ^ 56, kt := bitsOf (c.op 4) 16 16, ent := bitsOf (c.op 4) 0 16, sigma := fp32.value (bitsOf (c.op 5) 0 32) }

/-- Keys of a command's running values: LEN and WIN as read, the row count of its sequence, the sequence, the status,
whether the rows hold their starting values, the mass transactions that have ended, and the place of a NaN that stops the
command. -/
def kLen : Nat := 0
def kWin : Nat := 1
def kRows : Nat := 2
def kSeq : Nat := 3
def kStatus : Nat := 4
def kStarted : Nat := 5
def kMassed : Nat := 6
def kNanRow : Nat := 7
def kNanCol : Nat := 8

/-- Where the command keeps m (0), l (1) and O[j] (2 + j) of row r, and the mass held for a finished page. -/
def rowKey (r i : Nat) : Nat := 1024 + 512 * r + i
def massKey (i : Nat) : Nat := 2 ^ 24 + i

def Command.val (c : Command) (k : Nat) : Nat := (c.vals.get k).toNat

/-! ## The sequence transaction (R396, R397 step 1, R169) -/

/-- An entry of a cumulative-length table (R169). -/
structure CumEntry where
  cum : Nat
  seq : Nat
  resv : Nat
  deriving DecidableEq, Repr

/-- The entries up to the first with SEQ = 0xFFFF, at most `fuel`. -/
def readCum (va fuel : Nat) : Kv (List CumEntry) :=
  match fuel with
  | 0 => pure []
  | fuel + 1 => do
    let v := natOf (← readBytesAs {} va 8)
    let e : CumEntry := ⟨bitsOf v 0 32, bitsOf v 32 16, bitsOf v 48 16⟩
    if e.seq = 0xFFFF then pure [e]
    else
      let rest ← readCum (va + 8) fuel
      pure (e :: rest)

/-- The CUM values do not decrease. -/
def cumRises : List CumEntry → Bool
  | x :: y :: rest => decide (x.cum ≤ y.cum) && cumRises (y :: rest)
  | _ => true

/-- R169: the table as a whole. -/
def cumOk (es : List CumEntry) : Bool :=
  decide (2 ≤ es.length) && (es.getLast?.map (·.seq)) == some 0xFFFF && (es.head?.map (·.cum)) == some 0 && cumRises es
    && es.all fun e => e.resv == 0

/-- The sequence of the command's rows and their count (R396). -/
def rowsOf (x : AttnArgs) (q : Nat) : Kv (Nat × Nat) := do
  if !x.tbl then pure (x.seq, q)
  else
    let es ← readCum x.cumt 4097
    if !cumOk es || decide (es.length ≤ x.ent + 1) then kvBrec x.cumt
    let e := es.getD x.ent ⟨0, 0, 0⟩
    let n := (es.getD (x.ent + 1) ⟨0, 0, 0⟩).cum - e.cum
    if (n + q - 1) / q ≤ x.kt then kvBrec x.cumt
    pure (e.seq, n)

/-- What the sequence transaction finds: LEN, WIN, the rows' count and sequence, and whether it is live. -/
structure SeqFound where
  len : Nat
  win : Nat
  rows : Nat
  seq : Nat
  live : Bool

def attnSequence (x : AttnArgs) (tQ tO : Tile) : Kv SeqFound := do
  let a ← beginOn x.arena
  if tQ.cols ≠ a.d ∨ tO.cols ≠ a.d then kvBrec a.va
  let (seq, n) ← rowsOf x tQ.rows
  if a.seqmax < seq then pure ⟨0, 0, n, seq, false⟩
  else
    let r ← readSeq a seq
    if r.state ≠ 1 then pure ⟨r.len, r.win, n, seq, false⟩
    else
      if r.len < n then kvBrec (if x.tbl then x.cumt else a.seqVa seq)
      pure ⟨r.len, r.win, n, seq, true⟩

def State.attnBegin (s : State) (c : Command) (x : AttnArgs) : State :=
  s.cmdRun c 0 (attnSequence x (s.tile x.tQ) (s.tile x.tO)) fun s f =>
    s.modCmd c.id fun y =>
      let put (v : SMap 32) (k n : Nat) : SMap 32 := v.set k (BitVec.ofNat 32 n)
      let v := put (put (put (put y.vals kLen f.len) kWin f.win) kRows f.rows) kSeq f.seq
      if f.live then { y with phase := 1, vals := v } else { y with phase := 6, vals := put v kStatus stBadseq }

/-! ## Snapshots (R397 step 2) -/

/-- R397 step 2: entries 0 to `i` name the KVPTE of entry `i` more than 16 times. -/
def Command.namedTooOften (c : Command) (i k : Nat) : Bool :=
  decide (16 < ((List.range (i + 1)).filter fun j => (c.entry? j).map PageEntry.k == some k).length)

/-- The snapshot of the next list entry. After a pre-emption these are the pages that were not finished (R167). -/
def State.attnSnapshot (s : State) (c : Command) (x : AttnArgs) : State :=
  let i := c.val kMassed + c.pins.length
  s.atEntry c x.list i fun s c e =>
    s.cmdRun c i (do
        let a ← beginOn x.arena
        if c.namedTooOften i e.k then kvBrec (x.list % 2 ^ 56 + 8 * i)
        snapshot a e.k)
      fun s r => s.modCmd c.id fun y =>
        match r with
        | none => { y with phase := if y.pins.isEmpty then 6 else 3, vals := y.vals.set kStatus (BitVec.ofNat 32 stNopage) }
        | some m => { y with pins := y.pins ++ [pinOf m (y.val kSeq) e.page i], phase := if i + 1 = x.nl then 2 else 1 }

/-! ## Rows (R396, R398) -/

/-- Batch rows of the tile before row 0, with a table (R396). -/
def rowBase (x : AttnArgs) (q : Nat) : Nat := if x.tbl then x.kt * q else 0

/-- The unmasked rows of the query tile, each with its position P_r (R396). -/
def rowPositions (c : Command) (x : AttnArgs) (q : Nat) : List (Nat × Nat) :=
  let b := rowBase x q
  ((List.range q).filter fun r => decide (b + r < c.val kRows)).map fun r => (r, c.val kLen - c.val kRows + b + r)

/-- m, l and O of a row. -/
structure RowState where
  m : Val
  l : Val
  o : List Val

def negInf : Val := .inf true
def Val.isNegInf (v : Val) : Bool := v == .inf true

/-- The row as the command's record holds it. -/
def Command.row (c : Command) (r d : Nat) : RowState :=
  let at' (i : Nat) : Val := fp32.value (c.val (rowKey r i))
  { m := at' 0, l := at' 1, o := (List.range d).map fun j => at' (2 + j) }

/-- FP32 bits of a value that an FP32 step gave, or that an FP32 tile held. -/
def bitsF32 (v : Val) : BitVec 32 := BitVec.ofNat 32 (fp32.round rne false v).val

def keepRow (vals : SMap 32) (r : Nat) (x : RowState) : SMap 32 :=
  vals.setRange (rowKey r 0) ((x.m :: x.l :: x.o).map bitsF32)

/-- R398: the starting values of the rows. -/
def State.startRow (s : State) (x : AttnArgs) (d r : Nat) : RowState :=
  if x.init then { m := negInf, l := zeroVal false, o := List.replicate d (zeroVal false) }
  else
    let st := s.rowValues (s.tile x.tS) r
    { m := st.getD 0 (zeroVal false), l := st.getD 1 (zeroVal false), o := s.rowValues (s.tile x.tO) r }

/-! ## One page for one row (R199, R398) -/

/-- An FP32 step: its value, with its flags. -/
def stepOf (v : Fp Val) : Fp Val := stepValue v

def sub32 (a b : Val) : Fp Val := stepOf (sumVals false [a, b.negate])
def mul32 (a b : Val) : Fp Val := stepOf (mulVal a b)
def sum32 (vs : List Val) : Fp Val := stepOf (sumVals false vs)

/-- The library exponential, with the flags of R194. -/
def exp32 (x : Val) : Fp Val :=
  let r := libExp x
  { val := r.val, fl := { invalid := r.invalid, ovf := r.ovf, nan := r.val.isNan } }

/-- An exact sum of products, with the flags of its products and of the sum. -/
def dotExact (xs : List (Val × Val)) (start : List Val) : Fp Val :=
  let ps := xs.map fun p => mulVal p.1 p.2
  let t := sumVals false (start ++ ps.map (·.val))
  { val := t.val, fl := ps.foldl (fun (f : FpFlags) p => f.or p.fl) t.fl }

/-- s_t of R398. -/
def scoreOf (sigma : Val) (q k : List Val) : Fp Val :=
  let t := dotExact (q.zip k) []
  let p := mulVal sigma t.val
  stepOf { val := p.val, fl := t.fl.or p.fl }

/-- What one page does to one row: the row after it, q_t of its tokens (E4M3 codes), the flags, and the lowest column of
a NaN that was produced, if one was. -/
structure PageRow where
  row : RowState
  codes : List Nat
  fl : FpFlags
  nanCol : Option Nat

/-- R199: l and the q_t over the tokens that take part. -/
def takeTokens (m : Val) (l : Val) (ss : List Val) : Fp Val × List Nat :=
  match ss with
  | [] => ({ val := l }, [])
  | s :: rest =>
    let d := sub32 s m
    let p := exp32 d.val
    let q := e4m3.round rne true (match p.val with | .fin n a e => .fin n a (e + 8) | v => v)
    let qv : Val := match e4m3.value q.val with | .fin n a e => .fin n a (e - 8) | v => v
    let l' := sum32 [l, qv]
    let (r, cs) := takeTokens m l'.val rest
    ({ val := r.val, fl := (((d.fl.or p.fl).or q.fl).or l'.fl).or r.fl }, q.val :: cs)

/-- R199 and R398 for one row and the unmasked tokens of one page: token, key and value. -/
def pageRow (sigma : Val) (q : List Val) (toks : List (Nat × List Val × List Val)) (x : RowState) : PageRow :=
  if toks.isEmpty then { row := x, codes := [], fl := {}, nanCol := none }
  else
    let scores := toks.map fun t => (t, scoreOf sigma q t.2.1)
    let vs := scores.map fun s => s.2.val
    let mp := vs.tail.foldl (fun a b => minVal a b true) (vs.headD negInf)
    let mn := minVal x.m mp true
    let old := !x.m.isNegInf
    let diff := sub32 x.m mn
    let al := exp32 diff.val
    let l1 : Fp Val := if old then mul32 x.l al.val else { val := x.l }
    let o1 : List (Fp Val) := if old then x.o.map fun v => mul32 v al.val else x.o.map fun v => { val := v }
    let part := scores.filter fun s => !s.2.val.isNegInf
    let (l2, codes) := takeTokens mn l1.val (part.map fun s => s.2.val)
    let qs := codes.map fun k => match e4m3.value k with | .fin n a e => Val.fin n a (e - 8) | v => v
    let add := !mn.isNegInf && !part.isEmpty
    let o2 : List (Fp Val) := if add then o1.zipIdx.map fun (o, j) =>
        stepOf (dotExact ((qs.zip part).map fun p => (p.1, p.2.1.2.2.getD j (zeroVal false))) [o.val])
      else o1
    let some' (b : Bool) (f : FpFlags) : FpFlags := if b then f else {}
    let fl := (((scores.foldl (fun (f : FpFlags) s => f.or s.2.fl) {}).or (some' old (diff.fl.or al.fl))).or (l1.fl.or l2.fl)).or
      ((o1 ++ o2).foldl (fun (f : FpFlags) o => f.or o.fl) { nan := mn.isNan })
    let sCols := (scores.filter fun s => s.2.val.isNan).map fun s => s.1.1
    let oCols := (o2.zipIdx.filter fun o => o.1.val.isNan && (old || add)).map Prod.snd
    let cols := sCols ++ oCols
    { row := { m := mn, l := l2.val, o := o2.map (·.val) }, codes := codes, fl := fl
      nanCol := cols.foldl (fun b c => some (match b with | none => c | some x => min x c)) none }

/-- The unmasked tokens of a page for a row at position `p` (R396). -/
def rowTokens (x : AttnArgs) (win first p : Nat) (ks vs : List (List Val)) : List (Nat × List Val × List Val) :=
  ((ks.zip vs).zipIdx.map fun (kv, t) => (t, kv.1, kv.2)).filter fun y =>
    let u := first + y.1
    !((x.causal && decide (p < u)) || (win != 0 && decide (u + win ≤ p)))

/-- R162: 256 times the sum of the v_(r,t), floored; where a v is NaN the spec states no increment (DESIGN CHOICE, log entry 38). -/
def massInc (codes : List Nat) : Nat :=
  let vs := codes.map fun k => e4m3.value k
  if vs.any Val.isNan then (Config.unstated 3 codes).toNat % 2 ^ 32
  else (vs.foldl (fun a v => a + (v.scaled (-9)).toNat) 0) / 2

/-! ## The page and its mass transaction (R397 steps 3 to 5) -/

/-- The rows' results for the page of a pin. -/
def State.pageRows (s : State) (c : Command) (x : AttnArgs) (t d first : Nat) (ks vs : List (List Val)) : List (Nat × PageRow) :=
  let tQ := s.tile x.tQ
  let q := s.queryRows tQ
  (rowPositions c x tQ.rows).map fun (r, p) =>
    let row := if c.val kStarted = 0 then s.startRow x d r else c.row r d
    (r, pageRow x.sigma (q.getD r []) (rowTokens x (c.val kWin) (first * t) p ks vs) row)

/-- The lowest (row, column) of a NaN among the results of a page; the column of one in m or l alone is not stated: it is free,
by the bits of the row's m and l (DESIGN CHOICE, log entry 38). -/
def nanPlace (rs : List (Nat × PageRow)) : Option (Nat × Nat) :=
  (rs.find? fun r => r.2.fl.nan).map fun r =>
    (r.1, r.2.nanCol.getD ((Config.unstated 2 [r.1, (bitsF32 r.2.row.m).toNat, (bitsF32 r.2.row.l).toNat]).toNat % 512))

/-- The tile rows that the computation of a page reads: the query, and with the first page the rows' starting values. -/
def State.attnPoison (s : State) (c : Command) (x : AttnArgs) (rows : List Nat) : Option Trap :=
  (s.queryPoison (s.tile x.tQ) rows).orElse fun _ =>
    if c.val kStarted = 0 && !x.init then
      (s.tilePoison (s.tile x.tS) rows [0, 1]).orElse fun _ => s.tilePoison (s.tile x.tO) rows (List.range (s.tile x.tO).cols)
    else none

/-- R397 step 4: the next page, from the slot and the format of its snapshot. -/
def State.attnPage (s : State) (c : Command) (x : AttnArgs) (p : Pin) : State :=
  let tQ := s.tile x.tQ
  let rows := (rowPositions c x tQ.rows).map Prod.fst
  match s.attnPoison c x rows with
  | some t => s.engineStop c t c.pos
  | none =>
    let e := p.snap
    s.cmdRun c c.pos (do
        let a ← openArena x.arena
        let ks ← slotRows a e.slot e.fmt e.scl 0 (List.range e.ntok)
        let vs ← slotRows a e.slot e.fmt e.scl 1 (List.range e.ntok)
        pure (s.pageRows c x a.t a.d p.page ks vs))
      fun s rs =>
        match c.nanTrap, nanPlace rs with
        | true, some (r, col) => s.modCmd c.id fun y => { y with
            phase := 8, vals := (y.vals.set kNanRow (BitVec.ofNat 32 r)).set kNanCol (BitVec.ofNat 32 col) }
        | _, _ =>
          let fl := rs.foldl (fun (f : FpFlags) r => f.or r.2.fl) { s.queryFlags tQ rows with nan := false }
          let inc := massInc (rs.flatMap fun r => r.2.codes)
          (s.cmdFlags c fl).modCmd c.id fun y => { y with
            pos := y.pos + 1, phase := if y.pos + 1 = x.nl then 7 else 2
            vals := ((rs.foldl (fun v r => keepRow v r.1 r.2.row) y.vals).set kStarted 1).set (massKey y.pos) (BitVec.ofNat 32 (min inc 0xFFFFFFFF)) }

/-- R397 step 5: the mass transaction of the next entry, which drops its pin; before the page of a NaN the command stops
instead (R399). -/
def State.attnMass (s : State) (c : Command) (x : AttnArgs) : State :=
  let i := c.val kMassed
  if c.phase = 8 && i = c.pos then
    (s.modCmd c.id fun y => { y with phase := 2 }).engineStop c (nanTrapOf c c.pos (c.val kNanRow) (c.val kNanCol)) c.pos
  else match c.pins with
    | [] => s
    | p :: rest =>
      s.cmdRun c i (do
          let a ← beginOn x.arena
          massAndUnpin a p.kvpte (c.val (massKey i)))
        fun s _ => s.modCmd c.id fun y => { y with
          pins := rest, vals := y.vals.set kMassed (BitVec.ofNat 32 (i + 1)), phase := if y.phase = 7 ∧ i + 1 = x.nl then 4 else y.phase }

/-! ## Output (R398, R399) -/

/-- The exact values of a row's output, with their flags (FIN = 1), and the columns where a NaN is produced. -/
def finalRow (tO : Tile) (sat : Bool) (x : RowState) : List Val × FpFlags × List Nat :=
  let rs := x.o.map fun o =>
    if x.l.isZero && !x.l.neg? then (zeroVal false, ({} : FpFlags))
    else
      let r := libDiv o x.l
      (r.val, { invalid := r.invalid, ovf := r.ovf, nan := r.val.isNan })
  let bad := (rs.zipIdx.filter fun r => r.1.2.nan || (!isScaled tO.fmt && !isIntFmt tO.fmt && ((tileFmt tO.fmt).round rne sat r.1.1).fl.nan)).map Prod.snd
  (rs.map Prod.fst, rs.foldl (fun (f : FpFlags) r => f.or r.2) {}, bad)

/-- One row of the output and of the state tile, as R367 writes rows. -/
def State.attnWrites (s : State) (c : Command) (x : AttnArgs) (d r : Nat) : (RowWrite × Fp RowWrite) × Option (Nat × Nat) :=
  let row := c.row r d
  let tO := s.tile x.tO
  let st : RowWrite := ⟨r, [(0, (bitsF32 row.m).toNat), (1, (bitsF32 row.l).toNat)], []⟩
  if x.fin then
    let sat := tO.fmt == 3
    let (vs, fl, bad) := finalRow tO sat row
    let w := rowWrite tO r 0 (fun _ => rne) sat false vs
    ((st, { val := w.val, fl := w.fl.or fl }), bad.head?.map fun j => (r, j))
  else ((st, { val := ⟨r, row.o.zipIdx.map fun (v, j) => (j, (bitsF32 v).toNat), []⟩ }), none)

/-- R398's end: the rows of tS and tO are written; a NaN of the final division that must trap stops the command first. -/
def State.attnOutput (s : State) (c : Command) (x : AttnArgs) : State :=
  let tQ := s.tile x.tQ
  let d := (s.tile x.tO).cols
  let ws := (rowPositions c x tQ.rows).map fun r => s.attnWrites c x d r.1
  match c.nanTrap, ws.findSome? fun w => w.2 with
  | true, some (r, col) => s.engineStop c (nanTrapOf c x.nl r col) x.nl
  | _, _ =>
    let s := ws.foldl (fun s w => (s.writeRow x.tS w.1.1).writeRow x.tO w.1.2.val) s
    s.cmdFlags c (ws.foldl (fun (f : FpFlags) w => f.or w.1.2.fl) {})

/-- R171: the page that the window release reaches, where one is due. -/
def releaseDue (c : Command) (t : Nat) : Option Nat :=
  let x := c.val kLen - c.val kRows + 1
  if c.val kWin ≠ 0 ∧ c.val kWin < x then some ((x - c.val kWin) / t) else none

/-- R400: the result word. -/
def Command.attnWord (c : Command) : Nat := c.val kStatus + place (if c.val kStatus = 0 then c.pos else 0) 16 16 + place (c.val kLen) 32 32

/-- ATTN_COMPLETE (R397): the next page's computation; the output; with no window release left, the result word and the
timeline. -/
def execAttnComplete (id : CmdId) (s : State) : Host.Outcome State Fault Refusal :=
  cmdEvent id (fun c s =>
    match c.instr with
    | .attn l =>
      let x := attnArgs c l
      if c.phase = 2 then
        match c.pins[c.pos - c.val kMassed]? with
        | some p => s.attnPage c x p
        | none => s
      else if c.phase = 4 then
        let s := s.attnOutput c x
        match s.runnable id with
        | none => s
        | some c => if (releaseDue c 1).isSome then s.modCmd id fun y => { y with phase := 5 } else s.giveResult c c.attnWord
      else if c.phase = 6 then s.giveResult c c.attnWord
      else s
    | _ => s) s

/-- KV_MASS_TRANSACTION (R162): the mass of the next list entry is added and its pin dropped. -/
def execKvMassTransaction (id : CmdId) (s : State) : Host.Outcome State Fault Refusal :=
  cmdEvent id (fun c s =>
    match c.instr with
    | .attn l => if c.phase = 7 || c.phase = 8 then s.attnMass c (attnArgs c l) else s
    | _ => s) s

/-- KV_WINDOW_RELEASE (R171): a prefix release of a sequence that is still live. -/
def execKvWindowRelease (id : CmdId) (s : State) : Host.Outcome State Fault Refusal :=
  cmdEvent id (fun c s =>
    match c.instr, c.phase with
    | .attn l, 5 =>
      s.cmdRun c c.pos (do
          let a ← beginOn (attnArgs c l).arena
          match releaseDue c a.t with
          | some q =>
            let _ ← releasePrefix a (c.val kSeq) q
            pure ()
          | none => pure ())
        fun s _ => s.modCmd c.id fun y => { y with phase := 6 }
    | _, _ => s) s

/-! ## Events that several instructions share -/

/-- A snapshot of a command. -/
def State.cmdSnapshot (s : State) (c : Command) : State :=
  match c.instr with
  | .attn l => if c.phase = 0 then s.attnBegin c (attnArgs c l) else if c.phase = 1 then s.attnSnapshot c (attnArgs c l) else s
  | .asel l => if c.phase = 0 then s.selSnapshot c (s.tile l.va.toNat) else s
  | .asumu _ => if c.phase = 0 then s.sumSnapshot c else s
  | .kvdem _ => if c.phase = 0 then s.demSnapshot c else s
  | .kvsweep _ => if c.phase = 2 then s.demSnapshot c else s
  | _ => s

/-- KV_SNAPSHOT (R167): for a parked KVPIN, or the next snapshot of a command; ATTN's first reads its sequence. -/
def execKvSnapshot (q : Requester) (s : State) : Host.Outcome State Fault Refusal :=
  match q with
  | .path g slot => resumePin g slot s
  | .cmd id => cmdEvent id (fun c s => s.cmdSnapshot c) s

/-- KV_UNPIN_TRANSACTION (R408): for a parked KVUNPIN, or one pin of a command that drops its pins. -/
def execKvUnpinTransaction (q : Requester) (s : State) : Host.Outcome State Fault Refusal :=
  match q with
  | .path g slot => resumeUnpin g slot s
  | .cmd id => cmdEvent id (fun c s =>
      match c.instr with
      | .attn _ => if c.phase = 3 then s.cmdUnpin c 6 else s
      | .asel _ => if c.phase = 2 then s.cmdUnpin c 3 else s
      | _ => s) s

end Sys2Proof.Machine
end

