-- ==== Sys2Proof/Machine/Matrix.lean ====
section
/-! DEFINITION. Operand slots, matrix multiplication and accumulators (spec/14 R375 to R384; spec/03 R80 to R82;
spec/07 R189, R203, R205). -/

namespace Sys2Proof.Machine

/-! ## Slots (R80, R81, R376) -/

/-- R80: a slot number that is not granted raises PROT/WINDOW. -/
def checkSlot (active : Word32) (n : Nat) : Act Unit := do
  let s ← get
  if s.w.nslots ≤ n ∨ 15 < n then trapAt protWindow 0 (s.faultLanes active) n else pure ()

def checkSlots (active : Word32) (ns : List Nat) : Act Unit :=
  match ns with
  | [] => pure ()
  | n :: rest => do
    checkSlot active n
    checkSlots active rest

/-- R81: a slot that the issuing group does not hold raises PROT/WINDOW. -/
def checkHeld (active : Word32) (ns : List Nat) : Act Unit := do
  let s ← get
  match ns.find? fun n => s.w.claim n != .held s.g.id.j with
  | some n => trapAt protWindow 0 active n
  | none => pure ()

def Workgroup.takeRun (w : Workgroup) (j first count : Nat) : Workgroup :=
  { w with claims := (List.range w.claims.length).map fun i => if first ≤ i ∧ i < first + count then .held j else w.claim i }

/-- Two runs share a slot. -/
def runsMeet (a n b m : Nat) : Bool := decide (a < b + m) && decide (b < a + n)

/-- The waiting MCLAIMs of the current workgroup: their group, key and run. -/
def State.claimers (s : State) : List (Group × Key × Nat × Nat) :=
  (s.groups.filter fun g => wgOf g.id == s.w.id).flatMap fun g =>
    [g.slot0, g.slot1].filterMap fun p =>
      match p.bind (·.wait) with
      | some w => (match w.on with
        | .claim f n => p.map fun p => (g, ⟨p.clock.toNat, g.gidx, lowLane p.mask, 0⟩, f, n)
        | _ => none)
      | none => none

/-- A waiting MCLAIM is served before another: in ascending key order in deterministic mode (R230), in the order of logical
group indices otherwise (R376). -/
def State.servedBefore (s : State) (a b : Key) : Bool := if s.g.det then a.lt b else decide (a.g < b.g)

/-- A waiting MCLAIM that is served before the current path's could take a run that meets this one (R376); one that has not
waited yet comes after every waiting one outside deterministic mode. -/
def State.claimBefore (s : State) (waited : Bool) (first count : Nat) : Bool :=
  s.claimers.any fun (g, k, f, n) =>
    ((!waited && !s.g.det) || s.servedBefore k s.key) && s.w.runFree g.id.j f n && runsMeet first count f n

def mclaim (l : Lane) : Act Unit := do
  let (active, mark) ← laneStart l
  let first := l.vd.toNat
  let n := l.imm.toNat % 16 + 1
  checkSlots active ((List.range n).map (first + ·))
  if active = 0 then retire 3
  else
    let s ← get
    let mine := (List.range n).all fun i => s.w.claim (first + i) == .held s.g.id.j
    if mine ∨ (s.w.runFree s.g.id.j first n ∧ !s.claimBefore false first n) then
      modify fun s => { s with w := s.w.takeRun s.g.id.j first n }
      retire 3
    else throw (.park { instr := .mclaim l, words := 3, on := .claim first n, vals := [], mark := mark })

/-- MCLAIM (R376). -/
def execMclaim (l : Lane) (s : State) : Host.Outcome State Fault Refusal := Act.outcome (mclaim l) s

/-- MCLAIM_GRANT (R376, R230): the first waiting group in order whose run is available takes it in one step. -/
def execMclaimGrant (g : GroupId) (slot : Bool) (s : State) : Host.Outcome State Fault Refusal :=
  .next (s.withGroup g slot fun s =>
    match s.path.wait with
    | some w =>
      match w.on with
      | .claim first n =>
        if s.g.stop != .stopped && s.w.runFree s.g.id.j first n && !s.claimBefore true first n then
          (Act.state (retireWait w.words) { s with w := s.w.takeRun s.g.id.j first n }).noteClaims
        else s
      | _ => s
    | none => s)

/-- Table 3-7: the group releases the slots of a run. -/
def Workgroup.releaseRun (w : Workgroup) (j first count : Nat) : Workgroup :=
  { w with claims := (List.range w.claims.length).map fun i =>
      if first ≤ i ∧ i < first + count then releaseClaim j (w.claim i, (w.slotOps[i]?).getD 0) else w.claim i }

def mrel (l : Lane) : Act Unit := do
  let (active, _) ← laneStart l
  let first := l.vd.toNat
  let n := l.imm.toNat % 16 + 1
  checkSlots active ((List.range n).map (first + ·))
  if active = 0 then retire 3
  else
    checkHeld active ((List.range n).map (first + ·))
    modify fun s => ({ s with w := s.w.releaseRun s.g.id.j first n } : State).noteClaims
    retire 3

/-- MREL (R376). -/
def execMrel (l : Lane) (s : State) : Host.Outcome State Fault Refusal := Act.outcome (mrel l) s

/-- An operation is recorded as pending on slots (Table 3-7). -/
def Workgroup.beginOps (w : Workgroup) (ns : List Nat) : Workgroup :=
  { w with slotOps := (List.range w.slotOps.length).map fun i => (w.slotOps[i]?).getD 0 + if ns.contains i then 1 else 0 }

/-- An operation on slots retires: a release-deferred slot with none left frees (Table 3-7). -/
def Workgroup.endOps (w : Workgroup) (ns : List Nat) : Workgroup :=
  let ops := (List.range w.slotOps.length).map fun i => (w.slotOps[i]?).getD 0 - if ns.contains i then 1 else 0
  { w with slotOps := ops, claims := (List.range w.claims.length).map fun i =>
      if w.claim i == .deferred && (ops[i]?).getD 0 == 0 then .free else w.claim i }

/-! ## Commands that hold slots and accumulators -/

/-- The slots that a command in flight reads or writes: an MFILL's run, or every slot of the images that a matrix command
reads. -/
def cmdSlots (c : Command) : List Nat :=
  match c.instr with
  | .mfill _ => (List.range ((c.ops.getD 2 0).toNat)).map fun i => (c.ops.getD 1 0).toNat + i
  | .mma _ => (c.ops.drop 1).map (·.toNat)
  | .mmasp _ => (c.ops.drop 1).map (·.toNat)
  | _ => []

/-- The accumulator that a command in flight writes. -/
def cmdAcc (c : Command) : Option Nat :=
  match c.instr with
  | .mma l => some l.vd.toNat
  | .mmasp l => some l.vd.toNat
  | _ => none

/-- R82: an instruction that names an accumulator waits for its earlier writes. -/
def waitAcc (a : Nat) : Act Unit := do
  let s ← get
  if s.w.cmds.any fun c => !c.finished && cmdAcc c == some a then stall else pure ()

/-- R378: an instruction that reads slots waits for the MFILLs that write them. -/
def waitFills (ns : List Nat) : Act Unit := do
  let s ← get
  if s.w.cmds.any fun c => !c.finished && (match c.instr with | .mfill _ => true | _ => false) && (cmdSlots c).any ns.contains then stall
  else pure ()

/-- The commands of its workgroup that issued before a command. -/
def State.earlier (s : State) (c : Command) : List Command :=
  ((s.wg? c.id.wg).map fun w => w.cmds.takeWhile fun x => x.id != c.id).getD []

/-! ## Operand images (R375, R377) -/

/-- The bytes of an image (R375). -/
def imageBytes (fmt rows cols : Nat) : Nat := ((cols + 31) / 32) * rows * (4 * tileWidth fmt + if isScaled fmt then 1 else 0)

/-- The slots that an image fills. -/
def imageSlots (fmt rows cols : Nat) : Nat := (imageBytes fmt rows cols + 16383) / 16384

def Image.slots (im : Image) : Nat := imageSlots im.fmt im.rows im.cols

def SlotCopy.head? (c : SlotCopy) (slot : Nat) : Option Image := (c.heads.find? fun h => h.1 == slot).map Prod.snd

def elemKey (slot row col : Nat) : Nat := (slot * 128 + row) * 4096 + col
def scaleKey (slot row block : Nat) : Nat := (slot * 128 + row) * 128 + block

/-- The copies that DEST selects: false for the leader's, true for the follower's (R377). -/
def destCopies (dest : Nat) (pair : Bool) : List Bool :=
  if dest = 1 then [false] else if dest = 2 then [true] else if pair then [false, true] else [false]

def Workgroup.copy (w : Workgroup) (follower : Bool) : SlotCopy := if follower then w.slotsF else w.slots
def Workgroup.setCopy (w : Workgroup) (follower : Bool) (c : SlotCopy) : Workgroup :=
  if follower then { w with slotsF := c } else { w with slots := c }

/-- The columns of an image after a fill of a tile at ICOL (R377). -/
def fillCols (old : Option Image) (new : Bool) (icol cols : Nat) : Nat :=
  match old with
  | some im => if new then icol + cols else max im.cols (icol + cols)
  | none => icol + cols

/-- R377: the header that a fill with NEW = 0 needs. -/
def headFits (t : Tile) (im : Option Image) : Bool :=
  match im with
  | some im => im.fmt == t.fmt && im.scl == t.scl && im.dom == t.dom && im.rows == t.rows
  | none => false

/-- R377: a tile is copied into the image of one copy of a slot. An image that another one overlaps is torn; one
whose first slot a fill with NEW covers has lost its header (R375). -/
def State.fillCopy (s : State) (t : Tile) (slot icol : Nat) (new : Bool) (c : SlotCopy) : SlotCopy :=
  let old := c.head? slot
  let cols := fillCols old new icol t.cols
  let live (k : Nat) : Bool := t.alive k
  let count := imageSlots t.fmt t.rows cols
  let surv := if new then t.surv else t.surv ||| ((old.map (·.surv)).getD 0)
  let torn := if new then false else (old.map (·.torn)).getD false
  let whole := if torn then (icol, t.cols) :: (old.map (·.whole)).getD [] else []
  let others := (c.heads.filter fun h => h.1 != slot && !(new && decide (slot < h.1) && decide (h.1 < slot + count))).map fun h =>
    if runsMeet h.1 h.2.slots slot count then (h.1, { h.2 with torn := true, whole := [] }) else h
  let elems := if new then c.elems.clear (elemKey slot 0 0) (elemKey (slot + 1) 0 0) else c.elems
  let scales := if new then c.scales.clear (scaleKey slot 0 0) (scaleKey (slot + 1) 0 0) else c.scales
  let codes (k : Nat) : List Nat := if live k then s.rowCodes t k else List.replicate t.cols 0
  let scl (k : Nat) : List Nat := if isScaled t.fmt then (if live k then s.rowScales t k else List.replicate t.blocks (zeroScale t.scl)) else []
  { heads := sortBy (fun a b => decide (a.1 ≤ b.1))
      ((slot, { fmt := t.fmt, scl := t.scl, dom := t.dom, rows := t.rows, cols := cols, surv := surv, torn := torn, whole := whole }) :: others)
    elems := (List.range t.rows).foldl (fun m k => m.setRange (elemKey slot k icol) ((codes k).map fun x => BitVec.ofNat 16 x)) elems
    scales := (List.range t.rows).foldl (fun m k => m.setRange (scaleKey slot k (icol / 32)) ((scl k).map fun x => BitVec.ofNat 9 (x + 1))) scales }

/-- Soft errors of elements that a fill replaces go. -/
def State.fillSoft (s : State) (slot rows icol cols : Nat) (new : Bool) (copies : List Bool) : State :=
  if s.soft.isEmpty then s
  else { s with soft := s.soft.filter fun t =>
      match t with
      | .operand w f sl r c => !(w == s.w.id && copies.contains f && sl == slot && (new || (decide (r < rows) && decide (icol ≤ c) && decide (c < icol + cols))))
      | _ => true }

def mfill (l : Lane) : Act Unit := do
  let (active, mark) ← laneStart l
  let slot := l.vd.toNat
  let new := l.imm.getLsbD 0
  let dest := l.imm.toNat / 2 % 4
  checkSlot active slot
  checkTile active l.va
  if active = 0 then retireWork 3
  else
    let t ← useTile active l.va
    waitFills [slot]
    checkHeld active [slot]
    let w ← readS (sregOf l.vb)
    let icol := bitsOf w.toNat 0 12
    let s ← get
    if icol % 32 ≠ 0 ∨ (dest ≠ 0 ∧ !s.w.pair) then badRecord active
    let copies := destCopies dest s.w.pair
    if !new && copies.any (fun f => !headFits t ((s.w.copy f).head? slot)) then badRecord active
    let cols := copies.foldl (fun m f => max m (fillCols ((s.w.copy f).head? slot) new icol t.cols)) 0
    if 4096 < cols then badRecord active
    let count := imageSlots t.fmt t.rows cols
    checkSlots active ((List.range count).map (slot + ·))
    checkHeld active ((List.range count).map (slot + ·))
    waitFills ((List.range count).map (slot + ·))
    modify fun s => { s with w := s.w.beginOps ((List.range count).map (slot + ·)) }
    let _ ← issueCommand .tileOp (.mfill l) active mark
      { ops := [BitVec.ofNat 64 icol, BitVec.ofNat 64 slot, BitVec.ofNat 64 count], tiles := [(l.va.toNat, false)] }
    retireWork 3

/-- MFILL (R377): it issues; MATRIX_OPERATION_RETIRE copies the tile. -/
def execMfill (l : Lane) (s : State) : Host.Outcome State Fault Refusal := Act.outcome (mfill l) s

/-- Table 7-11: an element read as zero is logged. COL has 9 bits: a column at or above 512 is logged modulo 512, and SLOT is the
image's first slot, whichever of its slots holds the element (DESIGN CHOICE, log entry 79). -/
def logEcc (v : Word64) (slot row col : Nat) : Word64 :=
  let n := v.toNat
  let count := place (bitsOf n 32 16 + 1) 32 16
  if v.msb then BitVec.ofNat 64 (n - bitsOf n 32 16 * 2 ^ 32 + count)
  else BitVec.ofNat 64 (2 ^ 63 + count + place slot 16 4 + place row 9 7 + col % 512)

/-- R205: uncorrectable elements that an operation reads on one core set ECCZ and are logged in its ECCLOG. -/
def State.logElems (s : State) (follower : Bool) (es : List (Nat × Nat × Nat)) : State :=
  if es.isEmpty then s
  else
    let core := s.core s.w.die (s.w.core + if follower then 1 else 0)
    ({ s with g := { s.g with fpstat := setBit s.g.fpstat 3 true } } : State).setCore
      { core with eccLog := es.foldl (fun v e => logEcc v e.1 e.2.1 e.2.2) core.eccLog }

/-- The elements of a tile that an uncorrectable byte reaches: their own bytes, or their block's scale. -/
def State.softCells (s : State) (t : Tile) : List (Nat × Nat) :=
  if s.soft.isEmpty && s.carried.isEmpty then []
  else (List.range t.rows).flatMap fun k => ((List.range t.cols).filter fun c => (s.rowSoft t k [c]).isSome).map fun c => (k, c)

/-- The copy of a fill in flight, by its workgroup (R377). An element with an uncorrectable byte is stored as uncorrectable,
sets ECCZ and is logged, on the leader, whose scratchpad holds the tile (R459, R205). -/
def State.fill (s : State) (l : Lane) (c : Command) : State :=
  let t := s.tile l.va.toNat
  let icol := (c.ops.getD 0 0).toNat
  let slot := l.vd.toNat
  let new := l.imm.getLsbD 0
  let copies := destCopies (l.imm.toNat / 2 % 4) s.w.pair
  let w := copies.foldl (fun (w : Workgroup) f => w.setCopy f (s.fillCopy t slot icol new (w.copy f))) s.w
  let bad := (s.softCells t).map fun x => (x.1, icol + x.2)
  let s := ({ s with w := w.endOps (cmdSlots c) } : State).fillSoft slot t.rows icol t.cols new copies
  let s := { s with soft := s.soft ++ copies.flatMap fun f => bad.map fun (x : Nat × Nat) => PoisonTarget.operand s.w.id f slot x.1 x.2 }
  s.logElems false (bad.map fun x => (slot, x))

/-- MATRIX_OPERATION_RETIRE (R374, R378): an MFILL copies its tile once the earlier MMAs of its slots have read them; an
HREC or a MACCRD gives its tile back. -/
def execMatrixOperationRetire (c : CmdId) (s : State) : Host.Outcome State Fault Refusal :=
  .next (match s.runnable c with
    | none => s
    | some x =>
      if c.ctx != .tileOp then s
      else match x.instr with
        | .mfill l =>
          if (s.earlier x).any fun y => !y.finished && (cmdSlots y).any (cmdSlots x).contains then s
          else (s.inCommand x fun s => s.fill l x).finish x 0
        | _ => s.finish x 0)

/-! ## Matrix multiplication (R379 to R381, R189) -/

/-- M, N and K from S[VC] (R379). -/
def dimsOf (w : Word64) : Nat × Nat × Nat := (bitsOf w.toNat 0 7 + 1, bitsOf w.toNat 8 8 + 1, bitsOf w.toNat 16 12 + 1)

/-- Ns of a density code (R381). -/
def densityOf (code : Nat) : Nat :=
  match code with
  | 0 => 8
  | 1 => 16
  | 2 => 32
  | _ => 48

/-- What a matrix command multiplies. -/
structure MatArgs where
  acc : Nat
  a : Nat
  b : Nat
  /-- the index slot and Ns of MMASP -/
  ix : Option (Nat × Nat)
  m : Nat
  n : Nat
  k : Nat
  deriving DecidableEq, Repr

def matArgs (i : Instr) (dims : Word64) : MatArgs :=
  let (m, n, k) := dimsOf dims
  match i with
  | .mmasp l => ⟨l.vd.toNat, l.va.toNat, l.vb.toNat, some (l.imm.toNat % 16, densityOf (l.imm.toNat / 16 % 4)), m, n, k⟩
  | .mma l => ⟨l.vd.toNat, l.va.toNat, l.vb.toNat, none, m, n, k⟩
  | _ => ⟨0, 0, 0, none, m, n, k⟩

/-- One core's part: its copy, the first result column and the number of columns (R379). -/
structure Part where
  follower : Bool
  first : Nat
  cols : Nat
  deriving DecidableEq, Repr

def MatArgs.parts (x : MatArgs) : List Part :=
  ⟨false, 0, min x.n 128⟩ :: if 128 < x.n then [⟨true, 128, x.n - 128⟩] else []

/-- An element carries an uncorrectable soft error and reads as +0 (R205). -/
def State.softElem (s : State) (f : Bool) (slot row col : Nat) : Bool := !s.soft.isEmpty && s.isSoft (.operand s.w.id f slot row col)

/-- A column of a torn image that has not been filled since. -/
def Image.lost (im : Image) (col : Nat) : Bool := im.torn && !(im.whole.any fun w => decide (w.1 ≤ col) && decide (col < w.1 + w.2))

/-- The bits of an image's element; those that tearing has left open are free (DESIGN CHOICE, log entry 20). -/
def State.elemBits (s : State) (f : Bool) (slot : Nat) (im : Image) (row col : Nat) : Nat :=
  if s.softElem f slot row col then 0
  else if im.lost col then (Config.tornOperand (s.w.copy f).elems (elemKey slot row col)).toNat % 2 ^ tileWidth im.fmt
  else ((s.w.copy f).elems.get (elemKey slot row col)).toNat % 2 ^ tileWidth im.fmt

/-- The scale of an image's block; one never written is the zero block's. -/
def State.elemScale (s : State) (f : Bool) (slot : Nat) (im : Image) (row block : Nat) : Nat :=
  if im.lost (32 * block) then (Config.tornOperand (s.w.copy f).elems (2 ^ 40 + scaleKey slot row block)).toNat % 256
  else
    let v := ((s.w.copy f).scales.get (scaleKey slot row block)).toNat
    if v = 0 then zeroScale im.scl else (v - 1) % 256

/-- The exact value of an image's element (R186); a dead row reads as zero (R75). -/
def State.elemVal (s : State) (f : Bool) (slot : Nat) (im : Image) (row col : Nat) : Val :=
  if !im.surv.getLsbD row || s.softElem f slot row col then zeroVal false
  else
    let x := s.elemBits f slot im row col
    if isIntFmt im.fmt then valOfInt (signedOf (tileWidth im.fmt) x)
    else codeValue im.fmt im.scl (if isScaled im.fmt then s.elemScale f slot im row (col / 32) else 0) x

/-- An entry of an index image, as a number (R381). -/
def State.indexOf (s : State) (f : Bool) (slot : Nat) (im : Image) (row col : Nat) : Int :=
  if im.surv.getLsbD row then signedOf 8 (s.elemBits f slot im row col) else 0

/-- Strictly ascending values from 0 to 63. -/
def ascending (lo : Int) : List Int → Bool
  | [] => true
  | x :: rest => decide (lo ≤ x) && decide (x ≤ 63) && ascending (x + 1) rest

/-- R381: what MMASP's index image must be on one part. -/
def State.indexOk (s : State) (x : MatArgs) (p : Part) (rows : Nat) (slot ns : Nat) : Bool :=
  match (s.w.copy p.follower).head? slot with
  | none => false
  | some im =>
    im.fmt == 8 && im.rows == rows && decide (x.k * ns / 64 ≤ im.cols)
      && (List.range p.cols).all fun r => (List.range (x.k / 64)).all fun g =>
        ascending 0 ((List.range ns).map fun i => s.indexOf p.follower slot im r (g * ns + i))

/-- R379, R381: what MMA and MMASP need of the images of one part. -/
def State.partOk (s : State) (x : MatArgs) (p : Part) : Bool :=
  let copy := s.w.copy p.follower
  match copy.head? x.a, copy.head? x.b with
  | some a, some b =>
    let acc := (s.w.accHeads[x.acc]?).getD ⟨0, 0⟩
    decide (x.m ≤ a.rows) && decide (x.k ≤ a.cols) && decide (p.cols ≤ b.rows) && a.fmt != 2 && b.fmt != 2
      && isIntFmt a.fmt == isIntFmt b.fmt && b.dom == 0 && (acc.surv == 0 || acc.dom == a.dom)
      && match x.ix with
        | none => decide (x.k ≤ b.cols)
        | some (slot, ns) => x.k % 64 == 0 && decide (x.k * ns / 64 ≤ b.cols) && s.indexOk x p b.rows slot ns
  | _, _ => false

/-- The slots of the image that starts at a slot. -/
def SlotCopy.run (c : SlotCopy) (slot : Nat) : List Nat :=
  match c.head? slot with
  | some im => (List.range (max 1 im.slots)).map (slot + ·)
  | none => [slot]

/-- Every slot of the images that a matrix command reads, on the cores that take part. -/
def State.imageRuns (s : State) (x : MatArgs) (slots : List Nat) : List Nat :=
  (x.parts.flatMap fun p => slots.flatMap (s.w.copy p.follower).run).dedup

/-- MMA and MMASP at issue (R379, R381): pending on every slot of the images they read (R81, R378). -/
def matIssue (i : Instr) (l : Lane) (slots : List Nat) : Act Unit := do
  let (active, mark) ← laneStart l
  checkSlots active slots
  if active = 0 then retireWork 3
  else
    waitAcc l.vd.toNat
    waitFills slots
    checkHeld active slots
    let w ← readS (sregOf l.vc)
    let x := matArgs i w
    let s ← get
    if (128 < x.n ∧ !s.w.pair) ∨ !(x.parts.all fun p => s.partOk x p) then badRecord active
    let runs := s.imageRuns x slots
    waitFills runs
    awaitPerformed
    modify fun s => { s with w := s.w.beginOps runs }
    let _ ← issueCommand .mpair i active mark { ops := w :: runs.map (BitVec.ofNat 64) }
    retireWork 3

/-- MMA (R379, R380). -/
def execMma (l : Lane) (s : State) : Host.Outcome State Fault Refusal :=
  Act.outcome (matIssue (.mma l) l [l.va.toNat, l.vb.toNat]) s

/-- MMASP (R381). -/
def execMmasp (l : Lane) (s : State) : Host.Outcome State Fault Refusal :=
  Act.outcome (matIssue (.mmasp l) l [l.va.toNat, l.vb.toNat, l.imm.toNat % 16]) s

/-- B's element for result column n of a part at position k; none where MMASP has pruned it (R381). -/
def State.bElem (s : State) (x : MatArgs) (p : Part) (b : Image) (n k : Nat) : Option Val :=
  match x.ix with
  | none => some (s.elemVal p.follower x.b b n k)
  | some (slot, ns) =>
    match (s.w.copy p.follower).head? slot with
    | none => none
    | some im =>
      let g := k / 64
      ((List.range ns).find? fun i => s.indexOf p.follower slot im n (g * ns + i) == ((k % 64 : Nat) : Int)).map
        fun i => s.elemVal p.follower x.b b n (g * ns + i)

/-- R189: the exact sum of a chunk's products. -/
def chunkSum (ints : Bool) (terms : List (Val × Option Val)) : Fp Val :=
  if ints then
    { val := valOfInt (terms.foldl (fun s t => s + intOf t.1 * ((t.2.map intOf).getD 0)) 0) }
  else
    let ps := terms.map fun t => match t.2 with
      | some v => mulVal t.1 v
      | none => ({ val := zeroVal false } : Fp Val)
    let t := sumVals false (ps.map (·.val))
    { val := t.val, fl := (flagsOf ps).or t.fl }

def accKey (a row col : Nat) : Nat := (128 * a + row) * 256 + col

def Workgroup.accHead (w : Workgroup) (a : Nat) : AccHead := (w.accHeads[a]?).getD ⟨0, 0⟩
def Workgroup.setAccHead (w : Workgroup) (a : Nat) (h : AccHead) : Workgroup :=
  { w with accHeads := (List.range 4).map fun i => if i = a then h else w.accHead i }

/-- The value of an accumulator element: +0 in a dead row (R382). -/
def Workgroup.accVal (w : Workgroup) (a row col : Nat) : Val :=
  if (w.accHead a).surv.getLsbD row then fp32.value (w.accs.get (accKey a row col)).toNat else zeroVal false

/-- Elements of a row become +0, soft errors included. -/
def State.zeroAccRow (s : State) (a row : Nat) : State :=
  ({ s with w := { s.w with accs := s.w.accs.clear (accKey a row 0) (accKey a (row + 1) 0) } } : State).unsoft
    (if s.soft.isEmpty then [] else (List.range 256).map fun c => .acc s.w.id a row c)

/-- An accumulator element is written. -/
def State.setAcc (s : State) (a row col : Nat) (v : Nat) : State :=
  ({ s with w := { s.w with accs := s.w.accs.set (accKey a row col) (BitVec.ofNat 32 v) } } : State).unsoft [.acc s.w.id a row col]

/-- R382: a row about to be written is alive; its elements become +0 where it was dead. -/
def State.wakeAccRow (s : State) (a row : Nat) : State :=
  let h := s.w.accHead a
  if h.surv.getLsbD row then s
  else
    let s := s.zeroAccRow a row
    { s with w := s.w.setAccHead a { h with surv := h.surv ||| (1#128 <<< row) } }

/-- The rows below M that are alive in a part's A (R380). -/
def State.aliveRows (s : State) (x : MatArgs) (p : Part) : List Nat :=
  match (s.w.copy p.follower).head? x.a with
  | some im => (List.range x.m).filter fun m => im.surv.getLsbD m
  | none => []

/-- R189: the results of chunk j, row by row: (row, column) and the rounded sum. -/
def State.chunkResults (s : State) (x : MatArgs) (j : Nat) : List ((Nat × Nat) × Fp Nat) :=
  let ks := (List.range (min 32 (x.k - 32 * j))).map (32 * j + ·)
  sortBy (fun u v => decide (u.1.1 < v.1.1) || (u.1.1 == v.1.1 && decide (u.1.2 ≤ v.1.2)))
    (x.parts.flatMap fun p =>
      match (s.w.copy p.follower).head? x.a, (s.w.copy p.follower).head? x.b with
      | some a, some b => (s.aliveRows x p).flatMap fun m =>
          let row := ks.map fun k => s.elemVal p.follower x.a a m k
          (List.range p.cols).map fun n =>
            let c := chunkSum (isIntFmt a.fmt) (row.zip (ks.map fun k => s.bElem x p b n k))
            let t := sumVals false [s.w.accVal x.acc m (p.first + n), c.val]
            ((m, p.first + n), fp32.arith rne false { val := t.val, fl := c.fl.or t.fl })
      | _, _ => [])

/-- R206: the element that is named where a chunk reads accumulator elements with soft errors: the leader's part first, then row by
row (DESIGN CHOICE, log entry 79). -/
def State.softAcc (s : State) (x : MatArgs) : Option (Nat × Nat) :=
  if s.soft.isEmpty then none
  else x.parts.findSome? fun p => (s.aliveRows x p).findSome? fun m =>
    if (s.w.accHead x.acc).surv.getLsbD m then
      ((List.range p.cols).find? fun n => s.isSoft (.acc s.w.id x.acc m (p.first + n))).map fun n => (m, p.first + n)
    else none

/-- A chunk's results are written (R380). -/
def State.writeChunk (s : State) (x : MatArgs) (rs : List ((Nat × Nat) × Fp Nat)) : State :=
  rs.foldl (fun s r => (s.wakeAccRow x.acc r.1.1).setAcc x.acc r.1.1 r.1.2 r.2.val) s

/-- R203, R206: chunk j is computed; one that meets a NaN under TRAP or a soft error stops the command before it. -/
def State.runChunk (s : State) (c : Command) (x : MatArgs) (j : Nat) : State × Bool :=
  match s.softAcc x with
  | some (m, n) => (s.engineStop c (cmdTrap { cause := cECC, sub := 3 } 4 (nanVa 4 0 m n)) j, false)
  | none =>
    let rs := s.chunkResults x j
    match (if c.nanTrap then rs.find? fun r => r.2.fl.nan else none) with
    | some r => (s.engineStop c (nanTrapOf c j r.1.1 r.1.2) j, false)
    | none => ((s.writeChunk x rs).cmdFlags c (flagsOf (rs.map Prod.snd)), true)

/-- The element lies in an SX8 block of zeros, whose element bytes are not read (R185 Table 7-7). -/
def State.inZeroBlock (s : State) (f : Bool) (slot row col : Nat) : Bool :=
  match (s.w.copy f).head? slot with
  | some im => isScaled im.fmt && !im.scl && s.elemScale f slot im row (col / 32) == 0x80
  | none => false

/-- The elements with soft errors that the operation reads on one part, in ascending (slot, row, column) order (R205). Those of
dead rows of B count as read (DESIGN CHOICE, log entry 79). -/
def State.softReads (s : State) (x : MatArgs) (p : Part) : List (Nat × Nat × Nat) :=
  let rows := s.aliveRows x p
  let bcols := match x.ix with | some (_, ns) => x.k * ns / 64 | none => x.k
  let reads (slot row col : Nat) : Bool :=
    (slot == x.a && rows.contains row && decide (col < x.k)) || (slot == x.b && decide (row < p.cols) && decide (col < bcols))
      || match x.ix with | some (i, _) => slot == i && decide (row < p.cols) && decide (col < bcols) | none => false
  sortBy (fun u v => decide (elemKey u.1 u.2.1 u.2.2 ≤ elemKey v.1 v.2.1 v.2.2))
    (s.soft.filterMap fun t => match t with
      | .operand w f slot row col => if w == s.w.id && f == p.follower && reads slot row col && !s.inZeroBlock f slot row col then some (slot, row, col) else none
      | _ => none)

/-- R205: the soft errors met set ECCZ and are logged in ECCLOG of the part's core. -/
def State.logSoft (s : State) (x : MatArgs) : State :=
  if s.soft.isEmpty then s else x.parts.foldl (fun s p => s.logElems p.follower (s.softReads x p)) s

/-- A matrix command performs its next chunk, and after its last one retires (R380, R267). Its soft errors are logged as it
starts. -/
def State.multiply (s : State) (c : Command) : State :=
  let x := matArgs c.instr (c.ops.getD 0 0)
  let s := if c.phase = 0 then (s.logSoft x).modCmd c.id fun y => { y with phase := 1 } else s
  let alive := x.parts.any fun p => !(s.aliveRows x p).isEmpty
  let dom := (((s.w.copy false).head? x.a).map (·.dom)).getD 0
  match s.runChunk c x c.pos with
  | (s, false) => s
  | (s, true) =>
    if 32 * (c.pos + 1) < x.k then s.modCmd c.id fun y => { y with pos := c.pos + 1 } else
    let s := if alive then { s with w := s.w.setAccHead x.acc { s.w.accHead x.acc with dom := dom } } else s
    ({ s with w := s.w.endOps (cmdSlots c) } : State).finish c 0

/-- MMA_RETIRE (R380): each occurrence performs the next chunk, the last one retires the command; the workgroup's matrix commands run one
after another (DEDUCED, log entry 32). -/
def execMmaRetire (c : CmdId) (s : State) : Host.Outcome State Fault Refusal :=
  .next (match s.runnable c with
    | none => s
    | some x =>
      if c.ctx != .mpair || (s.earlier x).any (fun y => y.id.ctx == .mpair && !y.finished) then s
      else s.inCommand x fun s => s.multiply x)

/-! ## Accumulators (R382, R383) -/

def maccz (l : Lane) : Act Unit := do
  let (active, _) ← laneStart l
  let a := l.vd.toNat
  if active = 0 then retire 3
  else
    waitAcc a
    modify fun s =>
      let s := (List.range 128).foldl (fun s r => s.zeroAccRow a r) s
      { s with w := s.w.setAccHead a ⟨0, 0⟩ }
    retire 3

/-- MACCZ (R382). -/
def execMaccz (l : Lane) (s : State) : Host.Outcome State Fault Refusal := Act.outcome (maccz l) s

/-- The width of an accumulator (R366). -/
def Workgroup.accWidth (w : Workgroup) : Nat := if w.pair then 256 else 128

def maccwr (l : Lane) : Act Unit := do
  let (active, _) ← laneStart l
  let a := l.vd.toNat
  let n := l.imm.toNat % 64 + 1
  useV active l.va n
  if active = 0 then retire 3
  else
    waitAcc a
    let w ← readS (sregOf l.vb)
    let p := posOf w
    let s ← get
    let cols := colsIn p.col n s.w.accWidth
    let rows := (lanesOf active).filter fun i => decide (p.row + i < 128) && !cols.isEmpty
    modify fun s => rows.foldl (fun s i =>
      cols.foldl (fun s j => s.setAcc a (p.row + i) (p.col + j) (s.g.vreg (l.va.toNat + j) i).toNat) (s.wakeAccRow a (p.row + i))) s
    retire 3

/-- MACCWR (R382). -/
def execMaccwr (l : Lane) (s : State) : Host.Outcome State Fault Refusal := Act.outcome (maccwr l) s

def maccrd (l : Lane) : Act Unit := do
  let (active, mark) ← laneStart l
  let a := l.va.toNat
  checkTile active l.vd
  if active = 0 then retireWork 3
  else
    let t ← useTile active l.vd
    waitAcc a
    let w ← readS (sregOf l.vb)
    let p := posOf w
    let s ← get
    let h := s.w.accHead a
    if (h.surv ≠ 0 ∧ t.dom ≠ h.dom) ∨ (isScaled t.fmt ∧ p.col % 32 ≠ 0) then badRecord active
    let cols := (List.range s.w.accWidth).filter fun j => decide (p.col + j < t.cols)
    let rows := if cols.isEmpty then [] else List.range (min t.rows 128)
    let bad := if s.soft.isEmpty then none else rows.findSome? fun k =>
      if h.surv.getLsbD k then (cols.find? fun j => s.isSoft (.acc s.w.id a k j)).map fun j => (k, j) else none
    match bad with
    | some (k, j) => trapAt { cause := cECC, sub := 3 } 0 active (nanVa 4 0 k j)
    | none => pure ()
    checkKept active t rows (cols.map (p.col + ·))
    let ws := rows.map fun k => rowWrite t k p.col (s.tileRounder l.rm.toNat k) (l.sat = 1) false (cols.map fun j => s.w.accVal a k j)
    raiseFlags ((lanesOf active).map fun i => (i, flagsOf ws))
    modify fun s => ws.foldl (fun s r => s.writeRow l.vd.toNat r.val) s
    let _ ← issueCommand .tileOp (.maccrd l) active mark { tiles := [(l.vd.toNat, true)] }
    retireWork 3

/-- MACCRD (R383): its values are written as it issues; the tile is filling until MATRIX_OPERATION_RETIRE. -/
def execMaccrd (l : Lane) (s : State) : Host.Outcome State Fault Refusal := Act.outcome (maccrd l) s

end Sys2Proof.Machine
end

