-- ==== Sys2Proof/Machine/Graph.lean ====
section
/-! DEFINITION. The graph instructions NPOST, NDEC and NDONE (spec/16 R431 to R433; spec/09 R240, R244, R239). -/

namespace Sys2Proof.Machine

/-- The ASID of a node: the scheduler's copy of a posted node, else its descriptor. -/
def State.asidOfNode (s : State) (ix : Nat) : BitVec 12 :=
  match s.node? ix with
  | some n => n.asid
  | none => BitVec.ofNat 12 (dfield (s.descAt ix) 116 12)

/-- R432: an index of the table whose node belongs to the current group's ASID. -/
def State.ownNode (s : State) (ix : Nat) : Bool := decide (ix < s.nodeCount) && s.asidOfNode ix == s.g.asid

/-- R418, R244: the decrement of a copy command, whatever the node's ASID; an index outside the table names no node. -/
def State.copyDecrement (s : State) (ix : Nat) : State := s.release ix

def allOnes : Word64 := 0xFFFFFFFFFFFFFFFF

def npost (l : Lane) : Act Unit := do
  let (active, _) ← laneStart l
  if active = 0 then retireWork 3
  else
    let a ← readS (sregOf l.va)
    let d := sregOf l.vd
    let s ← get
    if s.busyReg d then stall
    awaitPerformed
    let st ← stateful fun s => s.postNode (bitsOf a.toNat 0 20) (some s.g.asid)
    modify fun s => s.setS d (BitVec.ofNat 64 st)
    retireWork 3

/-- NPOST (R431): a release at system scope, after the path's earlier stores are performed (R59). -/
def execNpost (l : Lane) (s : State) : Host.Outcome State Fault Refusal := Act.outcome (npost l) s

def ndec (l : Lane) : Act Unit := do
  let (active, _) ← laneStart l
  if active = 0 then retireWork 3
  else
    let a ← readS (sregOf l.va)
    let d := sregOf l.vd
    let s ← get
    if s.busyReg d then stall
    let ix := bitsOf a.toNat 0 20
    modify fun s => s.readDesc ix
    let s ← get
    if s.ownNode ix then
      awaitPerformed
      orderGate (.ndec l) 3
      let (left, overdec) ← stateful fun s => s.decrement ix
      modify fun s => s.setS d (BitVec.ofNat 64 (left + overdec.toNat * 2 ^ 32))
    else modify fun s => s.setS d allOnes
    retireWork 3

/-- NDEC (R432), a release of the path's earlier events (R111); in a deterministic node it keeps the key order of R245. -/
def execNdec (l : Lane) (s : State) : Host.Outcome State Fault Refusal := Act.outcome (ndec l) s

/-- R433: what NDONE reads once the node is DONE: RUNS and STATUS of its descriptor (Table 9-4). -/
def State.doneWord (s : State) (ix : Nat) : Option Word64 :=
  if s.num (s.nodePa ix + 88) 1 % 8 = 4 then
    some (BitVec.ofNat 64 (s.num (s.nodePa ix + 90) 4 * 2 ^ 32 + s.num (s.nodePa ix + 89) 1))
  else none

def ndone (l : Lane) : Act Unit := do
  let (active, mark) ← laneStart l
  if active = 0 then retireWork 3
  else
    let a ← readS (sregOf l.va)
    let d := sregOf l.vd
    let s ← get
    if s.busyReg d then stall
    let ix := bitsOf a.toNat 0 20
    modify fun s => s.readDesc ix
    let s ← get
    if !s.ownNode ix then
      modify fun s => s.setS d 0xFFFFFFFFFFFFFFFE
      retireWork 3
    else match s.doneWord ix with
      | some v =>
        modify fun s => s.setS d v
        retireWork 3
      | none =>
        if l.imm.getLsbD 0 then
          modify fun s => s.setS d allOnes
          retireWork 3
        else throw (.park { instr := .ndone l, words := 3, on := .nodeDone ix, vals := [], mark := mark })

/-- NDONE (R433). -/
def execNdone (l : Lane) (s : State) : Host.Outcome State Fault Refusal := Act.outcome (ndone l) s

/-- The end of a wait of a path, with its group at issue. -/
def resumeWait (g : GroupId) (slot : Bool) (f : Wait → Option (Act Unit)) (s : State) : Host.Outcome State Fault Refusal :=
  .next (s.withGroup g slot fun s =>
    match s.path.wait with
    | some w =>
      if s.g.stop == .stopped then s
      else match f w with
        | some a => Act.state a s
        | none => s
    | none => s)

/-- NDONE_RESUME (R433): the node has reached DONE. -/
def execNdoneResume (g : GroupId) (slot : Bool) (s : State) : Host.Outcome State Fault Refusal :=
  resumeWait g slot (fun w =>
    match w.on, w.instr with
    | .nodeDone ix, .ndone l => (s.doneWord ix).map fun v => do
        modify fun s => s.endWait.setS (sregOf l.vd) v
        retireWork 3
    | _, _ => none) s

end Sys2Proof.Machine
end

