-- ==== Sys2Proof/Machine/Copy.lean ====
section
/-! DEFINITION. The copy commands XCOPY, XGATH, XWIN and XPUT (spec/16 R411 to R421): their checks at issue, their sectors
(R268, R414 to R417) and their completion. -/

namespace Sys2Proof.Machine

/-! ## Operands (R412, R413, R420) -/

/-- An endpoint: a tile by its number, or a record with its memory. -/
structure CopyEnd where
  tile : Bool
  num : Nat
  win : Nat
  r : Rec
  deriving DecidableEq, Repr

/-- The four copy commands. -/
inductive CopyKind where
  | copy
  | gath
  | win
  | put
  deriving DecidableEq, Repr

/-- A copy command as its instruction and its captured operands give it (Tables 16-2, 16-3). -/
structure CopyArgs where
  kind : CopyKind
  ctx : Ctx
  scat : Bool
  ndec : Bool
  bar : Bool
  src : CopyEnd
  dst : CopyEnd
  se0 : Nat
  de0 : Nat
  rstep : Int
  rows : Nat
  rb : Nat
  node : Nat
  bwin : Nat
  boff : Nat
  c0 : Nat
  /-- XPUT's target word (R421) -/
  target : Nat
  /-- XGATH's lanes and indices -/
  lanes : List (Nat × Word32)
  deriving DecidableEq, Repr

/-- The record of register `n` as a command captured it; `above` is how far the private record's base lies above 2^56 (R12, R33). -/
def capturedRec (n : Nat) (b : BitVec 128) (above : Nat) : Rec :=
  if n = 31 then { recOf b with base := (recOf b).base + above * 2 ^ 56 } else recOf b

def copyArgs (kind : CopyKind) (l : Lane) (ops : List Word64) (dst src : BitVec 128) (above : Nat) (lanes : List (Nat × Word32)) : CopyArgs :=
  let imm := l.imm.toNat
  let op (i : Nat) : Nat := (ops.getD i 0).toNat
  { kind := kind, ctx := if bitOf imm 0 then .copy1 else .copy0, scat := bitOf imm 9, ndec := bitOf imm 8, bar := bitOf imm 7
    src := { tile := bitOf imm 2, num := l.va.toNat, win := bitsOf imm 5 2, r := capturedRec l.va.toNat src above }
    dst := { tile := bitOf imm 1, num := l.vd.toNat, win := bitsOf imm 3 2, r := capturedRec l.vd.toNat dst above }
    se0 := bitsOf (op 0) 0 32, de0 := bitsOf (op 0) 32 32, rstep := signedOf 16 (bitsOf (op 1) 48 16)
    rows := if kind = .gath then lanes.length else bitsOf (op 1) 32 16 + 1, rb := bitsOf (op 1) 0 20 + 1
    node := bitsOf (op 2) 44 20, bwin := bitsOf (op 2) 32 2, boff := bitsOf (op 2) 0 32
    c0 := if kind = .win then bitsOf (op 3) 0 32 else 0, target := op 3, lanes := lanes }

/-- The kind and the operands of a copy command in flight. -/
def copyOf (c : Command) : Option CopyArgs :=
  let mk (k : CopyKind) (l : Lane) : Option CopyArgs := some (copyArgs k l c.ops (c.recs.getD 0 0) (c.recs.getD 1 0) (c.recs.getD 2 0).toNat c.lanes)
  match c.instr with
  | .xcopy l => mk .copy l
  | .xgath l => mk .gath l
  | .xwin l => mk .win l
  | .xput l => mk .put l
  | _ => none

/-- Source row, destination row and lane of row i, in 64-bit arithmetic (Table 16-5, R413, R33). -/
def CopyArgs.row (x : CopyArgs) (i : Nat) : Nat × Nat × Nat :=
  match x.kind with
  | .gath =>
    let (lane, ix) := x.lanes.getD i (0, 0)
    if x.scat then (x.se0 + lane, x.de0 + ix.toNat, lane) else (x.se0 + ix.toNat, x.de0 + lane, lane)
  | .win => (((x.se0 : Int) + i * x.rstep) % 2 ^ 64 |>.toNat, x.de0 + i, 0)
  | _ => (x.se0 + i, x.de0 + i, 0)

/-- Sectors of a row, and of the command (R414). -/
def CopyArgs.perRow (x : CopyArgs) : Nat := (x.rb + 31) / 32
def CopyArgs.sectors (x : CopyArgs) : Nat := x.rows * x.perRow

/-- Bytes of a tile row as copies move it: data, then scales (R413). -/
def Tile.copyBytes (t : Tile) : Nat := t.rowBytes + if isScaled t.fmt then t.blocks else 0

/-- R413: a tile endpoint whose row bytes or row indices do not fit. -/
def tileMisfit (t : Tile) (rb : Nat) (rows : List Nat) : Bool := rb != t.copyBytes || rows.any fun e => decide (t.rows ≤ e)

/-! ## Issue (R411) -/

/-- R321: the offset of a barrier record is a multiple of 16. -/
def barAligned (active : Word32) (off : Nat) : Act Unit :=
  if off % 16 ≠ 0 then trapAt { cause := cALIGN, sub := 1 } 2 active off else pure ()

/-- R321: the checks of a barrier that a copy names; its record. -/
def barAt (active : Word32) (win off : Nat) : Act BarRec := do
  barAligned active off
  let s ← get
  if s.winLimit win < off + 16 then trapAt protWindow 2 active off
  let v := s.winNum win off 16
  if barReserved v then trapAt protBrec 2 active off
  match (List.range 16).find? fun i => s.winSoft win (off + i) with
  | some i => trapAt { cause := cECC, sub := s.winSoftSub win (off + i) } 2 active off
  | none => pure (BarRec.ofNat v)

/-- R221: copies are the producer group's. -/
def needProducer (active : Word32) : Act Unit := do
  let s ← get
  if s.g.id.j ≠ s.w.producer then trapAt { cause := cCOPYRIGHTS, sub := 1 } 0 active 0 else pure ()

/-- A record endpoint: read, with the check of R19. -/
def endRecord (active : Word32) (tile : Bool) (n : BitVec 11) : Act (BitVec 128) := do
  if tile then pure 0
  else
    let b ← readB n.toNat
    if (recOf b).bad then trapAt protBrec 0 active 0 else pure b

/-- A tile endpoint: usable now, with the check of R413. -/
def endTile (active : Word32) (e : CopyEnd) (n : BitVec 11) (rb : Nat) (rows : List Nat) : Act Unit := do
  if e.tile then
    let t ← useTile active n
    if tileMisfit t rb rows then badRecord active
  else pure ()

/-- The index lanes of an XGATH, read at issue (R420). -/
def gatherLanes (active : Word32) (r : BitVec 11) : Act (List (Nat × Word32)) := do
  let s ← get
  pure ((lanesOf active).map fun i => (i, s.g.vreg r.toNat i))

def copyIssue (i : Instr) (kind : CopyKind) (l : Lane) : Act Unit := do
  let (active, mark) ← laneStart l
  if kind = .gath then useV active l.vc 1
  let st := l.imm.getLsbD 2
  let dt := kind != .put && l.imm.getLsbD 1
  if dt then checkTile active l.vd
  if st then checkTile active l.va
  if active = 0 then retireWork 3
  else
    if kind ≠ .put then needProducer active
    let lanes ← if kind = .gath then gatherLanes active l.vc else pure []
    let ops ← readBlock (sregOf l.vb) (if kind = .win ∨ kind = .put then 4 else 3)
    let dst ← if kind = .put then pure 0 else endRecord active dt l.vd
    let src ← endRecord active st l.va
    let above := (← get).g.privOver
    let x := copyArgs kind l ops dst src above lanes
    if kind = .win ∧ st then badRecord active
    let rows := (List.range x.rows).map x.row
    if kind ≠ .put then endTile active x.dst l.vd x.rb (rows.map fun r => r.2.1)
    endTile active x.src l.va x.rb (rows.map fun r => r.1)
    let gen ← if kind = .put then
        (if x.bar ∧ x.bwin ≠ 3 then do
          badRecord active
          pure 0
        else do
          if x.bar then barAligned active x.boff
          pure (bitsOf x.target 48 16))
      else if x.bar then
        (if x.bwin = 0 then do
          badRecord active
          pure 0
        else do
          let b ← barAt active x.bwin x.boff
          pure b.gen)
      else pure 0
    checkRoom x.ctx 16
    let surv := ((← get).tile l.va.toNat).surv
    let drain := if st ∧ !(dt ∧ l.vd = l.va) then [(l.va.toNat, false)] else []
    let fill := if dt then [(l.vd.toNat, true)] else []
    let _ ← issueCommand x.ctx i active mark
      { ops := ops, lanes := lanes, recs := [dst, src, BitVec.ofNat 128 above] ++ (if st then [surv] else []), tiles := fill ++ drain, barGen := BitVec.ofNat 16 gen }
    retireWork 3

/-- XCOPY (R420). -/
def execXcopy (l : Lane) (s : State) : Host.Outcome State Fault Refusal := Act.outcome (copyIssue (.xcopy l) .copy l) s

/-- XGATH (R420). -/
def execXgath (l : Lane) (s : State) : Host.Outcome State Fault Refusal := Act.outcome (copyIssue (.xgath l) .gath l) s

/-- XWIN (R420). -/
def execXwin (l : Lane) (s : State) : Host.Outcome State Fault Refusal := Act.outcome (copyIssue (.xwin l) .win l) s

/-- XPUT (R421). -/
def execXput (l : Lane) (s : State) : Host.Outcome State Fault Refusal := Act.outcome (copyIssue (.xput l) .put l) s

/-! ## Engine accesses -/

/-- The lowest-placed byte of a list that lies in a line. -/
def addrIn (addrs : List Nat) (line : Nat) : Nat := (addrs.find? fun a => a / 128 == line).getD 0

/-- The translations of a list of lines for an engine. -/
def State.xlates (s : State) (need : Need) (lines : List Nat) : State × List (Nat × Except Flt Xlat) :=
  match lines with
  | [] => (s, [])
  | l :: rest =>
    let (s, r) := s.translate s.here s.g.asid need (l * 128)
    let (s, rs) := s.xlates need rest
    (s, (l, r) :: rs)

/-- The fault of the highest cause that some line meets (R25), with its line. -/
def worstLine (rs : List (Nat × Except Flt Xlat)) : Option (Flt × Nat) :=
  rs.foldl (fun (b : Option (Flt × Nat)) r =>
    match r.2, b with
    | .ok _, b => b
    | .error f, none => some (f, r.1)
    | .error f, some (g, l) => if rankOf f < rankOf g then some (f, r.1) else some (g, l)) none

/-- The lines that translate. -/
def goodLines (rs : List (Nat × Except Flt Xlat)) : List (Nat × Xlat) :=
  rs.filterMap fun r => match r.2 with | .ok x => some (r.1, x) | .error _ => none

/-- The physical addresses of a byte by the translations of its line. -/
def placesOf (rs : List (Nat × Xlat)) (a : Nat) : List Nat :=
  match rs.find? fun r => r.1 == a / 128 with
  | some (_, x) => x.pas.map (· + a % 128)
  | none => []

/-- An engine's line requests reach L2 or memory; its writes allocate no line (R41). -/
def State.requestLines (s : State) (rs : List (Nat × Xlat)) (write : Bool) : State :=
  rs.foldl (fun s r => s.requestLine r.2 write false) s

/-- Where the bytes of a record's row that an engine moves lie; or, where one lies outside the address space or the window
(R12, R32), the first byte of the element, with the fault. -/
def State.recAddrs (s : State) (e : CopyEnd) (row lane k n : Nat) : Except (Flt × Nat) (List Nat) :=
  let addrs := (List.range n).map fun j => e.r.addr (!e.tile && e.num == 31) lane row (k + j)
  let limit := if e.win = 0 then vaSize else s.winLimit e.win
  if addrs.any fun a => decide (limit ≤ a) then .error (if e.win = 0 then tfault 4 15 else protWindow, addrs.headD 0)
  else .ok addrs

/-- Scratchpad offsets of bytes k to k + n − 1 of a tile row as copies move it (R413). -/
def Tile.copyAddrs (t : Tile) (row k n : Nat) : List Nat :=
  (List.range n).map fun j => if k + j < t.rowBytes then t.byteAt row (k + j) else t.scaleAt row (k + j - t.rowBytes)

/-- A byte read by an engine, with bit 8 set and bit 9 for poison (R458). -/
def readByte (v : Byte) (poison : Bool) : BitVec 10 := BitVec.ofNat 10 (v.toNat + 256 + 512 * poison.toNat)

/-- Bytes that the engine has not read yet are read from a window or from virtual memory (R416). -/
def State.readFresh (s : State) (win : Nat) (addrs : List Nat) : State × Except (Flt × Nat) (List (Nat × BitVec 10)) :=
  if win ≠ 0 then (s, .ok (addrs.map fun a => (a, readByte (s.winByte win a) (s.winSoft win a))))
  else
    let (s, rs) := s.xlates {} (linesOf addrs)
    match worstLine rs with
    | some (f, l) => (s, .error (f, addrIn addrs l))
    | none =>
      let rs := goodLines rs
      (s.requestLines rs false, .ok (addrs.map fun a =>
        let pa := (placesOf rs a).headD 0
        (a, readByte (s.byte pa) (s.isPoisoned pa))))

/-- The bytes at a list of addresses, each read once per command. -/
def State.readOnce (s : State) (c : Command) (win : Nat) (addrs : List Nat) : State × Except (Flt × Nat) (List (BitVec 10)) :=
  let known : SMap 10 := match s.cmd? c.id with | some x => x.read | none => []
  let fresh := (addrs.filter fun a => known.get a == 0).dedup
  match s.readFresh win fresh with
  | (s, .error f) => (s, .error f)
  | (s, .ok rs) =>
    let all := rs.foldl (fun (m : SMap 10) r => m.set r.1 r.2) known
    (s.modCmd c.id fun x => { x with read := all }, .ok (addrs.map all.get))

/-- What an engine meets at a sector: a fault, whether a write met it, and its VA. -/
structure EngFault where
  flt : Flt
  write : Bool
  va : Nat
  deriving DecidableEq, Repr

def oobFlt : Flt := { cause := cOOB, sub := 0 }

/-- R75, R415: a row of a source tile is alive; for a copy, whose destination may be the same tile, as it was at issue. -/
def Command.aliveRow (c : Command) (t : Tile) (row : Nat) : Bool :=
  match c.recs[3]? with
  | some surv => surv.getLsbD row
  | none => t.alive row

/-- Bytes k to k + n − 1 of a source row (R413, R415). -/
def State.sourceBytes (s : State) (c : Command) (e : CopyEnd) (row lane k n : Nat) : State × Except EngFault (List (BitVec 10)) :=
  if e.tile then
    let t := s.tile e.num
    if c.aliveRow t row then
      match s.readOnce c 1 (t.copyAddrs row k n) with
      | (s, .ok bs) => (s, .ok bs)
      | (s, .error (f, a)) => (s, .error ⟨f, false, a⟩)
    else (s, .ok ((List.range n).map fun j => readByte (if k + j < t.rowBytes then 0 else BitVec.ofNat 8 (zeroScale t.scl)) false))
  else if row < e.r.extent then
    match s.recAddrs e row lane k n with
    | .error (f, a) => (s, .error ⟨f, false, a⟩)
    | .ok addrs =>
      match s.readOnce c e.win addrs with
      | (s, .ok bs) => (s, .ok bs)
      | (s, .error (f, _)) => (s, .error ⟨f, false, addrs.headD 0⟩)
  else if e.r.oobt then (s, .error ⟨oobFlt, false, 0⟩)
  else (s.stick 0, .ok (List.replicate n (readByte 0 false)))

/-- Where a sector goes: nowhere (dropped), offsets of a window, or virtual addresses with their translations. -/
inductive Dest where
  | dropped
  | window (win : Nat) (offs : List Nat)
  | virt (vas : List Nat) (rs : List (Nat × Xlat))
  deriving DecidableEq, Repr

/-- D bits of the lines of an engine's store (R31); the lines that now translate anew, or fault. -/
def State.dirtyAll (s : State) (need : Need) (lines : List Nat) : State × List (Nat × Except Flt Xlat) :=
  match lines with
  | [] => (s, [])
  | l :: rest =>
    let (s, r) := s.setDirty s.here s.g.asid need (l * 128)
    let (s, rs) := s.dirtyAll need rest
    match r with
    | .error f => (s, (l, .error f) :: rs)
    | .ok (some x) => (s, (l, .ok x) :: rs)
    | .ok none => (s, rs)

/-- The translations for an engine's store to virtual addresses, or the fault that it meets and its place. A store that some
member does not take is performed at the others first (R59). -/
def State.storePlaces (s : State) (vas : List Nat) : State × Except EngFault (List (Nat × Xlat)) :=
  let lines := linesOf vas
  let (s, rs) := s.xlates { write := true } lines
  match worstLine rs with
  | some (f, l) => (s, .error ⟨f, true, addrIn vas l⟩)
  | none =>
    let (s, ds) := s.dirtyAll { write := true } lines
    match worstLine ds with
    | some (f, l) => (s, .error ⟨f, true, addrIn vas l⟩)
    | none => (s, .ok (goodLines ds ++ (goodLines rs).filter fun r => !(ds.any fun d => d.1 == r.1)))

/-- The fault of a store that some member has not taken, at an address (R59). -/
def lostAt (rs : List (Nat × Xlat)) (va : Nat) : Option EngFault := (rs.findSome? fun r => r.2.lost).map fun f => ⟨f, true, va⟩

/-- R59: what a sector's store meets after it has been performed. -/
def Dest.lost (d : Dest) : Option EngFault :=
  match d with
  | .virt vas rs => lostAt rs (vas.headD 0)
  | _ => none

/-- The place of bytes k to k + n − 1 of a destination row (R413, R415). -/
def State.destPlace (s : State) (e : CopyEnd) (row lane k n : Nat) : State × Except EngFault Dest :=
  if e.tile then (s, .ok (.window 1 ((s.tile e.num).copyAddrs row k n)))
  else if row < e.r.extent then
    match s.recAddrs e row lane k n with
    | .error (f, a) => (s, .error ⟨f, true, a⟩)
    | .ok addrs =>
      if e.win ≠ 0 then (s, .ok (.window e.win addrs))
      else
        match s.storePlaces addrs with
        | (s, .error f) => (s, .error { f with va := addrs.headD 0 })
        | (s, .ok rs) => (s, .ok (.virt addrs rs))
  else if e.r.oobt then (s, .error ⟨oobFlt, true, 0⟩)
  else (s.stick 0, .ok .dropped)

/-- A sector's bytes are written, its poison carried along (R458); virtual writes join the outgoing stream (R235). Other packages that
have acknowledged them already are not written again. -/
def State.writeSector (s : State) (c : Command) (sector : Nat) (d : Dest) (bs : List (BitVec 10)) : State :=
  let vals := bs.map fun b => b.setWidth 8
  let bad := bs.any fun b => b.getLsbD 9
  match d with
  | .dropped => s
  | .window win offs =>
    let s := s.winStore win (offs.zip vals)
    if bad then s.winPoison win offs else s
  | .virt vas rs =>
    let cells := (vas.zip vals).flatMap fun p => (placesOf rs p.1).map fun pa => (pa, p.2)
    let pas := cells.map Prod.fst
    let s := ((s.requestLines rs true).devStore cells).emitCmd c sector (Sys2Proof.Machine.runsOf (vas.zip vals))
    let s := (s.noteOwn pas).awaitAcksOf (.cmd c.id) (if c.acked.contains sector then [] else pas)
    if bad then s.poison pas else s

/-! ## Progress (R268) -/

/-- The record after sector FIRST + n is complete. -/
def slide (fuel first : Nat) (done : Word64) : Nat × Word64 :=
  match fuel with
  | 0 => (first + 1, done >>> 1)
  | fuel + 1 => if done.getLsbD 0 then slide fuel (first + 1) (done >>> 1) else (first + 1, done >>> 1)

def Command.markSector (c : Command) (n : Nat) : Command :=
  if n = c.first then
    let (f, d) := slide 64 c.first c.done
    { c with first := f, done := d }
  else { c with done := c.done ||| (1#64 <<< (n - c.first - 1)) }

/-- A sector that the command may perform now. -/
def Command.sectorOpen (c : Command) (total n : Nat) : Bool :=
  decide (n < total) && (n == c.first || (decide (c.first < n) && decide (n ≤ c.first + 64) && !c.done.getLsbD (n - c.first - 1)))

/-- The row, the first byte and the byte count of a sector. -/
def CopyArgs.sectorAt (x : CopyArgs) (n : Nat) : Nat × Nat × Nat :=
  let k := 32 * (n % x.perRow)
  (n / x.perRow, k, min 32 (x.rb - k))

/-- Places by which two bytes of a command's endpoints are told apart: those of one window by their offsets, those of virtual
memory within a page, as two pages may lie in one frame, and those of die scratchpad within a granule of its pool, as XPUT names
them by pool. -/
def placeKey (win a : Nat) : Nat × Nat := (win, if win = 0 then a % 2 ^ 15 else if win = 3 then a % 2 ^ 20 else a)

/-- The places of the bytes of a sector at an end of the command. -/
def CopyArgs.sectorKeys (x : CopyArgs) (tile : Nat → Tile) (dst : Bool) (n : Nat) : List (Nat × Nat) :=
  let (i, k, len) := x.sectorAt n
  let (se, de, lane) := x.row i
  let e := if dst then x.dst else x.src
  let row := if dst then de else se
  if dst && x.kind = .put then (List.range len).map fun j => placeKey 3 (bitsOf x.target 0 26 + i * x.rb + k + j)
  else if e.tile then ((tile e.num).copyAddrs row k len).map (placeKey 1)
  else if e.r.extent ≤ row then []
  else (List.range len).map fun j => placeKey e.win (e.r.addr (e.num == 31) lane row ((if dst then 0 else x.c0) + k + j))

/-- R90, R414, R416: a sector may be performed now in the command's element order: one that comes before it and is not complete
neither reads nor writes what it writes (DESIGN CHOICE, log entry 73). -/
def State.sectorFree (s : State) (c : Command) (x : CopyArgs) (n : Nat) : Bool :=
  c.sectorOpen x.sectors n &&
    let mine := x.sectorKeys s.tile true n
    ((List.range (n - c.first)).filter fun i => i = 0 || !c.done.getLsbD (i - 1)).all fun i =>
      !((x.sectorKeys s.tile true (c.first + i) ++ x.sectorKeys s.tile false (c.first + i)).any mine.contains)

def State.engineStopAt (s : State) (c : Command) (f : EngFault) (sector : Nat) : State :=
  s.engineStop c (cmdTrap f.flt (if f.write then 5 else 4) f.va) sector

/-- R417, R275: a sector whose bytes are written is counted and complete. -/
def State.sectorDone (s : State) (c : Command) (x : CopyArgs) (n : Nat) : State :=
  let (_, _, len) := x.sectorAt n
  let s := if x.bar then (s.countSector c x.bwin x.boff len).1 else s
  s.modCmd c.id fun y => ({ y with acked := y.acked.erase n } : Command).markSector n

/-- R59: the replicas of a sector's bytes on other packages. -/
def Dest.far (d : Dest) : List Nat :=
  match d with
  | .virt vas rs => (vas.flatMap (placesOf rs)).filter fun pa => !isOwn pa
  | _ => []

/-- R417, R275: one sector of a local copy: read, written and counted in one step; a fault stops the command before it. Where a
barrier counts bytes that go to other packages as well, they go there first, and that step, with its test of the record, follows
their acknowledgements (R59; DESIGN CHOICE, log entry 83). -/
def State.copySector (s : State) (c : Command) (x : CopyArgs) (n : Nat) : State :=
  let (i, k, len) := x.sectorAt n
  let (se, de, lane) := x.row i
  match s.sourceBytes c x.src se lane (x.c0 + k) len with
  | (s, .error f) => s.engineStopAt c f n
  | (s, .ok bs) =>
    match s.destPlace x.dst de lane k len with
    | (s, .error f) => s.engineStopAt c f n
    | (s, .ok d) =>
      let v := if x.bar then s.winNum x.bwin x.boff 16 else 0
      let b := BarRec.ofNat v
      if x.bar && barReserved v then s.engineStopAt c ⟨protBrec, true, x.boff⟩ n
      else
        let stale := x.bar && b.gen != c.barGen.toNat
        if stale && b.ring then s.sectorDone c x n
        else if x.bar && d.lost.isNone && !d.far.isEmpty && !c.acked.contains n then
          (s.awaitAcksOf (.cmd c.id) d.far).modCmd c.id fun y => { y with acked := n :: y.acked }
        else
          let s := s.writeSector c n d bs
          let s := if x.dst.tile then
              let t := s.tile x.dst.num
              s.setTile x.dst.num { t with surv := t.surv ||| (1#128 <<< de) }
            else s
          match d.lost with
          | some f => s.engineStopAt c f n
          | none => s.sectorDone c x n

/-- COPY_SECTOR_COMPLETE (R417). -/
def execCopySectorComplete (id : CmdId) (sector : Nat) (s : State) : Host.Outcome State Fault Refusal :=
  cmdEvent id (fun c s =>
    match copyOf c with
    | some x =>
      if x.kind = .put ∨ !s.sectorFree c x sector then s
      else if c.acked.contains sector && !s.allAcked (.cmd id) then s
      else s.copySector c x sector
    | none => s) s

/-- COPY_COMPLETE (R417, R418): every sector is complete and every store of the command performed (R59, R110); with NDEC and
status OK the node's counter falls (R244), a release of those stores (R111). -/
def execCopyComplete (id : CmdId) (s : State) : Host.Outcome State Fault Refusal :=
  cmdEvent id (fun c s =>
    match copyOf c with
    | some x =>
      if x.sectors ≤ c.first ∧ s.allAcked (.cmd id) then
        let s := if x.ndec && c.status == 0 then s.copyDecrement x.node else s
        s.finish c c.status.toNat
      else s
    | none => s) s

/-! ## XPUT (R421) -/

/-- The die-scratchpad grant of an ASID that holds a byte of a die's scratchpad, and the offset within it. -/
def State.landing (s : State) (asid : BitVec 12) (die : BitVec 2) (off : Nat) : Option (Grant × Nat) :=
  (s.grants.find? fun g => g.quad.isNone && g.die == die && g.asid == asid && decide (g.base * 1048576 ≤ off)
    && decide (off < g.base * 1048576 + g.size)).map fun g => (g, off - g.base * 1048576)

/-- A die-scratchpad grant is changed. -/
def State.modGrant (s : State) (g : Grant) (f : Grant → Grant) : State :=
  { s with grants := s.grants.map fun x => if x.node == g.node && x.die == g.die && x.quad == g.quad then f x else x }

/-- Bytes are written into a die's scratchpad, each in the grant that holds it; an uncorrectable mark goes from a 32-byte sector that
is written in full (R458). -/
def State.landBytes (s : State) (asid : BitVec 12) (die : BitVec 2) (cells : List (Nat × BitVec 10)) : State :=
  let full (x : Nat) : Bool := (List.range 32).all fun i => cells.any fun c => c.1 == x / 32 * 32 + i
  cells.foldl (fun s c =>
    match s.landing asid die c.1 with
    | none => s
    | some (g, o) =>
      let s := (s.modGrant g fun x => { x with mem := x.mem.set o (c.2.setWidth 8) }).touch 3 (g.node * 2 ^ 32 + die.toNat) [o]
      let mark := PoisonTarget.dieScratch g.node die o
      let s := if full c.1 then { s with soft := s.soft.filter fun t => !sameTarget t mark, carried := s.carried.filter fun t => !sameTarget t mark } else s
      if cells.any (fun y => y.2.getLsbD 9) && !(s.carried.any fun t => sameTarget t mark) then { s with carried := s.carried ++ [mark] } else s) s

/-- The barrier record of an XPUT on the target die: its grant, the offset in it and its contents. -/
def State.putBarrier (s : State) (asid : BitVec 12) (die : BitVec 2) (boff : Nat) : Option (Grant × Nat × Nat) :=
  match s.landing asid die boff, s.landing asid die (boff + 15) with
  | some (g, o), some (g', _) => if g = g' ∧ boff % 16 = 0 then some (g, o, natOf (g.mem.range o 16)) else none
  | _, _ => none

/-- R274: a sector of an XPUT counts `n` bytes into a record of a die-scratchpad grant. -/
def State.countPut (s : State) (g : Grant) (off : Nat) (b : BarRec) (n : Nat) : State :=
  let home := g.node * 2 ^ 32 + g.die.toNat
  let (b', done) := b.count n
  let s := s.endGeneration 3 home off b.gen done 0
  let s := s.noteArrival 3 home off false done b'
  (s.modGrant g fun x => { x with mem := x.mem.setRange off (bytesOf 16 b'.bits) }).touch 3 home [off]

/-- R421, R274, R275: a sector arrives at a die of this package, with its barrier record and the generation it carries: what the
target does and what it answers. Bytes outside every grant of the ASID are neither written nor counted; a record whose reserved
fields are not zero refuses the sector as a whole. -/
def State.putLands (s : State) (asid : BitVec 12) (die : BitVec 2) (cells : List (Nat × BitVec 10)) (bar : Option (Nat × BitVec 16)) :
    State × PutAnswer :=
  let good := cells.filter fun p => (s.landing asid die p.1).isSome
  let short : PutAnswer := { refused := good.length != cells.length }
  match bar with
  | none => (s.landBytes asid die good, short)
  | some (boff, gen) =>
    match s.putBarrier asid die boff with
    | none => (s.landBytes asid die good, { short with refused := true })
    | some (g, o, v) =>
      let b := BarRec.ofNat v
      let stale := b.gen != gen.toNat
      if barReserved v then (s, { bad := true })
      else if stale then
        (if b.ring then s else s.landBytes asid die good, { short with stale := true, strap := b.strap })
      else
        let s := s.landBytes asid die good
        -- the record as it is after the bytes that may lie in it
        let v' := match s.landing asid die boff with | some (g', _) => natOf (g'.mem.range o 16) | none => v
        (s.countPut g o (BarRec.ofNat v') good.length, short)

/-- What an acknowledgement tells a command: a refused byte or record makes it complete with REFUSED, a stale count sets BARSTALE
(R275). -/
def State.putAnswered (s : State) (c : Command) (a : PutAnswer) : State :=
  let s := if a.stale then s.staleCount c a.strap else s
  if a.refused then s.modCmd c.id fun y => { y with status := 3 } else s

/-- The places and the bytes of a sector of an XPUT on its target die. -/
def CopyArgs.putCells (x : CopyArgs) (i k : Nat) (bs : List (BitVec 10)) : List (Nat × BitVec 10) :=
  bs.zipIdx.map fun p => (bitsOf x.target 0 26 + i * x.rb + k + p.2, p.1)

/-- A sector of a command of this package arrives at a die of this package. -/
def State.putArrives (s : State) (c : Command) (x : CopyArgs) (n i k : Nat) (bs : List (BitVec 10)) : State :=
  let (s, a) := s.putLands s.g.asid (BitVec.ofNat 2 (bitsOf x.target 32 2)) (x.putCells i k bs) (if x.bar then some (x.boff, c.barGen) else none)
  if a.bad then s.engineStopAt c ⟨protBrec, true, x.boff⟩ n
  else (s.putAnswered c a).modCmd c.id fun y => { y with acked := y.acked ++ [n] }

/-- A sector of a command leaves for its target: the source is read, and a target die of this package checks, writes and counts. -/
def State.putSector (s : State) (c : Command) (x : CopyArgs) (n : Nat) : State :=
  let (i, k, len) := x.sectorAt n
  let (se, _, lane) := x.row i
  match s.sourceBytes c x.src se lane k len with
  | (s, .error f) => s.engineStopAt c f n
  | (s, .ok bs) =>
    if bitsOf x.target 36 12 = s.pkg then s.putArrives c x n i k bs
    else s.modCmd c.id fun y => { y with acked := y.acked ++ [n] }

/-- XPUT_SECTOR_ARRIVAL (R421): of a command of this package, or from another package, whose issuer the acknowledgement tells the
answer. -/
def execXputSectorArrival (src : PutSource) (n : Nat) (s : State) : Host.Outcome State Fault Refusal :=
  match src with
  | .own id =>
    cmdEvent id (fun c s =>
      match copyOf c with
      | some x => if x.kind = .put ∧ s.sectorFree c x n ∧ !c.acked.contains n then s.putSector c x n else s
      | none => s) s
  | .foreign asid die toff bytes poisoned bar =>
    .next (s.putLands asid die (cellsAt toff bytes |>.map fun c => (c.1, readByte c.2 poisoned)) bar).1

/-- XPUT_SECTOR_ACK (R421): a sector that has arrived is complete; the answer of a target on another package comes with it. -/
def execXputSectorAck (id : CmdId) (ack : PutAck) (s : State) : Host.Outcome State Fault Refusal :=
  let ⟨sector, answer⟩ := ack
  cmdEvent id (fun c s =>
    match copyOf c with
    | some x =>
      if x.kind = .put ∧ c.sectorOpen x.sectors sector ∧ c.acked.contains sector then
        let far := bitsOf x.target 36 12 != s.pkg
        let s := s.modCmd id fun y => { y with acked := y.acked.erase sector }
        if far && answer.bad then s.engineStopAt c ⟨protBrec, true, x.boff⟩ sector
        else (if far then s.putAnswered c answer else s).modCmd id fun y => y.markSector sector
      else s
    | none => s) s

/-- XPUT_ACK_TIMEOUT (R277): an acknowledgement is missing for RINGCTL.TMO: the command completes with PEERLOST. -/
def execXputAckTimeout (id : CmdId) (s : State) : Host.Outcome State Fault Refusal :=
  cmdEvent id (fun c s =>
    match copyOf c with
    | some x => if x.kind = .put ∧ c.first < x.sectors then s.finish c 2 else s
    | none => s) s

/-! ## ENGINE_FAULT (R124) -/

/-- The fault that a copy's next sector meets: its source, then its destination. -/
def State.testSector (s : State) (c : Command) (x : CopyArgs) (n : Nat) : State × Option EngFault :=
  let (i, k, len) := x.sectorAt n
  let (se, de, lane) := x.row i
  match s.sourceBytes c x.src se lane (x.c0 + k) len with
  | (s, .error f) => (s, some f)
  | (s, .ok _) =>
    if x.kind = .put then (s, none)
    else match s.destPlace x.dst de lane k len with
      | (s, .error f) => (s, some f)
      | (s, .ok _) => (s, none)

/-- ENGINE_FAULT (R124): the next element of a command is tested; where it meets a fault, the command stops before it and
the trap waits for delivery. A command of another engine meets its faults in its own events. -/
def execEngineFault (id : CmdId) (s : State) : Host.Outcome State Fault Refusal :=
  cmdEvent id (fun c s =>
    match copyOf c with
    | some x =>
      if c.first < x.sectors then
        match s.testSector c x c.first with
        | (t, some f) => t.engineStopAt c f c.first
        | (_, none) => s
      else s
    | none => s) s

end Sys2Proof.Machine
end

