-- ==== Sys2Proof/Machine/Xform.lean ====
section
/-! DEFINITION. XFORM (spec/16 R422 to R424) with its layout records, and XSTAT (R426). -/

namespace Sys2Proof.Machine

/-! ## Operands (R422) -/

/-- What an XFORM command captures at issue: code, level, rounding mode and SAT, α, β and the threshold, and its
endpoints: a tile by its number or the VA of a layout record. -/
structure XformArgs where
  code : Nat
  level : Nat
  rm : Nat
  sat : Bool
  alpha : Val
  beta : Val
  h : Val
  dst : Nat
  src : Nat
  tileB : Nat
  ld : Bool
  la : Bool
  deriving DecidableEq, Repr

/-- The codes that name tile B. -/
def binaryCode (code : Nat) : Bool := code == 2 || code == 3 || code == 4
/-- The linear codes of Table 16-6. -/
def linearCode (code : Nat) : Bool := code == 0 || code == 2 || code == 4 || code == 5

def xformArgs (l : Lane) (ops : List Word64) : XformArgs :=
  let imm := l.imm.toNat
  let op (i : Nat) : Nat := (ops.getD i 0).toNat
  let ld := bitOf imm 6
  let la := bitOf imm 5
  { code := bitsOf imm 0 5, level := bitsOf imm 10 3, rm := op 1, sat := l.sat == 1
    alpha := fp32.value (bitsOf (op 0) 0 32), beta := fp32.value (bitsOf (op 0) 32 32), h := fp32.value (op 2)
    dst := if ld then op 3 else l.vd.toNat, src := if la then op 4 else l.va.toNat, tileB := l.vb.toNat, ld := ld, la := la }

/-! ## Shapes and domains (R424 steps 1 and 2) -/

/-- The result domain, once the domains of the sources are known. -/
def resultDom (code level a : Nat) (b : Option Nat) : Nat :=
  if code = 12 then level
  else if linearCode code ∧ (b.getD a = a) then a
  else 0

/-- A tile of `rows` × `cols` does not have the shape of `a`, transposed for `.tr`. -/
def shapeMisfit (code : Nat) (d a : Tile) : Bool :=
  if code = 1 then d.rows != a.cols || d.cols != a.rows else d.rows != a.rows || d.cols != a.cols

/-- What R424 refuses among the endpoints that are known: A, B and D. -/
def xformMisfit (code level : Nat) (a b d : Option Tile) : Bool :=
  let ad := match a, d with
    | some a, some d => shapeMisfit code d a
    | _, _ => false
  let bd := match b, d with
    | some b, some d => shapeMisfit code d b
    | _, _ => false
  let ab := match a, b with
    | some a, some b => a.rows != b.rows || a.cols != b.cols
    | _, _ => false
  let hfwd := code == 12 && ((a.map fun t => t.dom != 0).getD false)
  let dom := if code = 12 then some level
    else match a with
      | some a => if binaryCode code && b.isNone then none else some (resultDom code level a.dom (b.map (·.dom)))
      | none => none
  let rows := match dom, d with
    | some m, some d => m != 0 && d.rows % 32 != 0
    | _, _ => false
  ad || bd || ab || hfwd || rows

/-! ## Issue -/

def xform (l : Lane) : Act Unit := do
  let (active, mark) ← laneStart l
  let x := xformArgs l []
  let two := binaryCode x.code
  if !x.ld then checkTile active l.vd
  if !x.la then checkTile active l.va
  if two then checkTile active l.vb
  if active = 0 then retireWork 3
  else
    needProducer active
    let f ← readS (sregOf l.vc)
    let dstVa ← if x.ld then readS (sregOf l.vd) else pure 0
    let srcVa ← if x.la then readS (sregOf l.va) else pure 0
    let some' (n : BitVec 11) : Act (Option Tile) := do pure (some (← useTile active n))
    let d ← if x.ld then pure none else some' l.vd
    let a ← if x.la then pure none else some' l.va
    let b ← if two then some' l.vb else pure none
    if xformMisfit x.code x.level a b d then badRecord active
    let s ← get
    let ops := [f, BitVec.ofNat 64 (s.g.rounding l.rm.toNat), (s.g.hregs.get (bitsOf l.imm.toNat 7 3)).setWidth 64, dstVa, srcVa]
    let drained := ((if x.la then [] else [l.va.toNat]) ++ (if two then [l.vb.toNat] else [])).dedup.filter fun n => x.ld || n != l.vd.toNat
    checkRoom .xform 16
    let _ ← issueCommand .xform (.xform l) active mark
      { ops := ops, tiles := (if x.ld then [] else [(l.vd.toNat, true)]) ++ drained.map fun n => (n, false) }
    retireWork 3

/-- XFORM (R422). -/
def execXform (l : Lane) (s : State) : Host.Outcome State Fault Refusal := Act.outcome (xform l) s

/-! ## Layout records (R423) -/

/-- A matrix in virtual memory: its shape as a tile of that shape, and where it lies. -/
structure Layout where
  shape : Tile
  va : Nat
  sva : Nat
  pitch : Nat
  deriving DecidableEq, Repr

def layoutOf (v : Nat) : Layout :=
  let rows := bitsOf v 200 7 + 1
  { shape := { surv := rowsMask rows, gen := 0, state := 2, scl := bitOf v 196, dom := bitsOf v 197 3, fmt := bitsOf v 192 4
               cols := bitsOf v 208 9 + 1, rows := rows, swz := 0, pitch := bitsOf v 128 32, addr := 0 }
    va := bitsOf v 0 56, sva := bitsOf v 64 56, pitch := bitsOf v 128 32 }

/-- What R423 refuses in a record; "DOM, as tile DOM" brings the row count of R74 (DEDUCED, log entry 40). -/
def layoutBad (v : Nat) : Bool :=
  let m := layoutOf v
  bitsOf v 56 8 != 0 || bitsOf v 120 8 != 0 || bitsOf v 160 32 != 0 || bitOf v 207 || bitsOf v 217 39 != 0
    || decide (10 ≤ m.shape.fmt) || decide (6 ≤ m.shape.dom) || decide (m.pitch < m.shape.rowBytes)
    || (m.shape.dom != 0 && m.shape.rows % 32 != 0)

/-- The addresses of row k: its data, then its scales. -/
def Layout.addrs (m : Layout) (k : Nat) : List Nat :=
  (List.range m.shape.rowBytes).map (m.va + k * m.pitch + ·)
    ++ (if isScaled m.shape.fmt then (List.range m.shape.blocks).map (m.sva + k * m.shape.blocks + ·) else [])

/-- What stops an XFORM before or at an element: the fault and the element's number. -/
structure XformStop where
  at' : EngFault
  elem : Nat
  deriving DecidableEq, Repr

/-- The column that byte j of a row and its scales belongs to. -/
def Tile.colOfByte (t : Tile) (j : Nat) : Nat := if j < t.rowBytes then 8 * j / t.width else 32 * (j - t.rowBytes)

/-- The element of row k of a layout that lies at an address. -/
def Layout.elemAt (m : Layout) (k a : Nat) : Nat :=
  let j := ((m.addrs k).zipIdx.find? fun p => p.1 == a).elim 0 Prod.snd
  k * m.shape.cols + m.shape.colOfByte j

/-- The VA that a fault at an address of row k reports: the first byte of the element there, or a scale byte itself (R132,
DESIGN CHOICE for scales, log entry 75). -/
def Layout.faultVa (m : Layout) (k a : Nat) : Nat :=
  match (m.addrs k).zipIdx.find? fun p => p.1 == a with
  | some (_, j) => if j < m.shape.rowBytes then m.va + k * m.pitch + m.shape.colOfByte j * m.shape.width / 8 else a
  | none => a

/-- What stops an XFORM at an address of row k. -/
def Layout.stopAt (m : Layout) (k : Nat) (f : Flt) (write : Bool) (a : Nat) : XformStop := ⟨⟨f, write, m.faultVa k a⟩, m.elemAt k a⟩

/-- R423: the layout record at a VA, read as the engine's own access, once per command. -/
def State.readLayout (s : State) (c : Command) (va : Nat) : State × Except XformStop Layout :=
  let stop (s : State) (f : Flt) : State × Except XformStop Layout := (s, .error ⟨⟨f, false, va⟩, 0⟩)
  if vaSize < va + 32 then stop s (tfault 4 15)
  else if va % 32 ≠ 0 then stop s protBrec
  else match s.readOnce c 0 ((List.range 32).map (va + ·)) with
    | (s, .error (f, _)) => stop s f
    | (s, .ok bs) =>
      if bs.any fun b => b.getLsbD 9 then stop s eccPoison
      else
        let v := natOf (bs.map fun b => b.setWidth 8)
        if layoutBad v then stop s protBrec else (s, .ok (layoutOf v))

/-- An endpoint as its command finds it. -/
inductive XEnd where
  | tile (n : Nat)
  | layout (m : Layout)
  deriving DecidableEq, Repr

def State.xshape (s : State) (e : XEnd) : Tile :=
  match e with
  | .tile n => s.tile n
  | .layout m => m.shape

def State.xend (s : State) (c : Command) (isLayout : Bool) (v : Nat) : State × Except XformStop XEnd :=
  if isLayout then
    match s.readLayout c v with
    | (s, .ok m) => (s, .ok (.layout m))
    | (s, .error f) => (s, .error f)
  else (s, .ok (.tile v))

/-! ## Source elements (R424 steps 2 and 3) -/

/-- The exact values of a row from its bytes. -/
def rowOfBytes (t : Tile) (data scales : List Byte) : List Val :=
  let n := natOf data
  (List.range t.cols).map fun c =>
    let code := bitsOf n (c * t.width) t.width
    if isIntFmt t.fmt then valOfInt (signedOf t.width code) else codeValue t.fmt t.scl (scales.getD (c / 32) 0).toNat code

/-- Bytes of row k of a layout, each read once until the command has read them all. -/
def State.layoutRead (s : State) (c : Command) (m : Layout) (k : Nat) (addrs : List Nat) : State × Except XformStop (List Byte) :=
  match addrs.find? fun a => decide (vaSize ≤ a) with
  | some a => (s, .error (m.stopAt k (tfault 4 15) false a))
  | none =>
    match s.readOnce c 0 addrs with
    | (s, .error (f, a)) => (s, .error (m.stopAt k f false a))
    | (s, .ok bs) =>
      match (addrs.zip bs).find? fun p => p.2.getLsbD 9 with
      | some p => (s, .error (m.stopAt k eccPoison false p.1))
      | none => (s, .ok (bs.map fun b => b.setWidth 8))

/-- Blocks of row k of a layout in an MX format, each its scale and its element bytes: of an SX8 block of zeros no element byte is
read (R185 Table 7-7). -/
def State.layoutBlocks (s : State) (c : Command) (m : Layout) (k : Nat) (js : List Nat) : State × Except XformStop (List Byte × List Byte) :=
  match js with
  | [] => (s, .ok ([], []))
  | j :: rest =>
    let len := min (4 * m.shape.width) (m.shape.rowBytes - 4 * m.shape.width * j)
    match s.layoutRead c m k [m.sva + k * m.shape.blocks + j] with
    | (s, .error f) => (s, .error f)
    | (s, .ok x) =>
      let (s, r) := if !m.shape.scl && x == [0x80] then (s, .ok (List.replicate len 0))
        else s.layoutRead c m k ((List.range len).map (m.va + k * m.pitch + 4 * m.shape.width * j + ·))
      match r with
      | .error f => (s, .error f)
      | .ok bs =>
        match s.layoutBlocks c m k rest with
        | (s, .error f) => (s, .error f)
        | (s, .ok (data, scales)) => (s, .ok (bs ++ data, x ++ scales))

/-- Row k of a layout: its data and its scales. -/
def State.layoutRow (s : State) (c : Command) (m : Layout) (k : Nat) : State × Except XformStop (List Byte × List Byte) :=
  if isScaled m.shape.fmt then s.layoutBlocks c m k (List.range m.shape.blocks)
  else match s.layoutRead c m k (m.addrs k) with
    | (s, .error f) => (s, .error f)
    | (s, .ok bs) => (s, .ok (bs, []))

/-- Rows of a layout, read in order. -/
def State.layoutRows (s : State) (c : Command) (m : Layout) (ks : List Nat) : State × Except XformStop (List (List Val)) :=
  match ks with
  | [] => (s, .ok [])
  | k :: rest =>
    match s.layoutRow c m k with
    | (s, .error f) => (s, .error f)
    | (s, .ok (data, scales)) =>
      match s.layoutRows c m rest with
      | (s, .ok rows) => (s, .ok (rowOfBytes m.shape data scales :: rows))
      | (s, .error f) => (s, .error f)

/-- Where a command keeps the byte j of row k of a source tile that it has read. -/
def tileKey (n k j : Nat) : Nat := 2 ^ 60 + n * 2 ^ 24 + k * 2 ^ 12 + j

/-- R459, R69: the first element of a tile row that a reader of the whole row finds uncorrectable. -/
def State.rowStop (s : State) (t : Tile) (k : Nat) : Option XformStop :=
  (List.range t.cols).findSome? fun c => (s.rowSoft t k [c]).map fun o => ⟨⟨{ cause := cECC, sub := s.winSoftSub 1 o }, false, o⟩, k * t.cols + c⟩

/-- The bytes of a row of a source tile, its scales after its data, read once per command: the destination may be the same tile. -/
def State.tileRowOnce (s : State) (c : Command) (n k : Nat) : State × Except XformStop (List Byte) :=
  let known : SMap 10 := match s.cmd? c.id with | some x => x.read | none => []
  let t := s.tile n
  let js := List.range t.copyBytes
  if known.get (tileKey n k 0) != 0 then (s, .ok (js.map fun j => (known.get (tileKey n k j)).setWidth 8))
  else match s.rowStop t k with
    | some f => (s, .error f)
    | none =>
      let bytes : List Byte := if t.alive k then (t.copyAddrs k 0 t.copyBytes).map (s.winByte 1)
        else js.map fun j => if j < t.rowBytes then 0 else BitVec.ofNat 8 (zeroScale t.scl)
      (s.modCmd c.id fun x => { x with read := bytes.zipIdx.foldl (fun (m : SMap 10) b => m.set (tileKey n k b.2) (readByte b.1 false)) x.read }, .ok bytes)

/-- Rows of a source tile, in order. -/
def State.tileRows (s : State) (c : Command) (n : Nat) (ks : List Nat) : State × Except XformStop (List (List Val)) :=
  match ks with
  | [] => (s, .ok [])
  | k :: rest =>
    let t := s.tile n
    match s.tileRowOnce c n k with
    | (s, .error f) => (s, .error f)
    | (s, .ok bytes) =>
      match s.tileRows c n rest with
      | (s, .ok rows) => (s, .ok (rowOfBytes t (bytes.take t.rowBytes) (bytes.drop t.rowBytes) :: rows))
      | (s, .error f) => (s, .error f)

/-- Rows reconstructed by R370, with the flags of its steps. -/
def reconstruct (t : Tile) (rows : List (List Val)) : List (List Val) × FpFlags :=
  (List.range (t.rows / 32)).foldl (fun (acc : List (List Val) × FpFlags) b =>
    let block := (rows.drop (32 * b)).take 32
    let cols := (List.range t.cols).map (t.reconColumn block)
    (acc.1 ++ (List.range 32).map fun i => cols.map fun c => c.1.getD i (zeroVal false),
      cols.foldl (fun (a : FpFlags) c => a.or c.2) acc.2)) ([], {})

/-- The rows of a source; one whose domain is not the result's is reconstructed. -/
def State.sourceRows (s : State) (c : Command) (e : XEnd) (dom : Nat) : State × Except XformStop (List (List Val) × FpFlags) :=
  let t := s.xshape e
  let give (rows : List (List Val)) : List (List Val) × FpFlags := if t.dom = dom || t.dom = 0 then (rows, {}) else reconstruct t rows
  let (s, r) := match e with
    | .tile n => s.tileRows c n (List.range t.rows)
    | .layout m => s.layoutRows c m (List.range t.rows)
  match r with
  | .ok rows => (s, .ok (give rows))
  | .error f => (s, .error f)

/-! ## Results (Table 16-6) -/

def libFor (code : Nat) (x : Val) : Lib :=
  match code with
  | 7 => libGelu x
  | 8 => libSilu x
  | 9 => libExp x
  | 10 => libTanh x
  | _ => libSigmoid x

/-- One result element of sources of which the first comes from `ta`, exact but for a library function, which takes an FP32 value
(R186) and is rounded to FP32 first (R194). -/
def xformElem (x : XformArgs) (ta : Tile) (a b : Val) : Fp Val :=
  let sum (p q : Fp Val) : Fp Val :=
    let r := sumVals (x.rm == 2) [p.val, q.val]
    { val := r.val, fl := (p.fl.or q.fl).or r.fl }
  match x.code with
  | 2 => sumVals (x.rm == 2) [a, b]
  | 3 => mulVal a b
  | 4 => sum (mulVal x.alpha a) (mulVal x.beta b)
  | 5 => mulVal x.alpha a
  | 6 => { val := minVal a (zeroVal false) true }
  | 7 | 8 | 9 | 10 | 11 =>
    let v := coeffValue ta a
    let r := libFor x.code v.val
    { val := r.val, fl := v.fl.or { invalid := r.invalid, ovf := r.ovf } }
  | _ => { val := a }

/-- `.hfwd`: every block, as FP32 values (R186), transformed to the level and thresholded (R370, R372). -/
def forwardRows (x : XformArgs) (t : Tile) (rows : List (List Val)) : List (List Val) × FpFlags :=
  (List.range (t.rows / 32)).foldl (fun (acc : List (List Val) × FpFlags) b =>
    let block := (rows.drop (32 * b)).take 32
    let cols := (List.range t.cols).map fun c =>
      let vs := (columnOf block c).map (coeffValue t)
      let r := haarForward x.level (vs.map (·.val))
      (r.1, r.2.or (flagsOf vs))
    (acc.1 ++ (List.range 32).map fun i => cols.map fun c => thresholdVal x.h (c.1.getD i (zeroVal false)),
      cols.foldl (fun (a : FpFlags) c => a.or c.2) acc.2)) ([], {})

/-- The result rows from the source rows. -/
def xformRows (x : XformArgs) (ta d : Tile) (as bs : List (List Val)) : List (List (Fp Val)) × FpFlags :=
  let exact (rows : List (List Val)) : List (List (Fp Val)) := rows.map fun r => r.map fun v => { val := v }
  if x.code = 12 then
    let (rows, fl) := forwardRows x ta as
    (exact rows, fl)
  else if x.code = 1 then (exact ((List.range d.rows).map fun c => columnOf as c), {})
  else
    let bs' := if binaryCode x.code then bs else as
    ((as.zip bs').map fun p => (p.1.zip p.2).map fun q => xformElem x ta q.1 q.2, {})

/-- An arithmetic result is the canonical NaN; a conversion keeps its sign (R177). -/
def xformVal (code : Nat) (v : Fp Val) : Val :=
  if v.val.isNan && !(code == 0 || code == 1) then .nan false else v.val

/-- The first column of a row that is written as a NaN (R201). -/
def nanColumn (t : Tile) (rnd : Nat → Rounder) (sat : Bool) (vs : List Val) : Option Nat :=
  if isIntFmt t.fmt then none
  else (vs.zipIdx.find? fun v => v.1.isNan || (!isScaled t.fmt && ((tileFmt t.fmt).round (rnd v.2) sat v.1).fl.nan)).map Prod.snd

/-! ## Output (R424 step 4) -/

/-- The bytes of a row of a layout that a row write stores, with the byte each replaces at hand: by position in the row and
its scales. A dead row is written as zeros. -/
def layoutBytes (t : Tile) (old : Nat → Byte) (r : RowWrite) : List (Nat × Byte) :=
  let scales := r.blocks.map fun b => (b.1, b.2.scale)
  let cells := r.codes ++ r.blocks.flatMap fun b => (b.2.codes.getD []).zipIdx.map fun c => (32 * b.1 + c.2, c.1)
  let scaleAt (c : Nat) : Nat := ((scales.find? fun x => x.1 == c / 32).map Prod.snd).getD 0
  let alive := cells.any fun c => countsAlive t.fmt t.scl (scaleAt c.1) c.2
  let w := t.width
  let cells := if alive then cells else (List.range t.cols).map fun c => (c, 0)
  let value := cells.foldl (fun (n : Nat) c => n + place c.2 (c.1 * w) w) 0
  let mask := cells.foldl (fun (n : Nat) c => n + (2 ^ w - 1) * 2 ^ (c.1 * w)) 0
  let data := (List.range t.rowBytes).filterMap fun j =>
    let m := BitVec.ofNat 8 (mask / 2 ^ (8 * j))
    if m = 0 then none else some (j, (old j &&& ~~~m) ||| BitVec.ofNat 8 (value / 2 ^ (8 * j)))
  data ++ scales.map fun x => (t.rowBytes + x.1, BitVec.ofNat 8 (if alive then x.2 else zeroScale t.scl))

/-- One row goes into a layout; an address or translation that faults stops before the row, and a member that does not take the
store after it (R59). -/
def State.writeLayoutRow (s : State) (c : Command) (m : Layout) (r : RowWrite) : State × Except XformStop Unit :=
  let addrs := m.addrs r.row
  match addrs.find? fun a => decide (vaSize ≤ a) with
  | some a => (s, .error (m.stopAt r.row (tfault 4 15) true a))
  | none =>
    match s.storePlaces addrs with
    | (s, .error f) => (s, .error (m.stopAt r.row f.flt true f.va))
    | (s, .ok rs) =>
      let old (j : Nat) : Byte := s.byte ((placesOf rs (addrs.getD j 0)).headD 0)
      let cells := layoutBytes m.shape old r
      let vas := cells.map fun x => addrs.getD x.1 0
      let s := s.writeSector c r.row (.virt vas rs) (cells.map fun x => readByte x.2 false)
      match (rs.filter fun x => vas.any fun a => a / 128 == x.1).findSome? fun x => x.2.lost.map fun f => (f, addrIn vas x.1) with
      | some (f, a) => (s, .error (m.stopAt r.row f true a))
      | none => (s, .ok ())

/-- An output row is written (R424 step 4). -/
def State.writeResult (s : State) (c : Command) (d : XEnd) (r : RowWrite) : State × Except XformStop Unit :=
  match d with
  | .tile n => (s.writeRow n r, .ok ())
  | .layout m => s.writeLayoutRow c m r

/-- The command stops for delivery; before its output has begun, it reads its sources again when it restarts. -/
def State.xformStop (s : State) (c : Command) (f : XformStop) : State :=
  let s := if c.pos = 0 then s.modCmd c.id fun y => { y with read := [] } else s
  s.engineStop c (cmdTrap f.at'.flt (if f.at'.write then 5 else 4) f.at'.va) f.elem

/-- The elements of a source stay integers: an integer format, not reconstructed (R370 gives FP32 values). -/
def Tile.staysInt (t : Tile) (dom : Nat) : Bool := isIntFmt t.fmt && (t.dom == 0 || t.dom == dom)

/-- R174, R184: the result elements are integers, which wrap without SAT: conversions, sums, products and maxima of integer elements.
Any other result is rounded to an integer. -/
def keepsInts (code dom : Nat) (a : Tile) (b : Option Tile) : Bool :=
  (decide (code < 4) || code == 6 || code == 13) && a.staysInt dom && ((b.map fun t => t.staysInt dom).getD true)

/-- XFORM's next output row, once its endpoints are known. The whole command is one K step: its NaNs are looked for before
anything is written (R203). When every row is written, the command completes as soon as its stores are performed (R59, R110). -/
def State.xformRun (s : State) (c : Command) (x : XformArgs) (a : XEnd) (b : Option XEnd) (d : XEnd) : State :=
  let ta := s.xshape a
  let td := s.xshape d
  let dom := resultDom x.code x.level ta.dom (b.map fun e => (s.xshape e).dom)
  let wrongDom := match d with
    | .layout m => m.shape.dom != dom
    | .tile _ => false
  if xformMisfit x.code x.level (some ta) (b.map s.xshape) (some td) || wrongDom then
    s.xformStop c ⟨⟨protBrec, wrongDom, if x.la then x.src else x.dst⟩, 0⟩
  else
    match s.sourceRows c a (if x.code = 12 then 0 else dom) with
    | (s, .error f) => s.xformStop c f
    | (s, .ok (as, fa)) =>
      let rb : State × Except XformStop (List (List Val) × FpFlags) := match b with
        | none => (s, .ok ([], {}))
        | some e => s.sourceRows c e dom
      match rb with
      | (s, .error f) => s.xformStop c f
      | (s, .ok (bs, fb)) =>
        let (rows, fr) := xformRows x ta td as bs
        let rnd (k col : Nat) : Rounder := c.rounder x.rm (512 * k + col)
        let vals : List (List Val) := rows.map fun r => r.map (xformVal x.code)
        let nan := ((vals.zipIdx.drop c.pos).findSome? fun r => (nanColumn td (rnd r.2) x.sat r.1).map fun col => (r.2, col))
        match nan, c.nanTrap with
        | some (k, col), true =>
          (if c.pos = 0 then s.modCmd c.id fun y => { y with read := [] } else s).engineStop c (nanTrapOf c 0 k col) (k * td.cols + col)
        | _, _ =>
          let out := rowWrite td c.pos 0 (rnd c.pos) x.sat (keepsInts x.code dom ta (b.map s.xshape)) (vals.getD c.pos [])
          match s.writeResult c d out.val with
          | (s, .error f) => s.xformStop c f
          | (s, .ok _) =>
            let steps : FpFlags := if c.pos = 0 then { (fa.or fb).or fr with nan := false } else {}
            let fl := (steps.or { flagsOf (rows.getD c.pos []) with nan := false }).or out.fl
            (s.cmdFlags c fl).modCmd c.id fun y => { y with pos := c.pos + 1 }

/-- Every row is written and every store performed (R110): a destination tile takes the result domain, and the command ends. -/
def State.xformEnd (s : State) (c : Command) (x : XformArgs) (a : XEnd) (b : Option XEnd) (d : XEnd) : State :=
  let dom := resultDom x.code x.level (s.xshape a).dom (b.map fun e => (s.xshape e).dom)
  let s := match d with
    | .tile n => s.setTile n { s.tile n with dom := dom }
    | .layout _ => s
  s.finish c 0

/-- XFORM_COMPLETE (R424, R267): the next output row is written, or the command completes. -/
def execXformComplete (id : CmdId) (s : State) : Host.Outcome State Fault Refusal :=
  cmdEvent id (fun c s =>
    match c.instr with
    | .xform l =>
      let x := xformArgs l c.ops
      match s.xend c x.la x.src with
      | (s, .error f) => s.xformStop c f
      | (s, .ok a) =>
        match s.xend c x.ld x.dst with
        | (s, .error f) => s.xformStop c f
        | (s, .ok d) =>
          let b := if binaryCode x.code then some (XEnd.tile x.tileB) else none
          if c.pos < (s.xshape d).rows then s.xformRun c x a b d
          else if s.allAcked (.cmd id) then s.xformEnd c x a b d
          else s
    | _ => s) s

/-! ## XSTAT (R426) -/

/-- R426: the die-scratchpad grant of the current group's node on its die. -/
def State.landWord (s : State) : Word64 :=
  match s.grants.find? fun g => g.node == s.g.id.node && g.quad.isNone && g.die == s.g.die with
  | some g => BitVec.ofNat 64 (place s.pkg 36 12 + s.g.die.toNat * 2 ^ 32 + place (g.base * 1048576) 0 26)
  | none => allOnes

/-- R426: the state of a spore channel. -/
def State.sporeWord (s : State) (chan : Nat) : Word64 :=
  match s.channels.find? fun x => x.num.toNat == chan with
  | some x => BitVec.ofNat 64 (x.sendSeq.toNat * 2 ^ 32 + place x.slots 16 7
      + place (x.spores.filter (·.landed)).length 8 7 + place x.permits 0 7)
  | none => 0

/-- A result goes to a scalar register and the instruction retires, its hang counter reset (R219). -/
def giveWork (d : BitVec 7) (v : Word64) : Act Unit := do
  writeS d v
  retireWork 3

def xstat (l : Lane) : Act Unit := do
  let (active, _) ← laneStart l
  if active = 0 then retireWork 3
  else
    let b ← readS (sregOf l.vb)
    let mode := l.imm.toNat % 8
    let d := sregOf l.vd
    let s ← get
    if mode = 3 then giveWork d s.landWord
    else
      let ctx ← namedCtx b.toNat
      if mode = 4 then
        (match ctx with
          | .spore chan => giveWork d (s.sporeWord chan.toNat)
          | _ => trapAll cILLOP 2 0)
      else if mode = 0 then giveWork d (ctxGet s.w.issued ctx)
      else
        writeS d (ctxGet s.w.errors ctx)
        if mode = 2 then modify fun s => { s with w := { s.w with errors := ctxSet s.w.errors ctx 0 } }
        retireWork 3

/-- XSTAT (R426). -/
def execXstat (l : Lane) (s : State) : Host.Outcome State Fault Refusal := Act.outcome (xstat l) s

end Sys2Proof.Machine
end

