-- ==== Sys2Proof/Machine/Reduce.lean ====
section
/-! DEFINITION. XRED and the switch reduction (spec/16 R425; spec/02 R61). -/

namespace Sys2Proof.Machine

/-! ## Operands and issue -/

/-- An XRED command as rows of a copy (R425), with NCONT. -/
def xredArgs (l : Lane) (ops : List Word64) (recs : List (BitVec 128)) : CopyArgs × Nat :=
  let imm := l.imm.toNat
  let op (i : Nat) : Nat := (ops.getD i 0).toNat
  let x := copyArgs .copy { l with imm := 0 } ops (recs.getD 0 0) (recs.getD 1 0) (recs.getD 2 0).toNat []
  ({ x with src := { x.src with tile := bitOf imm 2, win := bitsOf imm 3 2 } }, bitsOf (op 2) 0 13)

/-- R425: BASE, STRIDE or RB no multiple of 4, a swizzle, or NCONT out of range. -/
def xredBad (x : CopyArgs) (ncont : Nat) : Bool :=
  x.dst.r.swz != 0 || x.dst.r.base % 4 != 0 || x.dst.r.stride % 4 != 0 || x.rb % 4 != 0 || ncont == 0 || decide (4096 < ncont)

def xred (l : Lane) : Act Unit := do
  let (active, mark) ← laneStart l
  let st := l.imm.getLsbD 2
  if st then checkTile active l.va
  if active = 0 then retireWork 3
  else
    let ops ← readBlock (sregOf l.vb) 3
    let dst ← endRecord active false l.vd
    let src ← endRecord active st l.va
    let recs := [dst, src, BitVec.ofNat 128 (← get).g.privOver]
    let (x, ncont) := xredArgs l ops recs
    if xredBad x ncont then badRecord active
    endTile active x.src l.va x.rb ((List.range x.rows).map fun i => (x.row i).1)
    let _ ← issueCommand .xred (.xred l) active mark { ops := ops, recs := recs }
    retireWork 3

/-- XRED (R425). It is no drain command of a source tile (R76). -/
def execXred (l : Lane) (s : State) : Host.Outcome State Fault Refusal := Act.outcome (xred l) s

/-! ## Arithmetic (R61) -/

/-- One element reduced: its prior value and the contributions. -/
def reduceFp (f : Fmt) (op : Nat) (prior : Nat) (xs : List Nat) : Nat :=
  let vs := (prior :: xs).map f.value
  let v := if op = 0 then (sumVals false vs).val
    else vs.tail.foldl (fun a b => minVal a b (op == 2)) (vs.headD (zeroVal false))
  (f.round rne false (if v.isNan then .nan false else v)).val

/-- One 32-bit word reduced (R61): TYPE 0 is int32, 2 FP32, 3 two BF16. -/
def reduceWord (op type prior : Nat) (xs : List Nat) : Nat :=
  match type with
  | 0 =>
    if op = 0 then xs.foldl (fun a b => (a + b) % 2 ^ 32) prior
    else
      let pick (a b : Nat) : Nat :=
        let less := decide (signedOf 32 a < signedOf 32 b)
        if op = 1 then (if less then a else b) else if less then b else a
      xs.foldl pick prior
  | 2 => reduceFp fp32 op prior xs
  | _ =>
    let half (i : Nat) : Nat := reduceFp bf16 op (bitsOf prior (16 * i) 16) (xs.map fun x => bitsOf x (16 * i) 16)
    half 0 + half 1 * 2 ^ 16

/-- The reduced word at a place of a line; contributions that name different operations or types have no stated result, which
depends on the words and not on the order of their arrival (R5, R61; DESIGN CHOICE, log entry 38). -/
def State.reduced (s : State) (r : Reduction) (o : Nat) : Option (Nat × Bool) :=
  let cs := r.contributions.filter fun c => c.words.any fun w => w.1 == o
  match cs with
  | [] => none
  | c :: rest =>
    let value (c : Contribution) : Nat := ((c.words.find? fun w => w.1 == o).map fun w => w.2.toNat).getD 0
    let mixed := rest.any fun d => d.op != c.op || d.type != c.type
    let pa := r.members.headD 0 * 128 + 4 * o
    let prior := s.num pa 4
    let bad := cs.any (fun d => d.poison.contains o) || s.isPoisoned pa
    let free (_ : Unit) : Nat :=
      (Config.unstated 4 (prior :: sortBy (fun a b => decide (a ≤ b)) (cs.map fun d => value d + 2 ^ 32 * d.type + 2 ^ 40 * d.op))).toNat % 2 ^ 32
    some (if mixed then free () else reduceWord c.op c.type prior (cs.map value), bad)

/-! ## Lines of a command -/

/-- What has become of a line of a command's destination: contributed, written, abandoned, or not counted. -/
def lineSent : Word32 := 1
def lineWritten : Word32 := 2
def lineLost : Word32 := 3
def lineRefused : Word32 := 4

def State.setLine (s : State) (c : CmdId) (line : Nat) (v : Word32) : State := s.modCmd c fun x => { x with vals := x.vals.set line v }

/-- The words that a command reduces: their VA, row and byte of the row. -/
def CopyArgs.redWords (x : CopyArgs) : List (Nat × Nat × Nat) :=
  (List.range x.rows).flatMap fun i =>
    let (_, de, lane) := x.row i
    if de < x.dst.r.extent then (List.range (x.rb / 4)).map fun j => (x.dst.r.addr (x.dst.num == 31) lane de (4 * j), i, 4 * j) else []

/-- The lines that a command touches, in element order. -/
def CopyArgs.redLines (x : CopyArgs) : List Nat := (x.redWords.map fun w => w.1 / 128).dedup

/-- A destination row out of bounds (R415). -/
def CopyArgs.redOob (x : CopyArgs) : Option Nat := (List.range x.rows).find? fun i => x.dst.r.extent ≤ (x.row i).2.1

/-- The source bytes of the words of a line, each with its VA and whether it carries poison. An XRED is no drain command of its source
tile (R76), so a TDEF or TFREE may change the tile's entry meanwhile: each contribution reads through the entry as it then stands, and
a freed tile gives zeros (DESIGN CHOICE, log entry 79). -/
def State.redRead (s : State) (c : Command) (x : CopyArgs) (ws : List (Nat × Nat × Nat)) :
    State × Except (EngFault × Nat) (List (Nat × Word32 × Bool)) :=
  match ws with
  | [] => (s, .ok [])
  | (va, i, k) :: rest =>
    let (se, _, lane) := x.row i
    match s.sourceBytes c x.src se lane k 4 with
    | (s, .error f) => (s, .error (f, i * (x.rb / 4) + k / 4))
    | (s, .ok bs) =>
      let v : List Byte := bs.map fun b => b.setWidth 8
      match s.redRead c x rest with
      | (s, .ok more) => (s, .ok ((va, BitVec.ofNat 32 (natOf v), bs.any fun b => b.getLsbD 9) :: more))
      | (s, .error e) => (s, .error e)

/-- What becomes of the line of a contribution of this package; other packages hear of theirs over Freip. -/
def State.settleLine (s : State) (c : Contribution) (v : Word32) : State :=
  match c.cmd with
  | some id => s.setLine id c.line v
  | none => s

/-- Every contribution has arrived: the covered words are written to every member, as stores of each contributing node, and the
lines of the contributing commands are done (R425). An invalidation may have waited for it (R138). -/
def State.endReduction (s : State) (r : Reduction) : State :=
  let out := (List.range 32).filterMap fun o => (s.reduced r o).map fun v => (o, v)
  let cells := out.flatMap fun p => r.members.flatMap fun m => cellsAt (m * 128 + 4 * p.1) (bytesOf 4 p.2.1)
  let s := s.plainStore cells
  let s := s.poison ((out.filter fun p => p.2.2).flatMap fun p => r.members.map fun m => m * 128 + 4 * p.1)
  let s := { s with reductions := s.reductions.filter fun q => q.line != r.line }
  let s := (r.contributions.filterMap (·.cmd)).foldl (fun s id => s.noteOwnOf id.wg.node (cells.map Prod.fst)) s
  (r.contributions.foldl (fun s c => s.settleLine c lineWritten) s).endInvalidate

/-- A contribution reaches the switches: it opens its line's instance or is counted there (R425). -/
def State.redArrives (s : State) (members : List Nat) (ncont : Nat) (c : Contribution) : State :=
  let line := members.headD 0
  match s.reductions.find? fun r => r.line == line with
  | none =>
    let r : Reduction := { line := line, members := members, count := ncont, contributions := [c] }
    let s := s.settleLine c lineSent
    if ncont = 1 then s.endReduction r else { s with reductions := s.reductions ++ [r] }
  | some r =>
    if r.count ≠ ncont then s.settleLine c lineRefused
    else
      let r := { r with contributions := r.contributions ++ [c] }
      let s := s.settleLine c lineSent
      if r.contributions.length = r.count then s.endReduction r
      else { s with reductions := s.reductions.map fun q => if q.line == line then r else q }

/-- R90: where rows cover a word more than once, the value that comes last in the command's element order is contributed. -/
def lastWords (vs : List (Nat × Word32 × Bool)) : List (Nat × Word32 × Bool) :=
  vs.foldl (fun acc v => acc.filter (fun a => a.1 != v.1) ++ [v]) []

/-- What stops a contribution at its translation: a leaf that is not PEER, or a member that does not take the line (R425, R59). -/
def redFault (t : Xlat) : Option Flt := if ptePeer t.leaf.entry then t.lost else some protBrec

/-- The contribution of a command to one line of its destination. The command translates it through the translation cache of its
issuer's core (R118; DESIGN CHOICE, log entry 75). -/
def State.contribute (s : State) (c : Command) (op type : Nat) (x : CopyArgs) (ncont line : Nat) : State :=
  let ws := x.redWords.filter fun w => w.1 / 128 == line
  let stop (s : State) (f : EngFault) (elem : Nat) : State := s.engineStop c (cmdTrap f.flt (if f.write then 5 else 4) f.va) elem
  let elem := ((ws.head?).map fun w => w.2.1 * (x.rb / 4) + w.2.2 / 4).getD 0
  let va := ((ws.head?).map Prod.fst).getD 0
  match s.redRead c x ws with
  | (s, .error (f, e)) => stop s f e
  | (s, .ok vs) =>
    match s.translate s.here s.g.asid { write := true } (line * 128) with
    | (s, .error f) => stop s ⟨f, true, va⟩ elem
    | (s, .ok t) =>
      match redFault t with
      | some f => stop s ⟨f, true, va⟩ elem
      | none =>
        match s.setDirty s.here s.g.asid { write := true } (line * 128) with
        | (s, .error f) => stop s ⟨f, true, va⟩ elem
        | (s, .ok again) =>
          let t := again.getD t
          match redFault t with
          | some f => stop s ⟨f, true, va⟩ elem
          | none =>
            let vs := lastWords vs
            let place (a : Nat) : Nat := a % 128 / 4
            let s := s.emitCmd c elem (Sys2Proof.Machine.runsOf (vs.flatMap fun v => cellsAt v.1 (bytesOf 4 v.2.1.toNat)))
            s.redArrives (t.pas.map (· / 128)) ncont
              { cmd := some c.id, line := line, op := op, type := type, words := vs.map fun v => (place v.1, v.2.1)
                poison := (vs.filter fun v => v.2.2).map fun v => place v.1 }

/-- An XRED command with its lane fields. -/
def redEvent (id : CmdId) (f : Lane → Command → CopyArgs → Nat → State → State) (s : State) : Host.Outcome State Fault Refusal :=
  cmdEvent id (fun c s =>
    match c.instr with
    | .xred l =>
      let (x, ncont) := xredArgs l c.ops c.recs
      match x.redOob with
      | some i =>
        if x.dst.r.oobt then s.engineStop c (cmdTrap oobFlt 5 0) (i * (x.rb / 4)) else f l c x ncont (s.stick 0)
      | none => f l c x ncont s
    | _ => s) s

/-- XRED_CONTRIBUTION (R425): of a command of this package to a line of its destination, or from another package, which is refused
before READY (R452). -/
def execXredContribution (src : RedSource) (line : Nat) (s : State) : Host.Outcome State Fault Refusal :=
  match src with
  | .own id =>
    redEvent id (fun l c x ncont s =>
      if x.redLines.contains line && c.vals.get line == 0 then s.contribute c (l.imm.toNat % 4) l.type.toNat x ncont line else s) s
  | .foreign _ _ members ncont op type words poison =>
    .next (s.whenReady fun s => s.redArrives members ncont { cmd := none, line := line, op := op, type := type, words := words, poison := poison })

/-- XRED_COMPLETE (R425): every line has been written, abandoned, or had another count. -/
def execXredComplete (id : CmdId) (s : State) : Host.Outcome State Fault Refusal :=
  redEvent id (fun _ c x _ s =>
    let ends := x.redLines.map c.vals.get
    if ends.all fun v => v == lineWritten || v == lineLost || v == lineRefused then
      s.finish c (if ends.contains lineLost then 2 else if ends.contains lineRefused then 4 else 0)
    else s) s

/-- XRED_TIMEOUT (R61): the line ends without a write and its commands will complete with PEERLOST. `line` is the
instance's. -/
def execXredTimeout (line : Nat) (s : State) : Host.Outcome State Fault Refusal :=
  .next (match s.reductions.find? fun r => r.line == line with
    | none => s
    | some r =>
      let s := { s with reductions := s.reductions.filter fun q => q.line != line }
      (r.contributions.foldl (fun s c => s.settleLine c lineLost) s).endInvalidate)

end Sys2Proof.Machine
end

