-- ==== Sys2Proof/Machine/Queue.lean ====
section
/-! DEFINITION. Queues: QINIT, QPUSH and QPOP (spec/16 R427 to R430; spec/03 R83 to R85). A QPUSH or QPOP takes its tickets,
moves its elements and lets TAIL or HEAD pass them in one step (DESIGN CHOICE, log entry 41). -/

namespace Sys2Proof.Machine

/-! ## The queue control word (R83, R84) -/

/-- What a QCW says beside its counters. -/
structure Qcw where
  base : Nat
  logd : Nat
  elw : Nat
  head : Nat
  poptk : Nat
  tail : Nat
  pushtk : Nat
  deriving DecidableEq, Repr

def Qcw.of (v : Nat) : Qcw :=
  { base := bitsOf v 0 19, logd := bitsOf v 32 4, elw := bitsOf v 42 6, pushtk := bitsOf v 128 32, tail := bitsOf v 160 32
    poptk := bitsOf v 192 32, head := bitsOf v 224 32 }

def Qcw.depth (q : Qcw) : Nat := 2 ^ q.logd
def Qcw.esize (q : Qcw) : Nat := 4 * (q.elw + 1)
/-- Registers of an element (R356). -/
def Qcw.regs (q : Qcw) : Nat := q.elw + 1
def Qcw.ringBytes (q : Qcw) : Nat := q.depth * q.esize

/-- The scratchpad offset of the element of a ticket (R85). -/
def Qcw.elemAt (q : Qcw) (t : Nat) : Nat := q.base + t % q.depth * q.esize

/-- The difference of two counters modulo 2^32 (R85). -/
def ctrSub (a b : Nat) : Nat := (a + 2 ^ 32 - b % 2 ^ 32) % 2 ^ 32

/-- R85, R428: there is room for `n` tickets. -/
def Qcw.room (q : Qcw) (n : Nat) : Bool := decide (ctrSub (q.pushtk + n - 1) q.head < q.depth)
/-- R85, R429: `n` elements are published. -/
def Qcw.full (q : Qcw) (n : Nat) : Bool := decide (n ≤ ctrSub q.tail q.poptk)

/-- R84: a QCW that raises PROT/BREC: a reserved field, a depth out of range, or a ring over the QCW itself. -/
def qcwBad (v off : Nat) : Bool :=
  let q := Qcw.of v
  bitsOf v 48 80 != 0 || bitsOf v 36 6 != 0 || bitsOf v 19 13 != 0 || q.logd == 0 || decide (12 < q.logd)
    || (decide (q.base < off + 32) && decide (off < q.base + q.ringBytes))

/-- R84: the place of a QCW. Where a QCW meets several causes, which R84 does not order, its alignment and place (WINDOW) come
before its contents (BREC), and its ring's WINDOW comes last (DESIGN CHOICE, log entry 75). -/
def qcwPlace (active : Word32) (off : Nat) : Act Unit := do
  let s ← get
  if off % 32 ≠ 0 ∨ s.w.scrSize < off + 32 then trapAt protWindow 2 active off else pure ()

/-- R84: the checks of a QCW's contents. -/
def qcwCheck (active : Word32) (off v : Nat) : Act Qcw := do
  let s ← get
  if qcwBad v off then trapAt protBrec 2 active off
  let q := Qcw.of v
  if s.w.scrSize < q.base + q.ringBytes then trapAt protWindow 2 active off
  pure q

/-- A byte of a range of the scratchpad window with a soft error raises ECC (R69). -/
def checkScratch (active : Word32) (offs : List Nat) : Act Unit := do
  let s ← get
  match offs.find? fun o => s.winSoft 1 o with
  | some o => trapAt { cause := cECC, sub := s.winSoftSub 1 o } 2 active o
  | none => pure ()

/-- The QCW at an offset, checked (R84). -/
def readQcw (active : Word32) (off : Nat) : Act Qcw := do
  qcwPlace active off
  checkScratch active ((List.range 32).map (off + ·))
  let s ← get
  qcwCheck active off (s.winNum 1 off 32)

/-- One 32-bit counter of a QCW is written. -/
def State.setCounter (s : State) (off v : Nat) : State :=
  s.winStore 1 (cellsAt off (bytesOf 4 (v % 2 ^ 32)))

/-! ## QINIT (R427) -/

/-- The scratchpad offset that S[sQ] names. -/
def queueOff (a : Word64) : Nat := bitsOf a.toNat 0 19

def qinit (l : Lane) : Act Unit := do
  let (active, _) ← laneStart l
  if active = 0 then retireWork 3
  else
    let a ← readS (sregOf l.va)
    let c ← readS (sregOf l.vb)
    let off := queueOff a
    qcwPlace active off
    let _ ← qcwCheck active off c.toNat
    modify fun s => s.winStore 1 (cellsAt off (bytesOf 32 c.toNat))
    retireWork 3

/-- QINIT (R427). -/
def execQinit (l : Lane) (s : State) : Host.Outcome State Fault Refusal := Act.outcome (qinit l) s

/-! ## Waiters (R430, R230) -/

/-- A path that waits at one end of a queue: its place in key order, the step of its arrival and the tickets it wants. -/
structure QWaiter where
  id : GroupId
  slot : Bool
  key : Key
  arrival : Nat
  count : Nat
  noted : Bool
  deriving DecidableEq, Repr

def isPush (i : Instr) : Bool := match i with | .qpush _ => true | _ => false

/-- R430: the one served first: by key in a deterministic node, else by arrival. -/
def QWaiter.before (det : Bool) (a b : QWaiter) : Bool := if det then a.key.lt b.key else decide (a.arrival < b.arrival)

/-- The waiters of the current workgroup at an end of a queue, the first served first; a stopped group waits afresh once it is
restored (R264). -/
def State.qWaiters (s : State) (push : Bool) (off : Nat) : List QWaiter :=
  let one (g : Group) (slot : Bool) (p : Option Path) : List QWaiter :=
    match p with
    | none => []
    | some p =>
      match p.wait with
      | none => []
      | some w =>
        match w.on with
        | .queue o =>
          if o = off ∧ isPush w.instr = push then
            [{ id := g.id, slot := slot, key := ⟨p.clock.toNat, g.gidx, lowLane p.mask, 0⟩, arrival := (w.vals.getD 1 0).toNat
               count := (lanesOf ((w.vals.getD 2 0).setWidth 32)).length, noted := w.vals.getD 3 0 != 0 }]
          else []
        | _ => []
  let ws := (s.groups.filter fun g => wgOf g.id == s.w.id && g.stop != .stopped).flatMap fun g => one g false g.slot0 ++ one g true g.slot1
  sortBy (fun a b => !QWaiter.before s.g.det b a) ws

/-- Waiters that the queue's state lets go on, when each is served in turn. -/
def servable (push : Bool) (q : Qcw) (ws : List QWaiter) : List QWaiter :=
  match ws with
  | [] => []
  | w :: rest =>
    if push then (if q.room w.count then w :: servable push { q with pushtk := q.pushtk + w.count } rest else [])
    else (if q.full w.count then w :: servable push { q with poptk := q.poptk + w.count } rest else [])

/-- R230 Table 8-6: waiters that an instruction of a deterministic node lets go on keep its clock. -/
def State.noteQueue (s : State) (push : Bool) (off : Nat) : State :=
  if !s.g.det then s
  else
    let clock := s.path.clock
    let q := Qcw.of (s.winNum 1 off 32)
    (servable push q (s.qWaiters push off)).foldl (fun s w =>
      if w.noted then s
      else s.modGroup w.id fun g =>
        match g.path? w.slot with
        | some p => g.setPath w.slot (some { p with wait := p.wait.map fun x => { x with vals := [clock, x.vals.getD 1 0, x.vals.getD 2 0, 1] } })
        | none => g) s

/-- Another path waits at this end of the queue and is served first. -/
def State.queueAhead (s : State) (push : Bool) (off arrival : Nat) : Bool :=
  let me : QWaiter := { id := s.g.id, slot := s.slot, key := s.key, arrival := arrival, count := 0, noted := false }
  (s.qWaiters push off).any fun w => !(w.id == me.id && w.slot == me.slot) && w.before s.g.det me

/-- The path waits for the queue: its wait holds the clock of the instruction that ends it, the step of its arrival, its
active lanes and whether that clock is known. -/
def parkQueue (i : Instr) (off : Nat) (active : Word32) (mark : Option Nat) : Act Unit := do
  let s ← get
  throw (.park { instr := i, words := 3, on := .queue off, vals := [0, BitVec.ofNat 64 s.steps, active.setWidth 64, 0], mark := mark })

/-- The tickets that `n` lanes want can be taken now. -/
def Qcw.open' (q : Qcw) (push : Bool) (n : Nat) : Bool := if push then q.room n else q.full n

/-- What QPUSH and QPOP do at their ticket step (R428 to R430): `go` where their turn and their condition have come; with NB
nothing is taken where the condition fails, and a waiter that can be served is served first (DEDUCED, log entry 42). -/
def queueTurn (push nb : Bool) (off n : Nat) (q : Qcw) (d : BitVec 7) (go park : Act Unit) : Act Unit := do
  let s ← get
  let ahead := s.queueAhead push off s.steps
  if q.open' push n ∧ !ahead then
    go
    retireWork 3
  else if !nb then park
  else if !q.open' push n then
    modify fun s => s.setS d allOnes
    retireWork 3
  else if (servable push q (s.qWaiters push off)).isEmpty then
    go
    retireWork 3
  else hold

/-- An event from outside the path serves its wait: `a` answers whether the wait is over; it ends with a trap too. -/
def State.serveWait (s : State) (a : Act Bool) : State :=
  match a.run.run s.endWait with
  | (.ok true, t) => t
  | (.error (.trap t), u) => u.takeTrap t
  | _ => s

/-- The wait of a path of a group that is not stopped is served. -/
def resumeServe (g : GroupId) (slot : Bool) (f : Wait → Option (Act Bool)) (s : State) : Host.Outcome State Fault Refusal :=
  .next (s.withGroup g slot fun s =>
    match s.path.wait with
    | some w => if s.g.stop == .stopped then s else ((f w).map s.serveWait).getD s
    | none => s)

/-- R229: the key of the current path's instruction is the lowest of its node, where the node is deterministic. -/
def State.keyFree (s : State) : Bool := !s.g.det || s.isLowest s.g.id.node s.key (some (s.g.id, s.slot)) none

/-- A wait of the blocking kind retires with a clock above the one that ended it (Table 8-6, R219). -/
def retireEnded (n : Nat) (ender : Word64) : Act Unit := modify fun s => s.unhang.retireAt n (s.waitClock ender)

/-! ## QPUSH (R428) -/

/-- The tickets are taken, the elements written, and TAIL passes them where every earlier ticket is published (R85). -/
def State.pushElems (s : State) (l : Lane) (off : Nat) (q : Qcw) (lanes : List Nat) : State :=
  let t := q.pushtk
  let cells := (lanes.zipIdx).flatMap fun p =>
    cellsAt (q.elemAt (t + p.2)) ((List.range q.regs).flatMap fun r => bytesOf 4 (s.g.vreg (l.vb.toNat + r) p.1).toNat)
  let s := (s.setCounter (off + 16) (t + lanes.length)).winStore 1 cells
  let s := s.setS (sregOf l.vd) (BitVec.ofNat 64 t)
  let s := if q.tail = t then s.setCounter (off + 20) (t + lanes.length) else s
  s.noteQueue false off

def qpush (l : Lane) : Act Unit := do
  let (active, mark) ← laneStart l
  checkV active l.vb.toNat 1
  if active = 0 then retireWork 3
  else
    let a ← readS (sregOf l.va)
    let s ← get
    if s.busyReg (sregOf l.vd) then stall
    let off := queueOff a
    let q ← readQcw active off
    useV active l.vb q.regs
    let lanes := lanesOf active
    if q.depth < lanes.length then trapAt protBrec 2 active off
    awaitPerformed
    orderGate (.qpush l) 3
    queueTurn true (l.imm.getLsbD 0) off lanes.length q (sregOf l.vd) (modify fun s => s.pushElems l off q lanes)
      (parkQueue (.qpush l) off active mark)

/-- QPUSH (R428), a release of its path's earlier events (R430). -/
def execQpush (l : Lane) (s : State) : Host.Outcome State Fault Refusal := Act.outcome (qpush l) s

/-- A blocked QPUSH or QPOP goes on in its turn, once its condition holds; the QCW is checked again (R84). -/
def queueGo (push : Bool) (l : Lane) (off : Nat) (w : Wait) (go : Word32 → Qcw → List Nat → Act Unit) : Act Bool := do
  let s ← get
  let active := (w.vals.getD 2 0).setWidth 32
  let q ← readQcw active off
  if push then useV active l.vb q.regs else checkV active l.vd.toNat q.regs
  let lanes := lanesOf active
  if q.depth < lanes.length then trapAt protBrec 2 active off
  if !s.queueAhead push off (w.vals.getD 1 0).toNat && q.open' push lanes.length && s.keyFree then
    go active q lanes
    retireEnded 3 (w.vals.headD 0)
    pure true
  else pure false

/-- QPUSH_RESUME (R428). -/
def execQpushResume (g : GroupId) (slot : Bool) (s : State) : Host.Outcome State Fault Refusal :=
  resumeServe g slot (fun w =>
    match w.on, w.instr with
    | .queue off, .qpush l => some (queueGo true l off w fun _ q lanes => modify fun s => s.pushElems l off q lanes)
    | _, _ => none) s

/-! ## QPOP (R429) -/

/-- The bytes of the elements of `n` tickets. -/
def Qcw.elemBytes (q : Qcw) (u n : Nat) : List Nat := (List.range n).flatMap fun i => (List.range q.esize).map (q.elemAt (u + i) + ·)

/-- The tickets are taken, the elements read, and HEAD passes them where every earlier ticket has been read (R85). -/
def State.popElems (s : State) (l : Lane) (off : Nat) (q : Qcw) (lanes : List Nat) : State :=
  let u := q.poptk
  let old := s
  let s := s.setCounter (off + 24) (u + lanes.length)
  let s := (lanes.zipIdx).foldl (fun s p => (List.range q.regs).foldl (fun s r =>
    s.setV (l.vd.toNat + r) p.1 (BitVec.ofNat 32 (old.winNum 1 (q.elemAt (u + p.2) + 4 * r) 4))) s) s
  let s := s.setS (sregOf l.vb) (BitVec.ofNat 64 u)
  let s := if q.head = u then s.setCounter (off + 28) (u + lanes.length) else s
  s.noteQueue true off

def qpop (l : Lane) : Act Unit := do
  let (active, mark) ← laneStart l
  checkV active l.vd.toNat 1
  if active = 0 then retireWork 3
  else
    let a ← readS (sregOf l.va)
    let s ← get
    if s.busyReg (sregOf l.vb) then stall
    let off := queueOff a
    let q ← readQcw active off
    checkV active l.vd.toNat q.regs
    let lanes := lanesOf active
    if q.depth < lanes.length then trapAt protBrec 2 active off
    orderGate (.qpop l) 3
    queueTurn false (l.imm.getLsbD 0) off lanes.length q (sregOf l.vb) (do
        checkScratch active (q.elemBytes q.poptk lanes.length)
        modify fun s => s.popElems l off q lanes)
      (parkQueue (.qpop l) off active mark)

/-- QPOP (R429). -/
def execQpop (l : Lane) (s : State) : Host.Outcome State Fault Refusal := Act.outcome (qpop l) s

/-- QPOP_RESUME (R429). -/
def execQpopResume (g : GroupId) (slot : Bool) (s : State) : Host.Outcome State Fault Refusal :=
  resumeServe g slot (fun w =>
    match w.on, w.instr with
    | .queue off, .qpop l => some (queueGo false l off w fun active q lanes => do
        checkScratch active (q.elemBytes q.poptk lanes.length)
        modify fun s => s.popElems l off q lanes)
    | _, _ => none) s

end Sys2Proof.Machine
end

