-- ==== Sys2Proof/Machine/Spore.lean ====
section
/-! DEFINITION. Spore channels: SPGRANT, SPSEND and SPRECV (spec/09 R253 to R257; spec/16 R434 to R436). -/

namespace Sys2Proof.Machine

/-! ## Channels (R253, Table 9-9) -/

/-- The die that a channel's spores leave, and the one they reach. -/
def sendDie (chan : BitVec 6) : BitVec 2 := BitVec.ofNat 2 ((if chan.getLsbD 4 then 2 else 0) + (chan.getLsbD 5).toNat)
def recvDie (chan : BitVec 6) : BitVec 2 := BitVec.ofNat 2 ((if chan.getLsbD 4 then 0 else 2) + (chan.getLsbD 5).toNat)

def State.channel? (s : State) (chan : BitVec 6) : Option Channel := s.channels.find? fun x => x.num == chan

/-- A bound channel; a released one is kept, with no slots, for its spore number. -/
def State.bound? (s : State) (chan : BitVec 6) : Option Channel := (s.channel? chan).bind fun x => if x.slots = 0 then none else some x

def State.modChannel (s : State) (chan : BitVec 6) (f : Channel → Channel) : State :=
  { s with channels := s.channels.map fun x => if x.num == chan then f x else x }

/-- R435, R436: a channel that is unbound, or bound to another ASID, refuses. -/
def State.ownChannel (s : State) (chan : BitVec 6) : Option Channel := (s.bound? chan).bind fun x => if x.asid == s.g.asid then some x else none

/-- The lowest slot that holds no spore. -/
def Channel.freeSlot (c : Channel) : Nat := ((List.range c.slots).find? fun i => !(c.spores.any fun x => x.slot == i)).getD 0

/-! ## Spores (R255) -/

/-- Bytes padded with zeros to a multiple of 32. -/
def pad32 (bs : List Byte) : List Byte := bs ++ List.replicate ((32 - bs.length % 32) % 32) 0

/-- The surviving rows of a tile. -/
def Tile.rowsAlive (t : Tile) : List Nat := (List.range t.rows).filter t.alive

/-- Payload row pitch in bytes. -/
def Tile.sporePitch (t : Tile) : Nat := (t.rowBytes + 31) / 32 * 32

/-- The scratchpad offsets of what a payload holds: each surviving row, then the scales of the surviving rows. -/
def Tile.payloadRows (t : Tile) : List (List Nat) := t.rowsAlive.map fun k => (List.range t.rowBytes).map (t.byteAt k)
def Tile.payloadScales (t : Tile) : List Nat :=
  if isScaled t.fmt then t.rowsAlive.flatMap fun k => (List.range t.blocks).map (t.scaleAt k) else []

/-- The payload of a tile as it stands. -/
def State.payload (s : State) (t : Tile) : List Byte :=
  (t.payloadRows.flatMap fun r => pad32 (r.map (s.winByte 1))) ++ pad32 (t.payloadScales.map (s.winByte 1))

/-- Where the scratchpad bytes of a tile go in its payload: offset and position. -/
def Tile.payloadPlaces (t : Tile) : List (Nat × Nat) :=
  let rows := t.payloadRows
  (rows.zipIdx.flatMap fun r => r.1.zipIdx.map fun x => (x.1, r.2 * t.sporePitch + x.2))
    ++ (t.payloadScales.zipIdx.map fun x => (x.1, rows.length * t.sporePitch + x.2))

/-- The poisoned sectors of a payload (R458). -/
def State.payloadPoison (s : State) (t : Tile) : List Nat :=
  if s.soft.isEmpty && s.carried.isEmpty then []
  else ((t.payloadPlaces.filter fun p => s.winSoft 1 p.1).map fun p => p.2 / 32).dedup

/-- Table 9-10: the header of a spore. -/
def sporeHeader (t : Tile) (chan : BitVec 6) (pbytes : Nat) (seq tag : Word32) : BitVec 512 :=
  BitVec.ofNat 512 (place t.fmt 0 4 + place t.dom 4 3 + t.scl.toNat * 2 ^ 7 + place (t.cols - 1) 8 9 + place (t.rows - 1) 17 7
    + chan.toNat * 2 ^ 24 + place (t.sporePitch / 32) 32 8 + place pbytes 64 32 + seq.toNat * 2 ^ 96 + tag.toNat * 2 ^ 128 + t.surv.toNat * 2 ^ 384)

def Spore.field (x : Spore) (lo w : Nat) : Nat := bitsOf x.header.toNat lo w
def Spore.seq (x : Spore) : Nat := x.field 96 32

/-- R256: a tile that the spore fits: the same format, scales, domain, rows and columns. -/
def Spore.fits (x : Spore) (t : Tile) : Bool :=
  x.field 0 4 == t.fmt && x.field 4 3 == t.dom && x.field 7 1 == t.scl.toNat && x.field 8 9 + 1 == t.cols && x.field 17 7 + 1 == t.rows

/-! ## SPGRANT (R434) -/

/-- R254: granules of the die-scratchpad pool that a grant takes. -/
def grantGranules (slots b : Nat) : Nat := (slots * b * 4096 + 1048575) / 1048576

/-- SPGRANT's status and effect; none while a release waits for its slots to empty. -/
def State.spgrantDo (s : State) (a : Nat) : State × Option Nat :=
  let chan := BitVec.ofNat 6 (bitsOf a 0 6)
  let n := bitsOf a 8 7
  let b := bitsOf a 16 7
  if decide (64 < n) || (n != 0 && (b == 0 || decide (66 < b))) then (s, some 9)
  else if s.g.die ≠ recvDie chan then (s, some 4)
  else match s.bound? chan with
    | some x =>
      if n ≠ 0 then (s, some 7)
      else if x.asid ≠ s.g.asid then (s, some 8)
      else if !x.spores.isEmpty then (s, none)
      else
        (({ s with poolUsed := s.poolUsed.filter fun p => !(p.1 == (recvDie chan).toNat && p.2.1 == x.base) } : State).modChannel chan
          fun y => { y with slots := 0, permits := 0, returning := [] }, some 0)
    | none =>
      if n = 0 then (s, some 0)
      else match s.freeRun (recvDie chan) (grantGranules n b) with
        | none => (s, some 6)
        | some base =>
          let x : Channel :=
            { num := chan, asid := s.g.asid, slots := n, size := b * 4096, base := base, permits := n, sendSeq := 0, recvSeq := 0, spores := [], returning := [] }
          ({ s with
              channels := x :: s.channels.filter fun y => y.num != chan
              poolUsed := s.poolUsed ++ [((recvDie chan).toNat, base, grantGranules n b)] }, some 0)

def spgrant (l : Lane) : Act Unit := do
  let (active, mark) ← laneStart l
  if active = 0 then retireWork 3
  else
    let a ← readS (sregOf l.va)
    let s ← get
    if s.busyReg (sregOf l.vd) then stall
    match ← stateful fun s => s.spgrantDo a.toNat with
    | some st => giveWork (sregOf l.vd) (BitVec.ofNat 64 st)
    | none => throw (.park { instr := .spgrant l, words := 3, on := .channel (BitVec.ofNat 6 (bitsOf a.toNat 0 6)), vals := [0, 0, 0, a], mark := mark })

/-- SPGRANT (R434). -/
def execSpgrant (l : Lane) (s : State) : Host.Outcome State Fault Refusal := Act.outcome (spgrant l) s

/-- SPORE_GRANT_RELEASE (R254): every slot is empty. -/
def execSporeGrantRelease (g : GroupId) (slot : Bool) (s : State) : Host.Outcome State Fault Refusal :=
  resumeServe g slot (fun w =>
    match w.on, w.instr with
    | .channel _, .spgrant l => some (do
        match ← stateful fun s => s.spgrantDo (w.vals.getD 3 0).toNat with
        | some st => do
          modify fun s => s.setS (sregOf l.vd) (BitVec.ofNat 64 st)
          retireEnded 3 0
          pure true
        | none => pure false)
    | _, _ => none) s

/-! ## Waiters of a channel (R435, R436) -/

/-- A path that waits to send or to receive on a channel. -/
structure SpWaiter where
  id : GroupId
  slot : Bool
  det : Bool
  key : Key
  arrival : Nat
  noted : Bool
  deriving DecidableEq, Repr

/-- Senders of one deterministic node are served in key order; all others by arrival (R229, R436). -/
def SpWaiter.before (send : Bool) (a b : SpWaiter) : Bool :=
  if send && a.det && a.id.node == b.id.node then a.key.lt b.key else decide (a.arrival < b.arrival)

def isSend (i : Instr) : Bool := match i with | .spsend _ => true | _ => false
def isRecv (i : Instr) : Bool := match i with | .sprecv _ => true | _ => false

def State.spWaiters (s : State) (send : Bool) (chan : BitVec 6) : List SpWaiter :=
  let one (g : Group) (slot : Bool) (p : Option Path) : List SpWaiter :=
    match p with
    | none => []
    | some p =>
      match p.wait with
      | none => []
      | some w =>
        if w.on == .channel chan && (if send then isSend w.instr else isRecv w.instr) then
          [{ id := g.id, slot := slot, det := g.det, key := ⟨p.clock.toNat, g.gidx, lowLane p.mask, 0⟩
             arrival := (w.vals.getD 1 0).toNat, noted := w.vals.getD 4 0 != 0 }]
        else []
  sortBy (fun a b => !SpWaiter.before send b a) ((s.groups.filter fun g => g.stop != .stopped).flatMap fun g => one g false g.slot0 ++ one g true g.slot1)

def State.channelAhead (s : State) (send : Bool) (chan : BitVec 6) (arrival : Nat) : Bool :=
  let me : SpWaiter := { id := s.g.id, slot := s.slot, det := s.g.det, key := s.key, arrival := arrival, noted := false }
  (s.spWaiters send chan).any fun w => !(w.id == me.id && w.slot == me.slot) && w.before send me

/-- What a waiting SPSEND or SPRECV holds: the clock of what ends its wait, the step of its arrival, its active lanes,
S[sB] and whether the clock is known. -/
def channelWait (i : Instr) (chan : BitVec 6) (arrival : Nat) (active : Word32) (b : Word64) (mark : Option Nat) : Wait :=
  { instr := i, words := 3, on := .channel chan, vals := [0, BitVec.ofNat 64 arrival, active.setWidth 64, b, 0], mark := mark }

/-- R230: the clock of the instruction that ends a wait. -/
def setEnder (w : Wait) (clock : Word64) : Wait := { w with vals := [clock, w.vals.getD 1 0, w.vals.getD 2 0, w.vals.getD 3 0, 1] }

/-! ## SPSEND (R435) -/

def chanOf (b : Word64) : BitVec 6 := b.extractLsb' 0 6

/-- The statuses of SPSEND and SPRECV that come before any wait (R434); the channel where there is none. -/
def State.channelStatus (s : State) (chan : BitVec 6) (die : BitVec 2) : Except Nat Channel :=
  if s.g.die ≠ die then .error 4
  else match s.ownChannel chan with
    | none => .error 3
    | some x => .ok x

/-- R435: a permit and the next SEQ are taken, the spore is formed and its command starts; a TWIN node's outgoing stream
takes its payload, then its header (R235; DEDUCED, log entry 43). -/
def sendSpore (l : Lane) (active : Word32) (mark : Option Nat) (b : Word64) (x : Channel) (t : Tile) : Act Unit := do
  awaitPerformed
  let s ← get
  let bytes := s.payload t
  let spore : Spore :=
    { slot := x.freeSlot, header := sporeHeader t x.num bytes.length x.sendSeq (BitVec.ofNat 32 (bitsOf b.toNat 32 32)), payload := bytes
      poison := s.payloadPoison t, node := s.g.id.node, clock := s.path.clock, landed := false }
  modify fun s => s.modChannel x.num fun y => { y with permits := y.permits - 1, sendSeq := y.sendSeq + 1, spores := y.spores ++ [spore] }
  let bytes := bytes ++ bytesOf 64 spore.header.toNat
  modify fun s => if s.g.twin then s.modNode s.g.id.node fun n =>
      let r := StreamRec.mk s.path.clock s.g.gidx (lowLane s.path.mask) 0 (0x8000000000000000 ||| x.num.setWidth 64) bytes
      { n with stream := n.stream ++ [r] } else s
  let _ ← issueCommand (.spore x.num) (.spsend l) active mark { ops := [x.sendSeq.setWidth 64], tiles := [(l.va.toNat, false)] }
  modify fun s => s.setS (sregOf l.vd) (BitVec.ofNat 64 (place x.sendSeq.toNat 8 24))

/-- R255: a spore that exceeds its slot. -/
def State.tooBig (s : State) (x : Channel) (t : Tile) : Bool := decide (x.size < 64 + (s.payload t).length)

def spsend (l : Lane) : Act Unit := do
  let (active, mark) ← laneStart l
  checkTile active l.va
  if active = 0 then retireWork 3
  else
    let b ← readS (sregOf l.vb)
    let t ← useTile active l.va
    let s ← get
    let d := sregOf l.vd
    if s.busyReg d then stall
    match s.channelStatus (chanOf b) (sendDie (chanOf b)) with
    | .error st => giveWork d (BitVec.ofNat 64 st)
    | .ok x =>
      if s.tooBig x t then giveWork d 2
      else do
        awaitPerformed
        orderGate (.spsend l) 3
        let ahead := s.channelAhead true x.num s.steps
        if x.permits ≠ 0 ∧ !ahead then
          sendSpore l active mark b x t
          retireWork 3
        else if !l.imm.getLsbD 0 then throw (.park (channelWait (.spsend l) x.num s.steps active b mark))
        else if x.permits = 0 then giveWork d 1
        else hold -- a waiter that can be served is served first

/-- SPSEND (R435). -/
def execSpsend (l : Lane) (s : State) : Host.Outcome State Fault Refusal := Act.outcome (spsend l) s

/-- A wait ends with a status written (Table 8-6). -/
def endStatus (d : BitVec 7) (v : Word64) (w : Wait) : Act Bool := do
  modify fun s => s.setS d v
  retireEnded 3 (w.vals.headD 0)
  pure true

/-- SPSEND_RESUME (R435): a permit has arrived for the path served first, whose send is an order-visible event (R229). -/
def execSpsendResume (g : GroupId) (slot : Bool) (s : State) : Host.Outcome State Fault Refusal :=
  resumeServe g slot (fun w =>
    match w.on, w.instr with
    | .channel chan, .spsend l => some (do
        let b := w.vals.getD 3 0
        let active : Word32 := (w.vals.getD 2 0).setWidth 32
        let t ← useTile active l.va
        let s ← get
        match s.channelStatus chan (sendDie chan) with
        | .error st => endStatus (sregOf l.vd) (BitVec.ofNat 64 st) w
        | .ok x =>
          if s.tooBig x t then endStatus (sregOf l.vd) 2 w
          else if x.permits ≠ 0 ∧ !s.channelAhead true chan (w.vals.getD 1 0).toNat ∧ s.keyFree then do
            sendSpore l active w.mark b x t
            retireEnded 3 (w.vals.headD 0)
            pure true
          else pure false)
    | _, _ => none) s

/-- SPORE_SEND_COMPLETE (R255, R257): the spore is in its slot, behind every earlier one of its channel (R253). -/
def execSporeSendComplete (id : CmdId) (s : State) : Host.Outcome State Fault Refusal :=
  cmdEvent id (fun c s =>
    match c.instr, c.id.ctx with
    | .spsend _, .spore chan =>
      let seq := (c.ops.getD 0 0).toNat
      match (s.channel? chan).bind fun x => x.spores.find? fun y => !y.landed with
      | some y =>
        if y.seq = seq then
          (s.modChannel chan fun x => { x with spores := x.spores.map fun z => if z.seq == seq then { z with landed := true } else z }).finish c 0
        else s
      | none => s
    | _, _ => s) s

/-! ## SPRECV (R436) -/

/-- The spore with the channel's next SEQ, in its slot. -/
def Channel.next? (x : Channel) : Option Spore := x.spores.find? fun y => y.landed && y.seq == x.recvSeq.toNat

/-- R436: the spore is claimed, S[sD] written and the fill command started; a header that does not fit is PROT/BREC. -/
def claimSpore (l : Lane) (active : Word32) (mark : Option Nat) (x : Channel) (y : Spore) (t : Tile) : Act Unit := do
  if !y.fits t then badRecord active
  awaitPerformed
  modify fun s => s.modChannel x.num fun z => { z with recvSeq := z.recvSeq + 1 }
  let _ ← issueCommand (.spore x.num) (.sprecv l) active mark { ops := [BitVec.ofNat 64 y.seq], tiles := [(l.va.toNat, true)] }
  modify fun s => s.setS (sregOf l.vd) (BitVec.ofNat 64 (y.field 128 32 * 2 ^ 32 + place y.seq 8 24))

def sprecv (l : Lane) : Act Unit := do
  let (active, mark) ← laneStart l
  checkTile active l.va
  if active = 0 then retireWork 3
  else
    let b ← readS (sregOf l.vb)
    let t ← useTile active l.va
    let s ← get
    let d := sregOf l.vd
    if s.busyReg d then stall
    match s.channelStatus (chanOf b) (recvDie (chanOf b)) with
    | .error st => giveWork d (BitVec.ofNat 64 st)
    | .ok x =>
      match x.next?, s.channelAhead false x.num s.steps with
      | some y, false => do
        claimSpore l active mark x y t
        retireWork 3
      | next, _ =>
        if !l.imm.getLsbD 0 then throw (.park (channelWait (.sprecv l) x.num s.steps active b mark))
        else if next.isNone then giveWork d 5
        else hold -- a waiter that can be served is served first

/-- SPRECV (R436). -/
def execSprecv (l : Lane) (s : State) : Host.Outcome State Fault Refusal := Act.outcome (sprecv l) s

/-- SPRECV_RESUME (R436): the next spore has arrived for the path served first. -/
def execSprecvResume (g : GroupId) (slot : Bool) (s : State) : Host.Outcome State Fault Refusal :=
  resumeServe g slot (fun w =>
    match w.on, w.instr with
    | .channel chan, .sprecv l => some (do
        let active : Word32 := (w.vals.getD 2 0).setWidth 32
        let t ← useTile active l.va
        let s ← get
        match s.channelStatus chan (recvDie chan) with
        | .error st => endStatus (sregOf l.vd) (BitVec.ofNat 64 st) w
        | .ok x =>
          match x.next?, s.channelAhead false chan (w.vals.getD 1 0).toNat with
          | some y, false => do
            claimSpore l active w.mark x y t
            retireEnded 3 (if y.node = s.g.id.node then y.clock else w.vals.headD 0)
            pure true
          | _, _ => pure false)
    | _, _ => none) s

/-- R256: the surviving rows of a spore go to their own rows of the tile, poison along with them (R458). -/
def State.landSpore (s : State) (n : Nat) (y : Spore) : State :=
  let t : Tile := { s.tile n with surv := BitVec.ofNat 128 (y.field 384 128) }
  let places := t.payloadPlaces
  let s := s.winStore 1 (places.map fun p => (p.1, y.payload.getD p.2 0))
  let s := if y.poison.isEmpty then s else s.winPoison 1 ((places.filter fun p => y.poison.contains (p.2 / 32)).map Prod.fst)
  s.setTile n t

/-- SPORE_RECEIVE_COMPLETE (R256): the tile is filled, the slot is empty and a permit sets out. -/
def execSporeReceiveComplete (id : CmdId) (s : State) : Host.Outcome State Fault Refusal :=
  cmdEvent id (fun c s =>
    match c.instr, c.id.ctx with
    | .sprecv l, .spore chan =>
      let seq := (c.ops.getD 0 0).toNat
      match (s.channel? chan).bind fun x => x.spores.find? fun y => y.seq == seq with
      | some y =>
        let s := s.landSpore l.va.toNat y
        (s.modChannel chan fun x => { x with
          spores := x.spores.filter fun z => z.seq != seq
          returning := x.returning ++ [(c.group.node, c.clock)] }).finish c 0
      | none => s
    | _, _ => s) s

/-- PERMIT_RETURN (R256): a permit reaches the sender's count; the path it lets go on keeps the clock of the SPRECV, where
that is of its node (Table 8-6). -/
def execPermitReturn (chan : BitVec 6) (s : State) : Host.Outcome State Fault Refusal :=
  .next (match s.channel? chan with
    | some x =>
      match x.returning with
      | [] => s
      | (node, clock) :: rest =>
        let s := s.modChannel chan fun y => { y with permits := y.permits + 1, returning := rest }
        match (s.spWaiters true chan).find? fun w => !w.noted with
        | some w =>
          if w.det then
            s.modGroup w.id fun g =>
              match g.path? w.slot with
              | some p => g.setPath w.slot (some { p with wait := p.wait.map fun v => setEnder v (if node = w.id.node then clock else 0) })
              | none => g
          else s
        | none => s
    | none => s)

end Sys2Proof.Machine
end

