-- ==== Sys2Proof/Machine/Preempt.lean ====
section
/-! DEFINITION. Pre-emption (spec/10 R263 to R271): requests, stops, commands that settle, the save and the restore. The
scheduler's side is in Nodes.lean. -/

namespace Sys2Proof.Machine

/-! ## Requests and stops (R263, R264) -/

/-- The group stops: nothing of it is granted any more. -/
def State.stopGroup (s : State) (i : GroupId) : State :=
  let s := s.modGroup i fun g => { g with stop := .stopped }
  if s.live && s.g.id == i then { s with granted := false } else s

/-- A group of a workgroup that is asked to stop. -/
def State.asked (s : State) (i : GroupId) : Option Group :=
  match s.group? i, s.wg? (wgOf i) with
  | some g, some w => if w.state == .stopping then some g else none
  | _, _ => none

/-- PREEMPT_REQUEST_ARRIVAL (R263, R264): the request reaches the group, which takes its notice first where one is asked for and it is
not in supervisor mode; it stops at once where it has exited or every live path is parked; so it does later. -/
def execPreemptRequestArrival (i : GroupId) (s : State) : Host.Outcome State Fault Refusal :=
  .next (match s.asked i with
    | none => s
    | some g =>
      if g.stop == .stopped then s
      else if g.exited == 0xFFFFFFFF then s.stopGroup i
      else if g.stop == .running && s.regs.prectl.getLsbD 16 && !g.supv then
        s.modGroup i fun g => { g with stop := .notice }
      else if g.stop == .notice then s
      else if g.idle then s.stopGroup i
      else if g.stop == .running then s.modGroup i fun g => { g with stop := .requested }
      else s)

/-- Where the instruction before the next one stands in its clause; the header where there is none. -/
def lastStart (ws : List Word32) (off : Nat) (fuel pos : Nat) : Nat :=
  match fuel with
  | 0 => pos
  | fuel + 1 =>
    let n := wordCount ((ws[pos]?).getD 0)
    if off ≤ pos + n then pos else lastStart ws off fuel (pos + n)

/-- A path at a boundary where the notice can be taken: it does not wait for a transaction, its clause is at hand unless it stands at a
header, and its replay entries find room in the slot. -/
def Path.noticeable (p : Path) : Bool := endsWait p && (p.off == 0 || p.clause.isSome) && decide (p.replay.length ≤ 16)

/-- What stays in a path's queue has its scalar operands at hand (R260, R285). -/
def State.canCapture (s : State) : Bool :=
  s.path.replay.all fun r => r.ops.isSome || (captureRegs r.words).all fun n => !s.busyReg n

/-- R263: the trap PREEMPT/NOTIFY at an instruction boundary of the current path; a wait of the path ends, and its instruction
issues again after ERET. The frame names the instruction before the boundary, which SKIP = 1 passes over (R259; DEDUCED, log entry
44); entries still to be replayed all stay in the queue, where an instruction that ERET had still to execute again captures its
scalar operands (R260), once nothing has still to write them. -/
def State.takeNotice (s : State) : State :=
  if !s.canCapture then s
  else
  let s := s.endWait
  let p := s.path
  let ws := p.clause.getD []
  let pos := if p.off ≤ 1 then 0 else lastStart ws p.off 32 1
  let iw := if pos = 0 then ws.take 1 else (ws.drop pos).take (wordCount ((ws[pos]?).getD 0))
  let first : List Replay := if p.replay.isEmpty then [] else [⟨iw, p.pc, pos, p.clock, p.mask, none⟩]
  ({ s with g := { s.g with stop := .requested, ovr := none } }.setPath { p with off := pos, replay := first ++ p.replay.map s.g.captured }).enterHandler
    { trap := { cause := cPREEMPT, sub := 1, lmask := p.mask, va := 0, kind := 0, level := 0xF }, iw := iw, skip := true }

/-- The slot whose path meets the next boundary: the one at issue, else the first that is not parked, else the first that waits. -/
def State.noticeSlot (s : State) (g : Group) : Option Bool :=
  let runs (slot : Bool) : Bool := ((g.path? slot).map fun p => p.unparked && p.noticeable).getD false
  let waits (slot : Bool) : Bool := ((g.path? slot).map Path.noticeable).getD false
  let first := s.live && s.g.id == g.id && s.slot
  if runs first then some first else if runs (!first) then some (!first)
  else if g.allPaths (fun p => !p.unparked) then (if waits first then some first else if waits (!first) then some (!first) else none)
  else none

/-- PREEMPT_NOTIFY (R263). -/
def execPreemptNotify (i : GroupId) (s : State) : Host.Outcome State Fault Refusal :=
  .next (match s.asked i with
    | none => s
    | some g =>
      if g.stop == .notice && !g.supv then
        match s.noticeSlot g with
        | some slot => s.withGroup i slot State.takeNotice
        | none => s
      else s)

/-- PREEMPT_LIMIT (R264): PREEMPTLIM cycles have passed; a path in the middle of an instruction finishes it first. -/
def execPreemptLimit (i : GroupId) (s : State) : Host.Outcome State Fault Refusal :=
  .next (match s.asked i with
    | none => s
    | some g => if g.stop == .running || g.stop == .stopped || !g.allPaths (fun p => !p.busy) then s else s.stopGroup i)

/-! ## Commands (R267) -/

/-- The contexts of a core; commands of the others run on while the workgroup is saved. -/
def ofCore (c : Ctx) : Bool :=
  match c with
  | .copy0 | .copy1 | .xform | .mpair | .attn => true
  | _ => false

/-- A requester asks the KV walker for nothing more. -/
def Die.dropWaiter (d : Die) (q : Requester) : Die := { d with walker := d.walker.filter fun w => w.who != q }

/-- The pins that ATTN keeps at a stop: those of finished pages, whose mass is still held (R167), unless it gives up all of them. -/
def Command.heldPins (c : Command) : Nat := if c.phase = 3 then 0 else c.pos - c.val kMassed

/-- ATTN stands at a list position: the pages from it on are taken up again by new snapshots. -/
def Command.settleAt (c : Command) : Command :=
  { c with pins := c.pins.take c.heldPins, settled := true
           phase := if c.phase = 3 then 6 else if c.phase = 2 ∨ c.phase = 8 then 1 else c.phase }

/-- R267: ATTN's unfinished pages are unpinned in one transaction, and taken up again from their list position; finished pages stay
pinned with their mass held. A command that a fault has stopped already meets no second one: it keeps its pins then. -/
def State.settleAttn (s : State) (c : Command) (x : AttnArgs) : State :=
  let s : State := { s with die0 := s.die0.dropWaiter (.cmd c.id), die1 := s.die1.dropWaiter (.cmd c.id) }
  if (c.pins.drop c.heldPins).isEmpty then s.modCmd c.id Command.settleAt
  else
    match s.runKv (s.kvOf c) (do
        let a ← beginOn x.arena
        (c.pins.drop c.heldPins).foldl (fun k p => do
          k
          dropPin a p.kvpte) (pure ())) with
    | (s, .ok (_, ws)) => (s.emitCmd c c.pos ws).modCmd c.id Command.settleAt
    | (s, .error (.fault flt va wr)) =>
      if c.stopped then s.modCmd c.id fun y => { y with settled := true } else s.engineStop c (cmdTrap flt (if wr then 5 else 4) va) c.pos
    | (s, _) => s

/-- R267, R377: an MFILL in flight, which runs to completion, waits for a command of its slots that issued before it. -/
def Workgroup.awaitedByFill (w : Workgroup) (c : Command) : Bool :=
  (w.cmds.dropWhile fun x => x.id != c.id).any fun y => !y.finished && !y.stopped && (match y.instr with | .mfill _ => true | _ => false)
    && (cmdSlots y).any (cmdSlots c).contains

/-- COMMAND_SETTLE (R267, R268): a command of a core stands between two sectors, rows, chunks or pages; one that a fault has stopped
settles too. A matrix operation for which an MFILL waits goes on until it has read its slots, since the MFILL runs to completion (DESIGN
CHOICE, log entry 45). -/
def execCommandSettle (id : CmdId) (s : State) : Host.Outcome State Fault Refusal :=
  .next (match s.cmd? id, s.wg? id.wg with
    | some c, some w =>
      if w.state == .stopping && ofCore id.ctx && !c.finished && !c.settled && (c.stopped || !w.awaitedByFill c) then
        match c.instr with
        | .attn l => s.inCommand c fun s => s.settleAttn c (attnArgs c l)
        | _ => s.modCmd id fun y => { y with settled := true }
      else s
    | _, _ => s)

/-! ## Saving (R264, R270) -/

/-- R264: every group has stopped and every command of its core has settled. -/
def State.mayBeSaved (s : State) (w : Workgroup) : Bool :=
  w.state == .stopping
    && (s.groups.filter fun g => wgOf g.id == w.id).all (fun g => g.stop == .stopped)
    && w.cmds.all fun c => c.finished || c.settled || (c.id.ctx == .tileOp && c.stopped) || (!ofCore c.id.ctx && c.id.ctx != .tileOp)

/-- SAVE_COMMIT (R270): the block is committed and the core's resources are released. -/
def execSaveCommit (w : WgId) (s : State) : Host.Outcome State Fault Refusal :=
  .next (match s.wg? w, s.freeBlocks with
    | some x, b :: _ =>
      if x.state == .saving then
        ({ s with ctxUsed := b :: s.ctxUsed } : State).modWg w fun y => { y with state := .saved b }
      else s
    | _, _ => s)

/-! ## What a save keeps (R266) -/

/-- Bit i of a hint's masks names 64 vector registers, 8 scalar registers. -/
def Hint.keepV (h : Hint) (key : Nat) : Bool := h.vlive.getLsbD (key / 32 / 64)
def Hint.keepS (h : Hint) (n : Nat) : Bool := h.slive.getLsbD (n / 8)

/-- R264, R115: the instruction that a restored path waits in is executed again, but for SMWAIT, whose watch goes on. -/
def Path.unwait (p : Path) : Path :=
  match p.wait with
  | some w => (match w.on with | .monitor _ => { p with floor := none } | _ => { p with wait := none, floor := none })
  | none => { p with floor := none }

/-- The marks of the instructions that a restored group executes again: each is set anew as its instruction issues. -/
def Group.rewaitMarks (g : Group) : List Nat :=
  (g.slot0.toList ++ g.slot1.toList).filterMap fun p => if p.unwait.wait == p.wait then none else p.wait.bind (·.mark)

/-- R265: registers that the hint does not name read as zero; with no hint the whole group was saved. The hint stays in
force where it holds. -/
def Group.restored (g : Group) : Group :=
  let g := { g.unmarkAll g.rewaitMarks with stop := .running, slot0 := g.slot0.map Path.unwait, slot1 := g.slot1.map Path.unwait }
  match g.hint with
  | none => g
  | some h => { g with vregs := g.vregs.keep h.keepV, sregs := g.sregs.keep h.keepS, hint := if h.hold then some h else none }

/-- R271: registers that the restore zeroes carry no soft error any more. -/
def Group.unnamed (g : Group) (t : PoisonTarget) : Bool :=
  match g.hint, t with
  | some h, .vreg i n _ => i == g.id && !h.keepV (32 * n)
  | some h, .sreg i n => i == g.id && !h.keepS n
  | _, _ => false

/-- The 16 KiB segments of core scratchpad that a tile occupies. -/
def Tile.segments (t : Tile) : List Nat := (List.range 32).filter fun i => decide (t.addr < 16384 * (i + 1)) && decide (16384 * i < t.addr + t.footprint)

/-- The segments that some rows of a record in core scratchpad touch. -/
def CopyArgs.recSegments (x : CopyArgs) (e : CopyEnd) (dst : Bool) (rows : List Nat) : List Nat :=
  if e.tile || e.win != 1 then []
  else (rows.flatMap fun i =>
    let (se, de, lane) := x.row i
    let c0 := if dst then 0 else x.c0
    (List.range x.rb).map fun k => e.r.addr false lane (if dst then de else se) (c0 + k) / 16384).dedup

/-- The rows of a copy that are not complete (R268). -/
def Command.openRows (c : Command) (x : CopyArgs) : List Nat :=
  (List.range x.rows).filter fun i => (List.range x.perRow).any fun j =>
    let n := i * x.perRow + j
    decide (c.first ≤ n) && (n == c.first || decide (c.first + 64 < n) || !c.done.getLsbD (n - c.first - 1))

/-- The rows of an XRED with a line that is still to be contributed. -/
def Command.redRows (c : Command) (x : CopyArgs) : List Nat :=
  (List.range x.rows).filter fun i => x.redWords.any fun w => w.2.1 == i && c.vals.get (w.1 / 128) == 0

/-- The segments that a command in flight may still read or write. -/
def State.cmdSegments (s : State) (c : Command) : List Nat :=
  let tiles := c.gens.flatMap fun t => (s.tile t.1).segments
  match copyOf c, c.instr with
  | some x, _ =>
    tiles ++ x.recSegments x.src false (c.openRows x) ++ x.recSegments x.dst true (c.openRows x)
      ++ (if x.bar && x.bwin == 1 then [x.boff / 16384] else [])
  | none, .xred l =>
    let x := (xredArgs l c.ops c.recs).1
    let rows := c.redRows x
    if x.src.tile then (if rows.isEmpty then [] else (s.tile x.src.num).segments) else x.recSegments x.src false rows
  | none, _ => tiles

/-- The operand slots of the images that a command in flight names. -/
def Workgroup.cmdImages (w : Workgroup) (c : Command) : List Nat :=
  (cmdSlots c).flatMap fun n =>
    let k := max 1 (max (((w.slots.head? n).map Image.slots).getD 1) (((w.slotsF.head? n).map Image.slots).getD 1))
    (List.range k).map (n + ·)

/-- The operand slots that are not named are zeroed; an image that loses a slot is torn (DESIGN CHOICE, log entry 20). -/
def SlotCopy.keepSlots (c : SlotCopy) (keep : Nat → Bool) : SlotCopy :=
  { heads := (c.heads.filter fun h => keep h.1).map fun h =>
      if (List.range h.2.slots).all fun i => keep (h.1 + i) then h else (h.1, { h.2 with torn := true })
    elems := c.elems.keep fun k => keep (k / (128 * 4096))
    scales := c.scales.keep fun k => keep (k / (128 * 128)) }

/-- R266, R271: what the workgroup's save does not name reads as zero after the restore: the union over its groups' hints, and
whatever a command that is not complete at the stop still uses. What is zeroed carries no soft error. -/
def State.saveStorage (s : State) (i : WgId) : State :=
  let gs := s.groups.filter fun g => wgOf g.id == i
  let whole := gs.any fun g => g.hint.isNone
  if whole then s
  else
    match gs with
    | [] => s
    | g :: _ =>
      s.withGroup g.id false fun s =>
        let w := s.w
        let cmds := w.cmds.filter fun c => !c.finished
        let segs := cmds.flatMap s.cmdSegments
        let hints := gs.filterMap fun g => g.hint.map fun h => (g.id.j, h)
        let keepSeg (n : Nat) : Bool := segs.contains n || hints.any fun h => h.2.splive.getLsbD n
        let keepAcc (a : Nat) : Bool := cmds.any (fun c => cmdAcc c == some a) || hints.any fun h => h.2.acc.getLsbD a
        let keepSlot (n : Nat) : Bool := cmds.any (fun c => (w.cmdImages c).contains n) || hints.any fun h => h.2.slots && w.claim n == .held h.1
        let zeroed (t : PoisonTarget) : Bool :=
          match t with
          | .scratch x o => x == i && !keepSeg (o / 16384)
          | .acc x a _ _ => x == i && !keepAcc a
          | .operand x _ n _ _ => x == i && !keepSlot n
          | _ => false
        let s := s.cleanse zeroed
        { s with w := { w with
            scr := w.scr.keep fun o => keepSeg (o / 16384)
            accs := w.accs.keep fun k => keepAcc (k / 256 / 128)
            accHeads := w.accHeads.zipIdx.map fun a => if keepAcc a.2 then a.1 else ⟨0, 0⟩
            slots := w.slots.keepSlots keepSlot, slotsF := w.slotsF.keepSlots keepSlot } }

/-- R230: the paths of a group keep the floors they have as it is saved. -/
def State.keepFloors (s : State) (i : GroupId) : State :=
  let fs := s.effective i.node
  let floorOf (slot : Bool) (p : Path) : Path :=
    { p with floor := ((fs.find? fun x => x.1.id == i && x.2.1 == slot).bind fun x => x.2.2.2).getD (p.clock.toNat + 1) }
  s.modGroup i fun g => { g with slot0 := g.slot0.map fun p => (if g.det then floorOf false p else p), slot1 := g.slot1.map fun p => (if g.det then floorOf true p else p) }

/-- R59, R112: no group of the workgroup awaits the acknowledgement of a store. -/
def State.movesFree (s : State) (w : WgId) : Bool :=
  (s.groups.filter fun g => wgOf g.id == w).all fun g => s.allAcked (.group g.id)

/-- WORKGROUP_SAVE (R264): the groups have stopped, undrained stores drain, their own watches still seeing them (R112, R113), and, once
their stores are performed (R59), the block is written. Its layout is the device's own: the state keeps what it holds (DESIGN CHOICE, log
entry 45). -/
def execWorkgroupSave (w : WgId) (s : State) : Host.Outcome State Fault Refusal :=
  .next (match s.wg? w with
    | some x =>
      if s.mayBeSaved x then
        let ids := (s.groups.filter fun g => wgOf g.id == w).map (·.id)
        let s := ids.foldl (fun s i => s.modGroup i fun g => { g with stop := .requested }) s
        let s := ids.foldl (fun s i => s.withGroup i false State.drain) s
        let s := ids.foldl State.stopGroup s
        if s.movesFree w then
          ((ids.foldl State.keepFloors s).saveStorage w).modWg w fun y => { y with state := .saving }
        else s
      else s
    | none => s)

/-- R115: the watched line is read again; a byte that differs from the recorded value counts as written. -/
def State.rewatch (s : State) : State :=
  match s.g.watch with
  | none => s
  | some w =>
    let s := if w.win = 0 then s.plainRequest w.line else s
    let now := (List.range 128).map fun i => if w.win = 0 then s.byte (w.line + i) else s.winByte w.win (w.line + i)
    { s with g := { s.g with watch := some { w with written := w.written || now != w.value } } }

/-! ## Restoring (R270, R271) -/

/-- R270: a workgroup that is not restored is gone. Its spores and permits go on (R256), and its node ends with status
FAULT. -/
def State.loseWorkgroup (s : State) (w : Workgroup) : State :=
  let s := w.cmds.foldl (fun s c =>
    match c.id.ctx with
    | .spore chan =>
      let seq := (c.ops.getD 0 0).toNat
      if c.finished then s
      else match c.instr with
        | .spsend _ => s.modChannel chan fun x => { x with spores := x.spores.map fun y => if y.seq == seq then { y with landed := true } else y }
        | _ => s.modChannel chan fun x => { x with spores := x.spores.filter fun y => y.seq != seq, returning := x.returning ++ [(c.group.node, c.clock)] }
    | _ => s) s
  (s.modNode w.id.node fun n => { n with faulted := true }).wgDone w

/-- The workgroup is resident again: watches, commands and groups go on. -/
def State.restoreWorkgroup (s : State) (w : Workgroup) : State :=
  let ids := (s.groups.filter fun g => wgOf g.id == w.id).map (·.id)
  let s := ids.foldl (fun s i =>
    let s := match s.group? i with | some g => s.cleanse g.unnamed | none => s
    (s.modGroup i Group.restored).withGroup i false State.rewatch) s
  s.modWg w.id fun y => { y with state := .resident, cmds := y.cmds.map fun c => { c with settled := false } }

/-- RESTORE_CHECK (R270, R271). -/
def execRestoreCheck (w : WgId) (ok : Bool) (s : State) : Host.Outcome State Fault Refusal :=
  .next (match s.wg? w with
    | some x =>
      match x.state with
      | .restoring b =>
        let s := { s with ctxUsed := s.ctxUsed.filter fun y => y != b }
        if ok then s.restoreWorkgroup x else (s.machineCheck 2).loseWorkgroup x
      | _ => s
    | none => s)

end Sys2Proof.Machine
end

