-- ==== Sys2Proof/Machine/Agent.lean ====
section
/-! DEFINITION. The passage of time in a step (spec/12 R332, spec/08 R219), the moves that agents may make when the
schedule names none, and the state that stands for a program's launch (log entries 1, 2 and 6). -/

namespace Sys2Proof.Machine

/-- TIMER runs from READY on (R456). -/
def State.timerRuns (s : State) : Bool := s.regs.bootstat.getLsbD 8

/-- PWRSTAT with the package's power in a step (R461 Table 20-7). -/
def pwrNow (v : Word64) (n : Nat) : Word64 := v &&& ~~~(0xFFFF0000 : Word64) ||| (Config.power n).setWidth 64 <<< 16

/-- The slot of a group that holds a grant: at issue, or set aside while another quarter issues (R251). -/
def State.grantOf (s : State) (g : GroupId) : Option Bool :=
  if s.granted && s.g.id == g then some s.slot
  else (s.quarters.find? fun q => q.1 == g && s.stillGranted q.1 q.2.1).map fun q => q.2.1

/-- Time passes in a step: TIMER and the hang counters advance, and the power of the last 1 ms stands in PWRSTAT (DESIGN CHOICE, log
entry 2). Grants whose paths have trapped, stopped or moved have ended. -/
def State.passTime (s : State) : State :=
  let t := if s.timerRuns then s.regs.timer + Config.elapsed s.steps else s.regs.timer
  let s' : State := { s.pruneQuarters with
    steps := s.steps + 1, sincePerst := s.sincePerst + (Config.elapsed s.steps).toNat
    regs := { s.regs with timer := t, pwrstat := pwrNow s.regs.pwrstat s.steps } }
  s'.mapGroups fun g => g.pass ((s.wg? (wgOf g.id)).getD Workgroup.empty) (s.grantOf g.id) (Config.cycles s.steps)

/-! ## The moves an agent may make, where the schedule names none

Each list holds every move of its kind that may have an effect; the step makes the first that has one. -/

/-- Grants that other quarters hold go on; then fetches and grants: the group that was granted longest ago first, the slot that
was not granted last first (R217). -/
def State.issueMoves (s : State) : List Instr :=
  let gs := s.others.reverse ++ (if s.live then [s.g] else [])
  s.quarters.reverse.map (fun q => .clauseGrant q.1 q.2.1) ++ gs.flatMap fun g =>
    let first := !g.lastSlot
    [.clauseFetch g.id first, .clauseFetch g.id (!first), .clauseGrant g.id first, .clauseGrant g.id (!first)]

/-- The end of a wait: what the instruction waits for may have come (R230 Table 8-6). -/
def resumeMove (g : GroupId) (slot : Bool) (w : Wait) : List Instr :=
  match w.on with
  | .timeline _ _ => [.tlwtResume g slot]
  | .barrier _ _ _ _ _ => []
  | .monitor _ => [.monitorWake g slot]
  | .queue _ => [.qpushResume g slot, .qpopResume g slot]
  | .claim _ _ => [.mclaimGrant g slot]
  | .nodeDone _ => [.ndoneResume g slot]
  | .channel _ => [.spsendResume g slot, .sprecvResume g slot, .sporeGrantRelease g slot]
  | .walker =>
    match w.instr with
    | .kvapp _ => [.kvAppendTransaction g slot]
    | .kvfork _ => [.kvForkTransaction g slot]
    | .kvrel _ => [.kvReleaseTransaction g slot]
    | .kvlook _ => [.kvLookupTransaction g slot]
    | .amass _ => [.kvAmassTransaction g slot]
    | .kvunpin _ => [.kvUnpinTransaction (.path g slot)]
    | _ => [.kvSnapshot (.path g slot)]
  | .firstTouch => [.firstTouchService]
  | .order => [.detEventRelease g slot]

def State.resumeMoves (s : State) : List Instr :=
  s.groups.flatMap fun g =>
    [false, true].flatMap fun slot => ((g.path? slot).bind fun p => p.wait.map fun w => resumeMove g.id slot w).getD []

/-- The next event of a command in flight. -/
def commandMoves (c : Command) : List Instr :=
  let i := c.id
  match i.ctx with
  | .copy0 | .copy1 =>
    match c.instr with
    | .xput _ => [.xputSectorAck i ⟨c.first, {}⟩, .xputSectorArrival (.own i) c.first, .copyComplete i]
    | _ => [.copySectorComplete i c.first, .copyComplete i]
  | .xform => [.xformComplete i]
  | .mpair => [.mmaRetire i]
  | .attn => [.kvSnapshot (.cmd i), .kvMassTransaction i, .kvWindowRelease i, .kvUnpinTransaction (.cmd i), .attnComplete i]
  | .sel => [.kvSnapshot (.cmd i), .kvUnpinTransaction (.cmd i), .aselComplete i, .asumuComplete i]
  | .dem => [.kvSnapshot (.cmd i), .kvSweepDecision i, .kvDemotionSwap i]
  | .xred =>
    match c.instr with
    | .xred l => (((xredArgs l c.ops c.recs).1.redLines.filter fun n => c.vals.get n == 0).take 1).map (fun n => .xredContribution (.own i) n) ++ [.xredComplete i]
    | _ => []
  | .spore _ => [.sporeSendComplete i, .sporeReceiveComplete i]
  | .tileOp => [.matrixOperationRetire i]

def State.engineMoves (s : State) : List Instr :=
  s.wgs.flatMap fun w => (w.cmds.filter fun c => !c.finished).flatMap commandMoves

/-- What the scheduler and the other units of the package do (spec/05, 09, 10). -/
def State.unitMoves (s : State) : List Instr :=
  s.groups.map (fun g => .deliveredTrap g.id)
    ++ s.channels.map (fun c => .permitReturn c.num)
    ++ [0#2, 1#2, 2#2, 3#2].map (fun d => .overflowRecordPost d)
    ++ s.groups.flatMap (fun g => [.preemptRequestArrival g.id, .preemptNotify g.id])
    ++ s.wgs.flatMap (fun w => w.cmds.map (fun c => .commandSettle c.id) ++ [.workgroupSave w.id, .saveCommit w.id, .workgroupComplete w.id])
    ++ s.nodes.map (fun n => .nodeComplete n.index)
    ++ [.schedulerScan]
    ++ s.groups.map (fun g => .preemptLimit g.id)

/-- The kinds of moves, each in its turn the first to be tried. -/
def State.candidates (s : State) : List Instr :=
  if s.tripped then []
  else
    let kinds := [s.issueMoves, s.resumeMoves, s.engineMoves, s.unitMoves]
    let k := s.steps % 4
    (kinds.drop k ++ kinds.take k).flatten

/-- What must come before the next instruction of the granted clause: a delivered trap (R124), HANG (R220) or the notice
of a pre-emption (R263). The counter itself acts as time passes (Group.pass). -/
def State.before (s : State) : Option Instr :=
  if s.g.supv then none
  else
    if !(s.pendingFor s.g.id).isEmpty then some (.deliveredTrap s.g.id)
    else if s.g.hangPending then some (.hangTrap s.g.id)
    else if s.g.stop == .notice then some (.preemptNotify s.g.id)
    else none

/-- The replay entry at the head of the path's queue gives the captured scalar operands (R260, R261). -/
def State.withOperands (s : State) : State :=
  { s with g := { s.g with ovr := match s.path.replay with | r :: _ => r.ops.map fun o => ⟨o.1, o.2, r.lmask⟩ | [] => none } }

/-- A clause whose 32 body words are those given, then zeros; it waits on nothing and marks nothing (R279). -/
def clauseOf (ws : List Word32) : List Word32 := 0xC003FFE0 :: (ws ++ List.replicate (32 - ws.length) 0)

/-- A group as R208 launches it, with all 32 lanes, before its first instruction: what stands for the launch of a
program (DESIGN CHOICE, log entry 6). -/
def State.placeClause (s : State) (ws : List Word32) : State :=
  let g := if s.live then s.g else Group.empty
  let p : Path := { Path.empty with pc := 0x1000, off := 1, mask := 0xFFFFFFFF, clause := some (clauseOf ws) }
  { s with live := true, slot := false, granted := true, schedule := [], g := { g with slot0 := some p, pending := [], hangPending := false, hang := 0, stop := .running } }

end Sys2Proof.Machine
end

