-- ==== Sys2Proof/Machine/Dispatch.lean ====
section
/-! DEFINITION. Which meaning each instruction has. -/

namespace Sys2Proof.Machine

def exec (i : Instr) (s : State) : Host.Outcome State Fault Refusal :=
  match i with
  | .snop f => Sys2Proof.Machine.execSnop f s
  | .sadd f => Sys2Proof.Machine.execSadd f s
  | .ssub f => Sys2Proof.Machine.execSsub f s
  | .smul f => Sys2Proof.Machine.execSmul f s
  | .smulh f => Sys2Proof.Machine.execSmulh f s
  | .smulhu f => Sys2Proof.Machine.execSmulhu f s
  | .sdiv f => Sys2Proof.Machine.execSdiv f s
  | .sdivu f => Sys2Proof.Machine.execSdivu f s
  | .srem f => Sys2Proof.Machine.execSrem f s
  | .sremu f => Sys2Proof.Machine.execSremu f s
  | .sand f => Sys2Proof.Machine.execSand f s
  | .sor f => Sys2Proof.Machine.execSor f s
  | .sxor f => Sys2Proof.Machine.execSxor f s
  | .sshl f => Sys2Proof.Machine.execSshl f s
  | .sshr f => Sys2Proof.Machine.execSshr f s
  | .ssra f => Sys2Proof.Machine.execSsra f s
  | .smin f => Sys2Proof.Machine.execSmin f s
  | .smax f => Sys2Proof.Machine.execSmax f s
  | .sminu f => Sys2Proof.Machine.execSminu f s
  | .smaxu f => Sys2Proof.Machine.execSmaxu f s
  | .sseq f => Sys2Proof.Machine.execSseq f s
  | .sslt f => Sys2Proof.Machine.execSslt f s
  | .ssltu f => Sys2Proof.Machine.execSsltu f s
  | .ssel f => Sys2Proof.Machine.execSsel f s
  | .spopc f => Sys2Proof.Machine.execSpopc f s
  | .sclz f => Sys2Proof.Machine.execSclz f s
  | .sctz f => Sys2Proof.Machine.execSctz f s
  | .sbfx f => Sys2Proof.Machine.execSbfx f s
  | .sbfi f => Sys2Proof.Machine.execSbfi f s
  | .saddi f => Sys2Proof.Machine.execSaddi f s
  | .sandi f => Sys2Proof.Machine.execSandi f s
  | .sori f => Sys2Proof.Machine.execSori f s
  | .sxori f => Sys2Proof.Machine.execSxori f s
  | .sshli f => Sys2Proof.Machine.execSshli f s
  | .sshri f => Sys2Proof.Machine.execSshri f s
  | .ssrai f => Sys2Proof.Machine.execSsrai f s
  | .sslti f => Sys2Proof.Machine.execSslti f s
  | .ssltiu f => Sys2Proof.Machine.execSsltiu f s
  | .sseqi f => Sys2Proof.Machine.execSseqi f s
  | .slit f l0 => Sys2Proof.Machine.execSlit f l0 s
  | .slitd f l0 l1 => Sys2Proof.Machine.execSlitd f l0 l1 s
  | .sld f => Sys2Proof.Machine.execSld f s
  | .sst f => Sys2Proof.Machine.execSst f s
  | .sldsp f => Sys2Proof.Machine.execSldsp f s
  | .sstsp f => Sys2Proof.Machine.execSstsp f s
  | .jmp f => Sys2Proof.Machine.execJmp f s
  | .call f => Sys2Proof.Machine.execCall f s
  | .ret f => Sys2Proof.Machine.execRet f s
  | .bz f => Sys2Proof.Machine.execBz f s
  | .bnz f => Sys2Proof.Machine.execBnz f s
  | .blz f => Sys2Proof.Machine.execBlz f s
  | .bgez f => Sys2Proof.Machine.execBgez f s
  | .lbr f => Sys2Proof.Machine.execLbr f s
  | .ljoin f => Sys2Proof.Machine.execLjoin f s
  | .lexit f => Sys2Proof.Machine.execLexit f s
  | .lany f => Sys2Proof.Machine.execLany f s
  | .lall f => Sys2Proof.Machine.execLall f s
  | .fence f => Sys2Proof.Machine.execFence f s
  | .bari f => Sys2Proof.Machine.execBari f s
  | .bara f => Sys2Proof.Machine.execBara f s
  | .barw f => Sys2Proof.Machine.execBarw f s
  | .barx f => Sys2Proof.Machine.execBarx f s
  | .tlrd f => Sys2Proof.Machine.execTlrd f s
  | .tlwt f => Sys2Proof.Machine.execTlwt f s
  | .yield f => Sys2Proof.Machine.execYield f s
  | .phint f l0 l1 l2 => Sys2Proof.Machine.execPhint f l0 l1 l2 s
  | .trap f => Sys2Proof.Machine.execTrap f s
  | .eret f => Sys2Proof.Machine.execEret f s
  | .srd f => Sys2Proof.Machine.execSrd f s
  | .swr f => Sys2Proof.Machine.execSwr f s
  | .exit f => Sys2Proof.Machine.execExit f s
  | .dclk f => Sys2Proof.Machine.execDclk f s
  | .smon f => Sys2Proof.Machine.execSmon f s
  | .smwait f => Sys2Proof.Machine.execSmwait f s
  | .sclean f => Sys2Proof.Machine.execSclean f s
  | .stlbVa f => Sys2Proof.Machine.execStlbVa f s
  | .stlbVaall f => Sys2Proof.Machine.execStlbVaall f s
  | .stlbAsid f => Sys2Proof.Machine.execStlbAsid f s
  | .stlbAll f => Sys2Proof.Machine.execStlbAll f s
  | .stlbPeer f => Sys2Proof.Machine.execStlbPeer f s
  | .mappg f => Sys2Proof.Machine.execMappg f s
  | .frpost f => Sys2Proof.Machine.execFrpost f s
  | .vadd l => Sys2Proof.Machine.execVadd l s
  | .vsub l => Sys2Proof.Machine.execVsub l s
  | .vmul l => Sys2Proof.Machine.execVmul l s
  | .vmulh l => Sys2Proof.Machine.execVmulh l s
  | .vfma l => Sys2Proof.Machine.execVfma l s
  | .vfms l => Sys2Proof.Machine.execVfms l s
  | .vfnma l => Sys2Proof.Machine.execVfnma l s
  | .vmin l => Sys2Proof.Machine.execVmin l s
  | .vmax l => Sys2Proof.Machine.execVmax l s
  | .vabs l => Sys2Proof.Machine.execVabs l s
  | .vneg l => Sys2Proof.Machine.execVneg l s
  | .vand l => Sys2Proof.Machine.execVand l s
  | .vor l => Sys2Proof.Machine.execVor l s
  | .vxor l => Sys2Proof.Machine.execVxor l s
  | .vnot l => Sys2Proof.Machine.execVnot l s
  | .vshl l => Sys2Proof.Machine.execVshl l s
  | .vshr l => Sys2Proof.Machine.execVshr l s
  | .vsra l => Sys2Proof.Machine.execVsra l s
  | .vcmp l => Sys2Proof.Machine.execVcmp l s
  | .vsel l => Sys2Proof.Machine.execVsel l s
  | .vmov l => Sys2Proof.Machine.execVmov l s
  | .vcvt l => Sys2Proof.Machine.execVcvt l s
  | .vpopc l => Sys2Proof.Machine.execVpopc l s
  | .vclz l => Sys2Proof.Machine.execVclz l s
  | .vdot4 l => Sys2Proof.Machine.execVdot4 l s
  | .vdot2 l => Sys2Proof.Machine.execVdot2 l s
  | .vexpo l => Sys2Proof.Machine.execVexpo l s
  | .vscalb l => Sys2Proof.Machine.execVscalb l s
  | .vrndi l => Sys2Proof.Machine.execVrndi l s
  | .vclass l => Sys2Proof.Machine.execVclass l s
  | .vpack l => Sys2Proof.Machine.execVpack l s
  | .vunpk l => Sys2Proof.Machine.execVunpk l s
  | .vbfx l => Sys2Proof.Machine.execVbfx l s
  | .vbfi l => Sys2Proof.Machine.execVbfi l s
  | .vidx l => Sys2Proof.Machine.execVidx l s
  | .vshfl l => Sys2Proof.Machine.execVshfl l s
  | .vballot l => Sys2Proof.Machine.execVballot l s
  | .vvote l => Sys2Proof.Machine.execVvote l s
  | .vred l => Sys2Proof.Machine.execVred l s
  | .vscan l => Sys2Proof.Machine.execVscan l s
  | .velect l => Sys2Proof.Machine.execVelect l s
  | .vbcast l => Sys2Proof.Machine.execVbcast l s
  | .vmsk l => Sys2Proof.Machine.execVmsk l s
  | .vhaar l => Sys2Proof.Machine.execVhaar l s
  | .vihaar l => Sys2Proof.Machine.execVihaar l s
  | .vthr l => Sys2Proof.Machine.execVthr l s
  | .vthrSet l => Sys2Proof.Machine.execVthrSet l s
  | .vokey l => Sys2Proof.Machine.execVokey l s
  | .vdigit l => Sys2Proof.Machine.execVdigit l s
  | .vld l => Sys2Proof.Machine.execVld l s
  | .vst l => Sys2Proof.Machine.execVst l s
  | .vldsp l => Sys2Proof.Machine.execVldsp l s
  | .vstsp l => Sys2Proof.Machine.execVstsp l s
  | .vldqm l => Sys2Proof.Machine.execVldqm l s
  | .vstqm l => Sys2Proof.Machine.execVstqm l s
  | .vldds l => Sys2Proof.Machine.execVldds l s
  | .vstds l => Sys2Proof.Machine.execVstds l s
  | .vatom l => Sys2Proof.Machine.execVatom l s
  | .vatomsp l => Sys2Proof.Machine.execVatomsp l s
  | .vhist l => Sys2Proof.Machine.execVhist l s
  | .vpref l => Sys2Proof.Machine.execVpref l s
  | .tdef l => Sys2Proof.Machine.execTdef l s
  | .tfree l => Sys2Proof.Machine.execTfree l s
  | .tstate l => Sys2Proof.Machine.execTstate l s
  | .trd l => Sys2Proof.Machine.execTrd l s
  | .twr l => Sys2Proof.Machine.execTwr l s
  | .htwr l => Sys2Proof.Machine.execHtwr l s
  | .hrec l => Sys2Proof.Machine.execHrec l s
  | .mclaim l => Sys2Proof.Machine.execMclaim l s
  | .mrel l => Sys2Proof.Machine.execMrel l s
  | .mfill l => Sys2Proof.Machine.execMfill l s
  | .mma l => Sys2Proof.Machine.execMma l s
  | .mmasp l => Sys2Proof.Machine.execMmasp l s
  | .maccz l => Sys2Proof.Machine.execMaccz l s
  | .maccrd l => Sys2Proof.Machine.execMaccrd l s
  | .maccwr l => Sys2Proof.Machine.execMaccwr l s
  | .kvapp l => Sys2Proof.Machine.execKvapp l s
  | .kvfork l => Sys2Proof.Machine.execKvfork l s
  | .kvrel l => Sys2Proof.Machine.execKvrel l s
  | .kvlook l => Sys2Proof.Machine.execKvlook l s
  | .attn l => Sys2Proof.Machine.execAttn l s
  | .asel l => Sys2Proof.Machine.execAsel l s
  | .asumu l => Sys2Proof.Machine.execAsumu l s
  | .amass l => Sys2Proof.Machine.execAmass l s
  | .kvsweep l => Sys2Proof.Machine.execKvsweep l s
  | .kvdem l => Sys2Proof.Machine.execKvdem l s
  | .kvpin l => Sys2Proof.Machine.execKvpin l s
  | .kvunpin l => Sys2Proof.Machine.execKvunpin l s
  | .xcopy l => Sys2Proof.Machine.execXcopy l s
  | .xgath l => Sys2Proof.Machine.execXgath l s
  | .xwin l => Sys2Proof.Machine.execXwin l s
  | .xform l => Sys2Proof.Machine.execXform l s
  | .xput l => Sys2Proof.Machine.execXput l s
  | .xred l => Sys2Proof.Machine.execXred l s
  | .xstat l => Sys2Proof.Machine.execXstat l s
  | .qinit l => Sys2Proof.Machine.execQinit l s
  | .qpush l => Sys2Proof.Machine.execQpush l s
  | .qpop l => Sys2Proof.Machine.execQpop l s
  | .npost l => Sys2Proof.Machine.execNpost l s
  | .ndec l => Sys2Proof.Machine.execNdec l s
  | .ndone l => Sys2Proof.Machine.execNdone l s
  | .spsend l => Sys2Proof.Machine.execSpsend l s
  | .sprecv l => Sys2Proof.Machine.execSprecv l s
  | .spgrant l => Sys2Proof.Machine.execSpgrant l s
  | .xredContribution c line => Sys2Proof.Machine.execXredContribution c line s
  | .engineFault c => Sys2Proof.Machine.execEngineFault c s
  | .deliveredTrap g => Sys2Proof.Machine.execDeliveredTrap g s
  | .overflowRecordPost die => Sys2Proof.Machine.execOverflowRecordPost die s
  | .firstTouchService => Sys2Proof.Machine.execFirstTouchService s
  | .schedulerScan => Sys2Proof.Machine.execSchedulerScan s
  | .preemptRequestArrival g => Sys2Proof.Machine.execPreemptRequestArrival g s
  | .preemptNotify g => Sys2Proof.Machine.execPreemptNotify g s
  | .preemptLimit g => Sys2Proof.Machine.execPreemptLimit g s
  | .commandSettle c => Sys2Proof.Machine.execCommandSettle c s
  | .workgroupSave w => Sys2Proof.Machine.execWorkgroupSave w s
  | .saveCommit w => Sys2Proof.Machine.execSaveCommit w s
  | .clauseGrant g slot => Sys2Proof.Machine.execClauseGrant g slot s
  | .clauseFetch g slot => Sys2Proof.Machine.execClauseFetch g slot s
  | .hangTrap g => Sys2Proof.Machine.execHangTrap g s
  | .detEventRelease g slot => Sys2Proof.Machine.execDetEventRelease g slot s
  | .workgroupComplete w => Sys2Proof.Machine.execWorkgroupComplete w s
  | .nodeComplete node => Sys2Proof.Machine.execNodeComplete node s
  | .copySectorComplete c sector => Sys2Proof.Machine.execCopySectorComplete c sector s
  | .copyComplete c => Sys2Proof.Machine.execCopyComplete c s
  | .xputSectorArrival c sector => Sys2Proof.Machine.execXputSectorArrival c sector s
  | .xputSectorAck c sector => Sys2Proof.Machine.execXputSectorAck c sector s
  | .mmaRetire c => Sys2Proof.Machine.execMmaRetire c s
  | .xformComplete c => Sys2Proof.Machine.execXformComplete c s
  | .xredComplete c => Sys2Proof.Machine.execXredComplete c s
  | .kvAppendTransaction g slot => Sys2Proof.Machine.execKvAppendTransaction g slot s
  | .kvForkTransaction g slot => Sys2Proof.Machine.execKvForkTransaction g slot s
  | .kvReleaseTransaction g slot => Sys2Proof.Machine.execKvReleaseTransaction g slot s
  | .kvLookupTransaction g slot => Sys2Proof.Machine.execKvLookupTransaction g slot s
  | .kvSnapshot q => Sys2Proof.Machine.execKvSnapshot q s
  | .kvMassTransaction c => Sys2Proof.Machine.execKvMassTransaction c s
  | .kvUnpinTransaction q => Sys2Proof.Machine.execKvUnpinTransaction q s
  | .kvAmassTransaction g slot => Sys2Proof.Machine.execKvAmassTransaction g slot s
  | .kvWindowRelease c => Sys2Proof.Machine.execKvWindowRelease c s
  | .attnComplete c => Sys2Proof.Machine.execAttnComplete c s
  | .kvSweepDecision c => Sys2Proof.Machine.execKvSweepDecision c s
  | .kvDemotionSwap c => Sys2Proof.Machine.execKvDemotionSwap c s
  | .aselComplete c => Sys2Proof.Machine.execAselComplete c s
  | .asumuComplete c => Sys2Proof.Machine.execAsumuComplete c s
  | .sporeSendComplete c => Sys2Proof.Machine.execSporeSendComplete c s
  | .sporeReceiveComplete c => Sys2Proof.Machine.execSporeReceiveComplete c s
  | .permitReturn chan => Sys2Proof.Machine.execPermitReturn chan s
  | .sporeGrantRelease g slot => Sys2Proof.Machine.execSporeGrantRelease g slot s
  | .monitorWake g slot => Sys2Proof.Machine.execMonitorWake g slot s
  | .tlwtResume g slot => Sys2Proof.Machine.execTlwtResume g slot s
  | .qpushResume g slot => Sys2Proof.Machine.execQpushResume g slot s
  | .qpopResume g slot => Sys2Proof.Machine.execQpopResume g slot s
  | .mclaimGrant g slot => Sys2Proof.Machine.execMclaimGrant g slot s
  | .ndoneResume g slot => Sys2Proof.Machine.execNdoneResume g slot s
  | .spsendResume g slot => Sys2Proof.Machine.execSpsendResume g slot s
  | .sprecvResume g slot => Sys2Proof.Machine.execSprecvResume g slot s
  | .unassignedOpcode e w => Sys2Proof.Machine.execUnassignedOpcode e w s
  | .matrixOperationRetire c => Sys2Proof.Machine.execMatrixOperationRetire c s
  | .countingAccess die group member pin tier => Sys2Proof.Machine.execCountingAccess die group member pin tier s
  | .lichenCacheMiss die block => Sys2Proof.Machine.execLichenCacheMiss die block s
  | .swapStart die => Sys2Proof.Machine.execSwapStart die s
  | .swapComplete die group => Sys2Proof.Machine.execSwapComplete die group s
  | .lineWriteBack die line => Sys2Proof.Machine.execLineWriteBack die line s
  | .sizeMisprediction pa => Sys2Proof.Machine.execSizeMisprediction pa s
  | .peerRequestArrival r => Sys2Proof.Machine.execPeerRequestArrival r s
  | .peerStoreAck pkg => Sys2Proof.Machine.execPeerStoreAck pkg s
  | .xredTimeout line => Sys2Proof.Machine.execXredTimeout line s
  | .pageWalk die core asid va => Sys2Proof.Machine.execPageWalk die core asid va s
  | .frctlWrite v => Sys2Proof.Machine.execFrctlWrite v s
  | .tlbiVa asid => Sys2Proof.Machine.execTlbiVa asid s
  | .tlbiVaall asid => Sys2Proof.Machine.execTlbiVaall asid s
  | .tlbiAsid asid => Sys2Proof.Machine.execTlbiAsid asid s
  | .tlbiAll asid => Sys2Proof.Machine.execTlbiAll asid s
  | .tlbiPeer asid => Sys2Proof.Machine.execTlbiPeer asid s
  | .submit index => Sys2Proof.Machine.execSubmit index s
  | .ageLimit => Sys2Proof.Machine.execAgeLimit s
  | .restoreCheck w ok => Sys2Proof.Machine.execRestoreCheck w ok s
  | .grantExpiry => Sys2Proof.Machine.execGrantExpiry s
  | .hangLimit g => Sys2Proof.Machine.execHangLimit g s
  | .twinMessage node runs crc len => Sys2Proof.Machine.execTwinMessage node runs crc len s
  | .twinTimeout node => Sys2Proof.Machine.execTwinTimeout node s
  | .xputAckTimeout c => Sys2Proof.Machine.execXputAckTimeout c s
  | .barrierRingTimeout g slot => Sys2Proof.Machine.execBarrierRingTimeout g slot s
  | .smwaitTimeout g slot => Sys2Proof.Machine.execSmwaitTimeout g slot s
  | .hostMemoryRequest r => Sys2Proof.Machine.execHostMemoryRequest r s
  | .registerWrite off size v => Sys2Proof.Machine.execRegisterWrite off size v s
  | .configRequest ms => Sys2Proof.Machine.execConfigRequest ms s
  | .msixUnmask vector => Sys2Proof.Machine.execMsixUnmask vector s
  | .attestRequest v => Sys2Proof.Machine.execAttestRequest v s
  | .attestDone hostOk => Sys2Proof.Machine.execAttestDone hostOk s
  | .perstDeassert => Sys2Proof.Machine.execPerstDeassert s
  | .verify ok => Sys2Proof.Machine.execVerify ok s
  | .calib ok pkg up routes => Sys2Proof.Machine.execCalib ok pkg up routes s
  | .meminit ok => Sys2Proof.Machine.execMeminit ok s
  | .coreReleaseStep => Sys2Proof.Machine.execCoreReleaseStep s
  | .ready => Sys2Proof.Machine.execReady s
  | .poisonDetect t => Sys2Proof.Machine.execPoisonDetect t s
  | .thermalThrottle clk => Sys2Proof.Machine.execThermalThrottle clk s
  | .thermalRecover clk => Sys2Proof.Machine.execThermalRecover clk s
  | .thermalWarning => Sys2Proof.Machine.execThermalWarning s
  | .thermalTrip => Sys2Proof.Machine.execThermalTrip s
  | .powerThrottle clk pwr => Sys2Proof.Machine.execPowerThrottle clk pwr s
  | .powerUnthrottle clk pwr => Sys2Proof.Machine.execPowerUnthrottle clk pwr s
  | .freipPortDown port => Sys2Proof.Machine.execFreipPortDown port s
  | .routeRecompute routes => Sys2Proof.Machine.execRouteRecompute routes s
  | .hostStoreLoss => Sys2Proof.Machine.execHostStoreLoss s
  | .smwaitSpuriousWake g slot => Sys2Proof.Machine.execSmwaitSpuriousWake g slot s
  | .pf1Dma r => Sys2Proof.Machine.execPf1Dma r s

end Sys2Proof.Machine
end

