-- ==== Sys2Proof/Machine/Choose.lean ====
section
/-! DEFINITION. The move that the machine makes when the schedule names none (DESIGN CHOICE, log entry 1). -/

namespace Sys2Proof.Machine

/-- The first move of a list that changes the state. -/
def State.firstMove (s : State) (es : List Instr) : Option (Host.Outcome State Fault Refusal) :=
  es.findSome? fun e =>
    match exec e s with
    | .next t => if t = s then none else some (.next t)
    | o => some o

/-- The default agent: the first candidate that has an effect; the machine idles where none has. -/
def State.act (s : State) : Host.Outcome State Fault Refusal := (s.firstMove s.candidates).getD (.next s)

end Sys2Proof.Machine
end

