-- ==== Sys2Proof/Machine/Step.lean ====
section
/-! DEFINITION. One step of the machine: time passes, and one agent moves: the next of the schedule, else the
instruction of the granted clause, else the move that Choose.lean names (DESIGN CHOICE, log entry 1). -/

namespace Sys2Proof.Machine

/-- The instruction at issue: the trap that must come before it, the words decoded, or the trap they raise. -/
def State.issue (s : State) : Host.Outcome State Fault Refusal :=
  match s.before with
  | some e => exec e s
  | none =>
    match decode s.path.words with
    | .ok (i, _) => exec i s.withOperands
    | .error e => exec (.unassignedOpcode e (s.path.words.headD 0)) s

/-- One agent's move. -/
def State.move (s : State) : Host.Outcome State Fault Refusal :=
  match s.schedule with
  | e :: rest => exec e { s with schedule := rest }
  | [] =>
    if s.granted && !s.tripped then s.issue
    else s.act

/-- A step: the move, and then the time that it takes. -/
def step (s : State) : Host.Outcome State Fault Refusal :=
  match s.move with
  | .next t => .next t.passTime
  | o => o

/-- The bits of a table word stand in a granted clause of a group at issue, where `step` takes its next instruction
(DESIGN CHOICE, log entry 6). -/
def State.withFetchWord (s : State) (nbits w : Nat) : State := s.placeClause (tableWords nbits w)

end Sys2Proof.Machine
end

