-- ==== Sys2Proof/Safety.lean ====
section
/-! DEFINITION. What counts as a safe run, and the words that the statements are made of: what an action does at a
state, and what an instruction leaves as it was. -/

namespace Sys2Proof.Machine

/-! ## Actions at a state -/

/-- What an action does at a state: its result or the reason it stops, and the state it leaves. -/
def runAct {α : Type} (a : Act α) (s : State) : Except Stop α × State := a.run.run s

/-- The action ends normally at `s` with result `x`, and leaves the state `t`. -/
def Does {α : Type} (a : Act α) (s : State) (x : α) (t : State) : Prop := runAct a s = (.ok x, t)

/-- The action ends normally at `s` with result `x`, and changes nothing. -/
def Gives {α : Type} (a : Act α) (s : State) (x : α) : Prop := Does a s x s

/-- The action raises the trap `t` at `s`, and has changed nothing. -/
def Raises {α : Type} (a : Act α) (s : State) (t : Trap) : Prop := runAct a s = (.error (.trap t), s)

/-- The action makes the instruction wait at issue for what Table 8-6 names (R219), and has changed nothing. -/
def Stalls {α : Type} (a : Act α) (s : State) : Prop := runAct a s = (.error .stall, s)

/-- The action makes the instruction wait at issue for anything else, and has changed nothing. -/
def Holds {α : Type} (a : Act α) (s : State) : Prop := runAct a s = (.error .hold, s)

/-- The action parks the path in the wait `w` at `s`, and has changed nothing. -/
def Parks {α : Type} (a : Act α) (s : State) (w : Wait) : Prop := runAct a s = (.error (.park w), s)

/-! ## What an instruction leaves as it was

A frame names, in one equation, the fields that may differ: all others are as they were. -/

/-- Only the group at issue, its grant and soft errors may differ: memory, windows, tiles, operand slots and accumulators,
other groups, nodes, channels, system registers and every unit of the package are as they were. -/
def State.onlyGroup (s t : State) : Prop := t = { s with g := t.g, granted := t.granted, soft := t.soft }

/-- The path at issue moves on: only its place, clock, stall and replay queue may differ, and the other live path is as it was. -/
def State.samePath (s t : State) : Prop :=
  t.g.path? (!s.slot) = s.g.path? (!s.slot)
    ∧ t.path = { s.path with pc := t.path.pc, off := t.path.off, clock := t.path.clock, clause := t.path.clause, top := t.path.top, wait := t.path.wait, replay := t.path.replay, stalled := t.path.stalled }

/-- An instruction has written the scalar register `d` and no other register, flag or byte of memory. -/
def State.wroteS (s t : State) (d : BitVec 7) : Prop :=
  s.onlyGroup t ∧ s.samePath t
    ∧ t.g = { s.g with sregs := t.g.sregs, slot0 := t.g.slot0, slot1 := t.g.slot1, ovr := t.g.ovr, yielded := t.g.yielded }
    ∧ (∀ n, n ≠ d.toNat → t.g.sregs.get n = s.g.sregs.get n)
    ∧ (∀ x, x ≠ .sreg s.g.id d.toNat → t.isSoft x = s.isSoft x)
    ∧ ∀ a, t.byte a = s.byte a

/-- An instruction has written no register, no flag and no byte of memory: its path has moved on. -/
def State.wroteNothing (s t : State) : Prop :=
  s.samePath t ∧ t = { s with g := t.g, granted := t.granted }
    ∧ t.g = { s.g with slot0 := t.g.slot0, slot1 := t.g.slot1, ovr := t.g.ovr, yielded := t.g.yielded }
    ∧ ∀ a, t.byte a = s.byte a

/-- Memory as its readers see it is as it was, but for the addresses that meet `f`. -/
def State.sameBytes (s t : State) (f : Nat → Prop) : Prop := ∀ a, ¬ f a → t.byte a = s.byte a

/-! ## The spec's tables of scalar results, in the integers (spec/12 Tables 12-1 and 12-2)

Each row is worded as the spec words it, apart from the operations that the meanings call. -/

/-- The value of a `w`-bit operation at the width that the word selects (R309). -/
def widthOf (w : BitVec 1) (op : WidthOp) (x y old : Word64) : Word64 :=
  if w = 0 then op 64 x y old
  else (op 32 (x.extractLsb' 0 32) (y.extractLsb' 0 32) (old.extractLsb' 0 32)).signExtend 64

/-- The lowest set bit's position among `n` bits that `f` lists; `n` where none is set. -/
def firstSet (n : Nat) (f : Nat → Bool) : Nat := ((List.range n).find? f).getD n

/-- Table 12-1: the rows of x = S[SA] and y = S[SB]. -/
def table12_1 (i : Instr) : Option (RForm × WidthOp) :=
  match i with
  | .sadd f => some (f, fun w x y _ => BitVec.ofInt w (x.toInt + y.toInt))
  | .ssub f => some (f, fun w x y _ => BitVec.ofInt w (x.toInt - y.toInt))
  | .smul f => some (f, fun w x y _ => BitVec.ofInt w (x.toInt * y.toInt))
  | .smulh f => some (f, fun w x y _ => BitVec.ofInt w ((x.toInt * y.toInt) / 2 ^ w))
  | .smulhu f => some (f, fun w x y _ => BitVec.ofNat w ((x.toNat * y.toNat) / 2 ^ w))
  | .sdiv f => some (f, fun w x y _ =>
      if y.toInt = 0 then BitVec.ofInt w (-1) else if x = BitVec.intMin w ∧ y.toInt = -1 then x else BitVec.ofInt w (x.toInt.tdiv y.toInt))
  | .sdivu f => some (f, fun w x y _ => if y.toNat = 0 then BitVec.allOnes w else BitVec.ofNat w (x.toNat / y.toNat))
  | .srem f => some (f, fun w x y _ =>
      if y.toInt = 0 then x else if x = BitVec.intMin w ∧ y.toInt = -1 then 0 else BitVec.ofInt w (x.toInt.tmod y.toInt))
  | .sremu f => some (f, fun w x y _ => if y.toNat = 0 then x else BitVec.ofNat w (x.toNat % y.toNat))
  | .sand f => some (f, fun _ x y _ => x.and y)
  | .sor f => some (f, fun _ x y _ => x.or y)
  | .sxor f => some (f, fun _ x y _ => x.xor y)
  | .sshl f => some (f, fun w x y _ => BitVec.ofNat w (x.toNat * 2 ^ (y.toNat % w)))
  | .sshr f => some (f, fun w x y _ => BitVec.ofNat w (x.toNat / 2 ^ (y.toNat % w)))
  | .ssra f => some (f, fun w x y _ => BitVec.ofInt w (x.toInt / 2 ^ (y.toNat % w)))
  | .smin f => some (f, fun w x y _ => BitVec.ofInt w (min x.toInt y.toInt))
  | .smax f => some (f, fun w x y _ => BitVec.ofInt w (max x.toInt y.toInt))
  | .sminu f => some (f, fun w x y _ => BitVec.ofNat w (min x.toNat y.toNat))
  | .smaxu f => some (f, fun w x y _ => BitVec.ofNat w (max x.toNat y.toNat))
  | .sseq f => some (f, fun w x y _ => if x = y then BitVec.ofNat w 1 else 0)
  | .sslt f => some (f, fun w x y _ => if x.toInt < y.toInt then BitVec.ofNat w 1 else 0)
  | .ssltu f => some (f, fun w x y _ => if x.toNat < y.toNat then BitVec.ofNat w 1 else 0)
  | .sbfx f => some (f, fun w x y _ => (x >>> (y.toNat % w)) &&& BitVec.ofNat w (2 ^ (y.toNat / 256 % w + 1) - 1))
  | _ => none

/-- Table 12-1: the rows of x = S[SA] alone. -/
def table12_1One (i : Instr) : Option (RForm × WidthOp) :=
  match i with
  | .spopc f => some (f, fun w x _ _ => BitVec.ofNat w ((List.range w).filter fun k => x.getLsbD k).length)
  | .sclz f => some (f, fun w x _ _ => BitVec.ofNat w (firstSet w fun k => x.getMsbD k))
  | .sctz f => some (f, fun w x _ _ => BitVec.ofNat w (firstSet w fun k => x.getLsbD k))
  | _ => none

/-- Table 12-1: the rows that read the old S[SD] too. -/
def table12_1Old (i : Instr) : Option (RForm × WidthOp) :=
  match i with
  | .ssel f => some (f, fun _ x y old => if old ≠ 0 then x else y)
  | .sbfi f => some (f, fun w x y old =>
      BitVec.ofBoolListLE ((List.range w).map fun k =>
        if y.toNat % w ≤ k ∧ k ≤ min (y.toNat % w + (y.toNat / 256 % w + 1) - 1) (w - 1) then x.getLsbD (k - y.toNat % w) else old.getLsbD k)
        |>.setWidth w)
  | _ => none

/-- Table 12-2 (R311): x = S[SA] and i, the sign extension of IMM10. -/
def table12_2 (i : Instr) : Option (IForm × (Word64 → Word64 → Word64)) :=
  match i with
  | .saddi f => some (f, fun x i => BitVec.ofInt 64 (x.toInt + i.toInt))
  | .sandi f => some (f, fun x i => x.and i)
  | .sori f => some (f, fun x i => x.or i)
  | .sxori f => some (f, fun x i => x.xor i)
  | .sshli f => some (f, fun x _ => BitVec.ofNat 64 (x.toNat * 2 ^ (f.imm.toNat % 64)))
  | .sshri f => some (f, fun x _ => BitVec.ofNat 64 (x.toNat / 2 ^ (f.imm.toNat % 64)))
  | .ssrai f => some (f, fun x _ => BitVec.ofInt 64 (x.toInt / 2 ^ (f.imm.toNat % 64)))
  | .sslti f => some (f, fun x i => if x.toInt < i.toInt then 1 else 0)
  | .ssltiu f => some (f, fun x i => if x.toNat < i.toNat then 1 else 0)
  | .sseqi f => some (f, fun x i => if x = i then 1 else 0)
  | _ => none

/-! ## Words of the statements about memory, control and traps -/

/-- R97: what an annotation of scope `scope` leaves where it is wider than the memory's reach and some element is accessed. -/
def State.clamped (s : State) (win scope : Nat) (any : Bool) : State := if any = true ∧ reach win < scope then s.stick 1 else s

/-- The access that a scalar load (kind 0) or store (kind 1) of the M form makes (R313, R314). -/
def scalarAccess (win kind : Nat) (f : MForm) : Access :=
  { win := win, n := 2 ^ f.w.toNat, kind := kind, annot := f.scope != 0, priv := win == 0 && f.buf == 31 }

/-- The forms of a scalar load and of a scalar store, with their windows (R313): 0 is a virtual address, 1 the scratchpad. -/
def scalarLoadForm (i : Instr) : Option (Nat × MForm) :=
  match i with
  | .sld f => some (0, f)
  | .sldsp f => some (1, f)
  | _ => none
def scalarStoreForm (i : Instr) : Option (Nat × MForm) :=
  match i with
  | .sst f => some (0, f)
  | .sstsp f => some (1, f)
  | _ => none

/-- R315, R316, R317: the target of a word with a signed word offset: its own address plus four times the offset. -/
def targetOf (s : State) (off : Int) : Word64 := BitVec.ofInt 64 ((s.path.addr.toNat : Int) + 4 * off)

/-- R316: the test of a conditional branch on x = S[SA]. -/
def branchTest (i : Instr) : Option (BForm × (Word64 → Prop)) :=
  match i with
  | .bz f => some (f, fun x => x.toNat = 0)
  | .bnz f => some (f, fun x => x.toNat ≠ 0)
  | .blz f => some (f, fun x => x.toInt < 0)
  | .bgez f => some (f, fun x => 0 ≤ x.toInt)
  | _ => none

/-- R317: the condition mask of an SA field, from the group's mask registers. -/
def maskOfSA (s : State) (a : BitVec 7) : Word32 :=
  let m := if a.toNat % 16 = 0 then 0xFFFFFFFF else s.g.mregs.get (a.toNat % 16)
  if a.toNat / 16 % 2 = 1 then ~~~m else m

/-- The mask register that an SA field names holds no soft error (R206). -/
def maskReadable (s : State) (a : BitVec 7) : Prop := s.isSoft (.mreg s.g.id (a.toNat % 16)) = false

/-- A trap that its own fields give, with the path's mask. -/
def State.pathTrap (s : State) (cause sub : BitVec 8) (va : Nat) : Trap :=
  { cause := cause, sub := sub, lmask := s.path.mask, va := BitVec.ofNat 56 va, kind := 0, level := 0xF }

/-- R323: the context codes that name one context each. -/
def ctxCode (code : Nat) : Option Ctx :=
  match code with
  | 1 => some .copy0
  | 2 => some .copy1
  | 3 => some .xform
  | 4 => some .mpair
  | 5 => some .attn
  | 6 => some .sel
  | 7 => some .dem
  | 8 => some .xred
  | _ => none

/-- R323: the context that SUB names for a group on a die; none where the code raises ILLOP/FIELD. -/
def ctxNamed (die : BitVec 2) (sub : BitVec 10) : Option Ctx :=
  let code := sub.toNat % 16
  if 2 ≤ die.toNat ∧ 5 ≤ code ∧ code ≤ 7 then none
  else if code = 9 then some (.spore (BitVec.ofNat 6 (sub.toNat / 16)))
  else ctxCode code

/-- The privileged instructions (R294), with the check that comes first: those of this list in every form. -/
def alwaysPrivileged (i : Instr) : Bool :=
  match i with
  | .eret _ => true
  | .mappg _ => true
  | .frpost _ => true
  | .stlbVa _ => true
  | .stlbVaall _ => true
  | .stlbAsid _ => true
  | .stlbAll _ => true
  | .stlbPeer _ => true
  | _ => false

/-- Table 12-3: the numbers whose reads, and whose writes, are marked supervisor. -/
def readMarked (n : Nat) : Bool := n == 0x40 || n == 0x41 || (decide (0x100 ≤ n) && decide (n ≤ 0x110)) || (decide (0x112 ≤ n) && decide (n ≤ 0x114))
def writeMarked (n : Nat) : Bool :=
  n == 0x40 || n == 0x80 || n == 0x81 || n == 0x82 || (decide (0x100 ≤ n) && decide (n ≤ 0x110)) || n == 0x112 || n == 0x23E || n == 0x23F

/-- The writable fields of a system register, each its low bit, its width and the values that it takes, and the bits that a 1 clears (R11;
the registers' own tables: 8-1, 7-5, 7-9, 7-6, 7-10, 8-4, 7-11, 2-4, 2-5, 2-8, and those of R14, R122, R127, R131, R237, R246, R244, R258,
R270, R263, R277, R233, R137 and R460). -/
def accessFields (n : Nat) : Option (List (Nat × Nat × (Nat → Bool)) × List Nat) :=
  let any : Nat → Bool := fun _ => true
  let nonzero : Nat → Bool := fun x => x != 0
  match n with
  | 0x000 => some ([], [0, 1, 2, 3])
  | 0x001 => some ([(0, 3, fun x => decide (x ≤ 5))], [])
  | 0x002 => some ([], [0, 1, 2, 3])
  | 0x003 => some ([(0, 64, any)], [])
  | 0x004 => some ([(0, 1, any)], [])
  | 0x005 => some ([(0, 6, fun x => decide (16 ≤ x ∧ x ≤ 40)), (8, 1, any)], [])
  | 0x040 => some ([(32, 16, any)], [63])
  | 0x080 => some ([(0, 1, any), (4, 4, nonzero)], [])
  | 0x081 => some ([(0, 16, any), (16, 16, any), (32, 32, any)], [])
  | 0x082 => some ([(0, 32, any), (32, 32, any)], [])
  | 0x100 => some ([(0, 1, any), (16, 36, any)], [])
  | 0x101 => some ([(2, 54, any)], [])
  | 0x102 => some ([(16, 36, any)], [])
  | 0x103 => some ([(6, 46, any)], [])
  | 0x104 => some ([(0, 5, fun x => decide (4 ≤ x ∧ x ≤ 16)), (8, 1, any), (48, 16, any)], [9])
  | 0x105 => some ([(0, 5, fun x => decide (x ≤ 20)), (12, 40, any)], [])
  | 0x107 => some ([(0, 1, any), (16, 16, nonzero)], [])
  | 0x108 => some ([(0, 32, any), (32, 32, any)], [])
  | 0x109 => some ([(0, 5, fun x => decide (x ≤ 16)), (16, 40, any)], [])
  | 0x10A => some ([(0, 16, any), (21, 31, any)], [])
  | 0x10B => some ([(0, 16, fun x => decide (256 ≤ x)), (16, 1, any)], [])
  | 0x10C => some ([(0, 16, nonzero)], [])
  | 0x10D => some ([(0, 1, any), (16, 12, any), (32, 16, nonzero)], [])
  | 0x10E => some ([(16, 16, any), (32, 32, any)], [0, 1])
  | 0x10F => some ([(0, 56, any)], [])
  | 0x110 => some ([(0, 3, any), (32, 12, any)], [])
  | 0x112 => some ([(32, 32, any)], [0])
  | _ => none

/-- The STLB rows with their KIND (R137, R138). -/
def stlbKind (i : Instr) : Option (Nat × StlbForm) :=
  match i with
  | .stlbVa f => some (0, f)
  | .stlbVaall f => some (1, f)
  | .stlbAsid f => some (2, f)
  | .stlbAll f => some (3, f)
  | .stlbPeer f => some (4, f)
  | _ => none

/-- The host's TLBICTL rows with their KIND (R137, R138). -/
def tlbiKind (i : Instr) : Option (Nat × BitVec 12) :=
  match i with
  | .tlbiVa a => some (0, a)
  | .tlbiVaall a => some (1, a)
  | .tlbiAsid a => some (2, a)
  | .tlbiAll a => some (3, a)
  | .tlbiPeer a => some (4, a)
  | _ => none

/-- A path at issue, or one that waits, brought to `g` for a move about it: the state in which the move acts. -/
def State.atPath (s : State) (g : GroupId) (slot : Bool) (t : State) : Prop := s.exchange g slot = some t

/-! ## Words of the statements about lane instructions (spec/13) -/

/-- The fields of a lane instruction, all zero. -/
def Lane.zero : Lane :=
  { vd := 0, va := 0, vb := 0, vc := 0, ss := 0, bsb := 0, bsc := 0, rsv := 0, mask := 0, minv := 0, type := 0, rm := 0, sat := 0, fs := 0
    scope := 0, ord := 0, imm := 0 }

/-- A row of Table 13-1, or of the Haar, threshold, key and digit rows, that computes one result for each active lane: how it uses
its vector fields, and a lane's result from the lane's operands. -/
def laneRow (i : Instr) : Option (Shape × Lane × (State → LaneIn → Fp Nat)) :=
  match i with
  | .vadd l => some (elemShape 2 l, l, elemLane addOp l)
  | .vsub l => some (elemShape 2 l, l, elemLane subOp l)
  | .vmul l => some (elemShape 2 l, l, elemLane mulOp l)
  | .vmulh l => some (elemShape 2 l, l, elemLane mulhOp l)
  | .vfma l => some (elemShape 3 l, l, elemLane (fmaOp false false) l)
  | .vfms l => some (elemShape 3 l, l, elemLane (fmaOp false true) l)
  | .vfnma l => some (elemShape 3 l, l, elemLane (fmaOp true false) l)
  | .vmin l => some (elemShape 2 l, l, elemLane (minOp false) l)
  | .vmax l => some (elemShape 2 l, l, elemLane (minOp true) l)
  | .vabs l => some (elemShape 1 l, l, elemLane absOp l)
  | .vneg l => some (elemShape 1 l, l, elemLane negOp l)
  | .vand l => some (elemShape 2 l, l, fun _ x => { val := x.a &&& x.b })
  | .vor l => some (elemShape 2 l, l, fun _ x => { val := x.a ||| x.b })
  | .vxor l => some (elemShape 2 l, l, fun _ x => { val := x.a ^^^ x.b })
  | .vnot l => some (elemShape 1 l, l, fun _ x => { val := (if isWide l.type.toNat then 2 ^ 64 else 2 ^ 32) - 1 - x.a })
  | .vshl l => some (elemShape 2 l, l, elemLane shlOp l)
  | .vshr l => some (elemShape 2 l, l, elemLane shrOp l)
  | .vsra l => some (elemShape 2 l, l, elemLane sraOp l)
  | .vcmp l => some (elemShape 2 l, l, elemLane (cmpOp (l.imm.toNat % 16)) l)
  | .vsel l => some (elemShape 3 l, l, elemLane selOp l)
  | .vmov l => some ({ b := true, wideB := isWide l.type.toNat, wideD := isWide l.type.toNat }, l, fun _ x => { val := x.b })
  | .vpopc l => some (elemShape 1 l, l, elemLane popcOp l)
  | .vclz l => some (elemShape 1 l, l, elemLane clzOp l)
  | .vdot4 l => some ({ a := true, b := true, c := true }, l, fun s x => dotVal l.type.toNat (s.rounder l.rm.toNat 0 (4 * x.lane)) (l.sat = 1) x.a x.b x.c)
  | .vdot2 l => some ({ a := true, b := true, c := true }, l, fun s x => dotVal l.type.toNat (s.rounder l.rm.toNat 0 (4 * x.lane)) (l.sat = 1) x.a x.b x.c)
  | .vexpo l => some ({ a := true }, l, fun _ x => { val := expoBits x.a })
  | .vscalb l => some ({ a := true, b := true }, l, fun s x => scalbBits (s.rounder l.rm.toNat 0 (4 * x.lane)) (l.sat = 1) x.a x.b)
  | .vrndi l => some (elemShape 1 l, l, elemLane rndiOp l)
  | .vclass l => some (elemShape 1 l, l, elemLane classOp l)
  | .vpack l => some ({ a := true, b := true }, l, fun _ x => { val := packBytes l.imm.toNat x.a x.b })
  | .vidx l => some ({ b := true }, l, fun _ x => { val := (x.b + x.lane) % 2 ^ 32 })
  | .vthr l => some ({ a := true }, l, fun s x => { val := threshold (s.g.hregs.get (l.vb.toNat % 8)).toNat x.a })
  | .vokey l => some (elemShape 1 l, l, elemLane (fun k _ _ a _ _ => { val := orderKey k (l.imm.getLsbD 0) a }) l)
  | .vdigit l => some ({ a := true, b := l.imm.getLsbD 9 }, l, fun _ x => { val := digitOf (l.imm.toNat % 32) (l.imm.toNat / 32 % 16 + 1) (l.imm.getLsbD 9) x.a x.b })
  | .vhaar l => some ({ a := true, b := true, wideD := true }, l, fun _ x =>
      { val := (haarStep x.a x.b).1.val + (haarStep x.a x.b).2.val * 2 ^ 32, fl := (haarStep x.a x.b).1.fl.or (haarStep x.a x.b).2.fl })
  | .vihaar l => some ({ a := true, b := true, wideD := true }, l, fun _ x =>
      { val := (ihaarStep x.a x.b).1.val + (ihaarStep x.a x.b).2.val * 2 ^ 32, fl := (ihaarStep x.a x.b).1.fl.or (ihaarStep x.a x.b).2.fl })
  | _ => none

/-- An instruction has written lanes of the vector registers `f` alone and set sticky flags of FPSTAT (R334). -/
def State.wroteV (s t : State) (f : Nat → Nat → Prop) : Prop :=
  s.onlyGroup t ∧ s.samePath t
    ∧ t.g = { s.g with vregs := t.g.vregs, fpstat := t.g.fpstat, slot0 := t.g.slot0, slot1 := t.g.slot1, ovr := t.g.ovr, yielded := t.g.yielded }
    ∧ (∀ r l, l < 32 → ¬ f r l → t.g.vreg r l = s.g.vreg r l)
    ∧ t.g.fpstat &&& ~~~ 7#64 = s.g.fpstat &&& ~~~ 7#64
    ∧ ∀ a, t.byte a = s.byte a

/-- The window of a lane load or store (R356): 0 is a virtual address. -/
def laneLoadForm (i : Instr) : Option (Nat × Lane) :=
  match i with
  | .vld l => some (0, l)
  | .vldsp l => some (1, l)
  | .vldqm l => some (2, l)
  | .vldds l => some (3, l)
  | _ => none
def laneStoreForm (i : Instr) : Option (Nat × Lane) :=
  match i with
  | .vst l => some (0, l)
  | .vstsp l => some (1, l)
  | .vstqm l => some (2, l)
  | .vstds l => some (3, l)
  | _ => none
def laneAtomicForm (i : Instr) : Option (Nat × Lane) :=
  match i with
  | .vatom l => some (0, l)
  | .vatomsp l => some (1, l)
  | _ => none

/-- The access that a lane load (kind 0), store (1) or atomic (2) makes (R356, R358). -/
def laneAccess (win kind n : Nat) (l : Lane) (opOk : Bool) : Access :=
  { win := win, n := n, kind := kind, annot := l.ord != 0, priv := win == 0 && l.va == 31, opOk := opOk }

/-- The index and value broadcasts of a lane instruction (R290). -/
def bcIf (bit : BitVec 1) (bc : Option Word64) : Option Word64 := if bit = 1 then bc else none

/-! ## Words of the statements about the units (spec/09, 10, 14 to 16, 20) -/

/-- The state in which an instruction's command has issued (R109), and nothing else of it is done. -/
def State.issued (s : State) (ctx : Ctx) (i : Instr) (active : Word32) (k : Option Nat) (a : CmdArgs) : State :=
  (runAct (issueCommand ctx i active k a) s).2

/-- Checks of an instruction one after another. -/
def allOf : List (Act Unit) → Act Unit
  | [] => pure ()
  | a :: rest => do
    a
    allOf rest

/-- The lane words that act once, whatever the number of active lanes, with what each checks before it asks for an active
lane (R363, R386, R411). -/
def onceForm (i : Instr) : Option (Lane × List (Act Unit)) :=
  match i with
  | .tdef l => some (l, [checkTile 0 l.vd])
  | .tfree l => some (l, [checkTile 0 l.vd])
  | .tstate l => some (l, [checkTile 0 l.va])
  | .trd l => some (l, [checkV 0 l.vd.toNat (l.imm.toNat % 64 + 1), checkTile 0 l.va])
  | .twr l => some (l, [useV 0 l.va (l.imm.toNat % 64 + 1), checkTile 0 l.vd])
  | .htwr l => some (l, [useV 0 l.va (l.imm.toNat % 64 + 1), checkTile 0 l.vd])
  | .hrec l => some (l, [checkTile 0 l.vd])
  | .mclaim l => some (l, [checkSlots 0 ((List.range (l.imm.toNat % 16 + 1)).map (l.vd.toNat + ·))])
  | .mrel l => some (l, [checkSlots 0 ((List.range (l.imm.toNat % 16 + 1)).map (l.vd.toNat + ·))])
  | .mfill l => some (l, [checkSlot 0 l.vd.toNat, checkTile 0 l.va])
  | .mma l => some (l, [checkSlots 0 [l.va.toNat, l.vb.toNat]])
  | .mmasp l => some (l, [checkSlots 0 [l.va.toNat, l.vb.toNat, l.imm.toNat % 16]])
  | .maccz l => some (l, [])
  | .maccwr l => some (l, [useV 0 l.va (l.imm.toNat % 64 + 1)])
  | .maccrd l => some (l, [checkTile 0 l.vd])
  | .kvapp l => some (l, [checkTile 0 l.vb, checkTile 0 l.vc])
  | .kvfork l => some (l, [])
  | .kvrel l => some (l, [])
  | .kvlook l => some (l, [])
  | .amass l => some (l, [])
  | .kvpin l => some (l, [])
  | .kvunpin l => some (l, [])
  | .attn l => some (l, [needACore, checkTile 0 l.vd, checkTile 0 l.va, checkTile 0 l.vb])
  | .asel l => some (l, [needACore, checkTile 0 l.va])
  | .asumu l => some (l, [needACore])
  | .kvsweep l => some (l, [needACore])
  | .kvdem l => some (l, [needACore])
  | .qinit l => some (l, [])
  | .qpush l => some (l, [checkV 0 l.vb.toNat 1])
  | .qpop l => some (l, [checkV 0 l.vd.toNat 1])
  | .npost l => some (l, [])
  | .ndec l => some (l, [])
  | .ndone l => some (l, [])
  | .spsend l => some (l, [checkTile 0 l.va])
  | .sprecv l => some (l, [checkTile 0 l.va])
  | .spgrant l => some (l, [])
  | .xstat l => some (l, [])
  | _ => none

/-- Those of them that do not reset the hang counter (R219): the tile, slot and accumulator forms that are no command. -/
def oncePlain (i : Instr) : Bool :=
  match i with
  | .tdef _ => true
  | .tfree _ => true
  | .tstate _ => true
  | .trd _ => true
  | .twr _ => true
  | .htwr _ => true
  | .mclaim _ => true
  | .mrel _ => true
  | .maccz _ => true
  | .maccwr _ => true
  | _ => false

/-- The matrix multiplications with the operand slots that they read (R379, R381). -/
def matForm (i : Instr) : Option (Lane × List Nat) :=
  match i with
  | .mma l => some (l, [l.va.toNat, l.vb.toNat])
  | .mmasp l => some (l, [l.va.toNat, l.vb.toNat, l.imm.toNat % 16])
  | _ => none

/-- The instructions of one transaction, with it (R391 to R393, R404, R407, R408). -/
def txnForm (i : Instr) : Option (Lane × Txn) :=
  match i with
  | .kvfork l => some (l, kvforkTxn l)
  | .kvrel l => some (l, kvrelTxn l)
  | .kvlook l => some (l, kvlookTxn l)
  | .amass l => some (l, amassTxn l)
  | .kvpin l => some (l, kvpinTxn l)
  | .kvunpin l => some (l, kvunpinTxn l)
  | _ => none

/-- The walker's event that serves the parked instruction of a path. -/
def txnEvent (g : GroupId) (slot : Bool) (i : Instr) : Option Instr :=
  match i with
  | .kvfork _ => some (.kvForkTransaction g slot)
  | .kvrel _ => some (.kvReleaseTransaction g slot)
  | .kvlook _ => some (.kvLookupTransaction g slot)
  | .amass _ => some (.kvAmassTransaction g slot)
  | .kvpin _ => some (.kvSnapshot (.path g slot))
  | .kvunpin _ => some (.kvUnpinTransaction (.path g slot))
  | _ => none

/-- The commands on an arena with no tile (R403, R405, R406), with their contexts. -/
def arenaForm (i : Instr) : Option (Lane × Ctx) :=
  match i with
  | .asumu l => some (l, .sel)
  | .kvsweep l => some (l, .dem)
  | .kvdem l => some (l, .dem)
  | _ => none

/-- The copy commands (R411). -/
def copyForm (i : Instr) : Option (Lane × CopyKind) :=
  match i with
  | .xcopy l => some (l, .copy)
  | .xgath l => some (l, .gath)
  | .xwin l => some (l, .win)
  | .xput l => some (l, .put)
  | _ => none

/-- A part of a key-value transaction ends at `r` with result `x`, and leaves what it has done as `r'`. -/
def KvDoes {α : Type} (k : Kv α) (c : KvCtx) (r : KvRun) (x : α) (r' : KvRun) : Prop := ((k.run c).run).run r = (.ok x, r')

/-- A sector that a copy command has completed (R268): below FIRST, or marked in its progress record. -/
def Command.sectorDone (c : Command) (n : Nat) : Bool :=
  decide (n < c.first) || (decide (c.first < n) && decide (n ≤ c.first + 64) && c.done.getLsbD (n - c.first - 1))

/-- The event of a command `c` is `f` of the state with its issuing group at issue. -/
def Acts (e : Instr) (s : State) (c : Command) (f : State → State) : Prop := exec e s = .next (s.inCommand c f)

/-- The action of a path that waits, brought to issue, leaves the state `u` there. -/
def Resumes (e : Instr) (s : State) (g : GroupId) (slot : Bool) (u : State) : Prop := exec e s = .next (s.withGroup g slot fun _ => u)

/-- A path whose wait has ended, with its mark (R283), retires an instruction of `n` words (R230 Table 8-6, rows 4 and 5): above its own
clock and, in deterministic mode, above the clock that its wait holds. -/
def State.retiredWait (s : State) (n : Nat) : State :=
  s.endWait.retireAt n (s.waitClock (match s.path.wait with | some w => w.vals.headD 0 | none => 0))

/-- A wait of the blocking kind that has ended retires an instruction of `n` words: the hang counter starts again (R219), and the clock
is above the path's own and, in deterministic mode, above that of what ended the wait (R230). -/
def State.retiredAbove (s : State) (n : Nat) (ender : Word64) : State := s.unhang.retireAt n (s.waitClock ender)

/-- The state in which a spore has been formed and its command has started (R435). -/
def State.sporeSent (s : State) (l : Lane) (active : Word32) (k : Option Nat) (b : Word64) (x : Channel) (t : Tile) : State :=
  (runAct (sendSpore l active k b x t) s).2

/-- The state in which a spore has been claimed and its fill has started (R436). -/
def State.sporeClaimed (s : State) (l : Lane) (active : Word32) (k : Option Nat) (x : Channel) (y : Spore) (t : Tile) : State :=
  (runAct (claimSpore l active k x y t) s).2

/-! ## Safe runs -/

/-- A state in which nothing a program can do leads to a stop: memory is in its canonical form. -/
def State.safe (s : State) : Prop := Memory.wf s.mem = true

/-- A run of `n` steps that meets no fault and no refusal, each of whose states is safe. -/
def SafeRun : Nat → State → Prop
  | 0, s => s.safe
  | n + 1, s => s.safe ∧ ∃ t, step s = .next t ∧ SafeRun n t

end Sys2Proof.Machine
end

