-- ==== Sys2Proof/Certificates/Slice0/Obligations.lean ====
section
/-! DEFINITION. The statements for the provers. Each docstring names the rules of spec/ that its statement formalises. -/

open Sys2Proof Sys2Proof.Machine

/-! ## Encoding (spec/11) -/

/-- Words that spec/11 and the instruction descriptions write out, and words put together from Tables 11-4 and 11-6, decode to the
instructions they stand for: one or more of each form of Table 11-4 and of each family of Table 11-8. -/
def Obligations.DecodeWords : Prop :=
  (decode [0x01061029] = .ok (.sadd { d := 3, a := 4, b := 5, rsv := 0, w := 1 }, 1)
    ∧ decode [0x2E0A0000, 0xFFFFFFFF] = .ok (.slit { d := 5, a := 0, imm := 0 } 0xFFFFFFFF, 2)
    ∧ decode [0x300A20D4] = .ok (.sld { d := 5, buf := 2, sx := 6, w := 2, scope := 4 }, 1)
    ∧ decode [0x40FFFFFE] = .ok (.jmp { off := 0xFFFFFE }, 1)
    ∧ decode [0x41000005] = .ok (.call { off := 5 }, 1)
    ∧ decode [0x4201F800] = .ok (.ret { d := 0, a := 126, sub := 0 }, 1)
    ∧ decode [0x47260005] = .ok (.lbr { a := 0x13, off := 5 }, 1)
    ∧ decode [0x48000000] = .ok (.ljoin { d := 0, a := 0, sub := 0 }, 1))
  ∧ (decode [0x50000034] = .ok (.fence { d := 0, a := 0, sub := 0x34 }, 1)
    ∧ decode [0x52142C01] = .ok (.bara { d := 10, a := 11, sub := 1 }, 1)
    ∧ decode [0x55120004] = .ok (.tlrd { d := 9, a := 0, sub := 4 }, 1)
    ∧ decode [0x58000031, 3, 1, 0xF] = .ok (.phint { d := 0, a := 0, sub := 0x31 } 3 1 0xF, 4)
    ∧ decode [0x59000D05] = .ok (.trap { d := 0, a := 3, sub := 0x105 }, 1)
    ∧ decode [0x5B0E0111] = .ok (.srd { d := 7, a := 0, sub := 0x111 }, 1)
    ∧ decode [0x5C001D01] = .ok (.swr { d := 0, a := 7, sub := 0x101 }, 1)
    ∧ decode [0x600C2000] = .ok (.smwait { d := 6, a := 8, sub := 0 }, 1)
    ∧ decode [0x62081428] = .ok (.stlbVa { d := 4, a := 5, rsv := 0, scope := 5 }, 1)
    ∧ decode [0x63142C00] = .ok (.mappg { d := 10, a := 11, sub := 0 }, 1)
    ∧ decode [0x64183400] = .ok (.frpost { d := 12, a := 13, sub := 0 }, 1))
  ∧ (decode [0x85404002, 0, 0x03880012] = .ok (.vcvt { Lane.zero with vd := 8, va := 2, type := 7, sat := 1, imm := 0x12 }, 3)
    ∧ decode [0x90004002, 0, 0x0580002B] = .ok (.vshfl { Lane.zero with vd := 8, va := 2, type := 11, imm := 43 }, 3)
    ∧ decode [0x90C0280C, 0, 0x01100000] = .ok (.vred { Lane.zero with vd := 5, va := 12, type := 2, rm := 1 }, 3)
    ∧ decode [0x91C01801, 0x00400000, 5] = .ok (.vmsk { Lane.zero with vd := 3, va := 1, vb := 2, imm := 5 }, 3)
    ∧ decode [0x98004002, 0x00A00000, 0x01000000] = .ok (.vhaar { Lane.zero with vd := 8, va := 2, vb := 5, type := 2 }, 3)
    ∧ decode [0x98801800, 0x0000008C, 0x01000001] = .ok (.vthrSet { Lane.zero with vd := 3, ss := 17, bsb := 1, type := 2, imm := 1 }, 3)
    ∧ decode [0x99002006, 0x00E00000, 0x008002EC] = .ok (.vdigit { Lane.zero with vd := 4, va := 6, vb := 7, type := 1, imm := 0x2EC }, 3))
  ∧ (decode [0x9C005003, 0x01600000, 0x28862000] = .ok (.vld { Lane.zero with vd := 10, va := 3, vb := 11, mask := 2, minv := 1, type := 1, fs := 1, scope := 4, ord := 1 }, 3)
    ∧ decode [0x9C400003, 0x0000004E, 0] = .ok (.vst { Lane.zero with va := 3, ss := 9, bsb := 1, bsc := 1 }, 3)
    ∧ decode [0x9E006004, 0x01A03800, 0x00800000] = .ok (.vatom { Lane.zero with vd := 12, va := 4, vb := 13, vc := 14, type := 1 }, 3)
    ∧ decode [0x9E800002, 0x00A01800, 1] = .ok (.vhist { Lane.zero with va := 2, vb := 5, vc := 6, imm := 1 }, 3)
    ∧ decode [0x9EC00001, 0x00400000, 1] = .ok (.vpref { Lane.zero with va := 1, vb := 2, imm := 1 }, 3))
  ∧ decode [0xA5401828, 0x02E00000, 0] = .ok (.htwr { Lane.zero with vd := 3, va := 40, vb := 23 }, 3)
  ∧ decode [0xA6C01003, 0x00A0A000, 7] = .ok (.mmasp { Lane.zero with vd := 2, va := 3, vb := 5, vc := 40, imm := 7 }, 3)
  ∧ decode [0xAC00A015, 0x00200800, 0] = .ok (.kvapp { Lane.zero with vd := 20, va := 21, vb := 1, vc := 2 }, 3)
  ∧ decode [0xB0403005, 0x05002000, 0x88] = .ok (.xgath { Lane.zero with vd := 6, va := 5, vb := 40, vc := 8, imm := 0x88 }, 3)
  ∧ decode [0xB4406005, 0x01200000, 1] = .ok (.qpush { Lane.zero with vd := 12, va := 5, vb := 9, imm := 1 }, 3)
  ∧ decode [0xB4C03808, 0, 0] = .ok (.npost { Lane.zero with vd := 7, va := 8 }, 3)
  ∧ decode [0xB5803882, 0x01200000, 0] = .ok (.spsend { Lane.zero with vd := 7, va := 130, vb := 9 }, 3)

/-- Decoding and encoding agree (R286, R288): the words of every well-formed instruction that has an encoding, with any words after
them, decode to that instruction and to their number. No operand value loses a bit. -/
def Obligations.DecodeEncode : Prop :=
  ∀ (i : Instr) (rest : List Word32), i.WellFormed → i.enc.isSome = true → decode (encode i ++ rest) = .ok (i, (encode i).length)

/-- The other direction (R295): words that decode to an instruction are the words of its encoding, and the instruction is well formed.
So no two instructions share words, and no bit of a word is ignored. R278, R280: a word whose bits [31:30] are 0b11 is a clause header,
and is no instruction in a clause body. -/
def Obligations.EncodeDecode : Prop :=
  (∀ (ws : List Word32) (i : Instr) (n : Nat), decode ws = .ok (i, n) → i.WellFormed ∧ i.enc.isSome = true ∧ encode i = ws.take n)
  ∧ (∀ (w : Word32) (rest : List Word32), w.extractLsb' 30 2 = 3 → decode (w :: rest) = .error .header)

/-! ## Steps and reset -/

/-- A step runs the decoded instruction: with a clause granted, no move scheduled and nothing to come first, the words at issue decode
to the instruction that the step executes, the path's replay entry, if there is one, giving its operands (R260, R261); then the time
that the step takes passes. What passes with time is the model's choice (log entry 2): TIMER, the time since PERST#, the step count, the
power in PWRSTAT (R461), and of each group its hang counter with what R220 does where it reaches the limit, and the cycles it has waited
for a grant; a grant set aside whose path has moved, trapped or stopped ends (R251). No other register, no path and no byte of memory
changes. -/
def Obligations.StepRunsDecoded : Prop :=
  (∀ (s t : State) (i : Instr) (n : Nat), s.schedule = [] → s.granted = true → s.tripped = false → s.before = none →
    decode s.path.words = .ok (i, n) → exec i s.withOperands = .next t → step s = .next t.passTime)
  ∧ (∀ s : State, (s.path.replay = [] → s.withOperands = { s with g := { s.g with ovr := none } })
      ∧ ∀ r rest, s.path.replay = r :: rest → s.withOperands = { s with g := { s.g with ovr := r.ops.map fun o => ⟨o.1, o.2, r.lmask⟩ } })
  ∧ ∀ t : State,
    t.passTime = { t with steps := t.steps + 1, sincePerst := t.passTime.sincePerst, quarters := t.passTime.quarters, g := t.passTime.g
                          others := t.passTime.others
                          regs := { t.regs with timer := t.passTime.regs.timer, pwrstat := t.passTime.regs.pwrstat } }
      ∧ (∀ k, k < 16 ∨ 32 ≤ k → t.passTime.regs.pwrstat.getLsbD k = t.regs.pwrstat.getLsbD k)
      ∧ t.sincePerst ≤ t.passTime.sincePerst ∧ (∀ q, q ∈ t.passTime.quarters ↔ q ∈ t.quarters ∧ t.stillGranted q.1 q.2.1 = true)
      ∧ t.passTime.g = { t.g with hang := t.passTime.g.hang, waited := t.passTime.g.waited, gstat := t.passTime.g.gstat
                                  hangPending := t.passTime.g.hangPending }
      ∧ (∀ k, k ≠ 2 → t.passTime.g.gstat.getLsbD k = t.g.gstat.getLsbD k)
      ∧ t.passTime.path = t.path ∧ (∀ a, t.passTime.byte a = t.byte a) ∧ t.passTime.others.map (·.id) = t.others.map (·.id)

/-- R280, R287, R295: words that decode to no instruction make the step take the trap of their cause, with the frame's instruction
words, before any effect; a RET, or a taken branch on a condition mask, whose fields are wrong takes the trap of a target that is
refused first. An agent's move that the schedule names comes before any instruction, and leaves the list (the model's choice, log entry 1).
R462: after a thermal trip no group issues: a step with nothing scheduled changes only what passes with time (log entry 2).
Every instruction and every event of the table answers a next state in every state, and so does every step: no fault and no refusal. -/
def Obligations.StepOtherwise : Prop :=
  (∀ (s s₁ : State) (e : DecodeError), s.schedule = [] → s.granted = true → s.tripped = false → s.before = none →
    s.live = true → (s.g.path? s.slot).isSome = true → decode s.path.words = .error e →
    let w := s.path.words.headD 0
    let target := if e = .field then s.badTransfer w else none
    ((target = none ∧ s₁ = s) ∨ (∃ x, target = some x ∧ Does (checkTarget x) s () s₁) →
      step s = .next (s₁.enterHandler
        { trap := { cause := (errorCause (errorOn s.g.die e w)).1, sub := (errorCause (errorOn s.g.die e w)).2
                    lmask := s₁.path.mask, va := 0, kind := 0, level := 0xF }
          iw := if e = .header then [w] else s₁.path.frameWords }).passTime)
    ∧ ∀ x t, target = some x → runAct (checkTarget x) s = (.error (.trap t), s₁) →
      step s = .next (s₁.enterHandler { trap := t, iw := s₁.path.frameWords }).passTime)
  ∧ (∀ (s t : State) (e : Instr) (rest : List Instr), s.schedule = e :: rest → exec e { s with schedule := rest } = .next t →
    step s = .next t.passTime)
  ∧ (∀ s : State, s.schedule = [] → s.tripped = true → step s = .next s.passTime)
  ∧ ((∀ (i : Instr) (s : State), ∃ t, exec i s = .next t) ∧ ∀ s : State, ∃ t, step s = .next t)

/-- The state after reset: the machine waits for PERST# (R454), and the system registers hold the values of their tables: FRCTL.LOGN 4
(R131), SCHEDCTL.AGE 1000 (R246), PRECTL.LIMIT 2048 (R263), RINGCTL.TMO 200 (R277), LICHCTL.SWAPDELTA 4 on the A-dies (R46), and the size
predictor of every die four sectors (R54). That memory lists nothing, its bytes at their first values (log entry 72), and that no node is
posted and no group is resident (log entries 71 and 6) is the model's choice. -/
def Obligations.Reset : Prop :=
  let s := State.reset
  Memory.wf s.mem = true ∧ s.mem = [] ∧ s.perst = false ∧ s.live = false ∧ s.others = [] ∧ s.nodes = []
    ∧ s.regs.get 0x104 = 4 ∧ s.regs.get 0x107 = 1000 <<< 16 ∧ s.regs.get 0x10B = 2048 ∧ s.regs.get 0x10C = 200
    ∧ s.readDie 0 0x80 = 0x40 ∧ s.readDie 1 0x80 = 0x40 ∧ s.readDie 2 0x80 = 0
    ∧ ∀ (d : BitVec 2) (i : Nat), 4 - ((s.die d).predictor.get i).toNat = 4

/-! ## Scalar instructions (spec/12 R291 to R317) -/

/-- Reading S[n] (R285, R206, R260): the register's value; the captured value where a replay entry executes; a wait while a command or
the other path has still to write it; ECC where it holds a soft error. R285, R206, R251: a row of Table 12-1 or 12-2 whose first operand
waits gives up its grant, which YLD makes a YIELD, and changes nothing else but that its path is known to wait for what Table 8-6 lists
(R219; which stalls these are is DEDUCED, log entry 81); one whose first operand holds a soft error takes the trap ECC before any effect.
R226, R281: an instruction of `n` words that retires raises the path's clock by 1, but not in supervisor mode; the path goes on in the
clause while words are left, else to the header that follows, with its grant ended. That a header at 2^56 or above is left to its fetch is
the model's choice (log entry 50). Nothing else changes. R281: a transfer moves the path to its target header: its clause and its grant
end, and outside supervisor mode its clock rises by 1. -/
def Obligations.OperandsAndRetiring : Prop :=
  (∀ (s : State) (n : BitVec 7),
    (s.g.ovr = none → s.busyReg n = false → s.isSoft (.sreg s.g.id n.toNat) = false →
      Gives (readSA n) s (s.g.sregs.get n.toNat) ∧ Gives (readSB n) s (s.g.sregs.get n.toNat))
    ∧ (∀ c, s.g.ovr = some c → Gives (readSA n) s c.a ∧ Gives (readSB n) s c.b)
    ∧ (s.g.ovr = none → s.busyReg n = true → Stalls (readSA n) s ∧ Stalls (readSB n) s)
    ∧ (s.g.ovr = none → s.busyReg n = false → s.isSoft (.sreg s.g.id n.toNat) = true →
      Raises (readSA n) s { cause := cECC, sub := 2, lmask := s.path.mask, va := 0, kind := 0, level := 0xF }))
  ∧ (∀ (i : Instr) (s : State) (a : BitVec 7),
    (table12_1 i).map (fun r => r.1.a) = some a ∨ (table12_1One i).map (fun r => r.1.a) = some a
      ∨ (table12_1Old i).map (fun r => r.1.a) = some a ∨ (table12_2 i).map (fun r => r.1.a) = some a →
    (Stalls (readSA a) s → exec i s = .next s.stallPath ∧ s.wroteNothing s.stallPath ∧ s.stallPath.granted = false
      ∧ ((s.g.path? s.slot).isSome = true → s.stallPath.path = { s.path with stalled := true }))
    ∧ ∀ t, Raises (readSA a) s t → exec i s = .next (s.takeTrap t))
  ∧ (∀ (s : State) (n : Nat), s.path.replay.length ≤ 1 →
    s.wroteNothing (s.retire n)
    ∧ (s.retire n).path.clock = (if s.g.supv then s.path.clock else s.path.clock + 1)
    ∧ (s.path.off + n ≤ bodyLen s.path.header → s.path.off + n ≠ 0 → s.path.clause.isSome = true →
        (s.retire n).path.pc = s.path.pc ∧ (s.retire n).path.off = s.path.off + n ∧ (s.retire n).granted = s.granted)
    ∧ (bodyLen s.path.header < s.path.off + n →
        (s.retire n).path.pc = s.path.pc + BitVec.ofNat 56 (4 * (bodyLen s.path.header + 1)) ∧ (s.retire n).path.off = 0
          ∧ (s.retire n).path.top = decide (2 ^ 56 ≤ s.path.pc.toNat + 4 * (bodyLen s.path.header + 1))
          ∧ (s.retire n).path.clause = none ∧ (s.retire n).granted = false))
  ∧ (∀ (s : State) (target : BitVec 56),
    let t := s.transfer target
    t.path.pc = target ∧ t.path.off = 0 ∧ t.path.clause = none ∧ t.granted = false ∧ s.wroteNothing t
      ∧ t.path.clock = (if s.g.supv then s.path.clock else s.path.clock + 1))

/-- R308, R309, R310: the rows of Table 12-1 that read S[SA] and S[SB] write the value of the row, at 64 bits or, with `.w`, at 32 bits
and sign-extended; nothing else but the path's place changes. R308, R309: SPOPC, SCLZ and SCTZ count the ones, the leading and the
trailing zeros of S[SA], and have SB zero. R308, R309: SSEL and SBFI read the old S[SD] too. R311: the I-form rows, with i the sign
extension of IMM10. R312: SLIT writes its literal word sign-extended, SLITD writes L1 × 2^32 + L0; they take two and three words. SNOP
(R287) writes nothing. -/
def Obligations.ScalarResults : Prop :=
  (∀ (i : Instr) (f : RForm) (op : WidthOp) (s : State) (x y : Word64), table12_1 i = some (f, op) →
    Gives (readSA f.a) s x → Gives (readSB f.b) s y → s.busyReg f.d = false →
    let t := (s.setS f.d (widthOf f.w op x y 0)).retire 1
    exec i s = .next t ∧ t.g.sregs.get f.d.toNat = widthOf f.w op x y 0 ∧ s.wroteS t f.d)
  ∧ ((∀ f : RForm, ((Instr.spopc f).check = none ↔ f.rsv = 0 ∧ f.b = 0) ∧ ((Instr.sclz f).check = none ↔ f.rsv = 0 ∧ f.b = 0)
      ∧ ((Instr.sctz f).check = none ↔ f.rsv = 0 ∧ f.b = 0))
  ∧ (∀ (i : Instr) (f : RForm) (op : WidthOp) (s : State) (x : Word64), table12_1One i = some (f, op) →
    Gives (readSA f.a) s x → s.busyReg f.d = false →
    let t := (s.setS f.d (widthOf f.w op x 0 0)).retire 1
    exec i s = .next t ∧ t.g.sregs.get f.d.toNat = widthOf f.w op x 0 0 ∧ s.wroteS t f.d))
  ∧ (∀ (i : Instr) (f : RForm) (op : WidthOp) (s : State) (x y old : Word64), table12_1Old i = some (f, op) →
    Gives (readSA f.a) s x → Gives (readSB f.b) s y → Gives (readS f.d) s old →
    let t := (s.setS f.d (widthOf f.w op x y old)).retire 1
    exec i s = .next t ∧ t.g.sregs.get f.d.toNat = widthOf f.w op x y old ∧ s.wroteS t f.d)
  ∧ (∀ (i : Instr) (f : IForm) (op : Word64 → Word64 → Word64) (s : State) (x : Word64), table12_2 i = some (f, op) →
    Gives (readSA f.a) s x → s.busyReg f.d = false →
    let t := (s.setS f.d (op x (f.imm.signExtend 64))).retire 1
    exec i s = .next t ∧ t.g.sregs.get f.d.toNat = op x (f.imm.signExtend 64) ∧ s.wroteS t f.d)
  ∧ ((∀ (f : IForm) (l : Word32) (s : State), s.busyReg f.d = false →
    let t := (s.setS f.d (BitVec.ofInt 64 l.toInt)).retire 2
    exec (.slit f l) s = .next t ∧ t.g.sregs.get f.d.toNat = BitVec.ofInt 64 l.toInt ∧ s.wroteS t f.d)
  ∧ (∀ (f : IForm) (l0 l1 : Word32) (s : State), s.busyReg f.d = false →
    let t := (s.setS f.d (BitVec.ofNat 64 (l1.toNat * 2 ^ 32 + l0.toNat))).retire 3
    exec (.slitd f l0 l1) s = .next t ∧ t.g.sregs.get f.d.toNat = BitVec.ofNat 64 (l1.toNat * 2 ^ 32 + l0.toNat) ∧ s.wroteS t f.d)
  ∧ ∀ (f : YForm) (s : State), exec (.snop f) s = .next (s.retire 1) ∧ s.wroteNothing (s.retire 1))

/-- R20, R21, R33: byte k of element i lies at BASE plus the swizzled i × STRIDE + k, modulo 2^64; through b31 the element of lane ℓ is
i × 32 + ℓ. Table 1-5: the swizzles exchange no bit but those it names. R19, R22, R25, R32, R69: what an access of one lane to one
element through a window does: each fault in its order, an out-of-bounds element, and an element that passes every check, for which
nothing changes. The VA of PROT/BREC, the first element's address where the record gives it one and else 0, is the model's choice (log
entry 10). -/
def Obligations.Accesses : Prop :=
  ((∀ (r : Rec) (l i k : Nat), r.swz = 0 → r.addr false l i k = (r.base + i * r.stride + k) % 2 ^ 64
      ∧ r.addr true l i k = (r.base + (i * 32 + l) * r.stride + k) % 2 ^ 64)
    ∧ (∀ (r : Rec) (priv : Bool) (l i k : Nat),
      r.addr priv l i k = (r.base + swizzle r.swz (((if priv then i * 32 + l else i) * r.stride + k) % 2 ^ 64)) % 2 ^ 64)
    ∧ ∀ b j : Nat,
      (swizzle 1 b).testBit j = (b.testBit j ^^ (decide (4 ≤ j ∧ j < 7) && b.testBit (j + 3)))
        ∧ (swizzle 2 b).testBit j = (b.testBit j ^^ (decide (4 ≤ j ∧ j < 6) && b.testBit (j + 3)))
        ∧ (swizzle 3 b).testBit j = (b.testBit j ^^ (decide (5 ≤ j ∧ j < 8) && b.testBit (j + 3))))
  ∧ (∀ (a : Access) (r : Rec) (l ix : Nat) (s : State), a.win ≠ 0 → 0 < a.n → l < 32 →
    let x := fun k => r.addr a.priv l ix k
    let fault := fun (c u : BitVec 8) (va : Nat) =>
      ({ cause := c, sub := u, lmask := 1#32 <<< l, va := BitVec.ofNat 56 va, kind := BitVec.ofNat 4 a.kind, level := 0xF } : Trap)
    let misaligned := (a.annot = true ∨ a.kind = 2) ∧ x 0 % min (2 ^ r.esz) 16 ≠ 0
    let beyond := ∃ k, k < a.n ∧ s.winLimit a.win ≤ x k
    let soft := a.kind ≠ 1 ∧ ∃ k, k < a.n ∧ s.winSoft a.win (x k) = true
    (r.bad = true → Raises (resolve a r [⟨l, ix⟩]) s (fault cPROT 3 (if ix < r.extent then x 0 else 0)))
    ∧ (r.bad = false → r.extent ≤ ix → r.oobt = true → Raises (resolve a r [⟨l, ix⟩]) s (fault cOOB 0 0))
    ∧ (r.bad = false → r.extent ≤ ix → r.oobt = false → Does (resolve a r [⟨l, ix⟩]) s [] (s.stick 0))
    ∧ (r.bad = false → ix < r.extent → misaligned → Raises (resolve a r [⟨l, ix⟩]) s (fault cALIGN 1 (x 0)))
    ∧ (r.bad = false → ix < r.extent → ¬ misaligned → beyond → Raises (resolve a r [⟨l, ix⟩]) s (fault cPROT 4 (x 0)))
    ∧ (r.bad = false → ix < r.extent → ¬ misaligned → ¬ beyond → ¬ soft →
        Gives (resolve a r [⟨l, ix⟩]) s [⟨l, (List.range a.n).map fun k => ⟨x k, [x k], false, 0⟩, none⟩]))

/-- R37, R49, R458: a store writes its bytes and no other; carve-outs keep their contents, and so do holes, which is the model's choice (log
entry 13); and memory stays in its canonical form. Only memory, the marks of watches, poison, the lines to be written back and what the host
may still undo (R448; log entry 78) may change: of a byte that the host cannot reject nothing is undone any more. R59, R89, R104: the bytes
outside the carve-outs that a store instruction may change are those of its elements, and the undrained stores that it drains; a store
through a window changes no byte of memory. R32, R114: a store through the scratchpad window writes its bytes, the last of equal offsets
staying, and no other; its workgroup's scratchpad stays in canonical form. -/
def Obligations.Stores : Prop :=
  (∀ (s : State) (ws : List (Nat × Byte)),
    (∀ a, (∀ p ∈ ws, p.1 ≠ a) ∨ inCarve a = true ∨ isHole (basePa a) = true → (s.store ws).byte a = s.byte a)
    ∧ (∀ a v, (ws.map Prod.fst).Nodup → (a, v) ∈ ws → inCarve a = false → isHole (basePa a) = false → (s.store ws).byte a = v)
    ∧ (Memory.wf s.mem = true → Memory.wf (s.store ws).mem = true)
    ∧ s.store ws = { s with mem := (s.store ws).mem, g := { s.g with watch := (s.store ws).g.watch }, others := (s.store ws).others
                            soft := (s.store ws).soft, dirty := (s.store ws).dirty, hostStores := (s.store ws).hostStores }
    ∧ (∀ l ∈ (s.store ws).hostStores, ∀ p ∈ l, p.1 ∉ ws.map Prod.fst)
    ∧ ∀ a, (s.devStore ws).byte a = (s.store ws).byte a)
  ∧ (∀ (s : State) (es : List (Elem × List Byte)) (k : Option Nat),
    (∀ a, inCarve a = false → (∀ u ∈ s.g.uo, u.pa ≠ a) → (∀ e ∈ es, ∀ b ∈ e.1.bytes, a ∉ b.pas) → (s.storeElems 0 es k).byte a = s.byte a)
    ∧ ∀ win, win ≠ 0 → ∀ a, (s.storeElems win es k).byte a = s.byte a)
  ∧ (∀ (s : State) (ws : List (Nat × Byte)),
    (∀ off, (∀ p ∈ ws, p.1 ≠ off) → (s.winStore 1 ws).winByte 1 off = s.winByte 1 off)
    ∧ (∀ off v, (ws.map Prod.fst).Nodup → (off, v) ∈ ws → (s.winStore 1 ws).winByte 1 off = v)
    ∧ (SMap.wf s.w.scr = true → SMap.wf (s.winStore 1 ws).w.scr = true)
    ∧ ∀ a, (s.winStore 1 ws).byte a = s.byte a)

/-- R313, R314: a scalar load whose access passes every check writes the first W bits of the element, zero-extended, or zero for an
element out of bounds; nothing else changes after the access. R313, R314: a scalar store whose access passes every check writes the low
W bits of S[SS] as the first W bits of the element, or nothing for an element out of bounds. R59, R96, R99: an annotated store is a
release: while an earlier store of the group awaits an acknowledgement it waits at issue. R283: its mark stands until the store is
performed. -/
def Obligations.ScalarMemory : Prop :=
  (∀ (i : Instr) (win : Nat) (f : MForm) (s s₁ : State) (k : Option Nat) (ix : Word64) (b : BitVec 128) (es : List Elem),
    scalarLoadForm i = some (win, f) → Gives (checkMark false) s k → Gives (readSA f.sx) s ix → Gives (readB f.buf.toNat) s b →
    Does (resolve (scalarAccess win 0 f) (s.g.recIn f.buf.toNat b) [⟨0, ix.toNat⟩]) s es s₁ → s₁.busyReg f.d = false →
    let s₂ := s₁.clamped win f.scope.toNat (!es.isEmpty)
    let v := BitVec.ofNat 64 (match es with | [] => 0 | e :: _ => natOf (e.bytes.map fun x => s₂.elemByte win x))
    let t := (s₂.setS f.d v).retire 1
    exec i s = .next t ∧ t.g.sregs.get f.d.toNat = v ∧ s₂.wroteS t f.d)
  ∧ (∀ (i : Instr) (win : Nat) (f : MForm) (s s₁ : State) (k : Option Nat) (ix v : Word64) (b : BitVec 128) (es : List Elem),
    scalarStoreForm i = some (win, f) → Gives (checkMark false) s k → Gives (readSA f.sx) s ix → Gives (readSB f.d) s v →
    Gives (readB f.buf.toNat) s b →
    (f.scope ≠ 0 → s.allAcked (.group s.g.id) = false → exec i s = .next s.endGrant)
    ∧ ((f.scope ≠ 0 → s.allAcked (.group s.g.id) = true) → Does (resolve (scalarAccess win 1 f) (s.g.recIn f.buf.toNat b) [⟨0, ix.toNat⟩]) s es s₁ →
      let s₂ := (s₁.clamped win f.scope.toNat (!es.isEmpty)).storeElems win (es.map fun e => (e, bytesOf (2 ^ f.w.toNat) v.toNat)) (markOf es k)
      (win = 0 → Gives (storeLost es) s₂ ()) →
      let t := s₂.unhang.retire 1
      exec i s = .next t ∧ s₂.unhang.wroteNothing t))

/-- R315, R316, R317, R281: JMP, CALL, RET and the branches go to targets that are clause headers; CALL writes S[126] with the address
of the header after its clause, which does not wrap (R12); a branch not taken goes on in the clause. A target that is refused raises its
trap before any effect of JMP, CALL, RET or a branch that is taken: NONCANON for an aligned one at 2^56 or above (R12), ILLCL/TARGET for one
that is no multiple of 4, or whose word of the node's code (R282) is no clause header. That a target that cannot be read is left to its
fetch is DEDUCED (log entry 18). -/
def Obligations.Jumps : Prop :=
  (∀ (s s₁ : State),
    (∀ f : JForm, Does (checkTarget (targetOf s f.off.toInt)) s () s₁ →
      exec (.jmp f) s = .next (s₁.transfer ((targetOf s f.off.toInt).setWidth 56)))
    ∧ (∀ f : JForm, Does (checkTarget (targetOf s f.off.toInt)) s () s₁ → s₁.busyReg 126 = false →
      exec (.call f) s = .next ((s₁.setS 126 (BitVec.ofNat 64 (s.path.pc.toNat + 4 * (bodyLen s.path.header + 1)))).transfer ((targetOf s f.off.toInt).setWidth 56)))
    ∧ (∀ (f : YForm) (x : Word64), Gives (readSA f.a) s x → Does (checkTarget x) s () s₁ →
      exec (.ret f) s = .next (s₁.transfer (x.setWidth 56)))
    ∧ (∀ (i : Instr) (f : BForm) (c : Word64 → Prop) (x : Word64), branchTest i = some (f, c) → Gives (readSA f.a) s x →
      (¬ c x → exec i s = .next (s.retire 1))
      ∧ (c x → Does (checkTarget (targetOf s f.off.toInt)) s () s₁ → exec i s = .next (s₁.transfer ((targetOf s f.off.toInt).setWidth 56))))
    ∧ ∀ f : BForm, maskReadable s f.a →
      (s.path.mask &&& maskOfSA s f.a = 0 → exec (.lany f) s = .next (s.retire 1))
      ∧ (s.path.mask &&& maskOfSA s f.a ≠ 0 → Does (checkTarget (targetOf s f.off.toInt)) s () s₁ →
          exec (.lany f) s = .next (s₁.transfer ((targetOf s f.off.toInt).setWidth 56)))
      ∧ (s.path.mask &&& maskOfSA s f.a ≠ s.path.mask → exec (.lall f) s = .next (s.retire 1))
      ∧ (s.path.mask &&& maskOfSA s f.a = s.path.mask → Does (checkTarget (targetOf s f.off.toInt)) s () s₁ →
          exec (.lall f) s = .next (s₁.transfer ((targetOf s f.off.toInt).setWidth 56))))
  ∧ (∀ (s s₁ : State) (t : Trap),
    let refused := fun (x : Word64) => runAct (checkTarget x) s = (.error (.trap t), s₁)
    (∀ f : JForm, refused (targetOf s f.off.toInt) → exec (.jmp f) s = .next (s₁.takeTrap t) ∧ exec (.call f) s = .next (s₁.takeTrap t))
    ∧ (∀ (f : YForm) (x : Word64), Gives (readSA f.a) s x → refused x → exec (.ret f) s = .next (s₁.takeTrap t))
    ∧ (∀ (i : Instr) (f : BForm) (c : Word64 → Prop) (x : Word64), branchTest i = some (f, c) → Gives (readSA f.a) s x → c x →
      refused (targetOf s f.off.toInt) → exec i s = .next (s₁.takeTrap t))
    ∧ ∀ f : BForm, maskReadable s f.a → refused (targetOf s f.off.toInt) →
      (s.path.mask &&& maskOfSA s f.a ≠ 0 → exec (.lany f) s = .next (s₁.takeTrap t) ∧ exec (.lbr f) s = .next (s₁.takeTrap t))
      ∧ (s.path.mask &&& maskOfSA s f.a = s.path.mask → exec (.lall f) s = .next (s₁.takeTrap t)))
  ∧ ∀ (s : State) (x : Word64),
    (x.toNat % 4 ≠ 0 → Raises (checkTarget x) s (s.pathTrap cILLCL 3 0))
    ∧ (x.toNat % 4 = 0 → 2 ^ 56 ≤ x.toNat →
      Raises (checkTarget x) s { cause := cTFAULT, sub := 4, lmask := s.path.mask, va := x.extractLsb' 0 56, kind := 3, level := 0xF })
    ∧ (x.toNat % 4 = 0 → x.toNat < 2 ^ 56 → ∀ (s₁ : State) (y : Xlat), s.translate s.here s.g.asid { fetch := true } x.toNat = (s₁, .ok y) →
      let w := natOf ((List.range 4).map fun i => s₁.codeByte (y.pas.headD 0 + i))
      (w / 2 ^ 30 % 4 = 3 → Does (checkTarget x) s () s₁)
      ∧ (w / 2 ^ 30 % 4 ≠ 3 → runAct (checkTarget x) s = (.error (.trap (s₁.pathTrap cILLCL 3 0)), s₁)))

/-- R211, R317: LBR with no lane taken goes on; with every lane taken it goes to the target; otherwise the path keeps the lanes not taken,
and the others start at the target in the other live slot, if it is free, and else in a new topmost entry of the divergence stack, written
where R214 puts it. R212, R213, R318, R319: LJOIN parks its path at its own address, joining the entry parked there, and LEXIT ends lanes;
the slot that frees is refilled from the stack. EXIT ends the group. R210, R212: with an empty stack the slot that frees stays free, and the
group goes on with its other path if it has one, or exits, unless its handler's trapped path has lanes left (R261); a sole path that joins
is released at once to slot 0, at the header after its clause, its clock risen by 1 (R226). The model's choices: that a parked entry keeps
its clock until an LJOIN joins it (log entry 19), the order in which a slot that frees is filled and the stack is read and written (log
entry 15), and that a header at 2^56 or above is left to its fetch (log entry 50). -/
def Obligations.Divergence : Prop :=
  (∀ (f : BForm) (s s₁ : State), maskReadable s f.a →
    let t := s.path.mask &&& maskOfSA s f.a
    let n := s.path.mask &&& ~~~ maskOfSA s f.a
    (t = 0 → exec (.lbr f) s = .next (s.retire 1))
    ∧ (t ≠ 0 → n = 0 → Does (checkTarget (targetOf s f.off.toInt)) s () s₁ →
        exec (.lbr f) s = .next (s₁.transfer ((targetOf s f.off.toInt).setWidth 56)))
    ∧ (t ≠ 0 → n ≠ 0 → Does (checkTarget (targetOf s f.off.toInt)) s () s₁ → s.g.path? (!s.slot) = none →
        let new : Path := { pc := (targetOf s f.off.toInt).setWidth 56, off := 0, mask := t, clause := none, wait := none, replay := []
                            clock := if s.g.supv then s.path.clock else s.path.clock + 1 }
        let s₂ : State := { s₁ with g := s₁.g.setPath (!s₁.slot) (some new) }
        exec (.lbr f) s = .next ((s₂.setPath { s₂.path with mask := n }).retire 1))
    ∧ ∀ s₂, t ≠ 0 → n ≠ 0 → Does (checkTarget (targetOf s f.off.toInt)) s () s₁ → (s.g.path? (!s.slot)).isSome = true →
        let clock := if s.g.supv then s.path.clock else s.path.clock + 1
        let new : Entry := { clock := clock, next := 0, kind := 0, mask := t, pc := (targetOf s f.off.toInt).setWidth 56 }
        Does (storeStack (s.stackNow.push new)) s₁ () s₂ →
        exec (.lbr f) s = .next ((s₂.setPath { s₂.path with mask := n }).retire 1)
          ∧ s₂.g.stack = s.g.stack ++ [{ parked := false, clock := clock, mask := t, pc := (targetOf s f.off.toInt).setWidth 56 }])
  ∧ ((∀ (f : YForm) (s s₁ s₂ : State),
    (∀ i st e, s.stackNow.parkedAt s.path.addr = some i → Does (readEntry s.stackNow i) s (st, e) s₁ →
      Does (leaveSlot 0 (st.setEntry i { e with mask := e.mask ||| s.path.mask, clock := maxClock e.clock s.path.clock })) s₁ () s₂ →
      exec (.ljoin f) s = .next s₂)
    ∧ (s.stackNow.parkedAt s.path.addr = none →
      Does (leaveSlot 0 (s.stackNow.push { clock := s.path.clock, next := s.path.nextHeader, kind := 1, mask := s.path.mask, pc := s.path.addr }
        (decide (2 ^ 56 ≤ s.path.nextAt)))) s () s₂ →
      exec (.ljoin f) s = .next s₂))
  ∧ (∀ (f : YForm) (s s₂ : State), maskReadable s f.a →
    let x := s.path.mask &&& maskOfSA s f.a
    let rest := s.path.mask &&& ~~~ maskOfSA s f.a
    (rest ≠ 0 → exec (.lexit f) s =
      .next ((({ s with g := { s.g with exited := s.g.exited ||| x } } : State).setPath { s.path with mask := rest }).unhang.retire 1))
    ∧ (rest = 0 → Does (leaveSlot x s.stackNow) s () s₂ → exec (.lexit f) s = .next s₂.unhang))
  ∧ ∀ (f : YForm) (s : State),
    exec (.exit f) s = .next s.groupGone ∧ s.groupGone.g.slot0 = none ∧ s.groupGone.g.slot1 = none ∧ s.groupGone.g.stack = []
      ∧ s.groupGone.g.exited = 0xFFFFFFFF ∧ s.groupGone.g.supv = false ∧ s.groupGone.granted = false
      ∧ s.groupGone.g.sregs = s.g.sregs ∧ s.groupGone.g.vregs = s.g.vregs ∧ s.groupGone.regs = s.regs)
  ∧ ((∀ (s : State) (x : Word32),
    let s₁ : State := { s with granted := false
                               g := ({ s.g with slot0 := if s.slot then s.g.slot0 else none, slot1 := if s.slot then none else s.g.slot1, stack := []
                                                exited := s.g.exited ||| x, ovr := none
                                                yielded := s.g.yielded || s.path.header.getLsbD 4 } : Group).settleStop }
    Does (leaveSlot x { items := [], dirty := [] }) s () (if s₁.allGone then s₁.groupGone else s₁)
      ∧ s₁.allGone = ((s.g.path? (!s.slot)).isNone && !(s.g.supv && s.g.trapLanes &&& ~~~ (s.g.exited ||| x) != 0)))
  ∧ ∀ (f : YForm) (s s₁ : State), s.g.stack = [] → s.g.path? (!s.slot) = none → s.g.supv = false → s.path.mask &&& ~~~ s.g.exited ≠ 0 →
    let top := decide (2 ^ 56 ≤ s.path.nextAt)
    (top = false → Does (isHeaderAt s.path.nextHeader.toNat) s true s₁) → (top = true → s₁ = s) →
    exec (.ljoin f) s = .next
      { s₁ with granted := false
                g := ({ s₁.g with slot0 := some { pc := s.path.nextHeader, off := 0, mask := s.path.mask &&& ~~~ s.g.exited, clock := s.path.clock + 1
                                                  clause := none, wait := none, replay := [], top := top }
                                  slot1 := none, stack := [], ovr := none, yielded := s₁.g.yielded || s₁.path.header.getLsbD 4 } : Group).settleStop })

/-! ## Clocks, fences, timelines and barriers (spec/04, 08, 09, 10, 12) -/

/-- R324: YIELD ends the group's grant when it retires and has no other effect. R325: DCLK, whose SA and SUB are zero, writes S[SD] with the
group's logical clock at the instruction, before it retires (R226); in supervisor mode that clock is frozen. -/
def Obligations.YieldAndClock : Prop :=
  decode [0x57000000] = .ok (.yield { d := 0, a := 0, sub := 0 }, 1) ∧ decode [0x5E3C0000] = .ok (.dclk { d := 30, a := 0, sub := 0 }, 1)
  ∧ (∀ f : YForm, ((Instr.yield f).check = none ↔ f.d = 0 ∧ f.a = 0 ∧ f.sub = 0) ∧ ((Instr.dclk f).check = none ↔ f.a = 0 ∧ f.sub = 0))
  ∧ ∀ (f : YForm) (s : State),
    (exec (.yield f) s = .next { s.retire 1 with granted := false, g := { (s.retire 1).g with yielded := true } })
    ∧ s.wroteNothing { s.retire 1 with granted := false, g := { (s.retire 1).g with yielded := true } }
    ∧ (s.busyReg f.d = false →
        let t := (s.setS f.d s.path.clock).retire 1
        exec (.dclk f) s = .next t ∧ t.g.sregs.get f.d.toNat = s.path.clock ∧ s.wroteS t f.d
          ∧ (s.path.replay.length ≤ 1 → t.path.clock = (if s.g.supv then s.path.clock else s.path.clock + 1)))

/-- R103, R104, R59: a FENCE with UO drains the group's undrained stores; one with a release part retires once no store of the group
awaits an acknowledgement, and waits at issue until then. R265: PHINT gives the group's hint, which ends its notice of a pre-emption
(R264); while the other path is in the middle of an instruction it waits at issue, since issued instructions retire first. R323, R109:
TLRD writes S[SD] with the timeline of the context that SUB names; TLWT with a number that the timeline has reached drains the UO stores
and retires, in deterministic mode above the issuing clocks of the commands it waited for (R230). That the undrained stores of a group stand
in one buffer is the model's choice (log entry 4), and so is the clock of a TLWT whose number had been reached before (log entry 16). -/
def Obligations.FencesAndTimelines : Prop :=
  ((∀ (f : YForm) (s : State),
    let s₁ := if f.sub.getLsbD 5 then s.drain else s
    ((f.sub.getLsbD 4 = true → s₁.allAcked (.group s₁.g.id) = true) → exec (.fence f) s = .next (s₁.retire 1))
    ∧ (f.sub.getLsbD 4 = true → s₁.allAcked (.group s₁.g.id) = false → exec (.fence f) s = .next s₁.endGrant))
  ∧ ∀ (f : YForm) (l0 l1 l2 : Word32) (s : State),
    let h : Hint := { hold := f.sub.getLsbD 5, vlive := l0, slive := l1.extractLsb' 0 16, splive := l2, acc := f.sub.extractLsb' 0 4
                      slots := f.sub.getLsbD 4 }
    let t := s.retire 4
    let busy := ∃ p, s.g.path? (!s.slot) = some p ∧ p.busy = true
    (s.g.stop = .requested ∨ s.g.stop = .notice → busy → exec (.phint f l0 l1 l2) s = .next s.endGrant)
    ∧ (s.g.stop = .requested ∨ s.g.stop = .notice → ¬ busy →
      exec (.phint f l0 l1 l2) s = .next { t with granted := false, g := { t.g with hint := some h, stop := .stopped } })
    ∧ (s.g.stop = .running ∨ s.g.stop = .stopped →
      exec (.phint f l0 l1 l2) s = .next { t with g := { t.g with hint := if h.hold then some h else none } }))
  ∧ (∀ (f : YForm) (s : State) (c : Ctx), f.sub.toNat < 1024 → ctxNamed s.g.die f.sub = some c →
    (s.busyReg f.d = false →
      let t := (s.setS f.d (ctxGet s.w.timelines c)).retire 1
      exec (.tlrd f) s = .next t ∧ t.g.sregs.get f.d.toNat = ctxGet s.w.timelines c ∧ s.wroteS t f.d)
    ∧ ∀ n, Gives (readSA f.a) s n →
      (n.toNat ≤ (ctxGet s.w.timelines c).toNat →
        exec (.tlwt f) s = .next (s.drain.retireAt 1
          (if s.g.det then maxClock s.path.clock (s.w.issueClock c n) + 1 else s.path.clock + 1)))
      ∧ ((ctxGet s.w.timelines c).toNat < n.toNat →
        exec (.tlwt f) s = .next (s.park { instr := .tlwt f, words := 1, on := .timeline c n, vals := [] })))

/-- R274 Table 10-11: what BARI, an arrival with x expected bytes, a counted sector of n bytes and BARX do to a barrier record; a generation
completes when no arrival and no byte is outstanding. R321: what a barrier instruction meets before any effect: the faults in their order,
or the record. R274, R320: BARI, BARA, BARW and BARX act on the record that they name: the waiters of a generation that ends wake, the
record takes its new contents, and BARA, once the group's stores are performed (R59, R322), writes S[SD] with the generation before its
arrival, BARW with a status at once where its generation is past. The clock of a BARW that is satisfied at once (log entries 16 and 47), and
the VA, the window's offset, and the KIND of the faults of a barrier record (log entry 10), are the model's choices. -/
def Obligations.Barriers : Prop :=
  (∀ (b : BarRec) (n x : Nat) (ring strap : Bool),
    b.init n ring strap = { lrst := true, ring := ring, strap := strap, gen := (b.gen + 1) % 65536, npart := n, arr := n, bytes := 0 }
    ∧ b.reset = { b with lrst := true, gen := (b.gen + 1) % 65536, arr := b.npart, bytes := 0 }
    ∧ (b.arr = 1 → (b.bytes + x) % 2 ^ 32 = 0 →
        b.arrive x = ({ b with lrst := false, gen := (b.gen + 1) % 65536, arr := b.npart, bytes := 0 }, true))
    ∧ (b.arr ≠ 1 ∨ (b.bytes + x) % 2 ^ 32 ≠ 0 → b.arr ≠ 0 →
        b.arrive x = ({ b with arr := b.arr - 1, bytes := (b.bytes + x) % 2 ^ 32 }, false))
    ∧ (b.bytes < 2 ^ 32 → n < 2 ^ 32 → b.arr = 0 → b.bytes = n →
        b.count n = ({ b with lrst := false, gen := (b.gen + 1) % 65536, arr := b.npart, bytes := 0 }, true))
    ∧ (b.bytes < 2 ^ 32 → n < 2 ^ 32 → b.arr ≠ 0 → n ≤ b.bytes → b.count n = ({ b with bytes := b.bytes - n }, false)))
  ∧ (∀ (f : YForm) (bad : Word64 → BarRec → Bool) (s : State) (a : Word64), Gives (readSA f.a) s a →
    let win := f.sub.toNat % 4
    let off := a.toNat % 2 ^ 32
    let v := s.winNum win off 16
    let fault := fun (c u : BitVec 8) => ({ s.pathTrap c u off with kind := 2 } : Trap)
    let fields := barReserved v = true ∨ bad a (BarRec.ofNat v) = true
    let soft := ∃ i, i < 16 ∧ s.winSoft win (off + i) = true
    (off % 16 ≠ 0 → Raises (barRecord f bad) s (fault cALIGN 1))
    ∧ (off % 16 = 0 → s.winLimit win < off + 16 → Raises (barRecord f bad) s (fault cPROT 4))
    ∧ (off % 16 = 0 → off + 16 ≤ s.winLimit win → fields → Raises (barRecord f bad) s (fault cPROT 3))
    ∧ (off % 16 = 0 → off + 16 ≤ s.winLimit win → ¬ fields → ¬ soft → Gives (barRecord f bad) s (win, off, a, BarRec.ofNat v)))
  ∧ (∀ (f : YForm) (s : State) (win off : Nat) (a : Word64) (b : BarRec),
    (Gives (barRecord f fun a _ => bitsOf a.toNat 32 16 == 0) s (win, off, a, b) →
      let s₁ := s.wakeBarrier win (s.home win) off b.gen 2
      let b' := b.init (bitsOf a.toNat 32 16) (f.sub.getLsbD 3) (f.sub.getLsbD 2)
      exec (.bari f) s = .next (((s₁.noteArrival win (s₁.home win) off false true b').putBar win off b').unhang.retire 1))
    ∧ (Gives (barRecord f fun _ b => b.arr == 0) s (win, off, a, b) → s.allAcked (.group s.g.id) = true → s.busyReg f.d = false →
      let r := b.arrive (bitsOf a.toNat 32 32)
      let s₁ := s.setS f.d (BitVec.ofNat 64 b.gen)
      let s₂ := s₁.noteArrival win (s₁.home win) off true false { b with arr := b.arr - 1 }
      let s₃ := if r.2 then s₂.wakeBarrier win (s₁.home win) off b.gen 0 else s₂
      exec (.bara f) s = .next (((s₃.noteArrival win (s₁.home win) off false r.2 r.1).putBar win off r.1).unhang.retire 1))
    ∧ (∀ gen : Word64, Gives (barRecord f fun _ _ => false) s (win, off, a, b) → Gives (readSB f.d) s gen → s.busyReg f.d = false →
      gen.toNat % 65536 ≠ b.gen →
      let st := if (gen.toNat % 65536 + 1) % 65536 = b.gen then (if b.lrst then 2 else 0) else 3
      let clock := if s.g.det = true ∧ (st = 0 ∨ st = 2) then maxClock s.path.clock (s.arrival win (s.home win) off).prev + 1 else s.path.clock + 1
      exec (.barw f) s = .next ((s.setS f.d (BitVec.ofNat 64 st)).unhang.retireAt 1 clock))
    ∧ (∀ gen : Word64, Gives (barRecord f fun _ _ => false) s (win, off, a, b) → Gives (readSB f.d) s gen → gen.toNat % 65536 = b.gen →
      exec (.barw f) s = .next
        (s.park { instr := .barw f, words := 1, on := .barrier win (s.home win) off (BitVec.ofNat 16 b.gen) f.d, vals := [] }))
    ∧ (Gives (barRecord f fun _ _ => false) s (win, off, a, b) →
      let s₁ := s.wakeBarrier win (s.home win) off b.gen 2
      exec (.barx f) s = .next (((s₁.noteArrival win (s₁.home win) off false true b.reset).putBar win off b.reset).unhang.retire 1)))

/-! ## Traps, privilege and system registers (spec/10, 12) -/

/-- R123, R258, R259: taking a trap outside supervisor mode, its frame and replay queue written in the save slot: s127 holds the slot's
address, the path goes to HVEC in supervisor mode on the frame's lanes, the other live slot is held, and the grant ends, which YLD makes a
YIELD (R251, R279). R125, R132, R258: a trap in supervisor mode, or one whose frame cannot be written, posts a record with KIND = HANDLER,
CAUSE, SUB, LEVEL and VA of its fault and the group's own fields, and ends the group, whose node is marked to complete with a fault. A
record that the device writes goes to the ring where it is enabled and has room (R135). The POS and LMASK of that record, and that the trap
a handler was serving waits for delivery again, are the model's choices (log entry 75). R259 Table 10-2: the fields of the frame of a path
lie at their bits. -/
def Obligations.TakeTrap : Prop :=
  (∀ (s s₁ : State) (a : FrameArgs), s.g.supv = false →
    s.vstore s.saveSlot (bytesOf 256 (frameBits a s.path s.slot) ++ (s.path.replay.drop 1).flatMap fun r => bytesOf 64 (replayBits r)) = (s₁, .ok ()) →
    let t := s.enterHandler a
    t.mem = s₁.mem ∧ t.regs = s₁.regs ∧ t.w = s₁.w ∧ t.others = s₁.others
      ∧ t.g.supv = true ∧ t.granted = false ∧ t.slot = s₁.slot
      ∧ t.g.sregs.get 127 = BitVec.ofNat 64 s.saveSlot ∧ (∀ n, n ≠ 127 → t.g.sregs.get n = s₁.g.sregs.get n)
      ∧ t.path = { pc := s₁.regs.hvec.extractLsb' 0 56 &&& ~~~ 3#56, off := 0, mask := a.trap.lmask, clock := s.path.clock, clause := none, wait := none, replay := [], floor := s.path.floor }
      ∧ t.g.yielded = (s₁.g.yielded || (s₁.granted && s.path.header.getLsbD 4))
      ∧ t.g.held = (if (s₁.g.path? (!s₁.slot)).isSome then some (!s₁.slot) else none) ∧ t.g.trapLanes = s.path.mask
      ∧ t.g.vregs = s₁.g.vregs ∧ t.g.mregs = s₁.g.mregs ∧ t.g.bregs = s₁.g.bregs ∧ t.g.fpstat = s₁.g.fpstat ∧ t.g.qflags = s₁.g.qflags)
  ∧ (∀ (s : State) (a : FrameArgs),
    (s.g.supv = true → s.enterHandler a = s.nestedFault a.trap)
    ∧ (∀ s₁ f, s.g.supv = false →
      s.vstore s.saveSlot (bytesOf 256 (frameBits a s.path s.slot) ++ (s.path.replay.drop 1).flatMap fun r => bytesOf 64 (replayBits r)) = (s₁, .error f) →
      s.enterHandler a = s₁.nestedFault { a.trap with cause := f.cause, sub := f.sub, level := f.level, va := BitVec.ofNat 56 s.saveSlot })
    ∧ ∀ t : Trap, (s.nestedFault t).g.exited = 0xFFFFFFFF ∧ (s.nestedFault t).g.slot0 = none ∧ (s.nestedFault t).g.slot1 = none
        ∧ (s.nestedFault t).g.supv = false ∧ (s.nestedFault t).granted = false)
  ∧ (∀ (s : State) (t : Trap),
    let r : Record := { pos := s.path.clock, pc := s.path.addr, lmask := s.path.mask, gidx := s.g.gidx, node := s.g.id.node, core := s.g.core
                        die := s.g.die, eng := 0, kind := 6, asid := s.g.asid, sub := t.sub, cause := t.cause, level := t.level, va := t.va }
    let u : State := { s with g := { s.g with pending := (s.g.serving.toList.filter fun d => d.restart) ++ s.g.pending, serving := none } }
    let b := r.bits.toNat
    s.nestedFault t = (u.devicePost r).endFaulted
    ∧ (bitsOf b 169 4 = 6 ∧ bitsOf b 128 8 = t.cause.toNat ∧ bitsOf b 136 8 = t.sub.toNat ∧ bitsOf b 64 4 = t.level.toNat ∧ bitsOf b 0 56 = t.va.toNat
      ∧ bitsOf b 148 12 = s.g.asid.toNat ∧ bitsOf b 173 4 = 0 ∧ bitsOf b 182 2 = s.g.die.toNat ∧ bitsOf b 184 8 = s.g.core % 2 ^ 8
      ∧ bitsOf b 224 32 = s.g.id.node % 2 ^ 32 ∧ bitsOf b 256 32 = s.g.gidx % 2 ^ 32 ∧ bitsOf b 320 56 = s.path.addr.toNat ∧ bitsOf b 448 64 = 0)
    ∧ (∀ n, s.node? s.g.id.node = some n → ∃ m, (s.nestedFault t).node? s.g.id.node = some m ∧ m.faulted = true)
    ∧ ∀ d, s.g.serving = some d → d.restart = true → d ∈ (s.nestedFault t).g.pending)
  ∧ (∀ (s : State) (r : Record), s.frEn = true →
    let v := s.plainLines [s.frBase]
    v.oldestWaiting = none → v.frRoom = true → s.devicePost r = v.frPublish r.bits)
  ∧ (∀ (a : FrameArgs) (p : Path) (slot : Bool), p.replay.length ≤ 17 → p.off ≤ 32 →
    let v := frameBits a p slot
    bitsOf v 0 8 = a.trap.cause.toNat ∧ bitsOf v 8 8 = a.trap.sub.toNat ∧ bitsOf v 16 5 = p.replay.length - 1
      ∧ bitsOf v 21 1 = a.async.toNat ∧ bitsOf v 22 1 = slot.toNat ∧ bitsOf v 23 1 = a.skip.toNat ∧ bitsOf v 24 4 = a.eng.toNat
      ∧ bitsOf v 32 32 = a.trap.lmask.toNat ∧ bitsOf v 64 56 = a.trap.va.toNat
      ∧ bitsOf v 128 32 = iwAt a.iw 0 ∧ bitsOf v 160 32 = iwAt a.iw 1 ∧ bitsOf v 192 32 = iwAt a.iw 2 ∧ bitsOf v 544 32 = iwAt a.iw 3
      ∧ bitsOf v 256 56 = p.pc.toNat ∧ bitsOf v 312 6 = p.off ∧ bitsOf v 320 64 = p.clock.toNat
      ∧ bitsOf v 384 64 = a.tlnum.toNat ∧ bitsOf v 448 64 = a.elem.toNat ∧ bitsOf v 512 32 = p.mask.toNat ∧ v / 2 ^ 576 = 0)

/-- R326: TRAP retires, resets the hang counter, and takes its trap with SKIP = 1, with S[SA] as the report where SUB[8] = 1. R261: ERET in
supervisor mode reads the frame at s127 and its replay entries and returns by them: supervisor mode and the hold end; the lanes of PMASK
that the trapped path had and that have not exited go on, and none of another path's; the others of the trapped path have exited (R210,
R213); the instruction at PC and OFFSET, the clause header where OFFSET is 0, executes again unless SKIP = 1, and then the replay entries at
their clocks. The handler's clause ends, and its grant (R251, R279). With no lane left the path's slot frees and is filled again (R212). -/
def Obligations.SoftwareTraps : Prop :=
  (∀ (f : YForm) (s s₁ : State) (x : Word64), s.g.supv = false → (f.sub.getLsbD 8 = true → Gives (readSA f.a) s x) →
    let va : BitVec 56 := if f.sub.getLsbD 8 then x.extractLsb' 0 56 else 0
    let a : FrameArgs := { trap := { cause := cTRAP, sub := f.sub.extractLsb' 0 8, lmask := s.path.mask, va := va, kind := 0, level := 0xF }
                           iw := s.path.frameWords, skip := true }
    s.unhang.vstore s.saveSlot (bytesOf 256 (frameBits a s.path s.slot) ++ (s.path.replay.drop 1).flatMap fun r => bytesOf 64 (replayBits r)) = (s₁, .ok ()) →
    let t := s.unhang.enterHandler a
    exec (.trap f) s = .next (t.setPath { t.path with clock := s.path.clock + 1 }))
  ∧ ((∀ (f : YForm) (s s₁ s₂ : State) (va : Word64) (bs rs : List Byte), s.g.supv = true → Gives (readS 127) s va →
    Does (readSave va.toNat 256) s bs s₁ → Does (readSave (va.toNat + 256) (64 * frameField bs 16 5)) s₁ rs s₂ →
    let r := s₂.returnFrom bs ((chunks 64 (frameField bs 16 5) rs).map readReplay)
    (r.2 = false → exec (.eret f) s = .next r.1)
    ∧ ∀ s₃, r.2 = true → Does (leaveSlot 0 r.1.stackNow) r.1 () s₃ → exec (.eret f) s = .next s₃)
  ∧ ∀ (s : State) (bs : List Byte) (rs : List Replay),
    let m := BitVec.ofNat 32 (frameField bs 512 32) &&& s.g.trapLanes &&& ~~~ s.g.exited
    let t := (s.returnFrom bs rs).1
    (m = 0 → (s.returnFrom bs rs).2 = true ∧ t.g.path? t.slot = none ∧ t.g.supv = false ∧ t.g.exited = s.g.exited ||| s.g.trapLanes)
    ∧ (frameField bs 21 1 ≠ 1 → m ≠ 0 →
      (s.returnFrom bs rs).2 = false ∧ t.g.supv = false ∧ t.g.held = none ∧ t.granted = false ∧ t.path.mask = m ∧ t.g.sregs = s.g.sregs
        ∧ t.g.exited = s.g.exited ||| (s.g.trapLanes &&& ~~~ m)
        ∧ t.mem = s.mem ∧ t.path.wait = none
        ∧ t.g.yielded = (s.g.yielded || s.path.header.getLsbD 4)
        ∧ (frameField bs 23 1 ≠ 1 ∨ rs = [] → t.path.clock = s.path.clock)
        ∧ (frameField bs 23 1 ≠ 1 ∨ (frameField bs 312 6 = 0 ∧ rs = []) →
            t.path.pc = BitVec.ofNat 56 (frameField bs 256 56) ∧ t.path.off = frameField bs 312 6)
        ∧ (∀ r rest, frameField bs 23 1 = 1 → rs = r :: rest →
            t.path.pc = r.pc ∧ t.path.off = r.off ∧ t.path.replay = rs ∧ (r.ops.isSome = true → t.path.clock = r.clock))
        ∧ (frameField bs 312 6 = 0 → frameField bs 23 1 ≠ 1 → t.path.replay = rs)
        ∧ (frameField bs 312 6 ≠ 0 → frameField bs 23 1 ≠ 1 → (t.path.replay.drop 1) = rs)
        ∧ (frameField bs 312 6 ≠ 0 → frameField bs 23 1 = 1 → rs = [] → t.path.pc = BitVec.ofNat 56 (frameField bs 256 56) ∧ t.path.replay = []
            ∧ t.path.off = frameField bs 312 6 + wordCount (BitVec.ofNat 32 (frameField bs 128 32)))))

/-- R294, R330: outside supervisor mode a privileged instruction, or a read or write that Table 12-3 marks supervisor, raises PRIV before
any effect. R330, R331: SRD writes S[SD] with the register's value; SWR writes the register under its access codes, one outside the group
once every store of the group is acknowledged. Table 12-3: where SRD takes the value of each register: the group, its core and die, the
package, a half of a buffer record and a mask register, m0 reading as all ones. R11, R209, R200, R181, R210: a write of a group register
changes its writable fields alone: GSTAT and FPSTAT clear the sticky bits written as 1, FPCTL takes a rounding mode up to 5, RSEED all bits,
NANCTL bit 0; a buffer record takes one half, a mask register its low word, and m0 ignores a write. R330, R11: what a write changes of every
other register, HANGCTL (R218), ECCLOG (R205), the registers of a die and those of the package: each writable field takes its new value
where its table allows that, each W1C bit that is written as 1 clears, and every other bit stays; SUBMIT reads as 0, and a write of TLBICTL
without GO changes its fields alone. -/
def Obligations.SystemRegisters : Prop :=
  (∀ (s : State), s.g.supv = false →
    (∀ i, alwaysPrivileged i = true → exec i s = .next (s.takeTrap (s.pathTrap cPRIV 1 0)))
    ∧ (∀ f : YForm, readMarked f.sub.toNat = true → exec (.srd f) s = .next (s.takeTrap (s.pathTrap cPRIV 1 0)))
    ∧ ∀ f : YForm, writeMarked f.sub.toNat = true → exec (.swr f) s = .next (s.takeTrap (s.pathTrap cPRIV 1 0)))
  ∧ (∀ (f : YForm) (s : State) (v : Word64),
    ((readMarked f.sub.toNat = true → s.g.supv = true) → Gives (readSys f.sub.toNat) s v → s.busyReg f.d = false →
      let t := (s.setS f.d v).retire 1
      exec (.srd f) s = .next t ∧ t.g.sregs.get f.d.toNat = v ∧ s.wroteS t f.d)
    ∧ ((writeMarked f.sub.toNat = true → s.g.supv = true) → Gives (readSA f.a) s v →
      (isGroupReg f.sub.toNat = false → s.allAcked (.group s.g.id) = true) →
      exec (.swr f) s = .next ((s.writeSys f.sub.toNat v).retire 1)))
  ∧ (∀ (s : State) (n : Nat),
    Gives (readSys 0) s s.g.gstat ∧ Gives (readSys 1) s s.g.fpctl ∧ Gives (readSys 2) s s.g.fpstat ∧ Gives (readSys 3) s s.g.rseed
      ∧ Gives (readSys 4) s s.g.nanctl ∧ Gives (readSys 5) s s.g.hangctl ∧ Gives (readSys 0x40) s (s.core s.g.die s.g.core).eccLog
      ∧ Gives (readSys 0x111) s s.regs.timer ∧ Gives (readSys 0x101) s s.regs.hvec ∧ Gives (readSys 0x106) s 0
      ∧ (n < 32 → s.isSoft (.breg s.g.id n) = false →
          Gives (readSys (0x200 + 2 * n)) s ((s.g.bregs.get n).extractLsb' 0 64) ∧ Gives (readSys (0x201 + 2 * n)) s ((s.g.bregs.get n).extractLsb' 64 64))
      ∧ (s.isSoft (.mreg s.g.id 0) = false → Gives (readSys 0x240) s 0xFFFFFFFF)
      ∧ (0 < n → n < 16 → s.isSoft (.mreg s.g.id n) = false → Gives (readSys (0x240 + n)) s ((s.g.mregs.get n).zeroExtend 64)))
  ∧ (∀ (s : State) (v : Word64) (n : Nat),
    (s.writeSys 0 v).g.gstat = s.g.gstat &&& ~~~ (v &&& 0xF)
      ∧ (s.writeSys 2 v).g.fpstat = s.g.fpstat &&& ~~~ (v &&& 0xF)
      ∧ (s.writeSys 3 v).g.rseed = v
      ∧ (s.writeSys 4 v).g.nanctl = (s.g.nanctl &&& ~~~ 1) ||| (v &&& 1)
      ∧ (v.extractLsb' 0 3 ≤ 5#3 → (s.writeSys 1 v).g.fpctl = (s.g.fpctl &&& ~~~ 7) ||| (v &&& 7))
      ∧ (5#3 < v.extractLsb' 0 3 → (s.writeSys 1 v).g.fpctl = s.g.fpctl)
      ∧ s.writeSys 0x41 v = s ∧ s.writeSys 0x111 v = s ∧ s.writeSys 0x240 v = s
      ∧ (n < 32 → ((s.writeSys (0x200 + 2 * n) v).g.bregs.get n) = (s.g.bregs.get n).extractLsb' 64 64 ++ v
          ∧ ((s.writeSys (0x201 + 2 * n) v).g.bregs.get n) = v ++ (s.g.bregs.get n).extractLsb' 0 64)
      ∧ (0 < n → n < 16 → (s.writeSys (0x240 + n) v).g.mregs.get n = v.extractLsb' 0 32 ∧ ∀ a, (s.writeSys (0x240 + n) v).byte a = s.byte a))
  ∧ (∀ (s : State) (n : Nat) (v old new : Word64) (fields : List (Nat × Nat × (Nat → Bool))) (w1c : List Nat), accessFields n = some (fields, w1c) →
    (n = 0x80 ∨ n = 0x81 → s.g.die.toNat < 2) → (n = 0x110 → v.getLsbD 7 = false) →
    Gives (readSys n) s old → Gives (readSys n) (s.writeSys n v) new →
    (∀ f ∈ fields, let x := v.toNat / 2 ^ f.1 % 2 ^ f.2.1
      new.toNat / 2 ^ f.1 % 2 ^ f.2.1 = if f.2.2 x = true then x else old.toNat / 2 ^ f.1 % 2 ^ f.2.1)
    ∧ ∀ k, k < 64 → (∀ f ∈ fields, k < f.1 ∨ f.1 + f.2.1 ≤ k) → new.getLsbD k = (old.getLsbD k && !(decide (k ∈ w1c) && v.getLsbD k)))

/-- R113, R327: SMON arms the watch on the line of the element it names, or leaves none for an element out of bounds. R114, R328:
SMWAIT with no watch returns 2, with a watch written since returns 0 and disarms it; otherwise it waits. What parking leaves: the path
with its wait, the instruction's mark (R283), no grant (R251), and a group that was asked to stop and has no other path going stopped
(R264). The ends of waits: TLWT_RESUME
(R109), MONITOR_WAKE, SMWAIT_SPURIOUS_WAKE and SMWAIT_TIMEOUT (R114, R328), BARRIER_RING_TIMEOUT (R277) and DET_EVENT_RELEASE (R229)
act on the path that waits, brought to issue. The VA of RINGTMO, the barrier's offset (log entry 10), the clocks of waits that end (log
entry 16), and that a path whose watch another path has disarmed wakes (log entry 80), are the model's choices. -/
def Obligations.Waits : Prop :=
  ((∀ (f : YForm) (s s₁ : State) (k : Option Nat) (ix : Word64) (b : BitVec 128) (es : List Elem),
    let win := f.sub.toNat / 32 % 4
    let buf := f.sub.toNat % 32
    Gives (checkMark false) s k → Gives (readSA f.a) s ix → Gives (readB buf) s b →
    Does (resolve { win := win, n := 2 ^ (recOf b).esz, kind := 0, priv := win == 0 && buf == 31 } (s.g.recIn buf b) [⟨0, ix.toNat⟩]) s es s₁ →
    (es = [] → exec (.smon f) s = .next (({ s₁ with g := { s₁.g with watch := none } } : State).retire 1))
    ∧ ∀ e rest x xs, es = e :: rest → e.bytes = x :: xs →
      let line := (if win = 0 then x.pas.headD 0 else x.va) / 128 * 128
      let value := (List.range 128).map fun i => if win = 0 then s₁.gbyte (line + i) else s₁.winByte win (line + i)
      exec (.smon f) s = .next (({ s₁ with g := { s₁.g with
        watch := some { win := win, home := s₁.home win, line := line, written := false, value := value } } } : State).retire 1))
  ∧ ∀ (f : YForm) (s : State) (k : Option Nat) (a : Word64), Gives (checkMark false) s k → Gives (readSA f.a) s a → s.busyReg f.d = false →
    let done := fun (st : Nat) => (({ s with g := { s.g with watch := none } } : State).setS f.d (BitVec.ofNat 64 st)).endWait.unhang.retireAt 1 (maxClock s.path.clock 0 + 1)
    (s.g.watch = none → exec (.smwait f) s = .next (done 2))
    ∧ (∀ w, s.g.watch = some w → w.written = true → exec (.smwait f) s = .next (done 0))
    ∧ ∀ w, s.g.watch = some w → w.written = false →
      let deadline := if a = 0xFFFFFFFFFFFFFFFF ∨ 2 ^ 64 ≤ s.regs.timer.toNat + a.toNat then none else some (s.regs.timer + a)
      exec (.smwait f) s = .next (s.park { instr := .smwait f, words := 1, on := .monitor deadline, vals := [], mark := k }))
  ∧ (∀ (s : State) (w : Wait),
    let t := s.park w
    t.path = { s.path with wait := some w } ∧ t.granted = false ∧ t.g.sregs = s.g.sregs ∧ t.g.vregs = s.g.vregs ∧ t.w = s.w ∧ t.mem = s.mem ∧ t.regs = s.regs
      ∧ t.g.qflags = (match w.mark with | none => s.g.qflags | some k => s.g.qflags.set k (s.g.qflags.get k + 1))
      ∧ t.endWait.path = { s.path with wait := none } ∧ t.endWait.g.stop = t.g.stop
      ∧ (s.g.stop ≠ .requested → t.g.stop = s.g.stop) ∧ (s.g.stop = .requested → t.g.idle = true → t.g.stop = .stopped))
  ∧ (∀ (s t : State) (g : GroupId) (slot : Bool) (w : Wait), s.atPath g slot t → t.path.wait = some w → t.g.stop ≠ .stopped →
    (∀ c n, w.on = .timeline c n → n.toNat ≤ (ctxGet t.w.timelines c).toNat →
      exec (.tlwtResume g slot) s = .next (s.withGroup g slot fun x => x.passTimeline c n))
    ∧ (∀ d f, w.on = .monitor d → w.instr = .smwait f →
      exec (.smwaitSpuriousWake g slot) s = .next (s.withGroup g slot fun x => x.endWatch f.d 0 true)
      ∧ ((t.g.watch.map (·.written)) ≠ some false → exec (.monitorWake g slot) s = .next (s.withGroup g slot fun x => x.endWatch f.d 0 true))
      ∧ ∀ n, d = some n → exec (.smwaitTimeout g slot) s =
          .next (State.withGroup { s with regs := { s.regs with timer := maxClock s.regs.timer n } } g slot fun x =>
            x.endWatch f.d (if x.watchWritten then 0 else 1) true))
    ∧ (∀ win home off gen d, w.on = .barrier win home off gen d →
      let b := BarRec.ofNat (t.winNum win off 16)
      b.ring = true → home = t.home win →
      (b.strap = false → exec (.barrierRingTimeout g slot) s = .next (s.withGroup g slot fun x =>
        { x with g := x.g.barDone slot (if gen.toNat = (BarRec.ofNat (x.winNum win off 16)).gen then (x.arrival win home off).now else (x.arrival win home off).prev) d 1 }))
      ∧ (b.strap = true → exec (.barrierRingTimeout g slot) s = .next (s.withGroup g slot fun x =>
        x.endWait.takeTrap { x.pathTrap cPEERLOST 3 off with kind := 2 })))
    ∧ (w.on = .order → t.lowestFor w.instr t.g.id.node t.key (some (t.g.id, t.slot)) = true →
      exec (.detEventRelease g slot) s = .next (s.withGroup g slot fun x => x.setPath { x.path with wait := none })))

/-- R329: SCLEAN translates every line of its range, writes the modified copies to their homes and retires as a fence; with a count of
0 it is the fence alone, and for an element out of bounds it does nothing but set GSTAT.OOB. R137, R138: in supervisor mode an STLB row
drains the undrained stores and, once no store awaits an acknowledgement and no reduction of this package is under way, discards the
entries of its KIND within its scope; the host's write of TLBICTL with GO does so on the whole package once the device is ready, no
operation is under way and none of its earlier writes waits (R450), BUSY standing until the same. That every undrained store drains, and
that the wait is for every store and reduction whichever entry translated it, is the model's choice (log entry 5). -/
def Obligations.CacheOperations : Prop :=
  (∀ (f : YForm) (s s₁ : State) (ix n : Word64) (b : BitVec 128) (pas : List Nat), Gives (readSA f.a) s ix → Gives (readSB f.d) s n →
    Gives (readB (f.sub.toNat % 32)) s b → n.toNat < 2 ^ 32 →
    let r := s.g.recIn (f.sub.toNat % 32) b
    let at' := fun (k : Nat) => r.addr (f.sub.toNat % 32 == 31) 0 ix.toNat k
    let a := at' 0
    (n = 0 → s.allAcked (.group s.g.id) = true → exec (.sclean f) s = .next (s.retire 1))
    ∧ (n ≠ 0 → r.bad = false → r.extent ≤ ix.toNat → r.oobt = false → exec (.sclean f) s = .next ((s.stick 0).retire 1))
    ∧ (n ≠ 0 → r.bad = false → ix.toNat < r.extent → a + n.toNat ≤ 2 ^ 56 → straddles r.esz ((List.range (2 ^ r.esz)).map at') = false →
        Does (cleanXlates ((a + n.toNat - 1) / 128 - a / 128 + 1) (a / 128)) s pas s₁ →
        let s₂ := s₁.cleanLines (f.sub.getLsbD 5) pas
        s₂.allAcked (.group s₂.g.id) = true → exec (.sclean f) s = .next (s₂.retire 1)))
  ∧ ((∀ (i : Instr) (k : Nat) (f : StlbForm) (s : State) (a d : Word64), stlbKind i = some (k, f) → s.g.supv = true →
    Gives (readSA f.a) s a → Gives (readSB f.d) s d →
    (s.drainAll.settled = true → exec i s = .next ((s.drainAll.invalidate f.scope.toNat k (d.extractLsb' 0 12) a.toNat).retire 1))
    ∧ (s.drainAll.settled = false → exec i s = .next s.drainAll.endGrant))
  ∧ (∀ (i : Instr) (k : Nat) (asid : BitVec 12) (s : State), tlbiKind i = some (k, asid) → s.regs.bootstat.getLsbD 8 = true →
    s.regs.tlbictl.getLsbD 8 = false → (∀ h ∈ s.held, h.hostWrites = false) →
    let s₁ := s.drainAll.dropAll k asid (s.regs.tlbiva.extractLsb' 0 56).toNat
    exec i s = .next { s₁ with regs := { s₁.regs with
      tlbictl := BitVec.ofNat 64 (asid.toNat * 2 ^ 32 + (if s₁.settled then 0 else 2 ^ 8) + k) } })
  ∧ (∀ s : State, s.settled = true ↔ s.unacked = [] ∧ ∀ r ∈ s.reductions, ∀ c ∈ r.contributions, c.cmd = none)
  ∧ ∀ (s : State) (kind : Nat) (asid : BitVec 12) (va : Nat),
    let t := s.dropAll kind asid va
    (∀ c ∈ t.cores, ∀ e ∈ c.tlb, tlbDropped kind asid va e = false)
      ∧ (∀ d : BitVec 2, (∀ e ∈ (t.die d).tlb, tlbDropped kind asid va e = false) ∧ ∀ e ∈ (t.die d).walkCache, walkDropped kind asid va e = false)
      ∧ t.mem = s.mem ∧ t.g = s.g ∧ t.regs = s.regs ∧ t.w = s.w)

/-- R127 to R130: MAPPG in supervisor mode queues its page, aligned to 32 KiB, and waits; the first-touch unit serves the head of the
queue, whose group's S[SD] takes the status. R133: FRPOST posts the record of the frame at s127 and writes S[SD] with its ticket, or
all ones; a record that is published stands at FRBASE + 64 + 64 times its ticket modulo the ring's size, with the ticket as SEQ, TAIL is one
more, and the next ticket too. How the record's fields are built from the frame (log entry 65), and what an FRPOST waits for in
deterministic mode beside the lower keys of R229 (log entry 14), is the model's choice. -/
def Obligations.FirstTouchAndRing : Prop :=
  (∀ (f : YForm) (s : State) (k : Option Nat) (va : Word64), s.g.supv = true → Gives (checkMark false) s k → Gives (readSA f.a) s va →
    s.busyReg f.d = false → s.mapQueue.length < 64 →
    let s₁ : State := { s with mapQueue := s.mapQueue ++ [⟨s.g.id, s.slot, va &&& ~~~ 0x7FFF#64⟩] }
    exec (.mappg f) s = .next (s₁.park { instr := .mappg f, words := 1, on := .firstTouch, vals := [va], mark := k }))
  ∧ (∀ (s s₁ t : State) (q : MapReq) (rest : List MapReq) (g : Group) (st : Nat) (f : YForm) (w : Wait), s.mapQueue = q :: rest →
    s.group? q.group = some g → s.mapPage g.asid g.die.toNat q.va.toNat = (s₁, some st) →
    State.atPath { s₁ with mapQueue := rest } q.group q.slot t → t.path.wait = some w → w.instr = .mappg f →
    exec .firstTouchService s = .next (State.withGroup { s₁ with mapQueue := rest } q.group q.slot fun x => (x.endWait.setS f.d (BitVec.ofNat 64 st)).retire 1))
  ∧ (∀ (s : State) (b : BitVec 512),
    let t := s.frTicket
    let rec' := s.frBase + 64 + t.toNat % 2 ^ s.frLogn * 64
    let tail := s.frBase + 8
    let plain := fun (x : Nat) => inCarve x = false ∧ isHole (basePa x) = false
    let u := s.frPublish b
    u.frTicket = t + 1
      ∧ (∀ i, i < 64 → plain (rec' + i) → u.byte (rec' + i) = BitVec.ofNat 8 ((b ||| BitVec.ofNat 512 (t.toNat % 2 ^ 32 * 2 ^ 192)).toNat / 2 ^ (8 * i)))
      ∧ (∀ i, i < 8 → plain (tail + i) → u.byte (tail + i) = BitVec.ofNat 8 ((t + 1).toNat / 2 ^ (8 * i)))
      ∧ ∀ a, inCarve a = false → ¬ (rec' ≤ a ∧ a < rec' + 64) → ¬ (tail ≤ a ∧ a < tail + 8) → u.byte a = s.byte a)
  ∧ ∀ (f : YForm) (s s₁ : State) (k : Option Nat) (reply va : Word64) (bs : List Byte), s.g.supv = true → Gives (checkMark false) s k →
    (s.g.det = true → s.isLowestPost s.g.id.node s.key (some (s.g.id, s.slot)) none = true) → Gives (readSA f.a) s reply → Gives (readS 127) s va →
    s.busyReg f.d = false → Does (readSave va.toNat 256) s bs s₁ →
    let r := s₁.frPost (s₁.frameRecord bs reply)
    r.1.busyReg f.d = false →
    exec (.frpost f) s = .next ((r.1.setS f.d (match r.2 with | some t => BitVec.ofNat 64 (t.toNat % 2 ^ 32) | none => 0xFFFFFFFFFFFFFFFF)).retire 1)

/-! ## Lane instructions (spec/07, 13) -/

/-- R290, R291, R334, R335: what a lane instruction reads, with no register marked by a soft error: each active lane's operands, lowest lane
first, a register pair for a 64-bit operand and S[SS] for a broadcast; a destination outside the allocation raises PROT/WINDOW with its
first register outside as the VA; a replay entry executes for the lanes that were active at its issue (R260). R334, R337, R193, R342, R343,
R351 to R354: a row that computes one result for each active lane writes the results of the lanes, sets the sticky flags that they raise and
changes nothing else; with NANCTL.TRAP = 1 a NaN raises NANTRAP for its lanes before any effect (R202). R341, R343: VCVT, VUNPK, VBFX and
VBFI complete as the rows of one result for each lane do. -/
def Obligations.LaneRows : Prop :=
  (∀ (sh : Shape) (l : Lane) (s : State) (k : Option Nat) (v : Word64), s.soft = [] → Gives (checkMark (l.fs = 1)) s k →
    ((l.bsb = 1 ∨ l.bsc = 1) → Gives (readSB l.ss) s v) →
    let m := if l.mask.toNat = 0 then 0xFFFFFFFF else s.g.mregs.get l.mask.toNat
    let active := s.path.mask &&& (match s.g.ovr with | some c => c.lanes | none => if l.minv = 1 then ~~~ m else m)
    let reg := fun (r : BitVec 11) (wide : Bool) (i : Nat) => (s.g.vreg r.toNat i).toNat + if wide then (s.g.vreg (r.toNat + 1) i).toNat * 2 ^ 32 else 0
    let src := fun (bit : BitVec 1) (r : BitVec 11) (wide : Bool) (i : Nat) => if bit = 1 then (if wide then v.toNat else v.toNat % 2 ^ 32) else reg r wide i
    let span := fun (wide : Bool) => if wide then 2 else 1
    (l.vd.toNat + span sh.wideD ≤ s.g.vcount → (sh.a = true → l.va.toNat + span sh.wideA ≤ s.g.vcount) →
      (sh.b = true → l.bsb ≠ 1 → l.vb.toNat + span sh.wideB ≤ s.g.vcount) → (sh.c = true → l.bsc ≠ 1 → l.vc.toNat + span sh.wideC ≤ s.g.vcount) →
      Gives (laneGather sh l) s ((lanesOf active).map fun i =>
        { lane := i, a := reg l.va sh.wideA i, b := src l.bsb l.vb sh.wideB i, c := src l.bsc l.vc sh.wideC i, old := reg l.vd sh.wideD i }))
    ∧ (s.g.vcount < l.vd.toNat + span sh.wideD → Raises (laneGather sh l) s
        { cause := cPROT, sub := 4, lmask := if active = 0 then s.path.mask else active
          va := BitVec.ofNat 56 (max l.vd.toNat s.g.vcount), kind := 0, level := 0xF }))
  ∧ (∀ (i : Instr) (sh : Shape) (l : Lane) (f : State → LaneIn → Fp Nat) (s : State) (ins : List LaneIn), laneRow i = some (sh, l, f) →
    Gives (laneGather sh l) s ins →
    let res := ins.map fun x => (x.lane, f s x)
    let nans := (res.filter fun r => r.2.fl.nan).map Prod.fst
    let t := (State.setLanes { s with g := s.g.setFlags (res.foldl (fun a r => a.or r.2.fl) {}) } l.vd.toNat sh.wideD (res.map fun r => (r.1, r.2.val))).retire 3
    (s.g.nanctl.getLsbD 0 = false ∨ nans = [] → exec i s = .next t
      ∧ s.wroteV t fun r n => (r = l.vd.toNat ∨ (sh.wideD = true ∧ r = l.vd.toNat + 1)) ∧ n ∈ ins.map (·.lane))
    ∧ (s.g.nanctl.getLsbD 0 = true → nans ≠ [] →
      exec i s = .next (s.takeTrap { cause := cNANTRAP, sub := 1, lmask := maskOf nans, va := BitVec.ofNat 56 (nans.foldl min 31), kind := 0, level := 0xF })))
  ∧ (∀ (l : Lane) (s : State) (ins : List LaneIn),
    (Gives (laneGather { a := true } l) s ins →
      exec (.vbfx l) s = .next ((s.setLanes l.vd.toNat false (ins.map fun x =>
        let pos := l.imm.toNat % 32
        let wid := min (l.imm.toNat / 32 % 32 + 1) (32 - pos)
        let v := x.a / 2 ^ pos % 2 ^ wid
        (x.lane, if l.type = 0 ∧ 2 ^ (wid - 1) ≤ v then v + (2 ^ 32 - 2 ^ wid) else v))).retire 3)
      ∧ ∀ w sg, kindOf l.type.toNat = .int w sg → w = 8 ∨ w = 16 →
        exec (.vunpk l) s = .next ((s.setLanes l.vd.toNat false (ins.map fun x =>
          let v := x.a / 2 ^ (w * (l.imm.toNat % 4)) % 2 ^ w
          (x.lane, if sg = true ∧ 2 ^ (w - 1) ≤ v then v + (2 ^ 32 - 2 ^ w) else v))).retire 3))
    ∧ (Gives (laneGather { a := true, old := true } l) s ins →
      exec (.vbfi l) s = .next ((s.setLanes l.vd.toNat false (ins.map fun x =>
        let pos := l.imm.toNat % 32
        let wid := min (l.imm.toNat / 32 % 32 + 1) (32 - pos)
        (x.lane, x.old - x.old / 2 ^ pos % 2 ^ wid * 2 ^ pos + x.a % 2 ^ wid * 2 ^ pos))).retire 3))
    ∧ (s.g.nanctl.getLsbD 0 = false →
      let src := l.imm.toNat % 16
      let part := l.imm.toNat / 16 % 4
      let ns := elemCount src
      let nd := elemCount l.type.toNat
      let w := (kindOf l.type.toNat).width
      let conv := fun (x : LaneIn) (from' to' : Nat) =>
        convert (kindOf src) (kindOf l.type.toNat) (s.rounder l.rm.toNat 0 (4 * x.lane + to')) (l.sat = 1) (elemAt (kindOf src).width from' x.a)
      let res := ins.map fun x => (x.lane, if nd ≤ ns then combine w ((List.range nd).map fun e => conv x (part * nd + e) e)
        else combine w ((List.range nd).map fun e => if part * ns ≤ e ∧ e < part * ns + ns then conv x (e - part * ns) e else { val := elemAt w e x.old }))
      Gives (laneGather { a := true, wideA := isWide src, wideD := isWide l.type.toNat, old := !decide (nd ≤ ns) } l) s ins →
      exec (.vcvt l) s = .next ((State.setLanes { s with g := s.g.setFlags (res.foldl (fun a r => a.or r.2.fl) {}) } l.vd.toNat (isWide l.type.toNat)
        (res.map fun r => (r.1, r.2.val))).retire 3)))

/-- R174: an integer result wraps modulo 2^w with SAT = 0; with SAT = 1 it is the nearest bound of the type's range, and OVF is set
where the exact result lies outside. R172: element e of a lane value lies at bits [w(e + 1) − 1 : we]. R175, R178, R183: every finite
value of the 8-bit formats, and of the formats of 6 and 4 bits, is on its own format's grid: it rounds to its own bit pattern in every
mode, saturated or not, with no flag. -/
def Obligations.ElementArithmetic : Prop :=
  ((∀ (w : Nat) (sg : Bool) (x : Int), 0 < w →
    let lo : Int := if sg then -2 ^ (w - 1) else 0
    let hi : Int := if sg then 2 ^ (w - 1) - 1 else 2 ^ w - 1
    ((intResult w sg false x).val = (x % 2 ^ w).toNat ∧ (intResult w sg false x).fl = {})
    ∧ intVal w sg (intResult w sg true x).val = max lo (min hi x)
    ∧ (intResult w sg true x).fl = { ovf := decide (x < lo ∨ hi < x) })
  ∧ (∀ (w e : Nat) (xs : List Nat), e < xs.length → elemAt w e (packElems w xs) = (xs.getD e 0) % 2 ^ w)
  ∧ ∀ (w : Nat) (sg sat : Bool) (r : Rounder) (a b c : Nat),
    let A := intVal w sg a
    let B := intVal w sg b
    let C := intVal w sg c
    addOp (.int w sg) r sat a b c = intResult w sg sat (A + B) ∧ subOp (.int w sg) r sat a b c = intResult w sg sat (A - B)
      ∧ mulOp (.int w sg) r sat a b c = intResult w sg sat (A * B) ∧ fmaOp false false (.int w sg) r sat a b c = intResult w sg sat (A * B + C)
      ∧ fmaOp false true (.int w sg) r sat a b c = intResult w sg sat (A * B - C) ∧ fmaOp true false (.int w sg) r sat a b c = intResult w sg sat (C - A * B)
      ∧ negOp (.int w sg) r sat a b c = intResult w sg sat (-A)
      ∧ (minOp false (.int w sg) r sat a b c).val = (if A < B then a else b) ∧ (minOp true (.int w sg) r sat a b c).val = (if A < B then b else a))
  ∧ (∀ (f : Fmt) (mode x : Nat) (sat : Bool), f ∈ [e4m3, e5m2, e3m2, e2m3, e2m1] → mode < 6 → x < 2 ^ f.bits → (∃ neg m e, f.value x = .fin neg m e) →
    (f.round { mode := mode } sat (f.value x)).val = x ∧ (f.round { mode := mode } sat (f.value x)).fl = {})

/-- R345, R276: VSHFL and VBCAST write each active lane with its source lane's register, zero for a lane that has exited. R346, R347:
the votes of the active lanes: VBALLOT writes the mask of those whose value is not zero, VVOTE whether any, all or all equal hold,
VELECT the lowest active lane, or 32; VMSK moves and combines masks; m0 ignores a write. -/
def Obligations.ExchangesAndVotes : Prop :=
  (∀ (l : Lane) (s : State) (active : Word32) (k : Option Nat) (bc : Option Word64), s.soft = [] → Gives (activeOf l) s active →
    Gives (checkMark (l.fs = 1)) s k → Gives (broadcast l) s bc →
    let wide := isWide l.type.toNat
    let span := if wide then 2 else 1
    l.vd.toNat + span ≤ s.g.vcount → l.va.toNat + span ≤ s.g.vcount →
    let from' := fun (src : Nat) => if s.g.exited.getLsbD src then 0 else s.g.lane l.va.toNat src wide
    (exec (.vbcast l) s = .next ((s.setLanes l.vd.toNat wide ((lanesOf active).map fun i => (i, from' (l.imm.toNat % 32)))).retire 3))
    ∧ ((l.imm.toNat % 8 = 0 → l.bsb ≠ 1 → l.vb.toNat < s.g.vcount) →
      let b := fun (i : Nat) => laneVal s.g (bcIf l.bsb bc) l.vb false i
      exec (.vshfl l) s = .next ((s.setLanes l.vd.toNat wide ((lanesOf active).map fun i =>
        (i, from' (shuffleSrc (l.imm.toNat % 8) (l.imm.toNat / 8 % 32) (b i) i)))).retire 3)))
  ∧ (∀ (l : Lane) (s : State) (active : Word32) (vs : List (Nat × Word32)) (k : Option Nat),
    let d := l.vd.extractLsb' 0 7
    let yes := maskOf ((vs.filter fun p => p.2 ≠ 0).map Prod.fst)
    (Gives (voters l) s (active, vs) →
      exec (.vballot l) s = .next ((s.setM l.vd.toNat yes).retire 3)
      ∧ (s.busyReg d = false →
        let v : Bool := match l.imm.toNat % 4 with
          | 0 => vs.any fun p => p.2 != 0
          | 1 => vs.all fun p => p.2 != 0
          | _ => vs.all fun p => p.2 == (vs.map Prod.snd).headD 0
        let t := (s.setS d (cond v 1 0)).retire 3
        exec (.vvote l) s = .next t ∧ s.wroteS t d)
      ∧ (l.imm.toNat % 8 = 0 → ∀ old, Gives (readM l.vd.toNat) s old →
        exec (.vmsk l) s = .next ((s.setM l.vd.toNat ((old &&& ~~~ active) ||| yes)).retire 3)))
    ∧ (Gives (activeOf l) s active → Gives (checkMark (l.fs = 1)) s k → s.busyReg d = false →
      let t := (s.setS d (BitVec.ofNat 64 ((lanesOf active).headD 32))).retire 3
      exec (.velect l) s = .next t ∧ s.wroteS t d)
    ∧ (l.imm.toNat % 8 = 1 → Gives (activeOf l) s active → Gives (checkMark (l.fs = 1)) s k → l.vd.toNat < s.g.vcount → ∀ m, Gives (readM l.va.toNat) s m →
      exec (.vmsk l) s = .next ((s.setLanes l.vd.toNat false ((lanesOf active).map fun i => (i, (m.getLsbD i).toNat))).retire 3))
    ∧ ∀ a b, 2 ≤ l.imm.toNat % 8 → Gives (checkMark (l.fs = 1)) s k → Gives (readM l.va.toNat) s a → Gives (readM l.vb.toNat) s b →
      exec (.vmsk l) s = .next ((s.setM l.vd.toNat (match l.imm.toNat % 8 with | 2 => a &&& b | 3 => a ||| b | 4 => a ^^^ b | _ => a &&& ~~~ b)).retire 3))

/-- R191, R192, R348: VRED writes S[VD] with the tree reduction of the active lanes' elements, the identity where no lane is active;
VSCAN writes each active lane with the inclusive prefix. Both raise the flags of their steps. R352: VTHR's set form writes its
threshold. -/
def Obligations.ReductionsAndScans : Prop :=
  (∀ (l : Lane) (s : State) (active : Word32) (k : Option Nat), Gives (activeOf l) s active → Gives (checkMark (l.fs = 1)) s k →
    s.g.nanctl.getLsbD 0 = false → s.soft = [] →
    let t := l.type.toNat
    let kd := kindOf t
    let wide := isWide t
    let span := if wide then 2 else 1
    l.va.toNat + span ≤ s.g.vcount →
    (s.busyReg (l.vd.extractLsb' 0 7) = false →
      let r := combine kd.width ((List.range (elemCount t)).map fun e => reduceTree s l kd e (laneElems s active l kd e))
      let n := if active = 0 then 1 else (lanesOf active).length
      exec (.vred l) s = .next ((State.setS { s with g := s.g.setFlags ((List.replicate n r.fl).foldl FpFlags.or {}) } (l.vd.extractLsb' 0 7) (reduceResult t r.val)).retire 3))
    ∧ (l.vd.toNat + span ≤ s.g.vcount →
      let res := (lanesOf active).map fun i => (i, combine kd.width ((List.range (elemCount t)).map fun e =>
        markNan kd (((scanSteps s l kd e (laneElems s active l kd e)).getD i none).getD { val := 0 })))
      exec (.vscan l) s = .next ((State.setLanes { s with g := s.g.setFlags (res.foldl (fun a r => a.or r.2.fl) {}) } l.vd.toNat wide (res.map fun r => (r.1, r.2.val))).retire 3)))
  ∧ ∀ (l : Lane) (s : State) (k : Option Nat) (v : Word64), Gives (checkMark (l.fs = 1)) s k → Gives (readSB l.ss) s v →
    exec (.vthrSet l) s = .next (State.retire { s with g := { s.g with hregs := s.g.hregs.set (l.vd.toNat % 8) (v.extractLsb' 0 32) } } 3)

/-- R356, R89: a lane load whose access passes every check writes each active lane with its element, zero for one out of bounds; a lane
store writes each in-bounds lane's registers, the highest lane last. R59, R99: a lane store with a release part waits at issue while a
store of the group awaits an acknowledgement. R283, R284: the store's mark stands until it is performed, and is withdrawn where a member
does not take it. -/
def Obligations.LaneLoadsAndStores : Prop :=
  ∀ (i : Instr) (win : Nat) (l : Lane) (s s₁ : State) (active : Word32) (k : Option Nat) (bc : Option Word64) (r : Rec) (es : List Elem),
    Gives (activeOf l) s active → Gives (checkMark (l.fs = 1)) s k → Gives (broadcast l) s bc → Gives (recordOf l) s r →
    Gives (useSrc active true (l.bsb = 1) l.vb 1) s () →
    let s₂ := s₁.clamped win l.scope.toNat (!es.isEmpty)
    (laneLoadForm i = some (win, l) → Gives (checkV active l.vd.toNat (regsOf r.esz)) s () →
      Does (resolve (laneAccess win 0 (2 ^ r.esz) l true) r (wantsOf s l active bc)) s es s₁ →
      let loads := (lanesOf active).map fun n => (n, match es.find? fun e => e.lane == n with | some e => s₂.elemNum win e | none => 0)
      exec i s = .next ((loads.foldl (fun s p => s.loadRegs l.vd.toNat p.1 r.esz (l.type == 0) p.2) s₂).retire 3))
    ∧ (laneStoreForm i = some (win, l) → Gives (useSrc active true (l.bsc = 1) l.vc (regsOf r.esz)) s () → l.ord.getLsbD 1 = true →
      s.allAcked (.group s.g.id) = false → exec i s = .next s.endGrant)
    ∧ (laneStoreForm i = some (win, l) → Gives (useSrc active true (l.bsc = 1) l.vc (regsOf r.esz)) s () → Gives (releasePart l.ord) s () →
      Does (resolve (laneAccess win 1 (2 ^ r.esz) l true) r (wantsOf s l active bc)) s es s₁ →
      let s₃ := s₂.storeElems win (es.map fun e => (e, storeBytes s₂ l bc r.esz e.lane)) (markOf es k)
      (win = 0 → Gives (storeLost es) s₃ ()) →
      exec i s = .next (s₃.unhang.retire 3))

/-- R88 Table 3-9: one atomic step on a 32-bit or 64-bit word: add modulo 2^w, the bitwise operations, exchange and compare-and-swap.
R87, R88, R358, R360, R361: an atomic whose access passes every check performs the lanes' steps in ascending order and writes the old
values, unless NR is set; VHIST adds its values; VPREF translates the lines of its in-bounds elements. R235: a TWIN node's stream takes
one record for each word, that of a value-returning atomic with its word's rank in ascending address; the order of the records of one that
returns no value is the model's choice (log entry 82). -/
def Obligations.LaneAtomics : Prop :=
  (∀ (type width w x c : Nat),
    (atomicStep 0 type width w x c).val = (w + x) % 2 ^ width ∧ (atomicStep 4 type width w x c).val = w &&& x
      ∧ (atomicStep 5 type width w x c).val = w ||| x ∧ (atomicStep 6 type width w x c).val = w ^^^ x ∧ (atomicStep 7 type width w x c).val = x
      ∧ (atomicStep 8 type width w x c).val = (if w = c then x else w)
      ∧ (type = 0 → w < 2 ^ 32 → x < 2 ^ 32 → (atomicStep 2 0 32 w x c).val = (if signedOf 32 w < signedOf 32 x then w else x)
          ∧ (atomicStep 3 0 32 w x c).val = (if signedOf 32 w < signedOf 32 x then x else w)))
  ∧ (∀ (l : Lane) (s s₁ : State) (active : Word32) (k : Option Nat) (bc : Option Word64) (r : Rec) (es : List Elem),
    Gives (activeOf l) s active → Gives (checkMark (l.fs = 1)) s k → Gives (broadcast l) s bc → Gives (recordOf l) s r →
    Gives (useSrc active true (l.bsb = 1) l.vb 1) s () →
    (∀ (i : Instr) (win : Nat), laneAtomicForm i = some (win, l) → s.g.det = false →
      let op := l.imm.toNat % 16
      let n := atomicBytes l r.esz
      (op = 8 ∨ l.imm.getLsbD 4 = false → Gives (checkV active l.vd.toNat (n / 4)) s ()) → (op = 8 → Gives (checkVSoft active l.vd.toNat (n / 4)) s ()) →
      Gives (useSrc active true (l.bsc = 1) l.vc (n / 4)) s () → (active = 0 ∨ 2 ^ r.esz = n) → Gives (releasePart l.ord) s () →
      Does (resolve (laneAccess win 2 n l ((op == 0 || op == 7 || op == 8) && n != 16)) r (wantsOf s l active bc)) s es s₁ →
      let s₂ := s₁.clamped win l.scope.toNat (!es.isEmpty)
      let lanes := es.map fun e => AtomicLane.mk e
        (match bcIf l.bsc bc with | some v => v.toNat % 2 ^ (8 * n) | none => s.g.regs l.vc.toNat e.lane (n / 4)) (s.g.regs l.vd.toNat e.lane (n / 4))
      let q := s₂.atomicLanes win op l.type.toNat (8 * n) lanes (!l.imm.getLsbD 4) (if l.imm.getLsbD 4 then k else none)
      let s₃ : State := { q.1 with g := q.1.g.setFlags q.2.2 }
      let s₄ := if l.imm.getLsbD 4 then s₃ else (lanesOf active).foldl (fun s n' =>
        let old := ((q.2.1.find? fun o => o.1 == n').map Prod.snd).getD 0
        (List.range (n / 4)).foldl (fun s j => s.setV (l.vd.toNat + j) n' (BitVec.ofNat 32 (old / 2 ^ (32 * j)))) s) s₃
      exec i s = .next (s₄.unhang.retire 3))
    ∧ (Gives (useSrc active true (l.bsc = 1) l.vc 1) s () → (active = 0 ∨ (r.bad = false ∧ r.esz = 2)) → Gives (releasePart l.ord) s () →
      let win := l.imm.toNat % 4
      Does (resolve (laneAccess win 2 4 l true) r ((wantsOf s l active bc).filter fun w => !allOnesIx l w)) s es s₁ →
      let s₂ := s₁.clamped win l.scope.toNat (!es.isEmpty)
      let lanes := es.map fun e => AtomicLane.mk e (laneVal s.g (bcIf l.bsc bc) l.vc false e.lane) 0
      exec (.vhist l) s = .next ((s₂.atomicLanes win 0 1 32 lanes false k).1.unhang.retire 3))
    ∧ ((active = 0 ∨ r.bad = false) →
      let addrs := ((wantsOf s l active bc).filter fun w => decide (w.ix < r.extent)).flatMap fun w => (List.range (2 ^ r.esz)).map fun j => r.addr (l.va == 31) w.lane w.ix j
      exec (.vpref l) s = .next (((linesOf (addrs.filter fun x => decide (x < 2 ^ 56))).foldl State.prefetch s).retire 3)))
  ∧ ∀ (s : State) (returning : Bool) (n : Nat) (ws : List (Nat × List Nat × Nat)) (x : List Nat) (v : Nat), (∀ w ∈ ws, w.2.1 = x) → ws ≠ [] →
    (ws.getLast?.map fun w => w.2.2) = some v →
    s.emitAtomic returning n ws = s.emit (if returning = true then 0 else (ws.headD (0, [], 0)).1) 0 (x.zip (bytesOf n v))

/-! ## Commands, tiles and matrices (spec/09, 14) -/

/-- R363, R386, R411: an instruction that acts once, with no active lane, has no effect but to retire, once the numbers it checks first
are good; the engine, queue, graph and spore forms among them reset the hang counter as they retire (R219). -/
def Obligations.NoActiveLane : Prop :=
  ∀ (i : Instr) (l : Lane) (checks : List (Act Unit)) (s : State) (k : Option Nat), onceForm i = some (l, checks) →
    Gives (laneStart l) s (0, k) → Gives (allOf checks) s () →
    let u := if oncePlain i then s else s.unhang
    exec i s = .next (u.retire 3) ∧ u.wroteNothing (u.retire 3)

/-- R109, R76, R283: a command issues: it takes the next number of its context, its instruction's mark counts, and each tile it moves is
filling or draining; registers and memory are as they were. R59, R109: its accesses follow the earlier stores of its path, so that one with
accesses waits at issue while a store of its group awaits an acknowledgement (the model's choice, log entry 7). R109, R110: a timeline
stands below every unfinished command of its context and passes all finished ones that none of them precedes; with every command finished it
has reached the last number issued. -/
def Obligations.Commands : Prop :=
  (∀ (s : State) (ctx : Ctx) (i : Instr) (active : Word32) (k : Option Nat) (a : CmdArgs),
    let t := s.issued ctx i active k a
    let num := (ctxGet s.w.issued ctx).toNat + 1
    (ctx ≠ .tileOp → s.allAcked (.group s.g.id) = false → Holds (issueCommand ctx i active k a) s)
    ∧ (ctx = .tileOp ∨ s.allAcked (.group s.g.id) = true → Does (issueCommand ctx i active k a) s num t ∧ (∃ c : Command, t.w.cmds = s.w.cmds ++ [c] ∧ c.id = ⟨s.w.id, ctx, num⟩ ∧ c.instr = i ∧ c.ops = a.ops ∧ c.clock = s.path.clock
      ∧ c.active = active ∧ c.mark = k ∧ c.finished = false ∧ c.stopped = false ∧ c.first = 0 ∧ c.done = 0)
    ∧ ctxGet t.w.issued ctx = BitVec.ofNat 64 num ∧ (∀ x, x ≠ ctx → ctxGet t.w.issued x = ctxGet s.w.issued x)
    ∧ t.w.timelines = s.w.timelines ∧ t.g = s.g.mark k ∧ t.mem = s.mem ∧ t.w.scr = s.w.scr
    ∧ (∀ n, (∀ x ∈ a.tiles, x.1 ≠ n) → t.tile n = s.tile n)
    ∧ ∀ n, (∃ x ∈ a.tiles, x.1 = n ∧ ∀ y ∈ a.tiles, y.1 = n → y.2 = x.2) →
        t.tile n = { s.tile n with state := if (n, true) ∈ a.tiles then 1 else 3 }))
  ∧ (∀ (s : State) (w : WgId) (ctx : Ctx) (wg : Workgroup), s.wg? w = some wg →
    ∃ wg', (s.advanceTimeline w ctx).wg? w = some wg'
      ∧ (∀ c, c ∈ wg'.cmds → c ∈ wg.cmds) ∧ (∀ c ∈ wg.cmds, c.id.ctx ≠ ctx ∨ c.finished = false → c ∈ wg'.cmds)
      ∧ (∀ c ∈ wg.cmds, c.id.ctx = ctx → c.finished = false → 0 < c.id.num → (ctxGet wg'.timelines ctx).toNat < c.id.num)
      ∧ ((∀ c ∈ wg.cmds, c.id.ctx = ctx → c.finished = true) → ctxGet wg'.timelines ctx = ctxGet wg.issued ctx)
      ∧ (∀ x, x ≠ ctx → ctxGet wg'.timelines x = ctxGet wg.timelines x)
      ∧ wg'.issued = wg.issued ∧ wg'.tiles = wg.tiles ∧ wg'.scr = wg.scr)

/-- R364, R74, R365: TDEF installs a descriptor with a new generation, ready and with every row alive, or raises PROT/BREC or
PROT/WINDOW and changes nothing; TFREE empties its tile; TSTATE writes S[sD] with a 64-bit part of the entry. That the VA of PROT/WINDOW is
0 is the model's choice (log entry 75). -/
def Obligations.TileDescriptors : Prop :=
  ∀ (l : Lane) (s : State) (active : Word32) (k : Option Nat), Gives (laneStart l) s (active, k) → active ≠ 0 →
    let n := l.vd.toNat
    (∀ lo hi : Word64, n < s.w.ntiles → (s.tile n).state ≠ 1 → (s.tile n).state ≠ 3 → Gives (readS (sregOf l.va)) s lo →
      Gives (readS (sregOf l.vb)) s hi →
      let t := Tile.ofBits (BitVec.ofNat 256 (lo.toNat + hi.toNat * 2 ^ 64))
      let fault := fun (c u : BitVec 8) => ({ cause := c, sub := u, lmask := active, va := 0, kind := 0, level := 0xF } : Trap)
      let good := lo.toNat / 2 ^ 14 = 0 ∧ hi.toNat % 2 ^ 8 = 0 ∧ hi.toNat / 2 ^ 46 = 0 ∧ t.bad = false
      (¬ good → exec (.tdef l) s = .next (s.takeTrap (fault cPROT 3)))
      ∧ (good → s.w.scrSize < t.addr + t.footprint → exec (.tdef l) s = .next (s.takeTrap (fault cPROT 4)))
      ∧ (good → t.addr + t.footprint ≤ s.w.scrSize →
          let u := State.retire { s with w := { s.w with tiles := s.w.tiles.set n (installTile lo.toNat hi.toNat (s.tile n).gen) } } 3
          exec (.tdef l) s = .next u
            ∧ u.tile n = { t with state := 2, gen := ((s.tile n).gen + 1) % 65536, surv := rowsMask t.rows }
            ∧ (∀ m, m ≠ n → u.tile m = s.tile m) ∧ u.w.scr = s.w.scr ∧ u.g.sregs = s.g.sregs ∧ ∀ a, u.byte a = s.byte a))
    ∧ (∀ t, Gives (useTile active l.vd) s t →
        let u := (s.setTile n { t with state := 0, surv := 0 }).retire 3
        exec (.tfree l) s = .next u ∧ u.tile n = { t with state := 0, surv := 0 } ∧ ∀ m, m ≠ n → u.tile m = s.tile m)
    ∧ ∀ t, Gives (useTile active l.va) s t → s.busyReg (sregOf l.vd) = false →
        let v := (s.w.tiles.get l.va.toNat).extractLsb' (64 * (l.imm.toNat % 4)) 64
        let u := (s.setS (sregOf l.vd) v).retire 3
        exec (.tstate l) s = .next u ∧ u.g.sregs.get (sregOf l.vd).toNat = v ∧ s.wroteS u (sregOf l.vd)

/-- R366, R368: TRD writes lane ℓ's registers with the elements of row ROW0 + ℓ from column COL0 on, zero outside the tile; with
reconstruction it takes the inverse transform of its 32 rows, column by column. R367, R369, R372, R373: TWR, HTWR and HREC write rows of
their tile as R367 writes a row, each from the exact values of its columns, once the flags they raise are set; HREC leaves its tile filling
and its domain element-wise. R69, R367: a soft error of an element of a written row that TWR or HTWR leaves comes before any effect. The
positions at which the results round, the lanes that flags are raised for, and what a reconstruction reads beyond a short tile, are the
model's choices (log entries 35, 36 and 67). R75, R367: writing one row changes no scratchpad byte outside its tile's row and scales, no
other tile's entry, and of its own entry the row's survivor bit alone. -/
def Obligations.TileElements : Prop :=
  (∀ (l : Lane) (s s₁ : State) (active : Word32) (k : Option Nat) (t : Tile) (w : Word64), Gives (laneStart l) s (active, k) → active ≠ 0 →
    let n := l.imm.toNat % 64 + 1
    let row := w.toNat % 128
    let col := w.toNat / 65536 % 512
    let recon := t.dom ≠ 0 ∧ l.imm.getLsbD 6 = false
    Gives (checkV active l.vd.toNat n) s () → Gives (useTile active l.va) s t → Gives (readS (sregOf l.vb)) s w → (recon → row % 32 = 0) →
    Gives (checkRows active t ((if t.dom != 0 && !l.imm.getLsbD 6 then (List.range 32).map (row + ·) else (lanesOf active).map (row + ·)).filter (· < t.rows))
      ((colsIn col n t.cols).map (col + ·))) s () →
    let out := s.readRows t ⟨row, col⟩ n (t.dom != 0 && !l.imm.getLsbD 6) (lanesOf active)
    Does (raiseFlags ((lowLane active, { out.2 with nan := false }) :: out.1.map fun r => (r.1, flagsOf r.2))) s () s₁ →
    (∃ u, exec (.trd l) s = .next u
      ∧ (∀ r i, i < 32 → ¬ (l.vd.toNat ≤ r ∧ r < l.vd.toNat + n ∧ active.getLsbD i = true) → u.g.vreg r i = s.g.vreg r i)
      ∧ (∀ i j, i ∈ lanesOf active → j < n → u.g.vreg (l.vd.toNat + j) i =
          BitVec.ofNat 32 ((((out.1.find? fun r => r.1 == i).map Prod.snd).getD []).getD j { val := 0 }).val)
      ∧ u.g.sregs = s.g.sregs ∧ u.w = s.w ∧ ∀ a, u.byte a = s.byte a)
    ∧ (¬ recon → ∀ i j, i ∈ lanesOf active → j < n →
        (((out.1.find? fun r => r.1 == i).map Prod.snd).getD []).getD j { val := 0 } =
          if row + i < t.rows ∧ col + j < t.cols then
            readElem t ((s.rowCodes t (row + i)).getD (col + j) 0) ((s.rowValues t (row + i)).getD (col + j) (zeroVal false))
          else { val := 0 }))
  ∧ (∀ (l : Lane) (s s₁ : State) (active : Word32) (k : Option Nat) (t : Tile) (w : Word64), Gives (laneStart l) s (active, k) → active ≠ 0 →
    let n := l.imm.toNat % 64 + 1
    let row := w.toNat % 128
    let col := w.toNat / 65536 % 512
    let sat := decide (l.sat = 1)
    let written := fun (rows : List (Nat × Fp RowWrite)) => (rows.foldl (fun u r => u.writeRow l.vd.toNat r.2.val) s₁).retire 3
    Gives (useTile active l.vd) s t →
    (Gives (useV active l.va n) s () → Gives (readS (sregOf l.vb)) s w → wholeBlocks t col n = true →
      (let cols := colsIn col n t.cols
       let live := (lanesOf active).filter fun i => decide (row + i < t.rows) && !cols.isEmpty
       let rows := live.map fun i =>
        (i, rowWrite t (row + i) col (s.tileRounder l.rm.toNat (row + i)) sat true (cols.map fun j =>
          if isIntFmt t.fmt then valOfInt (s.g.vreg (l.va.toNat + j) i).toInt else fp32.value (s.g.vreg (l.va.toNat + j) i).toNat))
       Gives (checkKept active t (live.map (row + ·)) (cols.map (col + ·))) s () →
       Does (raiseFlags (rows.map fun r => (r.1, r.2.fl))) s () s₁ → exec (.twr l) s = .next (written rows))
      ∧ (t.dom ≠ 0 → t.fmt ≤ 7 → row % 32 = 0 →
        let cols := if row < t.rows then colsIn col n t.cols else []
        let h := fp32.value (s.g.hregs.get (l.vc.toNat % 8)).toNat
        let outs := cols.map fun j => haarForward t.dom
          ((List.range 32).map fun i => if active.getLsbD i then fp32.value (s.g.vreg (l.va.toNat + j) i).toNat else zeroVal false)
        let rows := (if cols.isEmpty then [] else List.range 32).map fun i =>
          (i, rowWrite t (row + i) col (s.tileRounder l.rm.toNat (row + i)) sat false (outs.map fun o => thresholdVal h (o.1.getD i (zeroVal false))))
        Gives (checkKept active t ((if cols.isEmpty then [] else List.range 32).map (row + ·)) (cols.map (col + ·))) s () →
        Does (raiseFlags ((lowLane active, { outs.foldl (fun (a : FpFlags) o => a.or o.2) {} with nan := false }) :: rows.map fun r => (r.1, r.2.fl))) s () s₁ →
          exec (.htwr l) s = .next (written rows)))
    ∧ (t.dom = 0 → exec (.hrec l) s = .next (s.unhang.retire 3))
    ∧ (t.dom ≠ 0 → Gives (checkRows active t (List.range t.rows) (List.range t.cols)) s () →
      let out := s.reconRows t l.rm.toNat sat
      Does (raiseFlags ((lanesOf active).map fun i => (i, { out.2.or (flagsOf out.1) with nan := (flagsOf out.1).nan }))) s () s₁ →
      let s₂ := out.1.foldl (fun u r => u.writeRow l.vd.toNat r.val) s₁
      let s₃ := s₂.setTile l.vd.toNat { s₂.tile l.vd.toNat with dom := 0 }
      exec (.hrec l) s = .next ((s₃.issued .tileOp (.hrec l) active k { tiles := [(l.vd.toNat, true)] }).unhang.retire 3)))
  ∧ (∀ (s : State) (n : Nat) (r : RowWrite),
    let t := s.tile n
    let u := s.writeRow n r
    (∀ off, (∀ j, j < t.rowBytes → off ≠ t.byteAt r.row j) → (∀ j, j < max t.blocks (r.blocks.foldl (fun m b => max m (b.1 + 1)) 0) → off ≠ t.scaleAt r.row j) →
      u.winByte 1 off = s.winByte 1 off)
    ∧ (∀ m, m ≠ n → u.tile m = s.tile m)
    ∧ (∃ v, u.tile n = { t with surv := v } ∧ ∀ j, j ≠ r.row → v.getLsbD j = t.surv.getLsbD j)
    ∧ u.g.sregs = s.g.sregs ∧ u.g.vregs = s.g.vregs ∧ ∀ a, u.byte a = s.byte a)

/-- R81, R376: MCLAIM takes its run where the group holds all of it, or where it is free and no waiting group could take a run that meets
it, and otherwise waits, in deterministic mode in key order (R230); MCLAIM_GRANT gives a waiting group its run; MREL releases slots that the
group holds, each at once or, with operations pending, when the last retires. -/
def Obligations.SlotClaims : Prop :=
  (∀ (l : Lane) (s : State) (active : Word32) (k : Option Nat), Gives (laneStart l) s (active, k) → active ≠ 0 →
    let first := l.vd.toNat
    let n := l.imm.toNat % 16 + 1
    let run := (List.range n).map (first + ·)
    Gives (checkSlots active run) s () →
    ((∀ i ∈ run, s.w.claim i = .held s.g.id.j) ∨ (s.w.runFree s.g.id.j first n = true ∧ s.claimBefore false first n = false) →
      exec (.mclaim l) s = .next (State.retire { s with w := s.w.takeRun s.g.id.j first n } 3))
    ∧ ((∃ i ∈ run, s.w.claim i ≠ .held s.g.id.j) → (s.w.runFree s.g.id.j first n = false ∨ s.claimBefore false first n = true) →
      exec (.mclaim l) s = .next (s.park { instr := .mclaim l, words := 3, on := .claim first n, vals := [], mark := k }))
    ∧ (Gives (checkHeld active run) s () →
      exec (.mrel l) s = .next ((State.noteClaims { s with w := s.w.releaseRun s.g.id.j first n }).retire 3)))
  ∧ (∀ (s t : State) (g : GroupId) (slot : Bool) (w : Wait) (first n : Nat), s.atPath g slot t → t.path.wait = some w → w.on = .claim first n →
    t.g.stop ≠ .stopped → t.w.runFree t.g.id.j first n = true → t.claimBefore true first n = false →
    Resumes (.mclaimGrant g slot) s g slot (State.retiredWait { t with w := t.w.takeRun t.g.id.j first n } w.words).noteClaims)
  ∧ ∀ (w : Workgroup) (j first n i : Nat), i < w.claims.length →
    ((w.takeRun j first n).claim i = if first ≤ i ∧ i < first + n then .held j else w.claim i)
    ∧ ((w.releaseRun j first n).claim i =
        if first ≤ i ∧ i < first + n ∧ w.claim i = .held j then (if (w.slotOps[i]?).getD 0 = 0 then .free else .deferred) else w.claim i)

/-- R377, R379, R381: MFILL and the multiplications issue as commands that hold their slots, once what the spec requires of their tile,
headers and shapes holds. R374, R378, R380, R189: MMA_RETIRE performs the next chunk of 32 positions of the first matrix command of its
workgroup, each result rounded once from the accumulator's value and the chunk's exact sum, and retires it after its last chunk (R267);
with NANCTL.TRAP a chunk that yields a NaN stops it before the chunk (R203); MATRIX_OPERATION_RETIRE copies a fill's
tile once the earlier multiplications have read its slots, and gives a reconstructed or read-out tile back. A multiplication waits at issue
while a store of its group awaits an acknowledgement (log entry 7). That a chunk is what MMA_RETIRE performs, and when a command gives its
slots back, is the model's choice (log entries 32 and 33). -/
def Obligations.Matrices : Prop :=
  ((∀ (i : Instr) (l : Lane) (slots : List Nat) (s : State) (active : Word32) (k : Option Nat) (w : Word64), matForm i = some (l, slots) →
    Gives (laneStart l) s (active, k) → active ≠ 0 → Gives (checkSlots active slots) s () → Gives (waitAcc l.vd.toNat) s () →
    Gives (waitFills slots) s () → Gives (checkHeld active slots) s () → Gives (readS (sregOf l.vc)) s w →
    let x := matArgs i w
    let ok := (128 < x.n → s.w.pair = true) ∧ ∀ p ∈ x.parts, s.partOk x p = true
    let runs := s.imageRuns x slots
    (ok → Gives (waitFills runs) s () → s.allAcked (.group s.g.id) = false → exec i s = .next s.endGrant)
    ∧ (ok → Gives (waitFills runs) s () → s.allAcked (.group s.g.id) = true →
      exec i s = .next ((State.issued { s with w := s.w.beginOps runs } .mpair i active k { ops := w :: runs.map (BitVec.ofNat 64) }).unhang.retire 3))
    ∧ (¬ ok → exec i s = .next (s.takeTrap { cause := cPROT, sub := 3, lmask := active, va := 0, kind := 0, level := 0xF })))
  ∧ ∀ (l : Lane) (s : State) (active : Word32) (k : Option Nat) (t : Tile) (w : Word64), Gives (laneStart l) s (active, k) → active ≠ 0 →
    let slot := l.vd.toNat
    let new := l.imm.getLsbD 0
    let dest := l.imm.toNat / 2 % 4
    let icol := w.toNat % 4096
    let copies := destCopies dest s.w.pair
    let cols := copies.foldl (fun m f => max m (fillCols ((s.w.copy f).head? slot) new icol t.cols)) 0
    let run := (List.range (imageSlots t.fmt t.rows cols)).map (slot + ·)
    Gives (checkSlot active slot) s () → Gives (useTile active l.va) s t → Gives (waitFills [slot]) s () → Gives (checkHeld active [slot]) s () →
    Gives (readS (sregOf l.vb)) s w → icol % 32 = 0 → (dest ≠ 0 → s.w.pair = true) →
    (new = false → ∀ f ∈ copies, headFits t ((s.w.copy f).head? slot) = true) → cols ≤ 4096 →
    Gives (checkSlots active run) s () → Gives (checkHeld active run) s () → Gives (waitFills run) s () →
    exec (.mfill l) s = .next ((State.issued { s with w := s.w.beginOps run } .tileOp (.mfill l) active k
      { ops := [BitVec.ofNat 64 icol, BitVec.ofNat 64 slot, BitVec.ofNat 64 (imageSlots t.fmt t.rows cols)], tiles := [(l.va.toNat, false)] }).unhang.retire 3))
  ∧ ((∀ (s : State) (id : CmdId) (c : Command), s.runnable id = some c →
    (id.ctx = .mpair → (∀ y ∈ s.earlier c, y.id.ctx = .mpair → y.finished = true) → Acts (.mmaRetire id) s c fun u => u.multiply c)
    ∧ (id.ctx = .tileOp →
      (∀ l, c.instr = .mfill l → (∀ y ∈ s.earlier c, y.finished = false → ∀ n ∈ cmdSlots y, n ∉ cmdSlots c) →
        exec (.matrixOperationRetire id) s = .next ((s.inCommand c fun u => u.fill l c).finish c 0))
      ∧ ∀ l, c.instr = .hrec l ∨ c.instr = .maccrd l → exec (.matrixOperationRetire id) s = .next (s.finish c 0)))
  ∧ ∀ (s : State) (c : Command), s.soft = [] →
    let x := matArgs c.instr (c.ops.getD 0 0)
    let s₀ := if c.phase = 0 then s.modCmd c.id fun y => { y with phase := 1 } else s
    let rs := s.chunkResults x c.pos
    let s₁ := (s₀.writeChunk x rs).cmdFlags c (flagsOf (rs.map Prod.snd))
    let dom := (((s.w.copy false).head? x.a).map (·.dom)).getD 0
    let s₂ := if x.parts.any (fun p => !(s.aliveRows x p).isEmpty) then
      { s₁ with w := s₁.w.setAccHead x.acc { s₁.w.accHead x.acc with dom := dom } } else s₁
    (c.nanTrap = false ∨ (∀ r ∈ rs, r.2.fl.nan = false) →
      (32 * (c.pos + 1) < x.k → s.multiply c = s₁.modCmd c.id fun y => { y with pos := c.pos + 1 })
      ∧ (x.k ≤ 32 * (c.pos + 1) → s.multiply c = State.finish { s₂ with w := s₂.w.endOps (cmdSlots c) } c 0))
    ∧ (c.nanTrap = true → ∀ r, (rs.find? fun r => r.2.fl.nan) = some r →
      s.multiply c = s₀.engineStop c (nanTrapOf c c.pos r.1.1 r.1.2) c.pos))

/-- R382, R383: MACCZ leaves every element of its accumulator +0 in the element-wise domain; MACCWR writes lane registers into its rows
and columns as FP32; MACCRD rounds the accumulator into a tile, which is filling until its operation retires. That MACCRD computes at its
issue, and the lanes that its flags are raised for, are the model's choices (log entries 36 and 67). -/
def Obligations.Accumulators : Prop :=
  ∀ (l : Lane) (s : State) (active : Word32) (k : Option Nat), Gives (laneStart l) s (active, k) → active ≠ 0 →
    (l.vd.toNat < 4 → Gives (waitAcc l.vd.toNat) s () → ∃ u, exec (.maccz l) s = .next u
      ∧ (∀ r c, u.w.accVal l.vd.toNat r c = zeroVal false) ∧ u.w.accHead l.vd.toNat = ⟨0, 0⟩
      ∧ (∀ b, b < 4 → b ≠ l.vd.toNat → u.w.accHead b = s.w.accHead b ∧ ∀ r c, r < 128 → c < 256 → u.w.accVal b r c = s.w.accVal b r c)
      ∧ u.g.sregs = s.g.sregs ∧ u.w.tiles = s.w.tiles ∧ ∀ a, u.byte a = s.byte a)
    ∧ (∀ w : Word64, Gives (useV active l.va (l.imm.toNat % 64 + 1)) s () → Gives (waitAcc l.vd.toNat) s () → Gives (readS (sregOf l.vb)) s w → l.vd.toNat < 4 →
      let row := w.toNat % 128
      let col := w.toNat / 65536 % 512
      let cols := colsIn col (l.imm.toNat % 64 + 1) s.w.accWidth
      ∃ u, exec (.maccwr l) s = .next u
        ∧ (∀ i j, i ∈ lanesOf active → row + i < 128 → j ∈ cols →
            u.w.accVal l.vd.toNat (row + i) (col + j) = fp32.value (s.g.vreg (l.va.toNat + j) i).toNat)
        ∧ (∀ r c, r < 128 → c < 256 → ¬ (∃ i j, i ∈ lanesOf active ∧ j ∈ cols ∧ r = row + i ∧ c = col + j) →
            u.w.accVal l.vd.toNat r c = s.w.accVal l.vd.toNat r c)
        ∧ u.w.tiles = s.w.tiles ∧ u.g.sregs = s.g.sregs ∧ u.g.vregs = s.g.vregs ∧ ∀ a, u.byte a = s.byte a)
    ∧ ∀ (t : Tile) (w : Word64) (s₁ : State), Gives (useTile active l.vd) s t → Gives (waitAcc l.va.toNat) s () → Gives (readS (sregOf l.vb)) s w → s.soft = [] →
      let col := w.toNat / 65536 % 512
      let h := s.w.accHead l.va.toNat
      (h.surv = 0 ∨ t.dom = h.dom) → (isScaled t.fmt = true → col % 32 = 0) →
      let cols := (List.range s.w.accWidth).filter fun j => decide (col + j < t.cols)
      let ws := (if cols.isEmpty then [] else List.range (min t.rows 128)).map fun r =>
        rowWrite t r col (s.tileRounder l.rm.toNat r) (decide (l.sat = 1)) false (cols.map fun j => s.w.accVal l.va.toNat r j)
      Gives (checkKept active t (if cols.isEmpty then [] else List.range (min t.rows 128)) (cols.map (col + ·))) s () →
      Does (raiseFlags ((lanesOf active).map fun i => (i, flagsOf ws))) s () s₁ →
      exec (.maccrd l) s = .next (((ws.foldl (fun u r => u.writeRow l.vd.toNat r.val) s₁).issued .tileOp (.maccrd l) active k
        { tiles := [(l.vd.toNat, true)] }).unhang.retire 3)

/-! ## Key-value pages and attention (spec/06, 15) -/

/-- R147, R152, R389: the fields of a KVPTE, of a sequence record and of a page-list entry lie at their bits, and what is read back of
one that was written is what was written. R404: AMASS adds with saturation, sets, or shifts right. -/
def Obligations.KvRecords : Prop :=
  (∀ (e : Kvpte), e.slot < 2 ^ 56 → e.fmt < 8 → e.ref < 2 ^ 16 → e.ntok < 2 ^ 8 → e.pins < 2 ^ 8 → e.mass < 2 ^ 32 → e.gen < 2 ^ 16 →
    e.sumidx < 2 ^ 16 → e.resv.1 < 2 ^ 4 → e.resv.2 < 2 ^ 96 →
    Kvpte.of e.k e.bits = e ∧ e.bits < 2 ^ 256 ∧ bitsOf e.bits 0 56 = e.slot ∧ bitsOf e.bits 64 16 = e.ref ∧ bitsOf e.bits 88 8 = e.pins
      ∧ bitsOf e.bits 96 32 = e.mass ∧ bitsOf e.bits 128 16 = e.gen)
  ∧ (∀ (r : Seq), r.parent < 2 ^ 16 → r.child < 2 ^ 16 → r.depth < 4 → r.state < 4 → r.len < 2 ^ 32 → r.forklen < 2 ^ 32 → r.map < 2 ^ 56 →
    r.mapcap < 2 ^ 32 → r.lowpg < 2 ^ 32 → r.win < 2 ^ 32 → Seq.of r.num r.bits = r ∧ r.bits < 2 ^ 288)
  ∧ (∀ k v : Nat, v < 2 ^ 256 → (Kvpte.of k v).bits = v)
  ∧ ∀ m x : Nat, m < 2 ^ 32 → x < 2 ^ 32 →
    massOp 0 m x = (if m + x < 2 ^ 32 then m + x else 2 ^ 32 - 1) ∧ massOp 1 m x = x ∧ massOp 2 m x = m / 2 ^ (x % 32) ∧ massOp 0 m x < 2 ^ 32

/-- R387, R391 to R393, R404, R407, R408: KVFORK, KVREL, KVLOOK, AMASS, KVPIN and KVUNPIN, their path's stores performed, perform their
one transaction at issue where nothing holds it back: its results are written as they retire; a fault of it is the instruction's,
before any effect; in the walker's queue the path parks with what it captured, its mark held; outside the queue it waits at issue.
R387, R146: the walker serves a parked transaction instruction in its turn: its results are written, its mark goes and it retires; a
fault is taken by the path, which is no longer parked; where it must still wait, it stays parked. R146, R31: a transaction that faults
or waits, other than for a member of a peer set that it could not reach (R59), changes no register, no path, no workgroup, no node and
no pending old slot: only the translations that it made stay. -/
def Obligations.Transactions : Prop :=
  (∀ (i : Instr) (l : Lane) (txn : Txn) (s : State) (active : Word32) (k : Option Nat) (a b : Word64), txnForm i = some (l, txn) →
    Gives (laneStart l) s (active, k) → active ≠ 0 → Gives (freeDest i) s () → Gives (readS (sregOf l.va)) s a → Gives (readS (sregOf l.vb)) s b →
    s.allAcked (.group s.g.id) = true → Gives (orderGate i 3) s () →
    let q : Ask := { fresh := true, mark := k, active := active, a := a, b := b, rest := [] }
    let r := s.runKv s.kvHere (do txn (← beginOn a.toNat) q)
    (∀ regs ws, r.2 = .ok (regs, ws) → exec i s = .next ((regs.foldl (fun u y => u.setS y.1 y.2) (r.1.emitAll 0 ws)).unhang.retire 3))
    ∧ (∀ on, r.2 = .error (.queued on) → exec i s = .next (r.1.park { instr := i, words := 3, on := .walker, vals := q.vals, mark := k }))
    ∧ (r.2 = .error .outside → exec i s = .next r.1.endGrant)
    ∧ ∀ f va wr, r.2 = .error (.fault f va wr) → exec i s = .next (r.1.takeTrap
        { cause := f.cause, sub := f.sub, lmask := active, va := BitVec.ofNat 56 va, kind := 2, level := f.level }))
  ∧ (∀ (e i : Instr) (l : Lane) (txn : Txn) (s t : State) (g : GroupId) (slot : Bool) (w : Wait), txnForm i = some (l, txn) →
    txnEvent g slot i = some e → s.atPath g slot t → t.askNow = some w → w.instr = i →
    let q := Ask.of w
    let u := t.endWait
    let r := u.runKv u.kvHere (do txn (← beginOn q.a.toNat) q)
    (∀ regs ws, r.2 = .ok (regs, ws) →
      Resumes e s g slot ((regs.foldl (fun v y => v.setS y.1 y.2) (r.1.emitAll 0 ws)).unhang.retire 3))
    ∧ (∀ f va wr, r.2 = .error (.fault f va wr) →
      Resumes e s g slot (r.1.takeTrap { cause := f.cause, sub := f.sub, lmask := q.active, va := BitVec.ofNat 56 va, kind := 2, level := f.level }))
    ∧ (r.2 = .error .outside ∨ (∃ on, r.2 = .error (.queued on)) →
      Resumes e s g slot (r.1.park { instr := i, words := 3, on := .walker, vals := q.vals, mark := q.mark })))
  ∧ (∀ (s : State) (c : KvCtx) (i : Instr) (l : Lane) (txn : Txn) (q : Ask), txnForm i = some (l, txn) →
    let r := s.runKv c (do txn (← beginOn q.a.toNat) q)
    ∀ e, r.2 = .error e → (∀ f va wr, e = .fault f va wr → f.cause ≠ cPEERLOST) →
      r.1.g.sregs = s.g.sregs ∧ r.1.g.vregs = s.g.vregs ∧ r.1.g.slot0 = s.g.slot0 ∧ r.1.g.slot1 = s.g.slot1
        ∧ r.1.w = s.w ∧ r.1.nodes = s.nodes ∧ ∀ d : BitVec 2, (r.1.die d).oldSlots = (s.die d).oldSlots)

/-- R390, R156: KVAPP with rows that fit appends the tokens of its rows one after another, each by a transaction; one that must wait
parks the path with the tokens that are left; parked, it goes on with its next token. That its rows are read and rounded at issue, and that
a path that parks keeps what is left of them, is the model's choice (log entry 54). -/
def Obligations.Append : Prop :=
  (∀ (l : Lane) (s s₁ s₂ : State) (active : Word32) (k : Option Nat) (a w : Word64) (tk tv : Tile) (x : Arena), Gives (laneStart l) s (active, k) →
    active ≠ 0 → Gives (freeDest (.kvapp l)) s () → Gives (readS (sregOf l.va)) s a → Gives (readS (sregOf l.vd)) s w →
    Gives (useTile active l.vb) s tk → Gives (useTile active l.vc) s tv → s.allAcked (.group s.g.id) = true → Gives (orderGate (.kvapp l) 3) s () →
    Does (issueArena active a) s x s₁ →
    let n := w.toNat / 2 ^ 24 % 128 + 1
    let row0 := w.toNat / 2 ^ 16 % 128
    let ks := (List.range n).map (row0 + ·)
    badRows tk x.d row0 n = false → badRows tv x.d row0 n = false → Gives (checkRows active tk ks (List.range tk.cols)) s₁ () →
    Gives (checkRows active tv ks (List.range tv.cols)) s₁ () →
    let ts := ks.map (s₁.tokenOf tk tv)
    let q : Ask := { fresh := true, mark := k, active := active, a := a, b := w, rest := [] }
    (s₁.g.nanctl.getLsbD 0 = true → (∃ t ∈ ts, bitOf t.flags 2 = true) →
      exec (.kvapp l) s = .next (s₁.takeTrap
        { cause := cNANTRAP, sub := 1, lmask := active, va := BitVec.ofNat 56 (lowLane active), kind := 0, level := 0xF }))
    ∧ ((s₁.g.nanctl.getLsbD 0 = true → ∀ t ∈ ts, bitOf t.flags 2 = false) →
      (Does (appendTokens l false q x.d 0 ts) s₁ () s₂ → exec (.kvapp l) s = .next s₂)
      ∧ ∀ wait, runAct (appendTokens l false q x.d 0 ts) s₁ = (.error (.park wait), s₂) → exec (.kvapp l) s = .next (s₂.park wait)))
  ∧ (∀ (l : Lane) (s t u : State) (g : GroupId) (slot : Bool) (w : Wait), s.atPath g slot t → t.askNow = some w →
    w.instr = .kvapp l → Does (resumeAppend l (Ask.of w)) t.endWait () u → Resumes (.kvAppendTransaction g slot) s g slot u)
  ∧ ∀ (l : Lane) (s : State) (q : Ask) (elems done : Nat) (one : Bool) (tok : Token) (rest : List Token),
    let n := q.b.toNat % 65536
    let r := s.runKv s.kvHere (do
      let a ← beginOn q.a.toNat
      let st ← append a n tok.key tok.val
      pure (st, ← seqLen a n))
    let d := sregOf l.vd
    let left := fun (k : Nat) (ts : List Token) => { q with rest := BitVec.ofNat 64 k :: BitVec.ofNat 64 elems :: ts.flatMap Token.pack }
    (∀ st len ws, r.2 = .ok ((st, len), ws) →
      let s₁ := r.1.emitAll done ws
      let s₂ : State := { s₁ with g := s₁.g.setFlags (flagsOfCode tok.flags) }
      (st ≠ 0 → Does (appendTokens l one q elems done (tok :: rest)) s () ((s₁.setS d (appendWord st done len)).unhang.retire 3))
      ∧ (st = 0 → rest = [] → Does (appendTokens l one q elems done (tok :: rest)) s ()
          ((s₂.setS d (appendWord 0 (done + 1) len)).unhang.retire 3))
      ∧ (st = 0 → rest ≠ [] → one = false →
          runAct (appendTokens l one q elems done (tok :: rest)) s = runAct (appendTokens l one q elems (done + 1) rest) s₂)
      ∧ (st = 0 → rest ≠ [] → one = true → runAct (appendTokens l one q elems done (tok :: rest)) s =
          (.error (.park { instr := .kvapp l, words := 3, on := .walker, vals := (left (done + 1) rest).vals, mark := q.mark }), s₂)))
    ∧ ∀ on, r.2 = .error (.queued on) → runAct (appendTokens l one q elems done (tok :: rest)) s =
        (.error (.park { instr := .kvapp l, words := 3, on := .walker, vals := (left done (tok :: rest)).vals, mark := q.mark }), r.1)

/-- R388, R394, R395, R401, R403, R405, R406: ATTN, ASEL, ASUMU, KVSWEEP and KVDEM issue on an A-core as commands of their contexts
with the operands they read, their tiles filling or draining, once no store of their group awaits an acknowledgement (log entry 7); on an
F-core they raise ILLOP/OPCODE. R397, R402, R403, R405, R406: what each event of a key-value engine does to the command that may act, in
the command's phase; the order and the moments of the phases are the model's choice (log entry 48). R388, R124, R146: a transaction that
takes effect moves the command on, one that waits changes nothing of it, one that faults stops it before the element. R150, R397, R402: a
snapshot pins its page, and the command holds the pin; R162: its mass transaction adds the increment, saturating, and drops the pin; R167:
the swap writes the page's new slot, format and GEN and keeps the old slot until the pins are gone, or gives the new slot back; R403: a
summary is written unless NTOK has changed; R402: the candidates are ranked by descending score, equal ones by ascending page and place, NaN
last, and written to OUT in that order. No event of these changes a scalar or vector register, a tile or the scratchpad but for the result
word and ATTN's output. R388, R400, R402, R110: a command's result word is written in its destination and the command completes with
status OK. R199, R396, R398: a page none of whose tokens is unmasked for a
row leaves m, l and O of the row as they are; otherwise m is the largest of the old m and the scores, and as many tokens take part as
have a score above −∞. R396: the unmasked tokens lie within the causal bound and the window. -/
def Obligations.KvEngine : Prop :=
  ((∀ (i : Instr) (l : Lane) (ctx : Ctx) (s : State) (active : Word32) (k : Option Nat) (a b : Word64), arenaForm i = some (l, ctx) →
    s.g.die.toNat < 2 → Gives (laneStart l) s (active, k) → active ≠ 0 → Gives (freeResult i) s () → Gives (readS (sregOf l.va)) s a →
    Gives (readS (sregOf l.vb)) s b → s.allAcked (.group s.g.id) = true →
    exec i s = .next ((s.issued ctx i active k { ops := [a, b] }).unhang.retire 3))
  ∧ (∀ (l : Lane) (s : State) (active : Word32) (k : Option Nat) (ops : List Word64) (t : Tile), s.g.die.toNat < 2 →
    Gives (laneStart l) s (active, k) → active ≠ 0 → Gives (freeResult (.asel l)) s () → Gives (readBlock (sregOf l.vb) 5) s ops →
    Gives (useTile active l.va) s t → t.fmt ≤ 7 → (ops.getD 2 0).toNat / 2 ^ 32 % 128 + ((ops.getD 2 0).toNat / 2 ^ 40 % 128 + 1) ≤ t.rows →
    s.allAcked (.group s.g.id) = true →
    exec (.asel l) s = .next ((s.issued .sel (.asel l) active k { ops := ops, tiles := [(l.va.toNat, false)] }).unhang.retire 3))
  ∧ (∀ (l : Lane) (s : State) (active : Word32) (k : Option Nat) (ops : List Word64) (tO tQ tS : Tile), s.g.die.toNat < 2 →
    Gives (laneStart l) s (active, k) → active ≠ 0 → Gives (freeResult (.attn l)) s () → Gives (readBlock (sregOf l.vc) 6) s ops →
    Gives (useTile active l.vd) s tO → Gives (useTile active l.va) s tQ → Gives (useTile active l.vb) s tS →
    (attnBad l tO tQ tS = false → s.allAcked (.group s.g.id) = true → exec (.attn l) s = .next ((s.issued .attn (.attn l) active k
      { ops := ops, tiles := [(l.vd.toNat, true), (l.vb.toNat, true), (l.va.toNat, false)] }).unhang.retire 3))
    ∧ (attnBad l tO tQ tS = true → exec (.attn l) s = .next (s.takeTrap { cause := cPROT, sub := 3, lmask := active, va := 0, kind := 0, level := 0xF })))
  ∧ ∀ (i : Instr) (l : Lane) (s : State), 2 ≤ s.g.die.toNat →
    i = .attn l ∨ i = .asel l ∨ (∃ c, arenaForm i = some (l, c)) → exec i s = .next (s.takeTrap (s.pathTrap cILLOP 1 0)))
  ∧ (∀ (s : State) (id : CmdId) (c : Command) (l : Lane), s.runnable id = some c →
    (c.instr = .attn l →
      (c.phase = 0 → Acts (.kvSnapshot (.cmd id)) s c fun u => u.attnBegin c (attnArgs c l))
      ∧ (c.phase = 1 → Acts (.kvSnapshot (.cmd id)) s c fun u => u.attnSnapshot c (attnArgs c l))
      ∧ (∀ p, c.phase = 2 → c.pins[c.pos - c.val kMassed]? = some p → Acts (.attnComplete id) s c fun u => u.attnPage c (attnArgs c l) p)
      ∧ (c.phase = 7 ∨ c.phase = 8 → Acts (.kvMassTransaction id) s c fun u => u.attnMass c (attnArgs c l))
      ∧ (c.phase = 3 → Acts (.kvUnpinTransaction (.cmd id)) s c fun u => u.cmdUnpin c 6)
      ∧ (c.phase = 4 → Acts (.attnComplete id) s c fun u =>
          let v := u.attnOutput c (attnArgs c l)
          match v.runnable id with
          | none => v
          | some y => if (releaseDue y 1).isSome then v.modCmd id fun z => { z with phase := 5 } else v.giveResult y y.attnWord)
      ∧ (c.phase = 5 → Acts (.kvWindowRelease id) s c fun u => u.cmdRun c c.pos (do
          let a ← beginOn (attnArgs c l).arena
          match releaseDue c a.t with
          | some q =>
            let _ ← releasePrefix a (c.val kSeq) q
            pure ()
          | none => pure ()) fun v _ => v.modCmd id fun y => { y with phase := 6 })
      ∧ (c.phase = 6 → Acts (.attnComplete id) s c fun u => u.giveResult c c.attnWord))
    ∧ (c.instr = .asel l →
      (c.phase = 0 → Acts (.kvSnapshot (.cmd id)) s c fun u => u.selSnapshot c (u.tile l.va.toNat))
      ∧ (c.phase = 1 → Acts (.aselComplete id) s c fun u => u.selRank c (u.tile l.va.toNat))
      ∧ (c.phase = 2 → Acts (.kvUnpinTransaction (.cmd id)) s c fun u => u.cmdUnpin c 3)
      ∧ (c.phase = 3 ∨ (c.phase = 2 ∧ c.pins = []) → Acts (.aselComplete id) s c fun u =>
          if u.allAcked (.cmd id) then u.giveResult c (c.val 1 % 65536 + c.val 0 % 65536 * 65536) else u))
    ∧ (c.instr = .asumu l →
      (c.phase = 0 → Acts (.kvSnapshot (.cmd id)) s c fun u => u.sumSnapshot c)
      ∧ (∀ p rest, c.pins = p :: rest → Acts (.asumuComplete id) s c fun u => u.cmdRun c 1 (do
          let a ← beginOn (c.op 0)
          sumFinish a p.snap (c.val 0)) fun v st => v.giveResult c st)
      ∧ (c.pins = [] → c.phase = 2 → Acts (.asumuComplete id) s c fun u => u.giveResult c 6))
    ∧ (c.instr = .kvdem l → c.phase = 0 → Acts (.kvSnapshot (.cmd id)) s c fun u => u.demSnapshot c)
    ∧ (c.instr = .kvsweep l →
      (c.phase = 0 → Acts (.kvSweepDecision id) s c fun u =>
        u.cmdRun c c.pos (do
          let a ← beginOn (c.op 0)
          let n := c.op 1 % 65536 + c.pos
          if min (c.op 1 / 65536 % 65536) a.kvmax < n then pure none else some <$> sweepDecision a n) fun v r =>
        match r with
        | none => v.giveResult c c.sweepWord
        | some true => v.modCmd c.id fun x => { x with phase := 2 }
        | some false => v.modCmd c.id fun x => { x with pos := x.pos + 1 })
      ∧ (c.phase = 2 → Acts (.kvSnapshot (.cmd id)) s c fun u => u.demSnapshot c))
    ∧ ∀ p rest, c.id.ctx = .dem → c.pins = p :: rest →
      (c.phase = 3 → Acts (.kvDemotionSwap id) s c fun u => u.demPop c p.snap)
      ∧ (c.phase = 1 → Acts (.kvDemotionSwap id) s c fun u =>
        u.cmdRun c c.pos (do
          let a ← beginOn (c.op 0)
          convertAndSwap a p.snap (c.val 1) (c.val 0) c.nanTrap) fun v r => match r with
        | .error (t, j) => v.engineStop c (nanTrapOf c 0 t j) c.pos
        | .ok (st, fl) => (v.cmdFlags c fl).stepEnds c st))
  ∧ ((∀ (s : State) (c : Command) (d : BitVec 7) (v : Nat), destOf c.instr = some d →
    s.giveResult c v = (s.setS d (BitVec.ofNat 64 v)).finish c 0)
  ∧ (∀ c : Command, c.attnWord = c.val kStatus + (if c.val kStatus = 0 then c.pos else 0) % 65536 * 65536 + c.val kLen % 2 ^ 32 * 2 ^ 32)
  ∧ (∀ (s : State) (c : Command) (sub : Nat) (α : Type) (txn : Kv α) (f : State → α → State), s.eventFree c sub = true → s.allAcked (.cmd c.id) = true →
    let r := s.runKv (s.kvOf c) txn
    (∀ a ws, r.2 = .ok (a, ws) → s.cmdRun c sub txn f = f (r.1.emitCmd c sub ws) a)
    ∧ (∀ on, r.2 = .error (.queued on) → s.cmdRun c sub txn f = r.1)
    ∧ (r.2 = .error .outside → s.cmdRun c sub txn f = r.1)
    ∧ ∀ g va wr, r.2 = .error (.fault g va wr) → s.cmdRun c sub txn f = r.1.engineStop c (cmdTrap g (if wr then 5 else 4) va) sub)
  ∧ (∀ (s : State) (c : Command) (x : AttnArgs) (t : Tile),
    let i := c.val kMassed + c.pins.length
    (∀ e : PageEntry, c.entry? i = some e → s.runnable c.id = some c → s.attnSnapshot c x = s.cmdRun c i (do
        let a ← beginOn x.arena
        if c.namedTooOften i e.k then kvBrec (x.list % 2 ^ 56 + 8 * i)
        snapshot a e.k) fun u r => u.modCmd c.id fun y =>
      match r with
      | none => { y with phase := if y.pins.isEmpty then 6 else 3, vals := y.vals.set kStatus (BitVec.ofNat 32 6) }
      | some m => { y with pins := y.pins ++ [pinOf m (y.val kSeq) e.page i], phase := if i + 1 = x.nl then 2 else 1 })
    ∧ (∀ p rest, c.pins = p :: rest → ¬ (c.phase = 8 ∧ c.val kMassed = c.pos) →
      s.attnMass c x = s.cmdRun c (c.val kMassed) (do
        let a ← beginOn x.arena
        massAndUnpin a p.kvpte (c.val (massKey (c.val kMassed)))) fun u _ => u.modCmd c.id fun y => { y with
          pins := rest, vals := y.vals.set kMassed (BitVec.ofNat 32 (c.val kMassed + 1)), phase := if y.phase = 7 ∧ c.val kMassed + 1 = x.nl then 4 else y.phase })
    ∧ (∀ e : PageEntry, c.entry? c.pos = some e → s.runnable c.id = some c → s.selSnapshot c t = s.cmdRun c c.pos (do
        let a ← beginOn (c.op 0)
        if t.cols ≠ a.d then kvBrec a.va
        match ← snapshot a e.k with
        | none => pure none
        | some x =>
          let sum ← readSum a x.sumidx
          pure (some (x, sum.1 ++ sum.2))) fun u r => u.modCmd c.id fun y =>
      let z := { y with pos := y.pos + 1, phase := if y.pos + 1 = c.op 2 % 4096 + 1 then 1 else 0 }
      match r with
      | none => { z with vals := y.vals.set 0 (y.vals.get 0 + 1) }
      | some (m, sum) => { z with pins := y.pins ++ [pinOf m 0 e.page c.pos], vals := y.vals.setRange (sumKeyOf y.pins.length 0) (sum.map (BitVec.ofNat 32)) })
    ∧ ∀ u ∈ [s.attnBegin c x, s.attnSnapshot c x, s.attnMass c x, s.selSnapshot c t, s.selRank c t, s.sumSnapshot c, s.cmdUnpin c 3],
      u.g.sregs = s.g.sregs ∧ u.g.vregs = s.g.vregs ∧ u.w.tiles = s.w.tiles ∧ u.w.scr = s.w.scr)
  ∧ (∀ (a : Arena) (k : Nat) (c : KvCtx) (r r₁ r₂ : KvRun) (e : Kvpte), KvDoes (readPte a k) c r e r₁ →
    (a.kvmax < k → KvDoes (snapshot a k) c r none r) ∧ (k ≤ a.kvmax → e.free = true → KvDoes (snapshot a k) c r none r₁)
    ∧ (∀ ahead, k ≤ a.kvmax → e.free = false → e.pins ≠ 255 → KvDoes (kvAhead a) c r₁ ahead r₁ → .pin k ∉ ahead →
        KvDoes (writePte a { e with pins := e.pins + 1 }) c r₁ () r₂ → KvDoes (snapshot a k) c r (some { e with pins := e.pins + 1 }) r₂)
    ∧ (∀ inc, 2 ≤ e.pins → KvDoes (writePte a { e with mass := min (e.mass + inc) 0xFFFFFFFF, pins := e.pins - 1 }) c r₁ () r₂ →
        KvDoes (massAndUnpin a k inc) c r () r₂)
    ∧ (∀ inc, e.pins = 1 → KvDoes (settlePage a { e with mass := min (e.mass + inc) 0xFFFFFFFF, pins := 0 }) c r₁ () r₂ →
        KvDoes (massAndUnpin a k inc) c r () r₂)
    ∧ (2 ≤ e.pins → KvDoes (writePte a { e with pins := e.pins - 1 }) c r₁ () r₂ → KvDoes (dropPin a k) c r () r₂)
    ∧ ∀ gen fmt' n, (r.s.die a.home).oldSlots.length < 64 →
        (e.ref = 0 ∨ e.gen ≠ gen → ∀ r₃, KvDoes (pushStack a (classOf fmt') n) c r₁ () r₂ → KvDoes (unpinPage a e) c r₂ () r₃ →
          KvDoes (demotionSwap a k gen fmt' n) c r stRace r₃)
        ∧ (e.ref ≠ 0 → e.gen = gen →
          let d := r₁.s.die a.home
          let old : OldSlot := ⟨a.pa, k, classOf e.fmt, a.slotNum (classOf e.fmt) e.slot⟩
          KvDoes (unpinPage a { e with slot := a.slotVa (classOf fmt') n, fmt := fmt', scl := false, gen := (gen + 1) % 65536 }) c
            { r₁ with s := r₁.s.setDie a.home { d with oldSlots := d.oldSlots ++ [old] } } () r₂ → KvDoes (demotionSwap a k gen fmt' n) c r 0 r₂))
  ∧ (∀ (a : Arena) (k gen fmt' n : Nat) (c : KvCtx) (r : KvRun), 64 ≤ (r.s.die a.home).oldSlots.length →
    (((demotionSwap a k gen fmt' n).run c).run).run r = (.error .outside, r))
  ∧ (∀ (a : Arena) (e cur : Kvpte) (ix : Nat) (v : List Nat × List Nat) (c : KvCtx) (r r₁ r₂ r₃ r₄ : KvRun),
    (e.fmt ≠ 0 → KvDoes (dropPin a e.k) c r () r₁ → KvDoes (sumFinish a e ix) c r 0 r₁)
    ∧ (e.fmt = 0 → KvDoes (sumRows a e.slot none (List.range e.ntok)) c r (some v) r₁ → KvDoes (readPte a e.k) c r₁ cur r₂ →
      (cur.ntok ≠ e.ntok → KvDoes (dropPin a e.k) c r₂ () r₃ → KvDoes (sumFinish a e ix) c r stRace r₃)
      ∧ (cur.ntok = e.ntok → KvDoes (writeSum a ix v) c r₂ () r₃ → KvDoes (dropPin a e.k) c r₃ () r₄ → KvDoes (sumFinish a e ix) c r 0 r₄)))
  ∧ (∀ xs : List Scored,
    (∀ x y : Scored, (x.score.isNan = false → y.score.isNan = false → (x.le y = true ↔ 0 < x.score.cmp y.score ∨ (x.score.cmp y.score = 0
          ∧ (x.pin.page < y.pin.page ∨ (x.pin.page = y.pin.page ∧ x.pin.pos ≤ y.pin.pos)))))
      ∧ (x.score.isNan = false → y.score.isNan = true → x.le y = true ∧ y.le x = false))
    ∧ (sortBy Scored.le xs).Perm xs
    ∧ ∀ i x y, (sortBy Scored.le xs)[i]? = some x → (sortBy Scored.le xs)[i + 1]? = some y → x.le y = true)
  ∧ (∀ (out scores i : Nat) (x : Scored) (rest : List Scored) (c : KvCtx) (r r₁ r₂ r₃ : KvRun),
    KvDoes (writeBytesAs { write := true } (out % 2 ^ 56 + 8 * i) (bytesOf 8 (PageEntry.bits ⟨x.pin.page, x.pin.kvpte⟩))) c r () r₁ →
    KvDoes (if scores % 2 ^ 56 ≠ 0 then
        writeBytesAs { write := true } (scores % 2 ^ 56 + 4 * i) (bytesOf 4 (fp32.round rne false (if x.score.isNan then .nan false else x.score)).val)
      else pure ()) c r₁ () r₂ →
    KvDoes (writeRanked out scores (i + 1) rest) c r₂ () r₃ → KvDoes (writeRanked out scores i (x :: rest)) c r () r₃)
  ∧ (∀ (sigma : Val) (q : List Val) (x : RowState), pageRow sigma q [] x = { row := x, codes := [], fl := {}, nanCol := none })
  ∧ (∀ (sigma : Val) (q : List Val) (toks : List (Nat × List Val × List Val)) (x : RowState), toks ≠ [] →
    let ss := toks.map fun t => (scoreOf sigma q t.2.1).val
    (pageRow sigma q toks x).row.m = minVal x.m (ss.tail.foldl (fun a b => minVal a b true) (ss.headD negInf)) true
      ∧ (pageRow sigma q toks x).row.o.length = x.o.length
      ∧ (pageRow sigma q toks x).codes.length = (ss.filter fun v => v != .inf true).length)
  ∧ ∀ (x : AttnArgs) (win first p : Nat) (ks vs : List (List Val)) (y : Nat × List Val × List Val), y ∈ rowTokens x win first p ks vs →
    (x.causal = true → first + y.1 ≤ p) ∧ (win ≠ 0 → p < first + y.1 + win) ∧ ks[y.1]? = some y.2.1 ∧ vs[y.1]? = some y.2.2)

/-! ## Copies, transforms and reductions (spec/16) -/

/-- R411 to R413, R420, R421, R321, R221: XCOPY, XGATH, XWIN and XPUT issue as commands of the copy context they name once their records,
tiles, shapes and barrier are good and the context has room; a copy by a group that is not the producer raises COPYRIGHTS. R414, R417, R418,
R268, R275: a copy's sectors in their order of 32 bytes: a sector that may act is read, written and marked, and no other is marked; a sector
whose source or destination faults stops the command before it; with every sector complete the command ends. R421, R277, R124: XPUT's
sectors arrive once each and are complete when acknowledged; a missing acknowledgement ends the command with PEERLOST. R321: an XPUT with a
barrier whose offset is no multiple of 16 raises ALIGN/ATOMALIGN. R75, R415: the rows of a source tile that are alive are those alive at
issue. The model's choices: which sectors may act (log entry 73), where a put's barrier lands (log entry 59), what a lost acknowledgement
leaves (log entry 64), the moment at which a counted sector of a PEER page is tested (log entry 83), and that a copy waits at issue for its
group's stores (log entry 7). ENGINE_FAULT tests a command's next sector and stops it before that sector where it faults. -/
def Obligations.Copies : Prop :=
  (∀ (i : Instr) (l : Lane) (kind : CopyKind) (s : State) (active : Word32) (k : Option Nat), copyForm i = some (l, kind) →
    Gives (laneStart l) s (active, k) → active ≠ 0 → (kind = .gath → Gives (useV active l.vc 1) s ()) →
    let st := l.imm.getLsbD 2
    let dt := kind != .put && l.imm.getLsbD 1
    (dt = true → Gives (checkTile active l.vd) s ()) → (st = true → Gives (checkTile active l.va) s ()) →
    (kind ≠ .put → s.g.id.j ≠ s.w.producer →
      exec i s = .next (s.takeTrap { cause := cCOPYRIGHTS, sub := 1, lmask := active, va := 0, kind := 0, level := 0xF }))
    ∧ ∀ (ops : List Word64) (dst src : BitVec 128) (b : BarRec), (kind ≠ .put → s.g.id.j = s.w.producer) →
      Gives (readBlock (sregOf l.vb) (if kind = .win ∨ kind = .put then 4 else 3)) s ops →
      (kind = .put → dst = 0) → (kind ≠ .put → Gives (endRecord active dt l.vd) s dst) → Gives (endRecord active st l.va) s src →
      let lanes := if kind = .gath then (lanesOf active).map fun n => (n, s.g.vreg l.vc.toNat n) else []
      let x := copyArgs kind l ops dst src s.g.privOver lanes
      let rows := (List.range x.rows).map x.row
      (kind = .win → st = false) → (kind ≠ .put → Gives (endTile active x.dst l.vd x.rb (rows.map fun r => r.2.1)) s ()) →
      Gives (endTile active x.src l.va x.rb (rows.map fun r => r.1)) s () →
      (x.bar = true → kind = .put → x.bwin = 3) →
      (x.bar = true → kind = .put → x.boff % 16 ≠ 0 →
        exec i s = .next (s.takeTrap { cause := cALIGN, sub := 1, lmask := active, va := BitVec.ofNat 56 x.boff, kind := 2, level := 0xF }))
      ∧ ((x.bar = true → kind = .put → x.boff % 16 = 0) → (x.bar = true → kind ≠ .put → x.bwin ≠ 0 ∧ Gives (barAt active x.bwin x.boff) s b) →
      s.w.inFlight x.ctx < 16 → s.allAcked (.group s.g.id) = true →
      let gen := if kind = .put then x.target / 2 ^ 48 % 65536 else if x.bar then b.gen else 0
      let drain := if st = true ∧ ¬ (dt = true ∧ l.vd = l.va) then [(l.va.toNat, false)] else []
      exec i s = .next ((s.issued x.ctx i active k
        { ops := ops, lanes := lanes, recs := [dst, src, BitVec.ofNat 128 s.g.privOver] ++ (if st then [(s.tile l.va.toNat).surv] else []), tiles := (if dt then [(l.vd.toNat, true)] else []) ++ drain
          barGen := BitVec.ofNat 16 gen }).unhang.retire 3)))
  ∧ ((∀ (s : State) (id : CmdId) (c : Command) (x : CopyArgs) (n : Nat), s.runnable id = some c → copyOf c = some x →
    (x.kind ≠ .put → Acts (.copySectorComplete id n) s c fun u =>
      if u.sectorFree c x n = false then u
      else if n ∈ c.acked ∧ u.allAcked (.cmd id) = false then u
      else u.copySector c x n)
    ∧ (x.sectors ≤ c.first → Acts (.copyComplete id) s c fun u =>
        if u.allAcked (.cmd id) = true then (if x.ndec && c.status == 0 then u.release x.node else u).finish c c.status.toNat else u))
  ∧ (∀ (s : State) (c : Command) (x : CopyArgs) (n m : Nat), s.sectorFree c x n = true → c.first ≤ m → m < n → c.sectorDone m = false →
      c.sectorOpen x.sectors n = true ∧ ∀ k ∈ x.sectorKeys s.tile true n, k ∉ x.sectorKeys s.tile true m ∧ k ∉ x.sectorKeys s.tile false m)
  ∧ (∀ (s : State) (c : Command) (x : CopyArgs) (n : Nat),
    let row := n / x.perRow
    let k := 32 * (n % x.perRow)
    let len := min 32 (x.rb - k)
    let src := s.sourceBytes c x.src (x.row row).1 (x.row row).2.2 (x.c0 + k) len
    let dst := src.1.destPlace x.dst (x.row row).2.1 (x.row row).2.2 k len
    (∀ f, src.2 = .error f → s.copySector c x n = src.1.engineStopAt c f n)
    ∧ (∀ bs f, src.2 = .ok bs → dst.2 = .error f → s.copySector c x n = dst.1.engineStopAt c f n)
    ∧ ∀ bs d, src.2 = .ok bs → dst.2 = .ok d → x.bar = false →
        let t := dst.1.writeSector c n d bs
        let u := if x.dst.tile then t.setTile x.dst.num { t.tile x.dst.num with surv := (t.tile x.dst.num).surv ||| (1#128 <<< (x.row row).2.1) } else t
        s.copySector c x n = match d.lost with
          | some f => u.engineStopAt c f n
          | none => u.modCmd c.id fun y => ({ y with acked := y.acked.erase n } : Command).markSector n)
  ∧ ∀ (c : Command) (total n m : Nat), c.sectorOpen total n = true →
    ((c.markSector n).sectorDone m = true ↔ c.sectorDone m = true ∨ m = n)
      ∧ c.first ≤ (c.markSector n).first ∧ (c.markSector n).sectorDone (c.markSector n).first = false)
  ∧ (∀ (s : State) (id : CmdId) (c : Command) (x : CopyArgs) (n : Nat), s.runnable id = some c → copyOf c = some x →
    (x.kind = .put →
      (n ∉ c.acked → Acts (.xputSectorArrival (.own id) n) s c fun u =>
        if u.sectorFree c x n = false then u
        else match u.sourceBytes c x.src (x.row (n / x.perRow)).1 (x.row (n / x.perRow)).2.2 (32 * (n % x.perRow)) (min 32 (x.rb - 32 * (n % x.perRow))) with
          | (v, .error f) => v.engineStopAt c f n
          | (v, .ok bs) => if x.target / 2 ^ 36 % 4096 = v.pkg then v.putArrives c x n (n / x.perRow) (32 * (n % x.perRow)) bs
              else v.modCmd id fun y => { y with acked := y.acked ++ [n] })
      ∧ ∀ a : PutAnswer, n ∈ c.acked → c.sectorOpen x.sectors n = true → Acts (.xputSectorAck id ⟨n, a⟩) s c fun u =>
        let far := x.target / 2 ^ 36 % 4096 ≠ u.pkg
        let v := u.modCmd id fun y => { y with acked := y.acked.erase n }
        if far ∧ a.bad = true then v.engineStopAt c ⟨protBrec, true, x.boff⟩ n
        else (if far then v.putAnswered c a else v).modCmd id fun y => y.markSector n)
    ∧ (x.kind = .put → c.first < x.sectors → Acts (.xputAckTimeout id) s c fun u => u.finish c 2)
    ∧ (c.first < x.sectors → Acts (.engineFault id) s c fun u =>
        match u.testSector c x c.first with
        | (v, some f) => v.engineStopAt c f c.first
        | (_, none) => u))
  ∧ (∀ (s : State) (asid : BitVec 12) (die : BitVec 2) (off : Nat) (bs : List Byte) (poisoned : Bool) (bar : Option (Nat × BitVec 16)) (n : Nat),
      exec (.xputSectorArrival (.foreign asid die off bs poisoned bar) n) s
        = .next (s.putLands asid die ((cellsAt off bs).map fun p => (p.1, readByte p.2 poisoned)) bar).1)
  ∧ ∀ (s : State) (asid : BitVec 12) (die : BitVec 2) (cells : List (Nat × BitVec 10)),
      let good := cells.filter fun p => (s.landing asid die p.1).isSome
      let refused : Bool := good.length != cells.length
      s.putLands asid die cells none = (s.landBytes asid die good, { refused := refused })
      ∧ ∀ (boff : Nat) (gen : BitVec 16),
        (s.putBarrier asid die boff = none → s.putLands asid die cells (some (boff, gen)) = (s.landBytes asid die good, { refused := true }))
        ∧ ∀ g o v, s.putBarrier asid die boff = some (g, o, v) →
          (barReserved v = true → s.putLands asid die cells (some (boff, gen)) = (s, { bad := true }))
          ∧ (barReserved v = false → (BarRec.ofNat v).gen ≠ gen.toNat →
            s.putLands asid die cells (some (boff, gen))
              = (if (BarRec.ofNat v).ring then s else s.landBytes asid die good, { refused := refused, stale := true, strap := (BarRec.ofNat v).strap }))

/-- R124, R204: the first pending trap that a group receives (its own, or, where the issuer has exited, as the lowest group that has not) is
taken in its handler lane at an instruction boundary, with ASYNC, ENG, the command's number and element and the words at PC and OFFSET in
the frame; with every group of the workgroup gone the device records the first pending trap, in a deterministic node in its place in key
order (R134, R228), and the command completes with FAULT. The words in its frame, and that waits other than those R124 names end too, are
DEDUCED (log entry 21), LMASK zero of the device's record too (log entry 22); that a trap whose frame cannot be written waits for delivery
again is the model's choice (log entry 75). -/
def Obligations.DeliveredTraps : Prop :=
  (∀ (s : State) (g issuer : GroupId) (d : Delivered) (rest : List (GroupId × Delivered)), s.pendingOf (wgOf g) = (issuer, d) :: rest →
    s.allExited (wgOf g) = true → exec (.deliveredTrap g) s = .next (s.recordFault issuer d))
  ∧ (∀ (s : State) (issuer : GroupId) (d : Delivered) (c : Command) (i : Group), s.cmd? d.cmd = some c → d.restart = true →
    (s.recordFree c = false → s.recordFault issuer d = s)
    ∧ (s.recordFree c = true → (s.dropPending issuer d).cmd? d.cmd = some c → (s.dropPending issuer d).group? issuer = some i →
      s.recordFault issuer d = ((s.dropPending issuer d).devicePost
        { pos := BitVec.ofNat 64 c.id.num, pc := c.pc + BitVec.ofNat 56 (4 * c.off), lmask := 0, gidx := c.gidx, node := c.id.wg.node, core := i.core
          die := i.die, eng := d.eng, kind := d.trap.kind, asid := i.asid, sub := d.trap.sub, cause := d.trap.cause, level := d.trap.level
          va := d.trap.va }).finish c 1))
  ∧ ∀ (s : State) (g issuer : GroupId) (d : Delivered) (rest : List (GroupId × Delivered)), s.pendingFor g = (issuer, d) :: rest →
    ∀ (t : State) (lane : Nat) (slot : Bool), s.allExited (wgOf g) = false → s.atPath g false t → t.g.supv = false →
      t.g.stop ≠ .stopped → handlerLane t.g (if t.g.id == issuer then some d.active else none) = some (lane, slot) →
      endsWait ((t.g.path? slot).getD Path.empty) = true →
      let u : State := t.dropPending issuer d
      let v : State := ({ u with slot := slot, g := { u.g with ovr := none, serving := some d } } : State).endWait.enterHandler
        { trap := { d.trap with lmask := 1#32 <<< lane }, iw := ((t.g.path? slot).getD Path.empty).frameWords, async := true, eng := d.eng
          tlnum := BitVec.ofNat 64 d.cmd.num, elem := d.elem }
      Resumes (.deliveredTrap g) s g false v

/-- R422 to R424: XFORM issues with the function word, the mode, the threshold and its layout addresses as captured, once no store of its
group awaits an acknowledgement (the model's choice, log entry 7), and its completion computes it; Table 16-6: the elementwise results, and
the transposition. R186: a library function takes an MX element as FP32. -/
def Obligations.Transform : Prop :=
  (∀ (l : Lane) (s : State) (active : Word32) (k : Option Nat) (f dstVa srcVa : Word64) (d a b : Option Tile), Gives (laneStart l) s (active, k) →
    active ≠ 0 → s.g.id.j = s.w.producer → Gives (readS (sregOf l.vc)) s f →
    let ld := l.imm.getLsbD 6
    let la := l.imm.getLsbD 5
    let code := l.imm.toNat % 32
    let two := code = 2 ∨ code = 3 ∨ code = 4
    (ld = true → Gives (readS (sregOf l.vd)) s dstVa ∧ d = none) → (ld = false → dstVa = 0 ∧ ∃ t, d = some t ∧ Gives (useTile active l.vd) s t) →
    (la = true → Gives (readS (sregOf l.va)) s srcVa ∧ a = none) → (la = false → srcVa = 0 ∧ ∃ t, a = some t ∧ Gives (useTile active l.va) s t) →
    (two → ∃ t, b = some t ∧ Gives (useTile active l.vb) s t) → (¬ two → b = none) →
    xformMisfit code (l.imm.toNat / 1024 % 8) a b d = false → s.w.inFlight .xform < 16 → s.allAcked (.group s.g.id) = true →
    let drained := ((if la then [] else [l.va.toNat]) ++ (if two then [l.vb.toNat] else [])).dedup.filter fun n => ld || n != l.vd.toNat
    exec (.xform l) s = .next ((s.issued .xform (.xform l) active k
      { ops := [f, BitVec.ofNat 64 (s.g.rounding l.rm.toNat), (s.g.hregs.get (l.imm.toNat / 128 % 8)).setWidth 64, dstVa, srcVa]
        tiles := (if ld then [] else [(l.vd.toNat, true)]) ++ drained.map fun n => (n, false) }).unhang.retire 3))
  ∧ (∀ (s : State) (id : CmdId) (c : Command) (l : Lane), s.runnable id = some c → c.instr = .xform l →
    let x := xformArgs l c.ops
    Acts (.xformComplete id) s c fun u =>
      let b := if binaryCode x.code then some (XEnd.tile x.tileB) else none
      match u.xend c x.la x.src with
      | (v, .error f) => v.xformStop c f
      | (v, .ok a) =>
        match v.xend c x.ld x.dst with
        | (v, .error f) => v.xformStop c f
        | (v, .ok d) =>
          if c.pos < (v.xshape d).rows then v.xformRun c x a b d
          else if v.allAcked (.cmd id) then v.xformEnd c x a b d
          else v)
  ∧ ∀ (x : XformArgs) (ta d : Tile) (as bs : List (List Val)),
    (x.code = 1 → ∀ r c, r < d.rows → c < as.length → (((xformRows x ta d as bs).1.getD r []).map (·.val)).getD c (zeroVal false) = (as.getD c []).getD r (zeroVal false))
    ∧ ∀ a b : Val, (x.code = 0 → (xformElem x ta a b).val = a) ∧ (x.code = 2 → (xformElem x ta a b).val = (sumVals (x.rm == 2) [a, b]).val)
      ∧ (x.code = 3 → (xformElem x ta a b).val = (mulVal a b).val) ∧ (x.code = 5 → (xformElem x ta a b).val = (mulVal x.alpha a).val)
      ∧ (x.code = 6 → (xformElem x ta a b).val = minVal a (zeroVal false) true)
      ∧ (x.code = 9 → (xformElem x ta a b).val = (libExp (if isScaled ta.fmt = true then fp32.value (fp32.arith rne false { val := a }).val else a)).val)

/-- R425, R61: XRED issues with operands that Table 16-8's checks pass; each line of its destination is contributed once, and it ends
when every line has been written, abandoned or refused; an abandoned line's commands end with PEERLOST. Integer sums wrap, and minima
and maxima pick an operand that no other is beyond. R452: before READY a contribution from another package is refused. The model's choices:
that PEERLOST comes before a count that differs, and what contributions of other packages are (log entries 51 and 52); that a command waits
at issue for its group's stores (log entry 7), and which entry of a source tile it reads (log entry 79). -/
def Obligations.SwitchReduction : Prop :=
  (∀ (l : Lane) (s : State) (active : Word32) (k : Option Nat) (ops : List Word64) (dst src : BitVec 128), Gives (laneStart l) s (active, k) →
    active ≠ 0 → Gives (readBlock (sregOf l.vb) 3) s ops → Gives (endRecord active false l.vd) s dst → Gives (endRecord active (l.imm.getLsbD 2) l.va) s src →
    let recs := [dst, src, BitVec.ofNat 128 s.g.privOver]
    let x := xredArgs l ops recs
    xredBad x.1 x.2 = false → Gives (endTile active x.1.src l.va x.1.rb ((List.range x.1.rows).map fun n => (x.1.row n).1)) s () →
    s.allAcked (.group s.g.id) = true →
    exec (.xred l) s = .next ((s.issued .xred (.xred l) active k { ops := ops, recs := recs }).unhang.retire 3))
  ∧ (∀ (s : State) (id : CmdId) (c : Command) (l : Lane) (line : Nat), s.runnable id = some c → c.instr = .xred l →
    let x := (xredArgs l c.ops c.recs).1
    let u := fun (v : State) => if x.redOob.isSome then v.stick 0 else v
    (∀ n, x.redOob = some n → x.dst.r.oobt = true → Acts (.xredContribution (.own id) line) s c fun v => v.engineStop c (cmdTrap oobFlt 5 0) (n * (x.rb / 4)))
    ∧ (x.redOob = none ∨ x.dst.r.oobt = false →
      (line ∈ x.redLines → c.vals.get line = 0 → Acts (.xredContribution (.own id) line) s c fun v =>
        (u v).contribute c (l.imm.toNat % 4) l.type.toNat x (xredArgs l c.ops c.recs).2 line)
      ∧ ((∀ n ∈ x.redLines, c.vals.get n = lineWritten ∨ c.vals.get n = lineLost ∨ c.vals.get n = lineRefused) → Acts (.xredComplete id) s c fun v =>
        (u v).finish c (if (∃ n ∈ x.redLines, c.vals.get n = lineLost) then 2 else if (∃ n ∈ x.redLines, c.vals.get n = lineRefused) then 4 else 0))))
  ∧ (∀ (s : State) (r : Reduction) (line : Nat), (s.reductions.find? fun q => q.line == line) = some r →
    exec (.xredTimeout line) s = .next (State.endInvalidate (r.contributions.foldl (fun (u : State) (c : Contribution) => match c.cmd with | some id => u.setLine id c.line lineLost | none => u)
      { s with reductions := s.reductions.filter fun q => q.line != line })))
  ∧ (∀ (s : State) (pkg num ncont op type line : Nat) (members : List Nat) (words : List (Nat × Word32)) (poison : List Nat),
    exec (.xredContribution (.foreign pkg num members ncont op type words poison) line) s
      = .next (if s.regs.bootstat.getLsbD 8 = true then
          s.redArrives members ncont { cmd := none, line := line, op := op, type := type, words := words, poison := poison } else s))
  ∧ (∀ (s : State) (members : List Nat) (n : Nat) (c : Contribution),
    let line := members.headD 0
    ((s.reductions.find? fun r => r.line == line) = none → 1 < n →
      (s.redArrives members n c).reductions = s.reductions ++ [{ line := line, members := members, count := n, contributions := [c] }])
    ∧ ∀ r, (s.reductions.find? fun r => r.line == line) = some r →
      (r.count ≠ n → s.redArrives members n c = match c.cmd with | some id => s.setLine id c.line lineRefused | none => s)
      ∧ (r.count = n → r.contributions.length + 1 = n →
        s.redArrives members n c = (match c.cmd with | some id => s.setLine id c.line lineSent | none => s).endReduction
          { r with contributions := r.contributions ++ [c] }))
  ∧ ∀ (p : Nat) (xs : List Nat), p < 2 ^ 32 → (∀ x ∈ xs, x < 2 ^ 32) →
    reduceWord 0 0 p xs = (p + xs.sum) % 2 ^ 32
    ∧ (reduceWord 1 0 p xs ∈ p :: xs ∧ ∀ y ∈ p :: xs, signedOf 32 (reduceWord 1 0 p xs) ≤ signedOf 32 y)
    ∧ (reduceWord 2 0 p xs ∈ p :: xs ∧ ∀ y ∈ p :: xs, signedOf 32 y ≤ signedOf 32 (reduceWord 2 0 p xs))

/-- R426: XSTAT writes S[sD] with the last number issued in a context, its error word, its landing place or a channel's state; with
`.clr` the error word becomes zero. -/
def Obligations.EngineStatus : Prop :=
  ∀ (l : Lane) (s : State) (active : Word32) (k : Option Nat) (b : Word64), Gives (laneStart l) s (active, k) → active ≠ 0 →
    Gives (readS (sregOf l.vb)) s b → s.busyReg (sregOf l.vd) = false →
    let d := sregOf l.vd
    let mode := l.imm.toNat % 8
    let out := fun (u : State) (v : Word64) => (u.setS d v).unhang.retire 3
    (mode = 3 → exec (.xstat l) s = .next (out s s.landWord) ∧ (out s s.landWord).g.sregs.get d.toNat = s.landWord)
    ∧ ∀ c, ctxNamed s.g.die (b.extractLsb' 0 10) = some c →
      (mode = 0 → exec (.xstat l) s = .next (out s (ctxGet s.w.issued c)) ∧ (out s (ctxGet s.w.issued c)).g.sregs.get d.toNat = ctxGet s.w.issued c)
      ∧ (mode = 1 → exec (.xstat l) s = .next (out s (ctxGet s.w.errors c)) ∧ (out s (ctxGet s.w.errors c)).g.sregs.get d.toNat = ctxGet s.w.errors c)
      ∧ (mode = 2 → ∃ u, exec (.xstat l) s = .next u ∧ u.g.sregs.get d.toNat = ctxGet s.w.errors c ∧ ctxGet u.w.errors c = 0
          ∧ (∀ x, x ≠ c → ctxGet u.w.errors x = ctxGet s.w.errors x) ∧ (∀ n, n ≠ d.toNat → u.g.sregs.get n = s.g.sregs.get n) ∧ ∀ a, u.byte a = s.byte a)
      ∧ ∀ chan, mode = 4 → c = .spore chan → exec (.xstat l) s = .next (out s (s.sporeWord chan.toNat))

/-! ## Queues, nodes and spores (spec/09, 16) -/

/-- R427 to R430: QINIT writes a checked control word; QPUSH and QPOP take consecutive tickets where there is room, or where elements enough
are published, and no path that is served first waits; where there is no room, or too few elements, `.nb` returns all ones, and the others
wait; a waiting path goes on in its turn. That a waiter which can be served goes before an `.nb` one is DEDUCED, log entry 42; that a ticket
counter and its publication move in one step is the model's choice, log entry 41. R85, R428, R429: a push writes S[sD] with its first
ticket, its lanes' registers into the elements of its tickets and PUSHTK past them, and TAIL where every earlier ticket is published; a pop
reads its elements into its lanes' registers, and moves POPTK, and HEAD where every earlier ticket has been read. -/
def Obligations.Queues : Prop :=
  ((∀ (l : Lane) (s : State) (active : Word32) (k : Option Nat) (a : Word64), Gives (laneStart l) s (active, k) → active ≠ 0 →
    Gives (readS (sregOf l.va)) s a →
    let off := a.toNat % 2 ^ 19
    let n := (lanesOf active).length
    (∀ (c : Word64) (q : Qcw), Gives (readS (sregOf l.vb)) s c → Gives (qcwPlace active off) s () → Gives (qcwCheck active off c.toNat) s q →
      let u := s.winStore 1 (cellsAt off (bytesOf 32 c.toNat))
      exec (.qinit l) s = .next (u.unhang.retire 3) ∧ Qcw.of ((u.unhang.retire 3).winNum 1 off 32) = Qcw.of c.toNat)
    ∧ (∀ q : Qcw, Gives (checkV active l.vb.toNat 1) s () → s.busyReg (sregOf l.vd) = false → Gives (readQcw active off) s q →
      Gives (useV active l.vb q.regs) s () → n ≤ q.depth → s.allAcked (.group s.g.id) = true → Gives (orderGate (.qpush l) 3) s () →
      let room := q.room n = true
      let first := s.queueAhead true off s.steps = false
      let served := servable true q (s.qWaiters true off) ≠ []
      (room ∧ (first ∨ (l.imm.getLsbD 0 = true ∧ ¬ served)) → 
        exec (.qpush l) s = .next ((s.pushElems l off q (lanesOf active)).unhang.retire 3))
      ∧ (¬ room → l.imm.getLsbD 0 = true → exec (.qpush l) s = .next ((s.setS (sregOf l.vd) 0xFFFFFFFFFFFFFFFF).unhang.retire 3))
      ∧ (room → ¬ first → l.imm.getLsbD 0 = true → served → exec (.qpush l) s = .next s.endGrant)
      ∧ (¬ (room ∧ first) → l.imm.getLsbD 0 = false → exec (.qpush l) s = .next
        (s.park { instr := .qpush l, words := 3, on := .queue off, vals := [0, BitVec.ofNat 64 s.steps, active.setWidth 64, 0], mark := k })))
    ∧ ∀ q : Qcw, Gives (checkV active l.vd.toNat 1) s () → s.busyReg (sregOf l.vb) = false → Gives (readQcw active off) s q →
      Gives (checkV active l.vd.toNat q.regs) s () → n ≤ q.depth → Gives (orderGate (.qpop l) 3) s () →
      let room := q.full n = true
      let first := s.queueAhead false off s.steps = false
      let served := servable false q (s.qWaiters false off) ≠ []
      (room ∧ (first ∨ (l.imm.getLsbD 0 = true ∧ ¬ served)) → Gives (checkScratch active (q.elemBytes q.poptk n)) s () → 
        exec (.qpop l) s = .next ((s.popElems l off q (lanesOf active)).unhang.retire 3))
      ∧ (¬ room → l.imm.getLsbD 0 = true → exec (.qpop l) s = .next ((s.setS (sregOf l.vb) 0xFFFFFFFFFFFFFFFF).unhang.retire 3))
      ∧ (room → ¬ first → l.imm.getLsbD 0 = true → served → exec (.qpop l) s = .next s.endGrant)
      ∧ (¬ (room ∧ first) → l.imm.getLsbD 0 = false → exec (.qpop l) s = .next
        (s.park { instr := .qpop l, words := 3, on := .queue off, vals := [0, BitVec.ofNat 64 s.steps, active.setWidth 64, 0], mark := k })))
  ∧ ∀ (l : Lane) (s t : State) (g : GroupId) (slot : Bool) (w : Wait) (off : Nat) (q : Qcw), s.atPath g slot t → t.path.wait = some w →
    w.on = .queue off → t.g.stop ≠ .stopped →
    let active : Word32 := (w.vals.getD 2 0).extractLsb' 0 32
    let n := (lanesOf active).length
    let u := t.endWait
    Gives (readQcw active off) u q → n ≤ q.depth → u.keyFree = true →
    (w.instr = .qpush l → Gives (useV active l.vb q.regs) u () → u.queueAhead true off (w.vals.getD 1 0).toNat = false → q.room n = true →
      Resumes (.qpushResume g slot) s g slot ((u.pushElems l off q (lanesOf active)).retiredAbove 3 (w.vals.headD 0)))
    ∧ (w.instr = .qpop l → Gives (checkV active l.vd.toNat q.regs) u () → u.queueAhead false off (w.vals.getD 1 0).toNat = false → q.full n = true →
      Gives (checkScratch active (q.elemBytes q.poptk n)) u () →
      Resumes (.qpopResume g slot) s g slot ((u.popElems l off q (lanesOf active)).retiredAbove 3 (w.vals.headD 0))))
  ∧ (∀ (l : Lane) (s : State) (off : Nat) (lanes : List Nat),
    let v := s.winNum 1 off 32
    let q := Qcw.of v
    let n := lanes.length
    qcwBad v off = false → n ≤ q.depth → (∀ i ∈ lanes, i < 32) →
    (let t := s.pushElems l off q lanes
     let q' := Qcw.of (t.winNum 1 off 32)
     q'.pushtk = (q.pushtk + n) % 2 ^ 32 ∧ q'.tail = (if q.tail = q.pushtk then (q.pushtk + n) % 2 ^ 32 else q.tail) ∧ q'.head = q.head
      ∧ q'.poptk = q.poptk ∧ q'.base = q.base ∧ q'.logd = q.logd ∧ q'.elw = q.elw
      ∧ t.g.sregs.get (sregOf l.vd).toNat = BitVec.ofNat 64 q.pushtk
      ∧ (∀ i r, i < n → r < q.regs → t.winNum 1 (q.elemAt (q.pushtk + i) + 4 * r) 4 = (s.g.vreg (l.vb.toNat + r) (lanes.getD i 0)).toNat)
      ∧ t.g.vregs = s.g.vregs ∧ (∀ x, (x < off ∨ off + 32 ≤ x) → (x < q.base ∨ q.base + q.ringBytes ≤ x) → t.winByte 1 x = s.winByte 1 x)
      ∧ ∀ a, t.byte a = s.byte a)
    ∧ (lanes.Nodup →
     let t := s.popElems l off q lanes
     let q' := Qcw.of (t.winNum 1 off 32)
     q'.poptk = (q.poptk + n) % 2 ^ 32 ∧ q'.head = (if q.head = q.poptk then (q.poptk + n) % 2 ^ 32 else q.head) ∧ q'.tail = q.tail
      ∧ q'.pushtk = q.pushtk ∧ q'.base = q.base
      ∧ t.g.sregs.get (sregOf l.vb).toNat = BitVec.ofNat 64 q.poptk
      ∧ (∀ i r, i < n → r < q.regs → (t.g.vreg (l.vd.toNat + r) (lanes.getD i 0)).toNat = s.winNum 1 (q.elemAt (q.poptk + i) + 4 * r) 4)
      ∧ (∀ x, x < off ∨ off + 32 ≤ x → t.winByte 1 x = s.winByte 1 x) ∧ ∀ a, t.byte a = s.byte a))

/-- R431 to R433: NPOST posts a node for the group's ASID and writes its status; NDEC decrements a node of the ASID and writes what is left,
with an overdecrement above; NDONE writes RUNS and STATUS of a node that is DONE, all ones with `.nb` where it is not, else it waits, and
NDONE_RESUME ends the wait; an index that is not the ASID's gives its own code. R240, R241, R244, R245: a post of an index outside the
table, of a node that is not IDLE, that the scheduler holds (DEDUCED, log entry 30) or that is another ASID's is refused and counted, and
changes no node; the descriptor is read first (R49); one that a check refuses completes with BADNODE; one accepted joins the scheduler's
nodes, READY at once where its counter is 0. A decrement gives the counter after it, or reports that it was already 0, counts that and
changes no node. -/
def Obligations.Nodes : Prop :=
  ((∀ (l : Lane) (s : State) (active : Word32) (k : Option Nat) (a : Word64), Gives (laneStart l) s (active, k) → active ≠ 0 →
    Gives (readS (sregOf l.va)) s a → s.busyReg (sregOf l.vd) = false →
    let d := sregOf l.vd
    let ix := a.toNat % 2 ^ 20
    let r := s.readDesc ix
    let out := fun (u : State) (v : Word64) => (u.setS d v).unhang.retire 3
    (s.allAcked (.group s.g.id) = true →
      exec (.npost l) s = .next (out (s.postNode ix (some s.g.asid)).1 (BitVec.ofNat 64 (s.postNode ix (some s.g.asid)).2)))
    ∧ (r.ownNode ix = true → r.allAcked (.group r.g.id) = true → Gives (orderGate (.ndec l) 3) r () →
      exec (.ndec l) s = .next (out (r.decrement ix).1 (BitVec.ofNat 64 ((r.decrement ix).2.1 + if (r.decrement ix).2.2 then 2 ^ 32 else 0))))
    ∧ (r.ownNode ix = false → exec (.ndec l) s = .next (out r 0xFFFFFFFFFFFFFFFF) ∧ exec (.ndone l) s = .next (out r 0xFFFFFFFFFFFFFFFE))
    ∧ (r.ownNode ix = true → (∀ v, r.doneWord ix = some v → exec (.ndone l) s = .next (out r v))
      ∧ (r.doneWord ix = none → l.imm.getLsbD 0 = true → exec (.ndone l) s = .next (out r 0xFFFFFFFFFFFFFFFF))
      ∧ (r.doneWord ix = none → l.imm.getLsbD 0 = false → exec (.ndone l) s = .next
        (r.park { instr := .ndone l, words := 3, on := .nodeDone ix, vals := [], mark := k }))))
  ∧ ∀ (l : Lane) (s t : State) (g : GroupId) (slot : Bool) (w : Wait) (ix : Nat) (v : Word64), s.atPath g slot t → t.path.wait = some w →
    w.on = .nodeDone ix → w.instr = .ndone l → t.g.stop ≠ .stopped → t.doneWord ix = some v →
    Resumes (.ndoneResume g slot) s g slot ((t.endWait.setS (sregOf l.vd) v).unhang.retire 3))
  ∧ (∀ (s : State) (ix : Nat),
    let u := s.readDesc ix
    (u.nodeCount = s.nodeCount ∧ u.nodes = s.nodes ∧ ∀ a, inCarve a = false → u.byte a = s.byte a)
    ∧ (∀ asid : Option (BitVec 12), (s.nodeCount ≤ ix ∨ dfield (u.descAt ix) 704 3 ≠ 0 ∨ (s.node? ix).isSome = true ∨ (∃ a, asid = some a ∧ (newNode ix (u.descAt ix)).asid ≠ a) →
        s.postNode ix asid = (u.bumpSched 32, 1))
      ∧ (ix < s.nodeCount → dfield (u.descAt ix) 704 3 = 0 → s.node? ix = none → (∀ a, asid = some a → (newNode ix (u.descAt ix)).asid = a) →
        let r := u.badNode (newNode ix (u.descAt ix))
        (r.2 = true → s.postNode ix asid = ((r.1.bumpSched 32).doneNode (newNode ix (u.descAt ix)) 3, 2))
        ∧ (r.2 = false → (s.postNode ix asid).2 = 0
            ∧ ((s.postNode ix asid).1.nodes.map fun n => n.index) = r.1.nodes.map (fun n => n.index) ++ [ix]
            ∧ (dfield (u.descAt ix) 160 32 = 0 → ∃ n ∈ (s.postNode ix asid).1.nodes, n.index = ix ∧ n.ready = true))))
    ∧ (let c := u.num (s.nodePa ix + 20) 4
       (c = 0 → s.decrement ix = (u.bumpSched 0, 0, true) ∧ (u.bumpSched 0).nodes = s.nodes ∧ (u.bumpSched 0).mem = u.mem)
       ∧ (c ≠ 0 → (s.decrement ix).2 = (c - 1, false)
          ∧ (c ≠ 1 → (s.decrement ix).1.nodes = s.nodes)
          ∧ (c = 1 → ∀ n, s.node? ix = some n → n.ready = false →
              ∃ m, (s.decrement ix).1.node? ix = some m ∧ m.ready = true ∧ m.ticket = s.readyTicket ∧ (s.decrement ix).1.readyTicket = s.readyTicket + 1))))

/-- R434 to R436, R254: SPGRANT writes its status at once or waits for the slots to empty; SPSEND and SPRECV on a die, channel or ASID that
is not theirs write a status; SPSEND of a spore that exceeds its slot writes 2; with a permit, or with the next spore in its slot, and no
path that is served first, they start their command and write its sequence number; without one `.nb` writes a status, and the others wait.
That a waiter which can be served goes before an `.nb` one is DEDUCED, log entry 42; that a send or a claim waits for its group's stores is
the model's choice, log entry 7. R254, R435, R436: the waits of SPGRANT, SPSEND and SPRECV end once the slots are empty, a permit has come,
or the next spore is in its slot. -/
def Obligations.Spores : Prop :=
  (∀ (l : Lane) (s : State) (active : Word32) (k : Option Nat), Gives (laneStart l) s (active, k) → active ≠ 0 → s.busyReg (sregOf l.vd) = false →
    let give := fun (u : State) (v : Word64) => (u.setS (sregOf l.vd) v).unhang.retire 3
    (∀ a, Gives (readS (sregOf l.va)) s a →
      let r := s.spgrantDo a.toNat
      (∀ st, r.2 = some st → r.1.busyReg (sregOf l.vd) = false → exec (.spgrant l) s = .next (give r.1 (BitVec.ofNat 64 st)))
      ∧ (r.2 = none → exec (.spgrant l) s = .next
        (r.1.park { instr := .spgrant l, words := 3, on := .channel (a.extractLsb' 0 6), vals := [0, 0, 0, a], mark := k })))
    ∧ ∀ (b : Word64) (t : Tile), Gives (readS (sregOf l.vb)) s b → Gives (useTile active l.va) s t →
      let chan := b.extractLsb' 0 6
      let wait := fun (i : Instr) (x : Channel) => s.park (channelWait i x.num s.steps active b k)
      ((∀ st, s.channelStatus chan (sendDie chan) = .error st → exec (.spsend l) s = .next (give s (BitVec.ofNat 64 st)))
      ∧ ∀ x, s.channelStatus chan (sendDie chan) = .ok x →
        (s.tooBig x t = true → exec (.spsend l) s = .next (give s 2))
        ∧ (s.tooBig x t = false → s.allAcked (.group s.g.id) = true → Gives (orderGate (.spsend l) 3) s () →
          let first := s.channelAhead true x.num s.steps = false
          (x.permits ≠ 0 → first → exec (.spsend l) s = .next ((s.sporeSent l active k b x t).unhang.retire 3))
          ∧ (x.permits = 0 → l.imm.getLsbD 0 = true → exec (.spsend l) s = .next (give s 1))
          ∧ (x.permits ≠ 0 → ¬ first → l.imm.getLsbD 0 = true → exec (.spsend l) s = .next s.endGrant)
          ∧ (x.permits = 0 ∨ ¬ first → l.imm.getLsbD 0 = false → exec (.spsend l) s = .next (wait (.spsend l) x))))
      ∧ ((∀ st, s.channelStatus chan (recvDie chan) = .error st → exec (.sprecv l) s = .next (give s (BitVec.ofNat 64 st)))
      ∧ ∀ x, s.channelStatus chan (recvDie chan) = .ok x →
        (∀ y, x.next? = some y → s.channelAhead false x.num s.steps = false →
          (y.fits t = true → s.allAcked (.group s.g.id) = true → exec (.sprecv l) s = .next ((s.sporeClaimed l active k x y t).unhang.retire 3))
          ∧ (y.fits t = false → exec (.sprecv l) s = .next (s.takeTrap { cause := cPROT, sub := 3, lmask := active, va := 0, kind := 0, level := 0xF })))
        ∧ (x.next? = none ∨ s.channelAhead false x.num s.steps = true →
          (l.imm.getLsbD 0 = true → exec (.sprecv l) s = .next (if x.next? = none then give s 5 else s.endGrant))
          ∧ (l.imm.getLsbD 0 = false → exec (.sprecv l) s = .next (wait (.sprecv l) x)))))
  ∧ (∀ (l : Lane) (s t : State) (g : GroupId) (slot : Bool) (w : Wait) (chan : BitVec 6), s.atPath g slot t → t.path.wait = some w →
    w.on = .channel chan → t.g.stop ≠ .stopped →
    let active : Word32 := (w.vals.getD 2 0).extractLsb' 0 32
    let u := t.endWait
    let arrival := (w.vals.getD 1 0).toNat
    (w.instr = .spgrant l → ∀ st, (u.spgrantDo (w.vals.getD 3 0).toNat).2 = some st →
      Resumes (.sporeGrantRelease g slot) s g slot (((u.spgrantDo (w.vals.getD 3 0).toNat).1.setS (sregOf l.vd) (BitVec.ofNat 64 st)).retiredAbove 3 0))
    ∧ (∀ (v : Tile) (x : Channel), w.instr = .spsend l → Gives (useTile active l.va) u v → u.channelStatus chan (sendDie chan) = .ok x →
      u.tooBig x v = false → x.permits ≠ 0 → u.channelAhead true chan arrival = false → u.keyFree = true → u.allAcked (.group u.g.id) = true →
      Resumes (.spsendResume g slot) s g slot ((u.sporeSent l active w.mark (w.vals.getD 3 0) x v).retiredAbove 3 (w.vals.headD 0)))
    ∧ ∀ (v : Tile) (x : Channel) (y : Spore), w.instr = .sprecv l → Gives (useTile active l.va) u v → u.channelStatus chan (recvDie chan) = .ok x →
      x.next? = some y → u.channelAhead false chan arrival = false → y.fits v = true → u.allAcked (.group u.g.id) = true →
      Resumes (.sprecvResume g slot) s g slot
        ((u.sporeClaimed l active w.mark x y v).retiredAbove 3 (if y.node = t.g.id.node then y.clock else w.vals.headD 0)))

/-- R254, R435, R436, R255, R256, R253: what SPGRANT answers; what a send and a claim do to their channel, their tile and S[sD]; a
spore lands behind the earlier ones of its channel; a received spore's slot empties, its permit sets out, and comes back to the
sender's count. -/
def Obligations.SporeRules : Prop :=
  (∀ (s : State) (a : Nat),
    let chan := BitVec.ofNat 6 (a % 64)
    let n := a / 256 % 128
    let b := a / 65536 % 128
    (64 < n ∨ (n ≠ 0 ∧ (b = 0 ∨ 66 < b)) → s.spgrantDo a = (s, some 9))
    ∧ (n ≤ 64 → (n ≠ 0 → 0 < b ∧ b ≤ 66) →
      (s.g.die ≠ recvDie chan → s.spgrantDo a = (s, some 4))
      ∧ (s.g.die = recvDie chan →
        (∀ x, s.bound? chan = some x → (n ≠ 0 → s.spgrantDo a = (s, some 7)) ∧ (n = 0 → x.asid ≠ s.g.asid → s.spgrantDo a = (s, some 8))
          ∧ (n = 0 → x.asid = s.g.asid → x.spores ≠ [] → s.spgrantDo a = (s, none))
          ∧ (n = 0 → x.asid = s.g.asid → x.spores = [] → (s.spgrantDo a).2 = some 0 ∧ (s.spgrantDo a).1.bound? chan = none))
        ∧ (s.bound? chan = none → (n = 0 → s.spgrantDo a = (s, some 0))
          ∧ (n ≠ 0 → s.freeRun (recvDie chan) ((n * b * 4096 + 1048575) / 1048576) = none → s.spgrantDo a = (s, some 6))
          ∧ (n ≠ 0 → ∀ base, s.freeRun (recvDie chan) ((n * b * 4096 + 1048575) / 1048576) = some base →
              (s.spgrantDo a).2 = some 0 ∧ (s.spgrantDo a).1.bound? chan = some
                { num := chan, asid := s.g.asid, slots := n, size := b * 4096, base := base, permits := n, sendSeq := 0, recvSeq := 0, spores := [], returning := [] })))))
  ∧ (∀ (l : Lane) (s : State) (active : Word32) (k : Option Nat) (b : Word64) (x : Channel) (t : Tile), s.channel? x.num = some x →
    s.allAcked (.group s.g.id) = true →
    let u := s.sporeSent l active k b x t
    (∃ y, u.channel? x.num = some { x with permits := x.permits - 1, sendSeq := x.sendSeq + 1, spores := x.spores ++ [y] } ∧ y.landed = false
        ∧ y.payload = s.payload t ∧ y.header = sporeHeader t x.num (s.payload t).length x.sendSeq (BitVec.ofNat 32 (b.toNat / 2 ^ 32)))
      ∧ u.g.sregs.get (sregOf l.vd).toNat = BitVec.ofNat 64 (x.sendSeq.toNat % 2 ^ 24 * 2 ^ 8)
      ∧ u.mem = s.mem ∧ u.w.scr = s.w.scr)
  ∧ (∀ (l : Lane) (s : State) (active : Word32) (k : Option Nat) (x : Channel) (y : Spore) (t : Tile), s.channel? x.num = some x → y.fits t = true →
    s.allAcked (.group s.g.id) = true →
    let u := s.sporeClaimed l active k x y t
    u.channel? x.num = some { x with recvSeq := x.recvSeq + 1 }
      ∧ u.g.sregs.get (sregOf l.vd).toNat = BitVec.ofNat 64 (y.field 128 32 * 2 ^ 32 + y.seq % 2 ^ 24 * 2 ^ 8))
  ∧ (∀ (s : State) (id : CmdId) (c : Command) (l : Lane) (chan : BitVec 6), s.runnable id = some c → c.id.ctx = .spore chan →
    (c.instr = .spsend l → Acts (.sporeSendComplete id) s c fun u =>
      match (u.channel? chan).bind fun x => x.spores.find? fun y => !y.landed with
      | some y => if y.seq = (c.ops.getD 0 0).toNat then
          (u.modChannel chan fun x => { x with spores := x.spores.map fun z => if z.seq == (c.ops.getD 0 0).toNat then { z with landed := true } else z }).finish c 0
        else u
      | none => u)
    ∧ (c.instr = .sprecv l → Acts (.sporeReceiveComplete id) s c fun u =>
      match (u.channel? chan).bind fun x => x.spores.find? fun y => y.seq == (c.ops.getD 0 0).toNat with
      | some y => ((u.landSpore l.va.toNat y).modChannel chan fun x => { x with
          spores := x.spores.filter fun z => z.seq != (c.ops.getD 0 0).toNat, returning := x.returning ++ [(c.group.node, c.clock)] }).finish c 0
      | none => u))
  ∧ ∀ (s : State) (chan : BitVec 6) (x : Channel) (p : Nat × Word64) (rest : List (Nat × Word64)), s.channel? chan = some x → x.returning = p :: rest →
    ∃ u, exec (.permitReturn chan) s = .next u ∧ u.channel? chan = some { x with permits := x.permits + 1, returning := rest } ∧ u.mem = s.mem ∧ u.w.tiles = s.w.tiles

/-! ## Issue, scheduling and pre-emption (spec/08 to 11) -/

/-- R278, R280, R282, R295: the fetch of a path that has no clause brings its whole clause, the header and its body; a word that is no
header, or an address that is not a multiple of 4, is ILLCL/HEADER and a fault of a fetch is raised at the header, both with OFFSET 0
and VA 0. R250, R251: the clause of a path that does not wait, whose WAIT flags are clear and whose tiles are neither filling nor
draining, is granted where its issue quarter holds no grant and chooses it, from its first body word or where it stood; where a flag is
not clear, or after a thermal trip, nothing happens; the grant of another quarter stands beside it. R217, R251: a group offers the slot
that it was not last granted, where both may be granted; a clause that has waited 448 cycles is granted before one that has waited less,
and of two deterministic ones that have waited less, and neither of which has yielded, the least in clock and then in index is; how ties
that are left fall, and how deterministic candidates stand beside others, is the model's choice (log entry 76). R261: a clause whose header
ERET has executed again goes on with what is left to replay. A grant that expires ends. -/
def Obligations.Grants : Prop :=
  (∀ (s : State) (g : GroupId) (slot : Bool) (x : Group) (w : Workgroup) (p : Path), s.group? g = some x → s.wg? (wgOf g) = some w →
    x.path? slot = some p → p.wait = none → x.held ≠ some slot → x.stop ≠ .stopped → (w.state = .resident ∨ w.state = .stopping) →
    (∀ t, p.clause = none → s.atPath g slot t → Resumes (.clauseFetch g slot) s g slot t.fetchClause)
    ∧ (p.clause ≠ none → s.tripped = false → s.stillGranted g slot = false → s.quarterFree x = true → s.chosen x slot = true →
      (∀ k, k < 12 → p.header.getLsbD (18 + k) = true → x.qflags.get k = 0) →
      (∀ n ∈ p.tiles, n.toNat < w.ntiles → (Tile.ofBits (w.tiles.get n.toNat)).state ≠ 1 ∧ (Tile.ofBits (w.tiles.get n.toNat)).state ≠ 3) →
      (p.off = 0 → ∀ r rest, p.replay = r :: rest → ∃ t, exec (.clauseGrant g slot) s = .next t ∧ t.path.pc = r.pc ∧ t.path.off = r.off ∧ t.path.replay = p.replay
        ∧ (r.pc = p.pc → t.path.clause = p.clause) ∧ ∀ a, t.byte a = s.byte a)
      ∧ (p.off ≠ 0 ∨ p.replay = [] → ∃ t, exec (.clauseGrant g slot) s = .next t ∧ t.granted = true ∧ t.live = true ∧ t.slot = slot
        ∧ t.g = ({ x with yielded := false, lastSlot := slot, waited := 0 } : Group).setPath slot (some { p with off := max 1 p.off, wait := none })
        ∧ t.quarters = (if s.granted = true then [(s.g.id, s.slot, s.path.pc)] else []) ++ s.quarters ∧ ∀ a, t.byte a = s.byte a))
    ∧ (s.stillGranted g slot = false → (s.tripped = true ∨ ∃ k, k < 12 ∧ p.header.getLsbD (18 + k) = true ∧ x.qflags.get k ≠ 0) →
        exec (.clauseGrant g slot) s = .next s)
    ∧ (s.tripped = false → s.stillGranted g slot = true → ∃ t, exec (.clauseGrant g slot) s = .next t ∧ t.granted = true ∧ t.slot = slot ∧ t.g = x))
  ∧ (∀ (s : State) (x : Group), (s.grantable x.id (!x.lastSlot) = true → s.offered x = some (!x.lastSlot))
    ∧ (s.grantable x.id (!x.lastSlot) = false → s.offered x = if s.grantable x.id x.lastSlot = true then some x.lastSlot else none))
  ∧ (∀ (a b : Group) (p q : Path),
    (448 ≤ a.waited → b.waited < a.waited → ahead (a, p) (b, q) = true ∧ ahead (b, q) (a, p) = false)
    ∧ (a.waited < 448 → b.waited < 448 → a.det = true → b.det = true → a.yielded = false → b.yielded = false →
      (ahead (a, p) (b, q) = true ↔ p.clock.toNat < q.clock.toNat
        ∨ (p.clock = q.clock ∧ (a.gidx < b.gidx ∨ (a.gidx = b.gidx ∧ idLe a.id b.id = true))))))
  ∧ (∀ s u v : State, ∀ (w : Word32) (body : List Word32) (f : Flt),
    let pc := s.path.headerAt
    let isHeader := w.extractLsb' 30 2 = 3 ∧ w.extractLsb' 0 4 = 0 ∧ ∀ lo ∈ [10, 14], (w.extractLsb' lo 4).toNat < 12 ∨ w.extractLsb' lo 4 = 15
    let n := (w.extractLsb' 5 5).toNat + 1
    let refused := fun (u : State) (f : Flt) (kind : Nat) (iw : Word32) => 
      let rs := (u.path.replay.take 16).map u.g.captured
      (u.setPath { u.path with off := 0, replay := rs.take 1 ++ rs }).enterHandler
      { trap := { cause := f.cause, sub := f.sub, lmask := u.path.mask, va := 0, kind := BitVec.ofNat 4 kind, level := f.level }, iw := [iw] }
    (s.fetchCode pc 1 = (u, .error f) → f.cause ≠ 0 → s.fetchClause = refused u f 3 0)
    ∧ (s.fetchCode pc 1 = (u, .ok [w]) →
      (w.extractLsb' 30 2 ≠ 3 → s.fetchClause = refused u { cause := 2, sub := 1 } 0 w)
      ∧ (w.extractLsb' 30 2 = 3 →
        (u.fetchCode (pc + 4) n = (v, .error f) → f.cause ≠ 0 → s.fetchClause = refused v f 3 w)
        ∧ (u.fetchCode (pc + 4) n = (v, .ok body) →
          (¬ isHeader ∨ pc % 4 ≠ 0 → s.fetchClause = refused v { cause := 2, sub := 1 } 0 w)
          ∧ (isHeader → pc % 4 = 0 → s.path.off ≤ n → s.fetchClause = v.setPath { s.path with clause := some (w :: body) })))))
  ∧ ∀ s : State, s.granted = true → exec .grantExpiry s = .next s.endGrant ∧ s.endGrant.granted = false
      ∧ s.endGrant.g = { s.g with yielded := s.g.yielded || s.path.header.getLsbD 4 }

/-- R218 to R220: the hang counter of a group counts the cycles that pass, but in supervisor mode, stopped, or with every live path parked
in a wait of Table 8-6; which stalls of a path these are is DEDUCED (log entry 81). Where it reaches its limit, GSTAT.HANG is set, the
counter starts again and, with HANGCTL.TRAP, a trap is due. The trap is HANG with sub-cause 1, taken at the group's next instruction; that
one due in supervisor mode waits for the first outside it is DEDUCED (log entry 27), and its KIND and VA are the model's choice (log entry
57). R287, R295: a word that is no instruction raises ILLOP or
ILLCL with the sub-cause of its error. -/
def Obligations.HangAndIllegalWords : Prop :=
  (∀ (s : State) (g : GroupId) (x : Group), s.group? g = some x →
    ∃ t, exec (.hangLimit g) s = .next t ∧ (∀ a, t.byte a = s.byte a) ∧ t.nodes = s.nodes
      ∧ (2 ^ (x.hangctl.toNat % 64) ≤ x.hang.toNat →
        t.group? g = some { x with gstat := x.gstat ||| 4, hang := 0, hangPending := x.hangPending || x.hangctl.getLsbD 8 })
      ∧ (x.hang.toNat < 2 ^ (x.hangctl.toNat % 64) → t.group? g = some x))
  ∧ (∀ (x : Group) (w : Workgroup) (granted : Option Bool) (c : BitVec 48),
    let counts := x.supv = false ∧ x.stop ≠ .stopped ∧ ∃ slot p, x.path? slot = some p ∧ p.counts x w (granted == some slot) = true
    let h := if x.counts w granted = true then x.hang + c else x.hang
    let y := x.pass w granted c
    (x.counts w granted = true ↔ counts)
      ∧ (h.toNat < 2 ^ (x.hangctl.toNat % 64) → y.hang = h ∧ y.gstat = x.gstat ∧ y.hangPending = x.hangPending)
      ∧ (2 ^ (x.hangctl.toNat % 64) ≤ h.toNat → y.hang = 0 ∧ y.gstat = x.gstat ||| 4 ∧ y.hangPending = (x.hangPending || x.hangctl.getLsbD 8))
      ∧ y.waited = (if granted = none then x.waited + c.toNat else x.waited))
  ∧ (∀ (p : Path) (x : Group) (w : Workgroup) (granted : Bool),
    (p.wait = none → (p.counts x w granted = true ↔ p.stalled = false ∧ (granted = true ∨ p.clause = none ∨ eligible x w p = true)))
    ∧ ∀ q : Wait, p.wait = some q →
      ((∃ c n, q.on = .timeline c n) ∨ (∃ f n, q.on = .claim f n) ∨ (∃ o, q.on = .queue o) ∨ (∃ d, q.on = .monitor d)
        ∨ (∃ c l, q.on = .channel c ∧ (q.instr = .spsend l ∨ q.instr = .sprecv l)) → p.counts x w granted = false)
      ∧ (q.on = .walker ∨ (∃ n, q.on = .nodeDone n) ∨ q.on = .firstTouch ∨ q.on = .order ∨ (∃ c l, q.on = .channel c ∧ q.instr = .spgrant l)
        → p.counts x w granted = true))
  ∧ (∀ s : State, s.live = true → s.granted = true → s.g.hangPending = true → s.g.supv = false →
    exec (.hangTrap s.g.id) s = .next (({ s with g := { s.g with hangPending := false } } : State).takeTrap (s.pathTrap 0x0D 1 0)))
  ∧ ∀ (s : State) (e : DecodeError) (w : Word32) (c u : BitVec 8), s.live = true → (s.g.path? s.slot).isSome = true →
    ((e, c, u) ∈ [(DecodeError.opcode, 1#8, 1#8), (.straddle, 2#8, 2#8)] ∨ ((e, c, u) ∈ [(DecodeError.field, 1#8, 2#8), (.annot, 1#8, 3#8)] ∧ s.g.die.toNat < 2) →
      (e = .field → ∀ target, s.badTransfer w = some target → Gives (checkTarget target) s ()) →
      exec (.unassignedOpcode e w) s = .next (s.takeTrap (s.pathTrap c u 0)))
    ∧ (∀ target t, e = .field → s.badTransfer w = some target → Raises (checkTarget target) s t → exec (.unassignedOpcode e w) s = .next (s.takeTrap t))
    ∧ (e = .header → exec (.unassignedOpcode e w) s = .next (s.enterHandler { trap := s.pathTrap 2 1 0, iw := [w] }))

/-- R240, R450: SUBMIT posts its node, once the device is READY, and after the host's writes before it, where a tier swap holds one of them
(R44). R245, R246: the pool holds the nodes that are READY and have a workgroup to
place, in order of priority and then of ticket, and a scan with SCHEDCTL.EN places from it; the first of the pool that has waited too
long is held. R208, R242, R243: the groups of a workgroup that is placed start at ENTRY with all lanes of LMASK, with S[0] to S[3] as
the launch gives them, every other scalar register, vector register and buffer record 0 to 30 zero, b31 the private record, and GSTAT
holding DET and TWIN alone. -/
def Obligations.Scheduling : Prop :=
  (∀ (s : State) (ix : BitVec 20),
    ((∀ h ∈ s.held, h.hostWrites = false) →
      (s.regs.bootstat.getLsbD 8 = true → exec (.submit ix) s = .next (s.postNode ix.toNat none).1)
      ∧ (s.regs.bootstat.getLsbD 8 = false → exec (.submit ix) s = .next s))
    ∧ ((∃ h ∈ s.held, h.hostWrites = true) → exec (.submit ix) s = .next { s with held := s.held ++ [.submit ix] }))
  ∧ (∀ s : State,
    (s.regs.schedctl.getLsbD 0 = true → exec .schedulerScan s = .next (s.scanFrom true s.pool))
    ∧ (s.regs.schedctl.getLsbD 0 = false → exec .schedulerScan s = .next s)
    ∧ (∀ n, n ∈ s.pool ↔ n ∈ s.nodes ∧ n.ready = true ∧ ((n.placed < n.w ∧ n.badTiles = false) ∨ s.savedOf n.index ≠ []))
    ∧ s.pool.Pairwise (fun a b => b.prio < a.prio ∨ (a.prio = b.prio ∧ a.ticket.toNat ≤ b.ticket.toNat))
    ∧ (s.pool = [] → exec .ageLimit s = .next s)
    ∧ ∀ n rest, s.pool = n :: rest → ∃ t, exec .ageLimit s = .next t ∧ (∀ a, t.byte a = s.byte a)
        ∧ t.node? n.index = (s.node? n.index).map fun m => if n.placed = 0 then { m with aged := true } else m)
  ∧ ∀ (s u : State) (n : Node) (p : Spot) (e : Nat) (es : List (Nat × Nat)), s.spot [] n none = some p → s.freeEntry = some e →
    s.tileArray n = (u, some es) →
    (s.placeNext n).2 = .yes ∧ (∃ w ∈ (s.placeNext n).1.otherWgs, w.id = ⟨n.index, n.placed⟩ ∧ w.asid = n.asid ∧ w.die = p.die ∧ w.core = p.core
        ∧ w.saveEntry = e ∧ w.state = .resident ∧ w.scrSize = (n.f 192 20 + 16383) / 16384 * 16384 ∧ w.scr = [] ∧ w.cmds = [] ∧ w.ntiles = n.f 214 9
        ∧ w.nslots = n.f 224 5)
    ∧ ∀ j, j < n.gcount → j < p.places.length → ∃ g, (s.placeNext n).1.others[u.others.length + j]? = some g ∧ g.id = ⟨n.index, n.placed, j⟩
        ∧ g.asid = n.asid ∧ g.slot0 = some { Path.empty with pc := BitVec.ofNat 56 (n.f 0 56), mask := BitVec.ofNat 32 (n.f 128 32) } ∧ g.slot1 = none
        ∧ g.sregs.get 0 = BitVec.ofNat 64 n.placed ∧ g.sregs.get 1 = BitVec.ofNat 64 j ∧ g.sregs.get 2 = BitVec.ofNat 64 (n.placed * n.gcount + j)
        ∧ g.sregs.get 3 = BitVec.ofNat 64 (n.f 448 56) ∧ (∀ k, 4 ≤ k → g.sregs.get k = 0) ∧ g.vregs = [] ∧ g.mregs = []
        ∧ g.bregs.get 31 = n.privRec (n.placed * n.gcount + j) ∧ (∀ k, k ≠ 31 → g.bregs.get k = 0)
        ∧ g.gstat = BitVec.ofNat 64 (n.det.toNat * 2 ^ 8 + n.twin.toNat * 2 ^ 9) ∧ g.exited = ~~~ BitVec.ofNat 32 (n.f 128 32)

/-- R65: a workgroup all of whose groups have exited and whose commands have completed completes, and its resources are free. R239: a
node all of whose workgroups have completed is DONE: it leaves the scheduler and loses its grants, STATE reads 4, STATUS its status and
RUNS one more, and with status OK the counter of its successor falls by one, once the node's stores are performed (R111). R234 to R236: a
TWIN node sends its checksum and length to its partner, and compares them with its twin's of the same ASID, index and run: a match
completes it; a mismatch, a timeout, or an exchange that is disabled or has no route, is counted, is a machine check, and completes it
with status 2; that one that is disabled or has no route ends at once, as a timeout, is the model's choice (log entry 70). R452: before
READY a message is refused. -/
def Obligations.Completion : Prop :=
  (∀ (s : State) (w : WgId) (x : Workgroup), s.wg? w = some x →
    (x.state = .resident → s.allExited w = true → (∀ c ∈ x.cmds, c.finished = true) → s.pendingOf w = [] →
      ∃ t, exec (.workgroupComplete w) s = .next t ∧ t.wg? w = none ∧ (∀ g ∈ t.others, wgOf g.id ≠ w) ∧ x.saveEntry ∉ t.saveUsed
        ∧ t.node? w.node = (s.node? w.node).map (fun n => { n with complete := n.complete + 1 }) ∧ ∀ a, t.byte a = s.byte a)
    ∧ ((s.allExited w = false ∨ ∃ c ∈ x.cmds, c.finished = false) → exec (.workgroupComplete w) s = .next s))
  ∧ (∀ (s : State) (n : Node), s.node? n.index = some n → n.ready = true → n.placed = n.complete → n.exchanging = false →
    (n.placed = n.w ∨ n.badTiles = true) →
    let st := if n.badTiles then 3 else if n.faulted then 1 else 0
    (st = 0 → s.nodeAcked n.index = true) →
    (n.twin = false → exec (.nodeComplete n.index) s = .next (s.doneNode n st))
    ∧ (n.twin = true → s.regs.twinctl.getLsbD 0 = true → (s.hops (s.regs.twinctl.extractLsb' 16 12).toNat).isSome = true →
      let u := s.readDesc n.index
      exec (.nodeComplete n.index) s = .next
        (({ u.modNode n.index fun x => { x with exchanging := true } with twinSent := u.twinSent ++ [u.twinMsg n] } : State).tryExchange n)))
  ∧ (∀ (s : State) (n : Node) (st : Nat), st = 1 ∨ st = 2 ∨ st = 3 → (∀ i, i < 128 → inCarve (s.nodePa n.index + i) = false ∧ isLocal (s.nodePa n.index + i) = true) →
    let t := s.doneNode n st
    t.node? n.index = none ∧ (∀ g ∈ t.grants, g.node ≠ n.index) ∧ t.num (s.nodePa n.index + 88) 1 = s.num (s.nodePa n.index + 88) 1 / 8 * 8 + 4
      ∧ t.num (s.nodePa n.index + 89) 1 = st ∧ (s.ranSince = none → t.num (s.nodePa n.index + 90) 4 = (s.num (s.nodePa n.index + 90) 4 + 1) % 2 ^ 32)
      ∧ s.sameBytes t (fun a => inCarve a = true ∨ (s.nodePa n.index + 88 ≤ a ∧ a < s.nodePa n.index + 94)))
  ∧ (∀ (s : State) (n : Node) (k : Nat), n.f 512 16 = 1 → k = n.f 576 20 → k < s.nodeCount → k ≠ n.index →
    (∀ i, i < 128 → inCarve (s.nodePa k + i) = false ∧ isLocal (s.nodePa k + i) = true) → s.num (s.nodePa k + 20) 4 ≠ 0 →
    (s.doneNode n 0).num (s.nodePa k + 20) 4 = s.num (s.nodePa k + 20) 4 - 1)
  ∧ ∀ (s : State) (node : Nat) (n : Node) (pkg asid : BitVec 12) (runs : Word32) (crc : Word64) (len : Nat), s.node? node = some n →
    let fails := fun (u : State) (tmo : Bool) =>
      let v := u.regs.twinstat.toNat
      let r : Nat := (v / 2 ^ 32 + 1) % 2 ^ 32 * 2 ^ 32 + (v / 2 ^ 16 % 2 ^ 16 + 1) % 2 ^ 16 * 2 ^ 16 + v % 2 ^ 16
      ((({ u with regs := { u.regs with twinstat := BitVec.ofNat 64 r ||| 1#64 ||| (if tmo = true then 2#64 else 0#64) } } : State).machineCheck 1).doneNode n 2)
    let ready := s.regs.bootstat.getLsbD 8 = true
    let msg := TwinMsg.mk pkg asid node runs crc len
    let u := ({ s with twinInbox := [msg] } : State).readDesc node
    (¬ ready → exec (.twinMessage ⟨pkg, asid, node⟩ runs crc len) s = .next s)
    ∧ (ready → n.exchanging = false → exec (.twinMessage ⟨pkg, asid, node⟩ runs crc len) s = .next { s with twinInbox := s.twinInbox ++ [msg] })
    ∧ (n.exchanging = true → exec (.twinTimeout node) s = .next (fails s true))
    ∧ (n.exchanging = false → n.ready = true → n.placed = n.complete → (n.placed = n.w ∨ n.badTiles = true) → n.twin = true →
      (n.status = 0 → s.nodeAcked node = true) →
      (s.regs.twinctl.getLsbD 0 = false ∨ s.hops (s.regs.twinctl.extractLsb' 16 12).toNat = none) →
      exec (.nodeComplete node) s = .next (fails s true))
    ∧ (n.exchanging = false → exec (.twinTimeout node) s = .next s)
    ∧ (ready → n.exchanging = true → n.index = node → s.twinInbox = [] →
      (pkg ≠ s.regs.twinctl.extractLsb' 16 12 ∨ asid ≠ n.asid ∨ runs.toNat ≠ u.runsOf node) →
      exec (.twinMessage ⟨pkg, asid, node⟩ runs crc len) s = .next u)
    ∧ (ready → n.exchanging = true → n.index = node → s.twinInbox = [] →
      pkg = s.regs.twinctl.extractLsb' 16 12 → asid = n.asid → runs.toNat = u.runsOf node →
      (crc = BitVec.ofNat 64 (crc64 (streamBytes n.stream)) ∧ len = (streamBytes n.stream).length →
        ∃ v : State, exec (.twinMessage ⟨pkg, asid, node⟩ runs crc len) s = .next (v.doneNode n n.status)
          ∧ v.regs.twinstat.toNat / 2 ^ 32 = (s.regs.twinstat.toNat / 2 ^ 32 + 1) % 2 ^ 32 ∧ v.mem = u.mem ∧ v.nodes = s.nodes)
      ∧ (¬ (crc = BitVec.ofNat 64 (crc64 (streamBytes n.stream)) ∧ len = (streamBytes n.stream).length) →
        exec (.twinMessage ⟨pkg, asid, node⟩ runs crc len) s = .next (fails { u with twinInbox := [] } false)))

/-- R263, R264: a request gives a group that runs outside supervisor mode its notice, the PREEMPT/NOTIFY trap, where PRECTL.NOTIFY is set;
else it stops a group whose paths are all parked; a group that has exited stops at once, another once it parks, or at the limit unless it is
in the middle of an instruction. The notice waits while an instruction to be captured for its replay queue still waits for a register
(R260). R267, R268: a command of a core settles; what settles when, and that a matrix operation for which an MFILL waits goes on, and what
stops a group, is the model's choice (log entries 44 and 45). R264, R270, R271: the workgroup is saved once its groups have stopped, its
commands have settled and its stores are performed (R59, R112), takes the lowest free context block at its commit (the model's choice, log
entry 61), and a check of that block restores it or loses it with a machine check. R264 to R266: a restored group keeps the registers that
its hint names, and an instruction that waited is executed again, but for SMWAIT (R115). -/
def Obligations.Preemption : Prop :=
  (∀ (s : State) (i : GroupId) (g : Group) (w : Workgroup), s.group? i = some g → s.wg? (wgOf i) = some w →
    let waits := ∀ p, (g.slot0 = some p ∨ g.slot1 = some p) → p.parked = true
    (w.state ≠ .stopping → exec (.preemptRequestArrival i) s = .next s ∧ exec (.preemptNotify i) s = .next s ∧ exec (.preemptLimit i) s = .next s)
    ∧ (w.state = .stopping → g.exited = 0xFFFFFFFF → g.stop ≠ .stopped → exec (.preemptRequestArrival i) s = .next (s.stopGroup i))
    ∧ (w.state = .stopping → waits → (g.stop = .running ∧ (s.regs.prectl.getLsbD 16 = false ∨ g.supv = true)) ∨ g.stop = .requested →
      exec (.preemptRequestArrival i) s = .next (s.stopGroup i))
    ∧ (w.state = .stopping → g.stop = .running → g.exited ≠ 0xFFFFFFFF →
      let notice := s.regs.prectl.getLsbD 16 = true ∧ g.supv = false
      (notice ∨ ¬ waits) → ∃ t, exec (.preemptRequestArrival i) s = .next t ∧ (∀ a, t.byte a = s.byte a)
        ∧ t.group? i = some { g with stop := if notice then .notice else .requested })
    ∧ (g.stop = .requested → (g.exited = 0xFFFFFFFF ∨ waits) → g.settleStop = { g with stop := .stopped })
    ∧ (w.state = .stopping → g.stop = .notice ∨ g.stop = .requested → (∀ p, (g.slot0 = some p ∨ g.slot1 = some p) → p.busy = false) →
      exec (.preemptLimit i) s = .next (s.stopGroup i))
    ∧ (∀ slot t, w.state = .stopping → g.stop = .notice → g.supv = false → s.noticeSlot g = some slot → s.atPath i slot t →
      Resumes (.preemptNotify i) s i slot t.takeNotice ∧ (t.canCapture = false → t.takeNotice = t)
        ∧ (t.canCapture = true → ∃ (u : State) (iw : List Word32), t.takeNotice = u.enterHandler { trap := t.pathTrap 0x0A 1 0, iw := iw, skip := true }
        ∧ u.g.stop = .requested ∧ u.g.ovr = none ∧ u.mem = t.mem ∧ ∀ r ∈ u.path.replay.drop 1, r.ops.isSome = true))
    ∧ (s.stopGroup i).group? i = some { g with stop := .stopped })
  ∧ (∀ (s : State) (id : CmdId) (c : Command) (w : Workgroup), s.cmd? id = some c → c.finished = false → c.settled = false → s.wg? id.wg = some w →
    w.state = .stopping → id.ctx ∈ [Ctx.copy0, .copy1, .xform, .mpair, .attn] →
    (c.stopped = false → w.awaitedByFill c = true → exec (.commandSettle id) s = .next s)
    ∧ (c.stopped = true ∨ w.awaitedByFill c = false →
    ((∀ l, c.instr ≠ .attn l) → exec (.commandSettle id) s = .next (s.modCmd id fun y => { y with settled := true }))
    ∧ (∀ l, c.instr = .attn l → c.pins.drop c.heldPins = [] → Acts (.commandSettle id) s c fun u =>
        ({ u with die0 := u.die0.dropWaiter (.cmd c.id), die1 := u.die1.dropWaiter (.cmd c.id) } : State).modCmd c.id Command.settleAt)))
  ∧ (∀ (s : State) (i : WgId) (w : Workgroup), s.wg? i = some w →
    (w.state = .stopping → (∀ g ∈ s.groups, wgOf g.id = w.id → g.stop = .stopped) → (∀ c ∈ w.cmds, c.finished = true ∨ c.settled = true) →
      let ids := (s.groups.filter fun g => wgOf g.id == i).map fun g => g.id
      let asked := ids.foldl (fun u j => u.modGroup j fun g => { g with stop := .requested }) s
      let drained := ids.foldl (fun u j => u.withGroup j false State.drain) asked
      let still := ids.foldl State.stopGroup drained
      (still.movesFree i = true → exec (.workgroupSave i) s = .next (((ids.foldl State.keepFloors still).saveStorage i).modWg i fun y => { y with state := .saving }))
      ∧ (still.movesFree i = false → exec (.workgroupSave i) s = .next still))
    ∧ (∀ b, w.state = .saving → b < s.regs.ctxpool.toNat % 2 ^ 16 → b ∉ s.ctxUsed → (∀ c, c < b → c ∈ s.ctxUsed) →
      ∃ t, exec (.saveCommit i) s = .next t ∧ t.wg? i = some { w with state := .saved b } ∧ t.ctxUsed = b :: s.ctxUsed ∧ ∀ a, t.byte a = s.byte a)
    ∧ ∀ b, w.state = .restoring b →
      let u : State := { s with ctxUsed := s.ctxUsed.filter fun y => y != b }
      exec (.restoreCheck i true) s = .next (u.restoreWorkgroup w) ∧ exec (.restoreCheck i false) s = .next ((u.machineCheck 2).loseWorkgroup w))
  ∧ ∀ (g : Group), g.restored.stop = .running ∧ g.restored.mregs = g.mregs ∧ g.restored.bregs = g.bregs
    ∧ g.restored.slot0 = g.slot0.map Path.unwait ∧ g.restored.slot1 = g.slot1.map Path.unwait
    ∧ (∀ p : Path, (p.wait = none → p.unwait = { p with floor := none }) ∧ ∀ w, p.wait = some w →
      ((∀ d, w.on ≠ .monitor d) → p.unwait = { p with wait := none, floor := none }) ∧ ∀ d, w.on = .monitor d → p.unwait = { p with floor := none })
    ∧ (g.hint = none → g.restored.vregs = g.vregs ∧ g.restored.sregs = g.sregs)
    ∧ ∀ h, g.hint = some h →
      (∀ n, g.restored.sregs.get n = if h.slive.getLsbD (n / 8) = true then g.sregs.get n else 0)
      ∧ ∀ n l, l < 32 → g.restored.vreg n l = if h.vlive.getLsbD (n / 64) = true then g.vreg n l else 0

/-! ## Memory, the host and bring-up (spec/02, 05, 20) -/

/-- R42 Table 2-3, R43, R45: a counting access of an A-die group that is not locked, through a leaf that a cache holds, updates its entry,
and queues a swap, or counts a dropped one, where it qualifies; one that a swap holds waits, and counts into the entry that the swap writes
(R44). R45, R44: the oldest trigger starts or is discarded, and a swap that ends makes its member the fast one; what it held goes on. R40,
R47: a block that misses in the lichen cache comes first there. R49, R52, R53: a dirty line that is written back has the code with the
fewest sectors, or RAW where it was last written through a leaf with CMP = 0 or is poisoned. R54, R55: a read whose metadata L2 does not
hold teaches the predictor and is counted, and one that was predicted too low is counted as such. R119: a walk leaves its leaf cached. No
byte outside the entry or the carve-outs changes. Which requests reach memory, and what a swap holds of an instruction already under way, is
the model's choice (log entry 12). -/
def Obligations.MemoryTiers : Prop :=
  (∀ (s : State) (die : BitVec 2) (group : Nat) (member : BitVec 2) (pin : Bool) (tier : BitVec 2),
    let d := s.die die
    let e := s.lichen die.toNat group
    let delta := (d.lichCtl.extractLsb' 4 4).toNat
    let j := if member.toNat < e.fast then member.toNat else member.toNat - 1
    let pa := memberAddr die group member.toNat
    (2 ≤ die.toNat ∨ 0xBCFD00 ≤ group ∨ s.leafOver pin tier.toNat pa = false → exec (.countingAccess die group member pin tier) s = .next s)
    ∧ (die.toNat < 2 → group < 0xBCFD00 → s.leafOver pin tier.toNat pa = true → s.swapHolds die group member.toNat = true →
      exec (.countingAccess die group member pin tier) s = .next (s.setDie die { d with heldCounts := d.heldCounts ++ [(group, member.toNat, pin, tier.toNat)] }))
    ∧ (die.toNat < 2 → group < 0xBCFD00 → s.leafOver pin tier.toNat pa = true → s.swapHolds die group member.toNat = false → ∃ t, exec (.countingAccess die group member pin tier) s = .next t
      ∧ (let e' := t.lichen die.toNat group
         e'.fast = e.fast
         ∧ (member.toNat = e.fast → e'.fpin = pin ∧ ∀ k, k < 3 → e'.cnt.getD k 0 = if pin = false ∧ tier.toNat < 2 then e.cnt.getD k 0 - 1 else e.cnt.getD k 0)
         ∧ (member.toNat ≠ e.fast → e'.fpin = e.fpin ∧ ∀ k, k < 3 → e'.cnt.getD k 0 =
            if pin = false ∧ k = j ∧ tier = 0 then min (e.cnt.getD k 0 + 1) 15
            else if pin = false ∧ k = j ∧ tier = 1 then min (max (e.cnt.getD k 0 + 1) delta) 15 else e.cnt.getD k 0)
         ∧ (let fires := pin = false ∧ tier.toNat < 2 ∧ member.toNat ≠ e.fast ∧ delta ≤ e'.cnt.getD j 0 ∧ d.lichCtl.getLsbD 0 = true ∧ e'.fpin = false
              ∧ (∀ q ∈ d.swapQueue ++ d.swaps, q.1 ≠ group)
            (fires → d.swapQueue.length < 64 → (t.die die).swapQueue = d.swapQueue ++ [(group, member.toNat)] ∧ (t.die die).lichStat = d.lichStat)
            ∧ (fires → 64 ≤ d.swapQueue.length → (t.die die).swapQueue = d.swapQueue ∧ (t.die die).lichStat.extractLsb' 16 16 = d.lichStat.extractLsb' 16 16 + 1)
            ∧ (¬ fires → t.die die = d)))
      ∧ s.sameBytes t (fun a => a = die.toNat * 2 ^ 41 + 0x17FFE800000 + 2 * group ∨ a = die.toNat * 2 ^ 41 + 0x17FFE800000 + 2 * group + 1)))
  ∧ (∀ (s : State) (die : BitVec 2) (group m : Nat) (rest : List (Nat × Nat)),
    let d := s.die die
    let e := s.lichen die.toNat group
    (d.swapQueue = (group, m) :: rest → d.swaps.length < 16 →
      let ok := m ≠ e.fast ∧ (d.lichCtl.extractLsb' 4 4).toNat ≤ e.cnt.getD (if m < e.fast then m else m - 1) 0 ∧ d.lichCtl.getLsbD 0 = true ∧ e.fpin = false
      (ok → exec (.swapStart die) s = .next (s.setDie die { d with swapQueue := rest, swaps := d.swaps ++ [(group, m)] }))
      ∧ (¬ ok → exec (.swapStart die) s = .next (s.setDie die { d with swapQueue := rest })))
    ∧ (d.swapQueue = [] ∨ 16 ≤ d.swaps.length → exec (.swapStart die) s = .next s)
    ∧ (d.swaps.find? (fun q => q.1 == group) = some (group, m) → m < 4 → group < 0xC00000 → ∃ t : State, exec (.swapComplete die group) s
        = .next ((d.heldCounts.filter fun c => c.1 == group).foldl (fun v c => v.countingAccess die c.1 c.2.1 c.2.2.1 c.2.2.2) t).retryHeld
      ∧ (t.die die).heldCounts = d.heldCounts.filter (fun c => c.1 != group) ∧ t.held = s.held ∧ (s.held = [] → s.retryHeld = s)
      ∧ t.lichen die.toNat group = { fpin := false, cnt := [0, 0, 0], fast := m } ∧ (t.die die).swaps = d.swaps.filter (fun q => q.1 != group)
      ∧ (t.die die).lichStat.extractLsb' 32 32 = d.lichStat.extractLsb' 32 32 + 1
      ∧ s.sameBytes t (fun a => a = die.toNat * 2 ^ 41 + 0x17FFE800000 + 2 * group ∨ a = die.toNat * 2 ^ 41 + 0x17FFE800000 + 2 * group + 1)))
  ∧ (∀ (s : State) (die : BitVec 2) (block : Nat),
    let d := s.die die
    (die.toNat < 2 → block < 0x60000 → block ∉ d.lichCache → ∃ t, exec (.lichenCacheMiss die block) s = .next t ∧ t.mem = s.mem
      ∧ (t.die die).lichCache = (block :: d.lichCache).take 16384
      ∧ (d.missCount ≠ 1023 → (t.die die).missCount = d.missCount + 1 ∧ (t.die die).lichStat = d.lichStat)
      ∧ (d.missCount = 1023 → (t.die die).missCount = 0 ∧ (t.die die).lichStat.extractLsb' 0 16 = d.lichStat.extractLsb' 0 16 + 1))
    ∧ (2 ≤ die.toNat ∨ block ∈ d.lichCache → exec (.lichenCacheMiss die block) s = .next s))
  ∧ (∀ (s : State) (die : BitVec 2) (n : Nat),
    let line := die.toNat * 2 ^ 41 + 128 * n
    let bs := s.bytes line 128
    (line ∉ s.dirty → exec (.lineWriteBack die n) s = .next s)
    ∧ (line ∈ s.dirty → isOwn line = true → isLocal line = true → inCarve line = false → ∃ t, exec (.lineWriteBack die n) s = .next t
      ∧ t.dirty = s.dirty.filter (fun x => x != line)
      ∧ ((line ∉ s.cmpLines ∨ s.rangePoisoned line 128 = true) → t.metaCode line = 0)
      ∧ (line ∈ s.cmpLines → s.rangePoisoned line 128 = false → (∃ n, (t.metaCode line, n) ∈ lineCodes bs ∧ ∀ c ∈ lineCodes bs, n < c.2 ∨ (n = c.2 ∧ t.metaCode line ≤ c.1)))
      ∧ s.sameBytes t (fun a => a = (metaPa line).1)))
  ∧ (∀ (s : State) (pa : Nat), isOwn pa = true → isLocal pa = true → inCarve pa = false → (s.die (BitVec.ofNat 2 (pa / 2 ^ 41))).holdsLine (metaLine pa) = false →
    let die := BitVec.ofNat 2 (pa / 2 ^ 41)
    let ix := pa % 2 ^ 41 / 32768 % 65536
    let actual := max 1 (codeSectors (s.metaCode pa))
    let predicted := 4 - ((s.die die).predictor.get ix).toNat
    let miss := (s.die die).cmpStat.extractLsb' 32 32
    (let t := s.consultMeta pa
     4 - ((t.die die).predictor.get ix).toNat = actual ∧ (t.die die).cmpStat.extractLsb' 0 32 = (s.die die).cmpStat.extractLsb' 0 32 + 1
      ∧ (t.die die).cmpStat.extractLsb' 32 32 = (if predicted < actual then miss + 1 else miss) ∧ s.sameBytes t (fun a => inCarve a = true))
    ∧ (predicted < actual → exec (.sizeMisprediction pa) s = .next (s.consultMeta pa))
    ∧ (actual ≤ predicted → exec (.sizeMisprediction pa) s = .next s))
  ∧ ∀ (s : State) (die : BitVec 2) (core : Nat) (asid : BitVec 12) (va : BitVec 56), core < coresOf die.toNat → s.regs.asidbase.getLsbD 0 = true →
    (∀ l, s.cachedLeaf ⟨die, some core⟩ asid va.toNat = some l → exec (.pageWalk die core asid va) s = .next s)
    ∧ (∀ u l, s.cachedLeaf ⟨die, some core⟩ asid va.toNat = none → s.walk ⟨die, some core⟩ asid va.toNat true = (u, .ok l) →
      exec (.pageWalk die core asid va) s = .next u ∧ u.cachedLeaf ⟨die, some core⟩ asid va.toNat = some l ∧ l.entry.getLsbD 9 = true)

/-- R446, R447, R450, R453, R57, R457: once the device is READY, a read of memory by the host, by PF1 or by another package stores
nothing, a write stores its bytes, a fetch-and-add, swap or compare-and-swap of 4 or 8 aligned bytes replaces its word, and all other
bytes outside the carve-outs are as they were; the host gets the bytes as they were, and reads BAR0; before READY a request to memory has
no effect. A request whose line a swap holds waits (R44), and so does a read by the host or PF1 of bytes that a store has written here and
that another package has still to acknowledge (R450, R59). R37: an atomic to a carve-out returns zero. R59, R116, R448: an
acknowledgement ends a store's wait for its package, the last one of a store removes its marks, and a store to the host window that the
host rejects is undone, a line at a time, and is machine check 4. The model's choices: which store an acknowledgement ends, the oldest of
its package (log entry 7); which store the host rejects, and that a rejected one is what it replaced (log entry 78); that a request for no
byte, for another's address or by an atomic of another size is aborted without effect (log entry 84). -/
def Obligations.OutsideRequests : Prop :=
  (∀ (s : State) (e : HostReq → Instr) (ok : Nat → Prop),
    ((e = .hostMemoryRequest ∧ ok = fun x => isLocal x = true ∧ inCarve x = false ∧ x < 2 ^ 51)
      ∨ (e = .peerRequestArrival ∧ ok = fun x => isOwn x = true ∧ isLocal x = true ∧ inCarve x = false)
      ∨ (e = .pf1Dma ∧ ok = fun x => isOwn x = true ∧ ((isLocal x = true ∧ inCarve x = false) ∨ isHost x = true))) →
    let unread := fun (pa n : Nat) => e ≠ .peerRequestArrival ∧ ∃ u ∈ s.unacked, ∃ x ∈ u.own, pa ≤ x ∧ x < pa + n
    let free := fun (pa n : Nat) => 0 < n ∧ ∀ i, i < n → ok (pa + i) ∧ s.isHeld (pa + i) = false
    let keeps := fun (t : State) (pa n : Nat) => s.sameBytes t fun a => (pa ≤ a ∧ a < pa + n) ∨ inCarve a = true
    (s.regs.bootstat.getLsbD 8 = false → ∀ r, (∀ off n, r ≠ .bar off n) →
      (e = .hostMemoryRequest → exec (e r) s = .next { s with hostReplies := [⟨.completerAbort, [], false⟩] })
      ∧ (e ≠ .hostMemoryRequest → exec (e r) s = .next s))
    ∧ (s.regs.bootstat.getLsbD 8 = true →
      (∀ pa n, free pa n → ¬ unread pa n → ∃ t, exec (e (.read pa n)) s = .next t ∧ s.sameBytes t (fun a => inCarve a = true)
        ∧ (e = .hostMemoryRequest → t.hostReplies = [⟨.success, s.bytes pa n, s.rangePoisoned pa n⟩]))
      ∧ (∀ (w : HostReq) (pa n : Nat), 0 < n → (∀ i, i < n → ok (pa + i)) → ((∃ i, i < n ∧ s.isHeld (pa + i) = true)
          ∧ (w = .read pa n ∨ ∃ bs : List Byte, w = .write pa bs ∧ bs.length = n)) ∨ (w = .read pa n ∧ unread pa n) →
        ∃ t h, exec (e w) s = .next t ∧ t = { s with held := s.held ++ [h], hostReplies := t.hostReplies }
          ∧ (e = .hostMemoryRequest → h = .host w ∧ t.hostReplies = [⟨.held, [], false⟩])
          ∧ (e = .peerRequestArrival → h = .peer w) ∧ (e = .pf1Dma → h = .pf1 w))
      ∧ (∀ (pa : Nat) (bs : List Byte), free pa bs.length → ∃ t, exec (e (.write pa bs)) s = .next t
        ∧ (∀ i, i < bs.length → t.byte (pa + i) = bs.getD i 0) ∧ keeps t pa bs.length
          ∧ (e = .hostMemoryRequest → t.hostReplies = [⟨.success, [], false⟩]))
      ∧ (∀ (pa n : Nat) (v c : Word64), free pa n → ¬ unread pa n → (n = 4 ∨ n = 8) → pa % n = 0 →
        let replies := fun (t : State) => e = .hostMemoryRequest → t.hostReplies = [⟨.success, s.bytes pa n, s.rangePoisoned pa n⟩]
        (∃ t, exec (e (.fetchAdd pa n v)) s = .next t ∧ t.num pa n = (s.num pa n + v.toNat) % 2 ^ (8 * n) ∧ keeps t pa n ∧ replies t)
        ∧ (∃ t, exec (e (.swap pa n v)) s = .next t ∧ t.num pa n = v.toNat % 2 ^ (8 * n) ∧ keeps t pa n ∧ replies t)
        ∧ (∃ t, exec (e (.cas pa n c v)) s = .next t ∧ t.num pa n = (if s.num pa n = c.toNat % 2 ^ (8 * n) then v.toNat % 2 ^ (8 * n) else s.num pa n)
            ∧ keeps t pa n ∧ replies t))))
  ∧ (∀ (s : State) (off n : Nat), exec (.hostMemoryRequest (.bar off n)) s = .next { s with hostReplies := [⟨.success, s.barRead off n, false⟩] })
  ∧ (∀ (s : State) (pa n : Nat) (v : Word64), s.regs.bootstat.getLsbD 8 = true → pa + n ≤ 2 ^ 51 → (n = 4 ∨ n = 8) → pa % n = 0 →
    (∀ i, i < n → inCarve (pa + i) = true ∧ s.isHeld (pa + i) = false) → (∀ u ∈ s.unacked, ∀ x ∈ u.own, x < pa ∨ pa + n ≤ x) →
    ∃ t, exec (.hostMemoryRequest (.fetchAdd pa n v)) s = .next t ∧ t.hostReplies = [⟨.success, List.replicate n 0, false⟩] ∧ s.sameBytes t (fun a => inCarve a = true))
  ∧ (∀ (s : State) (pa n : Nat) (v : Word64), pa < 2 ^ 51 → (n ≠ 4 ∧ n ≠ 8) ∨ pa % n ≠ 0 →
    exec (.hostMemoryRequest (.fetchAdd pa n v)) s = .next { s with hostReplies := [⟨.completerAbort, [], false⟩] })
  ∧ (∀ (s : State) (pa : Nat) (bs : List Byte) (i : Nat), i < bs.length → pa + i < 2 ^ 51 → isLocal (pa + i) = false →
    exec (.hostMemoryRequest (.write pa bs)) s = .next { s with hostReplies := [⟨.completerAbort, [], false⟩] } ∧ exec (.peerRequestArrival (.write pa bs)) s = .next s)
  ∧ (∀ (s : State) (pkg : Nat),
    ((s.unacked.find? fun a => a.pkg == pkg) = none → exec (.peerStoreAck pkg) s = .next s)
    ∧ ∀ a, (s.unacked.find? fun a => a.pkg == pkg) = some a → ∃ t : State, exec (.peerStoreAck pkg) s = .next t.retryHeld ∧ (t.held = [] → t.retryHeld = t)
      ∧ t.unacked = s.unacked.erase a ∧ t.mem = s.mem ∧ t.held = s.held ∧ (t.unacked = [] → s.reductions = [] → t.regs.tlbictl.getLsbD 8 = false)
      ∧ ∀ g x, a.issuer = .group g → s.group? g = some x →
        t.group? g = some (if ∃ b ∈ s.unacked.erase a, b.store = a.store then x else x.unmarkAll a.marks))
  ∧ ∀ s : State, (s.hostStores = [] → exec .hostStoreLoss s = .next s)
    ∧ (s.hostStores ≠ [] → ∃ j, j < s.hostStores.length ∧ exec .hostStoreLoss s = .next ((s.loseHostStore j).machineCheck 4)
      ∧ ((s.loseHostStore j).machineCheck 4).regs.mcstat.extractLsb' 8 8 = 4 ∧ ((s.loseHostStore j).machineCheck 4).regs.mcstat.getLsbD 0 = true)
    ∧ ∀ old rest, s.hostStores = old :: rest → (old.map Prod.fst).Nodup →
      let t := s.loseHostStore 0
      (∀ x ∈ old, t.byte x.1 = x.2) ∧ s.sameBytes t (fun a => a ∈ old.map Prod.fst) ∧ t.hostStores = rest

/-- R447, R457: the host writes a register of BAR0 with naturally aligned accesses of 8 or 4 bytes; any other is dropped, and so is a
write of a register outside the first stages before READY. R134: a FRCTL write that sets EN reloads the next ticket from TAIL. R135:
the oldest record that waits is posted where there is room. R451: a vector that is pending and unmasked sends its message. R464: a
request runs while BUSY is set; its report takes a leaf, is written with its signature above the nonce and gives STS 1; with no leaf left STS
is 2, where host memory failed it is 3. R457: before READY a configuration request is answered with Request Retry Status in the first 80
ms, 100,000,000 periods of the 1.25 GHz clock. R450: a host write of SUBMIT waits behind a write that a swap holds. The model's choices: the
layout of the MSI-X vectors (PRESUMED, log entry 23), the order of the report's parts and the count of leaves (log entry 24), and what a
configuration request is answered otherwise (log entry 84). -/
def Obligations.HostRegisters : Prop :=
  (∀ (s : State) (n : Nat) (v : Word64), 0x100 ≤ n → n < 0x200 →
    (s.regs.bootstat.getLsbD 8 = true → (∀ h ∈ s.held, h.hostWrites = false) ∨ (n ≠ 0x106 ∧ n ≠ 0x110) →
      exec (.registerWrite (8 * n) 8 v) s = .next (s.writePkg n v 0xFFFFFFFFFFFFFFFF)
      ∧ exec (.registerWrite (8 * n) 4 v) s = .next (s.writePkg n (v &&& 0xFFFFFFFF) 0xFFFFFFFF)
      ∧ exec (.registerWrite (8 * n + 4) 4 v) s = .next (s.writePkg n (v <<< 32) 0xFFFFFFFF00000000))
    ∧ (s.regs.bootstat.getLsbD 8 = false → ∀ size, exec (.registerWrite (8 * n) size v) s = .next s))
  ∧ (∀ (s : State) (off size : Nat) (v : Word64), (size ≠ 4 ∧ size ≠ 8) ∨ off % size ≠ 0 ∨ 0x2000000 ≤ off → exec (.registerWrite off size v) s = .next s)
  ∧ (∀ (s : State) (v : Word64), s.regs.bootstat.getLsbD 8 = true → (∃ h ∈ s.held, h.hostWrites = true) →
    exec (.registerWrite 0x830 8 v) s = .next { s with held := s.held ++ [.submit (v.extractLsb' 0 20)] })
  ∧ (∀ (s : State) (reg : Nat), exec (.configRequest reg) s
    = .next { s with hostReplies := [⟨if s.regs.bootstat.getLsbD 8 = false ∧ s.sincePerst < 100000000 then .requestRetry else .success, [], false⟩] })
  ∧ (∀ (s : State) (v : Word64), s.regs.bootstat.getLsbD 8 = true → ∃ t, exec (.frctlWrite v) s = .next t ∧ t.mem = s.mem
    ∧ t.frTicket = (if s.regs.frctl.getLsbD 8 = false ∧ v.getLsbD 8 = true then BitVec.ofNat 64 t.frTail else s.frTicket) ∧ t.regs.frctl.getLsbD 8 = v.getLsbD 8)
  ∧ (∀ (s : State) (die : BitVec 2) (k : Nat) (r : BitVec 512), s.oldestWaiting = some (die, k, r) →
    (s.frRoom = true → exec (.overflowRecordPost die) s = .next ((s.setDie die { s.die die with overflow := (s.die die).overflow.drop 1 }).frPublish r))
    ∧ (s.frRoom = false → exec (.overflowRecordPost die) s = .next s))
  ∧ (∀ (s : State) (v : BitVec 2), ∃ t, exec (.msixUnmask v) s = .next t ∧ t.mem = s.mem ∧ t.msixTable.get (16 * v.toNat + 12) &&& 1 = 0
    ∧ t.msixPending = s.msixPending &&& ~~~(1#4 <<< v.toNat) ∧ t.msixSent = if s.msixPending.getLsbD v.toNat = true then s.msixSent.modify v.toNat (· + 1) else s.msixSent)
  ∧ (∀ (s : State) (v : Word64), (s.regs.bootstat.getLsbD 8 = false → exec (.attestRequest v) s = .next s)
    ∧ (s.regs.bootstat.getLsbD 8 = true → ∃ t, exec (.attestRequest v) s = .next t ∧ t.regs.attctl.getLsbD 1 = (s.regs.attctl.getLsbD 1 || v.getLsbD 0)
      ∧ t.regs.attctl.extractLsb' 12 46 = v.extractLsb' 12 46 ∧ t.regs.attctl.extractLsb' 4 2 = s.regs.attctl.extractLsb' 4 2 ∧ t.mem = s.mem))
  ∧ ∀ (s : State) (ok : Bool),
    (s.regs.attctl.getLsbD 1 = false → exec (.attestDone ok) s = .next s)
    ∧ (s.regs.attctl.getLsbD 1 = true → ∃ t, exec (.attestDone ok) s = .next t ∧ t.regs.attctl.getLsbD 1 = false
      ∧ (let nonce := 2 ^ 48 + (s.regs.attctl.extractLsb' 12 46).toNat * 64
         let good := ok = true ∧ s.rangePoisoned nonce 64 = false
         let report := s.bytes nonce 64 ++ bytesOf 32 (Config.imageHash s.firmware).toNat ++ Config.fuses ++ bytesOf 2 s.pkg
         let bs := report ++ Config.attestSign Config.attestKey s.leaves report
         t.regs.attctl.extractLsb' 4 2 = (if 2 ^ 20 ≤ s.leaves then 2 else if good then 1 else 3)
         ∧ t.leaves = (if s.leaves < 2 ^ 20 ∧ good then s.leaves + 1 else s.leaves)
         ∧ (2 ^ 20 ≤ s.leaves ∨ ¬ good → t.mem = s.mem)
         ∧ (s.leaves < 2 ^ 20 → good → (∀ i, i < bs.length → isOwn (nonce + 64 + i) = true ∧ isHost (nonce + 64 + i) = true) →
           (∀ i, i < bs.length → t.byte (nonce + 64 + i) = bs.getD i 0) ∧ s.sameBytes t (fun a => nonce + 64 ≤ a ∧ a < nonce + 64 + bs.length))))

/-- R454 to R457, R463: the stages of bring-up come one after another, each only in its turn, and an error stops them with its code; the
image is the flash's, or the recovery window's where ATTCTL.RECOVER is set, and it must bear a good signature under the root's key and be no
older than the rollback counter; MEMINIT leaves every byte of the die windows at its first value and free of poison; the cores are released
in 18 steps, and READY starts TIMER at 0. READY leaves ATTCTL at reset. R452: a port that goes down clears its bit, a route through it
fails, and a recomputed table replaces the old one. The model's choices: what another PERST# keeps (log entry 46), the first value of every
byte (log entry 72), that a routing table is replaced whole (log entry 8), and what of an image the check compares (log entry 24). -/
def Obligations.BringUp : Prop :=
  (∀ s : State, ∃ t, exec .perstDeassert s = .next t ∧ t.regs.bootstat = 1 ∧ t.perst = true ∧ t.live = false ∧ t.others = [] ∧ t.nodes = [] ∧ t.granted = false
    ∧ t.leaves = s.leaves ∧ t.recovery = s.recovery ∧ t.regs.attctl = (s.regs.attctl &&& 8) ∧ t.sincePerst = 0 ∧ t.released = 0 ∧ t.tripped = false ∧ ∀ a, t.byte a = s.byte a)
  ∧ (∀ (s : State) (ok : Bool) (pkg : BitVec 12) (up : BitVec 18) (routes : List Route), s.perst = true → s.regs.bootstat.getLsbD 8 = false →
    s.regs.bootstat.extractLsb' 32 16 = 0 →
    let stage := (s.regs.bootstat.extractLsb' 0 8).toNat
    let fails := fun (err : Nat) => (({ s with regs := { s.regs with bootstat := BitVec.ofNat 64 (err * 2 ^ 32 + stage) } } : State).raiseVector 3)
    let goes := fun (u : State) (n : Nat) => ({ u with regs := { u.regs with bootstat := BitVec.ofNat 64 n } } : State)
    (stage = 1 → exec (.verify ok) s = .next (goes s 2))
    ∧ (stage = 2 → exec (.verify ok) s = .next (if ok = true ∧ Config.signatureGood s.image = true ∧ Config.keyHash s.image = Config.rootHash
        ∧ Config.rollback ≤ Config.imageVersion s.image then goes { s with firmware := s.image } 3 else fails 1))
    ∧ (s.regs.attctl.getLsbD 3 = false ∨ s.recovery = [] → s.image = Config.flash)
    ∧ (s.regs.attctl.getLsbD 3 = true → ∀ p, s.recovery.getLast? = some p → s.image = s.recovery.range 0 (p.1 + 1))
    ∧ (stage ≠ 1 → stage ≠ 2 → exec (.verify ok) s = .next s)
    ∧ (stage = 3 → exec (.calib ok pkg up routes) s = .next (if ok then
        goes { s with routes := routes, regs := { s.regs with freipstat := BitVec.ofNat 64 (pkg.toNat * 2 ^ 32 + up.toNat) } } 4 else fails 2))
    ∧ (stage ≠ 3 → exec (.calib ok pkg up routes) s = .next s)
    ∧ (stage = 4 → exec (.meminit false) s = .next (fails 3))
    ∧ (stage = 4 → ∃ t, exec (.meminit true) s = .next t ∧ t.regs.bootstat = 5 ∧ t.die0.lichCtl = 0x41 ∧ t.die1.lichCtl = 0x41
      ∧ (∀ a, isOwn a = true → isLocal a = true → t.byte a = resetByte a ∧ t.isPoisoned a = false) ∧ ∀ a, ¬ (isOwn a = true ∧ isLocal a = true) → t.byte a = s.byte a)
    ∧ (stage ≠ 4 → exec (.meminit ok) s = .next s)
    ∧ (stage = 5 → s.released < 18 → exec .coreReleaseStep s = .next { s with released := s.released + 1 } ∧ exec .ready s = .next s)
    ∧ (stage = 5 → s.released = 18 → exec .coreReleaseStep s = .next s
      ∧ exec .ready s = .next ((goes { s with regs := { s.regs with timer := 0, attctl := 0 } } 0x106).raiseVector 3))
    ∧ (stage ≠ 5 → exec .coreReleaseStep s = .next s ∧ exec .ready s = .next s))
  ∧ (∀ (s : State) (pkg : Nat) (r : Route), pkg ≠ s.pkg → s.routes = [r] → r.pkg = pkg →
    s.hops pkg = if (∃ p, r.port = some p ∧ s.regs.freipstat.getLsbD p = false) then none else some r.hops)
  ∧ ∀ (s : State) (port : Nat) (routes : List Route),
    (port < 18 → ∃ t, exec (.freipPortDown port) s = .next t ∧ t = { s with regs := { s.regs with freipstat := t.regs.freipstat } }
      ∧ ∀ k, k < 64 → t.regs.freipstat.getLsbD k = (s.regs.freipstat.getLsbD k && k != port))
    ∧ (s.regs.bootstat.getLsbD 8 = true → exec (.routeRecompute routes) s = .next { s with routes := routes })

/-- R458, R53, R206, R448: an uncorrectable soft error marks its sector as poison, and in a metadata line the 256 lines that it describes,
or its register or window, and nothing else; a host that completes a request with an error makes its sector read as poison. R461, R462: above
95 °C or above the cap the core clock falls to another of its values, it rises back when the cause has gone, and PWRSTAT says whether it
is below 1250 MHz; a warning after READY is machine check 3, and a trip stops issue with ERR 4 and READY clear. That the clock takes steps
of 62.5 MHz, rounded either way, and that any other value is ignored, is the model's choice (log entry 9). -/
def Obligations.PowerAndErrors : Prop :=
  (∀ (s : State) (pa : Nat), ∃ t, exec (.poisonDetect (.sector pa)) s = .next t ∧ t = { s with soft := t.soft }
    ∧ (isHole (pa % 2 ^ 52) = false → t.isPoisoned pa = true)
    ∧ (isHole (pa % 2 ^ 52) = false → s.sectorBad pa = false → ∀ a, isOwn a = true → isLocal a = true → inCarve a = false → metaLine a ≤ pa → pa < metaLine a + 128 → t.isPoisoned a = true)
    ∧ ∀ a, a / 32 ≠ pa / 32 → (pa < metaLine a ∨ metaLine a + 128 ≤ pa) → t.isPoisoned a = s.isPoisoned a)
  ∧ (∀ (s : State) (pa : Nat), isOwn pa = true → isHost pa = true →
    ∃ t, exec (.poisonDetect (.hostError pa)) s = .next t ∧ t = { s with soft := t.soft } ∧ t.isPoisoned pa = true)
  ∧ (∀ (s : State) (g : GroupId) (n : Nat), ∃ t, exec (.poisonDetect (.sreg g n)) s = .next t ∧ t = { s with soft := t.soft } ∧ t.isSoft (.sreg g n) = true
    ∧ ∀ x, x ≠ .sreg g n → t.isSoft x = s.isSoft x)
  ∧ (∀ (s : State) (clk pwr : BitVec 16),
    let now := s.regs.pwrstat.extractLsb' 0 16
    let cap := (s.regs.pwrctl.extractLsb' 0 12).toNat
    let step := ∃ k, k ≤ 10 ∧ 2 * clk.toNat ≤ 2501 - 125 * k ∧ 2500 - 125 * k ≤ 2 * clk.toNat + 1
    let gives := fun (o : Host.Outcome State Fault Refusal) (p : BitVec 16) => ∃ t, o = .next t ∧ t = { s with regs := { s.regs with pwrstat := t.regs.pwrstat } }
      ∧ t.regs.pwrstat.extractLsb' 0 16 = clk ∧ t.regs.pwrstat.extractLsb' 16 16 = p ∧ t.regs.pwrstat.getLsbD 32 = decide (clk.toNat < 1250)
    (step → clk.toNat < now.toNat → gives (exec (.thermalThrottle clk) s) (s.regs.pwrstat.extractLsb' 16 16))
    ∧ (step → now.toNat < clk.toNat → gives (exec (.thermalRecover clk) s) (s.regs.pwrstat.extractLsb' 16 16))
    ∧ (step → clk.toNat < now.toNat → cap < pwr.toNat → gives (exec (.powerThrottle clk pwr) s) pwr)
    ∧ (step → now.toNat < clk.toNat → pwr.toNat ≤ cap → gives (exec (.powerUnthrottle clk pwr) s) pwr)
    ∧ (¬ step → exec (.thermalThrottle clk) s = .next s ∧ exec (.thermalRecover clk) s = .next s ∧ exec (.powerThrottle clk pwr) s = .next s
      ∧ exec (.powerUnthrottle clk pwr) s = .next s))
  ∧ ∀ s : State, (s.regs.bootstat.getLsbD 8 = false → exec .thermalWarning s = .next s)
    ∧ (s.regs.bootstat.getLsbD 8 = true → ∃ t, exec .thermalWarning s = .next t ∧ t.regs.mcstat.extractLsb' 8 8 = 3 ∧ t.regs.mcstat.getLsbD 0 = true
      ∧ t.regs.mcstat.extractLsb' 32 32 = s.regs.mcstat.extractLsb' 32 32 + 1 ∧ t.mem = s.mem)
    ∧ ∃ t, exec .thermalTrip s = .next t ∧ t.tripped = true ∧ t.regs.bootstat.extractLsb' 32 16 = 4 ∧ t.regs.bootstat.getLsbD 8 = false
      ∧ t.regs.bootstat.extractLsb' 0 8 = s.regs.bootstat.extractLsb' 0 8

/-- Memory keeps its canonical form in every step (addresses strictly rising, no entry that equals what an unlisted address reads as):
equal memories are equal data. -/
def Obligations.StepKeepsMemory : Prop :=
  ∀ s t : State, Memory.wf s.mem = true → step s = .next t → Memory.wf t.mem = true

/-- Each of these forms completes, with its own effect, in every state that meets the conditions that the spec gives for it. R330, R331: SRD
and SWR of a register that the mode may reach, with no operand awaited or in error; SWR outside the group once every store of the group is
performed. R65: a workgroup whose groups have exited and whose commands have completed ends. R239: a node all of whose workgroups have
completed is DONE, once its stores are performed. R236: a twin's message is kept for a node that has not completed, and a timeout ends an
exchange. R446, R453, R57: once the device is READY a request of the host, of PF1 or of another package is served, unless it must wait (R44,
R450). R59, R116: an acknowledgement ends a store's wait for its package. R448: a store that the host rejects is undone. The model's
choices: which store an acknowledgement ends, the oldest (log entry 7), and what a rejected store leaves (log entry 78). -/
def Obligations.FormsThatComplete : Prop :=
  (∀ (f : YForm) (s : State), s.soft = [] → (readMarked f.sub.toNat = true → s.g.supv = true) → s.busyReg f.d = false →
    ∃ v, Gives (readSys f.sub.toNat) s v ∧ exec (.srd f) s = .next ((s.setS f.d v).retire 1))
  ∧ (∀ (f : YForm) (s : State), s.soft = [] → s.g.ovr = none → s.busyReg f.a = false → (writeMarked f.sub.toNat = true → s.g.supv = true) →
    s.allAcked (.group s.g.id) = true → exec (.swr f) s = .next ((s.writeSys f.sub.toNat (s.g.sregs.get f.a.toNat)).retire 1))
  ∧ (∀ (s : State) (w : WgId) (x : Workgroup), s.wg? w = some x → x.state = .resident → s.allExited x.id = true →
    (∀ c ∈ x.cmds, c.finished = true) → s.pendingOf x.id = [] → exec (.workgroupComplete w) s = .next (s.wgDone x))
  ∧ (∀ (s : State) (n : Node), s.node? n.index = some n → n.ready = true → n.placed = n.w → n.complete = n.w → n.exchanging = false → n.twin = false →
    s.nodeAcked n.index = true → exec (.nodeComplete n.index) s = .next (s.doneNode n n.status))
  ∧ (∀ (s : State) (node : Nat) (n : Node) (pkg asid : BitVec 12) (runs : Word32) (crc : Word64) (len : Nat), s.node? node = some n →
    (s.regs.bootstat.getLsbD 8 = false → exec (.twinMessage ⟨pkg, asid, node⟩ runs crc len) s = .next s)
    ∧ (s.regs.bootstat.getLsbD 8 = true → n.exchanging = false → exec (.twinMessage ⟨pkg, asid, node⟩ runs crc len) s = .next { s with twinInbox := s.twinInbox ++ [TwinMsg.mk pkg asid node runs crc len] })
    ∧ (n.exchanging = true → exec (.twinTimeout node) s = .next (s.endExchange n false true)))
  ∧ (∀ (s : State) (r : HostReq), s.regs.bootstat.getLsbD 8 = true → s.swapWaits r = false → s.storeWaits r = false →
    ((reqRange r).1 < 2 ^ 51 → (∀ off n, r ≠ .bar off n) → ∀ t reply, ({ s with hostReplies := [] } : State).serve isLocal r = (t, reply) →
      exec (.hostMemoryRequest r) s = .next { t with hostReplies := t.hostReplies ++ [reply] })
    ∧ exec (.pf1Dma r) s = .next (s.serve (fun x => isOwn x && ((isLocal x && !inCarve x) || isHost x)) r).1
    ∧ exec (.peerRequestArrival r) s = .next (s.serve (fun x => isOwn x && isLocal x && !inCarve x) r).1)
  ∧ (∀ (s : State) (a : Unacked), (s.unacked.find? fun b => b.pkg == a.pkg) = some a → ∃ t : State, exec (.peerStoreAck a.pkg) s = .next t.retryHeld ∧ t.unacked = s.unacked.erase a)
  ∧ ∀ s : State, s.hostStores ≠ [] → ∃ j, j < s.hostStores.length ∧ exec .hostStoreLoss s = .next ((s.loseHostStore j).machineCheck 4)
end

