-- ==== Sys2Proof/Laws/Act.lean ====
section
/-! SUPPORT. How actions run: each combinator once, so that no proof unfolds the monad. -/

namespace Sys2Proof.Machine

section
variable {α β : Type}

@[simp] theorem act_pure (x : α) (s : State) : runAct (pure x : Act α) s = (.ok x, s) := rfl

@[simp] theorem act_bind (a : Act α) (f : α → Act β) (s : State) :
    runAct (a >>= f) s =
      match runAct a s with
      | (.ok x, t) => runAct (f x) t
      | (.error e, t) => (.error e, t) := by
  show (let r := a.run.run s; (ExceptT.bindCont f r.1).run r.2) = _
  unfold runAct
  match a.run.run s with
  | (.ok x, t) => rfl
  | (.error e, t) => rfl

@[simp] theorem act_get (s : State) : runAct (get : Act State) s = (.ok s, s) := rfl
@[simp] theorem act_set (s t : State) : runAct (set t : Act PUnit) s = (.ok ⟨⟩, t) := rfl
@[simp] theorem act_modify (f : State → State) (s : State) : runAct (modify f : Act PUnit) s = (.ok ⟨⟩, f s) := rfl
@[simp] theorem act_throw (e : Stop) (s : State) : runAct (throw e : Act α) s = (.error e, s) := rfl

@[simp] theorem act_stateful (f : State → State × α) (s : State) : runAct (stateful f) s = (.ok (f s).2, (f s).1) := rfl

@[simp] theorem act_trapAt (f : Flt) (kind : Nat) (m : Word32) (va : Nat) (s : State) :
    runAct (trapAt f kind m va : Act α) s =
      (.error (.trap { cause := f.cause, sub := f.sub, lmask := m, va := BitVec.ofNat 56 va, kind := BitVec.ofNat 4 kind, level := f.level }), s) := rfl

@[simp] theorem act_trapAll (c u : BitVec 8) (va : Nat) (s : State) :
    runAct (trapAll c u va : Act α) s =
      (.error (.trap { cause := c, sub := u, lmask := s.path.mask, va := BitVec.ofNat 56 va, kind := 0, level := 0xF }), s) := rfl

@[simp] theorem act_stall (s : State) : runAct (stall : Act α) s = (.error .stall, s) := rfl

@[simp] theorem act_hold (s : State) : runAct (hold : Act α) s = (.error .hold, s) := rfl

@[simp] theorem act_ite (c : Prop) [Decidable c] (a b : Act α) (s : State) :
    runAct (if c then a else b) s = if c then runAct a s else runAct b s := by split <;> rfl

@[simp] theorem act_retire (n : Nat) (s : State) : runAct (retire n) s = (.ok ⟨⟩, s.retire n) := rfl
@[simp] theorem act_retireWork (n : Nat) (s : State) : runAct (retireWork n) s = (.ok ⟨⟩, s.unhang.retire n) := rfl

/-- A meaning whose action ends normally answers the state that the action leaves. -/
theorem outcome_of_does {a : Act Unit} {s t : State} (h : Does a s () t) : Act.outcome a s = .next t := by
  have h' : a.run.run s = (.ok (), t) := h
  simp only [Act.outcome, Act.state, h']

/-- A trap is taken at the state that raised it. -/
theorem outcome_of_raises {a : Act Unit} {s : State} {t : Trap} (h : Raises a s t) : Act.outcome a s = .next (s.takeTrap t) := by
  have h' : a.run.run s = (.error (.trap t), s) := h
  simp only [Act.outcome, Act.state, h']

/-- An instruction in issue stall gives up its grant, its path marked, and changes nothing else. -/
theorem outcome_of_stalls {a : Act Unit} {s : State} (h : Stalls a s) : Act.outcome a s = .next s.stallPath := by
  have h' : a.run.run s = (.error .stall, s) := h
  simp only [Act.outcome, Act.state, h']

/-- An instruction that waits at issue for anything else gives up its grant and changes nothing else. -/
theorem outcome_of_holds {a : Act Unit} {s : State} (h : Holds a s) : Act.outcome a s = .next s.endGrant := by
  have h' : a.run.run s = (.error .hold, s) := h
  simp only [Act.outcome, Act.state, h']

/-- An instruction that waits where it is parks, and changes nothing else. -/
theorem outcome_of_parks {a : Act Unit} {s : State} {w : Wait} (h : Parks a s w) : Act.outcome a s = .next (s.park w) := by
  have h' : a.run.run s = (.error (.park w), s) := h
  simp only [Act.outcome, Act.state, h']

/-- A meaning always answers a next state. -/
theorem outcome_next (a : Act Unit) (s : State) : ∃ t, Act.outcome a s = .next t := ⟨_, rfl⟩

/-- First one action, then the rest. -/
theorem does_bind {a : Act α} {f : α → Act β} {s t u : State} {x : α} {y : β} (h : Does a s x t) (k : Does (f x) t y u) :
    Does (a >>= f) s y u := by
  unfold Does at *
  simp [h, k]

theorem gives_bind {a : Act α} {f : α → Act β} {s u : State} {x : α} {y : β} (h : Gives a s x) (k : Does (f x) s y u) :
    Does (a >>= f) s y u := does_bind h k

theorem raises_bind {a : Act α} {f : α → Act β} {s : State} {x : α} {t : Trap} (h : Gives a s x) (k : Raises (f x) s t) :
    Raises (a >>= f) s t := by
  unfold Raises Gives Does at *
  simp [h, k]

theorem raises_first {a : Act α} {f : α → Act β} {s : State} {t : Trap} (h : Raises a s t) : Raises (a >>= f) s t := by
  unfold Raises at *
  simp [h]

end

end Sys2Proof.Machine
end

