-- ==== Sys2Proof/Laws/Maps.lean ====
section
/-! SUPPORT. Sparse maps: a read after a write, and the canonical form that every operation keeps. -/

namespace Sys2Proof.Machine

section
variable {w : Nat}

@[simp] theorem get_nil (k : Nat) : SMap.get ([] : SMap w) k = 0 := rfl

theorem get_put (m : SMap w) (k j : Nat) (v : BitVec w) : (m.put k v).get j = if j = k then v else m.get j := by
  induction m with
  | nil => by_cases h : j = k <;> simp [SMap.put, SMap.get, h, Ne.symm]
  | cons p rest ih =>
    obtain ⟨a, x⟩ := p
    unfold SMap.put
    split
    · by_cases h : j = k
      · simp [SMap.get, h]
      · simp [SMap.get, h, Ne.symm h]
    · split
      · subst_vars
        by_cases h : j = a
        · simp [SMap.get, h]
        · simp [SMap.get, h, Ne.symm h]
      · simp only [SMap.get, ih]
        by_cases h : a = j
        · subst h
          have : a ≠ k := fun e => by omega
          simp [this]
        · simp [h]

theorem get_filter (m : SMap w) (f : Nat → Bool) (j : Nat) :
    SMap.get (m.filter fun p => f p.1) j = if f j then m.get j else 0 := by
  induction m with
  | nil => simp
  | cons p rest ih =>
    obtain ⟨a, x⟩ := p
    by_cases ha : f a = true
    · simp only [List.filter_cons, ha, if_true, SMap.get]
      by_cases h : a = j
      · subst h; simp [ha]
      · simp [h, ih]
    · simp only [List.filter_cons, ha, SMap.get]
      by_cases h : a = j
      · subst h; simp [ih, ha]
      · simp [h, ih]

/-- A read after a write: the value at the written key, and every other as it was. -/
@[simp] theorem get_set (m : SMap w) (k j : Nat) (v : BitVec w) : (m.set k v).get j = if j = k then v else m.get j := by
  unfold SMap.set
  split
  · rename_i h
    rw [get_filter m (fun a => a != k) j]
    by_cases e : j = k <;> simp [e, h]
  · exact get_put m k j v

theorem get_keep (m : SMap w) (f : Nat → Bool) (j : Nat) : (m.keep f).get j = if f j then m.get j else 0 := get_filter m f j

theorem get_clear (m : SMap w) (lo hi j : Nat) : (m.clear lo hi).get j = if lo ≤ j ∧ j < hi then 0 else m.get j := by
  unfold SMap.clear
  rw [get_filter m (fun a => !(decide (lo ≤ a) && decide (a < hi))) j]
  by_cases h : lo ≤ j ∧ j < hi
  · simp [h]
  · by_cases h1 : lo ≤ j <;> by_cases h2 : j < hi <;> simp_all

theorem get_setRange (vs : List (BitVec w)) : ∀ (m : SMap w) (k j : Nat),
    (m.setRange k vs).get j = if k ≤ j ∧ j < k + vs.length then vs.getD (j - k) 0 else m.get j := by
  induction vs with
  | nil => intro m k j; simp [SMap.setRange]
  | cons v rest ih =>
    intro m k j
    simp only [SMap.setRange, ih, get_set, List.length_cons]
    by_cases h : j = k
    · subst h; simp
    · by_cases h' : k + 1 ≤ j ∧ j < k + 1 + rest.length
      · rw [if_pos h', if_pos (by omega)]
        obtain ⟨n, rfl⟩ : ∃ n, j = k + 1 + n := ⟨j - (k + 1), by omega⟩
        rw [show k + 1 + n - k = n + 1 by omega]
        simp
      · rw [if_neg h', if_neg h, if_neg (by omega)]

/-! ## The canonical form -/

theorem above_weaken {m : SMap w} {a b : Nat} (h : m.above b = true) (hab : a ≤ b) : m.above a = true := by
  cases m with
  | nil => rfl
  | cons p rest =>
    obtain ⟨k, x⟩ := p
    simp only [SMap.above, Bool.and_eq_true, decide_eq_true_eq] at *
    exact ⟨⟨by omega, h.1.2⟩, h.2⟩

theorem above_put {v : BitVec w} (hv : v ≠ 0) : ∀ {m : SMap w} {b k : Nat}, m.above b = true → b ≤ k → (m.put k v).above b = true := by
  intro m
  induction m with
  | nil => intro b k _ hb; simpa [SMap.put, SMap.above, hb] using hv
  | cons p rest ih =>
    obtain ⟨a, x⟩ := p
    intro b k h hb
    simp only [SMap.above, Bool.and_eq_true, decide_eq_true_eq] at h
    unfold SMap.put
    split
    · simp only [SMap.above, Bool.and_eq_true, decide_eq_true_eq]
      exact ⟨⟨hb, hv⟩, ⟨by omega, h.1.2⟩, h.2⟩
    · split
      · subst_vars
        simp only [SMap.above, Bool.and_eq_true, decide_eq_true_eq]
        exact ⟨⟨hb, hv⟩, h.2⟩
      · simp only [SMap.above, Bool.and_eq_true, decide_eq_true_eq]
        exact ⟨h.1, ih h.2 (by omega)⟩

theorem above_filter (f : Nat × BitVec w → Bool) : ∀ {m : SMap w} {b : Nat}, m.above b = true → SMap.above b (m.filter f) = true := by
  intro m
  induction m with
  | nil => intro b _; rfl
  | cons p rest ih =>
    obtain ⟨a, x⟩ := p
    intro b h
    simp only [SMap.above, Bool.and_eq_true, decide_eq_true_eq] at h
    simp only [List.filter_cons]
    split
    · simp only [SMap.above, Bool.and_eq_true, decide_eq_true_eq]
      exact ⟨h.1, ih h.2⟩
    · exact ih (above_weaken h.2 (by omega))

/-- Every operation on a sparse map keeps the canonical form. -/
@[simp] theorem set_wf (m : SMap w) (k : Nat) (v : BitVec w) (h : m.wf = true) : (m.set k v).wf = true := by
  unfold SMap.set SMap.wf
  split
  · exact above_filter _ h
  · exact above_put (by assumption) h (Nat.zero_le k)

@[simp] theorem keep_wf (m : SMap w) (f : Nat → Bool) (h : m.wf = true) : (m.keep f).wf = true := above_filter _ h
@[simp] theorem clear_wf (m : SMap w) (lo hi : Nat) (h : m.wf = true) : (m.clear lo hi).wf = true := above_filter _ h

@[simp] theorem setRange_wf (vs : List (BitVec w)) : ∀ (m : SMap w) (k : Nat), m.wf = true → (m.setRange k vs).wf = true := by
  induction vs with
  | nil => intro m k h; exact h
  | cons v rest ih => intro m k h; exact ih _ _ (set_wf m k v h)

end

/-! ## Bytes of memory -/

theorem find_put (m : List Host.Cell) (k j : Nat) (v : Byte) :
    Memory.find? (SMap.put m k v) j = if j = k then some v else Memory.find? m j := by
  induction m with
  | nil => by_cases h : j = k <;> simp [SMap.put, Memory.find?, h, Ne.symm]
  | cons p rest ih =>
    obtain ⟨a, x⟩ := p
    unfold SMap.put
    split
    · by_cases h : j = k
      · simp [Memory.find?, h]
      · simp [Memory.find?, h, Ne.symm h]
    · split
      · subst_vars
        by_cases h : j = a
        · simp [Memory.find?, h]
        · simp [Memory.find?, h, Ne.symm h]
      · simp only [Memory.find?, ih]
        by_cases h : a = j
        · subst h
          have : a ≠ k := fun e => by omega
          simp [this]
        · simp [h]

theorem find_filter (m : List Host.Cell) (f : Nat → Bool) (j : Nat) :
    Memory.find? (m.filter fun p => f p.1) j = if f j then Memory.find? m j else none := by
  induction m with
  | nil => simp [Memory.find?]
  | cons p rest ih =>
    obtain ⟨a, x⟩ := p
    by_cases ha : f a = true
    · simp only [List.filter_cons, ha, if_true, Memory.find?]
      by_cases h : a = j
      · subst h; simp [ha]
      · simp [h, ih]
    · simp only [List.filter_cons, ha, Memory.find?]
      by_cases h : a = j
      · subst h; simp [ih, ha]
      · simp [h, ih]

/-- A byte reads as written, every other as it was. -/
@[simp] theorem byte_setByte (s : State) (x y : Nat) (v : Byte) : (s.setByte x v).byte y = if y = x then v else s.byte y := by
  unfold State.setByte State.byte Memory.set
  simp only []
  split
  · rename_i h
    rw [find_filter s.mem (fun a => a != x) y]
    by_cases e : y = x
    · simp [e, h]
    · simp [e]
  · rw [find_put]
    by_cases e : y = x <;> simp [e]

theorem from_weaken {m : List Host.Cell} {a b : Nat} (h : Memory.from b m = true) (hab : a ≤ b) : Memory.from a m = true := by
  cases m with
  | nil => rfl
  | cons p rest =>
    obtain ⟨k, x⟩ := p
    simp only [Memory.from, Bool.and_eq_true, decide_eq_true_eq] at *
    exact ⟨⟨by omega, h.1.2⟩, h.2⟩

theorem from_put {x : Nat} {v : Byte} (hv : v ≠ resetByte x) : ∀ {m : List Host.Cell} {b : Nat}, Memory.from b m = true → b ≤ x → Memory.from b (SMap.put m x v) = true := by
  intro m
  induction m with
  | nil => intro b _ hb; simpa [SMap.put, Memory.from, hb] using hv
  | cons p rest ih =>
    obtain ⟨a, y⟩ := p
    intro b h hb
    simp only [Memory.from, Bool.and_eq_true, decide_eq_true_eq] at h
    unfold SMap.put
    split
    · simp only [Memory.from, Bool.and_eq_true, decide_eq_true_eq]
      exact ⟨⟨hb, hv⟩, ⟨by omega, h.1.2⟩, h.2⟩
    · split
      · subst_vars
        simp only [Memory.from, Bool.and_eq_true, decide_eq_true_eq]
        exact ⟨⟨hb, hv⟩, h.2⟩
      · simp only [Memory.from, Bool.and_eq_true, decide_eq_true_eq]
        exact ⟨h.1, ih h.2 (by omega)⟩

theorem from_filter (f : Host.Cell → Bool) : ∀ {m : List Host.Cell} {b : Nat}, Memory.from b m = true → Memory.from b (m.filter f) = true := by
  intro m
  induction m with
  | nil => intro b _; rfl
  | cons p rest ih =>
    obtain ⟨a, x⟩ := p
    intro b h
    simp only [Memory.from, Bool.and_eq_true, decide_eq_true_eq] at h
    simp only [List.filter_cons]
    split
    · simp only [Memory.from, Bool.and_eq_true, decide_eq_true_eq]
      exact ⟨h.1, ih h.2⟩
    · exact ih (from_weaken h.2 (by omega))

/-- Bytes removed from memory leave its form. -/
theorem filter_wf (m : List Host.Cell) (f : Host.Cell → Bool) (h : Memory.wf m = true) : Memory.wf (m.filter f) = true := from_filter f h

/-- A write keeps the canonical form. -/
theorem memSet_wf (m : List Host.Cell) (x : Nat) (v : Byte) (h : Memory.wf m = true) : Memory.wf (Memory.set m x v) = true := by
  unfold Memory.set
  split
  · exact from_filter _ h
  · exact from_put (by assumption) h (Nat.zero_le x)

/-- Equal memories read alike. -/
theorem byte_of_mem {s t : State} (h : t.mem = s.mem) (x : Nat) : t.byte x = s.byte x := by unfold State.byte; rw [h]

@[simp] theorem setByte_wf (s : State) (x : Nat) (v : Byte) (h : Memory.wf s.mem = true) : Memory.wf (s.setByte x v).mem = true := memSet_wf _ _ _ h

/-- Bytes written one after another keep the form. -/
theorem setBytes_wf (ws : List (Nat × Byte)) : ∀ s : State, Memory.wf s.mem = true → Memory.wf (s.setBytes ws).mem = true := by
  induction ws with
  | nil => intro s h; exact h
  | cons p rest ih => intro s h; exact ih _ (setByte_wf s p.1 p.2 h)

/-- Every store, by whomever it is made, keeps the canonical form. -/
theorem put_wf (s : State) (ws : List (Nat × Byte)) (h : Memory.wf s.mem = true) : Memory.wf (s.put ws).mem = true := setBytes_wf _ s h

theorem store_wf (s : State) (ws : List (Nat × Byte)) (h : Memory.wf s.mem = true) : Memory.wf (s.store ws).mem = true := by
  unfold State.store State.keepHost; split <;> exact put_wf s ws h

theorem devStore_wf (s : State) (ws : List (Nat × Byte)) (h : Memory.wf s.mem = true) : Memory.wf (s.devStore ws).mem = true := by
  unfold State.devStore; simp only []; split <;> exact put_wf s ws h

theorem loseHostStore_wf (s : State) (j : Nat) (h : Memory.wf s.mem = true) : Memory.wf (s.loseHostStore j).mem = true :=
  setBytes_wf _ s h

end Sys2Proof.Machine
end

