-- ==== Sys2Proof/Laws/State.lean ====
section
/-! SUPPORT. Beside State: what each update of the state leaves, one lemma for each field. -/

namespace Sys2Proof.Machine

/-! `setByte` leaves every field but `mem`. -/

@[simp] theorem State.setByte_schedule (s : State) (x : Nat) (v : Byte) : (s.setByte x v).schedule = s.schedule := rfl
@[simp] theorem State.setByte_steps (s : State) (x : Nat) (v : Byte) : (s.setByte x v).steps = s.steps := rfl
@[simp] theorem State.setByte_granted (s : State) (x : Nat) (v : Byte) : (s.setByte x v).granted = s.granted := rfl
@[simp] theorem State.setByte_slot (s : State) (x : Nat) (v : Byte) : (s.setByte x v).slot = s.slot := rfl
@[simp] theorem State.setByte_quarters (s : State) (x : Nat) (v : Byte) : (s.setByte x v).quarters = s.quarters := rfl
@[simp] theorem State.setByte_live (s : State) (x : Nat) (v : Byte) : (s.setByte x v).live = s.live := rfl
@[simp] theorem State.setByte_g (s : State) (x : Nat) (v : Byte) : (s.setByte x v).g = s.g := rfl
@[simp] theorem State.setByte_w (s : State) (x : Nat) (v : Byte) : (s.setByte x v).w = s.w := rfl
@[simp] theorem State.setByte_others (s : State) (x : Nat) (v : Byte) : (s.setByte x v).others = s.others := rfl
@[simp] theorem State.setByte_otherWgs (s : State) (x : Nat) (v : Byte) : (s.setByte x v).otherWgs = s.otherWgs := rfl
@[simp] theorem State.setByte_nodes (s : State) (x : Nat) (v : Byte) : (s.setByte x v).nodes = s.nodes := rfl
@[simp] theorem State.setByte_grants (s : State) (x : Nat) (v : Byte) : (s.setByte x v).grants = s.grants := rfl
@[simp] theorem State.setByte_channels (s : State) (x : Nat) (v : Byte) : (s.setByte x v).channels = s.channels := rfl
@[simp] theorem State.setByte_reductions (s : State) (x : Nat) (v : Byte) : (s.setByte x v).reductions = s.reductions := rfl
@[simp] theorem State.setByte_arrivals (s : State) (x : Nat) (v : Byte) : (s.setByte x v).arrivals = s.arrivals := rfl
@[simp] theorem State.setByte_soft (s : State) (x : Nat) (v : Byte) : (s.setByte x v).soft = s.soft := rfl
@[simp] theorem State.setByte_dirty (s : State) (x : Nat) (v : Byte) : (s.setByte x v).dirty = s.dirty := rfl
@[simp] theorem State.setByte_cmpLines (s : State) (x : Nat) (v : Byte) : (s.setByte x v).cmpLines = s.cmpLines := rfl
@[simp] theorem State.setByte_carried (s : State) (x : Nat) (v : Byte) : (s.setByte x v).carried = s.carried := rfl
@[simp] theorem State.setByte_cores (s : State) (x : Nat) (v : Byte) : (s.setByte x v).cores = s.cores := rfl
@[simp] theorem State.setByte_die0 (s : State) (x : Nat) (v : Byte) : (s.setByte x v).die0 = s.die0 := rfl
@[simp] theorem State.setByte_die1 (s : State) (x : Nat) (v : Byte) : (s.setByte x v).die1 = s.die1 := rfl
@[simp] theorem State.setByte_die2 (s : State) (x : Nat) (v : Byte) : (s.setByte x v).die2 = s.die2 := rfl
@[simp] theorem State.setByte_die3 (s : State) (x : Nat) (v : Byte) : (s.setByte x v).die3 = s.die3 := rfl
@[simp] theorem State.setByte_regs (s : State) (x : Nat) (v : Byte) : (s.setByte x v).regs = s.regs := rfl
@[simp] theorem State.setByte_frTicket (s : State) (x : Nat) (v : Byte) : (s.setByte x v).frTicket = s.frTicket := rfl
@[simp] theorem State.setByte_ovfCount (s : State) (x : Nat) (v : Byte) : (s.setByte x v).ovfCount = s.ovfCount := rfl
@[simp] theorem State.setByte_readyTicket (s : State) (x : Nat) (v : Byte) : (s.setByte x v).readyTicket = s.readyTicket := rfl
@[simp] theorem State.setByte_mapQueue (s : State) (x : Nat) (v : Byte) : (s.setByte x v).mapQueue = s.mapQueue := rfl
@[simp] theorem State.setByte_saveUsed (s : State) (x : Nat) (v : Byte) : (s.setByte x v).saveUsed = s.saveUsed := rfl
@[simp] theorem State.setByte_ctxUsed (s : State) (x : Nat) (v : Byte) : (s.setByte x v).ctxUsed = s.ctxUsed := rfl
@[simp] theorem State.setByte_poolUsed (s : State) (x : Nat) (v : Byte) : (s.setByte x v).poolUsed = s.poolUsed := rfl
@[simp] theorem State.setByte_twinInbox (s : State) (x : Nat) (v : Byte) : (s.setByte x v).twinInbox = s.twinInbox := rfl
@[simp] theorem State.setByte_twinSent (s : State) (x : Nat) (v : Byte) : (s.setByte x v).twinSent = s.twinSent := rfl
@[simp] theorem State.setByte_ranSince (s : State) (x : Nat) (v : Byte) : (s.setByte x v).ranSince = s.ranSince := rfl
@[simp] theorem State.setByte_unacked (s : State) (x : Nat) (v : Byte) : (s.setByte x v).unacked = s.unacked := rfl
@[simp] theorem State.setByte_routes (s : State) (x : Nat) (v : Byte) : (s.setByte x v).routes = s.routes := rfl
@[simp] theorem State.setByte_msixTable (s : State) (x : Nat) (v : Byte) : (s.setByte x v).msixTable = s.msixTable := rfl
@[simp] theorem State.setByte_msixPending (s : State) (x : Nat) (v : Byte) : (s.setByte x v).msixPending = s.msixPending := rfl
@[simp] theorem State.setByte_msixSent (s : State) (x : Nat) (v : Byte) : (s.setByte x v).msixSent = s.msixSent := rfl
@[simp] theorem State.setByte_recovery (s : State) (x : Nat) (v : Byte) : (s.setByte x v).recovery = s.recovery := rfl
@[simp] theorem State.setByte_leaves (s : State) (x : Nat) (v : Byte) : (s.setByte x v).leaves = s.leaves := rfl
@[simp] theorem State.setByte_perst (s : State) (x : Nat) (v : Byte) : (s.setByte x v).perst = s.perst := rfl
@[simp] theorem State.setByte_released (s : State) (x : Nat) (v : Byte) : (s.setByte x v).released = s.released := rfl
@[simp] theorem State.setByte_tripped (s : State) (x : Nat) (v : Byte) : (s.setByte x v).tripped = s.tripped := rfl
@[simp] theorem State.setByte_sincePerst (s : State) (x : Nat) (v : Byte) : (s.setByte x v).sincePerst = s.sincePerst := rfl
@[simp] theorem State.setByte_firmware (s : State) (x : Nat) (v : Byte) : (s.setByte x v).firmware = s.firmware := rfl
@[simp] theorem State.setByte_hostStores (s : State) (x : Nat) (v : Byte) : (s.setByte x v).hostStores = s.hostStores := rfl
@[simp] theorem State.setByte_held (s : State) (x : Nat) (v : Byte) : (s.setByte x v).held = s.held := rfl
@[simp] theorem State.setByte_hostReplies (s : State) (x : Nat) (v : Byte) : (s.setByte x v).hostReplies = s.hostReplies := rfl

/-! `setPath` leaves every field but `g`. -/

@[simp] theorem State.setPath_schedule (s : State) (p : Path) : (s.setPath p).schedule = s.schedule := rfl
@[simp] theorem State.setPath_steps (s : State) (p : Path) : (s.setPath p).steps = s.steps := rfl
@[simp] theorem State.setPath_granted (s : State) (p : Path) : (s.setPath p).granted = s.granted := rfl
@[simp] theorem State.setPath_slot (s : State) (p : Path) : (s.setPath p).slot = s.slot := rfl
@[simp] theorem State.setPath_quarters (s : State) (p : Path) : (s.setPath p).quarters = s.quarters := rfl
@[simp] theorem State.setPath_live (s : State) (p : Path) : (s.setPath p).live = s.live := rfl
@[simp] theorem State.setPath_w (s : State) (p : Path) : (s.setPath p).w = s.w := rfl
@[simp] theorem State.setPath_others (s : State) (p : Path) : (s.setPath p).others = s.others := rfl
@[simp] theorem State.setPath_otherWgs (s : State) (p : Path) : (s.setPath p).otherWgs = s.otherWgs := rfl
@[simp] theorem State.setPath_nodes (s : State) (p : Path) : (s.setPath p).nodes = s.nodes := rfl
@[simp] theorem State.setPath_grants (s : State) (p : Path) : (s.setPath p).grants = s.grants := rfl
@[simp] theorem State.setPath_channels (s : State) (p : Path) : (s.setPath p).channels = s.channels := rfl
@[simp] theorem State.setPath_reductions (s : State) (p : Path) : (s.setPath p).reductions = s.reductions := rfl
@[simp] theorem State.setPath_arrivals (s : State) (p : Path) : (s.setPath p).arrivals = s.arrivals := rfl
@[simp] theorem State.setPath_mem (s : State) (p : Path) : (s.setPath p).mem = s.mem := rfl
@[simp] theorem State.setPath_soft (s : State) (p : Path) : (s.setPath p).soft = s.soft := rfl
@[simp] theorem State.setPath_dirty (s : State) (p : Path) : (s.setPath p).dirty = s.dirty := rfl
@[simp] theorem State.setPath_cmpLines (s : State) (p : Path) : (s.setPath p).cmpLines = s.cmpLines := rfl
@[simp] theorem State.setPath_carried (s : State) (p : Path) : (s.setPath p).carried = s.carried := rfl
@[simp] theorem State.setPath_cores (s : State) (p : Path) : (s.setPath p).cores = s.cores := rfl
@[simp] theorem State.setPath_die0 (s : State) (p : Path) : (s.setPath p).die0 = s.die0 := rfl
@[simp] theorem State.setPath_die1 (s : State) (p : Path) : (s.setPath p).die1 = s.die1 := rfl
@[simp] theorem State.setPath_die2 (s : State) (p : Path) : (s.setPath p).die2 = s.die2 := rfl
@[simp] theorem State.setPath_die3 (s : State) (p : Path) : (s.setPath p).die3 = s.die3 := rfl
@[simp] theorem State.setPath_regs (s : State) (p : Path) : (s.setPath p).regs = s.regs := rfl
@[simp] theorem State.setPath_frTicket (s : State) (p : Path) : (s.setPath p).frTicket = s.frTicket := rfl
@[simp] theorem State.setPath_ovfCount (s : State) (p : Path) : (s.setPath p).ovfCount = s.ovfCount := rfl
@[simp] theorem State.setPath_readyTicket (s : State) (p : Path) : (s.setPath p).readyTicket = s.readyTicket := rfl
@[simp] theorem State.setPath_mapQueue (s : State) (p : Path) : (s.setPath p).mapQueue = s.mapQueue := rfl
@[simp] theorem State.setPath_saveUsed (s : State) (p : Path) : (s.setPath p).saveUsed = s.saveUsed := rfl
@[simp] theorem State.setPath_ctxUsed (s : State) (p : Path) : (s.setPath p).ctxUsed = s.ctxUsed := rfl
@[simp] theorem State.setPath_poolUsed (s : State) (p : Path) : (s.setPath p).poolUsed = s.poolUsed := rfl
@[simp] theorem State.setPath_twinInbox (s : State) (p : Path) : (s.setPath p).twinInbox = s.twinInbox := rfl
@[simp] theorem State.setPath_twinSent (s : State) (p : Path) : (s.setPath p).twinSent = s.twinSent := rfl
@[simp] theorem State.setPath_ranSince (s : State) (p : Path) : (s.setPath p).ranSince = s.ranSince := rfl
@[simp] theorem State.setPath_unacked (s : State) (p : Path) : (s.setPath p).unacked = s.unacked := rfl
@[simp] theorem State.setPath_routes (s : State) (p : Path) : (s.setPath p).routes = s.routes := rfl
@[simp] theorem State.setPath_msixTable (s : State) (p : Path) : (s.setPath p).msixTable = s.msixTable := rfl
@[simp] theorem State.setPath_msixPending (s : State) (p : Path) : (s.setPath p).msixPending = s.msixPending := rfl
@[simp] theorem State.setPath_msixSent (s : State) (p : Path) : (s.setPath p).msixSent = s.msixSent := rfl
@[simp] theorem State.setPath_recovery (s : State) (p : Path) : (s.setPath p).recovery = s.recovery := rfl
@[simp] theorem State.setPath_leaves (s : State) (p : Path) : (s.setPath p).leaves = s.leaves := rfl
@[simp] theorem State.setPath_perst (s : State) (p : Path) : (s.setPath p).perst = s.perst := rfl
@[simp] theorem State.setPath_released (s : State) (p : Path) : (s.setPath p).released = s.released := rfl
@[simp] theorem State.setPath_tripped (s : State) (p : Path) : (s.setPath p).tripped = s.tripped := rfl
@[simp] theorem State.setPath_sincePerst (s : State) (p : Path) : (s.setPath p).sincePerst = s.sincePerst := rfl
@[simp] theorem State.setPath_firmware (s : State) (p : Path) : (s.setPath p).firmware = s.firmware := rfl
@[simp] theorem State.setPath_hostStores (s : State) (p : Path) : (s.setPath p).hostStores = s.hostStores := rfl
@[simp] theorem State.setPath_held (s : State) (p : Path) : (s.setPath p).held = s.held := rfl
@[simp] theorem State.setPath_hostReplies (s : State) (p : Path) : (s.setPath p).hostReplies = s.hostReplies := rfl

/-! `stick` leaves every field but `g`. -/

@[simp] theorem State.stick_schedule (s : State) (i : Nat) : (s.stick i).schedule = s.schedule := rfl
@[simp] theorem State.stick_steps (s : State) (i : Nat) : (s.stick i).steps = s.steps := rfl
@[simp] theorem State.stick_granted (s : State) (i : Nat) : (s.stick i).granted = s.granted := rfl
@[simp] theorem State.stick_slot (s : State) (i : Nat) : (s.stick i).slot = s.slot := rfl
@[simp] theorem State.stick_quarters (s : State) (i : Nat) : (s.stick i).quarters = s.quarters := rfl
@[simp] theorem State.stick_live (s : State) (i : Nat) : (s.stick i).live = s.live := rfl
@[simp] theorem State.stick_w (s : State) (i : Nat) : (s.stick i).w = s.w := rfl
@[simp] theorem State.stick_others (s : State) (i : Nat) : (s.stick i).others = s.others := rfl
@[simp] theorem State.stick_otherWgs (s : State) (i : Nat) : (s.stick i).otherWgs = s.otherWgs := rfl
@[simp] theorem State.stick_nodes (s : State) (i : Nat) : (s.stick i).nodes = s.nodes := rfl
@[simp] theorem State.stick_grants (s : State) (i : Nat) : (s.stick i).grants = s.grants := rfl
@[simp] theorem State.stick_channels (s : State) (i : Nat) : (s.stick i).channels = s.channels := rfl
@[simp] theorem State.stick_reductions (s : State) (i : Nat) : (s.stick i).reductions = s.reductions := rfl
@[simp] theorem State.stick_arrivals (s : State) (i : Nat) : (s.stick i).arrivals = s.arrivals := rfl
@[simp] theorem State.stick_mem (s : State) (i : Nat) : (s.stick i).mem = s.mem := rfl
@[simp] theorem State.stick_soft (s : State) (i : Nat) : (s.stick i).soft = s.soft := rfl
@[simp] theorem State.stick_dirty (s : State) (i : Nat) : (s.stick i).dirty = s.dirty := rfl
@[simp] theorem State.stick_cmpLines (s : State) (i : Nat) : (s.stick i).cmpLines = s.cmpLines := rfl
@[simp] theorem State.stick_carried (s : State) (i : Nat) : (s.stick i).carried = s.carried := rfl
@[simp] theorem State.stick_cores (s : State) (i : Nat) : (s.stick i).cores = s.cores := rfl
@[simp] theorem State.stick_die0 (s : State) (i : Nat) : (s.stick i).die0 = s.die0 := rfl
@[simp] theorem State.stick_die1 (s : State) (i : Nat) : (s.stick i).die1 = s.die1 := rfl
@[simp] theorem State.stick_die2 (s : State) (i : Nat) : (s.stick i).die2 = s.die2 := rfl
@[simp] theorem State.stick_die3 (s : State) (i : Nat) : (s.stick i).die3 = s.die3 := rfl
@[simp] theorem State.stick_regs (s : State) (i : Nat) : (s.stick i).regs = s.regs := rfl
@[simp] theorem State.stick_frTicket (s : State) (i : Nat) : (s.stick i).frTicket = s.frTicket := rfl
@[simp] theorem State.stick_ovfCount (s : State) (i : Nat) : (s.stick i).ovfCount = s.ovfCount := rfl
@[simp] theorem State.stick_readyTicket (s : State) (i : Nat) : (s.stick i).readyTicket = s.readyTicket := rfl
@[simp] theorem State.stick_mapQueue (s : State) (i : Nat) : (s.stick i).mapQueue = s.mapQueue := rfl
@[simp] theorem State.stick_saveUsed (s : State) (i : Nat) : (s.stick i).saveUsed = s.saveUsed := rfl
@[simp] theorem State.stick_ctxUsed (s : State) (i : Nat) : (s.stick i).ctxUsed = s.ctxUsed := rfl
@[simp] theorem State.stick_poolUsed (s : State) (i : Nat) : (s.stick i).poolUsed = s.poolUsed := rfl
@[simp] theorem State.stick_twinInbox (s : State) (i : Nat) : (s.stick i).twinInbox = s.twinInbox := rfl
@[simp] theorem State.stick_twinSent (s : State) (i : Nat) : (s.stick i).twinSent = s.twinSent := rfl
@[simp] theorem State.stick_ranSince (s : State) (i : Nat) : (s.stick i).ranSince = s.ranSince := rfl
@[simp] theorem State.stick_unacked (s : State) (i : Nat) : (s.stick i).unacked = s.unacked := rfl
@[simp] theorem State.stick_routes (s : State) (i : Nat) : (s.stick i).routes = s.routes := rfl
@[simp] theorem State.stick_msixTable (s : State) (i : Nat) : (s.stick i).msixTable = s.msixTable := rfl
@[simp] theorem State.stick_msixPending (s : State) (i : Nat) : (s.stick i).msixPending = s.msixPending := rfl
@[simp] theorem State.stick_msixSent (s : State) (i : Nat) : (s.stick i).msixSent = s.msixSent := rfl
@[simp] theorem State.stick_recovery (s : State) (i : Nat) : (s.stick i).recovery = s.recovery := rfl
@[simp] theorem State.stick_leaves (s : State) (i : Nat) : (s.stick i).leaves = s.leaves := rfl
@[simp] theorem State.stick_perst (s : State) (i : Nat) : (s.stick i).perst = s.perst := rfl
@[simp] theorem State.stick_released (s : State) (i : Nat) : (s.stick i).released = s.released := rfl
@[simp] theorem State.stick_tripped (s : State) (i : Nat) : (s.stick i).tripped = s.tripped := rfl
@[simp] theorem State.stick_sincePerst (s : State) (i : Nat) : (s.stick i).sincePerst = s.sincePerst := rfl
@[simp] theorem State.stick_firmware (s : State) (i : Nat) : (s.stick i).firmware = s.firmware := rfl
@[simp] theorem State.stick_hostStores (s : State) (i : Nat) : (s.stick i).hostStores = s.hostStores := rfl
@[simp] theorem State.stick_held (s : State) (i : Nat) : (s.stick i).held = s.held := rfl
@[simp] theorem State.stick_hostReplies (s : State) (i : Nat) : (s.stick i).hostReplies = s.hostReplies := rfl

/-! `unhang` leaves every field but `g`. -/

@[simp] theorem State.unhang_schedule (s : State) : (s.unhang).schedule = s.schedule := rfl
@[simp] theorem State.unhang_steps (s : State) : (s.unhang).steps = s.steps := rfl
@[simp] theorem State.unhang_granted (s : State) : (s.unhang).granted = s.granted := rfl
@[simp] theorem State.unhang_slot (s : State) : (s.unhang).slot = s.slot := rfl
@[simp] theorem State.unhang_quarters (s : State) : (s.unhang).quarters = s.quarters := rfl
@[simp] theorem State.unhang_live (s : State) : (s.unhang).live = s.live := rfl
@[simp] theorem State.unhang_w (s : State) : (s.unhang).w = s.w := rfl
@[simp] theorem State.unhang_others (s : State) : (s.unhang).others = s.others := rfl
@[simp] theorem State.unhang_otherWgs (s : State) : (s.unhang).otherWgs = s.otherWgs := rfl
@[simp] theorem State.unhang_nodes (s : State) : (s.unhang).nodes = s.nodes := rfl
@[simp] theorem State.unhang_grants (s : State) : (s.unhang).grants = s.grants := rfl
@[simp] theorem State.unhang_channels (s : State) : (s.unhang).channels = s.channels := rfl
@[simp] theorem State.unhang_reductions (s : State) : (s.unhang).reductions = s.reductions := rfl
@[simp] theorem State.unhang_arrivals (s : State) : (s.unhang).arrivals = s.arrivals := rfl
@[simp] theorem State.unhang_mem (s : State) : (s.unhang).mem = s.mem := rfl
@[simp] theorem State.unhang_soft (s : State) : (s.unhang).soft = s.soft := rfl
@[simp] theorem State.unhang_dirty (s : State) : (s.unhang).dirty = s.dirty := rfl
@[simp] theorem State.unhang_cmpLines (s : State) : (s.unhang).cmpLines = s.cmpLines := rfl
@[simp] theorem State.unhang_carried (s : State) : (s.unhang).carried = s.carried := rfl
@[simp] theorem State.unhang_cores (s : State) : (s.unhang).cores = s.cores := rfl
@[simp] theorem State.unhang_die0 (s : State) : (s.unhang).die0 = s.die0 := rfl
@[simp] theorem State.unhang_die1 (s : State) : (s.unhang).die1 = s.die1 := rfl
@[simp] theorem State.unhang_die2 (s : State) : (s.unhang).die2 = s.die2 := rfl
@[simp] theorem State.unhang_die3 (s : State) : (s.unhang).die3 = s.die3 := rfl
@[simp] theorem State.unhang_regs (s : State) : (s.unhang).regs = s.regs := rfl
@[simp] theorem State.unhang_frTicket (s : State) : (s.unhang).frTicket = s.frTicket := rfl
@[simp] theorem State.unhang_ovfCount (s : State) : (s.unhang).ovfCount = s.ovfCount := rfl
@[simp] theorem State.unhang_readyTicket (s : State) : (s.unhang).readyTicket = s.readyTicket := rfl
@[simp] theorem State.unhang_mapQueue (s : State) : (s.unhang).mapQueue = s.mapQueue := rfl
@[simp] theorem State.unhang_saveUsed (s : State) : (s.unhang).saveUsed = s.saveUsed := rfl
@[simp] theorem State.unhang_ctxUsed (s : State) : (s.unhang).ctxUsed = s.ctxUsed := rfl
@[simp] theorem State.unhang_poolUsed (s : State) : (s.unhang).poolUsed = s.poolUsed := rfl
@[simp] theorem State.unhang_twinInbox (s : State) : (s.unhang).twinInbox = s.twinInbox := rfl
@[simp] theorem State.unhang_twinSent (s : State) : (s.unhang).twinSent = s.twinSent := rfl
@[simp] theorem State.unhang_ranSince (s : State) : (s.unhang).ranSince = s.ranSince := rfl
@[simp] theorem State.unhang_unacked (s : State) : (s.unhang).unacked = s.unacked := rfl
@[simp] theorem State.unhang_routes (s : State) : (s.unhang).routes = s.routes := rfl
@[simp] theorem State.unhang_msixTable (s : State) : (s.unhang).msixTable = s.msixTable := rfl
@[simp] theorem State.unhang_msixPending (s : State) : (s.unhang).msixPending = s.msixPending := rfl
@[simp] theorem State.unhang_msixSent (s : State) : (s.unhang).msixSent = s.msixSent := rfl
@[simp] theorem State.unhang_recovery (s : State) : (s.unhang).recovery = s.recovery := rfl
@[simp] theorem State.unhang_leaves (s : State) : (s.unhang).leaves = s.leaves := rfl
@[simp] theorem State.unhang_perst (s : State) : (s.unhang).perst = s.perst := rfl
@[simp] theorem State.unhang_released (s : State) : (s.unhang).released = s.released := rfl
@[simp] theorem State.unhang_tripped (s : State) : (s.unhang).tripped = s.tripped := rfl
@[simp] theorem State.unhang_sincePerst (s : State) : (s.unhang).sincePerst = s.sincePerst := rfl
@[simp] theorem State.unhang_firmware (s : State) : (s.unhang).firmware = s.firmware := rfl
@[simp] theorem State.unhang_hostStores (s : State) : (s.unhang).hostStores = s.hostStores := rfl
@[simp] theorem State.unhang_held (s : State) : (s.unhang).held = s.held := rfl
@[simp] theorem State.unhang_hostReplies (s : State) : (s.unhang).hostReplies = s.hostReplies := rfl

/-! `unsoft` leaves every field but `soft`. -/

@[simp] theorem State.unsoft_schedule (s : State) (ts : List PoisonTarget) : (s.unsoft ts).schedule = s.schedule := by unfold State.unsoft; split <;> rfl
@[simp] theorem State.unsoft_steps (s : State) (ts : List PoisonTarget) : (s.unsoft ts).steps = s.steps := by unfold State.unsoft; split <;> rfl
@[simp] theorem State.unsoft_granted (s : State) (ts : List PoisonTarget) : (s.unsoft ts).granted = s.granted := by unfold State.unsoft; split <;> rfl
@[simp] theorem State.unsoft_slot (s : State) (ts : List PoisonTarget) : (s.unsoft ts).slot = s.slot := by unfold State.unsoft; split <;> rfl
@[simp] theorem State.unsoft_quarters (s : State) (ts : List PoisonTarget) : (s.unsoft ts).quarters = s.quarters := by unfold State.unsoft; split <;> rfl
@[simp] theorem State.unsoft_live (s : State) (ts : List PoisonTarget) : (s.unsoft ts).live = s.live := by unfold State.unsoft; split <;> rfl
@[simp] theorem State.unsoft_g (s : State) (ts : List PoisonTarget) : (s.unsoft ts).g = s.g := by unfold State.unsoft; split <;> rfl
@[simp] theorem State.unsoft_w (s : State) (ts : List PoisonTarget) : (s.unsoft ts).w = s.w := by unfold State.unsoft; split <;> rfl
@[simp] theorem State.unsoft_others (s : State) (ts : List PoisonTarget) : (s.unsoft ts).others = s.others := by unfold State.unsoft; split <;> rfl
@[simp] theorem State.unsoft_otherWgs (s : State) (ts : List PoisonTarget) : (s.unsoft ts).otherWgs = s.otherWgs := by unfold State.unsoft; split <;> rfl
@[simp] theorem State.unsoft_nodes (s : State) (ts : List PoisonTarget) : (s.unsoft ts).nodes = s.nodes := by unfold State.unsoft; split <;> rfl
@[simp] theorem State.unsoft_grants (s : State) (ts : List PoisonTarget) : (s.unsoft ts).grants = s.grants := by unfold State.unsoft; split <;> rfl
@[simp] theorem State.unsoft_channels (s : State) (ts : List PoisonTarget) : (s.unsoft ts).channels = s.channels := by unfold State.unsoft; split <;> rfl
@[simp] theorem State.unsoft_reductions (s : State) (ts : List PoisonTarget) : (s.unsoft ts).reductions = s.reductions := by unfold State.unsoft; split <;> rfl
@[simp] theorem State.unsoft_arrivals (s : State) (ts : List PoisonTarget) : (s.unsoft ts).arrivals = s.arrivals := by unfold State.unsoft; split <;> rfl
@[simp] theorem State.unsoft_mem (s : State) (ts : List PoisonTarget) : (s.unsoft ts).mem = s.mem := by unfold State.unsoft; split <;> rfl
@[simp] theorem State.unsoft_dirty (s : State) (ts : List PoisonTarget) : (s.unsoft ts).dirty = s.dirty := by unfold State.unsoft; split <;> rfl
@[simp] theorem State.unsoft_cmpLines (s : State) (ts : List PoisonTarget) : (s.unsoft ts).cmpLines = s.cmpLines := by unfold State.unsoft; split <;> rfl
@[simp] theorem State.unsoft_carried (s : State) (ts : List PoisonTarget) : (s.unsoft ts).carried = s.carried := by unfold State.unsoft; split <;> rfl
@[simp] theorem State.unsoft_cores (s : State) (ts : List PoisonTarget) : (s.unsoft ts).cores = s.cores := by unfold State.unsoft; split <;> rfl
@[simp] theorem State.unsoft_die0 (s : State) (ts : List PoisonTarget) : (s.unsoft ts).die0 = s.die0 := by unfold State.unsoft; split <;> rfl
@[simp] theorem State.unsoft_die1 (s : State) (ts : List PoisonTarget) : (s.unsoft ts).die1 = s.die1 := by unfold State.unsoft; split <;> rfl
@[simp] theorem State.unsoft_die2 (s : State) (ts : List PoisonTarget) : (s.unsoft ts).die2 = s.die2 := by unfold State.unsoft; split <;> rfl
@[simp] theorem State.unsoft_die3 (s : State) (ts : List PoisonTarget) : (s.unsoft ts).die3 = s.die3 := by unfold State.unsoft; split <;> rfl
@[simp] theorem State.unsoft_regs (s : State) (ts : List PoisonTarget) : (s.unsoft ts).regs = s.regs := by unfold State.unsoft; split <;> rfl
@[simp] theorem State.unsoft_frTicket (s : State) (ts : List PoisonTarget) : (s.unsoft ts).frTicket = s.frTicket := by unfold State.unsoft; split <;> rfl
@[simp] theorem State.unsoft_ovfCount (s : State) (ts : List PoisonTarget) : (s.unsoft ts).ovfCount = s.ovfCount := by unfold State.unsoft; split <;> rfl
@[simp] theorem State.unsoft_readyTicket (s : State) (ts : List PoisonTarget) : (s.unsoft ts).readyTicket = s.readyTicket := by unfold State.unsoft; split <;> rfl
@[simp] theorem State.unsoft_mapQueue (s : State) (ts : List PoisonTarget) : (s.unsoft ts).mapQueue = s.mapQueue := by unfold State.unsoft; split <;> rfl
@[simp] theorem State.unsoft_saveUsed (s : State) (ts : List PoisonTarget) : (s.unsoft ts).saveUsed = s.saveUsed := by unfold State.unsoft; split <;> rfl
@[simp] theorem State.unsoft_ctxUsed (s : State) (ts : List PoisonTarget) : (s.unsoft ts).ctxUsed = s.ctxUsed := by unfold State.unsoft; split <;> rfl
@[simp] theorem State.unsoft_poolUsed (s : State) (ts : List PoisonTarget) : (s.unsoft ts).poolUsed = s.poolUsed := by unfold State.unsoft; split <;> rfl
@[simp] theorem State.unsoft_twinInbox (s : State) (ts : List PoisonTarget) : (s.unsoft ts).twinInbox = s.twinInbox := by unfold State.unsoft; split <;> rfl
@[simp] theorem State.unsoft_twinSent (s : State) (ts : List PoisonTarget) : (s.unsoft ts).twinSent = s.twinSent := by unfold State.unsoft; split <;> rfl
@[simp] theorem State.unsoft_ranSince (s : State) (ts : List PoisonTarget) : (s.unsoft ts).ranSince = s.ranSince := by unfold State.unsoft; split <;> rfl
@[simp] theorem State.unsoft_unacked (s : State) (ts : List PoisonTarget) : (s.unsoft ts).unacked = s.unacked := by unfold State.unsoft; split <;> rfl
@[simp] theorem State.unsoft_routes (s : State) (ts : List PoisonTarget) : (s.unsoft ts).routes = s.routes := by unfold State.unsoft; split <;> rfl
@[simp] theorem State.unsoft_msixTable (s : State) (ts : List PoisonTarget) : (s.unsoft ts).msixTable = s.msixTable := by unfold State.unsoft; split <;> rfl
@[simp] theorem State.unsoft_msixPending (s : State) (ts : List PoisonTarget) : (s.unsoft ts).msixPending = s.msixPending := by unfold State.unsoft; split <;> rfl
@[simp] theorem State.unsoft_msixSent (s : State) (ts : List PoisonTarget) : (s.unsoft ts).msixSent = s.msixSent := by unfold State.unsoft; split <;> rfl
@[simp] theorem State.unsoft_recovery (s : State) (ts : List PoisonTarget) : (s.unsoft ts).recovery = s.recovery := by unfold State.unsoft; split <;> rfl
@[simp] theorem State.unsoft_leaves (s : State) (ts : List PoisonTarget) : (s.unsoft ts).leaves = s.leaves := by unfold State.unsoft; split <;> rfl
@[simp] theorem State.unsoft_perst (s : State) (ts : List PoisonTarget) : (s.unsoft ts).perst = s.perst := by unfold State.unsoft; split <;> rfl
@[simp] theorem State.unsoft_released (s : State) (ts : List PoisonTarget) : (s.unsoft ts).released = s.released := by unfold State.unsoft; split <;> rfl
@[simp] theorem State.unsoft_tripped (s : State) (ts : List PoisonTarget) : (s.unsoft ts).tripped = s.tripped := by unfold State.unsoft; split <;> rfl
@[simp] theorem State.unsoft_sincePerst (s : State) (ts : List PoisonTarget) : (s.unsoft ts).sincePerst = s.sincePerst := by unfold State.unsoft; split <;> rfl
@[simp] theorem State.unsoft_firmware (s : State) (ts : List PoisonTarget) : (s.unsoft ts).firmware = s.firmware := by unfold State.unsoft; split <;> rfl
@[simp] theorem State.unsoft_hostStores (s : State) (ts : List PoisonTarget) : (s.unsoft ts).hostStores = s.hostStores := by unfold State.unsoft; split <;> rfl
@[simp] theorem State.unsoft_held (s : State) (ts : List PoisonTarget) : (s.unsoft ts).held = s.held := by unfold State.unsoft; split <;> rfl
@[simp] theorem State.unsoft_hostReplies (s : State) (ts : List PoisonTarget) : (s.unsoft ts).hostReplies = s.hostReplies := by unfold State.unsoft; split <;> rfl

/-! `setS` leaves every field but `g`, `soft`. -/

@[simp] theorem State.setS_schedule (s : State) (n : BitVec 7) (v : Word64) : (s.setS n v).schedule = s.schedule := by simp [State.setS]
@[simp] theorem State.setS_steps (s : State) (n : BitVec 7) (v : Word64) : (s.setS n v).steps = s.steps := by simp [State.setS]
@[simp] theorem State.setS_granted (s : State) (n : BitVec 7) (v : Word64) : (s.setS n v).granted = s.granted := by simp [State.setS]
@[simp] theorem State.setS_slot (s : State) (n : BitVec 7) (v : Word64) : (s.setS n v).slot = s.slot := by simp [State.setS]
@[simp] theorem State.setS_quarters (s : State) (n : BitVec 7) (v : Word64) : (s.setS n v).quarters = s.quarters := by simp [State.setS]
@[simp] theorem State.setS_live (s : State) (n : BitVec 7) (v : Word64) : (s.setS n v).live = s.live := by simp [State.setS]
@[simp] theorem State.setS_w (s : State) (n : BitVec 7) (v : Word64) : (s.setS n v).w = s.w := by simp [State.setS]
@[simp] theorem State.setS_others (s : State) (n : BitVec 7) (v : Word64) : (s.setS n v).others = s.others := by simp [State.setS]
@[simp] theorem State.setS_otherWgs (s : State) (n : BitVec 7) (v : Word64) : (s.setS n v).otherWgs = s.otherWgs := by simp [State.setS]
@[simp] theorem State.setS_nodes (s : State) (n : BitVec 7) (v : Word64) : (s.setS n v).nodes = s.nodes := by simp [State.setS]
@[simp] theorem State.setS_grants (s : State) (n : BitVec 7) (v : Word64) : (s.setS n v).grants = s.grants := by simp [State.setS]
@[simp] theorem State.setS_channels (s : State) (n : BitVec 7) (v : Word64) : (s.setS n v).channels = s.channels := by simp [State.setS]
@[simp] theorem State.setS_reductions (s : State) (n : BitVec 7) (v : Word64) : (s.setS n v).reductions = s.reductions := by simp [State.setS]
@[simp] theorem State.setS_arrivals (s : State) (n : BitVec 7) (v : Word64) : (s.setS n v).arrivals = s.arrivals := by simp [State.setS]
@[simp] theorem State.setS_mem (s : State) (n : BitVec 7) (v : Word64) : (s.setS n v).mem = s.mem := by simp [State.setS]
@[simp] theorem State.setS_dirty (s : State) (n : BitVec 7) (v : Word64) : (s.setS n v).dirty = s.dirty := by simp [State.setS]
@[simp] theorem State.setS_cmpLines (s : State) (n : BitVec 7) (v : Word64) : (s.setS n v).cmpLines = s.cmpLines := by simp [State.setS]
@[simp] theorem State.setS_carried (s : State) (n : BitVec 7) (v : Word64) : (s.setS n v).carried = s.carried := by simp [State.setS]
@[simp] theorem State.setS_cores (s : State) (n : BitVec 7) (v : Word64) : (s.setS n v).cores = s.cores := by simp [State.setS]
@[simp] theorem State.setS_die0 (s : State) (n : BitVec 7) (v : Word64) : (s.setS n v).die0 = s.die0 := by simp [State.setS]
@[simp] theorem State.setS_die1 (s : State) (n : BitVec 7) (v : Word64) : (s.setS n v).die1 = s.die1 := by simp [State.setS]
@[simp] theorem State.setS_die2 (s : State) (n : BitVec 7) (v : Word64) : (s.setS n v).die2 = s.die2 := by simp [State.setS]
@[simp] theorem State.setS_die3 (s : State) (n : BitVec 7) (v : Word64) : (s.setS n v).die3 = s.die3 := by simp [State.setS]
@[simp] theorem State.setS_regs (s : State) (n : BitVec 7) (v : Word64) : (s.setS n v).regs = s.regs := by simp [State.setS]
@[simp] theorem State.setS_frTicket (s : State) (n : BitVec 7) (v : Word64) : (s.setS n v).frTicket = s.frTicket := by simp [State.setS]
@[simp] theorem State.setS_ovfCount (s : State) (n : BitVec 7) (v : Word64) : (s.setS n v).ovfCount = s.ovfCount := by simp [State.setS]
@[simp] theorem State.setS_readyTicket (s : State) (n : BitVec 7) (v : Word64) : (s.setS n v).readyTicket = s.readyTicket := by simp [State.setS]
@[simp] theorem State.setS_mapQueue (s : State) (n : BitVec 7) (v : Word64) : (s.setS n v).mapQueue = s.mapQueue := by simp [State.setS]
@[simp] theorem State.setS_saveUsed (s : State) (n : BitVec 7) (v : Word64) : (s.setS n v).saveUsed = s.saveUsed := by simp [State.setS]
@[simp] theorem State.setS_ctxUsed (s : State) (n : BitVec 7) (v : Word64) : (s.setS n v).ctxUsed = s.ctxUsed := by simp [State.setS]
@[simp] theorem State.setS_poolUsed (s : State) (n : BitVec 7) (v : Word64) : (s.setS n v).poolUsed = s.poolUsed := by simp [State.setS]
@[simp] theorem State.setS_twinInbox (s : State) (n : BitVec 7) (v : Word64) : (s.setS n v).twinInbox = s.twinInbox := by simp [State.setS]
@[simp] theorem State.setS_twinSent (s : State) (n : BitVec 7) (v : Word64) : (s.setS n v).twinSent = s.twinSent := by simp [State.setS]
@[simp] theorem State.setS_ranSince (s : State) (n : BitVec 7) (v : Word64) : (s.setS n v).ranSince = s.ranSince := by simp [State.setS]
@[simp] theorem State.setS_unacked (s : State) (n : BitVec 7) (v : Word64) : (s.setS n v).unacked = s.unacked := by simp [State.setS]
@[simp] theorem State.setS_routes (s : State) (n : BitVec 7) (v : Word64) : (s.setS n v).routes = s.routes := by simp [State.setS]
@[simp] theorem State.setS_msixTable (s : State) (n : BitVec 7) (v : Word64) : (s.setS n v).msixTable = s.msixTable := by simp [State.setS]
@[simp] theorem State.setS_msixPending (s : State) (n : BitVec 7) (v : Word64) : (s.setS n v).msixPending = s.msixPending := by simp [State.setS]
@[simp] theorem State.setS_msixSent (s : State) (n : BitVec 7) (v : Word64) : (s.setS n v).msixSent = s.msixSent := by simp [State.setS]
@[simp] theorem State.setS_recovery (s : State) (n : BitVec 7) (v : Word64) : (s.setS n v).recovery = s.recovery := by simp [State.setS]
@[simp] theorem State.setS_leaves (s : State) (n : BitVec 7) (v : Word64) : (s.setS n v).leaves = s.leaves := by simp [State.setS]
@[simp] theorem State.setS_perst (s : State) (n : BitVec 7) (v : Word64) : (s.setS n v).perst = s.perst := by simp [State.setS]
@[simp] theorem State.setS_released (s : State) (n : BitVec 7) (v : Word64) : (s.setS n v).released = s.released := by simp [State.setS]
@[simp] theorem State.setS_tripped (s : State) (n : BitVec 7) (v : Word64) : (s.setS n v).tripped = s.tripped := by simp [State.setS]
@[simp] theorem State.setS_sincePerst (s : State) (n : BitVec 7) (v : Word64) : (s.setS n v).sincePerst = s.sincePerst := by simp [State.setS]
@[simp] theorem State.setS_firmware (s : State) (n : BitVec 7) (v : Word64) : (s.setS n v).firmware = s.firmware := by simp [State.setS]
@[simp] theorem State.setS_hostStores (s : State) (n : BitVec 7) (v : Word64) : (s.setS n v).hostStores = s.hostStores := by simp [State.setS]
@[simp] theorem State.setS_held (s : State) (n : BitVec 7) (v : Word64) : (s.setS n v).held = s.held := by simp [State.setS]
@[simp] theorem State.setS_hostReplies (s : State) (n : BitVec 7) (v : Word64) : (s.setS n v).hostReplies = s.hostReplies := by simp [State.setS]

/-! `setB` leaves every field but `g`, `soft`. -/

@[simp] theorem State.setB_schedule (s : State) (n : Nat) (v : BitVec 128) : (s.setB n v).schedule = s.schedule := by simp [State.setB]
@[simp] theorem State.setB_steps (s : State) (n : Nat) (v : BitVec 128) : (s.setB n v).steps = s.steps := by simp [State.setB]
@[simp] theorem State.setB_granted (s : State) (n : Nat) (v : BitVec 128) : (s.setB n v).granted = s.granted := by simp [State.setB]
@[simp] theorem State.setB_slot (s : State) (n : Nat) (v : BitVec 128) : (s.setB n v).slot = s.slot := by simp [State.setB]
@[simp] theorem State.setB_quarters (s : State) (n : Nat) (v : BitVec 128) : (s.setB n v).quarters = s.quarters := by simp [State.setB]
@[simp] theorem State.setB_live (s : State) (n : Nat) (v : BitVec 128) : (s.setB n v).live = s.live := by simp [State.setB]
@[simp] theorem State.setB_w (s : State) (n : Nat) (v : BitVec 128) : (s.setB n v).w = s.w := by simp [State.setB]
@[simp] theorem State.setB_others (s : State) (n : Nat) (v : BitVec 128) : (s.setB n v).others = s.others := by simp [State.setB]
@[simp] theorem State.setB_otherWgs (s : State) (n : Nat) (v : BitVec 128) : (s.setB n v).otherWgs = s.otherWgs := by simp [State.setB]
@[simp] theorem State.setB_nodes (s : State) (n : Nat) (v : BitVec 128) : (s.setB n v).nodes = s.nodes := by simp [State.setB]
@[simp] theorem State.setB_grants (s : State) (n : Nat) (v : BitVec 128) : (s.setB n v).grants = s.grants := by simp [State.setB]
@[simp] theorem State.setB_channels (s : State) (n : Nat) (v : BitVec 128) : (s.setB n v).channels = s.channels := by simp [State.setB]
@[simp] theorem State.setB_reductions (s : State) (n : Nat) (v : BitVec 128) : (s.setB n v).reductions = s.reductions := by simp [State.setB]
@[simp] theorem State.setB_arrivals (s : State) (n : Nat) (v : BitVec 128) : (s.setB n v).arrivals = s.arrivals := by simp [State.setB]
@[simp] theorem State.setB_mem (s : State) (n : Nat) (v : BitVec 128) : (s.setB n v).mem = s.mem := by simp [State.setB]
@[simp] theorem State.setB_dirty (s : State) (n : Nat) (v : BitVec 128) : (s.setB n v).dirty = s.dirty := by simp [State.setB]
@[simp] theorem State.setB_cmpLines (s : State) (n : Nat) (v : BitVec 128) : (s.setB n v).cmpLines = s.cmpLines := by simp [State.setB]
@[simp] theorem State.setB_carried (s : State) (n : Nat) (v : BitVec 128) : (s.setB n v).carried = s.carried := by simp [State.setB]
@[simp] theorem State.setB_cores (s : State) (n : Nat) (v : BitVec 128) : (s.setB n v).cores = s.cores := by simp [State.setB]
@[simp] theorem State.setB_die0 (s : State) (n : Nat) (v : BitVec 128) : (s.setB n v).die0 = s.die0 := by simp [State.setB]
@[simp] theorem State.setB_die1 (s : State) (n : Nat) (v : BitVec 128) : (s.setB n v).die1 = s.die1 := by simp [State.setB]
@[simp] theorem State.setB_die2 (s : State) (n : Nat) (v : BitVec 128) : (s.setB n v).die2 = s.die2 := by simp [State.setB]
@[simp] theorem State.setB_die3 (s : State) (n : Nat) (v : BitVec 128) : (s.setB n v).die3 = s.die3 := by simp [State.setB]
@[simp] theorem State.setB_regs (s : State) (n : Nat) (v : BitVec 128) : (s.setB n v).regs = s.regs := by simp [State.setB]
@[simp] theorem State.setB_frTicket (s : State) (n : Nat) (v : BitVec 128) : (s.setB n v).frTicket = s.frTicket := by simp [State.setB]
@[simp] theorem State.setB_ovfCount (s : State) (n : Nat) (v : BitVec 128) : (s.setB n v).ovfCount = s.ovfCount := by simp [State.setB]
@[simp] theorem State.setB_readyTicket (s : State) (n : Nat) (v : BitVec 128) : (s.setB n v).readyTicket = s.readyTicket := by simp [State.setB]
@[simp] theorem State.setB_mapQueue (s : State) (n : Nat) (v : BitVec 128) : (s.setB n v).mapQueue = s.mapQueue := by simp [State.setB]
@[simp] theorem State.setB_saveUsed (s : State) (n : Nat) (v : BitVec 128) : (s.setB n v).saveUsed = s.saveUsed := by simp [State.setB]
@[simp] theorem State.setB_ctxUsed (s : State) (n : Nat) (v : BitVec 128) : (s.setB n v).ctxUsed = s.ctxUsed := by simp [State.setB]
@[simp] theorem State.setB_poolUsed (s : State) (n : Nat) (v : BitVec 128) : (s.setB n v).poolUsed = s.poolUsed := by simp [State.setB]
@[simp] theorem State.setB_twinInbox (s : State) (n : Nat) (v : BitVec 128) : (s.setB n v).twinInbox = s.twinInbox := by simp [State.setB]
@[simp] theorem State.setB_twinSent (s : State) (n : Nat) (v : BitVec 128) : (s.setB n v).twinSent = s.twinSent := by simp [State.setB]
@[simp] theorem State.setB_ranSince (s : State) (n : Nat) (v : BitVec 128) : (s.setB n v).ranSince = s.ranSince := by simp [State.setB]
@[simp] theorem State.setB_unacked (s : State) (n : Nat) (v : BitVec 128) : (s.setB n v).unacked = s.unacked := by simp [State.setB]
@[simp] theorem State.setB_routes (s : State) (n : Nat) (v : BitVec 128) : (s.setB n v).routes = s.routes := by simp [State.setB]
@[simp] theorem State.setB_msixTable (s : State) (n : Nat) (v : BitVec 128) : (s.setB n v).msixTable = s.msixTable := by simp [State.setB]
@[simp] theorem State.setB_msixPending (s : State) (n : Nat) (v : BitVec 128) : (s.setB n v).msixPending = s.msixPending := by simp [State.setB]
@[simp] theorem State.setB_msixSent (s : State) (n : Nat) (v : BitVec 128) : (s.setB n v).msixSent = s.msixSent := by simp [State.setB]
@[simp] theorem State.setB_recovery (s : State) (n : Nat) (v : BitVec 128) : (s.setB n v).recovery = s.recovery := by simp [State.setB]
@[simp] theorem State.setB_leaves (s : State) (n : Nat) (v : BitVec 128) : (s.setB n v).leaves = s.leaves := by simp [State.setB]
@[simp] theorem State.setB_perst (s : State) (n : Nat) (v : BitVec 128) : (s.setB n v).perst = s.perst := by simp [State.setB]
@[simp] theorem State.setB_released (s : State) (n : Nat) (v : BitVec 128) : (s.setB n v).released = s.released := by simp [State.setB]
@[simp] theorem State.setB_tripped (s : State) (n : Nat) (v : BitVec 128) : (s.setB n v).tripped = s.tripped := by simp [State.setB]
@[simp] theorem State.setB_sincePerst (s : State) (n : Nat) (v : BitVec 128) : (s.setB n v).sincePerst = s.sincePerst := by simp [State.setB]
@[simp] theorem State.setB_firmware (s : State) (n : Nat) (v : BitVec 128) : (s.setB n v).firmware = s.firmware := by simp [State.setB]
@[simp] theorem State.setB_hostStores (s : State) (n : Nat) (v : BitVec 128) : (s.setB n v).hostStores = s.hostStores := by simp [State.setB]
@[simp] theorem State.setB_held (s : State) (n : Nat) (v : BitVec 128) : (s.setB n v).held = s.held := by simp [State.setB]
@[simp] theorem State.setB_hostReplies (s : State) (n : Nat) (v : BitVec 128) : (s.setB n v).hostReplies = s.hostReplies := by simp [State.setB]

/-! `setV` leaves every field but `g`, `soft`. -/

@[simp] theorem State.setV_schedule (s : State) (n l : Nat) (v : Word32) : (s.setV n l v).schedule = s.schedule := by simp [State.setV]
@[simp] theorem State.setV_steps (s : State) (n l : Nat) (v : Word32) : (s.setV n l v).steps = s.steps := by simp [State.setV]
@[simp] theorem State.setV_granted (s : State) (n l : Nat) (v : Word32) : (s.setV n l v).granted = s.granted := by simp [State.setV]
@[simp] theorem State.setV_slot (s : State) (n l : Nat) (v : Word32) : (s.setV n l v).slot = s.slot := by simp [State.setV]
@[simp] theorem State.setV_quarters (s : State) (n l : Nat) (v : Word32) : (s.setV n l v).quarters = s.quarters := by simp [State.setV]
@[simp] theorem State.setV_live (s : State) (n l : Nat) (v : Word32) : (s.setV n l v).live = s.live := by simp [State.setV]
@[simp] theorem State.setV_w (s : State) (n l : Nat) (v : Word32) : (s.setV n l v).w = s.w := by simp [State.setV]
@[simp] theorem State.setV_others (s : State) (n l : Nat) (v : Word32) : (s.setV n l v).others = s.others := by simp [State.setV]
@[simp] theorem State.setV_otherWgs (s : State) (n l : Nat) (v : Word32) : (s.setV n l v).otherWgs = s.otherWgs := by simp [State.setV]
@[simp] theorem State.setV_nodes (s : State) (n l : Nat) (v : Word32) : (s.setV n l v).nodes = s.nodes := by simp [State.setV]
@[simp] theorem State.setV_grants (s : State) (n l : Nat) (v : Word32) : (s.setV n l v).grants = s.grants := by simp [State.setV]
@[simp] theorem State.setV_channels (s : State) (n l : Nat) (v : Word32) : (s.setV n l v).channels = s.channels := by simp [State.setV]
@[simp] theorem State.setV_reductions (s : State) (n l : Nat) (v : Word32) : (s.setV n l v).reductions = s.reductions := by simp [State.setV]
@[simp] theorem State.setV_arrivals (s : State) (n l : Nat) (v : Word32) : (s.setV n l v).arrivals = s.arrivals := by simp [State.setV]
@[simp] theorem State.setV_mem (s : State) (n l : Nat) (v : Word32) : (s.setV n l v).mem = s.mem := by simp [State.setV]
@[simp] theorem State.setV_dirty (s : State) (n l : Nat) (v : Word32) : (s.setV n l v).dirty = s.dirty := by simp [State.setV]
@[simp] theorem State.setV_cmpLines (s : State) (n l : Nat) (v : Word32) : (s.setV n l v).cmpLines = s.cmpLines := by simp [State.setV]
@[simp] theorem State.setV_carried (s : State) (n l : Nat) (v : Word32) : (s.setV n l v).carried = s.carried := by simp [State.setV]
@[simp] theorem State.setV_cores (s : State) (n l : Nat) (v : Word32) : (s.setV n l v).cores = s.cores := by simp [State.setV]
@[simp] theorem State.setV_die0 (s : State) (n l : Nat) (v : Word32) : (s.setV n l v).die0 = s.die0 := by simp [State.setV]
@[simp] theorem State.setV_die1 (s : State) (n l : Nat) (v : Word32) : (s.setV n l v).die1 = s.die1 := by simp [State.setV]
@[simp] theorem State.setV_die2 (s : State) (n l : Nat) (v : Word32) : (s.setV n l v).die2 = s.die2 := by simp [State.setV]
@[simp] theorem State.setV_die3 (s : State) (n l : Nat) (v : Word32) : (s.setV n l v).die3 = s.die3 := by simp [State.setV]
@[simp] theorem State.setV_regs (s : State) (n l : Nat) (v : Word32) : (s.setV n l v).regs = s.regs := by simp [State.setV]
@[simp] theorem State.setV_frTicket (s : State) (n l : Nat) (v : Word32) : (s.setV n l v).frTicket = s.frTicket := by simp [State.setV]
@[simp] theorem State.setV_ovfCount (s : State) (n l : Nat) (v : Word32) : (s.setV n l v).ovfCount = s.ovfCount := by simp [State.setV]
@[simp] theorem State.setV_readyTicket (s : State) (n l : Nat) (v : Word32) : (s.setV n l v).readyTicket = s.readyTicket := by simp [State.setV]
@[simp] theorem State.setV_mapQueue (s : State) (n l : Nat) (v : Word32) : (s.setV n l v).mapQueue = s.mapQueue := by simp [State.setV]
@[simp] theorem State.setV_saveUsed (s : State) (n l : Nat) (v : Word32) : (s.setV n l v).saveUsed = s.saveUsed := by simp [State.setV]
@[simp] theorem State.setV_ctxUsed (s : State) (n l : Nat) (v : Word32) : (s.setV n l v).ctxUsed = s.ctxUsed := by simp [State.setV]
@[simp] theorem State.setV_poolUsed (s : State) (n l : Nat) (v : Word32) : (s.setV n l v).poolUsed = s.poolUsed := by simp [State.setV]
@[simp] theorem State.setV_twinInbox (s : State) (n l : Nat) (v : Word32) : (s.setV n l v).twinInbox = s.twinInbox := by simp [State.setV]
@[simp] theorem State.setV_twinSent (s : State) (n l : Nat) (v : Word32) : (s.setV n l v).twinSent = s.twinSent := by simp [State.setV]
@[simp] theorem State.setV_ranSince (s : State) (n l : Nat) (v : Word32) : (s.setV n l v).ranSince = s.ranSince := by simp [State.setV]
@[simp] theorem State.setV_unacked (s : State) (n l : Nat) (v : Word32) : (s.setV n l v).unacked = s.unacked := by simp [State.setV]
@[simp] theorem State.setV_routes (s : State) (n l : Nat) (v : Word32) : (s.setV n l v).routes = s.routes := by simp [State.setV]
@[simp] theorem State.setV_msixTable (s : State) (n l : Nat) (v : Word32) : (s.setV n l v).msixTable = s.msixTable := by simp [State.setV]
@[simp] theorem State.setV_msixPending (s : State) (n l : Nat) (v : Word32) : (s.setV n l v).msixPending = s.msixPending := by simp [State.setV]
@[simp] theorem State.setV_msixSent (s : State) (n l : Nat) (v : Word32) : (s.setV n l v).msixSent = s.msixSent := by simp [State.setV]
@[simp] theorem State.setV_recovery (s : State) (n l : Nat) (v : Word32) : (s.setV n l v).recovery = s.recovery := by simp [State.setV]
@[simp] theorem State.setV_leaves (s : State) (n l : Nat) (v : Word32) : (s.setV n l v).leaves = s.leaves := by simp [State.setV]
@[simp] theorem State.setV_perst (s : State) (n l : Nat) (v : Word32) : (s.setV n l v).perst = s.perst := by simp [State.setV]
@[simp] theorem State.setV_released (s : State) (n l : Nat) (v : Word32) : (s.setV n l v).released = s.released := by simp [State.setV]
@[simp] theorem State.setV_tripped (s : State) (n l : Nat) (v : Word32) : (s.setV n l v).tripped = s.tripped := by simp [State.setV]
@[simp] theorem State.setV_sincePerst (s : State) (n l : Nat) (v : Word32) : (s.setV n l v).sincePerst = s.sincePerst := by simp [State.setV]
@[simp] theorem State.setV_firmware (s : State) (n l : Nat) (v : Word32) : (s.setV n l v).firmware = s.firmware := by simp [State.setV]
@[simp] theorem State.setV_hostStores (s : State) (n l : Nat) (v : Word32) : (s.setV n l v).hostStores = s.hostStores := by simp [State.setV]
@[simp] theorem State.setV_held (s : State) (n l : Nat) (v : Word32) : (s.setV n l v).held = s.held := by simp [State.setV]
@[simp] theorem State.setV_hostReplies (s : State) (n l : Nat) (v : Word32) : (s.setV n l v).hostReplies = s.hostReplies := by simp [State.setV]

/-! `setM` leaves every field but `g`, `soft`. -/

@[simp] theorem State.setM_schedule (s : State) (n : Nat) (v : Word32) : (s.setM n v).schedule = s.schedule := by unfold State.setM; split <;> simp
@[simp] theorem State.setM_steps (s : State) (n : Nat) (v : Word32) : (s.setM n v).steps = s.steps := by unfold State.setM; split <;> simp
@[simp] theorem State.setM_granted (s : State) (n : Nat) (v : Word32) : (s.setM n v).granted = s.granted := by unfold State.setM; split <;> simp
@[simp] theorem State.setM_slot (s : State) (n : Nat) (v : Word32) : (s.setM n v).slot = s.slot := by unfold State.setM; split <;> simp
@[simp] theorem State.setM_quarters (s : State) (n : Nat) (v : Word32) : (s.setM n v).quarters = s.quarters := by unfold State.setM; split <;> simp
@[simp] theorem State.setM_live (s : State) (n : Nat) (v : Word32) : (s.setM n v).live = s.live := by unfold State.setM; split <;> simp
@[simp] theorem State.setM_w (s : State) (n : Nat) (v : Word32) : (s.setM n v).w = s.w := by unfold State.setM; split <;> simp
@[simp] theorem State.setM_others (s : State) (n : Nat) (v : Word32) : (s.setM n v).others = s.others := by unfold State.setM; split <;> simp
@[simp] theorem State.setM_otherWgs (s : State) (n : Nat) (v : Word32) : (s.setM n v).otherWgs = s.otherWgs := by unfold State.setM; split <;> simp
@[simp] theorem State.setM_nodes (s : State) (n : Nat) (v : Word32) : (s.setM n v).nodes = s.nodes := by unfold State.setM; split <;> simp
@[simp] theorem State.setM_grants (s : State) (n : Nat) (v : Word32) : (s.setM n v).grants = s.grants := by unfold State.setM; split <;> simp
@[simp] theorem State.setM_channels (s : State) (n : Nat) (v : Word32) : (s.setM n v).channels = s.channels := by unfold State.setM; split <;> simp
@[simp] theorem State.setM_reductions (s : State) (n : Nat) (v : Word32) : (s.setM n v).reductions = s.reductions := by unfold State.setM; split <;> simp
@[simp] theorem State.setM_arrivals (s : State) (n : Nat) (v : Word32) : (s.setM n v).arrivals = s.arrivals := by unfold State.setM; split <;> simp
@[simp] theorem State.setM_mem (s : State) (n : Nat) (v : Word32) : (s.setM n v).mem = s.mem := by unfold State.setM; split <;> simp
@[simp] theorem State.setM_dirty (s : State) (n : Nat) (v : Word32) : (s.setM n v).dirty = s.dirty := by unfold State.setM; split <;> simp
@[simp] theorem State.setM_cmpLines (s : State) (n : Nat) (v : Word32) : (s.setM n v).cmpLines = s.cmpLines := by unfold State.setM; split <;> simp
@[simp] theorem State.setM_carried (s : State) (n : Nat) (v : Word32) : (s.setM n v).carried = s.carried := by unfold State.setM; split <;> simp
@[simp] theorem State.setM_cores (s : State) (n : Nat) (v : Word32) : (s.setM n v).cores = s.cores := by unfold State.setM; split <;> simp
@[simp] theorem State.setM_die0 (s : State) (n : Nat) (v : Word32) : (s.setM n v).die0 = s.die0 := by unfold State.setM; split <;> simp
@[simp] theorem State.setM_die1 (s : State) (n : Nat) (v : Word32) : (s.setM n v).die1 = s.die1 := by unfold State.setM; split <;> simp
@[simp] theorem State.setM_die2 (s : State) (n : Nat) (v : Word32) : (s.setM n v).die2 = s.die2 := by unfold State.setM; split <;> simp
@[simp] theorem State.setM_die3 (s : State) (n : Nat) (v : Word32) : (s.setM n v).die3 = s.die3 := by unfold State.setM; split <;> simp
@[simp] theorem State.setM_regs (s : State) (n : Nat) (v : Word32) : (s.setM n v).regs = s.regs := by unfold State.setM; split <;> simp
@[simp] theorem State.setM_frTicket (s : State) (n : Nat) (v : Word32) : (s.setM n v).frTicket = s.frTicket := by unfold State.setM; split <;> simp
@[simp] theorem State.setM_ovfCount (s : State) (n : Nat) (v : Word32) : (s.setM n v).ovfCount = s.ovfCount := by unfold State.setM; split <;> simp
@[simp] theorem State.setM_readyTicket (s : State) (n : Nat) (v : Word32) : (s.setM n v).readyTicket = s.readyTicket := by unfold State.setM; split <;> simp
@[simp] theorem State.setM_mapQueue (s : State) (n : Nat) (v : Word32) : (s.setM n v).mapQueue = s.mapQueue := by unfold State.setM; split <;> simp
@[simp] theorem State.setM_saveUsed (s : State) (n : Nat) (v : Word32) : (s.setM n v).saveUsed = s.saveUsed := by unfold State.setM; split <;> simp
@[simp] theorem State.setM_ctxUsed (s : State) (n : Nat) (v : Word32) : (s.setM n v).ctxUsed = s.ctxUsed := by unfold State.setM; split <;> simp
@[simp] theorem State.setM_poolUsed (s : State) (n : Nat) (v : Word32) : (s.setM n v).poolUsed = s.poolUsed := by unfold State.setM; split <;> simp
@[simp] theorem State.setM_twinInbox (s : State) (n : Nat) (v : Word32) : (s.setM n v).twinInbox = s.twinInbox := by unfold State.setM; split <;> simp
@[simp] theorem State.setM_twinSent (s : State) (n : Nat) (v : Word32) : (s.setM n v).twinSent = s.twinSent := by unfold State.setM; split <;> simp
@[simp] theorem State.setM_ranSince (s : State) (n : Nat) (v : Word32) : (s.setM n v).ranSince = s.ranSince := by unfold State.setM; split <;> simp
@[simp] theorem State.setM_unacked (s : State) (n : Nat) (v : Word32) : (s.setM n v).unacked = s.unacked := by unfold State.setM; split <;> simp
@[simp] theorem State.setM_routes (s : State) (n : Nat) (v : Word32) : (s.setM n v).routes = s.routes := by unfold State.setM; split <;> simp
@[simp] theorem State.setM_msixTable (s : State) (n : Nat) (v : Word32) : (s.setM n v).msixTable = s.msixTable := by unfold State.setM; split <;> simp
@[simp] theorem State.setM_msixPending (s : State) (n : Nat) (v : Word32) : (s.setM n v).msixPending = s.msixPending := by unfold State.setM; split <;> simp
@[simp] theorem State.setM_msixSent (s : State) (n : Nat) (v : Word32) : (s.setM n v).msixSent = s.msixSent := by unfold State.setM; split <;> simp
@[simp] theorem State.setM_recovery (s : State) (n : Nat) (v : Word32) : (s.setM n v).recovery = s.recovery := by unfold State.setM; split <;> simp
@[simp] theorem State.setM_leaves (s : State) (n : Nat) (v : Word32) : (s.setM n v).leaves = s.leaves := by unfold State.setM; split <;> simp
@[simp] theorem State.setM_perst (s : State) (n : Nat) (v : Word32) : (s.setM n v).perst = s.perst := by unfold State.setM; split <;> simp
@[simp] theorem State.setM_released (s : State) (n : Nat) (v : Word32) : (s.setM n v).released = s.released := by unfold State.setM; split <;> simp
@[simp] theorem State.setM_tripped (s : State) (n : Nat) (v : Word32) : (s.setM n v).tripped = s.tripped := by unfold State.setM; split <;> simp
@[simp] theorem State.setM_sincePerst (s : State) (n : Nat) (v : Word32) : (s.setM n v).sincePerst = s.sincePerst := by unfold State.setM; split <;> simp
@[simp] theorem State.setM_firmware (s : State) (n : Nat) (v : Word32) : (s.setM n v).firmware = s.firmware := by unfold State.setM; split <;> simp
@[simp] theorem State.setM_hostStores (s : State) (n : Nat) (v : Word32) : (s.setM n v).hostStores = s.hostStores := by unfold State.setM; split <;> simp
@[simp] theorem State.setM_held (s : State) (n : Nat) (v : Word32) : (s.setM n v).held = s.held := by unfold State.setM; split <;> simp
@[simp] theorem State.setM_hostReplies (s : State) (n : Nat) (v : Word32) : (s.setM n v).hostReplies = s.hostReplies := by unfold State.setM; split <;> simp

/-! `retireAt` leaves every field but `g`, `granted`. -/

@[simp] theorem State.retireAt_schedule (s : State) (n : Nat) (c : Word64) : (s.retireAt n c).schedule = s.schedule := by simp only [State.retireAt, State.afterAdvance]; split <;> rfl
@[simp] theorem State.retireAt_steps (s : State) (n : Nat) (c : Word64) : (s.retireAt n c).steps = s.steps := by simp only [State.retireAt, State.afterAdvance]; split <;> rfl
@[simp] theorem State.retireAt_slot (s : State) (n : Nat) (c : Word64) : (s.retireAt n c).slot = s.slot := by simp only [State.retireAt, State.afterAdvance]; split <;> rfl
@[simp] theorem State.retireAt_quarters (s : State) (n : Nat) (c : Word64) : (s.retireAt n c).quarters = s.quarters := by simp only [State.retireAt, State.afterAdvance]; split <;> rfl
@[simp] theorem State.retireAt_live (s : State) (n : Nat) (c : Word64) : (s.retireAt n c).live = s.live := by simp only [State.retireAt, State.afterAdvance]; split <;> rfl
@[simp] theorem State.retireAt_w (s : State) (n : Nat) (c : Word64) : (s.retireAt n c).w = s.w := by simp only [State.retireAt, State.afterAdvance]; split <;> rfl
@[simp] theorem State.retireAt_others (s : State) (n : Nat) (c : Word64) : (s.retireAt n c).others = s.others := by simp only [State.retireAt, State.afterAdvance]; split <;> rfl
@[simp] theorem State.retireAt_otherWgs (s : State) (n : Nat) (c : Word64) : (s.retireAt n c).otherWgs = s.otherWgs := by simp only [State.retireAt, State.afterAdvance]; split <;> rfl
@[simp] theorem State.retireAt_nodes (s : State) (n : Nat) (c : Word64) : (s.retireAt n c).nodes = s.nodes := by simp only [State.retireAt, State.afterAdvance]; split <;> rfl
@[simp] theorem State.retireAt_grants (s : State) (n : Nat) (c : Word64) : (s.retireAt n c).grants = s.grants := by simp only [State.retireAt, State.afterAdvance]; split <;> rfl
@[simp] theorem State.retireAt_channels (s : State) (n : Nat) (c : Word64) : (s.retireAt n c).channels = s.channels := by simp only [State.retireAt, State.afterAdvance]; split <;> rfl
@[simp] theorem State.retireAt_reductions (s : State) (n : Nat) (c : Word64) : (s.retireAt n c).reductions = s.reductions := by simp only [State.retireAt, State.afterAdvance]; split <;> rfl
@[simp] theorem State.retireAt_arrivals (s : State) (n : Nat) (c : Word64) : (s.retireAt n c).arrivals = s.arrivals := by simp only [State.retireAt, State.afterAdvance]; split <;> rfl
@[simp] theorem State.retireAt_mem (s : State) (n : Nat) (c : Word64) : (s.retireAt n c).mem = s.mem := by simp only [State.retireAt, State.afterAdvance]; split <;> rfl
@[simp] theorem State.retireAt_soft (s : State) (n : Nat) (c : Word64) : (s.retireAt n c).soft = s.soft := by simp only [State.retireAt, State.afterAdvance]; split <;> rfl
@[simp] theorem State.retireAt_dirty (s : State) (n : Nat) (c : Word64) : (s.retireAt n c).dirty = s.dirty := by simp only [State.retireAt, State.afterAdvance]; split <;> rfl
@[simp] theorem State.retireAt_cmpLines (s : State) (n : Nat) (c : Word64) : (s.retireAt n c).cmpLines = s.cmpLines := by simp only [State.retireAt, State.afterAdvance]; split <;> rfl
@[simp] theorem State.retireAt_carried (s : State) (n : Nat) (c : Word64) : (s.retireAt n c).carried = s.carried := by simp only [State.retireAt, State.afterAdvance]; split <;> rfl
@[simp] theorem State.retireAt_cores (s : State) (n : Nat) (c : Word64) : (s.retireAt n c).cores = s.cores := by simp only [State.retireAt, State.afterAdvance]; split <;> rfl
@[simp] theorem State.retireAt_die0 (s : State) (n : Nat) (c : Word64) : (s.retireAt n c).die0 = s.die0 := by simp only [State.retireAt, State.afterAdvance]; split <;> rfl
@[simp] theorem State.retireAt_die1 (s : State) (n : Nat) (c : Word64) : (s.retireAt n c).die1 = s.die1 := by simp only [State.retireAt, State.afterAdvance]; split <;> rfl
@[simp] theorem State.retireAt_die2 (s : State) (n : Nat) (c : Word64) : (s.retireAt n c).die2 = s.die2 := by simp only [State.retireAt, State.afterAdvance]; split <;> rfl
@[simp] theorem State.retireAt_die3 (s : State) (n : Nat) (c : Word64) : (s.retireAt n c).die3 = s.die3 := by simp only [State.retireAt, State.afterAdvance]; split <;> rfl
@[simp] theorem State.retireAt_regs (s : State) (n : Nat) (c : Word64) : (s.retireAt n c).regs = s.regs := by simp only [State.retireAt, State.afterAdvance]; split <;> rfl
@[simp] theorem State.retireAt_frTicket (s : State) (n : Nat) (c : Word64) : (s.retireAt n c).frTicket = s.frTicket := by simp only [State.retireAt, State.afterAdvance]; split <;> rfl
@[simp] theorem State.retireAt_ovfCount (s : State) (n : Nat) (c : Word64) : (s.retireAt n c).ovfCount = s.ovfCount := by simp only [State.retireAt, State.afterAdvance]; split <;> rfl
@[simp] theorem State.retireAt_readyTicket (s : State) (n : Nat) (c : Word64) : (s.retireAt n c).readyTicket = s.readyTicket := by simp only [State.retireAt, State.afterAdvance]; split <;> rfl
@[simp] theorem State.retireAt_mapQueue (s : State) (n : Nat) (c : Word64) : (s.retireAt n c).mapQueue = s.mapQueue := by simp only [State.retireAt, State.afterAdvance]; split <;> rfl
@[simp] theorem State.retireAt_saveUsed (s : State) (n : Nat) (c : Word64) : (s.retireAt n c).saveUsed = s.saveUsed := by simp only [State.retireAt, State.afterAdvance]; split <;> rfl
@[simp] theorem State.retireAt_ctxUsed (s : State) (n : Nat) (c : Word64) : (s.retireAt n c).ctxUsed = s.ctxUsed := by simp only [State.retireAt, State.afterAdvance]; split <;> rfl
@[simp] theorem State.retireAt_poolUsed (s : State) (n : Nat) (c : Word64) : (s.retireAt n c).poolUsed = s.poolUsed := by simp only [State.retireAt, State.afterAdvance]; split <;> rfl
@[simp] theorem State.retireAt_twinInbox (s : State) (n : Nat) (c : Word64) : (s.retireAt n c).twinInbox = s.twinInbox := by simp only [State.retireAt, State.afterAdvance]; split <;> rfl
@[simp] theorem State.retireAt_twinSent (s : State) (n : Nat) (c : Word64) : (s.retireAt n c).twinSent = s.twinSent := by simp only [State.retireAt, State.afterAdvance]; split <;> rfl
@[simp] theorem State.retireAt_ranSince (s : State) (n : Nat) (c : Word64) : (s.retireAt n c).ranSince = s.ranSince := by simp only [State.retireAt, State.afterAdvance]; split <;> rfl
@[simp] theorem State.retireAt_unacked (s : State) (n : Nat) (c : Word64) : (s.retireAt n c).unacked = s.unacked := by simp only [State.retireAt, State.afterAdvance]; split <;> rfl
@[simp] theorem State.retireAt_routes (s : State) (n : Nat) (c : Word64) : (s.retireAt n c).routes = s.routes := by simp only [State.retireAt, State.afterAdvance]; split <;> rfl
@[simp] theorem State.retireAt_msixTable (s : State) (n : Nat) (c : Word64) : (s.retireAt n c).msixTable = s.msixTable := by simp only [State.retireAt, State.afterAdvance]; split <;> rfl
@[simp] theorem State.retireAt_msixPending (s : State) (n : Nat) (c : Word64) : (s.retireAt n c).msixPending = s.msixPending := by simp only [State.retireAt, State.afterAdvance]; split <;> rfl
@[simp] theorem State.retireAt_msixSent (s : State) (n : Nat) (c : Word64) : (s.retireAt n c).msixSent = s.msixSent := by simp only [State.retireAt, State.afterAdvance]; split <;> rfl
@[simp] theorem State.retireAt_recovery (s : State) (n : Nat) (c : Word64) : (s.retireAt n c).recovery = s.recovery := by simp only [State.retireAt, State.afterAdvance]; split <;> rfl
@[simp] theorem State.retireAt_leaves (s : State) (n : Nat) (c : Word64) : (s.retireAt n c).leaves = s.leaves := by simp only [State.retireAt, State.afterAdvance]; split <;> rfl
@[simp] theorem State.retireAt_perst (s : State) (n : Nat) (c : Word64) : (s.retireAt n c).perst = s.perst := by simp only [State.retireAt, State.afterAdvance]; split <;> rfl
@[simp] theorem State.retireAt_released (s : State) (n : Nat) (c : Word64) : (s.retireAt n c).released = s.released := by simp only [State.retireAt, State.afterAdvance]; split <;> rfl
@[simp] theorem State.retireAt_tripped (s : State) (n : Nat) (c : Word64) : (s.retireAt n c).tripped = s.tripped := by simp only [State.retireAt, State.afterAdvance]; split <;> rfl
@[simp] theorem State.retireAt_sincePerst (s : State) (n : Nat) (c : Word64) : (s.retireAt n c).sincePerst = s.sincePerst := by simp only [State.retireAt, State.afterAdvance]; split <;> rfl
@[simp] theorem State.retireAt_firmware (s : State) (n : Nat) (c : Word64) : (s.retireAt n c).firmware = s.firmware := by simp only [State.retireAt, State.afterAdvance]; split <;> rfl
@[simp] theorem State.retireAt_hostStores (s : State) (n : Nat) (c : Word64) : (s.retireAt n c).hostStores = s.hostStores := by simp only [State.retireAt, State.afterAdvance]; split <;> rfl
@[simp] theorem State.retireAt_held (s : State) (n : Nat) (c : Word64) : (s.retireAt n c).held = s.held := by simp only [State.retireAt, State.afterAdvance]; split <;> rfl
@[simp] theorem State.retireAt_hostReplies (s : State) (n : Nat) (c : Word64) : (s.retireAt n c).hostReplies = s.hostReplies := by simp only [State.retireAt, State.afterAdvance]; split <;> rfl

/-! The group at issue after a register is written. -/

@[simp] theorem State.setS_g_id (s : State) (n : BitVec 7) (v : Word64) : (s.setS n v).g.id = s.g.id := by simp [State.setS]
@[simp] theorem State.setS_g_gidx (s : State) (n : BitVec 7) (v : Word64) : (s.setS n v).g.gidx = s.g.gidx := by simp [State.setS]
@[simp] theorem State.setS_g_asid (s : State) (n : BitVec 7) (v : Word64) : (s.setS n v).g.asid = s.g.asid := by simp [State.setS]
@[simp] theorem State.setS_g_die (s : State) (n : BitVec 7) (v : Word64) : (s.setS n v).g.die = s.g.die := by simp [State.setS]
@[simp] theorem State.setS_g_core (s : State) (n : BitVec 7) (v : Word64) : (s.setS n v).g.core = s.g.core := by simp [State.setS]
@[simp] theorem State.setS_g_quarter (s : State) (n : BitVec 7) (v : Word64) : (s.setS n v).g.quarter = s.g.quarter := by simp [State.setS]
@[simp] theorem State.setS_g_vregs (s : State) (n : BitVec 7) (v : Word64) : (s.setS n v).g.vregs = s.g.vregs := by simp [State.setS]
@[simp] theorem State.setS_g_privOver (s : State) (n : BitVec 7) (v : Word64) : (s.setS n v).g.privOver = s.g.privOver := by simp [State.setS]
@[simp] theorem State.setS_g_vcount (s : State) (n : BitVec 7) (v : Word64) : (s.setS n v).g.vcount = s.g.vcount := by simp [State.setS]
@[simp] theorem State.setS_g_mregs (s : State) (n : BitVec 7) (v : Word64) : (s.setS n v).g.mregs = s.g.mregs := by simp [State.setS]
@[simp] theorem State.setS_g_bregs (s : State) (n : BitVec 7) (v : Word64) : (s.setS n v).g.bregs = s.g.bregs := by simp [State.setS]
@[simp] theorem State.setS_g_hregs (s : State) (n : BitVec 7) (v : Word64) : (s.setS n v).g.hregs = s.g.hregs := by simp [State.setS]
@[simp] theorem State.setS_g_qflags (s : State) (n : BitVec 7) (v : Word64) : (s.setS n v).g.qflags = s.g.qflags := by simp [State.setS]
@[simp] theorem State.setS_g_gstat (s : State) (n : BitVec 7) (v : Word64) : (s.setS n v).g.gstat = s.g.gstat := by simp [State.setS]
@[simp] theorem State.setS_g_fpctl (s : State) (n : BitVec 7) (v : Word64) : (s.setS n v).g.fpctl = s.g.fpctl := by simp [State.setS]
@[simp] theorem State.setS_g_rseed (s : State) (n : BitVec 7) (v : Word64) : (s.setS n v).g.rseed = s.g.rseed := by simp [State.setS]
@[simp] theorem State.setS_g_fpstat (s : State) (n : BitVec 7) (v : Word64) : (s.setS n v).g.fpstat = s.g.fpstat := by simp [State.setS]
@[simp] theorem State.setS_g_nanctl (s : State) (n : BitVec 7) (v : Word64) : (s.setS n v).g.nanctl = s.g.nanctl := by simp [State.setS]
@[simp] theorem State.setS_g_hangctl (s : State) (n : BitVec 7) (v : Word64) : (s.setS n v).g.hangctl = s.g.hangctl := by simp [State.setS]
@[simp] theorem State.setS_g_hang (s : State) (n : BitVec 7) (v : Word64) : (s.setS n v).g.hang = s.g.hang := by simp [State.setS]
@[simp] theorem State.setS_g_hangPending (s : State) (n : BitVec 7) (v : Word64) : (s.setS n v).g.hangPending = s.g.hangPending := by simp [State.setS]
@[simp] theorem State.setS_g_slot0 (s : State) (n : BitVec 7) (v : Word64) : (s.setS n v).g.slot0 = s.g.slot0 := by simp [State.setS]
@[simp] theorem State.setS_g_slot1 (s : State) (n : BitVec 7) (v : Word64) : (s.setS n v).g.slot1 = s.g.slot1 := by simp [State.setS]
@[simp] theorem State.setS_g_stack (s : State) (n : BitVec 7) (v : Word64) : (s.setS n v).g.stack = s.g.stack := by simp [State.setS]
@[simp] theorem State.setS_g_exited (s : State) (n : BitVec 7) (v : Word64) : (s.setS n v).g.exited = s.g.exited := by simp [State.setS]
@[simp] theorem State.setS_g_held (s : State) (n : BitVec 7) (v : Word64) : (s.setS n v).g.held = s.g.held := by simp [State.setS]
@[simp] theorem State.setS_g_trapLanes (s : State) (n : BitVec 7) (v : Word64) : (s.setS n v).g.trapLanes = s.g.trapLanes := by simp [State.setS]
@[simp] theorem State.setS_g_trapKind (s : State) (n : BitVec 7) (v : Word64) : (s.setS n v).g.trapKind = s.g.trapKind := by simp [State.setS]
@[simp] theorem State.setS_g_trapLevel (s : State) (n : BitVec 7) (v : Word64) : (s.setS n v).g.trapLevel = s.g.trapLevel := by simp [State.setS]
@[simp] theorem State.setS_g_trapTop (s : State) (n : BitVec 7) (v : Word64) : (s.setS n v).g.trapTop = s.g.trapTop := by simp [State.setS]
@[simp] theorem State.setS_g_watch (s : State) (n : BitVec 7) (v : Word64) : (s.setS n v).g.watch = s.g.watch := by simp [State.setS]
@[simp] theorem State.setS_g_uo (s : State) (n : BitVec 7) (v : Word64) : (s.setS n v).g.uo = s.g.uo := by simp [State.setS]
@[simp] theorem State.setS_g_uoMarks (s : State) (n : BitVec 7) (v : Word64) : (s.setS n v).g.uoMarks = s.g.uoMarks := by simp [State.setS]
@[simp] theorem State.setS_g_pending (s : State) (n : BitVec 7) (v : Word64) : (s.setS n v).g.pending = s.g.pending := by simp [State.setS]
@[simp] theorem State.setS_g_serving (s : State) (n : BitVec 7) (v : Word64) : (s.setS n v).g.serving = s.g.serving := by simp [State.setS]
@[simp] theorem State.setS_g_hint (s : State) (n : BitVec 7) (v : Word64) : (s.setS n v).g.hint = s.g.hint := by simp [State.setS]
@[simp] theorem State.setS_g_stop (s : State) (n : BitVec 7) (v : Word64) : (s.setS n v).g.stop = s.g.stop := by simp [State.setS]
@[simp] theorem State.setS_g_ovr (s : State) (n : BitVec 7) (v : Word64) : (s.setS n v).g.ovr = s.g.ovr := by simp [State.setS]
@[simp] theorem State.setS_g_yielded (s : State) (n : BitVec 7) (v : Word64) : (s.setS n v).g.yielded = s.g.yielded := by simp [State.setS]
@[simp] theorem State.setS_g_lastSlot (s : State) (n : BitVec 7) (v : Word64) : (s.setS n v).g.lastSlot = s.g.lastSlot := by simp [State.setS]
@[simp] theorem State.setS_g_waited (s : State) (n : BitVec 7) (v : Word64) : (s.setS n v).g.waited = s.g.waited := by simp [State.setS]

@[simp] theorem State.setB_g_id (s : State) (n : Nat) (v : BitVec 128) : (s.setB n v).g.id = s.g.id := by simp [State.setB]
@[simp] theorem State.setB_g_gidx (s : State) (n : Nat) (v : BitVec 128) : (s.setB n v).g.gidx = s.g.gidx := by simp [State.setB]
@[simp] theorem State.setB_g_asid (s : State) (n : Nat) (v : BitVec 128) : (s.setB n v).g.asid = s.g.asid := by simp [State.setB]
@[simp] theorem State.setB_g_die (s : State) (n : Nat) (v : BitVec 128) : (s.setB n v).g.die = s.g.die := by simp [State.setB]
@[simp] theorem State.setB_g_core (s : State) (n : Nat) (v : BitVec 128) : (s.setB n v).g.core = s.g.core := by simp [State.setB]
@[simp] theorem State.setB_g_quarter (s : State) (n : Nat) (v : BitVec 128) : (s.setB n v).g.quarter = s.g.quarter := by simp [State.setB]
@[simp] theorem State.setB_g_sregs (s : State) (n : Nat) (v : BitVec 128) : (s.setB n v).g.sregs = s.g.sregs := by simp [State.setB]
@[simp] theorem State.setB_g_vregs (s : State) (n : Nat) (v : BitVec 128) : (s.setB n v).g.vregs = s.g.vregs := by simp [State.setB]
@[simp] theorem State.setB_g_vcount (s : State) (n : Nat) (v : BitVec 128) : (s.setB n v).g.vcount = s.g.vcount := by simp [State.setB]
@[simp] theorem State.setB_g_mregs (s : State) (n : Nat) (v : BitVec 128) : (s.setB n v).g.mregs = s.g.mregs := by simp [State.setB]
@[simp] theorem State.setB_g_hregs (s : State) (n : Nat) (v : BitVec 128) : (s.setB n v).g.hregs = s.g.hregs := by simp [State.setB]
@[simp] theorem State.setB_g_qflags (s : State) (n : Nat) (v : BitVec 128) : (s.setB n v).g.qflags = s.g.qflags := by simp [State.setB]
@[simp] theorem State.setB_g_gstat (s : State) (n : Nat) (v : BitVec 128) : (s.setB n v).g.gstat = s.g.gstat := by simp [State.setB]
@[simp] theorem State.setB_g_fpctl (s : State) (n : Nat) (v : BitVec 128) : (s.setB n v).g.fpctl = s.g.fpctl := by simp [State.setB]
@[simp] theorem State.setB_g_rseed (s : State) (n : Nat) (v : BitVec 128) : (s.setB n v).g.rseed = s.g.rseed := by simp [State.setB]
@[simp] theorem State.setB_g_fpstat (s : State) (n : Nat) (v : BitVec 128) : (s.setB n v).g.fpstat = s.g.fpstat := by simp [State.setB]
@[simp] theorem State.setB_g_nanctl (s : State) (n : Nat) (v : BitVec 128) : (s.setB n v).g.nanctl = s.g.nanctl := by simp [State.setB]
@[simp] theorem State.setB_g_hangctl (s : State) (n : Nat) (v : BitVec 128) : (s.setB n v).g.hangctl = s.g.hangctl := by simp [State.setB]
@[simp] theorem State.setB_g_hang (s : State) (n : Nat) (v : BitVec 128) : (s.setB n v).g.hang = s.g.hang := by simp [State.setB]
@[simp] theorem State.setB_g_hangPending (s : State) (n : Nat) (v : BitVec 128) : (s.setB n v).g.hangPending = s.g.hangPending := by simp [State.setB]
@[simp] theorem State.setB_g_slot0 (s : State) (n : Nat) (v : BitVec 128) : (s.setB n v).g.slot0 = s.g.slot0 := by simp [State.setB]
@[simp] theorem State.setB_g_slot1 (s : State) (n : Nat) (v : BitVec 128) : (s.setB n v).g.slot1 = s.g.slot1 := by simp [State.setB]
@[simp] theorem State.setB_g_stack (s : State) (n : Nat) (v : BitVec 128) : (s.setB n v).g.stack = s.g.stack := by simp [State.setB]
@[simp] theorem State.setB_g_exited (s : State) (n : Nat) (v : BitVec 128) : (s.setB n v).g.exited = s.g.exited := by simp [State.setB]
@[simp] theorem State.setB_g_held (s : State) (n : Nat) (v : BitVec 128) : (s.setB n v).g.held = s.g.held := by simp [State.setB]
@[simp] theorem State.setB_g_trapLanes (s : State) (n : Nat) (v : BitVec 128) : (s.setB n v).g.trapLanes = s.g.trapLanes := by simp [State.setB]
@[simp] theorem State.setB_g_trapKind (s : State) (n : Nat) (v : BitVec 128) : (s.setB n v).g.trapKind = s.g.trapKind := by simp [State.setB]
@[simp] theorem State.setB_g_trapLevel (s : State) (n : Nat) (v : BitVec 128) : (s.setB n v).g.trapLevel = s.g.trapLevel := by simp [State.setB]
@[simp] theorem State.setB_g_trapTop (s : State) (n : Nat) (v : BitVec 128) : (s.setB n v).g.trapTop = s.g.trapTop := by simp [State.setB]
@[simp] theorem State.setB_g_watch (s : State) (n : Nat) (v : BitVec 128) : (s.setB n v).g.watch = s.g.watch := by simp [State.setB]
@[simp] theorem State.setB_g_uo (s : State) (n : Nat) (v : BitVec 128) : (s.setB n v).g.uo = s.g.uo := by simp [State.setB]
@[simp] theorem State.setB_g_uoMarks (s : State) (n : Nat) (v : BitVec 128) : (s.setB n v).g.uoMarks = s.g.uoMarks := by simp [State.setB]
@[simp] theorem State.setB_g_pending (s : State) (n : Nat) (v : BitVec 128) : (s.setB n v).g.pending = s.g.pending := by simp [State.setB]
@[simp] theorem State.setB_g_serving (s : State) (n : Nat) (v : BitVec 128) : (s.setB n v).g.serving = s.g.serving := by simp [State.setB]
@[simp] theorem State.setB_g_hint (s : State) (n : Nat) (v : BitVec 128) : (s.setB n v).g.hint = s.g.hint := by simp [State.setB]
@[simp] theorem State.setB_g_stop (s : State) (n : Nat) (v : BitVec 128) : (s.setB n v).g.stop = s.g.stop := by simp [State.setB]
@[simp] theorem State.setB_g_ovr (s : State) (n : Nat) (v : BitVec 128) : (s.setB n v).g.ovr = s.g.ovr := by simp [State.setB]
@[simp] theorem State.setB_g_yielded (s : State) (n : Nat) (v : BitVec 128) : (s.setB n v).g.yielded = s.g.yielded := by simp [State.setB]
@[simp] theorem State.setB_g_lastSlot (s : State) (n : Nat) (v : BitVec 128) : (s.setB n v).g.lastSlot = s.g.lastSlot := by simp [State.setB]
@[simp] theorem State.setB_g_waited (s : State) (n : Nat) (v : BitVec 128) : (s.setB n v).g.waited = s.g.waited := by simp [State.setB]

@[simp] theorem State.setV_g_id (s : State) (n l : Nat) (v : Word32) : (s.setV n l v).g.id = s.g.id := by simp [State.setV]
@[simp] theorem State.setV_g_gidx (s : State) (n l : Nat) (v : Word32) : (s.setV n l v).g.gidx = s.g.gidx := by simp [State.setV]
@[simp] theorem State.setV_g_asid (s : State) (n l : Nat) (v : Word32) : (s.setV n l v).g.asid = s.g.asid := by simp [State.setV]
@[simp] theorem State.setV_g_die (s : State) (n l : Nat) (v : Word32) : (s.setV n l v).g.die = s.g.die := by simp [State.setV]
@[simp] theorem State.setV_g_core (s : State) (n l : Nat) (v : Word32) : (s.setV n l v).g.core = s.g.core := by simp [State.setV]
@[simp] theorem State.setV_g_quarter (s : State) (n l : Nat) (v : Word32) : (s.setV n l v).g.quarter = s.g.quarter := by simp [State.setV]
@[simp] theorem State.setV_g_sregs (s : State) (n l : Nat) (v : Word32) : (s.setV n l v).g.sregs = s.g.sregs := by simp [State.setV]
@[simp] theorem State.setV_g_privOver (s : State) (n l : Nat) (v : Word32) : (s.setV n l v).g.privOver = s.g.privOver := by simp [State.setV]
@[simp] theorem State.setV_g_vcount (s : State) (n l : Nat) (v : Word32) : (s.setV n l v).g.vcount = s.g.vcount := by simp [State.setV]
@[simp] theorem State.setV_g_mregs (s : State) (n l : Nat) (v : Word32) : (s.setV n l v).g.mregs = s.g.mregs := by simp [State.setV]
@[simp] theorem State.setV_g_bregs (s : State) (n l : Nat) (v : Word32) : (s.setV n l v).g.bregs = s.g.bregs := by simp [State.setV]
@[simp] theorem State.setV_g_hregs (s : State) (n l : Nat) (v : Word32) : (s.setV n l v).g.hregs = s.g.hregs := by simp [State.setV]
@[simp] theorem State.setV_g_qflags (s : State) (n l : Nat) (v : Word32) : (s.setV n l v).g.qflags = s.g.qflags := by simp [State.setV]
@[simp] theorem State.setV_g_gstat (s : State) (n l : Nat) (v : Word32) : (s.setV n l v).g.gstat = s.g.gstat := by simp [State.setV]
@[simp] theorem State.setV_g_fpctl (s : State) (n l : Nat) (v : Word32) : (s.setV n l v).g.fpctl = s.g.fpctl := by simp [State.setV]
@[simp] theorem State.setV_g_rseed (s : State) (n l : Nat) (v : Word32) : (s.setV n l v).g.rseed = s.g.rseed := by simp [State.setV]
@[simp] theorem State.setV_g_fpstat (s : State) (n l : Nat) (v : Word32) : (s.setV n l v).g.fpstat = s.g.fpstat := by simp [State.setV]
@[simp] theorem State.setV_g_nanctl (s : State) (n l : Nat) (v : Word32) : (s.setV n l v).g.nanctl = s.g.nanctl := by simp [State.setV]
@[simp] theorem State.setV_g_hangctl (s : State) (n l : Nat) (v : Word32) : (s.setV n l v).g.hangctl = s.g.hangctl := by simp [State.setV]
@[simp] theorem State.setV_g_hang (s : State) (n l : Nat) (v : Word32) : (s.setV n l v).g.hang = s.g.hang := by simp [State.setV]
@[simp] theorem State.setV_g_hangPending (s : State) (n l : Nat) (v : Word32) : (s.setV n l v).g.hangPending = s.g.hangPending := by simp [State.setV]
@[simp] theorem State.setV_g_slot0 (s : State) (n l : Nat) (v : Word32) : (s.setV n l v).g.slot0 = s.g.slot0 := by simp [State.setV]
@[simp] theorem State.setV_g_slot1 (s : State) (n l : Nat) (v : Word32) : (s.setV n l v).g.slot1 = s.g.slot1 := by simp [State.setV]
@[simp] theorem State.setV_g_stack (s : State) (n l : Nat) (v : Word32) : (s.setV n l v).g.stack = s.g.stack := by simp [State.setV]
@[simp] theorem State.setV_g_exited (s : State) (n l : Nat) (v : Word32) : (s.setV n l v).g.exited = s.g.exited := by simp [State.setV]
@[simp] theorem State.setV_g_held (s : State) (n l : Nat) (v : Word32) : (s.setV n l v).g.held = s.g.held := by simp [State.setV]
@[simp] theorem State.setV_g_trapLanes (s : State) (n l : Nat) (v : Word32) : (s.setV n l v).g.trapLanes = s.g.trapLanes := by simp [State.setV]
@[simp] theorem State.setV_g_trapKind (s : State) (n l : Nat) (v : Word32) : (s.setV n l v).g.trapKind = s.g.trapKind := by simp [State.setV]
@[simp] theorem State.setV_g_trapLevel (s : State) (n l : Nat) (v : Word32) : (s.setV n l v).g.trapLevel = s.g.trapLevel := by simp [State.setV]
@[simp] theorem State.setV_g_trapTop (s : State) (n l : Nat) (v : Word32) : (s.setV n l v).g.trapTop = s.g.trapTop := by simp [State.setV]
@[simp] theorem State.setV_g_watch (s : State) (n l : Nat) (v : Word32) : (s.setV n l v).g.watch = s.g.watch := by simp [State.setV]
@[simp] theorem State.setV_g_uo (s : State) (n l : Nat) (v : Word32) : (s.setV n l v).g.uo = s.g.uo := by simp [State.setV]
@[simp] theorem State.setV_g_uoMarks (s : State) (n l : Nat) (v : Word32) : (s.setV n l v).g.uoMarks = s.g.uoMarks := by simp [State.setV]
@[simp] theorem State.setV_g_pending (s : State) (n l : Nat) (v : Word32) : (s.setV n l v).g.pending = s.g.pending := by simp [State.setV]
@[simp] theorem State.setV_g_serving (s : State) (n l : Nat) (v : Word32) : (s.setV n l v).g.serving = s.g.serving := by simp [State.setV]
@[simp] theorem State.setV_g_hint (s : State) (n l : Nat) (v : Word32) : (s.setV n l v).g.hint = s.g.hint := by simp [State.setV]
@[simp] theorem State.setV_g_stop (s : State) (n l : Nat) (v : Word32) : (s.setV n l v).g.stop = s.g.stop := by simp [State.setV]
@[simp] theorem State.setV_g_ovr (s : State) (n l : Nat) (v : Word32) : (s.setV n l v).g.ovr = s.g.ovr := by simp [State.setV]
@[simp] theorem State.setV_g_yielded (s : State) (n l : Nat) (v : Word32) : (s.setV n l v).g.yielded = s.g.yielded := by simp [State.setV]
@[simp] theorem State.setV_g_lastSlot (s : State) (n l : Nat) (v : Word32) : (s.setV n l v).g.lastSlot = s.g.lastSlot := by simp [State.setV]
@[simp] theorem State.setV_g_waited (s : State) (n l : Nat) (v : Word32) : (s.setV n l v).g.waited = s.g.waited := by simp [State.setV]

@[simp] theorem State.setM_g_id (s : State) (n : Nat) (v : Word32) : (s.setM n v).g.id = s.g.id := by unfold State.setM; split <;> simp
@[simp] theorem State.setM_g_gidx (s : State) (n : Nat) (v : Word32) : (s.setM n v).g.gidx = s.g.gidx := by unfold State.setM; split <;> simp
@[simp] theorem State.setM_g_asid (s : State) (n : Nat) (v : Word32) : (s.setM n v).g.asid = s.g.asid := by unfold State.setM; split <;> simp
@[simp] theorem State.setM_g_die (s : State) (n : Nat) (v : Word32) : (s.setM n v).g.die = s.g.die := by unfold State.setM; split <;> simp
@[simp] theorem State.setM_g_core (s : State) (n : Nat) (v : Word32) : (s.setM n v).g.core = s.g.core := by unfold State.setM; split <;> simp
@[simp] theorem State.setM_g_quarter (s : State) (n : Nat) (v : Word32) : (s.setM n v).g.quarter = s.g.quarter := by unfold State.setM; split <;> simp
@[simp] theorem State.setM_g_sregs (s : State) (n : Nat) (v : Word32) : (s.setM n v).g.sregs = s.g.sregs := by unfold State.setM; split <;> simp
@[simp] theorem State.setM_g_vregs (s : State) (n : Nat) (v : Word32) : (s.setM n v).g.vregs = s.g.vregs := by unfold State.setM; split <;> simp
@[simp] theorem State.setM_g_privOver (s : State) (n : Nat) (v : Word32) : (s.setM n v).g.privOver = s.g.privOver := by unfold State.setM; split <;> simp
@[simp] theorem State.setM_g_vcount (s : State) (n : Nat) (v : Word32) : (s.setM n v).g.vcount = s.g.vcount := by unfold State.setM; split <;> simp
@[simp] theorem State.setM_g_bregs (s : State) (n : Nat) (v : Word32) : (s.setM n v).g.bregs = s.g.bregs := by unfold State.setM; split <;> simp
@[simp] theorem State.setM_g_hregs (s : State) (n : Nat) (v : Word32) : (s.setM n v).g.hregs = s.g.hregs := by unfold State.setM; split <;> simp
@[simp] theorem State.setM_g_qflags (s : State) (n : Nat) (v : Word32) : (s.setM n v).g.qflags = s.g.qflags := by unfold State.setM; split <;> simp
@[simp] theorem State.setM_g_gstat (s : State) (n : Nat) (v : Word32) : (s.setM n v).g.gstat = s.g.gstat := by unfold State.setM; split <;> simp
@[simp] theorem State.setM_g_fpctl (s : State) (n : Nat) (v : Word32) : (s.setM n v).g.fpctl = s.g.fpctl := by unfold State.setM; split <;> simp
@[simp] theorem State.setM_g_rseed (s : State) (n : Nat) (v : Word32) : (s.setM n v).g.rseed = s.g.rseed := by unfold State.setM; split <;> simp
@[simp] theorem State.setM_g_fpstat (s : State) (n : Nat) (v : Word32) : (s.setM n v).g.fpstat = s.g.fpstat := by unfold State.setM; split <;> simp
@[simp] theorem State.setM_g_nanctl (s : State) (n : Nat) (v : Word32) : (s.setM n v).g.nanctl = s.g.nanctl := by unfold State.setM; split <;> simp
@[simp] theorem State.setM_g_hangctl (s : State) (n : Nat) (v : Word32) : (s.setM n v).g.hangctl = s.g.hangctl := by unfold State.setM; split <;> simp
@[simp] theorem State.setM_g_hang (s : State) (n : Nat) (v : Word32) : (s.setM n v).g.hang = s.g.hang := by unfold State.setM; split <;> simp
@[simp] theorem State.setM_g_hangPending (s : State) (n : Nat) (v : Word32) : (s.setM n v).g.hangPending = s.g.hangPending := by unfold State.setM; split <;> simp
@[simp] theorem State.setM_g_slot0 (s : State) (n : Nat) (v : Word32) : (s.setM n v).g.slot0 = s.g.slot0 := by unfold State.setM; split <;> simp
@[simp] theorem State.setM_g_slot1 (s : State) (n : Nat) (v : Word32) : (s.setM n v).g.slot1 = s.g.slot1 := by unfold State.setM; split <;> simp
@[simp] theorem State.setM_g_stack (s : State) (n : Nat) (v : Word32) : (s.setM n v).g.stack = s.g.stack := by unfold State.setM; split <;> simp
@[simp] theorem State.setM_g_exited (s : State) (n : Nat) (v : Word32) : (s.setM n v).g.exited = s.g.exited := by unfold State.setM; split <;> simp
@[simp] theorem State.setM_g_held (s : State) (n : Nat) (v : Word32) : (s.setM n v).g.held = s.g.held := by unfold State.setM; split <;> simp
@[simp] theorem State.setM_g_trapLanes (s : State) (n : Nat) (v : Word32) : (s.setM n v).g.trapLanes = s.g.trapLanes := by unfold State.setM; split <;> simp
@[simp] theorem State.setM_g_trapKind (s : State) (n : Nat) (v : Word32) : (s.setM n v).g.trapKind = s.g.trapKind := by unfold State.setM; split <;> simp
@[simp] theorem State.setM_g_trapLevel (s : State) (n : Nat) (v : Word32) : (s.setM n v).g.trapLevel = s.g.trapLevel := by unfold State.setM; split <;> simp
@[simp] theorem State.setM_g_trapTop (s : State) (n : Nat) (v : Word32) : (s.setM n v).g.trapTop = s.g.trapTop := by unfold State.setM; split <;> simp
@[simp] theorem State.setM_g_watch (s : State) (n : Nat) (v : Word32) : (s.setM n v).g.watch = s.g.watch := by unfold State.setM; split <;> simp
@[simp] theorem State.setM_g_uo (s : State) (n : Nat) (v : Word32) : (s.setM n v).g.uo = s.g.uo := by unfold State.setM; split <;> simp
@[simp] theorem State.setM_g_uoMarks (s : State) (n : Nat) (v : Word32) : (s.setM n v).g.uoMarks = s.g.uoMarks := by unfold State.setM; split <;> simp
@[simp] theorem State.setM_g_pending (s : State) (n : Nat) (v : Word32) : (s.setM n v).g.pending = s.g.pending := by unfold State.setM; split <;> simp
@[simp] theorem State.setM_g_serving (s : State) (n : Nat) (v : Word32) : (s.setM n v).g.serving = s.g.serving := by unfold State.setM; split <;> simp
@[simp] theorem State.setM_g_hint (s : State) (n : Nat) (v : Word32) : (s.setM n v).g.hint = s.g.hint := by unfold State.setM; split <;> simp
@[simp] theorem State.setM_g_stop (s : State) (n : Nat) (v : Word32) : (s.setM n v).g.stop = s.g.stop := by unfold State.setM; split <;> simp
@[simp] theorem State.setM_g_ovr (s : State) (n : Nat) (v : Word32) : (s.setM n v).g.ovr = s.g.ovr := by unfold State.setM; split <;> simp
@[simp] theorem State.setM_g_yielded (s : State) (n : Nat) (v : Word32) : (s.setM n v).g.yielded = s.g.yielded := by unfold State.setM; split <;> simp
@[simp] theorem State.setM_g_lastSlot (s : State) (n : Nat) (v : Word32) : (s.setM n v).g.lastSlot = s.g.lastSlot := by unfold State.setM; split <;> simp
@[simp] theorem State.setM_g_waited (s : State) (n : Nat) (v : Word32) : (s.setM n v).g.waited = s.g.waited := by unfold State.setM; split <;> simp

/-! The group at issue after its path moves on: its registers are as they were. -/

@[simp] theorem Group.setPath_id (g : Group) (b : Bool) (p : Option Path) : (g.setPath b p).id = g.id := by cases b <;> rfl
@[simp] theorem Group.setPath_gidx (g : Group) (b : Bool) (p : Option Path) : (g.setPath b p).gidx = g.gidx := by cases b <;> rfl
@[simp] theorem Group.setPath_asid (g : Group) (b : Bool) (p : Option Path) : (g.setPath b p).asid = g.asid := by cases b <;> rfl
@[simp] theorem Group.setPath_die (g : Group) (b : Bool) (p : Option Path) : (g.setPath b p).die = g.die := by cases b <;> rfl
@[simp] theorem Group.setPath_core (g : Group) (b : Bool) (p : Option Path) : (g.setPath b p).core = g.core := by cases b <;> rfl
@[simp] theorem Group.setPath_quarter (g : Group) (b : Bool) (p : Option Path) : (g.setPath b p).quarter = g.quarter := by cases b <;> rfl
@[simp] theorem Group.setPath_sregs (g : Group) (b : Bool) (p : Option Path) : (g.setPath b p).sregs = g.sregs := by cases b <;> rfl
@[simp] theorem Group.setPath_vregs (g : Group) (b : Bool) (p : Option Path) : (g.setPath b p).vregs = g.vregs := by cases b <;> rfl
@[simp] theorem Group.setPath_privOver (g : Group) (b : Bool) (p : Option Path) : (g.setPath b p).privOver = g.privOver := by cases b <;> rfl
@[simp] theorem Group.setPath_vcount (g : Group) (b : Bool) (p : Option Path) : (g.setPath b p).vcount = g.vcount := by cases b <;> rfl
@[simp] theorem Group.setPath_mregs (g : Group) (b : Bool) (p : Option Path) : (g.setPath b p).mregs = g.mregs := by cases b <;> rfl
@[simp] theorem Group.setPath_bregs (g : Group) (b : Bool) (p : Option Path) : (g.setPath b p).bregs = g.bregs := by cases b <;> rfl
@[simp] theorem Group.setPath_hregs (g : Group) (b : Bool) (p : Option Path) : (g.setPath b p).hregs = g.hregs := by cases b <;> rfl
@[simp] theorem Group.setPath_qflags (g : Group) (b : Bool) (p : Option Path) : (g.setPath b p).qflags = g.qflags := by cases b <;> rfl
@[simp] theorem Group.setPath_gstat (g : Group) (b : Bool) (p : Option Path) : (g.setPath b p).gstat = g.gstat := by cases b <;> rfl
@[simp] theorem Group.setPath_fpctl (g : Group) (b : Bool) (p : Option Path) : (g.setPath b p).fpctl = g.fpctl := by cases b <;> rfl
@[simp] theorem Group.setPath_rseed (g : Group) (b : Bool) (p : Option Path) : (g.setPath b p).rseed = g.rseed := by cases b <;> rfl
@[simp] theorem Group.setPath_fpstat (g : Group) (b : Bool) (p : Option Path) : (g.setPath b p).fpstat = g.fpstat := by cases b <;> rfl
@[simp] theorem Group.setPath_nanctl (g : Group) (b : Bool) (p : Option Path) : (g.setPath b p).nanctl = g.nanctl := by cases b <;> rfl
@[simp] theorem Group.setPath_hangctl (g : Group) (b : Bool) (p : Option Path) : (g.setPath b p).hangctl = g.hangctl := by cases b <;> rfl
@[simp] theorem Group.setPath_hang (g : Group) (b : Bool) (p : Option Path) : (g.setPath b p).hang = g.hang := by cases b <;> rfl
@[simp] theorem Group.setPath_hangPending (g : Group) (b : Bool) (p : Option Path) : (g.setPath b p).hangPending = g.hangPending := by cases b <;> rfl
@[simp] theorem Group.setPath_stack (g : Group) (b : Bool) (p : Option Path) : (g.setPath b p).stack = g.stack := by cases b <;> rfl
@[simp] theorem Group.setPath_exited (g : Group) (b : Bool) (p : Option Path) : (g.setPath b p).exited = g.exited := by cases b <;> rfl
@[simp] theorem Group.setPath_held (g : Group) (b : Bool) (p : Option Path) : (g.setPath b p).held = g.held := by cases b <;> rfl
@[simp] theorem Group.setPath_trapLanes (g : Group) (b : Bool) (p : Option Path) : (g.setPath b p).trapLanes = g.trapLanes := by cases b <;> rfl
@[simp] theorem Group.setPath_trapKind (g : Group) (b : Bool) (p : Option Path) : (g.setPath b p).trapKind = g.trapKind := by cases b <;> rfl
@[simp] theorem Group.setPath_trapLevel (g : Group) (b : Bool) (p : Option Path) : (g.setPath b p).trapLevel = g.trapLevel := by cases b <;> rfl
@[simp] theorem Group.setPath_trapTop (g : Group) (b : Bool) (p : Option Path) : (g.setPath b p).trapTop = g.trapTop := by cases b <;> rfl
@[simp] theorem Group.setPath_watch (g : Group) (b : Bool) (p : Option Path) : (g.setPath b p).watch = g.watch := by cases b <;> rfl
@[simp] theorem Group.setPath_uo (g : Group) (b : Bool) (p : Option Path) : (g.setPath b p).uo = g.uo := by cases b <;> rfl
@[simp] theorem Group.setPath_uoMarks (g : Group) (b : Bool) (p : Option Path) : (g.setPath b p).uoMarks = g.uoMarks := by cases b <;> rfl
@[simp] theorem Group.setPath_pending (g : Group) (b : Bool) (p : Option Path) : (g.setPath b p).pending = g.pending := by cases b <;> rfl
@[simp] theorem Group.setPath_serving (g : Group) (b : Bool) (p : Option Path) : (g.setPath b p).serving = g.serving := by cases b <;> rfl
@[simp] theorem Group.setPath_hint (g : Group) (b : Bool) (p : Option Path) : (g.setPath b p).hint = g.hint := by cases b <;> rfl
@[simp] theorem Group.setPath_stop (g : Group) (b : Bool) (p : Option Path) : (g.setPath b p).stop = g.stop := by cases b <;> rfl
@[simp] theorem Group.setPath_lastSlot (g : Group) (b : Bool) (p : Option Path) : (g.setPath b p).lastSlot = g.lastSlot := by cases b <;> rfl
@[simp] theorem Group.setPath_waited (g : Group) (b : Bool) (p : Option Path) : (g.setPath b p).waited = g.waited := by cases b <;> rfl
@[simp] theorem State.retireAt_g_id (s : State) (n : Nat) (c : Word64) : (s.retireAt n c).g.id = s.g.id := by simp only [State.retireAt, State.afterAdvance]; split <;> simp [State.setPath]
@[simp] theorem State.retireAt_g_gidx (s : State) (n : Nat) (c : Word64) : (s.retireAt n c).g.gidx = s.g.gidx := by simp only [State.retireAt, State.afterAdvance]; split <;> simp [State.setPath]
@[simp] theorem State.retireAt_g_asid (s : State) (n : Nat) (c : Word64) : (s.retireAt n c).g.asid = s.g.asid := by simp only [State.retireAt, State.afterAdvance]; split <;> simp [State.setPath]
@[simp] theorem State.retireAt_g_die (s : State) (n : Nat) (c : Word64) : (s.retireAt n c).g.die = s.g.die := by simp only [State.retireAt, State.afterAdvance]; split <;> simp [State.setPath]
@[simp] theorem State.retireAt_g_core (s : State) (n : Nat) (c : Word64) : (s.retireAt n c).g.core = s.g.core := by simp only [State.retireAt, State.afterAdvance]; split <;> simp [State.setPath]
@[simp] theorem State.retireAt_g_quarter (s : State) (n : Nat) (c : Word64) : (s.retireAt n c).g.quarter = s.g.quarter := by simp only [State.retireAt, State.afterAdvance]; split <;> simp [State.setPath]
@[simp] theorem State.retireAt_g_sregs (s : State) (n : Nat) (c : Word64) : (s.retireAt n c).g.sregs = s.g.sregs := by simp only [State.retireAt, State.afterAdvance]; split <;> simp [State.setPath]
@[simp] theorem State.retireAt_g_vregs (s : State) (n : Nat) (c : Word64) : (s.retireAt n c).g.vregs = s.g.vregs := by simp only [State.retireAt, State.afterAdvance]; split <;> simp [State.setPath]
@[simp] theorem State.retireAt_g_privOver (s : State) (n : Nat) (c : Word64) : (s.retireAt n c).g.privOver = s.g.privOver := by simp only [State.retireAt, State.afterAdvance]; split <;> simp [State.setPath]
@[simp] theorem State.retireAt_g_vcount (s : State) (n : Nat) (c : Word64) : (s.retireAt n c).g.vcount = s.g.vcount := by simp only [State.retireAt, State.afterAdvance]; split <;> simp [State.setPath]
@[simp] theorem State.retireAt_g_mregs (s : State) (n : Nat) (c : Word64) : (s.retireAt n c).g.mregs = s.g.mregs := by simp only [State.retireAt, State.afterAdvance]; split <;> simp [State.setPath]
@[simp] theorem State.retireAt_g_bregs (s : State) (n : Nat) (c : Word64) : (s.retireAt n c).g.bregs = s.g.bregs := by simp only [State.retireAt, State.afterAdvance]; split <;> simp [State.setPath]
@[simp] theorem State.retireAt_g_hregs (s : State) (n : Nat) (c : Word64) : (s.retireAt n c).g.hregs = s.g.hregs := by simp only [State.retireAt, State.afterAdvance]; split <;> simp [State.setPath]
@[simp] theorem State.retireAt_g_qflags (s : State) (n : Nat) (c : Word64) : (s.retireAt n c).g.qflags = s.g.qflags := by simp only [State.retireAt, State.afterAdvance]; split <;> simp [State.setPath]
@[simp] theorem State.retireAt_g_gstat (s : State) (n : Nat) (c : Word64) : (s.retireAt n c).g.gstat = s.g.gstat := by simp only [State.retireAt, State.afterAdvance]; split <;> simp [State.setPath]
@[simp] theorem State.retireAt_g_fpctl (s : State) (n : Nat) (c : Word64) : (s.retireAt n c).g.fpctl = s.g.fpctl := by simp only [State.retireAt, State.afterAdvance]; split <;> simp [State.setPath]
@[simp] theorem State.retireAt_g_rseed (s : State) (n : Nat) (c : Word64) : (s.retireAt n c).g.rseed = s.g.rseed := by simp only [State.retireAt, State.afterAdvance]; split <;> simp [State.setPath]
@[simp] theorem State.retireAt_g_fpstat (s : State) (n : Nat) (c : Word64) : (s.retireAt n c).g.fpstat = s.g.fpstat := by simp only [State.retireAt, State.afterAdvance]; split <;> simp [State.setPath]
@[simp] theorem State.retireAt_g_nanctl (s : State) (n : Nat) (c : Word64) : (s.retireAt n c).g.nanctl = s.g.nanctl := by simp only [State.retireAt, State.afterAdvance]; split <;> simp [State.setPath]
@[simp] theorem State.retireAt_g_hangctl (s : State) (n : Nat) (c : Word64) : (s.retireAt n c).g.hangctl = s.g.hangctl := by simp only [State.retireAt, State.afterAdvance]; split <;> simp [State.setPath]
@[simp] theorem State.retireAt_g_hang (s : State) (n : Nat) (c : Word64) : (s.retireAt n c).g.hang = s.g.hang := by simp only [State.retireAt, State.afterAdvance]; split <;> simp [State.setPath]
@[simp] theorem State.retireAt_g_hangPending (s : State) (n : Nat) (c : Word64) : (s.retireAt n c).g.hangPending = s.g.hangPending := by simp only [State.retireAt, State.afterAdvance]; split <;> simp [State.setPath]
@[simp] theorem State.retireAt_g_stack (s : State) (n : Nat) (c : Word64) : (s.retireAt n c).g.stack = s.g.stack := by simp only [State.retireAt, State.afterAdvance]; split <;> simp [State.setPath]
@[simp] theorem State.retireAt_g_exited (s : State) (n : Nat) (c : Word64) : (s.retireAt n c).g.exited = s.g.exited := by simp only [State.retireAt, State.afterAdvance]; split <;> simp [State.setPath]
@[simp] theorem State.retireAt_g_held (s : State) (n : Nat) (c : Word64) : (s.retireAt n c).g.held = s.g.held := by simp only [State.retireAt, State.afterAdvance]; split <;> simp [State.setPath]
@[simp] theorem State.retireAt_g_trapLanes (s : State) (n : Nat) (c : Word64) : (s.retireAt n c).g.trapLanes = s.g.trapLanes := by simp only [State.retireAt, State.afterAdvance]; split <;> simp [State.setPath]
@[simp] theorem State.retireAt_g_trapKind (s : State) (n : Nat) (c : Word64) : (s.retireAt n c).g.trapKind = s.g.trapKind := by simp only [State.retireAt, State.afterAdvance]; split <;> simp [State.setPath]
@[simp] theorem State.retireAt_g_trapLevel (s : State) (n : Nat) (c : Word64) : (s.retireAt n c).g.trapLevel = s.g.trapLevel := by simp only [State.retireAt, State.afterAdvance]; split <;> simp [State.setPath]
@[simp] theorem State.retireAt_g_trapTop (s : State) (n : Nat) (c : Word64) : (s.retireAt n c).g.trapTop = s.g.trapTop := by simp only [State.retireAt, State.afterAdvance]; split <;> simp [State.setPath]
@[simp] theorem State.retireAt_g_watch (s : State) (n : Nat) (c : Word64) : (s.retireAt n c).g.watch = s.g.watch := by simp only [State.retireAt, State.afterAdvance]; split <;> simp [State.setPath]
@[simp] theorem State.retireAt_g_uo (s : State) (n : Nat) (c : Word64) : (s.retireAt n c).g.uo = s.g.uo := by simp only [State.retireAt, State.afterAdvance]; split <;> simp [State.setPath]
@[simp] theorem State.retireAt_g_uoMarks (s : State) (n : Nat) (c : Word64) : (s.retireAt n c).g.uoMarks = s.g.uoMarks := by simp only [State.retireAt, State.afterAdvance]; split <;> simp [State.setPath]
@[simp] theorem State.retireAt_g_pending (s : State) (n : Nat) (c : Word64) : (s.retireAt n c).g.pending = s.g.pending := by simp only [State.retireAt, State.afterAdvance]; split <;> simp [State.setPath]
@[simp] theorem State.retireAt_g_serving (s : State) (n : Nat) (c : Word64) : (s.retireAt n c).g.serving = s.g.serving := by simp only [State.retireAt, State.afterAdvance]; split <;> simp [State.setPath]
@[simp] theorem State.retireAt_g_hint (s : State) (n : Nat) (c : Word64) : (s.retireAt n c).g.hint = s.g.hint := by simp only [State.retireAt, State.afterAdvance]; split <;> simp [State.setPath]
@[simp] theorem State.retireAt_g_stop (s : State) (n : Nat) (c : Word64) : (s.retireAt n c).g.stop = s.g.stop := by simp only [State.retireAt, State.afterAdvance]; split <;> simp [State.setPath]
@[simp] theorem State.retireAt_g_lastSlot (s : State) (n : Nat) (c : Word64) : (s.retireAt n c).g.lastSlot = s.g.lastSlot := by simp only [State.retireAt, State.afterAdvance]; split <;> simp [State.setPath]
@[simp] theorem State.retireAt_g_waited (s : State) (n : Nat) (c : Word64) : (s.retireAt n c).g.waited = s.g.waited := by simp only [State.retireAt, State.afterAdvance]; split <;> simp [State.setPath]

end Sys2Proof.Machine
end

