-- ==== Sys2Proof/Laws/Ops.lean ====
section
/-! SUPPORT. The shared operations of Ops.lean: what each can do, once. -/

namespace Sys2Proof.Machine

theorem afterAdvance_frame (s : State) (p' : Path) : s.afterAdvance s.path p' = { s with g := (s.afterAdvance s.path p').g, granted := (s.afterAdvance s.path p').granted } := by
  unfold State.afterAdvance; simp only []; split <;> rfl
theorem retire_group (s : State) (n : Nat) : (s.retire n).g = { s.g with slot0 := (s.retire n).g.slot0, slot1 := (s.retire n).g.slot1, ovr := (s.retire n).g.ovr, yielded := (s.retire n).g.yielded } := by
  unfold State.retire State.retireAt State.afterAdvance State.setPath Group.setPath; simp only []; split <;> split <;> rfl
theorem retire_path (s : State) (n : Nat) (c : Word64): (s.retireAt n c).path = { (s.tickTo (s.path.advance n) c).replayClock with stalled := false } := by
  unfold State.retireAt State.afterAdvance State.setPath Group.setPath
  simp only []
  split <;> simp only [State.path, Group.path?] <;> split <;> rfl
theorem retire_other (s : State) (n : Nat) (c : Word64) : (s.retireAt n c).g.path? (!s.slot) = s.g.path? (!s.slot) := by
  unfold State.retireAt State.afterAdvance State.setPath Group.setPath
  simp only []
  cases hs : s.slot <;> split <;> simp [Group.path?]
theorem advance_same (p : Path) (n : Nat) : p.advance n = { p with pc := (p.advance n).pc, off := (p.advance n).off, clock := (p.advance n).clock, clause := (p.advance n).clause, top := (p.advance n).top, wait := (p.advance n).wait, replay := (p.advance n).replay, stalled := (p.advance n).stalled } := by
  unfold Path.advance; split <;> (try split) <;> rfl
theorem replayClock_same (p : Path) : p.replayClock = { p with clock := p.replayClock.clock } := by
  unfold Path.replayClock; split <;> (try split) <;> rfl
theorem tick_same (s : State) (p : Path) (c : Word64) : s.tickTo p c = { p with pc := (s.tickTo p c).pc, off := (s.tickTo p c).off, clock := (s.tickTo p c).clock, clause := (s.tickTo p c).clause, top := (s.tickTo p c).top, wait := (s.tickTo p c).wait, replay := (s.tickTo p c).replay, stalled := (s.tickTo p c).stalled } := by
  unfold State.tickTo; split <;> rfl
theorem retire_samePath (s : State) (n : Nat) (c : Word64) : s.samePath (s.retireAt n c) := by
  refine ⟨retire_other s n c, ?_⟩
  rw [retire_path, replayClock_same, tick_same, advance_same]
theorem retire_nothing (s : State) (n : Nat) : s.wroteNothing (s.retire n) := by
  refine ⟨retire_samePath s n _, afterAdvance_frame s _, retire_group s n, fun a => ?_⟩
  have : (s.retire n).mem = s.mem := by rw [show (s.retire n) = _ from afterAdvance_frame s _]
  simp [State.byte, this]

theorem unsoft_eq (s : State) (ts : List PoisonTarget) : s.unsoft ts = { s with soft := s.soft.filter fun t => !ts.contains t } := by
  unfold State.unsoft; split
  · rename_i h; have : s.soft = [] := by simpa using h
    cases s; simp_all
  · rfl

theorem setS_eq (s : State) (d : BitVec 7) (v : Word64) : s.setS d v = { s with g := { s.g with sregs := s.g.sregs.set d.toNat v }, soft := s.soft.filter fun t => !([PoisonTarget.sreg s.g.id d.toNat]).contains t } := by
  unfold State.setS; rw [unsoft_eq]

theorem setS_retire (s : State) (d : BitVec 7) (v : Word64) (n : Nat) :
    ((s.setS d v).retire n).g.sregs.get d.toNat = v ∧ s.wroteS ((s.setS d v).retire n) d := by
  obtain ⟨⟨h1, h2⟩, h3, h4, h5⟩ := retire_nothing (s.setS d v) n
  set t := (s.setS d v).retire n with ht
  have hg : t.g.sregs = s.g.sregs.set d.toNat v := by rw [h4, setS_eq]
  have hsoft : t.soft = s.soft.filter fun x => !([PoisonTarget.sreg s.g.id d.toNat]).contains x := by rw [h3, setS_eq]
  refine ⟨by rw [hg]; simp, ?_, ⟨?_, ?_⟩, ?_, ?_, ?_, ?_⟩
  · unfold State.onlyGroup; rw [h3, setS_eq]
  · rw [setS_eq] at h1; exact h1
  · rw [setS_eq] at h2; exact h2
  · rw [h4, setS_eq]
  · intro n hn; rw [hg]; simp [hn]
  · intro x hx; simp [State.isSoft, hsoft, hx]
  · intro a; rw [h5]; rw [setS_eq]; rfl

theorem writeRetire_does (s : State) (d : BitVec 7) (v : Word64) (n : Nat) (h : s.busyReg d = false) : Does (writeRetire d v n) s () ((s.setS d v).retire n) := by
  simp [Does, writeRetire, writeS, h]

@[simp] theorem act_writeS (n : BitVec 7) (v : Word64) (s : State) :
    runAct (writeS n v) s = if s.busyReg n then (.error .stall, s) else (.ok ⟨⟩, s.setS n v) := by
  simp only [writeS, act_bind, act_get, act_ite, act_stall, act_set]

@[simp] theorem act_writeRetire (d : BitVec 7) (v : Word64) (n : Nat) (s : State) :
    runAct (writeRetire d v n) s = if s.busyReg d then (.error .stall, s) else (.ok ⟨⟩, (s.setS d v).retire n) := by
  simp only [writeRetire, act_bind, act_writeS]
  by_cases h : s.busyReg d <;> simp [h]

/-- R314: a scalar access keeps its result, and a trap takes the path's mask. -/
@[simp] theorem act_pathMask {α : Type} (a : Act α) (s : State) :
    runAct (pathMask a) s =
      match runAct a s with
      | (.ok x, t) => (.ok x, t)
      | (.error (.trap e), t) => (.error (.trap { e with lmask := t.path.mask }), t)
      | (.error e, t) => (.error e, t) := by
  unfold pathMask runAct
  rcases h : a.run.run s with ⟨r, t⟩
  have h' : (a : StateM State (Except Stop α)) s = (r, t) := h
  rcases r with e | x
  · cases e <;> simp [tryCatch, tryCatchThe, MonadExceptOf.tryCatch, ExceptT.tryCatch, ExceptT.run, StateT.run, bind, StateT.bind, ExceptT.mk, h'] <;> rfl
  · simp [tryCatch, tryCatchThe, MonadExceptOf.tryCatch, ExceptT.tryCatch, ExceptT.run, StateT.run, bind, StateT.bind, ExceptT.mk, h']; rfl

/-- R97: the clamp of an annotation. -/
@[simp] theorem act_clamp (win scope : Nat) (any : Bool) (s : State) :
    runAct (clamp win scope any) s = (.ok ⟨⟩, s.clamped win scope any) := by
  unfold clamp State.clamped
  by_cases h : any = true ∧ reach win < scope
  · rw [if_pos h, if_pos (by simpa using h)]; rfl
  · rw [if_neg h, if_neg (by simpa using h)]; rfl

@[simp] theorem busyReg_clamped (s : State) (win scope : Nat) (any : Bool) (d : BitVec 7) :
    (s.clamped win scope any).busyReg d = s.busyReg d := by
  unfold State.clamped; split <;> rfl

end Sys2Proof.Machine
end

