-- ==== Sys2Proof/Laws/PerInstr.lean ====
section
/-! SUPPORT. One lemma for each instruction: the row of the encoding tables that its encoding names is its own, in the form of its
opcode. With `parse_words` they say that the words of a well-formed instruction decode to it. -/

namespace Sys2Proof.Laws.WellFormed

/-- Bits that lie in the low part of a joined word. -/
theorem extract_low {n m : Nat} (a : BitVec n) (b : BitVec m) (lo w : Nat) (h : lo + w ≤ m) : (a ++ b).extractLsb' lo w = b.extractLsb' lo w := by
  ext i hi
  simp [BitVec.getLsbD_append, show lo + i < m by omega]

/-- Bits that lie in the high part of a joined word. -/
theorem extract_high {n m : Nat} (a : BitVec n) (b : BitVec m) (lo w : Nat) (h : m ≤ lo) : (a ++ b).extractLsb' lo w = a.extractLsb' (lo - m) w := by
  ext i hi
  simp only [BitVec.getElem_extractLsb', BitVec.getLsbD_append]
  rw [if_neg (by simp; omega)]
  congr 1; omega

/-- All the bits of a word. -/
theorem extract_all {n : Nat} (a : BitVec n) : a.extractLsb' 0 n = a := BitVec.extractLsb'_eq_self

/-- The three fields of the immediate of a translation-cache invalidation. -/
theorem parts (r : BitVec 4) (s k : BitVec 3) :
    (r ++ s ++ k).extractLsb' 0 3 = k ∧ (r ++ s ++ k).extractLsb' 3 3 = s ∧ (r ++ s ++ k).extractLsb' 6 4 = r := by
  refine ⟨?_, ?_, ?_⟩
  · rw [extract_low _ _ 0 3 (by omega), extract_all]
  · rw [extract_high _ _ 3 3 (by omega), extract_low _ _ _ _ (by omega), extract_all]
  · rw [extract_high _ _ 6 4 (by omega), extract_high _ _ _ _ (by omega), extract_all]

/-- A bit that lies in the high part of a joined word. -/
theorem bit31 {n m : Nat} (a : BitVec n) (b : BitVec m) (i : Nat) (h : m ≤ i) : (a ++ b).getLsbD i = a.getLsbD (i - m) := by
  simp [BitVec.getLsbD_append, show ¬ i < m by omega]

/-- A bit that lies in the low part of a joined word. -/
theorem bitLow {n m : Nat} (a : BitVec n) (b : BitVec m) (i : Nat) (h : i < m) : (a ++ b).getLsbD i = b.getLsbD i := by
  simp [BitVec.getLsbD_append, h]


/-- The fields of an R word. -/
theorem fldR (op : BitVec 7) (f : RForm) : wordR (encR op f) = f ∧ fld (encR op f) 24 7 = op ∧ (encR op f).getLsbD 31 = false := by
  obtain ⟨d, a, b, r, w⟩ := f
  simp (disch := omega) only [encR, wordR, fld, extract_low, extract_high, extract_all, bit31, Nat.reduceSub, true_and]
  decide

/-- The fields of an I word. -/
theorem fldI (op : BitVec 7) (f : IForm) : wordI (encI op f) = f ∧ fld (encI op f) 24 7 = op ∧ (encI op f).getLsbD 31 = false := by
  obtain ⟨d, a, b⟩ := f
  simp (disch := omega) only [encI, wordI, fld, extract_low, extract_high, extract_all, bit31, Nat.reduceSub, true_and]
  decide

/-- The fields of a B word. -/
theorem fldB (op : BitVec 7) (f : BForm) : wordB (encB op f) = f ∧ fld (encB op f) 24 7 = op ∧ (encB op f).getLsbD 31 = false := by
  obtain ⟨d, a⟩ := f
  simp (disch := omega) only [encB, wordB, fld, extract_low, extract_high, extract_all, bit31, Nat.reduceSub, true_and]
  decide

/-- The fields of a J word. -/
theorem fldJ (op : BitVec 7) (f : JForm) : wordJ (encJ op f) = f ∧ fld (encJ op f) 24 7 = op ∧ (encJ op f).getLsbD 31 = false := by
  obtain ⟨d⟩ := f
  simp (disch := omega) only [encJ, wordJ, fld, extract_low, extract_high, extract_all, bit31, Nat.reduceSub, true_and]
  decide

/-- The fields of an M word. -/
theorem fldM (op : BitVec 7) (f : MForm) : wordM (encM op f) = f ∧ fld (encM op f) 24 7 = op ∧ (encM op f).getLsbD 31 = false := by
  obtain ⟨d, a, b, r, w⟩ := f
  simp (disch := omega) only [encM, wordM, fld, extract_low, extract_high, extract_all, bit31, Nat.reduceSub, true_and]
  decide

/-- The fields of a Y word. -/
theorem fldY (op : BitVec 7) (f : YForm) : wordY (encY op f) = f ∧ fld (encY op f) 24 7 = op ∧ (encY op f).getLsbD 31 = false := by
  obtain ⟨d, a, b⟩ := f
  simp (disch := omega) only [encY, wordY, fld, extract_low, extract_high, extract_all, bit31, Nat.reduceSub, true_and]
  decide

/-- The fields of the three words of a lane instruction. -/
theorem fldLane (op : BitVec 8) (l : Lane) : wordLane (encLane0 op l) (encLane1 l) (encLane2 l) = l ∧ fld (encLane0 op l) 22 8 = op
    ∧ (encLane0 op l).getLsbD 31 = true ∧ (encLane0 op l).getLsbD 30 = false := by
  obtain ⟨d, a, b, r, w⟩ := l
  simp (disch := omega) only [encLane0, encLane1, encLane2, wordLane, fld, extract_low, extract_high, extract_all, bit31, Nat.reduceSub, true_and]
  decide

/-- The form of an opcode and its fields is the one that Table 11-5 gives the opcode, with as many literal words. -/
def fits (e : Enc) : Bool :=
  match e with
  | .r op _ => formOf op.toNat == .r
  | .i op _ lits => formOf op.toNat == .i lits.length
  | .b op _ => formOf op.toNat == .b
  | .j op _ => formOf op.toNat == .j
  | .m op _ => formOf op.toNat == .m
  | .y op _ lits => formOf op.toNat == .y lits.length
  | .lane _ _ => true

/-- A well-formed instruction is the one that its own encoding names, in its opcode's form. -/
def Statement (i : Instr) : Prop := ∀ e, i.check = none → i.enc = some e → e.instr = .ok i ∧ fits e = true

theorem snop (f : YForm) : Statement (.snop f) := by
  intro e _ h; cases h; exact ⟨rfl, rfl⟩

theorem sadd (f : RForm) : Statement (.sadd f) := by
  intro e _ h; cases h; exact ⟨rfl, rfl⟩

theorem ssub (f : RForm) : Statement (.ssub f) := by
  intro e _ h; cases h; exact ⟨rfl, rfl⟩

theorem smul (f : RForm) : Statement (.smul f) := by
  intro e _ h; cases h; exact ⟨rfl, rfl⟩

theorem smulh (f : RForm) : Statement (.smulh f) := by
  intro e _ h; cases h; exact ⟨rfl, rfl⟩

theorem smulhu (f : RForm) : Statement (.smulhu f) := by
  intro e _ h; cases h; exact ⟨rfl, rfl⟩

theorem sdiv (f : RForm) : Statement (.sdiv f) := by
  intro e _ h; cases h; exact ⟨rfl, rfl⟩

theorem sdivu (f : RForm) : Statement (.sdivu f) := by
  intro e _ h; cases h; exact ⟨rfl, rfl⟩

theorem srem (f : RForm) : Statement (.srem f) := by
  intro e _ h; cases h; exact ⟨rfl, rfl⟩

theorem sremu (f : RForm) : Statement (.sremu f) := by
  intro e _ h; cases h; exact ⟨rfl, rfl⟩

theorem sand (f : RForm) : Statement (.sand f) := by
  intro e _ h; cases h; exact ⟨rfl, rfl⟩

theorem sor (f : RForm) : Statement (.sor f) := by
  intro e _ h; cases h; exact ⟨rfl, rfl⟩

theorem sxor (f : RForm) : Statement (.sxor f) := by
  intro e _ h; cases h; exact ⟨rfl, rfl⟩

theorem sshl (f : RForm) : Statement (.sshl f) := by
  intro e _ h; cases h; exact ⟨rfl, rfl⟩

theorem sshr (f : RForm) : Statement (.sshr f) := by
  intro e _ h; cases h; exact ⟨rfl, rfl⟩

theorem ssra (f : RForm) : Statement (.ssra f) := by
  intro e _ h; cases h; exact ⟨rfl, rfl⟩

theorem smin (f : RForm) : Statement (.smin f) := by
  intro e _ h; cases h; exact ⟨rfl, rfl⟩

theorem smax (f : RForm) : Statement (.smax f) := by
  intro e _ h; cases h; exact ⟨rfl, rfl⟩

theorem sminu (f : RForm) : Statement (.sminu f) := by
  intro e _ h; cases h; exact ⟨rfl, rfl⟩

theorem smaxu (f : RForm) : Statement (.smaxu f) := by
  intro e _ h; cases h; exact ⟨rfl, rfl⟩

theorem sseq (f : RForm) : Statement (.sseq f) := by
  intro e _ h; cases h; exact ⟨rfl, rfl⟩

theorem sslt (f : RForm) : Statement (.sslt f) := by
  intro e _ h; cases h; exact ⟨rfl, rfl⟩

theorem ssltu (f : RForm) : Statement (.ssltu f) := by
  intro e _ h; cases h; exact ⟨rfl, rfl⟩

theorem ssel (f : RForm) : Statement (.ssel f) := by
  intro e _ h; cases h; exact ⟨rfl, rfl⟩

theorem spopc (f : RForm) : Statement (.spopc f) := by
  intro e _ h; cases h; exact ⟨rfl, rfl⟩

theorem sclz (f : RForm) : Statement (.sclz f) := by
  intro e _ h; cases h; exact ⟨rfl, rfl⟩

theorem sctz (f : RForm) : Statement (.sctz f) := by
  intro e _ h; cases h; exact ⟨rfl, rfl⟩

theorem sbfx (f : RForm) : Statement (.sbfx f) := by
  intro e _ h; cases h; exact ⟨rfl, rfl⟩

theorem sbfi (f : RForm) : Statement (.sbfi f) := by
  intro e _ h; cases h; exact ⟨rfl, rfl⟩

theorem saddi (f : IForm) : Statement (.saddi f) := by
  intro e _ h; cases h; exact ⟨rfl, rfl⟩

theorem sandi (f : IForm) : Statement (.sandi f) := by
  intro e _ h; cases h; exact ⟨rfl, rfl⟩

theorem sori (f : IForm) : Statement (.sori f) := by
  intro e _ h; cases h; exact ⟨rfl, rfl⟩

theorem sxori (f : IForm) : Statement (.sxori f) := by
  intro e _ h; cases h; exact ⟨rfl, rfl⟩

theorem sshli (f : IForm) : Statement (.sshli f) := by
  intro e _ h; cases h; exact ⟨rfl, rfl⟩

theorem sshri (f : IForm) : Statement (.sshri f) := by
  intro e _ h; cases h; exact ⟨rfl, rfl⟩

theorem ssrai (f : IForm) : Statement (.ssrai f) := by
  intro e _ h; cases h; exact ⟨rfl, rfl⟩

theorem sslti (f : IForm) : Statement (.sslti f) := by
  intro e _ h; cases h; exact ⟨rfl, rfl⟩

theorem ssltiu (f : IForm) : Statement (.ssltiu f) := by
  intro e _ h; cases h; exact ⟨rfl, rfl⟩

theorem sseqi (f : IForm) : Statement (.sseqi f) := by
  intro e _ h; cases h; exact ⟨rfl, rfl⟩

theorem slit (f : IForm) (l0 : Word32) : Statement (.slit f l0) := by
  intro e _ h; cases h; exact ⟨rfl, rfl⟩

theorem slitd (f : IForm) (l0 l1 : Word32) : Statement (.slitd f l0 l1) := by
  intro e _ h; cases h; exact ⟨rfl, rfl⟩

theorem sld (f : MForm) : Statement (.sld f) := by
  intro e _ h; cases h; exact ⟨rfl, rfl⟩

theorem sst (f : MForm) : Statement (.sst f) := by
  intro e _ h; cases h; exact ⟨rfl, rfl⟩

theorem sldsp (f : MForm) : Statement (.sldsp f) := by
  intro e _ h; cases h; exact ⟨rfl, rfl⟩

theorem sstsp (f : MForm) : Statement (.sstsp f) := by
  intro e _ h; cases h; exact ⟨rfl, rfl⟩

theorem jmp (f : JForm) : Statement (.jmp f) := by
  intro e _ h; cases h; exact ⟨rfl, rfl⟩

theorem call (f : JForm) : Statement (.call f) := by
  intro e _ h; cases h; exact ⟨rfl, rfl⟩

theorem ret (f : YForm) : Statement (.ret f) := by
  intro e _ h; cases h; exact ⟨rfl, rfl⟩

theorem bz (f : BForm) : Statement (.bz f) := by
  intro e _ h; cases h; exact ⟨rfl, rfl⟩

theorem bnz (f : BForm) : Statement (.bnz f) := by
  intro e _ h; cases h; exact ⟨rfl, rfl⟩

theorem blz (f : BForm) : Statement (.blz f) := by
  intro e _ h; cases h; exact ⟨rfl, rfl⟩

theorem bgez (f : BForm) : Statement (.bgez f) := by
  intro e _ h; cases h; exact ⟨rfl, rfl⟩

theorem lbr (f : BForm) : Statement (.lbr f) := by
  intro e _ h; cases h; exact ⟨rfl, rfl⟩

theorem ljoin (f : YForm) : Statement (.ljoin f) := by
  intro e _ h; cases h; exact ⟨rfl, rfl⟩

theorem lexit (f : YForm) : Statement (.lexit f) := by
  intro e _ h; cases h; exact ⟨rfl, rfl⟩

theorem lany (f : BForm) : Statement (.lany f) := by
  intro e _ h; cases h; exact ⟨rfl, rfl⟩

theorem lall (f : BForm) : Statement (.lall f) := by
  intro e _ h; cases h; exact ⟨rfl, rfl⟩

theorem fence (f : YForm) : Statement (.fence f) := by
  intro e _ h; cases h; exact ⟨rfl, rfl⟩

theorem bari (f : YForm) : Statement (.bari f) := by
  intro e _ h; cases h; exact ⟨rfl, rfl⟩

theorem bara (f : YForm) : Statement (.bara f) := by
  intro e _ h; cases h; exact ⟨rfl, rfl⟩

theorem barw (f : YForm) : Statement (.barw f) := by
  intro e _ h; cases h; exact ⟨rfl, rfl⟩

theorem barx (f : YForm) : Statement (.barx f) := by
  intro e _ h; cases h; exact ⟨rfl, rfl⟩

theorem tlrd (f : YForm) : Statement (.tlrd f) := by
  intro e _ h; cases h; exact ⟨rfl, rfl⟩

theorem tlwt (f : YForm) : Statement (.tlwt f) := by
  intro e _ h; cases h; exact ⟨rfl, rfl⟩

theorem yield (f : YForm) : Statement (.yield f) := by
  intro e _ h; cases h; exact ⟨rfl, rfl⟩

theorem phint (f : YForm) (l0 l1 l2 : Word32) : Statement (.phint f l0 l1 l2) := by
  intro e _ h; cases h; exact ⟨rfl, rfl⟩

theorem trap (f : YForm) : Statement (.trap f) := by
  intro e _ h; cases h; exact ⟨rfl, rfl⟩

theorem eret (f : YForm) : Statement (.eret f) := by
  intro e _ h; cases h; exact ⟨rfl, rfl⟩

theorem srd (f : YForm) : Statement (.srd f) := by
  intro e _ h; cases h; exact ⟨rfl, rfl⟩

theorem swr (f : YForm) : Statement (.swr f) := by
  intro e _ h; cases h; exact ⟨rfl, rfl⟩

theorem exit (f : YForm) : Statement (.exit f) := by
  intro e _ h; cases h; exact ⟨rfl, rfl⟩

theorem dclk (f : YForm) : Statement (.dclk f) := by
  intro e _ h; cases h; exact ⟨rfl, rfl⟩

theorem smon (f : YForm) : Statement (.smon f) := by
  intro e _ h; cases h; exact ⟨rfl, rfl⟩

theorem smwait (f : YForm) : Statement (.smwait f) := by
  intro e _ h; cases h; exact ⟨rfl, rfl⟩

theorem sclean (f : YForm) : Statement (.sclean f) := by
  intro e _ h; cases h; exact ⟨rfl, rfl⟩

/-- The row of `stlbVa` among the invalidations of translation caches. -/
theorem stlbOf_stlbVa (f : StlbForm) : (Enc.y 0x62 (stlbY f 0) []).instr = .ok (.stlbVa f) := by
  have h := parts f.rsv f.scope 0#3
  show stlbOf (stlbY f 0#3) = _
  simp only [stlbOf, stlbY, h.1, h.2.1, h.2.2]
  rfl

/-- The row of `stlbVaall` among the invalidations of translation caches. -/
theorem stlbOf_stlbVaall (f : StlbForm) : (Enc.y 0x62 (stlbY f 1) []).instr = .ok (.stlbVaall f) := by
  have h := parts f.rsv f.scope 1#3
  show stlbOf (stlbY f 1#3) = _
  simp only [stlbOf, stlbY, h.1, h.2.1, h.2.2]
  rfl

/-- The row of `stlbAsid` among the invalidations of translation caches. -/
theorem stlbOf_stlbAsid (f : StlbForm) : (Enc.y 0x62 (stlbY f 2) []).instr = .ok (.stlbAsid f) := by
  have h := parts f.rsv f.scope 2#3
  show stlbOf (stlbY f 2#3) = _
  simp only [stlbOf, stlbY, h.1, h.2.1, h.2.2]
  rfl

/-- The row of `stlbAll` among the invalidations of translation caches. -/
theorem stlbOf_stlbAll (f : StlbForm) : (Enc.y 0x62 (stlbY f 3) []).instr = .ok (.stlbAll f) := by
  have h := parts f.rsv f.scope 3#3
  show stlbOf (stlbY f 3#3) = _
  simp only [stlbOf, stlbY, h.1, h.2.1, h.2.2]
  rfl

/-- The row of `stlbPeer` among the invalidations of translation caches. -/
theorem stlbOf_stlbPeer (f : StlbForm) : (Enc.y 0x62 (stlbY f 4) []).instr = .ok (.stlbPeer f) := by
  have h := parts f.rsv f.scope 4#3
  show stlbOf (stlbY f 4#3) = _
  simp only [stlbOf, stlbY, h.1, h.2.1, h.2.2]
  rfl

theorem stlbVa (f : StlbForm) : Statement (.stlbVa f) := by
  intro e _ h; cases h; exact ⟨stlbOf_stlbVa f, rfl⟩

theorem stlbVaall (f : StlbForm) : Statement (.stlbVaall f) := by
  intro e _ h; cases h; exact ⟨stlbOf_stlbVaall f, rfl⟩

theorem stlbAsid (f : StlbForm) : Statement (.stlbAsid f) := by
  intro e _ h; cases h; exact ⟨stlbOf_stlbAsid f, rfl⟩

theorem stlbAll (f : StlbForm) : Statement (.stlbAll f) := by
  intro e _ h; cases h; exact ⟨stlbOf_stlbAll f, rfl⟩

theorem stlbPeer (f : StlbForm) : Statement (.stlbPeer f) := by
  intro e _ h; cases h; exact ⟨stlbOf_stlbPeer f, rfl⟩

theorem mappg (f : YForm) : Statement (.mappg f) := by
  intro e _ h; cases h; exact ⟨rfl, rfl⟩

theorem frpost (f : YForm) : Statement (.frpost f) := by
  intro e _ h; cases h; exact ⟨rfl, rfl⟩

theorem vadd (l : Lane) : Statement (.vadd l) := by
  intro e _ h; cases h; exact ⟨rfl, rfl⟩

theorem vsub (l : Lane) : Statement (.vsub l) := by
  intro e _ h; cases h; exact ⟨rfl, rfl⟩

theorem vmul (l : Lane) : Statement (.vmul l) := by
  intro e _ h; cases h; exact ⟨rfl, rfl⟩

theorem vmulh (l : Lane) : Statement (.vmulh l) := by
  intro e _ h; cases h; exact ⟨rfl, rfl⟩

theorem vfma (l : Lane) : Statement (.vfma l) := by
  intro e _ h; cases h; exact ⟨rfl, rfl⟩

theorem vfms (l : Lane) : Statement (.vfms l) := by
  intro e _ h; cases h; exact ⟨rfl, rfl⟩

theorem vfnma (l : Lane) : Statement (.vfnma l) := by
  intro e _ h; cases h; exact ⟨rfl, rfl⟩

theorem vmin (l : Lane) : Statement (.vmin l) := by
  intro e _ h; cases h; exact ⟨rfl, rfl⟩

theorem vmax (l : Lane) : Statement (.vmax l) := by
  intro e _ h; cases h; exact ⟨rfl, rfl⟩

theorem vabs (l : Lane) : Statement (.vabs l) := by
  intro e _ h; cases h; exact ⟨rfl, rfl⟩

theorem vneg (l : Lane) : Statement (.vneg l) := by
  intro e _ h; cases h; exact ⟨rfl, rfl⟩

theorem vand (l : Lane) : Statement (.vand l) := by
  intro e _ h; cases h; exact ⟨rfl, rfl⟩

theorem vor (l : Lane) : Statement (.vor l) := by
  intro e _ h; cases h; exact ⟨rfl, rfl⟩

theorem vxor (l : Lane) : Statement (.vxor l) := by
  intro e _ h; cases h; exact ⟨rfl, rfl⟩

theorem vnot (l : Lane) : Statement (.vnot l) := by
  intro e _ h; cases h; exact ⟨rfl, rfl⟩

theorem vshl (l : Lane) : Statement (.vshl l) := by
  intro e _ h; cases h; exact ⟨rfl, rfl⟩

theorem vshr (l : Lane) : Statement (.vshr l) := by
  intro e _ h; cases h; exact ⟨rfl, rfl⟩

theorem vsra (l : Lane) : Statement (.vsra l) := by
  intro e _ h; cases h; exact ⟨rfl, rfl⟩

theorem vcmp (l : Lane) : Statement (.vcmp l) := by
  intro e _ h; cases h; exact ⟨rfl, rfl⟩

theorem vsel (l : Lane) : Statement (.vsel l) := by
  intro e _ h; cases h; exact ⟨rfl, rfl⟩

theorem vmov (l : Lane) : Statement (.vmov l) := by
  intro e _ h; cases h; exact ⟨rfl, rfl⟩

theorem vcvt (l : Lane) : Statement (.vcvt l) := by
  intro e _ h; cases h; exact ⟨rfl, rfl⟩

theorem vpopc (l : Lane) : Statement (.vpopc l) := by
  intro e _ h; cases h; exact ⟨rfl, rfl⟩

theorem vclz (l : Lane) : Statement (.vclz l) := by
  intro e _ h; cases h; exact ⟨rfl, rfl⟩

theorem vdot4 (l : Lane) : Statement (.vdot4 l) := by
  intro e _ h; cases h; exact ⟨rfl, rfl⟩

theorem vdot2 (l : Lane) : Statement (.vdot2 l) := by
  intro e _ h; cases h; exact ⟨rfl, rfl⟩

theorem vexpo (l : Lane) : Statement (.vexpo l) := by
  intro e _ h; cases h; exact ⟨rfl, rfl⟩

theorem vscalb (l : Lane) : Statement (.vscalb l) := by
  intro e _ h; cases h; exact ⟨rfl, rfl⟩

theorem vrndi (l : Lane) : Statement (.vrndi l) := by
  intro e _ h; cases h; exact ⟨rfl, rfl⟩

theorem vclass (l : Lane) : Statement (.vclass l) := by
  intro e _ h; cases h; exact ⟨rfl, rfl⟩

theorem vpack (l : Lane) : Statement (.vpack l) := by
  intro e _ h; cases h; exact ⟨rfl, rfl⟩

theorem vunpk (l : Lane) : Statement (.vunpk l) := by
  intro e _ h; cases h; exact ⟨rfl, rfl⟩

theorem vbfx (l : Lane) : Statement (.vbfx l) := by
  intro e _ h; cases h; exact ⟨rfl, rfl⟩

theorem vbfi (l : Lane) : Statement (.vbfi l) := by
  intro e _ h; cases h; exact ⟨rfl, rfl⟩

theorem vidx (l : Lane) : Statement (.vidx l) := by
  intro e _ h; cases h; exact ⟨rfl, rfl⟩

theorem vshfl (l : Lane) : Statement (.vshfl l) := by
  intro e _ h; cases h; exact ⟨rfl, rfl⟩

theorem vballot (l : Lane) : Statement (.vballot l) := by
  intro e _ h; cases h; exact ⟨rfl, rfl⟩

theorem vvote (l : Lane) : Statement (.vvote l) := by
  intro e _ h; cases h; exact ⟨rfl, rfl⟩

theorem vred (l : Lane) : Statement (.vred l) := by
  intro e _ h; cases h; exact ⟨rfl, rfl⟩

theorem vscan (l : Lane) : Statement (.vscan l) := by
  intro e _ h; cases h; exact ⟨rfl, rfl⟩

theorem velect (l : Lane) : Statement (.velect l) := by
  intro e _ h; cases h; exact ⟨rfl, rfl⟩

theorem vbcast (l : Lane) : Statement (.vbcast l) := by
  intro e _ h; cases h; exact ⟨rfl, rfl⟩

theorem vmsk (l : Lane) : Statement (.vmsk l) := by
  intro e _ h; cases h; exact ⟨rfl, rfl⟩

theorem vhaar (l : Lane) : Statement (.vhaar l) := by
  intro e _ h; cases h; exact ⟨rfl, rfl⟩

theorem vihaar (l : Lane) : Statement (.vihaar l) := by
  intro e _ h; cases h; exact ⟨rfl, rfl⟩

theorem vthr (l : Lane) : Statement (.vthr l) := by
  intro e hc h; cases h; refine ⟨?_, rfl⟩
  have hb : l.imm.getLsbD 0 = false := by
    by_contra hb; simp only [Bool.not_eq_false] at hb; simp only [Instr.check, hb, if_true] at hc; cases hc
  show Except.ok (if l.imm.getLsbD 0 = true then Instr.vthrSet l else Instr.vthr l) = _
  rw [hb]; rfl

theorem vthrSet (l : Lane) : Statement (.vthrSet l) := by
  intro e hc h; cases h; refine ⟨?_, rfl⟩
  have hb : l.imm.getLsbD 0 = true := by
    by_contra hb; simp only [Bool.not_eq_true] at hb; simp only [Instr.check, hb, Bool.false_eq_true, if_false] at hc; cases hc
  show Except.ok (if l.imm.getLsbD 0 = true then Instr.vthrSet l else Instr.vthr l) = _
  rw [hb]; rfl

theorem vokey (l : Lane) : Statement (.vokey l) := by
  intro e _ h; cases h; exact ⟨rfl, rfl⟩

theorem vdigit (l : Lane) : Statement (.vdigit l) := by
  intro e _ h; cases h; exact ⟨rfl, rfl⟩

theorem vld (l : Lane) : Statement (.vld l) := by
  intro e _ h; cases h; exact ⟨rfl, rfl⟩

theorem vst (l : Lane) : Statement (.vst l) := by
  intro e _ h; cases h; exact ⟨rfl, rfl⟩

theorem vldsp (l : Lane) : Statement (.vldsp l) := by
  intro e _ h; cases h; exact ⟨rfl, rfl⟩

theorem vstsp (l : Lane) : Statement (.vstsp l) := by
  intro e _ h; cases h; exact ⟨rfl, rfl⟩

theorem vldqm (l : Lane) : Statement (.vldqm l) := by
  intro e _ h; cases h; exact ⟨rfl, rfl⟩

theorem vstqm (l : Lane) : Statement (.vstqm l) := by
  intro e _ h; cases h; exact ⟨rfl, rfl⟩

theorem vldds (l : Lane) : Statement (.vldds l) := by
  intro e _ h; cases h; exact ⟨rfl, rfl⟩

theorem vstds (l : Lane) : Statement (.vstds l) := by
  intro e _ h; cases h; exact ⟨rfl, rfl⟩

theorem vatom (l : Lane) : Statement (.vatom l) := by
  intro e _ h; cases h; exact ⟨rfl, rfl⟩

theorem vatomsp (l : Lane) : Statement (.vatomsp l) := by
  intro e _ h; cases h; exact ⟨rfl, rfl⟩

theorem vhist (l : Lane) : Statement (.vhist l) := by
  intro e _ h; cases h; exact ⟨rfl, rfl⟩

theorem vpref (l : Lane) : Statement (.vpref l) := by
  intro e _ h; cases h; exact ⟨rfl, rfl⟩

theorem tdef (l : Lane) : Statement (.tdef l) := by
  intro e _ h; cases h; exact ⟨rfl, rfl⟩

theorem tfree (l : Lane) : Statement (.tfree l) := by
  intro e _ h; cases h; exact ⟨rfl, rfl⟩

theorem tstate (l : Lane) : Statement (.tstate l) := by
  intro e _ h; cases h; exact ⟨rfl, rfl⟩

theorem trd (l : Lane) : Statement (.trd l) := by
  intro e _ h; cases h; exact ⟨rfl, rfl⟩

theorem twr (l : Lane) : Statement (.twr l) := by
  intro e _ h; cases h; exact ⟨rfl, rfl⟩

theorem htwr (l : Lane) : Statement (.htwr l) := by
  intro e _ h; cases h; exact ⟨rfl, rfl⟩

theorem hrec (l : Lane) : Statement (.hrec l) := by
  intro e _ h; cases h; exact ⟨rfl, rfl⟩

theorem mclaim (l : Lane) : Statement (.mclaim l) := by
  intro e _ h; cases h; exact ⟨rfl, rfl⟩

theorem mrel (l : Lane) : Statement (.mrel l) := by
  intro e _ h; cases h; exact ⟨rfl, rfl⟩

theorem mfill (l : Lane) : Statement (.mfill l) := by
  intro e _ h; cases h; exact ⟨rfl, rfl⟩

theorem mma (l : Lane) : Statement (.mma l) := by
  intro e _ h; cases h; exact ⟨rfl, rfl⟩

theorem mmasp (l : Lane) : Statement (.mmasp l) := by
  intro e _ h; cases h; exact ⟨rfl, rfl⟩

theorem maccz (l : Lane) : Statement (.maccz l) := by
  intro e _ h; cases h; exact ⟨rfl, rfl⟩

theorem maccrd (l : Lane) : Statement (.maccrd l) := by
  intro e _ h; cases h; exact ⟨rfl, rfl⟩

theorem maccwr (l : Lane) : Statement (.maccwr l) := by
  intro e _ h; cases h; exact ⟨rfl, rfl⟩

theorem kvapp (l : Lane) : Statement (.kvapp l) := by
  intro e _ h; cases h; exact ⟨rfl, rfl⟩

theorem kvfork (l : Lane) : Statement (.kvfork l) := by
  intro e _ h; cases h; exact ⟨rfl, rfl⟩

theorem kvrel (l : Lane) : Statement (.kvrel l) := by
  intro e _ h; cases h; exact ⟨rfl, rfl⟩

theorem kvlook (l : Lane) : Statement (.kvlook l) := by
  intro e _ h; cases h; exact ⟨rfl, rfl⟩

theorem attn (l : Lane) : Statement (.attn l) := by
  intro e _ h; cases h; exact ⟨rfl, rfl⟩

theorem asel (l : Lane) : Statement (.asel l) := by
  intro e _ h; cases h; exact ⟨rfl, rfl⟩

theorem asumu (l : Lane) : Statement (.asumu l) := by
  intro e _ h; cases h; exact ⟨rfl, rfl⟩

theorem amass (l : Lane) : Statement (.amass l) := by
  intro e _ h; cases h; exact ⟨rfl, rfl⟩

theorem kvsweep (l : Lane) : Statement (.kvsweep l) := by
  intro e _ h; cases h; exact ⟨rfl, rfl⟩

theorem kvdem (l : Lane) : Statement (.kvdem l) := by
  intro e _ h; cases h; exact ⟨rfl, rfl⟩

theorem kvpin (l : Lane) : Statement (.kvpin l) := by
  intro e _ h; cases h; exact ⟨rfl, rfl⟩

theorem kvunpin (l : Lane) : Statement (.kvunpin l) := by
  intro e _ h; cases h; exact ⟨rfl, rfl⟩

theorem xcopy (l : Lane) : Statement (.xcopy l) := by
  intro e _ h; cases h; exact ⟨rfl, rfl⟩

theorem xgath (l : Lane) : Statement (.xgath l) := by
  intro e _ h; cases h; exact ⟨rfl, rfl⟩

theorem xwin (l : Lane) : Statement (.xwin l) := by
  intro e _ h; cases h; exact ⟨rfl, rfl⟩

theorem xform (l : Lane) : Statement (.xform l) := by
  intro e _ h; cases h; exact ⟨rfl, rfl⟩

theorem xput (l : Lane) : Statement (.xput l) := by
  intro e _ h; cases h; exact ⟨rfl, rfl⟩

theorem xred (l : Lane) : Statement (.xred l) := by
  intro e _ h; cases h; exact ⟨rfl, rfl⟩

theorem xstat (l : Lane) : Statement (.xstat l) := by
  intro e _ h; cases h; exact ⟨rfl, rfl⟩

theorem qinit (l : Lane) : Statement (.qinit l) := by
  intro e _ h; cases h; exact ⟨rfl, rfl⟩

theorem qpush (l : Lane) : Statement (.qpush l) := by
  intro e _ h; cases h; exact ⟨rfl, rfl⟩

theorem qpop (l : Lane) : Statement (.qpop l) := by
  intro e _ h; cases h; exact ⟨rfl, rfl⟩

theorem npost (l : Lane) : Statement (.npost l) := by
  intro e _ h; cases h; exact ⟨rfl, rfl⟩

theorem ndec (l : Lane) : Statement (.ndec l) := by
  intro e _ h; cases h; exact ⟨rfl, rfl⟩

theorem ndone (l : Lane) : Statement (.ndone l) := by
  intro e _ h; cases h; exact ⟨rfl, rfl⟩

theorem spsend (l : Lane) : Statement (.spsend l) := by
  intro e _ h; cases h; exact ⟨rfl, rfl⟩

theorem sprecv (l : Lane) : Statement (.sprecv l) := by
  intro e _ h; cases h; exact ⟨rfl, rfl⟩

theorem spgrant (l : Lane) : Statement (.spgrant l) := by
  intro e _ h; cases h; exact ⟨rfl, rfl⟩

theorem xredContribution (c : RedSource) (line : Nat) : Statement (.xredContribution c line) := by
  intro e _ h; cases h

theorem engineFault (c : CmdId) : Statement (.engineFault c) := by
  intro e _ h; cases h

theorem deliveredTrap (g : GroupId) : Statement (.deliveredTrap g) := by
  intro e _ h; cases h

theorem overflowRecordPost (die : BitVec 2) : Statement (.overflowRecordPost die) := by
  intro e _ h; cases h

theorem firstTouchService : Statement (.firstTouchService) := by
  intro e _ h; cases h

theorem schedulerScan : Statement (.schedulerScan) := by
  intro e _ h; cases h

theorem preemptRequestArrival (g : GroupId) : Statement (.preemptRequestArrival g) := by
  intro e _ h; cases h

theorem preemptNotify (g : GroupId) : Statement (.preemptNotify g) := by
  intro e _ h; cases h

theorem preemptLimit (g : GroupId) : Statement (.preemptLimit g) := by
  intro e _ h; cases h

theorem commandSettle (c : CmdId) : Statement (.commandSettle c) := by
  intro e _ h; cases h

theorem workgroupSave (w : WgId) : Statement (.workgroupSave w) := by
  intro e _ h; cases h

theorem saveCommit (w : WgId) : Statement (.saveCommit w) := by
  intro e _ h; cases h

theorem clauseGrant (g : GroupId) (slot : Bool) : Statement (.clauseGrant g slot) := by
  intro e _ h; cases h

theorem clauseFetch (g : GroupId) (slot : Bool) : Statement (.clauseFetch g slot) := by
  intro e _ h; cases h

theorem hangTrap (g : GroupId) : Statement (.hangTrap g) := by
  intro e _ h; cases h

theorem detEventRelease (g : GroupId) (slot : Bool) : Statement (.detEventRelease g slot) := by
  intro e _ h; cases h

theorem workgroupComplete (w : WgId) : Statement (.workgroupComplete w) := by
  intro e _ h; cases h

theorem nodeComplete (node : Nat) : Statement (.nodeComplete node) := by
  intro e _ h; cases h

theorem copySectorComplete (c : CmdId) (sector : Nat) : Statement (.copySectorComplete c sector) := by
  intro e _ h; cases h

theorem copyComplete (c : CmdId) : Statement (.copyComplete c) := by
  intro e _ h; cases h

theorem xputSectorArrival (c : PutSource) (sector : Nat) : Statement (.xputSectorArrival c sector) := by
  intro e _ h; cases h

theorem xputSectorAck (c : CmdId) (sector : PutAck) : Statement (.xputSectorAck c sector) := by
  intro e _ h; cases h

theorem mmaRetire (c : CmdId) : Statement (.mmaRetire c) := by
  intro e _ h; cases h

theorem xformComplete (c : CmdId) : Statement (.xformComplete c) := by
  intro e _ h; cases h

theorem xredComplete (c : CmdId) : Statement (.xredComplete c) := by
  intro e _ h; cases h

theorem kvAppendTransaction (g : GroupId) (slot : Bool) : Statement (.kvAppendTransaction g slot) := by
  intro e _ h; cases h

theorem kvForkTransaction (g : GroupId) (slot : Bool) : Statement (.kvForkTransaction g slot) := by
  intro e _ h; cases h

theorem kvReleaseTransaction (g : GroupId) (slot : Bool) : Statement (.kvReleaseTransaction g slot) := by
  intro e _ h; cases h

theorem kvLookupTransaction (g : GroupId) (slot : Bool) : Statement (.kvLookupTransaction g slot) := by
  intro e _ h; cases h

theorem kvSnapshot (q : Requester) : Statement (.kvSnapshot q) := by
  intro e _ h; cases h

theorem kvMassTransaction (c : CmdId) : Statement (.kvMassTransaction c) := by
  intro e _ h; cases h

theorem kvUnpinTransaction (q : Requester) : Statement (.kvUnpinTransaction q) := by
  intro e _ h; cases h

theorem kvAmassTransaction (g : GroupId) (slot : Bool) : Statement (.kvAmassTransaction g slot) := by
  intro e _ h; cases h

theorem kvWindowRelease (c : CmdId) : Statement (.kvWindowRelease c) := by
  intro e _ h; cases h

theorem attnComplete (c : CmdId) : Statement (.attnComplete c) := by
  intro e _ h; cases h

theorem kvSweepDecision (c : CmdId) : Statement (.kvSweepDecision c) := by
  intro e _ h; cases h

theorem kvDemotionSwap (c : CmdId) : Statement (.kvDemotionSwap c) := by
  intro e _ h; cases h

theorem aselComplete (c : CmdId) : Statement (.aselComplete c) := by
  intro e _ h; cases h

theorem asumuComplete (c : CmdId) : Statement (.asumuComplete c) := by
  intro e _ h; cases h

theorem sporeSendComplete (c : CmdId) : Statement (.sporeSendComplete c) := by
  intro e _ h; cases h

theorem sporeReceiveComplete (c : CmdId) : Statement (.sporeReceiveComplete c) := by
  intro e _ h; cases h

theorem permitReturn (chan : BitVec 6) : Statement (.permitReturn chan) := by
  intro e _ h; cases h

theorem sporeGrantRelease (g : GroupId) (slot : Bool) : Statement (.sporeGrantRelease g slot) := by
  intro e _ h; cases h

theorem monitorWake (g : GroupId) (slot : Bool) : Statement (.monitorWake g slot) := by
  intro e _ h; cases h

theorem tlwtResume (g : GroupId) (slot : Bool) : Statement (.tlwtResume g slot) := by
  intro e _ h; cases h

theorem qpushResume (g : GroupId) (slot : Bool) : Statement (.qpushResume g slot) := by
  intro e _ h; cases h

theorem qpopResume (g : GroupId) (slot : Bool) : Statement (.qpopResume g slot) := by
  intro e _ h; cases h

theorem mclaimGrant (g : GroupId) (slot : Bool) : Statement (.mclaimGrant g slot) := by
  intro e _ h; cases h

theorem ndoneResume (g : GroupId) (slot : Bool) : Statement (.ndoneResume g slot) := by
  intro e _ h; cases h

theorem spsendResume (g : GroupId) (slot : Bool) : Statement (.spsendResume g slot) := by
  intro e _ h; cases h

theorem sprecvResume (g : GroupId) (slot : Bool) : Statement (.sprecvResume g slot) := by
  intro e _ h; cases h

theorem unassignedOpcode (e : DecodeError) (w : Word32) : Statement (.unassignedOpcode e w) := by
  intro e _ h; cases h

theorem matrixOperationRetire (c : CmdId) : Statement (.matrixOperationRetire c) := by
  intro e _ h; cases h

theorem countingAccess (die : BitVec 2) (group : Nat) (member : BitVec 2) (pin : Bool) (tier : BitVec 2) : Statement (.countingAccess die group member pin tier) := by
  intro e _ h; cases h

theorem lichenCacheMiss (die : BitVec 2) (block : Nat) : Statement (.lichenCacheMiss die block) := by
  intro e _ h; cases h

theorem swapStart (die : BitVec 2) : Statement (.swapStart die) := by
  intro e _ h; cases h

theorem swapComplete (die : BitVec 2) (group : Nat) : Statement (.swapComplete die group) := by
  intro e _ h; cases h

theorem lineWriteBack (die : BitVec 2) (line : Nat) : Statement (.lineWriteBack die line) := by
  intro e _ h; cases h

theorem sizeMisprediction (pa : Nat) : Statement (.sizeMisprediction pa) := by
  intro e _ h; cases h

theorem peerRequestArrival (r : HostReq) : Statement (.peerRequestArrival r) := by
  intro e _ h; cases h

theorem peerStoreAck (pkg : Nat) : Statement (.peerStoreAck pkg) := by
  intro e _ h; cases h

theorem xredTimeout (line : Nat) : Statement (.xredTimeout line) := by
  intro e _ h; cases h

theorem pageWalk (die : BitVec 2) (core : Nat) (asid : BitVec 12) (va : BitVec 56) : Statement (.pageWalk die core asid va) := by
  intro e _ h; cases h

theorem frctlWrite (v : Word64) : Statement (.frctlWrite v) := by
  intro e _ h; cases h

theorem tlbiVa (asid : BitVec 12) : Statement (.tlbiVa asid) := by
  intro e _ h; cases h

theorem tlbiVaall (asid : BitVec 12) : Statement (.tlbiVaall asid) := by
  intro e _ h; cases h

theorem tlbiAsid (asid : BitVec 12) : Statement (.tlbiAsid asid) := by
  intro e _ h; cases h

theorem tlbiAll (asid : BitVec 12) : Statement (.tlbiAll asid) := by
  intro e _ h; cases h

theorem tlbiPeer (asid : BitVec 12) : Statement (.tlbiPeer asid) := by
  intro e _ h; cases h

theorem submit (index : BitVec 20) : Statement (.submit index) := by
  intro e _ h; cases h

theorem ageLimit : Statement (.ageLimit) := by
  intro e _ h; cases h

theorem restoreCheck (w : WgId) (ok : Bool) : Statement (.restoreCheck w ok) := by
  intro e _ h; cases h

theorem grantExpiry : Statement (.grantExpiry) := by
  intro e _ h; cases h

theorem hangLimit (g : GroupId) : Statement (.hangLimit g) := by
  intro e _ h; cases h

theorem twinMessage (node : TwinNode) (runs : Word32) (crc : Word64) (len : Nat) : Statement (.twinMessage node runs crc len) := by
  intro e _ h; cases h

theorem twinTimeout (node : Nat) : Statement (.twinTimeout node) := by
  intro e _ h; cases h

theorem xputAckTimeout (c : CmdId) : Statement (.xputAckTimeout c) := by
  intro e _ h; cases h

theorem barrierRingTimeout (g : GroupId) (slot : Bool) : Statement (.barrierRingTimeout g slot) := by
  intro e _ h; cases h

theorem smwaitTimeout (g : GroupId) (slot : Bool) : Statement (.smwaitTimeout g slot) := by
  intro e _ h; cases h

theorem hostMemoryRequest (r : HostReq) : Statement (.hostMemoryRequest r) := by
  intro e _ h; cases h

theorem registerWrite (off : Nat) (size : Nat) (v : Word64) : Statement (.registerWrite off size v) := by
  intro e _ h; cases h

theorem configRequest (ms : Nat) : Statement (.configRequest ms) := by
  intro e _ h; cases h

theorem msixUnmask (vector : BitVec 2) : Statement (.msixUnmask vector) := by
  intro e _ h; cases h

theorem attestRequest (v : Word64) : Statement (.attestRequest v) := by
  intro e _ h; cases h

theorem attestDone (hostOk : Bool) : Statement (.attestDone hostOk) := by
  intro e _ h; cases h

theorem perstDeassert : Statement (.perstDeassert) := by
  intro e _ h; cases h

theorem verify (ok : Bool) : Statement (.verify ok) := by
  intro e _ h; cases h

theorem calib (ok : Bool) (pkg : BitVec 12) (up : BitVec 18) (routes : List Route) : Statement (.calib ok pkg up routes) := by
  intro e _ h; cases h

theorem meminit (ok : Bool) : Statement (.meminit ok) := by
  intro e _ h; cases h

theorem coreReleaseStep : Statement (.coreReleaseStep) := by
  intro e _ h; cases h

theorem ready : Statement (.ready) := by
  intro e _ h; cases h

theorem poisonDetect (t : PoisonTarget) : Statement (.poisonDetect t) := by
  intro e _ h; cases h

theorem thermalThrottle (clk : BitVec 16) : Statement (.thermalThrottle clk) := by
  intro e _ h; cases h

theorem thermalRecover (clk : BitVec 16) : Statement (.thermalRecover clk) := by
  intro e _ h; cases h

theorem thermalWarning : Statement (.thermalWarning) := by
  intro e _ h; cases h

theorem thermalTrip : Statement (.thermalTrip) := by
  intro e _ h; cases h

theorem powerThrottle (clk pwr : BitVec 16) : Statement (.powerThrottle clk pwr) := by
  intro e _ h; cases h

theorem powerUnthrottle (clk pwr : BitVec 16) : Statement (.powerUnthrottle clk pwr) := by
  intro e _ h; cases h

theorem freipPortDown (port : Nat) : Statement (.freipPortDown port) := by
  intro e _ h; cases h

theorem routeRecompute (routes : List Route) : Statement (.routeRecompute routes) := by
  intro e _ h; cases h

theorem hostStoreLoss : Statement (.hostStoreLoss) := by
  intro e _ h; cases h

theorem smwaitSpuriousWake (g : GroupId) (slot : Bool) : Statement (.smwaitSpuriousWake g slot) := by
  intro e _ h; cases h

theorem pf1Dma (r : HostReq) : Statement (.pf1Dma r) := by
  intro e _ h; cases h

/-- The words of an encoding whose form is its opcode's parse to it, whatever follows them. -/
theorem parse_words (e : Enc) (rest : List Word32) (h : fits e = true) : parse (e.words ++ rest) = .ok (e, e.words.length) := by
  cases e with
  | r op f =>
    obtain ⟨h1, h2, h3⟩ := fldR op f
    simp only [fits, beq_iff_eq] at h
    simp only [parse, Enc.words, List.cons_append, List.nil_append, h1, h2, h3, h, Bool.false_eq_true, if_false, List.length_cons, List.length_nil]
  | b op f =>
    obtain ⟨h1, h2, h3⟩ := fldB op f
    simp only [fits, beq_iff_eq] at h
    simp only [parse, Enc.words, List.cons_append, List.nil_append, h1, h2, h3, h, Bool.false_eq_true, if_false, List.length_cons, List.length_nil]
  | j op f =>
    obtain ⟨h1, h2, h3⟩ := fldJ op f
    simp only [fits, beq_iff_eq] at h
    simp only [parse, Enc.words, List.cons_append, List.nil_append, h1, h2, h3, h, Bool.false_eq_true, if_false, List.length_cons, List.length_nil]
  | m op f =>
    obtain ⟨h1, h2, h3⟩ := fldM op f
    simp only [fits, beq_iff_eq] at h
    simp only [parse, Enc.words, List.cons_append, List.nil_append, h1, h2, h3, h, Bool.false_eq_true, if_false, List.length_cons, List.length_nil]
  | i op f lits =>
    obtain ⟨h1, h2, h3⟩ := fldI op f
    simp only [fits, beq_iff_eq] at h
    have hl : ¬ (lits ++ rest).length < lits.length := by simp
    simp only [parse, Enc.words, List.cons_append, h1, h2, h3, h, Bool.false_eq_true, if_false, hl, List.take_left, List.length_cons]
  | y op f lits =>
    obtain ⟨h1, h2, h3⟩ := fldY op f
    simp only [fits, beq_iff_eq] at h
    have hl : ¬ (lits ++ rest).length < lits.length := by simp
    simp only [parse, Enc.words, List.cons_append, h1, h2, h3, h, Bool.false_eq_true, if_false, hl, List.take_left, List.length_cons]
  | lane op l =>
    obtain ⟨h1, h2, h3, h4⟩ := fldLane op l
    simp only [parse, Enc.words, List.cons_append, List.nil_append, h1, h2, h3, h4, Bool.false_eq_true, if_false, if_true, List.length_cons, List.length_nil]

end Sys2Proof.Laws.WellFormed
end

