-- ==== Sys2Proof/Tests/Slice0.lean ====
section
/-! SUPPORT. Tests of the model on small states: words written out from the encoding tables, ill-formed terms for each check, examples of
the spec, and for each statement with hypotheses a state and operands that meet them. -/

namespace Sys2Proof.Tests

-- One theorem at a time: theorems checked in parallel hold a stack each, and a hundred stacks exceed the memory limit.
set_option Elab.async false

open Sys2Proof Sys2Proof.Machine

/-- The lane word whose fields are all zero. -/
def L : Lane :=
  { vd := 0, va := 0, vb := 0, vc := 0, ss := 0, bsb := 0, bsc := 0, rsv := 0, mask := 0, minv := 0, type := 0, rm := 0, sat := 0, fs := 0
    scope := 0, ord := 0, imm := 0 }

/-! ## Decoding -/

/-- The words decode to the instruction and to their number. -/
def reads (p : List Word32 × Instr) : Bool := decide (decode p.1 = .ok (p.2, p.1.length))

/-- Words of lane arithmetic, put together from Tables 11-6 and 11-9. -/
theorem test_decode_lane_arithmetic : [
    ([0x80005402, 0x00C00000, 0x391C0000], .vadd { L with vd := 10, va := 1026, vb := 6, type := 2, rm := 1, sat := 1, mask := 3, minv := 1, fs := 1 }),
    ([0x807FF807, 0x000003FC, 0x01800000], .vsub { L with vd := 2047, va := 7, ss := 127, bsb := 1, type := 3 }),
    ([0x80805402, 0x00C00000, 0x06000000], .vmul { L with vd := 10, va := 1026, vb := 6, type := 12 }),
    ([0x80C05402, 0x00C00000, 0x00E00000], .vmulh { L with vd := 10, va := 1026, vb := 6, type := 1, rm := 6 }),
    ([0x81005402, 0x00C01000, 0x01500000], .vfma { L with vd := 10, va := 1026, vb := 6, vc := 4, type := 2, rm := 5 }),
    ([0x81400802, 0x0000004E, 0x02000000], .vfms { L with vd := 1, va := 2, ss := 9, bsb := 1, bsc := 1, type := 4 }),
    ([0x81805402, 0x00C01000, 0x03880000], .vfnma { L with vd := 10, va := 1026, vb := 6, vc := 4, type := 7, sat := 1 }),
    ([0x81C05402, 0x00C00000, 0x04800000], .vmin { L with vd := 10, va := 1026, vb := 6, type := 9 }),
    ([0x82005402, 0x00C00000, 0x05000000], .vmax { L with vd := 10, va := 1026, vb := 6, type := 10 }),
    ([0x82405402, 0x00000000, 0x02880000], .vabs { L with vd := 10, va := 1026, type := 5, sat := 1 }),
    ([0x82805402, 0x00000000, 0x05800000], .vneg { L with vd := 10, va := 1026, type := 11 }),
    ([0x82C05402, 0x00C00000, 0x04000000], .vand { L with vd := 10, va := 1026, vb := 6, type := 8 }),
    ([0x83005402, 0x00C00000, 0x00000000], .vor { L with vd := 10, va := 1026, vb := 6 }),
    ([0x83405402, 0x00C00000, 0x00000000], .vxor { L with vd := 10, va := 1026, vb := 6 }),
    ([0x83805402, 0x00000000, 0x00000000], .vnot { L with vd := 10, va := 1026 }),
    ([0x83C05402, 0x00C00000, 0x03000000], .vshl { L with vd := 10, va := 1026, vb := 6, type := 6 }),
    ([0x84005402, 0x00C00000, 0x00800000], .vshr { L with vd := 10, va := 1026, vb := 6, type := 1 }),
    ([0x84405402, 0x00C00000, 0x00000000], .vsra { L with vd := 10, va := 1026, vb := 6 }),
    ([0x84805402, 0x00C00000, 0x01000007], .vcmp { L with vd := 10, va := 1026, vb := 6, type := 2, imm := 7 }),
    ([0x84C05402, 0x00C01000, 0x06000000], .vsel { L with vd := 10, va := 1026, vb := 6, vc := 4, type := 12 }),
    ([0x85005000, 0x00C00000, 0x05800000], .vmov { L with vd := 10, vb := 6, type := 11 })].all reads = true := by decide +kernel

/-- Words of lane conversions and bit fields, put together from Tables 11-6 and 11-9. -/
theorem test_decode_lane_conversions_and_bit_fields : [
    ([0x85404002, 0x00000000, 0x03880012], .vcvt { L with vd := 8, va := 2, type := 7, sat := 1, imm := 18 }),
    ([0x85805402, 0x00000000, 0x00000000], .vpopc { L with vd := 10, va := 1026 }),
    ([0x85C05402, 0x00000000, 0x06000000], .vclz { L with vd := 10, va := 1026, type := 12 }),
    ([0x86005402, 0x00C01000, 0x03800000], .vdot4 { L with vd := 10, va := 1026, vb := 6, vc := 4, type := 7 }),
    ([0x86405402, 0x00C01000, 0x01800000], .vdot2 { L with vd := 10, va := 1026, vb := 6, vc := 4, type := 3 }),
    ([0x86805402, 0x00000000, 0x01000000], .vexpo { L with vd := 10, va := 1026, type := 2 }),
    ([0x86C05402, 0x00C00000, 0x01080000], .vscalb { L with vd := 10, va := 1026, vb := 6, type := 2, sat := 1 }),
    ([0x87005402, 0x00000000, 0x02200000], .vrndi { L with vd := 10, va := 1026, type := 4, rm := 2 }),
    ([0x87405402, 0x00000000, 0x04000000], .vclass { L with vd := 10, va := 1026, type := 8 }),
    ([0x87805402, 0x00C00000, 0x00000FFF], .vpack { L with vd := 10, va := 1026, vb := 6, imm := 4095 }),
    ([0x87C05402, 0x00000000, 0x04800003], .vunpk { L with vd := 10, va := 1026, type := 9, imm := 3 }),
    ([0x88005402, 0x00000000, 0x008003FF], .vbfx { L with vd := 10, va := 1026, type := 1, imm := 1023 }),
    ([0x88405402, 0x00000000, 0x000003E0], .vbfi { L with vd := 10, va := 1026, imm := 992 }),
    ([0x88801800, 0x0000002C, 0x00800000], .vidx { L with vd := 3, ss := 5, bsb := 1, type := 1 })].all reads = true := by decide +kernel

/-- Words of cross-lane, Haar, key and digit, put together from Tables 11-6 and 11-9. -/
theorem test_decode_cross_lane_haar_key_and_digit : [
    ([0x90005402, 0x00000000, 0x058000FB], .vshfl { L with vd := 10, va := 1026, type := 11, imm := 251 }),
    ([0x90407802, 0x00000000, 0x00000000], .vballot { L with vd := 15, va := 2 }),
    ([0x9083F802, 0x00000000, 0x00000002], .vvote { L with vd := 127, va := 2, imm := 2 }),
    ([0x90C03802, 0x00000000, 0x01300002], .vred { L with vd := 7, va := 2, type := 2, rm := 3, imm := 2 }),
    ([0x91005402, 0x00000000, 0x00800005], .vscan { L with vd := 10, va := 1026, type := 1, imm := 5 }),
    ([0x91404800, 0x00000000, 0x00000000], .velect { L with vd := 9 }),
    ([0x91805402, 0x00000000, 0x0000001F], .vbcast { L with vd := 10, va := 1026, imm := 31 }),
    ([0x91C01804, 0x00A00000, 0x00000005], .vmsk { L with vd := 3, va := 4, vb := 5, imm := 5 }),
    ([0x98002003, 0x00A00000, 0x01000000], .vhaar { L with vd := 4, va := 3, vb := 5, type := 2 }),
    ([0x98402003, 0x00000034, 0x01000000], .vihaar { L with vd := 4, va := 3, ss := 6, bsb := 1, type := 2 }),
    ([0x98800802, 0x00E00000, 0x01000000], .vthr { L with vd := 1, va := 2, vb := 7, type := 2 }),
    ([0x98803800, 0x0000005C, 0x01000001], .vthrSet { L with vd := 7, ss := 11, bsb := 1, type := 2, imm := 1 }),
    ([0x98C05402, 0x00000000, 0x05800001], .vokey { L with vd := 10, va := 1026, type := 11, imm := 1 }),
    ([0x99005402, 0x00C00000, 0x008003FF], .vdigit { L with vd := 10, va := 1026, vb := 6, type := 1, imm := 1023 })].all reads = true := by decide +kernel

/-- Words of lane memory and atomics, put together from Tables 11-6 and 11-9. -/
theorem test_decode_lane_memory_and_atomics : [
    ([0x9C002803, 0x00E00000, 0x00822000], .vld { L with vd := 5, va := 3, vb := 7, type := 1, ord := 1, scope := 4 }),
    ([0x9C40001F, 0x00E02400, 0x0003C000], .vst { L with va := 31, vb := 7, vc := 9, ord := 2, scope := 7 }),
    ([0x9C80281E, 0x00E00000, 0x00000000], .vldsp { L with vd := 5, va := 30, vb := 7 }),
    ([0x9CC00003, 0x00000046, 0x00000000], .vstsp { L with va := 3, ss := 8, bsb := 1, bsc := 1 }),
    ([0x9D002803, 0x00E00000, 0x0001A000], .vldqm { L with vd := 5, va := 3, vb := 7, ord := 1, scope := 3 }),
    ([0x9D400003, 0x00E02400, 0x00000000], .vstqm { L with va := 3, vb := 7, vc := 9 }),
    ([0x9D802803, 0x00E00000, 0x00800000], .vldds { L with vd := 5, va := 3, vb := 7, type := 1 }),
    ([0x9DC00003, 0x00E02400, 0x0002C000], .vstds { L with va := 3, vb := 7, vc := 9, ord := 2, scope := 5 }),
    ([0x9E002003, 0x00E02000, 0x00036008], .vatom { L with vd := 4, va := 3, vb := 7, vc := 8, ord := 3, scope := 6, imm := 8 }),
    ([0x9E400003, 0x00E01800, 0x05800012], .vatomsp { L with va := 3, vb := 7, vc := 6, type := 11, imm := 18 }),
    ([0x9E800003, 0x00E02400, 0x00800003], .vhist { L with va := 3, vb := 7, vc := 9, type := 1, imm := 3 }),
    ([0x9EC00003, 0x00E00000, 0x00000001], .vpref { L with va := 3, vb := 7, imm := 1 })].all reads = true := by decide +kernel

/-- Words of tiles and matrices, put together from Tables 11-6 and 11-9. -/
theorem test_decode_tiles_and_matrices : [
    ([0xA407F802, 0x00800000, 0x00000000], .tdef { L with vd := 255, va := 2, vb := 4 }),
    ([0xA4404800, 0x00000000, 0x00000000], .tfree { L with vd := 9 }),
    ([0xA4803809, 0x00000000, 0x00000003], .tstate { L with vd := 7, va := 9, imm := 3 }),
    ([0xA4C04003, 0x00A00000, 0x0000007F], .trd { L with vd := 8, va := 3, vb := 5, imm := 127 }),
    ([0xA5001808, 0x00A00000, 0x0068003F], .twr { L with vd := 3, va := 8, vb := 5, rm := 6, sat := 1, imm := 63 }),
    ([0xA5401808, 0x00A01C00, 0x00100001], .htwr { L with vd := 3, va := 8, vb := 5, vc := 7, rm := 1, imm := 1 }),
    ([0xA5801800, 0x00000000, 0x00280000], .hrec { L with vd := 3, rm := 2, sat := 1 }),
    ([0xA5C07800, 0x00000000, 0x00000003], .mclaim { L with vd := 15, imm := 3 }),
    ([0xA6002000, 0x00000000, 0x0000000F], .mrel { L with vd := 4, imm := 15 }),
    ([0xA6401003, 0x00A00000, 0x00000005], .mfill { L with vd := 2, va := 3, vb := 5, imm := 5 }),
    ([0xA6801801, 0x0040A000, 0x00000000], .mma { L with vd := 3, va := 1, vb := 2, vc := 40 }),
    ([0xA6C00804, 0x00A0A000, 0x0000003F], .mmasp { L with vd := 1, va := 4, vb := 5, vc := 40, imm := 63 }),
    ([0xA7001000, 0x00000000, 0x00000000], .maccz { L with vd := 2 }),
    ([0xA7464003, 0x00A00000, 0x00180000], .maccrd { L with vd := 200, va := 3, vb := 5, rm := 1, sat := 1 }),
    ([0xA7801808, 0x00A00000, 0x0000003F], .maccwr { L with vd := 3, va := 8, vb := 5, imm := 63 })].all reads = true := by decide +kernel

/-- Words of key-value pages and attention, put together from Tables 11-6 and 11-9. -/
theorem test_decode_key_value_pages_and_attention : [
    ([0xAC00A015, 0x00200800, 0x00000000], .kvapp { L with vd := 20, va := 21, vb := 1, vc := 2 }),
    ([0xAC40A015, 0x02C00000, 0x00000001], .kvfork { L with vd := 20, va := 21, vb := 22, imm := 1 }),
    ([0xAC80A015, 0x02C00000, 0x00000002], .kvrel { L with vd := 20, va := 21, vb := 22, imm := 2 }),
    ([0xACC0A015, 0x02C00000, 0x00000001], .kvlook { L with vd := 20, va := 21, vb := 22, imm := 1 }),
    ([0xAD003004, 0x00A1E400, 0x00000003], .attn { L with vd := 6, va := 4, vb := 5, vc := 121, imm := 3 }),
    ([0xAD405002, 0x0F600000, 0x00000000], .asel { L with vd := 10, va := 2, vb := 123 }),
    ([0xAD80A015, 0x02C00000, 0x00000000], .asumu { L with vd := 20, va := 21, vb := 22 }),
    ([0xADC0A015, 0x02C00000, 0x00000002], .amass { L with vd := 20, va := 21, vb := 22, imm := 2 }),
    ([0xAE00A015, 0x02C00000, 0x00000000], .kvsweep { L with vd := 20, va := 21, vb := 22 }),
    ([0xAE40A015, 0x02C00000, 0x00000000], .kvdem { L with vd := 20, va := 21, vb := 22 }),
    ([0xAE83F015, 0x02C00000, 0x00000000], .kvpin { L with vd := 126, va := 21, vb := 22 }),
    ([0xAEC0A015, 0x02C00000, 0x00000000], .kvunpin { L with vd := 20, va := 21, vb := 22 })].all reads = true := by decide +kernel

/-- Words of engines, queues, nodes and spores, put together from Tables 11-6 and 11-9. -/
theorem test_decode_engines_queues_nodes_and_spores : [
    ([0xB0003005, 0x05000000, 0x000000F0], .xcopy { L with vd := 6, va := 5, vb := 40, imm := 240 }),
    ([0xB0403005, 0x0FA02000, 0x00000288], .xgath { L with vd := 6, va := 5, vb := 125, vc := 8, imm := 648 }),
    ([0xB0803005, 0x0F800000, 0x00000001], .xwin { L with vd := 6, va := 5, vb := 124, imm := 1 }),
    ([0xB0C01804, 0x00A0A000, 0x00680002], .xform { L with vd := 3, va := 4, vb := 5, vc := 40, rm := 6, sat := 1, imm := 2 }),
    ([0xB1000005, 0x05000000, 0x00000060], .xput { L with va := 5, vb := 40, imm := 96 }),
    ([0xB1403005, 0x05000000, 0x01800019], .xred { L with vd := 6, va := 5, vb := 40, type := 3, imm := 25 }),
    ([0xB1803800, 0x01000000, 0x00000004], .xstat { L with vd := 7, vb := 8, imm := 4 }),
    ([0xB4000007, 0x01000000, 0x00000000], .qinit { L with va := 7, vb := 8 }),
    ([0xB4403007, 0x01000000, 0x00000001], .qpush { L with vd := 6, va := 7, vb := 8, imm := 1 }),
    ([0xB4804007, 0x00C00000, 0x00000001], .qpop { L with vd := 8, va := 7, vb := 6, imm := 1 }),
    ([0xB4C03007, 0x00000000, 0x00000000], .npost { L with vd := 6, va := 7 }),
    ([0xB5003007, 0x00000000, 0x00000000], .ndec { L with vd := 6, va := 7 }),
    ([0xB5403007, 0x00000000, 0x00000001], .ndone { L with vd := 6, va := 7, imm := 1 }),
    ([0xB5803009, 0x00E00000, 0x00000001], .spsend { L with vd := 6, va := 9, vb := 7, imm := 1 }),
    ([0xB5C03009, 0x00E00000, 0x00000000], .sprecv { L with vd := 6, va := 9, vb := 7 }),
    ([0xB6003007, 0x00000000, 0x00000000], .spgrant { L with vd := 6, va := 7 })].all reads = true := by decide +kernel

/-- Words of scalar arithmetic and literals, put together from Table 11-4 and the opcode table. -/
theorem test_decode_scalar_arithmetic_and_literals : [
    ([0x0107FE00], .sadd { d := 3, a := 127, b := 64, rsv := 0, w := 0 }),
    ([0x0209FA09], .ssub { d := 4, a := 126, b := 65, rsv := 0, w := 1 }),
    ([0x030BF610], .smul { d := 5, a := 125, b := 66, rsv := 0, w := 0 }),
    ([0x040DF219], .smulh { d := 6, a := 124, b := 67, rsv := 0, w := 1 }),
    ([0x050FEE20], .smulhu { d := 7, a := 123, b := 68, rsv := 0, w := 0 }),
    ([0x0611EA29], .sdiv { d := 8, a := 122, b := 69, rsv := 0, w := 1 }),
    ([0x0713E630], .sdivu { d := 9, a := 121, b := 70, rsv := 0, w := 0 }),
    ([0x0815E239], .srem { d := 10, a := 120, b := 71, rsv := 0, w := 1 }),
    ([0x0917DE40], .sremu { d := 11, a := 119, b := 72, rsv := 0, w := 0 }),
    ([0x0A19DA49], .sand { d := 12, a := 118, b := 73, rsv := 0, w := 1 }),
    ([0x0B1BD650], .sor { d := 13, a := 117, b := 74, rsv := 0, w := 0 }),
    ([0x0C1DD259], .sxor { d := 14, a := 116, b := 75, rsv := 0, w := 1 }),
    ([0x0D1FCE60], .sshl { d := 15, a := 115, b := 76, rsv := 0, w := 0 }),
    ([0x0E21CA69], .sshr { d := 16, a := 114, b := 77, rsv := 0, w := 1 }),
    ([0x0F23C670], .ssra { d := 17, a := 113, b := 78, rsv := 0, w := 0 }),
    ([0x1025C279], .smin { d := 18, a := 112, b := 79, rsv := 0, w := 1 }),
    ([0x1127BE80], .smax { d := 19, a := 111, b := 80, rsv := 0, w := 0 }),
    ([0x1229BA89], .sminu { d := 20, a := 110, b := 81, rsv := 0, w := 1 }),
    ([0x132BB690], .smaxu { d := 21, a := 109, b := 82, rsv := 0, w := 0 }),
    ([0x142DB299], .sseq { d := 22, a := 108, b := 83, rsv := 0, w := 1 }),
    ([0x152FAEA0], .sslt { d := 23, a := 107, b := 84, rsv := 0, w := 0 }),
    ([0x1631AAA9], .ssltu { d := 24, a := 106, b := 85, rsv := 0, w := 1 }),
    ([0x1733A6B0], .ssel { d := 25, a := 105, b := 86, rsv := 0, w := 0 }),
    ([0x1B35A2B9], .sbfx { d := 26, a := 104, b := 87, rsv := 0, w := 1 }),
    ([0x1C379EC0], .sbfi { d := 27, a := 103, b := 88, rsv := 0, w := 0 }),
    ([0x1807FC00], .spopc { d := 3, a := 127, b := 0, rsv := 0, w := 0 }),
    ([0x1909F801], .sclz { d := 4, a := 126, b := 0, rsv := 0, w := 1 }),
    ([0x1A0BF400], .sctz { d := 5, a := 125, b := 0, rsv := 0, w := 0 }),
    ([0x200B93FF], .saddi { d := 5, a := 100, imm := 1023 }),
    ([0x210D8FFE], .sandi { d := 6, a := 99, imm := 1022 }),
    ([0x220F8BFD], .sori { d := 7, a := 98, imm := 1021 }),
    ([0x231187FC], .sxori { d := 8, a := 97, imm := 1020 }),
    ([0x271383FB], .sslti { d := 9, a := 96, imm := 1019 }),
    ([0x28157FFA], .ssltiu { d := 10, a := 95, imm := 1018 }),
    ([0x29177BF9], .sseqi { d := 11, a := 94, imm := 1017 }),
    ([0x24197438], .sshli { d := 12, a := 93, imm := 56 }),
    ([0x251B7037], .sshri { d := 13, a := 92, imm := 55 }),
    ([0x261D6C36], .ssrai { d := 14, a := 91, imm := 54 }),
    ([0x2E0A0000, 0xFFFFFFFF], .slit { d := 5, a := 0, imm := 0 } 0xFFFFFFFF),
    ([0x2F0C0000, 0x00000001, 0x80000000], .slitd { d := 6, a := 0, imm := 0 } 1 0x80000000)].all reads = true := by decide +kernel

/-- Words of scalar memory and control, put together from Table 11-4 and the opcode table. -/
theorem test_decode_scalar_memory_and_control : [
    ([0x300BF0D4], .sld { d := 5, buf := 31, sx := 6, w := 2, scope := 4 }),
    ([0x310A20D4], .sst { d := 5, buf := 2, sx := 6, w := 2, scope := 4 }),
    ([0x320BE0D4], .sldsp { d := 5, buf := 30, sx := 6, w := 2, scope := 4 }),
    ([0x330A30D4], .sstsp { d := 5, buf := 3, sx := 6, w := 2, scope := 4 }),
    ([0x40FFFFFB], .jmp { off := 0xFFFFFB }),
    ([0x417FFFFF], .call { off := 0x7FFFFF }),
    ([0x4201F800], .ret { d := 0, a := 126, sub := 0 }),
    ([0x43070000], .bz { a := 3, off := 65536 }),
    ([0x442BFFFD], .bnz { a := 21, off := 131069 }),
    ([0x45080009], .blz { a := 4, off := 9 }),
    ([0x460A000A], .bgez { a := 5, off := 10 }),
    ([0x47260005], .lbr { a := 19, off := 5 }),
    ([0x4A3E0006], .lany { a := 31, off := 6 }),
    ([0x4B000007], .lall { a := 0, off := 7 }),
    ([0x48000000], .ljoin { d := 0, a := 0, sub := 0 }),
    ([0x49000C00], .lexit { d := 0, a := 3, sub := 0 }),
    ([0x5D000000], .exit { d := 0, a := 0, sub := 0 })].all reads = true := by decide +kernel

/-- Words of fences, barriers, traps and system registers, put together from Table 11-4 and the opcode table. -/
theorem test_decode_fences_barriers_traps_and_system_registers : [
    ([0x00000000], .snop { d := 0, a := 0, sub := 0 }),
    ([0x5000003D], .fence { d := 0, a := 0, sub := 61 }),
    ([0x5100500F], .bari { d := 0, a := 20, sub := 15 }),
    ([0x522A5001], .bara { d := 21, a := 20, sub := 1 }),
    ([0x532A5003], .barw { d := 21, a := 20, sub := 3 }),
    ([0x54005002], .barx { d := 0, a := 20, sub := 2 }),
    ([0x550E0119], .tlrd { d := 7, a := 0, sub := 281 }),
    ([0x56001C01], .tlwt { d := 0, a := 7, sub := 1 }),
    ([0x57000000], .yield { d := 0, a := 0, sub := 0 }),
    ([0x59002521], .trap { d := 0, a := 9, sub := 289 }),
    ([0x5A000000], .eret { d := 0, a := 0, sub := 0 }),
    ([0x5B100002], .srd { d := 8, a := 0, sub := 2 }),
    ([0x5C00264F], .swr { d := 0, a := 9, sub := 591 }),
    ([0x5E3C0000], .dclk { d := 30, a := 0, sub := 0 }),
    ([0x5F00303E], .smon { d := 0, a := 12, sub := 62 }),
    ([0x601A3800], .smwait { d := 13, a := 14, sub := 0 }),
    ([0x610A1022], .sclean { d := 5, a := 4, sub := 34 }),
    ([0x630A1000], .mappg { d := 5, a := 4, sub := 0 }),
    ([0x640A1000], .frpost { d := 5, a := 4, sub := 0 }),
    ([0x58000031, 0x00000003, 0x00000001, 0x0000000F], .phint { d := 0, a := 0, sub := 0x31 } 3 1 15),
    ([0x62122010], .stlbVa { d := 9, a := 8, rsv := 0, scope := 2 }),
    ([0x62122021], .stlbVaall { d := 9, a := 8, rsv := 0, scope := 4 }),
    ([0x6212202A], .stlbAsid { d := 9, a := 8, rsv := 0, scope := 5 }),
    ([0x62122013], .stlbAll { d := 9, a := 8, rsv := 0, scope := 2 }),
    ([0x62122024], .stlbPeer { d := 9, a := 8, rsv := 0, scope := 4 })].all reads = true := by decide +kernel
/-! ## Ill-formed terms, one or more for each check -/

/-- The check refuses the term with ILLOP/FIELD. -/
def refused (i : Instr) : Bool := decide (i.check = some .field)

/-- Refused: lane arithmetic with IMM13 outside their rows. -/
theorem test_refused_lane_arithmetic_with_imm13_outside_their_rows : ([
    .vadd { L with vd := 10, va := 1026, vb := 6, type := 2, rm := 1, sat := 1, mask := 3, minv := 1, fs := 1, imm := 8191 },
    .vsub { L with vd := 2047, va := 7, ss := 127, bsb := 1, type := 3, imm := 8191 },
    .vmul { L with vd := 10, va := 1026, vb := 6, type := 12, imm := 8191 },
    .vmulh { L with vd := 10, va := 1026, vb := 6, type := 1, rm := 6, imm := 8191 },
    .vfma { L with vd := 10, va := 1026, vb := 6, vc := 4, type := 2, rm := 5, imm := 8191 },
    .vfms { L with vd := 1, va := 2, ss := 9, bsb := 1, bsc := 1, type := 4, imm := 8191 },
    .vfnma { L with vd := 10, va := 1026, vb := 6, vc := 4, type := 7, sat := 1, imm := 8191 },
    .vmin { L with vd := 10, va := 1026, vb := 6, type := 9, imm := 8191 },
    .vmax { L with vd := 10, va := 1026, vb := 6, type := 10, imm := 8191 },
    .vabs { L with vd := 10, va := 1026, type := 5, sat := 1, imm := 8191 },
    .vneg { L with vd := 10, va := 1026, type := 11, imm := 8191 },
    .vand { L with vd := 10, va := 1026, vb := 6, type := 8, imm := 8191 },
    .vor { L with vd := 10, va := 1026, vb := 6, imm := 8191 },
    .vxor { L with vd := 10, va := 1026, vb := 6, imm := 8191 },
    .vnot { L with vd := 10, va := 1026, imm := 8191 },
    .vshl { L with vd := 10, va := 1026, vb := 6, type := 6, imm := 8191 },
    .vshr { L with vd := 10, va := 1026, vb := 6, type := 1, imm := 8191 },
    .vsra { L with vd := 10, va := 1026, vb := 6, imm := 8191 },
    .vcmp { L with vd := 10, va := 1026, vb := 6, type := 2, imm := 8191 },
    .vsel { L with vd := 10, va := 1026, vb := 6, vc := 4, type := 12, imm := 8191 },
    .vmov { L with vd := 10, vb := 6, type := 11, imm := 8191 }] : List Instr).all refused = true := by decide +kernel

/-- Refused: lane conversions and bit fields with IMM13 outside their rows. -/
theorem test_refused_lane_conversions_and_bit_fields_with_imm13_outside_their_rows : ([
    .vcvt { L with vd := 8, va := 2, type := 7, sat := 1, imm := 8191 },
    .vpopc { L with vd := 10, va := 1026, imm := 8191 },
    .vclz { L with vd := 10, va := 1026, type := 12, imm := 8191 },
    .vdot4 { L with vd := 10, va := 1026, vb := 6, vc := 4, type := 7, imm := 8191 },
    .vdot2 { L with vd := 10, va := 1026, vb := 6, vc := 4, type := 3, imm := 8191 },
    .vexpo { L with vd := 10, va := 1026, type := 2, imm := 8191 },
    .vscalb { L with vd := 10, va := 1026, vb := 6, type := 2, sat := 1, imm := 8191 },
    .vrndi { L with vd := 10, va := 1026, type := 4, rm := 2, imm := 8191 },
    .vclass { L with vd := 10, va := 1026, type := 8, imm := 8191 },
    .vpack { L with vd := 10, va := 1026, vb := 6, imm := 8191 },
    .vunpk { L with vd := 10, va := 1026, type := 9, imm := 8191 },
    .vbfx { L with vd := 10, va := 1026, type := 1, imm := 8191 },
    .vbfi { L with vd := 10, va := 1026, imm := 8191 },
    .vidx { L with vd := 3, ss := 5, bsb := 1, type := 1, imm := 8191 }] : List Instr).all refused = true := by decide +kernel

/-- Refused: cross-lane, Haar, key and digit with IMM13 outside their rows. -/
theorem test_refused_cross_lane_haar_key_and_digit_with_imm13_outside_their_rows : ([
    .vshfl { L with vd := 10, va := 1026, type := 11, imm := 8191 },
    .vballot { L with vd := 15, va := 2, imm := 8191 },
    .vvote { L with vd := 127, va := 2, imm := 8191 },
    .vred { L with vd := 7, va := 2, type := 2, rm := 3, imm := 8191 },
    .vscan { L with vd := 10, va := 1026, type := 1, imm := 8191 },
    .velect { L with vd := 9, imm := 8191 },
    .vbcast { L with vd := 10, va := 1026, imm := 8191 },
    .vmsk { L with vd := 3, va := 4, vb := 5, imm := 8191 },
    .vhaar { L with vd := 4, va := 3, vb := 5, type := 2, imm := 8191 },
    .vihaar { L with vd := 4, va := 3, ss := 6, bsb := 1, type := 2, imm := 8191 },
    .vthr { L with vd := 1, va := 2, vb := 7, type := 2, imm := 2 },
    .vthrSet { L with vd := 7, ss := 11, bsb := 1, type := 2, imm := 8191 },
    .vokey { L with vd := 10, va := 1026, type := 11, imm := 8191 },
    .vdigit { L with vd := 10, va := 1026, vb := 6, type := 1, imm := 8191 }] : List Instr).all refused = true := by decide +kernel

/-- Refused: lane memory and atomics with IMM13 outside their rows. -/
theorem test_refused_lane_memory_and_atomics_with_imm13_outside_their_rows : ([
    .vld { L with vd := 5, va := 3, vb := 7, type := 1, ord := 1, scope := 4, imm := 8191 },
    .vst { L with va := 31, vb := 7, vc := 9, ord := 2, scope := 7, imm := 8191 },
    .vldsp { L with vd := 5, va := 30, vb := 7, imm := 8191 },
    .vstsp { L with va := 3, ss := 8, bsb := 1, bsc := 1, imm := 8191 },
    .vldqm { L with vd := 5, va := 3, vb := 7, ord := 1, scope := 3, imm := 8191 },
    .vstqm { L with va := 3, vb := 7, vc := 9, imm := 8191 },
    .vldds { L with vd := 5, va := 3, vb := 7, type := 1, imm := 8191 },
    .vstds { L with va := 3, vb := 7, vc := 9, ord := 2, scope := 5, imm := 8191 },
    .vatom { L with vd := 4, va := 3, vb := 7, vc := 8, ord := 3, scope := 6, imm := 8191 },
    .vatomsp { L with va := 3, vb := 7, vc := 6, type := 11, imm := 8191 },
    .vhist { L with va := 3, vb := 7, vc := 9, type := 1, imm := 8191 },
    .vpref { L with va := 3, vb := 7, imm := 8191 }] : List Instr).all refused = true := by decide +kernel

/-- Refused: tiles and matrices with IMM13 outside their rows. -/
theorem test_refused_tiles_and_matrices_with_imm13_outside_their_rows : ([
    .tdef { L with vd := 255, va := 2, vb := 4, imm := 8191 },
    .tfree { L with vd := 9, imm := 8191 },
    .tstate { L with vd := 7, va := 9, imm := 8191 },
    .trd { L with vd := 8, va := 3, vb := 5, imm := 8191 },
    .twr { L with vd := 3, va := 8, vb := 5, rm := 6, sat := 1, imm := 8191 },
    .htwr { L with vd := 3, va := 8, vb := 5, vc := 7, rm := 1, imm := 8191 },
    .hrec { L with vd := 3, rm := 2, sat := 1, imm := 8191 },
    .mclaim { L with vd := 15, imm := 8191 },
    .mrel { L with vd := 4, imm := 8191 },
    .mfill { L with vd := 2, va := 3, vb := 5, imm := 8191 },
    .mma { L with vd := 3, va := 1, vb := 2, vc := 40, imm := 8191 },
    .mmasp { L with vd := 1, va := 4, vb := 5, vc := 40, imm := 8191 },
    .maccz { L with vd := 2, imm := 8191 },
    .maccrd { L with vd := 200, va := 3, vb := 5, rm := 1, sat := 1, imm := 8191 },
    .maccwr { L with vd := 3, va := 8, vb := 5, imm := 8191 }] : List Instr).all refused = true := by decide +kernel

/-- Refused: key-value pages and attention with IMM13 outside their rows. -/
theorem test_refused_key_value_pages_and_attention_with_imm13_outside_their_rows : ([
    .kvapp { L with vd := 20, va := 21, vb := 1, vc := 2, imm := 8191 },
    .kvfork { L with vd := 20, va := 21, vb := 22, imm := 8191 },
    .kvrel { L with vd := 20, va := 21, vb := 22, imm := 8191 },
    .kvlook { L with vd := 20, va := 21, vb := 22, imm := 8191 },
    .attn { L with vd := 6, va := 4, vb := 5, vc := 121, imm := 8191 },
    .asel { L with vd := 10, va := 2, vb := 123, imm := 8191 },
    .asumu { L with vd := 20, va := 21, vb := 22, imm := 8191 },
    .amass { L with vd := 20, va := 21, vb := 22, imm := 8191 },
    .kvsweep { L with vd := 20, va := 21, vb := 22, imm := 8191 },
    .kvdem { L with vd := 20, va := 21, vb := 22, imm := 8191 },
    .kvpin { L with vd := 126, va := 21, vb := 22, imm := 8191 },
    .kvunpin { L with vd := 20, va := 21, vb := 22, imm := 8191 }] : List Instr).all refused = true := by decide +kernel

/-- Refused: engines, queues, nodes and spores with IMM13 outside their rows. -/
theorem test_refused_engines_queues_nodes_and_spores_with_imm13_outside_their_rows : ([
    .xcopy { L with vd := 6, va := 5, vb := 40, imm := 8191 },
    .xgath { L with vd := 6, va := 5, vb := 125, vc := 8, imm := 8191 },
    .xwin { L with vd := 6, va := 5, vb := 124, imm := 8191 },
    .xform { L with vd := 3, va := 4, vb := 5, vc := 40, rm := 6, sat := 1, imm := 8191 },
    .xput { L with va := 5, vb := 40, imm := 8191 },
    .xred { L with vd := 6, va := 5, vb := 40, type := 3, imm := 8191 },
    .xstat { L with vd := 7, vb := 8, imm := 8191 },
    .qinit { L with va := 7, vb := 8, imm := 8191 },
    .qpush { L with vd := 6, va := 7, vb := 8, imm := 8191 },
    .qpop { L with vd := 8, va := 7, vb := 6, imm := 8191 },
    .npost { L with vd := 6, va := 7, imm := 8191 },
    .ndec { L with vd := 6, va := 7, imm := 8191 },
    .ndone { L with vd := 6, va := 7, imm := 8191 },
    .spsend { L with vd := 6, va := 9, vb := 7, imm := 8191 },
    .sprecv { L with vd := 6, va := 9, vb := 7, imm := 8191 },
    .spgrant { L with vd := 6, va := 7, imm := 8191 }] : List Instr).all refused = true := by decide +kernel

/-- Refused: the fields of lane words. -/
theorem test_refused_the_fields_of_lane_words_1 : ([
    .vadd { L with rsv := 1 },
    .tdef { L with vd := 256 },
    .velect { L with vd := 128 },
    .vld { L with va := 32 },
    .vballot { L with vd := 16 },
    .mclaim { L with vd := 16 },
    .htwr { L with vc := 8 },
    .maccz { L with vd := 4 },
    .tfree { L with va := 1 },
    .vadd { L with vb := 1, bsb := 1 },
    .vabs { L with bsb := 1 },
    .vfma { L with vc := 1, bsc := 1 },
    .vadd { L with bsc := 1 },
    .vadd { L with ss := 1 },
    .vadd { L with type := 13 },
    .vmulh { L with type := 2 },
    .vdot4 { L with type := 0 },
    .vdot2 { L with type := 2 },
    .vexpo { L with type := 0 },
    .vld { L with type := 2 },
    .tdef { L with type := 1 },
    .vadd { L with rm := 7 },
    .vld { L with rm := 1 },
    .vand { L with sat := 1 },
    .vadd { L with scope := 1, ord := 1 },
    .tdef { L with ord := 1, scope := 1 },
    .vadd { L with type := 11, vd := 1 },
    .vadd { L with type := 12, va := 1 },
    .vadd { L with type := 11, vb := 1 },
    .vfma { L with type := 11, vc := 1 },
    .vcvt { L with imm := 0xD },
    .vcvt { L with type := 2, imm := 0x12 },
    .vcmp { L with type := 0, imm := 6 },
    .vshfl { L with imm := 8 },
    .vshfl { L with imm := 4 },
    .vvote { L with imm := 3 },
    .vsel { L with type := 2, bsc := 1 },
    .vred { L with type := 2, imm := 3 },
    .vscan { L with imm := 6 },
    .vbcast { L with imm := 32 },
    .vmsk { L with imm := 6 }] : List Instr).all refused = true := by decide +kernel

/-- Refused: the fields of lane words. -/
theorem test_refused_the_fields_of_lane_words_2 : ([
    .vhaar { L with vd := 1, type := 2 },
    .vthrSet { L with type := 2, imm := 1 },
    .vthr { L with type := 2, imm := 1 },
    .vokey { L with imm := 2 },
    .vdigit { L with vb := 1 },
    .vldsp { L with va := 31 },
    .vstsp { L with va := 31 },
    .vldqm { L with va := 31 },
    .vstqm { L with va := 31 },
    .vldds { L with va := 31 },
    .vstds { L with va := 31 },
    .vatomsp { L with va := 31 },
    .vhist { L with va := 31, imm := 1 },
    .vatom { L with imm := 9 },
    .vatom { L with imm := 0x28 },
    .vatom { L with imm := 8, vd := 2 },
    .vatom { L with imm := 8, vc := 2 },
    .vatom { L with imm := 0x10, vd := 1 },
    .vatom { L with imm := 1, type := 0 },
    .vatom { L with imm := 2, type := 3 },
    .vatom { L with type := 11, vc := 1 },
    .attn { L with vc := 122 },
    .asel { L with vb := 124 },
    .kvpin { L with vd := 127 },
    .xcopy { L with imm := 8, vd := 31 },
    .xcopy { L with imm := 0x20, va := 31 },
    .xcopy { L with imm := 0x0A },
    .xcopy { L with vb := 126 },
    .xcopy { L with imm := 0x200 },
    .xwin { L with vb := 125 },
    .xput { L with vd := 1 },
    .xput { L with imm := 2 },
    .xput { L with imm := 8 },
    .xput { L with imm := 0x100 },
    .xred { L with imm := 3 },
    .xred { L with vb := 126 },
    .xred { L with imm := 0xC },
    .xred { L with type := 1 },
    .xform { L with imm := 14 },
    .xform { L with imm := 12 }] : List Instr).all refused = true := by decide +kernel

/-- Refused: the fields of lane words. -/
theorem test_refused_the_fields_of_lane_words_3 : ([
    .xform { L with imm := 0x180C },
    .xform { L with imm := 0x400 },
    .xform { L with imm := 0x80 },
    .xform { L with vb := 1 },
    .xform { L with imm := 0x20, va := 128 }] : List Instr).all refused = true := by decide +kernel

/-- Refused: scalar words. -/
theorem test_refused_scalar_words_1 : ([
    .sadd { d := 0, a := 0, b := 0, rsv := 1, w := 0 },
    .ssub { d := 0, a := 0, b := 0, rsv := 1, w := 0 },
    .smul { d := 0, a := 0, b := 0, rsv := 1, w := 0 },
    .smulh { d := 0, a := 0, b := 0, rsv := 1, w := 0 },
    .smulhu { d := 0, a := 0, b := 0, rsv := 1, w := 0 },
    .sdiv { d := 0, a := 0, b := 0, rsv := 1, w := 0 },
    .sdivu { d := 0, a := 0, b := 0, rsv := 1, w := 0 },
    .srem { d := 0, a := 0, b := 0, rsv := 1, w := 0 },
    .sremu { d := 0, a := 0, b := 0, rsv := 1, w := 0 },
    .sand { d := 0, a := 0, b := 0, rsv := 1, w := 0 },
    .sor { d := 0, a := 0, b := 0, rsv := 1, w := 0 },
    .sxor { d := 0, a := 0, b := 0, rsv := 1, w := 0 },
    .sshl { d := 0, a := 0, b := 0, rsv := 1, w := 0 },
    .sshr { d := 0, a := 0, b := 0, rsv := 1, w := 0 },
    .ssra { d := 0, a := 0, b := 0, rsv := 1, w := 0 },
    .smin { d := 0, a := 0, b := 0, rsv := 1, w := 0 },
    .smax { d := 0, a := 0, b := 0, rsv := 1, w := 0 },
    .sminu { d := 0, a := 0, b := 0, rsv := 1, w := 0 },
    .smaxu { d := 0, a := 0, b := 0, rsv := 1, w := 0 },
    .sseq { d := 0, a := 0, b := 0, rsv := 1, w := 0 },
    .sslt { d := 0, a := 0, b := 0, rsv := 1, w := 0 },
    .ssltu { d := 0, a := 0, b := 0, rsv := 1, w := 0 },
    .ssel { d := 0, a := 0, b := 0, rsv := 1, w := 0 },
    .sbfx { d := 0, a := 0, b := 0, rsv := 1, w := 0 },
    .sbfi { d := 0, a := 0, b := 0, rsv := 1, w := 0 },
    .spopc { d := 0, a := 0, b := 0, rsv := 1, w := 0 },
    .sclz { d := 0, a := 0, b := 0, rsv := 1, w := 0 },
    .sctz { d := 0, a := 0, b := 0, rsv := 1, w := 0 },
    .spopc { d := 0, a := 0, b := 1, rsv := 0, w := 0 },
    .sclz { d := 0, a := 0, b := 1, rsv := 0, w := 0 },
    .sctz { d := 0, a := 0, b := 1, rsv := 0, w := 0 },
    .sshli { d := 0, a := 0, imm := 64 },
    .sshri { d := 0, a := 0, imm := 64 },
    .ssrai { d := 0, a := 0, imm := 64 },
    .slit { d := 0, a := 1, imm := 0 } 0,
    .slit { d := 0, a := 0, imm := 1 } 0,
    .slitd { d := 0, a := 1, imm := 0 } 0 0,
    .slitd { d := 0, a := 0, imm := 1 } 0 0,
    .sldsp { d := 0, buf := 31, sx := 0, w := 0, scope := 0 },
    .sstsp { d := 0, buf := 31, sx := 0, w := 0, scope := 0 }] : List Instr).all refused = true := by decide +kernel

/-- Refused: scalar words. -/
theorem test_refused_scalar_words_2 : ([
    .lbr { a := 32, off := 0 },
    .lany { a := 32, off := 0 },
    .lall { a := 32, off := 0 },
    .snop { d := 1, a := 0, sub := 0 },
    .snop { d := 0, a := 1, sub := 0 },
    .snop { d := 0, a := 0, sub := 1 },
    .ljoin { d := 1, a := 0, sub := 0 },
    .ljoin { d := 0, a := 1, sub := 0 },
    .ljoin { d := 0, a := 0, sub := 1 },
    .yield { d := 1, a := 0, sub := 0 },
    .yield { d := 0, a := 1, sub := 0 },
    .yield { d := 0, a := 0, sub := 1 },
    .eret { d := 1, a := 0, sub := 0 },
    .eret { d := 0, a := 1, sub := 0 },
    .eret { d := 0, a := 0, sub := 1 },
    .exit { d := 1, a := 0, sub := 0 },
    .exit { d := 0, a := 1, sub := 0 },
    .exit { d := 0, a := 0, sub := 1 },
    .ret { d := 1, a := 0, sub := 0 },
    .ret { d := 0, a := 0, sub := 1 },
    .lexit { d := 1, a := 0, sub := 0 },
    .lexit { d := 0, a := 32, sub := 0 },
    .lexit { d := 0, a := 0, sub := 1 },
    .dclk { d := 0, a := 1, sub := 0 },
    .dclk { d := 0, a := 0, sub := 1 },
    .smwait { d := 0, a := 0, sub := 1 },
    .mappg { d := 0, a := 0, sub := 1 },
    .frpost { d := 0, a := 0, sub := 1 },
    .fence { d := 1, a := 0, sub := 9 },
    .fence { d := 0, a := 1, sub := 9 },
    .fence { d := 0, a := 0, sub := 73 },
    .fence { d := 0, a := 0, sub := 1 },
    .fence { d := 0, a := 0, sub := 8 },
    .fence { d := 0, a := 0, sub := 41 },
    .bari { d := 1, a := 0, sub := 1 },
    .bari { d := 0, a := 0, sub := 17 },
    .bari { d := 0, a := 0, sub := 4 },
    .bara { d := 0, a := 0, sub := 5 },
    .bara { d := 0, a := 0, sub := 0 },
    .barw { d := 0, a := 0, sub := 5 }] : List Instr).all refused = true := by decide +kernel

/-- Refused: scalar words. -/
theorem test_refused_scalar_words_3 : ([
    .barw { d := 0, a := 0, sub := 0 },
    .barx { d := 1, a := 0, sub := 1 },
    .barx { d := 0, a := 0, sub := 5 },
    .barx { d := 0, a := 0, sub := 0 },
    .tlrd { d := 0, a := 1, sub := 1 },
    .tlrd { d := 0, a := 0, sub := 0 },
    .tlrd { d := 0, a := 0, sub := 10 },
    .tlrd { d := 0, a := 0, sub := 17 },
    .tlwt { d := 1, a := 0, sub := 1 },
    .tlwt { d := 0, a := 0, sub := 0 },
    .tlwt { d := 0, a := 0, sub := 10 },
    .tlwt { d := 0, a := 0, sub := 17 },
    .trap { d := 1, a := 0, sub := 0 },
    .trap { d := 0, a := 0, sub := 512 },
    .trap { d := 0, a := 1, sub := 0 },
    .srd { d := 0, a := 1, sub := 0 },
    .srd { d := 0, a := 0, sub := 6 },
    .srd { d := 0, a := 0, sub := 277 },
    .srd { d := 0, a := 0, sub := 592 },
    .swr { d := 1, a := 0, sub := 0 },
    .swr { d := 0, a := 0, sub := 6 },
    .swr { d := 0, a := 0, sub := 511 },
    .smon { d := 1, a := 0, sub := 0 },
    .smon { d := 0, a := 0, sub := 128 },
    .smon { d := 0, a := 0, sub := 63 },
    .sclean { d := 0, a := 0, sub := 64 },
    .phint { d := 1, a := 0, sub := 0 } 0 0 0,
    .phint { d := 0, a := 1, sub := 0 } 0 0 0,
    .phint { d := 0, a := 0, sub := 64 } 0 0 0,
    .phint { d := 0, a := 0, sub := 0 } 0 65536 0,
    .stlbVa { d := 0, a := 0, rsv := 1, scope := 2 },
    .stlbVa { d := 0, a := 0, rsv := 0, scope := 3 },
    .stlbVaall { d := 0, a := 0, rsv := 1, scope := 2 },
    .stlbVaall { d := 0, a := 0, rsv := 0, scope := 3 },
    .stlbAsid { d := 0, a := 0, rsv := 1, scope := 2 },
    .stlbAsid { d := 0, a := 0, rsv := 0, scope := 3 },
    .stlbAll { d := 0, a := 0, rsv := 1, scope := 2 },
    .stlbAll { d := 0, a := 0, rsv := 0, scope := 3 },
    .stlbPeer { d := 0, a := 0, rsv := 1, scope := 2 },
    .stlbPeer { d := 0, a := 0, rsv := 0, scope := 3 }] : List Instr).all refused = true := by decide +kernel

/-- Refused with ILLOP/ANNOT (R96). -/
theorem test_refused_annotations : ([
    .vld { L with ord := 1 },
    .vld { L with scope := 1 },
    .vld { L with ord := 2, scope := 4 },
    .vst { L with ord := 1, scope := 4 },
    .vatom { L with ord := 3 },
    .vpref { L with ord := 1, scope := 1 },
    .vhist { L with ord := 1, scope := 1 }] : List Instr).all (fun i => decide (i.check = some .annot)) = true := by decide +kernel

/-- R287, R293, R295: words of no assigned opcode, a lane instruction without all its words, and a field fault before an annotation fault. -/
theorem test_refused_words : decode [0x1D000000] = .error .opcode ∧ decode [0x88C00000, 0, 0] = .error .opcode ∧ decode [0x80000000, 0] = .error .straddle
    ∧ decode [0xC0000000] = .error .header ∧ (Instr.vld { L with ord := 1, imm := 1 }).check = some .field := by decide +kernel

/-! ## Small states -/

/-- A clause whose body is 32 words of zeros. -/
def clause0 : List Word32 := clauseOf []

/-- A path at the first word of a clause at 0x1000, with all lanes. -/
def path0 : Path := { Path.empty with pc := 0x1000, off := 1, mask := 0xFFFFFFFF, clock := 5, clause := some clause0 }

/-- A leaf of ASID 0 that maps the first 32 KiB to physical address 0x100000, with V, L, W, X, A and D. -/
def leaf0 : Word64 := 0x100633

/-- A buffer record: BASE, ESZ, EXTENT and STRIDE. -/
def rec0 (base esz extent stride : Nat) : BitVec 128 := BitVec.ofNat 128 (base + esz * 2 ^ 56 + extent * 2 ^ 64 + stride * 2 ^ 96)

/-- A group with one path and a few registers; b2 has 16 elements of 4 bytes at 0x2000, b3 of 1 byte, b4 of 16 bytes. -/
def group0 : Group :=
  { Group.empty with
    sregs := [(4, 7), (5, 9), (6, 3), (8, 0x1000)], vregs := [(32 * 10, 1), (32 * 10 + 31, 2)], mregs := [(3, 0xFF)]
    bregs := [(2, rec0 0x2000 2 16 4), (3, rec0 0x2000 0 16 1), (4, rec0 0x2000 4 16 16)], slot0 := some path0 }

/-- A ready tile with 32 rows of up to 128 bytes, at an offset of the scratchpad: its columns, format and domain. -/
def tile0 (addr cols fmt dom : Nat) : BitVec 256 := installTile (addr / 32) (4 * 2 ^ 8 + 31 * 2 ^ 22 + (cols - 1) * 2 ^ 29 + fmt * 2 ^ 38 + dom * 2 ^ 42) 0

def wg0 : Workgroup :=
  { Workgroup.empty with
    scrSize := 65536, ntiles := 8, tiles := [(1, tile0 0 32 2 0), (2, tile0 4096 32 2 0), (3, tile0 8192 32 2 0), (4, tile0 12288 32 2 5), (5, tile0 16384 32 0 0), (6, tile0 20480 64 0 0)
      , (7, installTile 768 (2 ^ 8 + 7 * 2 ^ 29 + 2 * 2 ^ 38) 0)], nslots := 16, claims := List.replicate 16 .free
    slotOps := List.replicate 16 0 }

/-- A granted clause on die 0, core 0, whose first 32 KiB are mapped; the clause stands in memory twice, one after the other. -/
def s0 : State :=
  { State.reset with
    live := true, granted := true, g := group0, w := wg0
    cores := [{ die := 0, num := 0, eccLog := 0, tlb := [.leaf 0 false 0 0 leaf0 0x200000] }]
    mem := [(0x101000, 0xE0), (0x101001, 0xFF), (0x101002, 0x03), (0x101003, 0xC0), (0x101084, 0xE0), (0x101085, 0xFF), (0x101086, 0x03), (0x101087, 0xC0)]
    regs := { PkgRegs.reset with asidbase := 1, bootstat := 0x106 } }

/-- `s` with a change of its group, of its path, of its workgroup. -/
def withG (s : State) (f : Group → Group) : State := { s with g := f s.g }
def withP (s : State) (f : Path → Path) : State := s.setPath (f s.path)
def withW (s : State) (f : Workgroup → Workgroup) : State := { s with w := f s.w }

/-- The state that an action leaves. -/
abbrev after {α : Type} (a : Act α) (s : State) : State := (runAct a s).2

/-- The result of an action, `d` where it does not end normally. -/
abbrev got {α : Type} (a : Act α) (s : State) (d : α) : α := (match (runAct a s).1 with | .ok x => x | .error _ => d)

/-! ## Statements with hypotheses: states and operands that meet them -/

theorem witness_DecodeEncode : (Instr.yield { d := 0, a := 0, sub := 0 }).WellFormed ∧ (Instr.yield { d := 0, a := 0, sub := 0 }).enc.isSome = true
    ∧ (Instr.kvapp { L with vd := 127, va := 127, vb := 255, vc := 255, mask := 15, minv := 1, fs := 1 }).WellFormed := by
  unfold Instr.WellFormed; decide +kernel

theorem witness_EncodeDecode : decode [0x57000000] = .ok (.yield { d := 0, a := 0, sub := 0 }, 1) ∧ (0xC0000000#32).extractLsb' 30 2 = 3 := by decide +kernel

theorem witness_StepRunsDecoded : s0.schedule = [] ∧ s0.granted = true ∧ s0.tripped = false ∧ s0.before = none
    ∧ decode s0.path.words = .ok (.snop { d := 0, a := 0, sub := 0 }, 1) := by decide +kernel

/-- A word whose fields are wrong that would go to an address that is no header, and one that would go to a header. -/
theorem witness_StepOtherwise_target :
    let s (a : BitVec 7) : State := withP (withG s0 fun g => { g with sregs := [(5, 9), (8, 0x1000)] }) fun p => { p with clause := some (clauseOf [(0x42000001 ||| (a.setWidth 32) <<< 10)]) }
    let w (a : BitVec 7) : Word32 := (s a).path.words.headD 0
    decode (s 5).path.words = .error .field ∧ (s 5).badTransfer (w 5) = some 9 ∧ Raises (checkTarget 9) (s 5) ((s 5).pathTrap 2 3 0)
    ∧ decode (s 8).path.words = .error .field ∧ (s 8).badTransfer (w 8) = some 0x1000 ∧ Does (checkTarget 0x1000) (s 8) () (s 8) := by
  unfold Raises Does; decide +kernel

/-- The same state with a word of no instruction, with a move scheduled, and after a thermal trip. -/
theorem witness_StepOtherwise :
    (let s := withP s0 fun p => { p with clause := some (clauseOf [0x1D000000]) }
     s.schedule = [] ∧ s.granted = true ∧ s.tripped = false ∧ s.before = none ∧ s.live = true ∧ (s.g.path? s.slot).isSome = true
      ∧ decode s.path.words = .error .opcode)
    ∧ (let s := { s0 with schedule := [.thermalWarning] }
       s.schedule = [.thermalWarning])
    ∧ (let s := { s0 with tripped := true }
       s.schedule = [] ∧ s.tripped = true) := by decide +kernel

theorem witness_OperandsAndRetiring :
    (s0.g.ovr = none ∧ s0.busyReg 4 = false ∧ s0.isSoft (.sreg s0.g.id 4) = false)
    ∧ (withG s0 fun g => { g with ovr := some ⟨1, 2, 0xFF⟩ }).g.ovr = some ⟨1, 2, 0xFF⟩
    ∧ (let s := { s0 with soft := [.sreg s0.g.id 127] }
       s.g.ovr = none ∧ s.busyReg 127 = false ∧ s.isSoft (.sreg s.g.id 127) = true)
    ∧ (table12_1 (.sadd { d := 6, a := 4, b := 5, rsv := 0, w := 0 })).map (fun r => r.1.a) = some 4
    ∧ s0.path.replay.length ≤ 1
    ∧ (s0.path.off + 1 ≤ bodyLen s0.path.header ∧ s0.path.off + 1 ≠ 0 ∧ s0.path.clause.isSome = true)
    ∧ (let s := withP s0 fun p => { p with off := 32 }
       bodyLen s.path.header < s.path.off + 1 ∧ s.path.replay.length ≤ 1) := by
  unfold table12_1; decide +kernel

/-- A register that a command has still to write. -/
theorem witness_OperandsAndRetiring_waits :
    let t := (withG s0 fun g => { g with slot1 := some { path0 with wait := some { instr := .kvlook { L with vd := 4 }, words := 3, on := .walker, vals := [] } } })
    t.g.ovr = none ∧ t.busyReg 4 = true ∧ Stalls (readSA 4) t ∧ (t.g.path? t.slot).isSome = true := by
  unfold Stalls; decide +kernel

theorem witness_OperandsAndRetiring_raises :
    let s := { s0 with soft := [.sreg s0.g.id 4] }
    Raises (readSA 4) s { cause := cECC, sub := 2, lmask := 0xFFFFFFFF, va := 0, kind := 0, level := 0xF } := by
  unfold Raises; decide +kernel

theorem witness_ScalarResults :
    (∃ op, table12_1 (.sdiv { d := 6, a := 4, b := 5, rsv := 0, w := 0 }) = some ({ d := 6, a := 4, b := 5, rsv := 0, w := 0 }, op))
    ∧ (∃ op, table12_1One (.sclz { d := 6, a := 4, b := 0, rsv := 0, w := 1 }) = some ({ d := 6, a := 4, b := 0, rsv := 0, w := 1 }, op))
    ∧ (∃ op, table12_1Old (.ssel { d := 6, a := 4, b := 5, rsv := 0, w := 0 }) = some ({ d := 6, a := 4, b := 5, rsv := 0, w := 0 }, op))
    ∧ (∃ op, table12_2 (.saddi { d := 6, a := 4, imm := 0x3FF }) = some ({ d := 6, a := 4, imm := 0x3FF }, op))
    ∧ Gives (readSA 4) s0 7 ∧ Gives (readSB 5) s0 9 ∧ Gives (readS 6) s0 3 ∧ s0.busyReg 6 = false := by
  refine ⟨⟨_, rfl⟩, ⟨_, rfl⟩, ⟨_, rfl⟩, ⟨_, rfl⟩, ?_⟩
  unfold Gives Does; decide +kernel

/-- Elements through the scratchpad window (code 1): in bounds at the last index, out of bounds at the first index past it, with and
without OOBT, misaligned, beyond the window, in a marked sector, and through a reserved record. -/
theorem witness_Accesses :
    let a : Access := { win := 1, n := 4, kind := 0, annot := true, priv := false }
    let r := recOf (rec0 0x2000 2 16 4)
    a.win ≠ 0 ∧ 0 < a.n
    ∧ (r.bad = false ∧ 15 < r.extent ∧ r.addr a.priv 31 15 0 % min (2 ^ r.esz) 16 = 0 ∧ r.addr a.priv 31 15 3 < s0.winLimit 1 ∧ s0.winSoft 1 (r.addr a.priv 31 15 0) = false
        ∧ Gives (resolve a r [⟨31, 15⟩]) s0 [⟨31, (List.range 4).map fun k => ⟨r.addr false 31 15 k, [r.addr false 31 15 k], false, 0⟩, none⟩])
    ∧ (r.extent ≤ 16 ∧ r.oobt = false ∧ { r with oobt := true }.oobt = true)
    ∧ { r with swz := 4 }.bad = true
    ∧ { r with base := 0x2002 }.addr a.priv 0 0 0 % min (2 ^ r.esz) 16 ≠ 0
    ∧ s0.winLimit 1 ≤ { r with base := 0x10000 }.addr a.priv 0 0 0
    ∧ ({ s0 with soft := [.scratch s0.w.id 0x2000] } : State).winSoft 1 (r.addr a.priv 0 0 0) = true := by
  unfold Gives Does; decide +kernel

theorem witness_Stores :
    (([(0x100000, 1), (0x100001, 2)] : List (Nat × Byte)).map Prod.fst).Nodup ∧ inCarve 0x100000 = false ∧ isHole (basePa 0x100000) = false
      ∧ Memory.wf s0.mem = true ∧ SMap.wf s0.w.scr = true ∧ s0.g.uo = [] ∧ inCarve 0x17FFE800000 = true := by decide +kernel

/-- A load and a store of element 1 of b2 in memory, and of the scratchpad window. -/
theorem witness_ScalarMemory :
    let f : MForm := { d := 6, buf := 2, sx := 4, w := 2, scope := 4 }
    scalarLoadForm (.sld f) = some (0, f) ∧ scalarStoreForm (.sstsp f) = some (1, f)
    ∧ Gives (checkMark false) s0 none ∧ Gives (readSA 4) s0 7 ∧ Gives (readSB 6) s0 3 ∧ Gives (readB 2) s0 (rec0 0x2000 2 16 4)
    ∧ Does (resolve (scalarAccess 0 0 f) (s0.g.recIn 2 (rec0 0x2000 2 16 4)) [⟨0, 7⟩]) s0
        [⟨0, (List.range 4).map fun k => ⟨0x2000 + 28 + k, [0x100000 + 0x2000 + 28 + k], false, leaf0⟩, none⟩]
        (after (resolve (scalarAccess 0 0 f) (s0.g.recIn 2 (rec0 0x2000 2 16 4)) [⟨0, 7⟩]) s0)
    ∧ Does (resolve (scalarAccess 1 1 f) (s0.g.recIn 2 (rec0 0x2000 2 16 4)) [⟨0, 7⟩]) s0 [⟨0, (List.range 4).map fun k => ⟨0x2000 + 28 + k, [0x2000 + 28 + k], false, 0⟩, none⟩] s0
    ∧ (after (resolve (scalarAccess 0 0 f) (s0.g.recIn 2 (rec0 0x2000 2 16 4)) [⟨0, 7⟩]) s0).busyReg 6 = false ∧ s0.allAcked (.group s0.g.id) = true
    ∧ Gives (storeLost [⟨0, (List.range 4).map fun k => ⟨0x2000 + 28 + k, [0x100000 + 0x2000 + 28 + k], false, leaf0⟩, none⟩]) s0 () := by
  unfold Gives Does; decide +kernel

/-- Targets that are clause headers: a jump of no words and one of 33; and conditions of both kinds. -/
theorem witness_Jumps :
    let s := withP s0 fun p => { p with off := 0 }
    Does (checkTarget (targetOf s 0)) s () s ∧ Does (checkTarget (targetOf s 33)) s () s ∧ s.busyReg 126 = false
    ∧ Gives (readSA 8) s 0x1000 ∧ Does (checkTarget 0x1000) s () s
    ∧ (∃ c, branchTest (.bz { a := 4, off := 33 }) = some ({ a := 4, off := 33 }, c) ∧ ¬ c 7 ∧ c 0)
    ∧ (∃ c, branchTest (.bgez { a := 4, off := 33 }) = some ({ a := 4, off := 33 }, c) ∧ c 7 ∧ ¬ c 0x8000000000000000)
    ∧ maskReadable s 3 ∧ s.path.mask &&& maskOfSA s 3 ≠ 0 ∧ s.path.mask &&& maskOfSA s 3 ≠ s.path.mask
    ∧ s.path.mask &&& maskOfSA s 16 = 0 ∧ s.path.mask &&& maskOfSA s 0 = s.path.mask := by
  intro s
  refine ⟨?_, ?_, ?_, ?_, ?_, ⟨_, rfl, ?_, ?_⟩, ⟨_, rfl, ?_, ?_⟩, ?_⟩
  all_goals (try unfold Gives); (try unfold Does); (try unfold maskReadable); decide +kernel

/-- Targets that are refused: a word that is no header, one that is misaligned, and one at 2^56. -/
theorem witness_Jumps_refused :
    let s := withP s0 fun p => { p with off := 0 }
    let t := s.pathTrap cILLCL 3 0
    Raises (checkTarget (targetOf s 1)) s t ∧ Gives (readSA 8) s 0x1000
    ∧ (∃ c, branchTest (.bz { a := 4, off := 1 }) = some ({ a := 4, off := 1 }, c) ∧ c 0)
    ∧ maskReadable s 3 ∧ s.path.mask &&& maskOfSA s 3 ≠ 0 ∧ s.path.mask &&& maskOfSA s 0 = s.path.mask
    ∧ (9#64).toNat % 4 ≠ 0 ∧ (0x100000000000000#64).toNat % 4 = 0 ∧ 2 ^ 56 ≤ (0x100000000000000#64).toNat
    ∧ (match (s.translate s.here s.g.asid { fetch := true } 0x1000).2 with | .ok y => natOf ((List.range 4).map fun i => s.codeByte (y.pas.headD 0 + i)) / 2 ^ 30 % 4 == 3 | .error _ => false) = true
    ∧ (match (s.translate s.here s.g.asid { fetch := true } 0x1004).2 with | .ok y => natOf ((List.range 4).map fun i => s.codeByte (y.pas.headD 0 + i)) / 2 ^ 30 % 4 != 3 | .error _ => false) = true := by
  intro s t
  refine ⟨?_, ?_, ⟨_, rfl, ?_⟩, ?_⟩
  all_goals (try unfold Raises); (try unfold Gives); (try unfold Does); (try unfold maskReadable); decide +kernel

theorem witness_Divergence :
    let s := withP s0 fun p => { p with off := 0 }
    (maskReadable s 3 ∧ s.path.mask &&& maskOfSA s 3 ≠ 0 ∧ s.path.mask &&& ~~~ maskOfSA s 3 ≠ 0 ∧ Does (checkTarget (targetOf s 33)) s () s ∧ s.g.path? (!s.slot) = none)
    ∧ (s.path.mask &&& maskOfSA s 16 = 0) ∧ (s.path.mask &&& maskOfSA s 0 ≠ 0 ∧ s.path.mask &&& ~~~ maskOfSA s 0 = 0)
    ∧ (let st : Stack := s0.stackNow
       st.parkedAt s0.path.addr = none
        ∧ Does (leaveSlot 0 (st.push { clock := s0.path.clock, next := s0.path.nextHeader, kind := 1, mask := s0.path.mask, pc := s0.path.addr } (decide (2 ^ 56 ≤ s0.path.nextAt)))) s0 ()
            (after (leaveSlot 0 (st.push { clock := s0.path.clock, next := s0.path.nextHeader, kind := 1, mask := s0.path.mask, pc := s0.path.addr } (decide (2 ^ 56 ≤ s0.path.nextAt)))) s0)
        ∧ Does (leaveSlot 0xFFFFFFFF st) s0 () (after (leaveSlot 0xFFFFFFFF st) s0))
    ∧ (s0.g.stack = [] ∧ s0.g.path? (!s0.slot) = none ∧ s0.g.supv = false ∧ Does (isHeaderAt s0.path.nextHeader.toNat) s0 true s0
        ∧ s0.path.mask &&& ~~~ s0.g.exited ≠ 0 ∧ decide (2 ^ 56 ≤ s0.path.nextAt) = false
        ∧ decide (2 ^ 56 ≤ (withP s0 fun p => { p with pc := 0xFFFFFFFFFFFF7C }).path.nextAt) = true) := by
  unfold Does maskReadable; decide +kernel

/-- A split while the other live slot is taken: the lanes taken go to the divergence stack. -/
theorem witness_Divergence_push :
    let s := withG (withP s0 fun p => { p with off := 0, mask := 0xFFFF }) fun g => { g with slot1 := some { path0 with mask := 0xFFFF0000 } }
    let t := s.path.mask &&& maskOfSA s 3
    let new : Entry := { clock := s.path.clock + 1, next := 0, kind := 0, mask := t, pc := (targetOf s 33).setWidth 56 }
    maskReadable s 3 ∧ t ≠ 0 ∧ s.path.mask &&& ~~~ maskOfSA s 3 ≠ 0 ∧ Does (checkTarget (targetOf s 33)) s () s ∧ (s.g.path? (!s.slot)).isSome = true ∧ s.g.supv = false
    ∧ Does (storeStack (s.stackNow.push new)) s () (after (storeStack (s.stackNow.push new)) s) := by
  unfold Does maskReadable; decide +kernel

/-- A path that joins where the other live path is already parked. -/
theorem witness_Divergence_parked :
    let e : Entry := { clock := 3, next := path0.nextHeader, kind := 1, mask := 0xFF, pc := path0.addr }
    let s := withG (withP (s0.vstore (s0.entryVa 0) (bytesOf 32 e.bits)).1 fun p => { p with mask := 0xFFFFFF00 }) fun g => { g with stack := [e.key] }
    let st : Stack := { s.stackNow with items := [⟨e.key, 0, some e⟩] }
    s.stackNow.parkedAt s.path.addr = some 0 ∧ Does (readEntry s.stackNow 0) s (st, e) s
      ∧ Does (leaveSlot 0 (st.setEntry 0 { e with mask := 0xFFFFFFFF, clock := 5 })) s () (after (leaveSlot 0 (st.setEntry 0 { e with mask := 0xFFFFFFFF, clock := 5 })) s) := by
  unfold Does; decide +kernel

theorem witness_YieldAndClock : s0.busyReg 30 = false := by decide +kernel
/-- A group none of whose stores is unacknowledged, a hint with and without a request to stop, and a timeline at and before a number. -/
theorem witness_FencesAndTimelines :
    s0.allAcked (.group s0.g.id) = true ∧ s0.drain.allAcked (.group s0.g.id) = true
    ∧ ((withG s0 fun g => { g with stop := .requested }).g.stop = .requested) ∧ s0.g.stop = .running ∧ s0.g.path? (!s0.slot) = none
    ∧ ({ path0 with wait := some { instr := .kvlook L, words := 3, on := .walker, vals := [] } } : Path).busy = true
    ∧ ((0x119 : Nat) < 1024 ∧ ctxNamed s0.g.die 0x119 = some (.spore 17) ∧ s0.busyReg 7 = false ∧ Gives (readSA 10) s0 0 ∧ Gives (readSA 4) s0 7
        ∧ (0#64).toNat ≤ (ctxGet s0.w.timelines (.spore 17)).toNat ∧ (ctxGet s0.w.timelines (.spore 17)).toNat < (7#64).toNat) := by
  unfold Gives Does; decide +kernel

/-- A barrier record in the scratchpad at 0x40: generation 9, two participants, one of them still to arrive. -/
def sBar : State := (withG s0 fun g => { g with sregs := [(20, 0x0000000200000040), (21, 9), (22, 8), (23, 0x48), (24, 0x10000)] }).winStore 1
  (cellsAt 0x40 (bytesOf 16 (BarRec.bits { lrst := false, ring := true, strap := false, gen := 9, npart := 2, arr := 1, bytes := 0 })))

def bar0 : BarRec := { lrst := false, ring := true, strap := false, gen := 9, npart := 2, arr := 1, bytes := 0 }

theorem witness_Barriers :
    let f : YForm := { d := 21, a := 20, sub := 1 }
    bar0.arr = 1 ∧ (bar0.bytes + 0) % 2 ^ 32 = 0 ∧ ({ bar0 with bytes := 1 } : BarRec).bytes + 0 ≠ 0
    ∧ ({ bar0 with arr := 0, bytes := 32 } : BarRec).bytes = 32 ∧ (bar0.arr ≠ 0 ∧ 32 ≤ ({ bar0 with bytes := 64 } : BarRec).bytes)
    ∧ Gives (readSA 20) sBar 0x0000000200000040 ∧ 0x40 % 16 = 0 ∧ 0x40 + 16 ≤ sBar.winLimit 1 ∧ barReserved (sBar.winNum 1 0x40 16) = false
    ∧ (∀ i, i < 16 → sBar.winSoft 1 (0x40 + i) = false)
    ∧ Gives (readSA 23) sBar 0x48 ∧ 0x48 % 16 ≠ 0 ∧ Gives (readSA 24) sBar 0x10000 ∧ sBar.winLimit 1 < 0x10000 + 16
    ∧ Gives (barRecord f fun a _ => bitsOf a.toNat 32 16 == 0) sBar (1, 0x40, 0x0000000200000040, bar0)
    ∧ Gives (barRecord f fun _ b => b.arr == 0) sBar (1, 0x40, 0x0000000200000040, bar0)
    ∧ Gives (barRecord f fun _ _ => false) sBar (1, 0x40, 0x0000000200000040, bar0)
    ∧ sBar.busyReg 21 = false ∧ Gives (readSB 21) sBar 9 ∧ 9 % 65536 = bar0.gen ∧ Gives (readSB 22) sBar 8 ∧ (8 + 1) % 65536 = bar0.gen := by
  intro f; (repeat' apply And.intro) <;> first | decide +kernel | (unfold Gives Does; decide +kernel)

/-- The frame's arguments of a fault of the first instruction. -/
def args0 : FrameArgs := { trap := { cause := cPRIV, sub := 1, lmask := 0xFFFFFFFF, va := 0, kind := 0, level := 0xF }, iw := [] }

/-- The save slot's store ends normally; without a mapped page it faults. -/
theorem witness_TakeTrap :
    let bytes := bytesOf 256 (frameBits args0 s0.path s0.slot) ++ (s0.path.replay.drop 1).flatMap fun r => bytesOf 64 (replayBits r)
    s0.g.supv = false ∧ (s0.vstore s0.saveSlot bytes).2 = .ok ()
    ∧ (let s := { s0 with cores := [] }
       s.g.supv = false ∧ (s.vstore s.saveSlot bytes).2 = .error (tfault 7 3))
    ∧ (withG s0 fun g => { g with gstat := 0x400 }).g.supv = true
    ∧ s0.path.replay.length ≤ 17 ∧ s0.path.off ≤ 32 := by
  decide +kernel

/-- A handler that serves a command's trap, of a group of a node the scheduler holds; a fault ring that is enabled and empty. -/
theorem witness_TakeTrap_nested :
    let d : Delivered := { cmd := ⟨⟨0, 0⟩, .copy0, 1⟩, eng := 1, trap := cmdTrap protWrite 5 0x2000, elem := 3, restart := true, active := 0xFFFFFFFF, pc := 0x1000, clock := 5 }
    let s : State := withG { s0 with nodes := [newNode 0 0] } fun g => { g with serving := some d }
    let r : State := { s0 with regs := { s0.regs with frctl := 0x104 } }
    (s.node? s.g.id.node).isSome = true ∧ s.g.serving = some d ∧ d.restart = true
    ∧ r.frEn = true ∧ (r.plainLines [r.frBase]).oldestWaiting = none ∧ (r.plainLines [r.frBase]).frRoom = true := by
  decide +kernel

/-- A group in supervisor mode whose s127 names the save slot, with a frame of a fault at 0x1000, OFFSET 1, written there. -/
def sSup : State :=
  withG (s0.vstore 0 (bytesOf 256 (frameBits args0 s0.path false))).1 fun g => { g with gstat := 0x400, sregs := [(4, 7), (5, 9), (8, 0x1000)], trapLanes := 0xFFFFFFFF }

theorem witness_SoftwareTraps :
    (let f : YForm := { d := 0, a := 4, sub := 0x121 }
     let a : FrameArgs := { trap := { cause := cTRAP, sub := f.sub.extractLsb' 0 8, lmask := s0.path.mask, va := 7, kind := 0, level := 0xF }, iw := s0.path.frameWords, skip := true }
     s0.g.supv = false ∧ f.sub.getLsbD 8 = true ∧ Gives (readSA 4) s0 7
      ∧ (s0.unhang.vstore s0.saveSlot (bytesOf 256 (frameBits a s0.path s0.slot) ++ (s0.path.replay.drop 1).flatMap fun r => bytesOf 64 (replayBits r))).2 = .ok ())
    ∧ (let bs := bytesOf 256 (frameBits args0 s0.path false)
       sSup.g.supv = true ∧ Gives (readS 127) sSup 0 ∧ Does (readSave 0 256) sSup bs sSup ∧ frameField bs 16 5 = 0
        ∧ Does (readSave 256 0) sSup [] sSup ∧ frameField bs 21 1 ≠ 1
        ∧ BitVec.ofNat 32 (frameField bs 512 32) &&& sSup.g.trapLanes &&& ~~~ sSup.g.exited ≠ 0 ∧ frameField bs 312 6 ≠ 0 ∧ frameField bs 23 1 ≠ 1
        ∧ frameField (bytesOf 256 (frameBits { args0 with skip := true } s0.path false)) 23 1 = 1
        ∧ frameField (bytesOf 256 (frameBits args0 { s0.path with off := 0 } false)) 312 6 = 0) := by
  unfold Gives Does; decide +kernel

/-- A return whose path has no lane left. -/
theorem witness_SoftwareTraps_last :
    let bs := bytesOf 256 (frameBits args0 s0.path false)
    let s := withG sSup fun g => { g with trapLanes := 0xFF, exited := 0xFF }
    let r := s.returnFrom bs []
    BitVec.ofNat 32 (frameField bs 512 32) &&& s.g.trapLanes &&& ~~~ s.g.exited = 0 ∧ r.2 = true
    ∧ Does (leaveSlot 0 r.1.stackNow) r.1 () (after (leaveSlot 0 r.1.stackNow) r.1) := by
  unfold Does; decide +kernel

/-- SRD and SWR outside supervisor mode with a marked register, and in it; a register outside the group with no store unacknowledged. -/
theorem witness_SystemRegisters :
    s0.g.supv = false ∧ alwaysPrivileged (.eret { d := 0, a := 0, sub := 0 }) = true ∧ readMarked 0x114 = true ∧ writeMarked 0x23F = true
    ∧ (readMarked 0 = false ∧ Gives (readSys 0) s0 s0.g.gstat ∧ s0.busyReg 4 = false)
    ∧ (sSup.g.supv = true ∧ Gives (readSys 0x101) sSup 0 ∧ Gives (readSA 4) sSup 7 ∧ isGroupReg 0x101 = false ∧ sSup.allAcked (.group sSup.g.id) = true)
    ∧ (s0.isSoft (.breg s0.g.id 31) = false ∧ s0.isSoft (.mreg s0.g.id 0) = false ∧ s0.isSoft (.mreg s0.g.id 15) = false)
    ∧ ((7#64).extractLsb' 0 3 ≤ 5#3 ↔ False) ∧ (5#64).extractLsb' 0 3 ≤ 5#3 := by
  unfold Gives Does; decide +kernel

/-- Registers outside the group before and after a write: SCHEDCTL, and TLBICTL without GO. -/
theorem witness_SystemRegisters_fields :
    (∃ fields w1c, accessFields 0x107 = some (fields, w1c)) ∧ (∃ fields w1c, accessFields 0x110 = some (fields, w1c)) ∧ s0.g.die.toNat < 2 ∧ (3#64).getLsbD 7 = false
    ∧ Gives (readSys 0x107) s0 0x3E80000 ∧ Gives (readSys 0x107) (s0.writeSys 0x107 1) 0x3E80001
    ∧ Gives (readSys 0x110) s0 0 ∧ Gives (readSys 0x110) (s0.writeSys 0x110 3) 3 := by
  refine ⟨⟨_, _, rfl⟩, ⟨_, _, rfl⟩, ?_⟩
  unfold Gives Does; decide +kernel

/-- The monitored element 15 of b2 in memory, an element out of bounds, and the watch's states. -/
theorem witness_Waits :
    let f : YForm := { d := 0, a := 4, sub := 2 }
    (Gives (checkMark false) s0 none ∧ Gives (readSA 4) s0 7 ∧ Gives (readB 2) s0 (rec0 0x2000 2 16 4)
      ∧ Does (resolve { win := 0, n := 4, kind := 0, priv := false } (s0.g.recIn 2 (rec0 0x2000 2 16 4)) [⟨0, 7⟩]) s0
          [⟨0, (List.range 4).map fun k => ⟨0x2000 + 28 + k, [0x100000 + 0x2000 + 28 + k], false, leaf0⟩, none⟩]
          (after (resolve { win := 0, n := 4, kind := 0, priv := false } (s0.g.recIn 2 (rec0 0x2000 2 16 4)) [⟨0, 7⟩]) s0)
      ∧ Does (resolve { win := 0, n := 4, kind := 0, priv := false } (s0.g.recIn 2 (rec0 0x2000 2 16 4)) [⟨0, 0x1000⟩]) s0 [] (s0.stick 0))
    ∧ (s0.busyReg f.d = false ∧ s0.g.watch = none)
    ∧ (let w : Watch := { win := 0, home := 0, line := 0x102000, value := [], written := true }
       (withG s0 fun g => { g with watch := some w }).g.watch = some w ∧ w.written = true ∧ { w with written := false }.written = false) := by
  unfold Gives Does; decide +kernel

/-- A group that was asked to stop, all of whose paths are then parked. -/
theorem witness_Waits_park :
    let s := withG s0 fun g => { g with stop := .requested }
    s.g.stop = .requested ∧ (s.park { instr := .ndone L, words := 3, on := .nodeDone 3, vals := [] }).g.idle = true ∧ s0.g.stop ≠ .requested := by decide +kernel

/-- A path that waits, brought to issue. -/
def sWaits (on : WaitOn) (i : Instr) : State := withP s0 fun p => { p with wait := some { instr := i, words := 1, on := on, vals := [] } }

def smwait0 : YForm := { d := 13, a := 14, sub := 0 }
def barw0 : YForm := { d := 21, a := 20, sub := 1 }

theorem witness_Waits_ends :
    (let s := sWaits (.timeline .copy0 0) (.tlwt { d := 0, a := 4, sub := 1 })
     let t : State := { s with slot := false, granted := false }
     s.atPath ⟨0, 0, 0⟩ false t ∧ t.path.wait = some { instr := .tlwt { d := 0, a := 4, sub := 1 }, words := 1, on := .timeline .copy0 0, vals := [] }
      ∧ t.g.stop ≠ .stopped ∧ (0#64).toNat ≤ (ctxGet t.w.timelines .copy0).toNat)
    ∧ (let s := withG (sWaits (.monitor (some 100)) (.smwait smwait0)) fun g => { g with watch := some { win := 0, home := 0, line := 0x102000, value := [], written := true } }
       let t : State := { s with slot := false, granted := false }
       s.atPath ⟨0, 0, 0⟩ false t ∧ t.path.wait = some { instr := .smwait smwait0, words := 1, on := .monitor (some 100), vals := [] } ∧ t.g.stop ≠ .stopped
        ∧ (t.g.watch.map (·.written)) = some true)
    ∧ (let w : Wait := { instr := .barw barw0, words := 1, on := .barrier 1 (sBar.home 1) 0x40 9 21, vals := [] }
       let s := withP sBar fun p => { p with wait := some w }
       let t : State := { s with slot := false, granted := false }
       s.atPath ⟨0, 0, 0⟩ false t ∧ t.path.wait = some w ∧ t.g.stop ≠ .stopped ∧ (BarRec.ofNat (t.winNum 1 0x40 16)).ring = true ∧ sBar.home 1 = t.home 1
        ∧ (BarRec.ofNat (t.winNum 1 0x40 16)).strap = false ∧ { bar0 with strap := true }.strap = true)
    ∧ (let s := sWaits .order (.npost L)
       let t : State := { s with slot := false, granted := false }
       s.atPath ⟨0, 0, 0⟩ false t ∧ t.path.wait = some { instr := .npost L, words := 1, on := .order, vals := [] } ∧ t.g.stop ≠ .stopped
        ∧ t.lowestFor (.npost L) t.g.id.node t.key (some (t.g.id, t.slot)) = true)
    ∧ (let s := sWaits (.monitor none) (.smwait smwait0)
       let t : State := { s with slot := false, granted := false }
       s.atPath ⟨0, 0, 0⟩ false t ∧ (t.g.watch.map (·.written)) ≠ some false) := by
  unfold State.atPath; decide +kernel

/-- Cleaning a range of 2 lines, of none, and an element out of bounds; invalidations by a core in supervisor mode and by the host. -/
theorem witness_CacheOperations :
    let b := rec0 0x2000 2 16 4
    let s := withG s0 fun g => { g with sregs := [(4, 7), (5, 200), (6, 16)] }
    (Gives (readSA 4) s 7 ∧ Gives (readSB 5) s 200 ∧ Gives (readSB 7) s 0 ∧ Gives (readSA 6) s 16 ∧ Gives (readB 2) s b ∧ (recOf b).bad = false
      ∧ 7 < (recOf b).extent ∧ (recOf b).extent ≤ 16 ∧ (recOf b).oobt = false ∧ (recOf b).addr false 0 7 0 + 200 ≤ 2 ^ 56 ∧ s.allAcked (.group s.g.id) = true
      ∧ straddles (recOf b).esz ((List.range (2 ^ (recOf b).esz)).map ((recOf b).addr false 0 7)) = false
      ∧ Does (cleanXlates 2 ((recOf b).addr false 0 7 0 / 128)) s [0x102000, 0x102080] s ∧ s.g.recIn 2 b = recOf b
      ∧ (s.cleanLines true [0x102000, 0x102080]).allAcked (.group s.g.id) = true)
    ∧ (stlbKind (.stlbPeer { d := 5, a := 4, rsv := 0, scope := 5 }) = some (4, { d := 5, a := 4, rsv := 0, scope := 5 }) ∧ sSup.g.supv = true
      ∧ Gives (readSA 4) sSup 7 ∧ Gives (readSB 5) sSup 9 ∧ sSup.drainAll.settled = true
      ∧ ({ sSup with unacked := [⟨.group ⟨0, 0, 0⟩, 3, 9, [], []⟩] } : State).drainAll.settled = false)
    ∧ tlbiKind (.tlbiPeer 4095) = some (4, 4095) ∧ s0.regs.bootstat.getLsbD 8 = true ∧ s0.regs.tlbictl.getLsbD 8 = false ∧ (∀ h ∈ s0.held, h.hostWrites = false) := by
  unfold Gives Does; decide +kernel

/-- A request of a page in supervisor mode, and the unit's service of it: the walk of its group's tables ends with status 3, no ASID table. -/
theorem witness_FirstTouchAndRing :
    (let s := { sSup with regs := { sSup.regs with asidbase := 0 } }
     s.g.supv = true ∧ Gives (checkMark false) s none ∧ Gives (readSA 8) s 0x1000 ∧ s.busyReg 5 = false ∧ s.mapQueue.length < 64)
    ∧ (let w : Wait := { instr := .mappg { d := 5, a := 8, sub := 0 }, words := 1, on := .firstTouch, vals := [0x1000] }
       let q : MapReq := ⟨sSup.g.id, false, 0⟩
       let s : State := withP { sSup with regs := { sSup.regs with asidbase := 0 }, mapQueue := [q] } fun p => { p with wait := some w }
       s.mapQueue = [q] ∧ s.group? q.group = some s.g ∧ (s.mapPage s.g.asid s.g.die.toNat q.va.toNat).2 = some 3
        ∧ State.atPath { (s.mapPage s.g.asid s.g.die.toNat q.va.toNat).1 with mapQueue := [] } q.group q.slot { (s.mapPage s.g.asid s.g.die.toNat q.va.toNat).1 with mapQueue := [], slot := false, granted := false } ∧ s.path.wait = some w) := by
  unfold Gives Does State.atPath; decide +kernel

theorem witness_FirstTouchAndRing_post :
    let bs := bytesOf 256 (frameBits args0 s0.path false)
    let r := sSup.frPost (sSup.frameRecord bs 7)
    sSup.g.supv = true ∧ Gives (checkMark false) sSup none ∧ sSup.g.det = false ∧ Gives (readSA 4) sSup 7 ∧ Gives (readS 127) sSup 0 ∧ sSup.busyReg 6 = false
      ∧ Does (readSave 0 256) sSup bs sSup ∧ r.1.busyReg 6 = false
      ∧ (let d := withG sSup fun g => { g with gstat := 0x500 }
         d.g.det = true ∧ d.isLowestPost d.g.id.node d.key (some (d.g.id, d.slot)) none = true)
      ∧ inCarve (sSup.frBase + 64) = false ∧ isHole (basePa (sSup.frBase + 64)) = false ∧ inCarve (sSup.frBase + 8) = false ∧ isHole (basePa (sSup.frBase + 15)) = false := by
  unfold Gives Does; decide +kernel

/-- A state for lane instructions: v10 holds 1 in lane 0 and 2 in lane 31. -/
def laneAll : Lane := { L with vd := 11, va := 10, vb := 10 }

theorem witness_LaneRows :
    (s0.soft = [] ∧ Gives (checkMark (L.fs = 1)) s0 none ∧ Gives (readSB 5) s0 9 ∧ (63 + 1 ≤ s0.g.vcount) ∧ s0.g.vcount < 63 + 2)
    ∧ (∃ f, laneRow (.vadd laneAll) = some (elemShape 2 laneAll, laneAll, f))
    ∧ Gives (laneGather (elemShape 2 laneAll) laneAll) s0 ((List.range 32).map fun i =>
        { lane := i, a := (s0.g.vreg 10 i).toNat, b := (s0.g.vreg 10 i).toNat, c := 0, old := 0 })
    ∧ s0.g.nanctl.getLsbD 0 = false ∧ kindOf 9 = .int 8 true := by
  refine ⟨?_, ⟨_, rfl⟩, ?_, ?_⟩
  all_goals (try unfold Gives); (try unfold Does); decide +kernel

/-- A group that traps NaNs, with a NaN in lane 31 of v12. -/
theorem witness_LaneRows_nan :
    let l : Lane := { L with vd := 13, va := 12, vb := 10, type := 2, mask := 0 }
    let s := withG s0 fun g => { g with nanctl := 1, vregs := g.vregs.set (32 * 12 + 31) 0x7FC00000 }
    ∃ f, laneRow (.vadd l) = some (elemShape 2 l, l, f) ∧ s.g.nanctl.getLsbD 0 = true
      ∧ Gives (laneGather (elemShape 2 l) l) s (got (laneGather (elemShape 2 l) l) s [])
      ∧ (((got (laneGather (elemShape 2 l) l) s []).map fun x => (x.lane, f s x)).filter fun r => r.2.fl.nan).map Prod.fst = [31] := by
  refine ⟨_, rfl, ?_⟩
  unfold Gives Does; decide +kernel

theorem witness_LaneRows_fields :
    Gives (laneGather { a := true } laneAll) s0 (got (laneGather { a := true } laneAll) s0 [])
    ∧ Gives (laneGather { a := true, old := true } laneAll) s0 (got (laneGather { a := true, old := true } laneAll) s0 [])
    ∧ (let l : Lane := { laneAll with type := 7, imm := 0x12 }
       s0.g.nanctl.getLsbD 0 = false ∧ (elemCount l.type.toNat ≤ elemCount (l.imm.toNat % 16) ↔ False)
        ∧ Gives (laneGather { a := true, wideA := isWide (l.imm.toNat % 16), wideD := isWide l.type.toNat, old := !decide (elemCount l.type.toNat ≤ elemCount (l.imm.toNat % 16)) } l) s0
            (got (laneGather { a := true, wideA := isWide (l.imm.toNat % 16), wideD := isWide l.type.toNat, old := !decide (elemCount l.type.toNat ≤ elemCount (l.imm.toNat % 16)) } l) s0 [])) := by
  unfold Gives Does; decide +kernel

/-- A width, an element's place, and the largest finite value of E4M3. -/
theorem witness_ElementArithmetic :
    0 < 1 ∧ 3 < ([1, 2, 3, 4] : List Nat).length ∧ e4m3 ∈ [e4m3, e5m2, e3m2, e2m3, e2m1] ∧ 5 < 6 ∧ 0x7E < 2 ^ e4m3.bits
    ∧ ∃ neg m e, e4m3.value 0x7E = .fin neg m e := by
  refine ⟨by decide, by decide, by decide +kernel, by decide, by decide +kernel, _, _, _, rfl⟩

theorem witness_ExchangesAndVotes :
    let l : Lane := { L with vd := 11, va := 10, vb := 12 }
    (s0.soft = [] ∧ Gives (activeOf l) s0 0xFFFFFFFF ∧ Gives (checkMark (l.fs = 1)) s0 none ∧ Gives (broadcast l) s0 none
      ∧ Gives (broadcast { l with ss := 5, bsb := 1 }) s0 (some 9) ∧ 63 + 1 ≤ s0.g.vcount ∧ 63 < s0.g.vcount)
    ∧ (Gives (voters l) s0 (0xFFFFFFFF, (List.range 32).map fun i => (i, s0.g.vreg 10 i)) ∧ s0.busyReg 11 = false ∧ Gives (readM 15) s0 0)
    ∧ (Gives (readM 3) s0 0xFF ∧ Gives (readM 0) s0 0xFFFFFFFF ∧ 2 ≤ 5 % 8) := by
  unfold Gives Does; decide +kernel

/-- With every lane and with none: mask register 0, complemented. -/
theorem witness_ReductionsAndScans :
    let l : Lane := { L with vd := 7, va := 10, type := 2, rm := 3 }
    Gives (activeOf l) s0 0xFFFFFFFF ∧ Gives (activeOf { l with minv := 1 }) s0 0 ∧ Gives (checkMark (l.fs = 1)) s0 none ∧ s0.g.nanctl.getLsbD 0 = false ∧ s0.soft = []
    ∧ 63 + 1 ≤ s0.g.vcount ∧ 62 + 2 ≤ s0.g.vcount ∧ s0.busyReg 7 = false ∧ Gives (readSB 5) s0 9 := by
  unfold Gives Does; decide +kernel

/-- All lanes access element 0 of b2 in memory; a store of 4 bytes, and an atomic of 4. -/
theorem witness_LaneLoadsAndStores :
    let l : Lane := { L with vd := 11, va := 2, vb := 12, vc := 10 }
    let r := recOf (rec0 0x2000 2 16 4)
    let es := got (resolve (laneAccess 0 0 4 l true) r (wantsOf s0 l 0xFFFFFFFF none)) s0 []
    let s1 := after (resolve (laneAccess 0 0 4 l true) r (wantsOf s0 l 0xFFFFFFFF none)) s0
    let s2 := after (resolve (laneAccess 0 1 4 l true) r (wantsOf s0 l 0xFFFFFFFF none)) s0
    Gives (activeOf l) s0 0xFFFFFFFF ∧ Gives (checkMark (l.fs = 1)) s0 none ∧ Gives (broadcast l) s0 none ∧ Gives (recordOf l) s0 r
    ∧ Gives (useSrc 0xFFFFFFFF true (l.bsb = 1) l.vb 1) s0 () ∧ laneLoadForm (.vld l) = some (0, l) ∧ laneStoreForm (.vstds l) = some (3, l)
    ∧ laneStoreForm (.vst l) = some (0, l)
    ∧ Gives (checkV 0xFFFFFFFF l.vd.toNat (regsOf r.esz)) s0 () ∧ Gives (useSrc 0xFFFFFFFF true (l.bsc = 1) l.vc (regsOf r.esz)) s0 ()
    ∧ Does (resolve (laneAccess 0 0 4 l true) r (wantsOf s0 l 0xFFFFFFFF none)) s0 es s1 ∧ es.length = 32
    ∧ Gives (releasePart l.ord) s0 () ∧ Does (resolve (laneAccess 0 1 4 l true) r (wantsOf s0 l 0xFFFFFFFF none)) s0 es s2
    ∧ Gives (storeLost es) ((s2.clamped 0 0 (!es.isEmpty)).storeElems 0 (es.map fun e => (e, storeBytes s2 l none r.esz e.lane)) (markOf es none)) () := by
  intro l r es s1 s2
  (repeat' apply And.intro) <;> first | decide +kernel | (unfold Gives Does; decide +kernel) | (unfold Does; decide +kernel)

theorem witness_LaneAtomics :
    let l : Lane := { L with vd := 12, va := 2, vb := 12, vc := 16, imm := 8 }
    let h : Lane := { L with va := 2, vb := 12, vc := 10 }
    let r := recOf (rec0 0x2000 2 16 4)
    let r16 := recOf (rec0 0x2000 4 16 16)
    let es := got (resolve (laneAccess 0 2 4 h true) r (wantsOf s0 h 0xFFFFFFFF none)) s0 []
    let s1 := after (resolve (laneAccess 0 2 4 h true) r (wantsOf s0 h 0xFFFFFFFF none)) s0
    s0.g.det = false ∧ laneAtomicForm (.vatom h) = some (0, h) ∧ laneAtomicForm (.vatomsp l) = some (1, l)
    ∧ Gives (checkV 0xFFFFFFFF 12 4) s0 () ∧ Gives (checkVSoft 0xFFFFFFFF 12 4) s0 () ∧ Gives (useSrc 0xFFFFFFFF true false 16 4) s0 () ∧ atomicBytes l r16.esz = 16
    ∧ 2 ^ r16.esz = 16 ∧ 2 ^ r.esz = 4 ∧ r.bad = false ∧ r.esz = 2
    ∧ Gives (useSrc 0xFFFFFFFF true (h.bsc = 1) h.vc 1) s0 ()
    ∧ Gives (releasePart h.ord) s0 () ∧ Does (resolve (laneAccess 0 2 4 h true) r (wantsOf s0 h 0xFFFFFFFF none)) s0 es s1 ∧ es.length = 32
    ∧ Does (resolve (laneAccess 0 2 4 h true) r ((wantsOf s0 h 0xFFFFFFFF none).filter fun w => !allOnesIx h w)) s0 es s1
    ∧ Gives (recordOf { l with va := 4 }) s0 r16
    ∧ (let ws : List (Nat × List Nat × Nat) := [(0, [8, 9, 10, 11], 5), (3, [8, 9, 10, 11], 6)]
       (∀ w ∈ ws, w.2.1 = [8, 9, 10, 11]) ∧ ws ≠ [] ∧ (ws.getLast?.map fun w => w.2.2) = some 6) := by
  intro l h r r16 es s1
  (repeat' apply And.intro) <;> first | decide +kernel | (unfold Gives Does; decide +kernel) | (unfold Does; decide +kernel)
/-- The active lanes of an instruction that acts once. -/
theorem witness_NoActiveLane :
    let l : Lane := { L with vd := 1, minv := 1 }
    (∃ checks, onceForm (.tfree l) = some (l, checks) ∧ Gives (laneStart l) s0 (0, none) ∧ Gives (allOf checks) s0 ()) := by
  refine ⟨_, rfl, ?_⟩
  unfold Gives Does; decide +kernel

/-- A copy command of tile 1 in flight, its timeline's contexts, and a workgroup. -/
theorem witness_Commands :
    let a : CmdArgs := { tiles := [(1, true), (2, false)] }
    let s := s0.issued .copy0 (.xcopy L) 0xFFFFFFFF none a
    (∃ x ∈ a.tiles, x.1 = 1 ∧ ∀ y ∈ a.tiles, y.1 = 1 → y.2 = x.2) ∧ (∀ x ∈ a.tiles, x.1 ≠ 3) ∧ s.wg? ⟨0, 0⟩ = some s.w
    ∧ (∃ c ∈ s.w.cmds, c.id.ctx = .copy0 ∧ c.finished = false ∧ 0 < c.id.num) ∧ s0.allAcked (.group s0.g.id) = true
    ∧ Ctx.copy0 ≠ .tileOp ∧ ({ s0 with unacked := [⟨.group ⟨0, 0, 0⟩, 3, 9, [], []⟩] } : State).allAcked (.group s0.g.id) = false := by decide +kernel

theorem witness_TileDescriptors :
    let l : Lane := { L with vd := 6, va := 30, vb := 31 }
    let s := withG s0 fun g => { g with sregs := [(30, 0x400), (31, 4 * 2 ^ 8 + 31 * 2 ^ 22 + 31 * 2 ^ 29 + 2 * 2 ^ 38), (32, 0x3FFF), (33, 0)] }
    let t := Tile.ofBits (BitVec.ofNat 256 (0x400 + (4 * 2 ^ 8 + 31 * 2 ^ 22 + 31 * 2 ^ 29 + 2 * 2 ^ 38) * 2 ^ 64))
    Gives (laneStart l) s (0xFFFFFFFF, none) ∧ 6 < s.w.ntiles ∧ (s.tile 6).state ≠ 1 ∧ (s.tile 6).state ≠ 3 ∧ Gives (readS 30) s 0x400
    ∧ Gives (readS 31) s (4 * 2 ^ 8 + 31 * 2 ^ 22 + 31 * 2 ^ 29 + 2 * 2 ^ 38) ∧ t.bad = false ∧ t.addr + t.footprint ≤ s.w.scrSize
    ∧ s.w.scrSize < 0x3FFF * 32 + t.footprint ∧ Gives (useTile 0xFFFFFFFF 1) s (s.tile 1) ∧ s.busyReg 7 = false
    ∧ (Tile.ofBits (BitVec.ofNat 256 (0x400 + (4 * 2 ^ 8 + 31 * 2 ^ 22 + 31 * 2 ^ 29 + 15 * 2 ^ 38) * 2 ^ 64))).bad = true := by
  intro l s t
  (repeat' apply And.intro) <;> first | decide +kernel | (unfold Gives Does; decide +kernel)

/-- A tile read, element-wise and by reconstruction, and the rows written; position word 0. -/
theorem witness_TileElements :
    let l : Lane := { L with vd := 20, va := 1, vb := 30 }
    let rows := (lanesOf 0xFFFFFFFF).map fun i => 0 + i
    Gives (laneStart l) s0 (0xFFFFFFFF, none) ∧ Gives (checkV 0xFFFFFFFF 20 1) s0 () ∧ Gives (useTile 0xFFFFFFFF 1) s0 (s0.tile 1) ∧ Gives (useTile 0xFFFFFFFF 4) s0 (s0.tile 4)
    ∧ (s0.tile 1).dom = 0 ∧ (s0.tile 4).dom ≠ 0 ∧ (s0.tile 4).fmt ≤ 7 ∧ Gives (readS 30) s0 0
    ∧ Gives (checkRows 0xFFFFFFFF (s0.tile 1) (rows.filter (· < (s0.tile 1).rows)) ((colsIn 0 1 32).map (0 + ·))) s0 () ∧ Gives (checkRows 0xFFFFFFFF (s0.tile 4) (((List.range 32).map (0 + ·)).filter (· < (s0.tile 4).rows)) ((colsIn 0 1 32).map (0 + ·))) s0 ()
    ∧ wholeBlocks (s0.tile 1) 0 1 = true
    ∧ Gives (useV 0xFFFFFFFF 10 1) s0 ()
    ∧ Gives (checkRows 0xFFFFFFFF (s0.tile 4) (List.range (s0.tile 4).rows) (List.range (s0.tile 4).cols)) s0 ()
    ∧ Gives (checkKept 0xFFFFFFFF (s0.tile 1) (((lanesOf 0xFFFFFFFF).filter fun i => decide (0 + i < (s0.tile 1).rows) && true).map (0 + ·)) ((List.range 1).map (0 + ·))) s0 ()
    ∧ Gives (checkKept 0xFFFFFFFF (s0.tile 4) ((List.range 32).map (0 + ·)) ((List.range 1).map (0 + ·))) s0 () := by
  intro l rows
  (repeat' apply And.intro) <;> first | decide +kernel | (unfold Gives Does; decide +kernel)

/-- The flags that a read of tile 1 raises, by rows and, for tile 4, by reconstruction. -/
theorem witness_TileElements_flags :
    let out := s0.readRows (s0.tile 1) ⟨0, 0⟩ 1 false (lanesOf 0xFFFFFFFF)
    let fl := (lowLane 0xFFFFFFFF, { out.2 with nan := false }) :: out.1.map fun r => (r.1, flagsOf r.2)
    let rec4 := s0.readRows (s0.tile 4) ⟨0, 0⟩ 1 true [0]
    let fl4 := (lowLane 1, { rec4.2 with nan := false }) :: rec4.1.map fun r => (r.1, flagsOf r.2)
    Does (raiseFlags fl) s0 () (after (raiseFlags fl) s0) ∧ Does (raiseFlags fl4) s0 () (after (raiseFlags fl4) s0) := by
  unfold Does; decide +kernel

/-- Claims: a free run, one that group 0 holds, and one that group 1 holds; MCLAIM_GRANT's path that waits. -/
theorem witness_SlotClaims :
    let held (j : Nat) : State := withW s0 fun w => w.takeRun j 14 2
    (Gives (laneStart L) s0 (0xFFFFFFFF, none) ∧ Gives (checkSlots 0xFFFFFFFF [14, 15]) s0 ())
    ∧ (s0.w.runFree s0.g.id.j 14 2 = true ∧ s0.claimBefore false 14 2 = false)
    ∧ ((∀ i ∈ [14, 15], (held 0).w.claim i = .held 0) ∧ Gives (checkHeld 0xFFFFFFFF [14, 15]) (held 0) ())
    ∧ ((∃ i ∈ [14, 15], (held 1).w.claim i ≠ .held 0) ∧ (held 1).w.runFree 0 14 2 = false)
    ∧ (let s := sWaits (.claim 14 2) (.mclaim { L with vd := 14, imm := 1 })
       let t : State := { s with slot := false, granted := false }
       State.exchange s ⟨0, 0, 0⟩ false = some t ∧ t.path.wait = some { instr := .mclaim { L with vd := 14, imm := 1 }, words := 1, on := .claim 14 2, vals := [] }
        ∧ t.g.stop ≠ .stopped ∧ t.w.runFree t.g.id.j 14 2 = true ∧ t.claimBefore true 14 2 = false)
    ∧ 15 < s0.w.claims.length := by
  intro held
  (repeat' apply And.intro) <;> first | decide +kernel | (unfold Gives Does; decide +kernel)

/-- Operand images of BF16 with 32 rows and columns in slots 0 and 1, held by group 0; s30 gives M = N = K = 32, s31 one row too many. -/
def image0 : Image := { fmt := 0, scl := false, dom := 0, rows := 32, cols := 32, surv := 0xFFFFFFFF, torn := false }
def sMat : State :=
  withG (withW s0 fun w => { w.takeRun 0 0 3 with slots := { heads := [(0, image0), (1, image0)], elems := [], scales := [] } })
    fun g => { g with sregs := [(30, 0x1F1F1F), (31, 0x1F1F20)] }

theorem witness_Matrices :
    let l : Lane := { L with vd := 3, va := 0, vb := 1, vc := 30 }
    let x := matArgs (.mma l) 0x1F1F1F
    let y := matArgs (.mma l) 0x1F1F20
    matForm (.mma l) = some (l, [0, 1]) ∧ Gives (laneStart l) sMat (0xFFFFFFFF, none) ∧ Gives (checkSlots 0xFFFFFFFF [0, 1]) sMat () ∧ Gives (waitAcc 3) sMat ()
    ∧ Gives (waitFills [0, 1]) sMat () ∧ Gives (checkHeld 0xFFFFFFFF [0, 1]) sMat () ∧ Gives (readS 30) sMat 0x1F1F1F ∧ Gives (readS 31) sMat 0x1F1F20
    ∧ sMat.allAcked (.group sMat.g.id) = true ∧ ({ sMat with unacked := [⟨.group ⟨0, 0, 0⟩, 3, 9, [], []⟩] } : State).allAcked (.group sMat.g.id) = false
    ∧ (x.n ≤ 128 ∧ (∀ p ∈ x.parts, sMat.partOk x p = true) ∧ Gives (waitFills (sMat.imageRuns x [0, 1])) sMat ()) ∧ ∃ p ∈ y.parts, sMat.partOk y p = false := by
  intro l x y
  (repeat' apply And.intro) <;> first | decide +kernel | (unfold Gives Does; decide +kernel)

/-- A fill of slot 2 with tile 5, with NEW. -/
theorem witness_Matrices_fill :
    let l : Lane := { L with vd := 2, va := 5, vb := 33, imm := 1 }
    Gives (laneStart l) sMat (0xFFFFFFFF, none) ∧ Gives (checkSlot 0xFFFFFFFF 2) sMat () ∧ Gives (useTile 0xFFFFFFFF 5) sMat (sMat.tile 5) ∧ Gives (waitFills [2]) sMat ()
    ∧ Gives (checkHeld 0xFFFFFFFF [2]) sMat () ∧ Gives (readS 33) sMat 0 ∧ l.imm.getLsbD 0 = true ∧ l.imm.toNat / 2 % 4 = 0
    ∧ imageSlots (sMat.tile 5).fmt (sMat.tile 5).rows 32 = 1
    ∧ headFits (sMat.tile 5) ((sMat.w.copy false).head? 0) = true := by
  intro l
  (repeat' apply And.intro) <;> first | decide +kernel | (unfold Gives Does; decide +kernel)

/-- The commands of a multiplication, a fill and a read-out, each the first of its context. -/
theorem witness_Matrices_retire :
    let l : Lane := { L with vd := 3, va := 0, vb := 1, vc := 30 }
    let s := sMat.issued .mpair (.mma l) 0xFFFFFFFF none { ops := [0x1F1F1F] }
    let t := sMat.issued .tileOp (.mfill { L with vd := 2, va := 5 }) 0xFFFFFFFF none { ops := [0, 2, 1], tiles := [(5, false)] }
    (∃ c ∈ s.w.cmds, s.runnable ⟨⟨0, 0⟩, .mpair, 1⟩ = some c ∧ s.soft = [] ∧ c.nanTrap = false ∧ c.pos = 0 ∧ ∀ y ∈ s.earlier c, y.id.ctx = .mpair → y.finished = true)
    ∧ ∃ c ∈ t.w.cmds, t.runnable ⟨⟨0, 0⟩, .tileOp, 1⟩ = some c ∧ t.earlier c = [] := by
  decide +kernel

theorem witness_Accumulators :
    let l : Lane := { L with vd := 3, va := 10, vb := 30 }
    Gives (laneStart l) s0 (0xFFFFFFFF, none) ∧ Gives (waitAcc 3) s0 () ∧ Gives (useV 0xFFFFFFFF 10 1) s0 () ∧ Gives (readS 30) s0 0
    ∧ Gives (useTile 0xFFFFFFFF 5) s0 (s0.tile 5) ∧ Gives (checkKept 0xFFFFFFFF (s0.tile 5) (List.range (min (s0.tile 5).rows 128)) ((List.range 32).map (0 + ·))) s0 ()
    ∧ (s0.w.accHead 3).surv = 0 ∧ isScaled (s0.tile 5).fmt = false ∧ s0.soft = []
    ∧ (let ws := (List.range 32).map fun r => rowWrite (s0.tile 5) r 0 (s0.tileRounder 0 r) false false ((List.range 32).map fun j => s0.w.accVal 3 r j)
       Does (raiseFlags ([0].map fun i => (i, flagsOf ws))) s0 () (after (raiseFlags ([0].map fun i => (i, flagsOf ws))) s0)) := by
  intro l
  (repeat' apply And.intro) <;> first | decide +kernel | (unfold Gives Does; decide +kernel) | (unfold Does; decide +kernel)
/-- An arena at 0x8000 of pages of 16 tokens and rows of 64 elements, with 64 page entries at `ktab`, four sequences, and stacks that are
empty. -/
def arena0 (ktab : Nat) (lock : Bool) : Nat :=
  ktab + 0x9000 * 2 ^ 64 + 0xA000 * 2 ^ 128 + 63 * 2 ^ 192 + 3 * 2 ^ 208 + lock.toNat * 2 ^ 229 + 0xC000 * 2 ^ 256 + 0xC000 * 2 ^ 320 + 0xC000 * 2 ^ 384 + 0xC000 * 2 ^ 448
    + 0xB000 * 2 ^ 512 + 0xB100 * 2 ^ 576 + 0xB200 * 2 ^ 640 + 0xB300 * 2 ^ 704 + 0xB400 * 2 ^ 768

/-- The state with a mapped key-value area, s20 the arena, s21 the second operand; page entry 1 of a table at 0x8400 has one reference. -/
def sKv (ktab : Nat) (lock : Bool) : State :=
  withG { s0 with
    steps := 9
    cores := [{ die := 0, num := 0, eccLog := 0, tlb := [.leaf 0 false 0 0 leaf0 0x200000, .leaf 0 false 0 0x8000 0x108E33 0x200008] }]
    mem := s0.mem ++ ((cellsAt 0x108000 (bytesOf 256 (arena0 ktab lock)))  |>.filter fun c => c.2 != 0) ++ [(0x108421, 0xC0), (0x108428, 1)] }
    fun g => { g with sregs := [(20, 0x8000), (21, 1)] }

def amass0 : Lane := { L with vd := 22, va := 20, vb := 21 }

theorem witness_KvRecords :
    (let e : Kvpte := Kvpte.of 3 (2 ^ 256 - 1)
     e.slot < 2 ^ 56 ∧ e.fmt < 8 ∧ e.ref < 2 ^ 16 ∧ e.ntok < 2 ^ 8 ∧ e.pins < 2 ^ 8 ∧ e.mass < 2 ^ 32 ∧ e.gen < 2 ^ 16 ∧ e.sumidx < 2 ^ 16 ∧ e.resv.1 < 2 ^ 4 ∧ e.resv.2 < 2 ^ 96)
    ∧ (let r := Seq.of 3 (2 ^ 288 - 1)
       r.parent < 2 ^ 16 ∧ r.child < 2 ^ 16 ∧ r.depth < 4 ∧ r.state < 4 ∧ r.len < 2 ^ 32 ∧ r.forklen < 2 ^ 32 ∧ r.map < 2 ^ 56 ∧ r.mapcap < 2 ^ 32 ∧ r.lowpg < 2 ^ 32 ∧ r.win < 2 ^ 32)
    ∧ 2 ^ 32 - 1 < 2 ^ 32 := by decide +kernel

/-- What an ask of AMASS captures at issue. -/
def ask0 : Ask := { fresh := true, mark := none, active := 0xFFFFFFFF, a := 0x8000, b := 1, rest := [] }

/-- Die 0's walker with a full queue: 128 commands' transactions that wait for a pin of page entry 7. -/
def sFull (s : State) : State := s.setDie 0 { s.die 0 with walker := (List.range 128).map fun i => ⟨.cmd ⟨⟨0, 0⟩, .attn, i + 1⟩, 0x108000, .pin 7⟩ }

/-- The outcome of an AMASS at issue. -/
def amassRun (s : State) : State × Except KvStop (List (BitVec 7 × Word64) × List (Nat × List Byte)) :=
  s.runKv s.kvHere (do amassTxn amass0 (← beginOn 0x8000) ask0)

theorem witness_Transactions :
    let s := sKv 0x8400 false
    txnForm (.amass amass0) = some (amass0, amassTxn amass0) ∧ Gives (laneStart amass0) s (0xFFFFFFFF, none) ∧ Gives (freeDest (.amass amass0)) s ()
    ∧ Gives (readS 20) s 0x8000 ∧ Gives (readS 21) s 1 ∧ Gives (orderGate (.amass amass0) 3) s () ∧ s.allAcked (.group s.g.id) = true
    ∧ (match (amassRun s).2 with | .ok _ => true | _ => false) = true
    ∧ (match (amassRun (sKv 0x8400 true)).2 with | .error (.queued .lock) => true | _ => false) = true
    ∧ (match (amassRun (sFull (sKv 0x8400 false))).2 with | .error .outside => true | _ => false) = true
    ∧ (match (amassRun (sKv 0x10000 false)).2 with | .error (.fault _ _ _) => true | _ => false) = true := by
  intro s
  refine ⟨rfl, ?_⟩
  (repeat' apply And.intro) <;> first | decide +kernel | (unfold Gives Does; decide +kernel)

/-- A path parked with its transaction. -/
theorem witness_Transactions_parked :
    let q := ask0
    let w : Wait := { instr := .amass amass0, words := 3, on := .walker, vals := q.vals }
    (let s := withP (sKv 0x8400 false) fun p => { p with wait := some w }
       let t : State := { s with slot := false, granted := false }
       txnEvent ⟨0, 0, 0⟩ false (.amass amass0) = some (.kvAmassTransaction ⟨0, 0, 0⟩ false) ∧ s.atPath ⟨0, 0, 0⟩ false t ∧ t.askNow = some w ∧ w.instr = .amass amass0
        ∧ (match (amassRun t.endWait).2 with | .ok _ => true | _ => false) = true)
    ∧ (let s := withP (sKv 0x8400 true) fun p => { p with wait := some w }
       let t : State := { s with slot := false, granted := false }
       s.atPath ⟨0, 0, 0⟩ false t ∧ t.askNow = some w ∧ (match (amassRun t.endWait).2 with | .error (.queued .lock) => true | _ => false) = true)
    ∧ (let s := withP (sKv 0x10000 false) fun p => { p with wait := some w }
       let t : State := { s with slot := false, granted := false }
       s.atPath ⟨0, 0, 0⟩ false t ∧ t.askNow = some w ∧ (match (amassRun t.endWait).2 with | .error (.fault _ _ _) => true | _ => false) = true) := by
  unfold State.atPath; decide +kernel

/-- An append of one row of tile 6 to sequence 0, from row 31. -/
theorem witness_Append :
    let l : Lane := { L with vd := 23, va := 20, vb := 6, vc := 6 }
    let s := withG (sKv 0x8400 false) fun g => { g with sregs := [(20, 0x8000), (23, 0x1F0000)] }
    let x := got (issueArena 0xFFFFFFFF 0x8000) s (Arena.of 0 0 0)
    let s1 := after (issueArena 0xFFFFFFFF 0x8000) s
    let ts := [31].map (s1.tokenOf (s.tile 6) (s.tile 6))
    let q : Ask := { fresh := true, mark := none, active := 0xFFFFFFFF, a := 0x8000, b := 0x1F0000, rest := [] }
    Gives (laneStart l) s (0xFFFFFFFF, none) ∧ Gives (freeDest (.kvapp l)) s () ∧ Gives (readS 20) s 0x8000 ∧ Gives (readS 23) s 0x1F0000
    ∧ Gives (useTile 0xFFFFFFFF 6) s (s.tile 6) ∧ Gives (orderGate (.kvapp l) 3) s () ∧ s.allAcked (.group s.g.id) = true ∧ Does (issueArena 0xFFFFFFFF 0x8000) s x s1
    ∧ badRows (s.tile 6) x.d 31 1 = false ∧ Gives (checkRows 0xFFFFFFFF (s.tile 6) [31] (List.range 64)) s1 () ∧ s1.g.nanctl.getLsbD 0 = false
    ∧ Does (appendTokens l false q x.d 0 ts) s1 () (after (appendTokens l false q x.d 0 ts) s1) := by
  intro l s x s1 ts q
  (repeat' apply And.intro) <;> first | decide +kernel | (unfold Gives Does; decide +kernel) | (unfold Does; decide +kernel)
/-- Sequence 0 is live with one token, in page 1, which holds one. -/
def sSeq : State :=
  let s := sKv 0x8400 false
  { s with mem := s.mem ++ [(0x10842A, 1)] ++ ((cellsAt 0x109000 (bytesOf 64 (Seq.bits
      { num := 0, parent := 0, child := 0, depth := 0, state := 1, len := 1, forklen := 0, map := 0xD000, mapcap := 1, lowpg := 0, win := 0 }))).filter fun c => c.2 != 0)
      ++ [(0x10D000, 1)] }

/-- One token appended, and one refused; a path parked with a token. -/
theorem witness_Append_tokens :
    let tok : Token := { flags := 0, key := List.replicate 64 0, val := List.replicate 64 0 }
    let run (s : State) : Option Nat := match (s.runKv s.kvHere (do
      let a ← beginOn 0x8000
      let st ← append a 0 tok.key tok.val
      pure (st, ← seqLen a 0))).2 with
      | .ok r => some r.1.1
      | .error _ => none
    run sSeq = some 0 ∧ (∃ st, run (sKv 0x8400 false) = some st ∧ st ≠ 0)
    ∧ (let l : Lane := { L with vd := 23, va := 20, vb := 6, vc := 6 }
       let q : Ask := { ask0 with b := 0, rest := 0 :: 64 :: tok.pack }
       let w : Wait := { instr := .kvapp l, words := 3, on := .walker, vals := q.vals }
       let s := withP sSeq fun p => { p with wait := some w }
       let t : State := { s with slot := false, granted := false }
       s.atPath ⟨0, 0, 0⟩ false t ∧ t.askNow = some w ∧ Does (resumeAppend l (Ask.of w)) t.endWait () (after (resumeAppend l (Ask.of w)) t.endWait)) := by
  refine ⟨by decide +kernel, ⟨5, by decide +kernel⟩, ?_⟩
  unfold State.atPath Does; decide +kernel

/-- ASUMU, ASEL and ATTN issue: their operands and tiles. -/
theorem witness_KvEngine :
    let l : Lane := { L with vd := 22, va := 20, vb := 21 }
    let a : Lane := { L with vd := 30, va := 1, vb := 40 }
    let t : Lane := { L with vd := 2, va := 1, vb := 3, vc := 40, imm := 1 }
    s0.g.die.toNat < 2 ∧ arenaForm (.asumu l) = some (l, .sel) ∧ Gives (laneStart l) s0 (0xFFFFFFFF, none) ∧ Gives (freeResult (.asumu l)) s0 ()
    ∧ Gives (freeResult (.asel a)) s0 () ∧ Gives (readS 20) s0 0 ∧ Gives (readBlock 40 5) s0 [0, 0, 0, 0, 0] ∧ Gives (readBlock 40 6) s0 [0, 0, 0, 0, 0, 0]
    ∧ Gives (useTile 0xFFFFFFFF 1) s0 (s0.tile 1) ∧ Gives (useTile 0xFFFFFFFF 2) s0 (s0.tile 2) ∧ Gives (useTile 0xFFFFFFFF 3) s0 (s0.tile 3) ∧ (s0.tile 1).fmt ≤ 7
    ∧ 0 + (0 + 1) ≤ (s0.tile 1).rows ∧ attnBad t (s0.tile 2) (s0.tile 1) (s0.tile 3) = false ∧ attnBad { t with va := 2 } (s0.tile 2) (s0.tile 2) (s0.tile 3) = true
    ∧ 2 ≤ (withG s0 fun g => { g with die := 2 }).g.die.toNat := by
  intro l a t
  (repeat' apply And.intro) <;> first | decide +kernel | (unfold Gives Does; decide +kernel)

/-- A command of a key-value engine in flight, in a phase, with its pages. -/
def sEngine (ctx : Ctx) (i : Instr) (phase : Nat) (pins : List Pin) : State :=
  (s0.issued ctx i 0xFFFFFFFF none {}).modCmd ⟨⟨0, 0⟩, ctx, 1⟩ fun c => { c with phase := phase, pins := pins }

def pin0 : Pin := { kvpte := 1, seq := 0, page := 0, entry := 0, pos := 0 }

theorem witness_KvEngine_phases :
    let at' (ctx : Ctx) (i : Instr) (phase : Nat) (pins : List Pin) : Bool :=
      (((sEngine ctx i phase pins).runnable ⟨⟨0, 0⟩, ctx, 1⟩).map fun c => (c.instr, c.phase, c.pins)) == some (i, phase, pins)
    at' .attn (.attn L) 0 [] = true ∧ at' .attn (.attn L) 1 [] = true ∧ at' .attn (.attn L) 2 [pin0] = true
    ∧ ([3, 4, 5, 6, 7, 8].all fun n => at' .attn (.attn L) n []) = true
    ∧ at' .sel (.asel L) 0 [] = true ∧ at' .sel (.asel L) 3 [] = true ∧ at' .sel (.asumu L) 0 [] = true ∧ at' .sel (.asumu L) 1 [pin0] = true ∧ at' .sel (.asumu L) 2 [] = true
    ∧ at' .dem (.kvdem L) 0 [] = true ∧ at' .dem (.kvsweep L) 0 [] = true ∧ at' .dem (.kvsweep L) 2 [] = true ∧ at' .dem (.kvdem L) 3 [pin0] = true ∧ at' .dem (.kvdem L) 1 [pin0] = true ∧ destOf (.kvdem L) = some 0 := by
  decide +kernel

/-- The result of a part of a transaction on the arena of `sSeq`, if it ends normally. -/
def goKv {α : Type} (k : Arena → Kv α) : Option α :=
  match ((((do k (← beginOn 0x8000)) : Kv α).run sSeq.kvHere).run).run { s := sSeq } with
  | (.ok x, _) => some x
  | (.error _, _) => none

/-- Page 1, live, without pins, with two and with one; an index beyond KVMAX; a swap of its GEN and of another; a summary; a queue of old
slots that is full. -/
theorem witness_KvEngine_pages :
    goKv (fun a => do
      let e ← readPte a 1
      let ahead ← kvAhead a
      writePte a { e with pins := 1 }
      pure [e.pins, e.free.toNat, (decide (1 ≤ a.kvmax)).toNat, (decide (a.kvmax < 64)).toNat, (ahead.contains (.pin 1)).toNat, e.ref, e.gen, e.fmt]) = some [0, 0, 1, 1, 0, 1, 0, 0]
    ∧ goKv (fun a => do
      let e ← readPte a 1
      writePte a { e with pins := 2 }
      let f ← readPte a 1
      writePte a { f with mass := min (f.mass + 3) 0xFFFFFFFF, pins := f.pins - 1 }
      let h ← readPte a 1
      settlePage a { h with mass := 3, pins := 0 }
      pure (f.pins, h.pins)) = some (2, 1)
    ∧ goKv (fun a => do
      let e ← readPte a 1
      writePte a { e with pins := 1 }
      let f ← readPte a 1
      pushStack a (classOf 1) 0
      unpinPage a f) = some ()
    ∧ goKv (fun a => do
      let e ← readPte a 1
      match ← sumRows a e.slot none (List.range e.ntok) with
      | some v => writeSum a 0 v
      | none => pure ()
      pure (e.ntok, e.fmt)) = some (1, 0)
    ∧ (sSeq.die 0).oldSlots.length < 64 ∧ ({ Die.reset with oldSlots := List.replicate 64 ⟨0, 0, 0, 0⟩ } : Die).oldSlots.length = 64 := by
  decide +kernel

/-- A command that has read its first list entry and may act. -/
theorem witness_KvEngine_commands :
    let s := sEngine .attn (.attn L) 1 []
    let e := (s.modCmd ⟨⟨0, 0⟩, .attn, 1⟩ fun c => { c with vals := c.vals.setRange (entryKey 0) [7, 2] })
    ((e.runnable ⟨⟨0, 0⟩, .attn, 1⟩).map fun c => (c.entry? 0, e.eventFree c 0, e.allAcked (.cmd c.id))) = some (some ⟨7, 1⟩, true, true)
    ∧ (s.runnable ⟨⟨0, 0⟩, .attn, 1⟩).map (·.phase) = some 1 := by
  decide +kernel

/-- A row with one token at its causal bound and in its window. -/
theorem witness_KvEngine_rows :
    let x : AttnArgs := { tO := 0, tQ := 0, tS := 0, init := true, fin := true, arena := 0, list := 0, seq := 0, tbl := false, causal := true, nl := 1, cumt := 0, kt := 0, ent := 0
                          sigma := zeroVal false }
    (rowTokens x 1 7 7 [[zeroVal false]] [[zeroVal false]]).map Prod.fst = [0] := by decide +kernel

/-- A copy of tile 1 into tile 2, one through a barrier, and one by a group that is not the producer. -/
theorem witness_Copies :
    let l : Lane := { L with vd := 2, va := 1, vb := 30, imm := 6 }
    let s := withG s0 fun g => { g with sregs := [(30, 0), (31, 31 * 2 ^ 32 + 127), (32, 0)] }
    let ops : List Word64 := [0, 31 * 2 ^ 32 + 127, 0]
    let x := copyArgs .copy l ops 0 0 s.g.privOver []
    copyForm (.xcopy l) = some (l, .copy) ∧ Gives (laneStart l) s (0xFFFFFFFF, none) ∧ Gives (checkTile 0xFFFFFFFF 2) s () ∧ Gives (checkTile 0xFFFFFFFF 1) s ()
    ∧ s.g.id.j = s.w.producer ∧ (withW s fun w => { w with producer := 1 }).g.id.j ≠ (withW s fun w => { w with producer := 1 }).w.producer
    ∧ Gives (readBlock 30 3) s ops ∧ Gives (endRecord 0xFFFFFFFF true 2) s 0 ∧ Gives (endRecord 0xFFFFFFFF false 2) s (rec0 0x2000 2 16 4)
    ∧ Gives (endTile 0xFFFFFFFF x.dst 2 x.rb (((List.range x.rows).map x.row).map fun r => r.2.1)) s ()
    ∧ Gives (endTile 0xFFFFFFFF x.src 1 x.rb (((List.range x.rows).map x.row).map fun r => r.1)) s () ∧ x.bar = false ∧ s.w.inFlight .copy0 < 16
    ∧ Gives (barAt 0xFFFFFFFF 1 0x40) sBar bar0 ∧ Gives (useV 0xFFFFFFFF 10 1) s () ∧ s.allAcked (.group s.g.id) = true
    ∧ (let p (boff : Nat) : CopyArgs := copyArgs .put { L with vd := 0, va := 2, vb := 30, imm := 8 } [0, 127, BitVec.ofNat 64 (boff + 3 * 2 ^ 62), 0] 0 0 s.g.privOver []
       (p 0x48).kind = .put ∧ ((p 0x48).bar = true → (p 0x48).boff % 16 ≠ 0 → (p 0x48).bwin = 3) ∧ (p 0x40).boff % 16 = 0) := by
  intro l s ops x
  (repeat' apply And.intro) <;> first | decide +kernel | (unfold Gives Does; decide +kernel)

/-- A copy in flight: its first and last sectors are open; its source and destination are good, or fault where no page is mapped; with all of
its sectors complete. -/
theorem witness_Copies_sectors :
    let l : Lane := { L with vd := 2, va := 1, vb := 30, imm := 6 }
    let m : Lane := { L with vd := 3, va := 1, vb := 30, imm := 4 }
    let r : Lane := { L with vd := 2, va := 3, vb := 30, imm := 2 }
    let ops : List Word64 := [0, 127, 0]
    let fly (l : Lane) : State := { s0.issued .copy0 (.xcopy l) 0xFFFFFFFF none { ops := ops, recs := [rec0 0x2000 0 16 1, rec0 0x2000 0 16 1, 0] } with cores := [] }
    let ends (l : Lane) : List (Bool × Bool) := (fly l).w.cmds.map fun c =>
      match copyOf c with
      | some x =>
        let q := (fly l).sourceBytes c x.src (x.row 0).1 0 x.c0 32
        ((match q.2 with | .ok _ => true | .error _ => false), (match (q.1.destPlace x.dst (x.row 0).2.1 0 0 32).2 with | .ok _ => true | .error _ => false))
      | none => (false, false)
    ends l = [(true, true)] ∧ ends m = [(true, false)] ∧ (ends r).map Prod.fst = [false]
    ∧ (fly l).w.cmds.map (fun c => (copyOf c).map fun x => (c.sectorOpen x.sectors 0, c.sectorOpen x.sectors 3, c.sectorOpen x.sectors 4)) = [some (true, true, false)]
    ∧ (fly l).w.cmds.map (fun c => (copyOf c).map fun x => ((fly l).sectorFree c x 3, c.sectorDone 0)) = [some (true, false)] ∧ (fly l).allAcked (.cmd ⟨⟨0, 0⟩, .copy0, 1⟩) = true
    ∧ (((fly l).modCmd ⟨⟨0, 0⟩, .copy0, 1⟩ fun c => { c with first := 4 }).w.cmds.map fun c => (copyOf c).map fun x => decide (x.sectors ≤ c.first)) = [some true] := by
  decide +kernel

/-- A put in flight, with a sector to arrive and with one to be acknowledged. -/
theorem witness_Copies_put :
    let l : Lane := { L with va := 2, vb := 30 }
    let s := s0.issued .copy0 (.xput l) 0xFFFFFFFF none { ops := [0, 127, 0, 0], recs := [0, rec0 0x2000 2 16 4, 0] }
    let t := s.modCmd ⟨⟨0, 0⟩, .copy0, 1⟩ fun c => { c with acked := [0] }
    s.w.cmds.map (fun c => (copyOf c).map fun x => (decide (x.kind = .put), c.sectorOpen x.sectors 0, decide (c.first < x.sectors), decide (0 ∈ c.acked))) = [some (true, true, true, false)]
    ∧ (t.runnable ⟨⟨0, 0⟩, .copy0, 1⟩).map (·.acked) = some [0] := by decide +kernel

/-- A barrier record that a put's sector names: none in a workgroup that is not there, one whose fields are good, one with a reserved field.
-/
theorem witness_Copies_lands :
    let land (cells : List (Nat × Byte)) : State :=
      { s0 with grants := [{ node := 0, asid := 0, die := 0, quad := none, size := 1048576, base := 0, mem := cells.map fun c => (c.1, c.2.setWidth 8) }] }
    let good := land [(0x48, 0xC8)]
    let bad := land [(0x4F, 0xFF)]
    let c := (s0.issued .copy0 (.xput { L with va := 2, vb := 30 }) 0xFFFFFFFF none {}).modCmd ⟨⟨0, 0⟩, .copy0, 1⟩ fun c => { c with acked := [0] }
    (c.w.cmds.map fun x => decide (0 ∈ x.acked)) = [true] ∧ c.allAcked (.cmd ⟨⟨0, 0⟩, .copy0, 1⟩) = true
    ∧ ({ c with unacked := [⟨.cmd ⟨⟨0, 0⟩, .copy0, 1⟩, 3, 9, [], []⟩] } : State).allAcked (.cmd ⟨⟨0, 0⟩, .copy0, 1⟩) = false
    ∧ (good.putBarrier 5 0 0x40).isNone = true ∧ ((good.putBarrier 0 0 0x40).map fun b => barReserved b.2.2) = some false ∧ ((bad.putBarrier 0 0 0x40).map fun b => barReserved b.2.2) = some true := by
  decide +kernel

/-- A trap of a command that waits for its group, and one whose groups have all ended. -/
theorem witness_DeliveredTraps :
    let d : Delivered := { cmd := ⟨⟨0, 0⟩, .copy0, 1⟩, eng := 1, trap := cmdTrap protWrite 5 0x2000, elem := 3, restart := true, active := 0xFFFFFFFF, pc := 0x1000, clock := 5 }
    let s := withG s0 fun g => { g with pending := [d] }
    let t : State := { s with slot := false, granted := false }
    let e := withG s fun g => { g with exited := 0xFFFFFFFF, slot0 := none }
    s.pendingOf ⟨0, 0⟩ = [(⟨0, 0, 0⟩, d)] ∧ s.pendingFor ⟨0, 0, 0⟩ = [(⟨0, 0, 0⟩, d)] ∧ s.allExited ⟨0, 0⟩ = false ∧ s.receiver ⟨0, 0, 0⟩ = some ⟨0, 0, 0⟩ ∧ State.exchange s ⟨0, 0, 0⟩ false = some t ∧ t.g.supv = false
    ∧ t.g.stop ≠ .stopped ∧ handlerLane t.g (if t.g.id == ⟨0, 0, 0⟩ then some d.active else none) = some (0, false) ∧ endsWait ((t.g.path? false).getD Path.empty) = true
    ∧ e.allExited ⟨0, 0⟩ = true ∧ e.pendingOf ⟨0, 0⟩ = [(⟨0, 0, 0⟩, d)]
    ∧ (let f : State := e.issued .copy0 (.xcopy L) 0xFFFFFFFF none {}
       (f.cmd? d.cmd).map (fun c => (f.recordFree c, ((f.dropPending ⟨0, 0, 0⟩ d).cmd? d.cmd).map (· == c))) = some (true, some true)
        ∧ d.restart = true ∧ ((f.dropPending ⟨0, 0, 0⟩ d).group? ⟨0, 0, 0⟩).isSome = true) := by decide +kernel

/-- An addition of tiles 1 and 3 into tile 2, and a copy of a layout. -/
theorem witness_Transform :
    let l : Lane := { L with vd := 2, va := 1, vb := 3, vc := 30, imm := 2 }
    Gives (laneStart l) s0 (0xFFFFFFFF, none) ∧ s0.g.id.j = s0.w.producer ∧ Gives (readS 30) s0 0 ∧ Gives (useTile 0xFFFFFFFF 2) s0 (s0.tile 2) ∧ Gives (useTile 0xFFFFFFFF 1) s0 (s0.tile 1)
    ∧ Gives (useTile 0xFFFFFFFF 3) s0 (s0.tile 3) ∧ xformMisfit 2 0 (some (s0.tile 1)) (some (s0.tile 3)) (some (s0.tile 2)) = false ∧ xformMisfit 0 0 none none none = false
    ∧ Gives (readS 8) s0 0x1000 ∧ s0.w.inFlight .xform < 16 ∧ s0.allAcked (.group s0.g.id) = true
    ∧ ((s0.issued .xform (.xform l) 0xFFFFFFFF none { ops := [0, 0, 0, 0, 0] }).runnable ⟨⟨0, 0⟩, .xform, 1⟩).map (·.instr) = some (.xform l) := by
  intro l
  (repeat' apply And.intro) <;> first | decide +kernel | (unfold Gives Does; decide +kernel)

/-- A reduction of one word by one contribution: it issues, its line is to be contributed or has been written, and an instance that waits. -/
theorem witness_SwitchReduction :
    let l : Lane := { L with vd := 2, va := 2, vb := 30 }
    let ops : List Word64 := [0, 3, 1]
    let b := rec0 0x2000 2 16 4
    let s := withG s0 fun g => { g with sregs := [(31, 3), (32, 1)] }
    let x := xredArgs l ops [b, b, 0]
    let fly := s.issued .xred (.xred l) 0xFFFFFFFF none { ops := ops, recs := [b, b, 0] }
    let r : Reduction := { line := 0x102000 / 128, members := [0x102000 / 128], count := 2, contributions := [] }
    Gives (laneStart l) s (0xFFFFFFFF, none) ∧ Gives (readBlock 30 3) s ops ∧ Gives (endRecord 0xFFFFFFFF false 2) s b ∧ xredBad x.1 x.2 = false
    ∧ Gives (endTile 0xFFFFFFFF x.1.src 2 x.1.rb ((List.range x.1.rows).map fun n => (x.1.row n).1)) s ()
    ∧ fly.w.cmds.map (fun c => ((xredArgs l c.ops c.recs).1.redOob, (xredArgs l c.ops c.recs).1.redLines, c.vals.get (0x2000 / 128))) = [(none, [0x2000 / 128], 0)]
    ∧ (fly.modCmd ⟨⟨0, 0⟩, .xred, 1⟩ fun c => { c with vals := c.vals.set (0x2000 / 128) lineLost }).w.cmds.map (fun c => c.vals.get (0x2000 / 128)) = [lineLost]
    ∧ (({ s0 with reductions := [r] } : State).reductions.find? fun q => q.line == 0x102000 / 128) = some r := by
  intro l ops b s x fly r
  (repeat' apply And.intro) <;> first | decide +kernel | (unfold Gives Does; decide +kernel)

/-- A row beyond the extent of a record with OOBT, and of one without. -/
theorem witness_SwitchReduction_oob :
    let l : Lane := { L with vd := 2, va := 2, vb := 30 }
    let oob (oobt : Nat) : CopyArgs := (xredArgs l [0, 3, 1] [rec0 (0x2000 + oobt * 2 ^ 59) 2 0 4, rec0 0x2000 2 16 4, 0]).1
    (oob 1).redOob = some 0 ∧ (oob 1).dst.r.oobt = true ∧ (oob 0).redOob = some 0 ∧ (oob 0).dst.r.oobt = false := by decide +kernel

theorem witness_EngineStatus :
    let l : Lane := { L with vd := 6, vb := 10, imm := 4 }
    let s := withG s0 fun g => { g with sregs := [(10, 1023), (11, 0x3F9)] }
    Gives (laneStart l) s (0xFFFFFFFF, none) ∧ Gives (readS 11) s 0x3F9 ∧ s.busyReg 6 = false ∧ ctxNamed s.g.die ((0x3F9#64).extractLsb' 0 10) = some (.spore 63) := by
  unfold Gives Does; decide +kernel
/-- A queue at 0x1000 of four elements of one register, whose control word is at 0x40 of the scratchpad: `head` elements popped, `tail`
pushed. -/
def qcw0 (head tail : Nat) : Nat := 0x1000 + 2 * 2 ^ 32 + tail * 2 ^ 128 + tail * 2 ^ 160 + head * 2 ^ 192 + head * 2 ^ 224

def sQueue (head tail : Nat) : State :=
  (withP (withG { s0 with steps := 9 } fun g => { g with sregs := [(20, 0x40), (21, 0x100001000)] }) fun p => { p with mask := 3 }).winStore 1
    ((cellsAt 0x40 (bytesOf 32 (qcw0 head tail))).filter fun c => c.2 != 0)

/-- Two lanes push, into an empty queue whose counters are about to wrap, and into a full one; and pop. -/
theorem witness_Queues :
    let l : Lane := { L with vd := 22, va := 20, vb := 10 }
    let e := sQueue 0xFFFFFFFF 0xFFFFFFFF
    let f := sQueue 1 4
    let q := Qcw.of (qcw0 0xFFFFFFFF 0xFFFFFFFF)
    let p := Qcw.of (qcw0 1 4)
    let b := withG e fun g => { g with slot1 := some { path0 with wait := some { instr := .qpush l, words := 3, on := .queue 0x40, vals := [0, 8, 3, 0] } } }
    Gives (laneStart l) e (3, none) ∧ Gives (readS 20) e 0x40 ∧ Gives (readS 21) e 0x100001000 ∧ Gives (qcwPlace 3 0x40) e ()
    ∧ Gives (qcwCheck 3 0x40 (qcw0 0 0 % 2 ^ 64)) e (Qcw.of (qcw0 0 0 % 2 ^ 64))
    ∧ Gives (checkV 3 10 1) e () ∧ e.busyReg 22 = false ∧ Gives (readQcw 3 0x40) e q ∧ Gives (readQcw 3 0x40) f p ∧ Gives (useV 3 10 1) e () ∧ 2 ≤ q.depth
    ∧ Gives (orderGate (.qpush l) 3) e () ∧ e.queueAhead true 0x40 9 = false ∧ q.room 2 = true ∧ p.room 2 = false ∧ p.full 2 = true ∧ q.full 2 = false
    ∧ Gives (checkScratch 3 (p.elemBytes p.poptk 2)) f () ∧ f.queueAhead false 0x40 9 = false
    ∧ e.allAcked (.group e.g.id) = true ∧ servable true q (e.qWaiters true 0x40) = [] ∧ servable false p (f.qWaiters false 0x40) = []
    ∧ (b.queueAhead true 0x40 9 = true ∧ servable true q (b.qWaiters true 0x40) ≠ []) := by
  intro l e f q p b
  (repeat' apply And.intro) <;> first | decide +kernel | (unfold Gives Does; decide +kernel)

/-- Paths that wait for room and for elements, brought to issue; and the counters of a checked queue. -/
theorem witness_Queues_waits :
    let w (i : Instr) : Wait := { instr := i, words := 3, on := .queue 0x40, vals := [0, 8, 3, 0] }
    let i : Instr := .qpush { L with vd := 22, va := 20, vb := 10 }
    let j : Instr := .qpop { L with vd := 10, va := 20, vb := 22 }
    let e := withP (sQueue 0 0) fun p => { p with wait := some (w i) }
    let f := withP (sQueue 1 4) fun p => { p with wait := some (w j) }
    let t : State := { e with slot := false, granted := false }
    let u : State := { f with slot := false, granted := false }
    State.exchange e ⟨0, 0, 0⟩ false = some t ∧ t.path.wait = some (w i) ∧ t.g.stop ≠ .stopped ∧ t.endWait.queueAhead true 0x40 8 = false ∧ t.endWait.keyFree = true ∧ u.endWait.keyFree = true
    ∧ State.exchange f ⟨0, 0, 0⟩ false = some u ∧ u.path.wait = some (w j) ∧ u.endWait.queueAhead false 0x40 8 = false
    ∧ qcwBad (qcw0 1 4) 0x40 = false ∧ [0, 31].length ≤ (Qcw.of (qcw0 1 4)).depth ∧ [0, 31].Nodup := by decide +kernel

/-- A node table at 0x110000 of 16 nodes: node 1 launches one workgroup of one group at 0x1000; node 2 waits for two decrements, node 3
names no workgroup; ASID 0 is valid. -/
def desc0 (cnt w : Nat) : List Host.Cell :=
  (cellsAt 0 (bytesOf 128 (0x1000 + w * 2 ^ 64 + 0xFFFFFFFF * 2 ^ 128 + cnt * 2 ^ 160))).filter fun c => c.2 != 0

def sNode : State :=
  { withG s0 fun g => { g with sregs := [(20, 1), (21, 2), (22, 3), (23, 0xFFFFF)] } with
    regs := { s0.regs with nodetab := 0x110004 }
    mem := (0, 1) :: s0.mem ++ (desc0 0 1).map (fun c => (c.1 + 0x110080, c.2)) ++ (desc0 2 1).map (fun c => (c.1 + 0x110100, c.2)) ++ (desc0 0 0).map fun c => (c.1 + 0x110180, c.2) }

def node0 (ix : Nat) : Node := newNode ix (sNode.descAt ix)

theorem witness_Nodes :
    let l : Lane := { L with vd := 6, va := 20 }
    let p := { sNode with nodes := [{ node0 2 with ready := false }] }
    let o : State := { sNode with mem := sNode.mem ++ [(0x1101D8, 4)] }
    Gives (laneStart l) sNode (0xFFFFFFFF, none) ∧ Gives (readS 20) sNode 1 ∧ sNode.busyReg 6 = false ∧ sNode.ownNode 2 = true ∧ Gives (orderGate (.ndec l) 3) sNode () ∧ sNode.allAcked (.group sNode.g.id) = true
    ∧ (sNode.readDesc 2).ownNode 2 = true ∧ Gives (orderGate (.ndec l) 3) (sNode.readDesc 2) () ∧ (sNode.readDesc 2).allAcked (.group (sNode.readDesc 2).g.id) = true ∧ (sNode.readDesc 1).doneWord 1 = none
    ∧ ((o.readDesc 3).doneWord 3).isSome = true ∧ (sNode.readDesc 0xFFFFF).ownNode 0xFFFFF = false
    ∧ sNode.ownNode 0xFFFFF = false ∧ (o.doneWord 3).isSome = true ∧ sNode.doneWord 1 = none
    ∧ sNode.nodeCount ≤ 0xFFFFF ∧ dfield (o.descAt 3) 704 3 ≠ 0 ∧ (p.node? 2).isSome = true ∧ (newNode 1 (sNode.descAt 1)).asid ≠ 1
    ∧ (1 < sNode.nodeCount ∧ dfield (sNode.descAt 1) 704 3 = 0 ∧ sNode.node? 1 = none ∧ (newNode 1 (sNode.descAt 1)).asid = 0)
    ∧ (sNode.badNode (node0 3)).2 = true ∧ (sNode.badNode (node0 1)).2 = false ∧ dfield (sNode.descAt 1) 160 32 = 0
    ∧ sNode.num (sNode.nodePa 1 + 20) 4 = 0 ∧ sNode.num (sNode.nodePa 2 + 20) 4 = 2 := by
  intro l p o
  (repeat' apply And.intro) <;> first | decide +kernel | (unfold Gives Does; decide +kernel)

/-- A node that one decrement makes ready; a path that waits for a node that is done. -/
theorem witness_Nodes_last :
    let n : Node := { node0 2 with ready := false }
    let s : State := { sNode with mem := (sNode.mem.filter fun c => c.1 != 0x110114) ++ [(0x110114, 1)], nodes := [n] }
    let w : Wait := { instr := .ndone { L with vd := 6, va := 22 }, words := 3, on := .nodeDone 3, vals := [] }
    let o := withP { sNode with mem := sNode.mem ++ [(0x1101D8, 4)] } fun p => { p with wait := some w }
    let t : State := { o with slot := false, granted := false }
    s.num (s.nodePa 2 + 20) 4 = 1 ∧ s.node? 2 = some n ∧ n.ready = false
    ∧ State.exchange o ⟨0, 0, 0⟩ false = some t ∧ t.path.wait = some w ∧ t.g.stop ≠ .stopped ∧ (t.doneWord 3).isSome = true := by decide +kernel

/-- A channel from die 0 (number 0), or to it (number 16), with two slots of two blocks. -/
def chan0 (num : BitVec 6) (permits : Nat) (spores : List Spore) : Channel :=
  { num := num, asid := 0, slots := 2, size := 8192, base := 0, permits := permits, sendSeq := 0, recvSeq := 0, spores := spores, returning := [] }

/-- A spore of the contents of tile 7, one row of 32 bytes, that has landed. -/
def spore0 : Spore := { slot := 0, header := sporeHeader (s0.tile 7) 16 32 0 7, payload := List.replicate 32 0, poison := [], node := 0, clock := 3, landed := true }

def sChan (cs : List Channel) : State := withG { s0 with channels := cs, steps := 9 } fun g => { g with sregs := [(20, 0x20216 - 6), (21, 0x700000010), (22, 0)] }

theorem witness_Spores :
    let l : Lane := { L with vd := 6, va := 7, vb := 22 }
    let f := sChan [chan0 0 2 [], chan0 16 2 [spore0]]
    let b := sChan [chan0 0 0 [], chan0 16 2 []]
    Gives (laneStart l) f (0xFFFFFFFF, none) ∧ f.busyReg 6 = false ∧ Gives (readS 20) f 0x20210 ∧ Gives (readS 22) f 0 ∧ Gives (readS 21) f 0x700000010
    ∧ Gives (useTile 0xFFFFFFFF 7) f (f.tile 7) ∧ f.channelStatus 0 (sendDie 0) = .ok (chan0 0 2 []) ∧ (sChan []).channelStatus 0 (sendDie 0) = .error 3
    ∧ f.tooBig (chan0 0 2 []) (f.tile 7) = false ∧ f.tooBig { chan0 0 2 [] with size := 64 } (f.tile 7) = true ∧ Gives (orderGate (.spsend l) 3) f () ∧ f.allAcked (.group f.g.id) = true
    ∧ (withG f fun g => { g with slot1 := some { path0 with wait := some { instr := .spsend l, words := 3, on := .channel 0, vals := [0, 8, 3, 0] } } }).channelAhead true 0 9 = true
    ∧ f.channelAhead true 0 9 = false ∧ (chan0 0 2 []).permits ≠ 0 ∧ b.channelStatus 0 (sendDie 0) = .ok (chan0 0 0 [])
    ∧ f.channelStatus 16 (recvDie 16) = .ok (chan0 16 2 [spore0]) ∧ (sChan []).channelStatus 16 (recvDie 16) = .error 3
    ∧ (chan0 16 2 [spore0]).next? = some spore0 ∧ f.channelAhead false 16 9 = false ∧ spore0.fits (f.tile 7) = true ∧ spore0.fits (f.tile 5) = false ∧ (chan0 16 2 []).next? = none
    ∧ ((sChan []).spgrantDo 0x20210).2.isSome = true ∧ (f.spgrantDo 0x10).2 = none := by
  intro l f b
  (repeat' apply And.intro) <;> first | decide +kernel | (unfold Gives Does; decide +kernel)

theorem witness_Spores_waits :
    let w (i : Instr) (c : BitVec 6) (v : Word64) : Wait := { instr := i, words := 3, on := .channel c, vals := [0, 8, 0xFFFFFFFF, v] }
    let i : Instr := .spsend { L with vd := 6, va := 7, vb := 22 }
    let j : Instr := .sprecv { L with vd := 6, va := 7, vb := 21 }
    let k : Instr := .spgrant { L with vd := 6, va := 20 }
    let on (w : Wait) (cs : List Channel) : State := withP (sChan cs) fun p => { p with wait := some w }
    let t (w : Wait) (cs : List Channel) : State := { on w cs with slot := false, granted := false }
    State.exchange (on (w i 0 0) [chan0 0 1 []]) ⟨0, 0, 0⟩ false = some (t (w i 0 0) [chan0 0 1 []]) ∧ (t (w i 0 0) [chan0 0 1 []]).path.wait = some (w i 0 0)
    ∧ (t (w i 0 0) [chan0 0 1 []]).endWait.channelAhead true 0 8 = false ∧ (t (w i 0 0) [chan0 0 1 []]).endWait.keyFree = true
    ∧ (t (w i 0 0) [chan0 0 1 []]).endWait.channelStatus 0 (sendDie 0) = .ok (chan0 0 1 [])
    ∧ State.exchange (on (w j 16 0) [chan0 16 1 [spore0]]) ⟨0, 0, 0⟩ false = some (t (w j 16 0) [chan0 16 1 [spore0]]) ∧ (t (w j 16 0) [chan0 16 1 [spore0]]).endWait.channelAhead false 16 8 = false
    ∧ State.exchange (on (w k 16 0x10) [chan0 16 1 []]) ⟨0, 0, 0⟩ false = some (t (w k 16 0x10) [chan0 16 1 []]) ∧ ((t (w k 16 0x10) [chan0 16 1 []]).endWait.spgrantDo 0x10).2 = some 0
    ∧ (t (w k 16 0x10) [chan0 16 1 []]).g.stop ≠ .stopped := by decide +kernel

/-- Grants out of range, on another die, of a channel that is bound, of one that holds a spore, and of one that is free; a pool that is used
up. -/
theorem witness_SporeRules :
    let s := sChan [chan0 16 2 [spore0], { chan0 17 2 [] with asid := 1 }, chan0 18 2 []]
    let full := { s with poolUsed := (List.range 64).map fun k => (0, k, 1) }
    let sent := (sChan [chan0 0 2 []]).sporeSent { L with vd := 6, va := 7 } 0xFFFFFFFF none 0 (chan0 0 2 []) ((sChan []).tile 7)
    let got := (sChan [chan0 16 2 [spore0]]).sporeClaimed { L with vd := 6, va := 7 } 0xFFFFFFFF none (chan0 16 2 [spore0]) spore0 ((sChan []).tile 7)
    s.g.die ≠ recvDie 0 ∧ s.g.die = recvDie 16 ∧ s.bound? 16 = some (chan0 16 2 [spore0]) ∧ (chan0 16 2 [spore0]).spores ≠ [] ∧ (s.bound? 17).map (·.asid) = some 1
    ∧ (s.bound? 18).map (·.spores) = some [] ∧ s.bound? 19 = none ∧ (s.freeRun (recvDie 19) 1).isSome = true ∧ full.freeRun (recvDie 19) 1 = none
    ∧ s.channel? 16 = some (chan0 16 2 [spore0]) ∧ spore0.fits (s.tile 7) = true
    ∧ (sent.runnable ⟨⟨0, 0⟩, .spore 0, 1⟩).isSome = true ∧ (got.runnable ⟨⟨0, 0⟩, .spore 16, 1⟩).isSome = true
    ∧ (({ sChan [{ chan0 0 1 [] with returning := [(0, 3)] }] with steps := 1 } : State).channel? 0).map (·.returning) = some [(0, 3)] := by decide +kernel
/-- A path with a clause and one without, whose flags are clear; a clause that waits for flag 0, with and without it clear; a header, a word
that is none, and no mapped page. -/
theorem witness_Grants :
    let p := path0
    let s := withP s0 fun p => { p with off := 0, clause := none }
    let n : State := { s0 with granted := false }
    n.stillGranted ⟨0, 0, 0⟩ false = false ∧ n.quarterFree group0 = true ∧ n.chosen group0 false = true ∧ ({ n with quarters := [(⟨0, 0, 0⟩, false, 0x1000)] } : State).stillGranted ⟨0, 0, 0⟩ false = true
    ∧ n.group? ⟨0, 0, 0⟩ = some group0 ∧ n.wg? ⟨0, 0⟩ = some wg0 ∧ n.tripped = false
    ∧ s0.group? ⟨0, 0, 0⟩ = some group0 ∧ s0.wg? ⟨0, 0⟩ = some wg0 ∧ group0.path? false = some p ∧ p.wait = none ∧ group0.held = none ∧ group0.stop = .running ∧ wg0.state = .resident
    ∧ s.path.clause = none ∧ p.clause.isSome = true ∧ s0.tripped = false ∧ (∀ k, k < 12 → p.header.getLsbD (18 + k) = true → group0.qflags.get k = 0)
    ∧ (∀ n ∈ p.tiles, n.toNat < wg0.ntiles → (Tile.ofBits (wg0.tiles.get n.toNat)).state = 2 ∨ (Tile.ofBits (wg0.tiles.get n.toNat)).state = 0)
    ∧ (({ s0 with tripped := true } : State).tripped = true)
    ∧ (s.fetchCode 0x1000 1).2 = .ok [0xC003FFE0] ∧ (s.fetchCode 0x1004 1).2 = .ok [0] ∧ (0#32).extractLsb' 30 2 ≠ 3
    ∧ (0xC003FFE0#32).extractLsb' 30 2 = 3 ∧ (0xC003FFE0#32).extractLsb' 0 4 = 0 ∧ (∀ lo ∈ [10, 14], ((0xC003FFE0#32).extractLsb' lo 4).toNat < 12 ∨ (0xC003FFE0#32).extractLsb' lo 4 = 15)
    ∧ ((s.fetchCode 0x1000 1).1.fetchCode 0x1004 32).2 = .ok (List.replicate 32 0)
    ∧ (match (({ s with cores := [] } : State).fetchCode 0x1000 1).2 with | .ok _ => false | .error f => f.cause != 0) = true
    ∧ s.path.headerAt = 0x1000 ∧ s.path.off ≤ 32
    ∧ (let r : Replay := { pc := 0x1000, off := 1, words := [0], clock := 5, lmask := 0xFF, ops := none }
       let q : Path := { path0 with off := 0, replay := [r] }
       q.off = 0 ∧ q.replay = r :: [] ∧ r.pc = q.pc ∧ q.clause.isSome = true) := by decide +kernel

/-- Slots that may both be granted, or only the one last granted; clauses that have waited 448 cycles and less. -/
theorem witness_Grants_order :
    let n : State := { s0 with granted := false }
    let two := withG n fun g => { g with slot1 := some path0 }
    let old : Group := { group0 with waited := 448 }
    let d (j : Nat) : Group := { group0 with gidx := j, gstat := 0x100 }
    two.grantable ⟨0, 0, 0⟩ (!two.g.lastSlot) = true ∧ (withG n fun g => { g with lastSlot := false }).grantable ⟨0, 0, 0⟩ true = false
    ∧ (withG n fun g => { g with lastSlot := false }).grantable ⟨0, 0, 0⟩ false = true
    ∧ (448 ≤ old.waited ∧ group0.waited < old.waited ∧ ahead (old, path0) (group0, path0) = true)
    ∧ ((d 1).det = true ∧ (d 1).yielded = false ∧ (d 1).waited < 448 ∧ ahead (d 1, path0) (d 2, path0) = true ∧ ahead (d 2, path0) (d 1, path0) = false) := by decide +kernel

theorem witness_Grants_flag :
    let w := withG (withP s0 fun p => { p with clause := some (0xC007FFE0 :: clause0.drop 1) }) fun g => { g with qflags := [(0, 1)] }
    w.path.header.getLsbD 18 = true ∧ w.g.qflags.get 0 ≠ 0 := by decide +kernel

theorem witness_HangAndIllegalWords :
    let s := withG s0 fun g => { g with hangPending := true }
    let h : Group := { group0 with hangctl := 4, hang := 16 }
    (2 ^ (h.hangctl.toNat % 64) ≤ h.hang.toNat ∧ ({ h with hang := 15 } : Group).hang.toNat < 2 ^ (h.hangctl.toNat % 64) ∧ group0.counts wg0 none = true)
    ∧ path0.wait = none ∧ path0.counts group0 wg0 false = true ∧ ({ path0 with stalled := true } : Path).counts group0 wg0 true = false
    ∧ ({ path0 with wait := some { instr := .spgrant L, words := 3, on := .channel 0, vals := [] } } : Path).counts group0 wg0 false = true
    ∧ (s0.badTransfer 0 = none ∧ (withP s0 fun p => { p with off := 0 }).badTransfer 0x42001401 = some 9 ∧ Raises (checkTarget 9) s0 (s0.pathTrap 2 3 0)
      ∧ Gives (checkTarget 0x1000) s0 ())
    ∧ s0.group? ⟨0, 0, 0⟩ = some group0 ∧ group0.supv = false ∧ group0.stop ≠ .stopped ∧ group0.slot0 = some path0 ∧ path0.wait = none
    ∧ s.live = true ∧ s.granted = true ∧ s.g.hangPending = true ∧ s.g.supv = false ∧ (s.g.path? s.slot).isSome = true ∧ s.g.die.toNat < 2 := by
  unfold Raises Gives Does; decide +kernel

/-- Two nodes in the pool, the one with more priority first; a place for a workgroup of node 1 on a die without cores in use. -/
theorem witness_Scheduling :
    let a : Node := { node0 1 with ready := true, ticket := 5 }
    let s : State := { sNode with regs := { sNode.regs with schedctl := 1 }, nodes := [a] }
    s.regs.bootstat.getLsbD 8 = true ∧ s.regs.schedctl.getLsbD 0 = true ∧ s.pool = [a] ∧ s0.pool = []
    ∧ s.freeEntry = some 0 ∧ (s.spot [] a none).isSome = true ∧ (match (s.tileArray a).2 with | some _ => true | none => false) = true ∧ 0 < a.gcount ∧ a.placed = 0
    ∧ (∀ h ∈ s.held, h.hostWrites = false) ∧ ∃ h ∈ ({ s with held := [.host (.write 0x200000 [1])] } : State).held, h.hostWrites = true := by decide +kernel

/-- A workgroup whose only group has exited; a node whose workgroup has completed; its place in memory; a successor that waits for it. -/
theorem witness_Completion :
    let x := withG s0 fun g => { g with exited := 0xFFFFFFFF, slot0 := none }
    let n : Node := { node0 1 with ready := true, placed := 1, complete := 1 }
    let s : State := { sNode with nodes := [n] }
    let v : Node := { n with desc := BitVec.ofNat 1024 (n.desc.toNat + 2 ^ 512 + 2 * 2 ^ 576) }
    x.wg? ⟨0, 0⟩ = some wg0 ∧ wg0.state = .resident ∧ x.allExited ⟨0, 0⟩ = true ∧ wg0.cmds = [] ∧ x.pendingOf ⟨0, 0⟩ = [] ∧ s0.allExited ⟨0, 0⟩ = false
    ∧ s.node? n.index = some n ∧ n.ready = true ∧ n.placed = n.complete ∧ n.exchanging = false ∧ n.placed = n.w ∧ n.complete = n.w ∧ n.twin = false ∧ s.ranSince = none ∧ s.nodeAcked 1 = true
    ∧ (∀ i, i < 128 → inCarve (s.nodePa 1 + i) = false ∧ isLocal (s.nodePa 1 + i) = true)
    ∧ v.f 512 16 = 1 ∧ v.f 576 20 = 2 ∧ 2 < s.nodeCount ∧ v.index ≠ 2 ∧ s.num (s.nodePa 2 + 20) 4 ≠ 0 := by decide +kernel

/-- The same node as one of a twin pair, running, exchanging, and with the exchange disabled. -/
theorem witness_Completion_twin :
    let n : Node := { node0 1 with ready := true, placed := 1, complete := 1, desc := BitVec.ofNat 1024 ((node0 1).desc.toNat + 2 ^ 101) }
    let e : Node := { n with exchanging := true }
    let s (x : Node) : State := { sNode with nodes := [x] }
    let far : State := { s n with regs := { (s n).regs with twinctl := 1 + 5 * 2 ^ 16 } }
    ((s n).hops ((s n).regs.twinctl.extractLsb' 16 12).toNat).isSome = true ∧ far.hops (far.regs.twinctl.extractLsb' 16 12).toNat = none ∧ (s n).nodeAcked 1 = true
    ∧ (0#12 = (s e).regs.twinctl.extractLsb' 16 12 ∧ 5#12 ≠ (s e).regs.twinctl.extractLsb' 16 12 ∧ e.asid = 0)
    ∧ n.twin = true ∧ (s n).node? 1 = some n ∧ (s e).node? 1 = some e ∧ e.exchanging = true ∧ e.index = 1 ∧ (s e).twinInbox = [] ∧ (0#32).toNat = (s e).runsOf 1 ∧ (s e).regs.bootstat.getLsbD 8 = true
    ∧ (0#32).toNat = ((s e).readDesc 1).runsOf 1 ∧ (1#32).toNat ≠ ((s e).readDesc 1).runsOf 1
    ∧ (s n).regs.twinctl.getLsbD 0 = false ∧ ({ (s n).regs with twinctl := 1 } : PkgRegs).twinctl.getLsbD 0 = true ∧ n.placed = n.w
    ∧ 0#64 = BitVec.ofNat 64 (crc64 (streamBytes e.stream)) ∧ 0 = (streamBytes e.stream).length ∧ ¬ 1#64 = BitVec.ofNat 64 (crc64 (streamBytes e.stream)) := by decide +kernel

theorem witness_Preemption :
    let st (x : WgState) (f : Group → Group) : State := withG (withW s0 fun w => { w with state := x }) f
    let w : Wait := { instr := .ndone L, words := 3, on := .nodeDone 3, vals := [] }
    let waits := st .stopping fun g => { g with slot0 := some { path0 with wait := some w } }
    let runs := st .stopping fun g => g
    let told := st .stopping fun g => { g with stop := .notice }
    let asked := st .stopping fun g => { g with stop := .requested, slot0 := some { path0 with wait := some w } }
    let t : State := { told with slot := false, granted := false }
    wg0.state ≠ .stopping ∧ waits.w.state = .stopping ∧ waits.g.stop ≠ .stopped ∧ ({ path0 with wait := some w } : Path).parked = true ∧ waits.g.stop = .running ∧ s0.regs.prectl.getLsbD 16 = false ∧ asked.g.stop = .requested
    ∧ runs.g.stop = .running ∧ runs.g.exited ≠ 0xFFFFFFFF ∧ path0.parked = false ∧ runs.group? ⟨0, 0, 0⟩ = some runs.g ∧ runs.wg? ⟨0, 0⟩ = some runs.w
    ∧ told.g.stop = .notice ∧ ({ path0 with off := 0, clause := none } : Path).busy = false ∧ told.g.supv = false ∧ (told.noticeSlot told.g).isSome = true ∧ told.canCapture = true
    ∧ (withG (withP told fun p => { p with replay := [{ pc := 0x1000, off := 1, words := [0x01061029], clock := 5, lmask := 0xFF, ops := none }] }) fun g =>
        { g with slot1 := some { path0 with wait := some { instr := .kvlook { L with vd := 4 }, words := 3, on := .walker, vals := [] } } }).canCapture = false
    ∧ (withG runs fun g => { g with exited := 0xFFFFFFFF }).g.exited = 0xFFFFFFFF
    ∧ State.exchange told ⟨0, 0, 0⟩ false = some t := by decide +kernel

/-- Commands that settle, and a workgroup that is saved, committed to block 1, and restored from it. -/
theorem witness_Preemption_save :
    let st (x : WgState) : State := withW s0 fun w => { w with state := x }
    let c := withW (s0.issued .copy0 (.xcopy L) 0xFFFFFFFF none {}) fun w => { w with state := .stopping }
    let a := withW (s0.issued .attn (.attn L) 0xFFFFFFFF none {}) fun w => { w with state := .stopping }
    let s := withG (st .stopping) fun g => { g with stop := .stopped }
    let v : State := { st .saving with regs := { s0.regs with ctxpool := 2 }, ctxUsed := [0] }
    ((c.cmd? ⟨⟨0, 0⟩, .copy0, 1⟩).map fun x => (x.finished, x.settled)) = some (false, false) ∧ (a.cmd? ⟨⟨0, 0⟩, .attn, 1⟩).map (fun x => x.pins.drop x.heldPins) = some []
    ∧ c.w.state = .stopping ∧ (a.runnable ⟨⟨0, 0⟩, .attn, 1⟩).map (·.pins) = some []
    ∧ s.w.state = .stopping ∧ (∀ g ∈ s.groups, wgOf g.id = s.w.id → g.stop = .stopped) ∧ s.w.cmds = [] ∧ s.movesFree ⟨0, 0⟩ = true
    ∧ ({ s with unacked := [⟨.group ⟨0, 0, 0⟩, 3, 9, [], []⟩] } : State).movesFree ⟨0, 0⟩ = false ∧ (c.cmd? ⟨⟨0, 0⟩, .copy0, 1⟩).map c.w.awaitedByFill = some false
    ∧ (let m := withW (sMat.issued .mpair (.mma { L with vd := 3, va := 0, vb := 1, vc := 30 }) 0xFFFFFFFF none { ops := [0x1F1F1F, 0, 1] }) fun w => { w with state := .stopping }
       let f := m.issued .tileOp (.mfill { L with vd := 0, va := 5 }) 0xFFFFFFFF none { ops := [0, 0, 1], tiles := [(5, false)] }
       (f.cmd? ⟨⟨0, 0⟩, .mpair, 1⟩).map (fun x => (x.stopped, f.w.awaitedByFill x)) = some (false, true))
    ∧ v.w.state = .saving ∧ 1 < v.regs.ctxpool.toNat % 2 ^ 16 ∧ 1 ∉ v.ctxUsed ∧ (∀ c, c < 1 → c ∈ v.ctxUsed)
    ∧ (st (.restoring 1)).wg? ⟨0, 0⟩ = some (st (.restoring 1)).w := by decide +kernel
/-- Counting accesses of the last group of an A-die; a swap queued and in progress; blocks of the lichen cache; a dirty line; a sector whose
size is mispredicted; a walk. -/
theorem witness_MemoryTiers :
    let d : Die := { Die.reset with lichCtl := 0x41, swapQueue := [(5, 1)], swaps := [(6, 2)], missCount := 1023 }
    let s : State := { s0 with die0 := d }
    let q : State := { s0 with die0 := { d with swapQueue := (List.range 64).map fun k => (k, 1) } }
    let e := s.lichen 0 5
    (s0.leafOver false 0 (memberAddr 0 5 1) = false ∧ s0.isHeld (memberAddr 0 5 1) = false ∧ ({ s0 with die0 := { d with swaps := [(5, 1)] } } : State).isHeld (memberAddr 0 5 1) = true
      ∧ s0.swapHolds 0 5 1 = false ∧ ({ s0 with die0 := { d with swaps := [(5, 1)] } } : State).swapHolds 0 5 1 = true ∧ s.held = []
      ∧ (let c : State := { s0 with cores := [{ die := 0, num := 0, eccLog := 0, tlb := [.leaf 0 false 0 0 (BitVec.ofNat 64 (memberAddr 0 5 1 / 32768 * 32768) ||| 0x633) 0x200000] }] }
         c.leafOver false 0 (memberAddr 0 5 1) = true))
    ∧ (1#2).toNat < 2 ∧ 0xBCFD00 - 1 < 0xBCFD00 ∧ 2 ≤ (2#2).toNat
    ∧ s.die0.swapQueue = [(5, 1)] ∧ s.die0.swaps.length < 16 ∧ q.die0.swapQueue.length = 64
    ∧ 1 ≠ e.fast ∧ e.fpin = false ∧ d.lichCtl.getLsbD 0 = true ∧ ¬ (d.lichCtl.extractLsb' 4 4).toNat ≤ e.cnt.getD 0 0
    ∧ d.swaps.find? (fun q => q.1 == 6) = some (6, 2) ∧ 2 < 4 ∧ 6 < 0xC00000
    ∧ 0x5FFFF < 0x60000 ∧ 0x5FFFF ∉ d.lichCache ∧ d.missCount = 1023 ∧ Die.reset.missCount ≠ 1023 := by decide +kernel

/-- The counter of group 5's member 1 at its threshold, so that an access of tier 0 fires and a queued swap starts. -/
theorem witness_MemoryTiers_fires :
    let d : Die := { Die.reset with lichCtl := 0x41 }
    let s : State := { ({ s0 with die0 := d } : State) with mem := s0.mem ++ [(0x17FFE80000A, 0x10)] }
    let e := s.lichen 0 5
    e.fpin = false ∧ 1 ≠ e.fast ∧ (d.lichCtl.extractLsb' 4 4).toNat ≤ e.cnt.getD 0 0 := by decide +kernel

theorem witness_MemoryTiers_lines :
    let s : State := { s0 with dirty := [0x102000], cmpLines := [0x102000] }
    let line := 0x102000 / 128 * 128
    line = 0x102000 ∧ line ∈ s.dirty ∧ isOwn line = true ∧ isLocal line = true ∧ inCarve line = false ∧ 0x102080 ∉ s.dirty ∧ s.rangePoisoned line 128 = false ∧ line ∈ s.cmpLines ∧ line ∉ s0.cmpLines ∧ (s0.die 0).holdsLine (metaLine 0x102000) = false
    ∧ ({ s with soft := [.sector 0x102000] } : State).rangePoisoned line 128 = true
    ∧ max 1 (codeSectors (s0.metaCode 0x102000)) ≤ 4 - ((s0.die 0).predictor.get (0x102000 / 32768)).toNat
    ∧ 4 - (({ s0 with die0 := { Die.reset with predictor := [(0x102000 / 32768, 3)] } } : State).die0.predictor.get (0x102000 / 32768)).toNat < max 1 (codeSectors (s0.metaCode 0x102000))
    ∧ 0 < coresOf 0 ∧ s0.regs.asidbase.getLsbD 0 = true ∧ (s0.cachedLeaf ⟨0, some 0⟩ 0 0x1000).isSome = true := by decide +kernel

/-- A walk that ends in a leaf: ASID 0's tables from 0x300000, four levels. -/
theorem witness_MemoryTiers_walk :
    let s : State := { s0 with cores := [], mem := (cellsAt 0 (bytesOf 16 (1 + 0x300000))).filter (fun c => c.2 != 0) ++ s0.mem
      ++ (cellsAt 0x300000 (bytesOf 8 0x308001)).filter (fun c => c.2 != 0) ++ (cellsAt 0x308000 (bytesOf 8 0x310001)).filter (fun c => c.2 != 0)
      ++ (cellsAt 0x310000 (bytesOf 8 0x318001)).filter (fun c => c.2 != 0) ++ (cellsAt 0x318000 (bytesOf 8 0x100033)).filter fun c => c.2 != 0 }
    s.cachedLeaf ⟨0, some 0⟩ 0 0 = none ∧ (match (s.walk ⟨0, some 0⟩ 0 0 true).2 with | .ok _ => true | .error _ => false) = true := by decide +kernel

/-- A ready device, one that is not, and addresses that the host may write at the ends of a die's window; a hole. -/
theorem witness_OutsideRequests :
    s0.regs.bootstat.getLsbD 8 = true ∧ State.reset.regs.bootstat.getLsbD 8 = false
    ∧ (isLocal 0x200000 = true ∧ inCarve 0x200000 = false ∧ 0x200000 < 2 ^ 51 ∧ isOwn 0x200000 = true ∧ 0x200000 % 8 = 0)
    ∧ s0.isHeld 0x200000 = false ∧ isHost 0x1000000000000 = true
    ∧ isLocal 0x1FFFFFFFFFF = false ∧ (([(0x1000000000000, 7)] : List (Nat × Byte)).map Prod.fst).Nodup
    ∧ (let h : State := { s0 with die0 := { Die.reset with swaps := [(0x200000 / 32768, 0)] } }
       h.isHeld 0x200000 = true ∧ (∀ i, i < 8 → isLocal (0x200000 + i) = true))
    ∧ ({ s0 with unacked := [⟨.group ⟨0, 0, 0⟩, 3, 9, [], [0x200003]⟩] } : State).unacked.any (fun u => u.own.any fun x => decide (0x200000 ≤ x) && decide (x < 0x200008)) = true
    ∧ (∀ i, i < 4 → inCarve (0x17FFE800000 + i) = true ∧ s0.isHeld (0x17FFE800000 + i) = false) ∧ 0x17FFE800000 % 4 = 0 ∧ s0.unacked = []
    ∧ (let s : State := { s0 with hostStores := [[(0x1000000000000, 7)], [(0x1000000000000, 5)]] }
       s.hostStores ≠ [] ∧ s0.hostStores = [] ∧ (s.loseHostStore 0).byte 0x1000000000000 = 7 ∧ (s.loseHostStore 1).hostStores = [[(0x1000000000000, 5)]])
    ∧ (let s : State := { s0 with unacked := [⟨.group ⟨0, 0, 0⟩, 3, 9, [], []⟩] }
       s.unacked.find? (fun a => a.pkg == 3) = some ⟨.group ⟨0, 0, 0⟩, 3, 9, [], []⟩ ∧ s.unacked.find? (fun a => a.pkg == 4) = none
        ∧ s.allAcked (.group s.g.id) = false ∧ s.drainAll.unacked ≠ [] ∧ s.drain.allAcked (.group s.g.id) = false) := by decide +kernel

theorem witness_HostRegisters :
    let s : State := { s0 with die1 := { Die.reset with overflow := [(0, 5)] } }
    0x100 ≤ 0x1FF ∧ 0x1FF < 0x200 ∧ s.regs.bootstat.getLsbD 8 = true ∧ State.reset.regs.bootstat.getLsbD 8 = false ∧ 4 % 8 ≠ 0
    ∧ s.oldestWaiting = some (1, 0, 5) ∧ s.frRoom = false ∧ ({ s with regs := { s.regs with frctl := 0x104 } } : State).frRoom = true
    ∧ (∀ h ∈ s.held, h.hostWrites = false) ∧ (∃ h ∈ ({ s with held := [.host (.write 0x200000 [1])] } : State).held, h.hostWrites = true)
    ∧ s.leaves < 2 ^ 20 ∧ s.rangePoisoned (2 ^ 48) 64 = false ∧ isOwn (2 ^ 48 + 64) = true ∧ isHost (2 ^ 48 + 64) = true
    ∧ s.regs.attctl.getLsbD 1 = false ∧ ({ s.regs with attctl := 2 } : PkgRegs).attctl.getLsbD 1 = true := by decide +kernel

/-- Each stage of bring-up, and the cores released. -/
theorem witness_BringUp :
    let at' (n : Word64) : State := { State.reset with perst := true, regs := { PkgRegs.reset with bootstat := n } }
    let stage (s : State) : Nat := (s.regs.bootstat.extractLsb' 0 8).toNat
    (let r : Route := { pkg := 3, hops := 1, port := some 4 }
     let s : State := { s0 with routes := [r] }
     3 ≠ s.pkg ∧ s.routes = [r] ∧ s.regs.freipstat.getLsbD 4 = false ∧ ({ s.regs with freipstat := 0x10 } : PkgRegs).freipstat.getLsbD 4 = true)
    ∧ (at' 1).perst = true ∧ (at' 1).regs.bootstat.getLsbD 8 = false ∧ (at' 5).regs.bootstat.getLsbD 8 = false ∧ (at' 5).regs.bootstat.extractLsb' 32 16 = 0
    ∧ stage (at' 1) = 1 ∧ stage (at' 2) = 2 ∧ stage (at' 3) = 3 ∧ stage (at' 4) = 4 ∧ stage (at' 5) = 5 ∧ (at' 5).released < 18
    ∧ ((8#64).getLsbD 3 = true ∧ ({ at' 2 with recovery := [(0, 1), (5, 2)] } : State).recovery.getLast? = some (5, 2) ∧ (at' 2).regs.attctl.getLsbD 3 = false)
    ∧ ({ at' 5 with released := 18 } : State).released = 18 ∧ 17 < 18 ∧ s0.regs.bootstat.getLsbD 8 = true := by decide +kernel

/-- The clock values below and above 1250 MHz, a power above and below the cap, and a value that is no step. -/
theorem witness_PowerAndErrors :
    (∃ k, k ≤ 10 ∧ 2 * (1188#16).toNat ≤ 2501 - 125 * k ∧ 2500 - 125 * k ≤ 2 * (1188#16).toNat + 1)
    ∧ (1188#16).toNat < (s0.regs.pwrstat.extractLsb' 0 16).toNat
    ∧ (∃ k, k ≤ 10 ∧ 2 * (1250#16).toNat ≤ 2501 - 125 * k ∧ 2500 - 125 * k ≤ 2 * (1250#16).toNat + 1)
    ∧ (({ s0.regs with pwrstat := 625 } : PkgRegs).pwrstat.extractLsb' 0 16).toNat < (1250#16).toNat
    ∧ (s0.regs.pwrctl.extractLsb' 0 12).toNat < (3001#16).toNat ∧ (3000#16).toNat ≤ (s0.regs.pwrctl.extractLsb' 0 12).toNat
    ∧ (∀ k, k ≤ 10 → ¬ (2 * (1000#16).toNat - 1 ≤ 2501 - 125 * k ∧ 2500 - 125 * k ≤ 2 * (1000#16).toNat - 1 + 1) ∨ k = 4) ∧ isHole 0 = false
    ∧ (s0.sectorBad (metaLine 0x102000) = false ∧ isHole (metaLine 0x102000 % 2 ^ 52) = false ∧ isOwn 0x102000 = true ∧ isLocal 0x102000 = true ∧ inCarve 0x102000 = false)
    ∧ isOwn 0x1000000000000 = true ∧ s0.regs.bootstat.getLsbD 8 = true ∧ State.reset.regs.bootstat.getLsbD 8 = false := by
  refine ⟨⟨1, by decide⟩, by decide +kernel, ⟨0, by decide⟩, by decide +kernel, by decide +kernel, by decide +kernel, ?_, by decide +kernel, by decide +kernel, by decide +kernel⟩
  decide +kernel

theorem witness_StepKeepsMemory : Memory.wf s0.mem = true ∧ ∃ t, step s0 = .next t := by
  exact ⟨by decide +kernel, _, rfl⟩

/-- A workgroup and a node that may complete, a twin, a ready device, a store that awaits its acknowledgement, and one to the host. -/
theorem witness_FormsThatComplete :
    let x := withG s0 fun g => { g with exited := 0xFFFFFFFF, slot0 := none }
    let n : Node := { node0 1 with ready := true, placed := 1, complete := 1 }
    let s : State := { sNode with nodes := [n] }
    s0.soft = [] ∧ s0.g.ovr = none ∧ readMarked 0 = false ∧ writeMarked 0 = false ∧ sSup.g.supv = true ∧ s0.busyReg 4 = false ∧ s0.allAcked (.group s0.g.id) = true
    ∧ (x.wg? ⟨0, 0⟩ = some wg0 ∧ wg0.state = .resident ∧ x.allExited wg0.id = true ∧ wg0.cmds = [] ∧ x.pendingOf wg0.id = [])
    ∧ (s.node? n.index = some n ∧ n.ready = true ∧ n.placed = n.w ∧ n.complete = n.w ∧ n.exchanging = false ∧ n.twin = false ∧ s.nodeAcked n.index = true)
    ∧ ({ n with exchanging := true } : Node).exchanging = true ∧ s0.regs.bootstat.getLsbD 8 = true ∧ (reqRange (.read 0x200000 8)).1 < 2 ^ 51
    ∧ s0.swapWaits (.read 0x200000 8) = false ∧ s0.storeWaits (.read 0x200000 8) = false
    ∧ (let u : Unacked := ⟨.group ⟨0, 0, 0⟩, 3, 9, [], []⟩
       ({ s0 with unacked := [u] } : State).unacked.find? (fun b => b.pkg == u.pkg) = some u)
    ∧ 0x1000000000000 ∈ ([(0x1000000000000, 7)] : List (Nat × Byte)).map Prod.fst := by decide +kernel

/-! ## Values of the spec's own examples and tables -/

/-- The value that S[6] takes when an instruction retires from `s0` with the values x in S[4] and y in S[5]. -/
def sdOf (i : Instr) (x y : Word64) : Option Word64 :=
  match exec i (withG s0 fun g => { g with sregs := [(4, x), (5, y)] }) with
  | .next t => some (t.g.sregs.get 6)
  | _ => none

def r0 (w : BitVec 1) : RForm := { d := 6, a := 4, b := 5, rsv := 0, w := w }

/-- R310: divisions by zero, of the smallest number by −1, and of −7 by 2. -/
theorem test_divisions :
    sdOf (.sdiv (r0 0)) 7 0 = some 0xFFFFFFFFFFFFFFFF ∧ sdOf (.srem (r0 0)) 7 0 = some 7 ∧ sdOf (.sdivu (r0 0)) 7 0 = some 0xFFFFFFFFFFFFFFFF ∧ sdOf (.sremu (r0 0)) 7 0 = some 7
    ∧ sdOf (.sdiv (r0 0)) 0x8000000000000000 0xFFFFFFFFFFFFFFFF = some 0x8000000000000000 ∧ sdOf (.srem (r0 0)) 0x8000000000000000 0xFFFFFFFFFFFFFFFF = some 0
    ∧ sdOf (.sdiv (r0 0)) 0xFFFFFFFFFFFFFFF9 2 = some 0xFFFFFFFFFFFFFFFD ∧ sdOf (.srem (r0 0)) 0xFFFFFFFFFFFFFFF9 2 = some 0xFFFFFFFFFFFFFFFF := by decide +kernel


/-- R309, R310 (Example 12-1): the .w forms divide the low 32 bits and sign-extend; a 32-bit division by zero gives all ones. -/
theorem test_divisions_w :
    sdOf (.sdiv (r0 1)) 0x1234567880000000 0xFFFFFFFFFFFFFFFF = some 0xFFFFFFFF80000000 ∧ sdOf (.sdivu (r0 1)) 5 0 = some 0xFFFFFFFFFFFFFFFF := by decide +kernel

/-- R20, R21 (Example 1-1): the addresses of elements of a swizzled record. -/
theorem test_swizzled_addresses :
    let r := recOf 0x00000010000001801400000040000000#128
    r.bad = false ∧ r.extent = 384 ∧ [0, 9, 16, 383].map (fun i => r.addr false 0 i 0) = [0x40000000, 0x40000080, 0x40000120, 0x40001780] := by decide +kernel

/-- R42 (Example 2-1): the entries that five counting accesses leave, with SWAPDELTA 4. -/
theorem test_lichen_counts :
    let e1 := (Lichen.ofNat 0).count 4 2 false 0
    let e2 := e1.count 4 2 false 0
    let e3 := e2.count 4 3 false 0
    let e4 := e3.count 4 0 false 0
    let e5 := e4.count 4 2 false 1
    [e1, e2, e3, e4, e5].map Lichen.toNat = [0x40, 0x80, 0x480, 0x40, 0x100] := by decide +kernel

/-- R51 to R55 (Example 2-2): the stored form of line 0 of location 0x40 of F0, its metadata byte, and what its read leaves. -/
theorem test_compressed_read :
    let bs := (List.range 32).flatMap fun i => bytesOf 4 (0x1000 + 3 * i)
    let f := storedForm 3 bs
    let pa := 2 * 2 ^ 41 + 0x40 * 32768
    let s : State := { s0 with die2 := { Die.resetF with predictor := [(0x40, 3)] }, mem := s0.mem ++ [((metaPa pa).1, 3)] }
    let t := s.consultMeta pa
    bestCode bs = 3 ∧ f.length = 64 ∧ f.take 6 = [0x00, 0x10, 0x00, 0x00, 0x03, 0x06] ∧ f.drop 34 = 0x5D :: List.replicate 29 0 ∧ expandLine 3 f = bs
    ∧ metaPa pa = (2 * 2 ^ 41 + carveBase 2 + 0x2000, false) ∧ 3 - (t.die2.predictor.get 0x40).toNat = 1 ∧ t.die2.cmpStat = 0x100000001 := by decide +kernel

/-- R81, R376, R378 (Example 14-2): slot 1 of an operand image of two slots stays with its group until the multiplication that reads it
retires; slot 3, which none reads, is free. -/
theorem test_release_of_an_image :
    let s := withW sMat fun w =>
      { w.takeRun 0 0 4 with slots := { heads := [(0, { image0 with rows := 128, cols := 96 }), (2, image0)], elems := [], scales := [] } }
    (match exec (.mma { L with vd := 0, va := 0, vb := 2, vc := 30 }) s with
      | .next t => (match exec (.mrel { L with vd := 0, imm := 3 }) t with
        | .next u => (List.range 4).map u.w.claim
        | _ => [])
      | _ => []) = [.deferred, .deferred, .deferred, .free] := by decide +kernel

/-- R88 (Example 3-3): the words that three lanes' steps of an FP32 add leave. -/
theorem test_atomic_adds :
    (atomicStep 1 2 32 0x3F800000 0x4B800000 0).val = 0x4B800000 ∧ (atomicStep 1 2 32 0x4B800000 0x3F800000 0).val = 0x4B800000
    ∧ (atomicStep 1 2 32 0x4B800000 0xCB800000 0).val = 0 := by decide +kernel

/-- Example 11-1: the words of an explicit clause decode to its instructions, one after the other. -/
theorem test_clause_words :
    decode [0x20142BFD] = .ok (.saddi { d := 10, a := 10, imm := 0x3FD }, 1)
    ∧ decode [0x8100A010, 0x02204800, 0x01000000] = .ok (.vfma { L with vd := 20, va := 16, vb := 17, vc := 18, type := 2 }, 3)
    ∧ decode [0x8000A814, 0x00000054, 0x38000000] = .ok (.vadd { L with vd := 21, va := 20, ss := 10, bsb := 1, mask := 3, minv := 1 }, 3)
    ∧ (let h : Word32 := 0xC0117CC0; bodyLen h = 7) := by decide +kernel

/-- Example 13-1: a conversion to E4M3 with saturation writes byte 1 of each lane's register. -/
theorem test_conversion :
    let s := withP (withG s0 fun g => { g with vregs := [(64, 0x43FA0000), (65, 0x3E99999A), (66, 0x7FC00000), (67, 0x80000000), (256, 0x11111111), (257, 0x11111111), (258, 0x11111111), (259, 0x11111111)] })
      fun p => { p with mask := 0xF }
    (match decode [0x85404002, 0, 0x03880012] with
      | .ok (i, 3) => (match exec i s with
        | .next t => (List.range 4).map fun l => t.g.vregs.get (256 + l)
        | _ => [])
      | _ => []) = [0x11117E11, 0x11112A11, 0x11117F11, 0x11118011] := by decide +kernel

end Sys2Proof.Tests
end

section
/-! SUPPORT. System registers (spec/12 R330, R331, Table 12-3; access codes, spec/00 R11): what a write leaves in each bit of a register,
where the value of each register is held, and the obligation about SRD and SWR. -/

namespace Sys2Proof.Machine

/-! ## A write under the access codes (R11) -/

/-- A writable field: its low bit, its width and the values that it takes. -/
abbrev RegField := Nat × Nat × (Nat → Bool)

/-- Bit `k` lies in the field. -/
abbrev RegField.has (f : RegField) (k : Nat) : Prop := f.1 ≤ k ∧ k < f.1 + f.2.1

/-- The new value that a full write offers to a field. -/
def RegField.offered (f : RegField) (v : Word64) : Nat := bitsOf v.toNat f.1 f.2.1

theorem testBit_bitsOf (n lo w i : Nat) : (bitsOf n lo w).testBit i = (decide (i < w) && n.testBit (lo + i)) := by
  rw [bitsOf, Nat.testBit_mod_two_pow, Nat.testBit_div_two_pow, Nat.add_comm]

/-- The number that `setField` makes, as the bits above the field, the field, and the bits below it. -/
theorem setField_value (n lo w x : Nat) :
    n - bitsOf n lo w * 2 ^ lo + place x lo w = 2 ^ lo * (2 ^ w * (n / 2 ^ lo / 2 ^ w) + x % 2 ^ w) + n % 2 ^ lo := by
  have hlow := Nat.div_add_mod n (2 ^ lo)
  have hmid := congrArg (2 ^ lo * ·) (Nat.div_add_mod (n / 2 ^ lo) (2 ^ w))
  simp only [Nat.mul_add] at hmid
  rw [bitsOf, place, Nat.mul_comm _ (2 ^ lo), Nat.mul_comm _ (2 ^ lo), Nat.mul_add]
  omega

theorem getLsbD_setField (r : Word64) (lo w x k : Nat) (hk : k < 64) :
    (setField r lo w x).getLsbD k = if lo ≤ k ∧ k < lo + w then x.testBit (k - lo) else r.getLsbD k := by
  have hmid : x % 2 ^ w < 2 ^ w := Nat.mod_lt _ (by positivity)
  have hlow : r.toNat % 2 ^ lo < 2 ^ lo := Nat.mod_lt _ (by positivity)
  simp only [setField, setField_value, BitVec.getLsbD_ofNat, hk, decide_true, Bool.true_and]
  rw [Nat.testBit_two_pow_mul_add _ hlow, Nat.testBit_two_pow_mul_add _ hmid]
  rcases Nat.lt_or_ge k lo with h | h
  · simp [Nat.testBit_mod_two_pow, h, Nat.not_le.2 h, BitVec.getLsbD]
  · rcases Nat.lt_or_ge k (lo + w) with h' | h'
    · have : k - lo < w := by omega
      simp [Nat.testBit_mod_two_pow, h, h', this, Nat.not_lt.2 h]
    · have : ¬ k - lo < w := by omega
      have hsum : k - lo - w + w + lo = k := by omega
      simp [h, Nat.not_lt.2 h, Nat.not_lt.2 h', this, Nat.testBit_div_two_pow, hsum, BitVec.getLsbD]

/-- R11: a written field takes its new value where its table allows that. -/
def takeField (v r : Word64) (f : RegField) : Word64 :=
  if f.2.2 (f.offered v) then setField r f.1 f.2.1 (f.offered v) else r

/-- R11: a W1C bit that is written as 1 clears. -/
def clearOne (v r : Word64) (i : Nat) : Word64 := if v.getLsbD i then setBit r i false else r

/-- A write of all 64 bits: first the fields, then the W1C bits. -/
theorem write_allOnes (sp : RegSpec) (old v : Word64) :
    sp.write old v (BitVec.allOnes 64) = sp.w1c.foldl (clearOne v) (sp.rw.foldl (takeField v) old) := by
  have hclear : ∀ (r : Word64) (i : Nat),
      (if (BitVec.allOnes 64).getLsbD i && v.getLsbD i then setBit r i false else r) = clearOne v r i := by
    intro r i
    rw [BitVec.getLsbD_allOnes, clearOne]
    by_cases hi : i < 64
    · rw [decide_eq_true hi, Bool.true_and]
    · rw [BitVec.getLsbD_of_ge v i (by omega), Bool.and_false]
  simp only [RegSpec.write, hclear, BitVec.not_allOnes, BitVec.and_zero, BitVec.and_allOnes, BitVec.zero_or]
  rfl

theorem getLsbD_takeField (v r : Word64) (f : RegField) (k : Nat) :
    (takeField v r f).getLsbD k = if f.has k ∧ f.2.2 (f.offered v) = true then v.getLsbD k else r.getLsbD k := by
  by_cases hk : k < 64
  · by_cases hx : f.2.2 (f.offered v) = true
    · simp only [takeField, hx, if_true, and_true, getLsbD_setField _ _ _ _ _ hk]
      by_cases hf : f.has k
      · obtain ⟨hlo, hhi⟩ := hf
        have : k - f.1 < f.2.1 := by omega
        simp [RegField.offered, testBit_bitsOf, hlo, hhi, this, BitVec.getLsbD]
      · simp only [if_neg hf]
    · simp [takeField, hx]
  · have h64 : 64 ≤ k := Nat.not_lt.1 hk
    simp [BitVec.getLsbD_of_ge _ k h64]

theorem getLsbD_clearOne (v r : Word64) (i k : Nat) :
    (clearOne v r i).getLsbD k = (r.getLsbD k && !(decide (k = i) && v.getLsbD k)) := by
  by_cases hk : k < 64
  · by_cases h : k = i
    · subst h
      cases hv : v.getLsbD k <;> simp only [clearOne, setBit, hv] <;> simp [hk]
    · unfold clearOne setBit
      split
      · simp [h, hk]; omega
      · simp [h]
  · simp [BitVec.getLsbD_of_ge _ k (Nat.not_lt.1 hk)]

theorem getLsbD_foldl_clearOne (v : Word64) (w1c : List Nat) : ∀ (r : Word64) (k : Nat),
    (w1c.foldl (clearOne v) r).getLsbD k = (r.getLsbD k && !(decide (k ∈ w1c) && v.getLsbD k)) := by
  induction w1c with
  | nil => simp
  | cons i rest ih =>
    intro r k
    rw [List.foldl_cons, ih, getLsbD_clearOne]
    by_cases h : k = i <;> cases v.getLsbD k <;> simp [h]

theorem getLsbD_foldl_takeField_outside (v : Word64) (fields : List RegField) (k : Nat) : ∀ r : Word64, (∀ f ∈ fields, ¬ f.has k) →
    (fields.foldl (takeField v) r).getLsbD k = r.getLsbD k := by
  induction fields with
  | nil => intro r _; rfl
  | cons g rest ih =>
    intro r h
    rw [List.foldl_cons, ih _ fun f hf => h f (List.mem_cons_of_mem g hf), getLsbD_takeField, if_neg]
    exact fun hg => h g List.mem_cons_self hg.1

/-- Two fields share no bit. -/
abbrev RegField.apart (f g : RegField) : Prop := f.1 + f.2.1 ≤ g.1 ∨ g.1 + g.2.1 ≤ f.1

theorem not_has_of_apart {f g : RegField} {k : Nat} (h : f.apart g) (hf : f.has k) (hg : g.has k) : False := by
  obtain ⟨_, _⟩ := hf
  obtain ⟨_, _⟩ := hg
  rcases h with h | h <;> omega

theorem getLsbD_foldl_takeField_inside (v : Word64) {f : RegField} {k : Nat} (hk : f.has k) (fields : List RegField) : ∀ r : Word64,
    fields.Pairwise RegField.apart → f ∈ fields →
    (fields.foldl (takeField v) r).getLsbD k = if f.2.2 (f.offered v) = true then v.getLsbD k else r.getLsbD k := by
  induction fields with
  | nil => intro r _ hf; cases hf
  | cons g rest ih =>
    intro r hp hf
    obtain ⟨hg, hrest⟩ := List.pairwise_cons.1 hp
    rw [List.foldl_cons]
    rcases List.mem_cons.1 hf with rfl | hf
    · rw [getLsbD_foldl_takeField_outside v rest k _ fun x hx => not_has_of_apart (hg x hx) hk, getLsbD_takeField]
      exact if_congr (and_iff_right hk) rfl rfl
    · rw [ih _ hrest hf, getLsbD_takeField, if_neg (c := _ ∧ _) fun h => not_has_of_apart (hg f hf) h.1 hk]

/-- The fields of a register share no bit with each other, nor with its W1C bits. -/
abbrev RegSpec.Separate (sp : RegSpec) : Prop :=
  sp.rw.Pairwise RegField.apart ∧ ∀ f ∈ sp.rw, ∀ i ∈ sp.w1c, ¬ RegField.has f i

/-- A full write gives the bits of a field their new values where the field takes the value that is offered. -/
theorem getLsbD_write_field {sp : RegSpec} (hsp : sp.Separate) {f : RegField} (hf : f ∈ sp.rw) (old v : Word64) (k : Nat) (hk : f.has k) :
    (sp.write old v (BitVec.allOnes 64)).getLsbD k = if f.2.2 (f.offered v) = true then v.getLsbD k else old.getLsbD k := by
  have hw1c : k ∉ sp.w1c := fun h => hsp.2 f hf k h hk
  rw [write_allOnes, getLsbD_foldl_clearOne, getLsbD_foldl_takeField_inside v hk _ _ hsp.1 hf]
  simp [hw1c]

/-- A full write clears the W1C bits written as 1 and leaves every other bit outside the fields. -/
theorem getLsbD_write_other (sp : RegSpec) (old v : Word64) (k : Nat) (hk : ∀ f ∈ sp.rw, ¬ RegField.has f k) :
    (sp.write old v (BitVec.allOnes 64)).getLsbD k = (old.getLsbD k && !(decide (k ∈ sp.w1c) && v.getLsbD k)) := by
  rw [write_allOnes, getLsbD_foldl_clearOne, getLsbD_foldl_takeField_outside v _ k _ hk]

theorem bitsOf_congr {a b : Word64} {lo w : Nat} (h : ∀ k, lo ≤ k → k < lo + w → a.getLsbD k = b.getLsbD k) :
    bitsOf a.toNat lo w = bitsOf b.toNat lo w := by
  refine Nat.eq_of_testBit_eq fun i => ?_
  rw [testBit_bitsOf, testBit_bitsOf]
  by_cases hi : i < w
  · simpa [hi, BitVec.getLsbD] using h (lo + i) (by omega) (by omega)
  · simp [hi]

/-- R11: after a full write a field reads as its new value where its table allows that, and as before where it does not. -/
theorem bitsOf_write_field {sp : RegSpec} (hsp : sp.Separate) {f : RegField} (hf : f ∈ sp.rw) (old v : Word64) :
    bitsOf (sp.write old v (BitVec.allOnes 64)).toNat f.1 f.2.1 =
      if f.2.2 (f.offered v) = true then f.offered v else bitsOf old.toNat f.1 f.2.1 := by
  have hbit := fun k hlo hhi => getLsbD_write_field hsp hf old v k ⟨hlo, hhi⟩
  split
  · next hx => exact bitsOf_congr fun k hlo hhi => by rw [hbit k hlo hhi, if_pos hx]
  · next hx => exact bitsOf_congr fun k hlo hhi => by rw [hbit k hlo hhi, if_neg hx]

/-! ## The registers of a group -/

/-- R209, R200: GSTAT and FPSTAT clear the sticky bits written as 1. -/
theorem write_sticky (old v : Word64) :
    RegSpec.write ⟨[], [0, 1, 2, 3]⟩ old v (BitVec.allOnes 64) = old &&& ~~~(v &&& 0xF) := by
  have hmask : ∀ k, k < 64 → (0xF#64).getLsbD k = decide (k ∈ [0, 1, 2, 3]) := by decide
  refine BitVec.eq_of_getLsbD_eq fun k hk => ?_
  rw [getLsbD_write_other _ _ _ _ (by simp)]
  rw [BitVec.getLsbD_and, BitVec.getLsbD_not, BitVec.getLsbD_and, decide_eq_true hk, Bool.true_and, Bool.and_comm (v.getLsbD k)]
  exact congrArg (fun b => old.getLsbD k && !(b && v.getLsbD k)) (hmask k hk).symm

/-- A register of one field, in its low `w` bits, which the mask `m` selects. -/
theorem write_lowField (w : Nat) (allowed : Nat → Bool) (m old v : Word64) (hm : ∀ k, k < 64 → m.getLsbD k = decide (k < w)) :
    RegSpec.write ⟨[(0, w, allowed)], []⟩ old v (BitVec.allOnes 64) =
      if allowed (bitsOf v.toNat 0 w) = true then (old &&& ~~~m) ||| (v &&& m) else old := by
  refine BitVec.eq_of_getLsbD_eq fun k hk => ?_
  have hmerge : ((old &&& ~~~m) ||| (v &&& m)).getLsbD k = if k < w then v.getLsbD k else old.getLsbD k := by
    rw [BitVec.getLsbD_or, BitVec.getLsbD_and, BitVec.getLsbD_and, BitVec.getLsbD_not, hm k hk]
    split <;> simp [*]
  by_cases hw : k < w
  · have hsep : RegSpec.Separate ⟨[(0, w, allowed)], []⟩ := by simp [RegSpec.Separate]
    rw [getLsbD_write_field hsep (List.mem_singleton.2 rfl) old v k ⟨Nat.zero_le k, by simpa using hw⟩]
    simp only [RegField.offered, apply_ite (BitVec.getLsbD · k), hmerge, hw, if_true]
    rfl
  · rw [getLsbD_write_other _ _ _ _ (by simpa [RegField.has] using hw)]
    simp [apply_ite (BitVec.getLsbD · k), hmerge, hw]

theorem writeSys_group {n : Nat} (hn : n < 6) (s : State) (v : Word64) : s.writeSys n v = { s with g := s.g.writeReg n v } := by
  simp only [State.writeSys, hn, if_true]

theorem readReg_writeReg (g : Group) (n : Nat) (v : Word64) :
    (g.writeReg n v).readReg n = (groupSpec n).write (g.readReg n) v (BitVec.allOnes 64) := by
  match n with
  | 0 | 1 | 2 | 3 | 4 => rfl
  | n + 5 => rfl

/-! ## Reads -/

theorem gives_unique {α : Type} {a : Act α} {s : State} {x y : α} (hx : Gives a s x) (hy : Gives a s y) : x = y := by
  simpa [Gives, Does] using hx.symm.trans hy

theorem readM_gives {s : State} {n : Nat} (h : s.isSoft (.mreg s.g.id n) = false) : Gives (readM n) s (s.g.mreg n) := by
  simp [Gives, Does, readM, h]

theorem readB_gives {s : State} {n : Nat} (h : s.isSoft (.breg s.g.id n) = false) : Gives (readB n) s (s.g.bregs.get n) := by
  simp [Gives, Does, readB, h]

/-! ## What SRD reads (Table 12-3) -/

/-- The numbers from 0x80 on are those of no register of Table 12-3's first rows: the group's, ECCLOG and LOCID. -/
theorem beyond_core {n : Nat} (h : 0x80 ≤ n) : ¬ n < 6 ∧ n ≠ 0x40 ∧ n ≠ 0x41 := by omega

theorem readSys_group {n : Nat} (hn : n < 6) (s : State) : Gives (readSys n) s (s.g.readReg n) := by
  simp [Gives, Does, readSys, -bind_pure_comp, hn]

theorem readSys_ecc (s : State) : Gives (readSys 0x40) s (s.core s.g.die s.g.core).eccLog := by
  simp [Gives, Does, readSys, -bind_pure_comp]

theorem readSys_die {n : Nat} (hlo : 0x80 ≤ n) (hhi : n < 0x100) (s : State) : Gives (readSys n) s (s.readDie s.g.die n) := by
  simp [Gives, Does, readSys, -bind_pure_comp, hhi, beyond_core (show 0x80 ≤ n by omega)]

theorem readSys_pkg {n : Nat} (hlo : 0x100 ≤ n) (hhi : n < 0x200) (s : State) : Gives (readSys n) s (s.regs.get n) := by
  simp [Gives, Does, readSys, -bind_pure_comp, hhi, beyond_core (show 0x80 ≤ n by omega), show ¬ n < 0x100 by omega]

theorem readSys_breg {n : Nat} (hlo : 0x200 ≤ n) (hhi : n < 0x240) {s : State} (h : s.isSoft (.breg s.g.id ((n - 0x200) / 2)) = false) :
    Gives (readSys n) s ((s.g.bregs.get ((n - 0x200) / 2)).extractLsb' (64 * (n % 2)) 64) := by
  have hb : runAct (readB ((n - 0x200) / 2)) s = _ := readB_gives h
  simp [Gives, Does, readSys, -bind_pure_comp, hb, hhi, beyond_core (show 0x80 ≤ n by omega),
    show ¬ n < 0x100 by omega, show ¬ n < 0x200 by omega]

theorem readSys_mreg {n : Nat} {s : State} (h : s.isSoft (.mreg s.g.id n) = false) :
    Gives (readSys (0x240 + n)) s ((s.g.mreg n).setWidth 64) := by
  have hm : runAct (readM n) s = _ := readM_gives h
  simp [Gives, Does, readSys, -bind_pure_comp, hm, beyond_core (show 0x80 ≤ 0x240 + n by omega),
    show ¬ 0x240 + n < 0x100 by omega, show ¬ 0x240 + n < 0x200 by omega]

/-- The two halves of a buffer record (R18). -/
theorem readSys_breg_halves {n : Nat} (hn : n < 32) {s : State} (h : s.isSoft (.breg s.g.id n) = false) :
    Gives (readSys (0x200 + 2 * n)) s ((s.g.bregs.get n).extractLsb' 0 64)
      ∧ Gives (readSys (0x201 + 2 * n)) s ((s.g.bregs.get n).extractLsb' 64 64) := by
  have hlo : (0x200 + 2 * n - 0x200) / 2 = n := by omega
  have hhi : (0x201 + 2 * n - 0x200) / 2 = n := by rw [Nat.add_comm, Nat.add_sub_assoc (by decide)]; omega
  have hlow := readSys_breg (n := 0x200 + 2 * n) (by omega) (by omega) (s := s) (by rwa [hlo])
  have hhigh := readSys_breg (n := 0x201 + 2 * n) (by omega) (by omega) (s := s) (by rwa [hhi])
  rw [hlo, show (0x200 + 2 * n) % 2 = 0 by omega] at hlow
  rw [hhi, show (0x201 + 2 * n) % 2 = 1 by omega] at hhigh
  exact ⟨hlow, hhigh⟩

/-! ## What SWR writes (R330) -/

theorem writeSys_ecc (s : State) (v : Word64) : s.writeSys 0x40 v = s.writeEcc s.g.die s.g.core v (BitVec.allOnes 64) := rfl

theorem writeSys_die {n : Nat} (hlo : 0x80 ≤ n) (hhi : n < 0x100) (s : State) (v : Word64) :
    s.writeSys n v = s.writeDie s.g.die n v (BitVec.allOnes 64) := by
  simp [State.writeSys, hhi, beyond_core (show 0x80 ≤ n by omega)]

theorem writeSys_pkg {n : Nat} (hlo : 0x100 ≤ n) (hhi : n < 0x200) (s : State) (v : Word64) :
    s.writeSys n v = s.writePkg n v (BitVec.allOnes 64) := by
  simp [State.writeSys, hhi, beyond_core (show 0x80 ≤ n by omega), show ¬ n < 0x100 by omega]

theorem writeSys_breg {n : Nat} (hlo : 0x200 ≤ n) (hhi : n < 0x240) (s : State) (v : Word64) : s.writeSys n v = s.writeBHalf n v := by
  simp [State.writeSys, hhi, beyond_core (show 0x80 ≤ n by omega), show ¬ n < 0x100 by omega,
    show ¬ n < 0x200 by omega]

theorem writeSys_mreg (n : Nat) (s : State) (v : Word64) : s.writeSys (0x240 + n) v = s.setM n (v.setWidth 32) := by
  simp [State.writeSys, beyond_core (show 0x80 ≤ 0x240 + n by omega),
    show ¬ 0x240 + n < 0x100 by omega, show ¬ 0x240 + n < 0x200 by omega]

theorem setB_get (s : State) (n : Nat) (v : BitVec 128) : (s.setB n v).g.bregs.get n = v := by
  rw [State.setB, unsoft_eq]; simp

theorem setM_get {n : Nat} (hn : 0 < n) (s : State) (v : Word32) : (s.setM n v).g.mregs.get n = v := by
  rw [State.setM, if_neg (by omega), unsoft_eq]; simp

theorem setM_byte (s : State) (n : Nat) (v : Word32) (a : Nat) : (s.setM n v).byte a = s.byte a := by
  unfold State.setM
  split
  · rfl
  · rw [unsoft_eq]; rfl

/-- A write takes one half of a buffer record and leaves the other. -/
theorem writeSys_breg_halves {n : Nat} (hn : n < 32) (s : State) (v : Word64) :
    (s.writeSys (0x200 + 2 * n) v).g.bregs.get n = (s.g.bregs.get n).extractLsb' 64 64 ++ v
      ∧ (s.writeSys (0x201 + 2 * n) v).g.bregs.get n = v ++ (s.g.bregs.get n).extractLsb' 0 64 := by
  have hlo : (0x200 + 2 * n - 0x200) / 2 = n := by omega
  have hhi : (0x201 + 2 * n - 0x200) / 2 = n := by rw [Nat.add_comm, Nat.add_sub_assoc (by decide)]; omega
  constructor
  · rw [writeSys_breg (by omega) (by omega), State.writeBHalf, hlo, setB_get, if_pos (by omega)]
  · rw [writeSys_breg (by omega) (by omega), State.writeBHalf, hhi, setB_get, if_neg (by omega)]

/-! ## A write and the read after it -/

@[simp] theorem die_setDie (s : State) (d : BitVec 2) (x : Die) : (s.setDie d x).die d = x := by
  unfold State.setDie State.die
  split
  · rfl
  · split
    · rfl
    · split <;> rfl

@[simp] theorem g_setDie (s : State) (d : BitVec 2) (x : Die) : (s.setDie d x).g = s.g := by
  unfold State.setDie
  split
  · rfl
  · split
    · rfl
    · split <;> rfl

theorem core_setCore {c : Core} {d : BitVec 2} {n : Nat} (hd : c.die = d) (hn : c.num = n) (s : State) : (s.setCore c).core d n = c := by
  simp [State.core, State.core?, State.setCore, hd, hn]

theorem core_die_num (s : State) (d : BitVec 2) (n : Nat) : (s.core d n).die = d ∧ (s.core d n).num = n := by
  unfold State.core State.core?
  cases h : s.cores.find? fun c => c.die == d && c.num == n with
  | none => exact ⟨rfl, rfl⟩
  | some c => simpa using List.find?_some h

theorem readDie_writeDie {n : Nat} (hlo : 0x80 ≤ n) (hhi : n ≤ 0x82) (s : State) (d : BitVec 2) (v : Word64) (hd : n = 0x80 ∨ n = 0x81 → d.toNat < 2) :
    (s.writeDie d n v (BitVec.allOnes 64)).readDie d n = (dieSpec n).write (s.readDie d n) v (BitVec.allOnes 64) := by
  obtain rfl | rfl | rfl : n = 0x80 ∨ n = 0x81 ∨ n = 0x82 := by omega
  · simp [State.writeDie, State.readDie, hd (.inl rfl)]
  · simp [State.writeDie, State.readDie, hd (.inr rfl)]
  · simp [State.writeDie, State.readDie]

theorem g_writeDie (s : State) (d : BitVec 2) (n : Nat) (v mask : Word64) : (s.writeDie d n v mask).g = s.g := by
  unfold State.writeDie
  simp only []
  split
  · rw [apply_ite State.g, g_setDie, ite_self]
  · rw [apply_ite State.g, g_setDie, ite_self]
  · exact g_setDie _ _ _
  · rfl

theorem eccLog_writeEcc (s : State) (d : BitVec 2) (n : Nat) (v : Word64) :
    ((s.writeEcc d n v (BitVec.allOnes 64)).core d n).eccLog = eccSpec.write (s.core d n).eccLog v (BitVec.allOnes 64) := by
  obtain ⟨hd, hn⟩ := core_die_num s d n
  exact congrArg Core.eccLog (core_setCore (c := { s.core d n with eccLog := eccSpec.write (s.core d n).eccLog v (BitVec.allOnes 64) }) hd hn s)

/-- A package register with a place of its own reads as it is written. -/
theorem get_put_pkg {n : Nat} (hlo : 0x100 ≤ n) (hhi : n ≤ 0x112) (hsubmit : n ≠ 0x106) (htimer : n ≠ 0x111) (r : PkgRegs) (v : Word64) :
    (r.put n v).get n = v := by
  obtain ⟨_, _⟩ | ⟨_, _⟩ | rfl : (0x100 ≤ n ∧ n ≤ 0x105) ∨ (0x107 ≤ n ∧ n ≤ 0x110) ∨ n = 0x112 := by omega
  · interval_cases n <;> rfl
  · interval_cases n <;> rfl
  · rfl

/-- A write that starts no operation writes the register alone. -/
theorem regs_writePkg {n : Nat} (hsubmit : n ≠ 0x106) (s : State) (v : Word64) (hgo : n = 0x110 → v.getLsbD 7 = false) :
    (s.writePkg n v (BitVec.allOnes 64)).regs = s.regs.put n ((pkgSpec n).write (s.regs.get n) v (BitVec.allOnes 64)) := by
  unfold State.writePkg
  simp only [if_neg hsubmit]
  split
  · next h => simp [show v[7] = false from hgo h]
  · split
    · split <;> rfl
    · split
      · split <;> rfl
      · rfl

/-! ## Each register's fields -/

/-- Where a system register's access codes stand. -/
def regSpec (n : Nat) : RegSpec :=
  if n < 6 then groupSpec n else if n = 0x40 then eccSpec else if n < 0x100 then dieSpec n else pkgSpec n

/-- The numbers of the registers with access codes (Table 12-3). -/
theorem accessFields_number {n : Nat} (h : (accessFields n).isSome = true) :
    n < 6 ∨ n = 0x40 ∨ (0x80 ≤ n ∧ n ≤ 0x82) ∨ (0x100 ≤ n ∧ n ≤ 0x112 ∧ n ≠ 0x106 ∧ n ≠ 0x111) := by
  unfold accessFields at h
  split at h
  case h_28 => simp at h
  all_goals omega

/-! The two common predicates on values, as `accessFields` writes them. -/

theorem anyVal_eq : anyVal = fun _ => true := rfl
theorem nonzeroVal_eq : nonzeroVal = fun x => x != 0 := rfl

/-- The access codes of the model are those of the registers' tables. -/
theorem regSpec_of_accessFields {n : Nat} {fields : List RegField} {w1c : List Nat} (h : accessFields n = some (fields, w1c)) :
    regSpec n = ⟨fields.reverse, w1c⟩ := by
  unfold accessFields at h
  split at h <;> cases h <;> simp [regSpec, groupSpec, eccSpec, dieSpec, pkgSpec, anyVal_eq, nonzeroVal_eq]

theorem regSpec_separate {n : Nat} (h : (accessFields n).isSome = true) : (regSpec n).Separate := by
  obtain hn | rfl | ⟨hlo, hhi⟩ | ⟨hlo, hhi, -, -⟩ := accessFields_number h
  · interval_cases n <;> decide
  · decide
  · interval_cases n <;> decide
  · interval_cases n <;> decide

/-- R330, R11: a register reads after a write as its access codes make it. -/
theorem readSys_writeSys {n : Nat} (h : (accessFields n).isSome = true) {s : State} {v old new : Word64}
    (hdie : n = 0x80 ∨ n = 0x81 → s.g.die.toNat < 2) (hgo : n = 0x110 → v.getLsbD 7 = false)
    (hold : Gives (readSys n) s old) (hnew : Gives (readSys n) (s.writeSys n v) new) :
    new = (regSpec n).write old v (BitVec.allOnes 64) := by
  obtain hn | rfl | ⟨hlo, hhi⟩ | ⟨hlo, hhi, hsubmit, htimer⟩ := accessFields_number h
  · rw [gives_unique hold (readSys_group hn s), gives_unique hnew (readSys_group hn _), writeSys_group hn, regSpec, if_pos hn]
    exact readReg_writeReg s.g n v
  · rw [gives_unique hold (readSys_ecc s), gives_unique hnew (readSys_ecc _), writeSys_ecc]
    exact eccLog_writeEcc s s.g.die s.g.core v
  · rw [gives_unique hold (readSys_die hlo (by omega) s), gives_unique hnew (readSys_die hlo (by omega) _),
      writeSys_die hlo (by omega), g_writeDie, readDie_writeDie hlo hhi s _ v hdie,
      regSpec, if_neg (by omega), if_neg (by omega), if_pos (by omega)]
  · rw [gives_unique hold (readSys_pkg hlo (by omega) s), gives_unique hnew (readSys_pkg hlo (by omega) _),
      writeSys_pkg hlo (by omega), regs_writePkg hsubmit s v hgo, get_put_pkg hlo hhi hsubmit htimer,
      regSpec, if_neg (by omega), if_neg (by omega), if_neg (by omega)]

/-! ## Privilege (R294, R330) -/

theorem readPriv_eq (n : Nat) : readPriv n = readMarked n := by
  rw [Bool.eq_iff_iff]; simp [readPriv, readMarked]; omega

theorem writePriv_eq (n : Nat) : writePriv n = writeMarked n := by
  rw [Bool.eq_iff_iff]; simp [writePriv, writeMarked]; omega

theorem needSupv_raises {s : State} (h : s.g.supv = false) : Raises needSupv s (s.pathTrap cPRIV 1 0) := by
  simp [Raises, needSupv, h, State.pathTrap]

theorem needSupv_gives {s : State} (h : s.g.supv = true) : Gives needSupv s () := by
  simp [Gives, Does, needSupv, h]

/-- A meaning that first asks for supervisor mode takes the PRIV trap outside it, before any effect. -/
theorem outcome_needSupv (f : Unit → Act Unit) {s : State} (h : s.g.supv = false) :
    Act.outcome (needSupv >>= f) s = .next (s.takeTrap (s.pathTrap cPRIV 1 0)) :=
  outcome_of_raises (raises_first (needSupv_raises h))

theorem exec_privileged {i : Instr} (hi : alwaysPrivileged i = true) {s : State} (h : s.g.supv = false) :
    exec i s = .next (s.takeTrap (s.pathTrap cPRIV 1 0)) := by
  unfold alwaysPrivileged at hi
  split at hi
  case h_9 => cases hi
  all_goals exact outcome_needSupv _ h

theorem srd_raises {f : YForm} (hf : readMarked f.sub.toNat = true) {s : State} (h : s.g.supv = false) :
    Raises (srd f) s (s.pathTrap cPRIV 1 0) := by
  unfold srd
  rw [if_pos (by rw [readPriv_eq, hf])]
  exact raises_first (needSupv_raises h)

theorem swr_raises {f : YForm} (hf : writeMarked f.sub.toNat = true) {s : State} (h : s.g.supv = false) :
    Raises (swr f) s (s.pathTrap cPRIV 1 0) := by
  unfold swr
  rw [if_pos (by rw [writePriv_eq, hf])]
  exact raises_first (needSupv_raises h)

/-! ## SRD and SWR -/

/-- A check that is made only where `c` holds, and passes there, changes nothing of what follows. -/
theorem does_checked {c : Prop} [Decidable c] {α : Type} {check : Act Unit} {rest : Unit → Act α} {s t : State} {x : α}
    (hcheck : c → Gives check s ()) (hrest : Does (rest ()) s x t) : Does (if c then check >>= rest else rest ()) s x t := by
  split
  · next hc => exact gives_bind (hcheck hc) hrest
  · exact hrest

theorem srd_does {f : YForm} {s : State} {v : Word64} (hpriv : readMarked f.sub.toNat = true → s.g.supv = true)
    (hv : Gives (readSys f.sub.toNat) s v) (hd : s.busyReg f.d = false) : Does (srd f) s () ((s.setS f.d v).retire 1) := by
  rw [← readPriv_eq] at hpriv
  unfold srd
  refine does_checked (fun h => needSupv_gives (hpriv h)) ?_
  exact gives_bind hv (writeRetire_does s f.d v 1 hd)

theorem awaitPerformed_gives {s : State} (h : s.allAcked (.group s.g.id) = true) : Gives awaitPerformed s () := by
  simp [Gives, Does, awaitPerformed, h]

theorem swr_does {f : YForm} {s : State} {v : Word64} (hpriv : writeMarked f.sub.toNat = true → s.g.supv = true)
    (hv : Gives (readSA f.a) s v) (hacked : isGroupReg f.sub.toNat = false → s.allAcked (.group s.g.id) = true) :
    Does (swr f) s () ((s.writeSys f.sub.toNat v).retire 1) := by
  rw [← writePriv_eq] at hpriv
  unfold swr
  refine does_checked (fun h => needSupv_gives (hpriv h)) ?_
  refine gives_bind hv ?_
  simp only []
  split
  · rfl
  · next hg => exact gives_bind (awaitPerformed_gives (hacked (by simpa using hg))) rfl

/-! ## The clauses -/

/-- R294, R330: privilege. -/
theorem registers_privileged {s : State} (h : s.g.supv = false) :
    (∀ i, alwaysPrivileged i = true → exec i s = .next (s.takeTrap (s.pathTrap cPRIV 1 0)))
      ∧ (∀ f : YForm, readMarked f.sub.toNat = true → exec (.srd f) s = .next (s.takeTrap (s.pathTrap cPRIV 1 0)))
      ∧ ∀ f : YForm, writeMarked f.sub.toNat = true → exec (.swr f) s = .next (s.takeTrap (s.pathTrap cPRIV 1 0)) :=
  ⟨fun _ hi => exec_privileged hi h, fun _ hf => outcome_of_raises (srd_raises hf h), fun _ hf => outcome_of_raises (swr_raises hf h)⟩

/-- Table 12-3: the registers outside the buffer records and mask registers whose values the statement names. -/
theorem registers_read (s : State) :
    Gives (readSys 0) s s.g.gstat ∧ Gives (readSys 1) s s.g.fpctl ∧ Gives (readSys 2) s s.g.fpstat ∧ Gives (readSys 3) s s.g.rseed
      ∧ Gives (readSys 4) s s.g.nanctl ∧ Gives (readSys 5) s s.g.hangctl ∧ Gives (readSys 0x40) s (s.core s.g.die s.g.core).eccLog
      ∧ Gives (readSys 0x111) s s.regs.timer ∧ Gives (readSys 0x101) s s.regs.hvec ∧ Gives (readSys 0x106) s 0 :=
  ⟨readSys_group (by decide) s, readSys_group (by decide) s, readSys_group (by decide) s, readSys_group (by decide) s,
    readSys_group (by decide) s, readSys_group (by decide) s, readSys_ecc s, readSys_pkg (by decide) (by decide) s,
    readSys_pkg (by decide) (by decide) s, readSys_pkg (by decide) (by decide) s⟩

/-- R210: m0 reads as all ones, every other mask register as its low word. -/
theorem maskRegisters_read (s : State) (n : Nat) :
    (s.isSoft (.mreg s.g.id 0) = false → Gives (readSys 0x240) s 0xFFFFFFFF)
      ∧ (0 < n → n < 16 → s.isSoft (.mreg s.g.id n) = false → Gives (readSys (0x240 + n)) s ((s.g.mregs.get n).zeroExtend 64)) := by
  refine ⟨fun h => readSys_mreg h, fun hn _ h => ?_⟩
  have hm : s.g.mreg n = s.g.mregs.get n := if_neg (by omega)
  simpa only [hm] using readSys_mreg h

theorem roundingMode_le (v : Word64) : v.extractLsb' 0 3 ≤ 5#3 ↔ bitsOf v.toNat 0 3 ≤ 5 := by
  simp [BitVec.le_def, bitsOf]

/-- R181: FPCTL takes a rounding mode up to 5 and keeps its value at any other. -/
theorem writeSys_fpctl (s : State) (v : Word64) :
    (s.writeSys 1 v).g.fpctl = if v.extractLsb' 0 3 ≤ 5#3 then (s.g.fpctl &&& ~~~ 7) ||| (v &&& 7) else s.g.fpctl := by
  have hwrite := write_lowField 3 (fun x => decide (x ≤ 5)) 7 s.g.fpctl v (by decide)
  simp only [decide_eq_true_eq, ← roundingMode_le] at hwrite
  rw [writeSys_group (by decide)]
  exact hwrite

/-- R209, R200, R181: the sticky registers, RSEED and NANCTL. -/
theorem writeSys_groupRegisters (s : State) (v : Word64) :
    (s.writeSys 0 v).g.gstat = s.g.gstat &&& ~~~ (v &&& 0xF) ∧ (s.writeSys 2 v).g.fpstat = s.g.fpstat &&& ~~~ (v &&& 0xF)
      ∧ (s.writeSys 3 v).g.rseed = v ∧ (s.writeSys 4 v).g.nanctl = (s.g.nanctl &&& ~~~ 1) ||| (v &&& 1) := by
  have hseed := write_lowField 64 anyVal (BitVec.allOnes 64) s.g.rseed v fun k hk => by rw [BitVec.getLsbD_allOnes]
  have hnan := write_lowField 1 anyVal 1 s.g.nanctl v (by decide)
  rw [anyVal_eq, if_pos rfl] at hseed hnan
  simp only [BitVec.not_allOnes, BitVec.and_zero, BitVec.zero_or, BitVec.and_allOnes] at hseed
  simp only [writeSys_group (show 0 < 6 by decide), writeSys_group (show 2 < 6 by decide), writeSys_group (show 3 < 6 by decide),
    writeSys_group (show 4 < 6 by decide)]
  exact ⟨write_sticky s.g.gstat v, write_sticky s.g.fpstat v, hseed, hnan⟩

/-- Table 12-3: LOCID, TIMER and m0 ignore a write. -/
theorem writeSys_ignored (s : State) (v : Word64) : s.writeSys 0x41 v = s ∧ s.writeSys 0x111 v = s ∧ s.writeSys 0x240 v = s :=
  ⟨rfl, rfl, rfl⟩

theorem writeSys_maskRegister {n : Nat} (hn : 0 < n) (s : State) (v : Word64) :
    (s.writeSys (0x240 + n) v).g.mregs.get n = v.extractLsb' 0 32 ∧ ∀ a, (s.writeSys (0x240 + n) v).byte a = s.byte a := by
  rw [writeSys_mreg, setM_get hn, BitVec.setWidth_eq_extractLsb' (by decide)]
  exact ⟨rfl, setM_byte s n _⟩

/-- R330, R11: the fields and the other bits of a register after a write. -/
theorem writeSys_fields {n : Nat} {fields : List RegField} {w1c : List Nat} (h : accessFields n = some (fields, w1c)) {s : State} {v old new : Word64}
    (hdie : n = 0x80 ∨ n = 0x81 → s.g.die.toNat < 2) (hgo : n = 0x110 → v.getLsbD 7 = false)
    (hold : Gives (readSys n) s old) (hnew : Gives (readSys n) (s.writeSys n v) new) :
    (∀ f ∈ fields, bitsOf new.toNat f.1 f.2.1 = if f.2.2 (RegField.offered f v) = true then RegField.offered f v else bitsOf old.toNat f.1 f.2.1)
      ∧ ∀ k, (∀ f ∈ fields, ¬ RegField.has f k) → new.getLsbD k = (old.getLsbD k && !(decide (k ∈ w1c) && v.getLsbD k)) := by
  have hsome : (accessFields n).isSome = true := by rw [h]; rfl
  have hsep := regSpec_separate hsome
  rw [readSys_writeSys hsome hdie hgo hold hnew]
  rw [regSpec_of_accessFields h] at hsep ⊢
  exact ⟨fun f hf => bitsOf_write_field hsep (List.mem_reverse.2 hf) old v,
    fun k hk => getLsbD_write_other _ old v k fun f hf => hk f (List.mem_reverse.1 hf)⟩

/-- Settles O19: privilege, SRD and SWR, and what a write changes of each register. -/
theorem systemRegisters : Obligations.SystemRegisters := by
  refine ⟨fun s h => registers_privileged h, fun f s v => ⟨fun hpriv hv hd => ?_, fun hpriv hv hacked => ?_⟩, fun s n => ?_,
    fun s v n => ?_, fun s n v old new fields w1c h hdie hgo hold hnew => ?_⟩
  · exact ⟨outcome_of_does (srd_does hpriv hv hd), setS_retire s f.d v 1⟩
  · exact outcome_of_does (swr_does hpriv hv hacked)
  · obtain ⟨hgstat, hfpctl, hfpstat, hrseed, hnanctl, hhangctl, hecc, htimer, hhvec, hsubmit⟩ := registers_read s
    exact ⟨hgstat, hfpctl, hfpstat, hrseed, hnanctl, hhangctl, hecc, htimer, hhvec, hsubmit, fun hn h => readSys_breg_halves hn h, maskRegisters_read s n⟩
  · obtain ⟨hgstat, hfpstat, hrseed, hnanctl⟩ := writeSys_groupRegisters s v
    obtain ⟨hlocid, htimer, hm0⟩ := writeSys_ignored s v
    exact ⟨hgstat, hfpstat, hrseed, hnanctl, fun hle => (writeSys_fpctl s v).trans (if_pos hle),
      fun hlt => (writeSys_fpctl s v).trans (if_neg (BitVec.not_le.2 hlt)), hlocid, htimer, hm0,
      fun hn => writeSys_breg_halves hn s v, fun hn _ => writeSys_maskRegister hn s v⟩
  · obtain ⟨hfields, hother⟩ := writeSys_fields h hdie hgo hold hnew
    exact ⟨hfields, fun k _ hk => hother k fun f hf hfk => by have := hk f hf; obtain ⟨hlo, hhi⟩ := hfk; omega⟩

end Sys2Proof.Machine
end

