-- ==== Sys2Proof/Proofs/Requests.lean ====
section
/-! PROOFS. What a line request and a translation leave as they were (spec/02 R40 to R55, spec/05 R118 to R121). -/

namespace Sys2Proof.Machine

/-! ## Bytes written one after another -/

/-- A view of a state that each move of a fold keeps is kept by the fold. -/
theorem foldl_keeps {σ α β : Type} (view : σ → β) {f : σ → α → σ} {xs : List α} (h : ∀ t, ∀ x ∈ xs, view (f t x) = view t) (s : σ) :
    view (xs.foldl f s) = view s :=
  List.foldlRecOn (motive := fun t => view t = view s) xs f rfl fun t ht x hx => (h t x hx).trans ht

theorem ite_keeps {σ β : Type} (view : σ → β) {c : Prop} [Decidable c] {s t : σ} (h : view t = view s) : view (if c then t else s) = view s := by
  split
  · exact h
  · rfl

theorem byte_setBytes_other {ws : List (Nat × Byte)} {a : Nat} (h : ∀ p ∈ ws, p.1 ≠ a) (s : State) : (s.setBytes ws).byte a = s.byte a :=
  foldl_keeps (·.byte a) (fun t p hp => by rw [byte_setByte, if_neg (Ne.symm (h p hp))]) s

theorem setBytes_cons (s : State) (p : Nat × Byte) (ws : List (Nat × Byte)) : s.setBytes (p :: ws) = (s.setByte p.1 p.2).setBytes ws := rfl

/-- Where no address stands twice, each byte reads as it was written. -/
theorem byte_setBytes_mem {ws : List (Nat × Byte)} (hnd : (ws.map Prod.fst).Nodup) {a : Nat} {v : Byte} (h : (a, v) ∈ ws) :
    ∀ s : State, (s.setBytes ws).byte a = v := by
  induction ws with
  | nil => cases h
  | cons p rest ih =>
    intro s
    rw [List.map_cons, List.nodup_cons] at hnd
    obtain ⟨hp, hnd⟩ := hnd
    rw [setBytes_cons]
    rcases List.mem_cons.1 h with rfl | h
    · rw [byte_setBytes_other fun q hq he => hp (List.mem_map.2 ⟨q, hq, he⟩), byte_setByte, if_pos rfl]
    · exact ih hnd h _

theorem setBytes_frame (ws : List (Nat × Byte)) (s : State) : s.setBytes ws = { s with mem := (s.setBytes ws).mem } := by
  refine List.foldlRecOn (motive := fun t : State => t = { s with mem := t.mem }) ws _ rfl fun t ht p _ => ?_
  rw [ht]
  rfl

/-! ## What requests and translations cannot change

They move the caches, the counters, the swap queues and the bytes of memory that the device itself keeps; a watch may be marked. -/

/-- A group but for its watch. -/
def Group.lasting (g : Group) : Group := { g with watch := none }

/-- A die but for its caches, the counters and queues of its memory tiers, and its translations. -/
def Die.lasting (d : Die) : Die :=
  { d with
    lichStat := 0, cmpStat := 0, missCount := 0, lichCache := [], swapQueue := [], heldCounts := [], predictor := [], l2 := []
    walkCache := [], tlb := [] }

/-- What a line request and a translation leave of a state. -/
def State.lasting (s : State) : State :=
  { s with
    g := s.g.lasting, others := s.others.map Group.lasting, mem := [], soft := [], dirty := [], cmpLines := [], cores := [], hostStores := []
    die0 := s.die0.lasting, die1 := s.die1.lasting, die2 := s.die2.lasting, die3 := s.die3.lasting }

theorem view_of_lasting {β : Type} (view : State → β) (hview : ∀ u, view u.lasting = view u) {s t : State} (h : t.lasting = s.lasting) :
    view t = view s := by
  rw [← hview t, h, hview]

theorem lasting_setDie (s : State) {d : BitVec 2} {x : Die} (h : x.lasting = (s.die d).lasting) : (s.setDie d x).lasting = s.lasting := by
  unfold State.die at h
  unfold State.setDie State.lasting
  split
  · simp_all
  · split
    · simp_all
    · split <;> simp_all

theorem lasting_setBytes (s : State) (ws : List (Nat × Byte)) : (s.setBytes ws).lasting = s.lasting := by
  rw [setBytes_frame]; rfl

theorem lasting_group_touch (g : Group) (win home : Nat) (offs : List Nat) : (g.touch win home offs).lasting = g.lasting := by
  unfold Group.touch
  split
  · rfl
  · split <;> rfl

theorem lasting_touch (s : State) (win home : Nat) (offs : List Nat) : (s.touch win home offs).lasting = s.lasting := by
  simp [State.touch, State.lasting, lasting_group_touch]

theorem lasting_put (s : State) (ws : List (Nat × Byte)) : (s.put ws).lasting = s.lasting := by
  have hmarks (t : State) (addrs : List Nat) : ((t.clearPoison addrs).markDirty addrs).lasting = t.lasting := rfl
  rw [State.put, hmarks, lasting_touch, lasting_setBytes]

theorem lasting_devStore (s : State) (ws : List (Nat × Byte)) : (s.devStore ws).lasting = s.lasting := by
  have hhost (t : State) (ls : List (List (Nat × Byte))) : ({ t with hostStores := ls } : State).lasting = t.lasting := rfl
  unfold State.devStore
  simp only []
  split
  · rw [lasting_put]
  · rw [hhost, lasting_put]

/-! ### Line requests -/

theorem lasting_lichenLookup (s : State) (die : BitVec 2) (block : Nat) : (s.lichenLookup die block).lasting = s.lasting := by
  unfold State.lichenLookup
  split
  · rfl
  · simp only []
    split
    · exact lasting_setDie s rfl
    · split <;> exact lasting_setDie s rfl

theorem die_setBytes (s : State) (ws : List (Nat × Byte)) (d : BitVec 2) : (s.setBytes ws).die d = s.die d := by
  rw [setBytes_frame]; rfl

theorem lasting_setLichen (s : State) (die group : Nat) (e : Lichen) : (s.setLichen die group e).lasting = s.lasting := lasting_setBytes s _

theorem die_setLichen (s : State) (die group : Nat) (e : Lichen) (d : BitVec 2) : (s.setLichen die group e).die d = s.die d := die_setBytes s _ d

theorem lasting_countingAccess (s : State) (die : BitVec 2) (group m : Nat) (pin : Bool) (tier : Nat) :
    (s.countingAccess die group m pin tier).lasting = s.lasting := by
  have hqueue {x : Die} {e : Lichen} (hx : x.lasting = (s.die die).lasting) : ((s.setLichen die.toNat group e).setDie die x).lasting = s.lasting := by
    rw [lasting_setDie _ (by rw [die_setLichen, hx]), lasting_setLichen]
  unfold State.countingAccess
  simp only []
  split
  · rfl
  · split
    · exact lasting_setDie s rfl
    · split
      · split <;> exact hqueue (by simp only [Die.lasting])
      · exact lasting_setLichen s _ _ _

theorem lasting_setMetaCode (s : State) (pa code : Nat) : (s.setMetaCode pa code).lasting = s.lasting := by
  unfold State.setMetaCode
  split
  exact lasting_setBytes s [(_, _)]

theorem lasting_lookupLine (s : State) (pa : Nat) : (s.lookupLine pa).lasting = s.lasting := by
  unfold State.lookupLine
  split
  · exact lasting_lichenLookup s _ _
  · rfl

theorem lasting_writeBack (s : State) (pa : Nat) : (s.writeBack pa).lasting = s.lasting := by
  have hlines (t : State) (xs ys : List Nat) : ({ t with dirty := xs, cmpLines := ys } : State).lasting = t.lasting := rfl
  unfold State.writeBack
  simp only []
  split
  · rfl
  · rw [lasting_setMetaCode, hlines, ← lasting_lookupLine s (pa / 128 * 128)]
    split
    · rfl
    · exact lasting_lookupLine _ _

theorem lasting_fillLine (s : State) (die : BitVec 2) (line n : Nat) (low : Bool) : (s.fillLine die line n low).lasting = s.lasting := by
  unfold State.fillLine
  split
  exact (foldl_keeps State.lasting (fun t l _ => ite_keeps State.lasting (lasting_writeBack t l)) _).trans (lasting_setDie s rfl)

theorem lasting_consultMeta (s : State) (pa : Nat) : (s.consultMeta pa).lasting = s.lasting := by
  unfold State.consultMeta
  simp only []
  split
  · rfl
  · split
    · exact lasting_fillLine s _ _ _ _
    · rw [lasting_fillLine, lasting_lookupLine]
      exact lasting_setDie s rfl

theorem lasting_lineRequest (s : State) (r : LineReq) (pa : Nat) : (s.lineRequest r pa).lasting = s.lasting := by
  have hcounts (t : State) (die : BitVec 2) (block group m : Nat) (pin : Bool) (tier : Nat) :
      ((t.lichenLookup die block).countingAccess die group m pin tier).lasting = t.lasting := by
    rw [lasting_countingAccess, lasting_lichenLookup]
  unfold State.lineRequest
  simp only []
  split
  · rfl
  · generalize hs₁ : (if r.write then ({ s with cmpLines := _ } : State) else s) = s₁
    have h₁ : s₁.lasting = s.lasting := hs₁ ▸ ite_keeps State.lasting rfl
    rw [← h₁]
    split
    · exact lasting_fillLine s₁ _ _ _ _
    · rw [ite_keeps State.lasting (lasting_fillLine _ _ _ _ _), ite_keeps State.lasting (lasting_consultMeta _ _),
        ite_keeps State.lasting (hcounts _ _ _ _ _ _ _)]

theorem lasting_plainRequest (s : State) (pa : Nat) : (s.plainRequest pa).lasting = s.lasting := by
  unfold State.plainRequest
  simp only []
  split
  · rfl
  · split
    · rfl
    · rw [lasting_fillLine, lasting_consultMeta, ite_keeps State.lasting (lasting_lichenLookup _ _ _)]

theorem lasting_plainLines (s : State) (addrs : List Nat) : (s.plainLines addrs).lasting = s.lasting :=
  foldl_keeps State.lasting (fun t x _ => lasting_plainRequest t x) s

theorem lasting_plainStore (s : State) (ws : List (Nat × Byte)) : (s.plainStore ws).lasting = s.lasting := by
  have hcmp (t : State) (xs : List Nat) : ({ t with cmpLines := xs } : State).lasting = t.lasting := rfl
  rw [State.plainStore, lasting_devStore, hcmp, lasting_plainLines]

/-! ### Translations -/

theorem lasting_setTlb (s : State) (a : Where) (t : List TlbEntry) : (s.setTlb a t).lasting = s.lasting := by
  unfold State.setTlb
  split
  · rfl
  · exact lasting_setDie s rfl

theorem lasting_fillTlb (s : State) (a : Where) (e : TlbEntry) : (s.fillTlb a e).lasting = s.lasting := lasting_setTlb s a _

theorem lasting_dropLeaf (s : State) (a : Where) (asid : BitVec 12) (va : Nat) : (s.dropLeaf a asid va).lasting = s.lasting :=
  lasting_setTlb s a _

theorem lasting_fillWalk (s : State) (die : BitVec 2) (e : WalkEntry) : (s.fillWalk die e).lasting = s.lasting := lasting_setDie s rfl

theorem lasting_asidEntry (s : State) (a : Where) (asid : BitVec 12) (hold : Bool) : (s.asidEntry a asid hold).1.lasting = s.lasting := by
  unfold State.asidEntry
  simp only []
  repeat' split
  all_goals simp only [lasting_fillTlb, lasting_plainRequest]

theorem lasting_walkLevels (die : BitVec 2) (asid : BitVec 12) (va : Nat) (hold : Bool) (levels : List Nat) : ∀ (s : State) (table : Nat),
    (s.walkLevels die asid va levels table hold).1.lasting = s.lasting := by
  induction levels with
  | nil => intro s table; rfl
  | cons level rest ih =>
    intro s table
    unfold State.walkLevels
    simp only []
    repeat' split
    all_goals simp only [ih, lasting_fillWalk, lasting_plainRequest]

theorem lasting_orLeaf (s : State) (l : Leaf) (bit : Nat) : (s.orLeaf l bit).1.lasting = s.lasting := by
  unfold State.orLeaf
  simp only []
  split
  · rw [lasting_plainStore, lasting_plainLines]
  · exact lasting_plainLines s _

theorem lasting_peerSet (s : State) (a : Where) (asid : BitVec 12) (ix : Nat) (fresh hold : Bool) :
    (s.peerSet a asid ix fresh hold).1.lasting = s.lasting := by
  have hasid := lasting_asidEntry s a asid hold
  unfold State.peerSet
  simp only []
  generalize s.asidEntry a asid hold = r at hasid ⊢
  obtain ⟨t, f | ae⟩ := r
  all_goals
    simp only [] at hasid ⊢
    repeat' split
    all_goals simp only [lasting_setTlb, lasting_plainRequest, hasid]

theorem lasting_walk (s : State) (a : Where) (asid : BitVec 12) (va : Nat) (hold : Bool) : (s.walk a asid va hold).1.lasting = s.lasting := by
  have hasid := lasting_asidEntry s a asid hold
  unfold State.walk
  generalize s.asidEntry a asid hold = r at hasid ⊢
  obtain ⟨s₁, f | ae⟩ := r
  · exact hasid
  · simp only [] at hasid ⊢
    rw [← hasid, ← lasting_walkLevels a.die asid va hold [3, 2, 1, 0] s₁ (bitsOf ae.toNat 8 44 * 2 ^ 8)]
    generalize s₁.walkLevels a.die asid va [3, 2, 1, 0] (bitsOf ae.toNat 8 44 * 2 ^ 8) hold = r
    obtain ⟨s₂, f | l⟩ := r
    · rfl
    · simp only []
      generalize hs₃ : State.fillTlb _ a _ = s₃
      have hfill : s₃.lasting = s₂.lasting := by
        rw [← hs₃, lasting_fillTlb]
        split
        · rfl
        · exact lasting_orLeaf s₂ l 9
      rw [← hfill]
      have hset := lasting_peerSet s₃ a asid (ptePeerIx (l.entry ||| (1 <<< 9))) true hold
      split
      · generalize s₃.peerSet a asid (ptePeerIx (l.entry ||| (1 <<< 9))) true hold = r at hset ⊢
        obtain ⟨s₄, f | ms⟩ := r <;> exact hset
      · rfl

theorem lasting_useLeaf (s : State) (a : Where) (asid : BitVec 12) (need : Need) (l : Leaf) (va : Nat) :
    (s.useLeaf a asid need l va).1.lasting = s.lasting := by
  have hset := lasting_peerSet s a asid (ptePeerIx l.entry) false (!need.now)
  unfold State.useLeaf
  simp only []
  split
  · generalize s.peerSet a asid (ptePeerIx l.entry) false (!need.now) = r at hset ⊢
    obtain ⟨s₁, f | ms⟩ := r
    · exact hset
    · simp only [] at hset ⊢
      repeat' split
      all_goals exact hset
  · repeat' split
    all_goals rfl

/-- A fresh walk, and what the access reaches through its leaf (R119). -/
def State.translateFresh (s : State) (a : Where) (asid : BitVec 12) (need : Need) (va : Nat) : State × Except Flt Xlat :=
  match s.walk a asid va (!need.now) with
  | (s, .error f) => (s, .error f)
  | (s, .ok l) => s.useLeaf a asid need l va

/-- R118 to R121: every way through a translation. -/
theorem translate_cases (s : State) (a : Where) (asid : BitVec 12) (need : Need) (va : Nat) :
    (∃ f, s.translate a asid need va = (s, .error f))
    ∨ s.translate a asid need va = s.translateFresh a asid need va
    ∨ ∃ l, (∃ s₁ l₁ pas, s.useLeaf a asid need l va = (s₁, .ok ⟨l₁, pas, none⟩)
          ∧ s.translate a asid need va = (s₁, .ok ⟨l₁, pas, none⟩))
      ∨ (∃ s₁ f, s.useLeaf a asid need l va = (s₁, .error f) ∧ s.translate a asid need va = (s₁, .error f))
      ∨ s.translate a asid need va = ((s.useLeaf a asid need l va).1.dropLeaf a asid va).translateFresh a asid need va := by
  unfold State.translate
  split
  · exact .inl ⟨_, rfl⟩
  · split
    · exact .inl ⟨_, rfl⟩
    · refine .inr ?_
      simp only []
      split
      · exact .inl rfl
      · next l _ =>
        refine .inr ⟨l, ?_⟩
        rcases hl : s.useLeaf a asid need l va with ⟨s₁, f | ⟨l₁, pas, _ | lost⟩⟩
        · by_cases hf : f.isHold = true
          · exact .inr (.inl ⟨s₁, f, rfl, if_pos hf⟩)
          · exact .inr (.inr (if_neg hf))
        · exact .inl ⟨s₁, l₁, pas, rfl, rfl⟩
        · exact .inr (.inr rfl)

theorem lasting_translateFresh (s : State) (a : Where) (asid : BitVec 12) (need : Need) (va : Nat) :
    (s.translateFresh a asid need va).1.lasting = s.lasting := by
  have hwalk := lasting_walk s a asid va (!need.now)
  unfold State.translateFresh
  generalize s.walk a asid va (!need.now) = r at hwalk ⊢
  obtain ⟨s₁, f | l⟩ := r
  · exact hwalk
  · exact (lasting_useLeaf s₁ a asid need l va).trans hwalk

/-- R118 to R121: a translation moves the caches, the A bits of leaves and what its requests move, and nothing else. -/
theorem lasting_translate (s : State) (a : Where) (asid : BitVec 12) (need : Need) (va : Nat) :
    (s.translate a asid need va).1.lasting = s.lasting := by
  obtain ⟨f, h⟩ | h | ⟨l, ⟨s₁, l₁, pas, hu, h⟩ | ⟨s₁, f, hu, h⟩ | h⟩ := translate_cases s a asid need va
  · rw [h]
  · rw [h, lasting_translateFresh]
  · rw [h, ← lasting_useLeaf s a asid need l va, hu]
  · rw [h, ← lasting_useLeaf s a asid need l va, hu]
  · rw [h, lasting_translateFresh, lasting_dropLeaf, lasting_useLeaf]

end Sys2Proof.Machine
end

