-- ==== Sys2Proof/Proofs/RequestBytes.lean ====
section
/-! PROOFS. The bytes of memory that a line request and a translation leave (spec/02 R37, R39, R53). -/

namespace Sys2Proof.Machine

/-! ### Bytes outside the carve-outs

A request writes metadata bytes and lichen entries alone (R37, R39, R53). -/

theorem mem_setDie (s : State) (d : BitVec 2) (x : Die) : (s.setDie d x).mem = s.mem := by
  unfold State.setDie
  split
  · rfl
  · split
    · rfl
    · split <;> rfl

theorem winSize_lt (die : Nat) : winSize die < 2 ^ 41 := by
  unfold winSize
  split
  · decide
  · split <;> decide

/-- The metadata byte of a line outside the carve-outs lies in a carve-out (R53, Table 2-1). -/
theorem inCarve_metaPa {pa : Nat} (hlocal : isLocal pa = true) (h : inCarve pa = false) (hown : isOwn pa = true) : inCarve (metaPa pa).1 = true := by
  have hown' : pa < 2 ^ 52 := of_decide_eq_true hown
  have hwin : winOff pa < winSize (dieOf pa) := of_decide_eq_true hlocal
  have hdie : dieOf pa < 2 ∨ 2 ≤ dieOf pa ∧ dieOf pa < 4 := by
    by_cases h4 : dieOf pa < 4
    · omega
    · simp [winSize, h4, show ¬ dieOf pa < 2 by omega] at hwin
  have hbase : basePa pa = pa := Nat.mod_eq_of_lt hown'
  have hlow : winOff pa < carveBase (dieOf pa) := by simpa [inCarve, hbase, hlocal] using h
  have hoff : winOff pa / 2 ^ 15 * 128 + pa / 128 % 256 / 2 + carveBase (dieOf pa) < winSize (dieOf pa) := by
    rcases hdie with hd | ⟨hd, hd4⟩
    · simp only [winSize, carveBase, if_pos hd] at hlow ⊢
      omega
    · simp only [winSize, carveBase, if_neg (Nat.not_lt.2 hd), if_pos hd4] at hlow ⊢
      omega
  generalize hx : (metaPa pa).1 = x
  have hx' : x = dieOf pa * 2 ^ 41 + (carveBase (dieOf pa) + (winOff pa / 2 ^ 15 * 128 + pa / 128 % 256 / 2)) := by
    rw [← hx, metaPa, metaLine]; omega
  have hsize : winSize (dieOf pa) < 2 ^ 41 := winSize_lt (dieOf pa)
  have hxdie : dieOf x = dieOf pa := by rw [dieOf, hx']; omega
  have hxoff : winOff x = carveBase (dieOf pa) + (winOff pa / 2 ^ 15 * 128 + pa / 128 % 256 / 2) := by rw [winOff, hx']; omega
  have hxbase : basePa x = x := Nat.mod_eq_of_lt (by rw [hx', paSize]; omega)
  simp only [inCarve, hxbase, isLocal, hxdie, hxoff, Bool.and_eq_true, decide_eq_true_eq]
  omega

/-- The bytes of a lichen entry lie in a carve-out (R38, Table 2-1). -/
theorem inCarve_lichenPa {die group i : Nat} (hdie : die < 2) (hgroup : group < groupCount) (hi : i < 2) : inCarve (lichenPa die group + i) = true := by
  generalize hx : lichenPa die group + i = x
  have hx' : x = die * 2 ^ 41 + (0x17FFE800000 + 2 * group + i) := by rw [← hx, lichenPa, lichenBase]; omega
  unfold groupCount at hgroup
  have hxdie : dieOf x = die := by rw [dieOf, hx']; omega
  have hxoff : winOff x = 0x17FFE800000 + 2 * group + i := by rw [winOff, hx']; omega
  have hxbase : basePa x = x := Nat.mod_eq_of_lt (by rw [hx', paSize]; omega)
  simp only [inCarve, hxbase, isLocal, hxdie, hxoff, Bool.and_eq_true, decide_eq_true_eq, winSize, carveBase, if_pos hdie]
  omega

theorem mem_lichenLookup (s : State) (die : BitVec 2) (block : Nat) : (s.lichenLookup die block).mem = s.mem := by
  unfold State.lichenLookup
  split
  · rfl
  · simp only []
    split
    · exact mem_setDie s _ _
    · split <;> exact mem_setDie s _ _

theorem mem_lookupLine (s : State) (pa : Nat) : (s.lookupLine pa).mem = s.mem := by
  unfold State.lookupLine
  split
  · exact mem_lichenLookup s _ _
  · rfl

theorem mem_cellsAt {x : Nat} {bs : List Byte} {p : Nat × Byte} (h : p ∈ cellsAt x bs) : ∃ i < bs.length, p.1 = x + i := by
  obtain ⟨q, hq, rfl⟩ := List.mem_map.1 h
  exact ⟨q.1, List.mem_range.1 (List.of_mem_zip hq).1, rfl⟩

section
variable {a : Nat} (ha : inCarve a = false)
include ha

theorem byte_setLichen (s : State) {die group : Nat} (hdie : die < 2) (hgroup : group < groupCount) (e : Lichen) :
    (s.setLichen die group e).byte a = s.byte a := by
  refine byte_setBytes_other (fun p hp he => ?_) s
  obtain ⟨i, hi, hpi⟩ := mem_cellsAt hp
  rw [← he, hpi, inCarve_lichenPa hdie hgroup (by simpa [bytesOf] using hi)] at ha
  cases ha

theorem byte_countingAccess (s : State) (die : BitVec 2) (group m : Nat) (pin : Bool) (tier : Nat) :
    (s.countingAccess die group m pin tier).byte a = s.byte a := by
  unfold State.countingAccess
  simp only []
  split
  · rfl
  · next hguard =>
    simp only [Bool.or_eq_true, decide_eq_true_eq, not_or, Nat.not_le] at hguard
    obtain ⟨⟨hdie, -⟩, hgroup⟩ := hguard
    split
    · exact byte_of_mem (mem_setDie s _ _) a
    · have hlichen := byte_setLichen ha s hdie hgroup
      split
      · split <;> exact (byte_of_mem (mem_setDie _ _ _) a).trans (hlichen _)
      · exact hlichen _

theorem byte_setMetaCode (s : State) {pa : Nat} (hlocal : isLocal pa = true) (hord : inCarve pa = false) (hown : isOwn pa = true) (code : Nat) :
    (s.setMetaCode pa code).byte a = s.byte a := by
  have hne : a ≠ (metaPa pa).1 := fun he => by rw [he, inCarve_metaPa hlocal hord hown] at ha; cases ha
  unfold State.setMetaCode
  rcases hm : metaPa pa with ⟨x, hi⟩
  rw [hm] at hne
  exact (byte_setByte s x a _).trans (if_neg hne)

theorem byte_writeBack (s : State) (pa : Nat) : (s.writeBack pa).byte a = s.byte a := by
  have hlines (t : State) (xs ys : List Nat) : ({ t with dirty := xs, cmpLines := ys } : State).byte a = t.byte a := rfl
  unfold State.writeBack
  simp only []
  split
  · rfl
  · next hguard =>
    simp only [Bool.or_eq_true, Bool.not_eq_true', not_or, Bool.not_eq_false, Bool.not_eq_true] at hguard
    obtain ⟨⟨hown, hlocal⟩, hord⟩ := hguard
    rw [byte_setMetaCode ha _ hlocal hord hown, hlines]
    split
    · rw [byte_of_mem (mem_lookupLine _ _)]
    · rw [byte_of_mem (mem_lookupLine _ _), byte_of_mem (mem_lookupLine _ _)]

theorem byte_fillLine (s : State) (die : BitVec 2) (line n : Nat) (low : Bool) : (s.fillLine die line n low).byte a = s.byte a := by
  unfold State.fillLine
  split
  exact (foldl_keeps (State.byte · a) (fun t l _ => ite_keeps (State.byte · a) (byte_writeBack ha t l)) _).trans (byte_of_mem (mem_setDie s _ _) a)

theorem byte_consultMeta (s : State) (pa : Nat) : (s.consultMeta pa).byte a = s.byte a := by
  unfold State.consultMeta
  simp only []
  split
  · rfl
  · split
    · exact byte_fillLine ha s _ _ _ _
    · rw [byte_fillLine ha]
      exact byte_of_mem ((mem_lookupLine _ _).trans (mem_setDie s _ _)) a

/-- R37: a line request changes no byte outside the carve-outs. -/
theorem byte_lineRequest (s : State) (r : LineReq) (pa : Nat) : (s.lineRequest r pa).byte a = s.byte a := by
  have hcounts (t : State) (die : BitVec 2) (block group m : Nat) (pin : Bool) (tier : Nat) :
      ((t.lichenLookup die block).countingAccess die group m pin tier).byte a = t.byte a := by
    rw [byte_countingAccess ha, byte_of_mem (mem_lichenLookup t _ _)]
  unfold State.lineRequest
  simp only []
  split
  · rfl
  · generalize hs₁ : (if r.write then ({ s with cmpLines := _ } : State) else s) = s₁
    have h₁ : s₁.byte a = s.byte a := hs₁ ▸ ite_keeps (State.byte · a) rfl
    rw [← h₁]
    split
    · exact byte_fillLine ha s₁ _ _ _ _
    · exact (ite_keeps (State.byte · a) (byte_fillLine ha _ _ _ _ _)).trans
        ((ite_keeps (State.byte · a) (byte_consultMeta ha _ _)).trans (ite_keeps (State.byte · a) (hcounts _ _ _ _ _ _ _)))

end

end Sys2Proof.Machine
end

