-- ==== Sys2Proof/Proofs/Jumps.lean ====
section
/-! PROOFS. O12: jumps, calls, returns and branches (spec/12 R315 to R317, spec/11 R281, R282, spec/01 R12). -/

namespace Sys2Proof.Machine

/-! ## Actions that stop, and actions that read first -/

/-- A meaning whose action raises a trap, whatever it has changed before, takes the trap. -/
theorem outcome_of_trap {a : Act Unit} {s s₁ : State} {t : Trap} (h : runAct a s = (.error (.trap t), s₁)) :
    Act.outcome a s = .next (s₁.takeTrap t) := by
  have h' : a.run.run s = (.error (.trap t), s₁) := h
  simp only [Act.outcome, Act.state, h']

/-- Actions that run alike have one outcome. -/
theorem outcome_congr {a b : Act Unit} {s t : State} (h : runAct a s = runAct b t) : Act.outcome a s = Act.outcome b t := by
  have h' : a.run.run s = b.run.run t := h
  simp only [Act.outcome, Act.state, h']

theorem runAct_bind_gives {α β : Type} {a : Act α} {f : α → Act β} {s : State} {x : α} (h : Gives a s x) :
    runAct (a >>= f) s = runAct (f x) s := by
  unfold Gives Does at h
  simp [h]

theorem runAct_bind_error {α β : Type} {a : Act α} {f : α → Act β} {s s₁ : State} {e : Stop} (h : runAct a s = (.error e, s₁)) :
    runAct (a >>= f) s = (.error e, s₁) := by
  simp [h]

theorem does_pure {α : Type} (x : α) (s : State) : Does (pure x) s x s := act_pure x s

theorem does_modify (f : State → State) (s : State) : Does (modify f) s () (f s) := act_modify f s

/-! ## Targets (R281, R286) -/

/-- R286: the target that a branch word forms is its own address plus four times its signed offset. -/
theorem target_eq {n : Nat} (s : State) (off : BitVec n) : s.target off = targetOf s off.toInt := by
  have hoff : off.signExtend 64 <<< 2 = BitVec.ofInt 64 4 * BitVec.ofInt 64 off.toInt := by
    rw [BitVec.shiftLeft_eq_mul_twoPow, BitVec.mul_comm, BitVec.signExtend]
    rfl
  rw [State.target, targetOf, BitVec.ofInt_add, BitVec.ofInt_mul, hoff, BitVec.ofInt_natCast, BitVec.ofNat_toNat]

/-- R281: a target that is no multiple of 4 is refused. -/
theorem checkTarget_misaligned {x : Word64} (s : State) (h : x.toNat % 4 ≠ 0) : Raises (checkTarget x) s (s.pathTrap cILLCL 3 0) := by
  simp [Raises, checkTarget, isHeaderAt, illcl, h, State.pathTrap]

/-- R12: an aligned target outside the address space is not canonical. -/
theorem checkTarget_nonCanonical {x : Word64} (s : State) (h : x.toNat % 4 = 0) (hx : 2 ^ 56 ≤ x.toNat) :
    Raises (checkTarget x) s { cause := cTFAULT, sub := 4, lmask := s.path.mask, va := x.extractLsb' 0 56, kind := 3, level := 0xF } := by
  unfold checkTarget
  refine (runAct_bind_gives (act_get s)).trans ?_
  rw [if_pos ⟨h, hx⟩, act_trapAt, BitVec.ofNat_toNat, BitVec.setWidth_eq_extractLsb' (by decide)]
  rfl

/-- A canonical aligned target is asked whether it is a clause header (R281). -/
theorem runAct_checkTarget_canonical {x : Word64} (s : State) (h : ¬ (x.toNat % 4 = 0 ∧ vaSize ≤ x.toNat)) :
    runAct (checkTarget x) s = runAct (do if ← isHeaderAt x.toNat then pure () else illcl 3) s := by
  unfold checkTarget
  refine (runAct_bind_gives (act_get s)).trans ?_
  rw [if_neg h]

/-- R281, R282: what is read at a canonical target decides. -/
theorem runAct_isHeaderAt {va : Nat} {s s₁ : State} {y : Xlat} (h : va % 4 = 0) (hx : va < 2 ^ 56)
    (hy : s.translate s.here s.g.asid { fetch := true } va = (s₁, .ok y)) :
    runAct (isHeaderAt va) s = (.ok (bitsOf (natOf ((List.range 4).map fun i => s₁.codeByte (y.pas.headD 0 + i))) 30 2 == 3), s₁) := by
  have haligned : ¬ (va % 4 ≠ 0 ∨ vaSize ≤ va) := by unfold vaSize; omega
  unfold isHeaderAt
  rw [if_neg haligned]
  simp only [act_bind, act_stateful, act_get, hy, act_pure]

theorem runAct_checkTarget {x : Word64} {s s₁ : State} {y : Xlat} (h : x.toNat % 4 = 0) (hx : x.toNat < 2 ^ 56)
    (hy : s.translate s.here s.g.asid { fetch := true } x.toNat = (s₁, .ok y)) :
    runAct (checkTarget x) s =
      if natOf ((List.range 4).map fun i => s₁.codeByte (y.pas.headD 0 + i)) / 2 ^ 30 % 4 = 3 then (.ok (), s₁)
      else (.error (.trap (s₁.pathTrap cILLCL 3 0)), s₁) := by
  rw [runAct_checkTarget_canonical s (by unfold vaSize; omega)]
  simp only [act_bind, runAct_isHeaderAt h hx hy, act_ite, beq_iff_eq, act_pure, illcl, act_trapAll, State.pathTrap]
  rfl

/-- R118: the check of a target translates, and does nothing else. -/
theorem lasting_isHeaderAt (va : Nat) (s : State) : (runAct (isHeaderAt va) s).2.lasting = s.lasting := by
  have htranslate := lasting_translate s s.here s.g.asid { fetch := true } va
  unfold isHeaderAt
  split
  · rfl
  · simp only [act_bind, act_stateful, act_get]
    generalize s.translate s.here s.g.asid { fetch := true } va = r at htranslate ⊢
    obtain ⟨s₁, f | y⟩ := r <;> exact htranslate

theorem lasting_checkTarget {x : Word64} {s s₁ : State} (h : Does (checkTarget x) s () s₁) : s₁.lasting = s.lasting := by
  by_cases hx : x.toNat % 4 = 0 ∧ vaSize ≤ x.toNat
  · have hraises := checkTarget_nonCanonical s hx.1 hx.2
    rw [Raises, h] at hraises
    cases hraises
  · have hheader := lasting_isHeaderAt x.toNat s
    rw [Does, runAct_checkTarget_canonical s hx, act_bind] at h
    generalize runAct (isHeaderAt x.toNat) s = r at h hheader
    obtain ⟨e | b, s₂⟩ := r
    · cases h
    · cases b
      · cases h
      · cases h; exact hheader

theorem path_of_lasting {s t : State} (h : t.lasting = s.lasting) : t.path = s.path := view_of_lasting State.path (fun _ => rfl) h

theorem path_setS (s : State) (n : BitVec 7) (v : Word64) : (s.setS n v).path = s.path := by
  rw [setS_eq]
  unfold State.path
  rfl

/-! ## Transfers, and branches that are taken or not -/

theorem outcome_goTo {x : Word64} {s s₁ : State} (h : Does (checkTarget x) s () s₁) :
    Act.outcome (goTo x) s = .next (s₁.transfer (x.setWidth 56)) :=
  outcome_of_does (does_bind h (does_modify _ s₁))

theorem outcome_goTo_refused {x : Word64} {s s₁ : State} {t : Trap} (h : runAct (checkTarget x) s = (.error (.trap t), s₁)) :
    Act.outcome (goTo x) s = .next (s₁.takeTrap t) :=
  outcome_of_trap (runAct_bind_error h)

theorem outcome_branch_taken {b : Bool} (hb : b = true) (x : Word64) (s : State) : Act.outcome (branch b x) s = Act.outcome (goTo x) s := by
  rw [hb]; rfl

theorem outcome_branch_notTaken {b : Bool} (hb : b = false) (x : Word64) (s : State) : Act.outcome (branch b x) s = .next (s.retire 1) := by
  rw [hb]; rfl

/-! ## What the words run -/

theorem exec_jmp (f : JForm) (s : State) : exec (.jmp f) s = Act.outcome (goTo (targetOf s f.off.toInt)) s := by
  rw [← target_eq]; rfl

theorem exec_call (f : JForm) (s : State) : exec (.call f) s = Act.outcome (call f) s := rfl

theorem exec_ret {f : YForm} {s : State} {x : Word64} (hx : Gives (readSA f.a) s x) : exec (.ret f) s = Act.outcome (goTo x) s :=
  outcome_congr (runAct_bind_gives hx)

/-- R316: the branches on x = S[SA], each taken where its test holds. -/
theorem exec_branch {i : Instr} {f : BForm} {c : Word64 → Prop} (hi : branchTest i = some (f, c)) {s : State} {x : Word64}
    (hx : Gives (readSA f.a) s x) : ∃ b : Bool, (b = true ↔ c x) ∧ exec i s = Act.outcome (branch b (targetOf s f.off.toInt)) s := by
  have hrun (test : Word64 → Bool) : Act.outcome (branchIf test f) s = Act.outcome (branch (test x) (targetOf s f.off.toInt)) s := by
    rw [← target_eq]
    exact outcome_congr ((runAct_bind_gives hx).trans (runAct_bind_gives (act_get s)))
  unfold branchTest at hi
  split at hi <;> cases hi
  · exact ⟨_, by simp [← BitVec.toNat_inj], hrun (· == 0)⟩
  · exact ⟨_, by simp [← BitVec.toNat_inj], hrun (· != 0)⟩
  · exact ⟨_, by simp [BitVec.msb_eq_toInt], hrun (·.msb)⟩
  · exact ⟨_, by simp [BitVec.msb_eq_toInt], hrun (fun y => !y.msb)⟩

/-- R317: the condition mask of an SA field is that of the statement. -/
theorem condMask_gives {s : State} {a : BitVec 7} (h : maskReadable s a) : Gives (condMask a) s (maskOfSA s a) := by
  have hbit : a.getLsbD 4 = decide (a.toNat / 16 % 2 = 1) := Nat.testBit_eq_decide_div_mod_eq
  refine gives_bind (readM_gives h) ?_
  rw [hbit, Does, act_pure]
  simp [maskOfSA, Group.mreg]

theorem exec_lany {f : BForm} {s : State} (h : maskReadable s f.a) :
    exec (.lany f) s = Act.outcome (branch (s.path.mask &&& maskOfSA s f.a != 0) (targetOf s f.off.toInt)) s := by
  rw [← target_eq]
  exact outcome_congr ((runAct_bind_gives (condMask_gives h)).trans (runAct_bind_gives (act_get s)))

theorem exec_lall {f : BForm} {s : State} (h : maskReadable s f.a) :
    exec (.lall f) s = Act.outcome (branch (s.path.mask &&& maskOfSA s f.a == s.path.mask) (targetOf s f.off.toInt)) s := by
  rw [← target_eq]
  exact outcome_congr ((runAct_bind_gives (condMask_gives h)).trans (runAct_bind_gives (act_get s)))

/-! ## CALL and LBR -/

/-- R315: a CALL whose target stands writes S[126] and transfers. -/
theorem call_does {f : JForm} {s s₁ : State} (h : Does (checkTarget (targetOf s f.off.toInt)) s () s₁) (hd : s₁.busyReg 126 = false) :
    Does (call f) s () ((s₁.setS 126 (BitVec.ofNat 64 (s.path.pc.toNat + 4 * (bodyLen s.path.header + 1)))).transfer
      ((targetOf s f.off.toInt).setWidth 56)) := by
  rw [← target_eq] at h ⊢
  have hpath : (s₁.setS 126 (BitVec.ofNat 64 s.path.nextAt)).target f.off = s.target f.off := by
    rw [State.target, State.target, path_setS, path_of_lasting (lasting_checkTarget h)]
  have hwrite : Does (writeS 126 (BitVec.ofNat 64 s.path.nextAt)) s₁ () (s₁.setS 126 (BitVec.ofNat 64 s.path.nextAt)) := by
    rw [Does, act_writeS, hd]
    rfl
  rw [← hpath]
  exact gives_bind (act_get s) (does_bind h (does_bind hwrite (does_modify _ _)))

theorem call_refused {f : JForm} {s s₁ : State} {t : Trap} (h : runAct (checkTarget (targetOf s f.off.toInt)) s = (.error (.trap t), s₁)) :
    exec (.call f) s = .next (s₁.takeTrap t) := by
  rw [← target_eq] at h
  rw [exec_call]
  exact outcome_of_trap ((runAct_bind_gives (act_get s)).trans (runAct_bind_error h))

/-- R317: an LBR that takes some lane checks its target before it splits. -/
theorem lbr_refused {f : BForm} {s s₁ : State} {t : Trap} (hm : maskReadable s f.a) (htaken : s.path.mask &&& maskOfSA s f.a ≠ 0)
    (h : runAct (checkTarget (targetOf s f.off.toInt)) s = (.error (.trap t), s₁)) : exec (.lbr f) s = .next (s₁.takeTrap t) := by
  have hgoTo : runAct (goTo (targetOf s f.off.toInt)) s = (.error (.trap t), s₁) := runAct_bind_error h
  rw [← target_eq] at h hgoTo
  refine outcome_of_trap ((runAct_bind_gives (condMask_gives hm)).trans ((runAct_bind_gives (act_get s)).trans ?_))
  simp only [htaken, if_false]
  split
  · exact hgoTo
  · exact runAct_bind_error h

/-- Settles O12: targets that stand, targets that are refused, and which are refused. -/
theorem jumps : Obligations.Jumps := by
  refine ⟨fun s s₁ => ⟨fun f h => ?_, fun f h hd => ?_, fun f x hx h => ?_, fun i f c x hi hx => ?_, fun f hm => ⟨?_, ?_, ?_, ?_⟩⟩,
    fun s s₁ t => ⟨fun f h => ⟨?_, ?_⟩, fun f x hx h => ?_, fun i f c x hi hx hc h => ?_, fun f hm h => ⟨fun hne => ⟨?_, ?_⟩, fun heq => ?_⟩⟩,
    fun s x => ⟨checkTarget_misaligned s, checkTarget_nonCanonical s, fun h hx s₁ y hy => ⟨?_, ?_⟩⟩⟩
  · rw [exec_jmp, outcome_goTo h]
  · exact outcome_of_does (call_does h hd)
  · rw [exec_ret hx, outcome_goTo h]
  · obtain ⟨b, hb, hexec⟩ := exec_branch hi hx
    rw [hexec]
    exact ⟨fun hc => outcome_branch_notTaken (Bool.eq_false_iff.2 (mt hb.1 hc)) _ s,
      fun hc h => (outcome_branch_taken (hb.2 hc) _ s).trans (outcome_goTo h)⟩
  · intro hmask
    rw [exec_lany hm, outcome_branch_notTaken (by simp [hmask])]
  · intro hmask h
    rw [exec_lany hm, outcome_branch_taken (bne_iff_ne.2 hmask), outcome_goTo h]
  · intro hmask
    rw [exec_lall hm, outcome_branch_notTaken (by simp [hmask])]
  · intro hmask h
    rw [exec_lall hm, outcome_branch_taken (by simp [hmask]), outcome_goTo h]
  · rw [exec_jmp, outcome_goTo_refused h]
  · exact call_refused h
  · rw [exec_ret hx, outcome_goTo_refused h]
  · obtain ⟨b, hb, hexec⟩ := exec_branch hi hx
    rw [hexec, outcome_branch_taken (hb.2 hc), outcome_goTo_refused h]
  · rw [exec_lany hm, outcome_branch_taken (bne_iff_ne.2 hne), outcome_goTo_refused h]
  · exact lbr_refused hm hne h
  · rw [exec_lall hm, outcome_branch_taken (by simp [heq]), outcome_goTo_refused h]
  · intro hw
    exact (runAct_checkTarget h hx hy).trans (if_pos hw)
  · intro hw
    exact (runAct_checkTarget h hx hy).trans (if_neg hw)

end Sys2Proof.Machine
end

