-- ==== Sys2Proof/Proofs/Stores.lean ====
section
/-! PROOFS. O10: which bytes a store changes (spec/02 R37, R49, spec/04 R89, R104, spec/01 R32, spec/20 R448, R458). -/

namespace Sys2Proof.Machine

/-! ## A store by any issuer -/

/-- What of a store reaches memory: carve-outs keep their contents (R37), and holes hold nothing. -/
def storable (ws : List (Nat × Byte)) : List (Nat × Byte) := ws.filter fun p => !inCarve p.1 && !isHole (basePa p.1)

theorem mem_storable {ws : List (Nat × Byte)} {p : Nat × Byte} :
    p ∈ storable ws ↔ p ∈ ws ∧ inCarve p.1 = false ∧ isHole (basePa p.1) = false := by
  simp [storable]

theorem mem_put (s : State) (ws : List (Nat × Byte)) : (s.put ws).mem = (s.setBytes (storable ws)).mem := rfl

theorem mem_store (s : State) (ws : List (Nat × Byte)) : (s.store ws).mem = (s.put ws).mem := by
  unfold State.store State.keepHost
  split <;> rfl

theorem mem_devStore (s : State) (ws : List (Nat × Byte)) : (s.devStore ws).mem = (s.put ws).mem := by
  unfold State.devStore
  simp only []
  split <;> rfl

theorem byte_put_other {ws : List (Nat × Byte)} {a : Nat} (h : (∀ p ∈ ws, p.1 ≠ a) ∨ inCarve a = true ∨ isHole (basePa a) = true) (s : State) :
    (s.put ws).byte a = s.byte a := by
  rw [byte_of_mem (mem_put s ws)]
  refine byte_setBytes_other (fun p hp he => ?_) s
  obtain ⟨hp, hcarve, hhole⟩ := mem_storable.1 hp
  rw [he] at hcarve hhole
  rcases h with h | h | h
  · exact h p hp he
  · rw [h] at hcarve; cases hcarve
  · rw [h] at hhole; cases hhole

theorem byte_put_mem {ws : List (Nat × Byte)} (hnd : (ws.map Prod.fst).Nodup) {a : Nat} {v : Byte} (h : (a, v) ∈ ws)
    (hcarve : inCarve a = false) (hhole : isHole (basePa a) = false) (s : State) : (s.put ws).byte a = v := by
  rw [byte_of_mem (mem_put s ws)]
  exact byte_setBytes_mem (hnd.sublist (List.filter_sublist.map _)) (mem_storable.2 ⟨h, hcarve, hhole⟩) s

theorem touch_group_frame (g : Group) (win home : Nat) (offs : List Nat) : ∃ w, g.touch win home offs = { g with watch := w } := by
  unfold Group.touch
  split
  · exact ⟨g.watch, rfl⟩
  · split
    · exact ⟨_, rfl⟩
    · exact ⟨g.watch, rfl⟩

theorem put_frame (s : State) (ws : List (Nat × Byte)) :
    s.put ws = { s with mem := (s.put ws).mem, g := { s.g with watch := (s.put ws).g.watch }, others := (s.put ws).others
                        soft := (s.put ws).soft, dirty := (s.put ws).dirty } := by
  obtain ⟨w, hw⟩ := touch_group_frame s.g 0 0 ((storable ws).map Prod.fst)
  have hput : s.put ws = ((({ s with mem := (s.setBytes (storable ws)).mem } : State).touch 0 0 ((storable ws).map Prod.fst)).clearPoison
      ((storable ws).map Prod.fst)).markDirty ((storable ws).map Prod.fst) := by
    rw [← setBytes_frame]; rfl
  rw [hput]
  unfold State.touch
  rw [hw]
  rfl

/-- R448: a store that the host cannot reject leaves nothing to undo of its bytes. -/
theorem store_hostStores {s : State} {ws l : List (Nat × Byte)} (hl : l ∈ (s.store ws).hostStores) {p : Nat × Byte} (hp : p ∈ l) :
    p.1 ∉ ws.map Prod.fst := by
  unfold State.store State.keepHost at hl
  split at hl
  · next hempty =>
    rw [List.isEmpty_iff.1 hempty] at hl
    cases hl
  · obtain ⟨m, -, rfl⟩ := List.mem_map.1 hl
    simpa using (List.mem_filter.1 hp).2

theorem store_frame (s : State) (ws : List (Nat × Byte)) :
    s.store ws = { s with mem := (s.store ws).mem, g := { s.g with watch := (s.store ws).g.watch }, others := (s.store ws).others
                          soft := (s.store ws).soft, dirty := (s.store ws).dirty, hostStores := (s.store ws).hostStores } := by
  unfold State.store State.keepHost
  rw [put_frame]
  split <;> rfl

/-! ## Undrained stores, and the bytes of a store instruction (R59, R104) -/

/-- What only the acknowledgements, the node's own words and completion flags see (R59, R282, R283). -/
theorem byte_awaitAcks (s : State) (addrs : List Nat) (marks : List Nat) (a : Nat) : ((s.noteOwn addrs).awaitAcks addrs marks).byte a = s.byte a := rfl

theorem byte_devStore_other {ws : List (Nat × Byte)} {a : Nat} (h : ∀ p ∈ ws, p.1 ≠ a) (s : State) : (s.devStore ws).byte a = s.byte a := by
  rw [byte_of_mem (mem_devStore s ws), byte_put_other (.inl h)]

section
variable {a : Nat} (ha : inCarve a = false)
include ha

/-- The lines of a store's leaves are requested (R41). -/
theorem byte_requests (ls : List (Nat × Word64)) (s : State) :
    (ls.foldl (fun s l => s.lineRequest { leaf := l.2, write := true } l.1) s).byte a = s.byte a :=
  foldl_keeps (State.byte · a) (fun t l _ => byte_lineRequest ha t { leaf := l.2, write := true } l.1) s

theorem byte_drainStore {us : List UoByte} (hus : ∀ u ∈ us, u.pa ≠ a) (marks : List Nat) (s : State) : (s.drainStore us marks).byte a = s.byte a := by
  have hmark (t : State) (g : Group) : ({ t with g := g } : State).byte a = t.byte a := rfl
  have hcells : ∀ p ∈ us.map fun u => (u.pa, u.val), p.1 ≠ a := by
    intro p hp
    obtain ⟨u, hu, rfl⟩ := List.mem_map.1 hp
    exact hus u hu
  unfold State.drainStore
  simp only []
  split <;> simp only [hmark, byte_awaitAcks, byte_devStore_other hcells, byte_requests ha]

theorem byte_drain {s : State} (hus : ∀ u ∈ s.g.uo, u.pa ≠ a) : s.drain.byte a = s.byte a :=
  foldl_keeps (State.byte · a) (fun t _ _ => byte_drainStore ha (fun u hu => hus u (List.mem_of_mem_filter hu)) _ t) _

theorem byte_drainFor {s : State} (hus : ∀ u ∈ s.g.uo, u.pa ≠ a) (xs : List Nat) : (s.drainFor xs).byte a = s.byte a := by
  unfold State.drainFor
  split
  · exact byte_drain ha hus
  · rfl

theorem byte_storeNow {s : State} (hus : ∀ u ∈ s.g.uo, u.pa ≠ a) {cells : List (Nat × Byte)} (hcells : ∀ p ∈ cells, p.1 ≠ a) (mark : Option Nat) :
    (s.storeNow cells mark).byte a = s.byte a := by
  have hmark (t : State) (g : Group) : ({ t with g := g } : State).byte a = t.byte a := rfl
  unfold State.storeNow
  simp only []
  split <;> simp only [hmark, byte_awaitAcks, byte_devStore_other hcells, byte_drainFor ha hus]

end

theorem byte_storeLater (s : State) (us : List UoByte) (mark : Option Nat) (a : Nat) : (s.storeLater us mark).byte a = s.byte a := rfl

/-- R235: a store joins the stream of its TWIN node, which is no byte of memory and no undrained store. -/
theorem emit_keeps {β : Type} (view : State → β) (h : ∀ (s : State) (ns : List Node), view { s with nodes := ns } = view s) (s : State)
    (lane sub : Nat) (bs : List (Nat × Byte)) : view (s.emit lane sub bs) = view s := by
  unfold State.emit
  split
  · exact h s _
  · rfl

/-- The bytes of the elements of a store, each at the places that hold it. -/
theorem ne_of_mem_cells {es : List (Elem × List Byte)} {a : Nat} (hes : ∀ e ∈ es, ∀ b ∈ e.1.bytes, a ∉ b.pas) {c : ByteAt × Byte}
    (hc : c ∈ es.flatMap fun e => e.1.bytes.zip e.2) {p : Nat} (hp : p ∈ c.1.pas) : p ≠ a := by
  obtain ⟨e, he, hc⟩ := List.mem_flatMap.1 hc
  rintro rfl
  exact hes e he c.1 (List.of_mem_zip hc).1 hp

theorem uo_requests (ls : List (Nat × Word64)) (s : State) :
    (ls.foldl (fun s l => s.lineRequest { leaf := l.2, write := true } l.1) s).g.uo = s.g.uo :=
  view_of_lasting (fun u : State => u.g.uo) (fun _ => rfl) (foldl_keeps State.lasting (fun t l _ => lasting_lineRequest t { leaf := l.2, write := true } l.1) s)

/-- R104: outside the carve-outs, a store instruction changes the bytes of its elements and of the undrained stores that it drains. -/
theorem byte_storeElems {s : State} {es : List (Elem × List Byte)} {a : Nat} (ha : inCarve a = false) (hus : ∀ u ∈ s.g.uo, u.pa ≠ a)
    (hes : ∀ e ∈ es, ∀ b ∈ e.1.bytes, a ∉ b.pas) (k : Option Nat) : (s.storeElems 0 es k).byte a = s.byte a := by
  have hcells (f : ByteAt × Byte → Bool) :
      ∀ p ∈ ((es.flatMap fun e => e.1.bytes.zip e.2).filter f).flatMap (fun c => c.1.pas.map fun p => (p, c.2)), p.1 ≠ a := by
    intro p hp
    obtain ⟨c, hc, hp⟩ := List.mem_flatMap.1 hp
    obtain ⟨x, hx, rfl⟩ := List.mem_map.1 hp
    exact ne_of_mem_cells hes (List.mem_of_mem_filter hc) hx
  have hall := hcells fun _ => true
  rw [List.filter_true] at hall
  have hemit (f : Elem × List Byte → List (Nat × Byte)) :
      (es.foldl (fun s x => s.emit x.1.lane 0 (f x)) s).byte a = s.byte a ∧ (es.foldl (fun s x => s.emit x.1.lane 0 (f x)) s).g.uo = s.g.uo :=
    ⟨foldl_keeps (State.byte · a) (fun t _ _ => emit_keeps (State.byte · a) (fun _ _ => rfl) t _ _ _) s,
      foldl_keeps (fun t : State => t.g.uo) (fun t _ _ => emit_keeps (fun t : State => t.g.uo) (fun _ _ => rfl) t _ _ _) s⟩
  unfold State.storeElems
  obtain ⟨hbyte, huo⟩ := hemit fun x => (x.1.bytes.map (·.va)).zip x.2
  simp only [ne_eq, not_true_eq_false, if_false]
  generalize es.foldl (fun s x => s.emit x.1.lane 0 ((x.1.bytes.map (·.va)).zip x.2)) s = t at hbyte huo ⊢
  rw [← huo] at hus
  rw [← hbyte]
  split
  · exact byte_storeNow ha hus (hcells _) k
  · split
    · exact byte_storeLater _ _ _ a
    · split
      · exact (byte_storeNow ha (by rw [uo_requests]; exact hus) hall k).trans (byte_requests ha _ t)
      · exact (byte_storeLater _ _ _ a).trans (byte_storeNow ha hus (hcells _) none)

/-! ## Stores through a window (R32, R114) -/

theorem mem_setWinMem (s : State) (win : Nat) (m : SMap 8) : (s.setWinMem win m).mem = s.mem := by
  unfold State.setWinMem
  split <;> rfl

/-- What a store through a window does beside its bytes: it marks watches (R114) and clears soft errors (R69). -/
theorem winStore_keeps {β : Type} (view : State → β)
    (h : ∀ (s : State) (g : Group) (gs : List Group) (xs ys : List PoisonTarget),
      view { s with g := g, others := gs, soft := xs, carried := ys } = view s)
    (s : State) (win : Nat) (ws : List (Nat × Byte)) :
    view (s.winStore win ws) = view (s.setWinMem win (ws.foldl (fun m p => m.set p.1 p.2) (s.winMem win))) := by
  unfold State.winStore
  simp only []
  generalize s.setWinMem win (ws.foldl (fun m p => m.set p.1 p.2) (s.winMem win)) = t
  split
  · exact h t _ _ t.soft t.carried
  · exact h t _ _ _ _

theorem mem_winStore (s : State) (win : Nat) (ws : List (Nat × Byte)) : (s.winStore win ws).mem = s.mem :=
  (winStore_keeps State.mem (fun _ _ _ _ _ => rfl) s win ws).trans (mem_setWinMem s win _)

/-- Through the scratchpad window the bytes go to the workgroup's scratchpad, one after another. -/
theorem scr_winStore (s : State) (ws : List (Nat × Byte)) : (s.winStore 1 ws).w.scr = ws.foldl (fun m p => m.set p.1 p.2) s.w.scr :=
  winStore_keeps (fun t : State => t.w.scr) (fun _ _ _ _ _ => rfl) s 1 ws

theorem winByte_one (s : State) (off : Nat) : s.winByte 1 off = s.w.scr.get off := rfl

theorem get_setAll_other {w : Nat} {ws : List (Nat × BitVec w)} {k : Nat} (h : ∀ p ∈ ws, p.1 ≠ k) (m : SMap w) :
    (ws.foldl (fun m p => m.set p.1 p.2) m).get k = m.get k :=
  foldl_keeps (SMap.get · k) (fun t p hp => by rw [get_set, if_neg (Ne.symm (h p hp))]) m

theorem get_setAll_mem {w : Nat} {ws : List (Nat × BitVec w)} (hnd : (ws.map Prod.fst).Nodup) {k : Nat} {v : BitVec w} (h : (k, v) ∈ ws) :
    ∀ m : SMap w, (ws.foldl (fun m p => m.set p.1 p.2) m).get k = v := by
  induction ws with
  | nil => cases h
  | cons p rest ih =>
    intro m
    rw [List.map_cons, List.nodup_cons] at hnd
    obtain ⟨hp, hnd⟩ := hnd
    rw [List.foldl_cons]
    rcases List.mem_cons.1 h with rfl | h
    · rw [get_setAll_other fun q hq he => hp (List.mem_map.2 ⟨q, hq, he⟩), get_set, if_pos rfl]
    · exact ih hnd h _

theorem setAll_wf {w : Nat} (ws : List (Nat × BitVec w)) {m : SMap w} (h : m.wf = true) : SMap.wf (ws.foldl (fun m p => m.set p.1 p.2) m) = true :=
  List.foldlRecOn (motive := fun m : SMap w => m.wf = true) ws _ h fun t ht p _ => set_wf t p.1 p.2 ht

/-- Settles O10: a store to memory, by an instruction, and through the scratchpad window. -/
theorem stores : Obligations.Stores := by
  refine ⟨fun s ws => ⟨fun a h => ?_, fun a v hnd hmem hcarve hhole => ?_, store_wf s ws, store_frame s ws,
      fun l hl p hp => store_hostStores hl hp, fun a => ?_⟩,
    fun s es k => ⟨fun a ha hus hes => byte_storeElems ha hus hes k, fun win hwin a => ?_⟩,
    fun s ws => ⟨fun off h => ?_, fun off v hnd hmem => ?_, fun h => ?_, fun a => byte_of_mem (mem_winStore s 1 ws) a⟩⟩
  · rw [byte_of_mem (mem_store s ws), byte_put_other h]
  · rw [byte_of_mem (mem_store s ws), byte_put_mem hnd hmem hcarve hhole]
  · rw [byte_of_mem (mem_devStore s ws), byte_of_mem (mem_store s ws)]
  · unfold State.storeElems
    rw [if_pos hwin]
    exact byte_of_mem (mem_winStore s win _) a
  · rw [winByte_one, winByte_one, scr_winStore, get_setAll_other h]
  · rw [winByte_one, scr_winStore, get_setAll_mem hnd hmem]
  · rw [scr_winStore]
    exact setAll_wf ws h

end Sys2Proof.Machine
end

