-- ==== Sys2Proof/Proofs/Accesses.lean ====
section
/-! PROOFS. O9: element addresses, and the access of one lane to one element through a window (spec/01 R19 to R25, R32, R33). -/

namespace Sys2Proof.Machine

/-! ## Addresses (R20, R21, R33) -/

theorem addr_eq (r : Rec) (priv : Bool) (l i k : Nat) :
    r.addr priv l i k = (r.base + swizzle r.swz (((if priv then i * 32 + l else i) * r.stride + k) % 2 ^ 64)) % 2 ^ 64 := rfl

theorem swizzle_zero (b : Nat) : swizzle 0 b = b := rfl

/-- Bit `j` of the `w` bits of `b` from `lo` on, placed at bit `hi`. -/
theorem testBit_place_bitsOf (b lo hi w j : Nat) :
    (place (bitsOf b lo w) hi w).testBit j = (decide (hi ≤ j ∧ j < hi + w) && b.testBit (j - hi + lo)) := by
  rw [place, bitsOf, Nat.mod_mod, Nat.mul_comm, Nat.testBit_two_pow_mul, Nat.testBit_mod_two_pow, Nat.testBit_div_two_pow]
  by_cases hj : hi ≤ j
  · simp [hj, show j - hi < w ↔ j < hi + w by omega]
  · simp [hj]

/-- R21, Table 1-5: a swizzle exchanges the bits that it names: `w` bits from `hi` on, each with the bit three above it. -/
theorem testBit_exchange (b hi w j : Nat) :
    (b ^^^ place (bitsOf b (hi + 3) w) hi w).testBit j = (b.testBit j ^^ (decide (hi ≤ j ∧ j < hi + w) && b.testBit (j + 3))) := by
  rw [Nat.testBit_xor, testBit_place_bitsOf]
  by_cases h : hi ≤ j ∧ j < hi + w
  · rw [show j - hi + (hi + 3) = j + 3 by omega]
  · simp [h]

/-! ## One lane and one element (R25) -/

theorem maskOf_one (l : Nat) : maskOf [l] = 1#32 <<< l := by simp [maskOf]

theorem lowLane_one : ∀ l < 32, lowLane (1#32 <<< l) = l := by decide

theorem runAct_map {α β : Type} (f : α → β) (a : Act α) (s : State) :
    runAct (f <$> a) s = match runAct a s with | (.ok x, t) => (.ok (f x), t) | (.error e, t) => (.error e, t) := by
  rw [map_eq_pure_bind, act_bind]
  rfl

/-- R25: a fault of one lane alone. -/
theorem raiseLanes_one {l : Nat} (hl : l < 32) (rank : Nat) (f : Flt) (kind : Nat) (first : Nat → Nat) (s : State) :
    Raises (raiseLanes [⟨rank, l, f⟩] kind first) s
      { cause := f.cause, sub := f.sub, lmask := 1#32 <<< l, va := BitVec.ofNat 56 (first l), kind := BitVec.ofNat 4 kind, level := f.level } := by
  simp [Raises, raiseLanes, maskOf_one, lowLane_one l hl]

section
variable {a : Access} {r : Rec} {l ix : Nat} {s : State}

theorem resolve_bad (hbad : r.bad = true) :
    Raises (resolve a r [⟨l, ix⟩]) s
      { cause := cPROT, sub := 3, lmask := 1#32 <<< l, va := BitVec.ofNat 56 (if ix < r.extent then r.addr a.priv l ix 0 else 0)
        kind := BitVec.ofNat 4 a.kind, level := 0xF } := by
  simp [Raises, resolve, hbad, maskOf_one, protBrec]

theorem resolve_oob (hgood : r.bad = false) (hix : r.extent ≤ ix) (htrap : r.oobt = true) :
    Raises (resolve a r [⟨l, ix⟩]) s { cause := cOOB, sub := 0, lmask := 1#32 <<< l, va := 0, kind := BitVec.ofNat 4 a.kind, level := 0xF } := by
  simp [Raises, resolve, hgood, Nat.not_lt.2 hix, htrap, maskOf_one]

theorem resolve_oob_sticks (hwin : a.win ≠ 0) (hgood : r.bad = false) (hix : r.extent ≤ ix) (htrap : r.oobt = false) :
    Does (resolve a r [⟨l, ix⟩]) s [] (s.stick 0) := by
  simp [Does, resolve, hgood, Nat.not_lt.2 hix, htrap, hwin, raiseLanes, runAct_map]

/-- R24: the access must be aligned, and is not. -/
def Access.misaligned (a : Access) (r : Rec) (l ix : Nat) : Prop :=
  (a.annot = true ∨ a.kind = 2) ∧ r.addr a.priv l ix 0 % min (2 ^ r.esz) 16 ≠ 0

/-- R32: some byte of the element lies at or above the window's limit. -/
def Access.beyond (a : Access) (r : Rec) (l ix : Nat) (s : State) : Prop := ∃ k, k < a.n ∧ s.winLimit a.win ≤ r.addr a.priv l ix k

/-- R69: the access reads a byte that carries a soft error. -/
def Access.soft (a : Access) (r : Rec) (l ix : Nat) (s : State) : Prop := a.kind ≠ 1 ∧ ∃ k, k < a.n ∧ s.winSoft a.win (r.addr a.priv l ix k) = true

section
variable (hwin : a.win ≠ 0) (hn : 0 < a.n) (hgood : r.bad = false) (hix : ix < r.extent)
include hwin hn hgood hix

theorem resolve_misaligned (hl : l < 32) (hmis : a.misaligned r l ix) :
    Raises (resolve a r [⟨l, ix⟩]) s { cause := cALIGN, sub := 1, lmask := 1#32 <<< l, va := BitVec.ofNat 56 (r.addr a.priv l ix 0)
                                       kind := BitVec.ofNat 4 a.kind, level := 0xF } := by
  unfold Access.misaligned at hmis
  have hraise := raiseLanes_one hl
  unfold Raises at hraise ⊢
  simp [resolve, hgood, hix, hwin, List.head?_range, hn.ne', hmis, hraise]

theorem resolve_beyond (hl : l < 32) (hmis : ¬ a.misaligned r l ix) (hbeyond : a.beyond r l ix s) :
    Raises (resolve a r [⟨l, ix⟩]) s { cause := cPROT, sub := 4, lmask := 1#32 <<< l, va := BitVec.ofNat 56 (r.addr a.priv l ix 0)
                                       kind := BitVec.ofNat 4 a.kind, level := 0xF } := by
  unfold Access.misaligned at hmis
  unfold Access.beyond at hbeyond
  have hraise := raiseLanes_one hl
  unfold Raises at hraise ⊢
  simp [resolve, hgood, hix, hwin, List.head?_range, hn.ne', hmis, hbeyond, hraise, protWindow]

theorem resolve_passes (hmis : ¬ a.misaligned r l ix) (hbeyond : ¬ a.beyond r l ix s) (hsoft : ¬ a.soft r l ix s) :
    Gives (resolve a r [⟨l, ix⟩]) s [⟨l, (List.range a.n).map fun k => ⟨r.addr a.priv l ix k, [r.addr a.priv l ix k], false, 0⟩, none⟩] := by
  unfold Access.misaligned at hmis
  unfold Access.beyond at hbeyond
  unfold Access.soft at hsoft
  simp [Gives, Does, resolve, hgood, hix, hwin, List.head?_range, hn.ne', hmis, hbeyond, hsoft, raiseLanes]

end

end

/-- Settles O9: addresses, swizzles, and the checks of one element through a window in their order. -/
theorem accesses : Obligations.Accesses := by
  refine ⟨⟨fun r l i k hswz => ?_, addr_eq, fun b j => ⟨testBit_exchange b 4 3 j, testBit_exchange b 4 2 j, testBit_exchange b 5 3 j⟩⟩,
    fun a r l ix s hwin hn hl => ⟨resolve_bad, resolve_oob,
    resolve_oob_sticks hwin, fun hgood hix => resolve_misaligned hwin hn hgood hix hl, fun hgood hix => resolve_beyond hwin hn hgood hix hl,
    fun hgood hix => resolve_passes hwin hn hgood hix⟩⟩
  · rw [addr_eq, addr_eq, hswz, swizzle_zero, swizzle_zero]
    exact ⟨by rw [Nat.add_mod_mod, Nat.add_assoc]; rfl, by rw [Nat.add_mod_mod, Nat.add_assoc]; rfl⟩

end Sys2Proof.Machine
end

