-- ==== Sys2Proof/Proofs/Transactions.lean ====
section
/-! PROOFS. O37: key-value transactions (spec/06 R146, spec/15 R387, R391 to R393, R404, R407, R408). -/

namespace Sys2Proof.Machine

/-! ## One transaction of a path (R387) -/

/-- The rest of an action goes on where its first part ended. -/
theorem outcome_bind {α : Type} {a : Act α} {f : α → Act Unit} {s t : State} {x : α} (h : Does a s x t) :
    Act.outcome (a >>= f) s = Act.outcome (f x) t := by
  rw [Does] at h
  exact outcome_congr (by rw [act_bind, h])

section
variable {α : Type} {s : State} {sub : Nat} {k : Kv α}

theorem pathKv_ok {x : α} {ws : List (Nat × List Byte)} (h : (s.runKv s.kvHere k).2 = .ok (x, ws)) :
    Does (pathKv sub k) s (.ok x) ((s.runKv s.kvHere k).1.emitAll sub ws) := by
  refine does_bind (act_stateful _ s) ?_
  rw [h]
  exact does_bind (does_modify _ _) (does_pure _ _)

theorem pathKv_error {e : KvStop} (h : (s.runKv s.kvHere k).2 = .error e) : Does (pathKv sub k) s (.error e) (s.runKv s.kvHere k).1 := by
  refine does_bind (act_stateful _ s) ?_
  rw [h]
  exact does_pure _ _

end

section
variable {i : Instr} {q : Ask} {txn : Txn} {s : State}

/-- The run of an instruction's one transaction at `s`. -/
def State.txnRun (s : State) (q : Ask) (txn : Txn) : State × Except KvStop (List (BitVec 7 × Word64) × List (Nat × List Byte)) :=
  s.runKv s.kvHere (do txn (← beginOn q.a.toNat) q)

theorem outcome_runAsk_ok {regs : List (BitVec 7 × Word64)} {ws : List (Nat × List Byte)} (h : (s.txnRun q txn).2 = .ok (regs, ws)) :
    Act.outcome (runAsk i q txn) s = .next ((regs.foldl (fun u y => u.setS y.1 y.2) ((s.txnRun q txn).1.emitAll 0 ws)).unhang.retire 3) :=
  outcome_of_does (does_bind (pathKv_ok h) (does_bind (does_modify _ _) (act_retireWork 3 _)))

theorem outcome_runAsk_fault {f : Flt} {va : Nat} {wr : Bool} (h : (s.txnRun q txn).2 = .error (.fault f va wr)) :
    Act.outcome (runAsk i q txn) s = .next ((s.txnRun q txn).1.takeTrap
      { cause := f.cause, sub := f.sub, lmask := q.active, va := BitVec.ofNat 56 va, kind := 2, level := f.level }) :=
  (outcome_bind (pathKv_error h)).trans (outcome_of_raises (act_trapAt f 2 q.active va _))

/-- The wait of a path whose transaction stands in the walker's queue: what it captured, and its mark (R387). -/
theorem outcome_runAsk_queued {on : WalkerWait} (h : (s.txnRun q txn).2 = .error (.queued on)) :
    Act.outcome (runAsk i q txn) s = .next ((s.txnRun q txn).1.park { instr := i, words := 3, on := .walker, vals := q.vals, mark := q.mark }) :=
  (outcome_bind (pathKv_error h)).trans (outcome_of_parks (act_throw _ _))

theorem outcome_runAsk_outside (h : (s.txnRun q txn).2 = .error .outside) :
    Act.outcome (runAsk i q txn) s = .next (if q.fresh then (s.txnRun q txn).1.endGrant
      else (s.txnRun q txn).1.park { instr := i, words := 3, on := .walker, vals := q.vals, mark := q.mark }) := by
  refine (outcome_bind (pathKv_error h)).trans ?_
  by_cases hf : q.fresh = true
  · rw [if_pos hf]
    exact outcome_of_holds (by rw [Holds, waitOutside, if_pos hf, act_hold])
  · rw [if_neg hf]
    exact outcome_of_parks (by rw [Parks, waitOutside, if_neg hf]; exact act_throw _ _)

end

/-! ## At issue, and from a parked path (R387) -/

theorem exec_txn {i : Instr} {l : Lane} {txn : Txn} (hi : txnForm i = some (l, txn)) (s : State) :
    exec i s = Act.outcome (transact i l txn) s := by
  unfold txnForm at hi
  split at hi <;> cases hi <;> rfl

/-- R386, R387: what stands before the transaction of an instruction at issue. -/
theorem outcome_transact {i : Instr} {l : Lane} {txn : Txn} {s : State} {active : Word32} {k : Option Nat} {a b : Word64}
    (hstart : Gives (laneStart l) s (active, k)) (hactive : active ≠ 0) (hdest : Gives (freeDest i) s ()) (ha : Gives (readS (sregOf l.va)) s a)
    (hb : Gives (readS (sregOf l.vb)) s b) (hacked : s.allAcked (.group s.g.id) = true) (horder : Gives (orderGate i 3) s ()) :
    Act.outcome (transact i l txn) s =
      Act.outcome (runAsk i { fresh := true, mark := k, active := active, a := a, b := b, rest := [] } txn) s := by
  refine (outcome_bind hstart).trans ?_
  simp only [if_neg hactive]
  exact (outcome_bind hdest).trans ((outcome_bind ha).trans ((outcome_bind hb).trans
    ((outcome_bind (awaitPerformed_gives hacked)).trans (outcome_bind horder))))

/-- The walker's event of a transaction instruction serves a path that waits in it. -/
theorem exec_txnEvent {i e : Instr} {l : Lane} {txn : Txn} {g : GroupId} {slot : Bool} (hi : txnForm i = some (l, txn))
    (he : txnEvent g slot i = some e) (s : State) :
    ∃ pick : Instr → Ask → Option (Act Unit), exec e s = resumeAsk g slot pick s ∧ ∀ q, pick i q = some (runAsk i q txn) := by
  unfold txnForm at hi
  split at hi <;> cases hi <;> cases he
  · exact ⟨_, Eq.refl (execKvForkTransaction g slot s), fun _ => rfl⟩
  · exact ⟨_, Eq.refl (execKvReleaseTransaction g slot s), fun _ => rfl⟩
  · exact ⟨_, Eq.refl (execKvLookupTransaction g slot s), fun _ => rfl⟩
  · exact ⟨_, Eq.refl (execKvAmassTransaction g slot s), fun _ => rfl⟩
  · exact ⟨_, Eq.refl (resumePin g slot s), fun _ => rfl⟩
  · exact ⟨_, Eq.refl (resumeUnpin g slot s), fun _ => rfl⟩

theorem withGroup_congr {s t : State} {g : GroupId} {slot : Bool} (h : s.exchange g slot = some t) {f f' : State → State} (hf : f t = f' t) :
    s.withGroup g slot f = s.withGroup g slot f' := by
  unfold State.withGroup
  simp only [h, hf]

/-- A parked path at its turn goes on with the action that serves it, its wait ended. -/
theorem resumes_of_outcome {e : Instr} {s t u : State} {g : GroupId} {slot : Bool} {w : Wait} {a : Act Unit}
    {pick : Instr → Ask → Option (Act Unit)} (he : exec e s = resumeAsk g slot pick s) (ht : s.atPath g slot t) (hw : t.askNow = some w)
    (hpick : pick w.instr (Ask.of w) = some a) (ha : Act.outcome a t.endWait = .next u) : Resumes e s g slot u := by
  have hstate : Act.state a t.endWait = u := Host.Outcome.next.inj ha
  rw [Resumes, he, resumeAsk]
  refine congrArg Host.Outcome.next (withGroup_congr ht ?_)
  simp only [hw, hpick, hstate]

end Sys2Proof.Machine
end

