-- ==== Sys2Proof/Proofs/KvInvariants.lean ====
section
/-! PROOFS. O37: what every part of a key-value transaction keeps (spec/06 R146). -/

namespace Sys2Proof.Machine

/-! ## Parts of a transaction, one after another (R146) -/

section
variable {α β : Type} {c : KvCtx} {r r' : KvRun}

theorem kvDoes_pure {x y : α} : KvDoes (pure x) c r y r' ↔ y = x ∧ r' = r := by
  constructor
  · intro h
    cases h
    exact ⟨rfl, rfl⟩
  · rintro ⟨rfl, rfl⟩
    rfl

theorem kvDoes_throw {e : KvStop} {y : α} : ¬ KvDoes (throw e) c r y r' := by
  intro h
  cases h

theorem kvDoes_bind {k : Kv α} {f : α → Kv β} {y : β} :
    KvDoes (k >>= f) c r y r' ↔ ∃ x r₁, KvDoes k c r x r₁ ∧ KvDoes (f x) c r₁ y r' := by
  have hbind : (((k >>= f).run c).run).run r =
      match ((k.run c).run).run r with
      | (.ok x, t) => (((f x).run c).run).run t
      | (.error e, t) => (.error e, t) := by
    show (let q := ((k.run c).run).run r; (ExceptT.bindCont (fun x => (f x).run c) q.1).run q.2) = _
    match ((k.run c).run).run r with
    | (.ok x, t) => rfl
    | (.error e, t) => rfl
  unfold KvDoes
  rw [hbind]
  rcases ((k.run c).run).run r with ⟨e | x, t⟩
  · constructor
    · intro h
      cases h
    · rintro ⟨x, r₁, h, -⟩
      cases h
  · constructor
    · intro h
      exact ⟨x, t, rfl, h⟩
    · rintro ⟨x', r₁, h, h'⟩
      cases h
      exact h'

theorem kvDoes_get {y : KvRun} : KvDoes (get : Kv KvRun) c r y r' ↔ y = r ∧ r' = r := by
  constructor
  · intro h
    cases h
    exact ⟨rfl, rfl⟩
  · rintro ⟨rfl, rfl⟩
    rfl

theorem kvDoes_read {y : KvCtx} : KvDoes (read : Kv KvCtx) c r y r' ↔ y = c ∧ r' = r := by
  constructor
  · intro h
    cases h
    exact ⟨rfl, rfl⟩
  · rintro ⟨rfl, rfl⟩
    rfl

theorem kvDoes_set {t : KvRun} {y : PUnit} : KvDoes (set t : Kv PUnit) c r y r' ↔ r' = t := by
  constructor
  · intro h
    cases h
    rfl
  · rintro rfl
    rfl

theorem kvDoes_modify {f : KvRun → KvRun} {y : PUnit} : KvDoes (modify f : Kv PUnit) c r y r' ↔ r' = f r := by
  constructor
  · intro h
    cases h
    rfl
  · rintro rfl
    rfl

end

/-! ## What every transaction keeps

A predicate of a run that its reads, its writes and its TIER writes keep is kept by every transaction that is put together of them. -/

/-- A part of a transaction that ends keeps the predicate `I` of its run. -/
def KvKeeps {α : Type} (I : KvRun → Prop) (k : Kv α) : Prop := ∀ c r x r', KvDoes k c r x r' → I r → I r'

section
variable {α β : Type} {I : KvRun → Prop}

theorem keeps_pure (x : α) : KvKeeps I (pure x) := by
  intro c r y r' h hr
  obtain ⟨-, rfl⟩ := kvDoes_pure.1 h
  exact hr

theorem keeps_throw (e : KvStop) : KvKeeps I (throw e : Kv α) := fun _ _ _ _ h _ => absurd h kvDoes_throw

theorem keeps_fault (f : Flt) (va : Nat) (write : Bool) : KvKeeps I (kvFault f va write : Kv α) := keeps_throw _

theorem keeps_brec (va : Nat) : KvKeeps I (kvBrec va : Kv α) := keeps_fault _ _ _

theorem keeps_get : KvKeeps I (get : Kv KvRun) := by
  intro c r x r' h hr
  obtain ⟨-, rfl⟩ := kvDoes_get.1 h
  exact hr

theorem keeps_read : KvKeeps I (read : Kv KvCtx) := by
  intro c r x r' h hr
  obtain ⟨-, rfl⟩ := kvDoes_read.1 h
  exact hr

theorem keeps_bind {k : Kv α} {f : α → Kv β} (hk : KvKeeps I k) (hf : ∀ x, KvKeeps I (f x)) : KvKeeps I (k >>= f) := by
  intro c r y r' h hr
  obtain ⟨x, r₁, hx, hy⟩ := kvDoes_bind.1 h
  exact hf x c r₁ y r' hy (hk c r x r₁ hx hr)

theorem keeps_map {k : Kv α} {f : α → β} (hk : KvKeeps I k) : KvKeeps I (f <$> k) := by
  rw [map_eq_pure_bind]
  exact keeps_bind hk fun x => keeps_pure (f x)

theorem keeps_ite {p : Prop} [Decidable p] {j k : Kv α} (hj : KvKeeps I j) (hk : KvKeeps I k) : KvKeeps I (if p then j else k) := by
  split
  · exact hj
  · exact hk

/-- A check that ends the transaction where it fails. -/
theorem keeps_check {p : Prop} [Decidable p] {stop : Kv β} {k : Kv α} (hstop : KvKeeps I stop) (hk : KvKeeps I k) :
    KvKeeps I (if p then stop >>= fun _ => k else k) := keeps_ite (keeps_bind hstop fun _ => hk) hk

/-- One of two parts, and then what they have in common. -/
theorem keeps_choice {p : Prop} [Decidable p] {j k : Kv β} {f : β → Kv α} (hj : KvKeeps I j) (hk : KvKeeps I k) (hf : ∀ x, KvKeeps I (f x)) :
    KvKeeps I (if p then j >>= f else k >>= f) := keeps_ite (keeps_bind hj hf) (keeps_bind hk hf)

theorem keeps_get_bind {f : KvRun → Kv α} (h : ∀ c r x r', KvDoes (f r) c r x r' → I r → I r') : KvKeeps I (get >>= f) := by
  intro c r x r' hx hr
  obtain ⟨y, r₁, hy, hx⟩ := kvDoes_bind.1 hx
  obtain ⟨rfl, rfl⟩ := kvDoes_get.1 hy
  exact h c r₁ x r' hx hr

theorem keeps_modify {f : KvRun → KvRun} (h : ∀ r, I r → I (f r)) : KvKeeps I (modify f : Kv PUnit) := by
  intro c r x r' hx hr
  rw [kvDoes_modify.1 hx]
  exact h r hr

end

/-- A predicate of a run that a key-value access keeps, with what a transaction notes beside its accesses: its arena (R146) and the pending
old slots of its arena (R167). -/
structure KvInvariant (I : KvRun → Prop) : Prop where
  pa : ∀ need va, KvKeeps I (kvPa need va)
  writeLines : ∀ need parts va, KvKeeps I (kvWriteLines need va parts)
  tiers : ∀ tier vas, KvKeeps I (setTiers tier vas)
  arena : ∀ r x, I r → I { r with arena := x }
  oldSlots : ∀ (r : KvRun) (d : BitVec 2) (os : List OldSlot), I r → I { r with s := r.s.setDie d { r.s.die d with oldSlots := os } }

section
variable {I : KvRun → Prop}

theorem keeps_kvAhead (a : Arena) : KvKeeps I (kvAhead a) := keeps_bind keeps_read fun _ => keeps_bind keeps_get fun _ => keeps_pure _

variable (h : KvInvariant I)
include h

theorem keeps_readLines (need : Need) (lens : List Nat) : ∀ va, KvKeeps I (kvReadLines need va lens) := by
  induction lens with
  | nil => exact fun va => keeps_pure _
  | cons n rest ih =>
    exact fun va => keeps_bind (h.pa need va) fun _ => keeps_bind keeps_get fun _ =>
      keeps_check (keeps_fault _ _ _) (keeps_bind (ih _) fun _ => keeps_pure _)

theorem keeps_kvBytes (va n : Nat) : KvKeeps I (kvBytes va n) := keeps_readLines h _ _ _

theorem keeps_kvNum (va n : Nat) : KvKeeps I (kvNum va n) := keeps_bind (keeps_kvBytes h va n) fun _ => keeps_pure _

theorem keeps_kvWriteNum (va n v : Nat) : KvKeeps I (kvWriteNum va n v) := h.writeLines _ _ _

theorem keeps_openArena (w : Nat) : KvKeeps I (openArena w) :=
  keeps_bind (h.pa _ _) fun _ => keeps_check (keeps_brec _) (keeps_bind (keeps_kvNum h _ _) fun _ => keeps_check (keeps_brec _) (keeps_pure _))

theorem keeps_beginOn (w : Nat) : KvKeeps I (beginOn w) :=
  keeps_bind (keeps_openArena h w) fun _ => keeps_bind (keeps_modify fun r hr => h.arena r _ hr) fun _ => keeps_bind keeps_read fun _ =>
    keeps_bind keeps_get fun _ => keeps_check (keeps_throw _) (keeps_bind (keeps_kvAhead _) fun _ => keeps_check (keeps_throw _) (keeps_pure _))

/-! ### Pages and stacks -/

theorem keeps_readPte (a : Arena) (k : Nat) : KvKeeps I (readPte a k) :=
  keeps_bind (keeps_kvNum h _ _) fun _ => keeps_check (keeps_brec _) (keeps_pure _)

theorem keeps_writePte (a : Arena) (e : Kvpte) : KvKeeps I (writePte a e) := keeps_kvWriteNum h _ _ _

theorem keeps_namedPte (a : Arena) (k : Nat) : KvKeeps I (namedPte a k) :=
  keeps_check (keeps_brec _) (keeps_bind (keeps_readPte h _ _) fun _ => keeps_check (keeps_brec _) (keeps_pure _))

theorem keeps_stackCount (a : Arena) (n : Nat) : KvKeeps I (stackCount a n) := keeps_kvNum h _ _

theorem keeps_pushStack (a : Arena) (n v : Nat) : KvKeeps I (pushStack a n v) :=
  keeps_bind (keeps_stackCount h a n) fun _ => keeps_bind (keeps_kvWriteNum h _ _ _) fun _ => keeps_kvWriteNum h _ _ _

theorem keeps_pushOlds (a : Arena) (os : List OldSlot) : KvKeeps I (pushOlds a os) := by
  induction os with
  | nil => exact keeps_pure _
  | cons o rest ih => exact keeps_bind (keeps_pushStack h _ _ _) fun _ => keeps_bind (h.tiers _ _) fun _ => ih

theorem keeps_pushPending (a : Arena) (k : Nat) : KvKeeps I (pushPending a k) := by
  refine keeps_get_bind fun c r x r' hx hr => ?_
  obtain ⟨_, r₁, hset, hx⟩ := kvDoes_bind.1 hx
  rw [kvDoes_set.1 hset] at hx
  exact keeps_pushOlds h a _ c _ x r' hx (h.oldSlots r a.home _ hr)

theorem keeps_settlePage (a : Arena) (e : Kvpte) : KvKeeps I (settlePage a e) :=
  keeps_bind (keeps_writePte h a e) fun _ => keeps_ite
    (keeps_bind (keeps_pushPending h a _) fun _ => keeps_ite (keeps_bind (keeps_pushStack h _ _ _) fun _ => keeps_pushStack h _ _ _) (keeps_pure _))
    (keeps_pure _)

theorem keeps_pinPage (a : Arena) (e : Kvpte) : KvKeeps I (pinPage a e) :=
  keeps_bind (keeps_kvAhead a) fun _ => keeps_check (keeps_throw _) (keeps_writePte h a _)

theorem keeps_unpinPage (a : Arena) (e : Kvpte) : KvKeeps I (unpinPage a e) := keeps_settlePage h a _

theorem keeps_releasePage (a : Arena) (k : Nat) : KvKeeps I (releasePage a k) :=
  keeps_bind (keeps_readPte h a k) fun _ => keeps_check (keeps_brec _) (keeps_ite (keeps_settlePage h a _) (keeps_writePte h a _))

theorem keeps_releasePages (a : Arena) (ks : List Nat) : KvKeeps I (releasePages a ks) := by
  induction ks with
  | nil => exact keeps_pure _
  | cons k rest ih => exact keeps_bind (keeps_releasePage h a k) fun _ => ih

/-! ### Sequences -/

theorem keeps_readSeq (a : Arena) (n : Nat) : KvKeeps I (readSeq a n) :=
  keeps_bind (keeps_kvNum h _ _) fun _ => keeps_check (keeps_brec _) (keeps_pure _)

theorem keeps_writeSeq (a : Arena) (r : Seq) : KvKeeps I (writeSeq a r) := keeps_kvWriteNum h _ _ _

theorem keeps_liveSeq (a : Arena) (n : Nat) : KvKeeps I (liveSeq a n) :=
  keeps_ite (keeps_pure _) (keeps_bind (keeps_readSeq h a n) fun _ => keeps_pure _)

theorem keeps_readParent (a : Arena) (r : Seq) : KvKeeps I (readParent a r) :=
  keeps_check (keeps_brec _) (keeps_bind (keeps_readSeq h a _) fun _ => keeps_check (keeps_brec _) (keeps_pure _))

theorem keeps_lookupChain (a : Arena) (p hops : Nat) : ∀ r, KvKeeps I (lookupChain a p hops r) := by
  induction hops with
  | zero => exact fun r => keeps_pure _
  | succ n ih =>
    refine fun r => keeps_choice (keeps_kvNum h _ _) (keeps_pure _) fun k => keeps_ite ?_ ?_
    · exact keeps_check (keeps_brec _) (keeps_bind (keeps_readPte h a k) fun _ => keeps_check (keeps_brec _) (keeps_pure _))
    · exact keeps_ite (keeps_pure _) (keeps_bind (keeps_readParent h a r) fun q => ih q)

theorem keeps_lookup (a : Arena) (n p : Nat) : KvKeeps I (lookup a n p) := by
  refine keeps_bind (keeps_liveSeq h a n) fun x => ?_
  cases x with
  | none => exact keeps_pure _
  | some r => exact keeps_ite (keeps_pure _) (keeps_ite (keeps_pure _) (keeps_lookupChain h a p 4 r))

theorem keeps_lookupAll (a : Arena) (n : Nat) (ps : List Nat) : KvKeeps I (lookupAll a n ps) := by
  induction ps with
  | nil => exact keeps_pure _
  | cons p rest ih =>
    refine keeps_bind (keeps_lookup h a n p) fun x => ?_
    cases x with
    | error e => exact keeps_brec _
    | ok k => exact keeps_bind ih fun _ => keeps_pure _

theorem keeps_refsFit (a : Arena) (all ks : List Nat) : KvKeeps I (refsFit a all ks) := by
  induction ks with
  | nil => exact keeps_pure _
  | cons k rest ih => exact keeps_bind (keeps_readPte h a k) fun _ => keeps_ite (keeps_pure _) ih

theorem keeps_addRefs (a : Arena) (ks : List Nat) : KvKeeps I (addRefs a ks) := by
  induction ks with
  | nil => exact keeps_pure _
  | cons k rest ih => exact keeps_bind (keeps_readPte h a k) fun _ => keeps_bind (keeps_writePte h a _) fun _ => ih

theorem keeps_writeMap (r : Seq) (ps : List Nat) (v : Nat) : KvKeeps I (writeMap r ps v) := by
  induction ps with
  | nil => exact keeps_pure _
  | cons p rest ih => exact keeps_bind (keeps_kvWriteNum h _ _ _) fun _ => ih

theorem keeps_forkFrom (a : Arena) (c r : Seq) : KvKeeps I (forkFrom a c r) := by
  refine keeps_ite (keeps_pure _) (keeps_bind (keeps_lookupAll h a _ _) fun ks => keeps_bind (keeps_refsFit h a ks ks) fun fits =>
    keeps_ite (keeps_pure _) (keeps_bind (keeps_addRefs h a ks) fun _ => keeps_bind (keeps_writeSeq h a _) fun _ =>
      keeps_bind (keeps_writeSeq h a _) fun _ => keeps_bind (keeps_writeMap h c _ _) fun _ => ?_))
  split
  · exact keeps_bind (keeps_writeMap h c _ _) fun _ => keeps_pure _
  · exact keeps_pure _

theorem keeps_fork (a : Arena) (c s : Nat) (trap : Bool) : KvKeeps I (fork a c s trap) := by
  refine keeps_ite (keeps_pure _) (keeps_bind (keeps_readSeq h a c) fun rc => keeps_choice (keeps_pure _) (keeps_liveSeq h a s) fun parent =>
    keeps_ite (keeps_pure _) (keeps_ite (keeps_ite (keeps_fault _ _ _) (keeps_pure _)) (keeps_bind (keeps_stackCount h a 0) fun n =>
      keeps_ite (keeps_pure _) ?_)))
  cases parent with
  | none => exact keeps_bind (keeps_writeSeq h a _) fun _ => keeps_pure _
  | some r => exact keeps_forkFrom h a rc r

theorem keeps_freeSeq (a : Arena) (fuel : Nat) : ∀ r, KvKeeps I (freeSeq a fuel r) := by
  induction fuel with
  | zero => exact fun r => keeps_pure _
  | succ n ih =>
    refine fun r => keeps_choice (keeps_pure _) (keeps_map (keeps_readParent h a r)) fun parent =>
      keeps_bind (keeps_writeSeq h a _) fun _ => ?_
    cases parent with
    | none => exact keeps_pure _
    | some q => exact keeps_ite (ih _) (keeps_writeSeq h a _)

theorem keeps_releasePrefix (a : Arena) (n q : Nat) : KvKeeps I (releasePrefix a n q) := by
  refine keeps_bind (keeps_liveSeq h a n) fun x => ?_
  cases x with
  | none => exact keeps_pure _
  | some r =>
    exact keeps_bind (keeps_lookupAll h a n _) fun ks => keeps_bind (keeps_releasePages h a ks) fun _ => keeps_bind (keeps_writeSeq h a _) fun _ =>
      keeps_pure _

theorem keeps_releaseEnd (a : Arena) (n : Nat) : KvKeeps I (releaseEnd a n) := by
  refine keeps_bind (keeps_liveSeq h a n) fun x => ?_
  cases x with
  | none => exact keeps_pure _
  | some r =>
    exact keeps_bind (keeps_lookupAll h a n _) fun ks => keeps_bind (keeps_releasePages h a ks) fun _ =>
      keeps_ite (keeps_bind (keeps_freeSeq h a 4 r) fun _ => keeps_pure _) (keeps_bind (keeps_writeSeq h a _) fun _ => keeps_pure _)

theorem keeps_release (a : Arena) (mode n q : Nat) : KvKeeps I (release a mode n q) := by
  unfold release
  split
  · exact keeps_check (keeps_brec _) (keeps_bind (keeps_releasePage h a n) fun _ => keeps_pure _)
  · exact keeps_releasePrefix h a n q
  · exact keeps_releaseEnd h a n

theorem keeps_lookupRef (a : Arena) (n p : Nat) (ref : Bool) : KvKeeps I (lookupRef a n p ref) := by
  refine keeps_bind (keeps_lookup h a n p) fun x => ?_
  cases x with
  | error st => exact keeps_pure _
  | ok k =>
    exact keeps_ite (keeps_pure _) (keeps_bind (keeps_readPte h a k) fun _ => keeps_ite (keeps_pure _)
      (keeps_bind (keeps_writePte h a _) fun _ => keeps_pure _))

/-- R391 to R393, R404, R407, R408: the transaction of each instruction of one. -/
theorem keeps_txn {i : Instr} {l : Lane} {txn : Txn} (hi : txnForm i = some (l, txn)) (a : Arena) (q : Ask) : KvKeeps I (txn a q) := by
  unfold txnForm at hi
  split at hi <;> cases hi
  · exact keeps_bind (keeps_fork h a _ _ _) fun _ => keeps_pure _
  · exact keeps_bind (keeps_release h a _ _ _) fun _ => keeps_pure _
  · exact keeps_bind (keeps_lookupRef h a _ _ _) fun _ => keeps_pure _
  · exact keeps_bind (keeps_namedPte h a _) fun _ => keeps_bind (keeps_writePte h a _) fun _ => keeps_pure _
  · exact keeps_bind (keeps_namedPte h a _) fun _ => keeps_bind (keeps_pinPage h a _) fun _ => keeps_pure _
  · exact keeps_bind (keeps_namedPte h a _) fun _ => keeps_check (keeps_brec _) (keeps_bind (keeps_unpinPage h a _) fun _ => keeps_pure _)

end

end Sys2Proof.Machine
end

