-- ==== Sys2Proof/Proofs/KvWithoutEffect.lean ====
section
/-! PROOFS. O37: the loss that a transaction may meet, and what one without effect leaves (spec/04 R59, R62, spec/06 R146). -/

namespace Sys2Proof.Machine

/-! ## The member that a store could not reach (R59, R62) -/

/-- Where a translated line names a member of a peer set that does not take a store, the loss is PEERLOST. -/
def Xlat.losesPeer (x : Xlat) : Prop := ∀ f, x.lost = some f → f.cause = cPEERLOST

theorem peerAddrs_lost {s : State} {need : Need} {ms : List Member} {off : Nat} {pas : List Nat} {lost : Option Flt}
    (h : s.peerAddrs need ms off = .ok (pas, lost)) (l : Leaf) : Xlat.losesPeer ⟨l, pas, lost⟩ := by
  unfold State.peerAddrs at h
  simp only [] at h
  rintro f rfl
  split at h
  · cases h
  · split at h
    · obtain ⟨-, hlost⟩ := Prod.mk.inj (Except.ok.inj h)
      split at hlost
      · cases hlost; rfl
      · split at hlost
        · cases hlost; rfl
        · cases hlost
    · split at h
      · cases h
      · split at h <;> cases h

theorem useLeaf_lost {s t : State} {a : Where} {asid : BitVec 12} {need : Need} {l : Leaf} {va : Nat} {x : Xlat}
    (h : s.useLeaf a asid need l va = (t, .ok x)) : x.losesPeer := by
  unfold State.useLeaf at h
  simp only [] at h
  split at h
  · generalize s.peerSet a asid (ptePeerIx l.entry) false (!need.now) = r at h
    obtain ⟨s₁, f | ms⟩ := r
    · cases h
    · simp only [] at h
      split at h
      · cases h
      · split at h
        · cases h
        · next hpas =>
          split at h
          · cases h
          · cases h
            exact peerAddrs_lost hpas l
  · split at h
    · cases h
    · split at h
      · cases h
      · split at h
        · cases h
        · cases h
          rintro f ⟨⟩

theorem translateFresh_lost {s t : State} {a : Where} {asid : BitVec 12} {need : Need} {va : Nat} {x : Xlat}
    (h : s.translateFresh a asid need va = (t, .ok x)) : x.losesPeer := by
  unfold State.translateFresh at h
  generalize s.walk a asid va (!need.now) = r at h
  obtain ⟨s₁, f | l⟩ := r
  · cases h
  · exact useLeaf_lost h

theorem translate_lost {s t : State} {a : Where} {asid : BitVec 12} {need : Need} {va : Nat} {x : Xlat}
    (h : s.translate a asid need va = (t, .ok x)) : x.losesPeer := by
  obtain ⟨f, h'⟩ | h' | ⟨l, ⟨s₁, l₁, pas, hu, h'⟩ | ⟨s₁, f, hu, h'⟩ | h'⟩ := translate_cases s a asid need va
  · rw [h'] at h; cases h
  · exact translateFresh_lost (h' ▸ h)
  · rw [h'] at h; cases h; exact useLeaf_lost hu
  · rw [h'] at h; cases h
  · exact translateFresh_lost (h' ▸ h)

theorem setDirty_lost {s t : State} {a : Where} {asid : BitVec 12} {need : Need} {va : Nat} {x : Xlat}
    (h : s.setDirty a asid need va = (t, .ok (some x))) : x.losesPeer := by
  unfold State.setDirty at h
  split at h
  · cases h
  · next l _ =>
    split at h
    · cases h
    · simp only [] at h
      generalize s.orLeaf l 10 = r at h
      obtain ⟨s₁, _ | _⟩ := r
      · rcases hx : (s₁.dropLeaf a asid va).translate a asid need va with ⟨s₂, f | y⟩
        · simp only [hx] at h
          cases h
        · simp only [hx] at h
          cases h
          exact translate_lost hx
      · cases h

/-- A run has met no loss but that of a member of a peer set. -/
def KvRun.losesPeer (r : KvRun) : Prop := ∀ f va, r.lost = some (f, va) → f.cause = cPEERLOST

theorem kvDoes_flt {α : Type} {f : Flt} {va : Nat} {write : Bool} {c : KvCtx} {r r' : KvRun} {x : α} : ¬ KvDoes (kvFlt f va write) c r x r' := by
  unfold kvFlt
  split
  · exact kvDoes_throw
  · exact kvDoes_throw

/-- What a key-value access reaches: its line is translated, and the run notes that (R31, R146). -/
theorem kvXlat_does {need : Need} {va : Nat} {c : KvCtx} {r r' : KvRun} {x : Xlat} (h : KvDoes (kvXlat need va) c r x r') :
    ∃ s, r.s.translate c.place c.asid need (va / 128 * 128) = (s, .ok x) ∧ r' = { r with s := s, seen := r.seen ++ [(va / 128 * 128, need)] } := by
  simp only [kvXlat, kvDoes_bind, kvDoes_read, kvDoes_get, kvDoes_set] at h
  obtain ⟨_, _, ⟨rfl, rfl⟩, _, _, ⟨rfl, rfl⟩, -, _, rfl, h⟩ := h
  generalize State.translate _ _ _ _ _ = y at h ⊢
  obtain ⟨s, f | y⟩ := y
  · exact absurd h kvDoes_flt
  · obtain ⟨rfl, rfl⟩ := kvDoes_pure.1 h
    exact ⟨s, rfl, rfl⟩

theorem pa_keepsLoss (need : Need) (va : Nat) : KvKeeps KvRun.losesPeer (kvPa need va) := by
  intro c r x r' h hr
  simp only [kvPa, kvDoes_bind, kvDoes_modify, kvDoes_pure] at h
  obtain ⟨y, _, hx, _, _, rfl, -, rfl⟩ := h
  obtain ⟨s, -, rfl⟩ := kvXlat_does hx
  exact hr

/-- A write notes the first member that did not take it; what is noted already stays. -/
theorem losesPeer_orElse {r : KvRun} (hr : r.losesPeer) {x : Xlat} (hx : x.losesPeer) (s : State) (seen : List (Nat × Need))
    (ws : List (Nat × List Byte)) (va : Nat) :
    KvRun.losesPeer { r with s := s, seen := seen, writes := ws, lost := r.lost.orElse fun _ => x.lost.map fun f => (f, va) } := by
  intro f va' h
  rcases hlost : r.lost with _ | p
  · simp only [hlost, Option.orElse_none, Option.map_eq_some_iff] at h
    obtain ⟨f', hf, he⟩ := h
    obtain ⟨rfl, -⟩ := Prod.mk.inj he
    exact hx _ hf
  · simp only [hlost, Option.orElse_some] at h
    exact hr f va' (hlost.trans h)

theorem writeLines_keepsLoss (need : Need) (parts : List (List Byte)) : ∀ va, KvKeeps KvRun.losesPeer (kvWriteLines need va parts) := by
  induction parts with
  | nil => exact fun va => keeps_pure _
  | cons bs rest ih =>
    intro va c r x r' h hr
    simp only [kvWriteLines, kvDoes_bind, kvDoes_read, kvDoes_get] at h
    obtain ⟨_, _, ⟨rfl, rfl⟩, y, _, hx, _, _, ⟨rfl, rfl⟩, h⟩ := h
    obtain ⟨s, hy, rfl⟩ := kvXlat_does hx
    generalize hdirty : State.setDirty _ _ _ _ _ = z at h
    obtain ⟨s₁, f | z⟩ := z
    · obtain ⟨_, _, hflt, -⟩ := kvDoes_bind.1 h
      exact absurd hflt kvDoes_flt
    · obtain ⟨_, _, hset, h⟩ := kvDoes_bind.1 h
      rw [kvDoes_set.1 hset] at h
      have hz : (z.getD y).losesPeer := by
        cases z with
        | none => exact translate_lost hy
        | some w => exact setDirty_lost hdirty
      exact ih _ _ _ _ _ h (losesPeer_orElse hr hz _ _ _ _)

theorem tiers_keepsLoss (tier : Nat) (vas : List Nat) : KvKeeps KvRun.losesPeer (setTiers tier vas) := by
  induction vas with
  | nil => exact keeps_pure _
  | cons va rest ih =>
    intro c r x r' h hr
    simp only [setTiers, kvDoes_bind, kvDoes_read, kvDoes_get, kvDoes_set] at h
    obtain ⟨_, _, ⟨rfl, rfl⟩, _, _, ⟨rfl, rfl⟩, -, _, rfl, h⟩ := h
    generalize State.setTier _ _ _ _ = y at h
    obtain ⟨s, _ | f⟩ := y
    · exact ih _ _ _ _ h hr
    · exact absurd h kvDoes_flt

/-- R59, R62: a transaction meets no loss but PEERLOST. -/
theorem losesPeer_invariant : KvInvariant KvRun.losesPeer :=
  { pa := pa_keepsLoss, writeLines := writeLines_keepsLoss, tiers := tiers_keepsLoss, arena := fun _ _ hr => hr, oldSlots := fun _ _ _ hr => hr }

/-! ## What a transaction that takes no effect leaves (R31, R146) -/

/-- The registers and paths of the group at issue, its workgroup, the nodes and the pending old slots of each die are the same. -/
def State.sameStore (s t : State) : Prop :=
  t.g.sregs = s.g.sregs ∧ t.g.vregs = s.g.vregs ∧ t.g.slot0 = s.g.slot0 ∧ t.g.slot1 = s.g.slot1 ∧ t.w = s.w ∧ t.nodes = s.nodes
    ∧ ∀ d : BitVec 2, (t.die d).oldSlots = (s.die d).oldSlots

theorem die_lasting (s : State) (d : BitVec 2) : s.lasting.die d = (s.die d).lasting := by
  unfold State.die
  split
  · rfl
  · split
    · rfl
    · split <;> rfl

theorem sameStore_of_lasting {s t : State} (h : t.lasting = s.lasting) : s.sameStore t :=
  ⟨view_of_lasting (fun u => u.g.sregs) (fun _ => rfl) h, view_of_lasting (fun u => u.g.vregs) (fun _ => rfl) h,
    view_of_lasting (fun u => u.g.slot0) (fun _ => rfl) h, view_of_lasting (fun u => u.g.slot1) (fun _ => rfl) h,
    view_of_lasting State.w (fun _ => rfl) h, view_of_lasting State.nodes (fun _ => rfl) h,
    fun d => view_of_lasting (fun u => (u.die d).oldSlots) (fun u => by rw [die_lasting]; rfl) h⟩

theorem die_setDie_ne (s : State) {d e : BitVec 2} (h : e ≠ d) (x : Die) : (s.setDie d x).die e = s.die e := by
  have hthree : ∀ d e : BitVec 2, e ≠ d → d ≠ 0 → d ≠ 1 → d ≠ 2 → e = 0 ∨ e = 1 ∨ e = 2 := by decide
  unfold State.setDie
  split
  · next hd => subst hd; simp only [State.die, if_neg h]
  · split
    · next hd => subst hd; simp only [State.die, if_neg h]
    · split
      · next hd => subst hd; simp only [State.die, if_neg h]
      · next h0 h1 h2 => obtain rfl | rfl | rfl := hthree d e h h0 h1 h2 <;> rfl

/-- The queue of transactions of a die changes (R146). -/
theorem sameStore_setDie {s t : State} (h : s.sameStore t) {d : BitVec 2} {x : Die} (hx : x.oldSlots = (t.die d).oldSlots) :
    s.sameStore (t.setDie d x) := by
  obtain ⟨hsregs, hvregs, hslot0, hslot1, hw, hnodes, hold⟩ := h
  have hframe : (t.setDie d x).g = t.g ∧ (t.setDie d x).w = t.w ∧ (t.setDie d x).nodes = t.nodes := by
    unfold State.setDie
    split
    · exact ⟨rfl, rfl, rfl⟩
    · split
      · exact ⟨rfl, rfl, rfl⟩
      · split <;> exact ⟨rfl, rfl, rfl⟩
  obtain ⟨hg', hw', hnodes'⟩ := hframe
  refine ⟨by rw [hg', hsregs], by rw [hg', hvregs], by rw [hg', hslot0], by rw [hg', hslot1], hw'.trans hw, hnodes'.trans hnodes, fun e => ?_⟩
  by_cases he : e = d
  · subst he
    rw [die_setDie, hx, hold]
  · rw [die_setDie_ne t he, hold]

theorem sameStore_enterWalker {s t : State} (h : s.sameStore t) (d : BitVec 2) (w : Waiter) : s.sameStore (t.enterWalker d w) := by
  unfold State.enterWalker
  exact sameStore_setDie h rfl

theorem sameStore_leaveWalker {s t : State} (h : s.sameStore t) (d : BitVec 2) (who : Requester) : s.sameStore (t.leaveWalker d who) := by
  unfold State.leaveWalker
  simp only []
  split
  · exact h
  · exact sameStore_setDie h rfl

/-- R31, R146, R59: a run that ends without effect has kept its translations alone; one that took effect faults for a lost member only. -/
theorem sameStore_runKv {α : Type} {k : Kv α} (hk : KvKeeps KvRun.losesPeer k) {s : State} {c : KvCtx} {e : KvStop} (he : (s.runKv c k).2 = .error e)
    (hpeer : ∀ f va wr, e = .fault f va wr → f.cause ≠ cPEERLOST) : s.sameStore (s.runKv c k).1 := by
  have htranslations (xs : List (Nat × Need)) : s.sameStore (xs.foldl (fun s x => (s.translate c.place c.asid x.2 x.1).1) s) :=
    sameStore_of_lasting (foldl_keeps State.lasting (fun t x _ => lasting_translate t c.place c.asid x.2 x.1) s)
  unfold State.runKv at he ⊢
  generalize hrun : ((k.run c).run).run { s := s } = y at he ⊢
  obtain ⟨e' | a, r⟩ := y
  · simp only [] at he ⊢
    split
    · exact sameStore_enterWalker (htranslations _) _ _
    · exact sameStore_leaveWalker (htranslations _) _ _
    · exact htranslations _
  · have hr : r.losesPeer := hk c _ a r hrun (fun f va h => by cases h)
    rcases hlost : r.lost with _ | ⟨f, va⟩
    · simp only [hlost] at he
      cases he
    · simp only [hlost] at he
      cases he
      exact absurd (hr f va hlost) (hpeer f va true rfl)

/-- Settles O37: a transaction at issue, in the walker's turn, and one that takes no effect. -/
theorem transactions : Obligations.Transactions := by
  refine ⟨fun i l txn s active k a b hi hstart hactive hdest ha hb hacked horder => ?_, fun e i l txn s t g slot w hi he ht hw hinstr => ?_,
    fun s c i l txn q hi => ?_⟩
  · have hexec := (exec_txn hi s).trans (outcome_transact hstart hactive hdest ha hb hacked horder)
    exact ⟨fun regs ws h => hexec.trans (outcome_runAsk_ok h), fun on h => hexec.trans (outcome_runAsk_queued h),
      fun h => hexec.trans (outcome_runAsk_outside h), fun f va wr h => hexec.trans (outcome_runAsk_fault h)⟩
  · obtain ⟨pick, hexec, hpick⟩ := exec_txnEvent hi he s
    have hserve {u : State} (hu : Act.outcome (runAsk i (Ask.of w) txn) t.endWait = .next u) : Resumes e s g slot u :=
      resumes_of_outcome hexec ht hw (hinstr ▸ hpick (Ask.of w)) hu
    refine ⟨fun regs ws h => hserve (outcome_runAsk_ok h), fun f va wr h => hserve (outcome_runAsk_fault h), ?_⟩
    rintro (h | ⟨on, h⟩)
    · exact hserve (outcome_runAsk_outside h)
    · exact hserve (outcome_runAsk_queued h)
  · exact fun e he hpeer => sameStore_runKv (keeps_bind (keeps_beginOn losesPeer_invariant _) fun a => keeps_txn losesPeer_invariant hi a q) he hpeer

end Sys2Proof.Machine
end

