-- ==== Sys2Proof/Proofs/LoadsAndStores.lean ====
section
/-! PROOFS. O11, O27: scalar and lane loads and stores (spec/12 R313, R314, spec/13 R356, spec/04 R59, R96, R99). -/

namespace Sys2Proof.Machine

/-! ## Actions that wait at issue -/

theorem holds_bind {α β : Type} {a : Act α} {f : α → Act β} {s : State} {x : α} (h : Gives a s x) (k : Holds (f x) s) : Holds (a >>= f) s := by
  rw [Holds, runAct_bind_gives h]
  exact k

theorem holds_first {α β : Type} {a : Act α} {f : α → Act β} {s : State} (h : Holds a s) : Holds (a >>= f) s := runAct_bind_error h

/-- R59: an event that follows the stores of its path waits at issue while one of them is not performed. -/
theorem awaitPerformed_holds {s : State} (h : s.allAcked (.group s.g.id) = false) : Holds awaitPerformed s := by
  simp [Holds, awaitPerformed, h]

/-! ## The steps that scalar and lane accesses share (R25, R97, R314) -/

theorem pathMask_does {α : Type} {a : Act α} {s t : State} {x : α} (h : Does a s x t) : Does (pathMask a) s x t := by
  rw [Does] at h
  simp [Does, h]

theorem clamp_does (win scope : Nat) (any : Bool) (s : State) : Does (clamp win scope any) s () (s.clamped win scope any) :=
  act_clamp win scope any s

/-! ## Scalar loads and stores (R313, R314) -/

theorem exec_scalarLoad {i : Instr} {win : Nat} {f : MForm} (hi : scalarLoadForm i = some (win, f)) (s : State) :
    exec i s = Act.outcome (scalarLoad win f) s := by
  unfold scalarLoadForm at hi
  split at hi <;> cases hi <;> rfl

theorem exec_scalarStore {i : Instr} {win : Nat} {f : MForm} (hi : scalarStoreForm i = some (win, f)) (s : State) :
    exec i s = Act.outcome (scalarStore win f) s := by
  unfold scalarStoreForm at hi
  split at hi <;> cases hi <;> rfl

/-- R313: what a scalar load writes, given its elements: the bytes of the one element, or zero. -/
def State.scalarLoaded (s : State) (win : Nat) (es : List Elem) : Word64 :=
  BitVec.ofNat 64 (match es with | [] => 0 | e :: _ => natOf (e.bytes.map fun x => s.elemByte win x))

section
variable {win : Nat} {f : MForm} {s s₁ : State} {k : Option Nat} {ix v : Word64} {b : BitVec 128} {es : List Elem}
  (hmark : Gives (checkMark false) s k) (hix : Gives (readSA f.sx) s ix) (hb : Gives (readB f.buf.toNat) s b)
include hmark hix hb

/-- R313: a load writes the element's bytes as they stand after the access. -/
theorem scalarLoad_does (hes : Does (resolve (scalarAccess win 0 f) (s.g.recIn f.buf.toNat b) [⟨0, ix.toNat⟩]) s es s₁) (hd : s₁.busyReg f.d = false) :
    Does (scalarLoad win f) s () (((s₁.clamped win f.scope.toNat (!es.isEmpty)).setS f.d
      ((s₁.clamped win f.scope.toNat (!es.isEmpty)).scalarLoaded win es)).retire 1) := by
  refine gives_bind hmark (gives_bind hix (gives_bind hb (gives_bind (act_get s) (does_bind (pathMask_does hes)
    (does_bind (clamp_does win _ _ s₁) (gives_bind (act_get _) ?_))))))
  cases es <;> exact writeRetire_does _ _ _ 1 ((busyReg_clamped ..).trans hd)

variable (hv : Gives (readSB f.d) s v)
include hv

/-- R59, R96: an annotated store is a release. -/
theorem scalarStore_holds (hscope : f.scope ≠ 0) (hacked : s.allAcked (.group s.g.id) = false) : Holds (scalarStore win f) s := by
  refine holds_bind hmark (holds_bind hix (holds_bind hv (holds_bind hb ?_)))
  simp only [hscope, if_true, ne_eq, not_false_eq_true]
  exact holds_first (awaitPerformed_holds hacked)

theorem scalarStore_does (hacked : f.scope ≠ 0 → s.allAcked (.group s.g.id) = true)
    (hes : Does (resolve (scalarAccess win 1 f) (s.g.recIn f.buf.toNat b) [⟨0, ix.toNat⟩]) s es s₁)
    (hlost : win = 0 → Gives (storeLost es) ((s₁.clamped win f.scope.toNat (!es.isEmpty)).storeElems win
      (es.map fun e => (e, bytesOf (2 ^ f.w.toNat) v.toNat)) (markOf es k)) ()) :
    Does (scalarStore win f) s () (((s₁.clamped win f.scope.toNat (!es.isEmpty)).storeElems win
      (es.map fun e => (e, bytesOf (2 ^ f.w.toNat) v.toNat)) (markOf es k)).unhang.retire 1) := by
  refine gives_bind hmark (gives_bind hix (gives_bind hv (gives_bind hb ?_)))
  refine does_checked (fun h => awaitPerformed_gives (hacked h)) ?_
  refine gives_bind (act_get s) (does_bind (pathMask_does hes) (does_bind (clamp_does win _ _ s₁) (does_bind (does_modify _ _) ?_)))
  exact does_checked (fun h => pathMask_does (hlost h)) (act_retireWork 1 _)

end

/-- Settles O11: scalar loads, and stores that wait at issue or are performed. -/
theorem scalarMemory : Obligations.ScalarMemory := by
  refine ⟨fun i win f s s₁ k ix b es hi hmark hix hb hes hd => ?_, fun i win f s s₁ k ix v b es hi hmark hix hv hb => ⟨fun hscope hacked => ?_,
    fun hacked hes => ?_⟩⟩
  · exact ⟨(exec_scalarLoad hi s).trans (outcome_of_does (scalarLoad_does hmark hix hb hes hd)), setS_retire _ f.d _ 1⟩
  · exact (exec_scalarStore hi s).trans (outcome_of_holds (scalarStore_holds hmark hix hb hv hscope hacked))
  · intro s₂ hlost
    exact ⟨(exec_scalarStore hi s).trans (outcome_of_does (scalarStore_does hmark hix hb hv hacked hes hlost)), retire_nothing _ 1⟩

/-! ## Lane loads and stores (R356, R89) -/

theorem exec_laneLoad {i : Instr} {win : Nat} {l : Lane} (hi : laneLoadForm i = some (win, l)) (s : State) :
    exec i s = Act.outcome (laneLoad win l) s := by
  unfold laneLoadForm at hi
  split at hi <;> cases hi <;> rfl

theorem exec_laneStore {i : Instr} {win : Nat} {l : Lane} (hi : laneStoreForm i = some (win, l)) (s : State) :
    exec i s = Act.outcome (laneStore win l) s := by
  unfold laneStoreForm at hi
  split at hi <;> cases hi <;> rfl

/-- R356: what each active lane of a load takes: its element, or zero for one out of bounds. -/
def State.laneLoads (s : State) (win : Nat) (active : Word32) (es : List Elem) : List (Nat × Nat) :=
  (lanesOf active).map fun n => (n, match es.find? fun e => e.lane == n with | some e => s.elemNum win e | none => 0)

section
variable {win : Nat} {l : Lane} {s s₁ : State} {active : Word32} {k : Option Nat} {bc : Option Word64} {r : Rec} {es : List Elem}
  (hactive : Gives (activeOf l) s active) (hmark : Gives (checkMark (l.fs = 1)) s k) (hbc : Gives (broadcast l) s bc)
  (hrec : Gives (recordOf l) s r) (hindex : Gives (useSrc active true (l.bsb = 1) l.vb 1) s ())
include hactive hmark hbc hrec hindex

theorem laneLoad_does (hdest : Gives (checkV active l.vd.toNat (regsOf r.esz)) s ())
    (hes : Does (resolve (laneAccess win 0 (2 ^ r.esz) l true) r (wantsOf s l active bc)) s es s₁) :
    Does (laneLoad win l) s () ((((s₁.clamped win l.scope.toNat (!es.isEmpty)).laneLoads win active es).foldl
      (fun s p => s.loadRegs l.vd.toNat p.1 r.esz (l.type == 0) p.2) (s₁.clamped win l.scope.toNat (!es.isEmpty))).retire 3) := by
  refine gives_bind hactive (gives_bind hmark (gives_bind hbc (gives_bind hrec (gives_bind hdest (gives_bind hindex
    (gives_bind (act_get s) (does_bind hes (does_bind (clamp_does win _ _ s₁) (gives_bind (act_get _) (does_bind (does_modify _ _) ?_))))))))))
  exact act_retire 3 _

variable (hvalue : Gives (useSrc active true (l.bsc = 1) l.vc (regsOf r.esz)) s ())
include hvalue

/-- R59, R99: a lane store with a release part is a release. -/
theorem laneStore_holds (hord : l.ord.getLsbD 1 = true) (hacked : s.allAcked (.group s.g.id) = false) : Holds (laneStore win l) s := by
  refine holds_bind hactive (holds_bind hmark (holds_bind hbc (holds_bind hrec (holds_bind hindex (holds_bind hvalue (holds_first ?_))))))
  rw [releasePart, if_pos hord]
  exact awaitPerformed_holds hacked

theorem laneStore_does (hrelease : Gives (releasePart l.ord) s ())
    (hes : Does (resolve (laneAccess win 1 (2 ^ r.esz) l true) r (wantsOf s l active bc)) s es s₁)
    (hlost : win = 0 → Gives (storeLost es) ((s₁.clamped win l.scope.toNat (!es.isEmpty)).storeElems win
      (es.map fun e => (e, storeBytes (s₁.clamped win l.scope.toNat (!es.isEmpty)) l bc r.esz e.lane)) (markOf es k)) ()) :
    Does (laneStore win l) s () (((s₁.clamped win l.scope.toNat (!es.isEmpty)).storeElems win
      (es.map fun e => (e, storeBytes (s₁.clamped win l.scope.toNat (!es.isEmpty)) l bc r.esz e.lane)) (markOf es k)).unhang.retire 3) := by
  refine gives_bind hactive (gives_bind hmark (gives_bind hbc (gives_bind hrec (gives_bind hindex (gives_bind hvalue (gives_bind hrelease
    (gives_bind (act_get s) (does_bind hes (does_bind (clamp_does win _ _ s₁) (does_bind (does_modify _ _) ?_))))))))))
  exact does_checked hlost (act_retireWork 3 _)

end

/-- Settles O27: lane loads, and stores that wait at issue or are performed. -/
theorem laneLoadsAndStores : Obligations.LaneLoadsAndStores := by
  refine fun i win l s s₁ active k bc r es hactive hmark hbc hrec hindex => ⟨fun hi hdest hes => ?_, fun hi hvalue hord hacked => ?_,
    fun hi hvalue hrelease hes => ?_⟩
  · exact (exec_laneLoad hi s).trans (outcome_of_does (laneLoad_does hactive hmark hbc hrec hindex hdest hes))
  · exact (exec_laneStore hi s).trans (outcome_of_holds (laneStore_holds hactive hmark hbc hrec hindex hvalue hord hacked))
  · intro s₃ hlost
    exact (exec_laneStore hi s).trans (outcome_of_does (laneStore_does hactive hmark hbc hrec hindex hvalue hrelease hes hlost))

end Sys2Proof.Machine
end

