-- ==== Sys2Proof/Proofs/Timelines.lean ====
section
/-! PROOFS. O15: fences, hints and timelines (spec/04 R103, R104, R109, spec/08 R230, spec/10 R264, R265, spec/12 R323). -/

namespace Sys2Proof.Machine

/-! ## FENCE (R103) -/

theorem fence_starts (f : YForm) (s : State) :
    Act.outcome (fence f) s = Act.outcome (do if f.sub.getLsbD 4 then awaitPerformed
                                              retire 1) (if f.sub.getLsbD 5 then s.drain else s) := by
  unfold fence
  by_cases h : f.sub.getLsbD 5 = true
  · rw [if_pos h, if_pos h]
    exact outcome_bind (does_modify State.drain s)
  · rw [if_neg h, if_neg h]

theorem outcome_fence {f : YForm} {s : State} (h : f.sub.getLsbD 4 = true → s.allAcked (.group s.g.id) = true) :
    Act.outcome (do if f.sub.getLsbD 4 then awaitPerformed
                    retire 1) s = .next (s.retire 1) :=
  outcome_of_does (does_checked (fun hrel => awaitPerformed_gives (h hrel)) (act_retire 1 s))

theorem outcome_fence_waits {f : YForm} {s : State} (hrel : f.sub.getLsbD 4 = true) (h : s.allAcked (.group s.g.id) = false) :
    Act.outcome (do if f.sub.getLsbD 4 then awaitPerformed
                    retire 1) s = .next s.endGrant := by
  rw [if_pos hrel]
  exact outcome_of_holds (holds_first (awaitPerformed_holds h))

/-! ## PHINT (R265) -/

/-- The hint that PHINT's words name (R265). -/
def hintOf (f : YForm) (l0 l1 l2 : Word32) : Hint :=
  { hold := f.sub.getLsbD 5, vlive := l0, slive := l1.extractLsb' 0 16, splive := l2, acc := f.sub.extractLsb' 0 4, slots := f.sub.getLsbD 4 }

/-- R265: what PHINT leaves of a state in which it has retired. -/
def State.hinted (s : State) (h : Hint) : State :=
  if s.g.stop = .requested ∨ s.g.stop = .notice then { s with granted := false, g := { s.g with hint := some h, stop := .stopped } }
  else { s with g := { s.g with hint := if h.hold then some h else none } }

/-- The group's other live path is in the middle of an instruction (R264). -/
def State.otherBusy (s : State) : Prop := ∃ p, s.g.path? (!s.slot) = some p ∧ p.busy = true

theorem otherFree_iff (s : State) : ((s.g.path? (!s.slot)).map fun p => !p.busy).getD true = true ↔ ¬ s.otherBusy := by
  unfold State.otherBusy
  cases s.g.path? (!s.slot) <;> simp

theorem phint_holds {f : YForm} {l0 l1 l2 : Word32} {s : State} (hstop : s.g.stop = .requested ∨ s.g.stop = .notice) (hbusy : s.otherBusy) :
    Holds (phint f l0 l1 l2) s := by
  unfold phint
  refine holds_bind (act_get s) ?_
  simp only [otherFree_iff, hstop, hbusy, not_true, not_false_eq_true, and_self, if_true]
  exact holds_first (act_hold s)

theorem phint_does {f : YForm} {l0 l1 l2 : Word32} {s : State} (h : (s.g.stop = .requested ∨ s.g.stop = .notice) → ¬ s.otherBusy) :
    Does (phint f l0 l1 l2) s () ((s.retire 4).hinted (hintOf f l0 l1 l2)) := by
  unfold phint
  refine gives_bind (act_get s) ?_
  rw [if_neg fun hc => hc.2 ((otherFree_iff s).2 (h hc.1))]
  refine does_bind (does_modify _ s) ?_
  rw [hintOf, ← BitVec.setWidth_eq_extractLsb' (by decide), ← BitVec.setWidth_eq_extractLsb' (by decide)]
  exact does_modify _ _

/-! ## Timelines (R323, R109) -/

/-- R323: the context that SUB names. -/
theorem namedCtx_gives {s : State} {sub : BitVec 10} {c : Ctx} (h : ctxNamed s.g.die sub = some c) : Gives (namedCtx sub.toNat) s c := by
  have hchan : sub.toNat / 16 % 64 = sub.toNat / 16 := Nat.mod_eq_of_lt (by have := sub.isLt; omega)
  have hcode : ctxCode (sub.toNat % 16) = ctxOfEng (sub.toNat % 16) := rfl
  unfold ctxNamed at h
  simp only [] at h
  split at h
  · cases h
  · next hdie =>
    have hctx : ctxOf (sub.toNat % 16) (sub.toNat / 16 % 64) = some c := by rw [ctxOf, hchan, ← h, hcode]
    unfold namedCtx
    refine gives_bind (act_get s) ?_
    rw [if_neg hdie, hctx]
    exact does_pure c s

/-- Settles O15: FENCE and PHINT, and TLRD and TLWT on a context. -/
theorem fencesAndTimelines : Obligations.FencesAndTimelines := by
  refine ⟨⟨fun f s => ⟨fun h => ?_, fun hrel h => ?_⟩, fun f l0 l1 l2 s => ⟨fun hstop hbusy => ?_, fun hstop hfree => ?_, fun hstop => ?_⟩⟩,
    fun f s c _ hc => ⟨fun hd => ⟨?_, setS_retire s f.d _ 1⟩, fun n hn => ⟨fun hle => ?_, fun hlt => ?_⟩⟩⟩
  · exact (fence_starts f s).trans (outcome_fence h)
  · exact (fence_starts f s).trans (outcome_fence_waits hrel h)
  · exact outcome_of_holds (phint_holds hstop hbusy)
  · exact (outcome_of_does (phint_does fun _ => hfree)).trans (congrArg _ (if_pos (by rwa [State.retire, State.retireAt_g_stop])))
  · have hnot : ¬ (s.g.stop = .requested ∨ s.g.stop = .notice) := by
      rcases hstop with h | h <;> simp [h]
    exact (outcome_of_does (phint_does fun h => absurd h hnot)).trans (congrArg _ (if_neg (by rwa [State.retire, State.retireAt_g_stop])))
  · exact outcome_of_does (gives_bind (namedCtx_gives hc) (gives_bind (act_get s) (writeRetire_does s f.d _ 1 hd)))
  · refine outcome_of_does (gives_bind (namedCtx_gives hc) (gives_bind hn (gives_bind (act_get s) ?_)))
    rw [if_pos (show s.w.reached c n = true from decide_eq_true hle)]
    simp [Does, State.passTimeline]
  · have hnot : ¬ s.w.reached c n = true := by simp [Workgroup.reached, hlt]
    refine (outcome_bind (namedCtx_gives hc)).trans ((outcome_bind hn).trans ((outcome_bind (act_get s)).trans ?_))
    rw [if_neg hnot]
    exact outcome_of_parks (act_throw _ s)

end Sys2Proof.Machine
end

