-- ==== Sys2Proof/Proofs/Barriers.lean ====
section
/-! PROOFS. O16: barrier records and the instructions that act on them (spec/10 R274 Table 10-11, spec/12 R320 to R322). -/

namespace Sys2Proof.Machine

/-! ## Records (Table 10-11) -/

theorem barRec_test_ended {b : BarRec} (ha : b.arr = 0) (hb : b.bytes = 0) : b.test = (b.turn false, true) := if_pos ⟨ha, hb⟩

theorem barRec_test_open {b : BarRec} (h : b.arr ≠ 0 ∨ b.bytes ≠ 0) : b.test = (b, false) := if_neg (by omega)

theorem barRec_arrive_ended {b : BarRec} {x : Nat} (ha : b.arr = 1) (hx : (b.bytes + x) % 2 ^ 32 = 0) :
    b.arrive x = ({ b with lrst := false, gen := (b.gen + 1) % 65536, arr := b.npart, bytes := 0 }, true) := by
  rw [BarRec.arrive, hx]
  exact barRec_test_ended (by simp [ha]) rfl

theorem barRec_arrive_open {b : BarRec} {x : Nat} (h : b.arr ≠ 1 ∨ (b.bytes + x) % 2 ^ 32 ≠ 0) (ha : b.arr ≠ 0) :
    b.arrive x = ({ b with arr := b.arr - 1, bytes := (b.bytes + x) % 2 ^ 32 }, false) :=
  barRec_test_open (h.imp (fun h1 => by simp only; omega) id)

/-- The bytes left after a sector of `n` that were expected are what subtraction modulo 2^32 gives. -/
theorem bytes_counted {m n : Nat} (hm : m < 2 ^ 32) (hn : n ≤ m) : (m + 2 ^ 32 - n % 2 ^ 32) % 2 ^ 32 = m - n := by omega

theorem barRec_count_ended {b : BarRec} {n : Nat} (hb : b.bytes < 2 ^ 32) (ha : b.arr = 0) (hn : b.bytes = n) :
    b.count n = ({ b with lrst := false, gen := (b.gen + 1) % 65536, arr := b.npart, bytes := 0 }, true) := by
  have hleft : (b.bytes + 2 ^ 32 - n % 2 ^ 32) % 2 ^ 32 = 0 := by rw [bytes_counted hb hn.ge]; omega
  rw [BarRec.count, hleft]
  exact barRec_test_ended ha rfl

theorem barRec_count_open {b : BarRec} {n : Nat} (hb : b.bytes < 2 ^ 32) (ha : b.arr ≠ 0) (hn : n ≤ b.bytes) :
    b.count n = ({ b with bytes := b.bytes - n }, false) := by
  rw [BarRec.count, bytes_counted hb hn]
  exact barRec_test_open (.inl ha)

/-! ## The record that an instruction names (R321) -/

/-- A fault of a barrier record, with the VA and the KIND of log entry 10. -/
def State.barTrap (s : State) (c u : BitVec 8) (off : Nat) : Trap := { s.pathTrap c u off with kind := 2 }

section
variable {f : YForm} {bad : Word64 → BarRec → Bool} {s : State} {a : Word64} (ha : Gives (readSA f.a) s a)
include ha

theorem barRecord_align (h : a.toNat % 2 ^ 32 % 16 ≠ 0) : Raises (barRecord f bad) s (s.barTrap cALIGN 1 (a.toNat % 2 ^ 32)) := by
  refine raises_bind ha (raises_bind (act_get s) ?_)
  rw [if_pos h]
  exact raises_first (act_trapAt ..)

variable (haligned : a.toNat % 2 ^ 32 % 16 = 0)
include haligned

theorem barRecord_window (h : s.winLimit (f.sub.toNat % 4) < a.toNat % 2 ^ 32 + 16) :
    Raises (barRecord f bad) s (s.barTrap cPROT 4 (a.toNat % 2 ^ 32)) := by
  refine raises_bind ha (raises_bind (act_get s) ?_)
  rw [if_neg (not_not.2 haligned), if_pos h]
  exact raises_first (act_trapAt ..)

variable (hin : a.toNat % 2 ^ 32 + 16 ≤ s.winLimit (f.sub.toNat % 4))
include hin

theorem barRecord_fields (h : barReserved (s.winNum (f.sub.toNat % 4) (a.toNat % 2 ^ 32) 16) = true
      ∨ bad a (BarRec.ofNat (s.winNum (f.sub.toNat % 4) (a.toNat % 2 ^ 32) 16)) = true) :
    Raises (barRecord f bad) s (s.barTrap cPROT 3 (a.toNat % 2 ^ 32)) := by
  refine raises_bind ha (raises_bind (act_get s) ?_)
  rw [if_neg (not_not.2 haligned), if_neg (not_lt.2 hin), if_pos (by simpa using h)]
  exact raises_first (act_trapAt ..)

theorem barRecord_gives (h : ¬ (barReserved (s.winNum (f.sub.toNat % 4) (a.toNat % 2 ^ 32) 16) = true
      ∨ bad a (BarRec.ofNat (s.winNum (f.sub.toNat % 4) (a.toNat % 2 ^ 32) 16)) = true))
    (hsoft : ¬ ∃ i, i < 16 ∧ s.winSoft (f.sub.toNat % 4) (a.toNat % 2 ^ 32 + i) = true) :
    Gives (barRecord f bad) s (f.sub.toNat % 4, a.toNat % 2 ^ 32, a, BarRec.ofNat (s.winNum (f.sub.toNat % 4) (a.toNat % 2 ^ 32) 16)) := by
  have hnone : (List.range 16).find? (fun i => s.winSoft (f.sub.toNat % 4) (a.toNat % 2 ^ 32 + i)) = none :=
    List.find?_eq_none.2 fun i hi hs => hsoft ⟨i, List.mem_range.1 hi, hs⟩
  refine gives_bind ha (gives_bind (act_get s) ?_)
  rw [if_neg (not_not.2 haligned), if_neg (not_lt.2 hin), if_neg (by simpa using h), hnone]
  exact does_pure _ s

end

/-! ## The instructions (R274, R320) -/

theorem writeS_does {d : BitVec 7} (v : Word64) (s : State) (hd : s.busyReg d = false) : Does (writeS d v) s () (s.setS d v) := by
  simp [Does, hd]

section
variable {f : YForm} {s : State} {win off : Nat} {a : Word64} {b : BarRec}

theorem bari_does (h : Gives (barRecord f fun a _ => bitsOf a.toNat 32 16 == 0) s (win, off, a, b)) :
    Does (bari f) s () ((((s.wakeBarrier win (s.home win) off b.gen 2).noteArrival win ((s.wakeBarrier win (s.home win) off b.gen 2).home win) off
      false true (b.init (bitsOf a.toNat 32 16) (f.sub.getLsbD 3) (f.sub.getLsbD 2))).putBar win off
      (b.init (bitsOf a.toNat 32 16) (f.sub.getLsbD 3) (f.sub.getLsbD 2))).unhang.retire 1) :=
  gives_bind h (does_bind (does_modify _ s) (act_retireWork 1 _))

theorem barx_does (h : Gives (barRecord f fun _ _ => false) s (win, off, a, b)) :
    Does (barx f) s () ((((s.wakeBarrier win (s.home win) off b.gen 2).noteArrival win ((s.wakeBarrier win (s.home win) off b.gen 2).home win) off
      false true b.reset).putBar win off b.reset).unhang.retire 1) :=
  gives_bind h (does_bind (does_modify _ s) (act_retireWork 1 _))

/-- R59, R322: an arrival follows the group's stores; what it leaves is in the words of Table 10-11. -/
theorem bara_does (h : Gives (barRecord f fun _ b => b.arr == 0) s (win, off, a, b)) (hacked : s.allAcked (.group s.g.id) = true)
    (hd : s.busyReg f.d = false) :
    Does (bara f) s () ((((((s.setS f.d (BitVec.ofNat 64 b.gen)).noteArrival win ((s.setS f.d (BitVec.ofNat 64 b.gen)).home win) off true false
        { b with arr := b.arr - 1 }).endGeneration win ((s.setS f.d (BitVec.ofNat 64 b.gen)).home win) off b.gen
        (b.arrive (bitsOf a.toNat 32 32)).2 0).noteArrival win ((s.setS f.d (BitVec.ofNat 64 b.gen)).home win) off false
        (b.arrive (bitsOf a.toNat 32 32)).2 (b.arrive (bitsOf a.toNat 32 32)).1).putBar win off (b.arrive (bitsOf a.toNat 32 32)).1).unhang.retire 1) :=
  gives_bind h (gives_bind (awaitPerformed_gives hacked) (does_bind (writeS_does _ s hd) (does_bind (does_modify _ _) (act_retireWork 1 _))))

variable {gen : Word64}

/-- R274: the generation that a BARW names is past: it retires at once with its status. -/
theorem barw_does {st : Nat} (h : Gives (barRecord f fun _ _ => false) s (win, off, a, b)) (hgen : Gives (readSB f.d) s gen)
    (hd : s.busyReg f.d = false) (hst : barStatus b (gen.toNat % 65536) = some st) :
    Does (barw f) s () ((s.setS f.d (BitVec.ofNat 64 st)).unhang.retireAt 1 (if s.g.det && (st == 0 || st == 2) then
      maxClock s.path.clock (s.arrival win (s.home win) off).prev + 1 else s.path.clock + 1)) := by
  refine gives_bind h (gives_bind hgen (gives_bind (act_get s) ?_))
  simp only [hst]
  exact does_bind (writeS_does _ s hd) (does_modify _ _)

theorem barw_parks (h : Gives (barRecord f fun _ _ => false) s (win, off, a, b)) (hgen : Gives (readSB f.d) s gen)
    (hst : gen.toNat % 65536 = b.gen) :
    Act.outcome (barw f) s = .next
      (s.park { instr := .barw f, words := 1, on := .barrier win (s.home win) off (BitVec.ofNat 16 b.gen) f.d, vals := [] }) := by
  refine (outcome_bind h).trans ((outcome_bind hgen).trans ((outcome_bind (act_get s)).trans ?_))
  simp only [barStatus, if_pos hst]
  exact outcome_of_parks (act_throw _ s)

end

/-- Settles O16: the records of Table 10-11, the faults of R321, and the four instructions. -/
theorem barriers : Obligations.Barriers := by
  refine ⟨fun b n x ring strap => ⟨rfl, rfl, barRec_arrive_ended, barRec_arrive_open, fun hb _ => barRec_count_ended hb,
    fun hb _ => barRec_count_open hb⟩, fun f bad s a ha => ⟨barRecord_align ha, barRecord_window ha, barRecord_fields ha, barRecord_gives ha⟩,
    fun f s win off a b => ⟨fun h => outcome_of_does (bari_does h), fun h hacked hd => outcome_of_does (bara_does h hacked hd),
      fun gen h hgen hd hne => ?_, fun gen h hgen heq => barw_parks h hgen heq, fun h => outcome_of_does (barx_does h)⟩⟩
  have hst : barStatus b (gen.toNat % 65536) = some (if (gen.toNat % 65536 + 1) % 65536 = b.gen then (if b.lrst then 2 else 0) else 3) := by
    rw [barStatus, if_neg hne]
    split_ifs <;> rfl
  refine (outcome_of_does (barw_does h hgen hd hst)).trans ?_
  simp

end Sys2Proof.Machine
end

