-- ==== Sys2Proof/Proofs/NamedThings.lean ====
section
/-! PROOFS. Groups, workgroups, commands and nodes by name: what a change of the one that an identifier names leaves to be found under it
and under the others (spec/08, 09, 15). -/

namespace Sys2Proof.Machine

section
variable {α κ : Type} [BEq κ] {key : α → κ} {f : α → α}

/-- The element that a key names, after a change of it that keeps its key. -/
theorem find?_changed (hf : ∀ x, key (f x) = key x) (k : κ) (l : List α) :
    (l.map fun x => if key x == k then f x else x).find? (fun x => key x == k) = (l.find? fun x => key x == k).map f := by
  induction l with
  | nil => rfl
  | cons x l ih =>
    by_cases hx : (key x == k) = true
    · simp [hx, hf]
    · simp only [Bool.not_eq_true] at hx
      simp [hx, ih]

/-- The element that another key names is as it was. -/
theorem find?_unchanged [LawfulBEq κ] (hf : ∀ x, key (f x) = key x) {k j : κ} (hj : j ≠ k) (l : List α) :
    (l.map fun x => if key x == k then f x else x).find? (fun x => key x == j) = l.find? fun x => key x == j := by
  induction l with
  | nil => rfl
  | cons x l ih =>
    by_cases hx : (key x == k) = true
    · have hne : (key x == j) = false := by
        rw [eq_of_beq hx]
        exact beq_eq_false_iff_ne.2 hj.symm
      simp [hx, hf, hne, ih]
    · simp only [Bool.not_eq_true] at hx
      simp only [List.map_cons, hx, Bool.false_eq_true, if_false, List.find?_cons, ih]

end

/-! ## Groups -/

/-- A change of a named group changes groups alone. -/
theorem modGroup_frame (s : State) (i : GroupId) (f : Group → Group) :
    s.modGroup i f = { s with g := (s.modGroup i f).g, others := (s.modGroup i f).others } := by
  unfold State.modGroup
  split <;> rfl

theorem modGroup_group? {f : Group → Group} (hf : ∀ g, (f g).id = g.id) (s : State) (i : GroupId) :
    (s.modGroup i f).group? i = (s.group? i).map f := by
  unfold State.modGroup
  split
  · next h => simp_all [State.group?]
  · next h =>
    simp only [Bool.not_eq_true] at h
    simp only [State.group?, h, Bool.false_eq_true, if_false]
    exact find?_changed hf i s.others

theorem modGroup_group?_other {f : Group → Group} (hf : ∀ g, (f g).id = g.id) (s : State) {i j : GroupId} (hj : j ≠ i) :
    (s.modGroup i f).group? j = s.group? j := by
  unfold State.modGroup
  split
  · next h =>
    have hid : s.g.id = i := by simp_all
    have hne : (i == j) = false := beq_eq_false_iff_ne.2 hj.symm
    simp [State.group?, hf, hid, hne]
  · simp only [State.group?, find?_unchanged hf hj s.others]

/-! ## Workgroups and their commands -/

/-- A change of a named workgroup changes workgroups alone. -/
theorem modWg_frame (s : State) (i : WgId) (f : Workgroup → Workgroup) :
    s.modWg i f = { s with w := (s.modWg i f).w, otherWgs := (s.modWg i f).otherWgs } := by
  unfold State.modWg
  split <;> rfl

theorem modWg_wg? {f : Workgroup → Workgroup} (hf : ∀ w, (f w).id = w.id) (s : State) (i : WgId) :
    (s.modWg i f).wg? i = (s.wg? i).map f := by
  unfold State.modWg
  split
  · next h => simp_all [State.wg?]
  · next h =>
    simp only [Bool.not_eq_true] at h
    simp only [State.wg?, h, Bool.false_eq_true, if_false]
    exact find?_changed hf i s.otherWgs

/-! ## Nodes -/

theorem modNode_node? {f : Node → Node} (hf : ∀ n, (f n).index = n.index) (s : State) (k : Nat) :
    (s.modNode k f).node? k = (s.node? k).map f := find?_changed hf k s.nodes

theorem modNode_node?_other {f : Node → Node} (hf : ∀ n, (f n).index = n.index) (s : State) {k j : Nat} (hj : j ≠ k) :
    (s.modNode k f).node? j = s.node? j := find?_unchanged hf hj s.nodes

theorem node?_index {s : State} {k : Nat} {n : Node} (h : s.node? k = some n) : n.index = k := by
  simpa using List.find?_some h

theorem wg?_id {s : State} {i : WgId} {w : Workgroup} (h : s.wg? i = some w) : w.id = i := by
  unfold State.wg? at h
  split at h
  · next hid => simp_all
  · simpa using List.find?_some h

theorem group?_id {s : State} {i : GroupId} {g : Group} (h : s.group? i = some g) : g.id = i := by
  unfold State.group? at h
  split at h
  · next hid => simp_all
  · simpa using List.find?_some h

end Sys2Proof.Machine
end

