-- ==== Sys2Proof/Proofs/FormsThatComplete.lean ====
section
/-! PROOFS. O60: forms that complete under the conditions that the spec gives (spec/12 R330, R331, spec/03 R65, spec/09 R236, R239,
spec/20 R446, R448, R450, R453, spec/04 R57, R59, R116). -/

namespace Sys2Proof.Machine

/-! ## SRD and SWR with no soft error (R330, R331) -/

theorem isSoft_of_none {s : State} (h : s.soft = []) (t : PoisonTarget) : s.isSoft t = false := by
  simp [State.isSoft, h]

/-- A system register reads, where no register of the group bears a soft error. -/
theorem readSys_some {s : State} (h : s.soft = []) (n : Nat) : ∃ v, Gives (readSys n) s v := by
  by_cases hgroup : n < 6
  · exact ⟨_, readSys_group hgroup s⟩
  by_cases hb : 0x200 ≤ n ∧ n < 0x240
  · exact ⟨_, readSys_breg hb.1 hb.2 (isSoft_of_none h _)⟩
  by_cases hm : 0x240 ≤ n
  · obtain ⟨k, rfl⟩ := Nat.exists_eq_add_of_le hm
    exact ⟨_, readSys_mreg (isSoft_of_none h _)⟩
  have hpure : ∀ v : Word64, Gives (pure v : Act Word64) s v := fun v => does_pure v s
  unfold readSys
  refine ⟨if n = 0x40 then (s.core s.g.die s.g.core).eccLog else if n = 0x41 then s.locid else if n < 0x100 then s.readDie s.g.die n
    else s.regs.get n, gives_bind (act_get s) ?_⟩
  rw [if_neg hgroup, if_pos (show n < 0x200 by omega)]
  split_ifs <;> exact hpure _

theorem readSA_gives {s : State} {a : BitVec 7} (hsoft : s.soft = []) (hovr : s.g.ovr = none) (ha : s.busyReg a = false) :
    Gives (readSA a) s (s.g.sregs.get a.toNat) := by
  simp [Gives, Does, readSA, readS, hovr, ha, isSoft_of_none hsoft]

/-! ## Workgroups, nodes and twins (R65, R239, R236) -/

theorem exec_workgroupComplete {s : State} {w : WgId} {x : Workgroup} (hw : s.wg? w = some x) (hr : x.state = .resident)
    (hexited : s.allExited x.id = true) (hcmds : ∀ c ∈ x.cmds, c.finished = true) (hpending : s.pendingOf x.id = []) :
    exec (.workgroupComplete w) s = .next (s.wgDone x) := by
  have hready : s.wgReady x = true := by simp [State.wgReady, hr, hexited, hpending, List.all_eq_true.2 hcmds]
  change execWorkgroupComplete w s = _
  simp [execWorkgroupComplete, hw, hready]

theorem exec_nodeComplete {s : State} {n : Node} (hn : s.node? n.index = some n) (hready : n.ready = true) (hplaced : n.placed = n.w)
    (hcomplete : n.complete = n.w) (hex : n.exchanging = false) (htwin : n.twin = false) (hacked : s.nodeAcked n.index = true) :
    exec (.nodeComplete n.index) s = .next (s.doneNode n n.status) := by
  have hended : n.ended = true := by simp [Node.ended, hready, hplaced, hcomplete]
  change execNodeComplete n.index s = _
  simp [execNodeComplete, hn, hended, hex, htwin, hacked]

theorem exec_twinMessage {s : State} {node : TwinNode} {n : Node} (runs : Word32) (crc : Word64) (len : Nat) (hn : s.node? node.index = some n) :
    (s.regs.bootstat.getLsbD 8 = false → exec (.twinMessage node runs crc len) s = .next s)
      ∧ (s.regs.bootstat.getLsbD 8 = true → n.exchanging = false →
        exec (.twinMessage node runs crc len) s = .next { s with twinInbox := s.twinInbox ++ [TwinMsg.mk node.pkg node.asid node.index runs crc len] }) := by
  have hnode : ∀ l, ({ s with twinInbox := l } : State).node? node.index = some n := fun _ => hn
  refine ⟨fun h => ?_, fun h hex => ?_⟩
  all_goals change execTwinMessage node runs crc len s = _
  · simp only [execTwinMessage, h, Bool.not_false, if_true]
  · simp only [execTwinMessage, h, Bool.not_true, Bool.false_eq_true, if_false, hnode, hex]

theorem exec_twinTimeout {s : State} {node : Nat} {n : Node} (hn : s.node? node = some n) (hex : n.exchanging = true) :
    exec (.twinTimeout node) s = .next (s.endExchange n false true) := by
  change execTwinTimeout node s = _
  simp [execTwinTimeout, hn, hex]

/-! ## Requests that are served (R446, R453, R57) -/

theorem serveOrHold_serves {s : State} {h : HeldReq} {ok : Nat → Bool} {wait : Bool} {r : HostReq} (hwait : wait = false) (hswap : s.swapWaits r = false) :
    s.serveOrHold h ok wait r = s.serve ok r := by
  simp [State.serveOrHold, hwait, hswap]

theorem outside_host (s : State) (r : HostReq) :
    s.outside (.host r) = { (s.serveOrHold (.host r) isLocal (s.storeWaits r) r).1 with
      hostReplies := (s.serveOrHold (.host r) isLocal (s.storeWaits r) r).1.hostReplies ++ [(s.serveOrHold (.host r) isLocal (s.storeWaits r) r).2] } := rfl

/-- R446: bit 51 of the host's addresses has no meaning; one below 2^51 is taken as it is. -/
theorem exec_hostMemoryRequest {s : State} {r : HostReq} (hr : (reqRange r).1 < 2 ^ 51) (hbar : ∀ off n, r ≠ .bar off n) :
    exec (.hostMemoryRequest r) s = .next (if s.regs.bootstat.getLsbD 8 then ({ s with hostReplies := [] } : State).outside (.host r)
      else { s with hostReplies := [⟨.completerAbort, [], false⟩] }) := by
  change execHostMemoryRequest r s = _
  cases r with
  | bar off n => exact absurd rfl (hbar off n)
  | read pa n => simp only [execHostMemoryRequest, Nat.mod_eq_of_lt (show pa < 2 ^ 51 from hr)]; cases s.regs.bootstat.getLsbD 8 <;> rfl
  | write pa bs => simp only [execHostMemoryRequest, Nat.mod_eq_of_lt (show pa < 2 ^ 51 from hr)]; cases s.regs.bootstat.getLsbD 8 <;> rfl
  | fetchAdd pa n v => simp only [execHostMemoryRequest, Nat.mod_eq_of_lt (show pa < 2 ^ 51 from hr)]; cases s.regs.bootstat.getLsbD 8 <;> rfl
  | swap pa n v => simp only [execHostMemoryRequest, Nat.mod_eq_of_lt (show pa < 2 ^ 51 from hr)]; cases s.regs.bootstat.getLsbD 8 <;> rfl
  | cas pa n c v => simp only [execHostMemoryRequest, Nat.mod_eq_of_lt (show pa < 2 ^ 51 from hr)]; cases s.regs.bootstat.getLsbD 8 <;> rfl

/-- The addresses of PF1 (R453). -/
def pf1Reach (x : Nat) : Bool := isOwn x && ((isLocal x && !inCarve x) || isHost x)

/-- The addresses of other packages (R57). -/
def peerReach (x : Nat) : Bool := isOwn x && isLocal x && !inCarve x

theorem exec_pf1Dma (s : State) (r : HostReq) :
    exec (.pf1Dma r) s = .next (if s.regs.bootstat.getLsbD 8 then (s.serveOrHold (.pf1 r) pf1Reach (s.storeWaits r) r).1 else s) := rfl

theorem exec_peerRequest (s : State) (r : HostReq) :
    exec (.peerRequestArrival r) s = .next (if s.regs.bootstat.getLsbD 8 then (s.serveOrHold (.peer r) peerReach false r).1 else s) := rfl

section
variable {s : State} {r : HostReq} (hready : s.regs.bootstat.getLsbD 8 = true) (hswap : s.swapWaits r = false)
include hready hswap

theorem host_served (hstore : s.storeWaits r = false) (hr : (reqRange r).1 < 2 ^ 51) (hbar : ∀ off n, r ≠ .bar off n) {t : State} {reply : HostReply}
    (h : ({ s with hostReplies := [] } : State).serve isLocal r = (t, reply)) :
    exec (.hostMemoryRequest r) s = .next { t with hostReplies := t.hostReplies ++ [reply] } := by
  have hswap' : ({ s with hostReplies := [] } : State).swapWaits r = false := hswap
  have hstore' : ({ s with hostReplies := [] } : State).storeWaits r = false := hstore
  rw [exec_hostMemoryRequest hr hbar, if_pos hready, outside_host, serveOrHold_serves hstore' hswap', h]

theorem pf1_served (hstore : s.storeWaits r = false) : exec (.pf1Dma r) s = .next (s.serve pf1Reach r).1 := by
  rw [exec_pf1Dma, if_pos hready, serveOrHold_serves hstore hswap]

theorem peer_served : exec (.peerRequestArrival r) s = .next (s.serve peerReach r).1 := by
  rw [exec_peerRequest, if_pos hready, serveOrHold_serves rfl hswap]

end

/-! ## Acknowledgements (R59, R116) -/

/-- An invalidation that ends clears BUSY alone. -/
theorem endInvalidate_frame (s : State) : s.endInvalidate = { s with regs := { s.regs with tlbictl := s.endInvalidate.regs.tlbictl } } := by
  unfold State.endInvalidate
  split <;> rfl

/-- R59: the last acknowledgement of a group's store takes the store's marks from the group. -/
def State.takeAck (s : State) (a : Unacked) : State :=
  match a.issuer with
  | .group g => if s.unacked.any (fun b => b.store == a.store) then s else s.modGroup g fun x => x.unmarkAll a.marks
  | .cmd _ => s

theorem takeAck_frame (s : State) (a : Unacked) : s.takeAck a = { s with g := (s.takeAck a).g, others := (s.takeAck a).others } := by
  unfold State.takeAck
  split
  · split
    · rfl
    · exact modGroup_frame ..
  · rfl

theorem exec_peerStoreAck_none {s : State} {pkg : Nat} (h : (s.unacked.find? fun a => a.pkg == pkg) = none) : exec (.peerStoreAck pkg) s = .next s := by
  change execPeerStoreAck pkg s = _
  simp only [execPeerStoreAck, h]

/-- What an acknowledgement of the store `a` leaves, before the requests that waited are made again. -/
def State.acked (s : State) (a : Unacked) : State := (({ s with unacked := s.unacked.erase a } : State).takeAck a).endInvalidate

theorem exec_peerStoreAck {s : State} {pkg : Nat} {a : Unacked} (h : (s.unacked.find? fun a => a.pkg == pkg) = some a) :
    exec (.peerStoreAck pkg) s = .next (s.acked a).retryHeld := by
  change execPeerStoreAck pkg s = _
  simp only [execPeerStoreAck, h]
  rfl

theorem acked_frame (s : State) (a : Unacked) : s.acked a =
    { s with unacked := s.unacked.erase a, g := (s.acked a).g, others := (s.acked a).others, regs := { s.regs with tlbictl := (s.acked a).regs.tlbictl } } := by
  rw [State.acked, endInvalidate_frame, takeAck_frame]

/-! ## Stores that the host rejects (R448) -/

theorem exec_hostStoreLoss {s : State} (h : s.hostStores ≠ []) :
    ∃ j, j < s.hostStores.length ∧ exec .hostStoreLoss s = .next ((s.loseHostStore j).machineCheck 4) := by
  refine ⟨Config.lostStore s.steps % s.hostStores.length, Nat.mod_lt _ (List.length_pos_of_ne_nil h), ?_⟩
  change execHostStoreLoss s = _
  rw [execHostStoreLoss, if_neg (by simpa using h)]

/-- Settles O60: each of the forms in a state that meets its conditions. -/
theorem formsThatComplete : Obligations.FormsThatComplete := by
  refine ⟨fun f s hsoft hpriv hd => ?_, fun f s hsoft hovr ha hpriv hacked => ?_, fun s w x => exec_workgroupComplete,
    fun s n => exec_nodeComplete, fun s node n pkg asid runs crc len hn => ?_, fun s r hready hswap hstore => ?_, fun s a ha => ?_,
    fun s => exec_hostStoreLoss⟩
  · obtain ⟨v, hv⟩ := readSys_some hsoft f.sub.toNat
    exact ⟨v, hv, outcome_of_does (srd_does hpriv hv hd)⟩
  · exact outcome_of_does (swr_does hpriv (readSA_gives hsoft hovr ha) fun _ => hacked)
  · obtain ⟨hoff, hon⟩ := exec_twinMessage (node := ⟨pkg, asid, node⟩) runs crc len hn
    exact ⟨hoff, hon, exec_twinTimeout hn⟩
  · exact ⟨fun hr hbar t reply => host_served hready hswap hstore hr hbar, pf1_served hready hswap hstore, peer_served hready hswap⟩
  · exact ⟨s.acked a, exec_peerStoreAck ha, congrArg State.unacked (acked_frame s a)⟩

end Sys2Proof.Machine
end

