-- ==== Sys2Proof/Proofs/OutsideRequests.lean ====
section
/-! PROOFS. O55: requests of the host, of PF1 and of other packages, acknowledgements and lost stores (spec/20 R446 to R448, R450, R453, R457,
spec/04 R57, R59, spec/02 R37, R44). -/

namespace Sys2Proof.Machine

/-! ## Little-endian numbers (R8) -/

theorem natOf_bytesOf (n : Nat) : ∀ v, natOf (bytesOf n v) = v % 2 ^ (8 * n) := by
  induction n with
  | zero => intro v; simp [bytesOf, natOf, Nat.mod_one]
  | succ n ih =>
    intro v
    have hrest : ((List.range n).map fun i => BitVec.ofNat 8 (v / 2 ^ (8 * (i + 1)))) = bytesOf n (v / 256) := by
      refine List.map_congr_left fun i _ => ?_
      rw [Nat.div_div_eq_div_mul, show 256 = 2 ^ 8 from rfl, ← Nat.pow_add, Nat.mul_add, Nat.add_comm]
    rw [bytesOf, List.range_succ_eq_map, List.map_cons, List.map_map, natOf]
    have htail := hrest ▸ ih (v / 256)
    rw [Nat.mul_succ, Nat.add_comm (8 * n), Nat.pow_add, Nat.mod_mul, ← show (256 : Nat) = 2 ^ 8 from rfl, ← htail]
    simp [Function.comp_def]

@[simp] theorem length_bytesOf (n v : Nat) : (bytesOf n v).length = n := by simp [bytesOf]

/-! ## The cells of a byte string -/

theorem fst_cellsAt (x : Nat) (bs : List Byte) : (cellsAt x bs).map Prod.fst = (List.range bs.length).map (x + ·) := by
  rw [cellsAt, List.map_map]
  have hfst := List.map_fst_zip (l₁ := List.range bs.length) (l₂ := bs) (by simp)
  conv_rhs => rw [← hfst, List.map_map]
  rfl

theorem nodup_cellsAt (x : Nat) (bs : List Byte) : ((cellsAt x bs).map Prod.fst).Nodup := by
  rw [fst_cellsAt]
  exact List.nodup_range.map fun a b h => by simpa using h

theorem cell_mem {x i : Nat} {bs : List Byte} (h : i < bs.length) : (x + i, bs.getD i 0) ∈ cellsAt x bs := by
  refine List.mem_map.2 ⟨(i, bs.getD i 0), ?_, rfl⟩
  rw [List.mem_iff_getElem]
  exact ⟨i, by simpa using h, by simp [h]⟩

/-- Bytes that read one by one as a byte string read together as its number. -/
theorem num_eq_of_bytes {t : State} {pa : Nat} {bs : List Byte} (h : ∀ i, i < bs.length → t.byte (pa + i) = bs.getD i 0) :
    t.num pa bs.length = natOf bs := by
  rw [State.num, State.bytes]
  refine congrArg natOf (List.ext_getElem (by simp) fun i hi hi' => ?_)
  simp [h i hi', hi']

/-! ## Requests without a leaf -/

/-- R37: a request without a leaf changes no byte outside the carve-outs. -/
theorem byte_plainRequest {a : Nat} (ha : inCarve a = false) (s : State) (pa : Nat) : (s.plainRequest pa).byte a = s.byte a := by
  unfold State.plainRequest
  simp only []
  split
  · rfl
  · split
    · rfl
    · rw [byte_fillLine ha, byte_consultMeta ha]
      exact ite_keeps (State.byte · a) (byte_of_mem (mem_lichenLookup _ _ _) a)

/-- R448: a line that has been read may no longer be rejected; nothing else is changed. -/
theorem settleHost_frame (s : State) (x : Nat) : s.settleHost x = { s with hostStores := (s.settleHost x).hostStores } := by
  unfold State.settleHost
  split <;> rfl

theorem lasting_settleHost (s : State) (x : Nat) : (s.settleHost x).lasting = s.lasting := by
  rw [settleHost_frame]; rfl

theorem lasting_store (s : State) (ws : List (Nat × Byte)) : (s.store ws).lasting = s.lasting := by
  refine Eq.trans ?_ (lasting_put s ws)
  unfold State.store State.keepHost
  split <;> rfl

/-- The lines of a request outside the device are asked for (R448, R40). -/
def State.askLines (s : State) (r : HostReq) : State :=
  (reqLines r).foldl (fun s l => (if reqReads r then s.settleHost l else s).plainRequest l) s

theorem byte_askLines {a : Nat} (ha : inCarve a = false) (s : State) (r : HostReq) : (s.askLines r).byte a = s.byte a :=
  foldl_keeps (State.byte · a) (fun t l _ => by
    rw [byte_plainRequest ha]
    exact ite_keeps (State.byte · a) (byte_of_mem (by rw [settleHost_frame]) a)) s

theorem lasting_askLines (s : State) (r : HostReq) : (s.askLines r).lasting = s.lasting :=
  foldl_keeps State.lasting (fun t l _ => by
    rw [lasting_plainRequest]
    exact ite_keeps State.lasting (lasting_settleHost t l)) s

/-! ## Serving a request -/

section
variable {s : State} {ok : Nat → Bool} {r : HostReq}

variable (h : canServe ok r = true)
include h

theorem serve_reply : (s.serve ok r).2 = s.reqReply r := by
  simp only [State.serve, h, Bool.not_true, Bool.false_eq_true, if_false]

theorem serve_frame : (s.serve ok r).1 = { (s.askLines r).store (s.reqStore r) with cmpLines := (s.serve ok r).1.cmpLines } := by
  simp only [State.serve, h, Bool.not_true, Bool.false_eq_true, if_false]
  split <;> rfl

theorem lasting_serve : (s.serve ok r).1.lasting = s.lasting := by
  rw [serve_frame h]
  exact (lasting_store _ _).trans (lasting_askLines s r)

theorem byte_serve (a : Nat) : (s.serve ok r).1.byte a = ((s.askLines r).put (s.reqStore r)).byte a :=
  byte_of_mem (by rw [serve_frame h]; exact mem_store _ _) a

theorem byte_serve_other {a : Nat} (ha : inCarve a = false) (hws : ∀ p ∈ s.reqStore r, p.1 ≠ a) : (s.serve ok r).1.byte a = s.byte a := by
  rw [byte_serve h, byte_put_other (.inl hws), byte_askLines ha]

theorem byte_serve_stored {a : Nat} {v : Byte} (hnd : ((s.reqStore r).map Prod.fst).Nodup) (hmem : (a, v) ∈ s.reqStore r) (ha : inCarve a = false)
    (hhole : isHole (basePa a) = false) : (s.serve ok r).1.byte a = v := by
  rw [byte_serve h, byte_put_mem hnd hmem ha hhole]

end

/-! ## The agents outside the device -/

/-- The three agents that make requests from outside the device. -/
inductive Requester where
  | host
  | peer
  | pf1

/-- The instruction by which an agent's request arrives. -/
noncomputable def Requester.instr : Requester → HostReq → Instr
  | .host => .hostMemoryRequest
  | .peer => .peerRequestArrival
  | .pf1 => .pf1Dma

/-- The addresses that an agent's requests may name (R446, R57, R453). -/
def Requester.reach : Requester → Nat → Bool
  | .host => isLocal
  | .peer => peerReach
  | .pf1 => pf1Reach

/-- What an agent's waiting request is kept as. -/
def Requester.kept : Requester → HostReq → HeldReq
  | .host => .host
  | .peer => .peer
  | .pf1 => .pf1

/-- R450: the agent's reads wait for stores that are not performed. -/
def Requester.waits (e : Requester) (s : State) (r : HostReq) : Bool :=
  match e with
  | .peer => false
  | _ => s.storeWaits r

/-- The ordinary addresses that the statement gives an agent. -/
def Requester.ordinary : Requester → Nat → Prop
  | .host => fun x => isLocal x = true ∧ inCarve x = false ∧ x < 2 ^ 51
  | .peer => fun x => isOwn x = true ∧ isLocal x = true ∧ inCarve x = false
  | .pf1 => fun x => isOwn x = true ∧ ((isLocal x = true ∧ inCarve x = false) ∨ isHost x = true)

/-- The host gets an answer to each request; the others' answers leave the package. -/
def State.answered (s : State) (e : Requester) (reply : HostReply) : State :=
  match e with
  | .host => { s with hostReplies := s.hostReplies ++ [reply] }
  | _ => s

/-- A request of the host starts with no answer to it. -/
def State.unanswered (s : State) (e : Requester) : State :=
  match e with
  | .host => { s with hostReplies := [] }
  | _ => s

theorem exec_hostMemoryRequest_early {s : State} {r : HostReq} (h : s.regs.bootstat.getLsbD 8 = false) (hbar : ∀ off n, r ≠ .bar off n) :
    exec (.hostMemoryRequest r) s = .next { s with hostReplies := [⟨.completerAbort, [], false⟩] } := by
  change execHostMemoryRequest r s = _
  cases r with
  | bar off n => exact absurd rfl (hbar off n)
  | _ => simp only [execHostMemoryRequest, h, Bool.not_false, if_true]

section
variable {e : Requester} {s : State} {r : HostReq}

/-- R457: before READY a request to memory has no effect. -/
theorem agent_early (h : s.regs.bootstat.getLsbD 8 = false) (hbar : ∀ off n, r ≠ .bar off n) :
    exec (e.instr r) s = .next ((s.unanswered e).answered e ⟨.completerAbort, [], false⟩) := by
  cases e with
  | host => exact exec_hostMemoryRequest_early h hbar
  | peer => exact (exec_peerRequest s r).trans (by rw [h]; rfl)
  | pf1 => exact (exec_pf1Dma s r).trans (by rw [h]; rfl)

variable (hready : s.regs.bootstat.getLsbD 8 = true) (hlow : e = .host → (reqRange r).1 < 2 ^ 51) (hbar : ∀ off n, r ≠ .bar off n)
include hready hlow hbar

theorem agent_request :
    exec (e.instr r) s = .next (((s.unanswered e).serveOrHold (e.kept r) e.reach (e.waits s r) r).1.answered e
      ((s.unanswered e).serveOrHold (e.kept r) e.reach (e.waits s r) r).2) := by
  cases e with
  | host => exact (exec_hostMemoryRequest (hlow rfl) hbar).trans (by rw [if_pos hready]; rfl)
  | peer => exact (exec_peerRequest s r).trans (by rw [if_pos hready]; rfl)
  | pf1 => exact (exec_pf1Dma s r).trans (by rw [if_pos hready]; rfl)

theorem agent_refused (h : canServe e.reach r = false) :
    exec (e.instr r) s = .next ((s.unanswered e).answered e ⟨.completerAbort, [], false⟩) := by
  have hrefused : (s.unanswered e).serveOrHold (e.kept r) e.reach (e.waits s r) r = (s.unanswered e, ⟨.completerAbort, [], false⟩) := by
    simp [State.serveOrHold, h, State.serve]
  rw [agent_request hready hlow hbar, hrefused]

/-- R44, R450: a request waits while a swap holds a line of it, or while bytes that it reads are not performed. -/
theorem agent_held (h : canServe e.reach r = true) (hwait : e.waits s r = true ∨ s.swapWaits r = true) :
    exec (e.instr r) s = .next (({ s.unanswered e with held := s.held ++ [e.kept r] } : State).answered e ⟨.held, [], false⟩) := by
  have hheld : (s.unanswered e).serveOrHold (e.kept r) e.reach (e.waits s r) r = ({ s.unanswered e with held := s.held ++ [e.kept r] }, ⟨.held, [], false⟩) := by
    have hswap : (s.unanswered e).swapWaits r = s.swapWaits r := by cases e <;> rfl
    have hkept : (s.unanswered e).held = s.held := by cases e <;> rfl
    simp [State.serveOrHold, h, hswap, hkept, hwait]
  rw [agent_request hready hlow hbar, hheld]

theorem agent_served (hwait : e.waits s r = false) (hswap : s.swapWaits r = false) :
    exec (e.instr r) s = .next (((s.unanswered e).serve e.reach r).1.answered e ((s.unanswered e).serve e.reach r).2) := by
  have hswap' : (s.unanswered e).swapWaits r = false := by cases e <;> exact hswap
  rw [agent_request hready hlow hbar, serveOrHold_serves hwait hswap']

end

/-! ## Ordinary addresses -/

section
variable {e : Requester} {x : Nat}

theorem ordinary_reach (h : e.ordinary x) : e.reach x = true := by
  cases e with
  | host => exact h.1
  | peer => simp [Requester.reach, peerReach, h.1, h.2.1, h.2.2]
  | pf1 =>
    obtain ⟨hown, hat⟩ := h
    simpa [Requester.reach, pf1Reach, hown] using hat

/-- A host address lies outside every die window. -/
theorem inCarve_of_isHost (hown : isOwn x = true) (h : isHost x = true) : inCarve x = false := by
  simp only [isHost, Bool.and_eq_true, decide_eq_true_eq] at h
  have hbase : basePa x = x := Nat.mod_eq_of_lt (of_decide_eq_true hown)
  have hdie : ¬ dieOf x < 4 := by unfold dieOf; omega
  simp [inCarve, hbase, isLocal, winSize, hdie, show ¬ dieOf x < 2 by omega]

theorem ordinary_own (h : e.ordinary x) : isOwn x = true := by
  cases e with
  | host => exact decide_eq_true (h.2.2.trans (by decide))
  | peer => exact h.1
  | pf1 => exact h.1

theorem ordinary_inCarve (h : e.ordinary x) : inCarve x = false := by
  cases e with
  | host => exact h.2.1
  | peer => exact h.2.2
  | pf1 => exact h.2.elim And.right (inCarve_of_isHost h.1)

theorem ordinary_isHole (h : e.ordinary x) : isHole (basePa x) = false := by
  have hbase : basePa x = x := Nat.mod_eq_of_lt (of_decide_eq_true (ordinary_own h))
  rw [hbase]
  cases e with
  | host => simp [isHole, h.1]
  | peer => simp [isHole, h.2.1]
  | pf1 => exact h.2.elim (fun hl => by simp [isHole, hl.1]) fun hh => by simp [isHole, hh]

theorem ordinary_low (h : e.ordinary x) : e = .host → x < 2 ^ 51 := by
  rintro rfl
  exact h.2.2

end

/-! ## Requests that can be served -/

section
variable {e : Requester} {s : State} {r : HostReq} {pa n : Nat} {atomic : Bool} (hr : reqRange r = (pa, n, atomic))
include hr

theorem agent_canServe (hn : 0 < n) (hok : ∀ i, i < n → e.ordinary (pa + i)) (hword : atomic = true → atomicWord pa n = true) :
    canServe e.reach r = true := by
  have hbytes : allBytes e.reach pa n = true := List.all_eq_true.2 fun i hi => ordinary_reach (hok i (List.mem_range.1 hi))
  cases atomic with
  | false => simp [canServe, hr, hbytes, hn.ne']
  | true => simp [canServe, hr, hbytes, hn.ne', hword rfl]

theorem swapWaits_iff : s.swapWaits r = true ↔ ∃ i, i < n ∧ s.isHeld (pa + i) = true := by
  simp [State.swapWaits, hr]

theorem storeWaits_iff : s.storeWaits r = true ↔ reqReads r = true ∧ ∃ u ∈ s.unacked, ∃ x ∈ u.own, pa ≤ x ∧ x < pa + n := by
  simp [State.storeWaits, hr]

/-- R450: the agent reads bytes that a store has written and that are not performed. -/
theorem waits_iff : e.waits s r = true ↔ reqReads r = true ∧ e ≠ .peer ∧ ∃ u ∈ s.unacked, ∃ x ∈ u.own, pa ≤ x ∧ x < pa + n := by
  cases e <;> simp [Requester.waits, storeWaits_iff hr]

theorem reply_of_ordinary (hn : 0 < n) (hok : ∀ i, i < n → e.ordinary (pa + i)) :
    s.reqReply r = if reqReads r then ⟨.success, s.bytes pa n, s.rangePoisoned pa n⟩ else ⟨.success, [], false⟩ := by
  have hcarve : inCarve pa = false := ordinary_inCarve (hok 0 hn)
  unfold State.reqReply
  rw [hr]
  cases reqReads r <;> simp [hcarve]

end

/-- The range is the requester's, and no byte of it is held. -/
def Requester.free (e : Requester) (s : State) (pa n : Nat) : Prop := 0 < n ∧ ∀ i, i < n → e.ordinary (pa + i) ∧ s.isHeld (pa + i) = false

/-- R450: the requester may not read the range yet. -/
def Requester.unread (e : Requester) (s : State) (pa n : Nat) : Prop := e ≠ .peer ∧ ∃ u ∈ s.unacked, ∃ x ∈ u.own, pa ≤ x ∧ x < pa + n

/-- What a request `r` of `e` leaves that is served. -/
structure Served (e : Requester) (s : State) (r : HostReq) (t : State) : Prop where
  other : ∀ a, inCarve a = false → (∀ p ∈ s.reqStore r, p.1 ≠ a) → t.byte a = s.byte a
  stored : ((s.reqStore r).map Prod.fst).Nodup → ∀ a v, (a, v) ∈ s.reqStore r → e.ordinary a → t.byte a = v
  reply : e = .host → t.hostReplies = [s.reqReply r]

theorem reqStore_unanswered (s : State) (e : Requester) (r : HostReq) : (s.unanswered e).reqStore r = s.reqStore r := by
  cases e <;> rfl

theorem mem_answered (s : State) (e : Requester) (reply : HostReply) : (s.answered e reply).mem = s.mem := by
  cases e <;> rfl

section
variable {e : Requester} {s : State} {r : HostReq} {pa n : Nat} {atomic : Bool}

theorem request_served (hr : reqRange r = (pa, n, atomic)) (hready : s.regs.bootstat.getLsbD 8 = true) (hbar : ∀ off n, r ≠ .bar off n)
    (hfree : e.free s pa n) (hread : reqReads r = true → ¬ e.unread s pa n) (hword : atomic = true → atomicWord pa n = true) :
    ∃ t, exec (e.instr r) s = .next t ∧ Served e s r t := by
  obtain ⟨hn, hbytes⟩ := hfree
  have hok := fun i hi => (hbytes i hi).1
  have hlow : e = .host → (reqRange r).1 < 2 ^ 51 := by rw [hr]; exact ordinary_low (hok 0 hn)
  have hwait : e.waits s r = false := Bool.eq_false_iff.2 fun hw => hread ((waits_iff hr).1 hw).1 ((waits_iff hr).1 hw).2
  have hswap : s.swapWaits r = false := Bool.eq_false_iff.2 fun hw => by
    obtain ⟨i, hi, hheld⟩ := (swapWaits_iff hr).1 hw
    exact absurd hheld (by simp [(hbytes i hi).2])
  have hserve := agent_canServe hr hn hok hword
  refine ⟨_, agent_served hready hlow hbar hwait hswap, ⟨fun a ha hws => ?_, fun hnd a v hmem ha => ?_, fun he => ?_⟩⟩
  · rw [byte_of_mem (mem_answered _ _ _), byte_serve_other hserve ha (by rwa [reqStore_unanswered])]
    exact byte_of_mem (by cases e <;> rfl) a
  · rw [byte_of_mem (mem_answered _ _ _)]
    exact byte_serve_stored hserve (by rwa [reqStore_unanswered]) (by rwa [reqStore_unanswered]) (ordinary_inCarve ha) (ordinary_isHole ha)
  · subst he
    change (_ : State).hostReplies ++ [_] = _
    rw [serve_reply hserve, view_of_lasting State.hostReplies (fun _ => rfl) (lasting_serve hserve)]
    rfl

/-- R44, R450: a request that waits is kept, and changes nothing else. -/
theorem request_waits (hr : reqRange r = (pa, n, atomic)) (hready : s.regs.bootstat.getLsbD 8 = true) (hbar : ∀ off n, r ≠ .bar off n) (hn : 0 < n)
    (hok : ∀ i, i < n → e.ordinary (pa + i)) (hword : atomic = true → atomicWord pa n = true)
    (hwait : (∃ i, i < n ∧ s.isHeld (pa + i) = true) ∨ (reqReads r = true ∧ e.unread s pa n)) :
    ∃ t, exec (e.instr r) s = .next t ∧ t = { s with held := s.held ++ [e.kept r], hostReplies := t.hostReplies }
      ∧ (e = .host → t.hostReplies = [⟨.held, [], false⟩]) := by
  have hlow : e = .host → (reqRange r).1 < 2 ^ 51 := by rw [hr]; exact ordinary_low (hok 0 hn)
  have hwaits : e.waits s r = true ∨ s.swapWaits r = true := hwait.symm.imp (waits_iff hr).2 (swapWaits_iff hr).2
  refine ⟨_, agent_held hready hlow hbar (agent_canServe hr hn hok hword) hwaits, ?_, ?_⟩
  · cases e <;> rfl
  · rintro rfl; rfl

end

/-! ## Reads, writes and atomics -/

section
variable {e : Requester} {s t : State} {pa n : Nat} {v c : Word64}

theorem served_reply {r : HostReq} {atomic : Bool} (h : Served e s r t) (hr : reqRange r = (pa, n, atomic)) (hreads : reqReads r = true) (hfree : e.free s pa n) :
    e = .host → t.hostReplies = [⟨.success, s.bytes pa n, s.rangePoisoned pa n⟩] := fun he => by
  rw [h.reply he, reply_of_ordinary hr hfree.1 fun i hi => (hfree.2 i hi).1, if_pos hreads]

theorem served_read (h : Served e s (.read pa n) t) (hfree : e.free s pa n) :
    s.sameBytes t (fun a => inCarve a = true) ∧ (e = .host → t.hostReplies = [⟨.success, s.bytes pa n, s.rangePoisoned pa n⟩]) :=
  ⟨fun a ha => h.other a (by simpa using ha) (by simp [State.reqStore]), served_reply h rfl rfl hfree⟩

/-- Where a request stores the bytes `bs`, they stand there, and all others outside the carve-outs are as they were. -/
theorem served_store {r : HostReq} {bs : List Byte} (h : Served e s r t) (hws : s.reqStore r = cellsAt pa bs) (hok : ∀ i, i < bs.length → e.ordinary (pa + i)) :
    (∀ i, i < bs.length → t.byte (pa + i) = bs.getD i 0) ∧ s.sameBytes t fun a => (pa ≤ a ∧ a < pa + bs.length) ∨ inCarve a = true := by
  refine ⟨fun i hi => h.stored (by rw [hws]; exact nodup_cellsAt pa bs) _ _ (by rw [hws]; exact cell_mem hi) (hok i hi), fun a ha => ?_⟩
  rw [not_or, Bool.not_eq_true] at ha
  obtain ⟨hout, hcarve⟩ := ha
  refine h.other a hcarve fun p hp hpa => hout ?_
  rw [hws] at hp
  obtain ⟨i, hi, hpi⟩ := mem_cellsAt hp
  omega

theorem served_num {r : HostReq} {x : Nat} (h : Served e s r t) (hws : s.reqStore r = cellsAt pa (bytesOf n x)) (hfree : e.free s pa n) :
    t.num pa n = x % 2 ^ (8 * n) ∧ s.sameBytes t fun a => (pa ≤ a ∧ a < pa + n) ∨ inCarve a = true := by
  obtain ⟨hbytes, hkeeps⟩ := served_store h hws fun i hi => (hfree.2 i (by simpa using hi)).1
  have hnum := num_eq_of_bytes hbytes
  rw [length_bytesOf, natOf_bytesOf] at hnum
  rw [length_bytesOf] at hkeeps
  exact ⟨hnum, hkeeps⟩

/-- A compare-and-swap that finds another value stores nothing. -/
theorem served_nothing {r : HostReq} (h : Served e s r t) (hws : s.reqStore r = []) (hfree : e.free s pa n) :
    t.num pa n = s.num pa n ∧ s.sameBytes t fun a => (pa ≤ a ∧ a < pa + n) ∨ inCarve a = true := by
  have hkeeps : ∀ a, inCarve a = false → t.byte a = s.byte a := fun a ha => h.other a ha (by simp [hws])
  refine ⟨congrArg natOf (List.map_congr_left fun i hi => hkeeps _ (ordinary_inCarve (hfree.2 i (List.mem_range.1 hi)).1)), fun a ha => ?_⟩
  exact hkeeps a (Bool.not_eq_true _ ▸ (not_or.1 ha).2)

theorem atomicWord_of (hsize : n = 4 ∨ n = 8) (halign : pa % n = 0) : atomicWord pa n = true := by
  simpa [atomicWord, halign] using hsize

section
variable (hready : s.regs.bootstat.getLsbD 8 = true) (hfree : e.free s pa n)
include hready hfree

theorem request_read (hread : ¬ e.unread s pa n) :
    ∃ t, exec (e.instr (.read pa n)) s = .next t ∧ s.sameBytes t (fun a => inCarve a = true)
      ∧ (e = .host → t.hostReplies = [⟨.success, s.bytes pa n, s.rangePoisoned pa n⟩]) := by
  obtain ⟨t, ht, h⟩ := request_served (r := .read pa n) rfl hready (by simp) hfree (fun _ => hread) (by simp)
  exact ⟨t, ht, served_read h hfree⟩

variable (hread : ¬ e.unread s pa n) (hsize : n = 4 ∨ n = 8) (halign : pa % n = 0)
include hread hsize halign

/-- A request that replaces the word by `x`. -/
theorem request_replaces {r : HostReq} {x : Nat} (hr : reqRange r = (pa, n, true)) (hbar : ∀ off n, r ≠ .bar off n) (hreads : reqReads r = true)
    (hws : s.reqStore r = cellsAt pa (bytesOf n x)) :
    ∃ t, exec (e.instr r) s = .next t ∧ t.num pa n = x % 2 ^ (8 * n) ∧ (s.sameBytes t fun a => (pa ≤ a ∧ a < pa + n) ∨ inCarve a = true)
      ∧ (e = .host → t.hostReplies = [⟨.success, s.bytes pa n, s.rangePoisoned pa n⟩]) := by
  obtain ⟨t, ht, h⟩ := request_served hr hready hbar hfree (fun _ => hread) (fun _ => atomicWord_of hsize halign)
  obtain ⟨hnum, hkeeps⟩ := served_num h hws hfree
  exact ⟨t, ht, hnum, hkeeps, served_reply h hr hreads hfree⟩

theorem request_cas :
    ∃ t, exec (e.instr (.cas pa n c v)) s = .next t
      ∧ t.num pa n = (if s.num pa n = c.toNat % 2 ^ (8 * n) then v.toNat % 2 ^ (8 * n) else s.num pa n)
      ∧ (s.sameBytes t fun a => (pa ≤ a ∧ a < pa + n) ∨ inCarve a = true)
      ∧ (e = .host → t.hostReplies = [⟨.success, s.bytes pa n, s.rangePoisoned pa n⟩]) := by
  by_cases hc : s.num pa n = c.toNat % 2 ^ (8 * n)
  · rw [if_pos hc]
    exact request_replaces hready hfree hread hsize halign rfl (by simp) rfl (by simp [State.reqStore, hc])
  · rw [if_neg hc]
    obtain ⟨t, ht, h⟩ := request_served (r := .cas pa n c v) rfl hready (by simp) hfree (fun _ => hread) (fun _ => atomicWord_of hsize halign)
    obtain ⟨hnum, hkeeps⟩ := served_nothing h (by simp [State.reqStore, hc]) hfree
    exact ⟨t, ht, hnum, hkeeps, served_reply h rfl rfl hfree⟩

end

end

theorem request_write {e : Requester} {s : State} {pa : Nat} {bs : List Byte} (hready : s.regs.bootstat.getLsbD 8 = true) (hfree : e.free s pa bs.length) :
    ∃ t, exec (e.instr (.write pa bs)) s = .next t ∧ (∀ i, i < bs.length → t.byte (pa + i) = bs.getD i 0)
      ∧ (s.sameBytes t fun a => (pa ≤ a ∧ a < pa + bs.length) ∨ inCarve a = true) ∧ (e = .host → t.hostReplies = [⟨.success, [], false⟩]) := by
  obtain ⟨t, ht, h⟩ := request_served (r := .write pa bs) rfl hready (by simp) hfree (by simp [reqReads]) (by simp)
  obtain ⟨hbytes, hkeeps⟩ := served_store h rfl fun i hi => (hfree.2 i hi).1
  exact ⟨t, ht, hbytes, hkeeps, fun he => (h.reply he).trans (by rw [reply_of_ordinary (r := .write pa bs) rfl hfree.1 fun i hi => (hfree.2 i hi).1]; rfl)⟩

/-- Who makes a request. -/
noncomputable def requesterOf : Instr → Option Requester
  | .hostMemoryRequest _ => some .host
  | .peerRequestArrival _ => some .peer
  | .pf1Dma _ => some .pf1
  | _ => none

theorem requesterOf_instr (e : Requester) (r : HostReq) : requesterOf (e.instr r) = some e := by
  cases e <;> rfl

theorem requester_instr_inj {a b : Requester} (h : a.instr = b.instr) : a = b := by
  have ha := requesterOf_instr a (.bar 0 0)
  rw [h, requesterOf_instr] at ha
  exact (Option.some.inj ha).symm

/-- R446, R453, R57: the requests of a requester, in the words of the statement. -/
theorem requester_waits {e : Requester} {s : State} {w : HostReq} {pa n : Nat} (hready : s.regs.bootstat.getLsbD 8 = true) (hn : 0 < n)
    (hok : ∀ i, i < n → e.ordinary (pa + i))
    (h : ((∃ i, i < n ∧ s.isHeld (pa + i) = true) ∧ (w = .read pa n ∨ ∃ bs : List Byte, w = .write pa bs ∧ bs.length = n)) ∨ (w = .read pa n ∧ e.unread s pa n)) :
    ∃ t, exec (e.instr w) s = .next t ∧ t = { s with held := s.held ++ [e.kept w], hostReplies := t.hostReplies }
      ∧ (e = .host → t.hostReplies = [⟨.held, [], false⟩]) := by
  rcases h with ⟨hheld, rfl | ⟨bs, rfl, rfl⟩⟩ | ⟨rfl, hunread⟩
  · exact request_waits (r := .read pa n) rfl hready (by simp) hn hok (by simp) (.inl hheld)
  · exact request_waits (r := .write pa bs) rfl hready (by simp) hn hok (by simp) (.inl hheld)
  · exact request_waits (r := .read pa n) rfl hready (by simp) hn hok (by simp) (.inr ⟨rfl, hunread⟩)

/-! ## Atomics to a carve-out, and requests that are refused (R37, R446) -/

theorem carve_atomic {s : State} {pa n : Nat} {v : Word64} (hready : s.regs.bootstat.getLsbD 8 = true) (hlow : pa + n ≤ 2 ^ 51) (hsize : n = 4 ∨ n = 8)
    (halign : pa % n = 0) (hbytes : ∀ i, i < n → inCarve (pa + i) = true ∧ s.isHeld (pa + i) = false)
    (hunread : ∀ u ∈ s.unacked, ∀ x ∈ u.own, x < pa ∨ pa + n ≤ x) :
    ∃ t, exec (.hostMemoryRequest (.fetchAdd pa n v)) s = .next t ∧ t.hostReplies = [⟨.success, List.replicate n 0, false⟩]
      ∧ s.sameBytes t (fun a => inCarve a = true) := by
  have hn : 0 < n := by omega
  have hlocal : ∀ i, i < n → isLocal (pa + i) = true := fun i hi => by
    have hbase : basePa (pa + i) = pa + i := Nat.mod_eq_of_lt (by rw [paSize]; omega)
    have hcarve := (hbytes i hi).1
    simp only [inCarve, hbase, Bool.and_eq_true] at hcarve
    exact hcarve.1
  have hserve : canServe Requester.host.reach (.fetchAdd pa n v) = true := by
    have hall : allBytes isLocal pa n = true := List.all_eq_true.2 fun i hi => hlocal i (List.mem_range.1 hi)
    simp [canServe, reqRange, Requester.reach, hall, hn.ne', atomicWord_of hsize halign]
  have hwait : Requester.host.waits s (.fetchAdd pa n v) = false := Bool.eq_false_iff.2 fun hw => by
    obtain ⟨-, -, u, hu, x, hx, hlo, hhi⟩ := (waits_iff (r := .fetchAdd pa n v) rfl).1 hw
    rcases hunread u hu x hx with h | h <;> omega
  have hswap : s.swapWaits (.fetchAdd pa n v) = false := Bool.eq_false_iff.2 fun hw => by
    obtain ⟨i, hi, hheld⟩ := (swapWaits_iff (r := .fetchAdd pa n v) rfl).1 hw
    exact absurd hheld (by simp [(hbytes i hi).2])
  refine ⟨_, agent_served (e := .host) hready (fun _ => show pa < 2 ^ 51 by omega) (by simp) hwait hswap, ?_, fun a ha => ?_⟩
  · change (_ : State).hostReplies ++ [_] = _
    rw [serve_reply hserve, view_of_lasting State.hostReplies (fun _ => rfl) (lasting_serve hserve)]
    have hcarve := (hbytes 0 hn).1
    simp only [Nat.add_zero] at hcarve
    simp [State.reqReply, reqRange, reqReads, hcarve, State.unanswered]
  · have hne : inCarve a = false := by simpa using ha
    rw [byte_of_mem (mem_answered _ _ _), byte_serve_other hserve hne fun p hp => ?_]
    · rfl
    · obtain ⟨i, hi, hpi⟩ := mem_cellsAt hp
      rintro rfl
      rw [hpi, (hbytes i (by simpa using hi)).1] at hne
      cases hne

theorem odd_atomic_refused {s : State} {pa n : Nat} {v : Word64} (hpa : pa < 2 ^ 51) (h : (n ≠ 4 ∧ n ≠ 8) ∨ pa % n ≠ 0) :
    exec (.hostMemoryRequest (.fetchAdd pa n v)) s = .next { s with hostReplies := [⟨.completerAbort, [], false⟩] } := by
  cases hready : s.regs.bootstat.getLsbD 8 with
  | false => exact exec_hostMemoryRequest_early hready (by simp)
  | true =>
    have hword : atomicWord pa n = false := by
      rcases h with ⟨h4, h8⟩ | h
      · simp [atomicWord, h4, h8]
      · simp [atomicWord, h]
    exact agent_refused (e := .host) hready (fun _ => hpa) (by simp) (by simp [canServe, reqRange, hword])

/-- R57, R446: a write of an address that is not package-local memory has no effect. -/
theorem stray_write_refused {e : Requester} {s : State} {pa i : Nat} {bs : List Byte} (hi : i < bs.length) (hlow : pa + i < 2 ^ 51)
    (hreach : e.reach (pa + i) = false) :
    exec (e.instr (.write pa bs)) s = .next ((s.unanswered e).answered e ⟨.completerAbort, [], false⟩) := by
  cases hready : s.regs.bootstat.getLsbD 8 with
  | false => exact agent_early hready (by simp)
  | true =>
    have hall : allBytes e.reach pa bs.length = false := by
      simp only [allBytes, List.all_eq_false, List.mem_range]
      exact ⟨i, hi, by simp [hreach]⟩
    exact agent_refused hready (fun _ => show pa < 2 ^ 51 by omega) (by simp) (by simp [canServe, reqRange, hall])

/-! ## Acknowledgements (R59, R116, R138) -/

theorem unmarkAll_id (g : Group) (ks : List Nat) : (g.unmarkAll ks).id = g.id := foldl_keeps (f := fun g k => g.unmark (some k)) Group.id (fun _ _ _ => rfl) g

theorem retryHeld_of_none {s : State} (h : s.held = []) : s.retryHeld = s := by simp [State.retryHeld, h]

theorem setBit_clear (v : Word64) {k : Nat} (hk : k < 64) : (setBit v k false).getLsbD k = false := by
  simp [setBit, hk]

/-- R138: an invalidation has ended once nothing awaits. -/
theorem endInvalidate_idle {s : State} (hstores : s.unacked = []) (hreductions : s.reductions = []) : s.endInvalidate.regs.tlbictl.getLsbD 8 = false := by
  have hsettled : s.settled = true := by simp [State.settled, State.reducing, hstores, hreductions]
  rw [State.endInvalidate, hsettled, Bool.and_true]
  split
  · exact setBit_clear _ (by decide)
  · next h => exact Bool.eq_false_iff.2 h

theorem acked_idle {s : State} {a : Unacked} (hstores : (s.acked a).unacked = []) (hreductions : s.reductions = []) :
    (s.acked a).regs.tlbictl.getLsbD 8 = false := by
  refine endInvalidate_idle ?_ ?_
  · rw [takeAck_frame]
    rw [acked_frame] at hstores
    exact hstores
  · rw [takeAck_frame]
    exact hreductions

/-- R59, R116: the last acknowledgement of a group's store removes the store's marks. -/
theorem acked_group? {s : State} {a : Unacked} {g : GroupId} {x : Group} (ha : a.issuer = .group g) (hx : s.group? g = some x) :
    (s.acked a).group? g = some (if ∃ b ∈ s.unacked.erase a, b.store = a.store then x else x.unmarkAll a.marks) := by
  have hany : ((s.unacked.erase a).any fun b => b.store == a.store) = true ↔ ∃ b ∈ s.unacked.erase a, b.store = a.store := by simp
  have hend : ∀ u : State, u.endInvalidate.group? g = u.group? g := fun u => by rw [endInvalidate_frame]; rfl
  rw [State.acked, hend, State.takeAck, ha]
  simp only [hany]
  split
  · exact hx
  · rw [modGroup_group? (fun y => unmarkAll_id y a.marks)]
    exact congrArg (Option.map _) hx

/-! ## Machine checks, and stores that the host rejects (R448, R460) -/

theorem raiseVector_frame (s : State) (v : Nat) :
    s.raiseVector v = { s with msixPending := (s.raiseVector v).msixPending, msixSent := (s.raiseVector v).msixSent } := by
  unfold State.raiseVector
  split <;> rfl

/-- The fields of MCSTAT after a machine check of `code`, from its value `n` before. -/
theorem mcstat_fields (n : Nat) {code : Nat} (hcode : code < 256) :
    (place (bitsOf n 32 32 + 1) 32 32 + place code 8 8 + 1) % 2 ^ 64 / 2 ^ 8 % 2 ^ 8 = code
      ∧ (place (bitsOf n 32 32 + 1) 32 32 + place code 8 8 + 1) % 2 = 1
      ∧ (place (bitsOf n 32 32 + 1) 32 32 + place code 8 8 + 1) % 2 ^ 64 / 2 ^ 32 % 2 ^ 32 = (n / 2 ^ 32 % 2 ^ 32 + 1) % 2 ^ 32 := by
  unfold place bitsOf
  omega

/-- R460: a machine check gives MCSTAT its code, sets V and counts. -/
theorem mcstat_machineCheck (s : State) {code : Nat} (hcode : code < 256) :
    (s.machineCheck code).regs.mcstat.extractLsb' 8 8 = BitVec.ofNat 8 code ∧ (s.machineCheck code).regs.mcstat.getLsbD 0 = true
      ∧ (s.machineCheck code).regs.mcstat.extractLsb' 32 32 = s.regs.mcstat.extractLsb' 32 32 + 1 := by
  have hmc : (s.machineCheck code).regs.mcstat = BitVec.ofNat 64 (place (bitsOf s.regs.mcstat.toNat 32 32 + 1) 32 32 + place code 8 8 + 1) := by
    rw [State.machineCheck, raiseVector_frame]
  obtain ⟨hc, hv, hn⟩ := mcstat_fields s.regs.mcstat.toNat hcode
  rw [hmc]
  refine ⟨BitVec.eq_of_toNat_eq ?_, ?_, BitVec.eq_of_toNat_eq ?_⟩
  · rw [BitVec.extractLsb'_toNat, BitVec.toNat_ofNat, Nat.shiftRight_eq_div_pow, hc, BitVec.toNat_ofNat, Nat.mod_eq_of_lt hcode]
  · rw [BitVec.getLsbD_ofNat, Nat.testBit_zero, hv]
    rfl
  · rw [BitVec.extractLsb'_toNat, BitVec.toNat_ofNat, Nat.shiftRight_eq_div_pow, hn, BitVec.toNat_add, BitVec.extractLsb'_toNat,
      Nat.shiftRight_eq_div_pow]
    rfl

theorem loseHostStore_newest {s : State} {old : List (Nat × Byte)} {rest : List (List (Nat × Byte))} (h : s.hostStores = old :: rest) :
    s.loseHostStore 0 = { s.setBytes old with hostStores := rest } := by
  simp [State.loseHostStore, h, undoStore]

/-- R448: the newest store to the host window that is lost leaves the bytes that it replaced. -/
theorem loseHostStore_restores {s : State} {old : List (Nat × Byte)} {rest : List (List (Nat × Byte))} (h : s.hostStores = old :: rest)
    (hnd : (old.map Prod.fst).Nodup) :
    (∀ x ∈ old, (s.loseHostStore 0).byte x.1 = x.2) ∧ s.sameBytes (s.loseHostStore 0) (fun a => a ∈ old.map Prod.fst)
      ∧ (s.loseHostStore 0).hostStores = rest := by
  rw [loseHostStore_newest h]
  exact ⟨fun x hx => byte_setBytes_mem hnd hx s, fun a ha => byte_setBytes_other (fun p hp hpa => ha (List.mem_map.2 ⟨p, hp, hpa⟩)) s, rfl⟩

/-- Settles O55: requests from outside, acknowledgements, and stores that the host rejects. -/
theorem outsideRequests : Obligations.OutsideRequests := by
  refine ⟨fun s e ok hcase => ?_, fun s off n => rfl, fun s pa n v => carve_atomic, fun s pa n v => odd_atomic_refused,
    fun s pa bs i hi hlow hlocal => ⟨stray_write_refused (e := .host) hi hlow hlocal, stray_write_refused (e := .peer) hi hlow (by simp [Requester.reach, peerReach, hlocal])⟩,
    fun s pkg => ⟨exec_peerStoreAck_none, fun a ha => ⟨s.acked a, exec_peerStoreAck ha, retryHeld_of_none, ?_⟩⟩, fun s => ⟨fun h => ?_, fun h => ?_, fun old rest => loseHostStore_restores⟩⟩
  · obtain ⟨q, rfl, rfl⟩ : ∃ q : Requester, e = q.instr ∧ ok = q.ordinary := by
      rcases hcase with ⟨rfl, rfl⟩ | ⟨rfl, rfl⟩ | ⟨rfl, rfl⟩
      · exact ⟨.host, rfl, rfl⟩
      · exact ⟨.peer, rfl, rfl⟩
      · exact ⟨.pf1, rfl, rfl⟩
    have hhost : q.instr = .hostMemoryRequest → q = .host := requester_instr_inj (b := .host)
    have hpeer : q.instr = .peerRequestArrival → q = .peer := requester_instr_inj (b := .peer)
    have hpf1 : q.instr = .pf1Dma → q = .pf1 := requester_instr_inj (b := .pf1)
    have hunread : ∀ pa n, (q.instr ≠ .peerRequestArrival ∧ ∃ u ∈ s.unacked, ∃ x ∈ u.own, pa ≤ x ∧ x < pa + n) ↔ q.unread s pa n := fun pa n =>
      and_congr_left' (not_congr ⟨hpeer, fun h => h ▸ rfl⟩)
    simp only [hunread]
    refine ⟨fun hearly r hbar => ⟨fun he => ?_, fun he => ?_⟩, fun hready => ⟨fun pa n hfree hread => ?_, fun w pa n hn hok h => ?_, fun pa bs hfree => ?_,
      fun pa n v c hfree hread hsize halign => ⟨?_, ?_, ?_⟩⟩⟩
    · rw [he]; exact exec_hostMemoryRequest_early hearly hbar
    · rw [agent_early hearly hbar]
      cases q with
      | host => exact absurd rfl he
      | _ => rfl
    · obtain ⟨t, ht, hbytes, hreply⟩ := request_read hready hfree hread
      exact ⟨t, ht, hbytes, fun he => hreply (hhost he)⟩
    · obtain ⟨t, ht, hkeep, hreply⟩ := requester_waits hready hn hok h
      refine ⟨t, q.kept w, ht, hkeep, fun he => ⟨?_, hreply (hhost he)⟩, fun he => ?_, fun he => ?_⟩
      · rw [hhost he]; rfl
      · rw [hpeer he]; rfl
      · rw [hpf1 he]; rfl
    · obtain ⟨t, ht, hbytes, hkeeps, hreply⟩ := request_write hready hfree
      exact ⟨t, ht, hbytes, hkeeps, fun he => hreply (hhost he)⟩
    · obtain ⟨t, ht, hnum, hkeeps, hreply⟩ := request_replaces (r := .fetchAdd pa n v) hready hfree hread hsize halign rfl (by simp) rfl rfl
      exact ⟨t, ht, hnum, hkeeps, fun he => hreply (hhost he)⟩
    · obtain ⟨t, ht, hnum, hkeeps, hreply⟩ := request_replaces (r := .swap pa n v) hready hfree hread hsize halign rfl (by simp) rfl rfl
      exact ⟨t, ht, hnum, hkeeps, fun he => hreply (hhost he)⟩
    · obtain ⟨t, ht, hnum, hkeeps, hreply⟩ := request_cas (v := v) (c := c) hready hfree hread hsize halign
      exact ⟨t, ht, hnum, hkeeps, fun he => hreply (hhost he)⟩
  · have hframe := acked_frame s a
    exact ⟨by rw [hframe], by rw [hframe], by rw [hframe], acked_idle, fun g x => acked_group?⟩
  · change execHostStoreLoss s = _
    rw [execHostStoreLoss, if_pos (by simp [h])]
  · obtain ⟨j, hj, hloss⟩ := exec_hostStoreLoss h
    obtain ⟨hcode, hvalid, -⟩ := mcstat_machineCheck (s.loseHostStore j) (code := 4) (by decide)
    exact ⟨j, hj, hloss, hcode, hvalid⟩

end Sys2Proof.Machine
end

