-- ==== Sys2Proof/Proofs/PowerAndErrors.lean ====
section
/-! PROOFS. O58: soft errors, power and cooling (spec/20 R448, R458, R461, R462, spec/02 R53, spec/07 R206). -/

namespace Sys2Proof.Machine

/-! ## Poison (R458, R53) -/

/-- The state once one more target bears a soft error. -/
def State.withSoft (s : State) (x : PoisonTarget) : State := { s with soft := s.soft ++ [x] }

theorem sectorOf_sectorOf (x : Nat) : sectorOf (sectorOf x) = sectorOf x := by unfold sectorOf; omega

theorem poison_known {s : State} {pa : Nat} (h : s.sectorBad (sectorOf pa) = true) : s.poison [pa] = s := by
  simp [State.poison, h]

theorem poison_new {s : State} {pa : Nat} (h : s.sectorBad (sectorOf pa) = false) : s.poison [pa] = s.withSoft (.sector (sectorOf pa)) := by
  simp [State.poison, State.withSoft, h]

/-- A sector is bad or not as a whole. -/
theorem sectorBad_sectorOf (s : State) (pa : Nat) : s.sectorBad (sectorOf pa) = s.sectorBad pa := by
  simp only [State.sectorBad, sectorOf_sectorOf]

/-- A soft error spoils the sector of a byte: of memory, or of a request that the host completes (R458, R448). -/
def spoils (x : Nat) (t : PoisonTarget) : Bool :=
  match t with
  | .sector p => sectorOf p == sectorOf x
  | .hostError p => sectorOf p == sectorOf x
  | _ => false

theorem sectorBad_eq (s : State) (x : Nat) : s.sectorBad x = s.soft.any (spoils x) := rfl

theorem sectorBad_withSoft (s : State) (x : Nat) (t : PoisonTarget) : (s.withSoft t).sectorBad x = (s.sectorBad x || spoils x t) := by
  simp only [sectorBad_eq, State.withSoft, List.any_append, List.any_cons, List.any_nil, Bool.or_false]

/-- R53: one more soft error spoils a metadata line that it lies in. -/
theorem metaBad_withSoft_sector (s : State) (x p : Nat) :
    (s.withSoft (.sector p)).metaBad x =
      (s.metaBad x || (isOwn x && isLocal x && !inCarve x && (decide (metaLine x ≤ p) && decide (p < metaLine x + 128)))) := by
  simp only [State.withSoft, State.metaBad, List.any_append, List.any_cons, List.any_nil, Bool.or_false]
  cases isOwn x && isLocal x && !inCarve x
  · rfl
  · simp only [Bool.true_and, Bool.or_assoc]

/-- A metadata line begins a sector. -/
theorem metaLine_sector (a : Nat) : metaLine a % 32 = 0 := by
  have hbase : carveBase (dieOf a) % 32 = 0 := by
    unfold carveBase
    split <;> rfl
  unfold metaLine
  omega

theorem metaLine_has_sector (a pa : Nat) :
    (metaLine a ≤ sectorOf pa ∧ sectorOf pa < metaLine a + 128) ↔ (metaLine a ≤ pa ∧ pa < metaLine a + 128) := by
  have := metaLine_sector a
  unfold sectorOf
  omega

/-- R458: what a soft error of the sector of `pa` leaves. -/
def State.poisoned (s : State) (pa : Nat) : State := if isHole (basePa pa) then s else s.poison [pa]

theorem poisoned_cases (s : State) (pa : Nat) :
    (isHole (basePa pa) = true ∧ s.poisoned pa = s) ∨ (s.sectorBad pa = true ∧ s.poisoned pa = s)
      ∨ (s.sectorBad pa = false ∧ isHole (basePa pa) = false ∧ s.poisoned pa = s.withSoft (.sector (sectorOf pa))) := by
  unfold State.poisoned
  cases hhole : isHole (basePa pa) with
  | true => exact .inl ⟨rfl, rfl⟩
  | false => cases hbad : s.sectorBad pa with
    | true => exact .inr (.inl ⟨rfl, poison_known (by rw [sectorBad_sectorOf, hbad])⟩)
    | false => exact .inr (.inr ⟨rfl, rfl, poison_new (by rw [sectorBad_sectorOf, hbad])⟩)

section
variable {s : State} {pa : Nat}

theorem poisoned_frame : s.poisoned pa = { s with soft := (s.poisoned pa).soft } := by
  obtain ⟨-, h⟩ | ⟨-, h⟩ | ⟨-, -, h⟩ := poisoned_cases s pa
  · rw [h]
  · rw [h]
  · rw [h]; rfl

theorem poisoned_here (hhole : isHole (basePa pa) = false) : (s.poisoned pa).isPoisoned pa = true := by
  obtain ⟨h, -⟩ | ⟨hbad, h⟩ | ⟨-, -, h⟩ := poisoned_cases s pa
  · rw [hhole] at h; cases h
  · simp [h, State.isPoisoned, hbad]
  · simp [h, State.isPoisoned, sectorBad_withSoft, spoils, sectorOf_sectorOf]

/-- R53: an error in a metadata line makes the lines that it describes read as poison. -/
theorem poisoned_described (hhole : isHole (basePa pa) = false) (hbad : s.sectorBad pa = false) {a : Nat} (hown : isOwn a = true)
    (hlocal : isLocal a = true) (hcarve : inCarve a = false) (hlo : metaLine a ≤ pa) (hhi : pa < metaLine a + 128) :
    (s.poisoned pa).isPoisoned a = true := by
  obtain ⟨h, -⟩ | ⟨h, -⟩ | ⟨-, -, h⟩ := poisoned_cases s pa
  · rw [hhole] at h; cases h
  · rw [hbad] at h; cases h
  · obtain ⟨hlo', hhi'⟩ := (metaLine_has_sector a pa).2 ⟨hlo, hhi⟩
    simp [h, State.isPoisoned, metaBad_withSoft_sector, hown, hlocal, hcarve, hlo', hhi']

theorem poisoned_elsewhere {a : Nat} (hsector : a / 32 ≠ pa / 32) (hmeta : pa < metaLine a ∨ metaLine a + 128 ≤ pa) :
    (s.poisoned pa).isPoisoned a = s.isPoisoned a := by
  obtain ⟨-, h⟩ | ⟨-, h⟩ | ⟨-, -, h⟩ := poisoned_cases s pa
  · rw [h]
  · rw [h]
  · have hne : (sectorOf (sectorOf pa) == sectorOf a) = false := by
      rw [sectorOf_sectorOf]
      exact beq_eq_false_iff_ne.2 fun he => hsector (by unfold sectorOf at he; omega)
    have hout : (decide (metaLine a ≤ sectorOf pa) && decide (sectorOf pa < metaLine a + 128)) = false := by
      rw [Bool.eq_false_iff, ne_eq, Bool.and_eq_true, decide_eq_true_eq, decide_eq_true_eq, metaLine_has_sector]
      omega
    rw [h, State.isPoisoned, sectorBad_withSoft, metaBad_withSoft_sector, hout]
    simp only [spoils, hne, Bool.or_false, Bool.and_false]
    rfl

end

/-- R448: the host completes its request for the sector with an error. -/
theorem exec_hostError {s : State} {pa : Nat} (hown : isOwn pa = true) (hhost : isHost pa = true) :
    exec (.poisonDetect (.hostError pa)) s = .next (s.withSoft (.hostError pa)) := by
  change execPoisonDetect (.hostError pa) s = _
  simp only [execPoisonDetect, hown, hhost, Bool.and_true, if_true]
  rfl

/-! ## Registers (R206) -/

theorem sameTarget_sreg (u : PoisonTarget) (g : GroupId) (n : Nat) : sameTarget u (.sreg g n) = (u == .sreg g n) := by
  cases u <;> rfl

/-- The state once a scalar register bears a soft error. -/
def State.softReg (s : State) (g : GroupId) (n : Nat) : State := if s.isSoft (.sreg g n) then s else s.withSoft (.sreg g n)

theorem exec_softReg (s : State) (g : GroupId) (n : Nat) : exec (.poisonDetect (.sreg g n)) s = .next (s.softReg g n) := by
  change execPoisonDetect (.sreg g n) s = _
  have hany : (s.soft.any fun u => sameTarget u (.sreg g n)) = s.isSoft (.sreg g n) := by
    simp only [sameTarget_sreg]
    exact List.any_beq'
  simp only [execPoisonDetect, hany]
  rfl

theorem isSoft_withSoft (s : State) (t x : PoisonTarget) : (s.withSoft t).isSoft x = (s.isSoft x || x == t) := by
  simp only [State.isSoft, State.withSoft, List.contains_eq_any_beq, List.any_append, List.any_cons, List.any_nil, Bool.or_false]

theorem softReg_spec (s : State) (g : GroupId) (n : Nat) :
    s.softReg g n = { s with soft := (s.softReg g n).soft } ∧ (s.softReg g n).isSoft (.sreg g n) = true
      ∧ ∀ x, x ≠ .sreg g n → (s.softReg g n).isSoft x = s.isSoft x := by
  unfold State.softReg
  split
  · next h => exact ⟨rfl, h, fun _ _ => rfl⟩
  · exact ⟨rfl, by simp [isSoft_withSoft], fun x hx => by simp [isSoft_withSoft, hx]⟩

/-! ## The core clock (R461) -/

/-- A clock of a step of 62.5 MHz, rounded either way. -/
def isClockStep (clk : Nat) : Prop := ∃ k, k ≤ 10 ∧ 2 * clk ≤ 2501 - 125 * k ∧ 2500 - 125 * k ≤ 2 * clk + 1

theorem clockOk_iff (clk : Nat) : clockOk clk = true ↔ isClockStep clk := by
  simp only [clockOk, isClockStep, List.any_eq_true, List.mem_range, Bool.and_eq_true, decide_eq_true_eq, Nat.lt_succ_iff]

theorem pwrstat_fields {low : Nat} (hlow : low < 2) (p clk : BitVec 16) :
    (low * 2 ^ 32 + place p.toNat 16 16 + place clk.toNat 0 16) % 2 ^ 64 / 2 ^ 0 % 2 ^ 16 = clk.toNat
      ∧ (low * 2 ^ 32 + place p.toNat 16 16 + place clk.toNat 0 16) % 2 ^ 64 / 2 ^ 16 % 2 ^ 16 = p.toNat
      ∧ (low * 2 ^ 32 + place p.toNat 16 16 + place clk.toNat 0 16) / 2 ^ 32 % 2 = low := by
  have hp := p.isLt
  have hclk := clk.isLt
  unfold place
  omega

/-- What PWRSTAT is to say after a change of the clock. -/
def State.clockIs (s t : State) (clk p : BitVec 16) : Prop :=
  t = { s with regs := { s.regs with pwrstat := t.regs.pwrstat } }
    ∧ t.regs.pwrstat.extractLsb' 0 16 = clk ∧ t.regs.pwrstat.extractLsb' 16 16 = p ∧ t.regs.pwrstat.getLsbD 32 = decide (clk.toNat < 1250)

theorem setPower_clockIs (s : State) (clk p : BitVec 16) (pwr : Option Nat) (hp : pwr.getD (bitsOf s.regs.pwrstat.toNat 16 16) = p.toNat) :
    s.clockIs (s.setPower clk.toNat pwr) clk p := by
  have hstat : (s.setPower clk.toNat pwr).regs.pwrstat
      = BitVec.ofNat 64 ((if clk.toNat < 1250 then 1 else 0) * 2 ^ 32 + place p.toNat 16 16 + place clk.toNat 0 16) := by
    rw [State.setPower, hp]
    split <;> rfl
  have hlow : (if clk.toNat < 1250 then 1 else 0) < 2 := by split <;> decide
  obtain ⟨hclk, hpwr, hbit⟩ := pwrstat_fields hlow p clk
  refine ⟨rfl, BitVec.eq_of_toNat_eq ?_, BitVec.eq_of_toNat_eq ?_, ?_⟩
  · rw [hstat, BitVec.extractLsb'_toNat, BitVec.toNat_ofNat, Nat.shiftRight_eq_div_pow, hclk]
  · rw [hstat, BitVec.extractLsb'_toNat, BitVec.toNat_ofNat, Nat.shiftRight_eq_div_pow, hpwr]
  · rw [hstat, BitVec.getLsbD_ofNat, Nat.testBit_eq_decide_div_mod_eq, hbit]
    split <;> simp [*]

/-- A change that leaves the power as it is. -/
theorem setPower_same (s : State) (clk : BitVec 16) : s.clockIs (s.setPower clk.toNat none) clk (s.regs.pwrstat.extractLsb' 16 16) :=
  setPower_clockIs s clk _ none (by rw [BitVec.extractLsb'_toNat, Nat.shiftRight_eq_div_pow]; rfl)

theorem clk_eq (s : State) : s.clk = (s.regs.pwrstat.extractLsb' 0 16).toNat := by
  rw [BitVec.extractLsb'_toNat, Nat.shiftRight_eq_div_pow]; rfl

theorem cap_eq (s : State) : s.cap = (s.regs.pwrctl.extractLsb' 0 12).toNat := by
  rw [BitVec.extractLsb'_toNat, Nat.shiftRight_eq_div_pow]; rfl

/-- R461: a value that is no step changes nothing. -/
theorem noStep_ignored {s : State} {clk : BitVec 16} (pwr : BitVec 16) (h : ¬ isClockStep clk.toNat) :
    exec (.thermalThrottle clk) s = .next s ∧ exec (.thermalRecover clk) s = .next s ∧ exec (.powerThrottle clk pwr) s = .next s
      ∧ exec (.powerUnthrottle clk pwr) s = .next s := by
  have hno : clockOk clk.toNat = false := Bool.eq_false_iff.2 fun hk => h ((clockOk_iff _).1 hk)
  refine ⟨?_, ?_, ?_, ?_⟩
  · change execThermalThrottle clk s = _
    simp [execThermalThrottle, hno]
  · change execThermalRecover clk s = _
    simp [execThermalRecover, hno]
  · change execPowerThrottle clk pwr s = _
    simp [execPowerThrottle, hno]
  · change execPowerUnthrottle clk pwr s = _
    simp [execPowerUnthrottle, hno]

section
variable {s : State} {clk pwr : BitVec 16} (hstep : isClockStep clk.toNat)
include hstep

theorem exec_thermalThrottle (h : clk.toNat < s.clk) : exec (.thermalThrottle clk) s = .next (s.setPower clk.toNat none) := by
  change execThermalThrottle clk s = _
  simp [execThermalThrottle, (clockOk_iff _).2 hstep, h]

theorem exec_thermalRecover (h : s.clk < clk.toNat) : exec (.thermalRecover clk) s = .next (s.setPower clk.toNat none) := by
  change execThermalRecover clk s = _
  simp [execThermalRecover, (clockOk_iff _).2 hstep, h]

theorem exec_powerThrottle (h : clk.toNat < s.clk) (hcap : s.cap < pwr.toNat) :
    exec (.powerThrottle clk pwr) s = .next (s.setPower clk.toNat (some pwr.toNat)) := by
  change execPowerThrottle clk pwr s = _
  simp [execPowerThrottle, (clockOk_iff _).2 hstep, h, hcap]

theorem exec_powerUnthrottle (h : s.clk < clk.toNat) (hcap : pwr.toNat ≤ s.cap) :
    exec (.powerUnthrottle clk pwr) s = .next (s.setPower clk.toNat (some pwr.toNat)) := by
  change execPowerUnthrottle clk pwr s = _
  simp [execPowerUnthrottle, (clockOk_iff _).2 hstep, h, hcap]

end

/-! ## Warnings and trips (R462) -/

theorem exec_thermalWarning (s : State) : exec .thermalWarning s = .next (if s.regs.bootstat.getLsbD 8 then s.machineCheck 3 else s) := rfl

theorem mem_machineCheck (s : State) (code : Nat) : (s.machineCheck code).mem = s.mem := by
  rw [State.machineCheck, raiseVector_frame]

/-- The fields of BOOTSTAT after an error at a stage. -/
theorem bootstat_fields (n : Nat) {err : Nat} (herr : err < 2 ^ 16) :
    (err * 2 ^ 32 + n % 2 ^ 8) % 2 ^ 64 / 2 ^ 32 % 2 ^ 16 = err ∧ (err * 2 ^ 32 + n % 2 ^ 8) / 2 ^ 8 % 2 = 0
      ∧ (err * 2 ^ 32 + n % 2 ^ 8) % 2 ^ 64 / 2 ^ 0 % 2 ^ 8 = n / 2 ^ 0 % 2 ^ 8 := by
  omega

theorem bootstat_bootFails (s : State) (err : Nat) :
    (s.bootFails err).regs.bootstat = BitVec.ofNat 64 (err * 2 ^ 32 + s.regs.bootstat.toNat % 2 ^ 8) := by
  rw [State.bootFails, raiseVector_frame, State.setBootstat, State.stage, bitsOf, Nat.pow_zero, Nat.div_one]

theorem bootFails_fields (s : State) {err : Nat} (herr : err < 2 ^ 16) :
    (s.bootFails err).regs.bootstat.extractLsb' 32 16 = BitVec.ofNat 16 err ∧ (s.bootFails err).regs.bootstat.getLsbD 8 = false
      ∧ (s.bootFails err).regs.bootstat.extractLsb' 0 8 = s.regs.bootstat.extractLsb' 0 8 := by
  obtain ⟨herr', hready, hstage⟩ := bootstat_fields s.regs.bootstat.toNat herr
  rw [bootstat_bootFails]
  refine ⟨BitVec.eq_of_toNat_eq ?_, ?_, BitVec.eq_of_toNat_eq ?_⟩
  · rw [BitVec.extractLsb'_toNat, BitVec.toNat_ofNat, Nat.shiftRight_eq_div_pow, herr', BitVec.toNat_ofNat, Nat.mod_eq_of_lt herr]
  · rw [BitVec.getLsbD_ofNat, Nat.testBit_eq_decide_div_mod_eq, hready]
    rfl
  · rw [BitVec.extractLsb'_toNat, BitVec.toNat_ofNat, Nat.shiftRight_eq_div_pow, hstage, BitVec.extractLsb'_toNat, Nat.shiftRight_eq_div_pow]

theorem tripped_raiseVector (s : State) (v : Nat) : (s.raiseVector v).tripped = s.tripped := by
  rw [raiseVector_frame]

theorem tripped_bootFails (s : State) (err : Nat) : (s.bootFails err).tripped = s.tripped := by
  rw [State.bootFails, tripped_raiseVector, State.setBootstat]

/-- Settles O58: soft errors, the core clock, warnings and trips. -/
theorem powerAndErrors : Obligations.PowerAndErrors := by
  refine ⟨fun s pa => ⟨s.poisoned pa, rfl, poisoned_frame, poisoned_here, fun hhole hbad a => poisoned_described hhole hbad, fun a => poisoned_elsewhere⟩,
    fun s pa hown hhost => ⟨_, exec_hostError hown hhost, rfl, ?_⟩, fun s g n => ⟨s.softReg g n, exec_softReg s g n, softReg_spec s g n⟩, fun s clk pwr => ?_,
    fun s => ⟨fun h => ?_, fun h => ?_, ?_⟩⟩
  · simp [State.isPoisoned, sectorBad_withSoft, spoils]
  · refine ⟨fun hstep h => ?_, fun hstep h => ?_, fun hstep h hcap => ?_, fun hstep h hcap => ?_, noStep_ignored pwr⟩
    · exact ⟨_, exec_thermalThrottle hstep (by rwa [clk_eq]), setPower_same s clk⟩
    · exact ⟨_, exec_thermalRecover hstep (by rwa [clk_eq]), setPower_same s clk⟩
    · exact ⟨_, exec_powerThrottle hstep (by rwa [clk_eq]) (by rwa [cap_eq]), setPower_clockIs s clk pwr _ rfl⟩
    · exact ⟨_, exec_powerUnthrottle hstep (by rwa [clk_eq]) (by rwa [cap_eq]), setPower_clockIs s clk pwr _ rfl⟩
  · rw [exec_thermalWarning, h]; rfl
  · obtain ⟨hcode, hvalid, hcount⟩ := mcstat_machineCheck s (code := 3) (by decide)
    exact ⟨s.machineCheck 3, by rw [exec_thermalWarning, if_pos h], hcode, hvalid, hcount, mem_machineCheck s 3⟩
  · obtain ⟨herr, hready, hstage⟩ := bootFails_fields { s with tripped := true } (err := 4) (by decide)
    exact ⟨_, rfl, tripped_bootFails _ 4, herr, hready, hstage⟩

end Sys2Proof.Machine
end

