-- ==== Sys2Proof/Proofs/Nodes.lean ====
section
/-! PROOFS. O46: NPOST, NDEC, NDONE and the rules of nodes (spec/16 R431 to R433, spec/09 R240, R241, R244, R245, spec/02 R49). -/

namespace Sys2Proof.Machine

/-! ## What the device's own accesses leave as it was -/

theorem lasting_storeNum (s : State) (pa n v : Nat) : (s.storeNum pa n v).lasting = s.lasting := lasting_plainStore s _

theorem lasting_readDesc (s : State) (ix : Nat) : (s.readDesc ix).lasting = s.lasting := ite_keeps State.lasting (lasting_plainRequest s _)

theorem lasting_setNodeState (s : State) (ix v : Nat) : (s.setNodeState ix v).lasting = s.lasting := lasting_storeNum s _ _ _

theorem lasting_setDesc (s : State) (ix byte n v : Nat) : (s.setDesc ix byte n v).lasting = s.lasting := lasting_storeNum s _ _ _

section
variable {s t : State} (h : t.lasting = s.lasting)
include h

theorem regs_of_lasting : t.regs = s.regs := view_of_lasting State.regs (fun _ => rfl) h

theorem nodes_of_lasting : t.nodes = s.nodes := view_of_lasting State.nodes (fun _ => rfl) h

theorem readyTicket_of_lasting : t.readyTicket = s.readyTicket := view_of_lasting State.readyTicket (fun _ => rfl) h

theorem node?_of_lasting (ix : Nat) : t.node? ix = s.node? ix := by
  unfold State.node?
  rw [nodes_of_lasting h]

theorem nodeCount_of_lasting : t.nodeCount = s.nodeCount := by
  unfold State.nodeCount
  rw [regs_of_lasting h]

end

/-! ## Reading a descriptor (R49) -/

theorem byte_readDesc {a : Nat} (ha : inCarve a = false) (s : State) (ix : Nat) : (s.readDesc ix).byte a = s.byte a :=
  ite_keeps (State.byte · a) (byte_plainRequest ha s _)

/-! ## Readiness (R245) -/

theorem nodes_makeReady (s : State) (ix : Nat) :
    (s.makeReady ix).nodes = (s.modNode ix fun n => { n with ready := true, ticket := s.readyTicket }).nodes := by
  rw [State.makeReady, nodes_of_lasting (lasting_setDesc _ _ _ _ _), nodes_of_lasting (lasting_setNodeState _ _ _)]

theorem readyTicket_makeReady (s : State) (ix : Nat) : (s.makeReady ix).readyTicket = s.readyTicket + 1 := by
  rw [State.makeReady, readyTicket_of_lasting (lasting_setDesc _ _ _ _ _), readyTicket_of_lasting (lasting_setNodeState _ _ _)]

theorem node?_makeReady {s : State} {ix : Nat} {n : Node} (h : s.node? ix = some n) :
    (s.makeReady ix).node? ix = some { n with ready := true, ticket := s.readyTicket } := by
  have hmod := modNode_node? (f := fun n => { n with ready := true, ticket := s.readyTicket }) (fun _ => rfl) s ix
  rw [State.node?, nodes_makeReady]
  exact hmod.trans (by rw [h]; rfl)

/-- A change of a named node that keeps indices keeps the list of indices. -/
theorem indices_modNode {f : Node → Node} (hf : ∀ n, (f n).index = n.index) (s : State) (k : Nat) :
    ((s.modNode k f).nodes.map fun n => n.index) = s.nodes.map fun n => n.index := by
  rw [State.modNode, List.map_map]
  exact List.map_congr_left fun n _ => ite_keeps (fun n : Node => n.index) (hf n)

theorem indices_makeReady (s : State) (ix : Nat) : ((s.makeReady ix).nodes.map fun n => n.index) = s.nodes.map fun n => n.index := by
  rw [nodes_makeReady]
  exact indices_modNode (f := fun n => { n with ready := true, ticket := s.readyTicket }) (fun _ => rfl) s ix

/-! ## Posting (R240, R241) -/

/-- R240: what refuses a post: an index outside the table, a node that is not IDLE, and another ASID's. -/
def State.refusesPost (s : State) (ix : Nat) (asid : Option (BitVec 12)) : Prop :=
  s.nodeCount ≤ ix ∨ dfield ((s.readDesc ix).descAt ix) 704 3 ≠ 0 ∨ (s.node? ix).isSome = true
    ∨ ∃ a, asid = some a ∧ (newNode ix ((s.readDesc ix).descAt ix)).asid ≠ a

/-- The node that a post accepts joins the scheduler's nodes. -/
def State.joinNode (s : State) (n : Node) : State :=
  let s := { s with nodes := s.nodes ++ [n] }
  if n.f 160 32 = 0 then s.makeReady n.index else s.setNodeState n.index 1

theorem postNode_eq (s : State) (ix : Nat) (asid : Option (BitVec 12)) :
    s.postNode ix asid =
      let u := s.readDesc ix
      let n := newNode ix (u.descAt ix)
      let other := match asid with | some a => n.asid != a | none => false
      if decide (u.nodeCount ≤ ix) || dfield (u.descAt ix) 704 3 != 0 || (u.node? ix).isSome || other then (u.bumpSched 32, 1)
      else if (u.badNode n).2 = true then (((u.badNode n).1.bumpSched 32).doneNode n 3, 2) else ((u.badNode n).1.joinNode n, 0) := by
  unfold State.postNode
  simp only []
  generalize (s.readDesc ix).badNode (newNode ix ((s.readDesc ix).descAt ix)) = r
  obtain ⟨v, b⟩ := r
  cases b <;> rfl

theorem refusesPost_iff (s : State) (ix : Nat) (asid : Option (BitVec 12)) :
    (decide ((s.readDesc ix).nodeCount ≤ ix) || dfield ((s.readDesc ix).descAt ix) 704 3 != 0 || ((s.readDesc ix).node? ix).isSome
      || match asid with | some a => (newNode ix ((s.readDesc ix).descAt ix)).asid != a | none => false) = true ↔ s.refusesPost ix asid := by
  rw [nodeCount_of_lasting (lasting_readDesc s ix), node?_of_lasting (lasting_readDesc s ix)]
  cases asid <;> simp [State.refusesPost, or_assoc]

theorem postNode_refused {s : State} {ix : Nat} {asid : Option (BitVec 12)} (h : s.refusesPost ix asid) :
    s.postNode ix asid = ((s.readDesc ix).bumpSched 32, 1) := by
  rw [postNode_eq]
  exact if_pos ((refusesPost_iff s ix asid).2 h)

theorem postNode_taken {s : State} {ix : Nat} {asid : Option (BitVec 12)} (h : ¬ s.refusesPost ix asid) :
    s.postNode ix asid =
      let r := (s.readDesc ix).badNode (newNode ix ((s.readDesc ix).descAt ix))
      if r.2 = true then ((r.1.bumpSched 32).doneNode (newNode ix ((s.readDesc ix).descAt ix)) 3, 2)
      else (r.1.joinNode (newNode ix ((s.readDesc ix).descAt ix)), 0) := by
  rw [postNode_eq]
  exact if_neg (mt (refusesPost_iff s ix asid).1 h)

theorem indices_joinNode (s : State) (n : Node) :
    ((s.joinNode n).nodes.map fun n => n.index) = s.nodes.map (fun n => n.index) ++ [n.index] := by
  unfold State.joinNode
  simp only []
  split
  · rw [indices_makeReady, List.map_append]
    rfl
  · rw [nodes_of_lasting (lasting_setNodeState _ _ _), List.map_append]
    rfl

theorem joinNode_ready {n : Node} (s : State) (h : n.f 160 32 = 0) : ∃ m ∈ (s.joinNode n).nodes, m.index = n.index ∧ m.ready = true := by
  unfold State.joinNode
  simp only [h, if_true, nodes_makeReady]
  refine ⟨{ n with ready := true, ticket := s.readyTicket }, List.mem_map.2 ⟨n, by simp, by simp⟩, rfl, rfl⟩

/-! ## Decrements (R244) -/

section
variable {s : State} {ix : Nat}

theorem decrement_overdec (hc : (s.readDesc ix).num (s.nodePa ix + 20) 4 = 0) : s.decrement ix = ((s.readDesc ix).bumpSched 0, 0, true) := by
  simp only [State.decrement, hc, if_true]

/-- The counter is stored, one lower. -/
def State.countDown (s : State) (ix : Nat) : State :=
  (s.readDesc ix).storeNum (s.nodePa ix + 20) 4 ((s.readDesc ix).num (s.nodePa ix + 20) 4 - 1)

/-- R245: a node whose counter `c` was 1 becomes READY. -/
def State.counted (s : State) (ix c : Nat) : State :=
  match s.node? ix with
  | some n => if c = 1 && !n.ready then s.makeReady ix else s
  | none => s

theorem counted_high {s : State} {ix c : Nat} (h : c ≠ 1) : s.counted ix c = s := by
  unfold State.counted
  split
  · simp [h]
  · rfl

theorem counted_ready {s : State} {ix : Nat} {n : Node} (hn : s.node? ix = some n) (hready : n.ready = false) : s.counted ix 1 = s.makeReady ix := by
  simp [State.counted, hn, hready]

theorem lasting_countDown (s : State) (ix : Nat) : (s.countDown ix).lasting = s.lasting :=
  (lasting_storeNum _ _ _ _).trans (lasting_readDesc s ix)

variable (hc : (s.readDesc ix).num (s.nodePa ix + 20) 4 ≠ 0)
include hc

theorem decrement_eq : s.decrement ix = ((s.countDown ix).counted ix ((s.readDesc ix).num (s.nodePa ix + 20) 4),
    (s.readDesc ix).num (s.nodePa ix + 20) 4 - 1, false) := by
  have hfold : (s.readDesc ix).storeNum (s.nodePa ix + 20) 4 ((s.readDesc ix).num (s.nodePa ix + 20) 4 - 1) = s.countDown ix := rfl
  cases hnode : (s.countDown ix).node? ix <;> simp only [State.decrement, State.counted, hc, if_false, hfold, hnode]

theorem decrement_left : (s.decrement ix).2 = ((s.readDesc ix).num (s.nodePa ix + 20) 4 - 1, false) := by
  rw [decrement_eq hc]

theorem nodes_decrement (h1 : (s.readDesc ix).num (s.nodePa ix + 20) 4 ≠ 1) : (s.decrement ix).1.nodes = s.nodes := by
  have hnodes : (s.countDown ix).nodes = s.nodes := nodes_of_lasting (lasting_countDown s ix)
  rw [decrement_eq hc, counted_high h1]
  exact hnodes

/-- R245: the decrement to 0 makes the node READY. -/
theorem decrement_ready (h1 : (s.readDesc ix).num (s.nodePa ix + 20) 4 = 1) {n : Node} (hn : s.node? ix = some n) (hready : n.ready = false) :
    ∃ m, (s.decrement ix).1.node? ix = some m ∧ m.ready = true ∧ m.ticket = s.readyTicket ∧ (s.decrement ix).1.readyTicket = s.readyTicket + 1 := by
  have hnode : (s.countDown ix).node? ix = some n := (node?_of_lasting (lasting_countDown s ix) ix).trans hn
  have hticket : (s.countDown ix).readyTicket = s.readyTicket := readyTicket_of_lasting (lasting_countDown s ix)
  have hdec : (s.decrement ix).1 = (s.countDown ix).makeReady ix := by
    rw [decrement_eq hc, h1, counted_ready hnode hready]
  rw [hdec, node?_makeReady hnode, readyTicket_makeReady, hticket]
  exact ⟨_, rfl, rfl, rfl, rfl⟩

end

/-! ## The instructions (R431 to R433) -/

theorem bitsOf_low (v w : Nat) : bitsOf v 0 w = v % 2 ^ w := by rw [bitsOf, Nat.pow_zero, Nat.div_one]

/-- A scalar result of a lane instruction of three words. -/
def State.laneResult (s : State) (d : BitVec 7) (v : Word64) : State := (s.setS d v).unhang.retire 3

theorem laneResult_does (s : State) (d : BitVec 7) (v : Word64) :
    Does (do modify fun s => s.setS d v
             retireWork 3) s () (s.laneResult d v) := does_bind (does_modify _ s) (act_retireWork 3 _)

section
variable {l : Lane} {s : State} {active : Word32} {k : Option Nat} {a : Word64} (hstart : Gives (laneStart l) s (active, k)) (hactive : active ≠ 0)
  (ha : Gives (readS (sregOf l.va)) s a) (hd : s.busyReg (sregOf l.vd) = false)
include hstart hactive ha hd

theorem npost_does (hacked : s.allAcked (.group s.g.id) = true) :
    Does (npost l) s () ((s.postNode (a.toNat % 2 ^ 20) (some s.g.asid)).1.laneResult (sregOf l.vd)
      (BitVec.ofNat 64 (s.postNode (a.toNat % 2 ^ 20) (some s.g.asid)).2)) := by
  refine gives_bind hstart ?_
  simp only [if_neg hactive, bitsOf_low]
  refine gives_bind ha (gives_bind (act_get s) ?_)
  rw [if_neg (by simp [hd])]
  exact gives_bind (awaitPerformed_gives hacked) (does_bind (act_stateful _ s) (laneResult_does _ _ _))

theorem ndec_does (hown : (s.readDesc (a.toNat % 2 ^ 20)).ownNode (a.toNat % 2 ^ 20) = true)
    (hacked : (s.readDesc (a.toNat % 2 ^ 20)).allAcked (.group (s.readDesc (a.toNat % 2 ^ 20)).g.id) = true)
    (horder : Gives (orderGate (.ndec l) 3) (s.readDesc (a.toNat % 2 ^ 20)) ()) :
    Does (ndec l) s () (((s.readDesc (a.toNat % 2 ^ 20)).decrement (a.toNat % 2 ^ 20)).1.laneResult (sregOf l.vd)
      (BitVec.ofNat 64 (((s.readDesc (a.toNat % 2 ^ 20)).decrement (a.toNat % 2 ^ 20)).2.1
        + ((s.readDesc (a.toNat % 2 ^ 20)).decrement (a.toNat % 2 ^ 20)).2.2.toNat * 2 ^ 32))) := by
  refine gives_bind hstart ?_
  simp only [if_neg hactive, bitsOf_low]
  refine gives_bind ha (gives_bind (act_get s) ?_)
  rw [if_neg (by simp [hd])]
  refine does_bind (does_modify _ s) (gives_bind (act_get _) ?_)
  rw [if_pos hown]
  exact gives_bind (awaitPerformed_gives hacked) (gives_bind horder (does_bind (act_stateful _ _) (laneResult_does _ _ _)))

theorem ndec_foreign (hown : (s.readDesc (a.toNat % 2 ^ 20)).ownNode (a.toNat % 2 ^ 20) = false) :
    Does (ndec l) s () ((s.readDesc (a.toNat % 2 ^ 20)).laneResult (sregOf l.vd) 0xFFFFFFFFFFFFFFFF) := by
  refine gives_bind hstart ?_
  simp only [if_neg hactive, bitsOf_low]
  refine gives_bind ha (gives_bind (act_get s) ?_)
  rw [if_neg (by simp [hd])]
  refine does_bind (does_modify _ s) (gives_bind (act_get _) ?_)
  rw [if_neg (by rw [hown]; exact Bool.false_ne_true)]
  exact laneResult_does _ _ _

/-- What NDONE does once it has read the descriptor of node `ix`. -/
def ndoneRead (l : Lane) (ix : Nat) (k : Option Nat) (own : Bool) (word : Option Word64) : Act Unit := do
  if !own then
    modify fun s => s.setS (sregOf l.vd) 0xFFFFFFFFFFFFFFFE
    retireWork 3
  else match word with
    | some v =>
      modify fun s => s.setS (sregOf l.vd) v
      retireWork 3
    | none =>
      if l.imm.getLsbD 0 then
        modify fun s => s.setS (sregOf l.vd) allOnes
        retireWork 3
      else throw (.park { instr := .ndone l, words := 3, on := .nodeDone ix, vals := [], mark := k })

theorem ndone_starts : Act.outcome (ndone l) s = Act.outcome (ndoneRead l (a.toNat % 2 ^ 20) k
      ((s.readDesc (a.toNat % 2 ^ 20)).ownNode (a.toNat % 2 ^ 20)) ((s.readDesc (a.toNat % 2 ^ 20)).doneWord (a.toNat % 2 ^ 20)))
    (s.readDesc (a.toNat % 2 ^ 20)) := by
  refine (outcome_bind hstart).trans ?_
  simp only [if_neg hactive, bitsOf_low]
  refine (outcome_bind ha).trans ((outcome_bind (act_get s)).trans ?_)
  rw [if_neg (by simp [hd])]
  exact (outcome_bind (does_modify _ s)).trans (outcome_bind (act_get _))

end

section
variable (l : Lane) (ix : Nat) (k : Option Nat) (u : State)

theorem ndoneRead_foreign (w : Option Word64) : Act.outcome (ndoneRead l ix k false w) u = .next (u.laneResult (sregOf l.vd) 0xFFFFFFFFFFFFFFFE) :=
  outcome_of_does (laneResult_does u _ _)

theorem ndoneRead_done (v : Word64) : Act.outcome (ndoneRead l ix k true (some v)) u = .next (u.laneResult (sregOf l.vd) v) :=
  outcome_of_does (laneResult_does u _ v)

variable {l}

theorem ndoneRead_nb (h : l.imm.getLsbD 0 = true) :
    Act.outcome (ndoneRead l ix k true none) u = .next (u.laneResult (sregOf l.vd) 0xFFFFFFFFFFFFFFFF) := by
  refine outcome_of_does ?_
  change Does (if l.imm.getLsbD 0 then _ else _) u () _
  rw [if_pos h]
  exact laneResult_does u _ _

theorem ndoneRead_waits (h : l.imm.getLsbD 0 = false) :
    Act.outcome (ndoneRead l ix k true none) u = .next (u.park { instr := .ndone l, words := 3, on := .nodeDone ix, vals := [], mark := k }) := by
  refine outcome_of_parks ?_
  change Parks (if l.imm.getLsbD 0 then _ else _) u _
  rw [if_neg (by rw [h]; exact Bool.false_ne_true)]
  exact act_throw _ u

end

/-! ## NDONE_RESUME (R433) -/

theorem focusWg_frame (s : State) (i : WgId) : s.focusWg i = { s with w := (s.focusWg i).w, otherWgs := (s.focusWg i).otherWgs } := by
  unfold State.focusWg
  split
  · rfl
  · split <;> rfl

/-- A group brought to issue moves groups, workgroups and the grant alone. -/
theorem exchange_frame {s t : State} {g : GroupId} {slot : Bool} (h : s.exchange g slot = some t) :
    t = { s with g := t.g, w := t.w, others := t.others, otherWgs := t.otherWgs, live := t.live, slot := slot, granted := false } := by
  unfold State.exchange at h
  split at h
  · obtain rfl := Option.some.inj h; rfl
  · split at h
    · cases h
    · obtain rfl := Option.some.inj h
      rw [focusWg_frame]

theorem doneWord_exchange {s t : State} {g : GroupId} {slot : Bool} (h : s.exchange g slot = some t) (ix : Nat) : t.doneWord ix = s.doneWord ix := by
  rw [exchange_frame h]
  rfl

theorem ndoneResume_resumes {l : Lane} {s t : State} {g : GroupId} {slot : Bool} {w : Wait} {ix : Nat} {v : Word64} (ht : s.atPath g slot t)
    (hw : t.path.wait = some w) (hon : w.on = .nodeDone ix) (hinstr : w.instr = .ndone l) (hstop : t.g.stop ≠ .stopped) (hv : t.doneWord ix = some v) :
    Resumes (.ndoneResume g slot) s g slot ((t.endWait.setS (sregOf l.vd) v).unhang.retire 3) := by
  have hword : s.doneWord ix = some v := (doneWord_exchange ht ix).symm.trans hv
  have hrun : Act.state (do modify fun s => s.endWait.setS (sregOf l.vd) v
                            retireWork 3) t = (t.endWait.setS (sregOf l.vd) v).unhang.retire 3 :=
    Host.Outcome.next.inj (outcome_of_does (does_bind (does_modify _ t) (act_retireWork 3 _)))
  have he : exec (.ndoneResume g slot) s = execNdoneResume g slot s := rfl
  rw [Resumes, he]
  refine congrArg Host.Outcome.next (withGroup_congr ht ?_)
  simp only [hw, hon, hinstr, hword, Option.map_some, hrun]
  rw [if_neg (by simpa using hstop)]

/-- Settles O46: NPOST, NDEC, NDONE and its resumption, posts, and decrements. -/
theorem nodes : Obligations.Nodes := by
  refine ⟨⟨fun l s active k a hstart hactive ha hd => ?_, fun l s t g slot w ix v => ndoneResume_resumes⟩, fun s ix => ⟨⟨?_, ?_, fun a ha => byte_readDesc ha s ix⟩,
    fun asid => ⟨postNode_refused, fun hix hstate hnode hasid => ?_⟩, fun hc => ⟨decrement_overdec hc, show (s.readDesc ix).nodes = s.nodes from nodes_of_lasting (lasting_readDesc s ix), rfl⟩,
    fun hc => ⟨decrement_left hc, nodes_decrement hc, fun h1 n => decrement_ready hc h1⟩⟩⟩
  · have hdone := ndone_starts hstart hactive ha hd
    refine ⟨fun hacked => outcome_of_does (npost_does hstart hactive ha hd hacked), fun hown hacked horder => ?_, fun hown => ⟨?_, ?_⟩,
      fun hown => ⟨fun v hv => ?_, fun hv hnb => ?_, fun hv hnb => ?_⟩⟩
    · refine (outcome_of_does (ndec_does hstart hactive ha hd hown hacked horder)).trans ?_
      cases ((s.readDesc (a.toNat % 2 ^ 20)).decrement (a.toNat % 2 ^ 20)).2.2 <;> rfl
    · exact outcome_of_does (ndec_foreign hstart hactive ha hd hown)
    · rw [hown] at hdone
      exact hdone.trans (ndoneRead_foreign l _ k _ _)
    · rw [hown, hv] at hdone
      exact hdone.trans (ndoneRead_done l _ k _ v)
    · rw [hown, hv] at hdone
      exact hdone.trans (ndoneRead_nb _ k _ hnb)
    · rw [hown, hv] at hdone
      exact hdone.trans (ndoneRead_waits _ k _ hnb)
  · exact nodeCount_of_lasting (lasting_readDesc s ix)
  · exact nodes_of_lasting (lasting_readDesc s ix)
  · have htaken : ¬ s.refusesPost ix asid := by
      rintro (h | h | h | ⟨a, ha, h⟩)
      · omega
      · exact h hstate
      · rw [hnode] at h; cases h
      · exact h (hasid a ha)
    refine ⟨fun hbad => (postNode_taken htaken).trans (if_pos hbad), fun hgood => ?_⟩
    have hpost := (postNode_taken htaken).trans (if_neg (by rw [hgood]; exact Bool.false_ne_true))
    rw [hpost]
    exact ⟨rfl, indices_joinNode _ _, joinNode_ready (n := newNode ix ((s.readDesc ix).descAt ix)) _⟩

end Sys2Proof.Machine
end

