-- ==== Sys2Proof/Proofs/Commands.lean ====
section
/-! PROOFS. O30: issuing commands, and timelines (spec/04 R59, R109, R110, spec/03 R76, spec/11 R283). -/

namespace Sys2Proof.Machine

/-! ## Words kept by context (R109) -/

@[simp] theorem ctxGet_ctxSet (xs : List (Ctx × Word64)) (c : Ctx) (v : Word64) : ctxGet (ctxSet xs c v) c = v := by
  simp [ctxGet, ctxSet]

theorem ctxGet_ctxSet_other (xs : List (Ctx × Word64)) {c x : Ctx} (h : x ≠ c) (v : Word64) : ctxGet (ctxSet xs c v) x = ctxGet xs x := by
  have hc : (c == x) = false := beq_eq_false_iff_ne.2 h.symm
  have hfind : (xs.filter fun y => y.1 != c).find? (fun y => y.1 == x) = xs.find? fun y => y.1 == x := by
    rw [List.find?_filter]
    refine congrFun (congrArg List.find? (funext fun y => ?_)) xs
    by_cases hy : y.1 = x
    · simp [hy, h]
    · simp [hy]
  rw [ctxGet, ctxSet, List.find?_cons, hc]
  exact congrArg (fun o : Option (Ctx × Word64) => (o.map Prod.snd).getD 0) hfind

/-! ## The state of a tile (R76, Table 3-4) -/

/-- Bits below `k` are those of the number modulo `2 ^ k`. -/
theorem bitsOf_mod (x : Nat) {lo w k : Nat} (h : lo + w ≤ k) : bitsOf (x % 2 ^ k) lo w = bitsOf x lo w := by
  refine Nat.eq_of_testBit_eq fun i => ?_
  rw [testBit_bitsOf, testBit_bitsOf, Nat.testBit_mod_two_pow]
  by_cases hi : i < w
  · simp [hi, show lo + i < k by omega]
  · simp [hi]

theorem bitsOf_div (x k lo w : Nat) : bitsOf (x / 2 ^ k) lo w = bitsOf x (k + lo) w := by
  rw [bitsOf, bitsOf, Nat.div_div_eq_div_mul, Nat.pow_add]

theorem bitsOf_lt (x lo w : Nat) : bitsOf x lo w < 2 ^ w := Nat.mod_lt _ (by positivity)

/-- The fields of an entry from its DOM field up, and their place in the entry. -/
theorem highFields {dom scl st gen surv : Nat} (hdom : dom < 2 ^ 3) (hscl : scl < 2 ^ 1) (hst : st < 4) (hgen : gen < 2 ^ 16) (hsurv : surv < 2 ^ 128) :
    let h := dom + 8 * scl + 16 * st + 64 * gen + 4194304 * surv
    bitsOf h 0 3 = dom ∧ bitsOf h 3 1 = scl ∧ bitsOf h 4 2 = st ∧ bitsOf h 6 16 = gen ∧ bitsOf h 22 128 = surv := by
  unfold bitsOf
  omega

/-- An entry written back with another state reads with that state, and is otherwise as it was. -/
theorem ofBits_bits (old : BitVec 256) {st : Nat} (hst : st < 4) :
    Tile.ofBits (Tile.bits old { Tile.ofBits old with state := st }) = { Tile.ofBits old with state := st } := by
  generalize hn : old.toNat = n
  obtain ⟨hdom, hscl, hstate, hgen, hsurv⟩ := highFields (bitsOf_lt n 106 3) (bitsOf_lt n 109 1) hst (bitsOf_lt n 112 16) (bitsOf_lt n 128 128)
  generalize hh : bitsOf n 106 3 + 8 * bitsOf n 109 1 + 16 * st + 64 * bitsOf n 112 16 + 4194304 * bitsOf n 128 128 = h at *
  have hv : (Tile.bits old { Tile.ofBits old with state := st }).toNat = n % 2 ^ 106 + 2 ^ 106 * h := by
    simp only [Tile.bits, Tile.ofBits, hn, BitVec.toNat_ofNat, place, bitsOf, ← hh]
    omega
  generalize (Tile.bits old { Tile.ofBits old with state := st }) = b at hv ⊢
  have hmod : b.toNat % 2 ^ 106 = n % 2 ^ 106 := by omega
  have hdiv : b.toNat / 2 ^ 106 = h := by omega
  have hlow : ∀ lo w, lo + w ≤ 106 → bitsOf b.toNat lo w = bitsOf n lo w := fun lo w hle => by
    rw [← bitsOf_mod b.toNat hle, hmod, bitsOf_mod n hle]
  have hhigh : ∀ lo w, bitsOf b.toNat (106 + lo) w = bitsOf h lo w := fun lo w => by rw [← hdiv, bitsOf_div]
  have hflag : ∀ x : Nat, bitOf x 109 = (bitsOf x 109 1 == 1) := fun _ => rfl
  simp only [Tile.ofBits, hn, hflag, hlow 102 4, hlow 93 9, hlow 86 7, hlow 84 2, hlow 72 12, hlow 0 14, Nat.reduceAdd, Nat.reduceLeDiff,
    (hhigh 0 3).trans hdom, (hhigh 3 1).trans hscl, (hhigh 4 2).trans hstate, (hhigh 6 16).trans hgen, (hhigh 22 128).trans hsurv]

theorem tile_setTileState (s : State) (n : Nat) {st : Nat} (hst : st < 4) : (s.setTileState n st).tile n = { s.tile n with state := st } := by
  rw [State.setTileState, State.setTile, State.tile, get_set, if_pos rfl]
  exact ofBits_bits _ hst

theorem tile_setTileState_other (s : State) {n m : Nat} (h : m ≠ n) (st : Nat) : (s.setTileState n st).tile m = s.tile m := by
  rw [State.setTileState, State.setTile, State.tile, get_set, if_neg h]
  rfl

/-- R76: the state that a command moves a tile to: filling or draining. -/
def movedState (filling : Bool) : Nat := if filling then 1 else 3

theorem movedState_lt (b : Bool) : movedState b < 4 := by cases b <;> decide

/-- The tiles that a command moves change their states. -/
def State.moveTiles (s : State) (ts : List (Nat × Bool)) : State := ts.foldl (fun s t => s.setTileState t.1 (movedState t.2)) s

theorem moveTiles_frame (ts : List (Nat × Bool)) (s : State) : s.moveTiles ts = { s with w := { s.w with tiles := (s.moveTiles ts).w.tiles } } := by
  refine List.foldlRecOn (motive := fun t : State => t = { s with w := { s.w with tiles := t.w.tiles } }) ts _ rfl fun t ht _ _ => ?_
  rw [ht]
  rfl

theorem tile_moveTiles_other {ts : List (Nat × Bool)} {n : Nat} (h : ∀ x ∈ ts, x.1 ≠ n) (s : State) : (s.moveTiles ts).tile n = s.tile n :=
  foldl_keeps (State.tile · n) (fun t x hx => tile_setTileState_other t (h x hx).symm _) s

/-- A tile that a command moves one way, however often it names it, is in that state. -/
theorem tile_moveTiles {n : Nat} {b : Bool} (ts : List (Nat × Bool)) (hall : ∀ y ∈ ts, y.1 = n → y.2 = b) : ∀ s : State, (∃ x ∈ ts, x.1 = n) →
    (s.moveTiles ts).tile n = { s.tile n with state := movedState b } := by
  induction ts with
  | nil => rintro s ⟨x, hx, -⟩; cases hx
  | cons y ys ih =>
    intro s hex
    have ih' := ih fun z hz => hall z (List.mem_cons_of_mem _ hz)
    have hstep : s.moveTiles (y :: ys) = (s.setTileState y.1 (movedState y.2)).moveTiles ys := rfl
    rw [hstep]
    by_cases hy : y.1 = n
    · have hset : (s.setTileState y.1 (movedState y.2)).tile n = { s.tile n with state := movedState b } := by
        rw [hy, hall y List.mem_cons_self hy, tile_setTileState _ _ (movedState_lt b)]
      by_cases hys : ∃ x ∈ ys, x.1 = n
      · rw [ih' _ hys, hset]
      · rw [tile_moveTiles_other (fun x hx hxn => hys ⟨x, hx, hxn⟩), hset]
    · obtain ⟨x, hx, hxn⟩ := hex
      rcases List.mem_cons.1 hx with rfl | hx
      · exact absurd hxn hy
      · rw [ih' _ ⟨x, hx, hxn⟩, tile_setTileState_other _ (Ne.symm hy)]

/-! ## Issue (R109) -/

/-- The command that an instruction issues. -/
def State.newCommand (s : State) (ctx : Ctx) (i : Instr) (active : Word32) (k : Option Nat) (a : CmdArgs) : Command :=
  { id := ⟨s.w.id, ctx, (ctxGet s.w.issued ctx).toNat + 1⟩, instr := i, group := s.g.id, gidx := s.g.gidx, clock := s.path.clock
    lmask := s.path.mask, active := active, pc := s.path.pc, off := s.path.off, seed := s.g.rseed, nanTrap := s.g.nanctl.getLsbD 0, ops := a.ops
    lanes := a.lanes, recs := a.recs, gens := a.tiles.map fun t => (t.1, BitVec.ofNat 16 (s.tile t.1).gen)
    mark := k, barGen := a.barGen, staleSent := false, first := 0, done := 0, acked := [], read := [], phase := 0, pos := 0, vals := a.vals
    pins := [], status := 0, stopped := false, settled := false, finished := false }

/-- The workgroup once the command has its number. -/
def State.numbered (s : State) (ctx : Ctx) (i : Instr) (active : Word32) (k : Option Nat) (a : CmdArgs) : State :=
  { s with
    g := s.g.mark k
    w := { s.w with
      cmds := s.w.cmds ++ [s.newCommand ctx i active k a], issued := ctxSet s.w.issued ctx (BitVec.ofNat 64 ((ctxGet s.w.issued ctx).toNat + 1))
      issueClocks := if s.g.det then (ctx, (ctxGet s.w.issued ctx).toNat + 1, s.path.clock) :: s.w.issueClocks else s.w.issueClocks } }

section
variable {s : State} {ctx : Ctx} (i : Instr) (active : Word32) (k : Option Nat) (a : CmdArgs)

/-- R59, R109: the accesses of a command follow the stores of its path. -/
theorem issueCommand_holds (hctx : ctx ≠ .tileOp) (hacked : s.allAcked (.group s.g.id) = false) : Holds (issueCommand ctx i active k a) s := by
  unfold issueCommand
  rw [if_neg (by simpa using hctx)]
  exact holds_first (awaitPerformed_holds hacked)

theorem issueCommand_does (h : ctx = .tileOp ∨ s.allAcked (.group s.g.id) = true) :
    Does (issueCommand ctx i active k a) s ((ctxGet s.w.issued ctx).toNat + 1) ((s.numbered ctx i active k a).moveTiles a.tiles) := by
  unfold issueCommand
  split
  · exact gives_bind (act_get s) (does_bind (does_modify _ s) (does_bind (does_modify _ _) (does_pure _ _)))
  · next hne =>
    refine gives_bind (awaitPerformed_gives (h.resolve_left (by simpa using hne))) ?_
    exact gives_bind (act_get s) (does_bind (does_modify _ s) (does_bind (does_modify _ _) (does_pure _ _)))

theorem issued_eq (h : ctx = .tileOp ∨ s.allAcked (.group s.g.id) = true) :
    s.issued ctx i active k a = (s.numbered ctx i active k a).moveTiles a.tiles := congrArg Prod.snd (issueCommand_does i active k a h)

end

/-! ## Timelines (R109, R110) -/

/-- The commands of a context. -/
def Workgroup.cmdsOf (w : Workgroup) (ctx : Ctx) : List Command := w.cmds.filter fun c => c.id.ctx == ctx

/-- The lowest number of an unfinished command of a context, or the next number where there is none. -/
def Workgroup.bound (w : Workgroup) (ctx : Ctx) : Nat :=
  ((w.cmdsOf ctx).filter fun c => !c.finished).foldl (fun m c => min m c.id.num) ((ctxGet w.issued ctx).toNat + 1)

/-- A command that its timeline has passed. -/
def Workgroup.passed (w : Workgroup) (ctx : Ctx) (c : Command) : Bool := c.id.ctx == ctx && decide (c.id.num < w.bound ctx)

/-- The workgroup once its timeline has advanced; the bound is that of `w`, the workgroup as it was. -/
def Workgroup.advanced (w : Workgroup) (ctx : Ctx) (x : Workgroup) : Workgroup :=
  { x with cmds := x.cmds.filter fun c => !w.passed ctx c, timelines := ctxSet x.timelines ctx (BitVec.ofNat 64 (w.bound ctx - 1)) }

theorem foldl_min_le {cs : List Command} : ∀ b : Nat, cs.foldl (fun m c => min m c.id.num) b ≤ b ∧ ∀ c ∈ cs, cs.foldl (fun m c => min m c.id.num) b ≤ c.id.num := by
  induction cs with
  | nil => exact fun b => ⟨le_rfl, fun c hc => by cases hc⟩
  | cons x cs ih =>
    intro b
    obtain ⟨hb, hcs⟩ := ih (min b x.id.num)
    refine ⟨hb.trans (min_le_left _ _), fun c hc => ?_⟩
    rcases List.mem_cons.1 hc with rfl | hc
    · exact hb.trans (min_le_right _ _)
    · exact hcs c hc

theorem bound_le {w : Workgroup} {ctx : Ctx} {c : Command} (hc : c ∈ w.cmds) (hctx : c.id.ctx = ctx) (hfin : c.finished = false) : w.bound ctx ≤ c.id.num :=
  (foldl_min_le _).2 c (List.mem_filter.2 ⟨List.mem_filter.2 ⟨hc, by simp [hctx]⟩, by simp [hfin]⟩)

theorem bound_of_finished {w : Workgroup} {ctx : Ctx} (h : ∀ c ∈ w.cmds, c.id.ctx = ctx → c.finished = true) :
    w.bound ctx = (ctxGet w.issued ctx).toNat + 1 := by
  have hnone : ((w.cmdsOf ctx).filter fun c => !c.finished) = [] := List.filter_eq_nil_iff.2 fun c hc => by
    obtain ⟨hmem, hctx⟩ := List.mem_filter.1 hc
    simp [h c hmem (by simpa using hctx)]
  rw [Workgroup.bound, hnone]
  rfl

/-- A timeline that advances changes groups, and its workgroup as `advanced` says. -/
theorem advanceTimeline_wg? {s : State} {w : WgId} {ctx : Ctx} {wg : Workgroup} (h : s.wg? w = some wg) :
    (s.advanceTimeline w ctx).wg? w = some (wg.advanced ctx wg) := by
  have hadvance : s.advanceTimeline w ctx = (((wg.cmdsOf ctx).filter (wg.passed ctx)).foldl
      (fun s c => s.modGroup c.group fun g => g.unmark c.mark) s).modWg w (wg.advanced ctx) := by
    rw [State.advanceTimeline, h]
    rfl
  have hgroups : (((wg.cmdsOf ctx).filter (wg.passed ctx)).foldl (fun s c => s.modGroup c.group fun g => g.unmark c.mark) s).wg? w = s.wg? w :=
    foldl_keeps (State.wg? · w) (fun t c _ => by rw [modGroup_frame]; rfl) s
  rw [hadvance, modWg_wg? (f := wg.advanced ctx) (fun _ => rfl), hgroups, h]
  rfl

/-- Settles O30: the issue of a command, and the advance of a timeline. -/
theorem commands : Obligations.Commands := by
  refine ⟨fun s ctx i active k a => ⟨issueCommand_holds i active k a, fun h => ?_⟩, fun s w ctx wg h => ⟨_, advanceTimeline_wg? h, fun c hc => List.mem_of_mem_filter hc,
    fun c hc hleft => List.mem_filter.2 ⟨hc, ?_⟩, fun c hc hctx hfin hnum => ?_, fun hall => ?_, fun x hx => ctxGet_ctxSet_other _ hx _, rfl, rfl, rfl⟩⟩
  · rw [issued_eq i active k a h]
    have hframe := moveTiles_frame a.tiles (s.numbered ctx i active k a)
    refine ⟨issueCommand_does i active k a h, ⟨s.newCommand ctx i active k a, ?_, rfl, rfl, rfl, rfl, rfl, rfl, rfl, rfl, rfl, rfl⟩, ?_, fun x hx => ?_, ?_, ?_, ?_, ?_,
      fun n hn => tile_moveTiles_other hn _, fun n hn => ?_⟩
    · rw [hframe]; rfl
    · rw [hframe]; exact ctxGet_ctxSet _ _ _
    · rw [hframe]; exact ctxGet_ctxSet_other _ hx _
    · rw [hframe]; rfl
    · rw [hframe]; rfl
    · rw [hframe]; rfl
    · rw [hframe]; rfl
    · obtain ⟨x, hx, hxn, hall⟩ := hn
      have hmem : (n, true) ∈ a.tiles ↔ x.2 = true := ⟨fun ht => (hall _ ht rfl).symm, fun ht => by rwa [← hxn, ← ht]⟩
      rw [tile_moveTiles a.tiles hall _ ⟨x, hx, hxn⟩]
      simp only [hmem]
      rfl
  · have hnot : wg.passed ctx c = false := by
      rcases hleft with hne | hfin
      · simp [Workgroup.passed, hne]
      · by_cases hctx : c.id.ctx = ctx
        · simp [Workgroup.passed, bound_le hc hctx hfin]
        · simp [Workgroup.passed, hctx]
    simp [hnot]
  · have hle := bound_le hc hctx hfin
    have hmod : (BitVec.ofNat 64 (wg.bound ctx - 1)).toNat ≤ wg.bound ctx - 1 := by
      rw [BitVec.toNat_ofNat]
      exact Nat.mod_le _ _
    rw [Workgroup.advanced, ctxGet_ctxSet]
    omega
  · rw [Workgroup.advanced, ctxGet_ctxSet, bound_of_finished hall, Nat.add_sub_cancel, BitVec.ofNat_toNat, BitVec.setWidth_eq]

end Sys2Proof.Machine
end

