-- ==== Sys2Proof/Proofs/SwitchReduction.lean ====
section
/-! PROOFS. O43: XRED and the switch reduction (spec/16 R425, spec/02 R61, spec/20 R452). -/

namespace Sys2Proof.Machine

/-! ## Issue (R425) -/

/-- A tile endpoint that is usable names a tile that is granted. -/
theorem checkTile_of_endTile {active : Word32} {e : CopyEnd} {n : BitVec 11} {rb : Nat} {rows : List Nat} {s : State} (htile : e.tile = true)
    (h : Gives (endTile active e n rb rows) s ()) : Gives (checkTile active n) s () := by
  have hgranted : ¬ s.w.ntiles ≤ n.toNat := fun hle => by
    simp [Gives, Does, endTile, htile, useTile, hle] at h
  simp [Gives, Does, checkTile, hgranted]

section
variable {l : Lane} {s : State} {active : Word32} {k : Option Nat} {ops : List Word64} {dst src : BitVec 128}

/-- The command's arguments as XRED reads them. -/
def State.xredRecs (s : State) (dst src : BitVec 128) : List (BitVec 128) := [dst, src, BitVec.ofNat 128 s.g.privOver]

theorem xred_does (hstart : Gives (laneStart l) s (active, k)) (hactive : active ≠ 0) (hops : Gives (readBlock (sregOf l.vb) 3) s ops)
    (hdst : Gives (endRecord active false l.vd) s dst) (hsrc : Gives (endRecord active (l.imm.getLsbD 2) l.va) s src)
    (hgood : xredBad (xredArgs l ops (s.xredRecs dst src)).1 (xredArgs l ops (s.xredRecs dst src)).2 = false)
    (htile : Gives (endTile active (xredArgs l ops (s.xredRecs dst src)).1.src l.va (xredArgs l ops (s.xredRecs dst src)).1.rb
      ((List.range (xredArgs l ops (s.xredRecs dst src)).1.rows).map fun n => ((xredArgs l ops (s.xredRecs dst src)).1.row n).1)) s ())
    (hacked : s.allAcked (.group s.g.id) = true) :
    Does (xred l) s () ((s.issued .xred (.xred l) active k { ops := ops, recs := s.xredRecs dst src }).unhang.retire 3) := by
  have hchecked : l.imm.getLsbD 2 = true → Gives (checkTile active l.va) s () := fun h => checkTile_of_endTile (by
    change bitOf l.imm.toNat 2 = true
    simpa [bitOf, BitVec.getLsbD, Nat.testBit_eq_decide_div_mod_eq] using h) htile
  have hissue : Does (issueCommand .xred (.xred l) active k { ops := ops, recs := s.xredRecs dst src }) s _ _ :=
    issueCommand_does _ _ _ _ (.inr hacked)
  rw [issued_eq _ _ _ _ (.inr hacked)]
  refine gives_bind hstart (does_checked hchecked ?_)
  rw [if_neg hactive]
  refine gives_bind hops (gives_bind hdst (gives_bind hsrc (gives_bind (act_get s) ?_)))
  refine does_checked (fun hbad => absurd hbad ?_) (gives_bind htile (does_bind hissue (act_retireWork 3 _)))
  exact Bool.eq_false_iff.1 hgood

end

/-! ## Events of a command -/

section
variable {s : State} {id : CmdId} {c : Command} {l : Lane} {f : Lane → Command → CopyArgs → Nat → State → State}
  (hrun : s.runnable id = some c) (hinstr : c.instr = .xred l)
include hrun hinstr

theorem redEvent_stops {n : Nat} (hoob : (xredArgs l c.ops c.recs).1.redOob = some n) (htrap : (xredArgs l c.ops c.recs).1.dst.r.oobt = true) :
    redEvent id f s = .next (s.inCommand c fun v => v.engineStop c (cmdTrap oobFlt 5 0) (n * ((xredArgs l c.ops c.recs).1.rb / 4))) := by
  unfold redEvent cmdEvent
  simp only [hrun, hinstr, hoob, htrap, if_true]

/-- R415: where a destination row is out of bounds and does not trap, the flag is set. -/
theorem redEvent_acts (hgood : (xredArgs l c.ops c.recs).1.redOob = none ∨ (xredArgs l c.ops c.recs).1.dst.r.oobt = false) :
    redEvent id f s = .next (s.inCommand c fun v => f l c (xredArgs l c.ops c.recs).1 (xredArgs l c.ops c.recs).2
      (if (xredArgs l c.ops c.recs).1.redOob.isSome then v.stick 0 else v)) := by
  unfold redEvent cmdEvent
  cases hoob : (xredArgs l c.ops c.recs).1.redOob with
  | none => simp only [hrun, hinstr, hoob, Option.isSome_none, Bool.false_eq_true, if_false]
  | some n =>
    have htrap := hgood.resolve_left (by simp [hoob])
    simp only [hrun, hinstr, hoob, htrap, Option.isSome_some, Bool.false_eq_true, if_false, if_true]

end

/-- The statuses with which a line's part in a command ends. -/
theorem redComplete_all (x : CopyArgs) (c : Command) :
    ((x.redLines.map c.vals.get).all fun v => v == lineWritten || v == lineLost || v == lineRefused) = true
      ↔ ∀ n ∈ x.redLines, c.vals.get n = lineWritten ∨ c.vals.get n = lineLost ∨ c.vals.get n = lineRefused := by
  simp [or_assoc]

theorem contains_ends (x : CopyArgs) (c : Command) (v : Word32) : (x.redLines.map c.vals.get).contains v = true ↔ ∃ n ∈ x.redLines, c.vals.get n = v := by
  simp

/-- What a contribution to a line does, and what the end of a command does (R425). -/
def contributesTo (line : Nat) (l : Lane) (c : Command) (x : CopyArgs) (ncont : Nat) (s : State) : State :=
  if x.redLines.contains line && c.vals.get line == 0 then s.contribute c (l.imm.toNat % 4) l.type.toNat x ncont line else s

def endsReduction (_ : Lane) (c : Command) (x : CopyArgs) (_ : Nat) (s : State) : State :=
  if (x.redLines.map c.vals.get).all fun v => v == lineWritten || v == lineLost || v == lineRefused then
    s.finish c (if (x.redLines.map c.vals.get).contains lineLost then 2 else if (x.redLines.map c.vals.get).contains lineRefused then 4 else 0)
  else s

theorem exec_xredContribution (id : CmdId) (line : Nat) (s : State) :
    exec (.xredContribution (.own id) line) s = redEvent id (contributesTo line) s := rfl

theorem exec_xredComplete (id : CmdId) (s : State) : exec (.xredComplete id) s = redEvent id endsReduction s := rfl

section
variable {s : State} {id : CmdId} {c : Command} {l : Lane} (hrun : s.runnable id = some c) (hinstr : c.instr = .xred l)
  (hgood : (xredArgs l c.ops c.recs).1.redOob = none ∨ (xredArgs l c.ops c.recs).1.dst.r.oobt = false)
include hrun hinstr hgood

theorem xredContribution_acts {line : Nat} (hline : line ∈ (xredArgs l c.ops c.recs).1.redLines) (hnew : c.vals.get line = 0) :
    Acts (.xredContribution (.own id) line) s c fun v =>
      (if (xredArgs l c.ops c.recs).1.redOob.isSome then v.stick 0 else v).contribute c (l.imm.toNat % 4) l.type.toNat
        (xredArgs l c.ops c.recs).1 (xredArgs l c.ops c.recs).2 line := by
  rw [Acts, exec_xredContribution, redEvent_acts hrun hinstr hgood]
  simp only [contributesTo, List.contains_iff_mem.2 hline, hnew, beq_self_eq_true, Bool.and_self, if_true]

theorem xredComplete_acts (hends : ∀ n ∈ (xredArgs l c.ops c.recs).1.redLines,
      c.vals.get n = lineWritten ∨ c.vals.get n = lineLost ∨ c.vals.get n = lineRefused) :
    Acts (.xredComplete id) s c fun v => (if (xredArgs l c.ops c.recs).1.redOob.isSome then v.stick 0 else v).finish c
      (if (∃ n ∈ (xredArgs l c.ops c.recs).1.redLines, c.vals.get n = lineLost) then 2
        else if (∃ n ∈ (xredArgs l c.ops c.recs).1.redLines, c.vals.get n = lineRefused) then 4 else 0) := by
  rw [Acts, exec_xredComplete, redEvent_acts hrun hinstr hgood]
  simp only [endsReduction, (redComplete_all _ c).2 hends, if_true, contains_ends]

end

/-! ## Contributions at the switches (R61) -/

section
variable {s : State} {members : List Nat} {n : Nat} {c : Contribution}

theorem redArrives_opens (hnew : (s.reductions.find? fun r => r.line == members.headD 0) = none) (hn : 1 < n) :
    (s.redArrives members n c).reductions = s.reductions ++ [{ line := members.headD 0, members := members, count := n, contributions := [c] }] := by
  have hkeep : (s.settleLine c lineSent).reductions = s.reductions := by
    unfold State.settleLine
    split
    · rw [State.setLine, State.modCmd, modWg_frame]
    · rfl
  simp only [State.redArrives, hnew, if_neg (show ¬ n = 1 by omega), hkeep]

variable {r : Reduction} (hr : (s.reductions.find? fun r => r.line == members.headD 0) = some r)
include hr

theorem redArrives_refused (hcount : r.count ≠ n) : s.redArrives members n c = s.settleLine c lineRefused := by
  simp only [State.redArrives, hr, if_pos hcount]

theorem redArrives_ends (hcount : r.count = n) (hlast : r.contributions.length + 1 = n) :
    s.redArrives members n c = (s.settleLine c lineSent).endReduction { r with contributions := r.contributions ++ [c] } := by
  have hlen : (r.contributions ++ [c]).length = n := by simpa using hlast
  simp only [State.redArrives, hr, hcount, hlen, ne_eq, not_true, if_false, if_true]

end

/-! ## Integer reductions (R61) -/

theorem foldl_addMod {m : Nat} (xs : List Nat) : ∀ p, p < m → xs.foldl (fun a b => (a + b) % m) p = (p + xs.sum) % m := by
  induction xs with
  | nil => intro p hp; simp [Nat.mod_eq_of_lt hp]
  | cons x xs ih =>
    intro p hp
    rw [List.foldl_cons, ih _ (Nat.mod_lt _ (by omega)), Nat.mod_add_mod, List.sum_cons, Nat.add_assoc]

/-- A choice that takes one of its two operands, with a key no larger than theirs, leaves a least operand. -/
theorem foldl_least {key : Nat → Int} {f : Nat → Nat → Nat} (hf : ∀ a b, (f a b = a ∨ f a b = b) ∧ key (f a b) ≤ key a ∧ key (f a b) ≤ key b)
    (xs : List Nat) : ∀ p, xs.foldl f p ∈ p :: xs ∧ ∀ y ∈ p :: xs, key (xs.foldl f p) ≤ key y := by
  induction xs with
  | nil => intro p; simp
  | cons x xs ih =>
    intro p
    obtain ⟨hmem, hle⟩ := ih (f p x)
    obtain ⟨hpick, hp, hx⟩ := hf p x
    refine ⟨?_, fun y hy => ?_⟩
    · rw [List.foldl_cons]
      rcases List.mem_cons.1 hmem with he | he
      · rw [he]
        rcases hpick with h | h <;> simp [h]
      · exact List.mem_cons_of_mem _ (List.mem_cons_of_mem _ he)
    · rw [List.foldl_cons]
      rcases List.mem_cons.1 hy with rfl | hy
      · exact (hle _ List.mem_cons_self).trans hp
      · rcases List.mem_cons.1 hy with rfl | hy
        · exact (hle _ List.mem_cons_self).trans hx
        · exact hle y (List.mem_cons_of_mem _ hy)

/-- The lesser and the greater of two words, as signed numbers. -/
def lesser (a b : Nat) : Nat := if decide (signedOf 32 a < signedOf 32 b) then a else b
def greater (a b : Nat) : Nat := if decide (signedOf 32 a < signedOf 32 b) then b else a

theorem lesser_least (a b : Nat) : (lesser a b = a ∨ lesser a b = b) ∧ signedOf 32 (lesser a b) ≤ signedOf 32 a ∧ signedOf 32 (lesser a b) ≤ signedOf 32 b := by
  unfold lesser
  by_cases h : signedOf 32 a < signedOf 32 b
  · simp [h, h.le]
  · simp [h, not_lt.1 h]

theorem greater_most (a b : Nat) :
    (greater a b = a ∨ greater a b = b) ∧ -signedOf 32 (greater a b) ≤ -signedOf 32 a ∧ -signedOf 32 (greater a b) ≤ -signedOf 32 b := by
  unfold greater
  by_cases h : signedOf 32 a < signedOf 32 b
  · simp [h, h.le]
  · simp [h, not_lt.1 h]

theorem reduceWord_least (p : Nat) (xs : List Nat) :
    reduceWord 1 0 p xs ∈ p :: xs ∧ ∀ y ∈ p :: xs, signedOf 32 (reduceWord 1 0 p xs) ≤ signedOf 32 y := foldl_least lesser_least xs p

theorem reduceWord_most (p : Nat) (xs : List Nat) :
    reduceWord 2 0 p xs ∈ p :: xs ∧ ∀ y ∈ p :: xs, signedOf 32 y ≤ signedOf 32 (reduceWord 2 0 p xs) := by
  obtain ⟨hmem, hle⟩ := foldl_least (key := fun a => -signedOf 32 a) greater_most xs p
  exact ⟨hmem, fun y hy => neg_le_neg_iff.1 (hle y hy)⟩

/-- Settles O43: the issue of XRED, its contributions and its end, the switches, and integer reductions. -/
theorem switchReduction : Obligations.SwitchReduction := by
  refine ⟨fun l s active k ops dst src hstart hactive hops hdst hsrc => ?_, fun s id c l line hrun hinstr => ⟨fun n hoob htrap => (exec_xredContribution id line s).trans (redEvent_stops hrun hinstr hoob htrap),
    fun hgood => ⟨fun hline hnew => xredContribution_acts hrun hinstr hgood hline hnew, fun hends => xredComplete_acts hrun hinstr hgood hends⟩⟩,
    fun s r line hr => ?_, fun s pkg num ncont op type line members words poison => rfl,
    fun s members n c => ⟨redArrives_opens, fun r hr => ⟨redArrives_refused hr, redArrives_ends hr⟩⟩,
    fun p xs hp _ => ⟨foldl_addMod xs p hp, reduceWord_least p xs, reduceWord_most p xs⟩⟩
  · intro recs x hgood htile hacked
    exact outcome_of_does (xred_does hstart hactive hops hdst hsrc hgood htile hacked)
  · have he : exec (.xredTimeout line) s = execXredTimeout line s := rfl
    rw [he, execXredTimeout, hr]
    rfl

end Sys2Proof.Machine
end

