-- ==== Sys2Proof/Proofs/Scheduling.lean ====
section
/-! PROOFS. O51: posting by the host, the pool and its scan, and the launch of groups (spec/09 R240, R242, R243, R245, R246, spec/08 R208,
spec/20 R450). -/

namespace Sys2Proof.Machine

/-! ## Sorting -/

section
variable {α : Type} {le : α → α → Bool}

theorem mem_insertBy {x y : α} {ys : List α} : y ∈ insertBy le x ys ↔ y = x ∨ y ∈ ys := by
  induction ys with
  | nil => simp [insertBy]
  | cons z zs ih =>
    rw [insertBy]
    split
    · simp only [List.mem_cons, ih]
      tauto
    · simp only [List.mem_cons]

theorem mem_sortBy {y : α} (xs : List α) : y ∈ sortBy le xs ↔ y ∈ xs := by
  have hfold : ∀ r, y ∈ xs.foldl (fun r x => insertBy le x r) r ↔ y ∈ xs ∨ y ∈ r := by
    induction xs with
    | nil => simp
    | cons x xs ih =>
      intro r
      rw [List.foldl_cons, ih, mem_insertBy, List.mem_cons]
      tauto
  rw [sortBy, hfold]
  simp

variable (htotal : ∀ a b, le a b = true ∨ le b a = true) (htrans : ∀ a b c, le a b = true → le b c = true → le a c = true)
include htotal htrans

theorem pairwise_insertBy (x : α) {ys : List α} (h : ys.Pairwise fun a b => le a b = true) : (insertBy le x ys).Pairwise fun a b => le a b = true := by
  induction ys with
  | nil => exact List.pairwise_singleton _ _
  | cons y ys ih =>
    obtain ⟨hy, hys⟩ := List.pairwise_cons.1 h
    rw [insertBy]
    split
    · next hle =>
      refine List.pairwise_cons.2 ⟨fun z hz => ?_, ih hys⟩
      rcases mem_insertBy.1 hz with rfl | hz
      · exact hle
      · exact hy z hz
    · next hle =>
      have hxy : le x y = true := (htotal x y).resolve_right hle
      refine List.pairwise_cons.2 ⟨fun z hz => ?_, h⟩
      rcases List.mem_cons.1 hz with rfl | hz
      · exact hxy
      · exact htrans x y z hxy (hy z hz)

theorem pairwise_sortBy (xs : List α) : (sortBy le xs).Pairwise fun a b => le a b = true :=
  List.foldlRecOn (motive := fun r : List α => r.Pairwise fun a b => le a b = true) xs _ List.Pairwise.nil fun _ h x _ => pairwise_insertBy htotal htrans x h

end

/-! ## SUBMIT (R240, R450) -/

theorem exec_submit (ix : BitVec 20) (s : State) : exec (.submit ix) s = .next (s.hostSubmit ix) := rfl

theorem hostSubmit_now {s : State} (h : ∀ x ∈ s.held, x.hostWrites = false) (ix : BitVec 20) :
    s.hostSubmit ix = if s.regs.bootstat.getLsbD 8 then (s.postNode ix.toNat none).1 else s := by
  have hnone : s.held.any HeldReq.hostWrites = false := by simpa using h
  rw [State.hostSubmit, State.afterHost, hnone]
  rfl

theorem hostSubmit_waits {s : State} (h : ∃ x ∈ s.held, x.hostWrites = true) (ix : BitVec 20) :
    s.hostSubmit ix = { s with held := s.held ++ [.submit ix] } := by
  have hany : s.held.any HeldReq.hostWrites = true := by simpa using h
  rw [State.hostSubmit, State.afterHost, if_pos hany]

/-! ## The pool (R245, R246) -/

theorem mem_pool {s : State} {n : Node} :
    n ∈ s.pool ↔ n ∈ s.nodes ∧ n.ready = true ∧ ((n.placed < n.w ∧ n.badTiles = false) ∨ s.savedOf n.index ≠ []) := by
  rw [State.pool, mem_sortBy, List.mem_filter]
  simp [State.inPool]

/-- The order of the pool: a higher priority first, then the earlier ticket. -/
def poolOrder (a b : Node) : Bool := decide (b.prio < a.prio) || (a.prio == b.prio && decide (a.ticket.toNat ≤ b.ticket.toNat))

theorem poolOrder_iff (a b : Node) : poolOrder a b = true ↔ b.prio < a.prio ∨ (a.prio = b.prio ∧ a.ticket.toNat ≤ b.ticket.toNat) := by
  simp [poolOrder]

theorem pool_ordered (s : State) : s.pool.Pairwise fun a b => b.prio < a.prio ∨ (a.prio = b.prio ∧ a.ticket.toNat ≤ b.ticket.toNat) := by
  have hsorted : s.pool.Pairwise fun a b => poolOrder a b = true :=
    pairwise_sortBy (fun a b => by simp only [poolOrder_iff]; omega) (fun a b c => by simp only [poolOrder_iff]; omega) _
  exact hsorted.imp fun h => (poolOrder_iff _ _).1 h

theorem exec_schedulerScan (s : State) :
    exec .schedulerScan s = .next (if s.regs.schedctl.getLsbD 0 then s.scanFrom true s.pool else s) := rfl

/-- R246: the first of the pool is held once it has waited too long, if none of it is placed. -/
def State.ageFirst (s : State) (n : Node) : State := if n.placed = 0 then s.modNode n.index fun x => { x with aged := true } else s

theorem exec_ageLimit_none {s : State} (h : s.pool = []) : exec .ageLimit s = .next s := by
  have he : exec .ageLimit s = execAgeLimit s := rfl
  rw [he, execAgeLimit, h]

theorem exec_ageLimit {s : State} {n : Node} {rest : List Node} (h : s.pool = n :: rest) : exec .ageLimit s = .next (s.ageFirst n) := by
  have he : exec .ageLimit s = execAgeLimit s := rfl
  rw [he, execAgeLimit, h]
  rfl

theorem byte_ageFirst (s : State) (n : Node) (a : Nat) : (s.ageFirst n).byte a = s.byte a := ite_keeps (State.byte · a) rfl

theorem node?_ageFirst (s : State) (n : Node) :
    (s.ageFirst n).node? n.index = (s.node? n.index).map fun m => if n.placed = 0 then { m with aged := true } else m := by
  unfold State.ageFirst
  split
  · exact modNode_node? (f := fun x => { x with aged := true }) (fun _ => rfl) s n.index
  · simp

/-! ## Placement (R208, R242, R243) -/

theorem others_makeGrants (s : State) (n : Node) (die : BitVec 2) (core : Nat) : (s.makeGrants n die core).others = s.others := by
  unfold State.makeGrants
  simp only []
  split <;> split <;> rfl

theorem otherWgs_makeGrants (s : State) (n : Node) (die : BitVec 2) (core : Nat) : (s.makeGrants n die core).otherWgs = s.otherWgs := by
  unfold State.makeGrants
  simp only []
  split <;> split <;> rfl

theorem others_cleanse (s : State) (mine : PoisonTarget → Bool) : (s.cleanse mine).others = s.others := rfl

theorem otherWgs_cleanse (s : State) (mine : PoisonTarget → Bool) : (s.cleanse mine).otherWgs = s.otherWgs := rfl

/-- The workgroup that a placement makes (R243). -/
def Node.newWg (n : Node) (p : Spot) (entry : Nat) (es : List (Nat × Nat)) : Workgroup :=
  { Workgroup.empty with
    id := ⟨n.index, n.placed⟩, asid := n.asid, groups := n.gcount, producer := n.f 85 5, die := p.die, core := p.core
    pair := n.pair, saveEntry := entry, scrSize := n.segs * 16384, ntiles := n.tiles
    tiles := ((List.range es.length).zip es).foldl (fun m e => m.set e.1 (installTile e.2.1 e.2.2 0)) []
    nslots := n.slots, claims := List.replicate n.slots .free, slotOps := List.replicate n.slots 0 }

/-- The groups that a placement launches. -/
def Node.newGroups (n : Node) (p : Spot) : List Group :=
  ((List.range n.gcount).zip p.places).map fun e => n.launch n.placed e.1 p.die e.2.1 e.2.2

/-- The new workgroup and its groups join the others (R246). -/
def State.enrol (s : State) (n : Node) (p : Spot) (entry : Nat) (es : List (Nat × Nat)) : State :=
  { s.modNode n.index fun x => { x with placed := x.placed + 1, aged := false, code := if n.placed = 0 then s.mem else x.code } with
    others := s.others ++ n.newGroups p, otherWgs := s.otherWgs ++ [n.newWg p entry es], saveUsed := entry :: s.saveUsed }

theorem others_enrol (s : State) (n : Node) (p : Spot) (e : Nat) (es : List (Nat × Nat)) : (s.enrol n p e es).others = s.others ++ n.newGroups p := rfl

theorem otherWgs_enrol (s : State) (n : Node) (p : Spot) (e : Nat) (es : List (Nat × Nat)) :
    (s.enrol n p e es).otherWgs = s.otherWgs ++ [n.newWg p e es] := rfl

/-- A placement at `p`, once the tile array has been read. -/
def State.placed (s : State) (n : Node) (p : Spot) (entry : Nat) (es : List (Nat × Nat)) : State :=
  ((s.makeGrants n p.die p.core).cleanse (ofWorkgroup ⟨n.index, n.placed⟩)).enrol n p entry es

section
variable {s u : State} {n : Node} {p : Spot} {e : Nat} {es : List (Nat × Nat)}

theorem others_placed : (u.placed n p e es).others = u.others ++ n.newGroups p := by
  rw [State.placed, others_enrol, others_cleanse, others_makeGrants]

theorem otherWgs_placed : (u.placed n p e es).otherWgs = u.otherWgs ++ [n.newWg p e es] := by
  rw [State.placed, otherWgs_enrol, otherWgs_cleanse, otherWgs_makeGrants]

theorem newGroups_get {j : Nat} (hj : j < n.gcount) (hplace : j < p.places.length) :
    ∃ core quarter, (n.newGroups p)[j]? = some (n.launch n.placed j p.die core quarter) := by
  have hzip : ((List.range n.gcount).zip p.places)[j]? = some (j, p.places[j]) :=
    List.getElem?_zip_eq_some.2 ⟨List.getElem?_range hj, List.getElem?_eq_getElem hplace⟩
  exact ⟨p.places[j].1, p.places[j].2, by rw [Node.newGroups, List.getElem?_map, hzip]; rfl⟩

section
variable (hspot : s.spot [] n none = some p) (hentry : s.freeEntry = some e) (htiles : s.tileArray n = (u, some es))
include hspot hentry htiles

theorem placeNext_eq : s.placeNext n = (if n.placed = 0 then (u.placed n p e es).setNodeState n.index 3 else u.placed n p e es, .yes) := by
  simp only [State.placeNext, hspot, hentry, htiles]
  rfl

/-- R239: the first placement writes STATE of the descriptor, which leaves the groups but for what a watch has seen. -/
theorem lasting_placeNext : (s.placeNext n).1.lasting = (u.placed n p e es).lasting := by
  rw [placeNext_eq hspot hentry htiles]
  exact ite_keeps State.lasting (lasting_setNodeState _ _ _)

theorem placeNext_wg : n.newWg p e es ∈ (s.placeNext n).1.otherWgs := by
  have hwgs : (s.placeNext n).1.otherWgs = (u.placed n p e es).otherWgs := view_of_lasting State.otherWgs (fun _ => rfl) (lasting_placeNext hspot hentry htiles)
  rw [hwgs, otherWgs_placed]
  simp

theorem placeNext_group {j : Nat} (hj : j < n.gcount) (hplace : j < p.places.length) :
    ∃ g core quarter, (s.placeNext n).1.others[u.others.length + j]? = some g ∧ g.lasting = (n.launch n.placed j p.die core quarter).lasting := by
  obtain ⟨core, quarter, hget⟩ := newGroups_get hj hplace
  have hothers : (s.placeNext n).1.others.map Group.lasting = (u.placed n p e es).others.map Group.lasting :=
    congrArg State.others (lasting_placeNext hspot hentry htiles)
  have hat := congrArg (fun l : List Group => l[u.others.length + j]?) hothers
  simp only [List.getElem?_map, others_placed, List.getElem?_append_right (Nat.le_add_right _ _), Nat.add_sub_cancel_left, hget, Option.map_some,
    Option.map_eq_some_iff] at hat
  obtain ⟨g, hg, hlasting⟩ := hat
  exact ⟨g, core, quarter, hg, hlasting⟩

end

end

/-! ## What a group starts with (R208, R242) -/

theorem launch_vregs (n : Node) (w j : Nat) (die : BitVec 2) (core quarter : Nat) : (n.launch w j die core quarter).vregs = [] := rfl

theorem launch_mregs (n : Node) (w j : Nat) (die : BitVec 2) (core quarter : Nat) : (n.launch w j die core quarter).mregs = [] := rfl

theorem launch_bregs (n : Node) (w j : Nat) (die : BitVec 2) (core quarter : Nat) : (n.launch w j die core quarter).bregs = SMap.set [] 31 (n.privRec (w * n.gcount + j)) := by
  rw [Node.launch]

section
variable {n : Node} {w j core quarter : Nat} {die : BitVec 2} {g : Group} (h : g.lasting = (n.launch w j die core quarter).lasting)
include h

/-- A field of a group that no watch bears on. -/
theorem launch_field {β : Type} (view : Group → β) (hview : ∀ u, view u.lasting = view u) : view g = view (n.launch w j die core quarter) := by
  rw [← hview g, h, hview]

theorem launch_identity : g.id = ⟨n.index, w, j⟩ ∧ g.asid = n.asid
    ∧ g.slot0 = some { Path.empty with pc := BitVec.ofNat 56 (n.f 0 56), mask := BitVec.ofNat 32 (n.f 128 32) } ∧ g.slot1 = none :=
  ⟨launch_field h Group.id fun _ => rfl, launch_field h Group.asid fun _ => rfl, launch_field h Group.slot0 fun _ => rfl,
    launch_field h Group.slot1 fun _ => rfl⟩

theorem launch_sregs : g.sregs.get 0 = BitVec.ofNat 64 w ∧ g.sregs.get 1 = BitVec.ofNat 64 j ∧ g.sregs.get 2 = BitVec.ofNat 64 (w * n.gcount + j)
    ∧ g.sregs.get 3 = BitVec.ofNat 64 (n.f 448 56) ∧ ∀ k, 4 ≤ k → g.sregs.get k = 0 := by
  have hsregs : g.sregs = SMap.setRange [] 0 [BitVec.ofNat 64 w, BitVec.ofNat 64 j, BitVec.ofNat 64 (w * n.gcount + j), BitVec.ofNat 64 (n.f 448 56)] :=
    launch_field h Group.sregs fun _ => rfl
  simp only [hsregs, get_setRange, List.length_cons, List.length_nil]
  refine ⟨rfl, rfl, rfl, rfl, fun k hk => ?_⟩
  rw [if_neg (by omega)]
  rfl

theorem launch_otherRegs : g.vregs = [] ∧ g.mregs = [] ∧ g.bregs.get 31 = n.privRec (w * n.gcount + j) ∧ ∀ k, k ≠ 31 → g.bregs.get k = 0 := by
  have hbregs : g.bregs = SMap.set [] 31 (n.privRec (w * n.gcount + j)) := (launch_field h Group.bregs fun _ => rfl).trans (launch_bregs n w j die core quarter)
  refine ⟨(launch_field h Group.vregs fun _ => rfl).trans (launch_vregs n w j die core quarter), (launch_field h Group.mregs fun _ => rfl).trans (launch_mregs n w j die core quarter), ?_, fun k hk => ?_⟩
  · rw [hbregs, get_set, if_pos rfl]
  · rw [hbregs, get_set, if_neg hk]
    rfl

theorem launch_gstat : g.gstat = BitVec.ofNat 64 (n.det.toNat * 2 ^ 8 + n.twin.toNat * 2 ^ 9) ∧ g.exited = ~~~BitVec.ofNat 32 (n.f 128 32) := by
  have hgstat : g.gstat = setBit (setBit 0 8 n.det) 9 n.twin := launch_field h Group.gstat fun _ => rfl
  refine ⟨?_, launch_field h Group.exited fun _ => rfl⟩
  rw [hgstat]
  cases n.det <;> cases n.twin <;> rfl

end

/-- Settles O51: SUBMIT, the pool and its scan, and what a placement launches. -/
theorem scheduling : Obligations.Scheduling := by
  refine ⟨fun s ix => ⟨fun hfree => ⟨fun hready => ?_, fun hready => ?_⟩, fun hwait => ?_⟩, fun s => ⟨fun hen => ?_, fun hen => ?_, fun n => mem_pool, pool_ordered s,
    exec_ageLimit_none, fun n rest hpool => ⟨s.ageFirst n, exec_ageLimit hpool, byte_ageFirst s n, node?_ageFirst s n⟩⟩, fun s u n p e es hspot hentry htiles => ⟨?_, ?_, ?_⟩⟩
  · rw [exec_submit, hostSubmit_now hfree, if_pos hready]
  · rw [exec_submit, hostSubmit_now hfree, hready]; rfl
  · rw [exec_submit, hostSubmit_waits hwait]
  · rw [exec_schedulerScan, if_pos hen]
  · rw [exec_schedulerScan, hen]; rfl
  · rw [placeNext_eq hspot hentry htiles]
  · exact ⟨n.newWg p e es, placeNext_wg hspot hentry htiles, rfl, rfl, rfl, rfl, rfl, rfl, rfl, rfl, rfl, rfl, rfl⟩
  · intro j hj hplace
    obtain ⟨g, core, quarter, hg, h⟩ := placeNext_group hspot hentry htiles hj hplace
    obtain ⟨hid, hasid, hslot0, hslot1⟩ := launch_identity h
    obtain ⟨h0, h1, h2, h3, hrest⟩ := launch_sregs h
    obtain ⟨hv, hm, hb31, hb⟩ := launch_otherRegs h
    obtain ⟨hgstat, hexited⟩ := launch_gstat h
    exact ⟨g, hg, hid, hasid, hslot0, hslot1, h0, h1, h2, h3, hrest, hv, hm, hb31, hb, hgstat, hexited⟩

end Sys2Proof.Machine
end

