-- ==== Sys2Proof/Proofs/Preemption.lean ====
section
/-! PROOFS. O53: requests, notices and limits, commands that settle, the save and the restore (spec/10 R263 to R271). -/

namespace Sys2Proof.Machine

/-! ## A group that is asked to stop (R263, R264) -/

section
variable {s : State} {i : GroupId} {g : Group} {w : Workgroup}

theorem asked_eq (hg : s.group? i = some g) (hw : s.wg? (wgOf i) = some w) : s.asked i = if w.state = .stopping then some g else none := by
  simp only [State.asked, hg, hw, beq_iff_eq]

/-- Every live path of the group is parked (R264). -/
def Group.waits (g : Group) : Prop := ∀ p, (g.slot0 = some p ∨ g.slot1 = some p) → p.parked = true

theorem allPaths_iff (g : Group) (f : Path → Bool) : g.allPaths f = true ↔ ∀ p, (g.slot0 = some p ∨ g.slot1 = some p) → f p = true := by
  simp only [Group.allPaths]
  cases g.slot0 <;> cases g.slot1 <;> simp [or_imp, forall_and]

theorem idle_iff (g : Group) : g.idle = true ↔ g.exited = 0xFFFFFFFF ∨ g.waits := by
  rw [Group.idle, Bool.or_eq_true, beq_iff_eq, allPaths_iff]
  rfl

theorem settleStop_stopped (hstop : g.stop = .requested) (hidle : g.exited = 0xFFFFFFFF ∨ g.waits) : g.settleStop = { g with stop := .stopped } := by
  rw [Group.settleStop, hstop, (idle_iff g).2 hidle]
  rfl

theorem stopGroup_group? (hg : s.group? i = some g) : (s.stopGroup i).group? i = some { g with stop := .stopped } := by
  have hmod : (s.modGroup i fun g => { g with stop := .stopped }).group? i = some { g with stop := .stopped } := by
    rw [modGroup_group? (f := fun g => { g with stop := .stopped }) (fun _ => rfl), hg]; rfl
  rw [State.stopGroup]
  split
  · exact hmod
  · exact hmod

/-- What a request does to a group that is asked to stop. -/
theorem exec_request (h : s.asked i = some g) : exec (.preemptRequestArrival i) s = .next (
    if g.stop == .stopped then s
    else if g.exited == 0xFFFFFFFF then s.stopGroup i
    else if g.stop == .running && s.regs.prectl.getLsbD 16 && !g.supv then s.modGroup i fun g => { g with stop := .notice }
    else if g.stop == .notice then s
    else if g.idle then s.stopGroup i
    else if g.stop == .running then s.modGroup i fun g => { g with stop := .requested }
    else s) := by
  have he : exec (.preemptRequestArrival i) s = execPreemptRequestArrival i s := rfl
  rw [he, execPreemptRequestArrival, h]

theorem request_exited (h : s.asked i = some g) (hex : g.exited = 0xFFFFFFFF) (hstop : g.stop ≠ .stopped) :
    exec (.preemptRequestArrival i) s = .next (s.stopGroup i) := by
  rw [exec_request h, if_neg (by simpa using hstop), if_pos (by simpa using hex)]

theorem request_waiting (h : s.asked i = some g) (hwaits : g.waits)
    (hstop : (g.stop = .running ∧ (s.regs.prectl.getLsbD 16 = false ∨ g.supv = true)) ∨ g.stop = .requested) :
    exec (.preemptRequestArrival i) s = .next (s.stopGroup i) := by
  rw [exec_request h, (idle_iff g).2 (.inr hwaits)]
  have hquiet : (g.stop == .running && s.regs.prectl.getLsbD 16 && !g.supv) = false := by
    rcases hstop with ⟨_, hn | hn⟩ | hstop
    · rw [hn, Bool.and_false, Bool.false_and]
    · rw [hn, Bool.not_true, Bool.and_false]
    · rw [hstop]; rfl
  rw [hquiet]
  rcases hstop with ⟨hstop, _⟩ | hstop <;> simp [hstop]

/-- What a running group becomes that cannot stop at once. -/
def Group.requested (g : Group) (notice : Bool) : Group := { g with stop := if notice then .notice else .requested }

theorem request_running (h : s.asked i = some g) (hex : g.exited ≠ 0xFFFFFFFF) (hstop : g.stop = .running) (notice : Bool)
    (hnotice : (s.regs.prectl.getLsbD 16 && !g.supv) = notice) (hwaits : notice = true ∨ ¬ g.waits) :
    exec (.preemptRequestArrival i) s = .next (s.modGroup i (Group.requested · notice)) := by
  have hidle : notice = false → g.idle = false := fun hn => by
    rw [Bool.eq_false_iff, ne_eq, idle_iff]
    rintro (hx | hx)
    · exact hex hx
    · exact hwaits.elim (by simp [hn]) (· hx)
  rw [exec_request h, hstop, if_neg (by decide), if_neg (by simpa using hex), Bool.and_assoc, hnotice]
  cases notice with
  | true => rfl
  | false => rw [hidle rfl]; rfl

theorem exec_limit (h : s.asked i = some g) (hstop : g.stop = .notice ∨ g.stop = .requested)
    (hbusy : ∀ p, (g.slot0 = some p ∨ g.slot1 = some p) → p.busy = false) : exec (.preemptLimit i) s = .next (s.stopGroup i) := by
  have he : exec (.preemptLimit i) s = execPreemptLimit i s := rfl
  have hall : (g.allPaths fun p => !p.busy) = true := (allPaths_iff g _).2 fun p hp => by rw [hbusy p hp]; rfl
  rw [he, execPreemptLimit, h]
  rcases hstop with hstop | hstop <;> simp [hstop, hall]

theorem exec_notice {slot : Bool} (h : s.asked i = some g) (hstop : g.stop = .notice) (hsupv : g.supv = false) (hslot : s.noticeSlot g = some slot) :
    exec (.preemptNotify i) s = .next (s.withGroup i slot State.takeNotice) := by
  have he : exec (.preemptNotify i) s = execPreemptNotify i s := rfl
  rw [he, execPreemptNotify, h]
  simp [hstop, hsupv, hslot]

theorem unasked (h : s.asked i = none) :
    exec (.preemptRequestArrival i) s = .next s ∧ exec (.preemptNotify i) s = .next s ∧ exec (.preemptLimit i) s = .next s := by
  have hr : exec (.preemptRequestArrival i) s = execPreemptRequestArrival i s := rfl
  have hn : exec (.preemptNotify i) s = execPreemptNotify i s := rfl
  have hl : exec (.preemptLimit i) s = execPreemptLimit i s := rfl
  rw [hr, hn, hl, execPreemptRequestArrival, execPreemptNotify, execPreemptLimit, h]
  exact ⟨rfl, rfl, rfl⟩

end

/-- A move of a waiting path is what it does to the state with that path at issue. -/
theorem withGroup_atPath {s t : State} {i : GroupId} {slot : Bool} (h : s.atPath i slot t) (f : State → State) :
    s.withGroup i slot f = s.withGroup i slot fun _ => f t := by
  have h : s.exchange i slot = some t := h
  simp only [State.withGroup, h]

/-! ## The notice (R260, R263) -/

theorem path_setPath (s : State) (p : Path) : (s.setPath p).path = p := by
  have hset : (s.g.setPath s.slot (some p)).path? s.slot = some p := by cases s.slot <;> rfl
  rw [State.path, State.setPath, hset]
  rfl

theorem captured_ops (g : Group) (r : Replay) : (g.captured r).ops.isSome = true := by
  rw [Group.captured]
  split
  · assumption
  · rfl

theorem endWait_frame (s : State) : s.endWait.mem = s.mem ∧ s.endWait.path.mask = s.path.mask := by
  rw [State.endWait]
  split
  · exact ⟨rfl, rfl⟩
  · exact ⟨rfl, by rw [path_setPath]⟩

/-- What a group is as its notice is taken: at a boundary, with what it has still to execute captured. -/
def State.noticed (s : State) (off : Nat) (first : List Replay) : State :=
  { s with g := { s.g with stop := .requested, ovr := none } }.setPath { s.path with off := off, replay := first ++ s.path.replay.map s.g.captured }

theorem noticed_does (s : State) (off : Nat) {first : List Replay} (hfirst : first.length ≤ 1) (hempty : first = [] → s.path.replay = []) :
    (s.noticed off first).g.stop = .requested ∧ (s.noticed off first).g.ovr = none ∧ (s.noticed off first).mem = s.mem
      ∧ ∀ r ∈ (s.noticed off first).path.replay.drop 1, r.ops.isSome = true := by
  refine ⟨by simp [State.noticed, State.setPath], by cases hs : s.slot <;> simp [State.noticed, State.setPath, Group.setPath, hs], rfl, fun r hr => ?_⟩
  rw [State.noticed, path_setPath] at hr
  cases first with
  | nil => rw [hempty rfl] at hr; cases hr
  | cons x xs =>
    obtain rfl : xs = [] := List.length_eq_zero_iff.1 (by simpa using hfirst)
    obtain ⟨q, _, rfl⟩ := List.mem_map.1 (by simpa using hr)
    exact captured_ops _ _

theorem takeNotice_waits {t : State} (h : t.canCapture = false) : t.takeNotice = t := by
  rw [State.takeNotice, h]
  rfl

theorem takeNotice_enters {t : State} (h : t.canCapture = true) : ∃ (u : State) (iw : List Word32),
    t.takeNotice = u.enterHandler { trap := t.pathTrap 0x0A 1 0, iw := iw, skip := true }
      ∧ u.g.stop = .requested ∧ u.g.ovr = none ∧ u.mem = t.mem ∧ ∀ r ∈ u.path.replay.drop 1, r.ops.isSome = true := by
  obtain ⟨hmem, hmask⟩ := endWait_frame t
  rw [State.takeNotice, h, State.pathTrap, ← hmask]
  refine ⟨_, _, rfl, ?_⟩
  rw [← hmem]
  refine noticed_does t.endWait _ ?_ ?_
  · split <;> simp
  · intro hfirst
    split at hfirst
    · next he => exact List.isEmpty_iff.1 he
    · cases hfirst

/-! ## Commands that settle (R267, R268) -/

/-- What a command that settles does, by its instruction. -/
def State.settleCommand (s : State) (id : CmdId) (c : Command) : State :=
  match c.instr with
  | .attn l => s.inCommand c fun s => s.settleAttn c (attnArgs c l)
  | _ => s.modCmd id fun y => { y with settled := true }

theorem settleCommand_other {s : State} {id : CmdId} {c : Command} (h : ∀ l, c.instr ≠ .attn l) :
    s.settleCommand id c = s.modCmd id fun y => { y with settled := true } := by
  rw [State.settleCommand]
  split
  · next l hl => exact absurd hl (h l)
  · rfl

theorem settleAttn_noPins {c : Command} (h : c.pins.drop c.heldPins = []) (u : State) (x : AttnArgs) : u.settleAttn c x
    = ({ u with die0 := u.die0.dropWaiter (.cmd c.id), die1 := u.die1.dropWaiter (.cmd c.id) } : State).modCmd c.id Command.settleAt := by
  rw [State.settleAttn, h]
  rfl

theorem settleCommand_attn {s : State} {id : CmdId} {c : Command} {l : Lane} (h : c.instr = .attn l) (hpins : c.pins.drop c.heldPins = []) :
    s.settleCommand id c = s.inCommand c fun u =>
      ({ u with die0 := u.die0.dropWaiter (.cmd c.id), die1 := u.die1.dropWaiter (.cmd c.id) } : State).modCmd c.id Command.settleAt := by
  rw [State.settleCommand, h]
  exact congrArg (s.inCommand c) (funext fun u => settleAttn_noPins hpins u (attnArgs c l))

section
variable {s : State} {id : CmdId} {c : Command} {w : Workgroup} (hcmd : s.cmd? id = some c) (hw : s.wg? id.wg = some w)
include hcmd hw

theorem exec_settle : exec (.commandSettle id) s = .next
    (if w.state == .stopping && ofCore id.ctx && !c.finished && !c.settled && (c.stopped || !w.awaitedByFill c) then s.settleCommand id c else s) := by
  have he : exec (.commandSettle id) s = execCommandSettle id s := rfl
  rw [he, execCommandSettle, hcmd, hw]
  rfl

theorem settle_awaited (hstop : c.stopped = false) (hfill : w.awaitedByFill c = true) : exec (.commandSettle id) s = .next s := by
  rw [exec_settle hcmd hw, hstop, hfill]
  simp

theorem settle_does (hfin : c.finished = false) (hset : c.settled = false) (hstate : w.state = .stopping)
    (hctx : id.ctx ∈ [Ctx.copy0, .copy1, .xform, .mpair, .attn]) (hfree : c.stopped = true ∨ w.awaitedByFill c = false) :
    exec (.commandSettle id) s = .next (s.settleCommand id c) := by
  have hcore : ofCore id.ctx = true := by
    simp only [List.mem_cons, List.not_mem_nil, or_false] at hctx
    rcases hctx with hc | hc | hc | hc | hc <;> rw [hc] <;> rfl
  rw [exec_settle hcmd hw, hstate, hcore, hfin, hset]
  rcases hfree with hfree | hfree <;> simp [hfree]

end

/-! ## Saving (R264, R270) -/

theorem mayBeSaved_of {s : State} {w : Workgroup} (hstate : w.state = .stopping) (hgroups : ∀ g ∈ s.groups, wgOf g.id = w.id → g.stop = .stopped)
    (hcmds : ∀ c ∈ w.cmds, c.finished = true ∨ c.settled = true) : s.mayBeSaved w = true := by
  simp only [State.mayBeSaved, Bool.and_eq_true, List.all_eq_true, List.mem_filter, beq_iff_eq]
  refine ⟨⟨hstate, fun g hg => hgroups g hg.1 hg.2⟩, fun c hc => ?_⟩
  rcases hcmds c hc with h | h <;> simp [h]

section
variable {s : State} {i : WgId} {w : Workgroup} (hw : s.wg? i = some w)
include hw

/-- The groups of a workgroup, as a save takes them. -/
def State.idsOf (s : State) (i : WgId) : List GroupId := (s.groups.filter fun g => wgOf g.id == i).map fun g => g.id

/-- The groups of a workgroup as they are once their stores drain for the save, their watches still seeing them (R112, R113). -/
def State.quieted (s : State) (ids : List GroupId) : State :=
  let asked := ids.foldl (fun u j => u.modGroup j fun g => { g with stop := .requested }) s
  let drained := ids.foldl (fun u j => u.withGroup j false State.drain) asked
  ids.foldl State.stopGroup drained

theorem exec_save (hmay : s.mayBeSaved w = true) :
    exec (.workgroupSave i) s = .next (if (s.quieted (s.idsOf i)).movesFree i
      then (((s.idsOf i).foldl State.keepFloors (s.quieted (s.idsOf i))).saveStorage i).modWg i fun y => { y with state := .saving }
      else s.quieted (s.idsOf i)) := by
  have he : exec (.workgroupSave i) s = execWorkgroupSave i s := rfl
  rw [he, execWorkgroupSave, hw]
  simp only [hmay, if_true]
  rfl

theorem save_free (hmay : s.mayBeSaved w = true) (hfree : (s.quieted (s.idsOf i)).movesFree i = true) : exec (.workgroupSave i) s
    = .next ((((s.idsOf i).foldl State.keepFloors (s.quieted (s.idsOf i))).saveStorage i).modWg i fun y => { y with state := .saving }) := by
  rw [exec_save hw hmay, if_pos hfree]

theorem save_waits (hmay : s.mayBeSaved w = true) (hfree : (s.quieted (s.idsOf i)).movesFree i = false) :
    exec (.workgroupSave i) s = .next (s.quieted (s.idsOf i)) := by
  rw [exec_save hw hmay, hfree]
  rfl

theorem exec_saveCommit (hstate : w.state = .saving) {b : Nat} {bs : List Nat} (hfree : s.freeBlocks = b :: bs) :
    exec (.saveCommit i) s = .next (({ s with ctxUsed := b :: s.ctxUsed } : State).modWg i fun y => { y with state := .saved b }) := by
  have he : exec (.saveCommit i) s = execSaveCommit i s := rfl
  rw [he, execSaveCommit, hw, hfree]
  simp [hstate]

theorem exec_restoreCheck (ok : Bool) {b : Nat} (hstate : w.state = .restoring b) : exec (.restoreCheck i ok) s = .next
    (if ok then ({ s with ctxUsed := s.ctxUsed.filter fun y => y != b } : State).restoreWorkgroup w
      else (({ s with ctxUsed := s.ctxUsed.filter fun y => y != b } : State).machineCheck 2).loseWorkgroup w) := by
  have he : exec (.restoreCheck i ok) s = execRestoreCheck i ok s := rfl
  rw [he, execRestoreCheck, hw]
  simp only [hstate]

end

/-- The lowest number of a range that a list does not hold comes first of those that it does not hold. -/
theorem freeBlocks_lowest {s : State} {b : Nat} (hb : b < s.regs.ctxpool.toNat % 2 ^ 16) (hfree : b ∉ s.ctxUsed) (hlow : ∀ c, c < b → c ∈ s.ctxUsed) :
    ∃ bs, s.freeBlocks = b :: bs := by
  have hn : bitsOf s.regs.ctxpool.toNat 0 16 = b + (s.regs.ctxpool.toNat % 2 ^ 16 - b - 1 + 1) := by rw [bitsOf_low]; omega
  have hbelow : ((List.range b).filter fun x => !s.ctxUsed.contains x) = [] :=
    List.filter_eq_nil_iff.2 fun c hc => by simpa using hlow c (List.mem_range.1 hc)
  rw [State.freeBlocks, hn, List.range_add, List.filter_append, hbelow, List.range_succ_eq_map, List.map_cons, List.nil_append,
    List.filter_cons_of_pos (by simpa using hfree)]
  exact ⟨_, by rw [Nat.add_zero]⟩

theorem byte_commitBlock (s : State) (i : WgId) (b : Nat) (a : Nat) :
    (({ s with ctxUsed := b :: s.ctxUsed } : State).modWg i fun y => { y with state := .saved b }).byte a = s.byte a := by
  rw [modWg_frame]; rfl

/-! ## What a restored group keeps (R264 to R266) -/

/-- A list of marks given back changes completion flags alone. -/
theorem unmarkAll_frame (g : Group) (ks : List Nat) : g.unmarkAll ks = { g with qflags := (g.unmarkAll ks).qflags } := by
  induction ks using List.reverseRecOn with
  | nil => rfl
  | append_singleton ks k ih =>
    rw [Group.unmarkAll, List.foldl_append]
    exact congrArg (fun u => Group.unmark u (some k)) ih

theorem restored_whole {g : Group} (h : g.hint = none) : g.restored = { g with
    qflags := (g.unmarkAll g.rewaitMarks).qflags, stop := .running, slot0 := g.slot0.map Path.unwait, slot1 := g.slot1.map Path.unwait } := by
  rw [Group.restored, unmarkAll_frame, h]

theorem restored_hint {g : Group} {k : Hint} (h : g.hint = some k) : g.restored = { g with
    qflags := (g.unmarkAll g.rewaitMarks).qflags, stop := .running, slot0 := g.slot0.map Path.unwait, slot1 := g.slot1.map Path.unwait
    vregs := g.vregs.keep k.keepV, sregs := g.sregs.keep k.keepS, hint := if k.hold then some k else none } := by
  rw [Group.restored, unmarkAll_frame, h]

theorem unwait_free {p : Path} (h : p.wait = none) : p.unwait = { p with floor := none } := by
  rw [Path.unwait, h]

theorem unwait_monitor {p : Path} {w : Wait} {d : Option Word64} (h : p.wait = some w) (hon : w.on = .monitor d) : p.unwait = { p with floor := none } := by
  rw [Path.unwait, h]
  simp only [hon]

theorem unwait_again {p : Path} {w : Wait} (h : p.wait = some w) (hon : ∀ d, w.on ≠ .monitor d) :
    p.unwait = { p with wait := none, floor := none } := by
  rw [Path.unwait, h]
  dsimp only
  split
  · next d hd => exact absurd hd (hon d)
  · rfl

/-- A vector register of the hint's masks, by its number. -/
theorem keepV_key (k : Hint) (n : Nat) {l : Nat} (hl : l < 32) : k.keepV (32 * n + l) = k.vlive.getLsbD (n / 64) := by
  rw [Hint.keepV, show (32 * n + l) / 32 = n by omega]

theorem restored_paths (g : Group) : g.restored.stop = .running ∧ g.restored.mregs = g.mregs ∧ g.restored.bregs = g.bregs
    ∧ g.restored.slot0 = g.slot0.map Path.unwait ∧ g.restored.slot1 = g.slot1.map Path.unwait := by
  cases h : g.hint with
  | none => rw [restored_whole h]; exact ⟨rfl, rfl, rfl, rfl, rfl⟩
  | some k => rw [restored_hint h]; exact ⟨rfl, rfl, rfl, rfl, rfl⟩

theorem restored_regs {g : Group} {k : Hint} (h : g.hint = some k) :
    (∀ n, g.restored.sregs.get n = if k.slive.getLsbD (n / 8) = true then g.sregs.get n else 0)
      ∧ ∀ n l, l < 32 → g.restored.vreg n l = if k.vlive.getLsbD (n / 64) = true then g.vreg n l else 0 := by
  rw [restored_hint h]
  exact ⟨fun n => get_keep _ _ n, fun n l hl => by rw [Group.vreg, get_keep, keepV_key k n hl]; rfl⟩

/-- Settles O53: requests, commands that settle, the save and the restore of a workgroup. -/
theorem preemption : Obligations.Preemption := by
  refine ⟨fun s i g w hg hw => ?_, fun s id c w hcmd hfin hset hw hstate hctx => ⟨fun hstop hfill => settle_awaited hcmd hw hstop hfill, fun hfree => ⟨fun h => ?_, fun l h hpins => ?_⟩⟩,
    fun s i w hw => ⟨fun hstate hgroups hcmds => ?_, fun b hstate hb hfree hlow => ?_, fun b hstate => ⟨?_, ?_⟩⟩, fun g => ?_⟩
  · have hasked : w.state = .stopping → s.asked i = some g := fun h => by rw [asked_eq hg hw, if_pos h]
    refine ⟨fun h => unasked (by rw [asked_eq hg hw, if_neg h]), fun h => request_exited (hasked h), fun h => request_waiting (hasked h), fun h hstop hex hn => ?_,
      settleStop_stopped, fun h => exec_limit (hasked h), fun slot t h hstop hsupv hslot hat => ⟨?_, takeNotice_waits, takeNotice_enters⟩, stopGroup_group? hg⟩
    · refine ⟨_, request_running (hasked h) hex hstop _ rfl ?_, fun a => ?_, ?_⟩
      · refine hn.imp_left ?_
        rintro ⟨hctl, hsupv⟩
        rw [hctl, hsupv]; rfl
      · rw [modGroup_frame]; rfl
      · rw [modGroup_group? (f := (Group.requested · _)) (fun _ => rfl), hg]
        simp [Group.requested]
    · rw [Resumes, exec_notice (hasked h) hstop hsupv hslot, withGroup_atPath hat]
  · rw [settle_does hcmd hw hfin hset hstate hctx hfree, settleCommand_other h]
  · rw [Acts, settle_does hcmd hw hfin hset hstate hctx hfree, settleCommand_attn h hpins]
  · have hmay := mayBeSaved_of hstate hgroups hcmds
    exact ⟨save_free hw hmay, save_waits hw hmay⟩
  · obtain ⟨bs, hbs⟩ := freeBlocks_lowest hb hfree hlow
    refine ⟨_, exec_saveCommit hw hstate hbs, ?_, ?_, byte_commitBlock s i b⟩
    · rw [modWg_wg? (f := fun y => { y with state := .saved b }) (fun _ => rfl)]
      exact congrArg _ hw
    · rw [modWg_frame]
  · exact exec_restoreCheck hw true hstate
  · exact exec_restoreCheck hw false hstate
  · obtain ⟨hstop, hmregs, hbregs, hslot0, hslot1⟩ := restored_paths g
    exact ⟨hstop, hmregs, hbregs, hslot0, hslot1, fun p => ⟨unwait_free, fun w hwait => ⟨unwait_again hwait, fun d => unwait_monitor hwait⟩⟩,
      fun h => by rw [restored_whole h]; exact ⟨rfl, rfl⟩, fun k h => restored_regs h⟩

end Sys2Proof.Machine
end

