-- ==== Sys2Proof/Proofs/TierCounting.lean ====
section
/-! PROOFS. Counter fields, lichen entries, counting accesses and swaps (spec/02 R38, R41 to R45, R47). -/

namespace Sys2Proof.Machine

/-! ## Counter fields (R47, R55) -/

theorem eq_add_one {w : Nat} {x y : BitVec w} (h : x.toNat = (y.toNat + 1) % 2 ^ w) : x = y + 1 := by
  have hone : (y + 1).toNat = (y.toNat + (BitVec.ofNat w 1).toNat) % 2 ^ w := BitVec.toNat_add y 1
  rw [BitVec.toNat_ofNat, Nat.add_mod_mod] at hone
  exact BitVec.eq_of_toNat_eq (h.trans hone.symm)

/-- A number with another value in one of its fields. -/
theorem setField_nat (n : Nat) {L W : Nat} (m : Nat) : n - n / L % W * L + m * L = n % L + L * (m + W * (n / L / W)) := by
  have hn : n = n % L + (L * (n / L % W) + L * (W * (n / L / W))) := by rw [← Nat.mul_add, Nat.mod_add_div, Nat.mod_add_div]
  rw [Nat.mul_add, Nat.mul_comm m, Nat.mul_comm _ L]
  omega

section
variable (v : Word64) {lo w : Nat} (h : lo + w ≤ 64)
include h

theorem toNat_bumpField : (bumpField v lo w).toNat
    = v.toNat % 2 ^ lo + 2 ^ lo * ((v.toNat / 2 ^ lo % 2 ^ w + 1) % 2 ^ w + 2 ^ w * (v.toNat / 2 ^ lo / 2 ^ w)) := by
  rw [← setField_nat, bumpField, BitVec.toNat_ofNat]
  refine Nat.mod_eq_of_lt ?_
  rw [bitsOf, place, setField_nat]
  have hhigh : v.toNat / 2 ^ lo / 2 ^ w < 2 ^ (64 - (lo + w)) := by
    rw [Nat.div_div_eq_div_mul, ← Nat.pow_add, Nat.div_lt_iff_lt_mul (Nat.two_pow_pos _), ← Nat.pow_add, Nat.sub_add_cancel h]
    exact v.isLt
  have hsize : 2 ^ 64 = 2 ^ lo * (2 ^ w * 2 ^ (64 - (lo + w))) := by rw [← Nat.pow_add, ← Nat.pow_add]; congr 1; omega
  have hmid := Nat.mod_lt (v.toNat / 2 ^ lo % 2 ^ w + 1) (Nat.two_pow_pos w)
  rw [hsize]
  calc _ < 2 ^ lo + 2 ^ lo * ((v.toNat / 2 ^ lo % 2 ^ w + 1) % 2 ^ w + 2 ^ w * (v.toNat / 2 ^ lo / 2 ^ w)) :=
        Nat.add_lt_add_right (Nat.mod_lt _ (Nat.two_pow_pos lo)) _
    _ = 2 ^ lo * ((v.toNat / 2 ^ lo % 2 ^ w + 1) % 2 ^ w + 1 + 2 ^ w * (v.toNat / 2 ^ lo / 2 ^ w)) := by ring
    _ ≤ 2 ^ lo * (2 ^ w + 2 ^ w * (v.toNat / 2 ^ lo / 2 ^ w)) := Nat.mul_le_mul_left _ (Nat.add_le_add_right hmid _)
    _ = 2 ^ lo * (2 ^ w * (v.toNat / 2 ^ lo / 2 ^ w + 1)) := by ring
    _ ≤ _ := Nat.mul_le_mul_left _ (Nat.mul_le_mul_left _ hhigh)

theorem bumpField_same : (bumpField v lo w).extractLsb' lo w = v.extractLsb' lo w + 1 := by
  refine eq_add_one ?_
  rw [BitVec.extractLsb'_toNat, BitVec.extractLsb'_toNat, toNat_bumpField v h, Nat.shiftRight_eq_div_pow, Nat.shiftRight_eq_div_pow,
    Nat.add_mul_div_left _ _ (Nat.two_pow_pos lo), Nat.div_eq_of_lt (Nat.mod_lt _ (Nat.two_pow_pos lo)), Nat.zero_add, Nat.add_mul_mod_self_left, Nat.mod_mod]

/-- The fields below one that rises. -/
theorem bumpField_below : (bumpField v lo w).extractLsb' 0 lo = v.extractLsb' 0 lo := by
  refine BitVec.eq_of_toNat_eq ?_
  rw [BitVec.extractLsb'_toNat, BitVec.extractLsb'_toNat, toNat_bumpField v h, Nat.shiftRight_zero, Nat.shiftRight_zero, Nat.add_mul_mod_self_left,
    Nat.mod_mod]

/-- The fields above one that rises. -/
theorem bumpField_above (k : Nat) : (bumpField v lo w).extractLsb' (lo + w) k = v.extractLsb' (lo + w) k := by
  refine BitVec.eq_of_toNat_eq ?_
  rw [BitVec.extractLsb'_toNat, BitVec.extractLsb'_toNat, toNat_bumpField v h, Nat.shiftRight_add, Nat.shiftRight_add]
  simp only [Nat.shiftRight_eq_div_pow]
  rw [Nat.add_mul_div_left _ _ (Nat.two_pow_pos lo), Nat.div_eq_of_lt (Nat.mod_lt _ (Nat.two_pow_pos lo)), Nat.zero_add,
    Nat.add_mul_div_left _ _ (Nat.two_pow_pos w), Nat.div_eq_of_lt (Nat.mod_lt _ (Nat.two_pow_pos w)), Nat.zero_add]

end

/-! ## Lichen entries (R38, Table 2-2) -/

/-- An entry whose fields fit their places. -/
def Lichen.Fits (e : Lichen) : Prop := e.fast < 4 ∧ e.cnt.length = 3 ∧ ∀ c ∈ e.cnt, c < 16

theorem ofNat_fits (v : Nat) : (Lichen.ofNat v).Fits := by
  refine ⟨Nat.mod_lt _ (by decide), rfl, fun c hc => ?_⟩
  simp only [Lichen.ofNat, List.mem_cons, List.not_mem_nil, or_false, bitsOf] at hc
  omega

theorem ofNat_toNat {e : Lichen} (h : e.Fits) : Lichen.ofNat (e.toNat % 2 ^ 16) = e := by
  obtain ⟨fpin, cnt, fast⟩ := e
  obtain ⟨hfast, hlen, hcnt⟩ := h
  obtain ⟨a, b, c, rfl⟩ := List.length_eq_three.1 hlen
  simp only [List.mem_cons, List.not_mem_nil, or_false, forall_eq_or_imp, forall_eq] at hcnt hfast
  have hpin : fpin.toNat < 2 := Bool.toNat_lt fpin
  have hval : (Lichen.toNat ⟨fpin, [a, b, c], fast⟩) = fast + a * 4 + b * 64 + c * 1024 + fpin.toNat * 2 ^ 14 := rfl
  rw [hval]
  simp only [Lichen.ofNat, bitsOf, bitOf, Lichen.mk.injEq, List.cons.injEq, and_true]
  refine ⟨?_, ⟨by omega, by omega, by omega⟩, by omega⟩
  cases fpin <;> simp <;> omega

theorem lichen_of_mem {s t : State} (h : t.mem = s.mem) (die group : Nat) : t.lichen die group = s.lichen die group := by
  simp only [State.lichen, State.num, State.bytes, byte_of_mem h]

theorem lichen_setLichen (s : State) (die group : Nat) {e : Lichen} (h : e.Fits) : (s.setLichen die group e).lichen die group = e := by
  have hbytes : ∀ i, i < (bytesOf 2 e.toNat).length → (s.setLichen die group e).byte (lichenPa die group + i) = (bytesOf 2 e.toNat).getD i 0 :=
    fun i hi => byte_setBytes_mem (nodup_cellsAt _ _) (cell_mem hi) s
  have hnum := num_eq_of_bytes hbytes
  rw [length_bytesOf, natOf_bytesOf] at hnum
  rw [State.lichen, hnum, ofNat_toNat h]

theorem sameBytes_setLichen (s : State) (die group : Nat) (e : Lichen) :
    s.sameBytes (s.setLichen die group e) fun a => a = die * 2 ^ 41 + 0x17FFE800000 + 2 * group ∨ a = die * 2 ^ 41 + 0x17FFE800000 + 2 * group + 1 := by
  intro a ha
  refine byte_setBytes_other (fun p hp he => ha ?_) s
  obtain ⟨i, hi, hpi⟩ := mem_cellsAt hp
  rw [length_bytesOf] at hi
  rw [← he, hpi, lichenPa, lichenBase]
  omega

/-! ## Table 2-3 -/

section
variable {e : Lichen} {delta member : Nat} {pin : Bool} {tier : Nat}

theorem count_fast (h : member = e.fast) : e.count delta member pin tier
    = { e with fpin := pin, cnt := if pin = false ∧ tier < 2 then e.cnt.map (· - 1) else e.cnt } := by
  cases pin <;> by_cases ht : tier < 2 <;> simp [Lichen.count, h, ht]

theorem count_other (h : member ≠ e.fast) : e.count delta member pin tier = { e with
    cnt := if pin = false ∧ tier = 0 then e.cnt.modify (counterOf e.fast member) fun c => min (c + 1) 15
      else if pin = false ∧ tier = 1 then e.cnt.modify (counterOf e.fast member) fun c => min (max (c + 1) delta) 15 else e.cnt } := by
  cases pin with
  | true => simp [Lichen.count, h]
  | false =>
    by_cases h0 : tier = 0
    · simp [Lichen.count, h, h0]
    · by_cases h1 : tier = 1 <;> simp [Lichen.count, h, h0, h1]

theorem getD_modify {α : Type} (xs : List α) (f : α → α) (d : α) {j k : Nat} (hk : k < xs.length) :
    (xs.modify j f).getD k d = if k = j then f (xs.getD k d) else xs.getD k d := by
  simp only [List.getD_eq_getElem?_getD, List.getElem?_modify, List.getElem?_eq_getElem hk]
  by_cases h : k = j
  · simp [h]
  · simp [h, Ne.symm h]

theorem mem_modify_lt {xs : List Nat} {j b : Nat} {f : Nat → Nat} (hxs : ∀ c ∈ xs, c < b) (hf : ∀ c, f c < b) : ∀ c ∈ xs.modify j f, c < b := by
  intro c hc
  obtain ⟨k, hk, rfl⟩ := List.mem_iff_getElem.1 hc
  rw [List.getElem_modify]
  split
  · exact hf _
  · exact hxs _ (List.getElem_mem _)

theorem count_fits (he : e.Fits) : (e.count delta member pin tier).Fits ∧ (e.count delta member pin tier).fast = e.fast := by
  obtain ⟨hfast, hlen, hcnt⟩ := he
  by_cases h : member = e.fast
  · rw [count_fast h]
    refine ⟨⟨hfast, ?_, ?_⟩, rfl⟩ <;> dsimp only <;> split
    · simpa using hlen
    · exact hlen
    · intro c hc
      obtain ⟨x, hx, rfl⟩ := List.mem_map.1 hc
      exact Nat.lt_of_le_of_lt (Nat.sub_le x 1) (hcnt x hx)
    · exact hcnt
  · rw [count_other h]
    refine ⟨⟨hfast, ?_, ?_⟩, rfl⟩ <;> dsimp only <;> split
    · simpa using hlen
    · split
      · simpa using hlen
      · exact hlen
    · exact mem_modify_lt hcnt fun c => Nat.lt_of_le_of_lt (Nat.min_le_right _ _) (by decide)
    · split
      · exact mem_modify_lt hcnt fun c => Nat.lt_of_le_of_lt (Nat.min_le_right _ _) (by decide)
      · exact hcnt

/-- The counters of a counting access to the fast member (R42). -/
theorem count_fast_cnt (he : e.Fits) (h : member = e.fast) : (e.count delta member pin tier).fpin = pin
    ∧ ∀ k, k < 3 → (e.count delta member pin tier).cnt.getD k 0 = if pin = false ∧ tier < 2 then e.cnt.getD k 0 - 1 else e.cnt.getD k 0 := by
  obtain ⟨-, hlen, -⟩ := he
  rw [count_fast h]
  refine ⟨rfl, fun k hk => ?_⟩
  dsimp only
  split
  · rw [List.getD_eq_getElem?_getD, List.getElem?_map, List.getD_eq_getElem?_getD, List.getElem?_eq_getElem (by omega)]
    rfl
  · rfl

/-- The counters of a counting access to a capacity member (R42). -/
theorem count_other_cnt (he : e.Fits) (h : member ≠ e.fast) : (e.count delta member pin tier).fpin = e.fpin
    ∧ ∀ k, k < 3 → (e.count delta member pin tier).cnt.getD k 0
      = if pin = false ∧ k = counterOf e.fast member ∧ tier = 0 then min (e.cnt.getD k 0 + 1) 15
        else if pin = false ∧ k = counterOf e.fast member ∧ tier = 1 then min (max (e.cnt.getD k 0 + 1) delta) 15 else e.cnt.getD k 0 := by
  obtain ⟨-, hlen, -⟩ := he
  rw [count_other h]
  refine ⟨rfl, fun k hk => ?_⟩
  have hk : k < e.cnt.length := by omega
  dsimp only
  split
  · next h0 => rw [getD_modify _ _ _ hk]; simp [h0]
  · next h0 =>
    split
    · next h1 =>
      have hne : tier ≠ 0 := by omega
      rw [getD_modify _ _ _ hk]; simp [h1]
    · next h1 =>
      rw [if_neg fun hc => h0 ⟨hc.1, hc.2.2⟩, if_neg fun hc => h1 ⟨hc.1, hc.2.2⟩]

end

/-- A change of a die changes the dies alone. -/
theorem setDie_frame (s : State) (d : BitVec 2) (x : Die) : s.setDie d x
    = { s with die0 := (s.setDie d x).die0, die1 := (s.setDie d x).die1, die2 := (s.setDie d x).die2, die3 := (s.setDie d x).die3 } := by
  unfold State.setDie
  split
  · rfl
  · split
    · rfl
    · split <;> rfl

/-! ## Counting accesses (R41 to R43, R45) -/

theorem exec_countingAccess (s : State) (die : BitVec 2) (group : Nat) (member : BitVec 2) (pin : Bool) (tier : BitVec 2) :
    exec (.countingAccess die group member pin tier) s = .next
      (if s.leafOver pin tier.toNat (memberAddr die group member.toNat) then s.countingAccess die group member.toNat pin tier.toNat else s) := rfl

theorem countingAccess_none {s : State} {die : BitVec 2} {group m tier : Nat} {pin : Bool} (h : 2 ≤ die.toNat ∨ firstLocked ≤ group) :
    s.countingAccess die group m pin tier = s := by
  have hguard : (2 ≤ die.toNat || isLocked group || decide (groupCount ≤ group)) = true := by rcases h with h | h <;> simp [isLocked, h]
  simp only [State.countingAccess, hguard, if_true]

section
variable {s : State} {die : BitVec 2} {group m : Nat} (pin : Bool) (tier : Nat) (hdie : die.toNat < 2) (hgroup : group < firstLocked)
include hdie hgroup

theorem tierGroup_guard : (2 ≤ die.toNat || isLocked group || decide (groupCount ≤ group)) = false := by
  have hcount : group < groupCount := Nat.lt_trans hgroup (by decide)
  rw [isLocked, decide_eq_false (Nat.not_le.2 hdie), decide_eq_false (Nat.not_le.2 hgroup), decide_eq_false (Nat.not_le.2 hcount)]
  rfl

theorem countingAccess_held (hheld : s.swapHolds die group m = true) : s.countingAccess die group m pin tier
    = s.setDie die { s.die die with heldCounts := (s.die die).heldCounts ++ [(group, m, pin, tier)] } := by
  simp only [State.countingAccess, tierGroup_guard hdie hgroup, hheld, Bool.false_eq_true, if_false, if_true]

/-- An access raises a swap trigger: the entry that it leaves qualifies and no trigger of its group is pending (R43). -/
def Lichen.fires (e : Lichen) (d : Die) (group m : Nat) (pin : Bool) (tier : Nat) : Bool :=
  !pin && decide (tier < 2) && e.qualifies d m && !(d.swapQueue.any (fun q => q.1 == group) || d.swaps.any fun q => q.1 == group)

/-- A trigger joins the queue, or is counted as dropped where the queue is full (R45, R47). -/
def Die.trigger (d : Die) (group m : Nat) : Die :=
  if d.swapQueue.length < 64 then { d with swapQueue := d.swapQueue ++ [(group, m)] } else { d with lichStat := bumpField d.lichStat 16 16 }

theorem countingAccess_counts (hfree : s.swapHolds die group m = false) {e : Lichen}
    (he : e = (s.lichen die.toNat group).count (swapDelta (s.die die)) m pin tier) : s.countingAccess die group m pin tier
    = if e.fires (s.die die) group m pin tier then (s.setLichen die.toNat group e).setDie die ((s.die die).trigger group m)
      else s.setLichen die.toNat group e := by
  rw [State.countingAccess, tierGroup_guard hdie hgroup, hfree, he, Lichen.fires, Die.trigger]
  simp only [Bool.false_eq_true, if_false]
  congr 1
  split <;> rfl

end

theorem fires_iff {e : Lichen} {d : Die} {group m tier : Nat} {pin : Bool} : e.fires d group m pin tier = true
    ↔ pin = false ∧ tier < 2 ∧ m ≠ e.fast ∧ swapDelta d ≤ e.cnt.getD (counterOf e.fast m) 0 ∧ lichEn d = true ∧ e.fpin = false
      ∧ ∀ q ∈ d.swapQueue ++ d.swaps, q.1 ≠ group := by
  simp only [Lichen.fires, Lichen.qualifies, Bool.and_eq_true, Bool.not_eq_true', decide_eq_true_eq, bne_iff_ne, Bool.or_eq_false_iff, List.any_eq_false,
    beq_iff_eq, List.mem_append, or_imp, forall_and]
  tauto

theorem trigger_queues {d : Die} {group m : Nat} (h : d.swapQueue.length < 64) :
    (d.trigger group m).swapQueue = d.swapQueue ++ [(group, m)] ∧ (d.trigger group m).lichStat = d.lichStat := by
  rw [Die.trigger, if_pos h]
  exact ⟨rfl, rfl⟩

theorem trigger_drops {d : Die} {group m : Nat} (h : 64 ≤ d.swapQueue.length) :
    (d.trigger group m).swapQueue = d.swapQueue ∧ (d.trigger group m).lichStat.extractLsb' 16 16 = d.lichStat.extractLsb' 16 16 + 1 := by
  rw [Die.trigger, if_neg (by omega)]
  exact ⟨rfl, bumpField_same _ (by decide)⟩

section
variable {s : State} {die : BitVec 2} {group m : Nat} {pin : Bool} {tier : Nat} (hdie : die.toNat < 2) (hgroup : group < firstLocked)
  (hfree : s.swapHolds die group m = false) {e : Lichen} (he : e = (s.lichen die.toNat group).count (swapDelta (s.die die)) m pin tier)
include hdie hgroup hfree he

theorem countingAccess_mem : (s.countingAccess die group m pin tier).mem = (s.setLichen die.toNat group e).mem := by
  rw [countingAccess_counts pin tier hdie hgroup hfree he]
  split
  · rw [mem_setDie]
  · rfl

theorem countingAccess_die : (s.countingAccess die group m pin tier).die die
    = if e.fires (s.die die) group m pin tier then (s.die die).trigger group m else s.die die := by
  rw [countingAccess_counts pin tier hdie hgroup hfree he]
  split
  · rw [die_setDie]
  · rw [die_setLichen]

theorem countingAccess_lichen : (s.countingAccess die group m pin tier).lichen die.toNat group = e := by
  rw [lichen_of_mem (countingAccess_mem hdie hgroup hfree he), lichen_setLichen _ _ _ (he ▸ (count_fits (ofNat_fits _)).1)]

theorem countingAccess_bytes : s.sameBytes (s.countingAccess die group m pin tier)
    fun a => a = die.toNat * 2 ^ 41 + 0x17FFE800000 + 2 * group ∨ a = die.toNat * 2 ^ 41 + 0x17FFE800000 + 2 * group + 1 := fun a ha => by
  rw [byte_of_mem (countingAccess_mem hdie hgroup hfree he), sameBytes_setLichen s die.toNat group e a ha]

end

/-! ## Swaps (R44, R45) -/

theorem exec_swapStart (die : BitVec 2) (s : State) : exec (.swapStart die) s = .next (s.startSwap die) := rfl

section
variable {s : State} {die : BitVec 2} {group m : Nat} {rest : List (Nat × Nat)}

theorem startSwap_idle (h : (s.die die).swapQueue = [] ∨ 16 ≤ (s.die die).swaps.length) : s.startSwap die = s := by
  cases hq : (s.die die).swapQueue with
  | nil => rw [State.startSwap, hq]
  | cons q rest =>
    rw [State.startSwap, hq]
    exact if_pos (h.resolve_left (by rw [hq]; exact List.cons_ne_nil q rest))

theorem startSwap_head (hq : (s.die die).swapQueue = (group, m) :: rest) (hroom : (s.die die).swaps.length < 16) : s.startSwap die
    = if (s.lichen die.toNat group).qualifies (s.die die) m then s.setDie die { s.die die with swapQueue := rest, swaps := (s.die die).swaps ++ [(group, m)] }
      else s.setDie die { s.die die with swapQueue := rest } := by
  rw [State.startSwap, hq]
  exact if_neg (by omega)

theorem qualifies_iff {e : Lichen} {d : Die} : e.qualifies d m = true
    ↔ m ≠ e.fast ∧ swapDelta d ≤ e.cnt.getD (counterOf e.fast m) 0 ∧ lichEn d = true ∧ e.fpin = false := by
  simp only [Lichen.qualifies, Bool.and_eq_true, bne_iff_ne, decide_eq_true_eq, Bool.not_eq_true', and_assoc]

/-- A swap as it ends, before what it held counts. -/
def State.swapped (s : State) (die : BitVec 2) (group m : Nat) : State :=
  (s.setLichen die.toNat group { fpin := false, cnt := [0, 0, 0], fast := m }).setDie die { s.die die with
    swaps := (s.die die).swaps.filter fun q => q.1 != group
    heldCounts := (s.die die).heldCounts.filter fun c => c.1 != group
    lichStat := bumpField (s.die die).lichStat 32 32 }

theorem exec_swapComplete (hq : (s.die die).swaps.find? (fun q => q.1 == group) = some (group, m)) : exec (.swapComplete die group) s
    = .next (((s.die die).heldCounts.filter fun c => c.1 == group).foldl (fun v c => v.countingAccess die c.1 c.2.1 c.2.2.1 c.2.2.2) (s.swapped die group m)).retryHeld := by
  have he : exec (.swapComplete die group) s = .next (s.endSwap die group).retryHeld := rfl
  rw [he, State.endSwap, hq]
  rfl

theorem held_swapped : (s.swapped die group m).held = s.held := by
  rw [State.swapped, setDie_frame, State.setLichen, setBytes_frame]

end

end Sys2Proof.Machine
end

