-- ==== Sys2Proof/Proofs/LinesAndWalks.lean ====
section
/-! PROOFS. The lichen cache, line codes, write-back, the size predictor and the leaf of a walk (spec/02 R40, R47, R49 to R55, spec/05 R118, R119). -/

namespace Sys2Proof.Machine

/-! ## The lichen cache (R40, R47) -/

theorem exec_lichenCacheMiss (die : BitVec 2) (block : Nat) (s : State) : exec (.lichenCacheMiss die block) s
    = .next (if groupCount / 32 ≤ block || (s.die die).lichCache.contains block then s else s.lichenLookup die block) := rfl

/-- What a miss leaves of a die: the block first, the least recently used of 16384 evicted, and every 1024th miss counted. -/
def Die.missed (d : Die) (block : Nat) : Die :=
  if d.missCount + 1 = 1024 then { d with lichCache := (block :: d.lichCache).take 16384, missCount := 0, lichStat := bumpField d.lichStat 0 16 }
  else { d with lichCache := (block :: d.lichCache).take 16384, missCount := d.missCount + 1 }

theorem lichenLookup_miss {s : State} {die : BitVec 2} {block : Nat} (hdie : die.toNat < 2) (h : block ∉ (s.die die).lichCache) :
    s.lichenLookup die block = s.setDie die ((s.die die).missed block) := by
  have hcache : (s.die die).lichCache.contains block = false := by simpa using h
  simp only [State.lichenLookup, if_neg (Nat.not_le.2 hdie), hcache, Bool.false_eq_true, if_false, Die.missed]
  split <;> rfl

theorem lichenLookup_fDie {s : State} {die : BitVec 2} (block : Nat) (hdie : 2 ≤ die.toNat) : s.lichenLookup die block = s := by
  rw [State.lichenLookup, if_pos hdie]

theorem missed_counts (d : Die) (block : Nat) : (d.missed block).lichCache = (block :: d.lichCache).take 16384
    ∧ (d.missCount ≠ 1023 → (d.missed block).missCount = d.missCount + 1 ∧ (d.missed block).lichStat = d.lichStat)
    ∧ (d.missCount = 1023 → (d.missed block).missCount = 0 ∧ (d.missed block).lichStat.extractLsb' 0 16 = d.lichStat.extractLsb' 0 16 + 1) := by
  by_cases h : d.missCount = 1023
  · rw [Die.missed, if_pos (by omega)]
    exact ⟨rfl, fun hne => absurd h hne, fun _ => ⟨rfl, bumpField_same _ (by decide)⟩⟩
  · rw [Die.missed, if_neg (by omega)]
    exact ⟨rfl, fun _ => ⟨rfl, rfl⟩, fun he => absurd he h⟩

/-! ## The code of a line (R51, R52) -/

/-- A code of fewer sectors takes the place of the best so far. -/
def better (b c : Nat × Nat) : Nat × Nat := if c.2 < b.2 then c else b

/-- The fewest sectors, and among those the lowest code, of codes in ascending order. -/
theorem foldl_better {cs : List (Nat × Nat)} : ∀ {b : Nat × Nat}, (b :: cs).Pairwise (fun x y => x.1 < y.1) →
    cs.foldl better b ∈ b :: cs ∧ ∀ c ∈ b :: cs, (cs.foldl better b).2 < c.2 ∨ ((cs.foldl better b).2 = c.2 ∧ (cs.foldl better b).1 ≤ c.1) := by
  induction cs with
  | nil => intro b _; simp
  | cons x xs ih =>
    intro b h
    obtain ⟨hb, hxs⟩ := List.pairwise_cons.1 h
    rw [List.foldl_cons]
    by_cases hx : x.2 < b.2
    · rw [better, if_pos hx]
      obtain ⟨hmem, hleast⟩ := ih hxs
      refine ⟨List.mem_cons_of_mem _ hmem, fun c hc => ?_⟩
      rcases List.mem_cons.1 hc with rfl | hc
      · have := hleast x List.mem_cons_self
        omega
      · exact hleast c hc
    · rw [better, if_neg hx]
      obtain ⟨hmem, hleast⟩ := ih (b := b) (List.pairwise_cons.2 ⟨fun y hy => hb y (List.mem_cons_of_mem _ hy), hxs.tail⟩)
      refine ⟨List.mem_cons.2 ((List.mem_cons.1 hmem).imp_right (List.mem_cons_of_mem _)), fun c hc => ?_⟩
      rcases List.mem_cons.1 hc with rfl | hc
      · exact hleast _ List.mem_cons_self
      · rcases List.mem_cons.1 hc with rfl | hc
        · have hbx := hb c List.mem_cons_self
          have := hleast b List.mem_cons_self
          omega
        · exact hleast c (List.mem_cons_of_mem _ hc)

/-- The codes of Table 2-7 with their sectors. -/
def codeTable : List (Nat × Nat) := [(0, 4), (1, 0), (2, 1), (3, 2), (4, 3), (5, 3), (6, 3)]

theorem ite_sublist {α : Type} (p : Prop) [Decidable p] (x : α) : (if p then [x] else []).Sublist [x] := by
  split
  · exact List.Sublist.refl _
  · exact List.nil_sublist _

theorem lineCodes_sublist (bs : List Byte) : (lineCodes bs).Sublist codeTable := by
  refine List.Sublist.append (List.Sublist.append (List.Sublist.append (List.Sublist.append (List.Sublist.append (List.Sublist.append
    (l₂ := [(0, 4)]) (List.Sublist.refl _) (r₂ := [(1, 0)]) ?_) (r₂ := [(2, 1)]) ?_) (r₂ := [(3, 2)]) ?_) (r₂ := [(4, 3)]) ?_) (r₂ := [(5, 3)]) ?_) (r₂ := [(6, 3)]) ?_
  all_goals exact ite_sublist _ _

theorem bestCode_eq (bs : List Byte) : ∃ cs, lineCodes bs = (0, 4) :: cs ∧ bestCode bs = (cs.foldl better (0, 4)).1 :=
  ⟨_, rfl, rfl⟩

/-- The code of a line is the lowest of those with the fewest sectors (R52). -/
theorem bestCode_least (bs : List Byte) :
    ∃ n, (bestCode bs, n) ∈ lineCodes bs ∧ ∀ c ∈ lineCodes bs, n < c.2 ∨ (n = c.2 ∧ bestCode bs ≤ c.1) := by
  obtain ⟨cs, hcs, hbest⟩ := bestCode_eq bs
  have hsorted : (lineCodes bs).Pairwise fun x y => x.1 < y.1 := List.Pairwise.sublist (lineCodes_sublist bs) (by decide)
  rw [hcs] at hsorted ⊢
  rw [hbest]
  exact ⟨_, foldl_better hsorted⟩

theorem bestCode_lt (bs : List Byte) : bestCode bs < 16 := by
  obtain ⟨n, hmem, -⟩ := bestCode_least bs
  have hall : ∀ c ∈ codeTable, c.1 < 16 := by decide
  exact hall (bestCode bs, n) ((lineCodes_sublist bs).subset hmem)

/-! ## Metadata bytes (R53) -/

theorem setMetaCode_byte (s : State) (pa code : Nat) {a : Nat} (h : a ≠ (metaPa pa).1) : (s.setMetaCode pa code).byte a = s.byte a := by
  unfold State.setMetaCode
  rcases hm : metaPa pa with ⟨x, hi⟩
  rw [hm] at h
  exact (byte_setByte s x a _).trans (if_neg h)

theorem metaCode_setMetaCode (s : State) (pa : Nat) {code : Nat} (h : code < 16) : (s.setMetaCode pa code).metaCode pa = code := by
  unfold State.setMetaCode State.metaCode
  rcases metaPa pa with ⟨x, hi⟩
  have hbyte := (s.byte x).isLt
  cases hi <;> simp only [byte_setByte, if_true, Bool.false_eq_true, if_false, BitVec.toNat_ofNat] <;> omega

/-! ## Write-back (R49, R52, R53) -/

/-- A die's predictor and its counts of compression. -/
def Die.sizes (d : Die) : SMap 2 × Word64 := (d.predictor, d.cmpStat)

/-- The lookups of a write-back: the line's own, and its metadata's where L2 does not hold that line (R40). -/
def State.writeLookups (s : State) (line : Nat) : State :=
  if (s.lookupLine line).holdsLine (metaLine line) then s.lookupLine line else (s.lookupLine line).lookupLine (metaLine line)

section
variable {β : Type} {view : State → β} (h : ∀ (s : State) (d : BitVec 2) (x : Die), x.sizes = (s.die d).sizes → view (s.setDie d x) = view s)
include h

theorem view_lichenLookup (s : State) (die : BitVec 2) (block : Nat) : view (s.lichenLookup die block) = view s := by
  unfold State.lichenLookup
  split
  · rfl
  · dsimp only
    split
    · exact h s die _ rfl
    · split <;> exact h s die _ rfl

theorem view_lookupLine (s : State) (pa : Nat) : view (s.lookupLine pa) = view s := ite_keeps view (view_lichenLookup h s _ _)

theorem view_writeLookups (s : State) (line : Nat) : view (s.writeLookups line) = view s := by
  unfold State.writeLookups
  split
  · exact view_lookupLine h s line
  · rw [view_lookupLine h, view_lookupLine h]

end

/-- The code that a line is written back with (R52, R458). -/
def State.writeCode (s : State) (line : Nat) : Nat :=
  if s.cmpLines.contains line && !s.rangePoisoned line 128 then bestCode (s.bytes line 128) else 0

section
variable (s : State) (line : Nat)

theorem mem_writeLookups : (s.writeLookups line).mem = s.mem := view_writeLookups (view := State.mem) (fun s d x _ => by rw [setDie_frame]) s line

theorem soft_writeLookups : (s.writeLookups line).soft = s.soft := view_writeLookups (view := State.soft) (fun s d x _ => by rw [setDie_frame]) s line

theorem dirty_writeLookups : (s.writeLookups line).dirty = s.dirty := view_writeLookups (view := State.dirty) (fun s d x _ => by rw [setDie_frame]) s line

theorem cmpLines_writeLookups : (s.writeLookups line).cmpLines = s.cmpLines :=
  view_writeLookups (view := State.cmpLines) (fun s d x _ => by rw [setDie_frame]) s line

end

theorem rangePoisoned_of_stored {s t : State} (hmem : t.mem = s.mem) (hsoft : t.soft = s.soft) (x n : Nat) : t.rangePoisoned x n = s.rangePoisoned x n := by
  have hmeta (y : Nat) : t.metaBad y = s.metaBad y := by
    unfold State.metaBad
    rw [hmem, hsoft]
  rw [State.rangePoisoned, hmeta, hmeta, hsoft]
  rfl

theorem writeCode_writeLookups (s : State) (line : Nat) : (s.writeLookups line).writeCode line = s.writeCode line := by
  simp only [State.writeCode, rangePoisoned_of_stored (mem_writeLookups s line) (soft_writeLookups s line), cmpLines_writeLookups, State.bytes,
    byte_of_mem (mem_writeLookups s line)]

/-- A line is no longer dirty. -/
def State.cleaned (s : State) (line : Nat) : State :=
  { s with dirty := s.dirty.filter (fun x => x != line), cmpLines := s.cmpLines.filter fun x => x != line }

theorem dirty_cleaned (s : State) (line : Nat) : (s.cleaned line).dirty = s.dirty.filter fun x => x != line := rfl

theorem mem_cleaned (s : State) (line : Nat) : (s.cleaned line).mem = s.mem := rfl

theorem writeBack_eq {s : State} {line : Nat} (hline : line / 128 * 128 = line) (hown : isOwn line = true) (hlocal : isLocal line = true)
    (hord : inCarve line = false) : s.writeBack line = ((s.writeLookups line).cleaned line).setMetaCode line (s.writeCode line) := by
  rw [← writeCode_writeLookups]
  simp only [State.writeBack, hline, hown, hlocal, hord, Bool.not_true, Bool.or_false, Bool.false_eq_true, if_false]
  rfl

theorem writeCode_raw {s : State} {line : Nat} (h : line ∉ s.cmpLines ∨ s.rangePoisoned line 128 = true) : s.writeCode line = 0 := by
  rw [State.writeCode, if_neg]
  rcases h with h | h <;> simp [h]

theorem writeCode_best {s : State} {line : Nat} (hcmp : line ∈ s.cmpLines) (hpoison : s.rangePoisoned line 128 = false) :
    s.writeCode line = bestCode (s.bytes line 128) := by
  rw [State.writeCode, if_pos (by simp [hcmp, hpoison])]

theorem writeCode_lt (s : State) (line : Nat) : s.writeCode line < 16 := by
  rw [State.writeCode]
  split
  · exact bestCode_lt _
  · decide

theorem exec_lineWriteBack (die : BitVec 2) (n : Nat) (s : State) : exec (.lineWriteBack die n) s
    = .next (if s.dirty.contains (die.toNat * 2 ^ 41 + 128 * n) then s.writeBack (die.toNat * 2 ^ 41 + 128 * n) else s) := rfl

section
variable {s : State} {line : Nat} (hline : line / 128 * 128 = line) (hown : isOwn line = true) (hlocal : isLocal line = true) (hord : inCarve line = false)
include hline hown hlocal hord

theorem metaCode_writeBack : (s.writeBack line).metaCode line = s.writeCode line := by
  rw [writeBack_eq hline hown hlocal hord, metaCode_setMetaCode _ _ (writeCode_lt s line)]

theorem dirty_writeBack : (s.writeBack line).dirty = s.dirty.filter fun x => x != line := by
  have hset (u : State) (code : Nat) : (u.setMetaCode line code).dirty = u.dirty := by unfold State.setMetaCode; split; rfl
  rw [writeBack_eq hline hown hlocal hord, hset, dirty_cleaned, dirty_writeLookups]

theorem byte_writeBack_other {a : Nat} (h : a ≠ (metaPa line).1) : (s.writeBack line).byte a = s.byte a := by
  rw [writeBack_eq hline hown hlocal hord, setMetaCode_byte _ _ _ h]
  exact byte_of_mem ((mem_cleaned _ line).trans (mem_writeLookups s line)) a

end

/-! ## The size predictor (R54, R55) -/

/-- A view that no cache of a die and no metadata byte bears on. -/
structure Uncached {β : Type} (view : State → β) : Prop where
  setDie : ∀ (s : State) (d : BitVec 2) (x : Die), x.sizes = (s.die d).sizes → view (s.setDie d x) = view s
  lines : ∀ (s : State) (m : List Host.Cell) (xs ys : List Nat), view { s with mem := m, dirty := xs, cmpLines := ys } = view s

section
variable {β : Type} {view : State → β} (h : Uncached view)
include h

theorem view_setMetaCode (s : State) (pa code : Nat) : view (s.setMetaCode pa code) = view s := by
  unfold State.setMetaCode
  split
  exact h.lines s _ s.dirty s.cmpLines

theorem view_writeBack (s : State) (pa : Nat) : view (s.writeBack pa) = view s := by
  unfold State.writeBack
  dsimp only
  split
  · rfl
  · rw [view_setMetaCode h]
    refine (h.lines _ _ _ _).trans ?_
    split
    · exact view_lookupLine h.setDie s _
    · exact (view_lookupLine h.setDie _ _).trans (view_lookupLine h.setDie s _)

theorem view_fillLine (s : State) (die : BitVec 2) (line n : Nat) (low : Bool) : view (s.fillLine die line n low) = view s := by
  unfold State.fillLine
  split
  exact (foldl_keeps view (fun t l _ => ite_keeps view (view_writeBack h t l)) _).trans (h.setDie s die _ rfl)

end

theorem uncached_sizes (e : BitVec 2) : Uncached fun s => (s.die e).sizes where
  setDie s d x hx := by
    by_cases he : e = d
    · rw [he, die_setDie, hx]
    · rw [die_setDie_ne s he]
  lines _ _ _ _ := rfl

theorem uncached_cores : Uncached State.cores where
  setDie s d x _ := by rw [setDie_frame]
  lines _ _ _ _ := rfl

/-! ## A read whose metadata L2 does not hold (R54, R55) -/

/-- The location of an address in its die's predictor. -/
def predictorAt (pa : Nat) : Nat := winOff pa / 2 ^ 15 % 65536

/-- What a read teaches the predictor, and what it counts. -/
def Die.learnt (d : Die) (ix actual : Nat) : Die := { d with
  predictor := d.predictor.set ix (BitVec.ofNat 2 (4 - actual))
  cmpStat := if 3 - (d.predictor.get ix).toNat + 1 < actual then bumpField (bumpField d.cmpStat 0 32) 32 32 else bumpField d.cmpStat 0 32 }

theorem residentSectors_range (code : Nat) : 1 ≤ residentSectors code ∧ residentSectors code ≤ 4 := by
  refine ⟨Nat.le_max_left _ _, Nat.max_le.2 ⟨by decide, ?_⟩⟩
  unfold codeSectors
  split <;> decide

theorem learnt_predicts (d : Die) (ix : Nat) {actual : Nat} (h : 1 ≤ actual ∧ actual ≤ 4) : 4 - ((d.learnt ix actual).predictor.get ix).toNat = actual := by
  rw [Die.learnt, get_set, if_pos rfl, BitVec.toNat_ofNat]
  omega

theorem learnt_counts (d : Die) (ix actual : Nat) :
    (d.learnt ix actual).cmpStat.extractLsb' 0 32 = d.cmpStat.extractLsb' 0 32 + 1
      ∧ (d.learnt ix actual).cmpStat.extractLsb' 32 32
        = if 3 - (d.predictor.get ix).toNat + 1 < actual then d.cmpStat.extractLsb' 32 32 + 1 else d.cmpStat.extractLsb' 32 32 := by
  have hlow : (bumpField (bumpField d.cmpStat 0 32) 32 32).extractLsb' 0 32 = d.cmpStat.extractLsb' 0 32 + 1 :=
    (bumpField_below _ (by decide)).trans (bumpField_same _ (by decide))
  have hhigh : (bumpField d.cmpStat 0 32).extractLsb' 32 32 = d.cmpStat.extractLsb' 32 32 := bumpField_above (lo := 0) (w := 32) _ (by decide) 32
  rw [Die.learnt]
  dsimp only
  split
  · exact ⟨hlow, (bumpField_same _ (by decide)).trans (by rw [hhigh])⟩
  · exact ⟨bumpField_same _ (by decide), hhigh⟩

section
variable {s : State} {pa : Nat} (hown : isOwn pa = true) (hlocal : isLocal pa = true) (hord : inCarve pa = false)
  (hmiss : (s.die (BitVec.ofNat 2 (dieOf pa))).holdsLine (metaLine pa) = false)
include hown hlocal hord hmiss

theorem consultMeta_misses : s.consultMeta pa = ((s.setDie (BitVec.ofNat 2 (dieOf pa))
    ((s.die (BitVec.ofNat 2 (dieOf pa))).learnt (predictorAt pa) (residentSectors (s.metaCode pa)))).lookupLine (metaLine pa)).fillLine
      (BitVec.ofNat 2 (dieOf pa)) (metaLine pa) 4 false := by
  simp only [State.consultMeta, hown, hlocal, hord, hmiss, Bool.not_true, Bool.or_false, Bool.false_eq_true, if_false]
  rfl

theorem sizes_consultMeta : ((s.consultMeta pa).die (BitVec.ofNat 2 (dieOf pa))).sizes
    = ((s.die (BitVec.ofNat 2 (dieOf pa))).learnt (predictorAt pa) (residentSectors (s.metaCode pa))).sizes := by
  have hview := uncached_sizes (BitVec.ofNat 2 (dieOf pa))
  rw [consultMeta_misses hown hlocal hord hmiss]
  refine (view_fillLine hview _ _ _ _ _).trans ((view_lookupLine (view := fun u => (u.die (BitVec.ofNat 2 (dieOf pa))).sizes) hview.setDie _ _).trans ?_)
  rw [die_setDie]

theorem underPredicted_eq : s.underPredicted pa
    = decide (3 - ((s.die (BitVec.ofNat 2 (dieOf pa))).predictor.get (predictorAt pa)).toNat + 1 < residentSectors (s.metaCode pa)) := by
  simp only [State.underPredicted, hown, hlocal, hord, hmiss, Bool.not_false, Bool.true_and]
  rfl

end

theorem predicted_eq (p : BitVec 2) : 3 - p.toNat + 1 = 4 - p.toNat := by
  have := p.isLt
  omega

theorem exec_sizeMisprediction (pa : Nat) (s : State) : exec (.sizeMisprediction pa) s = .next (if s.underPredicted pa then s.consultMeta pa else s) := rfl

section
variable {s : State} {pa : Nat} (hown : isOwn pa = true) (hlocal : isLocal pa = true) (hord : inCarve pa = false)
  (hmiss : (s.die (BitVec.ofNat 2 (dieOf pa))).holdsLine (metaLine pa) = false)
include hown hlocal hord hmiss

theorem misprediction_counts
    (h : 4 - ((s.die (BitVec.ofNat 2 (dieOf pa))).predictor.get (predictorAt pa)).toNat < residentSectors (s.metaCode pa)) :
    exec (.sizeMisprediction pa) s = .next (s.consultMeta pa) := by
  rw [exec_sizeMisprediction, underPredicted_eq hown hlocal hord hmiss, predicted_eq, if_pos (decide_eq_true h)]

theorem misprediction_none
    (h : residentSectors (s.metaCode pa) ≤ 4 - ((s.die (BitVec.ofNat 2 (dieOf pa))).predictor.get (predictorAt pa)).toNat) :
    exec (.sizeMisprediction pa) s = .next s := by
  rw [exec_sizeMisprediction, underPredicted_eq hown hlocal hord hmiss, predicted_eq, if_neg fun hc => Nat.not_lt.2 h (of_decide_eq_true hc)]

end

/-! ## The leaf of a walk (R118, R119) -/

/-- A leaf of a translation cache. -/
def TlbEntry.isLeaf (e : TlbEntry) : Bool :=
  match e with
  | .leaf .. => true
  | _ => false

/-- An entry stands in a translation cache behind `k` entries at most, none of them a leaf. -/
def State.leads (s : State) (a : Where) (e : TlbEntry) (k : Nat) : Prop :=
  ∃ pre rest, s.tlb a = pre ++ e :: rest ∧ pre.length ≤ k ∧ ∀ x ∈ pre, x.isLeaf = false

section
variable {s t : State} {die : BitVec 2} {core : Nat} {e x : TlbEntry} {k : Nat}

theorem tlb_setTlb (s : State) (die : BitVec 2) (core : Nat) (es : List TlbEntry) : (s.setTlb ⟨die, some core⟩ es).tlb ⟨die, some core⟩ = es.take 512 := by
  obtain ⟨hdie, hnum⟩ := core_die_num s die core
  have hcore := core_setCore (c := { s.core die core with tlb := es.take 512 }) hdie hnum s
  exact congrArg Core.tlb hcore

/-- Entries that put a leaf behind others put it where it is found, if they are few. -/
theorem leads_setTlb (s : State) (die : BitVec 2) (core : Nat) {pre rest : List TlbEntry} (hlen : pre.length ≤ k) (hk : k < 512)
    (hpre : ∀ x ∈ pre, x.isLeaf = false) : (s.setTlb ⟨die, some core⟩ (pre ++ e :: rest)).leads ⟨die, some core⟩ e k := by
  refine ⟨pre, rest.take (512 - pre.length - 1), ?_, hlen, hpre⟩
  have hone : 512 - pre.length = 512 - pre.length - 1 + 1 := by omega
  rw [tlb_setTlb, List.take_append, List.take_of_length_le (by omega), hone, List.take_succ_cons]
  rfl

theorem leads_fillTlb_leaf (s : State) (die : BitVec 2) (core : Nat) (e : TlbEntry) : (s.fillTlb ⟨die, some core⟩ e).leads ⟨die, some core⟩ e 0 :=
  leads_setTlb s die core (pre := []) (Nat.le_refl 0) (by decide) (by simp)

theorem leads_fillTlb (h : s.leads ⟨die, some core⟩ e k) (hk : k + 1 < 512) (hx : x.isLeaf = false) :
    (s.fillTlb ⟨die, some core⟩ x).leads ⟨die, some core⟩ e (k + 1) := by
  obtain ⟨pre, rest, htlb, hlen, hpre⟩ := h
  rw [State.fillTlb, htlb, ← List.cons_append]
  exact leads_setTlb s die core (by simpa using hlen) hk (by simpa using ⟨hx, hpre⟩)

theorem leads_mono {j : Nat} {a : Where} (h : s.leads a e j) (hjk : j ≤ k) : s.leads a e k := by
  obtain ⟨pre, rest, htlb, hlen, hpre⟩ := h
  exact ⟨pre, rest, htlb, Nat.le_trans hlen hjk, hpre⟩

/-- The caches of the cores are what they were. -/
theorem leads_of_cores (hcores : t.cores = s.cores) (h : s.leads ⟨die, some core⟩ e k) : t.leads ⟨die, some core⟩ e k := by
  have htlb : t.tlb ⟨die, some core⟩ = s.tlb ⟨die, some core⟩ := by simp only [State.tlb, State.core, State.core?, hcores]
  rw [State.leads, htlb]
  exact h

end

theorem cores_consultMeta (s : State) (pa : Nat) : (s.consultMeta pa).cores = s.cores := by
  unfold State.consultMeta
  dsimp only
  split
  · rfl
  · split
    · exact view_fillLine uncached_cores s _ _ _ _
    · refine (view_fillLine uncached_cores _ _ _ _ _).trans ((view_lookupLine uncached_cores.setDie _ _).trans ?_)
      rw [setDie_frame]

theorem cores_plainRequest (s : State) (pa : Nat) : (s.plainRequest pa).cores = s.cores := by
  unfold State.plainRequest
  dsimp only
  split
  · rfl
  · split
    · rfl
    · rw [view_fillLine uncached_cores, cores_consultMeta]
      exact ite_keeps State.cores (view_lichenLookup uncached_cores.setDie _ _ _)

section
variable {s : State} {die : BitVec 2} {core : Nat} {e : TlbEntry} {k : Nat}

theorem leads_plainRequest (h : s.leads ⟨die, some core⟩ e k) (pa : Nat) : (s.plainRequest pa).leads ⟨die, some core⟩ e k :=
  leads_of_cores (cores_plainRequest s pa) h

theorem leads_asidEntry (h : s.leads ⟨die, some core⟩ e k) (hk : k + 1 < 512) (asid : BitVec 12) (hold : Bool) :
    (s.asidEntry ⟨die, some core⟩ asid hold).1.leads ⟨die, some core⟩ e (k + 1) := by
  have hsame := leads_mono h (Nat.le_succ k)
  have hplain (pa : Nat) := leads_plainRequest hsame pa
  unfold State.asidEntry
  dsimp only
  split
  · exact hsame
  · split
    · exact hsame
    · by_cases hwait : (hold && s.isHeld (bitsOf s.regs.asidbase.toNat 16 36 * 2 ^ 16 + 16 * asid.toNat)) = true
      · simp only [hwait, if_true]
        exact hsame
      · simp only [hwait, Bool.false_eq_true, if_false]
        split
        · exact hplain _
        · split
          · exact hplain _
          · exact leads_fillTlb (leads_plainRequest h _) hk rfl

/-- A peer-set entry that is read anew comes first, in the place of any old one. -/
theorem leads_refillPeer (h : s.leads ⟨die, some core⟩ e k) (hk : k + 1 < 512) {keep : TlbEntry → Bool} (hkeep : keep e = true) {x : TlbEntry}
    (hx : x.isLeaf = false) : (s.setTlb ⟨die, some core⟩ (x :: (s.tlb ⟨die, some core⟩).filter keep)).leads ⟨die, some core⟩ e (k + 1) := by
  obtain ⟨pre, rest, htlb, hlen, hpre⟩ := h
  rw [htlb, List.filter_append, List.filter_cons_of_pos hkeep, ← List.cons_append]
  refine leads_setTlb s die core ?_ hk ?_
  · exact Nat.succ_le_succ (Nat.le_trans (List.length_filter_le keep pre) hlen)
  · simp only [List.mem_cons, forall_eq_or_imp, hx, true_and]
    exact fun y hy => hpre y (List.mem_filter.1 hy).1

theorem leads_peerSet (h : s.leads ⟨die, some core⟩ e k) (hk : k + 2 < 512) (he : e.isLeaf = true) (asid : BitVec 12) (ix : Nat) (hold : Bool) :
    (s.peerSet ⟨die, some core⟩ asid ix true hold).1.leads ⟨die, some core⟩ e (k + 2) := by
  have hasid := leads_asidEntry h (Nat.lt_of_succ_lt hk) asid hold
  unfold State.peerSet
  simp only [if_true]
  generalize s.asidEntry ⟨die, some core⟩ asid hold = r at hasid ⊢
  obtain ⟨t, f | ae⟩ := r
  · exact leads_mono hasid (Nat.le_succ _)
  · have hsame := leads_mono hasid (Nat.le_succ _)
    dsimp only
    by_cases hwait : (hold && t.isHeld (bitsOf ae.toNat 76 40 * 2 ^ 12 + 64 * ix)) = true
    · simp only [hwait, if_true]
      exact hsame
    · simp only [hwait, Bool.false_eq_true, if_false]
      split
      · exact leads_plainRequest hsame _
      · split
        · exact leads_plainRequest hsame _
        · refine leads_refillPeer (leads_plainRequest hasid _) hk ?_ rfl
          cases e with
          | leaf => rfl
          | asidEntry => cases he
          | peerSet => cases he

end

/-- The leaf that leads a cache is the one found for its page. -/
theorem cachedLeaf_of_leads {s : State} {a : Where} {asid : BitVec 12} {va level pa k : Nat} {g : Bool} {entry : Word64}
    (h : s.leads a (.leaf asid g level (va / 2 ^ levelShift level * 2 ^ levelShift level) entry pa) k) : s.cachedLeaf a asid va = some ⟨entry, level, pa⟩ := by
  obtain ⟨pre, rest, htlb, -, hpre⟩ := h
  rw [State.cachedLeaf, htlb, List.findSome?_append, List.findSome?_eq_none_iff.2, List.findSome?_cons]
  · simp [leafMatch]
  · intro x hx
    have hleaf := hpre x hx
    cases x with
    | leaf => cases hleaf
    | asidEntry => rfl
    | peerSet => rfl

/-- R119: the leaf that a walk gives is the one that it has cached, with A set. -/
theorem walk_caches {s u : State} {die : BitVec 2} {core : Nat} {asid : BitVec 12} {va : Nat} {hold : Bool} {l : Leaf}
    (h : s.walk ⟨die, some core⟩ asid va hold = (u, .ok l)) : u.cachedLeaf ⟨die, some core⟩ asid va = some l ∧ l.entry.getLsbD 9 = true := by
  unfold State.walk at h
  rcases hasid : s.asidEntry ⟨die, some core⟩ asid hold with ⟨s₁, f | ae⟩
  · rw [hasid] at h; cases h
  rw [hasid] at h
  dsimp only at h
  rcases hwalk : s₁.walkLevels die asid va [3, 2, 1, 0] (bitsOf ae.toNat 8 44 * 2 ^ 8) hold with ⟨s₂, f | x⟩
  · rw [hwalk] at h; cases h
  rw [hwalk] at h
  dsimp only at h
  generalize (if pteA x.entry then s₂ else (s₂.orLeaf x 9).1) = s₃ at h
  have hbit : (x.entry ||| (1 <<< 9)).getLsbD 9 = true := by simp
  have hleads := leads_fillTlb_leaf s₃ die core (.leaf asid (pteG (x.entry ||| (1 <<< 9))) x.level (va / 2 ^ levelShift x.level * 2 ^ levelShift x.level)
    (x.entry ||| (1 <<< 9)) x.pa)
  generalize s₃.fillTlb _ _ = s₄ at h hleads
  split at h
  · have hpeer := leads_peerSet hleads (by decide) rfl asid (ptePeerIx (x.entry ||| (1 <<< 9))) hold
    generalize s₄.peerSet _ _ _ _ _ = r at h hpeer
    obtain ⟨t, f | ms⟩ := r
    · cases h
    · cases h
      exact ⟨cachedLeaf_of_leads hpeer, hbit⟩
  · cases h
    exact ⟨cachedLeaf_of_leads hleads, hbit⟩

theorem exec_pageWalk (die : BitVec 2) (core : Nat) (asid : BitVec 12) (va : BitVec 56) (s : State) : exec (.pageWalk die core asid va) s
    = .next (if coresOf die.toNat ≤ core || !s.regs.asidbase.getLsbD 0 || (s.cachedLeaf ⟨die, some core⟩ asid va.toNat).isSome then s
      else (s.walk ⟨die, some core⟩ asid va.toNat true).1) := rfl

end Sys2Proof.Machine
end

