-- ==== Sys2Proof/Proofs/MemoryTiers.lean ====
section
/-! PROOFS. O54: tiers, line codes and walks (spec/02 R40 to R55, spec/05 R119). -/

namespace Sys2Proof.Machine

theorem swapDelta_eq (d : Die) : swapDelta d = (d.lichCtl.extractLsb' 4 4).toNat := by
  rw [BitVec.extractLsb'_toNat, Nat.shiftRight_eq_div_pow]
  rfl

/-- What a counting access leaves of an entry, and the trigger that it raises (R42, R43, R45). -/
theorem counting_does {s : State} {die : BitVec 2} {group m tier : Nat} {pin : Bool} (hdie : die.toNat < 2) (hgroup : group < firstLocked)
    (hfree : s.swapHolds die group m = false) :
    let t := s.countingAccess die group m pin tier
    let e := s.lichen die.toNat group
    let e' := t.lichen die.toNat group
    let d := s.die die
    e'.fast = e.fast ∧ (m = e.fast → e'.fpin = pin ∧ ∀ k, k < 3 → e'.cnt.getD k 0 = if pin = false ∧ tier < 2 then e.cnt.getD k 0 - 1 else e.cnt.getD k 0)
      ∧ (m ≠ e.fast → e'.fpin = e.fpin ∧ ∀ k, k < 3 → e'.cnt.getD k 0 =
        if pin = false ∧ k = counterOf e.fast m ∧ tier = 0 then min (e.cnt.getD k 0 + 1) 15
        else if pin = false ∧ k = counterOf e.fast m ∧ tier = 1 then min (max (e.cnt.getD k 0 + 1) (swapDelta d)) 15 else e.cnt.getD k 0)
      ∧ t.die die = if e'.fires d group m pin tier then d.trigger group m else d := by
  intro t e e' d
  have he' : e' = e.count (swapDelta d) m pin tier := countingAccess_lichen hdie hgroup hfree rfl
  have hdied : t.die die = _ := countingAccess_die hdie hgroup hfree rfl
  rw [hdied, he']
  exact ⟨(count_fits (ofNat_fits _)).2, count_fast_cnt (ofNat_fits _), count_other_cnt (ofNat_fits _), rfl⟩

theorem fires_spec {e : Lichen} {d : Die} {group m tier fast : Nat} {pin : Bool} (hfast : e.fast = fast) : e.fires d group m pin tier = true
    ↔ pin = false ∧ tier < 2 ∧ m ≠ fast ∧ (d.lichCtl.extractLsb' 4 4).toNat ≤ e.cnt.getD (if m < fast then m else m - 1) 0
      ∧ d.lichCtl.getLsbD 0 = true ∧ e.fpin = false ∧ ∀ q ∈ d.swapQueue ++ d.swaps, q.1 ≠ group := by
  rw [fires_iff, hfast, swapDelta_eq]
  rfl

/-- What a swap leaves as it ends (R44). -/
theorem swapped_does (s : State) (die : BitVec 2) (group : Nat) {m : Nat} (hm : m < 4) :
    (s.swapped die group m).lichen die.toNat group = { fpin := false, cnt := [0, 0, 0], fast := m }
      ∧ ((s.swapped die group m).die die).swaps = (s.die die).swaps.filter (fun q => q.1 != group)
      ∧ ((s.swapped die group m).die die).lichStat.extractLsb' 32 32 = (s.die die).lichStat.extractLsb' 32 32 + 1
      ∧ s.sameBytes (s.swapped die group m)
        (fun a => a = die.toNat * 2 ^ 41 + 0x17FFE800000 + 2 * group ∨ a = die.toNat * 2 ^ 41 + 0x17FFE800000 + 2 * group + 1) := by
  have hmem : (s.swapped die group m).mem = (s.setLichen die.toNat group { fpin := false, cnt := [0, 0, 0], fast := m }).mem := mem_setDie _ _ _
  have hfits : Lichen.Fits { fpin := false, cnt := [0, 0, 0], fast := m } := ⟨hm, rfl, by simp⟩
  refine ⟨?_, ?_, ?_, fun a ha => ?_⟩
  · rw [lichen_of_mem hmem, lichen_setLichen _ _ _ hfits]
  · rw [State.swapped, die_setDie]
  · rw [State.swapped, die_setDie]
    exact bumpField_same _ (by decide)
  · rw [byte_of_mem hmem, sameBytes_setLichen s die.toNat group _ a ha]

theorem line_aligned (die n : Nat) : (die * 2 ^ 41 + 128 * n) / 128 * 128 = die * 2 ^ 41 + 128 * n := by omega

/-- Settles O54: counting accesses, swaps, the lichen cache, write-backs, the predictor and walks. -/
theorem memoryTiers : Obligations.MemoryTiers := by
  refine ⟨fun s die group member pin tier => ⟨fun h => ?_, fun hdie hgroup hleaf hheld => ?_, fun hdie hgroup hleaf hfree => ?_⟩,
    fun s die group m rest => ⟨fun hq hroom => ⟨fun hok => ?_, fun hok => ?_⟩, fun h => ?_, fun hq hm hgroup => ?_⟩,
    fun s die block => ⟨fun hdie hblock hmiss => ?_, fun h => ?_⟩, fun s die n => ⟨fun h => ?_, fun hdirty hown hlocal hord => ?_⟩,
    fun s pa hown hlocal hord hmiss => ⟨⟨?_, ?_, ?_, fun a ha => ?_⟩, fun h => ?_, fun h => ?_⟩,
    fun s die core asid va hcore hbase => ⟨fun l hl => ?_, fun u l hnone hwalk => ?_⟩⟩
  · rw [exec_countingAccess]
    rcases h with h | h | h
    · rw [countingAccess_none (.inl h), ite_self]
    · rw [countingAccess_none (.inr h), ite_self]
    · rw [h]; rfl
  · rw [exec_countingAccess, if_pos hleaf, countingAccess_held pin tier.toNat hdie hgroup hheld]
  · obtain ⟨hfast, hsame, hother, htrigger⟩ := counting_does (pin := pin) (tier := tier.toNat) hdie hgroup hfree
    have h0 : tier.toNat = 0 ↔ tier = 0 := BitVec.toNat_inj (y := 0)
    have h1 : tier.toNat = 1 ↔ tier = 1 := BitVec.toNat_inj (y := 1)
    simp only [h0, h1, swapDelta_eq] at hother
    refine ⟨_, by rw [exec_countingAccess, if_pos hleaf], ⟨hfast, hsame, hother, fun hf hlen => ?_, fun hf hlen => ?_, fun hf => ?_⟩,
      countingAccess_bytes hdie hgroup hfree rfl⟩
    · rw [htrigger, if_pos ((fires_spec hfast).2 hf)]
      exact trigger_queues hlen
    · rw [htrigger, if_pos ((fires_spec hfast).2 hf)]
      exact trigger_drops hlen
    · rw [htrigger, if_neg fun hc => hf ((fires_spec hfast).1 hc)]
  · rw [exec_swapStart, startSwap_head hq hroom, if_pos (qualifies_iff.2 (by rw [swapDelta_eq]; exact hok))]
  · rw [exec_swapStart, startSwap_head hq hroom, if_neg fun hc => hok (by rw [← swapDelta_eq]; exact qualifies_iff.1 hc)]
  · rw [exec_swapStart, startSwap_idle h]
  · exact ⟨s.swapped die group m, exec_swapComplete hq, by rw [State.swapped, die_setDie], held_swapped, retryHeld_of_none, swapped_does s die group hm⟩
  · obtain ⟨hcache, hcounts⟩ := missed_counts (s.die die) block
    have hguard : (decide (groupCount / 32 ≤ block) || (s.die die).lichCache.contains block) = false := by
      rw [decide_eq_false (p := groupCount / 32 ≤ block) (Nat.not_le.2 hblock)]
      simpa using hmiss
    refine ⟨s.setDie die ((s.die die).missed block), ?_, mem_setDie s _ _, ?_⟩
    · rw [exec_lichenCacheMiss, hguard, lichenLookup_miss hdie hmiss]
      rfl
    · rw [die_setDie]
      exact ⟨hcache, hcounts⟩
  · rw [exec_lichenCacheMiss]
    rcases h with h | h
    · rw [lichenLookup_fDie block h, ite_self]
    · rw [if_pos (by simp [h])]
  · rw [exec_lineWriteBack, if_neg (by simpa using h)]
  · have hline := line_aligned die.toNat n
    have hcode := metaCode_writeBack hline hown hlocal hord (s := s)
    refine ⟨_, by rw [exec_lineWriteBack, if_pos (by simpa using hdirty)], dirty_writeBack hline hown hlocal hord,
      fun h => hcode.trans (writeCode_raw h), fun hcmp hpoison => ?_, fun a ha => byte_writeBack_other hline hown hlocal hord ha⟩
    rw [hcode, writeCode_best hcmp hpoison]
    exact bestCode_least _
  · have hsizes := congrArg Prod.fst (sizes_consultMeta hown hlocal hord hmiss)
    exact (congrArg (fun p : SMap 2 => 4 - (p.get (predictorAt pa)).toNat) hsizes).trans (learnt_predicts _ _ (residentSectors_range _))
  · have hsizes := congrArg Prod.snd (sizes_consultMeta hown hlocal hord hmiss)
    exact (congrArg (BitVec.extractLsb' 0 32) hsizes).trans (learnt_counts _ _ _).1
  · have hsizes := congrArg Prod.snd (sizes_consultMeta hown hlocal hord hmiss)
    refine (congrArg (BitVec.extractLsb' 32 32) hsizes).trans ((learnt_counts _ _ _).2.trans ?_)
    rw [predicted_eq]
    rfl
  · exact byte_consultMeta (by simpa using ha) s pa
  · exact misprediction_counts hown hlocal hord hmiss h
  · exact misprediction_none hown hlocal hord hmiss h
  · rw [exec_pageWalk, if_pos (by simp [hl])]
  · refine ⟨?_, walk_caches hwalk⟩
    rw [exec_pageWalk, hwalk, hnone, hbase, decide_eq_false (Nat.not_le.2 hcore)]
    rfl

end Sys2Proof.Machine
end

