-- ==== Sys2Proof/Proofs/SharedRules.lean ====
section
/-! PROOFS. Rules for the shared pieces: branches of actions, numbers in the scratchpad window (spec/01 R8, R32), lists of vector registers written one
after another (spec/08 R204 to R206). -/

namespace Sys2Proof.Machine

/-! ## Checks that pass -/

section
variable {c : Prop} [Decidable c] {α : Type} {check : Act Unit} {rest : Unit → Act α} {s : State}

theorem runAct_checked (hcheck : c → Gives check s ()) : runAct (if c then check >>= rest else rest ()) s = runAct (rest ()) s := by
  split
  · next hc => exact runAct_bind_gives (hcheck hc)
  · rfl

theorem raises_checked {e : Trap} (hcheck : c → Gives check s ()) (hrest : Raises (rest ()) s e) : Raises (if c then check >>= rest else rest ()) s e := by
  split
  · next hc => exact raises_bind (hcheck hc) hrest
  · exact hrest

theorem raises_here {e : Trap} (hc : c) (h : Raises check s e) : Raises (if c then check >>= rest else rest ()) s e := by
  rw [if_pos hc]
  exact raises_first h

end

/-! ## The branch that an action takes -/

section
variable {c : Prop} [Decidable c] {α : Type} {a b : Act α} {s : State}

theorem runAct_then (hc : c) : runAct (if c then a else b) s = runAct a s := by rw [if_pos hc]

theorem runAct_else (hc : ¬ c) : runAct (if c then a else b) s = runAct b s := by rw [if_neg hc]

theorem does_then {x : α} {t : State} (hc : c) (h : Does a s x t) : Does (if c then a else b) s x t := (runAct_then hc).trans h

theorem does_else {x : α} {t : State} (hc : ¬ c) (h : Does b s x t) : Does (if c then a else b) s x t := (runAct_else hc).trans h

end

theorem does_unless {c : Prop} [Decidable c] {α : Type} {check : Act Unit} {rest : Unit → Act α} {s t : State} {x : α} (hcheck : Gives check s ())
    (hrest : Does (rest ()) s x t) : Does (if c then rest () else check >>= rest) s x t := by
  split
  · exact hrest
  · exact gives_bind hcheck hrest

/-! ## Retiring -/

theorem w_retire (s : State) (n : Nat) : (s.retire n).w = s.w := State.retireAt_w s n _

/-! ## Numbers of bytes (R8) -/

theorem natOf_lt (bs : List Byte) : natOf bs < 2 ^ (8 * bs.length) := by
  induction bs with
  | nil => exact Nat.one_pos
  | cons b rest ih =>
    have hb := b.isLt
    rw [natOf, List.length_cons, Nat.mul_succ, Nat.pow_add]
    omega

theorem natOf_append (xs ys : List Byte) : natOf (xs ++ ys) = natOf xs + 2 ^ (8 * xs.length) * natOf ys := by
  induction xs with
  | nil => simp [natOf]
  | cons b rest ih =>
    rw [List.cons_append, natOf, natOf, ih, List.length_cons, Nat.mul_succ, Nat.pow_add]
    ring

/-- The bits of bytes `a` to `a + n - 1` of a byte string are the number of those bytes. -/
theorem bitsOf_natOf (xs ys zs : List Byte) : bitsOf (natOf (xs ++ (ys ++ zs))) (8 * xs.length) (8 * ys.length) = natOf ys := by
  rw [bitsOf, natOf_append, natOf_append, Nat.add_mul_div_left _ _ (by positivity), Nat.div_eq_of_lt (natOf_lt xs), Nat.zero_add,
    Nat.add_mul_mod_self_left, Nat.mod_eq_of_lt (natOf_lt ys)]

theorem range_append {w : Nat} (m : SMap w) (x a b : Nat) : m.range x (a + b) = m.range x a ++ m.range (x + a) b := by
  simp [SMap.range, List.range_add, Nat.add_assoc]

@[simp] theorem length_range {w : Nat} (m : SMap w) (x n : Nat) : (m.range x n).length = n := by simp [SMap.range]

/-! ## Numbers in the scratchpad window (R32) -/

theorem winNum_lt (s : State) (x n : Nat) : s.winNum 1 x n < 2 ^ (8 * n) := by
  have h := natOf_lt ((s.winMem 1).range x n)
  rwa [length_range] at h

/-- A part of a number in the window is the number at that part's place. -/
theorem bitsOf_winNum (s : State) (x a n b : Nat) : bitsOf (s.winNum 1 x (a + (n + b))) (8 * a) (8 * n) = s.winNum 1 (x + a) n := by
  have h := bitsOf_natOf ((s.winMem 1).range x a) ((s.winMem 1).range (x + a) n) ((s.winMem 1).range (x + a + n) b)
  rw [← range_append, ← range_append, length_range, length_range] at h
  exact h

theorem winNum_congr {s t : State} {x n : Nat} (h : ∀ i, i < n → t.winByte 1 (x + i) = s.winByte 1 (x + i)) : t.winNum 1 x n = s.winNum 1 x n :=
  congrArg natOf (List.map_congr_left fun i hi => h i (List.mem_range.1 hi))

/-- Bytes of the window that read one by one as a byte string read together as its number. -/
theorem winNum_of_bytes {t : State} {x : Nat} {bs : List Byte} (h : ∀ i, i < bs.length → t.winByte 1 (x + i) = bs.getD i 0) :
    t.winNum 1 x bs.length = natOf bs := by
  refine congrArg natOf (List.ext_getElem (by simp) fun i hi hi' => ?_)
  have hbyte : (t.winMem 1).get (x + i) = bs.getD i 0 := h i hi'
  simp [SMap.range, hbyte, hi']

theorem winByte_winStore_other {s : State} {ws : List (Nat × Byte)} {x : Nat} (h : ∀ p ∈ ws, p.1 ≠ x) :
    (s.winStore 1 ws).winByte 1 x = s.winByte 1 x := by
  rw [winByte_one, winByte_one, scr_winStore, get_setAll_other h]

theorem winByte_winStore_mem {s : State} {ws : List (Nat × Byte)} (hnd : (ws.map Prod.fst).Nodup) {x : Nat} {v : Byte} (h : (x, v) ∈ ws) :
    (s.winStore 1 ws).winByte 1 x = v := by
  rw [winByte_one, scr_winStore, get_setAll_mem hnd h]

/-- A number stored in the window reads back, cut to its size. -/
theorem winNum_winStore (s : State) (x n v : Nat) : (s.winStore 1 (cellsAt x (bytesOf n v))).winNum 1 x n = v % 2 ^ (8 * n) := by
  have h := winNum_of_bytes (t := s.winStore 1 (cellsAt x (bytesOf n v))) (x := x) (bs := bytesOf n v)
    fun i hi => winByte_winStore_mem (nodup_cellsAt x _) (cell_mem hi)
  rwa [length_bytesOf, natOf_bytesOf] at h

theorem winByte_cellsAt_other {s : State} {x y : Nat} {bs : List Byte} (h : y < x ∨ x + bs.length ≤ y) :
    (s.winStore 1 (cellsAt x bs)).winByte 1 y = s.winByte 1 y :=
  winByte_winStore_other fun p hp => by
    obtain ⟨i, hi, hpi⟩ := mem_cellsAt hp
    omega

/-- A store through the window writes no register. -/
theorem regs_winStore (s : State) (ws : List (Nat × Byte)) : (s.winStore 1 ws).g.sregs = s.g.sregs ∧ (s.winStore 1 ws).g.vregs = s.g.vregs := by
  have htouch : ∀ (u : State) (home : Nat) (offs : List Nat),
      (u.touch 1 home offs).g.sregs = u.g.sregs ∧ (u.touch 1 home offs).g.vregs = u.g.vregs := fun u home offs => by
    obtain ⟨w, hw⟩ := touch_group_frame u.g 1 home offs
    have hg : (u.touch 1 home offs).g = { u.g with watch := w } := hw
    rw [hg]
    exact ⟨rfl, rfl⟩
  unfold State.winStore
  simp only []
  split <;> exact htouch _ _ _

/-! ## Vector registers written one after another -/

/-- Vector registers are written one after another: each its register, lane and value. -/
def State.setVs (s : State) (ws : List (Nat × Nat × Word32)) : State := ws.foldl (fun s x => s.setV x.1 x.2.1 x.2.2) s

theorem setV_frame (s : State) (n l : Nat) (v : Word32) :
    s.setV n l v = { s with g := { s.g with vregs := s.g.vregs.set (32 * n + l) v }, soft := (s.setV n l v).soft } := by
  rw [State.setV, unsoft_eq]

theorem setVs_frame (ws : List (Nat × Nat × Word32)) (s : State) :
    s.setVs ws = { s with g := { s.g with vregs := (s.setVs ws).g.vregs }, soft := (s.setVs ws).soft } :=
  List.foldlRecOn (motive := fun t : State => t = { s with g := { s.g with vregs := t.g.vregs }, soft := t.soft }) ws _ rfl fun t ht x _ => by
    rw [setV_frame, ht]

theorem vregs_setVs (ws : List (Nat × Nat × Word32)) : ∀ s : State,
    (s.setVs ws).g.vregs = (ws.map fun x => (32 * x.1 + x.2.1, x.2.2)).foldl (fun m p => m.set p.1 p.2) s.g.vregs := by
  induction ws with
  | nil => exact fun s => rfl
  | cons x ws ih =>
    intro s
    have hstep : s.setVs (x :: ws) = (s.setV x.1 x.2.1 x.2.2).setVs ws := rfl
    rw [hstep, ih, setV_frame]
    rfl

section
variable {s : State} {ws : List (Nat × Nat × Word32)} (hlanes : ∀ x ∈ ws, x.2.1 < 32)
include hlanes

theorem vreg_setVs_other {r i : Nat} (hi : i < 32) (h : ∀ x ∈ ws, ¬ (x.1 = r ∧ x.2.1 = i)) : (s.setVs ws).g.vreg r i = s.g.vreg r i := by
  rw [Group.vreg, vregs_setVs, get_setAll_other]
  · rfl
  · rintro p hp
    obtain ⟨x, hx, rfl⟩ := List.mem_map.1 hp
    have hlane := hlanes x hx
    have hne := h x hx
    change 32 * x.1 + x.2.1 ≠ 32 * r + i
    omega

theorem vreg_setVs_mem (hnd : (ws.map fun x => (x.1, x.2.1)).Nodup) {r i : Nat} {v : Word32} (h : (r, i, v) ∈ ws) : (s.setVs ws).g.vreg r i = v := by
  rw [Group.vreg, vregs_setVs, get_setAll_mem (v := v)]
  · rw [List.map_map]
    refine (List.nodup_map_iff_inj_on (List.Nodup.of_map _ hnd)).2 fun x hx y hy hxy => ?_
    have hkey : 32 * x.1 + x.2.1 = 32 * y.1 + y.2.1 := hxy
    have hxl := hlanes x hx
    have hyl := hlanes y hy
    exact List.inj_on_of_nodup_map hnd hx hy (Prod.ext (by omega) (by omega))
  · exact List.mem_map.2 ⟨_, h, rfl⟩

end

/-! ## Groups moved by what waits -/

/-- A view of the state that a group's paths do not change is kept where a group is changed in its paths alone. -/
theorem modGroup_keeps {β : Type} (view : State → β) {f : Group → Group}
    (h : ∀ (s : State) (gs : List Group), view { s with g := f s.g } = view s ∧ view { s with others := gs } = view s)
    (s : State) (i : GroupId) : view (s.modGroup i f) = view s := by
  unfold State.modGroup
  split
  · exact (h s s.others).1
  · exact (h s _).2

end Sys2Proof.Machine
end

