-- ==== Sys2Proof/Proofs/TileDescriptors.lean ====
section
/-! PROOFS. O31: tile descriptors (spec/03 R71 to R74, Table 3-4, spec/14 R364, R365). -/

namespace Sys2Proof.Machine

/-! ## A tile operand (R71) -/

theorem checkTile_gives {active : Word32} {n : BitVec 11} {s : State} (h : n.toNat < s.w.ntiles) : Gives (checkTile active n) s () := by
  simp [Gives, Does, checkTile, Nat.not_le.2 h]

/-- A tile operand that is usable is granted and ready, and is its entry. -/
theorem useTile_gives {active : Word32} {n : BitVec 11} {s : State} {t : Tile} (h : Gives (useTile active n) s t) :
    n.toNat < s.w.ntiles ∧ t = s.tile n.toNat ∧ (s.tile n.toNat).state = 2 := by
  have hgranted : ¬ s.w.ntiles ≤ n.toNat := fun hle => by simp [Gives, Does, useTile, hle] at h
  have hstate : (s.tile n.toNat).state = 2 := by
    by_contra hne
    by_cases h0 : (s.tile n.toNat).state = 0 <;> simp [Gives, Does, useTile, runAct_map, hgranted, h0, hne] at h
  simp [Gives, Does, useTile, hgranted, hstate] at h
  exact ⟨Nat.lt_of_not_le hgranted, h.symm, hstate⟩

/-! ## Entries (Table 3-4) -/

/-- An entry that has the shape of `n` below its DOM field reads with the fields that stand above. -/
theorem ofBits_of_parts {b : BitVec 256} {n dom st gen : Nat} {surv : BitVec 128} (hdom : dom < 2 ^ 3) (hst : st < 4) (hgen : gen < 2 ^ 16)
    (hb : b.toNat = n % 2 ^ 106 + 2 ^ 106 * (dom + 8 * bitsOf n 109 1 + 16 * st + 64 * gen + 4194304 * surv.toNat)) (hn : n < 2 ^ 256) :
    Tile.ofBits b = { Tile.ofBits (BitVec.ofNat 256 n) with dom := dom, state := st, gen := gen, surv := surv } := by
  obtain ⟨hdom, hscl, hstate, hgen, hsurv⟩ := highFields hdom (bitsOf_lt n 109 1) hst hgen surv.isLt
  have hold : (BitVec.ofNat 256 n).toNat = n := by rw [BitVec.toNat_ofNat, Nat.mod_eq_of_lt hn]
  generalize dom + 8 * bitsOf n 109 1 + 16 * st + 64 * gen + 4194304 * surv.toNat = h at *
  have hmod : b.toNat % 2 ^ 106 = n % 2 ^ 106 := by omega
  have hdiv : b.toNat / 2 ^ 106 = h := by omega
  have hlow : ∀ lo w, lo + w ≤ 106 → bitsOf b.toNat lo w = bitsOf n lo w := fun lo w hle => by
    rw [← bitsOf_mod b.toNat hle, hmod, bitsOf_mod n hle]
  have hhigh : ∀ lo w, bitsOf b.toNat (106 + lo) w = bitsOf h lo w := fun lo w => by rw [← hdiv, bitsOf_div]
  have hflag : ∀ x : Nat, bitOf x 109 = (bitsOf x 109 1 == 1) := fun _ => rfl
  simp only [Tile.ofBits, hold, hflag, hlow 102 4, hlow 93 9, hlow 86 7, hlow 84 2, hlow 72 12, hlow 0 14, Nat.reduceAdd, Nat.reduceLeDiff,
    (hhigh 0 3).trans hdom, (hhigh 3 1).trans hscl, (hhigh 4 2).trans hstate, (hhigh 6 16).trans hgen, (hhigh 22 128).trans hsurv,
    BitVec.ofNat_toNat, BitVec.setWidth_eq]

theorem ofBits_dom_lt (b : BitVec 256) : (Tile.ofBits b).dom < 2 ^ 3 := bitsOf_lt _ _ _
theorem ofBits_gen_lt (b : BitVec 256) : (Tile.ofBits b).gen < 2 ^ 16 := bitsOf_lt _ _ _

/-- An entry of `n` reads after it is written back with other values of what may change. -/
theorem tile_setTile (s : State) (n : Nat) {dom st gen : Nat} (surv : BitVec 128) (hdom : dom < 2 ^ 3) (hst : st < 4) (hgen : gen < 2 ^ 16) :
    (s.setTile n { s.tile n with dom := dom, state := st, gen := gen, surv := surv }).tile n
      = { s.tile n with dom := dom, state := st, gen := gen, surv := surv } := by
  rw [State.setTile, State.tile, get_set, if_pos rfl]
  generalize hold : s.w.tiles.get n = old
  have hb := ofBits_of_parts (b := Tile.bits old { s.tile n with dom := dom, state := st, gen := gen, surv := surv })
    (n := old.toNat) hdom hst hgen (surv := surv)
    (by have := old.isLt
        have := surv.isLt
        simp only [Tile.bits, BitVec.toNat_ofNat, place, bitsOf]
        omega) old.isLt
  rw [State.tile, hold] at hb ⊢
  rw [hb, BitVec.ofNat_toNat, BitVec.setWidth_eq]

theorem tile_setTile_other (s : State) {n m : Nat} (h : m ≠ n) (t : Tile) : (s.setTile n t).tile m = s.tile m := by
  rw [State.setTile, State.tile, get_set, if_neg h]
  rfl

theorem tile_retire (s : State) (n m : Nat) : (s.retire n).tile m = s.tile m := by rw [State.tile, w_retire, State.tile]

/-! ## TDEF (R74, R364) -/

/-- The descriptor that two registers hold (R74). -/
def descTile (lo hi : Word64) : Tile := Tile.ofBits (BitVec.ofNat 256 (lo.toNat + hi.toNat * 2 ^ 64))

/-- A descriptor that TDEF takes: its reserved fields are zero, and its shape is one that R74 allows. -/
def goodDesc (lo hi : Word64) : Prop := lo.toNat / 2 ^ 14 = 0 ∧ hi.toNat % 2 ^ 8 = 0 ∧ hi.toNat / 2 ^ 46 = 0 ∧ (descTile lo hi).bad = false

theorem goodDesc_iff (lo hi : Word64) : goodDesc lo hi ↔
    ¬ (bitsOf lo.toNat 14 50 ≠ 0 ∨ bitsOf hi.toNat 0 8 ≠ 0 ∨ bitsOf hi.toNat 46 18 ≠ 0 ∨ (descTile lo hi).bad = true) := by
  have hlo := lo.isLt
  have hhi := hi.isLt
  have h1 : bitsOf lo.toNat 14 50 = lo.toNat / 2 ^ 14 := Nat.mod_eq_of_lt (by omega)
  have h2 : bitsOf hi.toNat 46 18 = hi.toNat / 2 ^ 46 := Nat.mod_eq_of_lt (by omega)
  rw [h1, h2, bitsOf_low, goodDesc]
  cases (descTile lo hi).bad <;> simp

/-- R364: the descriptor over the entry that was there. -/
theorem ofBits_installTile {lo hi : Word64} (h : hi.toNat / 2 ^ 46 = 0) (gen : Nat) :
    Tile.ofBits (installTile lo.toNat hi.toNat gen)
      = { descTile lo hi with state := 2, gen := (gen + 1) % 65536, surv := rowsMask (descTile lo hi).rows } := by
  have hlo := lo.isLt
  refine ofBits_of_parts (n := lo.toNat + hi.toNat * 2 ^ 64) (ofBits_dom_lt _) (by decide) (Nat.mod_lt _ (by decide)) ?_ (by omega)
  have hdom : (descTile lo hi).dom = (lo.toNat + hi.toNat * 2 ^ 64) / 2 ^ 106 % 2 ^ 3 := by
    simp only [descTile, Tile.ofBits, bitsOf, BitVec.toNat_ofNat]
    omega
  have hmask : (rowsMask (Tile.ofBits (BitVec.ofNat 256 (lo.toNat + hi.toNat * 2 ^ 64))).rows) = rowsMask (descTile lo hi).rows := rfl
  simp only [installTile, hdom, hmask, BitVec.toNat_ofNat, place, bitsOf]
  have hlt := (rowsMask (descTile lo hi).rows).isLt
  omega

/-- The state with the entries `x` in the tile table. -/
def State.withTiles (s : State) (x : SMap 256) : State := { s with w := { s.w with tiles := x } }

theorem scr_withTiles (s : State) (x : SMap 256) : (s.withTiles x).w.scr = s.w.scr := rfl
theorem mem_withTiles (s : State) (x : SMap 256) : (s.withTiles x).mem = s.mem := rfl

/-- The state with the descriptor installed. -/
def State.installed (s : State) (n : Nat) (lo hi : Word64) : State :=
  s.withTiles (s.w.tiles.set n (installTile lo.toNat hi.toNat (s.tile n).gen))

section
variable {l : Lane} {s : State} {active : Word32} {k : Option Nat} {lo hi : Word64} (hstart : Gives (laneStart l) s (active, k)) (hactive : active ≠ 0)
  (hn : l.vd.toNat < s.w.ntiles) (hfilling : (s.tile l.vd.toNat).state ≠ 1) (hdraining : (s.tile l.vd.toNat).state ≠ 3)
  (hlo : Gives (readS (sregOf l.va)) s lo) (hhi : Gives (readS (sregOf l.vb)) s hi)
include hstart hactive hn hfilling hdraining hlo hhi

theorem tdef_bad (h : ¬ goodDesc lo hi) :
    Raises (tdef l) s { cause := cPROT, sub := 3, lmask := active, va := 0, kind := 0, level := 0xF } := by
  refine raises_bind hstart (raises_bind (checkTile_gives hn) ?_)
  rw [if_neg hactive]
  refine raises_bind (act_get s) (raises_checked (fun h => by omega) (raises_bind hlo (raises_bind hhi (raises_here ?_ rfl))))
  rwa [goodDesc_iff, not_not] at h

theorem tdef_beyond (h : goodDesc lo hi) (hsize : s.w.scrSize < (descTile lo hi).addr + (descTile lo hi).footprint) :
    Raises (tdef l) s { cause := cPROT, sub := 4, lmask := active, va := 0, kind := 0, level := 0xF } := by
  refine raises_bind hstart (raises_bind (checkTile_gives hn) ?_)
  rw [if_neg hactive]
  exact raises_bind (act_get s) (raises_checked (fun h => by omega) (raises_bind hlo (raises_bind hhi
    (raises_checked (fun hbad => absurd hbad ((goodDesc_iff lo hi).1 h)) (raises_here hsize rfl)))))

theorem tdef_does (h : goodDesc lo hi) (hsize : (descTile lo hi).addr + (descTile lo hi).footprint ≤ s.w.scrSize) :
    Does (tdef l) s () ((s.installed l.vd.toNat lo hi).retire 3) := by
  refine gives_bind hstart (gives_bind (checkTile_gives hn) ?_)
  rw [if_neg hactive]
  exact gives_bind (act_get s) (does_checked (fun h => by omega) (gives_bind hlo (gives_bind hhi
    (does_checked (fun hbad => absurd hbad ((goodDesc_iff lo hi).1 h)) (does_checked (fun hlt => absurd hlt (Nat.not_lt.2 hsize))
      (does_bind (does_modify _ s) (act_retire 3 _)))))))

end

/-! ## TFREE and TSTATE (R365) -/

section
variable {l : Lane} {s : State} {active : Word32} {k : Option Nat} {t : Tile} (hstart : Gives (laneStart l) s (active, k)) (hactive : active ≠ 0)
include hstart hactive

theorem tfree_does (ht : Gives (useTile active l.vd) s t) :
    Does (tfree l) s () ((s.setTile l.vd.toNat { t with state := 0, surv := 0 }).retire 3) := by
  refine gives_bind hstart (gives_bind (checkTile_gives (useTile_gives ht).1) ?_)
  rw [if_neg hactive]
  exact gives_bind ht (does_bind (does_modify _ s) (act_retire 3 _))

theorem tstate_does (ht : Gives (useTile active l.va) s t) (hd : s.busyReg (sregOf l.vd) = false) :
    Does (tstate l) s () ((s.setS (sregOf l.vd) ((s.w.tiles.get l.va.toNat).extractLsb' (64 * (l.imm.toNat % 4)) 64)).retire 3) := by
  have hpart : (s.w.tiles.get l.va.toNat).extractLsb' (64 * (l.imm.toNat % 4)) 64
      = BitVec.ofNat 64 (bitsOf (s.w.tiles.get l.va.toNat).toNat (64 * (l.imm.toNat % 4)) 64) :=
    BitVec.eq_of_toNat_eq (by rw [BitVec.extractLsb'_toNat, BitVec.toNat_ofNat, bitsOf, Nat.shiftRight_eq_div_pow, Nat.mod_mod])
  refine gives_bind hstart (gives_bind (checkTile_gives (useTile_gives ht).1) ?_)
  rw [if_neg hactive, hpart]
  exact gives_bind ht (gives_bind (act_get s) (writeRetire_does s _ _ 3 hd))

end

/-- Settles O31: descriptors that are bad, beyond the grant or installed, and what TFREE and TSTATE leave. -/
theorem tileDescriptors : Obligations.TileDescriptors := by
  refine fun l s active k hstart hactive =>
    ⟨fun lo hi hn hfilling hdraining hlo hhi => ⟨fun hbad => ?_, fun hgood hsize => ?_, fun hgood hsize => ⟨?_, ?_, fun m hm => ?_, ?_, ?_, fun a => ?_⟩⟩,
    fun t ht => ⟨outcome_of_does (tfree_does hstart hactive ht), ?_, fun m hm => ?_⟩, fun t ht hd => ⟨outcome_of_does (tstate_does hstart hactive ht hd),
      setS_retire s _ _ 3⟩⟩
  · exact outcome_of_raises (tdef_bad hstart hactive hn hfilling hdraining hlo hhi hbad)
  · exact outcome_of_raises (tdef_beyond hstart hactive hn hfilling hdraining hlo hhi hgood hsize)
  · exact outcome_of_does (tdef_does hstart hactive hn hfilling hdraining hlo hhi hgood hsize)
  · obtain ⟨-, -, hhigh, -⟩ := hgood
    rw [tile_retire, State.tile, get_set, if_pos rfl]
    exact ofBits_installTile hhigh _
  · rw [tile_retire, State.tile, get_set, if_neg hm]
    rfl
  · exact (congrArg Workgroup.scr (w_retire (s.installed l.vd.toNat lo hi) 3)).trans (scr_withTiles s _)
  · exact State.retireAt_g_sregs _ _ _
  · exact byte_of_mem ((State.retireAt_mem _ _ _).trans (mem_withTiles s _)) a
  · obtain ⟨-, rfl, -⟩ := useTile_gives ht
    rw [tile_retire]
    exact tile_setTile s _ 0 (ofBits_dom_lt _) (by decide) (ofBits_gen_lt _)
  · rw [tile_retire, tile_setTile_other s hm]

end Sys2Proof.Machine
end

