-- ==== Sys2Proof/Proofs/SlotClaims.lean ====
section
/-! PROOFS. O33: claims of operand slots (spec/03 R81, Table 3-7, spec/14 R376, spec/09 R230). -/

namespace Sys2Proof.Machine

/-! ## The claim table (Table 3-7) -/

theorem getD_map_range {f : Nat → Claim} {i n : Nat} (hi : i < n) : (((List.range n).map f)[i]?).getD .free = f i := by
  simp [hi]

theorem claim_takeRun (w : Workgroup) (j first n : Nat) {i : Nat} (hi : i < w.claims.length) :
    (w.takeRun j first n).claim i = if first ≤ i ∧ i < first + n then .held j else w.claim i := getD_map_range hi

/-- A slot that its holder releases is free, or deferred while operations are pending; no other claim changes. -/
theorem releaseClaim_eq (j : Nat) (c : Claim) (ops : Nat) :
    releaseClaim j (c, ops) = if c = .held j then (if ops = 0 then .free else .deferred) else c := by
  cases c with
  | held k =>
    by_cases hk : k = j
    · simp [releaseClaim, hk]
    · simp [releaseClaim, hk]
  | free => rfl
  | deferred => rfl

theorem claim_releaseRun (w : Workgroup) (j first n : Nat) {i : Nat} (hi : i < w.claims.length) : (w.releaseRun j first n).claim i =
    if first ≤ i ∧ i < first + n ∧ w.claim i = .held j then (if (w.slotOps[i]?).getD 0 = 0 then .free else .deferred) else w.claim i := by
  have hrun : (w.releaseRun j first n).claim i
      = if first ≤ i ∧ i < first + n then releaseClaim j (w.claim i, (w.slotOps[i]?).getD 0) else w.claim i := getD_map_range hi
  rw [hrun, releaseClaim_eq]
  by_cases hin : first ≤ i ∧ i < first + n
  · simp [hin]
  · rw [if_neg hin, if_neg fun h => hin ⟨h.1, h.2.1⟩]

/-! ## MCLAIM and MREL (R376) -/

/-- The group holds every slot of the run from `first` on. -/
def State.holdsRun (s : State) (first n : Nat) : Bool := (List.range n).all fun i => s.w.claim (first + i) == .held s.g.id.j

theorem holdsRun_iff {s : State} {first n : Nat} : s.holdsRun first n = true ↔ ∀ i ∈ (List.range n).map (first + ·), s.w.claim i = .held s.g.id.j := by
  simp [State.holdsRun]

section
variable {l : Lane} {s : State} {active : Word32} {k : Option Nat} (hstart : Gives (laneStart l) s (active, k)) (hactive : active ≠ 0)
  (hslots : Gives (checkSlots active ((List.range (l.imm.toNat % 16 + 1)).map (l.vd.toNat + ·))) s ())
include hstart hactive hslots

theorem mclaim_takes (h : s.holdsRun l.vd.toNat (l.imm.toNat % 16 + 1) = true
      ∨ (s.w.runFree s.g.id.j l.vd.toNat (l.imm.toNat % 16 + 1) = true ∧ s.claimBefore false l.vd.toNat (l.imm.toNat % 16 + 1) = false)) :
    Does (mclaim l) s () (State.retire { s with w := s.w.takeRun s.g.id.j l.vd.toNat (l.imm.toNat % 16 + 1) } 3) := by
  refine gives_bind hstart (gives_bind hslots ?_)
  rw [if_neg hactive]
  exact gives_bind (act_get s) (does_then (by simpa [State.holdsRun] using h) (does_bind (does_modify _ s) (act_retire 3 _)))

theorem mclaim_waits (hmine : s.holdsRun l.vd.toNat (l.imm.toNat % 16 + 1) = false)
    (h : s.w.runFree s.g.id.j l.vd.toNat (l.imm.toNat % 16 + 1) = false ∨ s.claimBefore false l.vd.toNat (l.imm.toNat % 16 + 1) = true) :
    Act.outcome (mclaim l) s
      = .next (s.park { instr := .mclaim l, words := 3, on := .claim l.vd.toNat (l.imm.toNat % 16 + 1), vals := [], mark := k }) := by
  refine (outcome_bind hstart).trans ((outcome_bind hslots).trans ?_)
  rw [if_neg hactive]
  refine (outcome_bind (act_get s)).trans (outcome_of_parks ?_)
  refine (runAct_else ?_).trans (act_throw _ s)
  rintro (hmine' | ⟨hfree, hbefore⟩)
  · exact absurd (hmine.symm.trans hmine') Bool.false_ne_true
  · rcases h with h | h
    · exact absurd (h.symm.trans hfree) Bool.false_ne_true
    · rw [h] at hbefore
      exact absurd hbefore Bool.false_ne_true

theorem mrel_does (hheld : Gives (checkHeld active ((List.range (l.imm.toNat % 16 + 1)).map (l.vd.toNat + ·))) s ()) :
    Does (mrel l) s () ((State.noteClaims { s with w := s.w.releaseRun s.g.id.j l.vd.toNat (l.imm.toNat % 16 + 1) }).retire 3) := by
  refine gives_bind hstart (gives_bind hslots ?_)
  rw [if_neg hactive]
  exact gives_bind hheld (does_bind (does_modify _ s) (act_retire 3 _))

end

/-! ## MCLAIM_GRANT (R376, R230) -/

theorem retireWait_state (n : Nat) (s : State) : Act.state (retireWait n) s = s.retiredWait n := rfl

/-- A path whose wait has come to an end leaves what `f` makes of the state that it acts in. -/
theorem mclaimGrant_resumes {s t : State} {g : GroupId} {slot : Bool} {w : Wait} {first n : Nat} (ht : s.atPath g slot t) (hw : t.path.wait = some w)
    (hon : w.on = .claim first n) (hstop : t.g.stop ≠ .stopped) (hfree : t.w.runFree t.g.id.j first n = true) (hbefore : t.claimBefore true first n = false) :
    Resumes (.mclaimGrant g slot) s g slot (State.retiredWait { t with w := t.w.takeRun t.g.id.j first n } w.words).noteClaims := by
  have he : exec (.mclaimGrant g slot) s = execMclaimGrant g slot s := rfl
  rw [Resumes, he]
  refine congrArg Host.Outcome.next (withGroup_congr ht ?_)
  simp only [hw, hon, retireWait_state]
  rw [if_pos (by simp [hstop, hfree, hbefore])]

/-- Settles O33: MCLAIM, MREL, the grant, and the claims that a run taken or released leaves. -/
theorem slotClaims : Obligations.SlotClaims := by
  refine ⟨fun l s active k hstart hactive hslots => ⟨fun h => ?_, fun hnot h => ?_, fun hheld => ?_⟩, fun s t g slot w first n => mclaimGrant_resumes,
    fun w j first n i hi => ⟨claim_takeRun w j first n hi, claim_releaseRun w j first n hi⟩⟩
  · exact outcome_of_does (mclaim_takes hstart hactive hslots (h.imp_left holdsRun_iff.2))
  · refine mclaim_waits hstart hactive hslots (Bool.eq_false_iff.2 fun hmine => ?_) h
    obtain ⟨i, hi, hne⟩ := hnot
    exact hne (holdsRun_iff.1 hmine i hi)
  · exact outcome_of_does (mrel_does hstart hactive hslots hheld)

end Sys2Proof.Machine
end

