-- ==== Sys2Proof/Proofs/Queues.lean ====
section
/-! PROOFS. O45: queues (spec/03 R83 to R85, spec/16 R427 to R430, spec/09 R230). -/

namespace Sys2Proof.Machine

/-! ## The ticket step (R428 to R430) -/

section
variable {push nb : Bool} {off n : Nat} {q : Qcw} {d : BitVec 7} {go park : Act Unit} {s t : State}

/-- The tickets are taken where the condition holds and no path comes first, or none that could be served. -/
theorem queueTurn_goes (hopen : q.open' push n = true)
    (hturn : s.queueAhead push off s.steps = false ∨ (nb = true ∧ servable push q (s.qWaiters push off) = [])) (hgo : Does go s () t) :
    Does (queueTurn push nb off n q d go park) s () (t.unhang.retire 3) := by
  have hgone : Does (do go
                        retireWork 3) s () (t.unhang.retire 3) := does_bind hgo (act_retireWork 3 t)
  refine gives_bind (act_get s) ?_
  by_cases hahead : s.queueAhead push off s.steps = false
  · exact does_then (by simp [hopen, hahead]) hgone
  · obtain ⟨hnb, hserved⟩ := hturn.resolve_left hahead
    exact does_else (by simp [hahead]) (does_else (by simp [hnb]) (does_else (by simp [hopen]) (does_then (by simp [hserved]) hgone)))

theorem queueTurn_fails (hshut : q.open' push n = false) (hnb : nb = true) :
    Does (queueTurn push nb off n q d go park) s () ((s.setS d allOnes).unhang.retire 3) :=
  gives_bind (act_get s) (does_else (by simp [hshut]) (does_else (by simp [hnb]) (does_then (by simp [hshut])
    (does_bind (does_modify _ s) (act_retireWork 3 _)))))

theorem queueTurn_waits (hopen : q.open' push n = true) (hahead : s.queueAhead push off s.steps ≠ false) (hnb : nb = true)
    (hserved : servable push q (s.qWaiters push off) ≠ []) : Holds (queueTurn push nb off n q d go park) s :=
  holds_bind (act_get s) ((runAct_else (by simp [hahead])).trans ((runAct_else (by simp [hnb])).trans ((runAct_else (by simp [hopen])).trans
    ((runAct_else (by simpa using hserved)).trans (act_hold s)))))

theorem queueTurn_parks (h : ¬ (q.open' push n = true ∧ s.queueAhead push off s.steps = false)) (hnb : nb = false) :
    runAct (queueTurn push nb off n q d go park) s = runAct park s :=
  (runAct_bind_gives (act_get s)).trans ((runAct_else (by simpa using h)).trans (runAct_then (by simp [hnb])))

end

theorem parkQueue_parks (i : Instr) (off : Nat) (active : Word32) (k : Option Nat) (s : State) : Parks (parkQueue i off active k) s
    { instr := i, words := 3, on := .queue off, vals := [0, BitVec.ofNat 64 s.steps, active.setWidth 64, 0], mark := k } :=
  (runAct_bind_gives (act_get s)).trans (act_throw _ s)

/-! ## QINIT, QPUSH and QPOP at issue -/

section
variable {l : Lane} {s : State} {active : Word32} {k : Option Nat} {a : Word64} (hstart : Gives (laneStart l) s (active, k)) (hactive : active ≠ 0)
  (ha : Gives (readS (sregOf l.va)) s a)
include hstart hactive ha

theorem qinit_does {c : Word64} {q : Qcw} (hc : Gives (readS (sregOf l.vb)) s c) (hplace : Gives (qcwPlace active (queueOff a)) s ())
    (hcheck : Gives (qcwCheck active (queueOff a) c.toNat) s q) :
    Does (qinit l) s () ((s.winStore 1 (cellsAt (queueOff a) (bytesOf 32 c.toNat))).unhang.retire 3) :=
  gives_bind hstart (does_else hactive (gives_bind ha (gives_bind hc (gives_bind hplace (gives_bind hcheck
    (does_bind (does_modify _ s) (act_retireWork 3 _)))))))

variable {q : Qcw} (hq : Gives (readQcw active (queueOff a)) s q) (hdepth : (lanesOf active).length ≤ q.depth)
include hq hdepth

/-- QPUSH comes to its ticket step once its checks have passed. -/
theorem qpush_turn (hone : Gives (checkV active l.vb.toNat 1) s ()) (hd : s.busyReg (sregOf l.vd) = false) (huse : Gives (useV active l.vb q.regs) s ())
    (hacked : s.allAcked (.group s.g.id) = true) (horder : Gives (orderGate (.qpush l) 3) s ()) :
    runAct (qpush l) s = runAct (queueTurn true (l.imm.getLsbD 0) (queueOff a) (lanesOf active).length q (sregOf l.vd)
      (modify fun s => s.pushElems l (queueOff a) q (lanesOf active)) (parkQueue (.qpush l) (queueOff a) active k)) s := by
  refine (runAct_bind_gives hstart).trans ((runAct_bind_gives hone).trans ((runAct_else hactive).trans ((runAct_bind_gives ha).trans
    ((runAct_bind_gives (act_get s)).trans ((runAct_checked fun h => ?_).trans ((runAct_bind_gives hq).trans ((runAct_bind_gives huse).trans
      ((runAct_checked fun h => ?_).trans ((runAct_bind_gives (awaitPerformed_gives hacked)).trans (runAct_bind_gives horder))))))))))
  · exact absurd (hd.symm.trans h) Bool.false_ne_true
  · exact absurd h (Nat.not_lt.2 hdepth)

/-- QPOP comes to its ticket step once its checks have passed. -/
theorem qpop_turn (hone : Gives (checkV active l.vd.toNat 1) s ()) (hd : s.busyReg (sregOf l.vb) = false) (huse : Gives (checkV active l.vd.toNat q.regs) s ())
    (horder : Gives (orderGate (.qpop l) 3) s ()) :
    runAct (qpop l) s = runAct (queueTurn false (l.imm.getLsbD 0) (queueOff a) (lanesOf active).length q (sregOf l.vb)
      (do checkScratch active (q.elemBytes q.poptk (lanesOf active).length)
          modify fun s => s.popElems l (queueOff a) q (lanesOf active)) (parkQueue (.qpop l) (queueOff a) active k)) s := by
  refine (runAct_bind_gives hstart).trans ((runAct_bind_gives hone).trans ((runAct_else hactive).trans ((runAct_bind_gives ha).trans
    ((runAct_bind_gives (act_get s)).trans ((runAct_checked fun h => ?_).trans ((runAct_bind_gives hq).trans ((runAct_bind_gives huse).trans
      ((runAct_checked fun h => ?_).trans (runAct_bind_gives horder)))))))))
  · exact absurd (hd.symm.trans h) Bool.false_ne_true
  · exact absurd h (Nat.not_lt.2 hdepth)

end

/-! ## Waits that end (R428, R429) -/

/-- A served wait whose action ends leaves what the action leaves. -/
theorem resumes_of_served {e : Instr} {s t u : State} {g : GroupId} {slot : Bool} {w : Wait} {f : Wait → Option (Act Bool)} {act : Act Bool}
    (he : exec e s = resumeServe g slot f s) (ht : s.atPath g slot t) (hw : t.path.wait = some w) (hstop : t.g.stop ≠ .stopped)
    (hf : f w = some act) (hact : Does act t.endWait true u) : Resumes e s g slot u := by
  have hserve : t.serveWait act = u := by
    have hrun : act.run.run t.endWait = (.ok true, u) := hact
    simp only [State.serveWait, hrun]
  rw [Resumes, he]
  refine congrArg Host.Outcome.next (withGroup_congr ht ?_)
  simp only [hw, hf, Option.map_some, Option.getD_some, hserve]
  exact if_neg (by simpa using hstop)

section
variable {push : Bool} {l : Lane} {off : Nat} {w : Wait} {go : Word32 → Qcw → List Nat → Act Unit} {u v : State} {q : Qcw} {active : Word32}

/-- A wait goes on in its turn, with the lanes that it holds. -/
theorem queueGo_does (hlanes : (w.vals.getD 2 0).extractLsb' 0 32 = active) (hq : Gives (readQcw active off) u q)
    (huse : Gives (if push then useV active l.vb q.regs else checkV active l.vd.toNat q.regs) u ()) (hdepth : (lanesOf active).length ≤ q.depth)
    (hkey : u.keyFree = true) (hahead : u.queueAhead push off (w.vals.getD 1 0).toNat = false) (hopen : q.open' push (lanesOf active).length = true)
    (hgo : Does (go active q (lanesOf active)) u () v) : Does (queueGo push l off w go) u true (v.retiredAbove 3 (w.vals.headD 0)) := by
  obtain rfl : (w.vals.getD 2 0).setWidth 32 = active := (BitVec.setWidth_eq_extractLsb' (by decide)).trans hlanes
  have hgone : Does (do go ((w.vals.getD 2 0).setWidth 32) q (lanesOf ((w.vals.getD 2 0).setWidth 32))
                        retireEnded 3 (w.vals.headD 0)
                        pure true) u true (v.retiredAbove 3 (w.vals.headD 0)) :=
    does_bind hgo (does_bind (does_modify _ v) (does_pure true _))
  have hturn : (!u.queueAhead push off (w.vals.getD 1 0).toNat && q.open' push (lanesOf ((w.vals.getD 2 0).setWidth 32)).length && u.keyFree) = true := by
    rw [hahead, hopen, hkey]
    rfl
  refine gives_bind (act_get u) (gives_bind hq ?_)
  cases push with
  | true => exact does_then rfl (gives_bind huse (does_checked (fun h => absurd h (Nat.not_lt.2 hdepth)) (does_then hturn hgone)))
  | false => exact does_else Bool.false_ne_true (gives_bind huse (does_checked (fun h => absurd h (Nat.not_lt.2 hdepth)) (does_then hturn hgone)))

end

/-! ## The fields of a control word (R83) -/

theorem winNum_low (s : State) (off : Nat) : s.winNum 1 off 32 % 2 ^ 64 = s.winNum 1 off 8 := by
  have h := bitsOf_winNum s off 0 8 24
  simpa [bitsOf_low] using h

/-- The counters of a QCW are the four words of its upper half; its place and shape are in its lowest eight bytes. -/
theorem qcw_fields (s : State) (off : Nat) : Qcw.of (s.winNum 1 off 32) =
    { base := bitsOf (s.winNum 1 off 8) 0 19, logd := bitsOf (s.winNum 1 off 8) 32 4, elw := bitsOf (s.winNum 1 off 8) 42 6
      pushtk := s.winNum 1 (off + 16) 4, tail := s.winNum 1 (off + 20) 4, poptk := s.winNum 1 (off + 24) 4, head := s.winNum 1 (off + 28) 4 } := by
  rw [← winNum_low, bitsOf_mod _ (by decide), bitsOf_mod _ (by decide), bitsOf_mod _ (by decide)]
  have hpushtk : bitsOf (s.winNum 1 off 32) 128 32 = s.winNum 1 (off + 16) 4 := bitsOf_winNum s off 16 4 12
  have htail : bitsOf (s.winNum 1 off 32) 160 32 = s.winNum 1 (off + 20) 4 := bitsOf_winNum s off 20 4 8
  have hpoptk : bitsOf (s.winNum 1 off 32) 192 32 = s.winNum 1 (off + 24) 4 := bitsOf_winNum s off 24 4 4
  have hhead : bitsOf (s.winNum 1 off 32) 224 32 = s.winNum 1 (off + 28) 4 := bitsOf_winNum s off 28 4 0
  rw [Qcw.of, hpushtk, htail, hpoptk, hhead]

/-! ## A counter is written (R85) -/

section
variable {s : State} {o v : Nat}

theorem winByte_setCounter_other {x : Nat} (h : x < o ∨ o + 4 ≤ x) : (s.setCounter o v).winByte 1 x = s.winByte 1 x :=
  winByte_cellsAt_other (by rwa [length_bytesOf])

theorem winNum_setCounter (s : State) (o v : Nat) : (s.setCounter o v).winNum 1 o 4 = v % 2 ^ 32 :=
  (winNum_winStore s o 4 (v % 2 ^ 32)).trans (Nat.mod_mod _ _)

end

/-- What a step on a queue does to its groups' waits changes no byte and no register. -/
theorem noteQueue_keeps {β : Type} (view : State → β)
    (h : ∀ (s : State) (g : Group) (gs : List Group), g.sregs = s.g.sregs → g.vregs = s.g.vregs → view { s with g := g, others := gs } = view s)
    (s : State) (push : Bool) (off : Nat) : view (s.noteQueue push off) = view s := by
  unfold State.noteQueue
  split
  · rfl
  · refine foldl_keeps view (fun t w _ => ?_) s
    split
    · rfl
    · refine modGroup_keeps view (fun u gs => ⟨h u _ u.others ?_ ?_, h u u.g gs rfl rfl⟩) t w.id
      all_goals split <;> simp

theorem winByte_noteQueue (s : State) (push : Bool) (off x : Nat) : (s.noteQueue push off).winByte 1 x = s.winByte 1 x :=
  noteQueue_keeps (State.winByte · 1 x) (fun _ _ _ _ _ => rfl) s push off

/-! ## The ring (R83, R85) -/

theorem length_flatMap_words (f : Nat → Nat) (n : Nat) : ((List.range n).flatMap fun r => bytesOf 4 (f r)).length = 4 * n := by
  simp [List.length_flatMap, Nat.mul_comm]

/-- A word of a list of words, byte by byte. -/
theorem getD_flatMap_words (f : Nat → Nat) {n r k : Nat} (hr : r < n) (hk : k < 4) :
    ((List.range n).flatMap fun r => bytesOf 4 (f r)).getD (4 * r + k) 0 = (bytesOf 4 (f r)).getD k 0 := by
  induction n with
  | zero => cases hr
  | succ n ih =>
    rw [List.range_succ, List.flatMap_append, List.getD_eq_getElem?_getD, List.getD_eq_getElem?_getD, List.flatMap_singleton]
    rcases Nat.lt_succ_iff_lt_or_eq.1 hr with hlt | rfl
    · rw [List.getElem?_append_left (by rw [length_flatMap_words]; omega), ← List.getD_eq_getElem?_getD, ih hlt, List.getD_eq_getElem?_getD]
    · rw [List.getElem?_append_right (by rw [length_flatMap_words]; omega), length_flatMap_words, Nat.add_sub_cancel_left]

theorem elemAt_in_ring (q : Qcw) (t : Nat) : q.base ≤ q.elemAt t ∧ q.elemAt t + q.esize ≤ q.base + q.ringBytes := by
  have hlt : t % q.depth + 1 ≤ q.depth := Nat.mod_lt _ (Nat.two_pow_pos q.logd)
  have hmul := Nat.mul_le_mul_right q.esize hlt
  rw [Nat.add_mul, Nat.one_mul] at hmul
  unfold Qcw.elemAt Qcw.ringBytes
  omega

/-- Tickets that are fewer than the ring's elements apart have elements apart. -/
theorem elemAt_apart {q : Qcw} {t i j a b : Nat} (hij : i < j) (hj : j < q.depth) (ha : a < q.esize) (hb : b < q.esize) :
    q.elemAt (t + i) + a ≠ q.elemAt (t + j) + b := by
  have hmod : (t + i) % q.depth ≠ (t + j) % q.depth := fun h => by
    have hsub : i % q.depth = j % q.depth := Nat.ModEq.add_left_cancel' t h
    rw [Nat.mod_eq_of_lt hj, Nat.mod_eq_of_lt (hij.trans hj)] at hsub
    omega
  intro h
  have hdiv : ∀ x c, c < q.esize → (x * q.esize + c) / q.esize = x := fun x c hc => by
    rw [Nat.mul_comm, Nat.mul_add_div (by omega), Nat.div_eq_of_lt hc, Nat.add_zero]
  have hcells : (t + i) % q.depth * q.esize + a = (t + j) % q.depth * q.esize + b := by
    unfold Qcw.elemAt at h
    omega
  exact hmod (by rw [← hdiv ((t + i) % q.depth) a ha, hcells, hdiv _ b hb])

/-- R84: a QCW that is good lies outside its ring. -/
theorem ring_apart {v off : Nat} (h : qcwBad v off = false) : (Qcw.of v).base + (Qcw.of v).ringBytes ≤ off ∨ off + 32 ≤ (Qcw.of v).base := by
  unfold qcwBad at h
  simp only [Bool.or_eq_false_iff, Bool.and_eq_false_iff, decide_eq_false_iff_not] at h
  omega

/-! ## What a push writes (R85, R428) -/

/-- The bytes of an element that a lane pushes. -/
def pushBytes (g : Group) (l : Lane) (q : Qcw) (lane : Nat) : List Byte :=
  (List.range q.regs).flatMap fun r => bytesOf 4 (g.vreg (l.vb.toNat + r) lane).toNat

/-- The cells of the elements that the lanes push, in the order of their tickets. -/
def pushCells (g : Group) (l : Lane) (q : Qcw) (lanes : List Nat) : List (Nat × Byte) :=
  lanes.zipIdx.flatMap fun p => cellsAt (q.elemAt (q.pushtk + p.2)) (pushBytes g l q p.1)

section
variable {g : Group} {l : Lane} {q : Qcw} {lanes : List Nat}

theorem length_pushBytes (lane : Nat) : (pushBytes g l q lane).length = q.esize := length_flatMap_words _ _

theorem pushCells_in_ring {p : Nat × Byte} (h : p ∈ pushCells g l q lanes) : q.base ≤ p.1 ∧ p.1 < q.base + q.ringBytes := by
  obtain ⟨x, -, hp⟩ := List.mem_flatMap.1 h
  obtain ⟨i, hi, hpi⟩ := mem_cellsAt hp
  rw [length_pushBytes] at hi
  have hring := elemAt_in_ring q (q.pushtk + x.2)
  omega

theorem pushCells_nodup (hn : lanes.length ≤ q.depth) : ((pushCells g l q lanes).map Prod.fst).Nodup := by
  rw [pushCells, List.map_flatMap, List.nodup_flatMap]
  refine ⟨fun x _ => nodup_cellsAt _ _, List.pairwise_iff_getElem.2 fun i j hi hj hij => ?_⟩
  rw [List.length_zipIdx] at hi hj
  simp only [Function.onFun, List.getElem_zipIdx, Nat.zero_add, fst_cellsAt, length_pushBytes]
  intro x hx hy
  obtain ⟨a, ha, rfl⟩ := List.mem_map.1 hx
  obtain ⟨b, hb, hab⟩ := List.mem_map.1 hy
  exact elemAt_apart hij (by omega) (List.mem_range.1 ha) (List.mem_range.1 hb) hab.symm

theorem pushCells_mem {i r k : Nat} (hi : i < lanes.length) (hr : r < q.regs) (hk : k < 4) :
    (q.elemAt (q.pushtk + i) + 4 * r + k, (bytesOf 4 (g.vreg (l.vb.toNat + r) (lanes.getD i 0)).toNat).getD k 0) ∈ pushCells g l q lanes := by
  have hbyte : (pushBytes g l q (lanes.getD i 0)).getD (4 * r + k) 0 = (bytesOf 4 (g.vreg (l.vb.toNat + r) (lanes.getD i 0)).toNat).getD k 0 :=
    getD_flatMap_words _ hr hk
  refine List.mem_flatMap.2 ⟨(lanes.getD i 0, i), List.mem_zipIdx_iff_getElem?.2 (by simp [hi]), ?_⟩
  rw [← hbyte, Nat.add_assoc]
  refine cell_mem ?_
  rw [length_pushBytes, Qcw.esize]
  rw [Qcw.regs] at hr
  omega

end

theorem winByte_setS (s : State) (d : BitVec 7) (v : Word64) (x : Nat) : (s.setS d v).winByte 1 x = s.winByte 1 x :=
  by rw [winByte_one, winByte_one, State.setS_w]

theorem sregs_setS (s : State) (d : BitVec 7) (v : Word64) : (s.setS d v).g.sregs = s.g.sregs.set d.toNat v := by
  rw [State.setS, unsoft_eq]

/-- Whether a counter moves or not, the rest of the window stands. -/
theorem winByte_counterIf {c : Prop} [Decidable c] {s : State} {o v x : Nat} (h : x < o ∨ o + 4 ≤ x) :
    (if c then s.setCounter o v else s).winByte 1 x = s.winByte 1 x :=
  ite_keeps (State.winByte · 1 x) (winByte_setCounter_other h)

theorem winNum_counterIf {c : Prop} [Decidable c] (s : State) (o v : Nat) :
    (if c then s.setCounter o v else s).winNum 1 o 4 = if c then v % 2 ^ 32 else s.winNum 1 o 4 := by
  split
  · exact winNum_setCounter s o v
  · rfl

theorem regs_counterIf {c : Prop} [Decidable c] (s : State) (o v : Nat) :
    (if c then s.setCounter o v else s).g.sregs = s.g.sregs ∧ (if c then s.setCounter o v else s).g.vregs = s.g.vregs :=
  ⟨ite_keeps (fun t : State => t.g.sregs) (regs_winStore s _).1, ite_keeps (fun t : State => t.g.vregs) (regs_winStore s _).2⟩

theorem mem_counterIf {c : Prop} [Decidable c] (s : State) (o v : Nat) : (if c then s.setCounter o v else s).mem = s.mem :=
  ite_keeps (fun t : State => t.mem) (mem_winStore s 1 _)

/-! ## A push (R85, R428) -/

section
variable (s : State) (l : Lane) (off : Nat) (q : Qcw) (lanes : List Nat)

/-- The tickets are taken and the elements written. -/
def State.pushStored : State := (s.setCounter (off + 16) (q.pushtk + lanes.length)).winStore 1 (pushCells s.g l q lanes)

/-- A push before the waits that it ends are noted. -/
def State.pushed : State :=
  let t := (s.pushStored l off q lanes).setS (sregOf l.vd) (BitVec.ofNat 64 q.pushtk)
  if q.tail = q.pushtk then t.setCounter (off + 20) (q.pushtk + lanes.length) else t

theorem pushElems_eq : s.pushElems l off q lanes = (s.pushed l off q lanes).noteQueue false off := rfl

theorem winByte_pushElems {x : Nat} (h : x < off + 20 ∨ off + 24 ≤ x) :
    (s.pushElems l off q lanes).winByte 1 x = (s.pushStored l off q lanes).winByte 1 x := by
  rw [pushElems_eq, winByte_noteQueue, State.pushed, winByte_counterIf (by omega), winByte_setS]

variable {s off q lanes}

theorem winByte_pushStored_apart {x : Nat} (h : x < off + 16 ∨ off + 20 ≤ x) (hring : x < q.base ∨ q.base + q.ringBytes ≤ x) :
    (s.pushStored l off q lanes).winByte 1 x = s.winByte 1 x := by
  rw [State.pushStored, winByte_winStore_other fun p hp => ?_, winByte_setCounter_other (by omega)]
  have hin := pushCells_in_ring hp
  omega

theorem winByte_pushElems_apart {x : Nat} (h : x < off + 16 ∨ off + 24 ≤ x) (hring : x < q.base ∨ q.base + q.ringBytes ≤ x) :
    (s.pushElems l off q lanes).winByte 1 x = s.winByte 1 x := by
  rw [winByte_pushElems s l off q lanes (by omega), winByte_pushStored_apart l (by omega) hring]

theorem pushtk_pushElems (hring : off + 32 ≤ q.base ∨ q.base + q.ringBytes ≤ off) :
    (s.pushElems l off q lanes).winNum 1 (off + 16) 4 = (q.pushtk + lanes.length) % 2 ^ 32 := by
  rw [← winNum_setCounter s]
  refine winNum_congr fun i hi => ?_
  rw [winByte_pushElems s l off q lanes (by omega), State.pushStored, winByte_winStore_other fun p hp => ?_]
  have hin := pushCells_in_ring hp
  omega

theorem tail_pushElems (hring : off + 32 ≤ q.base ∨ q.base + q.ringBytes ≤ off) (htail : s.winNum 1 (off + 20) 4 = q.tail) :
    (s.pushElems l off q lanes).winNum 1 (off + 20) 4 = if q.tail = q.pushtk then (q.pushtk + lanes.length) % 2 ^ 32 else q.tail := by
  have hnote : (s.pushElems l off q lanes).winNum 1 (off + 20) 4 = (s.pushed l off q lanes).winNum 1 (off + 20) 4 :=
    winNum_congr fun i _ => winByte_noteQueue _ false off _
  have hstored : ((s.pushStored l off q lanes).setS (sregOf l.vd) (BitVec.ofNat 64 q.pushtk)).winNum 1 (off + 20) 4 = q.tail :=
    (winNum_congr fun i hi => (winByte_setS _ _ _ _).trans (winByte_pushStored_apart l (by omega) (by omega))).trans htail
  rw [hnote, State.pushed, winNum_counterIf, hstored]

/-- R428: the lanes' registers are in the elements of their tickets. -/
theorem element_pushElems {i r : Nat} (hring : off + 32 ≤ q.base ∨ q.base + q.ringBytes ≤ off) (hn : lanes.length ≤ q.depth) (hi : i < lanes.length)
    (hr : r < q.regs) : (s.pushElems l off q lanes).winNum 1 (q.elemAt (q.pushtk + i) + 4 * r) 4 = (s.g.vreg (l.vb.toNat + r) (lanes.getD i 0)).toNat := by
  have hnum := winNum_of_bytes (t := s.pushElems l off q lanes) (x := q.elemAt (q.pushtk + i) + 4 * r)
    (bs := bytesOf 4 (s.g.vreg (l.vb.toNat + r) (lanes.getD i 0)).toNat) fun k hk => by
      rw [length_bytesOf] at hk
      have hmem := pushCells_mem (g := s.g) (l := l) hi hr hk
      have hin := pushCells_in_ring hmem
      rw [winByte_pushElems s l off q lanes (by omega), State.pushStored, winByte_winStore_mem (pushCells_nodup hn) hmem]
  rw [length_bytesOf, natOf_bytesOf] at hnum
  exact hnum.trans (Nat.mod_eq_of_lt (BitVec.isLt _))

theorem regs_pushStored : (s.pushStored l off q lanes).g.sregs = s.g.sregs ∧ (s.pushStored l off q lanes).g.vregs = s.g.vregs := by
  obtain ⟨hs, hv⟩ := regs_winStore s (cellsAt (off + 16) (bytesOf 4 ((q.pushtk + lanes.length) % 2 ^ 32)))
  obtain ⟨hs', hv'⟩ := regs_winStore (s.setCounter (off + 16) (q.pushtk + lanes.length)) (pushCells s.g l q lanes)
  exact ⟨hs'.trans hs, hv'.trans hv⟩

/-- R428: S[sD] takes the first ticket. -/
theorem sreg_pushElems : (s.pushElems l off q lanes).g.sregs.get (sregOf l.vd).toNat = BitVec.ofNat 64 q.pushtk := by
  have hnote : (s.pushElems l off q lanes).g.sregs = (s.pushed l off q lanes).g.sregs := noteQueue_keeps (·.g.sregs) (fun _ _ _ h _ => h) _ false off
  rw [hnote, State.pushed, (regs_counterIf _ _ _).1, sregs_setS, get_set, if_pos rfl]

theorem vregs_pushElems : (s.pushElems l off q lanes).g.vregs = s.g.vregs := by
  have hnote : (s.pushElems l off q lanes).g.vregs = (s.pushed l off q lanes).g.vregs := noteQueue_keeps (·.g.vregs) (fun _ _ _ _ h => h) _ false off
  rw [hnote, State.pushed, (regs_counterIf _ _ _).2, State.setS_g_vregs, (regs_pushStored l).2]

theorem byte_pushElems (a : Nat) : (s.pushElems l off q lanes).byte a = s.byte a := by
  refine byte_of_mem ?_ a
  have hnote : (s.pushElems l off q lanes).mem = (s.pushed l off q lanes).mem := noteQueue_keeps (·.mem) (fun _ _ _ _ _ => rfl) _ false off
  rw [hnote, State.pushed, mem_counterIf, State.setS_mem, State.pushStored, mem_winStore, State.setCounter, mem_winStore]

end

/-! ## A pop (R85, R429) -/

/-- The registers that a pop writes, in the order of its tickets. -/
def State.popRegs (s : State) (l : Lane) (q : Qcw) (lanes : List Nat) : List (Nat × Nat × Word32) :=
  lanes.zipIdx.flatMap fun p => (List.range q.regs).map fun r =>
    (l.vd.toNat + r, p.1, BitVec.ofNat 32 (s.winNum 1 (q.elemAt (q.poptk + p.2) + 4 * r) 4))

section
variable (s : State) (l : Lane) (off : Nat) (q : Qcw) (lanes : List Nat)

/-- The tickets are taken and the registers written. -/
def State.popRead : State := (s.setCounter (off + 24) (q.poptk + lanes.length)).setVs (s.popRegs l q lanes)

/-- A pop before the waits that it ends are noted. -/
def State.popped : State :=
  let t := (s.popRead l off q lanes).setS (sregOf l.vb) (BitVec.ofNat 64 q.poptk)
  if q.head = q.poptk then t.setCounter (off + 28) (q.poptk + lanes.length) else t

theorem popElems_eq : s.popElems l off q lanes = (s.popped l off q lanes).noteQueue true off := by
  rw [State.popped, State.popRead, State.setVs, State.popRegs, List.foldl_flatMap]
  simp only [List.foldl_map]
  rfl

variable {s off q lanes}

theorem popRegs_mem {x : Nat × Nat × Word32} (h : x ∈ s.popRegs l q lanes) : x.2.1 ∈ lanes := by
  obtain ⟨p, hp, hx⟩ := List.mem_flatMap.1 h
  obtain ⟨r, -, rfl⟩ := List.mem_map.1 hx
  exact List.fst_mem_of_mem_zipIdx hp

theorem popRegs_nodup (hl : lanes.Nodup) : ((s.popRegs l q lanes).map fun x => (x.1, x.2.1)).Nodup := by
  rw [State.popRegs, List.map_flatMap, List.nodup_flatMap]
  simp only [List.map_map, Function.comp_def]
  refine ⟨fun p _ => (List.nodup_range).map fun a b hab => ?_, List.pairwise_iff_getElem.2 fun i j hi hj hij => ?_⟩
  · exact Nat.add_left_cancel (Prod.ext_iff.1 hab).1
  · rw [List.length_zipIdx] at hi hj
    simp only [Function.onFun, List.getElem_zipIdx]
    intro x hx hy
    obtain ⟨a, -, rfl⟩ := List.mem_map.1 hx
    obtain ⟨b, -, hab⟩ := List.mem_map.1 hy
    exact hij.ne ((hl.getElem_inj_iff).1 (Prod.ext_iff.1 hab).2).symm

theorem popRegs_of {i r : Nat} (hi : i < lanes.length) (hr : r < q.regs) :
    (l.vd.toNat + r, lanes.getD i 0, BitVec.ofNat 32 (s.winNum 1 (q.elemAt (q.poptk + i) + 4 * r) 4)) ∈ s.popRegs l q lanes :=
  List.mem_flatMap.2 ⟨(lanes.getD i 0, i), List.mem_zipIdx_iff_getElem?.2 (by simp [hi]), List.mem_map.2 ⟨r, List.mem_range.2 hr, rfl⟩⟩

theorem winByte_popRead (x : Nat) : (s.popRead l off q lanes).winByte 1 x = (s.setCounter (off + 24) (q.poptk + lanes.length)).winByte 1 x := by
  rw [State.popRead, setVs_frame]
  rfl

theorem winByte_popElems {x : Nat} (h : x < off + 28 ∨ off + 32 ≤ x) :
    (s.popElems l off q lanes).winByte 1 x = (s.setCounter (off + 24) (q.poptk + lanes.length)).winByte 1 x := by
  rw [popElems_eq, winByte_noteQueue, State.popped, winByte_counterIf (by omega), winByte_setS, winByte_popRead]

theorem winByte_popElems_apart {x : Nat} (h : x < off + 24 ∨ off + 32 ≤ x) : (s.popElems l off q lanes).winByte 1 x = s.winByte 1 x := by
  rw [winByte_popElems l (by omega), winByte_setCounter_other (by omega)]

theorem poptk_popElems : (s.popElems l off q lanes).winNum 1 (off + 24) 4 = (q.poptk + lanes.length) % 2 ^ 32 := by
  rw [← winNum_setCounter s]
  exact winNum_congr fun i hi => winByte_popElems l (by omega)

theorem head_popElems (hhead : s.winNum 1 (off + 28) 4 = q.head) :
    (s.popElems l off q lanes).winNum 1 (off + 28) 4 = if q.head = q.poptk then (q.poptk + lanes.length) % 2 ^ 32 else q.head := by
  have hnote : (s.popElems l off q lanes).winNum 1 (off + 28) 4 = (s.popped l off q lanes).winNum 1 (off + 28) 4 := by
    rw [popElems_eq]
    exact winNum_congr fun i _ => winByte_noteQueue _ true off _
  have hread : ((s.popRead l off q lanes).setS (sregOf l.vb) (BitVec.ofNat 64 q.poptk)).winNum 1 (off + 28) 4 = q.head :=
    (winNum_congr fun i hi => (winByte_setS _ _ _ _).trans ((winByte_popRead l _).trans (winByte_setCounter_other (by omega)))).trans hhead
  rw [hnote, State.popped, winNum_counterIf, hread]

/-- R429: S[sD] takes the first ticket. -/
theorem sreg_popElems : (s.popElems l off q lanes).g.sregs.get (sregOf l.vb).toNat = BitVec.ofNat 64 q.poptk := by
  have hnote : (s.popElems l off q lanes).g.sregs = (s.popped l off q lanes).g.sregs := by
    rw [popElems_eq]
    exact noteQueue_keeps (·.g.sregs) (fun _ _ _ h _ => h) _ true off
  rw [hnote, State.popped, (regs_counterIf _ _ _).1, sregs_setS, get_set, if_pos rfl]

/-- R429: the elements of the tickets are in the lanes' registers. -/
theorem vreg_popElems {i r : Nat} (hl : lanes.Nodup) (hlanes : ∀ x ∈ lanes, x < 32) (hi : i < lanes.length) (hr : r < q.regs) :
    ((s.popElems l off q lanes).g.vreg (l.vd.toNat + r) (lanes.getD i 0)).toNat = s.winNum 1 (q.elemAt (q.poptk + i) + 4 * r) 4 := by
  have hregs : (s.popElems l off q lanes).g.vregs = (s.popRead l off q lanes).g.vregs := by
    have hnote : ((s.popped l off q lanes).noteQueue true off).g.vregs = (s.popped l off q lanes).g.vregs :=
      noteQueue_keeps (·.g.vregs) (fun _ _ _ _ h => h) _ true off
    rw [popElems_eq, hnote, State.popped, (regs_counterIf _ _ _).2, State.setS_g_vregs]
  have hread : (s.popRead l off q lanes).g.vreg (l.vd.toNat + r) (lanes.getD i 0) = BitVec.ofNat 32 (s.winNum 1 (q.elemAt (q.poptk + i) + 4 * r) 4) :=
    vreg_setVs_mem (fun x hx => hlanes _ (popRegs_mem l hx)) (popRegs_nodup l hl) (popRegs_of l hi hr)
  rw [Group.vreg, hregs, ← Group.vreg, hread, BitVec.toNat_ofNat]
  exact Nat.mod_eq_of_lt (winNum_lt s _ 4)

theorem byte_popElems (a : Nat) : (s.popElems l off q lanes).byte a = s.byte a := by
  refine byte_of_mem ?_ a
  have hnote : ((s.popped l off q lanes).noteQueue true off).mem = (s.popped l off q lanes).mem := noteQueue_keeps (·.mem) (fun _ _ _ _ _ => rfl) _ true off
  have hread : (s.popRead l off q lanes).mem = s.mem := by
    rw [State.popRead, setVs_frame]
    exact mem_winStore s 1 _
  rw [popElems_eq, hnote, State.popped, mem_counterIf, State.setS_mem, hread]

end

/-! ## O45 -/

theorem open_push (q : Qcw) (n : Nat) : q.open' true n = q.room n := if_pos rfl

theorem open_pop (q : Qcw) (n : Nat) : q.open' false n = q.full n := if_neg Bool.false_ne_true

/-- R428 to R430: the outcomes of an instruction that comes to its ticket step. -/
theorem ticketStep_outcomes {i : Instr} {act go : Act Unit} {push nb : Bool} {off n : Nat} {q : Qcw} {d : BitVec 7} {active : Word32} {k : Option Nat}
    {s t : State} {room : Bool} (hroom : q.open' push n = room) (hexec : exec i s = Act.outcome act s)
    (hact : runAct act s = runAct (queueTurn push nb off n q d go (parkQueue i off active k)) s) :
    (room = true ∧ (s.queueAhead push off s.steps = false ∨ (nb = true ∧ ¬ servable push q (s.qWaiters push off) ≠ [])) → Does go s () t →
      exec i s = .next (t.unhang.retire 3))
    ∧ (¬ room = true → nb = true → exec i s = .next ((s.setS d allOnes).unhang.retire 3))
    ∧ (room = true → ¬ s.queueAhead push off s.steps = false → nb = true →
      servable push q (s.qWaiters push off) ≠ [] → exec i s = .next s.endGrant)
    ∧ (¬ (room = true ∧ s.queueAhead push off s.steps = false) → nb = false → exec i s = .next
        (s.park { instr := i, words := 3, on := .queue off, vals := [0, BitVec.ofNat 64 s.steps, active.setWidth 64, 0], mark := k })) := by
  subst hroom
  have hturn := hexec.trans (outcome_congr hact)
  refine ⟨fun ⟨hopen, hturns⟩ hgo =>
      hturn.trans (outcome_of_does (queueTurn_goes hopen (hturns.imp_right fun ⟨hnb, hs⟩ => ⟨hnb, not_not.1 hs⟩) hgo)),
    fun hshut hnb => hturn.trans (outcome_of_does (queueTurn_fails (by simpa using hshut) hnb)),
    fun hopen hahead hnb hserved => hturn.trans (outcome_of_holds (queueTurn_waits hopen hahead hnb hserved)), fun hno hnb => ?_⟩
  exact hturn.trans ((outcome_congr (queueTurn_parks hno hnb)).trans (outcome_of_parks (parkQueue_parks i off active k s)))

/-- R427: the control word reads back. -/
theorem qcw_stored (s : State) (off : Nat) (c : Word64) :
    Qcw.of (((s.winStore 1 (cellsAt off (bytesOf 32 c.toNat))).unhang.retire 3).winNum 1 off 32) = Qcw.of c.toNat := by
  have hnum : ((s.winStore 1 (cellsAt off (bytesOf 32 c.toNat))).unhang.retire 3).winNum 1 off 32 =
      (s.winStore 1 (cellsAt off (bytesOf 32 c.toNat))).winNum 1 off 32 :=
    winNum_congr fun _ _ => by rw [winByte_one, winByte_one, w_retire, State.unhang_w]
  have hc := c.isLt
  rw [hnum, winNum_winStore, Nat.mod_eq_of_lt (by omega)]

section
variable {l : Lane} {s t : State} {g : GroupId} {slot : Bool} {w : Wait} {off : Nat} {q : Qcw} {active : Word32}

theorem qpushResume_resumes (ht : s.atPath g slot t) (hw : t.path.wait = some w) (hon : w.on = .queue off) (hstop : t.g.stop ≠ .stopped)
    (hlanes : (w.vals.getD 2 0).extractLsb' 0 32 = active)
    (hq : Gives (readQcw active off) t.endWait q) (hdepth : (lanesOf active).length ≤ q.depth) (hkey : t.endWait.keyFree = true)
    (hinstr : w.instr = .qpush l) (huse : Gives (useV active l.vb q.regs) t.endWait ())
    (hahead : t.endWait.queueAhead true off (w.vals.getD 1 0).toNat = false) (hroom : q.room (lanesOf active).length = true) :
    Resumes (.qpushResume g slot) s g slot ((t.endWait.pushElems l off q (lanesOf active)).retiredAbove 3 (w.vals.headD 0)) := by
  refine resumes_of_served (act := queueGo true l off w fun _ q lanes => modify fun s => s.pushElems l off q lanes) rfl ht hw hstop ?_
    (queueGo_does hlanes hq (by rwa [if_pos rfl]) hdepth hkey hahead (by rwa [open_push]) (does_modify _ _))
  simp only [hon, hinstr]

theorem qpopResume_resumes (ht : s.atPath g slot t) (hw : t.path.wait = some w) (hon : w.on = .queue off) (hstop : t.g.stop ≠ .stopped)
    (hlanes : (w.vals.getD 2 0).extractLsb' 0 32 = active)
    (hq : Gives (readQcw active off) t.endWait q) (hdepth : (lanesOf active).length ≤ q.depth) (hkey : t.endWait.keyFree = true)
    (hinstr : w.instr = .qpop l) (huse : Gives (checkV active l.vd.toNat q.regs) t.endWait ())
    (hahead : t.endWait.queueAhead false off (w.vals.getD 1 0).toNat = false) (hfull : q.full (lanesOf active).length = true)
    (helems : Gives (checkScratch active (q.elemBytes q.poptk (lanesOf active).length)) t.endWait ()) :
    Resumes (.qpopResume g slot) s g slot ((t.endWait.popElems l off q (lanesOf active)).retiredAbove 3 (w.vals.headD 0)) := by
  refine resumes_of_served (act := queueGo false l off w fun active q lanes => do
      checkScratch active (q.elemBytes q.poptk lanes.length)
      modify fun s => s.popElems l off q lanes) rfl ht hw hstop ?_
    (queueGo_does hlanes hq (by rwa [if_neg Bool.false_ne_true]) hdepth hkey hahead (by rwa [open_pop]) (gives_bind helems (does_modify _ _)))
  simp only [hon, hinstr]

end

/-- R428: a push moves PUSHTK and TAIL of its control word. -/
theorem qcw_pushElems (l : Lane) {s : State} {off : Nat} {q : Qcw} (lanes : List Nat) (hq : Qcw.of (s.winNum 1 off 32) = q)
    (hring : off + 32 ≤ q.base ∨ q.base + q.ringBytes ≤ off) :
    Qcw.of ((s.pushElems l off q lanes).winNum 1 off 32) =
      { q with pushtk := (q.pushtk + lanes.length) % 2 ^ 32, tail := if q.tail = q.pushtk then (q.pushtk + lanes.length) % 2 ^ 32 else q.tail } := by
  have hfields := (qcw_fields s off).symm.trans hq
  have htail : s.winNum 1 (off + 20) 4 = q.tail := congrArg Qcw.tail hfields
  rw [qcw_fields, pushtk_pushElems l hring, tail_pushElems l hring htail,
    winNum_congr (x := off) fun i hi => winByte_pushElems_apart l (by omega) (by omega),
    winNum_congr (x := off + 24) fun i hi => winByte_pushElems_apart l (by omega) (by omega),
    winNum_congr (x := off + 28) fun i hi => winByte_pushElems_apart l (by omega) (by omega)]
  exact congrArg (fun p : Qcw => { p with
    pushtk := (q.pushtk + lanes.length) % 2 ^ 32, tail := if q.tail = q.pushtk then (q.pushtk + lanes.length) % 2 ^ 32 else q.tail }) hfields

/-- R429: a pop moves POPTK and HEAD of its control word. -/
theorem qcw_popElems (l : Lane) {s : State} {off : Nat} {q : Qcw} (lanes : List Nat) (hq : Qcw.of (s.winNum 1 off 32) = q) :
    Qcw.of ((s.popElems l off q lanes).winNum 1 off 32) =
      { q with poptk := (q.poptk + lanes.length) % 2 ^ 32, head := if q.head = q.poptk then (q.poptk + lanes.length) % 2 ^ 32 else q.head } := by
  have hfields := (qcw_fields s off).symm.trans hq
  have hhead : s.winNum 1 (off + 28) 4 = q.head := congrArg Qcw.head hfields
  rw [qcw_fields, poptk_popElems l, head_popElems l hhead,
    winNum_congr (x := off) fun i hi => winByte_popElems_apart l (by omega),
    winNum_congr (x := off + 16) fun i hi => winByte_popElems_apart l (by omega),
    winNum_congr (x := off + 20) fun i hi => winByte_popElems_apart l (by omega)]
  exact congrArg (fun p : Qcw => { p with
    poptk := (q.poptk + lanes.length) % 2 ^ 32, head := if q.head = q.poptk then (q.poptk + lanes.length) % 2 ^ 32 else q.head }) hfields

/-- Settles O45: QINIT writes the control word that it checked; QPUSH and QPOP go through their checks to one ticket step, whose four cases
are its branches; a wait goes on by the same step; and each field of the control word is followed through what a push and a pop write. -/
theorem queues : Obligations.Queues := by
  refine ⟨⟨fun l s active k a hstart hactive ha => ?_,
    fun l s t g slot w off q ht hw hon hstop hq hdepth hkey => ⟨qpushResume_resumes ht hw hon hstop rfl hq hdepth hkey,
    qpopResume_resumes ht hw hon hstop rfl hq hdepth hkey⟩⟩, fun l s off lanes hbad hn hlanes => ?_⟩
  · have hoff : queueOff a = a.toNat % 2 ^ 19 := bitsOf_low _ _
    simp only [← hoff]
    refine ⟨fun c q hc hplace hcheck => ⟨outcome_of_does (qinit_does hstart hactive ha hc hplace hcheck), qcw_stored s _ c⟩,
      fun q hone hd hq huse hdepth hacked horder => ?_, fun q hone hd hq huse hdepth horder => ?_⟩
    · obtain ⟨hgoes, hrest⟩ := ticketStep_outcomes (t := s.pushElems l (queueOff a) q (lanesOf active)) (i := .qpush l) (open_push q _) rfl
        (qpush_turn (k := k) hstart hactive ha hq hdepth hone hd huse hacked horder)
      exact ⟨fun h => hgoes h (does_modify _ s), hrest⟩
    · obtain ⟨hgoes, hrest⟩ := ticketStep_outcomes (t := s.popElems l (queueOff a) q (lanesOf active)) (i := .qpop l) (open_pop q _) rfl
        (qpop_turn (k := k) hstart hactive ha hq hdepth hone hd huse horder)
      exact ⟨fun h helems => hgoes h (gives_bind helems (does_modify _ s)), hrest⟩
  · generalize hq : Qcw.of (s.winNum 1 off 32) = q at hn
    have hring : off + 32 ≤ q.base ∨ q.base + q.ringBytes ≤ off := by
      rw [← hq]
      exact (ring_apart hbad).symm
    refine ⟨?_, fun hl => ?_⟩
    · simp only [qcw_pushElems l lanes hq hring]
      simp only [true_and]
      exact ⟨sreg_pushElems l, fun i r hi hr => element_pushElems l hring hn hi hr, vregs_pushElems l,
        fun x hx hout => winByte_pushElems_apart l (by omega) hout, byte_pushElems l⟩
    · simp only [qcw_popElems l lanes hq]
      simp only [true_and]
      exact ⟨sreg_popElems l, fun i r hi hr => vreg_popElems l hl hlanes hi hr,
        fun x hx => winByte_popElems_apart l (by omega), byte_popElems l⟩

end Sys2Proof.Machine
end

