-- ==== Sys2Proof/Proofs/LaneAtomics.lean ====
section
/-! PROOFS. O28: lane atomics, histograms and prefetches (spec/03 R87, R88, spec/13 R358, R360, R361, spec/08 R235). -/

namespace Sys2Proof.Machine

/-! ## One atomic step (R88 Table 3-9) -/

theorem minOp_word (r : Rounder) (a b : Nat) : (minOp false (.int 32 true) r false a b 0).val = if signedOf 32 a < signedOf 32 b then a else b := by
  by_cases h : signedOf 32 a < signedOf 32 b <;> simp [minOp, intVal, h]

theorem maxOp_word (r : Rounder) (a b : Nat) : (minOp true (.int 32 true) r false a b 0).val = if signedOf 32 a < signedOf 32 b then b else a := by
  by_cases h : signedOf 32 a < signedOf 32 b <;> simp [minOp, intVal, h]

/-- A step on the one element of a 32-bit word. -/
theorem wordStep (f : Nat → Nat → Fp Nat) {w x : Nat} (hw : w < 2 ^ 32) (hx : x < 2 ^ 32) (hf : (f w x).val < 2 ^ 32) :
    (combine 32 ([0].map fun e => f (elemAt 32 e w) (elemAt 32 e x))).val = (f w x).val := by
  have helem : ∀ v, v < 2 ^ 32 → elemAt 32 0 v = v := fun v hv => by
    rw [elemAt, Nat.mul_zero, bitsOf_low, Nat.mod_eq_of_lt hv]
  simp only [List.map_cons, List.map_nil, combine, packElems, helem w hw, helem x hx, Nat.mul_zero, Nat.add_zero]
  exact Nat.mod_eq_of_lt hf

theorem atomicMin_word {w x : Nat} (c : Nat) (hw : w < 2 ^ 32) (hx : x < 2 ^ 32) :
    (atomicStep 2 0 32 w x c).val = (if signedOf 32 w < signedOf 32 x then w else x)
      ∧ (atomicStep 3 0 32 w x c).val = (if signedOf 32 w < signedOf 32 x then x else w) := by
  have hstep (mx : Bool) := wordStep (fun a b =>
    { val := (minOp mx (.int 32 true) rne false a b 0).val, fl := (markNan (.int 32 true) (minOp mx (.int 32 true) rne false a b 0)).fl }) hw hx
  refine ⟨(hstep false ?_).trans (minOp_word rne w x), (hstep true ?_).trans (maxOp_word rne w x)⟩
  · exact (minOp_word rne w x).trans_lt (by split <;> assumption)
  · exact (maxOp_word rne w x).trans_lt (by split <;> assumption)

/-! ## VATOM and VATOMSP (R358) -/

theorem exec_laneAtomic {i : Instr} {win : Nat} {l : Lane} (hi : laneAtomicForm i = some (win, l)) (s : State) :
    exec i s = Act.outcome (laneAtomic win i l) s := by
  unfold laneAtomicForm at hi
  split at hi <;> cases hi <;> rfl

/-- Outside a deterministic node nothing waits for its place in key order (R229). -/
theorem orderGate_gives {s : State} (hdet : s.g.det = false) (i : Instr) (words : Nat) : Gives (orderGate i words) s () :=
  gives_bind (act_get s) (does_else (by simp [hdet]) (does_pure () s))

section
variable (s : State) (win : Nat) (l : Lane) (active : Word32) (k : Option Nat) (bc : Option Word64) (n : Nat) (es : List Elem)

/-- The operands of the lanes of an atomic. -/
def State.atomicOperands : List AtomicLane :=
  es.map fun e => AtomicLane.mk e
    (match bcIf l.bsc bc with | some v => v.toNat % 2 ^ (8 * n) | none => s.g.regs l.vc.toNat e.lane (n / 4)) (s.g.regs l.vd.toNat e.lane (n / 4))

/-- The registers of an atomic take the old values of its lanes. -/
def State.atomicOlds (olds : List (Nat × Nat)) : State :=
  (lanesOf active).foldl (fun s m =>
    let old := ((olds.find? fun o => o.1 == m).map Prod.snd).getD 0
    (List.range (n / 4)).foldl (fun s j => s.setV (l.vd.toNat + j) m (BitVec.ofNat 32 (old / 2 ^ (32 * j)))) s) s

end

section
variable {win : Nat} {l : Lane} {s s₁ : State} {active : Word32} {k : Option Nat} {bc : Option Word64} {r : Rec} {es : List Elem}
  (hactive : Gives (activeOf l) s active) (hmark : Gives (checkMark (l.fs = 1)) s k) (hbc : Gives (broadcast l) s bc)
  (hrec : Gives (recordOf l) s r) (hindex : Gives (useSrc active true (l.bsb = 1) l.vb 1) s ())
include hactive hmark hbc hrec hindex

theorem laneAtomic_does {i : Instr} {n : Nat} (hn : atomicBytes l r.esz = n) (hdet : s.g.det = false)
    (hdest : l.imm.toNat % 16 = 8 ∨ l.imm.getLsbD 4 = false → Gives (checkV active l.vd.toNat (n / 4)) s ())
    (hcas : l.imm.toNat % 16 = 8 → Gives (checkVSoft active l.vd.toNat (n / 4)) s ())
    (hvalue : Gives (useSrc active true (l.bsc = 1) l.vc (n / 4)) s ()) (hsize : active = 0 ∨ 2 ^ r.esz = n) (hrelease : Gives (releasePart l.ord) s ())
    (hes : Does (resolve (laneAccess win 2 n l ((l.imm.toNat % 16 == 0 || l.imm.toNat % 16 == 7 || l.imm.toNat % 16 == 8) && n != 16)) r
      (wantsOf s l active bc)) s es s₁) :
    let q := (s₁.clamped win l.scope.toNat (!es.isEmpty)).atomicLanes win (l.imm.toNat % 16) l.type.toNat (8 * n) (s.atomicOperands l bc n es)
      (!l.imm.getLsbD 4) (if l.imm.getLsbD 4 then k else none)
    let t : State := { q.1 with g := q.1.g.setFlags q.2.2 }
    Does (laneAtomic win i l) s () ((if l.imm.getLsbD 4 then t else t.atomicOlds l active n q.2.1).unhang.retire 3) := by
  subst hn
  intro q t
  have hend : Does (if l.imm.getLsbD 4 = true then retireWork 3
      else (modify fun s => s.atomicOlds l active (atomicBytes l r.esz) q.2.1) >>= fun _ => retireWork 3)
      t () ((if l.imm.getLsbD 4 then t else t.atomicOlds l active (atomicBytes l r.esz) q.2.1).unhang.retire 3) := by
    by_cases hnr : l.imm.getLsbD 4 = true
    · rw [if_pos hnr, if_pos hnr]
      exact act_retireWork 3 t
    · rw [if_neg hnr, if_neg hnr]
      exact does_bind (does_modify _ t) (act_retireWork 3 _)
  refine does_unless (orderGate_gives hdet i 3) (gives_bind hactive (gives_bind hmark (gives_bind hbc (gives_bind hrec
    (does_checked (fun h => hdest (by simpa using h)) (does_checked (fun h => hcas (by simpa using h)) (gives_bind hindex (gives_bind hvalue
    (gives_bind (act_get s) (does_checked (fun h => ?_) (gives_bind hrelease
      (does_bind hes (does_bind (clamp_does win _ _ s₁)
    (does_bind (act_stateful _ _) (does_bind (does_modify _ _) hend)))))))))))))))
  exact absurd h.2 (not_not.2 (hsize.resolve_left h.1))

/-- R360: VHIST adds the values of its lanes. -/
theorem laneHist_does (hvalue : Gives (useSrc active true (l.bsc = 1) l.vc 1) s ()) (hsize : active = 0 ∨ (r.bad = false ∧ r.esz = 2))
    (hrelease : Gives (releasePart l.ord) s ())
    (hes : Does (resolve (laneAccess (l.imm.toNat % 4) 2 4 l true) r ((wantsOf s l active bc).filter fun w => !allOnesIx l w)) s es s₁) :
    Does (laneHist l) s () (((s₁.clamped (l.imm.toNat % 4) l.scope.toNat (!es.isEmpty)).atomicLanes (l.imm.toNat % 4) 0 1 32
      (es.map fun e => AtomicLane.mk e (laneVal s.g (bcIf l.bsc bc) l.vc false e.lane) 0) false k).1.unhang.retire 3) := by
  refine gives_bind hactive (gives_bind hmark (gives_bind hbc (gives_bind hrec (gives_bind hindex (gives_bind hvalue (gives_bind (act_get s)
    (does_checked (fun h => ?_) (gives_bind hrelease
      (does_bind hes (does_bind (clamp_does _ _ _ s₁) (does_bind (act_stateful _ _) (act_retireWork 3 _))))))))))))
  obtain ⟨hbad, hesz⟩ := hsize.resolve_left h.1
  simp [hbad, hesz] at h

/-- R361: VPREF requests the lines of its elements. -/
theorem lanePrefetch_does (hgood : active = 0 ∨ r.bad = false) :
    Does (lanePrefetch l) s () (((linesOf ((((wantsOf s l active bc).filter fun w => decide (w.ix < r.extent)).flatMap fun w =>
      (List.range (2 ^ r.esz)).map fun j => r.addr (l.va == 31) w.lane w.ix j).filter fun x => decide (x < 2 ^ 56))).foldl State.prefetch s).retire 3) := by
  refine gives_bind hactive (gives_bind hmark (gives_bind hbc (gives_bind hrec (gives_bind hindex (gives_bind (act_get s)
    (does_checked (fun h => ?_) (does_bind (does_modify _ s) (act_retire 3 _))))))))
  have hbad := hgood.resolve_left h.1
  simp [hbad] at h

end

/-! ## The stream of a TWIN node (R235) -/

/-- The distinct words of atomics on one word are that word. -/
theorem words_of_one {x : List Nat} : ∀ {xs : List (List Nat)}, (∀ y ∈ xs, y = x) → xs ≠ [] →
    xs.foldl (fun r y => if r.contains y then r else r ++ [y]) [] = [x] := by
  have hkeep : ∀ {xs : List (List Nat)}, (∀ y ∈ xs, y = x) → xs.foldl (fun r y => if r.contains y then r else r ++ [y]) [x] = [x] := fun {xs} hxs =>
    List.foldlRecOn (motive := fun r => r = [x]) xs _ rfl fun r hr y hy => by simp [hr, hxs y hy]
  intro xs hxs hne
  obtain ⟨y, ys, rfl⟩ := List.exists_cons_of_ne_nil hne
  obtain ⟨rfl, hys⟩ := List.forall_mem_cons.1 hxs
  exact hkeep hys

/-- R235: atomics on one word leave one record of it, the last value. -/
theorem emitAtomic_one (s : State) (returning : Bool) (n : Nat) {ws : List (Nat × List Nat × Nat)} {x : List Nat} {v : Nat} (hws : ∀ w ∈ ws, w.2.1 = x)
    (hne : ws ≠ []) (hlast : (ws.getLast?.map fun w => w.2.2) = some v) :
    s.emitAtomic returning n ws = s.emit (if returning = true then 0 else (ws.headD (0, [], 0)).1) 0 (x.zip (bytesOf n v)) := by
  have hwords := words_of_one (x := x) (xs := ws.map fun w => w.2.1) (List.forall_mem_map.2 hws) (by simpa using hne)
  have hfirst : ((ws.find? fun w => w.2.1 == x).map Prod.fst).getD 0 = (ws.headD (0, [], 0)).1 := by
    obtain ⟨w, ws, rfl⟩ := List.exists_cons_of_ne_nil hne
    simp [hws w]
  have hfinal : ((ws.reverse.find? fun w => w.2.1 == x).map fun w => w.2.2).getD 0 = v := by
    obtain ⟨w, hw, rfl⟩ := Option.map_eq_some_iff.1 hlast
    rw [List.getLast?_eq_some_iff] at hw
    obtain ⟨ws', rfl⟩ := hw
    simp [hws w]
  simp only [State.emitAtomic, hwords, List.foldl_cons, List.foldl_nil, hfirst, hfinal]
  simp

/-- Settles O28: the steps of Table 3-9, the three words along their checks, and the one record of atomics on one word. -/
theorem laneAtomics : Obligations.LaneAtomics := by
  refine ⟨fun type width w x c => ⟨rfl, rfl, rfl, rfl, rfl, rfl, ?_⟩, fun l s s₁ active k bc r es hactive hmark hbc hrec hindex => ⟨?_, ?_, ?_⟩,
    fun s returning n ws x v => emitAtomic_one s returning n⟩
  · rintro rfl hw hx
    exact atomicMin_word c hw hx
  · intro i win hi hdet op n hdest hcas hvalue hsize hrelease hes
    exact (exec_laneAtomic hi s).trans (outcome_of_does (laneAtomic_does hactive hmark hbc hrec hindex rfl hdet hdest hcas hvalue hsize hrelease hes))
  · intro hvalue hsize hrelease win hes
    exact outcome_of_does (laneHist_does hactive hmark hbc hrec hindex hvalue hsize hrelease hes)
  · intro hgood
    exact outcome_of_does (lanePrefetch_does hactive hmark hbc hrec hindex hgood)

end Sys2Proof.Machine
end

