-- ==== Sys2Proof/Proofs/TileElements.lean ====
section
/-! PROOFS. O32: reading and writing tiles (spec/03 R69, R75, spec/14 R366 to R369, R372, R373). -/

namespace Sys2Proof.Machine

/-! ## Flags (R201, R202) -/

/-- An instruction that raises its flags sets them and does no more. -/
theorem raiseFlags_sets {ls : List (Nat × FpFlags)} {s t : State} (h : Does (raiseFlags ls) s () t) :
    t = { s with g := s.g.setFlags (ls.foldl (fun a p => a.or p.2) {}) } := by
  have hrun : runAct (raiseFlags ls) s = (.ok (), t) := h
  rw [raiseFlags, runAct_bind_gives (act_get s), act_ite] at hrun
  split at hrun
  · simp at hrun
  · exact (congrArg Prod.snd hrun).symm

/-! ## TRD (R366, R368) -/

/-- The registers that TRD writes. -/
def trdRegs (l : Lane) (n : Nat) (res : List (Nat × List (Fp Nat))) : List (Nat × Nat × Word32) :=
  res.flatMap fun r => ((List.range n).zip r.2).map fun x => (l.vd.toNat + x.1, r.1, BitVec.ofNat 32 x.2.val)

/-- The rows of a tile that TRD reads. -/
def trdRows (t : Tile) (recon : Bool) (row : Nat) (active : Word32) : List Nat :=
  (if recon then (List.range 32).map (row + ·) else (lanesOf active).map (row + ·)).filter (· < t.rows)

section
variable {l : Lane} {s s₁ : State} {active : Word32} {k : Option Nat} {t : Tile} {w : Word64}
  (hstart : Gives (laneStart l) s (active, k)) (hactive : active ≠ 0)
include hstart hactive

theorem trd_does {n : Nat} {p : Pos} {recon : Bool} (hn : l.imm.toNat % 64 + 1 = n) (hp : posOf w = p) (hrecon : (t.dom != 0 && !l.imm.getLsbD 6) = recon)
    (hdest : Gives (checkV active l.vd.toNat n) s ()) (htile : Gives (useTile active l.va) s t) (hpos : Gives (readS (sregOf l.vb)) s w)
    (hblock : recon = true → p.row % 32 = 0)
    (hrows : Gives (checkRows active t (trdRows t recon p.row active) ((colsIn p.col n t.cols).map (p.col + ·))) s ())
    (hflags : Does (raiseFlags ((lowLane active, { (s.readRows t p n recon (lanesOf active)).2 with nan := false })
      :: (s.readRows t p n recon (lanesOf active)).1.map fun r => (r.1, flagsOf r.2))) s () s₁) :
    Does (trd l) s () ((s₁.setVs (trdRegs l n (s.readRows t p n recon (lanesOf active)).1)).retire 3) := by
  subst hn hp hrecon
  have hset (u : State) (m : Nat) (res : List (Nat × List (Fp Nat))) :
      res.foldl (fun s r => ((List.range m).zip r.2).foldl
          (fun s x => s.setV (l.vd.toNat + x.1) r.1 (BitVec.ofNat 32 x.2.val)) s) u = u.setVs (trdRegs l m res) := by
    rw [State.setVs, trdRegs, List.foldl_flatMap]
    simp only [List.foldl_map]
  rw [← hset]
  refine gives_bind hstart (gives_bind hdest (gives_bind (checkTile_gives (useTile_gives htile).1) (does_else hactive (gives_bind htile (gives_bind hpos
    (does_checked (fun h => ?_) (gives_bind hrows (gives_bind (act_get s) (does_bind hflags (does_bind (does_modify _ s₁) (act_retire 3 _)))))))))))
  simp only [Bool.and_eq_true, bne_iff_ne, ne_eq] at h hblock
  exact absurd (hblock (by simpa using h.1)) h.2

end

@[simp] theorem length_rowCodes (s : State) (t : Tile) (row : Nat) : (s.rowCodes t row).length = t.cols := by simp [State.rowCodes]

@[simp] theorem length_rowValues (s : State) (t : Tile) (row : Nat) : (s.rowValues t row).length = t.cols := by simp [State.rowValues]

/-- R366: what TRD reads at a position, zero outside the tile. -/
def State.tileElem (s : State) (t : Tile) (row col : Nat) : Fp Nat :=
  if row < t.rows ∧ col < t.cols then readElem t ((s.rowCodes t row).getD col 0) ((s.rowValues t row).getD col (zeroVal false)) else { val := 0 }

/-- Without reconstruction a lane takes the elements of its row from the first column on. -/
theorem readRows_plain (s : State) (t : Tile) (p : Pos) (n : Nat) (lanes : List Nat) :
    (s.readRows t p n false lanes).1 = lanes.map fun i => (i, (List.range n).map fun j => s.tileElem t (p.row + i) (p.col + j)) := by
  refine List.map_congr_left fun i _ => ?_
  dsimp only
  by_cases hrow : p.row + i < t.rows
  · rw [if_pos hrow]
    refine congrArg (Prod.mk i) (List.map_congr_left fun j _ => ?_)
    by_cases hcol : p.col + j < t.cols
    · simp [State.tileElem, hrow, hcol]
    · simp [State.tileElem, hcol]
  · rw [if_neg hrow]
    refine congrArg (Prod.mk i) (List.ext_getElem (by simp) fun j _ _ => ?_)
    simp [State.tileElem, hrow]

/-- What TRD reads for a lane: `n` values. -/
theorem readRows_lanes (s : State) (t : Tile) (p : Pos) (n : Nat) (recon : Bool) (lanes : List Nat) :
    ∃ f : Nat → List (Fp Nat), (s.readRows t p n recon lanes).1 = lanes.map (fun i => (i, f i)) ∧ ∀ i, (f i).length = n := by
  cases recon with
  | true => exact ⟨_, rfl, fun i => by simp⟩
  | false => exact ⟨_, readRows_plain s t p n lanes, fun i => by simp⟩

/-- The values of a lane, found by its number. -/
theorem found_lane {α : Type} {lanes : List Nat} {i : Nat} (hi : i ∈ lanes) (f : Nat → List α) :
    (((lanes.map fun i => (i, f i)).find? fun r => r.1 == i).map Prod.snd).getD [] = f i := by
  have hfound : lanes.find? (fun m => m == i) = some i := by
    obtain ⟨m, hm⟩ := Option.isSome_iff_exists.1 ((List.find?_isSome (p := fun m => m == i)).2 ⟨i, hi, beq_self_eq_true i⟩)
    exact hm.trans (congrArg some (beq_iff_eq.1 (List.find?_some (p := fun m => m == i) hm)))
  rw [List.find?_map]
  simp [hfound]

section
variable {l : Lane} {n : Nat} {lanes : List Nat} {f : Nat → List (Fp Nat)}

theorem trdRegs_mem {x : Nat × Nat × Word32} (h : x ∈ trdRegs l n (lanes.map fun i => (i, f i))) :
    x.2.1 ∈ lanes ∧ l.vd.toNat ≤ x.1 ∧ x.1 < l.vd.toNat + n := by
  obtain ⟨r, hr, hx⟩ := List.mem_flatMap.1 h
  obtain ⟨i, hi, rfl⟩ := List.mem_map.1 hr
  obtain ⟨y, hy, rfl⟩ := List.mem_map.1 hx
  have hlt := List.mem_range.1 (List.of_mem_zip hy).1
  exact ⟨hi, Nat.le_add_right _ _, Nat.add_lt_add_left hlt _⟩

theorem trdRegs_of (hf : ∀ i, (f i).length = n) {i j : Nat} (hi : i ∈ lanes) (hj : j < n) :
    (l.vd.toNat + j, i, BitVec.ofNat 32 ((f i).getD j { val := 0 }).val) ∈ trdRegs l n (lanes.map fun i => (i, f i)) := by
  refine List.mem_flatMap.2 ⟨_, List.mem_map.2 ⟨i, hi, rfl⟩, List.mem_map.2 ⟨(j, (f i).getD j { val := 0 }), ?_, rfl⟩⟩
  have hj' : j < (f i).length := (hf i).symm ▸ hj
  exact List.mem_iff_getElem?.2 ⟨j, by simp [hj, hj']⟩

theorem trdRegs_nodup (hl : lanes.Nodup) (hf : ∀ i, (f i).length = n) : ((trdRegs l n (lanes.map fun i => (i, f i))).map fun x => (x.1, x.2.1)).Nodup := by
  have hregs (i : Nat) : ((List.range n).zip (f i)).map (fun x => (l.vd.toNat + x.1, i)) = (List.range n).map fun j => (l.vd.toNat + j, i) := by
    rw [← List.map_fst_zip (l₁ := List.range n) (l₂ := f i) (by simp [hf i]), List.map_map, List.map_fst_zip (by simp [hf i])]
    rfl
  rw [trdRegs, List.flatMap_map, List.map_flatMap, List.nodup_flatMap]
  simp only [List.map_map, Function.comp_def, hregs]
  refine ⟨fun i _ => List.nodup_range.map fun a b hab => Nat.add_left_cancel (Prod.ext_iff.1 hab).1, hl.imp fun {i i'} hne => ?_⟩
  intro x hx hy
  obtain ⟨a, -, rfl⟩ := List.mem_map.1 hx
  obtain ⟨b, -, hab⟩ := List.mem_map.1 hy
  exact hne (Prod.ext_iff.1 hab).2.symm

end

theorem nodup_lanesOf (active : Word32) : (lanesOf active).Nodup := List.nodup_range.filter _

theorem mem_lanesOf {active : Word32} {i : Nat} : i ∈ lanesOf active ↔ i < 32 ∧ active.getLsbD i = true := by simp [lanesOf]

/-- R366, R368: TRD writes the lanes' registers and no other, with the values that it reads. -/
theorem trd_writes {l : Lane} {s s₁ : State} {active : Word32} {t : Tile} {p : Pos} {n : Nat} {recon : Bool} {ls : List (Nat × FpFlags)}
    (hflags : Does (raiseFlags ls) s () s₁) :
    let res := (s.readRows t p n recon (lanesOf active)).1
    let u := (s₁.setVs (trdRegs l n res)).retire 3
    (∀ r i, i < 32 → ¬ (l.vd.toNat ≤ r ∧ r < l.vd.toNat + n ∧ active.getLsbD i = true) → u.g.vreg r i = s.g.vreg r i)
      ∧ (∀ i j, i ∈ lanesOf active → j < n → u.g.vreg (l.vd.toNat + j) i =
          BitVec.ofNat 32 ((((res.find? fun r => r.1 == i).map Prod.snd).getD []).getD j { val := 0 }).val)
      ∧ u.g.sregs = s.g.sregs ∧ u.w = s.w ∧ ∀ a, u.byte a = s.byte a := by
  obtain ⟨f, hres, hf⟩ := readRows_lanes s t p n recon (lanesOf active)
  intro res u
  have hregs : trdRegs l n res = trdRegs l n ((lanesOf active).map fun i => (i, f i)) := congrArg (trdRegs l n) hres
  have hlanes : ∀ x ∈ trdRegs l n res, x.2.1 < 32 := fun x hx => by
    rw [hregs] at hx
    exact (mem_lanesOf.1 (trdRegs_mem hx).1).1
  have hs₁ := raiseFlags_sets hflags
  have hu : ∀ r i, u.g.vreg r i = (s₁.setVs (trdRegs l n res)).g.vreg r i :=
      fun r i => congrArg (fun m : SMap 32 => m.get (32 * r + i)) (State.retireAt_g_vregs _ 3 _)
  refine ⟨fun r i hi hout => ?_, fun i j hi hj => ?_, ?_, ?_, fun a => ?_⟩
  · rw [hu, vreg_setVs_other hlanes hi, hs₁]
    · rfl
    · rintro x hx ⟨rfl, rfl⟩
      rw [hregs] at hx
      obtain ⟨hlane, hlow, hhigh⟩ := trdRegs_mem hx
      exact hout ⟨hlow, hhigh, (mem_lanesOf.1 hlane).2⟩
  · have hfound : ((res.find? fun r => r.1 == i).map Prod.snd).getD [] = f i := by
      rw [show res = (lanesOf active).map fun i => (i, f i) from hres]
      exact found_lane hi f
    rw [hu, hfound]
    exact vreg_setVs_mem hlanes (hregs ▸ trdRegs_nodup (nodup_lanesOf active) hf) (hregs ▸ trdRegs_of hf hi hj)
  · rw [show u.g.sregs = _ from State.retireAt_g_sregs _ 3 _, setVs_frame, hs₁]
    rfl
  · rw [show u.w = _ from w_retire _ 3, setVs_frame, hs₁]
  · exact byte_of_mem (by rw [show u.mem = _ from State.retireAt_mem _ 3 _, setVs_frame, hs₁]) a

/-! ## TWR, HTWR and HREC (R369, R372, R373) -/

/-- Flags are raised, then the rows written. -/
theorem writeRows_does {n : Nat} {others : List (Nat × FpFlags)} {rows : List (Nat × Fp RowWrite)} {s s₁ : State}
    (hflags : Does (raiseFlags (others ++ rows.map fun r => (r.1, r.2.fl))) s () s₁) :
    Does (writeRows n others rows) s () (rows.foldl (fun u r => u.writeRow n r.2.val) s₁) := does_bind hflags (does_modify _ s₁)

section
variable {l : Lane} {s s₁ : State} {active : Word32} {k : Option Nat} {t : Tile} {w : Word64}
  (hstart : Gives (laneStart l) s (active, k)) (hactive : active ≠ 0)
  (htile : Gives (useTile active l.vd) s t)
include hstart hactive htile

section
variable {n : Nat} {p : Pos} (hn : l.imm.toNat % 64 + 1 = n) (hp : posOf w = p) (hvalues : Gives (useV active l.va n) s ())
  (hpos : Gives (readS (sregOf l.vb)) s w) (hblocks : wholeBlocks t p.col n = true)
include hn hp hvalues hpos hblocks

theorem twr_does {rows : List (Nat × Fp RowWrite)} {live cols : List Nat} (hcols : colsIn p.col n t.cols = cols)
    (hlive : ((lanesOf active).filter fun i => decide (p.row + i < t.rows) && !cols.isEmpty) = live)
    (hrows : (live.map fun i => (i, rowWrite t (p.row + i) p.col (s.tileRounder l.rm.toNat (p.row + i)) (decide (l.sat = 1)) true (cols.map fun j =>
      if isIntFmt t.fmt then valOfInt (s.g.vreg (l.va.toNat + j) i).toInt else fp32.value (s.g.vreg (l.va.toNat + j) i).toNat))) = rows)
    (hkept : Gives (checkKept active t (live.map (p.row + ·)) (cols.map (p.col + ·))) s ())
    (hflags : Does (raiseFlags (rows.map fun r => (r.1, r.2.fl))) s () s₁) :
    Does (twr l) s () ((rows.foldl (fun u r => u.writeRow l.vd.toNat r.2.val) s₁).retire 3) := by
  subst hn hp hcols hlive hrows
  exact gives_bind hstart (gives_bind hvalues (gives_bind (checkTile_gives (useTile_gives htile).1) (does_else hactive (gives_bind htile (gives_bind hpos
    (does_checked (fun h => absurd h (by simp [hblocks])) (gives_bind (act_get s) (gives_bind hkept
      (does_bind (writeRows_does (others := []) hflags) (act_retire 3 _))))))))))

theorem htwr_does {rows : List (Nat × Fp RowWrite)} {cols lines : List Nat} {outs : List (List Val × FpFlags)} {h : Val}
    (hdom : t.dom ≠ 0) (hfmt : t.fmt ≤ 7) (hblock : p.row % 32 = 0)
    (hcols : (if p.row < t.rows then colsIn p.col n t.cols else []) = cols) (hh : fp32.value (s.g.hregs.get (l.vc.toNat % 8)).toNat = h)
    (houts : (cols.map fun j => haarForward t.dom
      ((List.range 32).map fun i => if active.getLsbD i then fp32.value (s.g.vreg (l.va.toNat + j) i).toNat else zeroVal false)) = outs)
    (hlines : (if cols.isEmpty then [] else List.range 32) = lines)
    (hrows : (lines.map fun i => (i, rowWrite t (p.row + i) p.col (s.tileRounder l.rm.toNat (p.row + i)) (decide (l.sat = 1)) false
      (outs.map fun o => thresholdVal h (o.1.getD i (zeroVal false))))) = rows)
    (hkept : Gives (checkKept active t (lines.map (p.row + ·)) (cols.map (p.col + ·))) s ())
    (hflags : Does (raiseFlags ((lowLane active, { outs.foldl (fun (a : FpFlags) o => a.or o.2) {} with nan := false }) ::
        rows.map fun r => (r.1, r.2.fl))) s () s₁) :
    Does (htwr l) s () ((rows.foldl (fun u r => u.writeRow l.vd.toNat r.2.val) s₁).retire 3) := by
  subst hn hp hcols hh houts hlines hrows
  exact gives_bind hstart (gives_bind hvalues (gives_bind (checkTile_gives (useTile_gives htile).1) (does_else hactive (gives_bind htile (gives_bind hpos
    (does_checked (fun h => absurd h (by simp [hblocks, hdom, hfmt, hblock])) (gives_bind (act_get s) (gives_bind hkept
      (does_bind (writeRows_does (others := [_]) hflags) (act_retire 3 _))))))))))

end

theorem hrec_plain (hdom : t.dom = 0) : Does (hrec l) s () (s.unhang.retire 3) :=
  gives_bind hstart (gives_bind (checkTile_gives (useTile_gives htile).1) (does_else hactive (gives_bind htile (does_then hdom (act_retireWork 3 s)))))

theorem hrec_does {out : List (Fp RowWrite) × FpFlags} {s₂ s₃ : State} (hdom : t.dom ≠ 0)
    (hrows : Gives (checkRows active t (List.range t.rows) (List.range t.cols)) s ())
    (hout : s.reconRows t l.rm.toNat (decide (l.sat = 1)) = out)
    (hflags : Does (raiseFlags ((lanesOf active).map fun i => (i, { out.2.or (flagsOf out.1) with nan := (flagsOf out.1).nan }))) s () s₁)
    (hs₂ : out.1.foldl (fun u r => u.writeRow l.vd.toNat r.val) s₁ = s₂) (hs₃ : s₂.setTile l.vd.toNat { s₂.tile l.vd.toNat with dom := 0 } = s₃) :
    Does (hrec l) s () ((s₃.issued .tileOp (.hrec l) active k { tiles := [(l.vd.toNat, true)] }).unhang.retire 3) := by
  subst hout hs₂ hs₃
  refine gives_bind hstart (gives_bind (checkTile_gives (useTile_gives htile).1) (does_else hactive (gives_bind htile (does_else hdom
    (gives_bind hrows (gives_bind (act_get s) (does_bind hflags (does_bind (does_modify _ s₁) (does_bind (does_modify _ _)
      (does_bind (issueCommand_does _ _ _ _ (.inl rfl)) ?_))))))))))
  rw [issued_eq _ _ _ _ (.inl rfl)]
  exact act_retireWork 3 _

end

/-! ## One row is written (R75, R367) -/

/-- A place of row `row` of a tile: a byte of its elements, or one of its first `nb` scales. -/
def Tile.inRow (t : Tile) (row nb off : Nat) : Prop := (∃ j, j < t.rowBytes ∧ off = t.byteAt row j) ∨ ∃ j, j < nb ∧ off = t.scaleAt row j

/-- A row is revived and written; its survivor bit is not yet tested. -/
def State.rowStored (s : State) (t : Tile) (r : RowWrite) : State :=
  (r.blocks.foldl (fun s b =>
    let s := s.writeScale t r.row b.1 b.2.scale
    match b.2.codes with
    | none => s
    | some cs => s.writeCodes t r.row (((List.range cs.length).zip cs).map fun c => (32 * b.1 + c.1, c.2))) (s.revive t r)).writeCodes t r.row r.codes

/-- The scales that the writing of a row can reach. -/
def RowWrite.scales (r : RowWrite) (t : Tile) : Nat := max t.blocks (r.blocks.foldl (fun m b => max m (b.1 + 1)) 0)

theorem le_scalesFrom (bs : List (Nat × Block)) : ∀ a, a ≤ bs.foldl (fun m b => max m (b.1 + 1)) a
    ∧ ∀ b ∈ bs, b.1 < bs.foldl (fun m b => max m (b.1 + 1)) a := by
  induction bs with
  | nil => exact fun a => ⟨le_rfl, fun b hb => absurd hb (List.not_mem_nil)⟩
  | cons c bs ih =>
    intro a
    obtain ⟨hle, hmem⟩ := ih (max a (c.1 + 1))
    refine ⟨(le_max_left _ _).trans hle, fun b hb => ?_⟩
    rcases List.mem_cons.1 hb with rfl | hb
    · exact (le_max_right a _).trans hle
    · exact hmem b hb

theorem lt_scales {r : RowWrite} {b : Nat × Block} (t : Tile) (h : b ∈ r.blocks) : b.1 < r.scales t :=
  lt_max_of_lt_right ((le_scalesFrom r.blocks 0).2 b h)

section
variable {β : Type} {view : State → β} {t : Tile} {row nb : Nat}
  (hview : ∀ (s : State) (ws : List (Nat × Byte)), (∀ x ∈ ws, t.inRow row nb x.1) → view (s.winStore 1 ws) = view s)
include hview

theorem writeCodes_keeps (s : State) (cells : List (Nat × Nat)) : view (s.writeCodes t row cells) = view s := by
  unfold State.writeCodes
  split
  · rfl
  · refine hview s _ fun x hx => ?_
    obtain ⟨j, hj, rfl⟩ := List.mem_map.1 hx
    exact .inl ⟨j, List.mem_range.1 (List.mem_filter.1 hj).1, rfl⟩

theorem writeScale_keeps (s : State) {j : Nat} (hj : j < nb) (v : Nat) : view (s.writeScale t row j v) = view s :=
  hview s _ fun x hx => .inr ⟨j, hj, by rw [List.mem_singleton.1 hx]⟩

end

section
variable {β : Type} {view : State → β} {t : Tile} {r : RowWrite}
  (hview : ∀ (s : State) (ws : List (Nat × Byte)), (∀ x ∈ ws, t.inRow r.row (r.scales t) x.1) → view (s.winStore 1 ws) = view s)
include hview

theorem revive_keeps (s : State) : view (s.revive t r) = view s := by
  unfold State.revive
  split
  · rfl
  · split
    · refine foldl_keeps view (fun u j hj => ?_) s
      have hlt : j < r.scales t := lt_max_of_lt_left (List.mem_range.1 (List.mem_filter.1 hj).1)
      dsimp only
      split
      · exact (writeCodes_keeps hview _ _).trans (writeScale_keeps hview u hlt _)
      · exact writeScale_keeps hview u hlt _
    · exact writeCodes_keeps hview s _

/-- What a store into the row keeps, the writing of the row keeps. -/
theorem rowStored_keeps (s : State) : view (s.rowStored t r) = view s := by
  refine (writeCodes_keeps hview _ _).trans ((foldl_keeps view (fun u b hb => ?_) _).trans (revive_keeps hview s))
  have hscale := writeScale_keeps hview u (lt_scales t hb) b.2.scale
  dsimp only
  split
  · exact hscale
  · exact (writeCodes_keeps hview _ _).trans hscale

end

/-- A row inside its tile is stored, then its survivor bit set or cleared. -/
theorem writeRow_stores {s : State} {n : Nat} {r : RowWrite} (h : ¬ (s.tile n).rows ≤ r.row) :
    ∃ alive : Bool, s.writeRow n r = (s.rowStored (s.tile n) r).setTile n { (s.rowStored (s.tile n) r).tile n with
      surv := if alive then ((s.rowStored (s.tile n) r).tile n).surv ||| (1#128 <<< r.row)
        else ((s.rowStored (s.tile n) r).tile n).surv &&& ~~~(1#128 <<< r.row) } :=
  ⟨_, if_neg h⟩

theorem tiles_winStore (s : State) (ws : List (Nat × Byte)) : (s.winStore 1 ws).w.tiles = s.w.tiles :=
  winStore_keeps (fun t : State => t.w.tiles) (fun _ _ _ _ _ => rfl) s 1 ws

theorem tile_setSurv (s : State) (n : Nat) (v : BitVec 128) : (s.setTile n { s.tile n with surv := v }).tile n = { s.tile n with surv := v } :=
  tile_setTile s n v (ofBits_dom_lt _) (bitsOf_lt _ _ _) (ofBits_gen_lt _)

/-- R75: of its entry the row's survivor bit alone follows. -/
theorem survivor_bits (surv : BitVec 128) (alive : Bool) {row j : Nat} (h : j ≠ row) :
    (if alive then surv ||| (1#128 <<< row) else surv &&& ~~~(1#128 <<< row)).getLsbD j = surv.getLsbD j := by
  have hbit : (1#128 <<< row).getLsbD j = false := by
    rw [BitVec.getLsbD_shiftLeft, BitVec.getLsbD_one, Bool.eq_false_iff]
    simp only [ne_eq, Bool.and_eq_true, decide_eq_true_eq, Bool.not_eq_true', decide_eq_false_iff_not]
    omega
  cases alive with
  | true =>
    rw [if_pos rfl, BitVec.getLsbD_or, hbit, Bool.or_false]
  | false =>
    rw [if_neg Bool.false_ne_true, BitVec.getLsbD_and, BitVec.getLsbD_not, hbit]
    by_cases hj : j < 128
    · simp [hj]
    · rw [BitVec.getLsbD_of_ge _ _ (Nat.le_of_not_lt hj), Bool.false_and]

section
variable (s : State) (n : Nat) (r : RowWrite)

theorem tile_rowStored (t : Tile) (m : Nat) : (s.rowStored t r).tile m = s.tile m :=
  congrArg (fun tiles : SMap 256 => Tile.ofBits (tiles.get m)) (rowStored_keeps (view := fun u => u.w.tiles) (fun u ws _ => tiles_winStore u ws) s)

/-- A view of the state that neither a store into the row nor the entry's write-back changes is kept. -/
theorem writeRow_keeps {β : Type} {view : State → β}
    (hview : ∀ (u : State) (ws : List (Nat × Byte)), (∀ x ∈ ws, (s.tile n).inRow r.row (r.scales (s.tile n)) x.1) → view (u.winStore 1 ws) = view u)
    (hback : ∀ (u : State) (tiles : SMap 256), view { u with w := { u.w with tiles := tiles } } = view u) : view (s.writeRow n r) = view s := by
  by_cases h : (s.tile n).rows ≤ r.row
  · exact congrArg view (if_pos h)
  · obtain ⟨alive, hstores⟩ := writeRow_stores h
    rw [hstores]
    exact (hback _ _).trans (rowStored_keeps hview s)

theorem tile_writeRow_other {m : Nat} (h : m ≠ n) : (s.writeRow n r).tile m = s.tile m := by
  by_cases hrow : (s.tile n).rows ≤ r.row
  · exact congrArg (State.tile · m) (if_pos hrow)
  · obtain ⟨alive, hstores⟩ := writeRow_stores hrow
    rw [hstores, tile_setTile_other _ h, tile_rowStored]

theorem tile_writeRow : ∃ v, (s.writeRow n r).tile n = { s.tile n with surv := v } ∧ ∀ j, j ≠ r.row → v.getLsbD j = (s.tile n).surv.getLsbD j := by
  by_cases hrow : (s.tile n).rows ≤ r.row
  · exact ⟨(s.tile n).surv, congrArg (State.tile · n) (if_pos hrow), fun _ _ => rfl⟩
  · obtain ⟨alive, hstores⟩ := writeRow_stores hrow
    rw [hstores]
    rw [tile_setSurv, tile_rowStored]
    exact ⟨_, rfl, fun j hj => survivor_bits _ alive hj⟩

end

theorem posOf_eq (w : Word64) : posOf w = ⟨w.toNat % 128, w.toNat / 65536 % 512⟩ := by rw [posOf, bitsOf_low]; rfl

/-- Settles O32: TRD, TWR, HTWR and HREC along their checks, what TRD writes, and what the writing of a row leaves unchanged. -/
theorem tileElements : Obligations.TileElements := by
  refine ⟨?_, ?_, fun s n r => ⟨?_, fun m => tile_writeRow_other s n r, tile_writeRow s n r, ?_, ?_, fun a => ?_⟩⟩
  · intro l s s₁ active k t w hstart hactive n row col recon hdest htile hpos hblock hrows out hflags
    have hrecon : (t.dom != 0 && !l.imm.getLsbD 6) = true ↔ recon := by simp [recon]
    refine ⟨⟨_, outcome_of_does (trd_does hstart hactive rfl (posOf_eq w) rfl hdest htile hpos (fun h => hblock (hrecon.1 h)) hrows hflags),
      trd_writes hflags⟩, fun hplain i j hi hj => ?_⟩
    have hread : out.1 = (lanesOf active).map fun i => (i, (List.range n).map fun j => s.tileElem t (row + i) (col + j)) := by
      rw [← readRows_plain s t ⟨row, col⟩, ← Bool.eq_false_iff.2 (mt hrecon.1 hplain)]
    rw [hread, found_lane hi]
    simp [hj, State.tileElem]
  · intro l s s₁ active k t w hstart hactive n row col sat written htile
    refine ⟨fun hvalues hpos hblocks => ⟨?_, fun hdom hfmt hblock => ?_⟩, fun hdom => ?_, fun hdom hrows => ?_⟩
    · intro cols live rows hkept hflags
      exact outcome_of_does (twr_does hstart hactive htile rfl (posOf_eq w) hvalues hpos hblocks rfl rfl rfl hkept hflags)
    · intro cols h outs rows hkept hflags
      exact outcome_of_does (htwr_does hstart hactive htile rfl (posOf_eq w) hvalues hpos hblocks hdom hfmt hblock rfl rfl rfl rfl rfl hkept hflags)
    · exact outcome_of_does (hrec_plain hstart hactive htile hdom)
    · intro out hflags s₂ s₃
      exact outcome_of_does (hrec_does hstart hactive htile hdom hrows rfl hflags rfl rfl)
  · intro off hbytes hscales
    refine writeRow_keeps s n r (view := fun u => u.winByte 1 off) (fun u ws hws => winByte_winStore_other fun x hx heq => ?_) fun _ _ => rfl
    rcases hws x hx with ⟨j, hj, hoff⟩ | ⟨j, hj, hoff⟩
    · exact hbytes j hj (heq.symm.trans hoff)
    · exact hscales j hj (heq.symm.trans hoff)
  · exact writeRow_keeps s n r (view := fun u => u.g.sregs) (fun u ws _ => (regs_winStore u ws).1) fun _ _ => rfl
  · exact writeRow_keeps s n r (view := fun u => u.g.vregs) (fun u ws _ => (regs_winStore u ws).2) fun _ _ => rfl
  · exact byte_of_mem (writeRow_keeps s n r (view := fun u => u.mem) (fun u ws _ => mem_winStore u 1 ws) fun _ _ => rfl) a

end Sys2Proof.Machine
end

