-- ==== Sys2Proof/Proofs/Completion.lean ====
section
/-! PROOFS. O52: completion of workgroups and nodes, and the exchange of twins (spec/03 R65, spec/04 R111, spec/08 R233 to R236, spec/09 R237 to R239). -/

namespace Sys2Proof.Machine

/-! ## Numbers that the device stores (R39, R49) -/

theorem num_lt (s : State) (x n : Nat) : s.num x n < 2 ^ (8 * n) := by
  have h := natOf_lt (s.bytes x n)
  rwa [State.bytes, List.length_map, List.length_range] at h

theorem num_congr {s t : State} {x n : Nat} (h : ∀ i, i < n → t.byte (x + i) = s.byte (x + i)) : t.num x n = s.num x n :=
  congrArg natOf (List.map_congr_left fun i hi => h i (List.mem_range.1 hi))

/-- A place of package-local memory outside the carve-outs keeps what is stored there. -/
def inMemory (a : Nat) : Prop := inCarve a = false ∧ isLocal a = true

theorem not_hole {a : Nat} (h : isLocal a = true) : isHole (basePa a) = false := by
  have hdie : dieOf a < 4 := by
    by_contra hge
    have hsize : winSize (dieOf a) = 0 := by
      unfold winSize
      rw [if_neg (by omega), if_neg (by omega)]
    simp [isLocal, hsize] at h
  have hbase : basePa a = a := Nat.mod_eq_of_lt (by unfold dieOf at hdie; unfold paSize; omega)
  rw [hbase, isHole, h, Bool.true_or, Bool.not_true]

section
variable {a : Nat} (ha : inCarve a = false)
include ha

theorem byte_plainLines (s : State) (addrs : List Nat) : (s.plainLines addrs).byte a = s.byte a :=
  foldl_keeps (State.byte · a) (fun t x _ => byte_plainRequest ha t x) s

theorem byte_storeNum_other {x n : Nat} (h : a < x ∨ x + n ≤ a) (s : State) (v : Nat) : (s.storeNum x n v).byte a = s.byte a := by
  have hcells : ∀ p ∈ cellsAt x (bytesOf n v), p.1 ≠ a := fun p hp => by
    obtain ⟨i, hi, hpi⟩ := mem_cellsAt hp
    rw [length_bytesOf] at hi
    omega
  exact (byte_devStore_other hcells _).trans (byte_plainLines ha s _)

end

theorem num_storeNum {x n : Nat} (h : ∀ i, i < n → inMemory (x + i)) (s : State) (v : Nat) : (s.storeNum x n v).num x n = v % 2 ^ (8 * n) := by
  have hnum := num_eq_of_bytes (t := s.storeNum x n v) (pa := x) (bs := bytesOf n v) fun i hi => by
    obtain ⟨hcarve, hlocal⟩ := h i (by rwa [length_bytesOf] at hi)
    exact (byte_of_mem (mem_devStore _ _) _).trans (byte_put_mem (nodup_cellsAt x _) (cell_mem hi) hcarve (not_hole hlocal) _)
  rwa [length_bytesOf, natOf_bytesOf] at hnum

theorem num_storeNum_other {x n y m : Nat} (hcarve : ∀ i, i < m → inMemory (y + i)) (h : y + m ≤ x ∨ x + n ≤ y) (s : State) (v : Nat) :
    (s.storeNum x n v).num y m = s.num y m :=
  num_congr fun i hi => byte_storeNum_other (hcarve i hi).1 (by omega) s v

/-! ## A workgroup completes (R65) -/

theorem wgDone_frees {s : State} {w : WgId} {x : Workgroup} (hw : s.wg? w = some x) :
    (s.wgDone x).wg? w = none ∧ (∀ g ∈ (s.wgDone x).others, wgOf g.id ≠ w) ∧ x.saveEntry ∉ (s.wgDone x).saveUsed
      ∧ (s.wgDone x).node? w.node = (s.node? w.node).map (fun n => { n with complete := n.complete + 1 }) ∧ ∀ a, (s.wgDone x).byte a = s.byte a := by
  obtain rfl := wg?_id hw
  have hframe : ∃ t : State, s.wgDone x = t.modNode x.id.node (fun n => { n with complete := n.complete + 1 }) ∧ t.wg? x.id = none
      ∧ t.others = s.others.filter (fun g => !(wgOf g.id == x.id)) ∧ t.saveUsed = s.saveUsed.filter (fun e => e != x.saveEntry)
      ∧ t.nodes = s.nodes ∧ t.mem = s.mem := by
    have hnone : (s.otherWgs.filter fun y => y.id != x.id).find? (fun y => y.id == x.id) = none := List.find?_eq_none.2 fun y hy => by
      simpa using (List.mem_filter.1 hy).2
    refine ⟨_, rfl, ?_⟩
    split
    · exact ⟨(if_neg (by simp)).trans hnone, rfl, rfl, rfl, rfl⟩
    · next hlive => exact ⟨(if_neg hlive).trans hnone, rfl, rfl, rfl, rfl⟩
  obtain ⟨t, hdone, hwg, hothers, hsave, hnodes, hmem⟩ := hframe
  rw [hdone]
  refine ⟨hwg, fun g hg => ?_, fun hin => ?_, ?_, fun a => byte_of_mem hmem a⟩
  · have hg' : g ∈ t.others := hg
    rw [hothers] at hg'
    simpa using (List.mem_filter.1 hg').2
  · have hin' : x.saveEntry ∈ t.saveUsed := hin
    rw [hsave] at hin'
    simp at hin'
  · rw [modNode_node? (f := fun n => { n with complete := n.complete + 1 }) (fun _ => rfl), State.node?, hnodes, State.node?]

/-! ## A node is DONE (R239) -/

/-- A node leaves the scheduler: its grants, its arrivals and its pool go. -/
def State.leaveSched (s : State) (ix : Nat) : State :=
  let gone := s.grants.filter fun g => g.node == ix && g.quad.isNone
  { s with
    ranSince := s.ranSince.map fun (l : List Nat) => if l.contains ix then l else ix :: l
    nodes := s.nodes.filter fun x => x.index != ix
    arrivals := s.arrivals.filter fun a => a.home / 2 ^ 32 != ix
    poolUsed := s.poolUsed.filter fun p => !(gone.any fun g => g.die.toNat == p.1 && g.base == p.2.1)
    grants := s.grants.filter fun g => g.node != ix }

/-- RUNS of a node that becomes DONE. -/
def State.runsNext (s : State) (ix : Nat) : Nat :=
  match s.ranSince with
  | none => s.num (s.nodePa ix + 90) 4 + 1
  | some l => if l.contains ix then s.num (s.nodePa ix + 90) 4 + 1 else 1

/-- A node leaves the scheduler, and its descriptor says so. -/
def State.described (s : State) (ix status : Nat) : State :=
  let u := s.readDesc ix
  (((u.leaveSched ix).setDesc ix 89 1 status).setDesc ix 90 4 (u.runsNext ix % 2 ^ 32)).setNodeState ix 4

/-- The host is interrupted if IRQ = 1. -/
def State.interrupted (s : State) (n : Node) : State := if n.f 104 1 = 1 then s.raiseVector 1 else s

theorem doneNode_eq {s u : State} {n : Node} {status : Nat} {succ : List Nat} (h : (if status = 0 then s.successors n else (s, some [])) = (u, some succ)) :
    s.doneNode n status = (if status = 0 then succ.foldl State.release (u.described n.index status) else u.described n.index status).interrupted n := by
  have hfold (u : State) : ({ u with
      ranSince := u.ranSince.map fun (l : List Nat) => if l.contains n.index then l else n.index :: l
      nodes := u.nodes.filter fun x => x.index != n.index
      arrivals := u.arrivals.filter fun a => a.home / 2 ^ 32 != n.index
      poolUsed := u.poolUsed.filter fun p => !((u.grants.filter fun g => g.node == n.index && g.quad.isNone).any fun g => g.die.toNat == p.1 && g.base == p.2.1)
      grants := u.grants.filter fun g => g.node != n.index } : State) = u.leaveSched n.index := rfl
  simp only [State.doneNode, h, Option.isNone_some, Bool.false_eq_true, if_false, hfold]
  rfl

theorem doneNode_failed {status : Nat} (s : State) (n : Node) (h : status ≠ 0) : s.doneNode n status = (s.described n.index status).interrupted n := by
  rw [doneNode_eq (if_neg h), if_neg h]

/-- R239: a node that is OK and has one successor releases it. -/
theorem doneNode_releases (s : State) (n : Node) (h : n.f 512 16 = 1) : s.doneNode n 0 = ((s.described n.index 0).release (n.f 576 20)).interrupted n := by
  have hsucc : s.successors n = (s, some [n.f 576 20]) := by simp [State.successors, h]
  rw [doneNode_eq ((if_pos rfl).trans hsucc), if_pos rfl]
  rfl

theorem interrupted_frame (s : State) (n : Node) :
    s.interrupted n = { s with msixPending := (s.interrupted n).msixPending, msixSent := (s.interrupted n).msixSent } := by
  unfold State.interrupted
  split
  · exact raiseVector_frame s 1
  · rfl

theorem mem_interrupted (s : State) (n : Node) : (s.interrupted n).mem = s.mem := by rw [interrupted_frame]

section
variable (s : State) (ix status : Nat)

theorem lasting_described : (s.described ix status).lasting = ((s.readDesc ix).leaveSched ix).lasting :=
  (lasting_setNodeState _ _ _).trans ((lasting_setDesc _ _ _ _ _).trans (lasting_setDesc _ _ _ _ _))

theorem regs_described : (s.described ix status).regs = s.regs := by
  have hread : ((s.readDesc ix).leaveSched ix).regs = s.regs := regs_of_lasting (t := s.readDesc ix) (lasting_readDesc s ix)
  exact (regs_of_lasting (lasting_described s ix status)).trans hread

theorem nodePa_of_regs {s t : State} (h : t.regs = s.regs) (ix : Nat) : t.nodePa ix = s.nodePa ix := by rw [State.nodePa, h, State.nodePa]

/-- R238: STATUS, RUNS and STATE are stored in the descriptor where it lies. -/
theorem described_eq {pa : Nat} (hpa : s.nodePa ix = pa) :
    let u := ((s.readDesc ix).leaveSched ix).storeNum (pa + 89) 1 status
    let v := u.storeNum (pa + 90) 4 ((s.readDesc ix).runsNext ix % 2 ^ 32)
    s.described ix status = v.storeNum (pa + 88) 1 (v.num (pa + 88) 1 / 8 * 8 + 4) := by
  intro u v
  have hread : ((s.readDesc ix).leaveSched ix).nodePa ix = pa :=
    (nodePa_of_regs (s := s.readDesc ix) rfl ix).trans ((nodePa_of_regs (regs_of_lasting (lasting_readDesc s ix)) ix).trans hpa)
  have hu : u.nodePa ix = pa := (nodePa_of_regs (regs_of_lasting (lasting_storeNum _ _ _ _)) ix).trans hread
  have hv : v.nodePa ix = pa := (nodePa_of_regs (regs_of_lasting (lasting_storeNum _ _ _ _)) ix).trans hu
  have hstatus : ((s.readDesc ix).leaveSched ix).setDesc ix 89 1 status = u := by rw [State.setDesc, hread]
  have hruns : u.setDesc ix 90 4 ((s.readDesc ix).runsNext ix % 2 ^ 32) = v := by rw [State.setDesc, hu]
  rw [State.described, hstatus, hruns, State.setNodeState, State.setDesc, hv]

end

section
variable {s : State} {ix : Nat} {pa : Nat} (hpa : s.nodePa ix = pa) (status : Nat)
include hpa

theorem byte_described_apart {a : Nat} (ha : inCarve a = false) (h : a < pa + 88 ∨ pa + 94 ≤ a) : (s.described ix status).byte a = s.byte a := by
  rw [described_eq s ix status hpa, byte_storeNum_other ha (by omega), byte_storeNum_other ha (by omega), byte_storeNum_other ha (by omega)]
  exact byte_readDesc ha s ix

end

theorem inMemory_at {pa k n : Nat} (hplain : ∀ i, i < 128 → inMemory (pa + i)) (h : k + n ≤ 128) :
    ∀ i, i < n → inMemory (pa + k + i) := fun i hi => by
  rw [Nat.add_assoc]
  exact hplain (k + i) (by omega)

section
variable {s : State} {ix : Nat} {pa : Nat} (hpa : s.nodePa ix = pa) (status : Nat) (hplain : ∀ i, i < 128 → inMemory (pa + i))
include hplain

theorem num_readDesc {k n : Nat} (h : k + n ≤ 128) : (s.readDesc ix).num (pa + k) n = s.num (pa + k) n :=
  num_congr fun i hi => byte_readDesc (inMemory_at hplain h i hi).1 s ix

include hpa

theorem state_described : (s.described ix status).num (pa + 88) 1 = s.num (pa + 88) 1 / 8 * 8 + 4 := by
  have hold := num_lt s (pa + 88) 1
  have hmem := inMemory_at (k := 88) (n := 1) hplain (by decide)
  have hread : ((s.readDesc ix).leaveSched ix).num (pa + 88) 1 = s.num (pa + 88) 1 := num_readDesc hplain (by decide)
  rw [described_eq s ix status hpa, num_storeNum hmem, num_storeNum_other hmem (by omega), num_storeNum_other hmem (by omega), hread]
  omega

theorem status_described (hstatus : status < 256) : (s.described ix status).num (pa + 89) 1 = status := by
  have hmem := inMemory_at (k := 89) (n := 1) hplain (by decide)
  rw [described_eq s ix status hpa, num_storeNum_other hmem (by omega), num_storeNum_other hmem (by omega), num_storeNum hmem]
  omega

theorem runs_described (hran : s.ranSince = none) : (s.described ix status).num (pa + 90) 4 = (s.num (pa + 90) 4 + 1) % 2 ^ 32 := by
  have hmem := inMemory_at (k := 90) (n := 4) hplain (by decide)
  have hran' : (s.readDesc ix).ranSince = none := (view_of_lasting State.ranSince (fun _ => rfl) (lasting_readDesc s ix)).trans hran
  have hnext : (s.readDesc ix).runsNext ix = s.num (pa + 90) 4 + 1 := by
    rw [State.runsNext, hran', nodePa_of_regs (regs_of_lasting (lasting_readDesc s ix)), hpa]
    exact congrArg (· + 1) (num_readDesc hplain (by decide))
  rw [described_eq s ix status hpa, num_storeNum_other hmem (by omega), num_storeNum hmem, hnext, Nat.mod_mod]

end

/-- R239: the node and its grants are gone. -/
theorem left_described (s : State) (ix status : Nat) :
    (s.described ix status).node? ix = none ∧ ∀ g ∈ (s.described ix status).grants, g.node ≠ ix := by
  have hgrants : (s.described ix status).grants = ((s.readDesc ix).leaveSched ix).grants :=
    view_of_lasting State.grants (fun _ => rfl) (lasting_described s ix status)
  refine ⟨?_, fun g hg => ?_⟩
  · rw [node?_of_lasting (lasting_described s ix status), State.node?, List.find?_eq_none]
    intro x hx
    have hne := (List.mem_filter.1 hx).2
    simpa using hne
  · rw [hgrants] at hg
    simpa using (List.mem_filter.1 hg).2

/-! ## A successor is released (R244) -/

section
variable {ix pa : Nat} (hplain : ∀ i, i < 4 → inMemory (pa + 20 + i))
include hplain

theorem num_makeReady {s : State} (hpa : s.nodePa ix = pa) : (s.makeReady ix).num (pa + 20) 4 = s.num (pa + 20) 4 := by
  have hset (u : State) (hu : u.nodePa ix = pa) (byte n v : Nat) (hbyte : 24 ≤ byte) : (u.setDesc ix byte n v).num (pa + 20) 4 = u.num (pa + 20) 4 := by
    rw [State.setDesc, hu, num_storeNum_other hplain (by omega)]
  obtain ⟨t, hready, hregs, hmem⟩ :
      ∃ t : State, s.makeReady ix = (t.setNodeState ix 2).setDesc ix 96 8 s.readyTicket.toNat ∧ t.regs = s.regs ∧ t.mem = s.mem :=
    ⟨_, rfl, rfl, rfl⟩
  have ht : t.nodePa ix = pa := (nodePa_of_regs hregs ix).trans hpa
  rw [hready, hset _ ((nodePa_of_regs (regs_of_lasting (lasting_setNodeState t ix 2)) ix).trans ht) _ _ _ (by decide),
    State.setNodeState, hset _ ht _ _ _ (by decide)]
  exact num_congr fun i _ => byte_of_mem hmem _

theorem num_counted {s : State} (hpa : s.nodePa ix = pa) (c : Nat) : (s.counted ix c).num (pa + 20) 4 = s.num (pa + 20) 4 := by
  unfold State.counted
  split
  · exact ite_keeps (State.num · (pa + 20) 4) (num_makeReady hplain hpa)
  · rfl

/-- R244: the counter of a node is one lower. -/
theorem num_decrement {s : State} (hpa : s.nodePa ix = pa) (hc : s.num (pa + 20) 4 ≠ 0) :
    (s.decrement ix).1.num (pa + 20) 4 = s.num (pa + 20) 4 - 1 := by
  subst hpa
  have hlt := num_lt s (s.nodePa ix + 20) 4
  have hread : (s.readDesc ix).num (s.nodePa ix + 20) 4 = s.num (s.nodePa ix + 20) 4 := num_congr fun i hi => byte_readDesc (hplain i hi).1 s ix
  rw [← hread] at hc
  rw [decrement_eq hc, num_counted hplain (nodePa_of_regs (regs_of_lasting (lasting_countDown s ix)) ix), State.countDown, num_storeNum hplain, hread]
  omega

/-- R239: the counter of a successor falls by one. -/
theorem num_released {s : State} {n : Node} (hsucc : n.f 512 16 = 1) (hix : n.f 576 20 = ix)
    (hpa : s.nodePa ix = pa) (hk : ix < s.nodeCount) (hne : ix ≠ n.index)
    (hc : s.num (pa + 20) 4 ≠ 0) : (s.doneNode n 0).num (pa + 20) 4 = s.num (pa + 20) 4 - 1 := by
  have hregs := regs_described s n.index 0
  have hapart : pa + 24 ≤ s.nodePa n.index + 88 ∨ s.nodePa n.index + 94 ≤ pa + 20 := by
    subst hpa
    unfold State.nodePa
    rcases Nat.lt_or_gt_of_ne hne with h | h <;> omega
  have hdesc : (s.described n.index 0).num (pa + 20) 4 = s.num (pa + 20) 4 :=
    num_congr fun i hi => byte_described_apart rfl 0 (hplain i hi).1 (by omega)
  have hcount : (s.described n.index 0).nodeCount = s.nodeCount := by rw [State.nodeCount, hregs, State.nodeCount]
  have hmem : ((s.described n.index 0).release ix).num (pa + 20) 4 = s.num (pa + 20) 4 - 1 := by
    rw [State.release, if_pos (by rwa [hcount]), num_decrement hplain ((nodePa_of_regs hregs ix).trans hpa) (by rwa [hdesc]), hdesc]
  rw [doneNode_releases s n hsucc, hix, ← hmem]
  exact num_congr fun i _ => byte_of_mem (mem_interrupted _ n) _

end

/-! ## The exchange of twins (R234 to R236) -/

/-- TWINSTAT with one more exchange and one more failure counted. -/
def twinCounts (v : Nat) : Nat := (v / 2 ^ 32 + 1) % 2 ^ 32 * 2 ^ 32 + (v / 2 ^ 16 % 2 ^ 16 + 1) % 2 ^ 16 * 2 ^ 16 + v % 2 ^ 16

theorem counted_twice (v : Word64) : bumpField (bumpField v 32 32) 16 16 = BitVec.ofNat 64 (twinCounts v.toNat) := by
  have hv := v.isLt
  refine BitVec.eq_of_toNat_eq ?_
  rw [toNat_bumpField _ (by decide), toNat_bumpField _ (by decide), BitVec.toNat_ofNat, twinCounts]
  omega

theorem counts_bit_one (v : Word64) : (BitVec.ofNat 64 (twinCounts v.toNat)).getLsbD 1 = (bumpField v 32 32).getLsbD 1 := by
  have hlow : ∀ x y : Word64, x.toNat % 4 = y.toNat % 4 → x.getLsbD 1 = y.getLsbD 1 := fun x y h => by
    rw [BitVec.getLsbD, BitVec.getLsbD, Nat.testBit_eq_decide_div_mod_eq, Nat.testBit_eq_decide_div_mod_eq]
    congr 2
    omega
  refine hlow _ _ ?_
  rw [← counted_twice, toNat_bumpField _ (by decide)]
  omega

/-- A bit that is set to what it is. -/
theorem setBit_same (v : Word64) {k : Nat} (hk : k < 64) : setBit v k (v.getLsbD k) = v := by
  refine BitVec.eq_of_getLsbD_eq fun i hi => ?_
  have hone : (1#64 <<< k).getLsbD i = decide (i = k) := by
    rw [BitVec.getLsbD_shiftLeft, BitVec.getLsbD_one, Bool.eq_iff_iff]
    simp only [Bool.and_eq_true, decide_eq_true_eq, Bool.not_eq_true', decide_eq_false_iff_not]
    omega
  unfold setBit
  split
  · next hset =>
    rw [BitVec.getLsbD_or, hone]
    by_cases h : i = k
    · rw [h, hset, Bool.true_or]
    · simp [h]
  · next hset =>
    rw [BitVec.getLsbD_and, BitVec.getLsbD_not, hone]
    by_cases h : i = k
    · simp_all
    · simp [h, hi]

/-- R236: a failure is marked in V, a timeout in its own bit, which stays once it is set. -/
theorem twinstat_failed (v : Word64) (tmo : Bool) :
    setBit (setBit (bumpField (bumpField v 32 32) 16 16) 0 true) 1 (tmo || (bumpField v 32 32).getLsbD 1)
      = BitVec.ofNat 64 (twinCounts v.toNat) ||| 1#64 ||| (if tmo = true then 2#64 else 0#64) := by
  rw [counted_twice, ← counts_bit_one]
  generalize BitVec.ofNat 64 (twinCounts v.toNat) = c
  cases tmo with
  | true => rfl
  | false =>
    have hbit : setBit (setBit c 0 true) 1 (c.getLsbD 1) = setBit c 0 true := by
      have hold : (setBit c 0 true).getLsbD 1 = c.getLsbD 1 := by
        rw [setBit, if_pos rfl, BitVec.getLsbD_or]
        exact Bool.or_false _
      rw [← hold, setBit_same _ (by decide)]
    rw [Bool.false_or, hbit, if_neg Bool.false_ne_true, setBit, if_pos rfl]
    exact (BitVec.or_zero).symm

/-- R236: a failed exchange is counted, is a machine check, and completes the node with status 2. -/
def State.twinFails (s : State) (n : Node) (tmo : Bool) : State :=
  (({ s with regs := { s.regs with twinstat := BitVec.ofNat 64 (twinCounts s.regs.twinstat.toNat) ||| 1#64 ||| (if tmo = true then 2#64 else 0#64) } } :
    State).machineCheck 1).doneNode n 2

theorem endExchange_fails (s : State) (n : Node) (tmo : Bool) : s.endExchange n false tmo = s.twinFails n tmo := by
  rw [State.twinFails, ← twinstat_failed]
  rfl

section
variable {s : State} {node : Nat} {n : Node} (hn : s.node? node = some n)
include hn

theorem twinTimeout_idle (hex : n.exchanging = false) : exec (.twinTimeout node) s = .next s := by
  change execTwinTimeout node s = _
  simp [execTwinTimeout, hn, hex]

/-- R239: a node that has ended and whose stores are performed goes on to its exchange, or is DONE. -/
theorem nodeComplete_ends (hended : n.ended = true) (hex : n.exchanging = false) (hacked : n.status = 0 → s.nodeAcked node = true) :
    (n.twin = false → exec (.nodeComplete node) s = .next (s.doneNode n n.status))
    ∧ (n.twin = true → (s.regs.twinctl.getLsbD 0 = false ∨ s.hops s.partner.toNat = none) →
        exec (.nodeComplete node) s = .next (s.endExchange n false true))
    ∧ (n.twin = true → s.regs.twinctl.getLsbD 0 = true → (s.hops s.partner.toNat).isSome = true → exec (.nodeComplete node) s = .next
        (({ (s.readDesc node).modNode node fun x => { x with exchanging := true } with
            twinSent := (s.readDesc node).twinSent ++ [(s.readDesc node).twinMsg n] } :
          State).tryExchange n)) := by
  have hgo : (!n.ended || n.exchanging || (n.status == 0 && !s.nodeAcked node)) = false := by
    by_cases hst : n.status = 0
    · simp [hended, hex, hacked hst]
    · simp [hended, hex, hst]
  have hexec : exec (.nodeComplete node) s = execNodeComplete node s := rfl
  rw [hexec, execNodeComplete, hn]
  simp only [hgo, Bool.false_eq_true, if_false]
  refine ⟨fun htwin => ?_, fun htwin hoff => ?_, fun htwin hon hroute => ?_⟩
  · simp only [htwin, Bool.not_false, if_true]
  · have hno : (!s.regs.twinctl.getLsbD 0 || (s.hops s.partner.toNat).isNone) = true := by
      rcases hoff with h | h
      · rw [h, Bool.not_false, Bool.true_or]
      · rw [h, Option.isNone_none, Bool.or_true]
    simp only [htwin, Bool.not_true, Bool.false_eq_true, if_false, hno, if_true]
  · have hyes : (!s.regs.twinctl.getLsbD 0 || (s.hops s.partner.toNat).isNone) = false := by
      rw [hon, Bool.not_true, Bool.false_or, Option.isNone_eq_false_iff]
      exact hroute
    simp only [htwin, Bool.not_true, Bool.false_eq_true, if_false, hyes]

/-- R236: a message for a node that waits goes to its exchange. -/
theorem twinMessage_exchanges {pkg asid : BitVec 12} {runs : Word32} {crc : Word64} {len : Nat} (hready : s.regs.bootstat.getLsbD 8 = true)
    (hex : n.exchanging = true) (hempty : s.twinInbox = []) :
    exec (.twinMessage ⟨pkg, asid, node⟩ runs crc len) s =
      .next (({ s with twinInbox := [TwinMsg.mk pkg asid node runs crc len] } : State).tryExchange n) := by
  have hnode : ∀ l, ({ s with twinInbox := l } : State).node? node = some n := fun _ => hn
  have hexec : exec (.twinMessage ⟨pkg, asid, node⟩ runs crc len) s = execTwinMessage ⟨pkg, asid, node⟩ runs crc len s := rfl
  rw [hexec, execTwinMessage]
  simp only [hready, Bool.not_true, Bool.false_eq_true, if_false, hnode, hex, if_true, hempty, List.nil_append]

end

/-- With one message waiting an exchange turns on it alone. -/
theorem tryExchange_one {s u : State} {n : Node} {m : TwinMsg} (hu : s.readDesc n.index = u) (hinbox : u.twinInbox = [m]) :
    s.tryExchange n = if u.pairs n m then
        ({ u with twinInbox := [] } : State).endExchange n (m.crc == (u.twinMsg n).crc && m.len == (u.twinMsg n).len) false
      else u := by
  rw [State.tryExchange, hu]
  simp only [hinbox]
  cases hpairs : u.pairs n m
  · simp [hpairs]
  · simp [hpairs]

theorem exchanges_counted (v : Word64) : (bumpField v 32 32).toNat / 2 ^ 32 = (v.toNat / 2 ^ 32 + 1) % 2 ^ 32 := by
  have hlt := v.isLt
  rw [toNat_bumpField _ (by decide)]
  omega

/-- One more exchange is counted. -/
def State.countExchange (s : State) : State := { s with regs := { s.regs with twinstat := bumpField s.regs.twinstat 32 32 } }

theorem endExchange_matches (s : State) (n : Node) (tmo : Bool) : s.endExchange n true tmo = s.countExchange.doneNode n n.status := by
  simp only [State.endExchange, if_true, State.countExchange]

theorem twinstat_countExchange (s : State) : s.countExchange.regs.twinstat = bumpField s.regs.twinstat 32 32 := rfl

/-- What of a state its registers do not hold. -/
theorem withRegs_keeps (s : State) (r : PkgRegs) :
    ({ s with regs := r } : State).mem = s.mem ∧ ({ s with regs := r } : State).nodes = s.nodes := ⟨rfl, rfl⟩

/-- R236: a match completes the node, with one more exchange counted. -/
theorem endExchange_completes (s : State) (n : Node) (tmo : Bool) : ∃ v : State, s.endExchange n true tmo = v.doneNode n n.status
    ∧ v.regs.twinstat.toNat / 2 ^ 32 = (s.regs.twinstat.toNat / 2 ^ 32 + 1) % 2 ^ 32 ∧ v.mem = s.mem ∧ v.nodes = s.nodes :=
  ⟨s.countExchange, endExchange_matches s n tmo, by rw [twinstat_countExchange, exchanges_counted], withRegs_keeps s _⟩

theorem workgroupComplete_waits {s : State} {w : WgId} {x : Workgroup} (hw : s.wg? w = some x)
    (h : s.allExited w = false ∨ ∃ c ∈ x.cmds, c.finished = false) :
    exec (.workgroupComplete w) s = .next s := by
  have hready : s.wgReady x = false := by
    rw [State.wgReady, wg?_id hw]
    rcases h with h | ⟨c, hc, hfin⟩
    · simp [h]
    · have hall : x.cmds.all (·.finished) = false := List.all_eq_false.2 ⟨c, hc, by simp [hfin]⟩
      simp [hall]
  have hexec : exec (.workgroupComplete w) s = execWorkgroupComplete w s := rfl
  rw [hexec, execWorkgroupComplete]
  simp only [hw, hready, Bool.false_eq_true, if_false]

/-- Settles O52: a workgroup and a node complete by their guards; what DONE stores and releases is followed byte by byte; and the exchange of
twins turns on the one message that waits. -/
theorem completion : Obligations.Completion := by
  refine ⟨fun s w x hw => ⟨fun hr hexited hcmds hpending => ?_, workgroupComplete_waits hw⟩, ?_, ?_, fun s n k hsucc hk hcount hne hplain hc => ?_, ?_⟩
  · have hid := wg?_id hw
    exact ⟨_, exec_workgroupComplete hw hr (hid ▸ hexited) hcmds (hid ▸ hpending), wgDone_frees hw⟩
  · intro s n hn hready hplaced hex hw st hacked
    have hended : n.ended = true := by simpa [Node.ended, hready, hplaced] using hw
    obtain ⟨hplain, -, htwin⟩ := nodeComplete_ends hn hended hex hacked
    exact ⟨hplain, htwin⟩
  · intro s n st hst hplain t
    have hne : st ≠ 0 := by omega
    have ht : t = (s.described n.index st).interrupted n := doneNode_failed s n hne
    have hframe (u : State) : (u.interrupted n).node? n.index = u.node? n.index ∧ (u.interrupted n).grants = u.grants := by
      rw [interrupted_frame]
      exact ⟨rfl, rfl⟩
    obtain ⟨hnode, hgrants⟩ := hframe (s.described n.index st)
    obtain ⟨hgone, hfree⟩ := left_described s n.index st
    have hbyte (a : Nat) : t.byte a = (s.described n.index st).byte a := byte_of_mem (ht ▸ mem_interrupted _ n) a
    have hnum (x m : Nat) : t.num x m = (s.described n.index st).num x m := num_congr fun i _ => hbyte _
    rw [hnum, hnum, hnum, ht, hnode, hgrants]
    refine ⟨hgone, hfree, state_described rfl st hplain, status_described rfl st hplain (by omega), runs_described rfl st hplain, fun a ha => ?_⟩
    rw [← ht, hbyte]
    rw [not_or] at ha
    exact byte_described_apart rfl st (by simpa using ha.1) (by omega)
  · subst hk
    exact num_released (inMemory_at hplain (by decide)) hsucc rfl rfl hcount hne hc
  · intro s node n pkg asid runs crc len hn fails ready msg u
    have hfails (v : State) (tmo : Bool) : v.endExchange n false tmo = fails v tmo := by
      simp only [fails]
      rw [endExchange_fails, State.twinFails, twinCounts]
    obtain ⟨hoff, hon⟩ := exec_twinMessage (node := ⟨pkg, asid, node⟩) runs crc len hn
    have hlasting : u.lasting = ({ s with twinInbox := [msg] } : State).lasting := lasting_readDesc _ node
    have hregs : u.regs = s.regs := regs_of_lasting (t := u) (s := { s with twinInbox := [msg] }) hlasting
    have hinbox : u.twinInbox = [msg] := view_of_lasting State.twinInbox (fun _ => rfl) hlasting
    have hpairs : n.index = node → (u.pairs n msg = true ↔ pkg = s.regs.twinctl.extractLsb' 16 12 ∧ asid = n.asid
        ∧ runs.toNat = u.runsOf node) := fun hix => by
      simp [State.pairs, State.partner, hregs, hix, msg, and_assoc]
    refine ⟨fun h => hoff (by simpa [ready] using h), hon, fun hex => ?_, fun hex hready hplaced hw htwin hacked hroute => ?_, twinTimeout_idle hn, ?_, ?_⟩
    · rw [exec_twinTimeout hn hex, hfails]
    · have hended : n.ended = true := by simpa [Node.ended, hready, hplaced] using hw
      obtain ⟨-, hends, -⟩ := nodeComplete_ends hn hended hex hacked
      rw [hends htwin hroute, hfails]
    · intro hready hex hix hempty hno
      rw [twinMessage_exchanges hn hready hex hempty, tryExchange_one (u := u) (by rw [hix]) hinbox, if_neg]
      rw [hpairs hix]
      rintro ⟨hpkg, hasid, hruns⟩
      rcases hno with h | h | h
      · exact h hpkg
      · exact h hasid
      · exact h hruns
    · intro hready hex hix hempty hpkg hasid hruns
      rw [twinMessage_exchanges hn hready hex hempty, tryExchange_one (u := u) (by rw [hix]) hinbox, if_pos ((hpairs hix).2 ⟨hpkg, hasid, hruns⟩)]
      have hsame : (msg.crc == (u.twinMsg n).crc && msg.len == (u.twinMsg n).len) = true
          ↔ crc = BitVec.ofNat 64 (crc64 (streamBytes n.stream)) ∧ len = (streamBytes n.stream).length := by
        simp [State.twinMsg, msg]
      refine ⟨fun h => ?_, fun hno => ?_⟩
      · obtain ⟨v, hend, hcount, hmem, hnodes⟩ := endExchange_completes { u with twinInbox := [] } n false
        have hcount' : v.regs.twinstat.toNat / 2 ^ 32 = (u.regs.twinstat.toNat / 2 ^ 32 + 1) % 2 ^ 32 := hcount
        rw [hregs] at hcount'
        rw [hsame.2 h, hend]
        exact ⟨v, rfl, hcount', hmem, hnodes.trans (nodes_of_lasting (t := u) (s := { s with twinInbox := [msg] }) hlasting)⟩
      · rw [Bool.eq_false_iff.2 (mt hsame.1 hno), hfails]

end Sys2Proof.Machine
end

