-- ==== Sys2Proof/Proofs/Copies.lean ====
section
/-! PROOFS. O40: copy commands (spec/16 R411 to R421, spec/10 R268, spec/04 R124, spec/12 R321). -/

namespace Sys2Proof.Machine

/-! ## The progress of a command (R268) -/

/-- The record slides past the sectors that are done, up to the first that is not. -/
theorem slide_spec (fuel : Nat) : ∀ (first : Nat) (done : Word64), ∃ k, k ≤ fuel ∧ slide fuel first done = (first + 1 + k, done >>> (k + 1))
    ∧ (∀ i, i < k → done.getLsbD i = true) ∧ (k < fuel → done.getLsbD k = false) := by
  induction fuel with
  | zero => exact fun first done => ⟨0, le_rfl, rfl, fun i hi => absurd hi (Nat.not_lt_zero i), fun h => absurd h (lt_irrefl 0)⟩
  | succ fuel ih =>
    intro first done
    by_cases hbit : done.getLsbD 0 = true
    · obtain ⟨k, hk, hslide, hbelow, hstop⟩ := ih (first + 1) (done >>> 1)
      have hshift : ∀ i, (done >>> 1).getLsbD i = done.getLsbD (i + 1) := fun i => by rw [BitVec.getLsbD_ushiftRight, Nat.add_comm]
      refine ⟨k + 1, Nat.succ_le_succ hk, ?_, fun i hi => ?_, fun h => ?_⟩
      · rw [slide, if_pos hbit, hslide, ← BitVec.shiftRight_add, Nat.add_comm 1 (k + 1), Nat.add_right_comm (first + 1) 1 k, Nat.add_assoc (first + 1) k 1]
      · cases i with
        | zero => exact hbit
        | succ i => exact (hshift i).symm.trans (hbelow i (by omega))
      · exact (hshift k).symm.trans (hstop (by omega))
    · exact ⟨0, Nat.zero_le _, if_neg hbit, fun i hi => absurd hi (Nat.not_lt_zero i), fun _ => by simpa using hbit⟩

theorem sectorDone_iff (c : Command) (m : Nat) :
    c.sectorDone m = true ↔ m < c.first ∨ (c.first < m ∧ c.done.getLsbD (m - c.first - 1) = true) := by
  have hlow : c.done.getLsbD (m - c.first - 1) = true → m - c.first - 1 < 64 := BitVec.lt_of_getLsbD
  simp only [Command.sectorDone, Bool.or_eq_true, Bool.and_eq_true, decide_eq_true_eq]
  constructor
  · rintro (h | ⟨⟨h, -⟩, hbit⟩)
    · exact .inl h
    · exact .inr ⟨h, hbit⟩
  · rintro (h | ⟨h, hbit⟩)
    · exact .inl h
    · have := hlow hbit
      exact .inr ⟨⟨h, by omega⟩, hbit⟩

/-- The sector at FIRST is never done. -/
theorem sectorDone_first (c : Command) : c.sectorDone c.first = false := by
  rw [← Bool.not_eq_true, sectorDone_iff]
  omega

theorem markSector_first (c : Command) (m : Nat) :
    ((c.markSector c.first).sectorDone m = true ↔ c.sectorDone m = true ∨ m = c.first) ∧ c.first ≤ (c.markSector c.first).first := by
  obtain ⟨k, hk, hslide, hbelow, hstop⟩ := slide_spec 64 c.first c.done
  have hmark : c.markSector c.first = { c with first := c.first + 1 + k, done := c.done >>> (k + 1) } := by
    rw [Command.markSector, if_pos rfl, hslide]
  have hfalse : c.done.getLsbD k = false := by
    by_cases h : k < 64
    · exact hstop h
    · exact BitVec.getLsbD_of_ge _ _ (by omega)
  rw [hmark]
  refine ⟨?_, by dsimp only; omega⟩
  rw [sectorDone_iff, sectorDone_iff]
  dsimp only
  rw [BitVec.getLsbD_ushiftRight]
  constructor
  · rintro (h | ⟨h, hbit⟩)
    · rcases Nat.lt_trichotomy m c.first with hlt | heq | hgt
      · exact .inl (.inl hlt)
      · exact .inr heq
      · exact .inl (.inr ⟨hgt, hbelow _ (by omega)⟩)
    · refine .inl (.inr ⟨by omega, ?_⟩)
      rwa [show k + 1 + (m - (c.first + 1 + k) - 1) = m - c.first - 1 by omega] at hbit
  · rintro ((h | ⟨h, hbit⟩) | h)
    · exact .inl (by omega)
    · rcases Nat.lt_trichotomy m (c.first + 1 + k) with hlt | heq | hgt
      · exact .inl hlt
      · rw [show m - c.first - 1 = k by omega, hfalse] at hbit
        cases hbit
      · exact .inr ⟨hgt, by rwa [show k + 1 + (m - (c.first + 1 + k) - 1) = m - c.first - 1 by omega]⟩
    · exact .inl (by omega)

theorem markSector_later {c : Command} {n : Nat} (hlt : c.first < n) (hle : n ≤ c.first + 64) (m : Nat) :
    ((c.markSector n).sectorDone m = true ↔ c.sectorDone m = true ∨ m = n) ∧ (c.markSector n).first = c.first := by
  have hmark : c.markSector n = { c with done := c.done ||| (1#64 <<< (n - c.first - 1)) } := if_neg hlt.ne'
  have hbit : ∀ i, (1#64 <<< (n - c.first - 1)).getLsbD i = true ↔ i = n - c.first - 1 := fun i => by
    rw [BitVec.getLsbD_shiftLeft, BitVec.getLsbD_one]
    simp only [Bool.and_eq_true, decide_eq_true_eq, Bool.not_eq_true', decide_eq_false_iff_not]
    omega
  rw [hmark]
  refine ⟨?_, rfl⟩
  rw [sectorDone_iff, sectorDone_iff]
  dsimp only
  rw [BitVec.getLsbD_or, Bool.or_eq_true, hbit]
  constructor
  · rintro (h | ⟨h, hdone | heq⟩)
    · exact .inl (.inl h)
    · exact .inl (.inr ⟨h, hdone⟩)
    · exact .inr (by omega)
  · rintro ((h | ⟨h, hdone⟩) | rfl)
    · exact .inl h
    · exact .inr ⟨h, .inl hdone⟩
    · exact .inr ⟨hlt, .inr rfl⟩

theorem sectorOpen_iff (c : Command) (total n : Nat) : c.sectorOpen total n = true ↔
    n < total ∧ (n = c.first ∨ (c.first < n ∧ n ≤ c.first + 64 ∧ c.done.getLsbD (n - c.first - 1) = false)) := by
  simp [Command.sectorOpen, and_assoc]

/-- R268: a sector that is open is marked, and no other. -/
theorem markSector_marks {c : Command} {total n : Nat} (hopen : c.sectorOpen total n = true) (m : Nat) :
    ((c.markSector n).sectorDone m = true ↔ c.sectorDone m = true ∨ m = n)
      ∧ c.first ≤ (c.markSector n).first ∧ (c.markSector n).sectorDone (c.markSector n).first = false := by
  obtain ⟨-, rfl | ⟨hlt, hle, -⟩⟩ := (sectorOpen_iff c total n).1 hopen
  · obtain ⟨hmarks, hfirst⟩ := markSector_first c m
    exact ⟨hmarks, hfirst, sectorDone_first _⟩
  · obtain ⟨hmarks, hfirst⟩ := markSector_later hlt hle m
    exact ⟨hmarks, hfirst.ge, sectorDone_first _⟩

/-- R90, R414: what a sector that may act writes, no earlier sector that is not complete reads or writes. -/
theorem sectorFree_apart {s : State} {c : Command} {x : CopyArgs} {n m : Nat} (hfree : s.sectorFree c x n = true) (hm : c.first ≤ m) (hmn : m < n)
    (hdone : c.sectorDone m = false) :
    c.sectorOpen x.sectors n = true ∧ ∀ k ∈ x.sectorKeys s.tile true n, k ∉ x.sectorKeys s.tile true m ∧ k ∉ x.sectorKeys s.tile false m := by
  obtain ⟨hopen, hapart⟩ := Bool.and_eq_true_iff.1 hfree
  have hpending : m - c.first ∈ (List.range (n - c.first)).filter fun i => i = 0 || !c.done.getLsbD (i - 1) := by
    refine List.mem_filter.2 ⟨List.mem_range.2 (by omega), ?_⟩
    rw [← Bool.not_eq_true, sectorDone_iff] at hdone
    by_cases h0 : m - c.first = 0
    · simp [h0]
    · have hbit : c.done.getLsbD (m - c.first - 1) = false := by
        rw [← Bool.not_eq_true]
        exact fun hbit => hdone (.inr ⟨by omega, hbit⟩)
      simp [h0, hbit]
  have hno := List.all_eq_true.1 hapart _ hpending
  rw [Nat.add_sub_cancel' hm, Bool.not_eq_true', List.any_eq_false] at hno
  refine ⟨hopen, fun k hk => ⟨fun h => hno k (List.mem_append_left _ h) (List.contains_iff_mem.2 hk),
    fun h => hno k (List.mem_append_right _ h) (List.contains_iff_mem.2 hk)⟩⟩

/-! ## What a sector does (R59, R268, R415, R417) -/

/-- A sector of a put leaves with its bytes, or stops where its source faults. -/
theorem putSector_eq (u : State) (c : Command) (x : CopyArgs) (n : Nat) : u.putSector c x n =
    match u.sourceBytes c x.src (x.row (n / x.perRow)).1 (x.row (n / x.perRow)).2.2 (32 * (n % x.perRow)) (min 32 (x.rb - 32 * (n % x.perRow))) with
    | (v, .error f) => v.engineStopAt c f n
    | (v, .ok bs) => if x.target / 2 ^ 36 % 4096 = v.pkg then v.putArrives c x n (n / x.perRow) (32 * (n % x.perRow)) bs
        else v.modCmd c.id fun y => { y with acked := y.acked ++ [n] } := by
  cases hsrc : u.sourceBytes c x.src (x.row (n / x.perRow)).1 (x.row (n / x.perRow)).2.2 (32 * (n % x.perRow)) (min 32 (x.rb - 32 * (n % x.perRow))) with
  | mk v r =>
    have htarget : bitsOf x.target 36 12 = x.target / 2 ^ 36 % 4096 := rfl
    cases r <;> simp only [State.putSector, CopyArgs.sectorAt, hsrc, htarget]

section
variable {s : State} {c : Command} {x : CopyArgs} {n : Nat} {src : State × Except EngFault (List (BitVec 10))}
  (hsrc : s.sourceBytes c x.src (x.row (n / x.perRow)).1 (x.row (n / x.perRow)).2.2 (x.c0 + 32 * (n % x.perRow)) (min 32 (x.rb - 32 * (n % x.perRow))) = src)
include hsrc

theorem copySector_sourceFault {f : EngFault} (hf : src.2 = .error f) : s.copySector c x n = src.1.engineStopAt c f n := by
  obtain ⟨u, r⟩ := src
  obtain rfl : r = .error f := hf
  simp only [State.copySector, CopyArgs.sectorAt, hsrc]

variable {dst : State × Except EngFault Dest}
  (hdst : src.1.destPlace x.dst (x.row (n / x.perRow)).2.1 (x.row (n / x.perRow)).2.2 (32 * (n % x.perRow)) (min 32 (x.rb - 32 * (n % x.perRow))) = dst)
  {bs : List (BitVec 10)} (hbs : src.2 = .ok bs)
include hdst hbs

theorem copySector_destFault {f : EngFault} (hf : dst.2 = .error f) : s.copySector c x n = dst.1.engineStopAt c f n := by
  obtain ⟨u, r⟩ := src
  obtain rfl : r = .ok bs := hbs
  obtain ⟨v, r⟩ := dst
  obtain rfl : r = .error f := hf
  simp only [State.copySector, CopyArgs.sectorAt, hsrc, hdst]

/-- A sector whose bytes no barrier counts is written and marked, or stops after it where a member has not taken its store. -/
theorem copySector_writes {d : Dest} (hd : dst.2 = .ok d) (hbar : x.bar = false) :
    let t := dst.1.writeSector c n d bs
    let u := if x.dst.tile then t.setTile x.dst.num { t.tile x.dst.num with surv := (t.tile x.dst.num).surv ||| (1#128 <<< (x.row (n / x.perRow)).2.1) } else t
    s.copySector c x n = match d.lost with
      | some f => u.engineStopAt c f n
      | none => u.modCmd c.id fun y => ({ y with acked := y.acked.erase n } : Command).markSector n := by
  obtain ⟨u, r⟩ := src
  obtain rfl : r = .ok bs := hbs
  obtain ⟨v, r⟩ := dst
  obtain rfl : r = .ok d := hd
  simp only [State.copySector, State.sectorDone, CopyArgs.sectorAt, hsrc, hdst, hbar, Bool.false_and, Bool.false_eq_true, if_false] <;> rfl

end

/-! ## The events of a copy command (R268, R275, R417, R418, R421) -/

section
variable {s : State} {id : CmdId} {c : Command} {x : CopyArgs} (hrun : s.runnable id = some c) (hcopy : copyOf c = some x)
include hrun

/-- A command that may act is the one that is named. -/
theorem runnable_id : c.id = id := by
  have hcmd : s.cmd? id = some c := by
    unfold State.runnable at hrun
    split at hrun
    · next y hy =>
      rw [hy]
      exact (Option.ite_none_left_eq_some.1 hrun).2
    · cases hrun
  obtain ⟨w, -, hfind⟩ := Option.bind_eq_some_iff.1 hcmd
  simpa using List.find?_some hfind

/-- An event of a command that may act, by what it does to the state with its group at issue. -/
theorem cmdEvent_acts {e : Instr} {f : Command → State → State} {g : State → State} (hexec : exec e s = cmdEvent id f s) (hfun : ∀ u, f c u = g u) :
    Acts e s c g := by
  rw [Acts, hexec, cmdEvent, hrun]
  exact congrArg (fun h => Host.Outcome.next (s.inCommand c h)) (funext hfun)

include hcopy

theorem copySectorComplete_acts (hkind : x.kind ≠ .put) (n : Nat) : Acts (.copySectorComplete id n) s c fun u =>
    if u.sectorFree c x n = false then u
    else if n ∈ c.acked ∧ u.allAcked (.cmd id) = false then u
    else u.copySector c x n := by
  refine cmdEvent_acts hrun rfl fun u => ?_
  simp only [hcopy, hkind, false_or, Bool.not_eq_true', Bool.and_eq_true, List.contains_iff_mem]

theorem copyComplete_acts (hend : x.sectors ≤ c.first) : Acts (.copyComplete id) s c fun u =>
    if u.allAcked (.cmd id) = true then (if x.ndec && c.status == 0 then u.release x.node else u).finish c c.status.toNat else u := by
  refine cmdEvent_acts hrun rfl fun u => ?_
  simp only [hcopy, hend, true_and]
  rfl

theorem xputSectorArrival_acts (hkind : x.kind = .put) {n : Nat} (hnew : n ∉ c.acked) : Acts (.xputSectorArrival (.own id) n) s c fun u =>
    if u.sectorFree c x n = false then u
    else match u.sourceBytes c x.src (x.row (n / x.perRow)).1 (x.row (n / x.perRow)).2.2 (32 * (n % x.perRow)) (min 32 (x.rb - 32 * (n % x.perRow))) with
      | (v, .error f) => v.engineStopAt c f n
      | (v, .ok bs) => if x.target / 2 ^ 36 % 4096 = v.pkg then v.putArrives c x n (n / x.perRow) (32 * (n % x.perRow)) bs
          else v.modCmd id fun y => { y with acked := y.acked ++ [n] } := by
  obtain rfl := runnable_id hrun
  refine cmdEvent_acts hrun rfl fun u => ?_
  have hnot : c.acked.contains n = false := by simpa using hnew
  simp only [hcopy, hkind, hnot, true_and, Bool.not_false, and_true]
  cases hfree : u.sectorFree c x n with
  | false => rfl
  | true => exact (putSector_eq u c x n).trans (if_neg Bool.true_eq_false.mp).symm

theorem xputSectorAck_acts (hkind : x.kind = .put) {n : Nat} (a : PutAnswer) (hin : n ∈ c.acked) (hopen : c.sectorOpen x.sectors n = true) :
    Acts (.xputSectorAck id ⟨n, a⟩) s c fun u =>
      let far := x.target / 2 ^ 36 % 4096 ≠ u.pkg
      let v := u.modCmd id fun y => { y with acked := y.acked.erase n }
      if far ∧ a.bad = true then v.engineStopAt c ⟨protBrec, true, x.boff⟩ n
      else (if far then v.putAnswered c a else v).modCmd id fun y => y.markSector n := by
  refine cmdEvent_acts hrun rfl fun u => ?_
  simp only [hcopy, hkind, hopen, List.contains_iff_mem.2 hin, and_self, if_true, Bool.and_eq_true, bne_iff_ne]
  rfl

theorem xputAckTimeout_acts (hkind : x.kind = .put) (hleft : c.first < x.sectors) : Acts (.xputAckTimeout id) s c fun u => u.finish c 2 := by
  refine cmdEvent_acts hrun rfl fun u => ?_
  simp only [hcopy, hkind, hleft, and_self, if_true]

theorem engineFault_acts (hleft : c.first < x.sectors) : Acts (.engineFault id) s c fun u =>
    match u.testSector c x c.first with
    | (v, some f) => v.engineStopAt c f c.first
    | (_, none) => u := by
  refine cmdEvent_acts hrun rfl fun u => ?_
  simp only [hcopy, hleft, if_true] <;> rfl

end

/-! ## Sectors that arrive (R274, R275, R421) -/

section
variable (s : State) (asid : BitVec 12) (die : BitVec 2) (cells : List (Nat × BitVec 10))

/-- The bytes of a sector that a grant of the ASID holds. -/
def State.landed : List (Nat × BitVec 10) := cells.filter fun p => (s.landing asid die p.1).isSome

/-- Some byte of a sector lies outside every grant of the ASID. -/
def State.shortLanding : Bool := (s.landed asid die cells).length != cells.length

theorem putLands_plain : s.putLands asid die cells none = (s.landBytes asid die (s.landed asid die cells), { refused := s.shortLanding asid die cells }) := rfl

variable (boff : Nat) (gen : BitVec 16)

theorem putLands_noRecord (h : s.putBarrier asid die boff = none) :
    s.putLands asid die cells (some (boff, gen)) = (s.landBytes asid die (s.landed asid die cells), { refused := true }) := by
  simp only [State.putLands, h, State.landed]

variable {g : Grant} {o v : Nat} (h : s.putBarrier asid die boff = some (g, o, v))
include h

theorem putLands_badRecord (hbad : barReserved v = true) : s.putLands asid die cells (some (boff, gen)) = (s, { bad := true }) := by
  simp only [State.putLands, h, hbad, if_true]

theorem putLands_stale (hgood : barReserved v = false) (hgen : (BarRec.ofNat v).gen ≠ gen.toNat) :
    s.putLands asid die cells (some (boff, gen)) = (if (BarRec.ofNat v).ring then s else s.landBytes asid die (s.landed asid die cells),
      { refused := s.shortLanding asid die cells, stale := true, strap := (BarRec.ofNat v).strap }) := by
  simp only [State.putLands, h, hgood, Bool.false_eq_true, if_false, bne_iff_ne, ne_eq, hgen, not_false_eq_true, if_true]
  rfl

end

/-! ## Issue (R411 to R413, R420, R421) -/

theorem exec_copy {i : Instr} {l : Lane} {kind : CopyKind} (hi : copyForm i = some (l, kind)) (s : State) :
    exec i s = Act.outcome (copyIssue i kind l) s := by
  unfold copyForm at hi
  split at hi <;> cases hi <;> rfl

section
variable {α β : Type} {s : State} {c d : Prop} [Decidable c] [Decidable d] {a b e : Act α} {f : α → Act β} {v : α}

theorem runAct_branches (ha : c → Gives a s v) (hb : ¬ c → Gives b s v) : runAct (if c then a >>= f else b >>= f) s = runAct (f v) s := by
  split
  · next h => exact runAct_bind_gives (ha h)
  · next h => exact runAct_bind_gives (hb h)

theorem runAct_threeBranches (ha : c → Gives a s v) (hb : ¬ c → d → Gives b s v) (he : ¬ c → ¬ d → Gives e s v) :
    runAct (if c then a >>= f else if d then b >>= f else e >>= f) s = runAct (f v) s := by
  split
  · next h => exact runAct_bind_gives (ha h)
  · next h => exact runAct_branches (hb h) (he h)

end

/-- R221: a copy by a group that is not the producer. -/
theorem needProducer_raises {active : Word32} {s : State} (h : s.g.id.j ≠ s.w.producer) :
    Raises (needProducer active) s { cause := cCOPYRIGHTS, sub := 1, lmask := active, va := 0, kind := 0, level := 0xF } :=
  raises_bind (act_get s) ((runAct_then h).trans (act_trapAt _ 0 active 0 s))

theorem needProducer_gives {active : Word32} {s : State} (h : s.g.id.j = s.w.producer) : Gives (needProducer active) s () :=
  gives_bind (act_get s) (does_else (not_not.2 h) (does_pure () s))

theorem barAligned_raises {active : Word32} {off : Nat} {s : State} (h : off % 16 ≠ 0) :
    Raises (barAligned active off) s { cause := cALIGN, sub := 1, lmask := active, va := BitVec.ofNat 56 off, kind := 2, level := 0xF } :=
  (runAct_then h).trans (act_trapAt _ 2 active off s)

theorem barAligned_gives {active : Word32} {off : Nat} {s : State} (h : off % 16 = 0) : Gives (barAligned active off) s () :=
  does_else (not_not.2 h) (does_pure () s)

/-- The index lanes of a gather. -/
def State.copyLanes (s : State) (kind : CopyKind) (l : Lane) (active : Word32) : List (Nat × Word32) :=
  if kind = .gath then (lanesOf active).map fun n => (n, s.g.vreg l.vc.toNat n) else []

/-- The tiles that a copy fills and drains. -/
def copyTiles (l : Lane) (dt st : Bool) : List (Nat × Bool) :=
  (if dt then [(l.vd.toNat, true)] else []) ++ if st = true ∧ ¬ (dt = true ∧ l.vd = l.va) then [(l.va.toNat, false)] else []

theorem copyTiles_eq (l : Lane) (dt st : Bool) : copyTiles l dt st = (if dt = true then [(l.vd.toNat, true)] else [])
    ++ if st = true ∧ (!decide (dt = true ∧ l.vd = l.va)) = true then [(l.va.toNat, false)] else [] := by
  simp only [copyTiles, Bool.not_eq_true', decide_eq_false_iff_not]

/-- The generation that a copy's barrier counts in. -/
def CopyArgs.gen (x : CopyArgs) (kind : CopyKind) (b : BarRec) : Nat := if kind = .put then x.target / 2 ^ 48 % 65536 else if x.bar then b.gen else 0

/-- What a copy instruction gives its command. -/
def State.copyCmd (s : State) (l : Lane) (dt st : Bool) (ops : List Word64) (lanes : List (Nat × Word32)) (dst src : BitVec 128) (gen : Nat) : CmdArgs :=
  { ops := ops, lanes := lanes, recs := [dst, src, BitVec.ofNat 128 s.g.privOver] ++ (if st then [(s.tile l.va.toNat).surv] else [])
    tiles := copyTiles l dt st, barGen := BitVec.ofNat 16 gen }

section
variable {i : Instr} {l : Lane} {kind : CopyKind} {s : State} {active : Word32} {k : Option Nat} {st dt : Bool}
  (hst : l.imm.getLsbD 2 = st) (hdt : (kind != .put && l.imm.getLsbD 1) = dt)
  (hstart : Gives (laneStart l) s (active, k)) (hactive : active ≠ 0) (hindex : kind = .gath → Gives (useV active l.vc 1) s ())
  (htileD : dt = true → Gives (checkTile active l.vd) s ()) (htileS : st = true → Gives (checkTile active l.va) s ())
include hst hdt hstart hactive hindex htileD htileS

theorem copyIssue_noRights (hkind : kind ≠ .put) (hj : s.g.id.j ≠ s.w.producer) :
    Raises (copyIssue i kind l) s { cause := cCOPYRIGHTS, sub := 1, lmask := active, va := 0, kind := 0, level := 0xF } := by
  subst hst hdt
  exact raises_bind hstart (raises_checked hindex (raises_checked htileD (raises_checked htileS
    ((runAct_else hactive).trans (raises_here hkind (needProducer_raises hj))))))

section
variable {ops : List Word64} {dst src : BitVec 128} {x : CopyArgs} (hrights : kind ≠ .put → s.g.id.j = s.w.producer)
  (hops : Gives (readBlock (sregOf l.vb) (if kind = .win ∨ kind = .put then 4 else 3)) s ops) (hnone : kind = .put → dst = 0)
  (hdst : kind ≠ .put → Gives (endRecord active dt l.vd) s dst) (hsrc : Gives (endRecord active st l.va) s src)
  (hx : copyArgs kind l ops dst src s.g.privOver (s.copyLanes kind l active) = x) (hwin : kind = .win → st = false)
  (hendD : kind ≠ .put → Gives (endTile active x.dst l.vd x.rb (((List.range x.rows).map x.row).map fun r => r.2.1)) s ())
  (hendS : Gives (endTile active x.src l.va x.rb (((List.range x.rows).map x.row).map fun r => r.1)) s ())
include hrights hops hnone hdst hsrc hx hwin hendD hendS

/-- A copy comes to its barrier and its issue once its rights, its records and its tiles are good. -/
theorem copyIssue_outcomes :
    (kind = .put → x.bar = true → x.bwin = 3 → x.boff % 16 ≠ 0 →
      Raises (copyIssue i kind l) s { cause := cALIGN, sub := 1, lmask := active, va := BitVec.ofNat 56 x.boff, kind := 2, level := 0xF })
    ∧ ∀ b : BarRec, (x.bar = true → kind = .put → x.bwin = 3 ∧ x.boff % 16 = 0) →
        (x.bar = true → kind ≠ .put → x.bwin ≠ 0 ∧ Gives (barAt active x.bwin x.boff) s b) →
      s.w.inFlight x.ctx < 16 → s.allAcked (.group s.g.id) = true →
      Does (copyIssue i kind l) s () ((s.issued x.ctx i active k
        (s.copyCmd l dt st ops (s.copyLanes kind l active) dst src (x.gen kind b))).unhang.retire 3) := by
  subst hst hdt hx
  have hlanes : kind = .gath → Gives (gatherLanes active l.vc) s (s.copyLanes kind l active) := fun h => by
    rw [State.copyLanes, if_pos h]
    exact gives_bind (act_get s) (does_pure _ s)
  have hplain : ¬ kind = .gath → Gives (pure []) s (s.copyLanes kind l active) := fun h => by
    rw [State.copyLanes, if_neg h]
    exact does_pure _ s
  have hzero : kind = .put → Gives (pure 0) s dst := fun h => by
    rw [hnone h]
    exact does_pure 0 s
  have hnotWin : ¬ (kind = .win ∧ l.imm.getLsbD 2 = true) := fun ⟨hw, ht⟩ => Bool.false_ne_true ((hwin hw).symm.trans ht)
  have hprefix : runAct (copyIssue i kind l) s = runAct _ s :=
    (runAct_bind_gives hstart).trans ((runAct_checked hindex).trans ((runAct_checked htileD).trans ((runAct_checked htileS).trans
      ((runAct_else hactive).trans ((runAct_checked fun h => needProducer_gives (hrights h)).trans ((runAct_branches hlanes hplain).trans
        ((runAct_bind_gives hops).trans ((runAct_branches hzero hdst).trans ((runAct_bind_gives hsrc).trans ((runAct_bind_gives (act_get s)).trans
          ((runAct_checked fun h => absurd h hnotWin).trans ((runAct_checked hendD).trans (runAct_bind_gives hendS)))))))))))))
  generalize copyArgs kind l ops dst src s.g.privOver (s.copyLanes kind l active) = x at *
  refine ⟨fun hput hbar hbwin hoff => hprefix.trans ?_, fun b hput hbarred hroom hacked => hprefix.trans ?_⟩
  · exact (runAct_then hput).trans (raises_first ((runAct_else fun h => h.2 hbwin).trans (raises_here hbar (barAligned_raises hoff))))
  · have hissue := issueCommand_does (ctx := x.ctx) i active k
      (s.copyCmd l (kind != .put && l.imm.getLsbD 1) (l.imm.getLsbD 2) ops (s.copyLanes kind l active) dst src (x.gen kind b)) (.inr hacked)
    rw [issued_eq _ _ _ _ (.inr hacked)]
    simp only [State.copyCmd, copyTiles_eq] at hissue ⊢
    refine (runAct_threeBranches (v := x.gen kind b) (fun h => ?_) (fun h hbar => ?_) (fun h hbar => ?_)).trans
      (gives_bind (does_else (Nat.not_le.2 hroom) (does_pure () s)) (gives_bind (act_get s) (does_bind hissue (act_retireWork 3 _))))
    · rw [CopyArgs.gen, if_pos h]
      exact does_else (fun hbad => hbad.2 (hput hbad.1 h).1) (does_checked (fun hbar => barAligned_gives (hput hbar h).2) (does_pure _ s))
    · rw [CopyArgs.gen, if_neg h, if_pos hbar]
      exact does_else (hbarred hbar h).1 (gives_bind (hbarred hbar h).2 (does_pure _ s))
    · rw [CopyArgs.gen, if_neg h, if_neg hbar]
      exact does_pure 0 s

end

end

/-- Settles O40: the four words along their checks to their issue; the sectors of a command in their order, with its progress; and what a sector
of a put leaves where it lands. -/
theorem copies : Obligations.Copies := by
  refine ⟨?_, ⟨fun s id c x n hrun hcopy => ⟨fun hkind => copySectorComplete_acts hrun hcopy hkind n, copyComplete_acts hrun hcopy⟩,
      fun s c x n m => sectorFree_apart, fun s c x n => ?_, fun c total n m hopen => markSector_marks hopen m⟩,
    fun s id c x n hrun hcopy => ⟨fun hkind => ⟨xputSectorArrival_acts hrun hcopy hkind, fun a => xputSectorAck_acts hrun hcopy hkind a⟩,
      xputAckTimeout_acts hrun hcopy, engineFault_acts hrun hcopy⟩,
    fun s asid die off bs poisoned bar n => rfl, fun s asid die cells => ?_⟩
  · intro i l kind s active k hi hstart hactive hindex st dt htileD htileS
    refine ⟨fun hkind hj => ?_, fun ops dst src b hrights hops hnone hdst hsrc => ?_⟩
    · exact (exec_copy hi s).trans (outcome_of_trap (copyIssue_noRights rfl rfl hstart hactive hindex htileD htileS hkind hj))
    · intro lanes x rows hwin hendD hendS hbwin
      obtain ⟨hmisaligned, hissues⟩ := copyIssue_outcomes (i := i) rfl rfl hstart hactive hindex htileD htileS hrights hops
          hnone hdst hsrc (x := x) rfl hwin hendD hendS
      refine ⟨fun hbar hput hoff => (exec_copy hi s).trans (outcome_of_trap (hmisaligned hput hbar (hbwin hbar hput) hoff)),
      fun hput hbarred hroom hacked => ?_⟩
      exact (exec_copy hi s).trans (outcome_of_does (hissues b (fun hbar h => ⟨hbwin hbar h, hput hbar h⟩) hbarred hroom hacked))
  · exact ⟨fun f => copySector_sourceFault rfl, fun bs f hbs => copySector_destFault rfl rfl hbs,
      fun bs d hbs hd hbar => copySector_writes rfl rfl hbs hd hbar⟩
  · exact ⟨putLands_plain s asid die cells, fun boff gen => ⟨putLands_noRecord s asid die cells boff gen, fun g o v h =>
      ⟨putLands_badRecord s asid die cells boff gen h, putLands_stale s asid die cells boff gen h⟩⟩⟩

end Sys2Proof.Machine
end

