-- ==== Sys2Proof/Proofs/Waits.lean ====
section
/-! PROOFS. O20: monitors, watches and the ends of waits (spec/04 R109, R113, R114, spec/09 R229, spec/10 R264, R277, spec/11 R283, spec/12 R327, R328). -/

namespace Sys2Proof.Machine

/-! ## SMON and SMWAIT (R113, R114, R327, R328) -/

/-- The watch that SMON leaves for the elements that its index names (R113). -/
def State.watchOf (s : State) (win : Nat) (es : List Elem) : Option Watch :=
  match es with
  | [] => none
  | e :: _ =>
    let b := e.bytes.headD ⟨0, [], false, 0⟩
    let line := (if win = 0 then b.pas.headD 0 else b.va) / 128 * 128
    some { win := win, home := s.home win, line := line, written := false
           value := (List.range 128).map fun i => if win = 0 then s.gbyte (line + i) else s.winByte win (line + i) }

theorem smon_does {f : YForm} {s s₁ : State} {k : Option Nat} {ix : Word64} {b : BitVec 128} {es : List Elem} (hmark : Gives (checkMark false) s k)
    (hix : Gives (readSA f.a) s ix) (hb : Gives (readB (f.sub.toNat % 32)) s b)
    (hes : Does (resolve { win := f.sub.toNat / 32 % 4, n := 2 ^ (s.g.recIn (f.sub.toNat % 32) b).esz, kind := 0
                           priv := f.sub.toNat / 32 % 4 == 0 && f.sub.toNat % 32 == 31 }
      (s.g.recIn (f.sub.toNat % 32) b) (scalarWant ix)) s es s₁) :
    Does (smon f) s () (({ s₁ with g := { s₁.g with watch := s₁.watchOf (f.sub.toNat / 32 % 4) es } } : State).retire 1) :=
  gives_bind hmark (gives_bind hix (gives_bind hb (gives_bind (act_get s) (does_bind (pathMask_does hes) (does_bind (does_modify _ s₁) (act_retire 1 _))))))

/-- R12, R33: the record of register 31 differs from the register in its base alone. -/
theorem recIn_esz (g : Group) (n : Nat) (b : BitVec 128) : (g.recIn n b).esz = (recOf b).esz := by
  unfold Group.recIn
  split <;> rfl

/-- What SMWAIT leaves when it does not wait. -/
theorem endWatch_atOnce (s : State) (d : BitVec 7) (st : Nat) : s.endWatch d st false
    = (({ s with g := { s.g with watch := none } } : State).setS d (BitVec.ofNat 64 st)).endWait.unhang.retireAt 1 (maxClock s.path.clock 0 + 1) := by
  simp only [State.endWatch, Bool.and_false, Bool.false_eq_true, if_false]

section
variable {f : YForm} {s : State} {k : Option Nat} {a : Word64} (hmark : Gives (checkMark false) s k) (ha : Gives (readSA f.a) s a) (hd : s.busyReg f.d = false)
include hmark ha hd

/-- SMWAIT comes to its watch once its operands are read. -/
theorem smwait_reads : runAct (smwait f) s = runAct (match s.g.watch with
    | none => modify fun s => s.endWatch f.d 2 false
    | some w =>
      if w.written then modify fun s => s.endWatch f.d 0 false
      else throw (.park { instr := .smwait f, words := 1, on := .monitor (if a = BitVec.allOnes 64 ∨ 2 ^ 64 ≤ s.regs.timer.toNat + a.toNat then none
        else some (BitVec.ofNat 64 (s.regs.timer.toNat + a.toNat))), vals := [], mark := k })) s :=
  (runAct_bind_gives hmark).trans ((runAct_bind_gives ha).trans ((runAct_bind_gives (act_get s)).trans
    (runAct_else (by rw [hd]; exact Bool.false_ne_true))))

theorem smwait_unarmed (hw : s.g.watch = none) : Does (smwait f) s () (s.endWatch f.d 2 false) := by
  rw [Does, smwait_reads hmark ha hd, hw]
  exact does_modify _ s

theorem smwait_written {w : Watch} (hw : s.g.watch = some w) (h : w.written = true) : Does (smwait f) s () (s.endWatch f.d 0 false) := by
  rw [Does, smwait_reads hmark ha hd, hw]
  exact does_then h (does_modify _ s)

theorem smwait_waits {w : Watch} (hw : s.g.watch = some w) (h : w.written = false) : Parks (smwait f) s
    { instr := .smwait f, words := 1, vals := [], mark := k
      on := .monitor (if a = 0xFFFFFFFFFFFFFFFF ∨ 2 ^ 64 ≤ s.regs.timer.toNat + a.toNat then none else some (s.regs.timer + a)) } := by
  rw [Parks, smwait_reads hmark ha hd, hw]
  refine (runAct_else (by simp [h])).trans ?_
  rw [act_throw, BitVec.ofNat_add, BitVec.ofNat_toNat, BitVec.ofNat_toNat, BitVec.setWidth_eq, BitVec.setWidth_eq]
  rfl

end

/-! ## Parking (R251, R264, R283) -/

theorem mark_frame (g : Group) (k : Option Nat) : g.mark k = { g with qflags := (g.mark k).qflags } := by
  cases k <;> rfl

theorem unmark_frame (g : Group) (k : Option Nat) : g.unmark k = { g with qflags := (g.unmark k).qflags } := by
  cases k <;> rfl

theorem qflags_mark (g : Group) (k : Option Nat) :
    (g.mark k).qflags = match k with | none => g.qflags | some k => g.qflags.set k (g.qflags.get k + 1) := by
  cases k <;> rfl

theorem settleStop_frame (g : Group) : g.settleStop = { g with stop := g.settleStop.stop } := by
  unfold Group.settleStop
  split <;> rfl

theorem stop_settleStop {g : Group} (h : g.stop ≠ .requested) : g.settleStop.stop = g.stop := by
  unfold Group.settleStop
  rw [if_neg (by simp [h])]

theorem stop_endWait (s : State) : s.endWait.g.stop = s.g.stop := by
  unfold State.endWait
  split
  · rfl
  · rw [State.setPath, Group.setPath_stop, unmark_frame]

theorem path_endWait (s : State) : s.endWait.path = { s.path with wait := none } := by
  unfold State.endWait
  split
  · next h => rw [← h]
  · rw [path_setPath]

section
variable (s : State) (w : Wait)

/-- The group whose path has parked, before it may stop. -/
def State.waiting : Group := (s.g.mark w.mark).setPath s.slot (some { s.path with wait := some w })

theorem waiting_keeps : (s.waiting w).sregs = s.g.sregs ∧ (s.waiting w).vregs = s.g.vregs ∧ (s.waiting w).qflags = (s.g.mark w.mark).qflags
    ∧ (s.waiting w).stop = s.g.stop := by
  simp only [State.waiting, Group.setPath_sregs, Group.setPath_vregs, Group.setPath_qflags, Group.setPath_stop]
  rw [mark_frame]
  simp only [and_self]

theorem park_group : ∃ y, (s.park w).g = { s.waiting w with stop := (s.waiting w).settleStop.stop, yielded := y } := by
  refine ⟨(s.park w).g.yielded, ?_⟩
  have hg : (s.park w).g = { (s.waiting w).settleStop with yielded := (s.park w).g.yielded } := rfl
  rw [hg, settleStop_frame]

theorem park_keeps : (s.park w).g.sregs = s.g.sregs ∧ (s.park w).g.vregs = s.g.vregs ∧ (s.park w).g.qflags = (s.g.mark w.mark).qflags := by
  obtain ⟨y, hg⟩ := park_group s w
  obtain ⟨hsregs, hvregs, hqflags, -⟩ := waiting_keeps s w
  rw [hg]
  exact ⟨hsregs, hvregs, hqflags⟩

theorem path_park : (s.park w).path = { s.path with wait := some w } := by
  obtain ⟨y, hg⟩ := park_group s w
  have hslot : (s.park w).slot = s.slot := rfl
  have hpath : (s.park w).path = (({ s with g := s.g.mark w.mark } : State).setPath { s.path with wait := some w }).path := by
    rw [State.path, hg, hslot]
    rfl
  rw [hpath, path_setPath]

theorem idle_park : (s.park w).g.idle = (s.waiting w).idle := by
  obtain ⟨y, hg⟩ := park_group s w
  rw [hg]
  rfl

theorem stop_park : (s.park w).g.stop = (s.waiting w).settleStop.stop := rfl

theorem stop_park_unasked (h : s.g.stop ≠ .requested) : (s.park w).g.stop = s.g.stop := by
  obtain ⟨-, -, -, hstop⟩ := waiting_keeps s w
  rw [stop_park, stop_settleStop (hstop ▸ h), hstop]

/-- R264: the group that was asked to stop, and has no other path going, stops as its last path parks. -/
theorem stop_park_idle (h : s.g.stop = .requested) (hidle : (s.park w).g.idle = true) : (s.park w).g.stop = .stopped := by
  obtain ⟨-, -, -, hstop⟩ := waiting_keeps s w
  rw [idle_park] at hidle
  rw [stop_park, settleStop_stopped (hstop.trans h) ((idle_iff _).1 hidle)]

end

/-! ## The ends of waits (R109, R114, R229, R277, R328) -/

/-- A path that waits stands in its slot. -/
theorem path?_of_wait {s : State} {w : Wait} (h : s.path.wait = some w) : s.g.path? s.slot = some s.path := by
  unfold State.path at h ⊢
  cases hp : s.g.path? s.slot with
  | none => rw [hp] at h; cases h
  | some p => rfl

section
variable {t : State} {w : Wait} {f : YForm} {d : Option Word64} (hw : t.path.wait = some w) (hon : w.on = .monitor d) (hinstr : w.instr = .smwait f)
include hw hon hinstr

theorem monitor_path : t.path.monitor = some (f.d, d) := by
  simp only [Path.monitor, hw, hon, hinstr]

theorem monitor_of_wait (hstop : t.g.stop ≠ .stopped) : t.monitor = some (f.d, d) := by
  rw [State.monitor, if_neg (by simpa using hstop), monitor_path hw hon hinstr]

end

section
variable {s t : State} {g : GroupId} {slot : Bool} (ht : s.atPath g slot t)
include ht

/-- The group that a move brings to issue is the group of its name. -/
theorem group?_atPath : s.group? g = some t.g ∧ t.slot = slot := by
  have h : s.exchange g slot = some t := ht
  unfold State.exchange at h
  unfold State.group?
  split at h
  · next hlive =>
    cases h
    exact ⟨if_pos hlive, rfl⟩
  · next hlive =>
    rw [if_neg hlive]
    split at h
    · cases h
    · next x hx =>
      cases h
      exact ⟨hx, rfl⟩

section
variable {w : Wait} (hw : t.path.wait = some w)
include hw

/-- The wait of the path that a move brings to issue, as the move's time limit finds it. -/
theorem pathOf_atPath (hstop : t.g.stop ≠ .stopped) :
    ((s.group? g).bind fun x => if x.stop == .stopped then none else x.path? slot) = some t.path := by
  obtain ⟨hg, rfl⟩ := group?_atPath ht
  rw [hg, Option.bind_some, if_neg (by simpa using hstop), path?_of_wait hw]

/-- R109: the timeline has reached the number that the path waits for. -/
theorem tlwtResume_passes {c : Ctx} {n : Word64} (hstop : t.g.stop ≠ .stopped) (hon : w.on = .timeline c n)
    (hreached : n.toNat ≤ (ctxGet t.w.timelines c).toNat) :
    exec (.tlwtResume g slot) s = .next (s.withGroup g slot fun x => x.passTimeline c n) := by
  have he : exec (.tlwtResume g slot) s = execTlwtResume g slot s := rfl
  rw [he]
  refine congrArg Host.Outcome.next (withGroup_congr ht ?_)
  simp only [hw, hon]
  rw [if_pos (by simp [hstop, Workgroup.reached, hreached])]

section
variable {f : YForm} {d : Option Word64} (hon : w.on = .monitor d) (hinstr : w.instr = .smwait f)
  (hstop : t.g.stop ≠ .stopped)
include hon hinstr hstop

theorem spuriousWake_ends : exec (.smwaitSpuriousWake g slot) s = .next (s.withGroup g slot fun x => x.endWatch f.d 0 true) := by
  have he : exec (.smwaitSpuriousWake g slot) s = execSmwaitSpuriousWake g slot s := rfl
  rw [he]
  refine congrArg Host.Outcome.next (withGroup_congr ht ?_)
  simp only [monitor_of_wait hw hon hinstr hstop]

/-- R114: the watch was written, or another path has disarmed it (log entry 80). -/
theorem monitorWake_ends (hwritten : t.g.watch.map (·.written) ≠ some false) :
    exec (.monitorWake g slot) s = .next (s.withGroup g slot fun x => x.endWatch f.d 0 true) := by
  have he : exec (.monitorWake g slot) s = execMonitorWake g slot s := rfl
  have hwatch : t.watchWritten = true := by
    unfold State.watchWritten
    cases hm : t.g.watch.map (·.written) with
    | none => rfl
    | some b => cases b with
      | false => exact absurd hm hwritten
      | true => rfl
  rw [he]
  refine congrArg Host.Outcome.next (withGroup_congr ht ?_)
  simp only [monitor_of_wait hw hon hinstr hstop]
  exact if_pos hwatch

theorem smwaitTimeout_ends {n : Word64} (hd : d = some n) : exec (.smwaitTimeout g slot) s =
    .next (State.withGroup { s with regs := { s.regs with timer := maxClock s.regs.timer n } } g slot fun x =>
      x.endWatch f.d (if x.watchWritten then 0 else 1) true) := by
  subst hd
  have he : exec (.smwaitTimeout g slot) s = execSmwaitTimeout g slot s := rfl
  rw [he, execSmwaitTimeout, pathOf_atPath ht hw hstop, Option.bind_some, monitor_path hw hon hinstr]

end

section
variable {win home off : Nat} {gen : BitVec 16} {d : BitVec 7} (hstop : t.g.stop ≠ .stopped) (hon : w.on = .barrier win home off gen d)
  (hring : (BarRec.ofNat (t.winNum win off 16)).ring = true) (hhome : home = t.home win)
include hstop hon hring hhome

theorem barrierRingTimeout_ends {f : State → State} (hf : f t =
      if (BarRec.ofNat (t.winNum win off 16)).strap then t.endWait.takeTrap { t.pathTrap cPEERLOST 3 off with kind := 2 }
      else { t with g := t.g.barDone slot (if gen.toNat = (BarRec.ofNat (t.winNum win off 16)).gen then (t.arrival win home off).now
        else (t.arrival win home off).prev) d 1 }) :
    exec (.barrierRingTimeout g slot) s = .next (s.withGroup g slot f) := by
  have he : exec (.barrierRingTimeout g slot) s = execBarrierRingTimeout g slot s := rfl
  rw [he]
  refine congrArg Host.Outcome.next (withGroup_congr ht ?_)
  simp only [hw, hon]
  rw [if_neg (by simp [hring, hhome, hstop]), hf]
  rfl

end

theorem detEventRelease_ends (hon : w.on = .order) (hlow : t.lowestFor w.instr t.g.id.node t.key (some (t.g.id, t.slot)) = true) :
    exec (.detEventRelease g slot) s = .next (s.withGroup g slot fun x => x.setPath { x.path with wait := none }) := by
  have he : exec (.detEventRelease g slot) s = execDetEventRelease g slot s := rfl
  rw [he]
  refine congrArg Host.Outcome.next (withGroup_congr ht ?_)
  simp only [hw, hon, hlow, decide_true, Bool.and_self, if_true]

end

end

/-- Settles O20: SMON and SMWAIT along their reads, what parking leaves, and the moves that end the waits. -/
theorem waits : Obligations.Waits := by
  refine ⟨⟨fun f s s₁ k ix b es hmark hix hb hes => ?_, fun f s k a hmark ha hd => ⟨fun hw => ?_, fun w hw h => ?_, fun w hw h => ?_⟩⟩,
    fun s w => ?_, fun s t g slot w ht hw hstop => ⟨fun c n hon => tlwtResume_passes ht hw hstop hon, fun d f hon hinstr =>
      ⟨spuriousWake_ends ht hw hon hinstr hstop, monitorWake_ends ht hw hon hinstr hstop, fun n => smwaitTimeout_ends ht hw hon hinstr hstop⟩, ?_,
      detEventRelease_ends ht hw⟩⟩
  · have hdoes := outcome_of_does (smon_does hmark hix hb (recIn_esz s.g _ b ▸ hes))
    refine ⟨fun hnone => ?_, fun e rest x xs hsome hbytes => ?_⟩
    · subst hnone
      exact hdoes
    · subst hsome
      simp only [State.watchOf, hbytes, List.headD_cons] at hdoes
      exact hdoes
  · exact (outcome_of_does (smwait_unarmed hmark ha hd hw)).trans (congrArg _ (endWatch_atOnce s f.d 2))
  · exact (outcome_of_does (smwait_written hmark ha hd hw h)).trans (congrArg _ (endWatch_atOnce s f.d 0))
  · exact outcome_of_parks (smwait_waits hmark ha hd hw h)
  · obtain ⟨hsregs, hvregs, hqflags⟩ := park_keeps s w
    refine ⟨path_park s w, rfl, hsregs, hvregs, rfl, rfl, rfl, hqflags.trans (qflags_mark s.g w.mark), ?_, stop_endWait _, stop_park_unasked s w,
      stop_park_idle s w⟩
    rw [path_endWait, path_park]
  · intro win home off gen d hon b hring hhome
    have hends {f : State → State} := barrierRingTimeout_ends (f := f) ht hw hstop hon hring hhome
    exact ⟨fun hstrap => hends (if_neg (Bool.eq_false_iff.1 hstrap)).symm, fun hstrap => hends (if_pos hstrap).symm⟩

end Sys2Proof.Machine
end

