-- ==== Sys2Proof/Proofs/KvIssue.lean ====
section
/-! PROOFS. O39: the issue of the key-value engines' commands (spec/15 R386, R388, R394, R395, R401, R403, R405, R406). -/

namespace Sys2Proof.Machine

theorem needACore_gives {s : State} (h : s.g.die.toNat < 2) : Gives needACore s () :=
  gives_bind (act_get s) (does_else (Nat.not_le.2 h) (does_pure () s))

/-- R386: on an F-core these words are no instructions. -/
theorem needACore_raises {s : State} (h : 2 ≤ s.g.die.toNat) : Raises needACore s (s.pathTrap cILLOP 1 0) :=
  raises_bind (act_get s) ((runAct_then h).trans (act_trapAll _ _ _ s))

theorem checkTile_of_useTile {active : Word32} {n : BitVec 11} {s : State} {t : Tile} (h : Gives (useTile active n) s t) :
    Gives (checkTile active n) s () := checkTile_gives (useTile_gives h).1

/-- A command issues once no store of its group awaits an acknowledgement, and its instruction retires (R59, R109). -/
theorem issueRetire_does {s : State} {ctx : Ctx} (i : Instr) (active : Word32) (k : Option Nat) (a : CmdArgs)
    (hacked : s.allAcked (.group s.g.id) = true) :
    Does (do let _ ← issueCommand ctx i active k a
             retireWork 3) s () ((s.issued ctx i active k a).unhang.retire 3) := by
  have hissue : Does (issueCommand ctx i active k a) s _ _ := issueCommand_does i active k a (.inr hacked)
  rw [issued_eq i active k a (.inr hacked)]
  exact does_bind hissue (act_retireWork 3 _)

theorem exec_arenaCommand {i : Instr} {l : Lane} {ctx : Ctx} (hi : arenaForm i = some (l, ctx)) (s : State) :
    exec i s = Act.outcome (arenaCommand ctx i l) s := by
  unfold arenaForm at hi
  split at hi <;> cases hi <;> rfl

section
variable {l : Lane} {s : State} {active : Word32} {k : Option Nat} (hdie : s.g.die.toNat < 2) (hstart : Gives (laneStart l) s (active, k))
  (hactive : active ≠ 0) (hacked : s.allAcked (.group s.g.id) = true)
include hdie hstart hactive hacked

theorem arenaCommand_does {i : Instr} {ctx : Ctx} {a b : Word64} (hfree : Gives (freeResult i) s ()) (ha : Gives (readS (sregOf l.va)) s a)
    (hb : Gives (readS (sregOf l.vb)) s b) :
    Does (arenaCommand ctx i l) s () ((s.issued ctx i active k { ops := [a, b] }).unhang.retire 3) :=
  gives_bind (needACore_gives hdie) (gives_bind hstart (does_else hactive (gives_bind hfree (gives_bind ha (gives_bind hb
    (issueRetire_does i active k _ hacked))))))

theorem asel_does {ops : List Word64} {t : Tile} (hfree : Gives (freeResult (.asel l)) s ()) (hops : Gives (readBlock (sregOf l.vb) 5) s ops)
    (ht : Gives (useTile active l.va) s t) (hgood : ¬ (7 < t.fmt ∨ t.rows < bitsOf (ops.getD 2 0).toNat 32 7 + (bitsOf (ops.getD 2 0).toNat 40 7 + 1))) :
    Does (asel l) s () ((s.issued .sel (.asel l) active k { ops := ops, tiles := [(l.va.toNat, false)] }).unhang.retire 3) :=
  gives_bind (needACore_gives hdie) (gives_bind hstart (gives_bind (checkTile_of_useTile ht) (does_else hactive (gives_bind hfree (gives_bind hops
    (gives_bind ht (does_else hgood (issueRetire_does _ active k _ hacked))))))))

end

section
variable {l : Lane} {s : State} {active : Word32} {k : Option Nat} {ops : List Word64} {tO tQ tS : Tile} (hdie : s.g.die.toNat < 2)
  (hstart : Gives (laneStart l) s (active, k)) (hactive : active ≠ 0) (hfree : Gives (freeResult (.attn l)) s ())
  (hops : Gives (readBlock (sregOf l.vc) 6) s ops) (hO : Gives (useTile active l.vd) s tO) (hQ : Gives (useTile active l.va) s tQ)
  (hS : Gives (useTile active l.vb) s tS)
include hdie hstart hactive hfree hops hO hQ hS

/-- ATTN comes to the check of its tiles once its operands are read (R394). -/
theorem attn_reads : runAct (attn l) s = runAct (do
      if attnBad l tO tQ tS then badRecord active
      let _ ← issueCommand .attn (.attn l) active k { ops := ops, tiles := [(l.vd.toNat, true), (l.vb.toNat, true), (l.va.toNat, false)] }
      retireWork 3) s :=
  (runAct_bind_gives (needACore_gives hdie)).trans ((runAct_bind_gives hstart).trans ((runAct_bind_gives (checkTile_of_useTile hO)).trans
    ((runAct_bind_gives (checkTile_of_useTile hQ)).trans ((runAct_bind_gives (checkTile_of_useTile hS)).trans ((runAct_else hactive).trans
      ((runAct_bind_gives hfree).trans ((runAct_bind_gives hops).trans ((runAct_bind_gives hO).trans ((runAct_bind_gives hQ).trans
        (runAct_bind_gives hS))))))))))

theorem attn_does (hgood : attnBad l tO tQ tS = false) (hacked : s.allAcked (.group s.g.id) = true) :
    Does (attn l) s () ((s.issued .attn (.attn l) active k
      { ops := ops, tiles := [(l.vd.toNat, true), (l.vb.toNat, true), (l.va.toNat, false)] }).unhang.retire 3) := by
  rw [Does, attn_reads hdie hstart hactive hfree hops hO hQ hS, hgood]
  exact issueRetire_does _ active k _ hacked

theorem attn_refused (hbad : attnBad l tO tQ tS = true) :
    Raises (attn l) s { cause := cPROT, sub := 3, lmask := active, va := 0, kind := 0, level := 0xF } := by
  rw [Raises, attn_reads hdie hstart hactive hfree hops hO hQ hS, hbad]
  exact raises_first (act_trapAt ..)

end

theorem engine_onFCore {i : Instr} {l : Lane} {s : State} (hdie : 2 ≤ s.g.die.toNat) (hi : i = .attn l ∨ i = .asel l ∨ ∃ c, arenaForm i = some (l, c)) :
    exec i s = .next (s.takeTrap (s.pathTrap cILLOP 1 0)) := by
  rcases hi with rfl | rfl | ⟨c, hc⟩
  · exact outcome_of_raises (a := attn l) (raises_first (needACore_raises hdie))
  · exact outcome_of_raises (a := asel l) (raises_first (needACore_raises hdie))
  · exact (exec_arenaCommand hc s).trans (outcome_of_raises (raises_first (needACore_raises hdie)))

end Sys2Proof.Machine
end

