-- ==== Sys2Proof/Proofs/KvPhases.lean ====
section
/-! PROOFS. O39: the phases of the key-value engines' commands (spec/15 R388, R397, R402, R403, R405, R406). -/

namespace Sys2Proof.Machine

/-! ## Their events (R397, R402, R403, R405, R406) -/

section
variable {s : State} {id : CmdId} {c : Command} {l : Lane} (hrun : s.runnable id = some c)
include hrun

section
variable (hi : c.instr = .attn l)
include hi

theorem attn_begins (h : c.phase = 0) : Acts (.kvSnapshot (.cmd id)) s c fun u => u.attnBegin c (attnArgs c l) :=
  cmdEvent_acts hrun rfl fun u => by simp only [State.cmdSnapshot, hi, h, if_true]

theorem attn_snapshots (h : c.phase = 1) : Acts (.kvSnapshot (.cmd id)) s c fun u => u.attnSnapshot c (attnArgs c l) :=
  cmdEvent_acts hrun rfl fun u => by simp [State.cmdSnapshot, hi, h]

theorem attn_computes {p : Pin} (h : c.phase = 2) (hp : c.pins[c.pos - c.val kMassed]? = some p) :
    Acts (.attnComplete id) s c fun u => u.attnPage c (attnArgs c l) p :=
  cmdEvent_acts hrun rfl fun u => by simp only [hi, h, if_true, hp]

theorem attn_masses (h : c.phase = 7 ∨ c.phase = 8) : Acts (.kvMassTransaction id) s c fun u => u.attnMass c (attnArgs c l) :=
  cmdEvent_acts hrun rfl fun u => by
    simp only [hi]
    exact if_pos (by simpa using h)

theorem attn_unpins (h : c.phase = 3) : Acts (.kvUnpinTransaction (.cmd id)) s c fun u => u.cmdUnpin c 6 :=
  cmdEvent_acts hrun rfl fun u => by simp only [hi, h, if_true]

theorem attn_writes (h : c.phase = 4) : Acts (.attnComplete id) s c fun u =>
    let v := u.attnOutput c (attnArgs c l)
    match v.runnable id with
    | none => v
    | some y => if (releaseDue y 1).isSome then v.modCmd id fun z => { z with phase := 5 } else v.giveResult y y.attnWord :=
  cmdEvent_acts hrun rfl fun u => by
    simp only [hi]
    rw [if_neg (by omega), if_pos h] <;> rfl

theorem attn_releases (h : c.phase = 5) : Acts (.kvWindowRelease id) s c fun u => u.cmdRun c c.pos (do
    let a ← beginOn (attnArgs c l).arena
    match releaseDue c a.t with
    | some q =>
      let _ ← releasePrefix a (c.val kSeq) q
      pure ()
    | none => pure ()) fun v _ => v.modCmd id fun y => { y with phase := 6 } := by
  obtain rfl := runnable_id hrun
  exact cmdEvent_acts hrun rfl fun u => by simp only [hi, h] <;> rfl

theorem attn_ends (h : c.phase = 6) : Acts (.attnComplete id) s c fun u => u.giveResult c c.attnWord :=
  cmdEvent_acts hrun rfl fun u => by
    simp only [hi]
    rw [if_neg (by omega), if_neg (by omega), if_pos h]

end

section
variable (hi : c.instr = .asel l)
include hi

theorem asel_snapshots (h : c.phase = 0) : Acts (.kvSnapshot (.cmd id)) s c fun u => u.selSnapshot c (u.tile l.va.toNat) :=
  cmdEvent_acts hrun rfl fun u => by simp only [State.cmdSnapshot, hi, h, if_true]

theorem asel_ranks (h : c.phase = 1) : Acts (.aselComplete id) s c fun u => u.selRank c (u.tile l.va.toNat) :=
  cmdEvent_acts hrun rfl fun u => by simp only [hi, h, if_true]

theorem asel_unpins (h : c.phase = 2) : Acts (.kvUnpinTransaction (.cmd id)) s c fun u => u.cmdUnpin c 3 :=
  cmdEvent_acts hrun rfl fun u => by simp only [hi, h, if_true]

theorem asel_ends (h : c.phase = 3 ∨ (c.phase = 2 ∧ c.pins = [])) : Acts (.aselComplete id) s c fun u =>
    if u.allAcked (.cmd id) then u.giveResult c (c.val 1 % 65536 + c.val 0 % 65536 * 65536) else u :=
  cmdEvent_acts hrun rfl fun u => by
    have hphase : (c.phase = 3 || (c.phase = 2 && c.pins.isEmpty)) = true := by simpa using h
    have hword : place (c.vals.get 1).toNat 0 16 + place (c.vals.get 0).toNat 16 16 = c.val 1 % 65536 + c.val 0 % 65536 * 65536 := by
      simp [place, Command.val]
    simp only [hi, hphase, hword, if_true]
    rw [if_neg (by omega)]
    cases u.allAcked (.cmd id) <;> rfl

end

section
variable (hi : c.instr = .asumu l)
include hi

theorem asumu_snapshots (h : c.phase = 0) : Acts (.kvSnapshot (.cmd id)) s c fun u => u.sumSnapshot c :=
  cmdEvent_acts hrun rfl fun u => by simp only [State.cmdSnapshot, hi, h, if_true]

theorem asumu_sums {p : Pin} {rest : List Pin} (h : c.pins = p :: rest) : Acts (.asumuComplete id) s c fun u => u.cmdRun c 1 (do
    let a ← beginOn (c.op 0)
    sumFinish a p.snap (c.val 0)) fun v st => v.giveResult c st :=
  cmdEvent_acts hrun rfl fun u => by
    simp only [hi, h]
    rfl

theorem asumu_noPage (hp : c.pins = []) (h : c.phase = 2) : Acts (.asumuComplete id) s c fun u => u.giveResult c 6 :=
  cmdEvent_acts hrun rfl fun u => by
    simp only [hi, hp, h, if_true]
    rfl

end

theorem kvdem_snapshots (hi : c.instr = .kvdem l) (h : c.phase = 0) : Acts (.kvSnapshot (.cmd id)) s c fun u => u.demSnapshot c :=
  cmdEvent_acts hrun rfl fun u => by simp only [State.cmdSnapshot, hi, h, if_true]

section
variable (hi : c.instr = .kvsweep l)
include hi

theorem kvsweep_decides (h : c.phase = 0) : Acts (.kvSweepDecision id) s c fun u =>
    u.cmdRun c c.pos (do
      let a ← beginOn (c.op 0)
      let n := c.op 1 % 65536 + c.pos
      if min (c.op 1 / 65536 % 65536) a.kvmax < n then pure none else some <$> sweepDecision a n) fun v r =>
    match r with
    | none => v.giveResult c c.sweepWord
    | some true => v.modCmd c.id fun x => { x with phase := 2 }
    | some false => v.modCmd c.id fun x => { x with pos := x.pos + 1 } := by
  have hindex : c.demIndex = c.op 1 % 65536 + c.pos := by simp [Command.demIndex, hi, bitsOf]
  have hlast : bitsOf (c.op 1) 16 16 = c.op 1 / 65536 % 65536 := rfl
  obtain rfl := runnable_id hrun
  exact cmdEvent_acts hrun rfl fun u => by
    simp only [hi, h, hindex, hlast, ne_eq, not_true, if_false] <;> rfl

theorem kvsweep_snapshots (h : c.phase = 2) : Acts (.kvSnapshot (.cmd id)) s c fun u => u.demSnapshot c :=
  cmdEvent_acts hrun rfl fun u => by simp only [State.cmdSnapshot, hi, h, if_true]

end

section
variable {p : Pin} {rest : List Pin} (hctx : c.id.ctx = .dem) (hp : c.pins = p :: rest)
include hctx hp

theorem dem_pops (h : c.phase = 3) : Acts (.kvDemotionSwap id) s c fun u => u.demPop c p.snap :=
  cmdEvent_acts hrun rfl fun u => by
    simp only [h, hp]
    exact if_neg (by simp [hctx])

theorem dem_swaps (h : c.phase = 1) : Acts (.kvDemotionSwap id) s c fun u =>
    u.cmdRun c c.pos (do
      let a ← beginOn (c.op 0)
      convertAndSwap a p.snap (c.val 1) (c.val 0) c.nanTrap) fun v r => match r with
    | .error (t, j) => v.engineStop c (nanTrapOf c 0 t j) c.pos
    | .ok (st, fl) => (v.cmdFlags c fl).stepEnds c st :=
  cmdEvent_acts hrun rfl fun u => by
    simp only [h, hp]
    exact (if_neg (by simp [hctx])).trans rfl

end

end

end Sys2Proof.Machine
end

