-- ==== Sys2Proof/Proofs/KvOperands.lean ====
section
/-! PROOFS. O39: what no phase of these commands changes: registers, tiles and the scratchpad (spec/15 R388, R397, R402, R403). -/

namespace Sys2Proof.Machine

/-! ## Translations that write the tables (R25, R27, R143) -/

theorem lasting_refillLeaf (s : State) (a : Where) (asid : BitVec 12) (va : Nat) (l : Leaf) : (s.refillLeaf a asid va l).lasting = s.lasting := by
  rw [State.refillLeaf, lasting_fillTlb, lasting_dropLeaf]

theorem lasting_requestLine (s : State) (x : Xlat) (write alloc : Bool) : (s.requestLine x write alloc).lasting = s.lasting :=
  foldl_keeps State.lasting (fun t p _ => by
    rw [lasting_lineRequest]
    split
    · rfl
    · exact lasting_settleHost t p) s

theorem lasting_setDirty (s : State) (a : Where) (asid : BitVec 12) (need : Need) (va : Nat) :
    (s.setDirty a asid need va).1.lasting = s.lasting := by
  unfold State.setDirty
  split
  · rfl
  · next l _ =>
    have hbit := lasting_orLeaf s l 10
    generalize s.orLeaf l 10 = r at hbit ⊢
    split
    · rfl
    · obtain ⟨s₁, _ | _⟩ := r
      · have htranslate := lasting_translate (s₁.dropLeaf a asid va) a asid need va
        rw [lasting_dropLeaf] at htranslate
        simp only []
        generalize (s₁.dropLeaf a asid va).translate a asid need va = y at htranslate ⊢
        obtain ⟨s₂, f | x⟩ := y
        · exact htranslate.trans hbit
        · calc _ = (s₂.orLeaf x.leaf 10).1.lasting := ite_keeps State.lasting (lasting_refillLeaf _ a asid va _)
            _ = s₂.lasting := lasting_orLeaf s₂ x.leaf 10
            _ = s.lasting := htranslate.trans hbit
      · exact (lasting_refillLeaf _ a asid va _).trans hbit

theorem lasting_leafOf (s : State) (c : KvCtx) (va : Nat) : (s.leafOf c va).1.lasting = s.lasting := by
  unfold State.leafOf
  split
  · rfl
  · split
    · rfl
    · split
      · rfl
      · exact lasting_walk s c.place c.asid va true

theorem lasting_orTier {s t : State} {l : Leaf} {tier : Nat} (h : s.orTier l tier = some t) : t.lasting = s.lasting := by
  unfold State.orTier at h
  simp only [] at h
  split at h
  · cases h
  · split at h
    · cases h; rfl
    · cases h; exact lasting_plainStore s _

theorem lasting_orTier_getD (s : State) (l : Leaf) (tier : Nat) : ((s.orTier l tier).getD s).lasting = s.lasting := by
  cases h : s.orTier l tier with
  | none => rfl
  | some t => exact lasting_orTier h

theorem lasting_setTier (s : State) (c : KvCtx) (va tier : Nat) : (s.setTier c va tier).1.lasting = s.lasting := by
  have hleaf := lasting_leafOf s c va
  unfold State.setTier
  generalize s.leafOf c va = r at hleaf ⊢
  obtain ⟨s₁, f | l⟩ := r
  · exact hleaf
  · simp only [] at hleaf ⊢
    have hlines := lasting_plainLines s₁ [l.pa]
    generalize s₁.plainLines [l.pa] = u at hlines ⊢
    split
    · next t ht => exact (lasting_orTier ht).trans (hlines.trans hleaf)
    · have hagain := lasting_leafOf (u.dropLeaf c.place c.asid va) c va
      rw [lasting_dropLeaf] at hagain
      generalize (u.dropLeaf c.place c.asid va).leafOf c va = y at hagain ⊢
      obtain ⟨s₂, f | l₂⟩ := y
      · exact hagain.trans (hlines.trans hleaf)
      · exact (lasting_orTier_getD s₂ l₂ tier).trans (hagain.trans (hlines.trans hleaf))

/-! ## The operands of the instructions -/

/-- What holds the operands and the results of instructions: the registers of the group at issue, its workgroup's tiles and scratchpad. -/
def State.operands (s : State) : SMap 64 × SMap 32 × SMap 256 × SMap 8 := (s.g.sregs, s.g.vregs, s.w.tiles, s.w.scr)

theorem operands_of_lasting {s t : State} (h : t.lasting = s.lasting) : t.operands = s.operands := view_of_lasting State.operands (fun _ => rfl) h

theorem operands_setDie (s : State) (d : BitVec 2) (x : Die) : (s.setDie d x).operands = s.operands := by rw [setDie_frame]; rfl

theorem operands_enterWalker (s : State) (d : BitVec 2) (w : Waiter) : (s.enterWalker d w).operands = s.operands := operands_setDie _ _ _

theorem operands_leaveWalker (s : State) (d : BitVec 2) (who : Sys2Proof.Requester) : (s.leaveWalker d who).operands = s.operands :=
  (apply_ite State.operands _ _ _).trans (by rw [operands_setDie, ite_self])

/-- A command that notes something of itself changes its own record alone. -/
theorem operands_modCmd (s : State) (id : CmdId) (f : Command → Command) : (s.modCmd id f).operands = s.operands := by
  unfold State.modCmd State.modWg
  split <;> rfl

/-- A group that is told of a fault or a flag keeps its registers. -/
theorem operands_modGroup {f : Group → Group} (hs : ∀ g, (f g).sregs = g.sregs) (hv : ∀ g, (f g).vregs = g.vregs) (s : State) (i : GroupId) :
    (s.modGroup i f).operands = s.operands := by
  unfold State.modGroup
  split
  · simp only [State.operands, hs, hv]
  · rfl

theorem operands_engineStop (s : State) (c : Command) (t : Trap) (elem : Nat) : (s.engineStop c t elem).operands = s.operands := by
  unfold State.engineStop
  split
  · rfl
  · exact (operands_modGroup (f := fun g => { g with pending := g.pending ++ [c.deliver t elem true] }) (fun _ => rfl) (fun _ => rfl) _ _).trans
      (operands_modCmd _ _ _)

theorem operands_cmdFlags (s : State) (c : Command) (f : FpFlags) : (s.cmdFlags c f).operands = s.operands :=
  operands_modGroup (f := fun g => g.setFlags f) (fun _ => rfl) (fun _ => rfl) s c.group

theorem operands_emitCmd (s : State) (c : Command) (sub : Nat) (ws : List (Nat × List Byte)) : (s.emitCmd c sub ws).operands = s.operands := by
  unfold State.emitCmd
  split <;> rfl

/-- R27, R157: a key-value write asks for its line, stores, and notes the store and the acknowledgements it awaits. -/
theorem operands_stored (s : State) (x : Xlat) (ws : List (Nat × Byte)) (addrs : List Nat) (i : Issuer) :
    ((((s.requestLine x true false).devStore ws).noteOwn addrs).awaitAcksOf i addrs).operands = s.operands :=
  calc _ = ((s.requestLine x true false).devStore ws).operands := rfl
    _ = s.operands := operands_of_lasting (by rw [lasting_devStore, lasting_requestLine])

/-! ## A transaction keeps them (R146) -/

section
variable (v : SMap 64 × SMap 32 × SMap 256 × SMap 8)

/-- The operands as a run finds them. -/
def KvRun.operandsAre (r : KvRun) : Prop := r.s.operands = v

theorem xlat_keepsOperands (need : Need) (va : Nat) : KvKeeps (KvRun.operandsAre v) (kvXlat need va) := by
  intro c r x r' h hr
  obtain ⟨s, hs, rfl⟩ := kvXlat_does h
  have htranslate := lasting_translate r.s c.place c.asid need (va / 128 * 128)
  rw [hs] at htranslate
  exact (operands_of_lasting htranslate).trans hr

theorem pa_keepsOperands (need : Need) (va : Nat) : KvKeeps (KvRun.operandsAre v) (kvPa need va) :=
  keeps_bind (xlat_keepsOperands v need va) fun x =>
    keeps_bind (keeps_modify fun r hr => (operands_of_lasting (lasting_requestLine r.s x false true)).trans hr) fun _ => keeps_pure _

theorem writeLines_keepsOperands (need : Need) (parts : List (List Byte)) : ∀ va, KvKeeps (KvRun.operandsAre v) (kvWriteLines need va parts) := by
  induction parts with
  | nil => exact fun va => keeps_pure _
  | cons bs rest ih =>
    intro va
    refine keeps_bind keeps_read fun k => keeps_bind (xlat_keepsOperands v need va) fun x => keeps_get_bind fun c r y r' h hr => ?_
    have hdirty := lasting_setDirty r.s k.place k.asid need (va / 128 * 128)
    simp only [] at h
    generalize r.s.setDirty k.place k.asid need (va / 128 * 128) = z at h hdirty
    obtain ⟨s₁, f | z⟩ := z
    · obtain ⟨_, _, hflt, -⟩ := kvDoes_bind.1 h
      exact absurd hflt kvDoes_flt
    · obtain ⟨_, _, hset, h⟩ := kvDoes_bind.1 h
      rw [kvDoes_set.1 hset] at h
      exact ih _ _ _ _ _ h ((operands_stored _ _ _ _ _).trans ((operands_of_lasting hdirty).trans hr))

theorem tiers_keepsOperands (tier : Nat) (vas : List Nat) : KvKeeps (KvRun.operandsAre v) (setTiers tier vas) := by
  induction vas with
  | nil => exact keeps_pure _
  | cons va rest ih =>
    refine keeps_bind keeps_read fun k => keeps_get_bind fun c r x r' h hr => ?_
    have htier := lasting_setTier r.s k va tier
    simp only [] at h
    generalize r.s.setTier k va tier = y at h htier
    obtain ⟨_, _, hset, h⟩ := kvDoes_bind.1 h
    rw [kvDoes_set.1 hset] at h
    obtain ⟨s, _ | f⟩ := y
    · exact ih _ _ _ _ h ((operands_of_lasting htier).trans hr)
    · exact absurd h kvDoes_flt

theorem operands_invariant : KvInvariant (KvRun.operandsAre v) where
  pa := pa_keepsOperands v
  writeLines := writeLines_keepsOperands v
  tiers := tiers_keepsOperands v
  arena _ _ hr := hr
  oldSlots r d _ hr := (operands_setDie r.s d _).trans hr

end

/-- A transaction keeps the operands, whether it takes effect, waits or faults. -/
theorem operands_runKv {α : Type} {k : Kv α} (s : State) (c : KvCtx) (hk : KvKeeps (KvRun.operandsAre s.operands) k) :
    (s.runKv c k).1.operands = s.operands := by
  have htranslations (xs : List (Nat × Need)) : (xs.foldl (fun s x => (s.translate c.place c.asid x.2 x.1).1) s).operands = s.operands :=
    operands_of_lasting (foldl_keeps State.lasting (fun t x _ => lasting_translate t c.place c.asid x.2 x.1) s)
  unfold State.runKv
  rcases hrun : ((k.run c).run).run { s := s } with ⟨e | a, r⟩
  · simp only []
    split
    · exact (operands_enterWalker _ _ _).trans (htranslations _)
    · exact (operands_leaveWalker _ _ _).trans (htranslations _)
    · exact htranslations _
  · have hr : r.s.operands = s.operands := hk c _ a r hrun rfl
    simp only []
    split <;> split
    · exact (operands_leaveWalker _ _ _).trans hr
    · exact hr
    · exact (operands_leaveWalker _ _ _).trans hr
    · exact hr

/-- A command's transaction keeps the operands where what it notes afterwards does. -/
theorem operands_cmdRun {α : Type} {k : Kv α} {f : State → α → State} (s : State) (c : Command) (sub : Nat)
    (hk : KvKeeps (KvRun.operandsAre s.operands) k) (hf : ∀ t a, (f t a).operands = t.operands) : (s.cmdRun c sub k f).operands = s.operands := by
  have hrun := operands_runKv s (s.kvOf c) hk
  unfold State.cmdRun
  split
  · rfl
  · generalize s.runKv (s.kvOf c) k = r at hrun ⊢
    obtain ⟨t, (⟨g, va, wr⟩ | on | _) | ⟨a, ws⟩⟩ := r
    · exact (operands_engineStop _ _ _ _).trans hrun
    · exact hrun
    · exact hrun
    · exact (hf _ _).trans ((operands_emitCmd _ _ _ _).trans hrun)

/-! ## The parts of these transactions (R397, R402, R403) -/

section
variable {I : KvRun → Prop} (h : KvInvariant I)
include h

theorem keeps_readBytesAs (need : Need) (va n : Nat) : KvKeeps I (readBytesAs need va n) := keeps_readLines h need _ va

theorem keeps_readListEntry (list i : Nat) : KvKeeps I (readListEntry list i) :=
  keeps_bind (keeps_readBytesAs h _ _ _) fun _ => keeps_check (keeps_brec _) (keeps_pure _)

theorem keeps_readCum (fuel : Nat) : ∀ va, KvKeeps I (readCum va fuel) := by
  induction fuel with
  | zero => exact fun va => keeps_pure _
  | succ n ih =>
    exact fun va => keeps_bind (keeps_readBytesAs h _ _ _) fun _ => keeps_ite (keeps_pure _) (keeps_bind (ih _) fun _ => keeps_pure _)

theorem keeps_rowsOf (x : AttnArgs) (q : Nat) : KvKeeps I (rowsOf x q) :=
  keeps_ite (keeps_pure _) (keeps_bind (keeps_readCum h _ _) fun _ => keeps_check (keeps_brec _) (keeps_check (keeps_brec _) (keeps_pure _)))

theorem keeps_attnSequence (x : AttnArgs) (tQ tO : Tile) : KvKeeps I (attnSequence x tQ tO) :=
  keeps_bind (keeps_beginOn h _) fun a => keeps_check (keeps_brec _) (keeps_bind (keeps_rowsOf h x _) fun _ =>
    keeps_ite (keeps_pure _) (keeps_bind (keeps_readSeq h a _) fun _ => keeps_ite (keeps_pure _) (keeps_check (keeps_brec _) (keeps_pure _))))

theorem keeps_snapshot (a : Arena) (k : Nat) : KvKeeps I (snapshot a k) :=
  keeps_ite (keeps_pure _) (keeps_bind (keeps_readPte h a k) fun _ => keeps_ite (keeps_pure _) (keeps_bind (keeps_pinPage h a _) fun _ => keeps_pure _))

theorem keeps_readSum (a : Arena) (i : Nat) : KvKeeps I (readSum a i) := keeps_bind (keeps_kvBytes h _ _) fun _ => keeps_pure _

theorem keeps_dropPin (a : Arena) (k : Nat) : KvKeeps I (dropPin a k) :=
  keeps_bind (keeps_readPte h a k) fun _ => keeps_check (keeps_brec _) (keeps_unpinPage h a _)

theorem keeps_massAndUnpin (a : Arena) (k inc : Nat) : KvKeeps I (massAndUnpin a k inc) :=
  keeps_bind (keeps_readPte h a k) fun _ => keeps_check (keeps_brec _) (keeps_unpinPage h a _)

theorem keeps_writeRanked (out scores : Nat) (rs : List Scored) : ∀ i, KvKeeps I (writeRanked out scores i rs) := by
  induction rs with
  | nil => exact fun i => keeps_pure _
  | cons r rest ih => exact fun i => keeps_bind (h.writeLines _ _ _) fun _ => keeps_choice (h.writeLines _ _ _) (keeps_pure ()) fun _ => ih _

end

/-! ## The events (R388, R397, R402, R403) -/

section
variable (s : State) (c : Command) (x : AttnArgs) (t : Tile)

theorem operands_attnBegin : (s.attnBegin c x).operands = s.operands :=
  operands_cmdRun s c 0 (keeps_attnSequence (operands_invariant _) x _ _) fun _ _ => operands_modCmd _ _ _

theorem operands_reachEntry (list i : Nat) : (s.reachEntry c list i).operands = s.operands := by
  unfold State.reachEntry
  split
  · rfl
  · exact operands_cmdRun s c i (keeps_readListEntry (operands_invariant _) list i) fun _ _ => operands_modCmd _ _ _

theorem operands_atEntry (list i : Nat) {f : State → Command → PageEntry → State} (hf : ∀ u y e, (f u y e).operands = u.operands) :
    (s.atEntry c list i f).operands = s.operands := by
  unfold State.atEntry
  simp only []
  split
  · exact operands_reachEntry s c list i
  · split
    · exact operands_reachEntry s c list i
    · exact (hf _ _ _).trans (operands_reachEntry s c list i)

theorem operands_attnSnapshot : (s.attnSnapshot c x).operands = s.operands :=
  operands_atEntry s c x.list _ fun u y _ => operands_cmdRun u y _
    (keeps_bind (keeps_beginOn (operands_invariant _) _) fun a => keeps_check (keeps_brec _) (keeps_snapshot (operands_invariant _) a _))
    fun _ _ => operands_modCmd _ _ _

theorem operands_attnMass : (s.attnMass c x).operands = s.operands := by
  unfold State.attnMass
  simp only []
  split
  · exact (operands_engineStop _ _ _ _).trans (operands_modCmd _ _ _)
  · split
    · rfl
    · exact operands_cmdRun s c _ (keeps_bind (keeps_beginOn (operands_invariant _) _) fun a => keeps_massAndUnpin (operands_invariant _) a _ _)
        fun _ _ => operands_modCmd _ _ _

theorem operands_selSnapshot : (s.selSnapshot c t).operands = s.operands :=
  operands_atEntry s c (c.op 1) c.pos fun u y _ => operands_cmdRun u y _
    (keeps_bind (keeps_beginOn (operands_invariant _) _) fun a => keeps_check (keeps_brec _) (keeps_bind (keeps_snapshot (operands_invariant _) a _)
      fun m => by
        cases m with
        | none => exact keeps_pure _
        | some m => exact keeps_bind (keeps_readSum (operands_invariant _) a _) fun _ => keeps_pure _))
    fun _ _ => operands_modCmd _ _ _

theorem operands_selRank : (s.selRank c t).operands = s.operands := by
  unfold State.selRank
  split
  · exact operands_engineStop _ _ _ _
  · simp only []
    split
    · exact operands_engineStop _ _ _ _
    · exact operands_cmdRun s c _ (keeps_writeRanked (operands_invariant _) _ _ _ 0) fun _ _ =>
        (operands_modCmd _ _ _).trans (operands_cmdFlags _ _ _)

theorem operands_sumSnapshot : (s.sumSnapshot c).operands = s.operands :=
  operands_cmdRun s c 0 (keeps_bind (keeps_beginOn (operands_invariant _) _) fun a =>
    keeps_bind (keeps_snapshot (operands_invariant _) a _) fun _ => keeps_pure _) fun _ _ => operands_modCmd _ _ _

theorem operands_cmdUnpin (last : Nat) : (s.cmdUnpin c last).operands = s.operands := by
  unfold State.cmdUnpin
  split
  · exact operands_modCmd _ _ _
  · exact operands_cmdRun s c _ (keeps_bind (keeps_beginOn (operands_invariant _) _) fun a => keeps_dropPin (operands_invariant _) a _)
      fun _ _ => operands_modCmd _ _ _

/-- None of these events changes a register, a tile or the scratchpad. -/
theorem engine_keepsOperands {u : State}
    (hu : u ∈ [s.attnBegin c x, s.attnSnapshot c x, s.attnMass c x, s.selSnapshot c t, s.selRank c t, s.sumSnapshot c, s.cmdUnpin c 3]) :
    u.g.sregs = s.g.sregs ∧ u.g.vregs = s.g.vregs ∧ u.w.tiles = s.w.tiles ∧ u.w.scr = s.w.scr := by
  have hoperands : ∀ u ∈ [s.attnBegin c x, s.attnSnapshot c x, s.attnMass c x, s.selSnapshot c t, s.selRank c t, s.sumSnapshot c, s.cmdUnpin c 3],
      u.operands = s.operands := by
    simp only [List.forall_mem_cons, List.not_mem_nil, false_imp_iff, implies_true, and_true]
    exact ⟨operands_attnBegin s c x, operands_attnSnapshot s c x, operands_attnMass s c x, operands_selSnapshot s c t, operands_selRank s c t,
      operands_sumSnapshot s c, operands_cmdUnpin s c 3⟩
  simpa only [State.operands, Prod.mk.injEq] using hoperands u hu

end

end Sys2Proof.Machine
end

