-- ==== Sys2Proof/Proofs/KvPages.lean ====
section
/-! PROOFS. O39: the transactions of the key-value engines on a page, and what a run of one does to its command (spec/06 R124, R146, R150,
R162, R167, spec/15 R403). -/

namespace Sys2Proof.Machine

/-! ## Parts of a transaction put together (R146) -/

section
variable {α β : Type} {c : KvCtx} {r r₁ r₂ : KvRun} {x : α} {y : β}

theorem kvDoes_seq {k : Kv α} {f : α → Kv β} (hk : KvDoes k c r x r₁) (hf : KvDoes (f x) c r₁ y r₂) : KvDoes (k >>= f) c r y r₂ :=
  kvDoes_bind.2 ⟨x, r₁, hk, hf⟩

theorem kvDoes_end (x : α) : KvDoes (pure x) c r x r := kvDoes_pure.2 ⟨rfl, rfl⟩

theorem kvDoes_then {p : Prop} [Decidable p] {j k : Kv α} (hp : p) (h : KvDoes j c r x r₁) : KvDoes (if p then j else k) c r x r₁ :=
  (if_pos hp).symm ▸ h

theorem kvDoes_else {p : Prop} [Decidable p] {j k : Kv α} (hp : ¬ p) (h : KvDoes k c r x r₁) : KvDoes (if p then j else k) c r x r₁ :=
  (if_neg hp).symm ▸ h

/-- A transaction that must wait stops before its first part. -/
theorem kvRun_stops {p : KvRun → Prop} [DecidablePred p] {e : KvStop} {f : KvRun → α → Kv β} {k : KvRun → Kv β} (h : p r) :
    (((get >>= fun u => if p u then (throw e : Kv α) >>= f u else k u).run c).run).run r = (.error e, r) := by
  show (((if p r then (throw e : Kv α) >>= f r else k r).run c).run).run r = _
  rw [if_pos h]
  rfl

end

/-! ## Pins (R150, R162, R397) -/

section
variable {a : Arena} {k inc : Nat} {c : KvCtx} {r r₁ r₂ r₃ : KvRun} {e : Kvpte}

theorem snapshot_outside (h : a.kvmax < k) : KvDoes (snapshot a k) c r none r := kvDoes_then h (kvDoes_end _)

/-- R389, R150: the entry that is read is the one that was asked for. -/
theorem readPte_k (hread : KvDoes (readPte a k) c r e r₁) : e.k = k := by
  obtain ⟨n, r', -, h⟩ := kvDoes_bind.1 hread
  simp only [] at h
  split at h
  · obtain ⟨_, _, hstop, -⟩ := kvDoes_bind.1 h
    exact absurd hstop kvDoes_throw
  · rw [(kvDoes_pure.1 h).1]
    rfl

/-- R150: a page that stays pinned is written back; it is settled only when its last pin goes. -/
theorem unpinPage_stays (e : Kvpte) (h : 2 ≤ e.pins) (hwrite : KvDoes (writePte a { e with pins := e.pins - 1 }) c r₁ () r₂) :
    KvDoes (unpinPage a e) c r₁ () r₂ :=
  kvDoes_seq hwrite (kvDoes_else (show ¬ e.pins - 1 = 0 by omega) (kvDoes_end _))

variable (hread : KvDoes (readPte a k) c r e r₁)
include hread

theorem snapshot_free (hk : k ≤ a.kvmax) (hfree : e.free = true) : KvDoes (snapshot a k) c r none r₁ :=
  kvDoes_else (by omega) (kvDoes_seq hread (kvDoes_then hfree (kvDoes_end _)))

theorem snapshot_pins {ahead : List WalkerWait} (hk : k ≤ a.kvmax) (hlive : e.free = false) (hpins : e.pins ≠ 255)
    (hahead : KvDoes (kvAhead a) c r₁ ahead r₁) (hturn : .pin k ∉ ahead) (hwrite : KvDoes (writePte a { e with pins := e.pins + 1 }) c r₁ () r₂) :
    KvDoes (snapshot a k) c r (some { e with pins := e.pins + 1 }) r₂ := by
  have hroom : ¬ (e.pins = 255 || ahead.contains (.pin e.k)) = true := by
    rw [readPte_k hread]
    simp [hpins, hturn]
  have hpin : KvDoes (pinPage a e) c r₁ () r₂ := kvDoes_seq hahead (kvDoes_else hroom hwrite)
  exact kvDoes_else (by omega) (kvDoes_seq hread (kvDoes_else (by simp [hlive]) (kvDoes_seq hpin (kvDoes_end _))))

theorem massAndUnpin_stays (h : 2 ≤ e.pins)
    (hwrite : KvDoes (writePte a { e with mass := min (e.mass + inc) 0xFFFFFFFF, pins := e.pins - 1 }) c r₁ () r₂) :
    KvDoes (massAndUnpin a k inc) c r () r₂ :=
  kvDoes_seq hread (kvDoes_else (by omega) (unpinPage_stays { e with mass := min (e.mass + inc) 0xFFFFFFFF } h hwrite))

theorem massAndUnpin_settles (h : e.pins = 1)
    (hsettle : KvDoes (settlePage a { e with mass := min (e.mass + inc) 0xFFFFFFFF, pins := 0 }) c r₁ () r₂) :
    KvDoes (massAndUnpin a k inc) c r () r₂ := by
  refine kvDoes_seq hread (kvDoes_else (by omega) ?_)
  simpa only [unpinPage, h] using hsettle

theorem dropPin_stays (h : 2 ≤ e.pins) (hwrite : KvDoes (writePte a { e with pins := e.pins - 1 }) c r₁ () r₂) : KvDoes (dropPin a k) c r () r₂ :=
  kvDoes_seq hread (kvDoes_else (by omega) (unpinPage_stays e h hwrite))

end

/-! ## The swap of a demotion (R167, R406) -/

section
variable {a : Arena} {k gen fmt' n : Nat} {c : KvCtx} {r r₁ r₂ r₃ : KvRun} {e : Kvpte}

theorem demotionSwap_waits (h : 64 ≤ (r.s.die a.home).oldSlots.length) :
    (((demotionSwap a k gen fmt' n).run c).run).run r = (.error .outside, r) :=
  kvRun_stops h

variable (hread : KvDoes (readPte a k) c r e r₁) (hroom : (r.s.die a.home).oldSlots.length < 64)
include hread hroom

theorem demotionSwap_races (h : e.ref = 0 ∨ e.gen ≠ gen) (hpush : KvDoes (pushStack a (classOf fmt') n) c r₁ () r₂)
    (hunpin : KvDoes (unpinPage a e) c r₂ () r₃) : KvDoes (demotionSwap a k gen fmt' n) c r stRace r₃ :=
  kvDoes_seq (kvDoes_get.2 ⟨rfl, rfl⟩) (kvDoes_else (by omega) (kvDoes_seq hread (kvDoes_then h
    (kvDoes_seq hpush (kvDoes_seq hunpin (kvDoes_end _))))))

theorem demotionSwap_swaps (href : e.ref ≠ 0) (hgen : e.gen = gen)
    (hunpin : KvDoes (unpinPage a { e with slot := a.slotVa (classOf fmt') n, fmt := fmt', scl := false, gen := (gen + 1) % 65536 }) c
      { r₁ with s := r₁.s.setDie a.home { r₁.s.die a.home with
          oldSlots := (r₁.s.die a.home).oldSlots ++ [⟨a.pa, k, classOf e.fmt, a.slotNum (classOf e.fmt) e.slot⟩] } } () r₂) :
    KvDoes (demotionSwap a k gen fmt' n) c r 0 r₂ :=
  kvDoes_seq (kvDoes_get.2 ⟨rfl, rfl⟩) (kvDoes_else (by omega) (kvDoes_seq hread (kvDoes_else (by simp [href, hgen])
    (kvDoes_seq (kvDoes_get.2 ⟨rfl, rfl⟩) (kvDoes_seq (x := ⟨⟩) (kvDoes_set.2 rfl) (kvDoes_seq hunpin (kvDoes_end _)))))))

end

/-! ## Summaries (R403) -/

section
variable {a : Arena} {e cur : Kvpte} {ix : Nat} {v : List Nat × List Nat} {c : KvCtx} {r r₁ r₂ r₃ r₄ : KvRun}

theorem sumFinish_otherFormat (hfmt : e.fmt ≠ 0) (hdrop : KvDoes (dropPin a e.k) c r () r₁) : KvDoes (sumFinish a e ix) c r 0 r₁ :=
  kvDoes_then hfmt (kvDoes_seq hdrop (kvDoes_end _))

variable (hfmt : e.fmt = 0) (hrows : KvDoes (sumRows a e.slot none (List.range e.ntok)) c r (some v) r₁) (hread : KvDoes (readPte a e.k) c r₁ cur r₂)
include hfmt hrows hread

theorem sumFinish_races (hntok : cur.ntok ≠ e.ntok) (hdrop : KvDoes (dropPin a e.k) c r₂ () r₃) : KvDoes (sumFinish a e ix) c r stRace r₃ :=
  kvDoes_else (by omega) (kvDoes_seq hrows (kvDoes_seq hread (kvDoes_then hntok (kvDoes_seq hdrop (kvDoes_end _)))))

theorem sumFinish_writes (hntok : cur.ntok = e.ntok) (hwrite : KvDoes (writeSum a ix v) c r₂ () r₃) (hdrop : KvDoes (dropPin a e.k) c r₃ () r₄) :
    KvDoes (sumFinish a e ix) c r 0 r₄ :=
  kvDoes_else (by omega) (kvDoes_seq hrows (kvDoes_seq hread (kvDoes_else (by simp [hntok])
    (kvDoes_seq hwrite (kvDoes_seq hdrop (kvDoes_end _))))))

end

/-! ## The ranked candidates (R402) -/

theorem writeRanked_cons {out scores i : Nat} {x : Scored} {rest : List Scored} {c : KvCtx} {r r₁ r₂ r₃ : KvRun}
    (hentry : KvDoes (writeBytesAs { write := true } (out % 2 ^ 56 + 8 * i) (bytesOf 8 (PageEntry.bits ⟨x.pin.page, x.pin.kvpte⟩))) c r () r₁)
    (hscore : KvDoes (if scores % 2 ^ 56 ≠ 0 then
        writeBytesAs { write := true } (scores % 2 ^ 56 + 4 * i) (bytesOf 4 (fp32.round rne false (if x.score.isNan then .nan false else x.score)).val)
      else pure ()) c r₁ () r₂)
    (hrest : KvDoes (writeRanked out scores (i + 1) rest) c r₂ () r₃) : KvDoes (writeRanked out scores i (x :: rest)) c r () r₃ := by
  refine kvDoes_seq hentry ?_
  split at hscore
  · next h => exact kvDoes_then h (kvDoes_seq hscore hrest)
  · next h =>
    obtain ⟨-, rfl⟩ := kvDoes_pure.1 hscore
    exact kvDoes_else h hrest

/-! ## A command's result and what its transaction does to it (R388, R124, R146) -/

section
variable {s : State} {c : Command}

theorem giveResult_writes {d : BitVec 7} {v : Nat} (h : destOf c.instr = some d) :
    s.giveResult c v = (s.setS d (BitVec.ofNat 64 v)).finish c 0 := by
  simp only [State.giveResult, h]

theorem attnWord_eq (c : Command) :
    c.attnWord = c.val kStatus + (if c.val kStatus = 0 then c.pos else 0) % 65536 * 65536 + c.val kLen % 2 ^ 32 * 2 ^ 32 := by
  rfl

variable {sub : Nat} {α : Type} {txn : Kv α} {f : State → α → State} {t : State}
variable (hfree : s.eventFree c sub = true) (hacked : s.allAcked (.cmd c.id) = true)
include hfree hacked

/-- A command whose event is free and whose stores are acknowledged does not wait. -/
theorem cmdRun_runs : ¬ (!s.eventFree c sub || !s.allAcked (.cmd c.id)) = true := by simp [hfree, hacked]

theorem cmdRun_takesEffect {a : α} {ws : List (Nat × List Byte)} (h : s.runKv (s.kvOf c) txn = (t, .ok (a, ws))) :
    s.cmdRun c sub txn f = f (t.emitCmd c sub ws) a := by
  rw [State.cmdRun, if_neg (cmdRun_runs hfree hacked), h]

theorem cmdRun_queued {on : WalkerWait} (h : s.runKv (s.kvOf c) txn = (t, .error (.queued on))) : s.cmdRun c sub txn f = t := by
  rw [State.cmdRun, if_neg (cmdRun_runs hfree hacked), h]

theorem cmdRun_outside (h : s.runKv (s.kvOf c) txn = (t, .error .outside)) : s.cmdRun c sub txn f = t := by
  rw [State.cmdRun, if_neg (cmdRun_runs hfree hacked), h]

theorem cmdRun_faults {g : Flt} {va : Nat} {wr : Bool} (h : s.runKv (s.kvOf c) txn = (t, .error (.fault g va wr))) :
    s.cmdRun c sub txn f = t.engineStop c (cmdTrap g (if wr then 5 else 4) va) sub := by
  rw [State.cmdRun, if_neg (cmdRun_runs hfree hacked), h]

end

/-! ## The phases that read the page list (R389, R397, R402) -/

section
variable {s : State} {c : Command} {x : AttnArgs} {e : PageEntry}

/-- An entry of the page list that the command holds is not read again. -/
theorem atEntry_held {list i : Nat} {f : State → Command → PageEntry → State} (he : c.entry? i = some e) (hrun : s.runnable c.id = some c) :
    s.atEntry c list i f = f s c e := by
  have hreach : s.reachEntry c list i = s := if_pos (by rw [he]; rfl)
  simp only [State.atEntry, hreach, hrun, he]

theorem attnSnapshot_pins (he : c.entry? (c.val kMassed + c.pins.length) = some e) (hrun : s.runnable c.id = some c) :
    let i := c.val kMassed + c.pins.length
    s.attnSnapshot c x = s.cmdRun c i (do
        let a ← beginOn x.arena
        if c.namedTooOften i e.k then kvBrec (x.list % 2 ^ 56 + 8 * i)
        snapshot a e.k) fun u r => u.modCmd c.id fun y =>
      match r with
      | none => { y with phase := if y.pins.isEmpty then 6 else 3, vals := y.vals.set kStatus (BitVec.ofNat 32 6) }
      | some m => { y with pins := y.pins ++ [pinOf m (y.val kSeq) e.page i], phase := if i + 1 = x.nl then 2 else 1 } := by
  intro i
  unfold State.attnSnapshot
  exact atEntry_held he hrun

theorem attnMass_adds {p : Pin} {rest : List Pin} (hp : c.pins = p :: rest) (hnan : ¬ (c.phase = 8 ∧ c.val kMassed = c.pos)) :
    s.attnMass c x = s.cmdRun c (c.val kMassed) (do
        let a ← beginOn x.arena
        massAndUnpin a p.kvpte (c.val (massKey (c.val kMassed)))) fun u _ => u.modCmd c.id fun y => { y with
          pins := rest, vals := y.vals.set kMassed (BitVec.ofNat 32 (c.val kMassed + 1)), phase := if y.phase = 7 ∧ c.val kMassed + 1 = x.nl then 4 else y.phase } := by
  simp only [State.attnMass]
  rw [if_neg (by simpa using hnan), hp]

theorem selSnapshot_pins {t : Tile} (he : c.entry? c.pos = some e) (hrun : s.runnable c.id = some c) :
    s.selSnapshot c t = s.cmdRun c c.pos (do
        let a ← beginOn (c.op 0)
        if t.cols ≠ a.d then kvBrec a.va
        match ← snapshot a e.k with
        | none => pure none
        | some x =>
          let sum ← readSum a x.sumidx
          pure (some (x, sum.1 ++ sum.2))) fun u r => u.modCmd c.id fun y =>
      let z := { y with pos := y.pos + 1, phase := if y.pos + 1 = c.op 2 % 4096 + 1 then 1 else 0 }
      match r with
      | none => { z with vals := y.vals.set 0 (y.vals.get 0 + 1) }
      | some (m, sum) => { z with pins := y.pins ++ [pinOf m 0 e.page c.pos], vals := y.vals.setRange (sumKeyOf y.pins.length 0) (sum.map (BitVec.ofNat 32)) } := by
  have hcount : bitsOf (c.op 2) 0 12 = c.op 2 % 4096 := by simp [bitsOf]
  rw [← hcount]
  exact atEntry_held he hrun

end

end Sys2Proof.Machine
end

