-- ==== Sys2Proof/Proofs/KvEngine.lean ====
section
/-! PROOFS. O39: the order of the candidates, the arithmetic of a page and the tokens of a row (spec/07 R199, spec/15 R396, R398, R402). -/

namespace Sys2Proof.Machine

/-! ## Insertion in an order (R402) -/

section
variable {α : Type} {le : α → α → Bool}

theorem insertBy_perm (x : α) (ys : List α) : (insertBy le x ys).Perm (x :: ys) := by
  induction ys with
  | nil => exact List.Perm.refl _
  | cons y ys ih =>
    unfold insertBy
    split
    · exact (ih.cons y).trans (List.Perm.swap x y ys)
    · exact List.Perm.refl _

theorem sortBy_perm (xs : List α) : (sortBy le xs).Perm xs := by
  have hfold : ∀ (xs ys : List α), (xs.foldl (fun r x => insertBy le x r) ys).Perm (xs ++ ys) := by
    intro xs
    induction xs with
    | nil => exact fun ys => List.Perm.refl _
    | cons x xs ih => exact fun ys => (ih _).trans (((insertBy_perm x ys).append_left xs).trans List.perm_middle)
  simpa only [sortBy, List.append_nil] using hfold xs []

variable (htotal : ∀ a b, le a b = true ∨ le b a = true)
include htotal

/-- An element is put after those that may stand before it: its neighbours are in order. -/
theorem isChain_insertBy (x : α) {ys : List α} (h : ys.IsChain fun a b => le a b = true) : (insertBy le x ys).IsChain fun a b => le a b = true := by
  induction ys with
  | nil => exact List.isChain_singleton x
  | cons y ys ih =>
    unfold insertBy
    split
    · next hyx =>
      cases ys with
      | nil => exact List.isChain_pair.2 hyx
      | cons z zs =>
        obtain ⟨hyz, hzs⟩ := List.isChain_cons_cons.1 h
        have hchain := ih hzs
        unfold insertBy at hchain ⊢
        split at hchain
        · next hzx => rw [if_pos hzx]; exact List.isChain_cons_cons.2 ⟨hyz, hchain⟩
        · next hzx => rw [if_neg hzx]; exact List.isChain_cons_cons.2 ⟨hyx, hchain⟩
    · next hyx => exact List.isChain_cons_cons.2 ⟨(htotal y x).resolve_left hyx, h⟩

theorem isChain_sortBy (xs : List α) : (sortBy le xs).IsChain fun a b => le a b = true :=
  List.foldlRecOn (motive := fun ys : List α => ys.IsChain fun a b => le a b = true) xs _ List.isChain_nil fun _ h x _ => isChain_insertBy htotal x h

theorem sortBy_neighbours (xs : List α) {i : Nat} {x y : α} (hx : (sortBy le xs)[i]? = some x) (hy : (sortBy le xs)[i + 1]? = some y) : le x y = true := by
  obtain ⟨hi, rfl⟩ := List.getElem?_eq_some_iff.1 hy
  obtain ⟨_, rfl⟩ := List.getElem?_eq_some_iff.1 hx
  exact List.isChain_iff_getElem.1 (isChain_sortBy htotal xs) i hi

end

/-! ## The order of the candidates (R402) -/

/-- The order of two finite values as the sign of their difference at the smaller exponent (R402). -/
theorem Val.cmp_scaled {a b : Val} (ha : a.isInf = false) (hb : b.isInf = false) :
    a.cmp b = (a.scaled (min a.exp b.exp) - b.scaled (min a.exp b.exp)).sign := by
  have hsign (d : Int) : (if d < 0 then -1 else if d = 0 then 0 else 1) = d.sign := by
    obtain hd | rfl | hd := lt_trichotomy d 0
    · rw [if_pos hd, Int.sign_eq_neg_one_of_neg hd]
    · rfl
    · rw [if_neg (by omega), if_neg (by omega), Int.sign_eq_one_of_pos hd]
  cases a with
  | inf n => cases ha
  | nan n =>
    cases b with
    | inf m => cases hb
    | nan m => rfl
    | fin m y f => exact hsign _
  | fin n x e =>
    cases b with
    | inf m => cases hb
    | nan m => exact hsign _
    | fin m y f => exact hsign _

theorem Val.cmp_inf {a : Val} {n : Bool} (ha : a.isInf = false) :
    (Val.inf n).cmp a = (if n then -1 else 1) ∧ a.cmp (.inf n) = if n then 1 else -1 := by
  cases a with
  | inf m => cases ha
  | nan m => exact ⟨rfl, rfl⟩
  | fin m x e => exact ⟨rfl, rfl⟩

theorem Val.eq_inf {a : Val} (ha : a.isInf = true) : ∃ n, a = .inf n := by
  cases a with
  | inf n => exact ⟨n, rfl⟩
  | nan n => cases ha
  | fin n x e => cases ha

theorem Val.cmp_swap (a b : Val) : b.cmp a = -a.cmp b := by
  cases ha : a.isInf <;> cases hb : b.isInf
  · rw [Val.cmp_scaled ha hb, Val.cmp_scaled hb ha, min_comm, ← Int.sign_neg, neg_sub]
  · obtain ⟨n, rfl⟩ := Val.eq_inf hb
    rw [(Val.cmp_inf ha).1, (Val.cmp_inf ha).2]
    cases n <;> rfl
  · obtain ⟨n, rfl⟩ := Val.eq_inf ha
    rw [(Val.cmp_inf hb).1, (Val.cmp_inf hb).2]
    cases n <;> rfl
  · obtain ⟨n, rfl⟩ := Val.eq_inf ha
    obtain ⟨m, rfl⟩ := Val.eq_inf hb
    cases n <;> cases m <;> rfl

/-- One candidate stands before another of an equal score where its page, and then its place, is no larger. -/
def Scored.before (x y : Scored) : Prop := x.pin.page < y.pin.page ∨ (x.pin.page = y.pin.page ∧ x.pin.pos ≤ y.pin.pos)

theorem Scored.tie_iff (x y : Scored) : Scored.le.tie x y = true ↔ x.before y := by
  simp [Scored.le.tie, Scored.before]

theorem Scored.le_ranked {x y : Scored} (hx : x.score.isNan = false) (hy : y.score.isNan = false) :
    x.le y = true ↔ 0 < x.score.cmp y.score ∨ (x.score.cmp y.score = 0 ∧ x.before y) := by
  simp [Scored.le, hx, hy, Scored.tie_iff]

theorem Scored.le_nan {x y : Scored} (h : x.score.isNan = true ∨ y.score.isNan = true) :
    x.le y = true ↔ x.score.isNan = false ∨ (y.score.isNan = true ∧ x.before y) := by
  rw [Scored.le, if_pos (by simpa using h)]
  cases hx : x.score.isNan with
  | false => simp [h.resolve_left (by simp [hx])]
  | true => simp [Scored.tie_iff]

theorem Scored.le_total (x y : Scored) : x.le y = true ∨ y.le x = true := by
  have hbefore : x.before y ∨ y.before x := by unfold Scored.before; omega
  by_cases h : x.score.isNan = true ∨ y.score.isNan = true
  · rw [Scored.le_nan h, Scored.le_nan h.symm]
    cases x.score.isNan with
    | false => exact .inl (.inl rfl)
    | true => cases y.score.isNan with
      | false => exact .inr (.inl rfl)
      | true => exact hbefore.imp (fun hxy => .inr ⟨rfl, hxy⟩) fun hyx => .inr ⟨rfl, hyx⟩
  · obtain ⟨hx, hy⟩ : x.score.isNan = false ∧ y.score.isNan = false := by simpa using h
    rw [Scored.le_ranked hx hy, Scored.le_ranked hy hx, Val.cmp_swap]
    unfold Scored.before
    omega

theorem Scored.le_nanLast {x y : Scored} (hx : x.score.isNan = false) (hy : y.score.isNan = true) : x.le y = true ∧ y.le x = false := by
  simp [Scored.le, hx, hy]

/-! ## The arithmetic of a page (R199, R398) -/

section
variable (sigma : Val) (q : List Val) (x : RowState)

theorem pageRow_masked : pageRow sigma q [] x = { row := x, codes := [], fl := {}, nanCol := none } := rfl

theorem takeTokens_codes (m : Val) (ss : List Val) : ∀ l, (takeTokens m l ss).2.length = ss.length := by
  induction ss with
  | nil => exact fun l => rfl
  | cons s rest ih => exact fun l => congrArg (· + 1) (ih _)

variable {toks : List (Nat × List Val × List Val)} (htoks : toks ≠ [])
include htoks

theorem pageRow_m :
    let ss := toks.map fun t => (scoreOf sigma q t.2.1).val
    (pageRow sigma q toks x).row.m = minVal x.m (ss.tail.foldl (fun a b => minVal a b true) (ss.headD negInf)) true := by
  simp only [pageRow, List.isEmpty_iff, if_neg htoks, List.map_map]
  rfl

theorem pageRow_o : (pageRow sigma q toks x).row.o.length = x.o.length := by
  simp only [pageRow, List.isEmpty_iff, if_neg htoks, List.length_map]
  split <;> split <;> simp

theorem pageRow_codes :
    (pageRow sigma q toks x).codes.length = ((toks.map fun t => (scoreOf sigma q t.2.1).val).filter fun v => v != .inf true).length := by
  simp only [pageRow, List.isEmpty_iff, if_neg htoks, takeTokens_codes, List.length_map, List.filter_map]
  rfl

end

/-! ## The tokens of a row (R396) -/

theorem mem_rowTokens {x : AttnArgs} {win first p : Nat} {ks vs : List (List Val)} {y : Nat × List Val × List Val}
    (h : y ∈ rowTokens x win first p ks vs) :
    (x.causal = true → first + y.1 ≤ p) ∧ (win ≠ 0 → p < first + y.1 + win) ∧ ks[y.1]? = some y.2.1 ∧ vs[y.1]? = some y.2.2 := by
  obtain ⟨hmem, hmask⟩ := List.mem_filter.1 h
  obtain ⟨⟨kv, t⟩, hzip, rfl⟩ := List.mem_map.1 hmem
  have hbounds : (x.causal = true → first + t ≤ p) ∧ (win ≠ 0 → p < first + t + win) := by simpa [or_iff_not_imp_left] using hmask
  obtain ⟨hk, hv⟩ := List.getElem?_zip_eq_some.1 (List.mem_zipIdx_iff_getElem?.1 hzip)
  exact ⟨hbounds.1, hbounds.2, hk, hv⟩

/-- Settles O39: the engines' commands at issue, in their phases, and what their transactions and their arithmetic give. -/
theorem kvEngine : Obligations.KvEngine := by
  refine ⟨⟨fun i l ctx s active k a b hi hdie hstart hactive hfree ha hb hacked => ?_,
      fun l s active k ops t hdie hstart hactive hfree hops ht hfmt hrows hacked => outcome_of_does
        (asel_does hdie hstart hactive hacked hfree hops ht (not_or.2 ⟨Nat.not_lt.2 hfmt, Nat.not_lt.2 hrows⟩)),
      fun l s active k ops tO tQ tS hdie hstart hactive hfree hops hO hQ hS =>
        ⟨fun hgood hacked => outcome_of_does (attn_does hdie hstart hactive hfree hops hO hQ hS hgood hacked),
          fun hbad => outcome_of_raises (attn_refused hdie hstart hactive hfree hops hO hQ hS hbad)⟩,
      fun i l s => engine_onFCore⟩,
    fun s id c l hrun => ⟨
      fun hi => ⟨attn_begins hrun hi, attn_snapshots hrun hi, fun p => attn_computes hrun hi, attn_masses hrun hi, attn_unpins hrun hi,
        attn_writes hrun hi, attn_releases hrun hi, attn_ends hrun hi⟩,
      fun hi => ⟨asel_snapshots hrun hi, asel_ranks hrun hi, asel_unpins hrun hi, asel_ends hrun hi⟩,
      fun hi => ⟨asumu_snapshots hrun hi, fun p rest => asumu_sums hrun hi, asumu_noPage hrun hi⟩,
      kvdem_snapshots hrun,
      fun hi => ⟨kvsweep_decides hrun hi, kvsweep_snapshots hrun hi⟩,
      fun p rest hctx hp => ⟨dem_pops hrun hctx hp, dem_swaps hrun hctx hp⟩⟩,
    ⟨fun s c d v => giveResult_writes, attnWord_eq,
      fun s c sub α txn f hfree hacked => ⟨fun a ws h => cmdRun_takesEffect hfree hacked (Prod.ext rfl h),
        fun on h => cmdRun_queued hfree hacked (Prod.ext rfl h), fun h => cmdRun_outside hfree hacked (Prod.ext rfl h),
        fun g va wr h => cmdRun_faults hfree hacked (Prod.ext rfl h)⟩,
      fun s c x t => ⟨fun e => attnSnapshot_pins, fun p rest => attnMass_adds, fun e => selSnapshot_pins, fun u => engine_keepsOperands s c x t⟩,
      fun a k c r r₁ r₂ e hread => ⟨snapshot_outside, snapshot_free hread, fun ahead => snapshot_pins hread, fun inc => massAndUnpin_stays hread,
        fun inc => massAndUnpin_settles hread, dropPin_stays hread,
        fun gen fmt' n hroom => ⟨fun h r₃ => demotionSwap_races hread hroom h, demotionSwap_swaps hread hroom⟩⟩,
      fun a k gen fmt' n c r => demotionSwap_waits,
      fun a e cur ix v c r r₁ r₂ r₃ r₄ => ⟨sumFinish_otherFormat, fun hfmt hrows hread =>
        ⟨sumFinish_races hfmt hrows hread, sumFinish_writes hfmt hrows hread⟩⟩,
      fun xs => ⟨fun x y => ⟨Scored.le_ranked, Scored.le_nanLast⟩, sortBy_perm xs, fun i x y => sortBy_neighbours Scored.le_total xs⟩,
      fun out scores i x rest c r r₁ r₂ r₃ => writeRanked_cons,
      pageRow_masked,
      fun sigma q toks x htoks => ⟨pageRow_m sigma q x htoks, pageRow_o sigma q x htoks, pageRow_codes sigma q x htoks⟩,
      fun x win first p ks vs y => mem_rowTokens⟩⟩
  exact (exec_arenaCommand hi s).trans (outcome_of_does (arenaCommand_does hdie hstart hactive hacked hfree ha hb))

end Sys2Proof.Machine
end

