-- ==== Sys2Proof/Proofs/FaultRing.lean ====
section
/-! PROOFS. The fault ring (spec/05 R131 to R135): what posting a record leaves, the fields of a record, and the bytes of one that is
published. -/

namespace Sys2Proof.Machine

/-! ## What a post leaves as it was -/

/-- What posting a record, its overflow buffers and its interrupt leave of a state. -/
def State.offRing (s : State) : State :=
  { s.lasting with
    die0 := Die.reset, die1 := Die.reset, die2 := Die.reset, die3 := Die.reset, regs := PkgRegs.reset, frTicket := 0, ovfCount := 0
    msixPending := 0, msixSent := [] }

theorem view_of_offRing {β : Type} (view : State → β) (hview : ∀ u, view u.offRing = view u) {s t : State} (h : t.offRing = s.offRing) :
    view t = view s := by
  rw [← hview t, h, hview]

theorem offRing_of_lasting {s t : State} (h : t.lasting = s.lasting) : t.offRing = s.offRing := by
  unfold State.offRing
  rw [h]

theorem offRing_setDie (s : State) (d : BitVec 2) (x : Die) : (s.setDie d x).offRing = s.offRing := by rw [setDie_frame]; rfl

theorem offRing_raiseVector (s : State) (v : Nat) : (s.raiseVector v).offRing = s.offRing := by rw [raiseVector_frame]; rfl

theorem offRing_frPublish (s : State) (b : BitVec 512) : (s.frPublish b).offRing = s.offRing := by
  have hticket (t : State) (n : Word64) : ({ t with frTicket := n } : State).offRing = t.offRing := rfl
  unfold State.frPublish
  simp only []
  rw [ite_keeps State.offRing (offRing_raiseVector _ 0), hticket, offRing_of_lasting (lasting_storeNum _ _ _ _),
    offRing_of_lasting (lasting_storeNum _ _ _ _)]

theorem offRing_postWaiting (s : State) : s.postWaiting.offRing = s.offRing := by
  refine foldl_keeps State.offRing (fun t _ _ => ?_) s
  unfold State.postWaiting1
  split
  · rfl
  · exact ite_keeps State.offRing ((offRing_frPublish _ _).trans (offRing_setDie t _ _))

theorem offRing_devicePost (s : State) (r : Record) : (s.devicePost r).offRing = s.offRing := by
  have hlost (t : State) (rs : PkgRegs) : ({ t with regs := rs } : State).offRing = t.offRing := rfl
  have hkept (t : State) (d : BitVec 2) (x : Die) (n : Nat) : ({ t.setDie d x with ovfCount := n } : State).offRing = t.offRing := by
    rw [setDie_frame]; rfl
  have hwaiting : (if s.frEn then s.plainLines [s.frBase] else s).postWaiting.offRing = s.offRing := by
    rw [offRing_postWaiting, ite_keeps State.offRing (offRing_of_lasting (lasting_plainLines s _))]
  unfold State.devicePost
  simp only []
  rw [← hwaiting]
  generalize (if s.frEn then s.plainLines [s.frBase] else s).postWaiting = t
  split
  · exact offRing_frPublish t _
  · split
    · exact hkept t _ _ _
    · exact hlost t _

/-! ## Records that wait (R135) -/

theorem postWaiting1_none {s : State} (h : s.oldestWaiting = none) : s.postWaiting1 = s := by
  unfold State.postWaiting1
  rw [h]

theorem postWaiting_none {s : State} (h : s.oldestWaiting = none) : s.postWaiting = s := by
  unfold State.postWaiting
  exact List.foldlRecOn (motive := fun t => t = s) _ _ rfl fun t ht _ _ => by rw [ht, postWaiting1_none h]

/-- R133, R135: where no record waits and the ring has room, the device's own record is published. -/
theorem devicePost_publishes {s : State} {r : Record} (hen : s.frEn = true) (hnone : (s.plainLines [s.frBase]).oldestWaiting = none)
    (hroom : (s.plainLines [s.frBase]).frRoom = true) : s.devicePost r = (s.plainLines [s.frBase]).frPublish r.bits := by
  simp [State.devicePost, hen, postWaiting_none hnone, hnone, hroom]

/-! ## The fields of a record (Table 5-8) -/

theorem lowLane_lt (m : Word32) : lowLane m < 32 := by
  unfold lowLane
  rcases h : lanesOf m with _ | ⟨l, ls⟩
  · decide
  · have hl : l ∈ lanesOf m := h ▸ List.mem_cons_self
    exact List.mem_range.1 (List.mem_of_mem_filter hl)

theorem toNat_recordBits (r : Record) : r.bits.toNat = r.reply.toNat * 2 ^ 448 + r.pos.toNat * 2 ^ 384 + r.pc.toNat * 2 ^ 320
    + r.lmask.toNat * 2 ^ 288 + r.gidx % 2 ^ 32 * 2 ^ 256 + r.node % 2 ^ 32 * 2 ^ 224 + r.core % 2 ^ 8 * 2 ^ 184 + r.die.toNat * 2 ^ 182
    + lowLane r.lmask * 2 ^ 177 + r.eng.toNat * 2 ^ 173 + r.kind.toNat * 2 ^ 169 + r.asid.toNat * 2 ^ 148 + r.sub.toNat * 2 ^ 136
    + r.cause.toNat * 2 ^ 128 + r.level.toNat * 2 ^ 64 + r.va.toNat := by
  have hreply := r.reply.isLt
  have hpos := r.pos.isLt
  have hpc := r.pc.isLt
  have hlmask := r.lmask.isLt
  have hdie := r.die.isLt
  have hlane := lowLane_lt r.lmask
  have heng := r.eng.isLt
  have hkind := r.kind.isLt
  have hasid := r.asid.isLt
  have hsub := r.sub.isLt
  have hcause := r.cause.isLt
  have hlevel := r.level.isLt
  have hva := r.va.isLt
  rw [Record.bits, BitVec.toNat_ofNat, Nat.mod_eq_of_lt] <;> unfold place
  · rfl
  · omega

/-- R132 Table 5-8: the fields of a record lie at their bits. -/
theorem recordBits_fields (r : Record) :
    bitsOf r.bits.toNat 169 4 = r.kind.toNat ∧ bitsOf r.bits.toNat 128 8 = r.cause.toNat ∧ bitsOf r.bits.toNat 136 8 = r.sub.toNat
      ∧ bitsOf r.bits.toNat 64 4 = r.level.toNat ∧ bitsOf r.bits.toNat 0 56 = r.va.toNat ∧ bitsOf r.bits.toNat 148 12 = r.asid.toNat
      ∧ bitsOf r.bits.toNat 173 4 = r.eng.toNat ∧ bitsOf r.bits.toNat 182 2 = r.die.toNat ∧ bitsOf r.bits.toNat 184 8 = r.core % 2 ^ 8
      ∧ bitsOf r.bits.toNat 224 32 = r.node % 2 ^ 32 ∧ bitsOf r.bits.toNat 256 32 = r.gidx % 2 ^ 32 ∧ bitsOf r.bits.toNat 320 56 = r.pc.toNat
      ∧ bitsOf r.bits.toNat 448 64 = r.reply.toNat := by
  have hreply := r.reply.isLt
  have hpos := r.pos.isLt
  have hpc := r.pc.isLt
  have hlmask := r.lmask.isLt
  have hdie := r.die.isLt
  have hlane := lowLane_lt r.lmask
  have heng := r.eng.isLt
  have hkind := r.kind.isLt
  have hasid := r.asid.isLt
  have hsub := r.sub.isLt
  have hcause := r.cause.isLt
  have hlevel := r.level.isLt
  have hva := r.va.isLt
  rw [toNat_recordBits]
  unfold bitsOf
  refine ⟨?_, ?_, ?_, ?_, ?_, ?_, ?_, ?_, ?_, ?_, ?_, ?_, ?_⟩ <;> omega

/-! ## The bytes of a record that is published (R133, R134) -/

/-- A byte of a number that the device stores. -/
theorem byte_storeNum {x n i : Nat} (hi : i < n) (hcarve : inCarve (x + i) = false) (hhole : isHole (basePa (x + i)) = false) (s : State) (v : Nat) :
    (s.storeNum x n v).byte (x + i) = BitVec.ofNat 8 (v / 2 ^ (8 * i)) := by
  have hlen : i < (bytesOf n v).length := by rwa [length_bytesOf]
  refine (byte_of_mem (mem_devStore _ _) _).trans ((byte_put_mem (nodup_cellsAt x _) (cell_mem hlen) hcarve hhole _).trans ?_)
  simp [bytesOf, hi]

section
variable (s : State) (b : BitVec 512)

theorem frTicket_frPublish : (s.frPublish b).frTicket = s.frTicket + 1 := by
  unfold State.frPublish
  simp only []
  exact ite_keeps State.frTicket (by rw [raiseVector_frame])

theorem mem_frPublish : (s.frPublish b).mem = ((s.storeNum (s.frBase + 64 + s.frTicket.toNat % 2 ^ s.frLogn * 64) 64
    (b ||| BitVec.ofNat 512 (s.frTicket.toNat % 2 ^ 32 * 2 ^ 192)).toNat).storeNum (s.frBase + 8) 8 (s.frTicket + 1).toNat).mem := by
  unfold State.frPublish
  simp only []
  exact ite_keeps State.mem (by rw [raiseVector_frame])

theorem byte_frPublish_record {i : Nat} (hi : i < 64) (hcarve : inCarve (s.frBase + 64 + s.frTicket.toNat % 2 ^ s.frLogn * 64 + i) = false)
    (hhole : isHole (basePa (s.frBase + 64 + s.frTicket.toNat % 2 ^ s.frLogn * 64 + i)) = false) :
    (s.frPublish b).byte (s.frBase + 64 + s.frTicket.toNat % 2 ^ s.frLogn * 64 + i)
      = BitVec.ofNat 8 ((b ||| BitVec.ofNat 512 (s.frTicket.toNat % 2 ^ 32 * 2 ^ 192)).toNat / 2 ^ (8 * i)) := by
  rw [byte_of_mem (mem_frPublish s b), byte_storeNum_other hcarve (by omega), byte_storeNum hi hcarve hhole]

theorem byte_frPublish_tail {i : Nat} (hi : i < 8) (hcarve : inCarve (s.frBase + 8 + i) = false) (hhole : isHole (basePa (s.frBase + 8 + i)) = false) :
    (s.frPublish b).byte (s.frBase + 8 + i) = BitVec.ofNat 8 ((s.frTicket + 1).toNat / 2 ^ (8 * i)) := by
  rw [byte_of_mem (mem_frPublish s b), byte_storeNum hi hcarve hhole]

theorem byte_frPublish_other {a : Nat} (ha : inCarve a = false)
    (hrec : ¬ (s.frBase + 64 + s.frTicket.toNat % 2 ^ s.frLogn * 64 ≤ a ∧ a < s.frBase + 64 + s.frTicket.toNat % 2 ^ s.frLogn * 64 + 64))
    (htail : ¬ (s.frBase + 8 ≤ a ∧ a < s.frBase + 8 + 8)) : (s.frPublish b).byte a = s.byte a := by
  rw [byte_of_mem (mem_frPublish s b), byte_storeNum_other ha (by omega), byte_storeNum_other ha (by omega)]

end

end Sys2Proof.Machine
end

