-- ==== Sys2Proof/Proofs/TakeTrap.lean ====
section
/-! PROOFS. O17: taking a trap, and a fault met in supervisor mode (spec/05 R123, R125, R132, spec/10 R258, R259). -/

namespace Sys2Proof.Machine

/-! ## Draining, and the end of a group (R104, R125, R213) -/

/-- Draining performs the undrained stores: it changes memory and what requests move, the words that the node has stored, the
acknowledgements awaited and the completion flags. -/
theorem drain_keeps {β : Type} (view : State → β) (hlasting : ∀ t : State, view t.lasting = view t)
    (hown : ∀ (t : State) (addrs : List Nat), view (t.noteOwn addrs) = view t)
    (hacks : ∀ (t : State) (us : List Unacked), view { t with unacked := us } = view t)
    (hmarks : ∀ (t : State) (q : SMap 6) (us : List UoByte) (ms : List (Nat × Nat)),
      view { t with g := { t.g with qflags := q, uo := us, uoMarks := ms } } = view t) (s : State) : view s.drain = view s := by
  have hstore (t : State) (us : List UoByte) (marks : List Nat) : view (t.drainStore us marks) = view t := by
    have hrequests : view ((((us.map fun u => (u.pa / 128 * 128, u.leaf)).dedup).foldl
        (fun s l => s.lineRequest { leaf := l.2, write := true } l.1) t).devStore (us.map fun u => (u.pa, u.val))) = view t :=
      view_of_lasting view hlasting ((lasting_devStore _ _).trans
        (foldl_keeps State.lasting (fun t l _ => lasting_lineRequest t { leaf := l.2, write := true } l.1) t))
    have hacked (u : State) : view (u.awaitAcks (us.map (·.pa)) marks) = view u := hacks u _
    have hstored := (hacked _).trans ((hown _ (us.map (·.pa))).trans hrequests)
    unfold State.drainStore
    simp only []
    split
    · rw [unmarkAll_frame]
      exact (hmarks _ _ _ _).trans hstored
    · exact hstored
  unfold State.drain
  exact (foldl_keeps view (fun t _ _ => hstore t _ _) _).trans (hmarks s s.g.qflags [] [])

theorem noteClaims_frame (s : State) : s.noteClaims = { s with
    g := { s.g with slot0 := s.noteClaims.g.slot0, slot1 := s.noteClaims.g.slot1 }, others := s.noteClaims.others } := by
  unfold State.noteClaims State.mapGroups
  simp only []
  split
  · rfl
  · simp only []
    split
    · split <;> rfl
    · rfl

/-- The nodes by their numbers, with whether each has ended with a fault (R125). -/
def State.faults (s : State) : List (Nat × Bool) := s.nodes.map fun n => (n.index, n.faulted)

theorem faulted_of_faults {s t : State} (h : t.faults = s.faults) {k : Nat} {n : Node} (hn : s.node? k = some n) (hfault : n.faulted = true) :
    ∃ m, t.node? k = some m ∧ m.faulted = true := by
  have hview (u : State) : u.faults.find? (fun x => x.1 == k) = (u.node? k).map fun n => (n.index, n.faulted) := List.find?_map ..
  have hmap : (t.node? k).map (fun n => (n.index, n.faulted)) = some (n.index, n.faulted) := by rw [← hview, h, hview, hn]; rfl
  obtain ⟨m, hm, hfields⟩ := Option.map_eq_some_iff.1 hmap
  obtain ⟨-, hfaulted⟩ := Prod.mk.inj hfields
  exact ⟨m, hm, hfaulted.trans hfault⟩

theorem faults_noteOwn (t : State) (addrs : List Nat) : (t.noteOwn addrs).faults = t.faults := by
  unfold State.noteOwn State.noteOwnOf State.faults
  simp only [List.map_map]
  refine List.map_congr_left fun n _ => ?_
  simp only [Function.comp_def]
  split <;> rfl

section
variable (s : State)

/-- R213: a group that ends has no lane and no path, and is in supervisor mode no more. -/
theorem groupGone_ends : s.groupGone.g.exited = 0xFFFFFFFF ∧ s.groupGone.g.slot0 = none ∧ s.groupGone.g.slot1 = none
    ∧ s.groupGone.g.supv = false ∧ s.groupGone.granted = false :=
  ⟨rfl, rfl, rfl, setBit_clear _ (by decide), rfl⟩

theorem faults_groupGone : s.groupGone.faults = s.faults := by
  have hdrain : s.drain.faults = s.faults :=
    drain_keeps State.faults (fun _ => rfl) faults_noteOwn (fun _ _ => rfl) (fun _ _ _ _ => rfl) s
  rw [← hdrain]
  unfold State.groupGone
  simp only []
  rw [noteClaims_frame]
  rfl

theorem pending_groupGone : s.groupGone.g.pending = s.g.pending := by
  have hdrain : s.drain.g.pending = s.g.pending :=
    drain_keeps (fun t : State => t.g.pending) (fun _ => rfl) (fun _ _ => rfl) (fun _ _ => rfl) (fun _ _ _ _ => rfl) s
  rw [← hdrain]
  unfold State.groupGone
  simp only []
  rw [noteClaims_frame]
  rfl

theorem pending_endFaulted : s.endFaulted.g.pending = s.g.pending := pending_groupGone _

/-- R125: the node of a group that ends with a fault is marked. -/
theorem endFaulted_marks {n : Node} (hn : s.node? s.g.id.node = some n) : ∃ m, s.endFaulted.node? s.g.id.node = some m ∧ m.faulted = true := by
  have hmarked : (s.modNode s.g.id.node fun n => { n with faulted := true }).node? s.g.id.node = some { n with faulted := true } := by
    rw [modNode_node? (f := fun n => { n with faulted := true }) (fun _ => rfl), hn]
    rfl
  exact faulted_of_faults (faults_groupGone _) hmarked rfl

end

/-! ## A nested fault (R125, R132, R258) -/

/-- R124: the delivered trap that the group's handler serves waits again. -/
def State.unserved (s : State) : State :=
  { s with g := { s.g with pending := (s.g.serving.toList.filter fun d => d.restart) ++ s.g.pending, serving := none } }

/-- R132: the record of a fault that ends the group. -/
def State.handlerRecord (s : State) (t : Trap) : Record :=
  { pos := s.path.clock, pc := s.path.addr, lmask := s.path.mask, gidx := s.g.gidx, node := s.g.id.node, core := s.g.core
    die := s.g.die, eng := 0, kind := 6, asid := s.g.asid, sub := t.sub, cause := t.cause, level := t.level, va := t.va }

section
variable (s : State) (t : Trap)

theorem nestedFault_eq : s.nestedFault t = (s.unserved.devicePost (s.handlerRecord t)).endFaulted := rfl

theorem nestedFault_ends : (s.nestedFault t).g.exited = 0xFFFFFFFF ∧ (s.nestedFault t).g.slot0 = none ∧ (s.nestedFault t).g.slot1 = none
    ∧ (s.nestedFault t).g.supv = false ∧ (s.nestedFault t).granted = false := groupGone_ends _

theorem nestedFault_marks {n : Node} (hn : s.node? s.g.id.node = some n) :
    ∃ m, (s.nestedFault t).node? s.g.id.node = some m ∧ m.faulted = true := by
  have hpost := offRing_devicePost s.unserved (s.handlerRecord t)
  have hid : (s.unserved.devicePost (s.handlerRecord t)).g.id = s.unserved.g.id := view_of_offRing (fun u => u.g.id) (fun _ => rfl) hpost
  have hnode : (s.unserved.devicePost (s.handlerRecord t)).node? s.g.id.node = some n :=
    (view_of_offRing (fun u => u.node? s.g.id.node) (fun _ => rfl) hpost).trans hn
  change (s.unserved.devicePost (s.handlerRecord t)).node? s.unserved.g.id.node = some n at hnode
  change ∃ m, (s.nestedFault t).node? s.unserved.g.id.node = some m ∧ m.faulted = true
  rw [nestedFault_eq, ← hid]
  rw [← hid] at hnode
  exact endFaulted_marks _ hnode

theorem nestedFault_pending : (s.nestedFault t).g.pending = s.unserved.g.pending := by
  rw [nestedFault_eq, pending_endFaulted]
  exact view_of_offRing (fun u => u.g.pending) (fun _ => rfl) (offRing_devicePost s.unserved (s.handlerRecord t))

theorem nestedFault_waits {d : Delivered} (hd : s.g.serving = some d) (hrestart : d.restart = true) : d ∈ (s.nestedFault t).g.pending := by
  rw [nestedFault_pending]
  simp [State.unserved, hd, hrestart]

end

/-! ## Entering the handler (R123, R258, R259) -/

/-- What taking a trap writes in the save slot: the frame and the replay entries after the first (R259, R260). -/
def State.savedBytes (s : State) (a : FrameArgs) : List Byte :=
  bytesOf 256 (frameBits a s.path s.slot) ++ (s.path.replay.drop 1).flatMap fun r => bytesOf 64 (replayBits r)

section
variable {s s₁ : State} {a : FrameArgs}

theorem enterHandler_supervisor (h : s.g.supv = true) : s.enterHandler a = s.nestedFault a.trap := if_pos h

theorem enterHandler_unsaved (hsupv : s.g.supv = false) {f : Flt} (h : s.vstore s.saveSlot (s.savedBytes a) = (s₁, .error f)) :
    s.enterHandler a = s₁.nestedFault { a.trap with cause := f.cause, sub := f.sub, level := f.level, va := BitVec.ofNat 56 s.saveSlot } := by
  unfold State.savedBytes at h
  unfold State.enterHandler
  rw [hsupv, if_neg Bool.false_ne_true]
  simp only [h]

/-- The group that has taken the trap at `s`, with the frame written in `s₁`, but for the path. -/
def State.handlerGroup (s s₁ : State) (a : FrameArgs) : Group :=
  { s₁.g with
    sregs := s₁.g.sregs.set 127 (BitVec.ofNat 64 s.saveSlot)
    held := (s₁.g.path? (!s₁.slot)).map fun _ => !s₁.slot
    trapLanes := s.path.mask
    trapKind := a.trap.kind
    trapLevel := a.trap.level
    trapTop := if s.path.top then some s.path.pc else none
    yielded := s₁.g.yielded || (s₁.granted && s.path.header.getLsbD 4)
    ovr := none }.setSupv true

/-- The state in the handler. -/
def State.inHandler (s s₁ : State) (a : FrameArgs) : State :=
  ({ s₁ with granted := false, g := s.handlerGroup s₁ a } : State).setPath
    { s.path.goto (s₁.regs.hvec.extractLsb' 0 56 &&& ~~~3#56) with mask := a.trap.lmask }

theorem enterHandler_saved (hsupv : s.g.supv = false) (h : s.vstore s.saveSlot (s.savedBytes a) = (s₁, .ok ())) :
    s.enterHandler a = s.inHandler s₁ a := by
  unfold State.savedBytes at h
  unfold State.enterHandler
  rw [hsupv, if_neg Bool.false_ne_true]
  simp only [h]
  rfl

theorem inHandler_path (s s₁ : State) (a : FrameArgs) : (s.inHandler s₁ a).path =
    { pc := s₁.regs.hvec.extractLsb' 0 56 &&& ~~~ 3#56, off := 0, mask := a.trap.lmask, clock := s.path.clock, clause := none, wait := none
      replay := [], floor := s.path.floor } := path_setPath _ _

/-- What a group holds beside its paths is as `handlerGroup` says. -/
theorem inHandler_group {β : Type} (view : Group → β) (hview : ∀ (g : Group) (p q : Option Path), view { g with slot0 := p, slot1 := q } = view g)
    (s s₁ : State) (a : FrameArgs) : view (s.inHandler s₁ a).g = view (s.handlerGroup s₁ a) := by
  unfold State.inHandler State.setPath Group.setPath
  simp only []
  split
  · exact hview _ _ _
  · exact hview _ _ _

theorem setBit_set (v : Word64) {k : Nat} (hk : k < 64) : (setBit v k true).getLsbD k = true := by
  simp [setBit, hk]

theorem inHandler_supv (s s₁ : State) (a : FrameArgs) : (s.inHandler s₁ a).g.supv = true := by
  have hgstat : (s.inHandler s₁ a).g.gstat = setBit s₁.g.gstat 10 true := inHandler_group Group.gstat (fun _ _ _ => rfl) s s₁ a
  rw [Group.supv, hgstat, setBit_set _ (by decide)]

theorem inHandler_sregs (s s₁ : State) (a : FrameArgs) (n : Nat) :
    (s.inHandler s₁ a).g.sregs.get n = if n = 127 then BitVec.ofNat 64 s.saveSlot else s₁.g.sregs.get n := by
  have hsregs : (s.inHandler s₁ a).g.sregs = s₁.g.sregs.set 127 (BitVec.ofNat 64 s.saveSlot) :=
    inHandler_group Group.sregs (fun _ _ _ => rfl) s s₁ a
  rw [hsregs, get_set]

theorem inHandler_held (s s₁ : State) (a : FrameArgs) :
    (s.inHandler s₁ a).g.held = if (s₁.g.path? (!s₁.slot)).isSome then some (!s₁.slot) else none := by
  have hheld : (s.inHandler s₁ a).g.held = (s₁.g.path? (!s₁.slot)).map fun _ => !s₁.slot :=
    inHandler_group Group.held (fun _ _ _ => rfl) s s₁ a
  rw [hheld]
  cases s₁.g.path? (!s₁.slot) <;> rfl

end

/-! ## The fields of a frame (Table 10-2) -/

theorem iwAt_lt (ws : List Word32) (i : Nat) : iwAt ws i < 2 ^ 32 := BitVec.isLt _

/-- R259 Table 10-2: the fields of the frame of a path lie at their bits, and nothing lies above them. -/
theorem frameBits_fields (a : FrameArgs) {p : Path} (slot : Bool) (hreplay : p.replay.length ≤ 17) (hoff : p.off ≤ 32) :
    let v := frameBits a p slot
    bitsOf v 0 8 = a.trap.cause.toNat ∧ bitsOf v 8 8 = a.trap.sub.toNat ∧ bitsOf v 16 5 = p.replay.length - 1
      ∧ bitsOf v 21 1 = a.async.toNat ∧ bitsOf v 22 1 = slot.toNat ∧ bitsOf v 23 1 = a.skip.toNat ∧ bitsOf v 24 4 = a.eng.toNat
      ∧ bitsOf v 32 32 = a.trap.lmask.toNat ∧ bitsOf v 64 56 = a.trap.va.toNat
      ∧ bitsOf v 128 32 = iwAt a.iw 0 ∧ bitsOf v 160 32 = iwAt a.iw 1 ∧ bitsOf v 192 32 = iwAt a.iw 2 ∧ bitsOf v 544 32 = iwAt a.iw 3
      ∧ bitsOf v 256 56 = p.pc.toNat ∧ bitsOf v 312 6 = p.off ∧ bitsOf v 320 64 = p.clock.toNat
      ∧ bitsOf v 384 64 = a.tlnum.toNat ∧ bitsOf v 448 64 = a.elem.toNat ∧ bitsOf v 512 32 = p.mask.toNat ∧ v / 2 ^ 576 = 0 := by
  have hcause := a.trap.cause.isLt
  have hsub := a.trap.sub.isLt
  have hasync := Bool.toNat_lt a.async
  have hslot := Bool.toNat_lt slot
  have hskip := Bool.toNat_lt a.skip
  have heng := a.eng.isLt
  have hlmask := a.trap.lmask.isLt
  have hva := a.trap.va.isLt
  have hiw := iwAt_lt a.iw
  have hiw0 := hiw 0
  have hiw1 := hiw 1
  have hiw2 := hiw 2
  have hiw3 := hiw 3
  have hpc := p.pc.isLt
  have hclock := p.clock.isLt
  have htlnum := a.tlnum.isLt
  have helem := a.elem.isLt
  have hmask := p.mask.isLt
  unfold frameBits place bitsOf
  refine ⟨?_, ?_, ?_, ?_, ?_, ?_, ?_, ?_, ?_, ?_, ?_, ?_, ?_, ?_, ?_, ?_, ?_, ?_, ?_, ?_⟩ <;> omega

/-- Settles O17: taking a trap, a nested fault and its record, and the frame. -/
theorem takeTrap : Obligations.TakeTrap := by
  refine ⟨fun s s₁ a hsupv hsave => ?_, fun s a => ⟨enterHandler_supervisor, fun s₁ f hsupv => enterHandler_unsaved hsupv, nestedFault_ends s⟩,
    fun s t => ⟨rfl, ?_, fun n => nestedFault_marks s t, fun d => nestedFault_waits s t⟩,
    fun s r hen => devicePost_publishes hen, fun a p slot => frameBits_fields a slot⟩
  · rw [enterHandler_saved hsupv hsave]
    have hgroup {β : Type} (view : Group → β) := inHandler_group (β := β) view (s := s) (s₁ := s₁) (a := a)
    refine ⟨rfl, rfl, rfl, rfl, inHandler_supv s s₁ a, rfl, rfl, ?_, fun n hn => ?_, inHandler_path s s₁ a, hgroup Group.yielded fun _ _ _ => rfl,
      inHandler_held s s₁ a, hgroup Group.trapLanes fun _ _ _ => rfl, hgroup Group.vregs fun _ _ _ => rfl, hgroup Group.mregs fun _ _ _ => rfl,
      hgroup Group.bregs fun _ _ _ => rfl, hgroup Group.fpstat fun _ _ _ => rfl, hgroup Group.qflags fun _ _ _ => rfl⟩
    · rw [inHandler_sregs, if_pos rfl]
    · rw [inHandler_sregs, if_neg hn]
  · obtain ⟨hkind, hcause, hsub, hlevel, hva, hasid, heng, hdie, hcore, hnode, hgidx, hpc, hreply⟩ := recordBits_fields (s.handlerRecord t)
    exact ⟨hkind, hcause, hsub, hlevel, hva, hasid, heng, hdie, hcore, hnode, hgidx, hpc, hreply⟩

end Sys2Proof.Machine
end

