-- ==== Sys2Proof/Proofs/HostRegisters.lean ====
section
/-! PROOFS. O56: the host's registers, the message vectors, and the attestation report (spec/05 R134, R135, spec/20 R447, R450, R451, R457,
R464). -/

namespace Sys2Proof.Machine

/-! ## Accesses to BAR0 (R447, R457) -/

section
variable {s : State} {n : Nat} (hlo : 0x100 ≤ n) (hhi : n < 0x200)
include hlo hhi

theorem barWrite_pkg (v mask : Word64) : s.barWrite (8 * n) v mask = if s.regs.bootstat.getLsbD 8 then s.hostPkg n v mask else s := by
  have hdie : 8 * n / 0x400000 = 0 := by omega
  have hreg : 8 * n % 0x400000 = 8 * n := by omega
  have hnum : 8 * n / 8 = n := by omega
  unfold State.barWrite
  simp only [hdie, hreg, hnum]
  rw [if_pos (by omega)]
  cases s.regs.bootstat.getLsbD 8
  · rfl
  · rw [if_neg (by decide), if_pos (by omega), if_neg (by omega), if_pos rfl]
    rfl

theorem registerWrite_eight (v : Word64) : exec (.registerWrite (8 * n) 8 v) s = .next (s.barWrite (8 * n) v (BitVec.allOnes 64)) := by
  change execRegisterWrite (8 * n) 8 v s = _
  rw [execRegisterWrite, if_neg (by omega), if_pos (by omega)]

theorem registerWrite_low (v : Word64) : exec (.registerWrite (8 * n) 4 v) s = .next (s.barWrite (8 * n) (v &&& 0xFFFFFFFF) 0xFFFFFFFF) := by
  change execRegisterWrite (8 * n) 4 v s = _
  rw [execRegisterWrite, if_neg (by omega), if_neg (by omega), if_pos (by omega), if_pos (by omega)]

theorem registerWrite_high (v : Word64) :
    exec (.registerWrite (8 * n + 4) 4 v) s = .next (s.barWrite (8 * n) (v <<< 32) 0xFFFFFFFF00000000) := by
  change execRegisterWrite (8 * n + 4) 4 v s = _
  rw [execRegisterWrite, if_neg (by omega), if_neg (by omega), if_pos (by omega), if_neg (by omega), Nat.add_sub_cancel]

end

/-- R447: an access that is no naturally aligned one of 4 or 8 bytes is dropped. -/
theorem registerWrite_dropped {s : State} {off size : Nat} (v : Word64) (h : (size ≠ 4 ∧ size ≠ 8) ∨ off % size ≠ 0 ∨ 0x2000000 ≤ off) :
    exec (.registerWrite off size v) s = .next s := by
  change execRegisterWrite off size v s = _
  unfold execRegisterWrite
  by_cases hoff : 0x2000000 ≤ off
  · rw [if_pos hoff]
  · have h8 : ¬ (size = 8 ∧ off % 8 = 0) := by rintro ⟨rfl, h8⟩; omega
    have h4 : ¬ (size = 4 ∧ off % 4 = 0) := by rintro ⟨rfl, h4⟩; omega
    rw [if_neg hoff, if_neg h8, if_neg h4]

/-- R450: where no write of the host waits, a register's operation acts at once. -/
theorem hostPkg_now {s : State} {n : Nat} (hready : s.regs.bootstat.getLsbD 8 = true)
    (hfree : (∀ h ∈ s.held, h.hostWrites = false) ∨ (n ≠ 0x106 ∧ n ≠ 0x110)) (v mask : Word64) : s.hostPkg n v mask = s.writePkg n v mask := by
  unfold State.hostPkg
  split
  · next h =>
    obtain ⟨rfl, hmask⟩ := h
    have hheld := hfree.resolve_right fun h => h.1 rfl
    rw [hostSubmit_now hheld, if_pos hready, BitVec.toNat_ofNat, ← bitsOf_low]
    simp only [State.writePkg, hmask, if_true]
  · split
    · next h =>
      obtain ⟨rfl, hgo⟩ := h
      have hheld := hfree.resolve_right fun h => h.2 rfl
      have hnone : s.held.any HeldReq.hostWrites = false := by simpa using hheld
      have hready' (v : Word64) : (s.regs.put 0x110 v).bootstat.getLsbD 8 = true := hready
      unfold State.hostTlbi State.afterHost State.whenReady State.writePkg
      simp only [hnone, hready', hgo, if_true, Bool.false_eq_true, if_false, Nat.reduceEqDiff]
      rfl
    · rfl

/-- R450: a host write of SUBMIT waits behind a write that a swap holds. -/
theorem hostPkg_submit_waits {s : State} (hheld : ∃ h ∈ s.held, h.hostWrites = true) (v : Word64) :
    s.hostPkg 0x106 v (BitVec.allOnes 64) = { s with held := s.held ++ [.submit (v.extractLsb' 0 20)] } := by
  have hindex : BitVec.ofNat 20 (v &&& BitVec.allOnes 64).toNat = v.extractLsb' 0 20 := by
    rw [BitVec.and_allOnes]
    exact BitVec.eq_of_toNat_eq (by simp)
  unfold State.hostPkg
  rw [if_pos ⟨rfl, by decide⟩, hindex, hostSubmit_waits hheld]

/-! ## FRCTL (R134) -/

section
variable {s : State} (v : Word64)

theorem exec_frctlWrite (hready : s.regs.bootstat.getLsbD 8 = true) :
    exec (.frctlWrite v) s = .next (s.writePkg 0x104 v (BitVec.allOnes 64)) := by
  change execFrctlWrite v s = _
  rw [execFrctlWrite, State.whenReady, if_pos hready]

/-- FRCTL as a full write leaves it. -/
def State.newFrctl (s : State) (v : Word64) : Word64 := (pkgSpec 0x104).write s.regs.frctl v (BitVec.allOnes 64)

theorem newFrctl_en (s : State) : (s.newFrctl v).getLsbD 8 = v.getLsbD 8 := by
  have hsep : (pkgSpec 0x104).Separate := regSpec_separate (n := 0x104) rfl
  have hen : ((8, 1, anyVal) : RegField) ∈ (pkgSpec 0x104).rw := List.mem_cons_of_mem _ List.mem_cons_self
  rw [State.newFrctl, getLsbD_write_field hsep hen _ _ _ ⟨Nat.le_refl _, by decide⟩]
  exact if_pos rfl

theorem writePkg_frctl (s : State) : s.writePkg 0x104 v (BitVec.allOnes 64) = { s with
    regs := { s.regs with frctl := s.newFrctl v }
    frTicket := if s.regs.frctl.getLsbD 8 = false ∧ v.getLsbD 8 = true then BitVec.ofNat 64 s.frTail else s.frTicket } := by
  have hen := newFrctl_en v s
  unfold State.newFrctl at hen ⊢
  unfold State.writePkg
  simp only [Nat.reduceEqDiff, if_false, if_true]
  change (if !s.regs.frctl.getLsbD 8 && ((pkgSpec 0x104).write s.regs.frctl v (BitVec.allOnes 64)).getLsbD 8 then _ else _) = _
  rw [hen]
  cases s.regs.frctl.getLsbD 8 <;> cases v.getLsbD 8 <;> rfl

end

/-! ## Records that wait (R135) -/

section
variable {s : State} {die : BitVec 2} {k : Nat} {r : BitVec 512} (h : s.oldestWaiting = some (die, k, r))
include h

theorem exec_overflowRecordPost : exec (.overflowRecordPost die) s = .next (if s.frRoom
    then (s.setDie die { s.die die with overflow := (s.die die).overflow.drop 1 }).frPublish r else s) := by
  change execOverflowRecordPost die s = _
  unfold execOverflowRecordPost State.postWaiting1
  simp only [h, if_true]

end

/-! ## Message vectors (R451) -/

/-- A vector's entry with its mask bit cleared. -/
def State.unmasked (s : State) (v : BitVec 2) : State :=
  { s with msixTable := s.msixTable.set (16 * v.toNat + 12) (s.msixTable.get (16 * v.toNat + 12) &&& 0xFE) }

theorem unmasked_entry (s : State) (v : BitVec 2) : (s.unmasked v).msixTable.get (16 * v.toNat + 12) &&& 1 = 0 := by
  have hbits : ∀ x : BitVec 8, x &&& 0xFE &&& 1 = 0 := by decide
  rw [State.unmasked, get_set, if_pos rfl, hbits]

theorem exec_msixUnmask (s : State) (v : BitVec 2) : exec (.msixUnmask v) s = .next (if s.msixPending.getLsbD v.toNat
    then { s.unmasked v with msixPending := s.msixPending &&& ~~~(1#4 <<< v.toNat), msixSent := s.msixSent.modify v.toNat (· + 1) }
    else s.unmasked v) := by
  change Host.Outcome.next ((s.unmasked v).flushVector v.toNat) = _
  unfold State.flushVector
  rw [unmasked_entry]
  simp [State.unmasked]

theorem notPending_cleared {p : BitVec 4} {v : BitVec 2} (h : p.getLsbD v.toNat = false) : p &&& ~~~(1#4 <<< v.toNat) = p := by
  revert p v
  decide

/-! ## Attestation (R464) -/

/-- The access codes of ATTCTL: ADDR and RECOVER. -/
def attSpec : RegSpec := ⟨[(12, 46, anyVal), (3, 1, anyVal)], []⟩

theorem getLsbD_setBit (v : Word64) {k : Nat} (hk : k < 64) (b : Bool) (i : Nat) :
    (setBit v k b).getLsbD i = if i = k then b else v.getLsbD i := by
  have hone : (1#64 <<< k).getLsbD i = decide (i = k) := by
    rw [BitVec.getLsbD_shiftLeft, BitVec.getLsbD_one, Bool.eq_iff_iff]
    simp only [Bool.and_eq_true, decide_eq_true_eq, Bool.not_eq_true', decide_eq_false_iff_not]
    omega
  unfold setBit
  by_cases hi : i < 64
  · cases b
    · simp only [Bool.false_eq_true, if_false, BitVec.getLsbD_and, BitVec.getLsbD_not, hone, hi, decide_true, Bool.true_and]
      by_cases h : i = k <;> simp [h]
    · simp only [if_true, BitVec.getLsbD_or, hone]
      by_cases h : i = k <;> simp [h]
  · have hik : i ≠ k := by omega
    rw [if_neg hik, BitVec.getLsbD_of_ge v i (by omega)]
    exact BitVec.getLsbD_of_ge _ i (by omega)

theorem attSpec_separate : attSpec.Separate := by decide

section
variable {s : State} (v : Word64)

/-- ATTCTL after a full write: ADDR and RECOVER as written, and BUSY where GO starts a request. -/
theorem attWrite_frame (s : State) : s.attWrite v (BitVec.allOnes 64) = { s with regs := { s.regs with
    attctl := if v.getLsbD 0 then setBit (attSpec.write s.regs.attctl v (BitVec.allOnes 64)) 1 true else attSpec.write s.regs.attctl v (BitVec.allOnes 64) } } := by
  unfold State.attWrite
  rw [BitVec.and_allOnes]
  rfl

theorem getLsbD_attWrite (s : State) {k : Nat} (hk : k < 64) : (s.attWrite v (BitVec.allOnes 64)).regs.attctl.getLsbD k =
    if k = 1 then (s.regs.attctl.getLsbD 1 || v.getLsbD 0) else if k = 3 ∨ 12 ≤ k ∧ k < 58 then v.getLsbD k else s.regs.attctl.getLsbD k := by
  have hwrite : (attSpec.write s.regs.attctl v (BitVec.allOnes 64)).getLsbD k =
      if k = 3 ∨ 12 ≤ k ∧ k < 58 then v.getLsbD k else s.regs.attctl.getLsbD k := by
    by_cases haddr : 12 ≤ k ∧ k < 58
    · rw [getLsbD_write_field attSpec_separate (f := (12, 46, anyVal)) List.mem_cons_self _ _ _ haddr, if_pos (c := _ ∨ _) (.inr haddr)]
      exact if_pos rfl
    · by_cases hrec : k = 3
      · subst hrec
        rw [getLsbD_write_field attSpec_separate (f := (3, 1, anyVal)) (List.mem_cons_of_mem _ List.mem_cons_self) _ _ _ ⟨Nat.le_refl _, by decide⟩]
        exact if_pos rfl
      · have hother : ∀ f ∈ attSpec.rw, ¬ RegField.has f k := by
          simp only [attSpec, List.mem_cons, List.not_mem_nil, or_false, forall_eq_or_imp, forall_eq, RegField.has]
          omega
        rw [getLsbD_write_other _ _ _ _ hother, if_neg (by tauto)]
        simp [attSpec]
  rw [attWrite_frame]
  simp only []
  cases hgo : v.getLsbD 0
  · by_cases hk1 : k = 1
    · subst hk1
      rw [if_pos rfl, Bool.or_false]
      exact hwrite
    · rw [if_neg hk1]
      exact hwrite
  · rw [if_pos rfl, getLsbD_setBit _ (by decide), hwrite, Bool.or_true]

theorem exec_attestRequest : exec (.attestRequest v) s = .next (if s.regs.bootstat.getLsbD 8 then s.attWrite v (BitVec.allOnes 64) else s) := rfl

end

/-- A field of a word by its bits. -/
theorem extractLsb'_congr {a b : Word64} {lo w : Nat} (h : ∀ k, lo ≤ k → k < lo + w → a.getLsbD k = b.getLsbD k) :
    a.extractLsb' lo w = b.extractLsb' lo w := by
  refine BitVec.eq_of_getLsbD_eq fun i hi => ?_
  rw [BitVec.getLsbD_extractLsb', BitVec.getLsbD_extractLsb', h (lo + i) (by omega) (by omega)]

/-! ### The report -/

/-- A request has ended with status `sts`. -/
def State.attested (s : State) (sts : Nat) : State :=
  { s with regs := { s.regs with attctl := setField (setBit s.regs.attctl 1 false) 4 2 sts } }

theorem attested_busy (s : State) (sts : Nat) : (s.attested sts).regs.attctl.getLsbD 1 = false := by
  change (setField (setBit s.regs.attctl 1 false) 4 2 sts).getLsbD 1 = false
  rw [getLsbD_setField _ _ _ _ _ (by decide), if_neg (by decide), setBit_clear _ (by decide)]

theorem attested_status (s : State) (sts : Nat) : (s.attested sts).regs.attctl.extractLsb' 4 2 = BitVec.ofNat 2 sts := by
  change (setField (setBit s.regs.attctl 1 false) 4 2 sts).extractLsb' 4 2 = BitVec.ofNat 2 sts
  refine BitVec.eq_of_getLsbD_eq fun i hi => ?_
  rw [BitVec.getLsbD_extractLsb', getLsbD_setField _ _ _ _ _ (by omega), if_pos (by omega), BitVec.getLsbD_ofNat, Nat.add_sub_cancel_left]

/-- Where the host has put the nonce. -/
def State.nonceAt (s : State) : Nat := 2 ^ 48 + (s.regs.attctl.extractLsb' 12 46).toNat * 64

/-- The report and its signature, as they are written above the nonce. -/
def State.signedReport (s : State) : List Byte :=
  s.report (s.bytes s.nonceAt 64) ++ Config.attestSign Config.attestKey s.leaves (s.report (s.bytes s.nonceAt 64))

section
variable {s : State} (ok : Bool)

theorem exec_attestDone_idle (h : s.regs.attctl.getLsbD 1 = false) : exec (.attestDone ok) s = .next s := by
  change execAttestDone ok s = _
  rw [execAttestDone, h]
  rfl

theorem exec_attestDone (h : s.regs.attctl.getLsbD 1 = true) : exec (.attestDone ok) s = .next (
    if 2 ^ 20 ≤ s.leaves then s.attested 2
    else if ok = true ∧ s.rangePoisoned s.nonceAt 64 = false then
      State.attested { (s.settleHost s.nonceAt).devStore (cellsAt (s.nonceAt + 64) s.signedReport) with leaves := s.leaves + 1 } 1
    else (s.settleHost s.nonceAt).attested 3) := by
  have hat : 2 ^ 48 + bitsOf s.regs.attctl.toNat 12 46 * 64 = s.nonceAt := by
    rw [State.nonceAt, BitVec.extractLsb'_toNat, bitsOf, Nat.shiftRight_eq_div_pow]
  have hleaves : (s.settleHost s.nonceAt).leaves = s.leaves := by rw [settleHost_frame]
  have hpoison : (s.settleHost s.nonceAt).rangePoisoned s.nonceAt 64 = s.rangePoisoned s.nonceAt 64 := by rw [settleHost_frame]; rfl
  have hsigned : (s.settleHost s.nonceAt).report ((s.settleHost s.nonceAt).bytes s.nonceAt 64) ++ Config.attestSign Config.attestKey
      (s.settleHost s.nonceAt).leaves ((s.settleHost s.nonceAt).report ((s.settleHost s.nonceAt).bytes s.nonceAt 64)) = s.signedReport := by
    rw [settleHost_frame]; rfl
  change execAttestDone ok s = _
  unfold execAttestDone
  simp only [h, if_true, hat, hpoison, hsigned]
  congr 1
  refine if_congr Iff.rfl rfl ?_
  by_cases hgood : ok = true ∧ s.rangePoisoned s.nonceAt 64 = false
  · rw [if_pos hgood, if_neg (by simp [hgood])]
    generalize (s.settleHost s.nonceAt).devStore _ = t
    rw [hleaves]
    rfl
  · rw [if_neg hgood, if_pos (by cases ok <;> simp_all)]
    rfl

/-- R464: STS, the leaves used and the bytes of memory when a request ends. -/
theorem attestDone_ends (h : s.regs.attctl.getLsbD 1 = true) : ∃ t, exec (.attestDone ok) s = .next t ∧ t.regs.attctl.getLsbD 1 = false
    ∧ t.regs.attctl.extractLsb' 4 2 = (if 2 ^ 20 ≤ s.leaves then 2 else if ok = true ∧ s.rangePoisoned s.nonceAt 64 = false then 1 else 3)
    ∧ t.leaves = (if s.leaves < 2 ^ 20 ∧ ok = true ∧ s.rangePoisoned s.nonceAt 64 = false then s.leaves + 1 else s.leaves)
    ∧ (2 ^ 20 ≤ s.leaves ∨ ¬ (ok = true ∧ s.rangePoisoned s.nonceAt 64 = false) → t.mem = s.mem)
    ∧ (s.leaves < 2 ^ 20 → ok = true ∧ s.rangePoisoned s.nonceAt 64 = false →
      t.mem = ((s.settleHost s.nonceAt).devStore (cellsAt (s.nonceAt + 64) s.signedReport)).mem) := by
  rw [exec_attestDone ok h]
  by_cases hleaves : 2 ^ 20 ≤ s.leaves
  · rw [if_pos hleaves, if_pos hleaves, if_neg (by omega)]
    exact ⟨_, rfl, attested_busy s 2, attested_status s 2, rfl, fun _ => rfl, fun hlt => absurd hleaves (Nat.not_le.2 hlt)⟩
  · rw [if_neg hleaves, if_neg hleaves]
    by_cases hgood : ok = true ∧ s.rangePoisoned s.nonceAt 64 = false
    · rw [if_pos hgood, if_pos hgood, if_pos ⟨Nat.not_le.1 hleaves, hgood⟩]
      generalize (s.settleHost s.nonceAt).devStore _ = t
      exact ⟨_, rfl, attested_busy _ 1, attested_status _ 1, rfl, fun h => absurd h (not_or.2 ⟨hleaves, not_not.2 hgood⟩), fun _ _ => rfl⟩
    · rw [if_neg hgood, if_neg hgood, if_neg fun h => hgood h.2]
      have hkept : ((s.settleHost s.nonceAt).attested 3).leaves = s.leaves ∧ ((s.settleHost s.nonceAt).attested 3).mem = s.mem := by
        rw [settleHost_frame]
        exact ⟨rfl, rfl⟩
      exact ⟨_, rfl, attested_busy _ 3, attested_status _ 3, hkept.1, fun _ => hkept.2, fun _ h => absurd h hgood⟩

end

/-- Settles O56: the host's registers, the overflow buffers, the message vectors and the attestation report. -/
theorem hostRegisters : Obligations.HostRegisters := by
  refine ⟨fun s n v hlo hhi => ⟨fun hready hfree => ?_, fun hready size => ?_⟩, fun s off size v h => registerWrite_dropped v h,
    fun s v hready hheld => ?_, fun s reg => ?_, fun s v hready => ?_, fun s die k r h => ?_, fun s v => ?_, fun s v => ⟨fun hready => ?_, fun hready => ?_⟩,
    fun s ok => ⟨exec_attestDone_idle ok, fun hbusy => ?_⟩⟩
  · have hwrite (v mask : Word64) : s.barWrite (8 * n) v mask = s.writePkg n v mask := by
      rw [barWrite_pkg hlo hhi, if_pos hready, hostPkg_now hready hfree]
    rw [registerWrite_eight hlo hhi, registerWrite_low hlo hhi, registerWrite_high hlo hhi, hwrite, hwrite, hwrite]
    exact ⟨rfl, rfl, rfl⟩
  · have hsame (v mask : Word64) : s.barWrite (8 * n) v mask = s := by rw [barWrite_pkg hlo hhi, hready]; rfl
    by_cases h8 : size = 8
    · rw [h8, registerWrite_eight hlo hhi, hsame]
    · by_cases h4 : size = 4
      · rw [h4, registerWrite_low hlo hhi, hsame]
      · exact registerWrite_dropped v (.inl ⟨h4, h8⟩)
  · exact (registerWrite_eight (n := 0x106) (by decide) (by decide) v).trans
      (by rw [barWrite_pkg (by decide) (by decide), if_pos hready, hostPkg_submit_waits hheld])
  · change execConfigRequest reg s = _
    unfold execConfigRequest State.isReady retryTime
    simp
  · refine ⟨_, exec_frctlWrite v hready, ?_⟩
    rw [writePkg_frctl]
    exact ⟨rfl, rfl, newFrctl_en v s⟩
  · rw [exec_overflowRecordPost h]
    exact ⟨fun hroom => by rw [if_pos hroom], fun hroom => by rw [hroom]; rfl⟩
  · refine ⟨_, exec_msixUnmask s v, ?_⟩
    cases hpending : s.msixPending.getLsbD v.toNat
    · exact ⟨rfl, unmasked_entry s v, (notPending_cleared hpending).symm, rfl⟩
    · exact ⟨rfl, unmasked_entry s v, rfl, rfl⟩
  · rw [exec_attestRequest, hready]
    rfl
  · refine ⟨_, exec_attestRequest v, ?_⟩
    rw [if_pos hready]
    refine ⟨getLsbD_attWrite v s (by decide), extractLsb'_congr fun k hk hk' => ?_, extractLsb'_congr fun k hk hk' => ?_, ?_⟩
    · rw [getLsbD_attWrite v s (by omega), if_neg (by omega), if_pos (by omega)]
    · rw [getLsbD_attWrite v s (by omega), if_neg (by omega), if_neg (by omega)]
    · rw [attWrite_frame]
  · obtain ⟨t, hexec, hidle, hsts, hleaves, hkept, hstored⟩ := attestDone_ends ok hbusy
    refine ⟨t, hexec, hidle, hsts, hleaves, hkept, fun hlow hgood hhost => ?_⟩
    have hmem (a : Nat) : t.byte a = ((s.settleHost s.nonceAt).put (cellsAt (s.nonceAt + 64) s.signedReport)).byte a :=
      byte_of_mem ((hstored hlow hgood).trans (mem_devStore _ _)) a
    have hsettled (a : Nat) : (s.settleHost s.nonceAt).byte a = s.byte a := byte_of_mem (by rw [settleHost_frame]) a
    refine ⟨fun i hi => ?_, fun a ha => ?_⟩
    · obtain ⟨hown, hhost⟩ := hhost i hi
      exact (hmem _).trans (byte_put_mem (nodup_cellsAt _ _) (cell_mem hi) (inCarve_of_isHost hown hhost)
        (ordinary_isHole (e := .pf1) ⟨hown, .inr hhost⟩) _)
    · refine (hmem a).trans ((byte_put_other (.inl fun p hp hpa => ?_) _).trans (hsettled a))
      obtain ⟨i, hi, hpi⟩ := mem_cellsAt hp
      exact ha ⟨by rw [← hpa, hpi]; exact Nat.le_add_right _ i, by rw [← hpa, hpi]; exact Nat.add_lt_add_left hi _⟩

end Sys2Proof.Machine
end

