-- ==== Sys2Proof/Proofs/CacheOperations.lean ====
section
/-! PROOFS. O21: SCLEAN and the invalidations of cached translations (spec/05 R137, R138, spec/11 R329). -/

namespace Sys2Proof.Machine

/-! ## SCLEAN (R329) -/

section
variable {f : YForm} {s s₁ : State} {ix n : Word64} {b : BitVec 128} {pas : List Nat} (hix : Gives (readSA f.a) s ix) (hn : Gives (readSB f.d) s n)
  (hb : Gives (readB (f.sub.toNat % 32)) s b) (hsize : n.toNat < 2 ^ 32)
include hix hn hb hsize

/-- SCLEAN of no bytes is the fence alone (R329). -/
theorem sclean_none (hzero : n = 0) (hacked : s.allAcked (.group s.g.id) = true) : Does (sclean f) s () (s.retire 1) :=
  gives_bind hix (gives_bind hn (gives_bind hb (gives_bind (act_get s) (does_else (Nat.not_le.2 hsize) (does_then hzero
    (gives_bind (awaitPerformed_gives hacked) (act_retire 1 s)))))))

/-- SCLEAN of an element out of bounds sets GSTAT.OOB and does nothing else (R329). -/
theorem sclean_oob (hsome : n ≠ 0) (hbad : (s.g.recIn (f.sub.toNat % 32) b).bad = false)
    (hout : (s.g.recIn (f.sub.toNat % 32) b).extent ≤ ix.toNat) (hoobt : (s.g.recIn (f.sub.toNat % 32) b).oobt = false) :
    Does (sclean f) s () ((s.stick 0).retire 1) :=
  gives_bind hix (gives_bind hn (gives_bind hb (gives_bind (act_get s) (does_else (Nat.not_le.2 hsize) (does_else hsome
    (does_else (by simp [hbad]) (does_then hout (does_else (by simp [hoobt])
      (does_bind (does_modify _ s) (act_retire 1 _))))))))))

/-- SCLEAN translates its lines, cleans them and ends as a fence (R329). -/
theorem sclean_cleans (hsome : n ≠ 0) (hbad : (s.g.recIn (f.sub.toNat % 32) b).bad = false)
    (hin : ix.toNat < (s.g.recIn (f.sub.toNat % 32) b).extent)
    (hva : (s.g.recIn (f.sub.toNat % 32) b).addr (f.sub.toNat % 32 == 31) 0 ix.toNat 0 + n.toNat ≤ 2 ^ 56)
    (hwhole : straddles (s.g.recIn (f.sub.toNat % 32) b).esz ((List.range (2 ^ (s.g.recIn (f.sub.toNat % 32) b).esz)).map
      fun k => (s.g.recIn (f.sub.toNat % 32) b).addr (f.sub.toNat % 32 == 31) 0 ix.toNat k) = false)
    (hlines : let a := (s.g.recIn (f.sub.toNat % 32) b).addr (f.sub.toNat % 32 == 31) 0 ix.toNat 0
      Does (cleanXlates ((a + n.toNat - 1) / 128 - a / 128 + 1) (a / 128)) s pas s₁)
    (hacked : (s₁.cleanLines (f.sub.getLsbD 5) pas).allAcked (.group (s₁.cleanLines (f.sub.getLsbD 5) pas).g.id) = true) :
    Does (sclean f) s () ((s₁.cleanLines (f.sub.getLsbD 5) pas).retire 1) :=
  gives_bind hix (gives_bind hn (gives_bind hb (gives_bind (act_get s) (does_else (Nat.not_le.2 hsize) (does_else hsome
    (does_else (by simp [hbad]) (does_else (Nat.not_le.2 hin) (does_else (Nat.not_lt.2 hva) (does_else (by simp [hwhole])
      (does_bind hlines (does_bind (does_modify _ s₁) (gives_bind (awaitPerformed_gives hacked) (act_retire 1 _)))))))))))))

end

/-! ## STLB (R137, R138) -/

theorem exec_of_stlbKind {i : Instr} {k : Nat} {f : StlbForm} (hi : stlbKind i = some (k, f)) (s : State) :
    exec i s = Act.outcome (stlb k f) s := by
  unfold stlbKind at hi
  split at hi <;> cases hi <;> rfl

/-- R138 steps 1 and 3: the undrained stores drain, and the instruction waits where something is still to be performed. -/
theorem runAct_allPerformed (s : State) :
    runAct allPerformed s = (if s.drainAll.settled then .ok () else .error .hold, s.drainAll) := by
  have hrun : runAct allPerformed s = runAct (if s.drainAll.settled then pure () else hold) s.drainAll := rfl
  rw [hrun]
  split
  · exact does_pure () _
  · rfl

section
variable {k : Nat} {f : StlbForm} {s : State} {a d : Word64} (hsupv : s.g.supv = true) (ha : Gives (readSA f.a) s a) (hd : Gives (readSB f.d) s d)
include hsupv ha hd

theorem stlb_does (hsettled : s.drainAll.settled = true) :
    Does (stlb k f) s () ((s.drainAll.invalidate f.scope.toNat k (d.extractLsb' 0 12) a.toNat).retire 1) := by
  have hasid : d.extractLsb' 0 12 = d.setWidth 12 := by simp [BitVec.extractLsb'_eq_extractLsb, BitVec.setWidth_eq_extractLsb']
  have hperformed : Does allPerformed s () s.drainAll := by rw [Does, runAct_allPerformed, if_pos hsettled]
  rw [hasid]
  exact gives_bind (needSupv_gives hsupv) (gives_bind ha (gives_bind hd
    (does_bind hperformed (does_bind (does_modify _ _) (act_retire 1 _)))))

theorem stlb_waits (hunsettled : s.drainAll.settled = false) : Act.outcome (stlb k f) s = .next s.drainAll.endGrant := by
  have hwaits : runAct allPerformed s = (.error .hold, s.drainAll) := by rw [runAct_allPerformed, hunsettled, if_neg Bool.false_ne_true]
  have hrun : (stlb k f).run.run s = (.error .hold, s.drainAll) :=
    (runAct_bind_gives (needSupv_gives hsupv)).trans ((runAct_bind_gives ha).trans ((runAct_bind_gives hd).trans (runAct_bind_error hwaits)))
  simp only [Act.outcome, Act.state, hrun]

end

/-! ## What draining and discarding leave as it was -/

/-- A move about a path keeps what it keeps of the state brought to that path, and what bringing paths to issue keeps. -/
theorem withGroup_keeps {β : Type} (view : State → β)
    (hissue : ∀ (t : State) (g : Group) (w : Workgroup) (os : List Group) (ws : List Workgroup) (live slot granted : Bool),
      view { t with g := g, w := w, others := os, otherWgs := ws, live := live, slot := slot, granted := granted } = view t)
    {f : State → State} (hf : ∀ t, view (f t) = view t) (s : State) (i : GroupId) (slot : Bool) : view (s.withGroup i slot f) = view s := by
  have hexchange {t u : State} {j : GroupId} {sl : Bool} (h : t.exchange j sl = some u) : view u = view t := by
    rw [exchange_frame h]
    exact hissue t _ _ _ _ _ _ _
  unfold State.withGroup
  simp only []
  split
  · rfl
  · next u hu =>
    have hmoved : view (f u) = view s := (hf u).trans (hexchange hu)
    split
    · exact (hissue (f u) _ (f u).w (f u).others (f u).otherWgs (f u).live _ _).trans hmoved
    · split
      · exact hmoved
      · next v hv => exact (hissue v v.g v.w v.others v.otherWgs v.live v.slot _).trans ((hexchange hv).trans hmoved)

theorem regs_drainAll (s : State) : s.drainAll.regs = s.regs :=
  foldl_keeps State.regs (fun t i _ => withGroup_keeps State.regs (fun _ _ _ _ _ _ _ _ => rfl)
    (drain_keeps State.regs (fun _ => rfl) (fun _ _ => rfl) (fun _ _ => rfl) fun _ _ _ _ => rfl) t i false) s

/-- One die's caches without the entries that a KIND discards (R138 step 2). -/
def State.dropDie (s : State) (kind : Nat) (asid : BitVec 12) (va : Nat) (d : BitVec 2) : State :=
  s.setDie d { s.die d with
    tlb := (s.die d).tlb.filter fun e => !tlbDropped kind asid va e
    walkCache := (s.die d).walkCache.filter fun e => !walkDropped kind asid va e }

/-- The package's cores without the entries that a KIND discards (R138 step 2). -/
def State.dropCores (s : State) (kind : Nat) (asid : BitVec 12) (va : Nat) : State :=
  { s with cores := s.cores.map fun c => { c with tlb := c.tlb.filter fun e => !tlbDropped kind asid va e } }

theorem dropAll_eq (s : State) (kind : Nat) (asid : BitVec 12) (va : Nat) :
    s.dropAll kind asid va = [0, 1, 2, 3].foldl (fun s d => s.dropDie kind asid va d) (s.dropCores kind asid va) := by
  have hevery : ∀ d : BitVec 2, [0, 1, 2, 3].contains d = true := by decide
  simp only [State.dropAll, State.dropDies, State.dropCores, hevery, if_true, State.dropDie]

/-- Discarding keeps every view that the cores and the dies do not change. -/
theorem dropAll_keeps {β : Type} (view : State → β) (hcores : ∀ (t : State) (cs : List Core), view { t with cores := cs } = view t)
    (hdies : ∀ (t : State) (d0 d1 d2 d3 : Die), view { t with die0 := d0, die1 := d1, die2 := d2, die3 := d3 } = view t)
    (s : State) (kind : Nat) (asid : BitVec 12) (va : Nat) : view (s.dropAll kind asid va) = view s := by
  rw [dropAll_eq]
  refine (foldl_keeps view (fun t d _ => ?_) _).trans (hcores s _)
  rw [State.dropDie, setDie_frame]
  exact hdies t _ _ _ _

theorem cores_dropDie (s : State) (kind : Nat) (asid : BitVec 12) (va : Nat) (d : BitVec 2) : (s.dropDie kind asid va d).cores = s.cores := by
  rw [State.dropDie, setDie_frame]

theorem cores_dropAll (s : State) (kind : Nat) (asid : BitVec 12) (va : Nat) :
    (s.dropAll kind asid va).cores = (s.dropCores kind asid va).cores := by
  rw [dropAll_eq]
  exact foldl_keeps State.cores (fun t d _ => cores_dropDie t kind asid va d) _

/-- A die holds no entry that a KIND discards. -/
def Die.dropped (x : Die) (kind : Nat) (asid : BitVec 12) (va : Nat) : Prop :=
  (∀ e ∈ x.tlb, tlbDropped kind asid va e = false) ∧ ∀ e ∈ x.walkCache, walkDropped kind asid va e = false

/-- Discarding on a list of dies leaves no such entry on those dies, nor where there was none. -/
theorem die_dropped {kind : Nat} {asid : BitVec 12} {va : Nat} (d : BitVec 2) :
    ∀ (ds : List (BitVec 2)) (s : State), d ∈ ds ∨ (s.die d).dropped kind asid va →
      ((ds.foldl (fun s d => s.dropDie kind asid va d) s).die d).dropped kind asid va
  | [], _, h => h.resolve_left List.not_mem_nil
  | e :: ds, s, h => by
    refine die_dropped d ds (s.dropDie kind asid va e) ?_
    by_cases hde : d = e
    · subst hde
      refine .inr ?_
      rw [State.dropDie, die_setDie]
      exact ⟨fun e he => by simpa using (List.mem_filter.1 he).2, fun e he => by simpa using (List.mem_filter.1 he).2⟩
    · rw [State.dropDie, die_setDie_ne s hde]
      exact h.imp_left fun hmem => (List.mem_cons.1 hmem).resolve_left hde

/-! ## The host's TLBICTL (R137, R138, R450) -/

theorem tlbiKind_lt {i : Instr} {k : Nat} {asid : BitVec 12} (hi : tlbiKind i = some (k, asid)) : k < 5 := by
  unfold tlbiKind at hi
  split at hi <;> cases hi <;> decide

theorem exec_of_tlbiKind {i : Instr} {k : Nat} {asid : BitVec 12} (hi : tlbiKind i = some (k, asid)) (s : State) :
    exec i s = .next (s.hostTlbi k asid) := by
  unfold tlbiKind at hi
  split at hi <;> cases hi <;> rfl

/-- A host's write of TLBICTL is performed once the device is ready and none of its earlier writes waits (R450, R457). -/
theorem hostTlbi_ready {s : State} (hready : s.regs.bootstat.getLsbD 8 = true) (hheld : ∀ h ∈ s.held, h.hostWrites = false) (k : Nat)
    (asid : BitVec 12) : s.hostTlbi k asid = s.hostInvalidate k asid := by
  have hnone : s.held.any HeldReq.hostWrites = false := List.any_eq_false.2 fun h hm => by simp [hheld h hm]
  rw [State.hostTlbi, State.afterHost, hnone, if_neg Bool.false_ne_true, State.whenReady, if_pos hready]

/-- The fields of TLBICTL that the device leaves (Table 5-11). -/
theorem place_tlbictl {k : Nat} (hk : k < 5) (asid : BitVec 12) (busy : Bool) :
    place asid.toNat 32 12 + place busy.toNat 8 1 + place k 0 3 = asid.toNat * 2 ^ 32 + (if busy then 2 ^ 8 else 0) + k := by
  have hasid := asid.isLt
  cases busy <;> simp only [place, Bool.toNat_true, Bool.toNat_false, Bool.false_eq_true, if_true, if_false] <;> omega

theorem hostInvalidate_idle {s : State} (hidle : s.regs.tlbictl.getLsbD 8 = false) {k : Nat} (hk : k < 5) (asid : BitVec 12) :
    let s₁ := s.drainAll.dropAll k asid (s.regs.tlbiva.extractLsb' 0 56).toNat
    s.hostInvalidate k asid = { s₁ with regs := { s₁.regs with
      tlbictl := BitVec.ofNat 64 (asid.toNat * 2 ^ 32 + (if s₁.settled then 0 else 2 ^ 8) + k) } } := by
  intro s₁
  have hva : (s.regs.tlbiva.extractLsb' 0 56).toNat = bitsOf s.regs.tlbiva.toNat 0 56 := by
    rw [BitVec.extractLsb'_toNat, Nat.shiftRight_zero, bitsOf_low]
  have hregs : s₁.regs = s.regs :=
    (dropAll_keeps State.regs (fun _ _ => rfl) (fun _ _ _ _ _ => rfl) _ k asid _).trans (regs_drainAll s)
  have hbusy : s.tlbiBusy = false := hidle
  have hbusy₁ : s₁.tlbiBusy = false := by rw [State.tlbiBusy, hregs]; exact hidle
  have hdrop : s.drainAll.dropAll k asid (bitsOf s.regs.tlbiva.toNat 0 56) = s₁ := by rw [← hva]
  simp only [State.hostInvalidate, hbusy, hk, decide_true, Bool.not_false, Bool.true_and, if_true, hdrop, hbusy₁, Bool.false_or, place_tlbictl hk]
  cases s₁.settled <;> rfl

/-! ## What an operation waits for (log entry 5) -/

theorem settled_iff (s : State) : s.settled = true ↔ s.unacked = [] ∧ ∀ r ∈ s.reductions, ∀ c ∈ r.contributions, c.cmd = none := by
  simp [State.settled, State.reducing]

/-- Settles O21: SCLEAN by its three ways through, STLB by whether what it waits for is performed, the host's operation by the frame of
draining and discarding, and the discarding itself by an induction over the dies. -/
theorem cacheOperations : Obligations.CacheOperations := by
  unfold Obligations.CacheOperations
  refine ⟨?_, ?_, ?_, settled_iff, ?_⟩
  · intro f s s₁ ix n b pas hix hn hb hsize r at' a
    refine ⟨?_, ?_, ?_⟩
    · intro hzero hacked
      exact outcome_of_does (sclean_none hix hn hb hsize hzero hacked)
    · intro hsome hbad hout hoobt
      exact outcome_of_does (sclean_oob hix hn hb hsize hsome hbad hout hoobt)
    · intro hsome hbad hin hva hwhole hlines s₂ hacked
      exact outcome_of_does (sclean_cleans hix hn hb hsize hsome hbad hin hva hwhole hlines hacked)
  · intro i k f s a d hi hsupv ha hd
    rw [exec_of_stlbKind hi]
    exact ⟨fun h => outcome_of_does (stlb_does hsupv ha hd h), stlb_waits hsupv ha hd⟩
  · intro i k asid s hi hready hidle hheld s₁
    rw [exec_of_tlbiKind hi, hostTlbi_ready hready hheld, hostInvalidate_idle hidle (tlbiKind_lt hi)]
  · intro s kind asid va t
    have hkeeps {β : Type} (view : State → β) := dropAll_keeps view (s := s) (kind := kind) (asid := asid) (va := va)
    refine ⟨?_, ?_, hkeeps State.mem (fun _ _ => rfl) (fun _ _ _ _ _ => rfl), hkeeps State.g (fun _ _ => rfl) (fun _ _ _ _ _ => rfl),
      hkeeps State.regs (fun _ _ => rfl) (fun _ _ _ _ _ => rfl), hkeeps State.w (fun _ _ => rfl) (fun _ _ _ _ _ => rfl)⟩
    · intro c hc e he
      rw [cores_dropAll] at hc
      obtain ⟨c₀, -, rfl⟩ := List.mem_map.1 hc
      simpa using (List.mem_filter.1 he).2
    · intro d
      have hmem : ∀ d : BitVec 2, d ∈ ([0, 1, 2, 3] : List (BitVec 2)) := by decide
      have hdie := die_dropped (kind := kind) (asid := asid) (va := va) d [0, 1, 2, 3] (s.dropCores kind asid va) (.inl (hmem d))
      rw [← dropAll_eq] at hdie
      exact hdie

end Sys2Proof.Machine
end

