-- ==== Sys2Proof/Proofs/FirstTouchAndRing.lean ====
section
/-! PROOFS. O22: MAPPG, the first-touch unit and FRPOST (spec/05 R127 to R130, R133, spec/08 R229). -/

namespace Sys2Proof.Machine

/-! ## MAPPG and the first-touch unit (R129, R130) -/

/-- An action that parks the path ends at the state it has made, parked. -/
theorem outcome_of_parked {a : Act Unit} {s t : State} {w : Wait} (h : runAct a s = (.error (.park w), t)) : Act.outcome a s = .next (t.park w) := by
  have h' : a.run.run s = (.error (.park w), t) := h
  simp only [Act.outcome, Act.state, h']

/-- MAPPG with room in the queue leaves its request there, and parks (R129). -/
theorem mappg_parks {f : YForm} {s : State} {k : Option Nat} {va : Word64} (hsupv : s.g.supv = true) (hmark : Gives (checkMark false) s k)
    (hva : Gives (readSA f.a) s va) (hd : s.busyReg f.d = false) (hroom : s.mapQueue.length < 64) :
    runAct (mappg f) s = (.error (.park { instr := .mappg f, words := 1, on := .firstTouch, vals := [va], mark := k }),
      { s with mapQueue := s.mapQueue ++ [⟨s.g.id, s.slot, va &&& ~~~ 0x7FFF#64⟩] }) :=
  (runAct_bind_gives (needSupv_gives hsupv)).trans ((runAct_bind_gives hmark).trans ((runAct_bind_gives hva).trans
    ((runAct_bind_gives (act_get s)).trans (runAct_else (by simp [hd, hroom])))))

/-- The path of a MAPPG served with a status (R130). -/
theorem firstTouchService_next {s s₁ t : State} {q : MapReq} {rest : List MapReq} {g : Group} {st : Nat} {f : YForm} {w : Wait}
    (hqueue : s.mapQueue = q :: rest) (hgroup : s.group? q.group = some g) (hpage : s.mapPage g.asid g.die.toNat q.va.toNat = (s₁, some st))
    (hpath : State.atPath { s₁ with mapQueue := rest } q.group q.slot t) (hwait : t.path.wait = some w) (hinstr : w.instr = .mappg f) :
    exec .firstTouchService s
      = .next (State.withGroup { s₁ with mapQueue := rest } q.group q.slot fun x => (x.endWait.setS f.d (BitVec.ofNat 64 st)).retire 1) := by
  have hexec : exec .firstTouchService s = execFirstTouchService s := rfl
  rw [hexec, execFirstTouchService, hqueue]
  simp only [hgroup, hpage]
  refine congrArg Host.Outcome.next (withGroup_congr hpath ?_)
  obtain ⟨instr, words, on, vals, mark⟩ := w
  obtain rfl : instr = .mappg f := hinstr
  simp only [hwait]

/-! ## FRPOST (R133) -/

/-- What FRPOST waits for in a deterministic node (R229, log entry 14). -/
theorem orderGate_frpost {f : YForm} {s : State}
    (horder : s.g.det = true → s.isLowestPost s.g.id.node s.key (some (s.g.id, s.slot)) none = true) : Gives (orderGate (.frpost f) 1) s () := by
  refine gives_bind (act_get s) (does_else ?_ (does_pure () s))
  cases hdet : s.g.det
  · simp
  · simpa [State.lowestFor] using horder hdet

/-- The value that FRPOST writes to S[SD]: its ticket, or all ones where it posted nothing (R133). -/
def ticketWord (t : Option Word64) : Word64 :=
  match t with
  | some t => BitVec.ofNat 64 (t.toNat % 2 ^ 32)
  | none => BitVec.allOnes 64

theorem frpost_does {f : YForm} {s s₁ : State} {k : Option Nat} {reply va : Word64} {bs : List Byte} (hsupv : s.g.supv = true)
    (hmark : Gives (checkMark false) s k)
    (horder : s.g.det = true → s.isLowestPost s.g.id.node s.key (some (s.g.id, s.slot)) none = true) (hreply : Gives (readSA f.a) s reply)
    (hva : Gives (readS 127) s va) (hd : s.busyReg f.d = false) (hframe : Does (readSave va.toNat 256) s bs s₁)
    (hfree : (s₁.frPost (s₁.frameRecord bs reply)).1.busyReg f.d = false) :
    Does (frpost f) s () (((s₁.frPost (s₁.frameRecord bs reply)).1.setS f.d (ticketWord (s₁.frPost (s₁.frameRecord bs reply)).2)).retire 1) :=
  gives_bind (needSupv_gives hsupv) (gives_bind hmark (gives_bind (orderGate_frpost horder) (gives_bind hreply (gives_bind hva
    (gives_bind (act_get s) (does_else (by simp [hd]) (does_bind hframe (does_bind (act_stateful _ s₁)
      (writeRetire_does _ f.d (ticketWord (s₁.frPost (s₁.frameRecord bs reply)).2) 1 hfree)))))))))

/-- Settles O22: MAPPG and FRPOST step by step through their operands, the first-touch unit by what it does at the waiting path, and the
published record by the two stores of `frPublish`. -/
theorem firstTouchAndRing : Obligations.FirstTouchAndRing := by
  unfold Obligations.FirstTouchAndRing
  refine ⟨?_, ?_, ?_, ?_⟩
  · intro f s k va hsupv hmark hva hd hroom s₁
    exact outcome_of_parked (mappg_parks hsupv hmark hva hd hroom)
  · intro s s₁ t q rest g st f w hqueue hgroup hpage hpath hwait hinstr
    exact firstTouchService_next hqueue hgroup hpage hpath hwait hinstr
  · intro s b t rec' tail plain u
    exact ⟨frTicket_frPublish s b, fun i hi hplain => byte_frPublish_record s b hi hplain.1 hplain.2,
      fun i hi hplain => byte_frPublish_tail s b hi hplain.1 hplain.2, fun a ha hrec htail => byte_frPublish_other s b ha hrec htail⟩
  · intro f s s₁ k reply va bs hsupv hmark horder hreply hva hd hframe r hfree
    refine (outcome_of_does (frpost_does hsupv hmark horder hreply hva hd hframe hfree)).trans
      (congrArg (fun v => Host.Outcome.next ((r.1.setS f.d v).retire 1)) ?_)
    change ticketWord r.2 = _
    generalize r.2 = ticket
    cases ticket <;> rfl

end Sys2Proof.Machine
end

