-- ==== Sys2Proof/Proofs/DeliveredTraps.lean ====
section
/-! PROOFS. O41: the delivery of a command's traps (spec/05 R124, R134, spec/08 R204, R228). -/

namespace Sys2Proof.Machine

theorem exec_deliveredTrap (g : GroupId) (s : State) : exec (.deliveredTrap g) s = .next (s.deliver g) := rfl

section
variable {s : State} {g issuer : GroupId} {d : Delivered} {rest : List (GroupId × Delivered)}

/-- With every group of the workgroup gone the device records the first pending trap (R124). -/
theorem deliver_gone (hpending : s.pendingOf (wgOf g) = (issuer, d) :: rest) (hgone : s.allExited (wgOf g) = true) :
    s.deliver g = s.recordFault issuer d := by
  rw [State.deliver, if_pos hgone, hpending]

/-- A group that may receive traps takes the first one pending for it (R124, R204). -/
theorem deliver_takes {t : State} (hpending : s.pendingFor g = (issuer, d) :: rest) (halive : s.allExited (wgOf g) = false)
    (hpath : s.atPath g false t) (hsupv : t.g.supv = false) (hstop : t.g.stop ≠ .stopped) :
    s.deliver g = s.withGroup g false fun _ => t.takeDelivered issuer d := by
  rw [State.deliver, halive, if_neg Bool.false_ne_true, hpending]
  refine (withGroup_atPath hpath _).trans (withGroup_congr hpath ?_)
  have hmay : ¬ (t.g.supv || t.g.stop == .stopped) = true := by simp [hsupv, hstop]
  exact if_neg hmay

end

/-- The trap is taken on its handler lane, the wait of that path ended (R124). -/
theorem takeDelivered_enters {t : State} {issuer : GroupId} {d : Delivered} {lane : Nat} {slot : Bool}
    (hlane : handlerLane t.g (if t.g.id == issuer then some d.active else none) = some (lane, slot))
    (hwait : endsWait ((t.g.path? slot).getD Path.empty) = true) :
    let u : State := t.dropPending issuer d
    t.takeDelivered issuer d = (({ u with slot := slot, g := { u.g with ovr := none, serving := some d } } : State).endWait).enterHandler
      { trap := { d.trap with lmask := 1#32 <<< lane }, iw := ((t.g.path? slot).getD Path.empty).frameWords, async := true, eng := d.eng
        tlnum := BitVec.ofNat 64 d.cmd.num, elem := d.elem } := by
  rw [State.takeDelivered, hlane]
  simp only [hwait, Bool.not_true, Bool.false_eq_true, if_false]

section
variable {s : State} {issuer : GroupId} {d : Delivered} {c : Command} (hcmd : s.cmd? d.cmd = some c) (hrestart : d.restart = true)
include hcmd hrestart

/-- In a deterministic node a record waits for its place in key order (R134, R228). -/
theorem recordFault_waits (hfree : s.recordFree c = false) : s.recordFault issuer d = s := by
  simp [State.recordFault, hcmd, hrestart, hfree]

/-- The device's record of a command's trap; the command then completes with FAULT (R124, R134). -/
theorem recordFault_records {i : Group} (hfree : s.recordFree c = true) (hcmd' : (s.dropPending issuer d).cmd? d.cmd = some c)
    (hissuer : (s.dropPending issuer d).group? issuer = some i) :
    s.recordFault issuer d = ((s.dropPending issuer d).devicePost
      { pos := BitVec.ofNat 64 c.id.num, pc := c.pc + BitVec.ofNat 56 (4 * c.off), lmask := 0, gidx := c.gidx, node := c.id.wg.node, core := i.core
        die := i.die, eng := d.eng, kind := d.trap.kind, asid := i.asid, sub := d.trap.sub, cause := d.trap.cause, level := d.trap.level
        va := d.trap.va }).finish c 1 := by
  simp only [State.recordFault, hcmd, hfree, hcmd', hissuer, hrestart, Bool.not_true, Bool.or_true, Bool.false_eq_true, if_false, if_true]

end

/-- Settles O41: what `deliver` answers with no group left and with a group that may take the trap, and the two cases of the device's
record. -/
theorem deliveredTraps : Obligations.DeliveredTraps := by
  unfold Obligations.DeliveredTraps
  refine ⟨?_, ?_, ?_⟩
  · intro s g issuer d rest hpending hgone
    rw [exec_deliveredTrap, deliver_gone hpending hgone]
  · intro s issuer d c i hcmd hrestart
    exact ⟨recordFault_waits hcmd hrestart, recordFault_records hcmd hrestart⟩
  · intro s g issuer d rest hpending t lane slot halive hpath hsupv hstop hlane hwait u v
    rw [Resumes, exec_deliveredTrap, deliver_takes hpending halive hpath hsupv hstop, takeDelivered_enters hlane hwait]

end Sys2Proof.Machine
end

