-- ==== Sys2Proof/Proofs/KvAppend.lean ====
section
/-! PROOFS. O38: KVAPP (spec/06 R156, spec/15 R390). -/

namespace Sys2Proof.Machine

theorem runAct_bind_does {α β : Type} {a : Act α} {f : α → Act β} {s t : State} {x : α} (h : Does a s x t) :
    runAct (a >>= f) s = runAct (f x) t := by
  rw [Does] at h
  rw [act_bind, h]

/-! ## One token (R156) -/

/-- The run of the transaction that appends a token to the sequence that the input word names. -/
def State.appendRun (s : State) (q : Ask) (tok : Token) : State × Except KvStop ((Nat × Nat) × List (Nat × List Byte)) :=
  s.runKv s.kvHere (do
    let a ← beginOn q.a.toNat
    let st ← append a (bitsOf q.b.toNat 0 16) tok.key tok.val
    pure (st, ← seqLen a (bitsOf q.b.toNat 0 16)))

/-- What a KVAPP that parks keeps: how many tokens it has appended, and those that are left (log entry 54). -/
def Ask.left (q : Ask) (elems done : Nat) (ts : List Token) : Ask :=
  { q with rest := BitVec.ofNat 64 done :: BitVec.ofNat 64 elems :: ts.flatMap Token.pack }

/-- The group's flags once a token is appended. -/
def State.tokenFlags (s : State) (tok : Token) : State := { s with g := s.g.setFlags (flagsOfCode tok.flags) }

theorem does_askDone (d : BitVec 7) (v : Word64) (s : State) : Does (askDone [(d, v)]) s () ((s.setS d v).unhang.retire 3) :=
  does_bind (does_modify _ s) (act_retireWork 3 _)

theorem runAct_parkAsk (i : Instr) (q : Ask) (s : State) :
    runAct (parkAsk i q) s = (.error (.park { instr := i, words := 3, on := .walker, vals := q.vals, mark := q.mark }), s) := act_throw _ s

section
variable {l : Lane} {s : State} {q : Ask} {elems done : Nat} {one : Bool} {tok : Token} {rest : List Token}

theorem appendTokens_queued {on : WalkerWait} (h : (s.appendRun q tok).2 = .error (.queued on)) :
    runAct (appendTokens l one q elems done (tok :: rest)) s = (.error (.park
      { instr := .kvapp l, words := 3, on := .walker, vals := (q.left elems done (tok :: rest)).vals, mark := q.mark }), (s.appendRun q tok).1) :=
  (runAct_bind_does (pathKv_error h)).trans (runAct_parkAsk (.kvapp l) (q.left elems done (tok :: rest)) _)

section
variable {st len : Nat} {ws : List (Nat × List Byte)} (h : (s.appendRun q tok).2 = .ok ((st, len), ws))
include h

theorem appendTokens_refused (hst : st ≠ 0) : Does (appendTokens l one q elems done (tok :: rest)) s ()
    ((((s.appendRun q tok).1.emitAll done ws).setS (sregOf l.vd) (appendWord st done len)).unhang.retire 3) :=
  does_bind (pathKv_ok h) (does_then hst (does_askDone _ _ _))

/-- A token is appended, its flags are raised, and the tokens after it decide how the instruction goes on. -/
theorem appendTokens_appended (hst : st = 0) : runAct (appendTokens l one q elems done (tok :: rest)) s = runAct
    (if rest.isEmpty then askDone [(sregOf l.vd, appendWord 0 (done + 1) len)]
      else if one then parkAsk (.kvapp l) (q.left elems (done + 1) rest)
      else appendTokens l one q elems (done + 1) rest) (((s.appendRun q tok).1.emitAll done ws).tokenFlags tok) :=
  (runAct_bind_does (pathKv_ok h)).trans ((runAct_else (not_not.2 hst)).trans (runAct_bind_does (does_modify _ _)))

theorem appendTokens_last (hst : st = 0) (hrest : rest = []) : Does (appendTokens l one q elems done (tok :: rest)) s ()
    (((((s.appendRun q tok).1.emitAll done ws).tokenFlags tok).setS (sregOf l.vd) (appendWord 0 (done + 1) len)).unhang.retire 3) :=
  (appendTokens_appended h hst).trans (does_then (List.isEmpty_iff.2 hrest) (does_askDone _ _ _))

theorem appendTokens_goesOn (hst : st = 0) (hrest : rest ≠ []) (hone : one = false) : runAct (appendTokens l one q elems done (tok :: rest)) s =
    runAct (appendTokens l one q elems (done + 1) rest) (((s.appendRun q tok).1.emitAll done ws).tokenFlags tok) :=
  (appendTokens_appended h hst).trans ((runAct_else (mt List.isEmpty_iff.1 hrest)).trans (runAct_else (by simp [hone])))

theorem appendTokens_parksAfterOne (hst : st = 0) (hrest : rest ≠ []) (hone : one = true) :
    runAct (appendTokens l one q elems done (tok :: rest)) s = (.error (.park
      { instr := .kvapp l, words := 3, on := .walker, vals := (q.left elems (done + 1) rest).vals, mark := q.mark }),
      ((s.appendRun q tok).1.emitAll done ws).tokenFlags tok) :=
  (appendTokens_appended h hst).trans ((runAct_else (mt List.isEmpty_iff.1 hrest)).trans ((runAct_then hone).trans (runAct_parkAsk ..)))

end
end

/-! ## At issue, and from a parked path (R390) -/

section
variable {l : Lane} {s s₁ : State} {active : Word32} {k : Option Nat} {a w : Word64} {tk tv : Tile} {x : Arena}

/-- KVAPP comes to the tokens of its rows once its operands are read, its arena is opened and its rows fit. -/
theorem kvapp_reads (hstart : Gives (laneStart l) s (active, k)) (hactive : active ≠ 0) (hdest : Gives (freeDest (.kvapp l)) s ())
    (ha : Gives (readS (sregOf l.va)) s a) (hw : Gives (readS (sregOf l.vd)) s w) (hk : Gives (useTile active l.vb) s tk)
    (hv : Gives (useTile active l.vc) s tv) (hacked : s.allAcked (.group s.g.id) = true) (horder : Gives (orderGate (.kvapp l) 3) s ())
    (harena : Does (issueArena active a) s x s₁) {n row0 : Nat} (hn : bitsOf w.toNat 24 7 + 1 = n) (hrow : bitsOf w.toNat 16 7 = row0)
    (hfitK : badRows tk x.d row0 n = false) (hfitV : badRows tv x.d row0 n = false)
    (hsoftK : Gives (checkRows active tk ((List.range n).map (row0 + ·)) (List.range tk.cols)) s₁ ())
    (hsoftV : Gives (checkRows active tv ((List.range n).map (row0 + ·)) (List.range tv.cols)) s₁ ()) :
    runAct (kvapp l) s = runAct (do
      let ts := ((List.range n).map (row0 + ·)).map (s₁.tokenOf tk tv)
      if s₁.g.nanctl.getLsbD 0 && ts.any (fun t => bitOf t.flags 2) then trapAt { cause := cNANTRAP, sub := 1 } 0 active (lowLane active)
      appendTokens l false { fresh := true, mark := k, active := active, a := a, b := w, rest := [] } x.d 0 ts) s₁ := by
  subst hn hrow
  have hfit : ¬ (badRows tk x.d (bitsOf w.toNat 16 7) (bitsOf w.toNat 24 7 + 1) || badRows tv x.d (bitsOf w.toNat 16 7) (bitsOf w.toNat 24 7 + 1)) = true := by
    simp [hfitK, hfitV]
  calc runAct (kvapp l) s
    _ = runAct _ s := (runAct_bind_gives hstart).trans ((runAct_bind_gives (checkTile_of_useTile hk)).trans
          ((runAct_bind_gives (checkTile_of_useTile hv)).trans (runAct_else hactive)))
    _ = runAct _ s := (runAct_bind_gives hdest).trans ((runAct_bind_gives ha).trans ((runAct_bind_gives hw).trans
          ((runAct_bind_gives hk).trans (runAct_bind_gives hv))))
    _ = runAct _ s₁ := (runAct_bind_gives (awaitPerformed_gives hacked)).trans ((runAct_bind_gives horder).trans (runAct_bind_does harena))
    _ = runAct _ s₁ := (runAct_else hfit).trans ((runAct_bind_gives hsoftK).trans ((runAct_bind_gives hsoftV).trans (runAct_bind_gives (act_get s₁))))

end

/-- The walker's event goes on with the tokens that are left of a parked KVAPP. -/
theorem kvAppendTransaction_resumes {l : Lane} {s t u : State} {g : GroupId} {slot : Bool} {w : Wait} (ht : s.atPath g slot t)
    (hw : t.askNow = some w) (hinstr : w.instr = .kvapp l) (hdoes : Does (resumeAppend l (Ask.of w)) t.endWait () u) :
    Resumes (.kvAppendTransaction g slot) s g slot u :=
  resumes_of_outcome (Eq.refl (execKvAppendTransaction g slot s)) ht hw (by rw [hinstr]) (outcome_of_does hdoes)

/-! ## The obligation

`append` in the model's namespace is the transaction of one token; the theorem has a namespace of its own. -/

namespace KvAppend

/-- Settles O38: KVAPP at issue up to its tokens, in the walker's turn, and token by token. -/
theorem append : Obligations.Append := by
  unfold Obligations.Append
  refine ⟨?_, ?_, ?_⟩
  · intro l s s₁ s₂ active k a w tk tv x hstart hactive hdest ha hw hk hv hacked horder harena n row0 ks hfitK hfitV hsoftK hsoftV ts q
    have hreads := kvapp_reads hstart hactive hdest ha hw hk hv hacked horder harena rfl rfl hfitK hfitV hsoftK hsoftV
    refine ⟨fun htrap hnan => ?_, fun hnone => ?_⟩
    · have hraise : (s₁.g.nanctl.getLsbD 0 && ts.any fun t => bitOf t.flags 2) = true := by simpa [htrap] using hnan
      exact (outcome_congr (hreads.trans (runAct_then hraise))).trans (outcome_of_raises (raises_first (act_trapAt ..)))
    · have hquiet : ¬ (s₁.g.nanctl.getLsbD 0 && ts.any fun t => bitOf t.flags 2) = true := by simpa using hnone
      have htokens := hreads.trans (runAct_else hquiet)
      exact ⟨fun hdone => outcome_of_does (htokens.trans hdone), fun wait hpark => outcome_of_parked (htokens.trans hpark)⟩
  · intro l s t u g slot w ht hw hinstr hdoes
    exact kvAppendTransaction_resumes ht hw hinstr hdoes
  · intro l s q elems done one tok rest n r d left
    have hn : bitsOf q.b.toNat 0 16 = n := bitsOf_low q.b.toNat 16
    have hrun : r = s.appendRun q tok := by rw [State.appendRun, hn]
    rw [hrun]
    exact ⟨fun st len ws h => ⟨appendTokens_refused h, appendTokens_last h, appendTokens_goesOn h, appendTokens_parksAfterOne h⟩,
      fun on h => appendTokens_queued h⟩

end KvAppend

end Sys2Proof.Machine
end

