-- ==== Sys2Proof/Proofs/ScalarReads.lean ====
section
/-! PROOFS. O7: reading S[n], issue stalls, retiring and transferring (spec/08 R206, R219, R226, spec/09 R251, spec/10 R260, spec/11 R281, R285). -/

namespace Sys2Proof.Machine

/-! ## Reading S[n] (R206, R260, R285) -/

section
variable {s : State} {n : BitVec 7}

theorem readS_gives (hbusy : s.busyReg n = false) (hsoft : s.isSoft (.sreg s.g.id n.toNat) = false) : Gives (readS n) s (s.g.sregs.get n.toNat) := by
  simp [Gives, Does, readS, hbusy, hsoft]

theorem readS_stalls (hbusy : s.busyReg n = true) : Stalls (readS n) s := by
  simp [Stalls, readS, hbusy]

theorem readS_raises (hbusy : s.busyReg n = false) (hsoft : s.isSoft (.sreg s.g.id n.toNat) = true) :
    Raises (readS n) s { cause := cECC, sub := 2, lmask := s.path.mask, va := 0, kind := 0, level := 0xF } := by
  simp [Raises, readS, hbusy, hsoft]

/-- Outside a replay entry S[SA] is the register's own value. -/
theorem runAct_readSA (hovr : s.g.ovr = none) : runAct (readSA n) s = runAct (readS n) s := by
  simp [readSA, hovr]

theorem runAct_readSB (hovr : s.g.ovr = none) : runAct (readSB n) s = runAct (readS n) s := by
  simp [readSB, hovr]

/-- A replay entry executes with its captured values. -/
theorem reads_captured {c : Captured} (hovr : s.g.ovr = some c) : Gives (readSA n) s c.a ∧ Gives (readSB n) s c.b := by
  simp [Gives, Does, readSA, readSB, hovr]

end

/-! ## The rows of Tables 12-1 and 12-2 read S[SA] first -/

theorem exec_table12_reads {i : Instr} {a : BitVec 7}
    (h : (table12_1 i).map (fun r => r.1.a) = some a ∨ (table12_1One i).map (fun r => r.1.a) = some a
      ∨ (table12_1Old i).map (fun r => r.1.a) = some a ∨ (table12_2 i).map (fun r => r.1.a) = some a) :
    ∃ k : Word64 → Act Unit, ∀ s, exec i s = Act.outcome (readSA a >>= k) s := by
  rcases h with h | h | h | h
  · unfold table12_1 at h
    split at h <;> cases h <;> exact ⟨_, fun s => rfl⟩
  · unfold table12_1One at h
    split at h <;> cases h <;> exact ⟨_, fun s => rfl⟩
  · unfold table12_1Old at h
    split at h <;> cases h <;> exact ⟨_, fun s => rfl⟩
  · unfold table12_2 at h
    split at h <;> cases h <;> exact ⟨_, fun s => rfl⟩

/-! ## Issue stalls (R219, R251) -/

theorem path?_setPath (g : Group) (b : Bool) (p : Option Path) : (g.setPath b p).path? b = p := by cases b <;> rfl

theorem path?_setPath_other (g : Group) (b : Bool) (p : Option Path) : (g.setPath b p).path? (!b) = g.path? (!b) := by cases b <;> rfl

theorem setPath_frame (g : Group) (b : Bool) (p : Option Path) :
    g.setPath b p = { g with slot0 := (g.setPath b p).slot0, slot1 := (g.setPath b p).slot1 } := by cases b <;> rfl

/-- A stalled path keeps its place; a slot that is free stays free. -/
theorem path?_stallPath (s : State) : s.stallPath.g.path? s.slot = (s.g.path? s.slot).map fun p => { p with stalled := true } :=
  path?_setPath s.g s.slot _

theorem path_stallPath {s : State} (h : (s.g.path? s.slot).isSome = true) : s.stallPath.path = { s.path with stalled := true } := by
  obtain ⟨p, hp⟩ := Option.isSome_iff_exists.1 h
  rw [State.path, State.path, show s.stallPath.slot = s.slot from rfl, path?_stallPath, hp]
  rfl

theorem wroteNothing_stallPath (s : State) : s.wroteNothing s.stallPath := by
  refine ⟨⟨path?_setPath_other s.g s.slot _, ?_⟩, rfl, ?_, fun a => rfl⟩
  · cases h : s.g.path? s.slot with
    | none =>
      have hpath : s.stallPath.path = s.path := by
        rw [State.path, State.path, show s.stallPath.slot = s.slot from rfl, path?_stallPath, h]
        rfl
      rw [hpath]
    | some p => rw [path_stallPath (by rw [h]; rfl)]
  · rw [State.stallPath, State.endGrant, setPath_frame]

/-! ## Retiring and transferring (R226, R281) -/

theorem path?_afterAdvance (s : State) (p p' : Path) : (s.afterAdvance p p').g.path? s.slot = some { p' with stalled := false } := by
  unfold State.afterAdvance
  simp only []
  split <;> exact path?_setPath _ _ _

theorem path_afterAdvance (s : State) (p p' : Path) : (s.afterAdvance p p').path = { p' with stalled := false } := by
  have hslot : (s.afterAdvance p p').slot = s.slot := by
    unfold State.afterAdvance
    simp only []
    split <;> rfl
  rw [State.path, hslot, path?_afterAdvance]
  rfl

theorem granted_afterAdvance (s : State) (p p' : Path) :
    (s.afterAdvance p p').granted = if p'.off = 0 ∨ p'.clause = none then false else s.granted := by
  unfold State.afterAdvance
  simp only [Bool.or_eq_true, decide_eq_true_eq, Option.isNone_iff_eq_none]
  split <;> rfl

theorem wroteNothing_afterAdvance {s : State} {p' : Path}
    (h : p' = { s.path with pc := p'.pc, off := p'.off, clock := p'.clock, clause := p'.clause, top := p'.top, wait := p'.wait, replay := p'.replay
                            stalled := p'.stalled }) : s.wroteNothing (s.afterAdvance s.path p') := by
  have hg : (s.afterAdvance s.path p').g.path? (!s.slot) = s.g.path? (!s.slot)
      ∧ (s.afterAdvance s.path p').g = { s.g with
          slot0 := (s.afterAdvance s.path p').g.slot0, slot1 := (s.afterAdvance s.path p').g.slot1
          ovr := (s.afterAdvance s.path p').g.ovr, yielded := (s.afterAdvance s.path p').g.yielded } := by
    unfold State.afterAdvance State.setPath
    simp only []
    split <;> exact ⟨path?_setPath_other _ _ _, by rw [setPath_frame]⟩
  have hframe := afterAdvance_frame s p'
  refine ⟨⟨hg.1, ?_⟩, hframe, hg.2, byte_of_mem (by rw [hframe])⟩
  rw [path_afterAdvance, h]

/-- With no further replay entry the path goes on in its clause, or to the next header. -/
theorem advance_of_short {p : Path} {n : Nat} (h : p.replay.length ≤ 1) :
    p.advance n = if p.off + n ≤ bodyLen p.header then { p with off := p.off + n, replay := [], wait := none } else p.next := by
  unfold Path.advance
  split
  · next hr => rw [hr] at h; simp at h
  · rfl

theorem nextHeader_eq (p : Path) : p.nextHeader = p.pc + BitVec.ofNat 56 (4 * (bodyLen p.header + 1)) := by
  rw [Path.nextHeader, Path.nextAt, BitVec.ofNat_add, BitVec.ofNat_toNat, BitVec.setWidth_eq]

/-- The path that an instruction of `n` words leaves, with no further replay entry. -/
theorem retired_path {s : State} {n : Nat} (h : s.path.replay.length ≤ 1) :
    (s.tickTo (s.path.advance n) (s.path.clock + 1)).replayClock
      = { s.path.advance n with clock := if s.g.supv then s.path.clock else s.path.clock + 1 } := by
  have hadv : (s.path.advance n).replay = [] ∧ (s.path.advance n).clock = s.path.clock := by
    rw [advance_of_short h]
    split <;> exact ⟨rfl, rfl⟩
  obtain ⟨hreplay, hclock⟩ := hadv
  have hnone : ∀ p : Path, p.replay = [] → p.replayClock = p := fun p hp => by rw [Path.replayClock, hp]
  unfold State.tickTo
  split
  · rw [hnone _ hreplay, ← hclock]
  · exact hnone _ hreplay

section
variable {s : State} {n : Nat} (h : s.path.replay.length ≤ 1)
include h

theorem path_retire : (s.retire n).path = { s.path.advance n with clock := if s.g.supv then s.path.clock else s.path.clock + 1, stalled := false } := by
  rw [State.retire, retire_path, retired_path h]

theorem granted_retire : (s.retire n).granted = if (s.path.advance n).off = 0 ∨ (s.path.advance n).clause = none then false else s.granted := by
  have hstep : s.retire n = s.afterAdvance s.path _ := rfl
  rw [hstep, granted_afterAdvance, retired_path h]

/-- R281: words are left in the clause. -/
theorem retire_within (hle : s.path.off + n ≤ bodyLen s.path.header) (hne : s.path.off + n ≠ 0) (hclause : s.path.clause.isSome = true) :
    (s.retire n).path.pc = s.path.pc ∧ (s.retire n).path.off = s.path.off + n ∧ (s.retire n).granted = s.granted := by
  have hadv : s.path.advance n = { s.path with off := s.path.off + n, replay := [], wait := none } := by rw [advance_of_short h, if_pos hle]
  have hgo : ¬ (s.path.off + n = 0 ∨ s.path.clause = none) := not_or.2 ⟨hne, Option.isSome_iff_ne_none.1 hclause⟩
  rw [path_retire h, granted_retire h, hadv]
  exact ⟨rfl, rfl, if_neg hgo⟩

/-- R281: the clause ends. -/
theorem retire_beyond (hlt : bodyLen s.path.header < s.path.off + n) :
    (s.retire n).path.pc = s.path.pc + BitVec.ofNat 56 (4 * (bodyLen s.path.header + 1)) ∧ (s.retire n).path.off = 0
      ∧ (s.retire n).path.top = decide (2 ^ 56 ≤ s.path.pc.toNat + 4 * (bodyLen s.path.header + 1))
      ∧ (s.retire n).path.clause = none ∧ (s.retire n).granted = false := by
  have hadv : s.path.advance n = s.path.next := by rw [advance_of_short h, if_neg (Nat.not_le.2 hlt)]
  rw [path_retire h, granted_retire h, hadv, ← nextHeader_eq]
  exact ⟨rfl, rfl, rfl, rfl, rfl⟩

end

theorem transfer_does (s : State) (target : BitVec 56) :
    (s.transfer target).path.pc = target ∧ (s.transfer target).path.off = 0 ∧ (s.transfer target).path.clause = none ∧ (s.transfer target).granted = false
      ∧ s.wroteNothing (s.transfer target) ∧ (s.transfer target).path.clock = (if s.g.supv then s.path.clock else s.path.clock + 1) := by
  have htick : s.tickTo (s.path.goto target) (s.path.clock + 1)
      = { s.path.goto target with clock := if s.g.supv then s.path.clock else s.path.clock + 1 } := by
    unfold State.tickTo
    split <;> rfl
  have hstep : s.transfer target = s.afterAdvance s.path _ := congrArg (s.afterAdvance s.path) htick
  rw [hstep, path_afterAdvance, granted_afterAdvance]
  exact ⟨rfl, rfl, rfl, rfl, wroteNothing_afterAdvance rfl, rfl⟩

/-- Settles O7: reading S[n], the rows whose first operand stalls or traps, retiring, and transferring. -/
theorem operandsAndRetiring : Obligations.OperandsAndRetiring := by
  refine ⟨fun s n => ⟨fun hovr hbusy hsoft => ?_, fun c hovr => reads_captured hovr, fun hovr hbusy => ?_, fun hovr hbusy hsoft => ?_⟩,
    fun i s a hrow => ?_, fun s n hreplay => ⟨retire_nothing s n, ?_, retire_within hreplay, retire_beyond hreplay⟩, transfer_does⟩
  · exact ⟨(runAct_readSA hovr).trans (readS_gives hbusy hsoft), (runAct_readSB hovr).trans (readS_gives hbusy hsoft)⟩
  · exact ⟨(runAct_readSA hovr).trans (readS_stalls hbusy), (runAct_readSB hovr).trans (readS_stalls hbusy)⟩
  · exact (runAct_readSA hovr).trans (readS_raises hbusy hsoft)
  · obtain ⟨k, hexec⟩ := exec_table12_reads hrow
    refine ⟨fun hstall => ⟨(hexec s).trans (outcome_of_stalls (runAct_bind_error hstall)), wroteNothing_stallPath s, rfl, path_stallPath⟩,
      fun t hraise => (hexec s).trans (outcome_of_raises (raises_first hraise))⟩
  · rw [path_retire hreplay]

end Sys2Proof.Machine
end

