-- ==== Sys2Proof/Proofs/LaneRows.lean ====
section
/-! PROOFS. O23: lane operands and the rows of one result for each lane (spec/07 R193, R202, spec/11 R290, R291, spec/13 R334 to R343, R351 to R354). -/

namespace Sys2Proof.Machine

/-! ## Sticky flags (R200 to R202) -/

theorem setFlags_none (g : Group) : g.setFlags {} = g := rfl

theorem foldl_or_none {α : Type} {f : α → FpFlags} {xs : List α} (h : ∀ x ∈ xs, f x = {}) :
    xs.foldl (fun (a : FpFlags) x => a.or (f x)) {} = {} :=
  foldl_keeps (f := fun (a : FpFlags) x => a.or (f x)) id (fun a x hx => by rw [h x hx]; cases a; simp [FpFlags.or]) {}

/-- The flags of FPSTAT alone change: bits 0 to 2 (Table 7-9). -/
theorem setFlags_frame (g : Group) (f : FpFlags) : g.setFlags f = { g with fpstat := (g.setFlags f).fpstat } := by
  unfold Group.setFlags
  rfl

theorem fpstat_setFlags (g : Group) (f : FpFlags) : (g.setFlags f).fpstat &&& ~~~ 7#64 = g.fpstat &&& ~~~ 7#64 := by
  have hbit : ∀ (v : Word64) (k : Nat), k < 3 → setBit v k true &&& ~~~ 7#64 = v &&& ~~~ 7#64 := fun v k hk => by
    refine BitVec.eq_of_getLsbD_eq fun i hi => ?_
    rw [BitVec.getLsbD_and, BitVec.getLsbD_and, getLsbD_setBit v (by omega)]
    by_cases hik : i = k
    · have hmask : (~~~ 7#64).getLsbD i = false := by
        have hk' : k = 0 ∨ k = 1 ∨ k = 2 := by omega
        rcases hk' with rfl | rfl | rfl <;> subst hik <;> decide
      rw [hmask, Bool.and_false, Bool.and_false]
    · rw [if_neg hik]
  have hcond : ∀ (b : Bool) (v : Word64) (k : Nat), k < 3 → (if b then setBit v k true else v) &&& ~~~ 7#64 = v &&& ~~~ 7#64 := fun b v k hk => by
    cases b
    · rfl
    · exact hbit v k hk
  unfold Group.setFlags
  simp only []
  rw [hcond f.nan _ 2 (by omega), hcond f.ovf _ 1 (by omega), hcond f.invalid _ 0 (by omega)]

/-- No lane raises NANTRAP: the flags are set. -/
theorem raiseFlags_does {ls : List (Nat × FpFlags)} {s : State} (h : s.g.nanctl.getLsbD 0 = false ∨ (ls.filter fun p => p.2.nan).map Prod.fst = []) :
    Does (raiseFlags ls) s () { s with g := s.g.setFlags (ls.foldl (fun a p => a.or p.2) {}) } := by
  have hquiet : ¬ (s.g.nanctl.getLsbD 0 && !((ls.filter fun p => p.2.nan).map Prod.fst).isEmpty) = true := by
    rcases h with h | h <;> simp only [h] <;> simp
  exact gives_bind (act_get s) (does_else hquiet (act_set s _))

/-- R202: a NaN of a trapping group raises NANTRAP for its lanes. -/
theorem raiseFlags_raises {ls : List (Nat × FpFlags)} {s : State} (h : s.g.nanctl.getLsbD 0 = true) (hnan : (ls.filter fun p => p.2.nan).map Prod.fst ≠ []) :
    Raises (raiseFlags ls) s
      { cause := cNANTRAP, sub := 1, lmask := maskOf ((ls.filter fun p => p.2.nan).map Prod.fst)
        va := BitVec.ofNat 56 (((ls.filter fun p => p.2.nan).map Prod.fst).foldl min 31), kind := 0, level := 0xF } := by
  have htrap : (s.g.nanctl.getLsbD 0 && !((ls.filter fun p => p.2.nan).map Prod.fst).isEmpty) = true := by
    simp only [h, Bool.true_and, Bool.not_eq_true', List.isEmpty_eq_false_iff]
    exact hnan
  exact raises_bind (act_get s) ((runAct_then htrap).trans (act_trapAt ..))

/-! ## Results written to lanes (R173, R334) -/

/-- The registers that one lane's result takes. -/
def laneRegs (r : Nat) (wide : Bool) (p : Nat × Nat) : List (Nat × Nat × Word32) :=
  (r, p.1, BitVec.ofNat 32 p.2) :: if wide then [(r + 1, p.1, BitVec.ofNat 32 (p.2 / 2 ^ 32))] else []

theorem setLanes_eq_setVs (s : State) (r : Nat) (wide : Bool) (vs : List (Nat × Nat)) : s.setLanes r wide vs = s.setVs (vs.flatMap (laneRegs r wide)) := by
  rw [State.setLanes, State.setVs, List.foldl_flatMap]
  congr
  funext t p
  cases wide <;> rfl

theorem mem_laneRegs {r : Nat} {wide : Bool} {p : Nat × Nat} {x : Nat × Nat × Word32} (h : x ∈ laneRegs r wide p) :
    x.2.1 = p.1 ∧ (x.1 = r ∨ (wide = true ∧ x.1 = r + 1)) := by
  cases wide <;> simp [laneRegs] at h
  · rw [h]; exact ⟨rfl, .inl rfl⟩
  · rcases h with h | h <;> rw [h]
    · exact ⟨rfl, .inl rfl⟩
    · exact ⟨rfl, .inr ⟨rfl, rfl⟩⟩

theorem onlyGroup_retire {s t : State} (h : s.onlyGroup t) (n : Nat) : s.onlyGroup (t.retire n) := by
  have hframe : t.retire n = { t with g := (t.retire n).g, granted := (t.retire n).granted } := (retire_nothing t n).2.1
  have hsoft : (t.retire n).soft = t.soft := State.retireAt_soft t n _
  rw [State.onlyGroup, hsoft]
  exact hframe.trans (congrArg (fun u : State => { u with g := (t.retire n).g, granted := (t.retire n).granted }) h)

/-- What a row of one result for each lane leaves. -/
theorem wroteV_setLanes (s : State) (fl : FpFlags) (vd : Nat) (wide : Bool) {vs : List (Nat × Nat)} (hvs : ∀ p ∈ vs, p.1 < 32) :
    s.wroteV ((State.setLanes { s with g := s.g.setFlags fl } vd wide vs).retire 3)
      fun r n => (r = vd ∨ (wide = true ∧ r = vd + 1)) ∧ n ∈ vs.map Prod.fst := by
  rw [setLanes_eq_setVs, setFlags_frame]
  have hreg : ∀ x ∈ vs.flatMap (laneRegs vd wide), x.2.1 ∈ vs.map Prod.fst ∧ x.2.1 < 32 ∧ (x.1 = vd ∨ (wide = true ∧ x.1 = vd + 1)) := fun x hx => by
    obtain ⟨p, hp, hxp⟩ := List.mem_flatMap.1 hx
    obtain ⟨hlane, hr⟩ := mem_laneRegs hxp
    rw [hlane]
    exact ⟨List.mem_map.2 ⟨p, hp, rfl⟩, hvs p hp, hr⟩
  generalize vs.flatMap (laneRegs vd wide) = ws at hreg
  have hstat := fpstat_setFlags s.g fl
  generalize (s.g.setFlags fl).fpstat = f at hstat
  have hframe := setVs_frame ws { s with g := { s.g with fpstat := f } }
  have hother : ∀ r i, i < 32 → (∀ x ∈ ws, ¬ (x.1 = r ∧ x.2.1 = i)) →
      (State.setVs { s with g := { s.g with fpstat := f } } ws).g.vreg r i = s.g.vreg r i :=
    fun r i hi hne => vreg_setVs_other (fun x hx => (hreg x hx).2.1) hi hne
  generalize State.setVs { s with g := { s.g with fpstat := f } } ws = u at hframe hother
  obtain ⟨⟨hpath, hplace⟩, hstate, hgroup, hbyte⟩ := retire_nothing u 3
  have hg : u.g = { s.g with vregs := u.g.vregs, fpstat := f } := by rw [hframe]
  have hslot : u.slot = s.slot := by rw [hframe]
  have hmine : u.path = s.path := by rw [State.path, hslot, hg]; rfl
  refine ⟨onlyGroup_retire (by rw [State.onlyGroup, hframe]) 3, ⟨?_, ?_⟩, ?_, ?_, ?_, fun a => (hbyte a).trans (byte_of_mem (by rw [hframe]) a)⟩
  · rw [← hslot, hpath, hslot, hg]; rfl
  · rw [← hmine]; exact hplace
  · rw [hgroup, hg]
  · intro r i hi hne
    rw [Group.vreg, hgroup]
    exact hother r i hi fun x hx hxr => hne ⟨hxr.1 ▸ (hreg x hx).2.2, hxr.2 ▸ (hreg x hx).1⟩
  · rw [hgroup, hg]; exact hstat

/-! ## The rows of one result for each lane (R334) -/

theorem exec_laneRow {i : Instr} {sh : Shape} {l : Lane} {f : State → LaneIn → Fp Nat} (h : laneRow i = some (sh, l, f)) (s : State) :
    exec i s = Act.outcome (laneMap sh l f) s := by
  unfold laneRow at h
  split at h <;> cases h <;> rfl

theorem filter_nan_map (res : List (Nat × Fp Nat)) :
    ((res.map fun r => (r.1, r.2.fl)).filter fun p => p.2.nan).map Prod.fst = (res.filter fun r => r.2.fl.nan).map Prod.fst := by
  rw [List.filter_map, List.map_map]
  rfl

theorem laneFinish_does {s : State} (vd : Nat) (wide : Bool) {res : List (Nat × Fp Nat)}
    (h : s.g.nanctl.getLsbD 0 = false ∨ (res.filter fun r => r.2.fl.nan).map Prod.fst = []) :
    Does (laneFinish vd wide res) s () ((State.setLanes { s with g := s.g.setFlags (res.foldl (fun a r => a.or r.2.fl) {}) } vd wide
      (res.map fun r => (r.1, r.2.val))).retire 3) := by
  have hflags := raiseFlags_does (s := s) (ls := res.map fun r => (r.1, r.2.fl)) (by rwa [filter_nan_map])
  rw [List.foldl_map] at hflags
  exact does_bind hflags (does_bind (does_modify _ _) (act_retire 3 _))

theorem laneFinish_raises {s : State} (vd : Nat) (wide : Bool) {res : List (Nat × Fp Nat)} (htrap : s.g.nanctl.getLsbD 0 = true)
    (hnan : (res.filter fun r => r.2.fl.nan).map Prod.fst ≠ []) :
    Raises (laneFinish vd wide res) s
      { cause := cNANTRAP, sub := 1, lmask := maskOf ((res.filter fun r => r.2.fl.nan).map Prod.fst)
        va := BitVec.ofNat 56 (((res.filter fun r => r.2.fl.nan).map Prod.fst).foldl min 31), kind := 0, level := 0xF } := by
  rw [← filter_nan_map] at hnan ⊢
  exact raises_first (raiseFlags_raises htrap hnan)

section
variable {sh : Shape} {l : Lane} {f : State → LaneIn → Fp Nat} {s : State} {ins : List LaneIn} (hins : Gives (laneGather sh l) s ins)
include hins

theorem runAct_laneMap : runAct (laneMap sh l f) s = runAct (laneFinish l.vd.toNat sh.wideD (ins.map fun x => (x.lane, f s x))) s := by
  rw [laneMap, runAct_bind_gives hins, runAct_bind_gives (act_get s)]

theorem laneMap_does (h : s.g.nanctl.getLsbD 0 = false ∨ ((ins.map fun x => (x.lane, f s x)).filter fun r => r.2.fl.nan).map Prod.fst = []) :
    Does (laneMap sh l f) s () ((State.setLanes
      { s with g := s.g.setFlags ((ins.map fun x => (x.lane, f s x)).foldl (fun a r => a.or r.2.fl) {}) } l.vd.toNat sh.wideD
      ((ins.map fun x => (x.lane, f s x)).map fun r => (r.1, r.2.val))).retire 3) :=
  (runAct_laneMap hins).trans (laneFinish_does _ _ h)

theorem laneMap_raises (htrap : s.g.nanctl.getLsbD 0 = true)
    (hnan : ((ins.map fun x => (x.lane, f s x)).filter fun r => r.2.fl.nan).map Prod.fst ≠ []) :
    Raises (laneMap sh l f) s
      { cause := cNANTRAP, sub := 1, lmask := maskOf (((ins.map fun x => (x.lane, f s x)).filter fun r => r.2.fl.nan).map Prod.fst)
        va := BitVec.ofNat 56 ((((ins.map fun x => (x.lane, f s x)).filter fun r => r.2.fl.nan).map Prod.fst).foldl min 31), kind := 0, level := 0xF } :=
  (runAct_laneMap hins).trans (laneFinish_raises _ _ htrap hnan)

/-- A row whose results raise no flag. -/
theorem laneMap_plain (hfl : ∀ x ∈ ins, (f s x).fl = {}) :
    Does (laneMap sh l f) s () ((s.setLanes l.vd.toNat sh.wideD (ins.map fun x => (x.lane, (f s x).val))).retire 3) := by
  have h := laneMap_does (f := f) hins (.inr ?_)
  · rwa [List.foldl_map, foldl_or_none hfl, setFlags_none, List.map_map] at h
  · simp only [List.filter_map, List.map_eq_nil_iff, List.filter_eq_nil_iff]
    intro x hx
    simp [hfl x hx]

end

/-! ## Operands (R290, R291, R335) -/

/-- Wherever the action ends normally, its result meets `P`. -/
def Answers {α : Type} (a : Act α) (P : α → Prop) : Prop := ∀ s x t, Does a s x t → P x

theorem answers_pure {α : Type} {P : α → Prop} {x : α} (h : P x) : Answers (pure x) P := fun s y t hd => by
  rw [Does, act_pure] at hd
  cases hd
  exact h

theorem answers_bind {α β : Type} {a : Act α} {f : α → Act β} {P : β → Prop} (h : ∀ x, Answers (f x) P) : Answers (a >>= f) P := fun s y u hd => by
  rw [Does, act_bind] at hd
  split at hd
  · next x t _ => exact h x t y u hd
  · cases hd

theorem answers_ite {α : Type} {c : Prop} [Decidable c] {a b : Act α} {P : α → Prop} (ha : Answers a P) (hb : Answers b P) :
    Answers (if c then a else b) P := by
  split
  · exact ha
  · exact hb

theorem lane_of_map {active : Word32} {f : Nat → LaneIn} (hf : ∀ i, (f i).lane = i) : ∀ x ∈ (lanesOf active).map f, x.lane < 32 := fun x hx => by
  obtain ⟨i, hi, rfl⟩ := List.mem_map.1 hx
  rw [hf]
  exact (mem_lanesOf.1 hi).1

/-- The operands gathered are those of lanes. -/
theorem laneGather_lanes (sh : Shape) (l : Lane) : Answers (laneGather sh l) fun ins => ∀ x ∈ ins, x.lane < 32 := by
  unfold laneGather
  refine answers_bind fun active => answers_bind fun _ => answers_bind fun bc => answers_bind fun _ => answers_bind fun _ => answers_bind fun _ =>
    answers_bind fun _ => answers_ite (answers_bind fun _ => ?_) ?_
  · exact answers_bind fun s => answers_pure (lane_of_map fun _ => rfl)
  · exact answers_bind fun s => answers_pure (lane_of_map fun _ => rfl)

section
variable {l : Lane} {s : State} {active : Word32} {first n : Nat} {r : BitVec 11}

theorem checkV_gives (h : first + n ≤ s.g.vcount) : Gives (checkV active first n) s () := by
  simp [Gives, Does, checkV, h]

theorem checkV_raises (h : s.g.vcount < first + n) :
    Raises (checkV active first n) s
      { cause := cPROT, sub := 4, lmask := if active = 0 then s.path.mask else active, va := BitVec.ofNat 56 (max first s.g.vcount), kind := 0, level := 0xF } := by
  simp [Raises, checkV, Nat.not_le.2 h, protWindow]

variable (hsoft : s.soft = [])
include hsoft

theorem checkVSoft_gives : Gives (checkVSoft active first n) s () := by
  simp [Gives, Does, checkVSoft, hsoft]

theorem useV_gives (h : r.toNat + n ≤ s.g.vcount) : Gives (useV active r n) s () := gives_bind (checkV_gives h) (checkVSoft_gives hsoft)

theorem useSrc_gives {used bc : Bool} (h : used = true → bc = false → r.toNat + n ≤ s.g.vcount) : Gives (useSrc active used bc r n) s () := by
  unfold useSrc
  by_cases hu : used = true ∧ bc = false
  · exact does_then (by simp [hu]) (useV_gives hsoft (h hu.1 hu.2))
  · exact does_else (by simpa using hu) (does_pure () s)

/-- R260, R291: the active lanes, with no mask register marked by a soft error. -/
theorem activeOf_gives : Gives (activeOf l) s (s.path.mask &&&
    (match s.g.ovr with | some c => c.lanes | none => if l.minv = 1 then ~~~ (s.g.mreg l.mask.toNat) else s.g.mreg l.mask.toNat)) := by
  refine gives_bind (readM_gives (isSoft_of_none hsoft _)) (gives_bind (act_get s) ?_)
  cases s.g.ovr <;> exact does_pure _ s

end

theorem broadcast_gives {l : Lane} {s : State} {v : Word64} (h : l.bsb = 1 ∨ l.bsc = 1 → Gives (readSB l.ss) s v) :
    Gives (broadcast l) s (if l.bsb = 1 ∨ l.bsc = 1 then some v else none) := by
  unfold broadcast
  split
  · next hbc => exact gives_bind (h hbc) (does_pure _ s)
  · exact does_pure _ s

/-- R290: a source of a lane is its register, or its share of the broadcast. -/
theorem laneVal_bcIf (g : Group) (bit : BitVec 1) (bc : Option Word64) (v : Word64) (hbc : bit = 1 → bc = some v) (r : BitVec 11) (wide : Bool) (i : Nat) :
    laneVal g (if bit = 1 then bc else none) r wide i
      = if bit = 1 then (if wide then v.toNat else v.toNat % 2 ^ 32) else g.lane r.toNat i wide := by
  by_cases hbit : bit = 1
  · rw [if_pos hbit, if_pos hbit, hbc hbit]; rfl
  · rw [if_neg hbit, if_neg hbit]; rfl

section
variable {sh : Shape} {l : Lane} {s : State} {active : Word32} {k : Option Nat} {bc : Option Word64} (hactive : Gives (activeOf l) s active)
  (hmark : Gives (checkMark (l.fs = 1)) s k) (hbc : Gives (broadcast l) s bc)
include hactive hmark hbc

theorem laneGather_gives (hsoft : s.soft = []) (hd : l.vd.toNat + spanOf sh.wideD ≤ s.g.vcount) (ha : sh.a = true → l.va.toNat + spanOf sh.wideA ≤ s.g.vcount)
    (hb : sh.b = true → l.bsb ≠ 1 → l.vb.toNat + spanOf sh.wideB ≤ s.g.vcount) (hc : sh.c = true → l.bsc ≠ 1 → l.vc.toNat + spanOf sh.wideC ≤ s.g.vcount) :
    Gives (laneGather sh l) s ((lanesOf active).map fun i =>
      { lane := i, a := s.g.lane l.va.toNat i sh.wideA
        b := laneVal s.g (if l.bsb = 1 then bc else none) l.vb sh.wideB i
        c := laneVal s.g (if l.bsc = 1 then bc else none) l.vc sh.wideC i
        old := s.g.lane l.vd.toNat i sh.wideD }) := by
  refine gives_bind hactive (gives_bind hmark (gives_bind hbc (gives_bind (checkV_gives hd) (gives_bind (useSrc_gives hsoft fun h _ => ha h)
    (gives_bind (useSrc_gives hsoft fun h hbit => hb h (of_decide_eq_false hbit)) (gives_bind (useSrc_gives hsoft fun h hbit => hc h (of_decide_eq_false hbit))
      (does_checked (fun _ => checkVSoft_gives hsoft) (gives_bind (act_get s) (does_pure _ s)))))))))

theorem laneGather_raises (h : s.g.vcount < l.vd.toNat + spanOf sh.wideD) :
    Raises (laneGather sh l) s
      { cause := cPROT, sub := 4, lmask := if active = 0 then s.path.mask else active, va := BitVec.ofNat 56 (max l.vd.toNat s.g.vcount), kind := 0, level := 0xF } :=
  raises_bind hactive (raises_bind hmark (raises_bind hbc (raises_first (checkV_raises h))))

end

/-! ## Bit fields and elements (R343) -/

/-- A field of `w` bits extended to 32 bits. -/
theorem extended_val {w : Nat} (hw : 0 < w) (hle : w ≤ 32) (sg sg' : Bool) (x : Nat) :
    (intResult 32 sg' false (intVal w sg x)).val = if sg = true ∧ 2 ^ (w - 1) ≤ x % 2 ^ w then x % 2 ^ w + (2 ^ 32 - 2 ^ w) else x % 2 ^ w := by
  have hhalf : 2 ^ w = 2 * 2 ^ (w - 1) := by rw [← pow_succ']; congr 1; omega
  have hlt : x % 2 ^ w < 2 ^ w := Nat.mod_lt _ (by positivity)
  have htop : 2 ^ w ≤ 2 ^ 32 := Nat.pow_le_pow_right (by decide) hle
  have hint : intVal w sg x = if sg = true ∧ 2 ^ (w - 1) ≤ x % 2 ^ w then ((x % 2 ^ w : Nat) : Int) - ((2 ^ w : Nat) : Int) else ((x % 2 ^ w : Nat) : Int) := by
    cases sg with
    | false => rfl
    | true =>
      rw [intVal, if_pos rfl, signedOf, BitVec.toInt_eq_toNat_cond, BitVec.toNat_ofNat]
      simp only [true_and]
      split <;> split <;> omega
  change (intVal w sg x % 2 ^ 32).toNat = _
  rw [hint]
  generalize x % 2 ^ w = v at hlt
  generalize 2 ^ w = p at *
  split <;> omega

/-- Settles O23: the operands that are gathered, the rows of one result for each lane, and the words of R341 and R343. -/
theorem laneRows : Obligations.LaneRows := by
  refine ⟨fun sh l s k v hsoft hmark hv => ?_, fun i sh l f s ins hrow hins => ?_, fun l s ins => ⟨fun hins => ⟨?_, fun w sg hkind hw => ?_⟩, fun hins => ?_,
    fun htrap hins => ?_⟩⟩
  · have hactive := activeOf_gives (l := l) hsoft
    have hbc := broadcast_gives hv
    refine ⟨fun hd ha hb hc => ?_, fun hd => laneGather_raises hactive hmark hbc hd⟩
    have hgather := laneGather_gives hactive hmark hbc hsoft hd ha hb hc
    simp only [laneVal_bcIf s.g l.bsb _ v (fun h => if_pos (Or.inl h)), laneVal_bcIf s.g l.bsc _ v (fun h => if_pos (Or.inr h))] at hgather
    exact hgather
  · have hvs : ∀ p ∈ (ins.map fun x => (x.lane, f s x)).map fun r => (r.1, r.2.val), p.1 < 32 := by
      intro p hp
      obtain ⟨_, hr, rfl⟩ := List.mem_map.1 hp
      obtain ⟨x, hx, rfl⟩ := List.mem_map.1 hr
      exact laneGather_lanes sh l s ins s hins x hx
    have hframe := wroteV_setLanes s ((ins.map fun x => (x.lane, f s x)).foldl (fun a r => a.or r.2.fl) {}) l.vd.toNat sh.wideD hvs
    rw [List.map_map, List.map_map] at hframe
    refine ⟨fun hquiet => ⟨(exec_laneRow hrow s).trans (outcome_of_does (laneMap_does hins hquiet)), ?_⟩, fun htrap hnan =>
      (exec_laneRow hrow s).trans (outcome_of_raises (laneMap_raises hins htrap hnan))⟩
    rw [List.map_map]
    exact hframe
  · have hlen : 0 < fieldLen l ∧ fieldLen l ≤ 32 := by
      unfold fieldLen fieldPos
      omega
    have hrun := laneMap_plain (f := fun _ i => intResult 32 true false (intVal (fieldLen l) (l.type == 0) (i.a / 2 ^ fieldPos l))) hins fun x _ => rfl
    simp only [extended_val hlen.1 hlen.2, beq_iff_eq] at hrun
    exact outcome_of_does hrun
  · have hw' : 0 < w ∧ w ≤ 32 := by omega
    have hrun := laneMap_plain (f := fun _ i => intResult 32 sg false (intVal w sg (elemAt w (l.imm.toNat % 4) i.a))) hins fun x _ => rfl
    simp only [extended_val hw'.1 hw'.2, elemAt, bitsOf, Nat.mod_mod] at hrun
    have hexec : exec (.vunpk l) s = Act.outcome (laneMap { a := true } l fun _ i => intResult 32 sg false (intVal w sg (elemAt w (l.imm.toNat % 4) i.a))) s := by
      change execVunpk l s = _
      simp only [execVunpk, hkind]
    exact hexec.trans (outcome_of_does hrun)
  · exact outcome_of_does (laneMap_plain hins fun x _ => rfl)
  · have hrun : Does (cvtLanes l) s () _ := laneMap_does hins (.inl htrap)
    simp only [decide_eq_true_eq] at hrun
    exact outcome_of_does hrun

end Sys2Proof.Machine
end

