-- ==== Sys2Proof/Proofs/ElementArithmetic.lean ====
section
/-! PROOFS. O24: integer elements and small formats (spec/07 R172 to R175, R178, R183). -/

namespace Sys2Proof.Machine

/-! ## Integer results (R174) -/

/-- The least and the greatest value of an integer type. -/
def intLo (w : Nat) (sg : Bool) : Int := if sg then -2 ^ (w - 1) else 0
def intHi (w : Nat) (sg : Bool) : Int := if sg then 2 ^ (w - 1) - 1 else 2 ^ w - 1

theorem intLo_le_intHi (w : Nat) (sg : Bool) : intLo w sg ≤ intHi w sg := by
  have hhalf : (0 : Int) < 2 ^ (w - 1) := by positivity
  have hall : (0 : Int) < 2 ^ w := by positivity
  unfold intLo intHi
  split <;> omega

/-- A value in the type's range is what its own bits mean. -/
theorem intVal_bits {w : Nat} (hw : 0 < w) {sg : Bool} {y : Int} (hlo : intLo w sg ≤ y) (hhi : y ≤ intHi w sg) : intVal w sg (y % 2 ^ w).toNat = y := by
  have hmod : 0 ≤ y % 2 ^ w := Int.emod_nonneg y (by positivity)
  cases sg with
  | false =>
    have hy : 0 ≤ y ∧ y < 2 ^ w := ⟨hlo, by simp [intHi] at hhi; omega⟩
    have hself : y % 2 ^ w = y := Int.emod_eq_of_lt hy.1 hy.2
    change (((y % 2 ^ w).toNat % 2 ^ w : Nat) : Int) = y
    rw [hself, Int.natCast_emod, Int.toNat_of_nonneg hy.1]
    exact_mod_cast hself
  | true =>
    have hbits : BitVec.ofNat w (y % 2 ^ w).toNat = BitVec.ofInt w y := by
      refine BitVec.eq_of_toNat_eq ?_
      rw [BitVec.toNat_ofNat, BitVec.toNat_ofInt]
      have hlt : (y % 2 ^ w).toNat < 2 ^ w := by
        have := Int.emod_lt_of_pos y (show (0 : Int) < 2 ^ w by positivity)
        zify
        rwa [Int.toNat_of_nonneg hmod]
      rw [Nat.mod_eq_of_lt hlt]
      norm_cast
    change (BitVec.ofNat w (y % 2 ^ w).toNat).toInt = y
    rw [hbits]
    exact BitVec.toInt_ofInt_eq_self hw hlo (by simp [intHi] at hhi; omega)

theorem intResult_wraps (w : Nat) (sg : Bool) (x : Int) : (intResult w sg false x).val = (x % 2 ^ w).toNat ∧ (intResult w sg false x).fl = {} := ⟨rfl, rfl⟩

theorem intResult_saturates {w : Nat} (hw : 0 < w) (sg : Bool) (x : Int) :
    intVal w sg (intResult w sg true x).val = max (intLo w sg) (min (intHi w sg) x)
      ∧ (intResult w sg true x).fl = { ovf := decide (x < intLo w sg ∨ intHi w sg < x) } := by
  have hle := intLo_le_intHi w sg
  have hres : intResult w sg true x = if x < intLo w sg then { val := (intLo w sg % 2 ^ w).toNat, fl := { ovf := true } }
      else if intHi w sg < x then { val := (intHi w sg % 2 ^ w).toNat, fl := { ovf := true } } else { val := (x % 2 ^ w).toNat } := by
    simp only [intResult, Bool.true_and, decide_eq_true_eq]
    rfl
  rw [hres]
  by_cases hlo : x < intLo w sg
  · rw [if_pos hlo]
    exact ⟨by rw [intVal_bits hw le_rfl hle]; omega, by simp [hlo]⟩
  · rw [if_neg hlo]
    by_cases hhi : intHi w sg < x
    · rw [if_pos hhi]
      exact ⟨by rw [intVal_bits hw hle le_rfl]; omega, by simp [hhi]⟩
    · rw [if_neg hhi]
      exact ⟨by rw [intVal_bits hw (by omega) (by omega)]; omega, by simp [hlo, hhi]⟩

/-! ## Elements side by side (R172) -/

theorem elemAt_packElems (w : Nat) (xs : List Nat) : ∀ e, e < xs.length → elemAt w e (packElems w xs) = xs.getD e 0 % 2 ^ w := by
  induction xs with
  | nil => exact fun e he => absurd he (Nat.not_lt_zero e)
  | cons x rest ih =>
    intro e he
    have hlow : x % 2 ^ w < 2 ^ w := Nat.mod_lt x (by positivity)
    cases e with
    | zero => simp [elemAt, bitsOf, packElems]
    | succ e =>
      have hhigh : (x % 2 ^ w + 2 ^ w * packElems w rest) / 2 ^ w = packElems w rest := by
        rw [Nat.add_mul_div_left _ _ (by positivity), Nat.div_eq_of_lt hlow, Nat.zero_add]
      have hstep := ih e (Nat.lt_of_succ_lt_succ he)
      rw [elemAt, bitsOf, packElems, Nat.mul_succ, Nat.add_comm (w * e) w, Nat.pow_add, ← Nat.div_div_eq_div_mul, hhigh]
      exact hstep

/-! ## Operations on integer elements (R174, R188) -/

theorem intOps (w : Nat) (sg sat : Bool) (r : Rounder) (a b c : Nat) :
    addOp (.int w sg) r sat a b c = intResult w sg sat (intVal w sg a + intVal w sg b)
      ∧ subOp (.int w sg) r sat a b c = intResult w sg sat (intVal w sg a - intVal w sg b)
      ∧ mulOp (.int w sg) r sat a b c = intResult w sg sat (intVal w sg a * intVal w sg b)
      ∧ fmaOp false false (.int w sg) r sat a b c = intResult w sg sat (intVal w sg a * intVal w sg b + intVal w sg c)
      ∧ fmaOp false true (.int w sg) r sat a b c = intResult w sg sat (intVal w sg a * intVal w sg b - intVal w sg c)
      ∧ fmaOp true false (.int w sg) r sat a b c = intResult w sg sat (intVal w sg c - intVal w sg a * intVal w sg b)
      ∧ negOp (.int w sg) r sat a b c = intResult w sg sat (-(intVal w sg a)) :=
  ⟨rfl, rfl, rfl, rfl, congrArg (intResult w sg sat) Int.sub_eq_add_neg.symm,
    congrArg (intResult w sg sat) ((Int.add_comm _ _).trans Int.sub_eq_add_neg.symm), rfl⟩

theorem minOp_int (w : Nat) (sg sat : Bool) (r : Rounder) (a b c : Nat) :
    (minOp false (.int w sg) r sat a b c).val = (if intVal w sg a < intVal w sg b then a else b)
      ∧ (minOp true (.int w sg) r sat a b c).val = (if intVal w sg a < intVal w sg b then b else a) := by
  by_cases h : intVal w sg a < intVal w sg b <;> simp [minOp, h]

/-! ## Finite values of a format (R175, R178, R183) -/

/-- A bit pattern of a format from its fields: sign, exponent and mantissa. -/
def Fmt.pattern (f : Fmt) (neg : Bool) (e m : Nat) : Nat := neg.toNat * 2 ^ (f.ebits + f.mbits) + e * 2 ^ f.mbits + m

/-- The fields that stand for a finite value (R175). -/
def Fmt.finite (f : Fmt) (e m : Nat) : Prop :=
  ¬ (f.hasInf = true ∧ e = 2 ^ f.ebits - 1) ∧ ¬ (f.hasNan = true ∧ f.hasInf = false ∧ e = 2 ^ f.ebits - 1 ∧ m = 2 ^ f.mbits - 1)

/-- `maxM` × 2^`maxE` is the largest finite value, with `t` in its exponent field. -/
structure Fmt.Topped (f : Fmt) (t : Nat) : Prop where
  pos : 1 ≤ t
  exp : f.maxE = (t : Int) - f.bias - f.mbits
  normal : 2 ^ f.mbits ≤ f.maxM
  largest : ∀ e m, e < 2 ^ f.ebits → m < 2 ^ f.mbits → f.finite e m → e < t ∨ (e = t ∧ 2 ^ f.mbits + m ≤ f.maxM)

section
variable {f : Fmt} {neg : Bool} {e m t : Nat}

theorem pattern_of_lt {x : Nat} (h : x < 2 ^ f.bits) :
    x = f.pattern (bitOf x (f.ebits + f.mbits)) (bitsOf x f.mbits f.ebits) (bitsOf x 0 f.mbits) := by
  have hx : x / 2 ^ f.mbits / 2 ^ f.ebits < 2 := by
    rw [Nat.div_div_eq_div_mul, ← Nat.pow_add]
    refine Nat.div_lt_of_lt_mul (h.trans_eq ?_)
    rw [Fmt.bits, ← Nat.pow_succ]
    congr 1
    omega
  have hsign : (bitOf x (f.ebits + f.mbits)).toNat = x / 2 ^ f.mbits / 2 ^ f.ebits := by
    rw [bitOf, Nat.add_comm, Nat.pow_add, ← Nat.div_div_eq_div_mul]
    generalize x / 2 ^ f.mbits / 2 ^ f.ebits = n at hx
    have hn : n = 0 ∨ n = 1 := by omega
    rcases hn with rfl | rfl <;> rfl
  rw [Fmt.pattern, hsign, bitsOf, bitsOf, Nat.pow_zero, Nat.div_one, Nat.pow_add, ← Nat.mul_assoc, ← Nat.add_mul, Nat.div_add_mod', Nat.div_add_mod']

theorem value_of_finite {x : Nat} (h : ∃ neg m e, f.value x = .fin neg m e) : f.finite (bitsOf x f.mbits f.ebits) (bitsOf x 0 f.mbits)
    ∧ f.value x = if bitsOf x f.mbits f.ebits = 0 then .fin (bitOf x (f.ebits + f.mbits)) (bitsOf x 0 f.mbits) (f.emin - f.mbits)
      else .fin (bitOf x (f.ebits + f.mbits)) (2 ^ f.mbits + bitsOf x 0 f.mbits) ((bitsOf x f.mbits f.ebits : Int) - f.bias - f.mbits) := by
  obtain ⟨neg, m, e, hv⟩ := h
  unfold Fmt.value at hv ⊢
  unfold Fmt.finite
  simp only [Bool.and_eq_true, beq_iff_eq, Bool.not_eq_true'] at hv ⊢
  split at hv
  · split at hv <;> cases hv
  · next hinf =>
    split at hv
    · cases hv
    · next hnan => 
      rw [if_neg hinf, if_neg hnan]
      exact ⟨⟨hinf, fun h => hnan ⟨⟨⟨h.1, h.2.1⟩, h.2.2.1⟩, h.2.2.2⟩⟩, rfl⟩

/-- A mantissa of the format at its own place is on the grid. -/
theorem encode_below (h : m < 2 ^ f.mbits) (q : Int) : f.encode neg m q = f.pattern neg 0 m := by
  rw [Fmt.encode, if_pos h, Fmt.pattern, Nat.zero_mul, Nat.add_zero]

theorem encode_normal (h : m < 2 ^ f.mbits) : f.encode neg (2 ^ f.mbits + m) ((e : Int) - f.bias - f.mbits) = f.pattern neg e m := by
  have hne : ¬ 2 ^ f.mbits + m = 2 ^ (f.mbits + 1) := by rw [Nat.pow_succ]; omega
  have hexp : ((e : Int) - f.bias - f.mbits + f.mbits + f.bias).toNat = e := by omega
  rw [Fmt.encode, if_neg (by omega), if_neg hne]
  simp only [hexp, Nat.add_sub_cancel_left, Fmt.pattern]

theorem log2_normal (h : m < 2 ^ f.mbits) : log2 (2 ^ f.mbits + m) = f.mbits :=
  (Nat.log2_eq_iff (by have := Nat.two_pow_pos f.mbits; omega)).2 ⟨by omega, by rw [Nat.pow_succ]; omega⟩

/-- What lies on the grid rounds to itself, in every mode. -/
theorem grid_of_le {r : Rounder} {x : Int} (h : max (x + log2 m) f.emin - f.mbits = x) : f.grid r neg m x = (m, x) := by
  simp [Fmt.grid, h, scaleNat]

theorem over_of_top (ht : f.Topped t) {mant : Nat} {q : Int} (hq : q < f.maxE ∧ mant < 2 ^ (f.mbits + 1) ∨ q = f.maxE ∧ mant ≤ f.maxM) :
    f.over mant q = false := by
  rcases hq with ⟨hlt, hmant⟩ | ⟨rfl, hle⟩
  · obtain ⟨k, hk⟩ : ∃ k : Nat, f.maxE - q = (k + 1 : Nat) := ⟨(f.maxE - q - 1).toNat, by omega⟩
    have hbig : 2 ^ (f.mbits + 1) ≤ f.maxM * 2 ^ (k + 1) := by
      rw [Nat.pow_succ]
      exact Nat.mul_le_mul ht.normal (by rw [Nat.pow_succ]; have := Nat.two_pow_pos k; omega)
    rw [Fmt.over, if_neg (by omega), hk]
    exact decide_eq_false (by change ¬ f.maxM * 2 ^ (k + 1) < mant; omega)
  · rw [Fmt.over, if_pos le_rfl, Int.sub_self]
    exact decide_eq_false (by change ¬ f.maxM < mant * 2 ^ 0; omega)

end

section
variable {f : Fmt} {t : Nat} (ht : f.Topped t) {m : Nat} (hm : m < 2 ^ f.mbits) (r : Rounder) (sat neg : Bool)
include ht hm

/-- A zero or a subnormal value rounds to its own bits. -/
theorem round_below : f.round r sat (.fin neg m (f.emin - f.mbits)) = { val := f.pattern neg 0 m } := by
  have hexp := ht.exp
  have hpos := ht.pos
  have hemin : f.emin = 1 - (f.bias : Int) := rfl
  by_cases hm0 : m = 0
  · simp [Fmt.round, Fmt.pattern, hm0]
  · have hlog : log2 m < f.mbits := (Nat.log2_lt hm0).2 hm
    have hgrid : f.grid r neg m (f.emin - f.mbits) = (m, f.emin - f.mbits) := grid_of_le (by omega)
    have hover : f.over m (f.emin - f.mbits) = false := over_of_top ht (by have := ht.normal; rw [Nat.pow_succ]; omega)
    simp only [Fmt.round, if_neg hm0, hgrid, hover, encode_below hm, Bool.false_eq_true, if_false]

theorem round_normal {e : Nat} (he0 : e ≠ 0) (he : e < 2 ^ f.ebits) (hfinite : f.finite e m) :
    f.round r sat (.fin neg (2 ^ f.mbits + m) ((e : Int) - f.bias - f.mbits)) = { val := f.pattern neg e m } := by
  have hexp := ht.exp
  have hemin : f.emin = 1 - (f.bias : Int) := rfl
  have hlog : log2 (2 ^ f.mbits + m) = f.mbits := log2_normal hm
  have hgrid : f.grid r neg (2 ^ f.mbits + m) ((e : Int) - f.bias - f.mbits) = (2 ^ f.mbits + m, (e : Int) - f.bias - f.mbits) :=
    grid_of_le (by omega)
  have hover : f.over (2 ^ f.mbits + m) ((e : Int) - f.bias - f.mbits) = false :=
    over_of_top ht (by have := ht.largest e m he hm hfinite; rw [Nat.pow_succ]; omega)
  have hne : ¬ 2 ^ f.mbits + m = 0 := by have := Nat.two_pow_pos f.mbits; omega
  simp only [Fmt.round, if_neg hne, hgrid, hover, encode_normal hm, Bool.false_eq_true, if_false]

end

/-- R178, R183: a finite value of a format rounds to its own bit pattern, in every mode and saturated or not, with no flag. -/
theorem round_value {f : Fmt} {t : Nat} (ht : f.Topped t) {x : Nat} (hx : x < 2 ^ f.bits) (hfin : ∃ neg m e, f.value x = .fin neg m e)
    (r : Rounder) (sat : Bool) : f.round r sat (f.value x) = { val := x } := by
  obtain ⟨hfinite, hvalue⟩ := value_of_finite hfin
  have hpattern := pattern_of_lt hx
  have hm : bitsOf x 0 f.mbits < 2 ^ f.mbits := bitsOf_lt x 0 f.mbits
  rw [hvalue]
  by_cases h0 : bitsOf x f.mbits f.ebits = 0
  · rw [h0] at hpattern
    rw [if_pos h0, round_below ht hm, ← hpattern]
  · rw [if_neg h0, round_normal ht hm r sat _ h0 (bitsOf_lt x f.mbits f.ebits) hfinite, ← hpattern]

/-- Table 7-2: the largest finite values of the formats of 8, 6 and 4 bits. -/
theorem topped_small {f : Fmt} (h : f ∈ [e4m3, e5m2, e3m2, e2m3, e2m1]) : ∃ t, f.Topped t := by
  simp only [List.mem_cons, List.not_mem_nil, or_false] at h
  rcases h with rfl | rfl | rfl | rfl | rfl
  · exact ⟨15, by decide, by decide, by decide, fun e m he hm hf => by simp [Fmt.finite, e4m3] at *; omega⟩
  · exact ⟨30, by decide, by decide, by decide, fun e m he hm hf => by simp [Fmt.finite, e5m2] at *; omega⟩
  · exact ⟨7, by decide, by decide, by decide, fun e m he hm hf => by simp [e3m2] at *; omega⟩
  · exact ⟨3, by decide, by decide, by decide, fun e m he hm hf => by simp [e2m3] at *; omega⟩
  · exact ⟨3, by decide, by decide, by decide, fun e m he hm hf => by simp [e2m1] at *; omega⟩

/-- Settles O24: integer results, elements side by side, integer operations, and the finite values of the small formats. -/
theorem elementArithmetic : Obligations.ElementArithmetic := by
  refine ⟨⟨fun w sg x hw => ⟨intResult_wraps w sg x, intResult_saturates hw sg x⟩, fun w e xs he => elemAt_packElems w xs e he,
    fun w sg sat r a b c => ?_⟩, fun f mode x sat hf _ hx hfin => ?_⟩
  · obtain ⟨hadd, hsub, hmul, hfma, hfms, hfnma, hneg⟩ := intOps w sg sat r a b c
    exact ⟨hadd, hsub, hmul, hfma, hfms, hfnma, hneg, minOp_int w sg sat r a b c⟩
  · obtain ⟨t, ht⟩ := topped_small hf
    rw [round_value ht hx hfin]
    exact ⟨rfl, rfl⟩

end Sys2Proof.Machine
end

