-- ==== Sys2Proof/Proofs/Reductions.lean ====
section
/-! PROOFS. O26: reductions, scans and thresholds (spec/07 R191, R192, spec/13 R348, R352). -/

namespace Sys2Proof.Machine

theorem busyReg_setFlags (s : State) (f : FpFlags) (d : BitVec 7) : State.busyReg { s with g := s.g.setFlags f } d = s.busyReg d := by
  rw [setFlags_frame]
  rfl

/-- The flags of one result, raised for each of a list of lanes. -/
theorem foldl_or_const (fl : FpFlags) (lanes : List Nat) :
    (lanes.map fun i => (i, fl)).foldl (fun (a : FpFlags) p => a.or p.2) {} = (List.replicate lanes.length fl).foldl FpFlags.or {} := by
  rw [List.foldl_map, ← List.map_const', List.foldl_map]

/-- The lanes for which VRED raises its flags: lane 0 where none is active. -/
theorem reduceFlags_eq (active : Word32) (fl : FpFlags) :
    (if active = 0 then [(0, fl)] else (lanesOf active).map fun i => (i, fl)).foldl (fun (a : FpFlags) p => a.or p.2) {}
      = (List.replicate (if active = 0 then 1 else (lanesOf active).length) fl).foldl FpFlags.or {} := by
  split
  · rfl
  · exact foldl_or_const fl _

section
variable {l : Lane} {s : State} {active : Word32} {k : Option Nat} (hactive : Gives (activeOf l) s active) (hmark : Gives (checkMark (l.fs = 1)) s k)
include hmark

/-- R352: the set form of VTHR. -/
theorem setThreshold_does {v : Word64} (hv : Gives (readSB l.ss) s v) :
    Does (setThreshold l) s () (State.retire { s with g := { s.g with hregs := s.g.hregs.set (l.vd.toNat % 8) (v.extractLsb' 0 32) } } 3) := by
  have hlow : v.extractLsb' 0 32 = v.setWidth 32 := by ext i; simp
  rw [hlow]
  exact gives_bind hmark (gives_bind hv (does_bind (does_modify _ s) (act_retire 3 _)))

variable (hquiet : s.g.nanctl.getLsbD 0 = false) (hsoft : s.soft = []) (ha : l.va.toNat + spanOf (wideType l) ≤ s.g.vcount)
include hactive hquiet hsoft ha

theorem reduce_does (hd : s.busyReg (l.vd.extractLsb' 0 7) = false) {r : Fp Nat}
    (hr : r = combine (kindOf l.type.toNat).width ((List.range (elemCount l.type.toNat)).map fun e =>
      reduceTree s l (kindOf l.type.toNat) e (laneElems s active l (kindOf l.type.toNat) e))) :
    Does (reduce l) s () ((State.setS { s with g := s.g.setFlags ((List.replicate (if active = 0 then 1 else (lanesOf active).length) r.fl).foldl FpFlags.or {}) }
      (l.vd.extractLsb' 0 7) (reduceResult l.type.toNat r.val)).retire 3) := by
  subst hr
  refine gives_bind hactive (gives_bind hmark (gives_bind (useV_gives hsoft ha) (gives_bind (act_get s) (does_bind (raiseFlags_does (.inl hquiet)) ?_))))
  rw [reduceFlags_eq]
  exact writeRetire_does _ _ _ 3 ((busyReg_setFlags ..).trans hd)

theorem scan_does (hd : l.vd.toNat + spanOf (wideType l) ≤ s.g.vcount) {res : List (Nat × Fp Nat)}
    (hres : res = (lanesOf active).map fun i => (i, combine (kindOf l.type.toNat).width ((List.range (elemCount l.type.toNat)).map fun e =>
      markNan (kindOf l.type.toNat) (((scanSteps s l (kindOf l.type.toNat) e (laneElems s active l (kindOf l.type.toNat) e)).getD i none).getD { val := 0 })))) :
    Does (scan l) s () ((State.setLanes { s with g := s.g.setFlags (res.foldl (fun a r => a.or r.2.fl) {}) } l.vd.toNat (wideType l)
      (res.map fun r => (r.1, r.2.val))).retire 3) := by
  refine gives_bind hactive (gives_bind hmark (gives_bind (checkV_gives hd) (gives_bind (useV_gives hsoft ha) (gives_bind (act_get s) ?_))))
  simp only [List.map_map, Function.comp_def]
  rw [← hres]
  exact laneFinish_does _ _ (.inl hquiet)

end

/-- Settles O26: VRED, VSCAN, and the set form of VTHR. -/
theorem reductionsAndScans : Obligations.ReductionsAndScans := by
  refine ⟨fun l s active k hactive hmark hquiet hsoft => ?_, fun l s k v hmark hv => outcome_of_does (setThreshold_does hmark hv)⟩
  intro t kd wide span ha
  exact ⟨fun hd => outcome_of_does (reduce_does hactive hmark hquiet hsoft ha hd rfl),
    fun hd => outcome_of_does (scan_does hactive hmark hquiet hsoft ha hd rfl)⟩

end Sys2Proof.Machine
end

