-- ==== Sys2Proof/Proofs/Matrices.lean ====
section
/-! PROOFS. O34: matrix fills and multiplications (spec/14 R374, R377 to R381, spec/07 R189, R203, spec/10 R267). -/

namespace Sys2Proof.Machine

/-! ## Issue (R377, R379, R381) -/

theorem exec_matForm {i : Instr} {l : Lane} {slots : List Nat} (h : matForm i = some (l, slots)) (s : State) :
    exec i s = Act.outcome (matIssue i l slots) s := by
  unfold matForm at h
  split at h <;> cases h <;> rfl

/-- R109: a command issues and its instruction retires; an operation on tiles alone waits for no store. -/
theorem issueAndRetire_does {ctx : Ctx} (i : Instr) (active : Word32) (k : Option Nat) (a : CmdArgs) {s : State}
    (h : ctx = .tileOp ∨ s.allAcked (.group s.g.id) = true) :
    Does (do let _ ← issueCommand ctx i active k a
             retireWork 3) s () ((s.issued ctx i active k a).unhang.retire 3) := by
  have hissue : Does (issueCommand ctx i active k a) s _ _ := issueCommand_does i active k a h
  rw [issued_eq i active k a h]
  exact does_bind hissue (act_retireWork 3 _)

/-- The slots that a command holds are noted before it issues (Table 3-7). -/
theorem holdSlotsAndIssue_does {ctx : Ctx} (i : Instr) (active : Word32) (k : Option Nat) (a : CmdArgs) (slots : List Nat) {s : State}
    (h : ctx = .tileOp ∨ s.allAcked (.group s.g.id) = true) :
    Does (do modify fun s => { s with w := s.w.beginOps slots }
             let _ ← issueCommand ctx i active k a
             retireWork 3) s () ((State.issued { s with w := s.w.beginOps slots } ctx i active k a).unhang.retire 3) :=
  does_bind (does_modify _ s) (issueAndRetire_does i active k a h)

/-- What the images and the cores of a multiplication must be (R379, R381). -/
def State.matOk (s : State) (x : MatArgs) : Prop := (128 < x.n → s.w.pair = true) ∧ ∀ p ∈ x.parts, s.partOk x p = true

theorem matOk_iff (s : State) (x : MatArgs) :
    ¬ ((128 < x.n ∧ (!s.w.pair) = true) ∨ (!(x.parts.all fun p => s.partOk x p)) = true) ↔ s.matOk x := by
  simp only [State.matOk, not_or, not_and, Bool.not_eq_true', Bool.not_eq_false, List.all_eq_true]

section
variable {i : Instr} {l : Lane} {slots : List Nat} {s : State} {active : Word32} {k : Option Nat} {w : Word64}
  (hstart : Gives (laneStart l) s (active, k)) (hactive : active ≠ 0) (hslots : Gives (checkSlots active slots) s ())
  (hacc : Gives (waitAcc l.vd.toNat) s ()) (hfills : Gives (waitFills slots) s ()) (hheld : Gives (checkHeld active slots) s ())
  (hw : Gives (readS (sregOf l.vc)) s w)
include hstart hactive hslots hacc hfills hheld hw

theorem matIssue_raises (hbad : ¬ s.matOk (matArgs i w)) :
    Raises (matIssue i l slots) s { cause := cPROT, sub := 3, lmask := active, va := 0, kind := 0, level := 0xF } := by
  have hcond := not_not.1 (mt (matOk_iff s (matArgs i w)).1 hbad)
  refine raises_bind hstart (raises_bind hslots ((runAct_else hactive).trans ?_))
  exact raises_bind hacc (raises_bind hfills (raises_bind hheld (raises_bind hw (raises_bind (act_get s) (raises_here hcond (act_trapAt ..))))))

variable (hok : s.matOk (matArgs i w)) (hruns : Gives (waitFills (s.imageRuns (matArgs i w) slots)) s ())
include hok hruns

theorem matIssue_holds (hacked : s.allAcked (.group s.g.id) = false) : Holds (matIssue i l slots) s := by
  have hcond := (matOk_iff s (matArgs i w)).2 hok
  refine holds_bind hstart (holds_bind hslots ((runAct_else hactive).trans ?_))
  refine holds_bind hacc (holds_bind hfills (holds_bind hheld (holds_bind hw (holds_bind (act_get s) ((runAct_checked fun h => absurd h hcond).trans ?_)))))
  exact holds_bind hruns (holds_first (awaitPerformed_holds hacked))

theorem matIssue_does (hacked : s.allAcked (.group s.g.id) = true) :
    Does (matIssue i l slots) s () ((State.issued { s with w := s.w.beginOps (s.imageRuns (matArgs i w) slots) } .mpair i active k
      { ops := w :: (s.imageRuns (matArgs i w) slots).map (BitVec.ofNat 64) }).unhang.retire 3) := by
  have hcond := (matOk_iff s (matArgs i w)).2 hok
  refine gives_bind hstart (gives_bind hslots (does_else hactive (gives_bind hacc (gives_bind hfills (gives_bind hheld (gives_bind hw
    (gives_bind (act_get s) (does_checked (fun h => absurd h hcond) (gives_bind hruns (gives_bind (awaitPerformed_gives hacked) ?_))))))))))
  exact holdSlotsAndIssue_does i active k _ _ (.inr hacked)

end

section
variable {l : Lane} {s : State} {active : Word32} {k : Option Nat} {t : Tile} {w : Word64} {copies : List Bool} {icol cols : Nat} {run : List Nat}

/-- R377: MFILL, with what the spec requires of its position, the pair, the headers and the run. -/
theorem mfill_does (hstart : Gives (laneStart l) s (active, k)) (hactive : active ≠ 0) (hslot : Gives (checkSlot active l.vd.toNat) s ())
    (htile : Gives (useTile active l.va) s t) (hfill : Gives (waitFills [l.vd.toNat]) s ()) (hheld : Gives (checkHeld active [l.vd.toNat]) s ())
    (hw : Gives (readS (sregOf l.vb)) s w) (hicol : bitsOf w.toNat 0 12 = icol) (hblock : icol % 32 = 0)
    (hpair : l.imm.toNat / 2 % 4 ≠ 0 → s.w.pair = true) (hcopies : destCopies (l.imm.toNat / 2 % 4) s.w.pair = copies)
    (hheads : l.imm.getLsbD 0 = false → ∀ f ∈ copies, headFits t ((s.w.copy f).head? l.vd.toNat) = true)
    (hcols : copies.foldl (fun m f => max m (fillCols ((s.w.copy f).head? l.vd.toNat) (l.imm.getLsbD 0) icol t.cols)) 0 = cols) (hwidth : cols ≤ 4096)
    (hrun : (List.range (imageSlots t.fmt t.rows cols)).map (l.vd.toNat + ·) = run) (hslots : Gives (checkSlots active run) s ())
    (hheldRun : Gives (checkHeld active run) s ()) (hfills : Gives (waitFills run) s ()) :
    Does (mfill l) s () ((State.issued { s with w := s.w.beginOps run } .tileOp (.mfill l) active k
      { ops := [BitVec.ofNat 64 icol, BitVec.ofNat 64 l.vd.toNat, BitVec.ofNat 64 (imageSlots t.fmt t.rows cols)]
        tiles := [(l.va.toNat, false)] }).unhang.retire 3) := by
  subst hicol hcopies hcols hrun
  have hplace : ¬ (bitsOf w.toNat 0 12 % 32 ≠ 0 ∨ (l.imm.toNat / 2 % 4 ≠ 0 ∧ (!s.w.pair) = true)) := by
    rintro (h | ⟨hdest, hno⟩)
    · exact h hblock
    · simp [hpair hdest] at hno
  have hfit : ¬ ((!l.imm.getLsbD 0 && (destCopies (l.imm.toNat / 2 % 4) s.w.pair).any fun f => !headFits t ((s.w.copy f).head? l.vd.toNat)) = true) := by
    simp only [Bool.and_eq_true, Bool.not_eq_true', List.any_eq_true, not_and, not_exists]
    intro hnew f hf
    simp [hheads hnew f hf]
  refine gives_bind hstart (gives_bind hslot (gives_bind (checkTile_of_useTile htile) (does_else hactive (gives_bind htile (gives_bind hfill
    (gives_bind hheld (gives_bind hw (gives_bind (act_get s) (does_checked (fun h => absurd h hplace) (does_checked (fun h => absurd h hfit)
      (does_checked (fun h => absurd h (Nat.not_lt.2 hwidth)) (gives_bind hslots (gives_bind hheldRun (gives_bind hfills ?_))))))))))))))
  exact holdSlotsAndIssue_does _ active k _ _ (.inl rfl)

end

/-! ## Events of matrix commands (R374, R378, R380) -/

section
variable {s : State} {id : CmdId} {c : Command} (hrun : s.runnable id = some c)
include hrun

/-- R380: the first matrix command of its workgroup goes on. -/
theorem mmaRetire_acts (hctx : id.ctx = .mpair) (hfirst : ∀ y ∈ s.earlier c, y.id.ctx = .mpair → y.finished = true) :
    Acts (.mmaRetire id) s c fun u => u.multiply c := by
  have hnone : ((s.earlier c).any fun y => y.id.ctx == .mpair && !y.finished) = false := by
    rw [List.any_eq_false]
    intro y hy
    by_cases hpair : y.id.ctx = .mpair
    · simp [hfirst y hy hpair]
    · simp [hpair]
  change execMmaRetire id s = _
  simp [execMmaRetire, hrun, hctx, hnone]

variable (hctx : id.ctx = .tileOp)
include hctx

/-- R378: a fill copies its tile once the earlier multiplications have read its slots. -/
theorem fillRetire_acts {l : Lane} (hinstr : c.instr = .mfill l)
    (hread : ∀ y ∈ s.earlier c, y.finished = false → ∀ n ∈ cmdSlots y, n ∉ cmdSlots c) :
    exec (.matrixOperationRetire id) s = .next ((s.inCommand c fun u => u.fill l c).finish c 0) := by
  have hnone : ((s.earlier c).any fun y => !y.finished && (cmdSlots y).any (cmdSlots c).contains) = false := by
    rw [List.any_eq_false]
    intro y hy
    cases hy' : y.finished with
    | true => simp
    | false => simpa using hread y hy hy'
  change execMatrixOperationRetire id s = _
  simp [execMatrixOperationRetire, hrun, hctx, hinstr, hnone]

/-- R374: a tile that was reconstructed or read out is given back. -/
theorem tileRetire_acts {l : Lane} (hinstr : c.instr = .hrec l ∨ c.instr = .maccrd l) :
    exec (.matrixOperationRetire id) s = .next (s.finish c 0) := by
  change execMatrixOperationRetire id s = _
  rcases hinstr with hinstr | hinstr <;> simp [execMatrixOperationRetire, hrun, hctx, hinstr]

end

/-! ## One chunk (R189, R203, R267) -/

/-- A matrix command that has started: its soft errors, where there are any, are logged once. -/
def State.started (s : State) (c : Command) : State := if c.phase = 0 then s.modCmd c.id fun y => { y with phase := 1 } else s

/-- A view of the state that no command changes is kept where a command starts. -/
theorem started_keeps {β : Type} (view : State → β)
    (h : ∀ (s : State) (cs : List Command) (ws : List Workgroup), view { s with w := { s.w with cmds := cs } } = view s ∧ view { s with otherWgs := ws } = view s)
    (s : State) (c : Command) : view (s.started c) = view s := by
  unfold State.started State.modCmd State.modWg
  split
  · split
    · exact (h s _ []).1
    · exact (h s [] _).2
  · rfl

theorem soft_started (s : State) (c : Command) : (s.started c).soft = s.soft := started_keeps State.soft (fun _ _ _ => ⟨rfl, rfl⟩) s c

theorem chunkResults_started (s : State) (c : Command) (x : MatArgs) (j : Nat) : (s.started c).chunkResults x j = s.chunkResults x j :=
  started_keeps (fun s => s.chunkResults x j) (fun _ _ _ => ⟨rfl, rfl⟩) s c

theorem aliveRows_started (s : State) (c : Command) (x : MatArgs) (p : Part) : (s.started c).aliveRows x p = s.aliveRows x p :=
  started_keeps (fun s => s.aliveRows x p) (fun _ _ _ => ⟨rfl, rfl⟩) s c

theorem head_started (s : State) (c : Command) (slot : Nat) : ((s.started c).w.copy false).head? slot = (s.w.copy false).head? slot :=
  started_keeps (fun s => (s.w.copy false).head? slot) (fun _ _ _ => ⟨rfl, rfl⟩) s c

section
variable {s : State} {c : Command} {x : MatArgs} {rs : List ((Nat × Nat) × Fp Nat)} (hsoft : s.soft = [])
include hsoft

theorem logSoft_none (x : MatArgs) : s.logSoft x = s := if_pos (by rw [hsoft]; rfl)

/-- A command performs its next chunk from the state in which it has started. -/
theorem multiply_eq (hx : matArgs c.instr (c.ops.getD 0 0) = x) :
    s.multiply c = match (s.started c).runChunk c x c.pos with
      | (u, false) => u
      | (u, true) =>
        if 32 * (c.pos + 1) < x.k then u.modCmd c.id fun y => { y with pos := c.pos + 1 }
        else
          let v : State := if x.parts.any (fun p => !(s.aliveRows x p).isEmpty) then
            { u with w := u.w.setAccHead x.acc { u.w.accHead x.acc with dom := (((s.w.copy false).head? x.a).map (·.dom)).getD 0 } } else u
          State.finish { v with w := v.w.endOps (cmdSlots c) } c 0 := by
  subst hx
  have hstart : (if c.phase = 0 then (s.logSoft (matArgs c.instr (c.ops.getD 0 0))).modCmd c.id fun y => { y with phase := 1 } else s) = s.started c := by
    rw [logSoft_none hsoft, State.started]
  unfold State.multiply
  simp only [hstart, aliveRows_started, head_started] <;> rfl

variable (hrs : s.chunkResults x c.pos = rs)
include hrs

/-- R203: a chunk that yields a NaN under TRAP stops the command before it. -/
theorem runChunk_stops {r : (Nat × Nat) × Fp Nat} (htrap : c.nanTrap = true) (hr : (rs.find? fun r => r.2.fl.nan) = some r) :
    (s.started c).runChunk c x c.pos = ((s.started c).engineStop c (nanTrapOf c c.pos r.1.1 r.1.2) c.pos, false) := by
  have hnone : (s.started c).softAcc x = none := if_pos (by rw [soft_started, hsoft]; rfl)
  unfold State.runChunk
  simp only [hnone, chunkResults_started, hrs, htrap, if_true, hr]

theorem runChunk_performs (hquiet : c.nanTrap = false ∨ ∀ r ∈ rs, r.2.fl.nan = false) :
    (s.started c).runChunk c x c.pos = (((s.started c).writeChunk x rs).cmdFlags c (flagsOf (rs.map Prod.snd)), true) := by
  have hnone : (s.started c).softAcc x = none := if_pos (by rw [soft_started, hsoft]; rfl)
  have hnan : (if c.nanTrap then rs.find? fun r => r.2.fl.nan else none) = none := by
    rcases hquiet with h | h
    · rw [h]; rfl
    · rw [List.find?_eq_none.2 fun r hr => by simp [h r hr], ite_self]
  unfold State.runChunk
  simp only [hnone, chunkResults_started, hrs, hnan]

end

/-- Settles O34: multiplications and fills at issue, and the events that perform and retire them. -/
theorem matrices : Obligations.Matrices := by
  refine ⟨⟨fun i l slots s active k w hi hstart hactive hslots hacc hfills hheld hw => ?_, ?_⟩, fun s id c hrun => ⟨fun hctx hfirst => mmaRetire_acts hrun hctx hfirst,
    fun hctx => ⟨fun l hinstr hread => fillRetire_acts hrun hctx hinstr hread, fun l hinstr => tileRetire_acts hrun hctx hinstr⟩⟩, fun s c hsoft => ?_⟩
  · have hexec := exec_matForm hi s
    refine ⟨fun hok hruns hacked => ?_, fun hok hruns hacked => ?_, fun hbad => ?_⟩
    · exact hexec.trans (outcome_of_holds (matIssue_holds hstart hactive hslots hacc hfills hheld hw hok hruns hacked))
    · exact hexec.trans (outcome_of_does (matIssue_does hstart hactive hslots hacc hfills hheld hw hok hruns hacked))
    · exact hexec.trans (outcome_of_raises (matIssue_raises hstart hactive hslots hacc hfills hheld hw hbad))
  · intro l s active k t w hstart hactive slot new dest icol copies cols run hslot htile hfill hheld hw hblock hpair hheads hwidth hslots hheldRun hfills
    exact outcome_of_does (mfill_does hstart hactive hslot htile hfill hheld hw (bitsOf_low _ 12) hblock hpair rfl hheads rfl hwidth rfl hslots hheldRun hfills)
  · intro x s₀ rs s₁ dom s₂
    refine ⟨fun hquiet => ?_, fun htrap r hr => ?_⟩
    · rw [multiply_eq hsoft (x := x) rfl, runChunk_performs hsoft rfl hquiet]
      exact ⟨fun hmore => if_pos hmore, fun hlast => if_neg (Nat.not_lt.2 hlast)⟩
    · have hstep := multiply_eq hsoft (x := x) rfl
      rw [runChunk_stops hsoft rfl htrap hr] at hstep
      exact hstep

end Sys2Proof.Machine
end

