-- ==== Sys2Proof/Proofs/Transform.lean ====
section
/-! PROOFS. O42: XFORM (spec/16 R422 to R424, spec/07 R186). -/

namespace Sys2Proof.Machine

/-! ## Issue (R422) -/

theorem bitOf_toNat {w : Nat} (v : BitVec w) (i : Nat) : bitOf v.toNat i = v.getLsbD i := by
  rw [bitOf, BitVec.getLsbD, Nat.testBit_eq_decide_div_mod_eq]
  rfl

theorem binaryCode_iff (code : Nat) : binaryCode code = true ↔ code = 2 ∨ code = 3 ∨ code = 4 := by
  simp [binaryCode, or_assoc]

theorem checkRoom_gives {ctx : Ctx} {limit : Nat} {s : State} (h : s.w.inFlight ctx < limit) : Gives (checkRoom ctx limit) s () :=
  gives_bind (act_get s) (does_else (Nat.not_le.2 h) (does_pure () s))

theorem does_branches {α β : Type} {c : Prop} [Decidable c] {a b : Act α} {f : α → Act β} {s u : State} {v : α} {y : β} (ha : c → Gives a s v)
    (hb : ¬ c → Gives b s v) (h : Does (f v) s y u) : Does (if c then a >>= f else b >>= f) s y u := (runAct_branches ha hb).trans h

/-- A tile operand, where there is one. -/
def tileOperand (s : State) (active : Word32) (n : BitVec 11) (t : Option Tile) : Prop := ∃ e, t = some e ∧ Gives (useTile active n) s e

theorem tileOperand_gives {s : State} {active : Word32} {n : BitVec 11} {t : Option Tile} (h : tileOperand s active n t) :
    Gives (do pure (some (← useTile active n))) s t := by
  obtain ⟨e, rfl, he⟩ := h
  exact gives_bind he (does_pure _ s)

theorem checkTile_of_operand {s : State} {active : Word32} {n : BitVec 11} {t : Option Tile} (h : tileOperand s active n t) : Gives (checkTile active n) s () := by
  obtain ⟨e, -, he⟩ := h
  exact checkTile_of_useTile he

/-- The tiles that XFORM moves: its destination fills, and its other tiles drain (R76). -/
def xformTiles (l : Lane) (ld la two : Bool) : List (Nat × Bool) :=
  (if ld then [] else [(l.vd.toNat, true)])
    ++ ((((if la then [] else [l.va.toNat]) ++ if two then [l.vb.toNat] else []).dedup.filter fun n => ld || n != l.vd.toNat).map fun n => (n, false))

section
variable {l : Lane} {s : State} {active : Word32} {k : Option Nat} {f dstVa srcVa : Word64} {d a b : Option Tile} {ld la two : Bool}

/-- R422, R424: what is captured at issue, with each endpoint a layout record's address or a tile. -/
theorem xform_does (hld : (xformArgs l []).ld = ld) (hla : (xformArgs l []).la = la) (htwo : binaryCode (xformArgs l []).code = two)
    (hstart : Gives (laneStart l) s (active, k)) (hactive : active ≠ 0) (hproducer : s.g.id.j = s.w.producer) (hf : Gives (readS (sregOf l.vc)) s f)
    (hdst : ld = true → Gives (readS (sregOf l.vd)) s dstVa ∧ d = none) (hdst' : ld = false → dstVa = 0 ∧ tileOperand s active l.vd d)
    (hsrc : la = true → Gives (readS (sregOf l.va)) s srcVa ∧ a = none) (hsrc' : la = false → srcVa = 0 ∧ tileOperand s active l.va a)
    (hb : two = true → tileOperand s active l.vb b) (hb' : two = false → b = none)
    (hfit : xformMisfit (xformArgs l []).code (xformArgs l []).level a b d = false) (hroom : s.w.inFlight .xform < 16)
    (hacked : s.allAcked (.group s.g.id) = true) :
    Does (xform l) s () ((s.issued .xform (.xform l) active k
      { ops := [f, BitVec.ofNat 64 (s.g.rounding l.rm.toNat), (s.g.hregs.get (bitsOf l.imm.toNat 7 3)).setWidth 64, dstVa, srcVa]
        tiles := xformTiles l ld la two }).unhang.retire 3) := by
  subst hld hla htwo
  refine gives_bind hstart (does_checked (fun h => checkTile_of_operand (hdst' (by simpa using h)).2)
    (does_checked (fun h => checkTile_of_operand (hsrc' (by simpa using h)).2) (does_checked (fun h => checkTile_of_operand (hb h)) (does_else hactive
      (gives_bind (needProducer_gives hproducer) (gives_bind hf ?_))))))
  refine does_branches (v := dstVa) (fun h => (hdst h).1) (fun h => ?_) (does_branches (v := srcVa) (fun h => (hsrc h).1) (fun h => ?_)
    (does_branches (v := d) (fun h => ?_) (fun h => tileOperand_gives (hdst' (Bool.eq_false_iff.2 h)).2)
      (does_branches (v := a) (fun h => ?_) (fun h => tileOperand_gives (hsrc' (Bool.eq_false_iff.2 h)).2)
        (does_branches (v := b) (fun h => tileOperand_gives (hb h)) (fun h => ?_) ?_))))
  · rw [(hdst' (Bool.eq_false_iff.2 h)).1]; exact does_pure 0 s
  · rw [(hsrc' (Bool.eq_false_iff.2 h)).1]; exact does_pure 0 s
  · rw [(hdst h).2]; exact does_pure none s
  · rw [(hsrc h).2]; exact does_pure none s
  · rw [hb' (Bool.eq_false_iff.2 h)]; exact does_pure none s
  · refine does_checked (fun h => absurd h (by simp [hfit])) (gives_bind (act_get s) (gives_bind (checkRoom_gives hroom) ?_))
    exact issueAndRetire_does _ active k _ (.inr hacked)

end

/-! ## Completion (R424) -/

theorem xformComplete_acts {s : State} {id : CmdId} {c : Command} {l : Lane} (hrun : s.runnable id = some c) (hinstr : c.instr = .xform l) :
    Acts (.xformComplete id) s c fun u =>
      match u.xend c (xformArgs l c.ops).la (xformArgs l c.ops).src with
      | (v, .error f) => v.xformStop c f
      | (v, .ok a) =>
        match v.xend c (xformArgs l c.ops).ld (xformArgs l c.ops).dst with
        | (v, .error f) => v.xformStop c f
        | (v, .ok d) =>
          let b := if binaryCode (xformArgs l c.ops).code then some (XEnd.tile (xformArgs l c.ops).tileB) else none
          if c.pos < (v.xshape d).rows then v.xformRun c (xformArgs l c.ops) a b d
          else if v.allAcked (.cmd id) then v.xformEnd c (xformArgs l c.ops) a b d
          else v :=
  cmdEvent_acts hrun rfl fun u => by simp only [hinstr] <;> rfl

/-! ## Results (Table 16-6) -/

/-- The transposition. -/
theorem xformRows_transposes {x : XformArgs} (hcode : x.code = 1) (ta d : Tile) (as bs : List (List Val)) {r c : Nat} (hr : r < d.rows) (hc : c < as.length) :
    (((xformRows x ta d as bs).1.getD r []).map (·.val)).getD c (zeroVal false) = (as.getD c []).getD r (zeroVal false) := by
  have hrows : (xformRows x ta d as bs).1 = ((List.range d.rows).map fun j => columnOf as j).map fun r => r.map fun v => { val := v } := by
    simp [xformRows, hcode]
  rw [hrows]
  simp [columnOf, hr, hc, List.getD_eq_getElem?_getD]

/-- R186: what a library function takes of an element. -/
theorem coeffValue_val (t : Tile) (v : Val) :
    (coeffValue t v).val = if isScaled t.fmt = true then fp32.value (fp32.arith rne false { val := v }).val else v := by
  unfold coeffValue
  split <;> rfl

theorem xformElem_val (x : XformArgs) (ta : Tile) (a b : Val) :
    (x.code = 0 → (xformElem x ta a b).val = a) ∧ (x.code = 2 → (xformElem x ta a b).val = (sumVals (x.rm == 2) [a, b]).val)
      ∧ (x.code = 3 → (xformElem x ta a b).val = (mulVal a b).val) ∧ (x.code = 5 → (xformElem x ta a b).val = (mulVal x.alpha a).val)
      ∧ (x.code = 6 → (xformElem x ta a b).val = minVal a (zeroVal false) true)
      ∧ (x.code = 9 → (xformElem x ta a b).val
          = (libExp (if isScaled ta.fmt = true then fp32.value (fp32.arith rne false { val := a }).val else a)).val) := by
  refine ⟨fun h => ?_, fun h => ?_, fun h => ?_, fun h => ?_, fun h => ?_, fun h => ?_⟩
  case refine_6 =>
    rw [← coeffValue_val]
    simp only [xformElem, h, libFor]
  all_goals simp only [xformElem, h]

/-- Settles O42: XFORM at issue, its completion, and the results of Table 16-6. -/
theorem transform : Obligations.Transform := by
  refine ⟨?_, fun s id c l hrun hinstr => xformComplete_acts hrun hinstr, fun x ta d as bs =>
    ⟨fun hcode r c hr hc => xformRows_transposes hcode ta d as bs hr hc, xformElem_val x ta⟩⟩
  intro l s active k f dstVa srcVa d a b hstart hactive hproducer hf ld la code two hdst hdst' hsrc hsrc' hb hb' hfit hroom hacked drained
  have hld : (xformArgs l []).ld = ld := bitOf_toNat l.imm 6
  have hla : (xformArgs l []).la = la := bitOf_toNat l.imm 5
  have hcode : (xformArgs l []).code = code := bitsOf_low l.imm.toNat 5
  have htwo : binaryCode (xformArgs l []).code = decide two := by
    rw [hcode, Bool.eq_iff_iff, binaryCode_iff, decide_eq_true_iff]
  have hrun := xform_does hld hla htwo hstart hactive hproducer hf hdst hdst' hsrc hsrc' (fun h => hb (of_decide_eq_true h))
    (fun h => hb' (of_decide_eq_false h)) (by rw [hcode]; exact hfit) hroom hacked
  have htiles : xformTiles l ld la (decide two) = (if ld then [] else [(l.vd.toNat, true)]) ++ drained.map fun n => (n, false) := by
    simp only [xformTiles, decide_eq_true_eq, drained]
  rw [htiles] at hrun
  exact outcome_of_does hrun

end Sys2Proof.Machine
end

