-- ==== Sys2Proof/Proofs/NoActiveLane.lean ====
section
/-! PROOFS. O29: lane words that act once, with no active lane (spec/14 R363, spec/15 R386, spec/16 R411, spec/08 R219). -/

namespace Sys2Proof.Machine

/-- The checks of a lane word, and then what it does once they have passed. -/
def afterChecks : List (Act Unit) → Act Unit → Act Unit
  | [], rest => rest
  | check :: checks, rest => do
    check
    afterChecks checks rest

/-- What a lane word that acts once comes to with no active lane (R219). -/
def idleRetire (i : Instr) : Act Unit := if oncePlain i then retire 3 else retireWork 3

/-- The forms that only an A-core has, which is what they check first (R386). -/
def aCoreOnly (i : Instr) : Bool :=
  match i with
  | .attn _ => true
  | .asel _ => true
  | .asumu _ => true
  | .kvsweep _ => true
  | .kvdem _ => true
  | _ => false

theorem runAct_afterChecks {checks : List (Act Unit)} (rest : Act Unit) {t : State} : ∀ {s : State},
    Does (allOf checks) s () t → runAct (afterChecks checks rest) s = runAct rest t := by
  induction checks with
  | nil => exact fun h => by cases h; rfl
  | cons check checks ih =>
    intro s h
    rw [Does, allOf, act_bind] at h
    rw [afterChecks, act_bind]
    generalize runAct check s = r at h ⊢
    obtain ⟨e | ⟨⟩, s₁⟩ := r
    · cases h
    · exact ih h

theorem needACore_unchanged {s t : State} (h : Does needACore s () t) : t = s := by
  unfold needACore at h
  rw [Does, act_bind, act_get] at h
  simp only [act_ite, act_trapAll, act_pure] at h
  split at h <;> cases h
  rfl

theorem does_idleRetire (i : Instr) (s : State) : Does (idleRetire i) s () ((if oncePlain i then s else s.unhang).retire 3) := by
  unfold idleRetire
  split
  · exact act_retire 3 s
  · exact act_retireWork 3 s

section
variable {i : Instr} {l : Lane} {checks : List (Act Unit)} (hi : onceForm i = some (l, checks))
include hi

/-- R363, R411: the number of active lanes is read first, and with none the word retires after its checks. -/
theorem exec_onceForm (hcore : aCoreOnly i = false) : ∃ body : Word32 × Option Nat → Act Unit,
    (∀ s, exec i s = Act.outcome (laneStart l >>= body) s) ∧ ∀ k, body (0, k) = afterChecks checks (idleRetire i) := by
  unfold onceForm at hi
  split at hi <;> cases hi <;> simp only [aCoreOnly, Bool.true_eq_false] at hcore
  all_goals exact ⟨_, fun s => rfl, fun k => rfl⟩

/-- R386: a form of the A-cores asks first for its core. -/
theorem exec_onceForm_aCore (hcore : aCoreOnly i = true) : ∃ (rest : List (Act Unit)) (body : Word32 × Option Nat → Act Unit),
    checks = needACore :: rest ∧ (∀ s, exec i s = Act.outcome (needACore >>= fun _ => laneStart l >>= body) s)
      ∧ ∀ k, body (0, k) = afterChecks rest (idleRetire i) := by
  unfold aCoreOnly at hcore
  split at hcore <;> cases hcore <;> cases hi
  all_goals exact ⟨_, _, rfl, fun s => rfl, fun k => rfl⟩

theorem onceForm_retires {s : State} {k : Option Nat} (hstart : Gives (laneStart l) s (0, k)) (hchecks : Gives (allOf checks) s ()) :
    exec i s = .next ((if oncePlain i then s else s.unhang).retire 3) := by
  cases hcore : aCoreOnly i with
  | false =>
    obtain ⟨body, hexec, hbody⟩ := exec_onceForm hi hcore
    rw [hexec]
    refine outcome_of_does (gives_bind hstart ?_)
    rw [hbody, Does, runAct_afterChecks _ hchecks]
    exact does_idleRetire i s
  | true =>
    obtain ⟨rest, body, rfl, hexec, hbody⟩ := exec_onceForm_aCore hi hcore
    rw [hexec]
    rw [Gives, Does, allOf, act_bind] at hchecks
    cases hneed : runAct needACore s with
    | mk r t =>
      cases r with
      | error e => rw [hneed] at hchecks; cases hchecks
      | ok u =>
        obtain rfl := needACore_unchanged hneed
        rw [hneed] at hchecks
        refine outcome_of_does (gives_bind hneed (gives_bind hstart ?_))
        rw [hbody, Does, runAct_afterChecks _ hchecks]
        exact does_idleRetire i _

end

/-- Settles O29: each form reads its lanes, makes its checks and retires. -/
theorem noActiveLane : Obligations.NoActiveLane := by
  intro i l checks s k hi hstart hchecks u
  exact ⟨onceForm_retires hi hstart hchecks, retire_nothing u 3⟩

end Sys2Proof.Machine
end

