-- ==== Sys2Proof/Proofs/Divergence.lean ====
section
/-! PROOFS. O13: splitting, joining and exiting lanes (spec/08 R210 to R214, R226, spec/12 R317 to R319). -/

namespace Sys2Proof.Machine

/-! ## The divergence stack (R214) -/

theorem does_bind_cases {α β : Type} {a : Act α} {f : α → Act β} {s u : State} {y : β} (h : Does (a >>= f) s y u) :
    ∃ x t, Does a s x t ∧ Does (f x) t y u := by
  rw [Does, act_bind] at h
  cases ha : runAct a s with
  | mk r t =>
    rw [ha] at h
    cases r with
    | error e => cases h
    | ok x => exact ⟨x, t, ha, h⟩

/-- The stack that is written back is what the group holds. -/
theorem storeStack_stack {st : Stack} {s t : State} (h : Does (storeStack st) s () t) : t.g.stack = st.items.map StackItem.key := by
  unfold storeStack at h
  obtain ⟨_, _, _, hchecked⟩ := does_bind_cases h
  obtain ⟨_, _, _, hwritten⟩ := does_bind_cases hchecked
  obtain ⟨_, _, _, hset⟩ := does_bind_cases hwritten
  cases hset
  rfl

theorem keys_stackNow (s : State) : s.stackNow.items.map StackItem.key = s.g.stack := by
  unfold State.stackNow
  rw [List.map_map]
  exact List.map_snd_zip (by simp)

theorem keys_push (st : Stack) (e : Entry) (top : Bool) : (st.push e top).items.map StackItem.key = st.items.map StackItem.key ++ [e.key top] := by
  rw [Stack.push, List.map_append]
  rfl

theorem stackNow_empty {s : State} (h : s.g.stack = []) : s.stackNow = { items := [], dirty := [] } := by
  rw [State.stackNow, h]
  rfl

theorem storeStack_empty (s : State) : Does (storeStack { items := [], dirty := [] }) s () { s with g := { s.g with stack := [] } } := rfl

/-! ## LBR (R211, R317) -/

/-- The clock of the lanes that a split sends to the target (R226). -/
def State.splitClock (s : State) : Word64 := if s.g.supv then s.path.clock else s.path.clock + 1

/-- R211: the lanes of `t` go to a target that stands, and the path keeps those of `n`. -/
def splitPath (s : State) (target : Word64) (t n : Word32) : Act Unit := do
  checkTarget target
  if (s.g.path? (!s.slot)).isNone then
    modify fun u => { u with g := u.g.setPath (!u.slot) (some (newPath (target.setWidth 56) t s.splitClock)) }
  else
    storeStack (s.stackNow.push { clock := s.splitClock, next := 0, kind := 0, mask := t, pc := target.setWidth 56 })
  modify fun u => (u.setPath { u.path with mask := n }).retire 1

section
variable {f : BForm} {s s₁ : State} (hm : maskReadable s f.a)
include hm

theorem lbr_reads : runAct (lbr f) s = runAct (
    if s.path.mask &&& maskOfSA s f.a = 0 then retire 1
    else if s.path.mask &&& ~~~ maskOfSA s f.a = 0 then goTo (targetOf s f.off.toInt)
    else splitPath s (targetOf s f.off.toInt) (s.path.mask &&& maskOfSA s f.a) (s.path.mask &&& ~~~ maskOfSA s f.a)) s := by
  rw [← target_eq]
  exact (runAct_bind_gives (condMask_gives hm)).trans (runAct_bind_gives (act_get s))

theorem lbr_none (ht : s.path.mask &&& maskOfSA s f.a = 0) : exec (.lbr f) s = .next (s.retire 1) :=
  outcome_of_does ((lbr_reads hm).trans (runAct_then ht))

theorem lbr_all (ht : s.path.mask &&& maskOfSA s f.a ≠ 0) (hn : s.path.mask &&& ~~~ maskOfSA s f.a = 0)
    (htarget : Does (checkTarget (targetOf s f.off.toInt)) s () s₁) :
    exec (.lbr f) s = .next (s₁.transfer ((targetOf s f.off.toInt).setWidth 56)) :=
  (outcome_congr ((lbr_reads hm).trans ((runAct_else ht).trans (runAct_then hn)))).trans (outcome_goTo htarget)

variable (ht : s.path.mask &&& maskOfSA s f.a ≠ 0) (hn : s.path.mask &&& ~~~ maskOfSA s f.a ≠ 0)
  (htarget : Does (checkTarget (targetOf s f.off.toInt)) s () s₁)
include ht hn htarget

/-- The other live slot is free. -/
theorem lbr_takesSlot (hfree : s.g.path? (!s.slot) = none) :
    let new := newPath ((targetOf s f.off.toInt).setWidth 56) (s.path.mask &&& maskOfSA s f.a) s.splitClock
    let s₂ : State := { s₁ with g := s₁.g.setPath (!s₁.slot) (some new) }
    exec (.lbr f) s = .next ((s₂.setPath { s₂.path with mask := s.path.mask &&& ~~~ maskOfSA s f.a }).retire 1) := by
  refine outcome_of_does ((lbr_reads hm).trans ((runAct_else ht).trans ((runAct_else hn).trans ((runAct_bind_does htarget).trans ?_))))
  exact runAct_then (by rw [hfree]; rfl)

theorem lbr_pushes (hbusy : (s.g.path? (!s.slot)).isSome = true) {s₂ : State}
    (hstore : Does (storeStack (s.stackNow.push { clock := s.splitClock, next := 0, kind := 0, mask := s.path.mask &&& maskOfSA s f.a,
                                                  pc := (targetOf s f.off.toInt).setWidth 56 })) s₁ () s₂) :
    exec (.lbr f) s = .next ((s₂.setPath { s₂.path with mask := s.path.mask &&& ~~~ maskOfSA s f.a }).retire 1) := by
  refine outcome_of_does ((lbr_reads hm).trans ((runAct_else ht).trans ((runAct_else hn).trans ((runAct_bind_does htarget).trans ?_))))
  refine (runAct_else (by simp [Option.ne_none_iff_isSome, hbusy])).trans ?_
  exact runAct_bind_does hstore

end

/-! ## LJOIN and LEXIT (R212, R213, R318, R319) -/

theorem ljoin_joins {f : YForm} {s s₁ s₂ : State} {i : Nat} {st : Stack} {e : Entry} (hi : s.stackNow.parkedAt s.path.addr = some i)
    (hread : Does (readEntry s.stackNow i) s (st, e) s₁)
    (hleave : Does (leaveSlot 0 (st.setEntry i { e with mask := e.mask ||| s.path.mask, clock := maxClock e.clock s.path.clock })) s₁ () s₂) :
    exec (.ljoin f) s = .next s₂ := by
  refine outcome_of_does ((runAct_bind_gives (act_get s)).trans ?_)
  simp only [hi]
  exact (runAct_bind_does hread).trans hleave

/-- What LJOIN parks (Table 8-2). -/
def State.joinEntry (s : State) : Entry :=
  { clock := s.path.clock, next := s.path.nextHeader, kind := 1, mask := s.path.mask, pc := s.path.addr }

theorem ljoin_parks {f : YForm} {s s₂ : State} (hnone : s.stackNow.parkedAt s.path.addr = none)
    (hleave : Does (leaveSlot 0 (s.stackNow.push s.joinEntry (decide (2 ^ 56 ≤ s.path.nextAt)))) s () s₂) :
    exec (.ljoin f) s = .next s₂ := by
  refine outcome_of_does ((runAct_bind_gives (act_get s)).trans ?_)
  simp only [hnone]
  exact hleave

section
variable {f : YForm} {s s₂ : State} (hm : maskReadable s f.a)
include hm

theorem lexit_some (hrest : s.path.mask &&& ~~~ maskOfSA s f.a ≠ 0) : exec (.lexit f) s =
    .next ((({ s with g := { s.g with exited := s.g.exited ||| (s.path.mask &&& maskOfSA s f.a) } } : State).setPath
      { s.path with mask := s.path.mask &&& ~~~ maskOfSA s f.a }).unhang.retire 1) :=
  outcome_of_does ((runAct_bind_gives (condMask_gives hm)).trans ((runAct_bind_gives (act_get s)).trans (runAct_else hrest)))

theorem lexit_all (hrest : s.path.mask &&& ~~~ maskOfSA s f.a = 0)
    (hleave : Does (leaveSlot (s.path.mask &&& maskOfSA s f.a) s.stackNow) s () s₂) : exec (.lexit f) s = .next s₂.unhang :=
  outcome_of_does ((runAct_bind_gives (condMask_gives hm)).trans ((runAct_bind_gives (act_get s)).trans
    ((runAct_then hrest).trans (runAct_bind_does hleave))))

end

/-! ## EXIT (R213, R319) -/

/-- R213: a group that ends keeps its registers. -/
theorem groupGone_registers (s : State) :
    s.groupGone.g.sregs = s.g.sregs ∧ s.groupGone.g.vregs = s.g.vregs ∧ s.groupGone.regs = s.regs := by
  have hdrain : (s.drain.g.sregs, s.drain.g.vregs, s.drain.regs) = (s.g.sregs, s.g.vregs, s.regs) :=
    drain_keeps (fun t : State => (t.g.sregs, t.g.vregs, t.regs)) (fun _ => rfl) (fun _ _ => rfl) (fun _ _ => rfl) (fun _ _ _ _ => rfl) s
  have hgone : (s.groupGone.g.sregs, s.groupGone.g.vregs, s.groupGone.regs) = (s.drain.g.sregs, s.drain.g.vregs, s.drain.regs) := by
    unfold State.groupGone
    simp only []
    rw [noteClaims_frame]
    rfl
  simpa using hgone.trans hdrain

/-! ## A slot that frees (R212, R213) -/

/-- The group goes on with the paths that its slots hold after the lanes of `x` have exited. -/
def State.refilled (s : State) (x : Word32) (a b : Option Path) : State :=
  { s with granted := false
           g := ({ s.g with slot0 := a, slot1 := b, exited := s.g.exited ||| x, ovr := none
                            yielded := s.g.yielded || s.path.header.getLsbD 4 } : Group).settleStop }

/-- Where no further lane exits, what stays as it was. -/
theorem refilled_none (s : State) (a b : Option Path) : s.refilled 0 a b =
    { s with granted := false
             g := ({ s.g with slot0 := a, slot1 := b, ovr := none, yielded := s.g.yielded || s.path.header.getLsbD 4 } : Group).settleStop } := by
  rw [State.refilled, show s.g.exited ||| 0 = s.g.exited from BitVec.or_zero]

theorem allGone_refilled (s : State) (x : Word32) (a b : Option Path) : (s.refilled x a b).allGone
    = (a.isNone && b.isNone && s.g.stack.isEmpty && !(s.g.supv && s.g.trapLanes &&& ~~~ (s.g.exited ||| x) != 0)) := by
  rw [State.allGone, State.refilled, settleStop_frame]
  rfl

section
variable {s s₁ s₂ : State} {x : Word32} {st st' : Stack} {a b : Option Path}
  (hrefill : Does (refill (s.g.exited ||| x) (if s.slot then s.g.slot0 else none) (if s.slot then none else s.g.slot1) (!s.g.supv) st
    (2 * st.items.length + 2)) s (a, b, st') s₁) (hstore : Does (storeStack st') s₁ () s₂)
include hrefill hstore

theorem leaveSlot_does : Does (leaveSlot x st) s () (if (s₂.refilled x a b).allGone then (s₂.refilled x a b).groupGone else s₂.refilled x a b) := by
  unfold leaveSlot
  exact gives_bind (act_get s) (does_bind hrefill (does_bind hstore (does_modify _ s₂)))

end

/-- With nothing on the stack the slots stay as they are. -/
theorem refill_empty (gone : Word32) (a b : Option Path) (tick : Bool) (fuel : Nat) (s : State) :
    Gives (refill gone a b tick { items := [], dirty := [] } fuel) s (a, b, { items := [], dirty := [] }) := by
  cases fuel with
  | zero => rfl
  | succ fuel =>
    rw [refill]
    cases a <;> cases b <;> rfl

theorem leaveSlot_empty (s : State) (x : Word32) (t : State) (ht : t = ({ s with g := { s.g with stack := [] } } : State).refilled x
      (if s.slot then s.g.slot0 else none) (if s.slot then none else s.g.slot1)) :
    Does (leaveSlot x { items := [], dirty := [] }) s () (if t.allGone then t.groupGone else t) := by
  subst ht
  exact leaveSlot_does (refill_empty _ _ _ _ _ s) (storeStack_empty s)

/-- The stack of one entry, which LJOIN has just parked. -/
def parkedAlone (e : Entry) (top : Bool) : Stack := { items := [⟨e.key top, 0, some e⟩], dirty := [0] }

theorem takeEntry_parkedAlone (e : Entry) (top : Bool) (s : State) : Gives (takeEntry (parkedAlone e top) 0) s ({ items := [], dirty := [] }, e) := rfl

section
variable {e : Entry} {top : Bool} (hkind : e.kind = 1)
include hkind

theorem topUnparked_parkedAlone : (parkedAlone e top).topUnparked = none := by
  simp [parkedAlone, Stack.topUnparked, Entry.key, hkind]

theorem lowestParked_parkedAlone : (parkedAlone e top).lowestParked = some 0 := by
  simp [parkedAlone, Stack.lowestParked, Entry.key, hkind]

/-- R212: with no other path the entry that was parked alone is released at once to slot 0. -/
theorem refill_parkedAlone {gone : Word32} {s s₁ : State} (hlanes : e.mask &&& ~~~ gone ≠ 0)
    (hheader : top = false → Does (isHeaderAt e.next.toNat) s true s₁) (htop : top = true → s₁ = s) (fuel : Nat) :
    Does (refill gone none none true (parkedAlone e top) (fuel + 1)) s
      (some { newPath e.next (e.mask &&& ~~~ gone) (e.clock + 1) with top := top }, none, { items := [], dirty := [] }) s₁ := by
  have hgo : ∀ u : State, runAct (if e.mask &&& ~~~ gone = 0 then refill gone none none true { items := [], dirty := [] } fuel
      else pure (some { newPath e.next (e.mask &&& ~~~ gone) (e.clock + 1) with top := top }, none, { items := [], dirty := [] })) u =
      (.ok (some { newPath e.next (e.mask &&& ~~~ gone) (e.clock + 1) with top := top }, none, { items := [], dirty := [] }), u) :=
    fun u => runAct_else hlanes
  rw [Does, refill]
  simp only [topUnparked_parkedAlone hkind, lowestParked_parkedAlone hkind, Option.isSome_none, Bool.and_self, Bool.or_self, Bool.false_eq_true,
    if_false]
  refine (runAct_bind_gives (takeEntry_parkedAlone e top s)).trans ?_
  cases top with
  | true =>
    obtain rfl := htop rfl
    exact hgo _
  | false => exact (runAct_bind_does (hheader rfl)).trans (hgo s₁)

end

/-- The slots that are not the instruction's, where the other path is not live. -/
theorem otherSlots_free {s : State} (h : s.g.path? (!s.slot) = none) :
    (if s.slot then s.g.slot0 else none) = none ∧ (if s.slot then none else s.g.slot1) = none := by
  cases hslot : s.slot <;> rw [hslot] at h
  · exact ⟨rfl, h⟩
  · exact ⟨h, rfl⟩

theorem otherSlots_isNone (s : State) :
    ((if s.slot then s.g.slot0 else none).isNone && (if s.slot then none else s.g.slot1).isNone) = (s.g.path? (!s.slot)).isNone := by
  cases s.slot
  · rfl
  · exact Bool.and_true _

/-- R212, R226: a sole path that joins goes on at the header after its clause. -/
def State.joinReleased (s : State) : Path :=
  { newPath s.path.nextHeader (s.path.mask &&& ~~~ s.g.exited) (s.path.clock + 1) with top := decide (2 ^ 56 ≤ s.path.nextAt) }

theorem leaveSlot_joined {s s₁ : State} (hstack : s.g.stack = []) (hother : s.g.path? (!s.slot) = none) (hsupv : s.g.supv = false)
    (hlanes : s.path.mask &&& ~~~ s.g.exited ≠ 0)
    (hheader : decide (2 ^ 56 ≤ s.path.nextAt) = false → Does (isHeaderAt s.path.nextHeader.toNat) s true s₁)
    (htop : decide (2 ^ 56 ≤ s.path.nextAt) = true → s₁ = s) :
    Does (leaveSlot 0 (s.stackNow.push s.joinEntry (decide (2 ^ 56 ≤ s.path.nextAt)))) s ()
      (({ s₁ with g := { s₁.g with stack := [] } } : State).refilled 0 (some s.joinReleased) none) := by
  have hpush : s.stackNow.push s.joinEntry (decide (2 ^ 56 ≤ s.path.nextAt)) = parkedAlone s.joinEntry (decide (2 ^ 56 ≤ s.path.nextAt)) := by
    rw [stackNow_empty hstack]
    rfl
  have hrefill := refill_parkedAlone (e := s.joinEntry) rfl hlanes hheader htop 3
  obtain ⟨hslot0, hslot1⟩ := otherSlots_free hother
  have hleave := leaveSlot_does (s := s) (x := 0) (st := parkedAlone s.joinEntry (decide (2 ^ 56 ≤ s.path.nextAt)))
    (by rw [hslot0, hslot1, hsupv, show s.g.exited ||| 0 = s.g.exited from BitVec.or_zero]; exact hrefill) (storeStack_empty s₁)
  rw [allGone_refilled] at hleave
  rw [hpush]
  exact hleave

/-- Settles O13: LBR by the lanes that it takes, LJOIN, LEXIT and EXIT, and what becomes of a slot that frees. -/
theorem divergence : Obligations.Divergence := by
  refine ⟨fun f s s₁ hm => ?_, ⟨fun f s s₁ s₂ => ⟨fun i st e => ljoin_joins, ljoin_parks⟩, fun f s s₂ hm => ?_, fun f s => ?_⟩,
    fun s x => ?_, fun f s s₁ hstack hother hsupv hlanes => ?_⟩
  · intro t n
    refine ⟨lbr_none hm, lbr_all hm, lbr_takesSlot hm, fun s₂ ht hn htarget hbusy => ?_⟩
    intro clock new hstore
    refine ⟨lbr_pushes hm ht hn htarget hbusy hstore, ?_⟩
    rw [storeStack_stack hstore, keys_push, keys_stackNow]
    rfl
  · exact ⟨lexit_some hm, lexit_all hm⟩
  · obtain ⟨hexited, hslot0, hslot1, hsupv, hgranted⟩ := groupGone_ends s
    obtain ⟨hsregs, hvregs, hregs⟩ := groupGone_registers s
    exact ⟨rfl, hslot0, hslot1, rfl, hexited, hsupv, hgranted, hsregs, hvregs, hregs⟩
  · intro s₁
    have hs₁ : s₁ = ({ s with g := { s.g with stack := [] } } : State).refilled x
      (if s.slot then s.g.slot0 else none) (if s.slot then none else s.g.slot1) := rfl
    refine ⟨leaveSlot_empty s x s₁ hs₁, ?_⟩
    rw [hs₁, allGone_refilled, otherSlots_isNone, List.isEmpty_nil, Bool.and_true]
    rfl
  · intro top hheader htop
    have hnone : s.stackNow.parkedAt s.path.addr = none := by
      rw [stackNow_empty hstack]
      rfl
    rw [ljoin_parks hnone (leaveSlot_joined hstack hother hsupv hlanes hheader htop), refilled_none]
    rfl

end Sys2Proof.Machine
end

