-- ==== Sys2Proof/Proofs/SoftwareTraps.lean ====
section
/-! PROOFS. O18: TRAP, and ERET with what it returns to (spec/10 R260, R261, spec/08 R210, R212, R213, spec/12 R326). -/

namespace Sys2Proof.Machine

/-! ## TRAP (R326) -/

/-- What TRAP saves: its frame says that it is not to be executed again. -/
def State.softFrame (s : State) (sub : BitVec 8) (va : BitVec 56) : FrameArgs :=
  { trap := { cause := cTRAP, sub := sub, lmask := s.path.mask, va := va, kind := 0, level := 0xF }, iw := s.path.frameWords, skip := true }

/-- A TRAP whose frame is saved enters the handler, its clock risen. -/
theorem softTrap_saved {s s₁ : State} {sub : BitVec 8} {va : BitVec 56} (hsupv : s.g.supv = false)
    (h : s.unhang.vstore s.saveSlot (s.unhang.savedBytes (s.softFrame sub va)) = (s₁, .ok ())) :
    let t := s.unhang.enterHandler (s.softFrame sub va)
    s.softTrap sub va = t.setPath { t.path with clock := s.path.clock + 1 } := by
  intro t
  have ht : t.g.supv = true := by
    rw [show t = _ from enterHandler_saved hsupv h]
    exact inHandler_supv _ _ _
  have hboth : (!s.unhang.g.supv && t.g.supv) = true := by
    rw [ht, show s.unhang.g.supv = false from hsupv]
    rfl
  exact if_pos hboth

/-- R326: the address that a TRAP reports. -/
def reportOf (f : YForm) (x : Word64) : BitVec 56 := if f.sub.getLsbD 8 then x.extractLsb' 0 56 else 0

theorem trap_does {f : YForm} {s : State} {x : Word64} (hx : f.sub.getLsbD 8 = true → Gives (readSA f.a) s x) :
    Does (trap f) s () (s.softTrap (f.sub.extractLsb' 0 8) (reportOf f x)) := by
  rw [← BitVec.setWidth_eq_extractLsb' (by decide)]
  unfold trap reportOf
  cases hreport : f.sub.getLsbD 8 with
  | false => exact does_modify _ s
  | true =>
    rw [if_pos rfl, ← BitVec.setWidth_eq_extractLsb' (by decide)]
    exact gives_bind (hx hreport) (does_modify _ s)

/-! ## ERET reads its frame (R261) -/

theorem act_tryCatch_ok {α : Type} {a : Act α} {handler : Stop → Act α} {s t : State} {x : α} (h : Does a s x t) : Does (tryCatch a handler) s x t := by
  have h' : (a : StateM State (Except Stop α)) s = (.ok x, t) := h
  simp [Does, runAct, tryCatch, tryCatchThe, MonadExceptOf.tryCatch, ExceptT.tryCatch, ExceptT.run, StateT.run, bind, StateT.bind, ExceptT.mk, h']
  rfl

/-- What ERET returns to by the bytes of the frame and of the replay entries that it has read. -/
def State.eretReturn (s : State) (bs rs : List Byte) : State × Bool := s.returnFrom bs ((chunks 64 (frameField bs 16 5) rs).map readReplay)

section
variable {f : YForm} {s s₁ s₂ : State} {va : Word64} {bs rs : List Byte} (hsupv : s.g.supv = true) (hva : Gives (readS 127) s va)
  (hframe : Does (readSave va.toNat 256) s bs s₁) (hreplay : Does (readSave (va.toNat + 256) (64 * frameField bs 16 5)) s₁ rs s₂)
include hsupv hva hframe hreplay

/-- ERET comes to its return once the frame and the replay entries are read. -/
theorem eret_reads : runAct eret s = runAct (if (s₂.eretReturn bs rs).2 then
      tryCatch (leaveSlot 0 (s₂.eretReturn bs rs).1.stackNow) fun e => do
        set s₂
        throw e
    else pure ()) (s₂.eretReturn bs rs).1 :=
  (runAct_bind_gives (needSupv_gives hsupv)).trans ((runAct_bind_gives hva).trans ((runAct_bind_does hframe).trans
    ((runAct_bind_does hreplay).trans ((runAct_bind_gives (act_get s₂)).trans (runAct_bind_does (act_set s₂ _))))))

theorem eret_goesOn (hends : (s₂.eretReturn bs rs).2 = false) : exec (.eret f) s = .next (s₂.eretReturn bs rs).1 :=
  outcome_of_does ((eret_reads hsupv hva hframe hreplay).trans (runAct_else (Bool.eq_false_iff.1 hends)))

/-- R212, R213: the path ends, and its slot is filled again. -/
theorem eret_ends {s₃ : State} (hends : (s₂.eretReturn bs rs).2 = true)
    (hleave : Does (leaveSlot 0 (s₂.eretReturn bs rs).1.stackNow) (s₂.eretReturn bs rs).1 () s₃) : exec (.eret f) s = .next s₃ :=
  outcome_of_does ((eret_reads hsupv hva hframe hreplay).trans ((runAct_then hends).trans (act_tryCatch_ok hleave)))

end

/-! ## Returning (R261) -/

section
variable (s : State) (bs : List Byte) (rs : List Replay)

/-- R261: the lanes that go on. -/
def State.returnLanes : Word32 := BitVec.ofNat 32 (frameField bs 512 32) &&& s.g.trapLanes &&& ~~~ s.g.exited

/-- The group out of its handler, but for the path that trapped. -/
def State.returnGroup : Group :=
  { s.g with
    held := none, ovr := none, serving := none, exited := s.g.exited ||| (s.g.trapLanes &&& ~~~ s.returnLanes bs)
    yielded := s.g.yielded || s.path.header.getLsbD 4 }.setSupv false

/-- The path that trapped, at the place that its frame names, with nothing to replay. -/
def State.returnPath : Path :=
  { s.path with
    mask := s.returnLanes bs, clause := none, wait := none, replay := [], stalled := false
    top := frameField bs 312 6 == 0 && s.g.trapTop == some (BitVec.ofNat 56 (frameField bs 256 56))
    pc := BitVec.ofNat 56 (frameField bs 256 56), off := frameField bs 312 6 }

/-- The first word of the frame's instruction. -/
def frameWord (bs : List Byte) : Word32 := BitVec.ofNat 32 (frameField bs 128 32)

/-- The frame's instruction, which reads its registers afresh. -/
def State.returnFirst : Replay :=
  { words := ([frameWord bs] ++ [160, 192, 544].map fun lo => BitVec.ofNat 32 (frameField bs lo 32)).take (wordCount (frameWord bs))
    pc := BitVec.ofNat 56 (frameField bs 256 56), off := frameField bs 312 6, clock := s.path.clock, lmask := s.returnLanes bs, ops := none }

/-- The path after an instruction that is not to be executed again: at its first replay entry. -/
def State.returnEntry (r : Replay) : Path :=
  ({ s.returnPath bs with pc := r.pc, off := r.off, replay := rs, top := false } : Path).replayClock

/-- The path that goes on from a precise frame. -/
def State.returned : Path :=
  if frameField bs 312 6 = 0 && !(frameField bs 23 1 == 1 && !rs.isEmpty) then { s.returnPath bs with replay := rs }
  else if frameField bs 23 1 == 1 then
    match rs with
    | [] => { s.returnPath bs with off := frameField bs 312 6 + wordCount (frameWord bs) }
    | r :: _ => s.returnEntry bs rs r
  else { s.returnPath bs with replay := s.returnFirst bs :: rs }

theorem restartCommand_frame (eng tlnum : Nat) : s.restartCommand eng tlnum = { s with w := (s.restartCommand eng tlnum).w } := by
  unfold State.restartCommand
  split <;> rfl

theorem returnGroup_supv : (s.returnGroup bs).supv = false := setBit_clear _ (by decide)

/-- The state with the group out of its handler, the command that a delivered trap stopped going on (R124). -/
def State.leftHandler : State :=
  if frameField bs 21 1 == 1 then
    ({ s with granted := false, g := s.returnGroup bs } : State).restartCommand (frameField bs 24 4) (frameField bs 384 64)
  else { s with granted := false, g := s.returnGroup bs }

theorem leftHandler_frame : s.leftHandler bs = { s with granted := false, g := s.returnGroup bs, w := (s.leftHandler bs).w } := by
  unfold State.leftHandler
  split
  · rw [restartCommand_frame]
  · rfl

/-- With no lane left the path ends. -/
theorem returnFrom_ends (hm : s.returnLanes bs = 0) :
    s.returnFrom bs rs = ({ s.leftHandler bs with g := (s.leftHandler bs).g.setPath (s.leftHandler bs).slot none }, true) := if_pos hm

theorem returnFrom_goes (hasync : frameField bs 21 1 ≠ 1) (hm : s.returnLanes bs ≠ 0) :
    s.returnFrom bs rs = (({ s with granted := false, g := s.returnGroup bs } : State).setPath (s.returned bs rs), false) := by
  have hprecise : ¬ (frameField bs 21 1 == 1) = true := by simpa using hasync
  refine (if_neg hm).trans ((if_neg hprecise).trans ?_)
  unfold State.returned
  split
  · rfl
  · split
    · split <;> rfl
    · rfl

variable {bs rs}

/-- R261: a header is executed again before what is left to replay. -/
theorem returned_header (hskip : frameField bs 23 1 ≠ 1) (hoff : frameField bs 312 6 = 0) : s.returned bs rs = { s.returnPath bs with replay := rs } := by
  exact if_pos (by simp [hskip, hoff])

theorem returned_again (hskip : frameField bs 23 1 ≠ 1) (hoff : frameField bs 312 6 ≠ 0) :
    s.returned bs rs = { s.returnPath bs with replay := s.returnFirst bs :: rs } := by
  exact (if_neg (by simp [hoff])).trans (if_neg (by simp [hskip]))

theorem returned_entry (hskip : frameField bs 23 1 = 1) (r : Replay) (rest : List Replay) :
    s.returned bs (r :: rest) = s.returnEntry bs (r :: rest) r := by
  exact (if_neg (by simp [hskip])).trans (if_pos (by simp [hskip]))

theorem returned_skipped_header (hoff : frameField bs 312 6 = 0) : s.returned bs [] = { s.returnPath bs with replay := [] } := by
  exact if_pos (by simp [hoff])

theorem returned_skipped (hskip : frameField bs 23 1 = 1) (hoff : frameField bs 312 6 ≠ 0) :
    s.returned bs [] = { s.returnPath bs with off := frameField bs 312 6 + wordCount (frameWord bs) } := by
  exact (if_neg (by simp [hoff])).trans (if_pos (by simp [hskip]))

/-- Replay entries hold no lanes and no wait. -/
theorem returned_keeps : (s.returned bs rs).mask = s.returnLanes bs ∧ (s.returned bs rs).wait = none := by
  unfold State.returned State.returnEntry
  split
  · exact ⟨rfl, rfl⟩
  · split
    · split
      · exact ⟨rfl, rfl⟩
      · rw [replayClock_same]
        exact ⟨rfl, rfl⟩
    · exact ⟨rfl, rfl⟩

/-- The path keeps its clock, but where it goes on at a replay entry. -/
theorem returned_clock (h : frameField bs 23 1 ≠ 1 ∨ rs = []) : (s.returned bs rs).clock = s.path.clock := by
  unfold State.returned
  split
  · rfl
  · split
    · next hskip =>
      obtain rfl := h.resolve_left (not_not.2 (by simpa using hskip))
      rfl
    · rfl

theorem returned_place (h : frameField bs 23 1 ≠ 1 ∨ (frameField bs 312 6 = 0 ∧ rs = [])) :
    (s.returned bs rs).pc = BitVec.ofNat 56 (frameField bs 256 56) ∧ (s.returned bs rs).off = frameField bs 312 6 := by
  by_cases hoff : frameField bs 312 6 = 0
  · by_cases hskip : frameField bs 23 1 = 1
    · obtain ⟨-, rfl⟩ := h.resolve_left (not_not.2 hskip)
      rw [returned_skipped_header s hoff]
      exact ⟨rfl, rfl⟩
    · rw [returned_header s hskip hoff]
      exact ⟨rfl, rfl⟩
  · rw [returned_again s (h.resolve_right fun hr => hoff hr.1) hoff]
    exact ⟨rfl, rfl⟩

theorem returnEntry_at (r : Replay) (rest : List Replay) : (s.returnEntry bs (r :: rest) r).pc = r.pc ∧ (s.returnEntry bs (r :: rest) r).off = r.off
    ∧ (s.returnEntry bs (r :: rest) r).replay = r :: rest ∧ (r.ops.isSome = true → (s.returnEntry bs (r :: rest) r).clock = r.clock) := by
  refine ⟨?_, ?_, ?_, fun hops => ?_⟩
  · rw [State.returnEntry, replayClock_same]
  · rw [State.returnEntry, replayClock_same]
  · rw [State.returnEntry, replayClock_same]
  · exact congrArg Path.clock (if_pos hops)

end

/-- Settles O18: TRAP, ERET along its reads, and what it returns to. -/
theorem softwareTraps : Obligations.SoftwareTraps := by
  refine ⟨fun f s s₁ x hsupv hx => ?_, fun f s s₁ s₂ va bs rs hsupv hva hframe hreplay =>
    ⟨eret_goesOn hsupv hva hframe hreplay, fun s₃ => eret_ends hsupv hva hframe hreplay⟩, fun s bs rs => ⟨fun hm => ?_, fun hasync hm => ?_⟩⟩
  · intro va a hsave t
    exact (outcome_of_does (trap_does hx)).trans (congrArg _ (softTrap_saved hsupv hsave))
  · rw [returnFrom_ends s bs rs hm, leftHandler_frame]
    refine ⟨rfl, path?_setPath _ _ _, ?_, ?_⟩
    · rw [Group.supv, Group.setPath_gstat]
      exact returnGroup_supv s bs
    · have hlanes : s.g.trapLanes &&& ~~~ s.returnLanes bs = s.g.trapLanes := by
        rw [show s.returnLanes bs = 0#32 from hm, BitVec.not_zero, BitVec.and_allOnes]
      exact (Group.setPath_exited _ _ _).trans (congrArg (s.g.exited ||| ·) hlanes)
  · obtain ⟨hmask, hwait⟩ := returned_keeps s (bs := bs) (rs := rs)
    rw [returnFrom_goes s bs rs hasync hm, path_setPath]
    refine ⟨rfl, ?_, Group.setPath_held _ _ _, rfl, hmask, Group.setPath_sregs _ _ _, Group.setPath_exited _ _ _, rfl, hwait, ?_, returned_clock s,
      returned_place s, fun r rest hskip hrs => ?_, fun hoff hskip => ?_, fun hoff hskip => ?_, fun hoff hskip hrs => ?_⟩
    · rw [State.setPath, Group.supv, Group.setPath_gstat]
      exact returnGroup_supv s bs
    · rw [State.setPath, setPath_frame]
      rfl
    · subst hrs
      rw [returned_entry s hskip]
      exact returnEntry_at s r rest
    · rw [returned_header s hskip hoff]
    · rw [returned_again s hskip hoff]
      rfl
    · subst hrs
      rw [returned_skipped s hskip hoff]
      exact ⟨rfl, rfl, rfl⟩

end Sys2Proof.Machine
end

