-- ==== Sys2Proof/Proofs/HangAndIllegalWords.lean ====
section
/-! PROOFS. O50: the hang detector, and words that are no instruction (spec/08 R218 to R220, spec/11 R287, R295). -/

namespace Sys2Proof.Machine

/-! ## The limit (R220) -/

/-- R220: what a group becomes whose counter is looked at. -/
def Group.hangChecked (x : Group) : Group := if x.hangDue then x.hangs else x

theorem hangs_eq (x : Group) :
    x.hangs = { x with gstat := x.gstat ||| 4, hang := 0, hangPending := x.hangPending || x.hangctl.getLsbD 8 } := rfl

theorem hangChecked_due {x : Group} (h : 2 ^ (x.hangctl.toNat % 64) ≤ x.hang.toNat) : x.hangChecked = x.hangs := if_pos (decide_eq_true h)

theorem hangChecked_early {x : Group} (h : x.hang.toNat < 2 ^ (x.hangctl.toNat % 64)) : x.hangChecked = x :=
  if_neg fun hdue => absurd (of_decide_eq_true hdue) (Nat.not_le.2 h)

theorem hangChecked_id (x : Group) : x.hangChecked.id = x.id := by
  unfold Group.hangChecked
  split <;> rfl

/-- The looking changes groups alone. -/
theorem hangLimit_does {s : State} {g : GroupId} {x : Group} (h : s.group? g = some x) :
    ∃ t, exec (.hangLimit g) s = .next t ∧ (∀ a, t.byte a = s.byte a) ∧ t.nodes = s.nodes ∧ t.group? g = some x.hangChecked := by
  have hframe := modGroup_frame s g Group.hangChecked
  refine ⟨s.modGroup g Group.hangChecked, rfl, byte_of_mem (by rw [hframe]), by rw [hframe], ?_⟩
  rw [modGroup_group? hangChecked_id, h]
  rfl

/-! ## Counting (R219) -/

theorem group_counts_iff (x : Group) (w : Workgroup) (granted : Option Bool) : x.counts w granted = true ↔
    x.supv = false ∧ x.stop ≠ .stopped ∧ ∃ slot p, x.path? slot = some p ∧ p.counts x w (granted == some slot) = true := by
  simp only [Group.counts, Bool.and_eq_true, Bool.or_eq_true, Bool.not_eq_true', bne_iff_ne, Option.getD_eq_iff, Option.map_eq_some_iff,
    Bool.exists_bool]
  simp [and_assoc]

/-- The group whose counter has counted the cycles, where they count. -/
def Group.counted (x : Group) (w : Workgroup) (granted : Option Bool) (c : BitVec 48) : Group :=
  { x with hang := if x.counts w granted then x.hang + c else x.hang }

theorem pass_eq (x : Group) (w : Workgroup) (granted : Option Bool) (c : BitVec 48) : x.pass w granted c =
    { (x.counted w granted c).hangChecked with waited := if granted = none then x.waited + c.toNat else x.waited } := by
  have hcounted : (if x.counts w granted then { x with hang := x.hang + c } else x) = x.counted w granted c := by
    unfold Group.counted
    split <;> rfl
  have hwaited : (x.counted w granted c).hangChecked.waited = x.waited := by
    unfold Group.hangChecked
    split <;> rfl
  unfold Group.pass
  simp only [hcounted]
  change (if granted.isSome then (x.counted w granted c).hangChecked else _) = _
  cases granted with
  | none => 
    rw [← hwaited]
    rfl
  | some b => 
    rw [← hwaited]
    rfl

theorem path_counts_unparked {p : Path} (h : p.wait = none) (x : Group) (w : Workgroup) (granted : Bool) :
    p.counts x w granted = true ↔ p.stalled = false ∧ (granted = true ∨ p.clause = none ∨ eligible x w p = true) := by
  simp [Path.counts, h, or_assoc]

theorem path_counts_parked {p : Path} {q : Wait} (h : p.wait = some q) (x : Group) (w : Workgroup) (granted : Bool) :
    p.counts x w granted = !q.listed := by
  simp [Path.counts, h]

/-! ## Words that are no instruction (R287, R295) -/

/-- To ask whether a word is a clause header always has an answer. -/
theorem isHeaderAt_answers (va : Nat) (s : State) : ∃ b s₁, Does (isHeaderAt va) s b s₁ := by
  unfold isHeaderAt
  split
  · exact ⟨_, _, rfl⟩
  · simp only [Does, act_bind, act_stateful, act_get]
    split <;> exact ⟨_, _, rfl⟩

/-- What refuses a target has a cause: it is no wait for a tier swap (R44). -/
theorem checkTarget_cause {x : Word64} {s : State} {t : Trap} (h : Raises (checkTarget x) s t) : t.cause ≠ 0 := by
  by_cases hx : x.toNat % 4 = 0 ∧ vaSize ≤ x.toNat
  · have hraises := checkTarget_nonCanonical s hx.1 hx.2
    rw [Raises, h] at hraises
    cases hraises
    exact show cTFAULT ≠ 0 by decide
  · obtain ⟨b, s₁, hheader⟩ := isHeaderAt_answers x.toNat s
    rw [Raises, runAct_checkTarget_canonical s hx, runAct_bind_does hheader] at h
    cases b with
    | true => cases h
    | false =>
      cases h
      exact show cILLCL ≠ 0 by decide

section
variable {e : DecodeError} {w : Word32} {s : State}

/-- R287: the trap of a word that is no instruction, where no target of a transfer is refused first. -/
theorem illegalWord_raises (hgood : e = .field → ∀ target, s.badTransfer w = some target → Gives (checkTarget target) s ()) :
    Raises (illegalWord e w) s (s.pathTrap (errorCause (errorOn s.g.die e w)).1 (errorCause (errorOn s.g.die e w)).2 0) := by
  unfold illegalWord
  refine raises_bind (act_get s) ?_
  cases e with
  | field =>
    cases htarget : s.badTransfer w with
    | none => rfl
    | some target => exact raises_bind (hgood rfl target htarget) rfl
  | opcode | annot | header | straddle => rfl

/-- R295: a transfer whose target is refused raises that first. -/
theorem illegalWord_refused {target : Word64} {t : Trap} (htarget : s.badTransfer w = some target) (h : Raises (checkTarget target) s t) :
    Raises (illegalWord .field w) s t := by
  unfold illegalWord
  refine raises_bind (act_get s) ?_
  rw [htarget]
  exact raises_first h

theorem exec_unassignedOpcode {t : Trap} (hlive : s.live = true) (hpath : (s.g.path? s.slot).isSome = true) (h : Raises (illegalWord e w) s t) :
    exec (.unassignedOpcode e w) s = .next (s.enterHandler { trap := t, iw := if e == .header then [w] else s.path.frameWords }) := by
  have he : exec (.unassignedOpcode e w) s = execUnassignedOpcode e w s := rfl
  have h' : (illegalWord e w).run.run s = (.error (.trap t), s) := h
  rw [he, execUnassignedOpcode, hlive, hpath, Bool.and_self, if_pos rfl, h']

/-- R295: it is a trap of the instruction at issue. -/
theorem unassignedOpcode_traps {t : Trap} (hlive : s.live = true) (hpath : (s.g.path? s.slot).isSome = true) (h : Raises (illegalWord e w) s t)
    (he : e ≠ .header) (ht : t.cause ≠ 0) : exec (.unassignedOpcode e w) s = .next (s.takeTrap t) := by
  rw [exec_unassignedOpcode hlive hpath h, if_neg (by simpa using he), State.takeTrap, if_neg ht]

/-- Table 10-4: the causes of the errors, on a die that has the instruction. -/
theorem errorCause_on {c u : BitVec 8} (h : (e, c, u) ∈ [(DecodeError.opcode, 1#8, 1#8), (.straddle, 2#8, 2#8)]
      ∨ ((e, c, u) ∈ [(DecodeError.field, 1#8, 2#8), (.annot, 1#8, 3#8)] ∧ s.g.die.toNat < 2)) :
    errorCause (errorOn s.g.die e w) = (c, u) ∧ e ≠ .header ∧ c ≠ 0 := by
  have hdie (hd : s.g.die.toNat < 2) : ¬ (decide (2 ≤ s.g.die.toNat) && onlyA w) = true := by simp [Nat.not_le.2 hd]
  simp only [List.mem_cons, List.not_mem_nil, or_false, Prod.mk.injEq] at h
  obtain (⟨rfl, rfl, rfl⟩ | ⟨rfl, rfl, rfl⟩) | ⟨⟨rfl, rfl, rfl⟩ | ⟨rfl, rfl, rfl⟩, hd⟩ := h
  · exact ⟨rfl, by decide, by decide⟩
  · exact ⟨rfl, by decide, by decide⟩
  · rw [errorOn, if_neg (hdie hd)]
    exact ⟨rfl, by decide, by decide⟩
  · rw [errorOn, if_neg (hdie hd)]
    exact ⟨rfl, by decide, by decide⟩

end

/-- Settles O50: the counter and its limit, which waits stop it, its trap, and the traps of words that are no instruction. -/
theorem hangAndIllegalWords : Obligations.HangAndIllegalWords := by
  refine ⟨fun s g x hx => ?_, fun x w granted c => ⟨group_counts_iff x w granted, fun hlt => ?_, fun hle => ?_, ?_⟩,
    fun p x w granted => ⟨fun hp => path_counts_unparked hp x w granted, fun q hq => ⟨fun hwait => ?_, fun hwait => ?_⟩⟩,
    fun s hlive hgranted hpending hsupv => ?_, fun s e w c u hlive hpath => ⟨fun hcause hgood => ?_, fun target t he htarget ht => ?_, fun he => ?_⟩⟩
  · obtain ⟨t, hexec, hbyte, hnodes, hgroup⟩ := hangLimit_does hx
    exact ⟨t, hexec, hbyte, hnodes, fun hdue => by rw [hgroup, hangChecked_due hdue, hangs_eq], fun hearly => by rw [hgroup, hangChecked_early hearly]⟩
  · have hcount : (x.counted w granted c).hangChecked = x.counted w granted c := hangChecked_early hlt
    rw [pass_eq x w granted c, hcount]
    exact ⟨rfl, rfl, rfl⟩
  · have hcount : (x.counted w granted c).hangChecked = (x.counted w granted c).hangs := hangChecked_due hle
    rw [pass_eq x w granted c, hcount]
    exact ⟨rfl, rfl, rfl⟩
  · rw [pass_eq]
  · rw [path_counts_parked hq]
    obtain ⟨c, n, hon⟩ | ⟨f, n, hon⟩ | ⟨o, hon⟩ | ⟨d, hon⟩ | ⟨c, l, hon, hinstr | hinstr⟩ := hwait
    · rw [Wait.listed, hon]; rfl
    · rw [Wait.listed, hon]; rfl
    · rw [Wait.listed, hon]; rfl
    · rw [Wait.listed, hon]; rfl
    · rw [Wait.listed, hon, hinstr]; rfl
    · rw [Wait.listed, hon, hinstr]; rfl
  · rw [path_counts_parked hq]
    obtain hon | ⟨n, hon⟩ | hon | hon | ⟨c, l, hon, hinstr⟩ := hwait
    · rw [Wait.listed, hon]; rfl
    · rw [Wait.listed, hon]; rfl
    · rw [Wait.listed, hon]; rfl
    · rw [Wait.listed, hon]; rfl
    · rw [Wait.listed, hon, hinstr]; rfl
  · have he : exec (.hangTrap s.g.id) s = execHangTrap s.g.id s := rfl
    rw [he, execHangTrap, if_pos (by simp [hlive, hgranted, hpending, hsupv])]
    rfl
  · obtain ⟨hcause, he, hne⟩ := errorCause_on hcause
    have htrap := illegalWord_raises hgood
    rw [hcause] at htrap
    exact unassignedOpcode_traps hlive hpath htrap he hne
  · subst he
    exact unassignedOpcode_traps hlive hpath (illegalWord_refused htarget ht) (by decide) (checkTarget_cause ht)
  · subst he
    exact exec_unassignedOpcode hlive hpath (illegalWord_raises (w := w) fun h => by cases h)

end Sys2Proof.Machine
end

