-- ==== Sys2Proof/Proofs/Grants.lean ====
section
/-! PROOFS. O49: fetching and granting clauses (spec/08 R217, spec/09 R250, R251, spec/10 R261, spec/11 R278 to R282, R295). -/

namespace Sys2Proof.Machine

/-! ## A group comes to issue (R251) -/

/-- The group that a grant brings to issue, and what that leaves as it was. -/
theorem focus_does {s : State} {g : GroupId} {x : Group} (h : s.group? g = some x) (slot : Bool) :
    ∃ t, s.focus g slot = some t ∧ t.g = x ∧ t.live = true
      ∧ t = { s with g := t.g, w := t.w, others := t.others, otherWgs := t.otherWgs, live := t.live, slot := slot, granted := false } := by
  unfold State.group? at h
  unfold State.focus
  by_cases hlive : (s.live && s.g.id == g) = true
  · have hlive' : s.live = true := Bool.and_elim_left hlive
    rw [if_pos hlive] at h ⊢
    cases h
    exact ⟨_, rfl, rfl, hlive', rfl⟩
  · rw [if_neg hlive] at h ⊢
    rw [h]
    refine ⟨_, rfl, rfl, rfl, ?_⟩
    rw [focusWg_frame]

theorem setAside_frame (s : State) : s.setAside = { s with quarters := s.setAside.quarters } := by
  unfold State.setAside
  split <;> rfl

theorem quarters_setAside (s : State) :
    s.setAside.quarters = (if s.granted = true then [(s.g.id, s.slot, s.path.pc)] else []) ++ s.quarters := by
  unfold State.setAside
  split <;> rfl

theorem group?_setAside (s : State) (g : GroupId) : s.setAside.group? g = s.group? g := by
  rw [setAside_frame]
  rfl

theorem endWait_none {s : State} (h : s.path.wait = none) : s.endWait = s := by
  unfold State.endWait
  rw [h]

/-! ## What a grant leaves (R251, R261) -/

/-- The group that has just been granted. -/
def State.justGranted (s : State) : State :=
  { s with granted := true, g := { s.g with yielded := false, lastSlot := s.slot, waited := 0 } }

/-- The path at the first entry of what ERET left to replay. -/
def Path.atEntry (p : Path) (r : Replay) (rest : List Replay) : Path :=
  ({ p with pc := r.pc, off := r.off, clause := if r.pc = p.pc then p.clause else none, replay := r :: rest } : Path).replayClock

section
variable {s : State} (hwait : s.path.wait = none)
include hwait

/-- R251: from the first body word, or where it stood. -/
theorem grant_word (h : s.path.off ≠ 0 ∨ s.path.replay = []) :
    s.grant = s.justGranted.setPath { s.path with off := max 1 s.path.off } := by
  unfold State.grant
  rw [endWait_none hwait]
  simp only []
  split
  · next r rest hoff hreplay => exact absurd hreplay (by simp [h.resolve_left (not_not.2 hoff)])
  · rfl

theorem grant_replay {r : Replay} {rest : List Replay} (hoff : s.path.off = 0) (hreplay : s.path.replay = r :: rest) :
    s.grant = s.justGranted.afterAdvance s.path (s.path.atEntry r rest) := by
  unfold State.grant
  rw [endWait_none hwait]
  simp only [hoff, hreplay]
  rfl

end

theorem mem_afterAdvance (s : State) (p p' : Path) : (s.afterAdvance p p').mem = s.mem := by
  unfold State.afterAdvance
  simp only []
  split <;> rfl

/-! ## What may be granted (R250) -/

theorem canIssue_of {x : Group} {slot : Bool} {p : Path} (hp : x.path? slot = some p) (hwait : p.wait = none) (hheld : x.held ≠ some slot)
    (hstop : x.stop ≠ .stopped) : x.canIssue slot = true := by
  simp [Group.canIssue, hp, Path.unparked, hwait, hheld, hstop]

theorem running_of {w : Workgroup} (h : w.state = .resident ∨ w.state = .stopping) : w.running = true := by
  obtain h | h := h <;> rw [Workgroup.running, h] <;> rfl

/-- R250: the flags of WAIT are clear, and no tile that is named is filling or draining. -/
theorem eligible_iff (x : Group) (w : Workgroup) (p : Path) : eligible x w p = true ↔
    (∀ k, k < 12 → p.header.getLsbD (18 + k) = true → x.qflags.get k = 0)
      ∧ ∀ n ∈ p.tiles, n.toNat < w.ntiles → (Tile.ofBits (w.tiles.get n.toNat)).state ≠ 1 ∧ (Tile.ofBits (w.tiles.get n.toNat)).state ≠ 3 := by
  simp only [eligible, bitOf_toNat, Bool.and_eq_true, List.all_eq_true, List.mem_range, Bool.or_eq_true, Bool.not_eq_true', beq_iff_eq,
    Bool.and_eq_false_iff, decide_eq_false_iff_not, Bool.or_eq_false_iff, beq_eq_false_iff_ne]
  refine and_congr (forall₂_congr fun k _ => ?_) (forall₂_congr fun n _ => ?_)
  · rw [← Bool.not_eq_true, imp_iff_not_or]
  · rw [imp_iff_not_or]

section
variable {s : State} {g : GroupId} {slot : Bool} {x : Group} {w : Workgroup} {p : Path} (hx : s.group? g = some x) (hw : s.wg? (wgOf g) = some w)
  (hp : x.path? slot = some p) (hwait : p.wait = none) (hheld : x.held ≠ some slot) (hstop : x.stop ≠ .stopped)
  (hstate : w.state = .resident ∨ w.state = .stopping)
include hx hw hp hwait hheld hstop hstate

/-- CLAUSE_FETCH (R282) at the path of the group. -/
theorem clauseFetch_resumes {t : State} (hclause : p.clause = none) (ht : s.atPath g slot t) : Resumes (.clauseFetch g slot) s g slot t.fetchClause := by
  have he : exec (.clauseFetch g slot) s = execClauseFetch g slot s := rfl
  rw [Resumes, he, execClauseFetch, ← withGroup_atPath ht]
  simp only [hx, hw, hp, canIssue_of hp hwait hheld hstop, running_of hstate, hclause, Option.map_some, Option.isNone_none, Option.getD_some,
    Bool.and_self, if_true]

theorem grantable_eq : s.grantable g slot = (p.clause.isSome && eligible x w p) := by
  simp only [State.grantable, State.orderFree, hx, hw, hp, hwait, canIssue_of hp hwait hheld hstop, running_of hstate, Bool.true_and, Bool.and_true]

/-- R250: a clause with a flag of WAIT that is not clear is not granted. -/
theorem clauseGrant_waits (hstill : s.stillGranted g slot = false)
    (h : s.tripped = true ∨ ∃ k, k < 12 ∧ p.header.getLsbD (18 + k) = true ∧ x.qflags.get k ≠ 0) : exec (.clauseGrant g slot) s = .next s := by
  have he : exec (.clauseGrant g slot) s = execClauseGrant g slot s := rfl
  rw [he, execClauseGrant]
  by_cases htrip : s.tripped = true
  · rw [if_pos htrip]
  · obtain ⟨k, hk, hflag, hset⟩ := h.resolve_left htrip
    have hnot : eligible x w p = false := Bool.eq_false_iff.2 fun hel => hset (((eligible_iff x w p).1 hel).1 k hk hflag)
    rw [if_neg htrip, hstill]
    simp only [hx, grantable_eq hx hw hp hwait hheld hstop hstate, hnot, Bool.and_false, Bool.false_and, Bool.false_eq_true, if_false]

/-- R251: the group that the quarter chooses comes to issue, the grant of another quarter standing beside it. -/
theorem clauseGrant_grants (hclause : p.clause ≠ none) (htrip : s.tripped = false) (hstill : s.stillGranted g slot = false)
    (hfree : s.quarterFree x = true) (hchosen : s.chosen x slot = true) (hel : eligible x w p = true) :
    ∃ t : State, exec (.clauseGrant g slot) s = .next t.grant ∧ t.g = x ∧ t.slot = slot ∧ t.path = p ∧ t.live = true ∧ t.mem = s.mem
      ∧ t.quarters = (if s.granted = true then [(s.g.id, s.slot, s.path.pc)] else []) ++ s.quarters := by
  have he : exec (.clauseGrant g slot) s = execClauseGrant g slot s := rfl
  obtain ⟨t, hfocus, hg, hlive, ht⟩ := focus_does ((group?_setAside s g).trans hx) slot
  have hslot : t.slot = slot := by rw [ht]
  refine ⟨t, ?_, hg, hslot, ?_, hlive, ?_, ?_⟩
  · rw [he, execClauseGrant, htrip, hstill]
    simp only [hx, grantable_eq hx hw hp hwait hheld hstop hstate, Option.isSome_iff_ne_none.2 hclause, hel, hfree, hchosen, Bool.and_self,
      Bool.false_eq_true, if_false, if_true, hfocus]
  · rw [State.path, hg, hslot, hp]
    rfl
  · rw [ht, setAside_frame]
  · rw [ht, ← quarters_setAside]

end

/-- R251: a grant that another quarter holds goes on. -/
theorem clauseGrant_goesOn {s : State} {g : GroupId} {slot : Bool} {x : Group} (hx : s.group? g = some x) (htrip : s.tripped = false)
    (hstill : s.stillGranted g slot = true) : ∃ t, exec (.clauseGrant g slot) s = .next t ∧ t.granted = true ∧ t.slot = slot ∧ t.g = x := by
  have he : exec (.clauseGrant g slot) s = execClauseGrant g slot s := rfl
  have hgroup (qs : List (GroupId × Bool × BitVec 56)) : ({ s.setAside with quarters := qs } : State).group? g = some x :=
    (group?_setAside s g).trans hx
  obtain ⟨t, hfocus, hg, hlive, ht⟩ := focus_does (hgroup (s.setAside.quarters.filter fun q => !(q.1 == g && q.2.1 == slot))) slot
  refine ⟨{ t with granted := true }, ?_, rfl, by rw [ht], hg⟩
  rw [he, execClauseGrant, htrip, hstill]
  simp only [Bool.false_eq_true, if_false, if_true, hfocus]

/-! ## The choice of an issue quarter (R217, R251) -/

theorem offered_first {s : State} {x : Group} (h : s.grantable x.id (!x.lastSlot) = true) : s.offered x = some (!x.lastSlot) := if_pos h

theorem offered_second {s : State} {x : Group} (h : s.grantable x.id (!x.lastSlot) = false) :
    s.offered x = if s.grantable x.id x.lastSlot = true then some x.lastSlot else none := by
  refine (if_neg (Bool.eq_false_iff.1 h)).trans ?_
  rw [Bool.not_not]

section
variable {a b : Group} (p q : Path)

/-- A clause that has waited 448 cycles, and longer than the other, is granted first. -/
theorem ahead_oldest (ha : 448 ≤ a.waited) (hab : b.waited < a.waited) : ahead (a, p) (b, q) = true ∧ ahead (b, q) (a, p) = false := by
  have hba : ¬ a.waited < b.waited := by omega
  have hne : b.waited ≠ a.waited := by omega
  simp [ahead, ha, hab, hba, hne]

theorem ahead_deterministic (ha : a.waited < 448) (hb : b.waited < 448) (hadet : a.det = true) (hbdet : b.det = true) (hayield : a.yielded = false)
    (hbyield : b.yielded = false) : ahead (a, p) (b, q) = true ↔ p.clock.toNat < q.clock.toNat
      ∨ (p.clock = q.clock ∧ (a.gidx < b.gidx ∨ (a.gidx = b.gidx ∧ idLe a.id b.id = true))) := by
  have hyoung : ¬ (448 ≤ a.waited ∨ 448 ≤ b.waited) := by omega
  simp [ahead, hyoung, Group.grantClass, hadet, hbdet, hayield, hbyield]

end

/-! ## Fetch (R278, R280, R282, R295) -/

/-- R295: the trap of a fault of the path's clause header, behind which stands what is left to replay (R260, R261). -/
def State.headerFault (u : State) (f : Flt) (kind : Nat) (iw : Word32) : State :=
  let rs := (u.path.replay.take 16).map u.g.captured
  (u.setPath { u.path with off := 0, replay := rs.take 1 ++ rs }).enterHandler
    { trap := { cause := f.cause, sub := f.sub, lmask := u.path.mask, va := 0, kind := BitVec.ofNat 4 kind, level := f.level }, iw := [iw] }

theorem headerTrap_fault {u : State} {f : Flt} (h : f.cause ≠ 0) (kind : Nat) (iw : Word32) : u.headerTrap f kind iw = u.headerFault f kind iw :=
  if_neg (by simpa [Flt.isHold] using h)

theorem bitsOf_toNat {n : Nat} (v : BitVec n) (lo w : Nat) : bitsOf v.toNat lo w = (v.extractLsb' lo w).toNat := by
  rw [BitVec.extractLsb'_toNat, bitsOf, Nat.shiftRight_eq_div_pow]

/-- R280: a word that may stand as a clause header. -/
def isHeaderWord (w : Word32) : Prop :=
  w.extractLsb' 30 2 = 3 ∧ w.extractLsb' 0 4 = 0 ∧ ∀ lo ∈ [10, 14], (w.extractLsb' lo 4).toNat < 12 ∨ w.extractLsb' lo 4 = 15

theorem flagSelect_iff (v : BitVec 4) : (v.toNat == 12 || v.toNat == 13 || v.toNat == 14) = false ↔ v.toNat < 12 ∨ v = 15 := by
  revert v
  decide

theorem headerOk_iff (w : Word32) : headerOk w = true ↔ isHeaderWord w := by
  have hform : (w.extractLsb' 30 2).toNat = 3 ↔ w.extractLsb' 30 2 = 3 := BitVec.toNat_inj (y := 3#2)
  have hzero : (w.extractLsb' 0 4).toNat = 0 ↔ w.extractLsb' 0 4 = 0 := BitVec.toNat_inj (y := 0#4)
  simp only [headerOk, isHeaderWord, bitsOf_toNat, Bool.and_eq_true, beq_iff_eq, Bool.not_eq_true', flagSelect_iff, hform, hzero,
    List.forall_mem_cons]
  tauto

theorem form_isHeader {w : Word32} (hform : w.extractLsb' 30 2 = 3) : (bitsOf w.toNat 30 2 != 3) = false := by
  rw [bitsOf_toNat, hform]
  rfl

section
variable {s u v : State} {f : Flt} {w : Word32}

/-- R282: the header itself cannot be read. -/
theorem fetchClause_fault (hf : s.fetchCode s.path.headerAt 1 = (u, .error f)) (hcause : f.cause ≠ 0) : s.fetchClause = u.headerFault f 3 0 := by
  unfold State.fetchClause
  simp only [hf, headerTrap_fault hcause]

variable (hw : s.fetchCode s.path.headerAt 1 = (u, .ok [w]))
include hw

theorem fetchClause_noHeader (hne : w.extractLsb' 30 2 ≠ 3) : s.fetchClause = u.headerFault { cause := 2, sub := 1 } 0 w := by
  have hform : (bitsOf w.toNat 30 2 != 3) = true := by
    rw [bitsOf_toNat, bne_iff_ne]
    exact fun h => hne (BitVec.eq_of_toNat_eq h)
  rw [← headerTrap_fault (f := { cause := 2, sub := 1 }) (by decide)]
  unfold State.fetchClause
  simp only [hw, List.headD_cons, hform, if_true]
  rfl

section
variable (hform : w.extractLsb' 30 2 = 3)
include hform

theorem fetchClause_bodyFault (hf : u.fetchCode (s.path.headerAt + 4) (bodyLen w) = (v, .error f)) (hcause : f.cause ≠ 0) :
    s.fetchClause = v.headerFault f 3 w := by
  rw [← headerTrap_fault hcause]
  unfold State.fetchClause
  simp only [hw, List.headD_cons, form_isHeader hform, Bool.false_eq_true, if_false, hf]

variable {body : List Word32} (hbody : u.fetchCode (s.path.headerAt + 4) (bodyLen w) = (v, .ok body))
include hbody

/-- R282: the header is checked once its body is fetched. -/
theorem fetchClause_refused (h : ¬ isHeaderWord w ∨ s.path.headerAt % 4 ≠ 0) : s.fetchClause = v.headerFault { cause := 2, sub := 1 } 0 w := by
  have hrefused : (!headerOk w || s.path.headerAt % 4 != 0) = true := by
    simpa [← headerOk_iff] using h
  rw [← headerTrap_fault (f := { cause := 2, sub := 1 }) (by decide)]
  unfold State.fetchClause
  simp only [hw, List.headD_cons, form_isHeader hform, Bool.false_eq_true, if_false, hbody, hrefused, if_true]
  rfl

theorem fetchClause_clause (hheader : isHeaderWord w) (haligned : s.path.headerAt % 4 = 0) (hoff : s.path.off ≤ bodyLen w) :
    s.fetchClause = v.setPath { s.path with clause := some (w :: body) } := by
  have hgood : (!headerOk w || s.path.headerAt % 4 != 0) = false := by
    simp [(headerOk_iff w).2 hheader, haligned]
  unfold State.fetchClause
  simp only [hw, List.headD_cons, form_isHeader hform, Bool.false_eq_true, if_false, hbody, hgood, Nat.not_lt.2 hoff]

end

end

/-- Settles O49: fetching, granting a clause by what it waits for, the choice of a quarter, and a grant that expires. -/
theorem grants : Obligations.Grants := by
  refine ⟨fun s g slot x w p hx hw hp hwait hheld hstop hstate => ⟨fun t hclause => clauseFetch_resumes hx hw hp hwait hheld hstop hstate hclause,
      fun hclause htrip hstill hfree hchosen hflags htiles => ?_, clauseGrant_waits hx hw hp hwait hheld hstop hstate,
      clauseGrant_goesOn hx⟩,
    fun s x => ⟨offered_first, offered_second⟩, fun a b p q => ⟨ahead_oldest p q, ahead_deterministic p q⟩, fun s u v w body f => ?_,
    fun s hgranted => ?_⟩
  · obtain ⟨t, hexec, hg, rfl, hpath, hlive, hmem, hquarters⟩ := clauseGrant_grants hx hw hp hwait hheld hstop hstate hclause htrip hstill hfree hchosen
      ((eligible_iff x w p).2 ⟨hflags, htiles⟩)
    have hwait' : t.path.wait = none := by rw [hpath, hwait]
    refine ⟨fun hoff r rest hreplay => ?_, fun hword => ?_⟩
    · have hgrant := grant_replay hwait' (hpath ▸ hoff) (hpath ▸ hreplay)
      refine ⟨t.grant, hexec, ?_⟩
      have hentry : t.grant.path = { p.atEntry r rest with stalled := false } := by rw [hgrant, path_afterAdvance, hpath]
      rw [hentry, Path.atEntry, replayClock_same, hreplay]
      refine ⟨rfl, rfl, rfl, fun hsame => if_pos hsame, byte_of_mem ?_⟩
      rw [hgrant, mem_afterAdvance]
      exact hmem
    · have hgrant := grant_word hwait' (hpath.symm ▸ hword)
      have hstep : ({ p with off := max 1 p.off, wait := none } : Path) = { p with off := max 1 p.off } := by rw [← hwait]
      refine ⟨t.grant, hexec, ?_⟩
      rw [hgrant, hpath, hstep, ← hg, ← hquarters]
      exact ⟨rfl, hlive, rfl, rfl, rfl, byte_of_mem hmem⟩
  · intro pc isHeader n refused
    have hn : n = bodyLen w := congrArg (· + 1) (bitsOf_toNat w 5 5).symm
    refine ⟨fetchClause_fault, fun hfetch => ⟨fetchClause_noHeader hfetch, fun hform => ⟨?_, fun hbody => ⟨?_, fun hheader haligned hoff => ?_⟩⟩⟩⟩
    · rw [hn]
      exact fetchClause_bodyFault hfetch hform
    · rw [hn] at hbody
      exact fetchClause_refused hfetch hform hbody
    · rw [hn] at hbody hoff
      exact fetchClause_clause hfetch hform hbody hheader haligned hoff
  · have he : exec .grantExpiry s = execGrantExpiry s := rfl
    rw [he, execGrantExpiry, if_pos hgranted]
    exact ⟨rfl, rfl, rfl⟩

end Sys2Proof.Machine
end
